-- ==== Sys2Proof/Word.lean ====
section
/-! DEFINITION. The word and byte types and their plainest arithmetic (R8, R64: 64 data bits to a word, 8 to a byte). -/
namespace Sys2Proof

/-- A stored word: 64 data bits (00_scope.md, Notation). -/
abbrev Word := BitVec 64

/-- A byte; byte 0 of a word is bits 7:0 (R8). -/
abbrev Byte := BitVec 8

/-- Saturating addition in a counter of `w` bits. -/
def satAdd (w a b : Nat) : Nat := min (a + b) (2 ^ w - 1)

/-- The word that holds `n` modulo 2^64. -/
def word (n : Nat) : Word := BitVec.ofNat 64 n

end Sys2Proof
end

