-- ==== Sys2Proof/Syntax.lean ====
section
/-! DEFINITION. The commands of the block: one constructor for each row of spec/opcode_table.json, in the table's order.
The table gives the rows no operands. Each constructor carries the time that passes before it (`Moment`), and a row
that brings something from outside the gate carries what it brings (log 2). -/
namespace Sys2Proof

/-- What a SECDED check finds (R454). -/
inductive Find where
  | clean
  | corrected
  | bad
  deriving DecidableEq, Repr

/-- What the checks of one read of several words find: the first word that is not clean. -/
structure WordFind where
  find : Find
  index : Nat
  deriving DecidableEq, Repr

/-- A page of the tier that a read met with a corrected or an uncorrectable word (R320): extent number and page. -/
structure PageFind where
  extent : Nat
  page : Nat
  find : Find
  deriving DecidableEq, Repr

/-- What the code check of a read of a store finds, beyond the reads whose finds a row's own operands bring (R15, R84, R113, R291,
R293, R301, R320, R454, R455): a row of SSM, session rings among them, a word of a session entry, of a ledger or of the retained store,
the edge's held verdicts or the unit stores of a session's items, the unit stores loaded from the image, words of a slot FIFO or of a
release queue, a page of the tier; and a report of a tier device's own correction (R297). -/
inductive StoreFind where
  | row (row : Nat) (find : Find)
  | entry (slot : Nat) (find : WordFind)
  | ledger (tenant : Nat) (find : Find)
  | retained (find : WordFind)
  | unit (slot : Nat) (find : Find)
  | unitImage (find : Find)
  | fifo (egress : Bool) (lane : Nat) (find : Find)
  | release (lane : Nat) (find : Find)
  | page (find : PageFind)
  | onDie (device : Nat)
  deriving DecidableEq, Repr

/-- The moment of a command: the time that passes before it, whole REFCLK edges, then the interpolator's quarters of a nanosecond past
the last edge (R371); and what the checks of the reads at that moment find. -/
structure Moment where
  edges : Nat
  quarters : Nat
  finds : List StoreFind := []
  deriving DecidableEq, Repr

/-- The way a packet arrives: HRP with its partition sideband (R349), or SMP. -/
inductive Via where
  | hrp (part : Nat)
  | smp
  deriving DecidableEq, Repr

/-- An item: eight words (00_scope.md, Notation). -/
structure Item where
  w0 : Word
  w1 : Word
  w2 : Word
  w3 : Word
  w4 : Word
  w5 : Word
  w6 : Word
  w7 : Word
  deriving DecidableEq, Repr

/-- A register-access beat on HRP: the partition sideband and its two words (R492), and what the code check of the register
read finds, for a register that is protected storage (R454, R455). -/
structure RegBeat where
  part : Nat
  w0 : Word
  w1 : Word
  find : Find
  deriving DecidableEq, Repr

/-- A ring message as it arrives on a link, with what the code checks find, and whether its header can be read (R394, R400). -/
structure RxMsg where
  link : Nat
  item : Item
  find : Find
  headerReadable : Bool := true
  deriving DecidableEq, Repr

/-- An SMP frame: its control byte, the words whose 72 bits were all shifted, its bit count, and the first word that the codes
find not clean (R501 to R503). -/
structure SmpFrame where
  control : BitVec 8
  words : List Word
  bits : Nat
  find : WordFind
  deriving DecidableEq, Repr

/-- What the training of one tier device finds (R296, R297): density in GiB, the rate codes that pass, and the training values of
its two channels, 48 words each (R428). -/
structure DevTrain where
  gib : Nat
  rates : List Nat
  values : List Word
  deriving DecidableEq, Repr

/-- Why the power-on source asserts (R417). -/
inductive PowerCause where
  | pwrOk
  | refclkGap
  deriving DecidableEq, Repr

/-- What ends SLEEP (R438). -/
inductive WakeCause where
  | hrpWord
  | smpPacket
  | fspItem
  | clkCtlWrite
  deriving DecidableEq, Repr

/-- A row that a scrub of the SSM met (R292, R293): region, bank. -/
structure BankFind where
  region : Nat
  bank : Nat
  find : Find
  deriving DecidableEq, Repr

/-- What a tier access meets (R320, R508): a word still uncorrectable after its retry, or a command to the device that
fails and fails again. -/
inductive TierFind where
  | clean
  | corrected
  | bad
  | portFail
  deriving DecidableEq, Repr

/-- What the checks meet while an item is fetched or screened (R455): SSM rows by address, the item's own unit stores, the
unit stores loaded from the image. -/
inductive ItemFind where
  | clean
  | ssmCorrected (row : Nat)
  | ssmBad (row : Nat)
  | unitCorrected
  | unitBad
  | unitImageBad
  deriving DecidableEq, Repr

/-- The commands, one for each row of the table. -/
inductive Instr where
  | commandPacketArrival (m : Moment) (via : Via) (words : List Word) (find : Find) (headerReadable : Bool)
  | nop (m : Moment)
  | identify (m : Moment)
  | capsRead (m : Moment)
  | sessionOpen (m : Moment)
  | sessionFeed (m : Moment)
  | sessionClose (m : Moment)
  | sessionCancel (m : Moment)
  | sessionPark (m : Moment)
  | sessionResume (m : Moment)
  | sessionQuery (m : Moment) (find : WordFind)
  | stopSet (m : Moment)
  | draftResolve (m : Moment)
  | tenantSet (m : Moment)
  | budgetGrant (m : Moment)
  | budgetRead (m : Moment)
  | prefixPublish (m : Moment)
  | prefixDrop (m : Moment)
  | adapterLoad (m : Moment)
  | tierScrub (m : Moment)
  | tierScrubDone (m : Moment) (finds : List PageFind)
  | tierStatus (m : Moment)
  | imageLoadBegin (m : Moment)
  | imageLoadData (m : Moment)
  | imageLoadEnd (m : Moment)
  | imageCommit (m : Moment)
  | imageQuery (m : Moment)
  | modePrepare (m : Moment)
  | modeCommit (m : Moment)
  | modeAbort (m : Moment)
  | schedulePin (m : Moment)
  | timeSet (m : Moment)
  | timeAdjust (m : Moment)
  | timeQuery (m : Moment)
  | partitionConfig (m : Moment)
  | partitionReset (m : Moment)
  | partitionResetDone (m : Moment) (part : Nat)
  | regionReset (m : Moment)
  | gateReset (m : Moment)
  | jobRestart (m : Moment)
  | pairTwin (m : Moment)
  | unpairTwin (m : Moment)
  | statsRead (m : Moment)
  | troubleRead (m : Moment)
  | troubleClear (m : Moment)
  | ageReport (m : Moment)
  | registerWrite (m : Moment) (beat : RegBeat)
  | tmNowRead (m : Moment) (beat : RegBeat)
  | ptSsmRead (m : Moment) (beat : RegBeat)
  | ptSsmWrite (m : Moment) (beat : RegBeat)
  | ptSsmAccessDone (m : Moment) (part : Nat) (find : WordFind)
  | ptIntWrite (m : Moment) (beat : RegBeat)
  | trbStickyWrite (m : Moment) (beat : RegBeat)
  | tokenIntake (m : Moment) (part : Nat) (w : Word) (find : Find) (entry : WordFind)
  | draftIntake (m : Moment) (part : Nat) (w : Word) (find : Find)
  | fspIngressSlot (m : Moment) (lane gap : Nat) (item : Item) (taken : Nat) (find : Find) (stalls : Nat)
  | winteringDone (m : Moment) (lane : Nat) (find : TierFind)
  | fspEgressSlot (m : Moment) (lane gap : Nat) (find : Find) (stalls : Nat)
  | pkeTierRead (m : Moment) (lane count : Nat) (find : TierFind)
  | screeningItemStart (m : Moment) (region : Nat) (find : ItemFind)
  | screeningItemDone (m : Moment) (cluster : Nat) (find : ItemFind)
  | queueOver (m : Moment) (slot : Nat)
  | tokenRelease (m : Moment) (slot : Nat) (find : Find)
  | tIn (m : Moment) (slot : Nat)
  | smpWrite (m : Moment) (frame : SmpFrame)
  | smpRead (m : Moment) (frame : SmpFrame)
  | smpStatus (m : Moment) (frame : SmpFrame)
  | hrpErr (m : Moment)
  | slippedNotice (m : Moment) (slot : Nat)
  | interruptMessageSend (m : Moment)
  | grpTxSlot (m : Moment) (link : Nat)
  | mirrorEnqueue (m : Moment)
  | ringForward (m : Moment) (msg : RxMsg)
  | item (m : Moment) (msg : RxMsg)
  | openMsg (m : Moment) (msg : RxMsg)
  | openReply (m : Moment) (msg : RxMsg)
  | stepMsg (m : Moment) (msg : RxMsg)
  | resolve (m : Moment) (msg : RxMsg)
  | streamEnd (m : Moment) (msg : RxMsg)
  | close (m : Moment) (msg : RxMsg)
  | cancel (m : Moment) (msg : RxMsg)
  | cmd (m : Moment) (msg : RxMsg)
  | cmdReply (m : Moment) (msg : RxMsg)
  | time (m : Moment) (msg : RxMsg)
  | balance (m : Moment) (msg : RxMsg)
  | prepare (m : Moment) (msg : RxMsg)
  | ack (m : Moment) (msg : RxMsg)
  | go (m : Moment) (msg : RxMsg)
  | abort (m : Moment) (msg : RxMsg)
  | mirror (m : Moment) (msg : RxMsg)
  | pair (m : Moment) (msg : RxMsg)
  | twinCopyDone (m : Moment)
  | restart (m : Moment) (msg : RxMsg)
  | linkLockLoss (m : Moment) (link : Nat)
  | fspClockLoss (m : Moment)
  | solsticeTick (m : Moment) (fclkEdges : Option Nat) (pllLocks : Bool)
  | deadlineReached (m : Moment) (slot : Nat)
  | ttlExpiry (m : Moment)
  | cancelledFree (m : Moment) (slot : Nat)
  | openTimeout (m : Moment) (slot : Nat)
  | forwardTimeout (m : Moment)
  | commitGoDecision (m : Moment)
  | commitUndecided (m : Moment)
  | commitTakeEffect (m : Moment)
  | imageRetire (m : Moment)
  | twinTakeover (m : Moment)
  | measurementLoss (m : Moment)
  | ppsEdge (m : Moment)
  | trefMeasurement (m : Moment) (drift : Int)
  | ageingMeasurement (m : Moment) (codes : List Nat) (spine : Nat)
  | throttleAssert (m : Moment)
  | throttleDeassert (m : Moment)
  | gclkStep (m : Moment)
  | pwrSettleDone (m : Moment) (codes : List Nat) (spine : Nat)
  | throttleFloorViolation (m : Moment)
  | clusterWakeDone (m : Moment) (cluster : Nat)
  | clusterWakeTimeout (m : Moment) (cluster : Nat) (railFail : Bool)
  | clusterIdleStop (m : Moment) (cluster : Nat)
  | sleepEntry (m : Moment)
  | sleepExit (m : Moment) (cause : WakeCause)
  | tierDeviceSelfref (m : Moment) (device : Nat)
  | ssmScrub (m : Moment) (finds : List BankFind)
  | ssmWriteBack (m : Moment) (row : Nat)
  | tableScrub (m : Moment) (session ledger retained : Find)
  | powerOn (m : Moment) (cause : PowerCause) (cycles : Nat)
  | porstN (m : Moment) (cycles : Nat) (taken : Bool)
  | sysrstN (m : Moment) (cycles : Nat) (taken : Bool)
  | cmiWatchdog (m : Moment)
  | resetRelease (m : Moment) (pllLocks : Bool) (find : WordFind)
  | tierTrainingDone (m : Moment) (results : List DevTrain)
  | rstOutRelease (m : Moment)
  | extest (m : Moment)
  | samplePreload (m : Moment) (bits : List Bool)
  | instr (m : Moment)
  | bypass (m : Moment) (encoding : BitVec 8)
  | trstN (m : Moment)
  | slotStartMissed (m : Moment) (egress : Bool) (lane : Nat)
  | blockHashDone (m : Moment) (slot : Nat)
  deriving DecidableEq, Repr

end Sys2Proof
end

