-- ==== Sys2Proof/Machine/Bits.lean ====
section
/-! DEFINITION. Bit fields, packing and sparse stores (00_scope.md, Conventions: bit ranges are [hi:lo], inclusive,
bit 0 least significant; word 0 lies lowest). -/
namespace Sys2Proof.Machine

/-- Field [hi:lo] of a natural number's binary digits. -/
def nf (v hi lo : Nat) : Nat := (v >>> lo) % 2 ^ (hi + 1 - lo)

/-- Field [hi:lo] of a word. -/
def bf (w : Word) (hi lo : Nat) : Nat := nf w.toNat hi lo

/-- Bit [n] of a word. -/
def bit (w : Word) (n : Nat) : Bool := w.getLsbD n

/-- 1 for a set bit, 0 for a clear one. -/
def b2n (b : Bool) : Nat := if b then 1 else 0

/-- `v` placed at bit `lo` in a field of `width` bits. -/
def place (v width lo : Nat) : Nat := (v % 2 ^ width) <<< lo

/-- The word made of fields, each a value with its range [hi:lo]. -/
def pack (fs : List (Nat × Nat × Nat)) : Word :=
  word (fs.foldl (fun a f => a ||| place f.1 (f.2.1 + 1 - f.2.2) f.2.2) 0)

/-- The value of a two's-complement number of `w` bits. -/
def sext (w v : Nat) : Int :=
  if v % 2 ^ w < 2 ^ (w - 1) then ((v % 2 ^ w : Nat) : Int) else ((v % 2 ^ w : Nat) : Int) - ((2 ^ w : Nat) : Int)

/-- The two's-complement bits, `w` wide, of an integer. -/
def twos (w : Nat) (v : Int) : Nat := (v % ((2 ^ w : Nat) : Int)).toNat

/-- The number of binary digits of `n`; 0 for 0 (R241). -/
def bitlen (n : Nat) : Nat := if n = 0 then 0 else Nat.log2 n + 1

/-- The integer ceiling of a quotient; 0 when the divisor is 0. -/
def cdiv (a b : Nat) : Nat := if b = 0 then 0 else (a + b - 1) / b

/-- The natural number whose words, lowest first, are given. -/
def joinWords (ws : List Word) : Nat := ws.foldr (fun w a => w.toNat + 2 ^ 64 * a) 0

/-- The first `n` words, lowest first, of a natural number. -/
def splitWords : Nat → Nat → List Word
  | 0, _ => []
  | n + 1, v => word (v % 2 ^ 64) :: splitWords n (v / 2 ^ 64)

/-- Byte `i` of a word (R8). -/
def wbyte (w : Word) (i : Nat) : Byte := BitVec.ofNat 8 (bf w (8 * i + 7) (8 * i))

/-- Element `i` of a list of words; zero beyond its end. -/
def wat (ws : List Word) (i : Nat) : Word := ws.getD i 0#64

/-- Lane `l`, `w` bits wide, of a run of words packed from bit 0 of word 0 upward, with 64 a multiple of `w`. -/
def lane (ws : List Word) (w l : Nat) : Nat :=
  let n := 64 / w
  bf (wat ws (l / n)) (w * (l % n) + w - 1) (w * (l % n))

/-- The words with lane `l`, `w` bits wide, set to `v`. -/
def setLane (ws : List Word) (w l v : Nat) : List Word :=
  let n := 64 / w
  let x := (wat ws (l / n)).toNat
  let lo := w * (l % n)
  ws.set (l / n) (word (x - place (nf x (lo + w - 1) lo) w lo + place v w lo))

/-- The value a sparse store holds for a key; `d` for a key it does not list. -/
def sget (d : α) : List (Nat × α) → Nat → α
  | [], _ => d
  | (k, v) :: t, i => if k = i then v else sget d t i

/-- The store with `v` for key `i`: keys stay strictly rising and no entry equals `d`. -/
def sset [DecidableEq α] (d : α) (m : List (Nat × α)) (i : Nat) (v : α) : List (Nat × α) :=
  m.filter (fun c => c.1 < i) ++ (if v = d then [] else [(i, v)]) ++ m.filter (fun c => i < c.1)

/-- The canonical form of a sparse store: keys strictly rising, no entry equal to the default. -/
def swf [DecidableEq α] (d : α) : List (Nat × α) → Bool
  | [] => true
  | (k, v) :: t => decide (v ≠ d) && (t.all (fun c => decide (k < c.1))) && swf d t

/-- Element `i` of a list; `d` beyond its end. -/
def at' (d : α) (l : List α) (i : Nat) : α := l.getD i d

end Sys2Proof.Machine
end

