-- ==== Sys2Proof/Machine/Mem.lean ====
section
/-! DEFINITION. Shared screening memory as bytes (R278): row `A` holds eight words, word `k` of it eight bytes, at byte
address 64 A + 8 k + b. An unlisted byte reads as zero, as a cold reset leaves every row (R294). -/
namespace Sys2Proof.Machine

/-- The memory: the bytes that differ from zero, addresses strictly rising. -/
abbrev Memory := List Host.Cell

/-- The canonical form: addresses strictly rising, no listed zero. -/
def Memory.wf (m : Memory) : Bool := swf 0#8 m

/-- The byte at an address. -/
def Memory.byte (m : Memory) (a : Nat) : Byte := sget 0#8 m a

/-- Numbers the bytes `bs` from address `a` on, leaving the zero bytes out. -/
def cellsFrom : Nat → List Byte → Memory
  | _, [] => []
  | a, b :: bs => (if b = 0#8 then [] else [(a, b)]) ++ cellsFrom (a + 1) bs

/-- The memory with the bytes `bs` from address `a` on; every other byte keeps its value. -/
def Memory.put (m : Memory) (a : Nat) (bs : List Byte) : Memory :=
  m.filter (fun c => c.1 < a) ++ cellsFrom a bs ++ m.filter (fun c => a + bs.length ≤ c.1)

/-- The bytes of a word, byte 0 first (R8). -/
def bytesOf (w : Word) : List Byte := (List.range 8).map (wbyte w)

/-- The word at word address `i` (byte address 8 i). -/
def Memory.word (m : Memory) (i : Nat) : Word :=
  Sys2Proof.word (m.foldl (fun v c => if 8 * i ≤ c.1 ∧ c.1 < 8 * i + 8 then v + c.2.toNat <<< (8 * (c.1 - 8 * i)) else v) 0)

/-- The `n` words from word address `i` on. -/
def Memory.words (m : Memory) (i n : Nat) : List Word :=
  let near := m.filter (fun c => 8 * i ≤ c.1 ∧ c.1 < 8 * (i + n))
  (List.range n).map (fun k => Memory.word near (i + k))

/-- The memory with the words `ws` from word address `i` on. -/
def Memory.putWords (m : Memory) (i : Nat) (ws : List Word) : Memory := m.put (8 * i) (ws.flatMap bytesOf)

/-- The row at a row address: eight words (R278). -/
def Memory.row (m : Memory) (r : Nat) : List Word := m.words (8 * r) 8

/-- The memory with one row written. -/
def Memory.putRow (m : Memory) (r : Nat) (ws : List Word) : Memory := m.putWords (8 * r) ((ws ++ List.replicate 8 0#64).take 8)

/-- The memory with `n` rows from `r` on set to zero. -/
def Memory.zeroRows (m : Memory) (r n : Nat) : Memory := m.filter (fun c => c.1 < 64 * r ∨ 64 * (r + n) ≤ c.1)

/-- A handle descriptor, SS_HDL_n (R279). -/
structure Handle where
  valid : Bool
  writable : Bool
  scope : Nat
  allp : Bool
  gate : Bool
  base : Nat
  bound : Nat
  deriving DecidableEq, Repr

/-- The fields of a descriptor word. -/
def Handle.ofWord (w : Word) : Handle :=
  { valid := bit w 63, writable := bit w 62, scope := bf w 61 56, allp := bit w 55, gate := bit w 54,
    base := bf w 53 32, bound := bf w 31 10 }

/-- Why the screening of an item stops: an access outside its handle (R280), or a pattern state outside its
automaton's range (R189). -/
inductive Halt where
  | bound (handle offset : Nat)
  | patRange (slot state : Nat)
  deriving DecidableEq, Repr

/-- A value, or why the engine stopped. -/
abbrev Eval := Except Halt

/-- What an engine reads: the memory, the handle table of the item's image (R279, R167), and the entity-table
descriptors kept for the life of the image (R202). -/
structure Env where
  mem : Memory
  hdl : List (Nat × Word)
  descs : List ((Nat × Nat) × List Word)
  deriving DecidableEq, Repr

/-- The row address of a handle's row, when the access lies inside it (R280). -/
def Env.rowOf (e : Env) (h o : Nat) : Eval Nat :=
  let d := Handle.ofWord (sget 0#64 e.hdl h)
  if d.valid ∧ o < d.bound then .ok (d.base + o) else .error (.bound h o)

/-- The row at offset `o` of handle `h`. -/
def Env.row (e : Env) (h o : Nat) : Eval (List Word) := do
  return e.mem.row (← e.rowOf h o)

/-- Word `i`, counted from word 0 of row `o` of handle `h`. -/
def Env.wordAt (e : Env) (h o i : Nat) : Eval Word := do
  return e.mem.word (8 * (← e.rowOf h (o + i / 8)) + i % 8)

/-- The `n` words from word 0 of row `o` of handle `h`. -/
def Env.wordsAt (e : Env) (h o n : Nat) : Eval (List Word) := (List.range n).mapM (e.wordAt h o)

/-- Byte `i`, counted from byte 0 of word 0 of row `o`. -/
def Env.byteAt (e : Env) (h o i : Nat) : Eval Nat := do
  return (wbyte (← e.wordAt h o (i / 8)) (i % 8)).toNat

/-- The 16-bit value `i`, packed four to a word from row `o`. -/
def Env.halfAt (e : Env) (h o i : Nat) : Eval Nat := do
  let w ← e.wordAt h o (i / 4)
  return bf w (16 * (i % 4) + 15) (16 * (i % 4))

end Sys2Proof.Machine
end

