-- ==== Sys2Proof/Machine/Narrow.lean ====
section
/-! DEFINITION. Narrow codes and exact accumulation (09_narrow_arithmetic.md), and the ordered codes of R191 and R192. -/
namespace Sys2Proof.Machine

/-- A decoded float: sign, significand, shift (R216, R217). -/
structure Flt where
  neg : Bool
  sig : Nat
  sh : Nat
  deriving DecidableEq, Repr

/-- XF8 decoding (R216). -/
def xf8 (x : Nat) : Flt :=
  let e := nf x 6 3
  let m := nf x 2 0
  { neg := nf x 7 7 = 1, sig := if e = 0 then m else 8 + m, sh := if e = 0 then 0 else e - 1 }

/-- XF16 decoding (R217). -/
def xf16 (x : Nat) : Flt :=
  let e := nf x 14 10
  let m := nf x 9 0
  { neg := nf x 15 15 = 1, sig := if e = 0 then m else 1024 + m, sh := if e = 0 then 0 else e - 1 }

/-- An XF16 encoding with exponent field 31 is invalid (R217). -/
def xf16Bad (x : Nat) : Bool := nf x 14 10 = 31

/-- The value in units of the format's own LSB: 2^-9 for XF8, 2^-24 for XF16. -/
def Flt.units (f : Flt) : Int := if f.neg then -((f.sig <<< f.sh : Nat) : Int) else ((f.sig <<< f.sh : Nat) : Int)

/-- An exact product with the block scale's shift 8 + k: LSB 2^-26 on the main path (R224), 2^-41 on the escape path
(R225). `shift` is 8 + k, from 0 to 15. -/
def product (w a : Flt) (shift : Nat) : Int :=
  let p := ((w.sig * a.sig) <<< (w.sh + a.sh)) <<< shift
  if w.neg != a.neg then -(p : Int) else (p : Int)

/-- The shift 8 + k of a stored 4-bit block scale (R221). -/
def scaleShift (k4 : Nat) : Nat := (k4 + 8) % 16

/-- The two accumulators of one accumulation (R224 to R226). -/
structure Acc where
  acc72 : Int
  esc96 : Int
  deriving DecidableEq, Repr

/-- Both accumulators start at zero (R226). -/
def Acc.zero : Acc := { acc72 := 0, esc96 := 0 }

/-- An expanded weight (R223): an XF8 entry with its block's shift, or an XF16 side value on the escape path. -/
structure Wt where
  esc : Bool
  val : Flt
  shift : Nat
  deriving DecidableEq, Repr

/-- One product added on its weight's path (R223 to R225). -/
def Acc.add (c : Acc) (w : Wt) (a : Flt) : Acc :=
  if w.esc then { c with esc96 := c.esc96 + product w.val a w.shift }
  else { c with acc72 := c.acc72 + product w.val a w.shift }

/-- The exact merge (R226): LSB 2^-41. -/
def Acc.merged (c : Acc) : Int := c.acc72 * 2 ^ 15 + c.esc96

/-- round_away (R228): a right shift rounded to nearest, ties away from zero. -/
def roundAway (x : Int) (n : Nat) : Int :=
  if n = 0 then x
  else if 0 ≤ x then (((x.toNat + 2 ^ (n - 1)) >>> n : Nat) : Int)
  else -((((-x).toNat + 2 ^ (n - 1)) >>> n : Nat) : Int)

/-- A rescaled intermediate q with its saturation mark (R230). -/
structure Mid where
  q : Int
  sat : Bool
  deriving DecidableEq, Repr

/-- The rescale of a merged sum (R230). -/
def rescale (merged m : Int) (s : Nat) : Mid :=
  let r := roundAway (merged * m) (s + 35)
  let q := min (max r (-32768)) 32767
  { q := q, sat := decide (q ≠ r) }

/-- A codebook (R218). -/
structure Book where
  bits : Nat
  escEn : Bool
  escIdx : Nat
  entries : List Nat
  deriving DecidableEq, Repr

/-- The code width b of a BITS field (R218). -/
def bitsOf (b : Nat) : Nat := if b = 0 then 2 else if b = 1 then 3 else if b = 2 then 4 else 8

/-- Codes to a row (R220). -/
def perRow (b : Nat) : Nat := if b = 0 then 256 else if b = 1 then 170 else if b = 2 then 128 else 64

/-- The used entries with their index, ascending (R219). -/
def Book.used (c : Book) : List Nat :=
  (List.range (2 ^ bitsOf c.bits)).filter (fun i => !(c.escEn && i == c.escIdx))

/-- Entry `i` in units of 2^-9. -/
def Book.val (c : Book) (i : Nat) : Int := (xf8 (c.entries.getD i 0)).units

/-- The expansion of an activation code (R223). -/
def Book.expand (c : Book) (i : Nat) : Flt := xf8 (c.entries.getD i 0)

/-- Whether entry `i` replaces `best` in the nearest-entry search (R231). -/
def nearer (x vi vb : Int) : Bool :=
  let d := (x - vi).natAbs
  let db := (x - vb).natAbs
  d < db || (d == db && vi.natAbs > vb.natAbs) || (d == db && vi.natAbs == vb.natAbs && decide (vi > vb))

/-- The nearest-entry search (R231). -/
def Book.nearest (c : Book) (q : Int) : Nat :=
  c.used.foldl (fun best i => if nearer (q * 8) (c.val i) (c.val best) then i else best) (c.used.headD 0)

/-- The clip mark of a requantised element (R232). -/
def Book.clips (c : Book) (m : Mid) : Bool :=
  m.sat || decide (m.q * 8 < c.val (c.used.headD 0)) || decide (c.val (c.used.getLastD 0) < m.q * 8)

/-- The conversion of q to XF16 (R233). -/
def midXf16 (q : Int) : Nat :=
  if q = 0 then 0
  else
    let a := q.natAbs
    let p := Nat.log2 a
    let g := if p ≤ 10 then a <<< (10 - p) else (roundAway (a : Int) (p - 10)).toNat
    let gp := if g = 2048 then (1024, p + 1) else (g, p)
    (if q < 0 then 2 ^ 15 else 0) + ((gp.2 + 9) <<< 10) + (gp.1 - 1024)

/-- The XF16 value nearest to n / d in units of 2^-24, ties away from zero, saturated to 65,504 (R208). -/
def ratXf16 (n d : Nat) : Nat :=
  let near (sh : Nat) : Nat := (2 * n + d * 2 ^ sh) / (2 * (d * 2 ^ sh))
  let sh := Nat.log2 (n / d) - 10
  let g := near sh
  let gs := if g = 2048 then (1024, sh + 1) else (g, sh)
  if gs.1 < 1024 then gs.1
  else if gs.2 > 29 then 0x7BFF
  else ((gs.2 + 1) <<< 10) + (gs.1 - 1024)

/-- A signed sum in units of 2^-24 rounded to XF16 and saturated (R208, identity). -/
def sumXf16 (s : Int) : Nat := (if s < 0 then 2 ^ 15 else 0) + ratXf16 s.natAbs 1

/-- The ordered code of an XF16 value (R191, R192); `true` beside it when the value is invalid. -/
def codeXf16 (x : Nat) : Nat × Bool :=
  if xf16Bad x then (0xFFFF, true)
  else if x = 0x8000 then (0x8000, false)
  else if nf x 15 15 = 0 then (x ^^^ 0x8000, false) else (x ^^^ 0xFFFF, false)

/-- The ordered code of a binary32 value (R192); `true` beside it for a NaN. -/
def codeF32 (b : Nat) : Nat × Bool :=
  if nf b 30 23 = 0xFF ∧ nf b 22 0 ≠ 0 then (0xFFFF, true)
  else if b = 0x8000_0000 then (0x8000, false)
  else if nf b 31 31 = 0 then ((b ^^^ 0x8000_0000) >>> 16, false)
  else ((0xFFFF_FFFF - b) >>> 16, false)

/-- The ordered-code conversions by type code (R191): 0 U16, 1 S16, 2 U32, 3 F32, 4 XF16. -/
def orderedCode (type v : Nat) : Nat × Bool :=
  if type = 0 then (v % 2 ^ 16, false)
  else if type = 1 then ((v % 2 ^ 16) ^^^ 0x8000, false)
  else if type = 2 then (min v 0xFFFF, false)
  else if type = 3 then codeF32 v
  else codeXf16 (v % 2 ^ 16)

/-- The 8-word groups that hold `len` codes (R257). -/
def groupsOf (b len : Nat) : Nat := cdiv len (perRow b)

/-- The codes of a run of rows, each row eight words (R220). -/
def unpackCodes (b len : Nat) (ws : List Word) : List Nat :=
  let n := perRow b
  let w := bitsOf b
  let rows := (List.range (groupsOf b len)).map (fun r => joinWords ((ws.drop (8 * r)).take 8))
  (List.range len).map (fun i => (rows.getD (i / n) 0 >>> (w * (i % n))) % 2 ^ w)

/-- The rows, eight words each, that hold the codes (R220). -/
def packCodes (b : Nat) (cs : List Nat) : List Word :=
  let n := perRow b
  let w := bitsOf b
  (List.range (groupsOf b cs.length)).flatMap (fun r =>
    splitWords 8 (((cs.drop (r * n)).take n).foldr (fun c a => c % 2 ^ w + 2 ^ w * a) 0))

end Sys2Proof.Machine
end

