-- ==== Sys2Proof/Machine/Pattern.lean ====
section
/-! DEFINITION. Pattern engines (07_pattern_engines.md): the pattern section, automata, one transition, the pattern words
of a session and what a stage and a stop set produce. -/
namespace Sys2Proof.Machine

/-- The pattern header (R170): places as handle and row offset. -/
structure PatHdr where
  states : Nat
  trans : Nat
  maxBytes : Nat
  stateH : Nat
  stateO : Nat
  transH : Nat
  transO : Nat
  cmapH : Nat
  cmapO : Nat
  cmaps : Nat
  detokH : Nat
  detokO : Nat
  vocab : Nat
  stopH : Nat
  stopO : Nat
  stopsets : Nat
  deriving DecidableEq, Repr

/-- The fields of a pattern header row (R170). -/
def PatHdr.ofRow (r : List Word) : PatHdr :=
  { states := bf (wat r 0) 63 41, trans := bf (wat r 0) 40 17, maxBytes := bf (wat r 0) 16 12,
    stateH := bf (wat r 1) 63 54, stateO := bf (wat r 1) 53 30,
    transH := bf (wat r 2) 63 54, transO := bf (wat r 2) 53 30,
    cmapH := bf (wat r 3) 63 54, cmapO := bf (wat r 3) 53 30, cmaps := bf (wat r 3) 29 17,
    detokH := bf (wat r 4) 63 54, detokO := bf (wat r 4) 53 30, vocab := bf (wat r 4) 29 11,
    stopH := bf (wat r 5) 63 54, stopO := bf (wat r 5) 53 30, stopsets := bf (wat r 5) 29 17 }

/-- An automaton descriptor (R173). -/
structure Automaton where
  alpha : Nat
  first : Nat
  count : Nat
  start : Nat
  classesM1 : Nat
  cmap : Nat
  outMode : Nat
  engine : Nat
  resetTurn : Bool
  slot : Nat
  deriving DecidableEq, Repr

/-- The fields of a descriptor's two words (R173). -/
def Automaton.ofWords (a b : Word) : Automaton :=
  { alpha := bf a 63 62, first := bf a 61 40, count := bf a 39 17, start := bf b 63 42, classesM1 := bf b 41 26,
    cmap := bf b 25 14, outMode := bf b 13 12, engine := bf b 11 11, resetTurn := bit b 10, slot := bf b 9 5 }

/-- A state record (R174). -/
structure PatState where
  base : Nat
  dflt : Nat
  tag : Nat
  deriving DecidableEq, Repr

/-- The fields of a state record. -/
def PatState.ofWord (w : Word) : PatState := { base := bf w 63 40, dflt := bf w 39 18, tag := bf w 17 2 }

/-- The next state that a stored transition entry and a state record give (R175, R177). -/
def nextState (s : Nat) (r : PatState) (entry : Word) : Nat :=
  if bit entry 63 ∧ bf entry 62 41 = s then bf entry 40 19 else r.dflt

/-- The pattern word of slot `w`: STATE and HITS (R180). -/
def patState (pf : List Word) (w : Nat) : Nat := nf (lane pf 32 w) 21 0
/-- HITS of a pattern word (R180). -/
def patHits (pf : List Word) (w : Nat) : Nat := nf (lane pf 32 w) 31 24
/-- The pattern word with STATE and HITS set, the reserved bits zero (R180). -/
def setPat (pf : List Word) (w state hits : Nat) : List Word := setLane pf 32 w (state % 2 ^ 22 + hits * 2 ^ 24)

/-- The descriptors of a PAT stage's group at row `o` of handle `h` (R173). -/
def patGroup (env : Env) (h o : Nat) : Eval (List Automaton) := do
  let n := bf (← env.wordAt h o 0) 63 59
  (List.range n).mapM (fun i => do
    return Automaton.ofWords (← env.wordAt h (o + 1) (2 * i)) (← env.wordAt h (o + 1) (2 * i + 1)))

/-- The descriptors of stop set `k` (R176); one past the table is read as it stands (log 135). -/
def stopSetAutomata (env : Env) (p : PatHdr) (k : Nat) : Eval (List Automaton) := do
  let w ← env.wordAt p.stopH p.stopO k
  (List.range (bf w 63 60)).mapM (fun i => do
    return Automaton.ofWords (← env.wordAt p.stopH (bf w 59 36) (2 * i)) (← env.wordAt p.stopH (bf w 59 36) (2 * i + 1)))

/-- The class of symbol `x` under class map `m` (R171). -/
def symbolClass (env : Env) (p : PatHdr) (m x : Nat) : Eval Nat := do
  let d ← env.wordAt p.cmapH p.cmapO m
  if bf d 63 62 = 0 then env.byteAt p.cmapH (bf d 61 38) x else env.halfAt p.cmapH (bf d 61 38) x

/-- An automaton on its way through an item: state, hits, the last accept tag and whether an accepting state was
entered (R177, R184, R185). -/
structure PatRun where
  state : Nat
  hits : Nat
  lastTag : Nat
  entered : Bool
  deriving DecidableEq, Repr

/-- One transition (R177), with the range check of R189. -/
def patStep (env : Env) (p : PatHdr) (a : Automaton) (r : PatRun) (x : Nat) : Eval PatRun := do
  let c ← symbolClass env p a.cmap x
  let rec0 := PatState.ofWord (← env.wordAt p.stateH p.stateO r.state)
  let e ← env.wordAt p.transH p.transO (rec0.base + c)
  let s := nextState r.state rec0 e
  let q := PatState.ofWord (← env.wordAt p.stateH p.stateO s)
  if q.tag ≠ 0 then
    return { state := s, hits := min (r.hits + 1) 255, lastTag := q.tag, entered := true }
  return { r with state := s }

/-- LEN and OFF of a token's detokenisation word (R172). -/
def detokWord (env : Env) (p : PatHdr) (tok : Nat) : Eval (Nat × Nat) := do
  let w ← env.wordAt p.detokH p.detokO tok
  return (bf w 63 59, bf w 58 32)

/-- The bytes a token stands for (R172): the byte pool begins in the row after the table's last word. -/
def detokBytes (env : Env) (p : PatHdr) (tok : Nat) : Eval (List Nat) := do
  let lo ← detokWord env p tok
  (List.range lo.1).mapM (fun i => env.byteAt p.detokH (p.detokO + cdiv p.vocab 8) (lo.2 + i))

/-- The symbols an automaton takes for a token (R177). -/
def symbolsOf (env : Env) (p : PatHdr) (a : Automaton) (tok : Nat) : Eval (List Nat) :=
  if a.alpha = 1 then .ok [tok] else detokBytes env p tok

/-- One automaton over one item on a copy of the pattern words (R177, R180, R189): the copy after it and its run. -/
def runAutomaton (env : Env) (p : PatHdr) (pf : List Word) (a : Automaton) (tok : Nat) :
    Eval (List Word × PatRun) := do
  let s := patState pf a.slot
  if s < a.first ∨ a.first + a.count ≤ s then throw (.patRange a.slot s)
  let syms ← symbolsOf env p a tok
  let r ← syms.foldlM (patStep env p a) { state := s, hits := patHits pf a.slot, lastTag := 0, entered := false }
  return (setPat pf a.slot r.state r.hits, r)

/-- The entry an automaton writes (R184): OUT_MODE 0 LAST_TAG, 1 HITS. -/
def patEntry (a : Automaton) (r : PatRun) : Nat := if a.outMode = 0 then r.lastTag else r.hits

/-- A PAT stage over one item: the pattern words after it, and its entries in group order (R184, R186). -/
def patStage (env : Env) (p : PatHdr) (pf : List Word) (as : List Automaton) (tok : Nat) :
    Eval (List Word × List Nat) :=
  as.foldlM (fun (c : List Word × List Nat) a => do
    let pr ← runAutomaton env p c.1 a tok
    return (pr.1, c.2 ++ [patEntry a pr.2])) (pf, [])

/-- The session's stop set over one item: the pattern words after it, and whether it matched (R185). -/
def stopStage (env : Env) (p : PatHdr) (pf : List Word) (as : List Automaton) (tok : Nat) :
    Eval (List Word × Bool) :=
  as.foldlM (fun (c : List Word × Bool) a => do
    let pr ← runAutomaton env p c.1 a tok
    return (pr.1, c.2 || pr.2.entered)) (pf, false)

/-- Every pattern word in use at START with HITS 0, the others zero (R181 at SESSION_OPEN, R190 at an image commit). -/
def patOpen (as : List Automaton) (pf : List Word) : List Word :=
  as.foldl (fun c a => setPat c a.slot a.start 0) (List.replicate 16 0#64 ++ pf.drop 16)

/-- The first FEED of a turn (R181): every HITS zero; START for RESET_TURN automata and the stop set's. -/
def patTurn (as : List Automaton) (pf : List Word) : List Word :=
  let cleared := (List.range 32).foldl (fun c w => setPat c w (patState c w) 0) pf
  as.foldl (fun c a => if a.resetTurn ∨ 24 ≤ a.slot then setPat c a.slot a.start 0 else c) cleared

/-- A new stop set at the home (R190): slots 24 to 31 at START with HITS 0, the slots it does not use zero. -/
def patStopSet (as : List Automaton) (pf : List Word) : List Word :=
  as.foldl (fun c a => setPat c a.slot a.start 0)
    ((List.range 8).foldl (fun c i => setLane c 32 (24 + i) 0) pf)

end Sys2Proof.Machine
end

