-- ==== Sys2Proof/Machine/Feature.lean ====
section
/-! DEFINITION. Feature engines (08_tree_engines.md, R193 to R203) and compare-and-count (R290). -/
namespace Sys2Proof.Machine

/-- What a stage reads of the item in hand (R199, R253): its token, its index within the turn, the draft depth
(0 for a committed or prompt token), and of its session PROMPT_LEN and TENANT. -/
structure ItemCtx where
  token : Nat
  index : Nat
  depth : Nat
  promptLen : Nat
  tenant : Nat
  deriving DecidableEq, Repr

/-- The feature state lies in words 16 to 31 of a copy (R194): counter `c`. -/
def counter (pf : List Word) (c : Nat) : Nat := lane (pf.drop 18) 16 c

/-- The copy with counter `c` written. -/
def setCounter (pf : List Word) (c v : Nat) : List Word := setLane pf 16 (72 + c) v

/-- CALLER_KEY, AGENT_KEY or QUEUE_KEY by the KEY code 1, 2 or 3 (R194, R200). -/
def sessionKey (pf : List Word) (k : Nat) : Nat :=
  if k = 1 then bf (wat pf 16) 63 32 else if k = 2 then bf (wat pf 16) 31 0 else bf (wat pf 17) 63 32

/-- The feature state at SESSION_OPEN (R195): the three keys, every counter zero. -/
def featOpen (caller agent queue : Nat) (pf : List Word) : List Word :=
  pf.take 16 ++ [pack [(caller, 63, 32), (agent, 31, 0)], pack [(queue, 63, 32)]] ++ List.replicate 14 0#64

/-- The feature state the first item finds under a new image (R195): counters zero, keys unchanged. -/
def featImage (pf : List Word) : List Word := pf.take 16 ++ (pf.drop 16).take 2 ++ List.replicate 14 0#64

/-- A test of an entry against a threshold (R154, R197): 0 NONZERO, 1 GE, 2 LT. -/
def testEntry (test v thresh : Nat) : Bool :=
  if test = 0 then v != 0 else if test = 1 then decide (thresh ≤ v) else decide (v < thresh)

/-- A COUNTER operation's new value (R197): 0 INC, 1 ADD, 2 MAX, 3 INC_IF, 4 READ. -/
def counterOp (op c v : Nat) (passes : Bool) : Nat :=
  if op = 0 then min (c + 1) 0xFFFF
  else if op = 1 then min (c + v) 0xFFFF
  else if op = 2 then max c v
  else if op = 3 then (if passes then min (c + 1) 0xFFFF else c)
  else c

/-- Compare-and-count of one row (R290): lanes of 16 bits that pass 0 EQ, 1 GE, 2 LT against the key. -/
def compareCount (row : List Word) (test key : Nat) : Nat :=
  ((List.range 32).filter (fun l =>
    let v := lane row 16 l
    if test = 0 then v == key else if test = 1 then decide (key ≤ v) else decide (v < key))).length

/-- An entity-table descriptor (R200). -/
structure Entity where
  key : Nat
  hashed : Bool
  log2Rows : Nat
  probesM1 : Nat
  rows : Nat
  row : List Word
  deriving DecidableEq, Repr

/-- The fields of a descriptor row. -/
def Entity.ofRow (r : List Word) : Entity :=
  { key := bf (wat r 0) 63 62, hashed := bit (wat r 0) 61, log2Rows := bf (wat r 0) 60 56,
    probesM1 := bf (wat r 0) 55 54, rows := bf (wat r 0) 53 33, row := r }

/-- Type code of lane `k` (R200). -/
def Entity.laneType (t : Entity) (k : Nat) : Nat := bf (wat t.row 1) (3 * k + 2) (3 * k)

/-- Miss code of lane `k` (R200). -/
def Entity.miss (t : Entity) (k : Nat) : Nat := lane (t.row.drop 2) 16 k

/-- The home row of a key in a hashed table (R202). -/
def hashHome (log2Rows key : Nat) : Nat :=
  if log2Rows = 0 then 0 else ((key * 0x9E37_79B1) % 2 ^ 32) >>> (32 - log2Rows)

/-- KEY and VALID of a record (R201). -/
def recValid (r : List Word) : Bool := bit (wat r 0) 31
def recKey (r : List Word) : Nat := bf (wat r 0) 63 32

/-- The record a LOOKUP finds (R202); none on a miss. Every probe is read. -/
def findRecord (env : Env) (h o : Nat) (t : Entity) (key : Nat) : Eval (Option (List Word)) := do
  if t.key ≠ 0 ∧ key = 0 then return none
  if ¬ t.hashed then
    if key < t.rows then
      let r ← env.row h (o + 1 + key)
      return if recValid r then some r else none
    return none
  let rs ← (List.range (t.probesM1 + 1)).mapM (fun p =>
    env.row h (o + 1 + (hashHome t.log2Rows key + p) % t.rows))
  return rs.find? (fun r => recValid r && recKey r == key)

/-- The descriptor row of a table: the one kept for the life of the image, else the stored one (R202). -/
def entityOf (env : Env) (h o : Nat) : Eval Entity := do
  match env.descs.lookup (h, o) with
  | some r => return Entity.ofRow r
  | none => return Entity.ofRow (← env.row h o)

/-- What a FEAT stage carries from operation to operation: the pattern and feature copy, the output vector, NaN. -/
structure FeatRun where
  pf : List Word
  out : List Nat
  nan : Bool
  deriving DecidableEq, Repr

/-- LOOKUP (R196, R200 to R202): the entry, and whether a conversion met a NaN. -/
def lookupOp (env : Env) (it : ItemCtx) (pf : List Word) (w : Word) : Eval (Nat × Bool) := do
  let h := bf w 60 51
  let o := bf w 50 27
  let k := bf w 26 23
  let t ← entityOf env h o
  let key := if t.key = 0 then it.tenant else sessionKey pf t.key
  match ← findRecord env h o t key with
  | none => return (t.miss k, false)
  | some r => return orderedCode (t.laneType k) (lane (r.drop 1) 32 k)

/-- CMPCOUNT (R198): the key is the token ID's low half, an entry or a counter. -/
def cmpcountOp (env : Env) (it : ItemCtx) (r : FeatRun) (w : Word) : Eval Nat := do
  let src := bf w 17 10
  let key := if bf w 19 18 = 0 then it.token % 2 ^ 16
    else if bf w 19 18 = 1 then r.out.getD src 0 else counter r.pf src
  let rows ← (List.range (bf w 26 22 + 1)).mapM (fun i => env.row (bf w 60 51) (bf w 50 27 + i))
  return (rows.map (fun row => compareCount row (bf w 21 20) key)).sum

/-- ITEM (R199). -/
def itemOp (env : Env) (p : PatHdr) (it : ItemCtx) (w : Word) : Eval Nat := do
  let sel := bf w 60 58
  let len ← if sel = 4 then detokWord env p it.token else .ok (0, 0)
  let v := if sel = 0 then it.index else if sel = 1 then it.promptLen else if sel = 2 then it.depth
    else if sel = 3 then nf it.token 17 2 else len.1
  return min v 0xFFFF

/-- One operation of a FEAT stage, written to entry `e` (R196 to R199). -/
def featOp (env : Env) (p : PatHdr) (it : ItemCtx) (r : FeatRun) (e : Nat) (w : Word) : Eval FeatRun := do
  let kind := bf w 63 61
  if kind = 0 then
    let v ← lookupOp env it r.pf w
    return { r with out := r.out.set e v.1, nan := r.nan || v.2 }
  else if kind = 1 then
    let c := bf w 60 55
    let src := r.out.getD (bf w 51 44) 0
    let v := counterOp (bf w 54 52) (counter r.pf c) src (testEntry (bf w 43 42) src (bf w 41 26))
    return { r with pf := setCounter r.pf c v, out := r.out.set e v }
  else if kind = 2 then
    let v ← cmpcountOp env it r w
    return { r with out := r.out.set e v }
  else
    let v ← itemOp env p it w
    return { r with out := r.out.set e v }

/-- The operation words of a FEAT object (R196). -/
def featOps (env : Env) (h o : Nat) : Eval (List Word) := do
  let n := bf (← env.wordAt h o 0) 63 56
  env.wordsAt h (o + 1) n

/-- A FEAT stage: operation `i` writes entry OUT_BASE + i, in list order (R196). -/
def featStage (env : Env) (p : PatHdr) (it : ItemCtx) (h o base : Nat) (r : FeatRun) : Eval FeatRun := do
  let ops ← featOps env h o
  ops.zipIdx.foldlM (fun r wi => featOp env p it r (base + wi.2) wi.1) r

/-- The counters that the first FEED of a turn sets to zero (R195): those a RESET_TURN operation updates. -/
def featTurn (ops : List Word) (pf : List Word) : List Word :=
  ops.foldl (fun c w => if bf w 63 61 = 1 ∧ bit w 25 then setCounter c (bf w 60 55) 0 else c) pf

end Sys2Proof.Machine
end

