-- ==== Sys2Proof/Machine/Calib.lean ====
section
/-! DEFINITION. Calibration and safeguards (10_calibration_safeguards.md). -/
namespace Sys2Proof.Machine

/-- A calibration word (R237). -/
structure Cal where
  calEn : Bool
  clipShare : Bool
  window : Nat
  target : Nat
  adjMin : Int
  adjMax : Int
  clipHi : Nat
  rerunEn : Bool
  rerunThresh : Nat
  rerunCost : Nat
  record : Nat
  deriving DecidableEq, Repr

/-- The fields of a calibration word's two words (R237). -/
def Cal.ofWords (a b : Word) : Cal :=
  { calEn := bit a 63, clipShare := bit a 62, window := bf a 61 58 + 1, target := bf a 57 54,
    adjMin := sext 5 (bf a 53 49), adjMax := sext 5 (bf a 48 44), clipHi := bf a 43 28,
    rerunEn := bit a 27, rerunThresh := bf a 26 11, rerunCost := bf b 63 48, record := bf b 47 44 }

/-- No calibration word: a layer with CAL_EN 0 and RERUN_EN 0 (R237). -/
def Cal.off : Cal := Cal.ofWords 0 0

/-- A calibration record (R238). -/
structure CalRec where
  fill : Nat
  next : Nat
  adj : Int
  hist : List Nat
  deriving DecidableEq, Repr

/-- The record of five words. -/
def CalRec.ofWords (ws : List Word) : CalRec :=
  { fill := bf (wat ws 0) 63 59, next := bf (wat ws 0) 58 55, adj := sext 5 (bf (wat ws 0) 54 50),
    hist := (List.range 16).map (lane (ws.drop 1) 16) }

/-- The five words of a record (R238). -/
def CalRec.words (r : CalRec) : List Word :=
  pack [(r.fill, 63, 59), (r.next, 58, 55), (twos 5 r.adj, 54, 50)]
    :: (List.range 4).map (fun i => pack ((List.range 4).map (fun j => (r.hist.getD (4 * i + j) 0, 16 * j + 15, 16 * j))))

/-- The MAXABS entry of a step (R241), from each output element's t and S. -/
def maxabsEntry (ts : List (Int × Nat)) : Int :=
  let es := ts.map (fun t => (bitlen t.1.natAbs : Int) - (t.2 : Int) - 35)
  min (max (es.foldl max (es.headD (-64))) (-64)) 80

/-- The CLIPSHARE entry of a step (R242). -/
def clipEntry (c n : Nat) : Nat := if n = 0 then 0 else min 0xFFFF ((c <<< 16) / n)

/-- The running maximum H of the valid entries (R243), signed in MAXABS mode. -/
def histMax (clipShare : Bool) (l : List Nat) : Int :=
  let vs := l.map (fun (v : Nat) => if clipShare then ((v : Nat) : Int) else sext 16 v)
  vs.foldl max (vs.headD 0)

/-- The record after a step whose entry is `e`, 16 bits (R243). -/
def CalRec.step (k : Cal) (r : CalRec) (e : Nat) : CalRec :=
  let hist := r.hist.set r.next e
  let fill := min (r.fill + 1) k.window
  let next := (r.next + 1) % k.window
  let h := histMax k.clipShare (hist.take fill)
  if k.clipShare then
    let adj := if h > (k.clipHi : Int) then min (r.adj + 1) k.adjMax
      else if h = 0 ∧ fill = k.window ∧ r.adj > 0 then r.adj - 1 else r.adj
    if adj ≠ r.adj then { fill := 0, next := 0, adj := adj, hist := hist }
    else { fill := fill, next := next, adj := adj, hist := hist }
  else { fill := fill, next := next, adj := min (max (h - (k.target : Int)) k.adjMin) k.adjMax, hist := hist }

/-- The shift in force (R244). -/
def effShift (k : Cal) (adj : Int) (s : Nat) : Nat :=
  if k.calEn then (min (max ((s : Int) + adj) 0) 63).toNat else s

/-- Whether a narrow pass with `c` clip marks over `n` elements calls for a rerun (R245). -/
def callsRerun (k : Cal) (c n : Nat) : Bool := k.rerunEn && decide (c * 65536 > k.rerunThresh * n)

/-- The rerun reserve of an item or a turn (R246): what is left, whether a rerun was refused, and the reruns run. -/
structure Reserve where
  left : Nat
  refused : Bool
  runs : Nat
  deriving DecidableEq, Repr

/-- Paying for a rerun that is called for (R246): the reserve after it, and whether the rerun goes ahead. -/
def Reserve.pay (r : Reserve) (cost : Nat) : Reserve × Bool :=
  if cost ≤ r.left ∧ r.refused = false then ({ r with left := r.left - cost, runs := r.runs + 1 }, true)
  else ({ r with refused := true }, false)

end Sys2Proof.Machine
end

