-- ==== Sys2Proof/Machine/Program.lean ====
section
/-! DEFINITION. Tensor engine programs (11_tensor_engine_programs.md): the program object, its vectors and tensors, and
what each instruction does. -/
namespace Sys2Proof.Machine

/-- The program header (R255). -/
structure ProgHdr where
  instrs : Nat
  vectors : Nat
  tensors : Nat
  consts : Nat
  folded : Bool
  cost : Nat
  stateOff : Nat
  stateWords : Nat
  calOff : Nat
  initOffset : Nat
  pl8 : Nat
  pl4 : Nat
  pl8Offset : Nat
  pl4Offset : Nat
  repl : List Nat
  objRows : Nat
  deriving DecidableEq, Repr

/-- The fields of a program header row (R255). -/
def ProgHdr.ofRow (r : List Word) : ProgHdr :=
  { instrs := bf (wat r 0) 63 52, vectors := bf (wat r 0) 51 44, tensors := bf (wat r 0) 43 36,
    consts := bf (wat r 0) 35 28, folded := bit (wat r 0) 27,
    cost := bf (wat r 1) 63 40, stateOff := bf (wat r 1) 39 32, stateWords := bf (wat r 1) 31 23,
    calOff := bf (wat r 1) 22 15, initOffset := bf (wat r 2) 63 40,
    pl8 := bf (wat r 3) 63 62, pl4 := bf (wat r 3) 61 60, pl8Offset := bf (wat r 3) 59 36, pl4Offset := bf (wat r 3) 35 12,
    repl := [bf (wat r 4) 63 54, bf (wat r 4) 53 44, bf (wat r 4) 43 34], objRows := bf (wat r 4) 33 10 }

/-- The placement field for a cluster count (R270): 1 REPLICATED, 2 SPLIT. -/
def ProgHdr.placement (p : ProgHdr) (clusters : Nat) : Nat := if clusters = 8 then p.pl8 else p.pl4

/-- Rows of the four tables after the header (R254), each from a new row: constants, vectors, tensors, instructions. -/
def ProgHdr.constRow (_ : ProgHdr) : Nat := 1
def ProgHdr.vecRow (p : ProgHdr) : Nat := 1 + cdiv p.consts 8
def ProgHdr.tenRow (p : ProgHdr) : Nat := p.vecRow + cdiv p.vectors 4
def ProgHdr.insRow (p : ProgHdr) : Nat := p.tenRow + cdiv p.tensors 2

/-- A vector descriptor (R256): SPACE 0 SCRATCH, 1 STATE, 2 CONST, 3 WINDOW. -/
structure VecD where
  space : Nat
  len : Nat
  offset : Nat
  winK : Nat
  cb : Nat
  cb8 : Nat
  deriving DecidableEq, Repr

/-- The fields of a vector descriptor. -/
def VecD.ofWords (a b : Word) : VecD :=
  { space := bf a 63 62, len := bf a 61 49, offset := bf a 48 25, winK := bf a 24 21 + 1, cb := bf b 63 40, cb8 := bf b 39 16 }

/-- A tensor descriptor (R258). -/
structure TenD where
  rows : Nat
  cols : Nat
  alt : Nat
  sideCount : Nat
  shared : Bool
  cb : Nat
  codes : Nat
  bs : Nat
  side : Nat
  scales : Nat
  scaleWords : Nat
  deriving DecidableEq, Repr

/-- The fields of a tensor descriptor. -/
def TenD.ofWords (a b c d : Word) : TenD :=
  { rows := bf a 63 45, cols := bf a 44 32, alt := bf a 31 24, sideCount := bf a 23 4, shared := bit a 3,
    cb := bf b 63 40, codes := bf b 39 16, bs := bf c 63 40, side := bf c 39 16,
    scales := bf d 63 40, scaleWords := bf d 39 27 }

/-- Where a program object is read from (R254, R271): its object, and for a replicated program in a region above 0 the
replica of its first OBJ_ROWS rows. -/
structure ProgLoc where
  h : Nat
  o : Nat
  useRepl : Bool
  replH : Nat
  objRows : Nat
  deriving DecidableEq, Repr

/-- Word `i` counted from row `row` of the object. -/
def ProgLoc.word (env : Env) (l : ProgLoc) (row i : Nat) : Eval Word :=
  let r := row + i / 8
  if l.useRepl ∧ r < l.objRows then env.wordAt l.replH r (i % 8) else env.wordAt l.h (l.o + r) (i % 8)

/-- The `n` words from row `row` of the object. -/
def ProgLoc.words (env : Env) (l : ProgLoc) (row n : Nat) : Eval (List Word) := (List.range n).mapM (l.word env row)

/-- A codebook at a row of the object (R218). -/
def ProgLoc.book (env : Env) (l : ProgLoc) (row : Nat) : Eval Book := do
  let w ← l.word env row 0
  let b := bf w 63 62
  let es ← if b = 3 then l.words env (row + 1) 32 else l.words env row 3
  let n := if b = 3 then 256 else 16
  let ws := if b = 3 then es else es.drop 1
  return { bits := b, escEn := bit w 61, escIdx := bf w 60 57, entries := (List.range n).map (lane ws 8) }

/-- A program as read from its object. -/
structure Prog where
  hdr : ProgHdr
  consts : List Word
  vecs : List VecD
  tens : List TenD
  code : List Word
  deriving DecidableEq, Repr

/-- The tables of a program object (R254). -/
def readProg (env : Env) (l : ProgLoc) : Eval Prog := do
  let h := ProgHdr.ofRow (← l.words env 0 8)
  let consts ← l.words env h.constRow h.consts
  let vw ← l.words env h.vecRow (2 * h.vectors)
  let tw ← l.words env h.tenRow (4 * h.tensors)
  let code ← l.words env h.insRow h.instrs
  return { hdr := h, consts := consts,
           vecs := (List.range h.vectors).map (fun i => VecD.ofWords (wat vw (2 * i)) (wat vw (2 * i + 1))),
           tens := (List.range h.tensors).map (fun i =>
             TenD.ofWords (wat tw (4 * i)) (wat tw (4 * i + 1)) (wat tw (4 * i + 2)) (wat tw (4 * i + 3))),
           code := code }

/-- Vector descriptor `i`. -/
def Prog.vec (p : Prog) (i : Nat) : VecD := p.vecs.getD i (VecD.ofWords 0 0)
/-- Tensor descriptor `i`. -/
def Prog.ten (p : Prog) (i : Nat) : TenD := p.tens.getD i (TenD.ofWords 0 0 0 0)
/-- The calibration word of a closing instruction's CAL field; none for 0xFF (R260). -/
def Prog.cal (p : Prog) (k : Nat) : Cal := if k = 0xFF then Cal.off else Cal.ofWords (wat p.consts k) (wat p.consts (k + 1))

/-- A SCRATCH vector of a run: its codes, and whether a rerun left it wide (R256). -/
structure Scratch where
  vec : Nat
  codes : List Nat
  wide : Bool
  deriving DecidableEq, Repr

/-- A run of a program (R261): the session's recurrent words, the output vector, scratch, the open chain's
accumulators, its tensors with their inputs (for a rerun, R265), and the rerun reserve. -/
structure Run where
  recur : List Word
  out : List Nat
  scratch : List Scratch
  accs : List Acc
  chain : List (Nat × List Flt)
  reserve : Reserve
  deriving DecidableEq, Repr

/-- Slot length and group words of a WINDOW vector (R257). -/
def winSlot (v : VecD) : Nat := v.len / v.winK
def winGroup (v : VecD) (bits : Nat) : Nat := 8 * cdiv (winSlot v * bitsOf bits) 512

/-- HEAD of a WINDOW vector (R257). -/
def winHead (recur : List Word) (v : VecD) : Nat := bf (wat recur v.offset) 63 60

/-- The codes of one slot of a WINDOW vector. -/
def winCodes (recur : List Word) (v : VecD) (bits s : Nat) : List Nat :=
  unpackCodes bits (winSlot v) (recur.drop (v.offset + 1 + s * winGroup v bits))

/-- The recurrent words with `ws` written from word `o` on. -/
def splice (recur : List Word) (o : Nat) (ws : List Word) : List Word :=
  recur.take o ++ ws ++ recur.drop (o + ws.length)

/-- The scratch entry of vector `i`. -/
def Run.scratchOf (r : Run) (i : Nat) : Scratch :=
  (r.scratch.find? (fun s => s.vec == i)).getD { vec := i, codes := [], wide := false }

/-- The codes of vector `i`, and whether it is wide (R256, R257). -/
def vecCodes (env : Env) (l : ProgLoc) (p : Prog) (r : Run) (i : Nat) : Eval (List Nat × Bool) := do
  let v := p.vec i
  if v.space = 0 then return ((r.scratchOf i).codes, (r.scratchOf i).wide)
  let b ← l.book env v.cb
  if v.space = 1 then return (unpackCodes b.bits v.len (r.recur.drop v.offset), false)
  else if v.space = 2 then
    let ws ← l.words env v.offset (8 * groupsOf b.bits v.len)
    return (unpackCodes b.bits v.len ws, false)
  else
    let hd := winHead r.recur v
    return ((List.range v.winK).flatMap (fun s => winCodes r.recur v b.bits ((hd + s) % v.winK)), false)

/-- The codebook that expands vector `i` (R256). -/
def vecBook (env : Env) (l : ProgLoc) (p : Prog) (r : Run) (i : Nat) : Eval Book :=
  let v := p.vec i
  l.book env (if v.space = 0 ∧ (r.scratchOf i).wide then v.cb8 else v.cb)

/-- The expanded values of vector `i` (R223). -/
def vecFlts (env : Env) (l : ProgLoc) (p : Prog) (r : Run) (i : Nat) : Eval (List Flt) := do
  let cs ← vecCodes env l p r i
  let b ← vecBook env l p r i
  return cs.1.map b.expand

/-- Vector `i` takes codes (R256, R257); a WINDOW vector takes them slot by slot in its read order, HEAD unchanged. A
SCRATCH vector that a rerun left wide stays wide for the rest of the run (R265, log 126). -/
def putVec (env : Env) (l : ProgLoc) (p : Prog) (r : Run) (i : Nat) (codes : List Nat) (wide : Bool) : Eval Run := do
  let v := p.vec i
  if v.space = 0 then
    return { r with scratch := { vec := i, codes := codes, wide := wide || (r.scratchOf i).wide } :: r.scratch.filter (fun s => s.vec != i) }
  let b ← l.book env v.cb
  if v.space = 1 then return { r with recur := splice r.recur v.offset (packCodes b.bits codes) }
  else if v.space = 2 then return r
  else
    let hd := winHead r.recur v
    return { r with recur := (List.range v.winK).foldl (fun c s =>
      splice c (v.offset + 1 + ((hd + s) % v.winK) * winGroup v b.bits)
        (packCodes b.bits ((codes.drop (s * winSlot v)).take (winSlot v)))) r.recur }

/-- The expanded elements of a tensor in index order (R220 to R223): side values go to the escape codes in ascending
element index. -/
def expandTensor (b : Book) (codes : List Nat) (scales : List Nat) (side : List Nat) : List Wt :=
  ((codes.zipIdx).foldl (fun (c : List Wt × Nat) ci =>
    let shift := scaleShift (scales.getD (ci.2 / 32) 0)
    if b.escEn && ci.1 == b.escIdx then
      ({ esc := true, val := xf16 (side.getD c.2 0), shift := shift } :: c.1, c.2 + 1)
    else ({ esc := false, val := b.expand ci.1, shift := shift } :: c.1, c.2)) ([], 0)).1.reverse

/-- The weights of tensor `t`, row after row (R258). -/
def tensorWts (env : Env) (l : ProgLoc) (p : Prog) (t : Nat) : Eval (List Wt) := do
  let d := p.ten t
  let b ← l.book env d.cb
  let n := d.rows * d.cols
  let ws ← l.words env d.codes (8 * groupsOf b.bits n)
  let blocks := cdiv n 32
  let bs ← if d.bs = 0 then .ok [] else l.words env d.bs (cdiv blocks 16)
  let side ← if d.side = 0 then .ok [] else l.words env d.side (cdiv d.sideCount 4)
  return expandTensor b (unpackCodes b.bits n ws) ((List.range blocks).map (lane bs 4))
    ((List.range d.sideCount).map (lane side 16))

/-- Each output row's accumulators with one tensor's products added (R262). -/
def accumulate (accs : List Acc) (cols : Nat) (wts : List Wt) (xs : List Flt) : List Acc :=
  accs.zipIdx.map (fun ao =>
    (((wts.drop (ao.2 * cols)).take cols).zip xs).foldl (fun a wx => a.add wx.1 wx.2) ao.1)

/-- The scale word's M and S (R229). -/
def scaleM (w : Word) : Int := sext 24 (bf w 63 40)
def scaleS (w : Word) : Nat := bf w 39 34

/-- M and S for each of `n` elements: word 0 or word `o` of SCALES, M = 1 and S = 0 in a folded program (R234, R262). -/
def elementScales (env : Env) (l : ProgLoc) (p : Prog) (t n : Nat) (scm : Bool) : Eval (List (Int × Nat)) := do
  if p.hdr.folded then return List.replicate n (1, 0)
  let ws ← l.words env (p.ten t).scales (if scm then n else 1)
  return (List.range n).map (fun o => let w := wat ws (if scm then o else 0); (scaleM w, scaleS w))

/-- The rescaled intermediates of a closed chain (R230, R244). -/
def rescaleAll (accs : List Acc) (ms : List (Int × Nat)) (k : Cal) (adj : Int) : List Mid :=
  (accs.zip ms).map (fun am => rescale am.1.merged am.2.1 (effShift k adj am.2.2))

/-- The output vector with values from entry `e` on. -/
def putEntries (out : List Nat) (e : Nat) (vs : List Nat) : List Nat :=
  vs.zipIdx.foldl (fun o vi => o.set (e + vi.2) vi.1) out

/-- The result elements of MV and EW: requantised into Y (DST 0) or converted to entries (DST 1); the clip marks
beside (R231 to R233, R262). -/
def storeMids (env : Env) (l : ProgLoc) (p : Prog) (r : Run) (base y : Nat) (dst : Bool) (ms : List Mid) :
    Eval (Run × Nat) := do
  if dst then
    return ({ r with out := putEntries r.out (base + y) (ms.map (fun m => (codeXf16 (midXf16 m.q)).1)) }, 0)
  let b ← l.book env (p.vec y).cb
  let r' ← putVec env l p r y (ms.map (fun m => b.nearest m.q)) false
  return (r', (ms.filter b.clips).length)

/-- The rerun of a chain (R247, R265): the ALT form of each tensor over the same inputs, requantised into CB8. -/
def rerunChain (env : Env) (l : ProgLoc) (p : Prog) (r : Run) (y : Nat) (ms : List (Int × Nat)) (k : Cal) (adj : Int) :
    Eval Run := do
  let accs ← r.chain.foldlM (fun accs tx => do
    let wts ← tensorWts env l p (p.ten tx.1).alt
    return accumulate accs (p.ten tx.1).cols wts tx.2) (ms.map (fun _ => Acc.zero))
  let b ← l.book env (p.vec y).cb8
  putVec env l p r y ((rescaleAll accs ms k adj).map (fun m => b.nearest m.q)) true

/-- The calibration record of a layer: five words at CAL_OFF + 5 REC (R238). -/
def calRec (p : Prog) (recur : List Word) (k : Cal) : CalRec :=
  CalRec.ofWords ((recur.drop (p.hdr.calOff + 5 * k.record)).take 5)

/-- The close of a chain (R262, R265): rescale with the record's ADJ, store, write the record, then rerun if it is
called for and paid. -/
def closeChain (env : Env) (l : ProgLoc) (p : Prog) (r : Run) (base : Nat) (w : Word) : Eval Run := do
  let t := bf w 58 51
  let y := bf w 42 35
  let k := p.cal (bf w 31 24)
  let n := (p.ten t).rows
  let ms ← elementScales env l p t n (bit w 32)
  let crec := calRec p r.recur k
  let st ← storeMids env l p r base y (bit w 33) (rescaleAll r.accs ms k crec.adj)
  let e := if k.clipShare then clipEntry st.2 n
    else twos 16 (maxabsEntry ((r.accs.zip ms).map (fun am => (am.1.merged * am.2.1, am.2.2))))
  let r1 := if k.calEn then
    { st.1 with recur := splice st.1.recur (p.hdr.calOff + 5 * k.record) (CalRec.step k crec e).words } else st.1
  let r3 ← if callsRerun k st.2 n then do
      let paid := r1.reserve.pay k.rerunCost
      let r2 := { r1 with reserve := paid.1 }
      if paid.2 then rerunChain env l p r2 y ms k crec.adj else pure r2
    else pure r1
  return { r3 with accs := [], chain := [] }

/-- MV (R262). -/
def mvOp (env : Env) (l : ProgLoc) (p : Prog) (r : Run) (base : Nat) (w : Word) : Eval Run := do
  let t := bf w 58 51
  let d := p.ten t
  let xs ← vecFlts env l p r (bf w 50 43)
  let wts ← tensorWts env l p t
  let accs := if r.accs.isEmpty then List.replicate d.rows Acc.zero else r.accs
  let r1 := { r with accs := accumulate accs d.cols wts xs, chain := r.chain ++ [(t, xs)] }
  if bit w 34 then closeChain env l p r1 base w else return r1

/-- The sum of EW for one element (R263): products with k = 0. -/
def ewAcc (a b : Flt) (cd : Option (Flt × Flt)) : Acc :=
  let c := Acc.zero.add { esc := false, val := a, shift := 8 } b
  match cd with
  | none => c
  | some (x, y) => c.add { esc := false, val := x, shift := 8 } y

/-- EW (R263). -/
def ewOp (env : Env) (l : ProgLoc) (p : Prog) (r : Run) (base : Nat) (w : Word) : Eval Run := do
  let a ← vecFlts env l p r (bf w 58 51)
  let b ← vecFlts env l p r (bf w 50 43)
  let cd ← if bf w 34 27 = 0xFF then .ok (a.map (fun _ => none)) else do
    let c ← vecFlts env l p r (bf w 34 27)
    let d ← vecFlts env l p r (bf w 26 19)
    pure ((c.zip d).map some)
  let sc := wat p.consts (bf w 18 11)
  let ms := if p.hdr.folded then ((1 : Int), 0) else (scaleM sc, scaleS sc)
  let mids := ((a.zip b).zip cd).map (fun x => rescale (ewAcc x.1.1 x.1.2 x.2).merged ms.1 ms.2)
  let st ← storeMids env l p r base (bf w 42 35) (bit w 10) mids
  return st.1

/-- MAP (R264): a table of bytes, LUT or LUT8. -/
def mapOp (env : Env) (l : ProgLoc) (p : Prog) (r : Run) (w : Word) : Eval Run := do
  let x ← vecCodes env l p r (bf w 58 51)
  let b ← vecBook env l p r (bf w 58 51)
  let lk := wat p.consts (bf w 42 35)
  let tab ← l.words env (if x.2 then bf lk 39 16 else bf lk 63 40) (cdiv (2 ^ bitsOf b.bits) 8)
  putVec env l p r (bf w 50 43) (x.1.map (fun c => lane tab 8 c)) false

/-- EMB (R264): the codes of row `tok` of T. -/
def embOp (env : Env) (l : ProgLoc) (p : Prog) (r : Run) (tok : Nat) (w : Word) : Eval Run := do
  let d := p.ten (bf w 58 51)
  let b ← l.book env d.cb
  let n := perRow b.bits
  let first := tok * d.cols
  let rows := (first + d.cols - 1) / n - first / n + 1
  let ws ← l.words env (d.codes + first / n) (8 * rows)
  putVec env l p r (bf w 50 43) ((unpackCodes b.bits (first % n + d.cols) ws).drop (first % n)) false

/-- PUSH (R264): X goes into slot HEAD of W, and HEAD moves on. -/
def pushOp (env : Env) (l : ProgLoc) (p : Prog) (r : Run) (w : Word) : Eval Run := do
  let x ← vecCodes env l p r (bf w 58 51)
  let v := p.vec (bf w 50 43)
  let b ← l.book env v.cb
  let hd := winHead r.recur v
  let rec1 := splice r.recur (v.offset + 1 + hd * winGroup v b.bits) (packCodes b.bits x.1)
  return { r with recur := splice rec1 v.offset [pack [((hd + 1) % v.winK, 63, 60)]] }

/-- COPY (R264). -/
def copyOp (env : Env) (l : ProgLoc) (p : Prog) (r : Run) (w : Word) : Eval Run := do
  let x ← vecCodes env l p r (bf w 58 51)
  putVec env l p r (bf w 50 43) x.1 false

/-- OUT (R264): the ordered code of the value of each element, converted exactly. -/
def outOp (env : Env) (l : ProgLoc) (p : Prog) (r : Run) (base : Nat) (w : Word) : Eval Run := do
  let x ← vecFlts env l p r (bf w 58 51)
  return { r with out := putEntries r.out (base + bf w 50 43) (x.map (fun f => (codeXf16 (sumXf16 (f.units * 2 ^ 15))).1)) }

/-- One instruction (R260 to R264): 1 MV, 2 EW, 3 MAP, 4 EMB, 5 PUSH, 6 COPY, 7 OUT; END changes nothing. -/
def progOp (env : Env) (l : ProgLoc) (p : Prog) (base tok : Nat) (r : Run) (w : Word) : Eval Run :=
  let op := bf w 63 59
  if op = 1 then mvOp env l p r base w
  else if op = 2 then ewOp env l p r base w
  else if op = 3 then mapOp env l p r w
  else if op = 4 then embOp env l p r tok w
  else if op = 5 then pushOp env l p r w
  else if op = 6 then copyOp env l p r w
  else if op = 7 then outOp env l p r base w
  else .ok r

/-- A run of a program for one item (R261): the instructions in program order, up to END. -/
def runProg (env : Env) (l : ProgLoc) (base tok : Nat) (recur : List Word) (out : List Nat) (reserve : Reserve) :
    Eval Run := do
  let p ← readProg env l
  (p.code.takeWhile (fun w => bf w 63 59 != 0)).foldlM (progOp env l p base tok)
    { recur := recur, out := out, scratch := [], accs := [], chain := [], reserve := reserve }

/-- The recurrent words with a program's initial image in its area (R266). -/
def initArea (env : Env) (l : ProgLoc) (recur : List Word) : Eval (List Word) := do
  let h := ProgHdr.ofRow (← l.words env 0 8)
  if h.stateWords = 0 then return recur
  let ws ← l.words env h.initOffset h.stateWords
  return splice recur h.stateOff ws

end Sys2Proof.Machine
end

