-- ==== Sys2Proof/Config.lean ====
section
/-! DEFINITION. What a part fixes: its grade's sizes (R28). -/
namespace Sys2Proof

/-- The two grades (R3). -/
inductive Grade where
  | full
  | half
  deriving DecidableEq, Repr

/-- GCAP GRADE (R28). -/
def Grade.code : Grade → Nat
  | .full => 0
  | .half => 1

/-- Clusters present (R28). -/
def Grade.clusters : Grade → Nat
  | .full => 8
  | .half => 4

/-- Regions present (R28). -/
def Grade.regions : Grade → Nat
  | .full => 4
  | .half => 2

/-- SSM rows: 2^19 to a region (R278). -/
def Grade.rows (g : Grade) : Nat := g.regions * 2 ^ 19

/-- Tier device attachments (R28). -/
def Grade.tierDevices : Grade → Nat
  | .full => 20
  | .half => 10

/-- EGRESS_RATE, tokens per ms (R28). -/
def Grade.egressRate : Grade → Nat
  | .full => 10000
  | .half => 5000

/-- INGRESS_RATE, tokens per ms (R28). -/
def Grade.ingressRate : Grade → Nat
  | .full => 40000
  | .half => 20000

/-- SSM_MIB (R28). -/
def Grade.ssmMib (g : Grade) : Nat := 32 * g.regions

end Sys2Proof
end

