-- ==== Sys2Proof/Machine/Types.lean ====
section
/-! DEFINITION. The named encodings of the spec: session states, stop and cancel reasons, status codes, job-fault causes,
sticky bits, reset reaches. -/
namespace Sys2Proof.Machine

/-- Session states (R94), in the order of their codes 0 to 8. -/
inductive Sess where
  | free
  | opening
  | live
  | speculating
  | wintering
  | wintered
  | springing
  | closing
  | cancelled
  deriving DecidableEq, Repr

/-- The code of a session state (R94). -/
def Sess.code : Sess → Nat
  | .free => 0
  | .opening => 1
  | .live => 2
  | .speculating => 3
  | .wintering => 4
  | .wintered => 5
  | .springing => 6
  | .closing => 7
  | .cancelled => 8

/-- Stop reasons (R140), in the order of their codes 0 to 10. -/
inductive Stop where
  | none
  | stopSequence
  | endToken
  | maxOut
  | maxLength
  | deadline
  | closed
  | withheld
  | budget
  | policyStop
  | nextTurn
  deriving DecidableEq, Repr

/-- The code of a stop reason (R140). -/
def Stop.code : Stop → Nat
  | .none => 0
  | .stopSequence => 1
  | .endToken => 2
  | .maxOut => 3
  | .maxLength => 4
  | .deadline => 5
  | .closed => 6
  | .withheld => 7
  | .budget => 8
  | .policyStop => 9
  | .nextTurn => 10

/-- The stop reason of a code. -/
def Stop.ofCode (n : Nat) : Stop :=
  ([.none, .stopSequence, .endToken, .maxOut, .maxLength, .deadline, .closed, .withheld, .budget, .policyStop,
    .nextTurn] : List Stop).getD n .none

/-- Cancel reasons (R106). -/
inductive Cancel where
  | host
  | policy
  | ttl
  | ecc
  | partitionReset
  | ringLost
  deriving DecidableEq, Repr

/-- The code of a cancel reason, END_REASON (R106). -/
def Cancel.code : Cancel → Nat
  | .host => 1
  | .policy => 2
  | .ttl => 3
  | .ecc => 4
  | .partitionReset => 5
  | .ringLost => 6

/-- The cancel reason of a code. -/
def Cancel.ofCode (n : Nat) : Cancel :=
  ([.host, .host, .policy, .ttl, .ecc, .partitionReset, .ringLost] : List Cancel).getD n .host

/-- Status codes (R368). -/
inductive Status where
  | ok
  | empty
  | badOpcode
  | badVersion
  | reservedSet
  | noSession
  | staleGeneration
  | notIdle
  | noBudget
  | noSpace
  | busy
  | badImage
  | deniedPartition
  | timeout
  | abortedRestart
  | notPaired
  | slipped
  deriving DecidableEq, Repr

/-- The value of a status (R368). -/
def Status.code : Status → Nat
  | .ok => 0x00
  | .empty => 0x02
  | .badOpcode => 0x03
  | .badVersion => 0x04
  | .reservedSet => 0x05
  | .noSession => 0x06
  | .staleGeneration => 0x07
  | .notIdle => 0x08
  | .noBudget => 0x09
  | .noSpace => 0x0A
  | .busy => 0x0B
  | .badImage => 0x0C
  | .deniedPartition => 0x0D
  | .timeout => 0x0E
  | .abortedRestart => 0x0F
  | .notPaired => 0x10
  | .slipped => 0x11

/-- The status of a value a message carries. -/
def Status.ofCode (n : Nat) : Status :=
  ([.ok, .ok, .empty, .badOpcode, .badVersion, .reservedSet, .noSession, .staleGeneration, .notIdle, .noBudget,
    .noSpace, .busy, .badImage, .deniedPartition, .timeout, .abortedRestart, .notPaired, .slipped] : List Status).getD n .busy

/-- JOB_FAULT causes (R458). -/
inductive Cause where
  | host
  | contract
  | fifoUe
  | releaseUe
  | stUe
  | ssmUe
  | handleBound
  | tierMap
  | ringUe
  | commitUndecided
  | unitUe
  | port
  | localReset
  deriving DecidableEq, Repr

/-- The CAUSE code (R458). -/
def Cause.code : Cause → Nat
  | .host => 0x01
  | .contract => 0x02
  | .fifoUe => 0x03
  | .releaseUe => 0x04
  | .stUe => 0x05
  | .ssmUe => 0x06
  | .handleBound => 0x07
  | .tierMap => 0x08
  | .ringUe => 0x09
  | .commitUndecided => 0x0A
  | .unitUe => 0x0B
  | .port => 0x0C
  | .localReset => 0x10

/-- Bits of GT_TRB_STICKY0 (R460), in the order of their indices 0 to 30. -/
inductive Sticky where
  | jobFault
  | contract
  | fifoUe
  | stUe
  | ssmUe
  | tierUe
  | ledgerUe
  | ringUe
  | cmdUe
  | retainedUe
  | unitUe
  | handleBound
  | handleConflict
  | patRange
  | verdictLate
  | queueOver
  | wakeFail
  | startFail
  | refclkLoss
  | watchdog
  | timeUnlock
  | timeTwoMasters
  | ringLoop
  | ringUnknown
  | ringEpoch
  | ageMargin
  | regReserved
  | nanSeen
  | degraded
  | port
  | commitUndecided
  deriving DecidableEq, Repr

/-- The bit's index (R460). -/
def Sticky.idx : Sticky → Nat
  | .jobFault => 0
  | .contract => 1
  | .fifoUe => 2
  | .stUe => 3
  | .ssmUe => 4
  | .tierUe => 5
  | .ledgerUe => 6
  | .ringUe => 7
  | .cmdUe => 8
  | .retainedUe => 9
  | .unitUe => 10
  | .handleBound => 11
  | .handleConflict => 12
  | .patRange => 13
  | .verdictLate => 14
  | .queueOver => 15
  | .wakeFail => 16
  | .startFail => 17
  | .refclkLoss => 18
  | .watchdog => 19
  | .timeUnlock => 20
  | .timeTwoMasters => 21
  | .ringLoop => 22
  | .ringUnknown => 23
  | .ringEpoch => 24
  | .ageMargin => 25
  | .regReserved => 26
  | .nanSeen => 27
  | .degraded => 28
  | .port => 29
  | .commitUndecided => 30

/-- The sticky bit a cause sets beside JOB_FAULT, the CODE of its entry (R458). -/
def Cause.sticky : Cause → Sticky
  | .host => .jobFault
  | .contract => .contract
  | .fifoUe => .fifoUe
  | .releaseUe => .fifoUe
  | .stUe => .stUe
  | .ssmUe => .ssmUe
  | .handleBound => .handleBound
  | .tierMap => .tierUe
  | .ringUe => .ringUe
  | .commitUndecided => .commitUndecided
  | .unitUe => .unitUe
  | .port => .port
  | .localReset => .jobFault

/-- Reaches of the internal reset, narrowest first (R415). -/
inductive Reach where
  | job
  | warm
  | cold
  deriving DecidableEq, Repr

/-- LAST_REACH codes of RS_STAT (R434). -/
def Reach.code : Reach → Nat
  | .job => 2
  | .warm => 3
  | .cold => 4

/-- The wider of two reaches (R420). -/
def Reach.max (a b : Reach) : Reach := if a.code < b.code then b else a

/-- The states of the load (R364). -/
inductive Load where
  | idle
  | loading
  | loaded
  | committing
  deriving DecidableEq, Repr

/-- The STATE code of IMAGE_QUERY (R364, R367). -/
def Load.code : Load → Nat
  | .idle => 0
  | .loading => 1
  | .loaded => 2
  | .committing => 3

/-- Kinds of an equinox commit (R395): 0 image, 1 variant, 2 mode registers. -/
inductive Kind where
  | image
  | variant
  | mode
  deriving DecidableEq, Repr

/-- The KIND code of PREPARE (R395). -/
def Kind.code : Kind → Nat
  | .image => 0
  | .variant => 1
  | .mode => 2

/-- The kind of a code. -/
def Kind.ofCode (n : Nat) : Kind := if n = 0 then .image else if n = 1 then .variant else .mode

/-- Clock states of the die (R437): RUN and IDLE are told apart by the started clusters. -/
inductive Power where
  | stopped
  | waking
  | started
  deriving DecidableEq, Repr

end Sys2Proof.Machine
end

