-- ==== Sys2Proof/Machine/Records.lean ====
section
/-! DEFINITION. The records that State is made of, unit by unit. -/
namespace Sys2Proof.Machine

/-- A ring descriptor (R67, R83). -/
structure RingD where
  wp : Nat
  rp : Nat
  fp : Nat
  mp : Nat
  ps : Nat
  thresh : Nat
  pkts : Nat
  mv : Bool
  mrel : Bool
  ovf : Bool
  status : Nat
  deriving DecidableEq, Repr

/-- A session-table entry (R92). -/
structure Entry where
  state : Sess
  home : Bool
  edge : Bool
  relay : Bool
  gen : Nat
  homeGate : Nat
  edgeGate : Nat
  part : Nat
  tenant : Nat
  priority : Nat
  length : Nat
  promptLen : Nat
  maxOut : Nat
  deadline : Nat
  outCount : Nat
  stop : Stop
  endReason : Nat
  openTime : Nat
  plHead : Nat
  plPages : Nat
  parked : Bool
  expiry : Nat
  stopSet : Nat
  endToken : Nat
  endEn : Bool
  policy : Nat
  adapter : Nat
  adapterEn : Bool
  ckpt : Nat
  ckptValid : Bool
  chains : Nat
  draftRejected : Nat
  inLane : Nat
  outLane : Nat
  hops : Nat
  dOut : Nat
  pendOp : Nat
  pendTag : Nat
  pendSmp : Bool
  inTotal : Nat
  outTotal : Nat
  flagCount : Nat
  maskCount : Nat
  nanSeen : Bool
  degraded : Bool
  poolFull : Bool
  inRing : RingD
  outRing : RingD
  deriving DecidableEq, Repr

/-- Who issued a command and how its reply goes back: on HRP, on SMP, or as CMD_REPLY to another gate (R348, R358). -/
structure Issuer where
  op : Nat
  part : Nat
  tag : Nat
  smp : Bool
  src : Option Nat
  deriving DecidableEq, Repr

/-- A token awaiting release at the edge (R60, R127, R140, R160): stamps and instants in units of 2^-16 ns, the stop reason 2 to 4
that its commit met, if any, and the chain of the draft it was, if it was one (R134). -/
structure HeldTok where
  pos : Nat
  tok : Nat
  stamp : Nat
  release : Nat
  image : Nat
  stop : Stop
  chain : Option Nat
  verdict : Option Word
  deriving DecidableEq, Repr

/-- A draft held at the edge with its verdict (R131, R134). -/
structure HeldDraft where
  chain : Nat
  depth : Nat
  tok : Nat
  stamp : Nat
  verdict : Option Word
  deriving DecidableEq, Repr

/-- What an item of the home's screening work is (R253). `resolve` is a DRAFT_RESOLVE in its place in the order (R123,
R136): the accepted tokens, and whether the step had a checkpoint. -/
inductive WorkKind where
  | prompt
  | commit
  | draft (chain depth : Nat)
  | turn
  | replay
  | resolve (toks : List Nat) (ckpt : Bool)
  deriving DecidableEq, Repr

/-- One item of a session's screening work at the home (R123, R159): its image in force (R167), its turn, the stop set it is screened
by (R145, R190), the gclk count at which it was queued (R159), the cluster it is assigned to, if any, and the clusters that hold its
SPLIT instructions (R272). -/
structure Work where
  kind : WorkKind
  tok : Nat
  pos : Nat
  index : Nat
  stamp : Nat
  image : Nat
  poolFull : Bool
  queued : Nat
  overDue : Bool
  first : Bool
  turn : Nat
  stops : Nat
  cluster : Option Nat
  split : List Nat
  running : Bool
  deriving DecidableEq, Repr

/-- A FEED reply held until its completed blocks are processed (R314). -/
structure FeedWait where
  issuer : Issuer
  length : Nat
  blocks : Nat
  deriving DecidableEq, Repr

/-- What a FEED forwarded to a remote home changed at the edge, kept until the home's answer: a home that is not LIVE refuses it, and
nothing is fed (R101). -/
structure FeedUndo where
  length : Nat
  promptLen : Nat
  outCount : Nat
  stop : Stop
  inTotal : Nat
  tokens : Nat
  turnOpen : Bool
  turnStart : Nat
  promptEnd : Nat
  base : Nat
  deriving DecidableEq, Repr

/-- What the edge keeps for an open session beside its entry (R102, R122 to R134, R160 to R166). `base` is LENGTH at the turn's
last FEED or at the last end of a step: a step's drafts follow a TOKEN past it (R129). `turnPos` is the POSITION that the turn's
ingress verdict names (R119), once its last FEED has come. -/
structure EdgeAux where
  turnOpen : Bool
  fedLast : Bool
  turnStart : Nat
  promptEnd : Nat
  tIn : Option Nat
  tInImage : Nat
  tInDone : Bool
  ingress : Option Word
  held : List HeldTok
  lastRelease : Nat
  drafts : List HeldDraft
  mark : Bool
  step : Option Bool
  nextDraft : Option (Nat × Nat)
  dropping : Bool
  discardOut : Bool
  turnImage : Nat
  stopPending : Option (Stop × Nat)
  base : Nat
  turnPos : Nat
  undo : Option FeedUndo
  deriving DecidableEq, Repr

/-- What the home keeps of a turn from its first FEED until its ingress verdict leaves (R153, R155, R156, R246): its number, the image
that its prompt is screened by, what its evaluations gave so far, what is left of its rerun reserve, its last prompt token and the
position after it; `ended` when its stream has ended. -/
structure TurnAcc where
  no : Nat
  image : Nat
  action : Nat
  reason : Nat
  seq : Bool
  nan : Bool
  degraded : Bool
  left : Nat
  refused : Bool
  lastPrompt : Nat
  promptEnd : Nat
  ended : Bool
  deriving DecidableEq, Repr

/-- What the home keeps for a session beside its entry and SSM (R130, R139, R151 to R155, R190, R246, R313, R314): the work in
order; the turns whose ingress verdict is still to come and the number of the last; whether the turn's resets await the next item;
the image of the last item screened and the stop set of the last one that the committed copy followed; the step's drafts, whether it
has a checkpoint, and the mark on the egress ring of a home that is not the edge; blocks filled and not yet hashed; FEED
replies held; CHAIN at the last match. -/
structure HomeAux where
  work : List Work
  turns : List TurnAcc
  turnNo : Nat
  fresh : Bool
  imageSeen : Nat
  stopIn : Nat
  step : Option Bool
  drafts : List HeldDraft
  mark : Bool
  hashQ : List (List Nat)
  feeds : List FeedWait
  matchChain : Word × Word
  closeFor : Option Issuer
  streamEnded : Bool
  deriving DecidableEq, Repr

/-- What a gate keeps for an entry of any kind: when it entered CANCELLED, when its open was sent (R100, R109), the ingress lanes for
which a SLIPPED word is due (R49), when a ring message of its session was last late (R52), and which of its rings a threshold crossing has scheduled
the consumer of (R76). -/
structure SlotAux where
  cancelTick : Nat
  openedAt : Nat
  slipped : List Nat
  lateAt : Option Nat
  inDue : Bool
  outDue : Bool
  deriving DecidableEq, Repr

/-- A tenant ledger (R323). -/
structure Ledger where
  valid : Bool
  weight : Nat
  sessions : Nat
  held : Nat
  salt : Word
  inRate : Nat
  inBurst : Nat
  inLevel : Nat
  inRefused : Nat
  outRate : Nat
  outBurst : Nat
  outLevel : Nat
  outRefused : Nat
  pkRate : Nat
  pkBurst : Nat
  pkLevel : Int
  deriving DecidableEq, Repr

/-- A received command packet: its words, header first, the REFCLK count of its arrival (R335, R418) and the gate time of it, in
units of 2^-16 ns (R55). -/
structure Pkt where
  part : Nat
  words : List Word
  arrived : Nat
  fine : Nat
  deriving DecidableEq, Repr

/-- The row window of a partition (R286): the access in progress, if any, with the row it names and what its check found when it
started (R295). -/
structure RowWin where
  addr : Word
  op : Nat
  busy : Bool
  row : Nat
  found : Nat
  status : Nat
  data : List Word
  deriving DecidableEq, Repr

/-- A partition's registers and rings (R334 to R336, R485): vector bits as numbers, event and repeat times by vector. -/
structure Partn where
  enabled : Bool
  share : Nat
  base : Nat
  count : Nat
  intEn : Nat
  intPend : Nat
  intAgain : Nat
  evTime : List Nat
  repTime : List Nat
  staleDrops : Nat
  stateDrops : Nat
  lateVerdicts : Nat
  reruns : Nat
  degradedItems : Nat
  ringOvf : Nat
  ring : List Pkt
  refusedBusy : Bool
  resetting : Bool
  version : Option Nat
  win : RowWin
  deriving DecidableEq, Repr

/-- An interrupt message that waits for HRP (R336). -/
structure IntMsg where
  part : Nat
  vector : Nat
  time : Nat
  deriving DecidableEq, Repr

/-- One beat's content on HRP_O: virtual channel, REG, partition, words (R489). -/
structure HrpOut where
  vc : Nat
  reg : Bool
  part : Nat
  words : List Word
  deriving DecidableEq, Repr

/-- A slot FIFO (R67, R73, R480): pointers, and the stored items with their slot tags, oldest first. -/
structure SlotFifo where
  wp : Nat
  rp : Nat
  fp : Nat
  ps : Nat
  pkts : Nat
  thresh : Nat
  ovf : Bool
  thrPend : Bool
  thrEn : Bool
  items : List (Nat × Item)
  deriving DecidableEq, Repr

/-- Slots that an operation which ended early had fixed (R42, R47, R48, R107): first slot, the slot past the last, the session's
handle, whether they slip, and whether SLIP counts them. -/
structure Dead where
  first : Nat
  stop : Nat
  handle : Nat
  slips : Bool
  counted : Bool
  deriving DecidableEq, Repr

/-- A lane in one direction (R44, R57, R58): the period in force, the number of the next slot, gate time of slot 0, the
tick a period change took effect whose first start is awaited, the run of slips in progress, and the slots of operations
that ended early. -/
structure Lane where
  fifo : SlotFifo
  period : Nat
  nextSlot : Nat
  slot0 : Nat
  awaiting : Option Nat
  slip : Nat
  run : Option (Nat × Nat)
  dead : List Dead
  deriving DecidableEq, Repr

/-- A release queue (R63, R65, R125) and the CONTROL words waiting for room in it. -/
structure RelQ where
  wp : Nat
  rp : Nat
  words : List Word
  waiting : List Word
  deriving DecidableEq, Repr

/-- A slip-log entry (R52). -/
structure SlipEv where
  time : Nat
  slot : Nat
  lane : Nat
  egress : Bool
  variant : Nat
  handle : Nat
  count : Nat
  sources : Nat
  deriving DecidableEq, Repr

/-- A tier device (R298). -/
structure Dev where
  present : Bool
  trained : Bool
  selfref : Bool
  rate : Nat
  gib : Nat
  ce : Nat
  ue : Nat
  onDie : Nat
  lastUse : Nat
  deriving DecidableEq, Repr

/-- A page: its items (seven words each) and its tag (R299, R300). -/
structure Page where
  items : List (List Word)
  kind : Nat
  owner : Nat
  link : Nat
  seq : Nat
  deriving DecidableEq, Repr

/-- A directory entry (R311). -/
structure DirEnt where
  tokens : Bool
  pages : Bool
  tenant : Nat
  block : Nat
  adapterEn : Bool
  adapter : Nat
  hash : Word × Word
  parent : Word × Word
  plHead : Nat
  plPages : Nat
  expiry : Nat
  tok : List Nat
  deriving DecidableEq, Repr

/-- A slice: its page list, its items, and the KIND and OWNER that its page tags hold (R300, R301). -/
structure Slice where
  head : Nat
  pages : Nat
  items : Nat
  kind : Nat
  owner : Nat
  deriving DecidableEq, Repr

/-- What a tier operation is (R303 to R318). A wintering tells whether its entry began with it, and whether the entry's relay kind
did (R90, R95); a publish brings the entry it will write, TOKENS 1 when it has a home part (R316). -/
inductive OpKind where
  | winter (slot : Nat) (fresh joined : Bool)
  | spring (slot : Nat)
  | publish (slot : Nat) (dir : DirEnt)
  | adapterLoad (variant : Nat)
  deriving DecidableEq, Repr

/-- A tier operation in progress: its lane and first slot, the items owed, how many the lane has passed and how many are
staged or taken, its extents, the slices a spring reads and pins, its bookings by tick, its TTL and its held reply. -/
structure TierOp where
  kind : OpKind
  lane : Nat
  first : Nat
  total : Nat
  done : Nat
  staged : Nat
  extents : List Nat
  slices : List Slice
  buf : List (List Word)
  bookings : List (Nat × Nat)
  tenant : Nat
  ttl : Nat
  issuer : Issuer
  deriving DecidableEq, Repr

/-- A tier scrub in progress (R320). -/
structure TierScrub where
  device : Nat
  pace : Nat
  issuer : Issuer
  startTick : Nat
  deriving DecidableEq, Repr

/-- The slot contract (R34, R519). -/
structure Contract where
  fclk : Nat
  floor : Nat
  resumeLead : Nat
  ringPeriod : Nat
  depthRing : Nat
  depthRefresh : Nat
  depthLatency : Nat
  depthHrp : Nat
  depthThrottle : Nat
  variants : Nat
  periods : List Nat
  deriving DecidableEq, Repr

/-- The metering and balance section (R338). -/
structure Meter where
  balEn : Bool
  wb : Nat
  hold : Nat
  dwell : Nat
  lead : Nat
  initial : Nat
  needMhz : Nat
  burstOut : Nat
  burstIn : Nat
  variants : List (Nat × Nat × Nat)
  deriving DecidableEq, Repr

/-- A gate image as loaded (R283, R362 to R367): its header row, its layout header row, its handle table, the sections the
gate takes from it, and the words of BEGIN that the CRC covers. -/
structure Img where
  hdr : List Word
  layout : List Word
  hdl : List (Nat × Word)
  begun : List Word
  crc8 : Nat
  crc4 : Nat
  contract : Contract
  meter : Meter
  descs : List ((Nat × Nat) × List Word)
  repl : List Nat
  gen : Nat
  deriving DecidableEq, Repr

/-- A commit staged on this gate (R403): what it changes, and whether GO is held and an OK ACK was sent. -/
structure Staged where
  kind : Kind
  target : Nat
  imageId : Nat
  crc8 : Nat
  crc4 : Nat
  variant : Nat
  roles : Nat
  go : Bool
  acked : Bool
  deriving DecidableEq, Repr

/-- The coordinator's side of a commit (R360, R403): acknowledgements, the MODE_COMMIT, whether tick TARGET - 2 has decided for GO and
whether GO is still to leave at the end of that tick's cycle (R369), held replies. -/
structure Coord where
  kind : Kind
  target : Nat
  acks : List Nat
  modeCommit : Bool
  decided : Bool
  going : Bool
  replies : List Issuer
  prepare : Option Issuer
  pin : Option Nat
  deriving DecidableEq, Repr

/-- A balance report (R340). -/
structure Report where
  gate : Nat
  tick : Nat
  p : Nat
  d : Nat
  deriving DecidableEq, Repr

/-- A message waiting on a link (R397): its class, when it was queued, and the item. -/
structure QMsg where
  cls : Nat
  since : Nat
  item : Item
  deriving DecidableEq, Repr

/-- A mirror write that has not entered the mirror queue (R407, R408): area, index, word, and the gate time at which it was made. -/
structure MirrorWrite where
  area : Nat
  index : Nat
  word : Word
  since : Nat
  deriving DecidableEq, Repr

/-- A sequence of CMD or CMD_REPLY messages that passes this gate, begun and not ended, with its class (R395). -/
structure Passing where
  src : Nat
  dst : Nat
  type : Nat
  cls : Nat
  deriving DecidableEq, Repr

/-- A sequence of CMD or CMD_REPLY messages being assembled (R394, R395). -/
structure Assembly where
  src : Nat
  type : Nat
  words : List Word
  deriving DecidableEq, Repr

/-- A command forwarded to another gate that awaits its answer (R358). -/
structure Fwd where
  issuer : Issuer
  dst : Nat
  slot : Option Nat
  since : Nat
  deriving DecidableEq, Repr

/-- A cluster (R274, R439, R440, R484). -/
structure Cluster where
  power : Power
  wakeAt : Nat
  removed : Bool
  idleSince : Nat
  runs : Nat
  wakes : Nat
  deriving DecidableEq, Repr

/-- A region reset asserted (R424, R425). -/
structure RegionRst where
  region : Nat
  start : Nat
  issuer : Issuer
  deriving DecidableEq, Repr

/-- A partition reset in progress (R337, R421): the REFCLK count and the gate time of its acceptance, and whether its step 3 is done. -/
structure PartRst where
  part : Nat
  start : Nat
  since : Nat
  cleared : Bool
  issuer : Issuer
  deriving DecidableEq, Repr

/-- A start in progress (R430 to R434). -/
structure StartRun where
  reach : Reach
  at' : Nat
  held : Bool
  training : Bool
  measured : Bool
  deriving DecidableEq, Repr

end Sys2Proof.Machine
end

