-- ==== Sys2Proof/Machine/Units.lean ====
section
/-! DEFINITION. The units' states: time, reset, trouble, command interpreter, image, commit, balance, ring, fabric, tier,
clocks, ports. -/
namespace Sys2Proof.Machine

/-- The time unit (R370 to R384). `t48` is gate time in units of 2^-48 ns, modulo 2^112; `quarters` the interpolator's
quarters of a nanosecond past the last REFCLK edge; `refclk` the REFCLK edges counted; `rewritten` a write of TM_CTL not yet
sampled; `lastMeas` the REFCLK count at the last measurement; `silent` the ticks without a TIME message; `named` the tick of the
next pulse of the package lead; `masterTwin` the twin that the last TIME message named; `stepped` the sum of all steps in units of
2^-16 ns; `ppsEdge` an edge of PPS_IN in the REFCLK cycle in progress, in quarters past its start; `ppsMute` and `solMute` the second
and the tick into which the last forward step led (R385). -/
structure TimeU where
  t48 : Nat
  quarters : Nat
  refclk : Nat
  lastTick : Nat
  ctl : Word
  ctlIn : Word
  set : Bool
  locked : Bool
  holdover : Bool
  serving : Bool
  master : Nat
  lockRun : Nat
  c : Int
  frac : Nat
  slewLeft : Int
  slewStep : Nat
  stepPending : Bool
  rewritten : Bool
  lastMeas : Nat
  silent : Nat
  named : Option Nat
  masterTwin : Option Nat
  stepped : Int
  ppsEdge : Option Int
  ppsMute : Option Nat
  solMute : Option Nat
  deriving DecidableEq, Repr

/-- The reset controller (R414 to R434): whether the internal reset is asserted and its reach, the REFCLK count up to
which some source is asserted, that of the counter's last clear, SOURCES seen, the start in progress, and the REFCLK count up to which
PWR_OK or PORST_n is low (`pinLow`). -/
structure ResetU where
  reach : Option Reach
  until' : Nat
  clearAt : Nat
  ctl : Word
  ctlIn : Word
  lastReach : Nat
  sources : Nat
  region : Nat
  forced : Bool
  attempts : Nat
  starts : Nat
  start : Option StartRun
  outHigh : Bool
  outRise : Option Nat
  regions : List RegionRst
  parts : List PartRst
  lossPending : Bool
  pinLow : Nat
  aborted : List (Nat × Word)
  abortedCmds : List Issuer
  deriving DecidableEq, Repr

/-- The trouble record and the retained state (R427, R428, R460 to R468), and the scrub walks of the session table and the ledgers
(`tab`) and of the retained store (`ret`): the next word, and the REFCLK count at which it is due (R456). -/
structure TroubleU where
  sticky : Word
  alertEn : Word
  ce : List Word
  retained : List (Nat × Word)
  bkup : List (Nat × Word)
  jobEntry : Option Nat
  tabNext : Nat
  tabDue : Nat
  retNext : Nat
  retDue : Nat
  deriving DecidableEq, Repr

/-- The command interpreter and SMP (R335, R350, R355 to R358, R502). `arrival` is the gate time at which the packet started last
arrived; `smpBad` tells that the SMP packet in progress holds an uncorrectable word; `smpStat` and `smpOut` are what the last frame
shifted out. -/
structure CmiU where
  nextPart : Nat
  inVisit : Nat
  smpRing : List Pkt
  arrival : Nat
  smpWords : List Word
  smpBad : Bool
  smpReply : List Word
  smpStat : Nat
  smpOut : List Word
  smpVersion : Option Nat
  fwds : List Fwd
  asm : List Assembly
  deriving DecidableEq, Repr

/-- Images (R283, R364 to R367): load state, image in load, rows written, image in force with the epoch its commit made,
previous image retiring and the first tick at which it may be dropped; the scrub walk of each region, its next row and the REFCLK count at which it is due, and the write-backs
queued (R291, R292). -/
structure ImageU where
  load : Load
  loading : Option Img
  rowsIn : Nat
  force : Option Img
  retiring : Option Img
  retireFrom : Nat
  gen : Nat
  forceEpoch : Nat
  scrubRow : List Nat
  scrubFrom : List Nat
  writeBacks : List Nat
  deriving DecidableEq, Repr

/-- Equinox commits and the job-restart window (R400, R403, R411); `refused` is the change that this gate refused last, until its ABORT
comes (R343). -/
structure CommitU where
  epoch : Nat
  window : Bool
  staged : Option Staged
  coord : Option Coord
  refused : Option (Nat × Kind)
  restarts : List (Nat × Nat)
  deriving DecidableEq, Repr

/-- Metering and balance (R330 to R345). -/
structure BalanceU where
  ctl : Word
  ctlIn : Word
  factor : Nat
  capOut : Nat
  capIn : Nat
  sCap : Nat
  due : Bool
  active : Nat
  pinned : Bool
  m : Nat
  switches : Nat
  aborts : Nat
  missing : Nat
  out : Nat
  since : Nat
  reports : List Report
  p : Nat
  d : Nat
  deriving DecidableEq, Repr

/-- The ring (R388 to R400, R406 to R408). -/
structure NetU where
  cfg : Word
  routes : List (Nat × Word)
  linkUp : Nat
  paired : Bool
  synced : Bool
  twin : Nat
  late : Nat
  dropped : Nat
  queues : List (List QMsg)
  heldMsgs : List Item
  passing : List Passing
  mirrorWp : Nat
  mirrorRp : Nat
  mirrorQ : List QMsg
  area3Sent : List Word
  mirrorWait : List MirrorWrite
  copyNext : Option Nat
  pairFor : Option Issuer
  unpairFor : Option Issuer
  peerDone : Bool
  sent : List (Option Item)
  deriving DecidableEq, Repr

/-- The fabric ports (R44, R50 to R52, R62, R496, R39, R80). -/
structure FspU where
  ingress : List Lane
  egress : List Lane
  relq : List RelQ
  slipLog : List SlipEv
  slipOvf : Bool
  fclkKept : Option Nat
  fclkFrom : Option Nat
  fref : List Nat
  deriving DecidableEq, Repr

/-- The retention tier (R296 to R320, R407). `deferred` lists the slices whose freeing waits for the end of a spring that
pins them (R308): tenant, head, pages; `dropping` the directory positions whose PREFIX_DROP waits for it. `booked` keeps what ended operations had booked in ticks not yet over (R333): tick, tenant,
pages. -/
structure TierU where
  devs : List Dev
  alloc : List Nat
  pages : List (Nat × Page)
  dir : List (Nat × DirEnt)
  lib : List (Nat × Slice)
  lost : Nat
  training : Bool
  ops : List TierOp
  deferred : List (Option Nat × Nat × Nat)
  dropping : List Nat
  booked : List (Nat × Option Nat × Nat)
  scrub : Option TierScrub
  mirror : List (Nat × Word)
  mirrorLost : List Nat
  deriving DecidableEq, Repr

/-- Clocks, power and ageing (R437 to R452). `mhz` is the running gclk; `cycles` counts its cycles, in twenty-fifths (R7). -/
structure ClockU where
  ctl : Word
  ctlIn : Word
  mhz : Nat
  cycles : Nat
  sleeping : Bool
  quietSince : Option Nat
  throttle : Bool
  throttleAt : Nat
  stepAt : Nat
  pausedAt : Option Nat
  floorAt : Option Nat
  raise : Option (Nat × Nat)
  remeasure : Option (Nat × Nat)
  plan : Nat
  ageOfs : Nat
  margin : Bool
  pwrReq : Nat
  agCode : Word
  agSpine : Nat
  agTick : Nat
  clusters : List Cluster
  deriving DecidableEq, Repr

/-- The test port (R506, R507): the instruction taken at Update-IR and the boundary cells. -/
structure TapU where
  ir : BitVec 8
  bypassed : Bool
  cells : List Bool
  deriving DecidableEq, Repr

end Sys2Proof.Machine
end

