-- ==== Sys2Proof/Machine/State.lean ====
section
/-! DEFINITION. The gate's state: every register, store, queue and pin the spec gives it, the commands that wait, and the
machine right after reset. -/
namespace Sys2Proof.Machine

/-- The state of one gate. Sparse stores list the keys that differ from their default, keys strictly rising. -/
structure State where
  grade : Grade
  tm : TimeU
  rs : ResetU
  trb : TroubleU
  entries : List (Nat × Entry)
  edge : List (Nat × EdgeAux)
  home : List (Nat × HomeAux)
  slots : List (Nat × SlotAux)
  ledgers : List (Nat × Ledger)
  parts : List (Nat × Partn)
  ints : List IntMsg
  cmi : CmiU
  mem : Memory
  hdl : List (Nat × Word)
  img : ImageU
  com : CommitU
  bal : BalanceU
  net : NetU
  fsp : FspU
  tier : TierU
  clk : ClockU
  role : Nat
  roleShadow : Nat
  denied : Nat
  misformed : Nat
  blocked : Nat
  hrpOut : List HrpOut
  fspOut : List (Option Item)
  tap : TapU
  pending : List Instr
  deriving DecidableEq, Repr

/-- Reasons to stop with a fault. No row of the table stops: every event the spec names is an effect on the state. -/
inductive Fault where
  /-- Never raised: the gate's own faults (JOB_FAULT, a cancelled session) are next states. Safe. -/
  | unreachable
  deriving DecidableEq, Repr

/-- Reasons to refuse. -/
inductive Refusal where
  /-- Raised by an arm of `exec` whose command has no meaning yet. Safe: nothing is claimed of it. -/
  | notModelled (mnemonic : String)
  deriving DecidableEq, Repr

/-- A ring descriptor with every field zero (R67). -/
def RingD.zero : RingD :=
  { wp := 0, rp := 0, fp := 0, mp := 0, ps := 0, thresh := 0, pkts := 0, mv := false, mrel := false, ovf := false, status := 0 }

/-- The entry of a slot never used: FREE, every field zero (R112). -/
def Entry.zero : Entry :=
  { state := .free, home := false, edge := false, relay := false, gen := 0, homeGate := 0, edgeGate := 0, part := 0,
    tenant := 0, priority := 0, length := 0, promptLen := 0, maxOut := 0, deadline := 0, outCount := 0, stop := .none,
    endReason := 0, openTime := 0, plHead := 0, plPages := 0, parked := false, expiry := 0, stopSet := 0, endToken := 0,
    endEn := false, policy := 0, adapter := 0, adapterEn := false, ckpt := 0, ckptValid := false, chains := 0,
    draftRejected := 0, inLane := 0, outLane := 0, hops := 0, dOut := 0, pendOp := 0, pendTag := 0, pendSmp := false,
    inTotal := 0, outTotal := 0, flagCount := 0, maskCount := 0, nanSeen := false, degraded := false, poolFull := false,
    inRing := RingD.zero, outRing := RingD.zero }

/-- Nothing kept at the edge. -/
def EdgeAux.zero : EdgeAux :=
  { turnOpen := false, fedLast := false, turnStart := 0, promptEnd := 0, tIn := none, tInImage := 0, tInDone := false,
    ingress := none, held := [], lastRelease := 0, drafts := [], mark := false, step := none, nextDraft := none,
    dropping := false, discardOut := false, turnImage := 0, stopPending := none, base := 0, turnPos := 0, undo := none }

/-- Nothing kept at the home. -/
def HomeAux.zero : HomeAux :=
  { work := [], turns := [], turnNo := 0, fresh := false, imageSeen := 0, stopIn := 0, step := none, drafts := [], mark := false,
    hashQ := [], feeds := [], matchChain := (0, 0), closeFor := none, streamEnded := true }

/-- Nothing kept beside an entry. -/
def SlotAux.zero : SlotAux := { cancelTick := 0, openedAt := 0, slipped := [], lateAt := none, inDue := false, outDue := false }

/-- A ledger with VALID 0 and every field zero (R345). -/
def Ledger.zero : Ledger :=
  { valid := false, weight := 0, sessions := 0, held := 0, salt := 0, inRate := 0, inBurst := 0, inLevel := 0,
    inRefused := 0, outRate := 0, outBurst := 0, outLevel := 0, outRefused := 0, pkRate := 0, pkBurst := 0, pkLevel := 0 }

/-- The row window's reset values (R286). -/
def RowWin.zero : RowWin := { addr := 0, op := 0, busy := false, row := 0, found := 0, status := 0, data := List.replicate 8 0#64 }

/-- A partition at its cold reset values (R334, R345): SHARE 1; ENABLED of partition 0 is read as 1 by its reader. -/
def Partn.cold : Partn :=
  { enabled := false, share := 1, base := 0, count := 0, intEn := 0, intPend := 0, intAgain := 0,
    evTime := List.replicate 8 0, repTime := List.replicate 8 0, staleDrops := 0, stateDrops := 0, lateVerdicts := 0,
    reruns := 0, degradedItems := 0, ringOvf := 0, ring := [], refusedBusy := false, resetting := false, version := none,
    win := RowWin.zero }

/-- A slot FIFO at its reset values (R67, R480). -/
def SlotFifo.zero : SlotFifo :=
  { wp := 0, rp := 0, fp := 0, ps := 0, pkts := 0, thresh := 0xFFF, ovf := false, thrPend := false, thrEn := false, items := [] }

/-- A lane at reset: no period in force (R43). -/
def Lane.zero : Lane :=
  { fifo := SlotFifo.zero, period := 0, nextSlot := 0, slot0 := 0, awaiting := none, slip := 0, run := none,
    dead := [] }

/-- An empty release queue. -/
def RelQ.zero : RelQ := { wp := 0, rp := 0, words := [], waiting := [] }

/-- A device that has not answered (R298). -/
def Dev.zero : Dev :=
  { present := false, trained := false, selfref := false, rate := 0, gib := 0, ce := 0, ue := 0, onDie := 0, lastUse := 0 }

/-- A stopped cluster (R439, R484). -/
def Cluster.zero : Cluster :=
  { power := .stopped, wakeAt := 0, removed := false, idleSince := 0, runs := 0, wakes := 0 }

/-- TM_CTL at cold reach: every field zero (R374). -/
def TimeU.cold : TimeU :=
  { t48 := 0, quarters := 0, refclk := 0, lastTick := 0, ctl := 0, ctlIn := 0, set := false, locked := false,
    holdover := false, serving := false, master := 0, lockRun := 0, c := 0, frac := 0, slewLeft := 0, slewStep := 0,
    stepPending := false, rewritten := false, lastMeas := 0, silent := 0, named := none, masterTwin := none,
    stepped := 0, ppsEdge := none, ppsMute := none, solMute := none }

/-- RS_CTL at cold reach: OUT_WARM 1, WDOG_EN 1 (R422). -/
def rsCtlCold : Word := 0x6000_0000_0000_0000

/-- The reset controller at the release edge of a cold reset that power-on began: the cold start runs (R430, R434). -/
def ResetU.cold : ResetU :=
  { reach := none, until' := 0, clearAt := 0, ctl := rsCtlCold, ctlIn := rsCtlCold, lastReach := 4, sources := 2 ^ 8,
    region := 0, forced := false, attempts := 0, starts := 1,
    start := some { reach := .cold, at' := 0, held := false, training := true, measured := false }, outHigh := false, outRise := some 1024,
    regions := [], parts := [], lossPending := false, pinLow := 0, aborted := [], abortedCmds := [] }

/-- The RS_STAT image of a power-on cold start: LAST_REACH 4, SOURCES power-on, STARTS 1 (R434). -/
def rsStatCold : Word := 0x9000_0000_0000_8000

/-- The retained store as R429 initialises it: SIGNATURE and format, the RS_STAT image, the ageing header's FORMAT (R448). -/
def retainedInit : List (Nat × Word) :=
  [(0x0000, 0x4253_4731_0100_0000), (0x0001, rsStatCold), (0x0800, 0x0100_0000_0000_0000)]

/-- The trouble record at a power-on that initialises the store: sticky bits zero, ALERT_EN at its cold value (R461). -/
def TroubleU.cold : TroubleU :=
  { sticky := 0, alertEn := 0x67FF_FFFF, ce := List.replicate 8 0#64, retained := retainedInit, bkup := [], jobEntry := none,
    tabNext := 0, tabDue := 1, retNext := 0, retDue := 1 }

/-- The command interpreter with every ring empty. -/
def CmiU.zero : CmiU :=
  { nextPart := 0, inVisit := 0, smpRing := [], arrival := 0, smpWords := [], smpBad := false, smpReply := [], smpStat := 0,
    smpOut := [], smpVersion := none, fwds := [], asm := [] }

/-- No image (R364). -/
def ImageU.zero : ImageU :=
  { load := .idle, loading := none, rowsIn := 0, force := none, retiring := none, retireFrom := 0, gen := 0, forceEpoch := 0, scrubRow := [0, 0, 0, 0],
    scrubFrom := [1, 1, 1, 1], writeBacks := [] }

/-- No commit (R400). -/
def CommitU.zero : CommitU := { epoch := 0, window := false, staged := none, coord := none, refused := none, restarts := [] }

/-- Metering and balance at cold reach (R345). -/
def BalanceU.zero : BalanceU :=
  { ctl := 0, ctlIn := 0, factor := 0, capOut := 0, capIn := 0, sCap := 0, due := false, active := 0, pinned := false,
    m := 0, switches := 0, aborts := 0, missing := 0, out := 0, since := 0, reports := [], p := 0, d := 0 }

/-- The ring at cold reach (R389, R391, R400). -/
def NetU.zero : NetU :=
  { cfg := 0, routes := [], linkUp := 0, paired := false, synced := false, twin := 0, late := 0, dropped := 0,
    queues := List.replicate 4 [], heldMsgs := [], passing := [], mirrorWp := 0, mirrorRp := 0, mirrorQ := [], area3Sent := [], mirrorWait := [],
    copyNext := none, pairFor := none, unpairFor := none, peerDone := false, sent := List.replicate 4 none }

/-- The fabric ports at cold reach. -/
def FspU.zero : FspU :=
  { ingress := List.replicate 4 Lane.zero, egress := List.replicate 4 Lane.zero, relq := List.replicate 4 RelQ.zero,
    slipLog := [], slipOvf := false, fclkKept := none, fclkFrom := none, fref := [0, 0, 0, 0] }

/-- The tier as a cold reset leaves it: cleared, devices not yet trained, cold step 5 running (R321, R430, R483). -/
def TierU.cold : TierU :=
  { devs := List.replicate 20 Dev.zero, alloc := [], pages := [], dir := [], lib := [], lost := 0, training := true,
    ops := [], deferred := [], dropping := [], booked := [], scrub := none, mirror := [], mirrorLost := [] }

/-- GT_CLK_CTL at cold reach: RUN_MHZ 1,400, STOP_IDLE 16, WAKE_DEPTH 2, WAKE_AHEAD 1, PWR_SETTLE 50 (R446). -/
def clkCtlCold : Word := 0xAF08_1390_0000_0000

/-- Clocks and power at cold reach: PWR_REQ 0xF8, the plan not yet made (R444, R452). -/
def ClockU.cold : ClockU :=
  { ctl := clkCtlCold, ctlIn := clkCtlCold, mhz := 0, sleeping := false, quietSince := none, throttle := false,
    throttleAt := 0, cycles := 0, stepAt := 0, pausedAt := none, floorAt := none, raise := none, remeasure := none, plan := 0, ageOfs := 0,
    margin := false, pwrReq := 0xF8, agCode := 0, agSpine := 0, agTick := 0, clusters := List.replicate 8 Cluster.zero }

/-- The test port reset by power-on: BYPASS in force (log 7). -/
def TapU.zero : TapU := { ir := 0xFF, bypassed := true, cells := [] }

/-- The machine right after reset: the release edge of a cold reset begun by power-on, the cold start beginning (log 1). -/
def State.reset : State :=
  { grade := .full, tm := TimeU.cold, rs := ResetU.cold, trb := TroubleU.cold, entries := [], edge := [], home := [],
    slots := [], ledgers := [], parts := [], ints := [], cmi := CmiU.zero, mem := [], hdl := [], img := ImageU.zero,
    com := CommitU.zero, bal := BalanceU.zero, net := NetU.zero, fsp := FspU.zero, tier := TierU.cold,
    clk := ClockU.cold, role := 0, roleShadow := 0, denied := 0, misformed := 0, blocked := 0, hrpOut := [],
    fspOut := List.replicate 4 none, tap := TapU.zero, pending := [] }

end Sys2Proof.Machine
end

