-- ==== Sys2Proof/Machine/Ops.lean ====
section
/-! DEFINITION. The named operations over the state's stores, registers and clock: reading and writing one entry of each
store, gate time, and the passing of time before a command. -/
namespace Sys2Proof.Machine

/-- Integer division rounded to nearest, ties away from zero (R370, R378). -/
def nearest (x : Int) (y : Nat) : Int :=
  if 0 ≤ x then (((2 * x.natAbs + y) / (2 * y) : Nat) : Int) else -(((2 * x.natAbs + y) / (2 * y) : Nat) : Int)

/-- The increment of gate time at a REFCLK edge, in units of 2^-48 ns (R370). -/
def increment (c : Int) : Int := 40 * 2 ^ 48 + nearest (40 * c * 2 ^ 48) (10 ^ 12)

/-- The part of a slew that `n` REFCLK edges spend (R384). -/
def slewPart (left : Int) (step n : Nat) : Int :=
  let p := min (n * step) left.natAbs
  if left < 0 then -(p : Int) else (p : Int)

/-- The time unit after `n` more REFCLK edges and `q` quarters of a nanosecond past the last (R370, R371, R384). -/
def TimeU.advance (t : TimeU) (n q : Nat) : TimeU :=
  let d := slewPart t.slewLeft t.slewStep n
  { t with t48 := ((((t.t48 : Int) + (n : Int) * increment t.c + d) % (2 ^ 112 : Int))).toNat,
           slewLeft := t.slewLeft - d, refclk := t.refclk + n,
           quarters := if n = 0 then max t.quarters (min q 159) else min q 159 }

/-- Gate time now, in units of 2^-16 ns, with the interpolator (R371). -/
def State.fine (s : State) : Nat := (s.tm.t48 >>> 32) + s.tm.quarters * 2 ^ 14

/-- The gclk cycles that have run since the last cold reach, in 4,000ths of a cycle (R7): REFCLK has 40 ns, a quarter of a nanosecond at
`mhz` is `mhz` 4,000ths. -/
def State.gclks (s : State) : Nat := 160 * s.clk.cycles + s.tm.quarters * s.clk.mhz

/-- Gate time now in whole ns (R370). -/
def State.now (s : State) : Nat := s.fine >>> 16

/-- The last tick whose instant lies in the gclk cycle of a gate time, or before it (R372): that cycle ends at the next multiple of a
gclk period (log 10). With gclk stopped, the last tick reached. -/
def State.tickAt (s : State) (fine : Nat) : Nat :=
  if s.clk.mhz = 0 then fine >>> 36
  else (((fine * s.clk.mhz / 65536000 + 1) * 65536000 - 1) / s.clk.mhz) >>> 36

/-- The number of the last tick whose gclk cycle has begun (R372). -/
def State.tick (s : State) : Nat := s.tickAt s.fine

/-- The number of the gclk cycle that holds a gate time; with gclk stopped every instant stands for itself (R372). -/
def State.cycleOf (s : State) (fine : Nat) : Nat := if s.clk.mhz = 0 then fine else fine * s.clk.mhz / 65536000

/-- Gate time at the last REFCLK edge: ns and the 16-bit fraction (R370, R483). -/
def TimeU.ns (t : TimeU) : Nat := t.t48 >>> 48
/-- The 16 fraction bits that reads return (R370). -/
def TimeU.frac16 (t : TimeU) : Nat := (t.t48 >>> 32) % 2 ^ 16

/-- Nanoseconds as units of 2^-16 ns. -/
def fineOf (ns : Nat) : Nat := ns * 2 ^ 16

/-- Whether the internal reset is asserted at job reach or wider (R420). -/
def State.inReset (s : State) : Bool := s.rs.reach.isSome

/-- The gate's own number (R389). -/
def State.gate (s : State) : Nat := bf s.net.cfg 46 37
/-- GT_RING_CFG ENABLE (R389). -/
def State.ringOn (s : State) : Bool := bit s.net.cfg 63
/-- hop_ns (R389). -/
def State.hopNs (s : State) : Nat := bf s.net.cfg 58 47

/-- Active roles (R479): [2] home, [1] edge, [0] relay. -/
def State.hasHome (s : State) : Bool := s.role.testBit 2
def State.hasEdge (s : State) : Bool := s.role.testBit 1
def State.hasRelay (s : State) : Bool := s.role.testBit 0

/-- The region that holds a slot's screening state (R284). -/
def State.regionOf (s : State) (slot : Nat) : Nat := slot % s.grade.regions

/-- A region whose reset is asserted (R425), and a lane of such a region. -/
def State.regionHeld (s : State) (r : Nat) : Bool := s.rs.regions.any (fun x => x.region == r)
def State.laneHeld (s : State) (l : Nat) : Bool := s.regionHeld (l % s.grade.regions)

/-- The session entry of a slot (R92). -/
def State.entry (s : State) (slot : Nat) : Entry := sget Entry.zero s.entries slot
/-- What the edge keeps for a slot. -/
def State.edgeAt (s : State) (slot : Nat) : EdgeAux := sget EdgeAux.zero s.edge slot
/-- What the home keeps for a slot. -/
def State.homeAt (s : State) (slot : Nat) : HomeAux := sget HomeAux.zero s.home slot
/-- What any gate keeps for a slot. -/
def State.slotAt (s : State) (slot : Nat) : SlotAux := sget SlotAux.zero s.slots slot
/-- A tenant's ledger (R323). -/
def State.ledger (s : State) (t : Nat) : Ledger := sget Ledger.zero s.ledgers t
/-- A partition (R334). -/
def State.part (s : State) (p : Nat) : Partn := sget Partn.cold s.parts p
/-- ENABLED of a partition: 1 for partition 0 at all times (R334). -/
def State.partOn (s : State) (p : Nat) : Bool := p == 0 || (s.part p).enabled

def State.setEdge (s : State) (slot : Nat) (e : EdgeAux) : State := { s with edge := sset EdgeAux.zero s.edge slot e }
def State.setHome (s : State) (slot : Nat) (h : HomeAux) : State := { s with home := sset HomeAux.zero s.home slot h }
def State.setSlot (s : State) (slot : Nat) (a : SlotAux) : State := { s with slots := sset SlotAux.zero s.slots slot a }
def State.setPart (s : State) (p : Nat) (v : Partn) : State := { s with parts := sset Partn.cold s.parts p v }

/-- Ring pair and descriptor packing (R83). -/
def RingD.word (r : RingD) : Word :=
  pack [(r.wp, 63, 56), (r.rp, 55, 48), (r.fp, 47, 40), (r.mp, 39, 32), (r.ps, 31, 24), (r.thresh, 23, 17),
    (r.pkts, 16, 9), (b2n r.mv, 8, 8), (b2n r.mrel, 7, 7), (b2n r.ovf, 6, 6), (r.status, 5, 4)]

/-- The sixteen words of an entry (R92). -/
def Entry.words (e : Entry) : List Word :=
  [ pack [(e.state.code, 63, 60), (b2n e.home, 59, 59), (b2n e.edge, 58, 58), (b2n e.relay, 57, 57), (e.gen, 56, 48),
      (e.homeGate, 47, 38), (e.edgeGate, 37, 28), (e.part, 27, 22), (e.tenant, 21, 8), (e.priority, 7, 4)],
    pack [(e.length, 63, 44), (e.promptLen, 43, 24), (e.maxOut, 23, 4)],
    pack [(e.deadline, 63, 32), (e.outCount, 31, 12), (e.stop.code, 11, 8), (e.endReason, 7, 0)],
    pack [(e.openTime, 63, 0)],
    pack [(e.plHead, 63, 38), (e.plPages, 37, 14), (b2n e.parked, 13, 13)],
    pack [(e.expiry, 63, 20)],
    pack [(e.stopSet, 63, 52), (e.endToken, 51, 34), (b2n e.endEn, 33, 33), (e.policy, 32, 21), (e.adapter, 20, 9),
      (b2n e.adapterEn, 8, 8)],
    pack [(e.ckpt, 63, 51), (b2n e.ckptValid, 50, 50), (e.chains, 49, 46), (e.draftRejected, 45, 14)],
    pack [(e.inLane, 63, 62), (e.outLane, 61, 60), (e.hops, 59, 50), (e.dOut, 49, 33)],
    pack [(e.pendOp, 63, 56), (e.pendTag, 55, 40), (b2n e.pendSmp, 39, 39)],
    pack [(e.inTotal, 63, 32), (e.outTotal, 31, 0)],
    pack [(e.flagCount, 63, 48), (e.maskCount, 47, 32), (b2n e.nanSeen, 31, 31), (b2n e.degraded, 30, 30),
      (b2n e.poolFull, 29, 29)],
    0, 0, e.inRing.word, e.outRing.word ]

/-- The eight words of a ledger, SALT in its place (R323). -/
def Ledger.words (l : Ledger) : List Word :=
  [ pack [(b2n l.valid, 63, 63), (l.weight, 62, 55), (l.sessions, 54, 41), (l.held, 40, 12)],
    l.salt,
    pack [(l.inRate, 63, 40), (l.inBurst, 39, 8)], pack [(l.inLevel, 63, 32), (l.inRefused, 31, 0)],
    pack [(l.outRate, 63, 40), (l.outBurst, 39, 8)], pack [(l.outLevel, 63, 32), (l.outRefused, 31, 0)],
    pack [(l.pkRate, 63, 40), (l.pkBurst, 39, 8)], pack [(twos 48 l.pkLevel, 63, 16)] ]

/-- The place of a mirrored word in the order of a copy: areas 0 to 3 one after another (R406, R407). -/
def mirrorPlace (area index : Nat) : Nat :=
  index + (if area = 0 then 0 else if area = 1 then 131072 else if area = 2 then 262144 else 278528)

/-- The contract in force, if any (R33, R43). -/
def State.contract (s : State) : Option Contract := s.img.force.map (·.contract)
/-- The metering section in force, if any (R338). -/
def State.meter (s : State) : Option Meter := s.img.force.map (·.meter)

/-- SLOT_PERIOD[v][dir][lane] (R519): dir 0 ingress, 1 egress. -/
def Contract.periodOf (c : Contract) (v dir lane : Nat) : Nat := c.periods.getD (8 * v + 4 * dir + lane) 0

/-- GCLK_FLOOR_MHZ; 600 while no image is committed (R442). -/
def State.floorMhz (s : State) : Nat := match s.contract with | some c => c.floor | none => 600
/-- The effective floor f_floor (R57, R442). -/
def State.fFloor (s : State) : Nat := min s.floorMhz s.clk.plan
/-- The run clock f_run (R442), from GT_CLK_CTL as in force. -/
def State.fRun (s : State) : Nat := min (max (bf s.clk.ctlIn 63 53) s.floorMhz) s.clk.plan

/-- The coordinator as this gate knows it (R22, R402): itself when it serves or is ALONE, else TM_STAT MASTER. -/
def State.alone (s : State) : Bool := bf s.tm.ctlIn 63 62 == 2
def State.isCoord (s : State) : Bool := s.alone || s.tm.serving
def State.coordGate (s : State) : Nat := if s.isCoord then s.gate else s.tm.master

/-- A lane of the FSP: ingress or egress (R495). -/
def State.inLaneAt (s : State) (l : Nat) : Lane := s.fsp.ingress.getD l Lane.zero
def State.outLaneAt (s : State) (l : Nat) : Lane := s.fsp.egress.getD l Lane.zero
def State.setInLane (s : State) (l : Nat) (v : Lane) : State := { s with fsp := { s.fsp with ingress := s.fsp.ingress.set l v } }
def State.setOutLane (s : State) (l : Nat) (v : Lane) : State := { s with fsp := { s.fsp with egress := s.fsp.egress.set l v } }
/-- A release queue (R62). -/
def State.relqAt (s : State) (l : Nat) : RelQ := s.fsp.relq.getD l RelQ.zero
def State.setRelq (s : State) (l : Nat) (q : RelQ) : State := { s with fsp := { s.fsp with relq := s.fsp.relq.set l q } }

/-- Rows written by someone else than their write-back: one that waits for them is dropped (R291, R295). -/
def State.dropBacks (s : State) (row n : Nat) : State :=
  { s with img := { s.img with writeBacks := s.img.writeBacks.filter (fun r => decide (r < row) || decide (row + n ≤ r)) } }
/-- A row's write-back dropped. -/
def State.supersede (s : State) (row : Nat) : State := s.dropBacks row 1
/-- Words of the SSM written from a word address on. -/
def State.putMem (s : State) (a : Nat) (ws : List Word) : State :=
  { s.dropBacks (a / 8) ((a + ws.length + 7) / 8 - a / 8) with mem := s.mem.putWords a ws }
/-- Rows of the SSM zeroed. -/
def State.zeroMem (s : State) (row n : Nat) : State := { s.dropBacks row n with mem := s.mem.zeroRows row n }

/-- What goes out on HRP_O (R489): appended to the record of beats. -/
def State.putOut (s : State) (vc part : Nat) (reg : Bool) (ws : List Word) : State :=
  { s with hrpOut := s.hrpOut ++ [{ vc := vc, reg := reg, part := part, words := ws }] }

/-- A word of the retained store written (R428). -/
def State.putRetained (s : State) (i : Nat) (w : Word) : State :=
  { s with trb := { s.trb with retained := sset 0#64 s.trb.retained i w } }
/-- A word of the retained store. -/
def State.retained (s : State) (i : Nat) : Word := sget 0#64 s.trb.retained i

end Sys2Proof.Machine
end

