-- ==== Sys2Proof/Machine/Operands.lean ====
section
/-! DEFINITION. The forms of the words that reach and leave the gate: handles (R85), stream words (R115 to R121), command
and reply headers (R347, R348), ring messages (R394, R395), the lane-and-slot word, token packing (R359). -/
namespace Sys2Proof.Machine

/-- The idle word (00_scope.md: END 1, KIND 0, payload zero). -/
def idleWord : Word := 0x8000_0000_0000_0000

/-- The words of an item, word 0 first. -/
def itemWords (i : Item) : List Word := [i.w0, i.w1, i.w2, i.w3, i.w4, i.w5, i.w6, i.w7]

/-- The item of eight words; a word the list does not hold is `d`. -/
def itemOf (d : Word) (ws : List Word) : Item :=
  { w0 := ws.getD 0 d, w1 := ws.getD 1 d, w2 := ws.getD 2 d, w3 := ws.getD 3 d, w4 := ws.getD 4 d, w5 := ws.getD 5 d,
    w6 := ws.getD 6 d, w7 := ws.getD 7 d }

/-- The idle item: eight idle words. -/
def idleItem : Item := itemOf idleWord []

/-- A system session handle (R85): gate [31:22], slot [21:9], generation [8:0]. -/
def handleOf (gate slot gen : Nat) : Nat := (gate % 1024) * 2 ^ 22 + (slot % 8192) * 2 ^ 9 + gen % 512
def hdlGate (h : Nat) : Nat := nf h 31 22
def hdlSlot (h : Nat) : Nat := nf h 21 9
def hdlGen (h : Nat) : Nat := nf h 8 0

/-- The handle of the session that an entry holds. -/
def State.handle (s : State) (slot : Nat) : Nat := handleOf (s.entry slot).homeGate slot (s.entry slot).gen

/-- The handle H of a word of a session command: [63:32] (R359). -/
def hdlOf (w : Word) : Nat := bf w 63 32
/-- The word that carries a handle in [63:32]. -/
def hdlWord (h : Nat) : Word := pack [(h, 63, 32)]

/-- END of a stream word. -/
def wEnd (w : Word) : Bool := bit w 63
/-- KIND of a stream word (R115). -/
def wKind (w : Word) : Nat := bf w 62 60
/-- Slot of a TOKEN, DRAFT, CONTROL, VERDICT or PAYLOAD word. -/
def wSlot (w : Word) : Nat := bf w 59 47
/-- Generation of such a word. -/
def wGen (w : Word) : Nat := bf w 46 38
/-- Position of a TOKEN or VERDICT word (R117, R119). -/
def wPos (w : Word) : Nat := bf w 37 18
/-- Token ID of a TOKEN or DRAFT word. -/
def wTok (w : Word) : Nat := bf w 17 0
/-- Chain of a DRAFT word (R118). -/
def wChain (w : Word) : Nat := bf w 37 36
/-- Depth of a DRAFT word, 1 to 8 (R118). -/
def wDepth (w : Word) : Nat := bf w 35 33 + 1

/-- A TOKEN word (R117), END 1. -/
def tokenWord (slot gen pos tok : Nat) : Word :=
  pack [(1, 63, 63), (1, 62, 60), (slot, 59, 47), (gen, 46, 38), (pos, 37, 18), (tok, 17, 0)]

/-- A DRAFT word (R118). -/
def draftWord (last : Bool) (slot gen chain depth tok : Nat) : Word :=
  pack [(b2n last, 63, 63), (2, 62, 60), (slot, 59, 47), (gen, 46, 38), (chain, 37, 36), (depth - 1, 35, 33), (tok, 17, 0)]

/-- What a verdict says (R119). -/
structure Verdict where
  slot : Nat
  gen : Nat
  pos : Nat
  form : Nat
  chain : Nat
  action : Nat
  nan : Bool
  degraded : Bool
  poolFull : Bool
  reason : Nat
  deriving DecidableEq, Repr

/-- A VERDICT word (R119), END 1. -/
def Verdict.word (v : Verdict) : Word :=
  pack [(1, 63, 63), (4, 62, 60), (v.slot, 59, 47), (v.gen, 46, 38), (v.pos, 37, 18), (v.form, 17, 16), (v.chain, 15, 14),
    (v.action, 13, 11), (b2n v.nan, 10, 10), (b2n v.degraded, 9, 9), (b2n v.poolFull, 8, 8), (v.reason, 7, 0)]

/-- The fields of a VERDICT word. -/
def verdictOf (w : Word) : Verdict :=
  { slot := wSlot w, gen := wGen w, pos := wPos w, form := bf w 17 16, chain := bf w 15 14, action := bf w 13 11,
    nan := bit w 10, degraded := bit w 9, poolFull := bit w 8, reason := bf w 7 0 }

/-- A CONTROL word (R120), END 1. -/
def controlWord (slot gen code arg : Nat) : Word :=
  pack [(1, 63, 63), (3, 62, 60), (slot, 59, 47), (gen, 46, 38), (code, 37, 30), (arg, 29, 0)]

/-- CONTROL STREAM_END (R120). -/
def streamEndWord (slot gen length : Nat) (r : Stop) : Word := controlWord slot gen 1 (length * 2 ^ 10 + r.code)
/-- CONTROL CANCELLED (R120). -/
def cancelledWord (slot gen reason : Nat) : Word := controlWord slot gen 2 reason
/-- CONTROL SLIPPED (R120). -/
def slippedWord (slot gen : Nat) : Word := controlWord slot gen 3 0
/-- CONTROL ABORTED_RESTART (R120). -/
def abortedWord (slot gen : Nat) : Word := controlWord slot gen 4 0

/-- CLASS of a PAYLOAD header (R121). -/
def wClass (w : Word) : Nat := bf w 37 36
/-- Item index of a PAYLOAD header (R121). -/
def wIndex (w : Word) : Nat := bf w 35 0
/-- Word 0 of a PAYLOAD item (R121). -/
def payloadWord (last : Bool) (slot gen cls index : Nat) : Word :=
  pack [(b2n last, 63, 63), (5, 62, 60), (slot, 59, 47), (gen, 46, 38), (cls, 37, 36), (index, 35, 0)]

/-- Fields of a request header (R347). -/
def hOp (w : Word) : Nat := bf w 63 56
def hVersion (w : Word) : Nat := bf w 55 52
def hPart (w : Word) : Nat := bf w 51 46
def hTag (w : Word) : Nat := bf w 43 28
def hLen (w : Word) : Nat := bf w 27 12
/-- The reserved bits of a request header (R347). -/
def hReserved (w : Word) : Nat := bf w 45 44 + bf w 11 0

/-- A reply header (R348). -/
def replyHeader (i : Issuer) (rlen : Nat) (st : Status) : Word :=
  pack [(i.op, 63, 56), (1, 55, 52), (i.part, 51, 46), (i.tag, 43, 28), (rlen, 27, 12), (st.code, 7, 0)]

/-- A whole reply: a status other than OK carries no result words (R348). -/
def replyWords (i : Issuer) (st : Status) (result : List Word) : List Word :=
  let r := if st = .ok then result else []
  replyHeader i r.length st :: r

/-- LANE of a lane-and-slot word (R359). -/
def lLane (w : Word) : Nat := bf w 63 62
/-- SLOT of a lane-and-slot word (R359). -/
def lSlot (w : Word) : Nat := bf w 61 14
/-- The reserved bits of a lane-and-slot word (R359). -/
def lReserved (w : Word) : Nat := bf w 13 0

/-- Token `i` of words that pack three tokens each, 18 bits a token (R359, R311). -/
def packedTok (ws : List Word) (i : Nat) : Nat := bf (wat ws (i / 3)) (18 * (i % 3) + 17) (18 * (i % 3))
/-- The first `n` packed tokens. -/
def unpackToks (ws : List Word) (n : Nat) : List Nat := (List.range n).map (packedTok ws)
/-- Tokens packed three to a word (R359, R311). -/
def packToks : List Nat → List Word
  | a :: b :: c :: rest => pack [(a, 17, 0), (b, 35, 18), (c, 53, 36)] :: packToks rest
  | [a, b] => [pack [(a, 17, 0), (b, 35, 18)]]
  | [a] => [pack [(a, 17, 0)]]
  | [] => []

/-- Fields of a ring message header (R394). -/
def rEnd (w : Word) : Bool := bit w 63
def rType (w : Word) : Nat := bf w 59 54
def rDst (w : Word) : Nat := bf w 53 44
def rSrc (w : Word) : Nat := bf w 43 34
def rBcast (w : Word) : Bool := bit w 33
def rEpoch (w : Word) : Nat := bf w 32 25
def rHops (w : Word) : Nat := bf w 24 15
def rSeq (w : Word) : Nat := bf w 14 9

/-- A ring message header (R394). EPOCH is set when the message leaves its origin. -/
def ringHeader (last : Bool) (typ dst src : Nat) (bcast : Bool) (seq : Nat) : Word :=
  pack [(b2n last, 63, 63), (6, 62, 60), (typ, 59, 54), (dst, 53, 44), (src, 43, 34), (b2n bcast, 33, 33), (seq, 14, 9)]

/-- A header with EPOCH set (R394). -/
def withEpoch (w : Word) (e : Nat) : Word := pack [(bf w 63 33, 63, 33), (e, 32, 25), (bf w 24 0, 24, 0)]
/-- A header with HOPS set (R394). -/
def withHops (w : Word) (h : Nat) : Word := pack [(bf w 63 25, 63, 25), (h, 24, 15), (bf w 14 0, 14, 0)]

/-- Ring message types (R395). -/
def typItem : Nat := 0x01
def typOpen : Nat := 0x02
def typOpenReply : Nat := 0x03
def typStep : Nat := 0x04
def typResolve : Nat := 0x05
def typStreamEnd : Nat := 0x06
def typClose : Nat := 0x07
def typCancel : Nat := 0x08
def typCmd : Nat := 0x09
def typCmdReply : Nat := 0x0A
def typTime : Nat := 0x10
def typBalance : Nat := 0x11
def typPrepare : Nat := 0x18
def typAck : Nat := 0x19
def typGo : Nat := 0x1A
def typAbort : Nat := 0x1B
def typMirror : Nat := 0x20
def typPair : Nat := 0x21
def typRestart : Nat := 0x28

/-- Opcodes of session commands, class 3 on the ring (R395). -/
def sessionOp (op : Nat) : Bool := decide (0x10 ≤ op) && decide (op ≤ 0x18)

/-- Class of a message type; `none` for a type the table does not list (R395). A CMD or CMD_REPLY is class 3 when `sess`. -/
def ringClass (typ : Nat) (sess : Bool) : Option Nat :=
  if typ = 0x01 ∨ typ = 0x02 ∨ typ = 0x03 ∨ typ = 0x04 ∨ typ = 0x05 ∨ typ = 0x06 ∨ typ = 0x07 ∨ typ = 0x08 then some 3
  else if typ = 0x09 ∨ typ = 0x0A then some (if sess then 3 else 4)
  else if typ = 0x10 then some 2
  else if typ = 0x11 ∨ typ = 0x21 then some 4
  else if typ = 0x18 ∨ typ = 0x19 ∨ typ = 0x1A ∨ typ = 0x1B then some 1
  else if typ = 0x20 then some 5
  else if typ = 0x28 then some 0
  else none

/-- Words cut into runs of seven, the payload of one message each (R395). -/
def sevens : Nat → List Word → List (List Word)
  | 0, _ => []
  | n + 1, ws => if ws.length ≤ 7 then [ws] else ws.take 7 :: sevens n (ws.drop 7)

end Sys2Proof.Machine
end

