-- ==== Sys2Proof/Machine/Flags.lean ====
section
/-! DEFINITION. What the gate records of what happens: interrupt vectors (R336), sticky trouble bits and the trouble log
(R459 to R465), the corrected-error counters (R468), and the pins derived from them (R336, R462). -/
namespace Sys2Proof.Machine

/-- A message for a vector falls due: it replaces one that waits for the same vector and goes to the end of the order in
which they fell due (R336). -/
def queueInt (l : List IntMsg) (p v t : Nat) : List IntMsg :=
  l.filter (fun i => !(i.part == p && i.vector == v)) ++ [{ part := p, vector := v, time := t }]

/-- An event of vector `v` of partition `p` now (R336). -/
def State.raise (s : State) (p v : Nat) : State :=
  let q := s.part p
  if q.intPend.testBit v then
    s.setPart p { q with intAgain := q.intAgain ||| 2 ^ v, repTime := q.repTime.set v s.now }
  else
    let s1 := s.setPart p { q with intPend := q.intPend ||| 2 ^ v, evTime := q.evTime.set v s.now }
    if q.intEn.testBit v then { s1 with ints := queueInt s1.ints p v s.now } else s1

/-- An event of vector `v` in every enabled partition (R336, vectors 5 and 7). -/
def State.raiseAll (s : State) (v : Nat) : State :=
  (List.range 64).foldl (fun s p => if s.partOn p then s.raise p v else s) s

/-- Clears the pending bits of `mask` in partition `p`; a vector whose repeat bit is set pends again (R336). -/
def State.clearPend (s : State) (p mask : Nat) : State :=
  (List.range 8).foldl (fun s v =>
    let q := s.part p
    if mask.testBit v && q.intPend.testBit v then
      if q.intAgain.testBit v then
        let s1 := s.setPart p { q with intAgain := q.intAgain - 2 ^ v, evTime := q.evTime.set v (q.repTime.getD v 0) }
        if q.intEn.testBit v then { s1 with ints := queueInt s1.ints p v (q.repTime.getD v 0) } else s1
      else s.setPart p { q with intPend := q.intPend - 2 ^ v }
    else s) s

/-- Writes the enables of partition `p`; enabling a pending vector sends one message (R336). -/
def State.setIntEn (s : State) (p en : Nat) : State :=
  (List.range 8).foldl (fun s v =>
    let q := s.part p
    if en.testBit v && !q.intEn.testBit v then
      let s1 := s.setPart p { q with intEn := q.intEn ||| 2 ^ v }
      if q.intPend.testBit v then { s1 with ints := queueInt s1.ints p v (q.evTime.getD v 0) } else s1
    else if !en.testBit v && q.intEn.testBit v then s.setPart p { q with intEn := q.intEn - 2 ^ v }
    else s) s

/-- INT_n asserted (low): an enabled pending bit of partition 0, or an enabled threshold bit of a lane, outside a reset
(R336, R480, R423). -/
def State.intAsserted (s : State) : Bool :=
  !s.inReset && (decide ((s.part 0).intPend &&& (s.part 0).intEn ≠ 0)
    || (s.fsp.ingress ++ s.fsp.egress).any (fun l => l.fifo.thrPend && l.fifo.thrEn))

/-- ALERT_n asserted (low): an enabled sticky bit, outside a reset (R462, R423). -/
def State.alertAsserted (s : State) : Bool := !s.inReset && decide (s.trb.sticky &&& s.trb.alertEn ≠ 0)

/-- RTP_D<d>_RESET_n asserted (low): under cold reach, and for a device that a start has found absent (R423, R500). -/
def State.rtpResetAsserted (s : State) (d : Nat) : Bool :=
  s.rs.reach == some .cold || (!s.tier.training && !(s.tier.devs.getD d Dev.zero).present)

/-- OBJ_KIND and OBJECT of a trouble entry (R464). -/
structure Obj where
  kind : Nat
  val : Word
  deriving DecidableEq, Repr

/-- No object. -/
def Obj.none : Obj := ⟨0, 0⟩
/-- A system session handle. -/
def Obj.handle (h : Nat) : Obj := ⟨1, pack [(h, 63, 32)]⟩
/-- An SSM handle with a row offset. -/
def Obj.ssm (h o : Nat) : Obj := ⟨2, pack [(h, 63, 54), (o, 53, 30)]⟩
/-- A region with a row address. -/
def Obj.row (r a : Nat) : Obj := ⟨3, pack [(r, 63, 62), (a, 61, 40)]⟩
/-- A tier device with an extent number. -/
def Obj.extent (d e : Nat) : Obj := ⟨4, pack [(d, 63, 59), (e, 58, 33)]⟩
/-- A cluster. -/
def Obj.cluster (c : Nat) : Obj := ⟨5, pack [(c, 63, 61)]⟩
/-- A lane with its direction, 0 ingress. -/
def Obj.lane (l : Nat) (egress : Bool) : Obj := ⟨5, pack [(l, 63, 62), (b2n egress, 61, 61)]⟩
/-- A command. -/
def Obj.command (op tag : Nat) (smp : Bool) : Obj := ⟨6, pack [(op, 63, 56), (tag, 55, 40), (b2n smp, 39, 39)]⟩
/-- A ring message: link, SRC, TYPE. -/
def Obj.ring (link src typ : Nat) : Obj := ⟨6, pack [(link, 63, 62), (src, 61, 52), (typ, 51, 46)]⟩
/-- A register offset in the management window. -/
def Obj.register (off : Nat) : Obj := ⟨7, pack [(off, 63, 48)]⟩

/-- The retained-store word of the log header (R463). -/
def logHeaderAt : Nat := 0x14
/-- NEXT, HELD and OVERWRITTEN of the log header (R463). -/
def State.logNext (s : State) : Nat := bf (s.retained logHeaderAt) 63 56
def State.logHeld (s : State) : Nat := bf (s.retained logHeaderAt) 55 47
def State.logOver (s : State) : Nat := bf (s.retained logHeaderAt) 46 15

/-- The words of the log entry in a slot (R464, R465). -/
def State.logEntry (s : State) (slot : Nat) : List Word := (List.range 4).map (fun i => s.retained (0x400 + 4 * slot + i))

/-- Adds one to REPEAT of the entry in a slot, saturating (R465). -/
def State.logRepeat (s : State) (slot : Nat) : State :=
  let w := s.retained (0x401 + 4 * slot)
  s.putRetained (0x401 + 4 * slot) (pack [(bf w 63 35, 63, 35), (satAdd 16 (bf w 34 19) 1, 34, 19)])

/-- A sticky bit set, with its mirror and the time of the last setting (R460, R463). -/
def State.setSticky (s : State) (b : Sticky) : State :=
  let w := s.trb.sticky ||| word (2 ^ b.idx)
  let s1 := { s with trb := { s.trb with sticky := w } }
  (s1.putRetained 0x10 w).putRetained 0x12 (word s.now)

/-- Word 1 of a trouble entry (R464). -/
def logWord1 (b : Sticky) (action : Nat) (o : Obj) (part : Option Nat) (cause : Nat) : Word :=
  pack [(b.idx, 63, 56), (action, 55, 53), (o.kind, 52, 50), (part.getD 0, 49, 44), (b2n part.isSome, 43, 43), (cause, 42, 35)]

/-- A new entry at slot NEXT (R465). -/
def State.logNew (s : State) (w1 obj detail : Word) : State :=
  let n := s.logNext
  let held := s.logHeld
  let lost := if held < 256 then s.logOver else satAdd 32 s.logOver 1
  let s1 := (((s.putRetained (0x400 + 4 * n) (word s.now)).putRetained (0x401 + 4 * n) w1).putRetained
    (0x402 + 4 * n) obj).putRetained (0x403 + 4 * n) detail
  s1.putRetained logHeaderAt (pack [((n + 1) % 256, 63, 56), (min (held + 1) 256, 55, 47), (lost, 46, 15)])

/-- Whether an event repeats the newest entry: CODE, ACTION, OBJ_KIND, PARTITION and OBJECT equal, in the same solstice
tick (R465). -/
def State.logSame (s : State) (w1 obj : Word) : Bool :=
  let k := (s.logNext + 255) % 256
  let e := s.logEntry k
  decide (s.logHeld ≠ 0) && decide ((wat e 0).toNat >>> 20 = s.tick) && decide (bf (wat e 1) 63 44 = bf w1 63 44)
    && decide (wat e 2 = obj)

/-- An event of the trouble record: its bit, its entry, and vector 6 of the partition the entry names (R460, R462, R465). -/
def State.trouble (s : State) (b : Sticky) (action : Nat) (o : Obj) (part : Option Nat) (detail : Word) : State :=
  let s0 := s.setSticky b
  let w1 := logWord1 b action o part 0
  let s1 := if s0.logSame w1 o.val then s0.logRepeat ((s0.logNext + 255) % 256) else s0.logNew w1 o.val detail
  match part with
  | some p => s1.raise p 6
  | none => s1

/-- The entry of a job fault, or one more on the first entry of the same assertion (R459). -/
def State.faultEntry (s : State) (c : Cause) (o : Obj) (part : Option Nat) (detail : Word) : State :=
  let s0 := (s.setSticky .jobFault).setSticky c.sticky
  let s1 := match s0.trb.jobEntry with
    | some k => s0.logRepeat k
    | none =>
      let k := s0.logNext
      let s2 := s0.logNew (logWord1 c.sticky 4 o part c.code) o.val detail
      { s2 with trb := { s2.trb with jobEntry := some k } }
  match part with
  | some p => s1.raise p 6
  | none => s1

/-- DETAIL of an entry of CODE 0: the restart's ORIGIN and TICK (R464). -/
def restartDetail (origin tick : Nat) : Word := pack [(origin, 63, 54), (tick, 53, 10)]

/-- The bits of the mask cleared, with the mirror and the time of the last clear (R463, R467). -/
def State.clearSticky (s : State) (mask : Word) : State :=
  let w := s.trb.sticky &&& ~~~ mask
  let s1 := { s with trb := { s.trb with sticky := w } }
  (s1.putRetained 0x10 w).putRetained 0x13 (word s.now)

/-- Adds `n` to the 16-bit counter in lane `k` of GT_CE_`r`, saturating (R468). -/
def State.bumpCe (s : State) (r k n : Nat) : State :=
  let w := s.trb.ce.getD r 0#64
  let v := satAdd 16 (lane [w] 16 k) n
  { s with trb := { s.trb with ce := s.trb.ce.set r ((setLane [w] 16 k v).headD 0#64) } }

/-- Corrected words of an SSM region (R291), of a ring link (R400), of the tables, of unit stores (R455). -/
def State.ceSsm (s : State) (r : Nat) : State := s.bumpCe 2 r 1
def State.ceLink (s : State) (l : Nat) : State := s.bumpCe 4 l 1
def State.ceSession (s : State) : State := s.bumpCe 3 3 1
def State.ceLedger (s : State) : State := s.bumpCe 3 2 1
def State.ceRetained (s : State) : State := s.bumpCe 3 1 1
def State.ceCommand (s : State) : State := s.bumpCe 3 0 1
def State.ceRelq (s : State) (r : Nat) : State := s.bumpCe 5 r 1
def State.ceUnit (s : State) : State := s.bumpCe 6 3 1
/-- Uncorrectable words of an SSM region (R293). -/
def State.ueSsm (s : State) (r : Nat) : State := s.bumpCe 7 r 1

/-- A counter of a partition that saturates at 32 bits, changed by `f` (R89, R161, R249). -/
def State.staleDrop (s : State) (p : Nat) : State :=
  s.setPart p { s.part p with staleDrops := satAdd 32 (s.part p).staleDrops 1 }
def State.stateDrop (s : State) (p : Nat) : State :=
  s.setPart p { s.part p with stateDrops := satAdd 32 (s.part p).stateDrops 1 }

/-- A register write ignored because it sets a reserved bit: REG_RESERVED with ACTION 6 and the register's offset (R9,
R460, R464). -/
def State.regReserved (s : State) (off : Nat) (part : Option Nat) : State := s.trouble .regReserved 6 (Obj.register off) part 0

end Sys2Proof.Machine
end

