-- ==== Sys2Proof/Machine/Net.lean ====
section
/-! DEFINITION. Sending on the ring (R388 to R400) and answering commands (R348, R358, R502). -/
namespace Sys2Proof.Machine

/-- The word of a route register (R391). -/
def State.routeWord (s : State) (g : Nat) : Word := sget 0#64 s.net.routes g
/-- The VALID route to a gate: its link and its hops (R391). -/
def State.route (s : State) (g : Nat) : Option (Nat × Nat) :=
  let w := s.routeWord g
  if bit w 63 then some (bf w 62 61, bf w 60 51) else none

/-- The other members of the system as this gate sees them (R391). -/
def State.members (s : State) : List Nat := (s.net.routes.filter (fun r => bit r.2 63)).map (·.1)

/-- The links in use (R389). -/
def State.links (s : State) : List Nat := (List.range 4).filter (fun l => bit s.net.cfg (59 + l))

/-- Queues a message on a link; outside classes 0 and 2 nothing is sent during a reset (R397, R410, R423). -/
def State.queueOn (s : State) (link cls : Nat) (it : Item) : State :=
  if s.inReset && cls != 0 && cls != 2 then s
  else
    let q := s.net.queues.getD link [] ++ [{ cls := cls, since := s.now, item := it }]
    { s with net := { s.net with queues := s.net.queues.set link q } }

/-- The header word and seven payload words of a message, reserved words zero (R394). -/
def ringItem (hdr : Word) (payload : List Word) : Item := itemOf 0#64 (hdr :: payload.take 7)

/-- Sends one message to a gate along the route to it; no message leaves while ENABLE is 0 or without a route (R389, R391). -/
def State.sendTo (s : State) (typ dst cls : Nat) (payload : List Word) : State :=
  if s.ringOn then
    match s.route dst with
    | some (l, _) => s.queueOn l cls (ringItem (ringHeader true typ dst s.gate false 0) payload)
    | none => s
  else s

/-- Broadcasts one message on every link in LINKS (R396). -/
def State.bcast (s : State) (typ cls : Nat) (payload : List Word) : State :=
  if s.ringOn then
    s.links.foldl (fun s l => s.queueOn l cls (ringItem (ringHeader true typ 0 s.gate true 0) payload)) s
  else s

/-- Sends a packet's words to a gate, seven to a message, END on the last (R394, R395). -/
def State.sendWords (s : State) (typ dst cls : Nat) (ws : List Word) : State :=
  if s.ringOn then
    match s.route dst with
    | some (l, _) =>
      let parts := sevens ws.length ws
      parts.zipIdx.foldl (fun s p =>
        s.queueOn l cls (ringItem (ringHeader (p.2 + 1 == parts.length) typ dst s.gate false (p.2 % 64)) p.1)) s
    | none => s
  else s

/-- The reply to a command: a packet on HRP VC 1, words for the next SMP reads, or CMD_REPLY to the gate that forwarded it
(R348, R350, R358, R502). -/
def State.reply (s : State) (i : Issuer) (st : Status) (result : List Word) : State :=
  let ws := replyWords i st result
  match i.src with
  | some g => s.sendWords typCmdReply g (if sessionOp i.op then 3 else 4) ws
  | none => if i.smp then { s with cmi := { s.cmi with smpReply := s.cmi.smpReply ++ ws } } else s.putOut 1 i.part false ws

/-- A reply without result words. -/
def State.answer (s : State) (i : Issuer) (st : Status) : State := s.reply i st []

/-- Forwards a command packet to another gate, its answer awaited for one tick (R358). -/
def State.forward (s : State) (dst : Nat) (ws : List Word) (i : Issuer) (slot : Option Nat) : State :=
  let s1 := s.sendWords typCmd dst (if sessionOp i.op then 3 else 4) ws
  { s1 with cmi := { s1.cmi with fwds := s1.cmi.fwds ++ [{ issuer := i, dst := dst, slot := slot, since := s.now }] } }

/-- The address word of a mirrored word (R407). -/
def mirrorAddr (area index : Nat) : Word := pack [(1, 63, 63), (area, 62, 61), (index, 60, 39)]

/-- A list cut in threes. -/
def threes : List α → List (List α)
  | a :: b :: c :: l => [a, b, c] :: threes l
  | [] => []
  | l => [l]

/-- A MIRROR message to the twin, of at most three writes (R395, R407): it has waited since the first of them was made (R408). -/
def State.mirrorMsg (s : State) (ws : List MirrorWrite) : QMsg :=
  { cls := 5, since := match ws with | w :: _ => w.since | [] => s.now,
    item := ringItem (ringHeader true typMirror s.net.twin s.gate false 0) (ws.flatMap (fun w => [mirrorAddr w.area w.index, w.word])) }

/-- Waiting mirror writes enter the mirror queue while it has room, the oldest first (R408). -/
def State.handMirror (s : State) : State :=
  let ms := (threes s.net.mirrorWait).take (4096 - s.net.mirrorQ.length)
  { s with net := { s.net with mirrorWait := s.net.mirrorWait.drop (3 * ms.length), mirrorQ := s.net.mirrorQ ++ ms.map s.mirrorMsg,
                               mirrorWp := (s.net.mirrorWp + 8 * ms.length) % 2 ^ 16 } }

/-- Words of a paired gate's mirrored areas have changed: their mirror writes are handed to the queue at once, and wait where it has no room
(R91, R407, R408). A word that a copy in progress has yet to carry needs none (R406). -/
def State.mirrorPut (s : State) (ws : List (Nat × Nat × Word)) : State :=
  if s.net.paired then
    let due : List MirrorWrite := (ws.filter (fun w => match s.net.copyNext with | some n => decide (mirrorPlace w.1 w.2.1 < n) | none => true)).map
      (fun w => { area := w.1, index := w.2.1, word := w.2.2, since := s.now })
    ({ s with net := { s.net with mirrorWait := s.net.mirrorWait ++ due } }).handMirror
  else s

/-- The words of an area that differ between two images of it, from an index on. -/
def changedWords (area base : Nat) (old new : List Word) : List (Nat × Nat × Word) :=
  ((old.zip new).zipIdx).filterMap (fun p => if p.1.1 = p.1.2 then none else some (area, base + p.2, p.1.2))

/-- A session entry written, with its mirror writes (R91). -/
def State.setEntry (s : State) (slot : Nat) (e : Entry) : State :=
  let s1 := s.mirrorPut (changedWords 0 (16 * slot) (s.entry slot).words e.words)
  { s1 with entries := sset Entry.zero s1.entries slot e }

/-- A ledger written, with its mirror writes (R323). -/
def State.setLedger (s : State) (t : Nat) (l : Ledger) : State :=
  let s1 := s.mirrorPut (changedWords 1 (8 * t) (s.ledger t).words l.words)
  { s1 with ledgers := sset Ledger.zero s1.ledgers t l }

/-- The twin's mirror holds a word as it stands here (R408): the copy has ended, and no write of it still waits on this gate (log 120). -/
def State.mirrorHas (s : State) (area index : Nat) : Bool :=
  s.net.paired && s.net.synced && !(s.net.mirrorWait.any (fun w => w.area == area && w.index == index))
    && !(s.net.mirrorQ.any (fun m => m.item.w1 == mirrorAddr area index || m.item.w3 == mirrorAddr area index || m.item.w5 == mirrorAddr area index))

/-- The client stream on HRP (R126, R489): words of one session's partition on VC 0. -/
def State.client (s : State) (part : Nat) (ws : List Word) : State := s.putOut 0 part false ws

end Sys2Proof.Machine
end

