-- ==== Sys2Proof/Machine/Tier.lean ====
section
/-! DEFINITION. The retention tier's stores: extents, page lists, the directory, expiry (R298 to R311, R322). -/
namespace Sys2Proof.Machine

/-- END of a page list (R300). -/
def extEnd : Nat := 0x3FFFFFF

/-- Device and extent within it of an extent number (R300). -/
def extDev (e : Nat) : Nat := nf e 25 21
def extIdx (e : Nat) : Nat := nf e 20 0

/-- The pages of a slice of `n` items (R299). -/
def pagesOf (n : Nat) : Nat := (n + 72) / 73
/-- The extents of `p` pages (R299). -/
def extentsOf (p : Nat) : Nat := (p + 15) / 16

/-- A device by number. -/
def State.dev (s : State) (d : Nat) : Dev := s.tier.devs.getD d Dev.zero
def State.setDev (s : State) (d : Nat) (v : Dev) : State := { s with tier := { s.tier with devs := s.tier.devs.set d v } }

/-- The devices trained. -/
def State.trainedDevs (s : State) : List Nat := (List.range 20).filter (fun d => (s.dev d).trained)

/-- Extents of a device: 16,384 to a GiB (R299). -/
def Dev.extents (d : Dev) : Nat := d.gib * 16384
/-- The first extent of a device that a slice may take: the system area of device 0 lies below (R300). -/
def firstExt (d : Nat) : Nat := if d = 0 then 8192 else 0

/-- The first numbers from `lo` to `hi` that a rising list does not hold. -/
def firstFree : Nat → Nat → Nat → List Nat → List Nat
  | 0, _, _, _ => []
  | f + 1, lo, hi, a :: as =>
    if lo < hi then
      if a = lo then firstFree f (lo + 1) hi as else if a < lo then firstFree f lo hi as else lo :: firstFree f (lo + 1) hi (a :: as)
    else []
  | f + 1, lo, hi, [] => if lo < hi then lo :: firstFree f (lo + 1) hi [] else []

/-- The extent numbers that the allocation rule takes first: lowest trained device, lowest free extent (R298). -/
def State.freeExts (s : State) (n : Nat) : List Nat :=
  (s.trainedDevs.flatMap (fun d =>
    let base := d * 2 ^ 21
    firstFree (n + s.tier.alloc.length) (base + firstExt d) (base + (s.dev d).extents) s.tier.alloc |>.take n)).take n

/-- Free extents on a device, FREE_EXT (R298). -/
def State.freeOn (s : State) (d : Nat) : Nat :=
  if (s.dev d).trained then
    (s.dev d).extents - firstExt d - (s.tier.alloc.filter (fun e => extDev e == d)).length
  else 0

/-- A number put into a rising list. -/
def insertNat (n : Nat) (l : List Nat) : List Nat := l.filter (· < n) ++ [n] ++ l.filter (n < ·)

/-- Devices accessed at some extents: awake, and their 1 ms begins again (R298). -/
def State.touch (s : State) (es : List Nat) : State :=
  let t := s.tier
  { s with tier := { t with devs := t.devs.zipIdx.map (fun p =>
      if es.any (fun e => extDev e == p.2) then { p.1 with selfref := false, lastUse := s.now } else p.1) } }

/-- Extents allocated; a device about to be used leaves self-refresh (R298, R302). -/
def State.takeExts (s : State) (es : List Nat) : State :=
  let s1 := s.touch es
  { s1 with tier := { s1.tier with alloc := es.foldl (fun a e => insertNat e a) s1.tier.alloc } }

/-- Free extents together on the awake devices (R298). -/
def State.awakeFree (s : State) : Nat :=
  (s.trainedDevs.filter (fun d => !(s.dev d).selfref)).foldl (fun a d => a + s.freeOn d) 0

/-- While the awake devices hold fewer than 2,048 free extents, the next device in order is awake (R298). -/
def State.keepAwake (s : State) : State :=
  s.trainedDevs.foldl (fun s d =>
    if (s.dev d).selfref && decide (s.awakeFree < 2048) then s.setDev d { s.dev d with selfref := false, lastUse := s.now } else s) s

/-- The page with an index within the extents of a slice. -/
def State.page (s : State) (e p : Nat) : Option Page := (s.tier.pages.find? (fun c => c.1 == 16 * e + p)).map (·.2)

/-- The extents of a page list, by its links (R301). -/
def walk (pages : List (Nat × Page)) : Nat → Nat → List Nat
  | 0, _ => []
  | n + 1, e =>
    e :: (match pages.find? (fun c => c.1 == 16 * e + 15) with
          | some (_, p) => walk pages n p.link
          | none => [])

/-- The extents of a slice by its head and page count. -/
def State.listExts (s : State) (head pages : Nat) : List Nat :=
  if pages = 0 then [] else walk s.tier.pages (extentsOf pages) head

/-- Extents returned to the free map with the pages they hold (R302); the 1 ms of a device begins again (R298). -/
def State.freeExtents (s : State) (es : List Nat) : State :=
  let s1 := s.touch es
  { s1 with tier := { s1.tier with alloc := s1.tier.alloc.filter (fun e => !es.contains e),
                                   pages := s1.tier.pages.filter (fun c => !es.contains (c.1 / 16)) } }

/-- HELD of a tenant changed (R323, R326). -/
def State.addHeld (s : State) (t n : Nat) : State := let l := s.ledger t; s.setLedger t { l with held := l.held + n }
def State.subHeld (s : State) (t n : Nat) : State := let l := s.ledger t; s.setLedger t { l with held := l.held - n }

/-- A page list freed, its pages leaving the tenant's HELD if it has one (R302, R326). -/
def State.freeList (s : State) (tenant : Option Nat) (head pages : Nat) : State :=
  let s1 := s.freeExtents (s.listExts head pages)
  match tenant with
  | some t => s1.subHeld t pages
  | none => s1

/-- The items of a slice, page after page (R299, R301). -/
def State.sliceItems (s : State) (head pages : Nat) : List (List Word) :=
  let es := s.listExts head pages
  (List.range pages).flatMap (fun p => match s.page (es.getD (p / 16) 0) (p % 16) with | some g => g.items | none => [])

/-- Items that a slice holds. -/
def State.sliceCount (s : State) (head pages : Nat) : Nat := (s.sliceItems head pages).length

/-- The pages written for a slice: 73 items each, tags with KIND, OWNER, LINK and SEQ (R299, R300). -/
def State.writePages (s : State) (es : List Nat) (kind owner : Nat) (items : List (List Word)) : State :=
  let n := pagesOf items.length
  let ps := (List.range n).map (fun p =>
    let link := if p + 1 = n then extEnd else if p % 16 = 15 then es.getD (p / 16 + 1) extEnd else 0
    (16 * es.getD (p / 16) 0 + p % 16,
      ({ items := (items.drop (73 * p)).take 73, kind := kind, owner := owner, link := link, seq := p % 128 } : Page)))
  let s1 := s.touch es
  { s1 with tier := { s1.tier with pages := ps.foldl (fun m c => m.filter (fun x => x.1 < c.1) ++ [c] ++ m.filter (fun x => c.1 < x.1)) s1.tier.pages } }

/-- OWNER of a session page (R300). -/
def State.sessionOwner (s : State) (slot : Nat) : Nat := slot * 2 ^ 9 + (s.entry slot).gen

/-- The expiry tick of a copy or entry completed now (R309). -/
def State.expiryTick (s : State) (ttl : Nat) : Nat := ((s.now + ttl * 1000000000 + (2 ^ 20 - 1)) / 2 ^ 20) % 2 ^ 44

/-- Whether any device is trained: else the directory lies in STAGE_HDL (R319). -/
def State.tierOn (s : State) : Bool := !s.trainedDevs.isEmpty

/-- The positions of a hash: eight from l modulo the directory's size (R311, R319). -/
def dirPlaces (size lo : Nat) : List Nat := (List.range 8).map (fun p => (lo % size + p) % size)

/-- STAGE_HDL of the image in force: its base row and its bound (R312). -/
def State.stageHdl (s : State) : Nat × Nat :=
  match s.img.force with
  | some i => let h := Handle.ofWord (sget 0#64 s.hdl (bf (wat i.layout 0) 42 33)); (h.base, h.bound)
  | none => (0, 0)

/-- Whether some operation pins a page list head (R308). -/
def State.pinned (s : State) (head : Nat) : Bool :=
  s.tier.ops.any (fun o => o.slices.any (fun c => c.head == head && c.pages != 0))

/-- Directory entries count as absent from their expiry tick on (R309), those that a spring pins from its end on (R308, R322). -/
def State.dirLive (s : State) (d : DirEnt) : Bool :=
  decide (s.tick < d.expiry) || (d.pages && decide (0 < d.plPages) && s.pinned d.plHead)

/-- A page list freed now, or at the end of the spring that pins it (R308). -/
def State.freeSlice (s : State) (tenant : Option Nat) (head pages : Nat) : State :=
  if s.pinned head then { s with tier := { s.tier with deferred := s.tier.deferred ++ [(tenant, head, pages)] } }
  else s.freeList tenant head pages

/-- The tier commands are refused while a cold or warm start has not ended its tier step (R430, R431). -/
def State.tierStarting (s : State) : Bool := s.tier.training

end Sys2Proof.Machine
end

