-- ==== Sys2Proof/Machine/Fifo.lean ====
section
/-! DEFINITION. The gate FIFOs (R62 to R84): session rings with mark, rewind and release, slot FIFOs with slot tags, release
queues. -/
namespace Sys2Proof.Machine

/-- Words from `b` forward to `a`, for pointers of modulus `n` (R67). -/
def dist (n a b : Nat) : Nat := (a + n - b) % n

/-- Occupancy of a session ring (R67). -/
def RingD.held (r : RingD) : Nat := dist 256 r.wp r.fp
def RingD.unread (r : RingD) : Nat := dist 256 r.wp r.rp
def RingD.readHeld (r : RingD) : Nat := dist 256 r.rp r.fp

/-- The words at pointers `a` up to `b` of the ring that starts at word address `base` (R65). -/
def ringWords (mem : Memory) (base a b : Nat) : List Word :=
  (List.range (dist 256 b a)).map (fun i => mem.word (base + (a + i) % 128))

/-- END-marked words among some (R70). -/
def endMarks (ws : List Word) : Nat := (ws.filter wEnd).length

/-- A producer write to a ring that is not full (R65, R70). -/
def RingD.push (r : RingD) (w : Word) : RingD :=
  let wp := (r.wp + 1) % 256
  if wEnd w then { r with wp := wp, ps := wp, pkts := r.pkts + 1 } else { r with wp := wp }

/-- A write that finds the ring full: WP goes back to PS and OVF is set (R74). -/
def RingD.rollback (r : RingD) : RingD := { r with wp := r.ps, ovf := true }

/-- A read of the word `w` at RP, when a whole packet waits (R71). -/
def RingD.read (r : RingD) (w : Word) : RingD :=
  if r.pkts = 0 then r else { r with rp := (r.rp + 1) % 256, pkts := if wEnd w then r.pkts - 1 else r.pkts }

/-- MARK (R77). -/
def RingD.mark (r : RingD) : RingD := { r with mp := r.rp, mv := true, mrel := false, status := 0 }

/-- REWIND, with the packets from the mark to WP (R78, R70). -/
def RingD.rewind (r : RingD) (marks : Nat) : RingD :=
  if !r.mv then { r with status := 1 } else if r.mrel then { r with status := 2 } else { r with rp := r.mp, pkts := marks, status := 0 }

/-- RELEASE of `n` words (R79). -/
def RingD.release (r : RingD) (n : Nat) : RingD :=
  if r.readHeld < n then { r with status := 3 }
  else { r with fp := (r.fp + n) % 256, status := 0,
                mrel := r.mrel || decide (dist 256 r.mp r.fp < n) }

/-- A REWIND or RELEASE that is refused (R78, R79). -/
def RingD.refused (r : RingD) : Bool := decide (r.status ≠ 0)

/-- The threshold fires between two levels (R75). -/
def RingD.fires (r t : RingD) : Bool := decide (r.held ≤ r.thresh) && decide (r.thresh < t.held)

/-- The reset values a ring takes when its slot is opened (R67). -/
def RingD.opened (thresh : Nat) : RingD := { RingD.zero with thresh := thresh }

/-- RING_HDL of the image in force: its first row (R283). -/
def State.ringBase (s : State) : Nat :=
  match s.img.force with
  | some i => (Handle.ofWord (sget 0#64 s.hdl (bf (wat i.layout 0) 52 43))).base
  | none => 0

/-- Word addresses of a slot's ring pair: the ingress ring first (R62, R284). -/
def State.inRingAt (s : State) (slot : Nat) : Nat := 8 * (s.ringBase + 32 * slot)
def State.outRingAt (s : State) (slot : Nat) : Nat := 8 * (s.ringBase + 32 * slot) + 128

/-- Counts a refused REWIND or RELEASE in the FIFO-refusal counter of the slot's region (R80). -/
def State.fifoRefusal (s : State) (slot : Nat) : State :=
  let r := s.regionOf slot
  { s with fsp := { s.fsp with fref := s.fsp.fref.set r (satAdd 32 (s.fsp.fref.getD r 0) 1) } }

/-- Words discarded by a ring, counted in the session's partition (R74). -/
def State.countOverflow (s : State) (slot n : Nat) : State :=
  let p := (s.entry slot).part
  s.setPart p { s.part p with ringOvf := satAdd 32 (s.part p).ringOvf n }

/-- A threshold crossing schedules the consumer of a slot's ring, the egress ring or the ingress ring (R76). -/
def State.schedule (s : State) (slot : Nat) (out : Bool) (r t : RingD) : State :=
  if r.fires t then
    let x := s.slotAt slot
    s.setSlot slot { x with inDue := x.inDue || !out, outDue := x.outDue || out }
  else s

/-- A word written to a slot's egress ring; a full ring rolls the unfinished packet back and the rest of the packet is
discarded (R74). Answers whether the word is stored. -/
def State.pushOut (s : State) (slot : Nat) (w : Word) : State × Bool :=
  let e := s.entry slot
  let x := s.edgeAt slot
  if x.discardOut then
    ((s.countOverflow slot 1).setEdge slot { x with discardOut := !wEnd w }, false)
  else if e.outRing.held < 128 then
    let s1 := s.putMem (s.outRingAt slot + e.outRing.wp % 128) [w]
    ((s1.setEntry slot { e with outRing := e.outRing.push w }).schedule slot true e.outRing (e.outRing.push w), true)
  else
    let lost := dist 256 e.outRing.wp e.outRing.ps + 1
    let s1 := (s.setEntry slot { e with outRing := e.outRing.rollback }).countOverflow slot lost
    (s1.setEdge slot { x with discardOut := !wEnd w }, false)

/-- A word, a packet of its own, written to a slot's ingress ring; a full ring discards it (R74). -/
def State.pushIn (s : State) (slot : Nat) (w : Word) : State :=
  let e := s.entry slot
  if e.inRing.held < 128 then
    let s1 := s.putMem (s.inRingAt slot + e.inRing.wp % 128) [w]
    (s1.setEntry slot { e with inRing := e.inRing.push w }).schedule slot false e.inRing (e.inRing.push w)
  else (s.setEntry slot { e with inRing := e.inRing.rollback }).countOverflow slot 1

/-- A step's drafts are held behind a MARK on the slot's egress ring (R129, R136). -/
def State.markedOut (s : State) (slot : Nat) : Bool := (s.edgeAt slot).mark || (s.homeAt slot).mark

/-- Every whole packet of a slot's egress ring read, nothing released (R71). -/
def State.readOut (s : State) (slot : Nat) : State :=
  let e := s.entry slot
  let ws := ringWords s.mem (s.outRingAt slot) e.outRing.rp e.outRing.ps
  s.setEntry slot { e with outRing := ws.foldl RingD.read e.outRing }

/-- REWIND, reread and RELEASE of a step's drafts (R134, R136): a refusal is counted under R80. -/
def State.resolveOut (s : State) (slot : Nat) : State :=
  let e := s.entry slot
  let base := s.outRingAt slot
  let r1 := e.outRing.rewind (endMarks (ringWords s.mem base e.outRing.mp e.outRing.wp))
  if r1.refused then (s.setEntry slot { e with outRing := r1 }).fifoRefusal slot
  else
    let r2 := (ringWords s.mem base r1.rp r1.ps).foldl RingD.read r1
    s.setEntry slot { e with outRing := r2.release r2.readHeld }

/-- The consumer of a slot's egress ring has read every whole packet, and released it unless it lies behind a MARK (R71, R79). -/
def State.consumeOut (s : State) (slot : Nat) : State :=
  if (s.entry slot).outRing.pkts = 0 then s
  else
    let s1 := s.readOut slot
    let e := s1.entry slot
    let s2 := if s.markedOut slot then s1 else s1.setEntry slot { e with outRing := e.outRing.release e.outRing.readHeld }
    s2.setSlot slot { s2.slotAt slot with outDue := false }

/-- MARK on a slot's egress ring, the words before it read (R129). -/
def State.markOut (s : State) (slot : Nat) : State :=
  let s1 := s.consumeOut slot
  let e := s1.entry slot
  s1.setEntry slot { e with outRing := e.outRing.mark }

/-- The consumer of a slot's ingress ring has read every whole packet and released it (R71, R79). -/
def State.consumeIn (s : State) (slot : Nat) : State :=
  let e := s.entry slot
  if e.inRing.pkts = 0 then s
  else
    let r := (ringWords s.mem (s.inRingAt slot) e.inRing.rp e.inRing.ps).foldl RingD.read e.inRing
    (s.setEntry slot { e with inRing := r.release r.readHeld }).setSlot slot { s.slotAt slot with inDue := false }

/-- The consumers of the session rings in the cycles between two commands (R69, R76, log 12). -/
def State.consumeRings (s : State) : State :=
  (s.entries.map (·.1)).foldl (fun s n => (s.consumeOut n).consumeIn n) s

/-- A word written to a slot's egress ring, the words before it read (log 12). -/
def State.writeOut (s : State) (slot : Nat) (w : Word) : State × Bool := (s.consumeOut slot).pushOut slot w

/-- Prompt tokens written to a slot's ingress ring as TOKEN words from a position on, each once the word before it has been read
(R90, log 12). -/
def State.writeIn (s : State) (slot pos : Nat) (toks : List Nat) : State :=
  let gen := (s.entry slot).gen
  toks.zipIdx.foldl (fun s t => (s.consumeIn slot).pushIn slot (tokenWord slot gen (pos + t.2) t.1)) s

/-- END-marked words of an item in a slot FIFO: a PAYLOAD item's words 1 to 7 are raw data (R70, R121, log 13). -/
def itemEnds (i : Item) : List Nat :=
  if wKind i.w0 = 5 then (if wEnd i.w0 then [0] else [])
  else (itemWords i).zipIdx.filterMap (fun p => if wEnd p.1 then some p.2 else none)

/-- Words a slot FIFO holds (R67). -/
def SlotFifo.held (f : SlotFifo) : Nat := dist 8192 f.wp f.fp

/-- An item written with its slot tag (R72, R73); a level that passes THRESH sets the threshold bit (R75, R76). -/
def SlotFifo.push (f : SlotFifo) (tag : Nat) (i : Item) : SlotFifo :=
  let ends := itemEnds i
  let h := f.held
  { f with wp := (f.wp + 8) % 8192, ps := match ends.getLast? with | some k => (f.wp + k + 1) % 8192 | none => f.ps,
           pkts := f.pkts + ends.length, items := f.items ++ [(tag, i)],
           thrPend := f.thrPend || (decide (h ≤ f.thresh) && decide (f.thresh < h + 8)) }

/-- The item at RP taken; its space is released with it (R72). -/
def SlotFifo.pop (f : SlotFifo) : SlotFifo :=
  match f.items with
  | [] => f
  | (_, i) :: rest =>
    { f with rp := (f.rp + 8) % 8192, fp := (f.fp + 8) % 8192, pkts := f.pkts - (itemEnds i).length, items := rest }

/-- Items whose slot has started are discarded (R73). -/
def SlotFifo.dropPast : Nat → SlotFifo → Nat → SlotFifo
  | 0, f, _ => f
  | n + 1, f, slot =>
    match f.items with
    | (t, _) :: _ => if t < slot then SlotFifo.dropPast n f.pop slot else f
    | [] => f

/-- The FIFO is full (R74). -/
def SlotFifo.full (f : SlotFifo) : Bool := decide (f.items.length = 512)

/-- Words that a release queue holds: at most 512 (R62, R125). -/
def RelQ.room (q : RelQ) : Nat := 512 - q.words.length

/-- Words written to a release queue that has room for them (R63). -/
def RelQ.push (q : RelQ) (ws : List Word) : RelQ :=
  { q with wp := (q.wp + ws.length) % 1024, words := q.words ++ ws }

/-- CONTROL words that wait move in, oldest first, while there is room (R125). -/
def RelQ.refill (q : RelQ) : RelQ :=
  let n := min q.room q.waiting.length
  { (q.push (q.waiting.take n)) with waiting := q.waiting.drop n }

/-- Up to eight words leave for a slot, oldest first (R125). -/
def RelQ.take (q : RelQ) : RelQ × List Word :=
  let n := min 8 q.words.length
  (RelQ.refill { q with rp := (q.rp + n) % 1024, words := q.words.drop n }, q.words.take n)

/-- A CONTROL word for a lane's release queue: never dropped, it waits when the queue has no room (R125). -/
def State.queueControl (s : State) (l : Nat) (w : Word) : State :=
  let q := s.relqAt l
  if q.waiting.isEmpty && decide (0 < q.room) then s.setRelq l (q.push [w])
  else s.setRelq l { q with waiting := q.waiting ++ [w] }

end Sys2Proof.Machine
end

