-- ==== Sys2Proof/Machine/Prefix.lean ====
section
/-! DEFINITION. Prefix blocks: the block hash, the hash records in STAGE_HDL, the directory (R310 to R315, R319). -/
namespace Sys2Proof.Machine

/-- Rotation left in 128 bits. -/
def rotl128 (x k : Nat) : Nat := (x <<< (k % 128) ||| x >>> (128 - k % 128)) % 2 ^ 128
/-- Rotation left in 64 bits. -/
def rotl64 (x k : Nat) : Nat := (x <<< (k % 64) ||| x >>> (64 - k % 64)) % 2 ^ 64

/-- One of the two finishing rounds (R310). -/
def hashRound (p : Nat × Nat) : Nat × Nat :=
  let h := (p.1 + p.2) % 2 ^ 64
  (h, rotl64 p.2 23 ^^^ h)

/-- The block hash (R310). -/
def blockHash (salt : Word) (parent : Word × Word) (toks : List Nat) : Word × Word :=
  let s0 := ((parent.1 ^^^ salt).toNat <<< 64) ||| parent.2.toNat
  let s := toks.foldl (fun s t => rotl128 s 18 ^^^ t) s0
  let r := hashRound (hashRound (s >>> 64, s % 2 ^ 64))
  (word r.1, word r.2)

/-- The root of a session (R310). -/
def rootOf (adapterEn : Bool) (adapter : Nat) : Word × Word := (0, word (b2n adapterEn * 2 ^ 12 + adapter))
/-- The root of the session in a slot. -/
def State.root (s : State) (slot : Nat) : Word × Word := rootOf (s.entry slot).adapterEn (s.entry slot).adapter

/-- A hash record (R312). -/
structure HashRec where
  chain : Word × Word
  prev : Word × Word
  next : Nat
  matched : Nat
  run : Bool
  broken : Bool
  buf : List Nat
  deriving DecidableEq, Repr

/-- The twenty-four words of a record (R312); FILL is the length of BUF. -/
def HashRec.words (r : HashRec) : List Word :=
  [r.chain.1, r.chain.2, r.prev.1, r.prev.2,
   pack [(r.next, 63, 50), (r.buf.length, 49, 44), (r.matched, 43, 30), (b2n r.run, 29, 29), (b2n r.broken, 28, 28)]]
    ++ ((packToks r.buf ++ List.replicate 18 0#64).take 18) ++ [0]

/-- The record that words hold. -/
def HashRec.ofWords (ws : List Word) : HashRec :=
  let w := wat ws 4
  { chain := (wat ws 0, wat ws 1), prev := (wat ws 2, wat ws 3), next := bf w 63 50, matched := bf w 43 30, run := bit w 29,
    broken := bit w 28, buf := unpackToks (ws.drop 5) (bf w 49 44) }

/-- Word address of a slot's record: rows 3 s to 3 s + 2 of STAGE_HDL (R312). -/
def State.recAt (s : State) (slot : Nat) : Nat := 8 * (s.stageHdl.1 + 3 * slot)
/-- A slot's hash record. -/
def State.hashRec (s : State) (slot : Nat) : HashRec := HashRec.ofWords (s.mem.words (s.recAt slot) 24)
/-- A slot's hash record written. -/
def State.setHashRec (s : State) (slot : Nat) (r : HashRec) : State :=
  s.putMem (s.recAt slot) r.words

/-- The record at SESSION_OPEN (R313). -/
def State.openRec (s : State) (slot : Nat) : State :=
  s.setHashRec slot { chain := s.root slot, prev := (0, 0), next := 0, matched := 0, run := true, broken := false, buf := [] }

/-- The record of an entry that survived a reset (R315). -/
def State.brokenRec (s : State) (slot : Nat) : State :=
  s.setHashRec slot { chain := s.root slot, prev := (0, 0), next := (s.entry slot).length / 64, matched := 0, run := false,
                      broken := true, buf := [] }

/-- BROKEN set: a withheld token left the record ahead of LENGTH (R314). -/
def State.breakRec (s : State) (slot : Nat) : State := s.setHashRec slot { s.hashRec slot with broken := true }

/-- The thirty-two words of a directory entry (R311). -/
def DirEnt.words (d : DirEnt) : List Word :=
  [ pack [(1, 63, 63), (b2n d.tokens, 62, 62), (b2n d.pages, 61, 61), (d.tenant, 60, 47), (d.block, 46, 33),
      (b2n d.adapterEn, 32, 32), (d.adapter, 31, 20)],
    d.hash.1, d.hash.2, d.parent.1, d.parent.2, pack [(d.plHead, 63, 38), (d.plPages, 37, 14)], pack [(d.expiry, 63, 20)]]
    ++ splitWords 18 ((d.tok.zipIdx).foldl (fun a t => a + t.1 <<< (18 * t.2)) 0) ++ List.replicate 7 0#64

/-- The directory entry that words hold, if VALID (R311). -/
def DirEnt.ofWords (ws : List Word) : Option DirEnt :=
  let w := wat ws 0
  if bit w 63 then
    let t := joinWords ((ws.drop 7).take 18)
    some { tokens := bit w 62, pages := bit w 61, tenant := bf w 60 47, block := bf w 46 33, adapterEn := bit w 32,
           adapter := bf w 31 20, hash := (wat ws 1, wat ws 2), parent := (wat ws 3, wat ws 4), plHead := bf (wat ws 5) 63 38,
           plPages := bf (wat ws 5) 37 14, expiry := bf (wat ws 6) 63 20,
           tok := if bit w 62 then (List.range 64).map (fun i => nf t (18 * i + 17) (18 * i)) else [] }
  else none

/-- The entries the directory has room for: 2^20 in the tier, else those that STAGE_HDL holds after the hash records
(R311, R319). -/
def State.dirSize (s : State) : Nat := if s.tierOn then 2 ^ 20 else (s.stageHdl.2 - 24576) / 4

/-- Word address of a directory position in STAGE_HDL (R319). -/
def State.dirAt (s : State) (i : Nat) : Nat := 8 * (s.stageHdl.1 + 24576 + 4 * i)

/-- The entry at a position of the directory. -/
def State.dirGet (s : State) (i : Nat) : Option DirEnt :=
  if s.tierOn then (s.tier.dir.find? (fun c => c.1 == i)).map (·.2) else DirEnt.ofWords (s.mem.words (s.dirAt i) 32)

/-- The entry at a position written, or removed. -/
def State.dirPut (s : State) (i : Nat) (d : Option DirEnt) : State :=
  if s.tierOn then
    let l := s.tier.dir
    let mid := match d with | some v => [(i, v)] | none => []
    { s with tier := { s.tier with dir := l.filter (fun c => c.1 < i) ++ mid ++ l.filter (fun c => i < c.1) } }
  else s.putMem (s.dirAt i) (match d with | some v => v.words | none => List.replicate 32 0#64)

/-- The eight positions of a hash, those of an unexpired entry with it (R309, R311). -/
def State.dirFind (s : State) (ok : DirEnt → Bool) (hash : Word × Word) : Option (Nat × DirEnt) :=
  if s.dirSize = 0 then none
  else (dirPlaces s.dirSize hash.2.toNat).findSome? (fun i =>
    match s.dirGet i with
    | some d => if s.dirLive d && decide (d.hash = hash) && ok d then some (i, d) else none
    | none => none)

/-- A position of a hash that is free or expired (R311). -/
def State.dirRoom (s : State) (hash : Word × Word) : Option Nat :=
  if s.dirSize = 0 then none
  else (dirPlaces s.dirSize hash.2.toNat).find? (fun i => match s.dirGet i with | some d => !s.dirLive d | none => true)

/-- A hit of the home's lookup for the block just filled (R313). -/
def State.dirHit (s : State) (slot : Nat) (r : HashRec) (h : Word × Word) (toks : List Nat) : Bool :=
  let e := s.entry slot
  (s.dirFind (fun d => d.tokens && decide (d.tenant = e.tenant) && decide (d.parent = r.chain) && decide (d.block = r.next)
    && decide (d.adapterEn = e.adapterEn) && decide (d.adapter = e.adapter) && decide (d.tok = toks)) h).isSome

/-- A block processed: its hash, its lookup while RUN is 1, and the record's step (R313). -/
def State.hashBlock (s : State) (slot : Nat) (toks : List Nat) : State :=
  let r := s.hashRec slot
  let h := blockHash (s.ledger (s.entry slot).tenant).salt r.chain toks
  let hit := r.run && s.dirHit slot r h toks
  s.setHashRec slot { r with chain := h, prev := r.chain, next := r.next + 1, run := hit,
                             matched := if hit then r.next + 1 else r.matched }

/-- A directory entry leaves the directory and its pages are freed, or when no spring pins them (R308, R317). -/
def State.dirDrop (s : State) (i : Nat) (d : DirEnt) : State :=
  let s1 := s.dirPut i none
  if d.pages && decide (0 < d.plPages) then s1.freeSlice (some d.tenant) d.plHead d.plPages else s1

/-- Whether a spring pins the pages of a directory entry (R308). -/
def State.dirPinned (s : State) (d : DirEnt) : Bool := d.pages && decide (0 < d.plPages) && s.pinned d.plHead

/-- A directory entry that expired is dropped, or stays until the spring that pins it ends (R308, R309, R322). -/
def State.dirExpire (s : State) (i : Nat) (d : DirEnt) : State := if s.dirPinned d then s else s.dirDrop i d

/-- PREFIX_DROP of a directory entry: at once, or when the spring that pins it ends (R308, R317). -/
def State.dirRetire (s : State) (i : Nat) (d : DirEnt) : State :=
  if s.dirPinned d then { s with tier := { s.tier with dropping := insertNat i s.tier.dropping } } else s.dirDrop i d

/-- A tier operation ended: it leaves the list, its bookings of later ticks are released (R333), and the frees, the expiries and the
drops it held off take effect (R308). -/
def State.endOp (s : State) (o : TierOp) : State :=
  let spent := o.bookings.filterMap (fun b =>
    if b.1 ≤ s.tick then some (b.1, (match o.kind with | .adapterLoad _ => none | _ => some o.tenant), b.2) else none)
  let s1 := { s with tier := { s.tier with ops := s.tier.ops.filter (· != o), deferred := [],
                                           booked := (s.tier.booked ++ spent).filter (fun b => s.tick ≤ b.1) } }
  let s2 := s.tier.deferred.foldl (fun s d => s.freeSlice d.1 d.2.1 d.2.2) s1
  let mine (c : Nat × DirEnt) : Bool := o.slices.any (fun x => x.head == c.2.plHead) && !s2.dirPinned c.2
  let gone := s2.tier.dir.filter (fun c => mine c && (s2.tier.dropping.contains c.1 || decide (c.2.expiry ≤ s2.tick)))
  let s3 := gone.foldl (fun s c => s.dirDrop c.1 c.2) s2
  { s3 with tier := { s3.tier with dropping := s3.tier.dropping.filter (fun i => !gone.any (fun c => c.1 == i)) } }

end Sys2Proof.Machine
end

