-- ==== Sys2Proof/Machine/Session.lean ====
section
/-! DEFINITION. What ends in a session: an entry becoming FREE, a held reply ending, a stream ending (R142), a close
draining (R105), a cancel (R107). -/
namespace Sys2Proof.Machine

/-- A draft's tier or screening work belongs to a slot. -/
def OpKind.slot? : OpKind → Option Nat
  | .winter s _ _ => some s
  | .spring s => some s
  | .publish s _ => some s
  | .adapterLoad _ => none

/-- The pages an operation allocated at its acceptance leave again: extents and, for a tenant, HELD (R302, R326). -/
def State.freeOpPages (s : State) (o : TierOp) : State :=
  let n := if o.extents.isEmpty then 0 else pagesOf o.total
  let s1 := s.freeExtents o.extents
  match o.kind with
  | .winter _ _ _ => s1.subHeld o.tenant n
  | .publish _ _ => s1.subHeld o.tenant n
  | _ => s1

/-- The slots that an operation had fixed, once it has ended early (R42, R47, R48, R107). -/
def State.deadOp (s : State) (o : TierOp) (slips counted : Bool) : State :=
  let h := match o.kind.slot? with | some n => s.handle n | none => 0
  let d : Dead := { first := o.first, stop := o.first + o.total, handle := h, slips := slips, counted := counted }
  match o.kind with
  | .spring _ => s.setOutLane o.lane { s.outLaneAt o.lane with dead := (s.outLaneAt o.lane).dead ++ [d] }
  | _ => s.setInLane o.lane { s.inLaneAt o.lane with dead := (s.inLaneAt o.lane).dead ++ [d] }

/-- The operations of a slot end, their partial pages freed, replies apart; their slots are no longer owed (R48, R107, R321). -/
def State.dropOps (s : State) (slot : Nat) : State :=
  (s.tier.ops.filter (fun o => o.kind.slot? == some slot)).foldl (fun s o => ((s.freeOpPages o).deadOp o false false).endOp o) s

/-- Who issued the command whose reply an entry holds (R92, R357). -/
def Entry.pendIssuer (e : Entry) : Issuer := { op := e.pendOp, part := e.part, tag := e.pendTag, smp := e.pendSmp, src := none }

/-- A command's reply held with a session entry (R357). -/
def State.holdReply (s : State) (slot : Nat) (i : Issuer) : State :=
  match i.src with
  | none => s.setEntry slot { s.entry slot with pendOp := i.op, pendTag := i.tag, pendSmp := i.smp }
  | some _ => s

/-- The reply that an entry holds, sent; a forwarded command no longer waits for its answer (R357, R358). -/
def State.endPendWith (s : State) (slot : Nat) (st : Status) (result : List Word) : State :=
  let e := s.entry slot
  if e.pendOp = 0 then s
  else
    let s1 := s.setEntry slot { e with pendOp := 0, pendTag := 0, pendSmp := false }
    let s2 := { s1 with cmi := { s1.cmi with fwds := s1.cmi.fwds.filter (fun f => !(f.slot == some slot && f.issuer == e.pendIssuer)) } }
    s2.reply e.pendIssuer st result

/-- The reply that an entry holds, sent without result words. -/
def State.endPend (s : State) (slot : Nat) (st : Status) : State := s.endPendWith slot st []

/-- An entry becomes FREE: GEN stays (R87), everything else is cleared, and it no longer counts in SESSIONS (R323). -/
def State.freeEntry (s : State) (slot : Nat) : State :=
  let e := s.entry slot
  let l := s.ledger e.tenant
  let s1 := if e.state = .free then s else s.setLedger e.tenant { l with sessions := l.sessions - 1 }
  let s2 := s1.setEntry slot { Entry.zero with gen := e.gen }
  ((s2.setEdge slot EdgeAux.zero).setHome slot HomeAux.zero).setSlot slot SlotAux.zero

/-- Stream words of a session to its client, behind the SLIPPED words of the ingress lanes whose FIFO has room again (R49). -/
def State.tell (s : State) (slot : Nat) (ws : List Word) : State :=
  let x := s.slotAt slot
  let e := s.entry slot
  let ready := x.slipped.filter (fun l => !(s.inLaneAt l).fifo.full)
  (s.setSlot slot { x with slipped := x.slipped.filter (fun l => !ready.contains l) }).client e.part
    (ready.map (fun _ => slippedWord slot e.gen) ++ ws)

/-- A CONTROL word of a session: on the client stream and in the release queue of OUT_LANE (R120, R125, R126). -/
def State.control (s : State) (slot : Nat) (w : Word) : State :=
  let e := s.entry slot
  (s.tell slot [w]).queueControl e.outLane w

/-- An unfinished packet of drafts is closed: END on the last of them (R129). -/
def State.closeOut (s : State) (slot : Nat) : State :=
  let e := s.entry slot
  let r := e.outRing
  if r.wp = r.ps then s
  else
    let a := s.outRingAt slot + (r.wp + 255) % 256 % 128
    let s1 := s.putMem a [s.mem.word a ||| 0x8000_0000_0000_0000]
    s1.setEntry slot { e with outRing := { r with ps := r.wp, pkts := r.pkts + 1 } }

/-- A DRAFT_RESOLVE waits in a session's work for its turn (R136). -/
def HomeAux.resolving (h : HomeAux) : Bool := h.work.any (fun w => match w.kind with | .resolve _ _ => true | _ => false)

/-- A session's work up to and with its last waiting DRAFT_RESOLVE, and the work behind it. -/
def HomeAux.splitWork (h : HomeAux) : List Work × List Work :=
  let post := h.work.reverse.takeWhile (fun w => match w.kind with | .resolve _ _ => false | _ => true)
  (h.work.take (h.work.length - post.length), post.reverse)

/-- Work that is not the screening of a draft. -/
def Work.notDraft (w : Work) : Bool := match w.kind with | .draft _ _ => false | _ => true

/-- The egress ring of a step that ends: rewound, reread and released (R134, R136). -/
def State.endStepRing (s : State) (slot : Nat) : State := ((s.closeOut slot).readOut slot).resolveOut slot

/-- The home's side of a step whose drafts are gone: working state discarded, checkpoint freed, LIVE; its egress ring released when it
is not the edge (R136, R137). The drafts of a step resolved before keep their screening. -/
def State.homeDropDrafts (s0 : State) (slot : Nat) : State :=
  let s := if (s0.homeAt slot).mark then s0.endStepRing slot else s0
  let e := s.entry slot
  let h := s.homeAt slot
  let w := h.splitWork
  let h1 := { h with work := w.1 ++ w.2.filter Work.notDraft, drafts := [], mark := false }
  if h.resolving then s.setHome slot h1
  else
    (s.setEntry slot { e with ckpt := 0, ckptValid := false, state := if e.state = .speculating then .live else e.state }).setHome slot
      { h1 with step := none }

/-- The step ends at the edge: ring rewound, reread and released, LIVE (R134, R137). -/
def State.closeStep (s : State) (slot : Nat) : State :=
  let x := s.edgeAt slot
  let s1 := s.endStepRing slot
  let e := s1.entry slot
  let s2 := s1.setEntry slot { e with chains := 0, state := if e.state = .speculating then .live else e.state }
  s2.setEdge slot { x with drafts := [], mark := false, step := none, nextDraft := none,
                           dropping := x.dropping || x.nextDraft.isSome, base := e.length }

/-- Drafts counted as rejected (R134, R137, R328). -/
def State.countRejected (s : State) (slot n : Nat) : State :=
  let e := s.entry slot
  s.setEntry slot { e with draftRejected := satAdd 32 e.draftRejected n }

/-- Outstanding drafts rejected at the edge (R137). -/
def State.rejectDrafts (s : State) (slot : Nat) : State :=
  let x := s.edgeAt slot
  if x.mark then (s.closeStep slot).countRejected slot x.drafts.length else s

/-- A closing home entry whose stream has ended becomes FREE, and the close is answered (R105); a tier operation of its own ends, and any other
reply held for it ends with NO_SESSION (log 121). -/
def State.closeDone (s0 : State) (slot : Nat) : State :=
  let s := s0.dropOps slot
  let e := s.entry slot
  let h := s.homeAt slot
  let s1 := s.freeEntry slot
  let s2 := if e.pendOp = 0 then s1 else s1.answer e.pendIssuer (if e.pendOp = 0x12 then .ok else .noSession)
  let s3 := (h.feeds.filter (fun f => f.issuer.src.isSome)).foldl (fun s f => s.answer f.issuer .noSession) s2
  match h.closeFor with
  | some i => s3.answer i .ok
  | none => s3

/-- The turns still to be judged: one whose stream has ended is kept while items of its prompt wait (R153). -/
def HomeAux.tidy (h : HomeAux) : HomeAux :=
  { h with turns := h.turns.filter (fun t => !t.ended || h.work.any (fun w => (w.kind == .prompt || w.kind == .turn) && w.turn == t.no)) }

/-- The home learns that the stream ended with LENGTH and a stop reason; `old` is its LENGTH before (R105, R142, R314). -/
def State.homeStreamEnd (s : State) (slot length : Nat) (r : Stop) (old : Nat) : State :=
  let s0 := if length < old then s.breakRec slot else s
  let s1 := s0.homeDropDrafts slot
  let e := s1.entry slot
  let h := s1.homeAt slot
  let s2 := s1.setEntry slot { e with length := length, outCount := e.outCount - (e.length - length), stop := r }
  let h1 : HomeAux := { h with streamEnded := true, turns := h.turns.map (fun t => { t with ended := true }) }
  let s3 := s2.setHome slot h1.tidy
  if e.state = .closing then s3.closeDone slot else s3

/-- Payload of STREAM_END (R395). -/
def streamEndPayload (h length : Nat) (r : Stop) : List Word := [pack [(h, 63, 32), (length, 31, 12), (r.code, 3, 0)]]

/-- Stop reasons that raise vector 2 (R336). -/
def Stop.unasked (r : Stop) : Bool := r == .deadline || r == .withheld || r == .budget

/-- The stream of the turn ends at the edge with LENGTH and OUT_COUNT (R142): CONTROL STREAM_END, STOP_REASON, drafts rejected,
the home told, the tokens still held withheld. A closing edge entry then becomes FREE (R105). -/
def State.endStreamTo (s : State) (slot : Nat) (r : Stop) (length out : Nat) : State :=
  let s1 := s.rejectDrafts slot
  let e := s1.entry slot
  let s2 := s1.setEntry slot { e with stop := r, length := length, outCount := out }
  let x := s2.edgeAt slot
  let s3 := s2.setEdge slot { x with turnOpen := false, fedLast := false, tIn := none, tInDone := false, ingress := none,
                                     held := [], stopPending := none, lastRelease := if x.held.isEmpty then x.lastRelease else 0 }
  let s4 := s3.control slot (streamEndWord slot e.gen length r)
  let s5 := if r.unasked then s4.raise e.part 2 else s4
  if e.home then s5.homeStreamEnd slot length r e.length
  else
    let s6 := s5.sendTo typStreamEnd e.homeGate 3 (streamEndPayload (s.handle slot) length r)
    if e.state = .closing then s6.freeEntry slot else s6

/-- The stream ends with tokens from position `length` on withheld, OUT_COUNT to match (R142). -/
def State.endStream (s : State) (slot : Nat) (r : Stop) (length : Nat) : State :=
  let e := s.entry slot
  s.endStreamTo slot r length (e.outCount - (e.length - length))

/-- LENGTH when every token still held is withheld (R102). -/
def State.withheldFrom (s : State) (slot : Nat) : Nat :=
  match (s.edgeAt slot).held with
  | [] => (s.entry slot).length
  | t :: _ => t.pos

/-- The edge's side of a close: tokens already committed still release, then the stream ends with the reason. With T_in not
fixed no instant stands and the stream ends at once (log 14); with no stream open the entry drains at once (R105). -/
def State.edgeClose (s : State) (slot : Nat) (r : Stop) : State :=
  let s1 := s.rejectDrafts slot
  let e := s1.entry slot
  let x := s1.edgeAt slot
  if x.turnOpen then
    match x.held.getLast?, x.tIn with
    | some t, some _ => s1.setEdge slot { x with stopPending := some (r, t.release) }
    | _, _ => s1.endStream slot r (s1.withheldFrom slot)
  else if e.home then s1.closeDone slot
  else s1.freeEntry slot

/-- The parked copy of an entry freed (R96, R105, R107). -/
def State.freeCopy (s : State) (slot : Nat) : State :=
  let e := s.entry slot
  let s1 := if e.parked then s.freeSlice (some e.tenant) e.plHead e.plPages else s
  let e1 := s1.entry slot
  s1.setEntry slot { e1 with parked := false, plHead := 0, plPages := 0, expiry := 0 }

/-- A session begins to close on its home, and on its edge when that is the same gate (R104, R105). -/
def State.startClose (s : State) (slot : Nat) (r : Stop) : State :=
  let s1 := (s.homeDropDrafts slot).freeCopy slot
  let s2 := s1.bcast typClose 3 [hdlWord (s.handle slot)]
  let e := s2.entry slot
  let s3 := s2.setEntry slot { e with state := .closing }
  if e.edge then s3.edgeClose slot r
  else if (s3.homeAt slot).streamEnded then s3.closeDone slot
  else s3

/-- Cancel reasons that raise vector 2 (R336). -/
def Cancel.unasked (c : Cancel) : Bool := c == .policy || c == .ttl || c == .ecc || c == .ringLost

/-- A cancel takes effect on this gate's entry (R107). -/
def State.cancelLocal (s : State) (slot : Nat) (c : Cancel) : State :=
  let e := s.entry slot
  if e.state = .free ∨ e.state = .cancelled then s
  else
    let h := s.homeAt slot
    let s1 := (s.endPend slot .noSession).dropOps slot
    let s2 := (h.feeds.filter (fun f => f.issuer.src.isSome)).foldl (fun s f => s.answer f.issuer .noSession) s1
    let s3 := match h.closeFor with | some i => s2.answer i .noSession | none => s2
    let s4 := s3.freeCopy slot
    let s5 := if e.edge then s4.control slot (cancelledWord slot e.gen c.code) else s4
    let e5 := s5.entry slot
    let s6 := s5.setEntry slot { e5 with state := .cancelled, endReason := c.code, ckpt := 0, ckptValid := false, chains := 0 }
    let s7 := ((s6.setEdge slot EdgeAux.zero).setHome slot HomeAux.zero).setSlot slot { s6.slotAt slot with cancelTick := s.tick }
    if c.unasked then s7.raise e.part 2 else s7

/-- Payload of CANCEL (R395). -/
def cancelPayload (h : Nat) (c : Cancel) : List Word := [pack [(h, 63, 32), (c.code, 7, 0)]]

/-- A cancel that begins on this gate: here at once, and on every gate through the home, which broadcasts it (R107). -/
def State.cancelAll (s : State) (slot : Nat) (c : Cancel) : State :=
  let e := s.entry slot
  if e.state = .free ∨ e.state = .cancelled then s
  else
    let s1 := s.cancelLocal slot c
    if e.home then s1.bcast typCancel 3 (cancelPayload (s.handle slot) c)
    else s1.sendTo typCancel e.homeGate 3 (cancelPayload (s.handle slot) c)

/-- An entry of the session: not FREE, generation and home as the handle says (R89). -/
def State.matches (s : State) (h : Nat) : Bool :=
  let e := s.entry (hdlSlot h)
  e.state != .free && e.gen == hdlGen h && e.homeGate == hdlGate h

end Sys2Proof.Machine
end

