-- ==== Sys2Proof/Machine/Reset.lean ====
section
/-! DEFINITION. The internal reset: what an assertion of each reach clears (R112, R294, R321, R345, R412, R426), its overlap
with others (R420), and job faults (R410, R459). -/
namespace Sys2Proof.Machine

/-- Bits of SOURCES, from [52] up (R434). -/
def srcWatchdog : Nat := 0
def srcRegion : Nat := 1
def srcJobFault : Nat := 2
def srcRingRestart : Nat := 3
def srcJobRestart : Nat := 4
def srcGateReset : Nat := 5
def srcSysrst : Nat := 6
def srcPorst : Nat := 7
def srcPowerOn : Nat := 8

/-- The issuer that a packet's header names (R347). -/
def pktIssuer (smp : Bool) (p : Pkt) : Issuer :=
  let h := wat p.words 0
  { op := hOp h, part := hPart h, tag := hTag h, smp := smp, src := none }

/-- The issuers of this gate whose packets wait or whose replies are held (R369). -/
def State.waitingIssuers (s : State) : List Issuer :=
  let rings := s.parts.flatMap (fun p => p.2.ring.map (pktIssuer false))
  let ents := (s.entries.filter (fun e => e.2.pendOp != 0)).map (fun e => e.2.pendIssuer)
  let fw := (s.cmi.fwds.filter (fun f => match f.slot with | some n => (s.entry n).pendIssuer != f.issuer | none => true)).map (·.issuer)
  let ops := (s.tier.ops.filter (fun o => o.kind.slot?.isNone)).map (·.issuer)
  let co := match s.com.coord with | some c => c.replies ++ c.prepare.toList | none => []
  let rest := s.tier.scrub.toList.map (·.issuer) ++ s.rs.regions.map (·.issuer) ++ s.rs.parts.map (·.issuer)
    ++ s.net.pairFor.toList ++ s.net.unpairFor.toList
  (s.cmi.smpRing.map (pktIssuer true) ++ rings ++ ents ++ fw ++ ops ++ co ++ rest).filter (fun i => i.src.isNone)

/-- What SLEEP asks of the gate (R438): SLEEP_EN in force, the ring off, no session served, no command in progress or held, no
tier operation or load, every cluster stopped. -/
def State.quiet (s : State) : Bool :=
  bit s.clk.ctlIn 42 && !s.ringOn && !s.inReset && s.waitingIssuers.isEmpty && s.tier.ops.isEmpty
    && s.entries.all (fun c => c.2.state == .free || c.2.state == .wintered || c.2.state == .cancelled)
    && s.img.load != .loading && s.img.load != .committing && s.clk.clusters.all (fun k => k.power == .stopped)

/-- Time passes (log 2): `n` REFCLK edges, then `q` quarters of a nanosecond. The time for which the conditions of SLEEP have held goes
on or begins (R438). gclk runs at `mhz` through the edges: `mhz` twenty-fifths of a cycle in each (R7, R443). -/
def State.pass (s : State) (n q : Nat) : State :=
  { s with tm := s.tm.advance n q,
           clk := { s.clk with quietSince := if s.quiet then some (s.clk.quietSince.getD s.fine) else none,
                               cycles := s.clk.cycles + n * (if s.clk.sleeping then 0 else s.clk.mhz) } }

/-- The sessions with an open stream on this edge: partition and ABORTED_RESTART word (R411). -/
def State.openStreams (s : State) : List (Nat × Word) :=
  s.entries.filterMap (fun e =>
    if e.2.edge && (s.edgeAt e.1).turnOpen then some (e.2.part, abortedWord e.1 e.2.gen) else none)

/-- The session table through a reset of job or warm reach (R112). -/
def State.resetEntries (s : State) : State :=
  s.entries.foldl (fun s c =>
    let e := c.2
    if e.parked then
      s.setEntry c.1 { e with state := .wintered, ckpt := 0, ckptValid := false, chains := 0, pendOp := 0, pendTag := 0, pendSmp := false }
    else if e.state = .free then s
    else s.freeEntry c.1) s

/-- A lane through a reset: everything but the SLIP counter (R67, R480, R481). -/
def Lane.reset (l : Lane) : Lane := { Lane.zero with slip := l.slip }

/-- A partition through a reset of job reach or wider (R345, R485, R294). -/
def Partn.reset (p : Partn) : Partn :=
  { Partn.cold with enabled := p.enabled, share := p.share, base := p.base, count := p.count, version := p.version }

/-- Sparse partitions mapped, keeping the canonical form. -/
def mapParts (f : Partn → Partn) (l : List (Nat × Partn)) : List (Nat × Partn) :=
  l.foldr (fun c a => if f c.2 = Partn.cold then a else (c.1, f c.2) :: a) []

/-- A tier device through a reset that keeps it (R321). -/
def Dev.toSelfref (d : Dev) : Dev := if d.trained then { d with selfref := true } else d

/-- Tier operations in progress abandoned, their partial pages freed (R321). -/
def State.resetOps (s : State) : State :=
  let s1 := s.tier.ops.foldl (fun s o => (s.freeOpPages o).endOp o) s
  { s1 with tier := { s1.tier with scrub := none, deferred := [], dropping := [], booked := [], devs := s1.tier.devs.map Dev.toSelfref } }

/-- What every reset of job reach or wider clears (R426 with R112, R294, R321, R345, R412). -/
def State.clearJob (s : State) : State :=
  let streams := s.openStreams
  let cmds := s.waitingIssuers
  let s1 := s.resetOps.resetEntries
  { s1 with
    edge := [], home := [], slots := [], hdl := [], ints := [],
    rs := { s1.rs with aborted := s1.rs.aborted ++ streams, abortedCmds := s1.rs.abortedCmds ++ cmds, regions := [], parts := [] },
    parts := mapParts Partn.reset s1.parts,
    cmi := { s1.cmi with nextPart := 0, inVisit := 0, smpRing := [], arrival := 0, smpWords := [], smpBad := false, fwds := [], asm := [] },
    img := { ImageU.zero with gen := s1.img.gen, scrubRow := s1.img.scrubRow, scrubFrom := s1.img.scrubFrom, writeBacks := s1.img.writeBacks },
    com := { s1.com with staged := none, coord := none, refused := none },
    bal := { s1.bal with pinned := false, out := 0, since := 0, reports := [], p := 0, d := 0, factor := 0, capOut := 0, capIn := 0, sCap := 0, due := false },
    net := { s1.net with queues := s1.net.queues.map (·.filter (fun q => q.cls == 0 || q.cls == 2)), heldMsgs := [], passing := [], mirrorWp := 0, mirrorRp := 0, mirrorQ := [], area3Sent := [], mirrorWait := [], copyNext := none, synced := false, pairFor := none, unpairFor := none, peerDone := false, late := 0, dropped := 0 },
    fsp := { s1.fsp with ingress := s1.fsp.ingress.map Lane.reset, egress := s1.fsp.egress.map Lane.reset, relq := List.replicate 4 RelQ.zero, fclkKept := none, fclkFrom := none },
    clk := { s1.clk with clusters := List.replicate 8 Cluster.zero, sleeping := false, quietSince := none, floorAt := none, raise := none, remeasure := none },
    tm := { s1.tm with frac := 0 },
    fspOut := List.replicate 4 none }

/-- What warm and cold reach clear beyond job reach: negotiated versions, held replies, SLIP, GT_REG_STAT (R355, R369, R481,
R482). -/
def State.clearWarm (s : State) : State :=
  { s with
    parts := mapParts (fun p => { p with version := none }) s.parts,
    cmi := { s.cmi with smpVersion := none },
    rs := { s.rs with abortedCmds := [] },
    clk := { s.clk with mhz := 0 },
    fsp := { s.fsp with ingress := s.fsp.ingress.map (fun l => { l with slip := 0 }), egress := s.fsp.egress.map (fun l => { l with slip := 0 }) },
    denied := 0, misformed := 0, blocked := 0 }

/-- The time unit through cold reach (R10, R374, R379, R426): the fields of TM_STAT that are kept and name no reach stay. -/
def TimeU.clearCold (t : TimeU) : TimeU :=
  { TimeU.cold with refclk := t.refclk, holdover := t.holdover, serving := t.serving, master := t.master, lockRun := t.lockRun }

/-- GT_ROUTE_n through cold reach: VALID 0, LINK and HOPS kept (R10, R391). -/
def clearRoutes (l : List (Nat × Word)) : List (Nat × Word) :=
  (l.map (fun r => (r.1, r.2 &&& 0x7FFF_FFFF_FFFF_FFFF))).filter (fun r => r.2 != 0)

/-- A tier device through cold reach: SELFREF is kept until it is trained (R10, R298). -/
def Dev.clearCold (d : Dev) : Dev := { Dev.zero with selfref := d.selfref }

/-- What cold reach clears beyond warm reach: the session table, SSM, the tier, ledgers, partitions, balance, time, the ring's
configuration, pairing, RS_CTL, roles, counters (R426, R10). The messages of R419 still queued leave before the links stop. -/
def State.clearCold (s : State) : State :=
  { s with
    entries := [], ledgers := [], parts := [], mem := [], role := 0, roleShadow := 0,
    tm := s.tm.clearCold,
    rs := { s.rs with ctl := rsCtlCold, aborted := [] },
    trb := { s.trb with alertEn := TroubleU.cold.alertEn, ce := TroubleU.cold.ce },
    bal := BalanceU.zero,
    com := { CommitU.zero with restarts := s.com.restarts },
    img := { s.img with writeBacks := [] },
    net := { NetU.zero with routes := clearRoutes s.net.routes, queues := s.net.queues.map (·.filter (fun q => q.cls == 0)), sent := s.net.sent },
    fsp := FspU.zero,
    tier := { TierU.cold with training := false, devs := s.tier.devs.map Dev.clearCold },
    clk := { ClockU.cold with ageOfs := s.clk.ageOfs, throttle := s.clk.throttle, throttleAt := s.clk.throttleAt } }

/-- The contents cleared for a reach (R426). -/
def State.clearFor (s : State) : Reach → State
  | .job => s.clearJob
  | .warm => s.clearJob.clearWarm
  | .cold => s.clearJob.clearWarm.clearCold

/-- Whether a reach drives RST_OUT_n, by RS_CTL as in force (R422). -/
def State.drivesOut (s : State) : Reach → Bool
  | .cold => true
  | .warm => bit s.rs.ctlIn 62
  | .job => bit s.rs.ctlIn 63

/-- RST_OUT_n falls when a reach that drives it is asserted (R422). -/
def State.dropOut (s : State) (r : Reach) : State :=
  if s.drivesOut r then { s with rs := { s.rs with outHigh := false, outRise := none } } else s

/-- A source asserts a reach for `cycles` REFCLK cycles (R414, R420): the internal reset asserts, or its reach widens, or the
source is added. -/
def State.assertReset (s : State) (r : Reach) (src cycles : Nat) : State :=
  let upto := s.tm.refclk + cycles
  match s.rs.reach with
  | none =>
    let s1 := { s with rs := { s.rs with ctlIn := s.rs.ctl } }
    let regional := if s.rs.regions.isEmpty then 0 else 2 ^ srcRegion
    let s2 := (s1.dropOut r).clearFor r
    { s2 with rs := { s2.rs with reach := some r, until' := upto, clearAt := s2.tm.refclk, sources := 2 ^ src ||| regional, start := none } }
  | some old =>
    let s1 := { s with rs := { s.rs with until' := max s.rs.until' upto, sources := s.rs.sources ||| 2 ^ src } }
    if old.code < r.code then
      let s2 := (s1.dropOut r).clearFor r
      { s2 with rs := { s2.rs with reach := some r, clearAt := s2.tm.refclk } }
    else s1

/-- Payload of RESTART (R395, R410). -/
def restartPayload (origin tick cause : Nat) : List Word := [pack [(origin, 63, 54), (tick, 53, 10), (cause, 7, 0)]]

/-- The entry and the RESTART broadcast of a job fault raised here (R410, R459). -/
def State.announceFault (s : State) (c : Cause) (o : Obj) (part : Option Nat) (detail : Word) : State :=
  let d := if c = .host ∨ c = .localReset then restartDetail s.gate s.tick else detail
  let s1 := (s.faultEntry c o part d).bcast typRestart 0 (restartPayload s.gate s.tick c.code)
  { s1 with com := { s1.com with restarts := s1.com.restarts ++ [(s.gate, s.tick)] } }

/-- JOB_FAULT: the entry, the broadcast, and the job-reach reset (R410, R411, R459). -/
def State.jobFault (s : State) (c : Cause) (o : Obj) (part : Option Nat) (detail : Word) : State :=
  (s.announceFault c o part detail).assertReset .job (if c = .host then srcJobRestart else srcJobFault) 1

/-- A source other than power-on asserts warm reach or wider: RESTART with cause LOCAL_RESET goes out first while the ring
runs (R419). -/
def State.wideReset (s : State) (r : Reach) (src cycles : Nat) : State :=
  let s1 := if s.ringOn then s.announceFault .localReset Obj.none none 0 else s
  s1.assertReset r src cycles

/-- An uncorrectable word 0 of an entry: JOB_FAULT, cause ST_UE; in the restart a paired gate rewrites the word from its twin's mirror, where
that holds it, and any other makes the entry FREE with GEN 0 (R113, R408, log 120). -/
def State.entryLost (s : State) (slot : Nat) : State :=
  let e := s.entry slot
  let s1 :=
    if s.mirrorHas 0 (16 * slot) then s
    else
      let s0 := (s.dropOps slot).freeCopy slot
      (s0.freeEntry slot).setEntry slot Entry.zero
  s1.jobFault .stUe (Obj.handle (s.handle slot)) (if e.state = .free then none else some e.part) 0

/-- An uncorrectable word of an entry: word 0 ends the job, any other the session (R113, R455). -/
def State.entryBad (s : State) (slot word : Nat) : State :=
  if word = 0 then s.entryLost slot
  else
    let e := s.entry slot
    if e.state = .free ∨ e.state = .cancelled then s
    else (s.trouble .stUe 2 (Obj.handle (s.handle slot)) (some e.part) 0).cancelAll slot .ecc

/-- What the check of the entry's words finds (R113, R455). -/
def State.entryCheck (s : State) (slot : Nat) (f : WordFind) : State :=
  match f.find with
  | .clean => s
  | .corrected => s.ceSession
  | .bad => s.entryBad slot f.index

end Sys2Proof.Machine
end

