-- ==== Sys2Proof/Machine/Ssm.lean ====
section
/-! DEFINITION. Shared screening memory: the places of the gate-managed areas (R283, R284), corrected words and their
write-backs (R291), uncorrectable words by the area that holds them (R293). -/
namespace Sys2Proof.Machine

/-- The image of a generation: in force or retiring (R167, R367). -/
def State.imgOf (s : State) (gen : Nat) : Option Img :=
  match s.img.force, s.img.retiring with
  | some f, some r => if f.gen = gen then some f else if r.gen = gen then some r else none
  | some f, none => if f.gen = gen then some f else none
  | none, some r => if r.gen = gen then some r else none
  | none, none => none

/-- Generation of the image in force. -/
def State.imgGen (s : State) : Nat := match s.img.force with | some f => f.gen | none => 0

/-- Handle numbers of a layout header (R283). -/
def Img.ringHdl (i : Img) : Nat := bf (wat i.layout 0) 52 43
def Img.stageHdlNo (i : Img) : Nat := bf (wat i.layout 0) 42 33
def Img.stateHdl (i : Img) (r : Nat) : Nat := bf (wat i.layout 1) (63 - 10 * r) (54 - 10 * r)
def Img.ckptHdl (i : Img) (r : Nat) : Nat := bf (wat i.layout 2) (63 - 10 * r) (54 - 10 * r)
def Img.ckptN (i : Img) (r : Nat) : Nat := bf (wat i.layout 3) (63 - 14 * r) (50 - 14 * r)

/-- The descriptor of a handle in an image's table. -/
def Img.handle (i : Img) (h : Nat) : Handle := Handle.ofWord (sget 0#64 i.hdl h)

/-- What the engines read for items of an image. -/
def State.env (s : State) (i : Img) : Env := { mem := s.mem, hdl := i.hdl, descs := i.descs }

/-- First row of a slot's screening state (R284). -/
def State.stateRow (s : State) (i : Img) (slot : Nat) : Nat :=
  (i.handle (i.stateHdl (s.regionOf slot))).base + 40 * (slot / s.grade.regions)
/-- First row of a checkpoint slot of a region (R284). -/
def Img.ckptRow (i : Img) (r k : Nat) : Nat := (i.handle (i.ckptHdl r)).base + 32 * k

/-- A corrected word of a row: a write-back is queued and counted, unless one is queued for the row (R291). -/
def State.ssmCorrect (s : State) (row : Nat) : State :=
  if s.img.writeBacks.contains row then s
  else (({ s with img := { s.img with writeBacks := s.img.writeBacks ++ [row] } }).ceSsm (row / 2 ^ 19))

/-- What holds a row (R293). -/
inductive Area where
  | slot (n : Nat)
  | ckpt (r k : Nat)
  | shared
  | nothing
  deriving DecidableEq, Repr

/-- Whether a row lies in a handle. -/
def Handle.covers (h : Handle) (row : Nat) : Bool := h.valid && decide (h.base ≤ row) && decide (row < h.base + h.bound)

/-- The area that holds a row, by the layout in force (R284, R293). -/
def State.areaOf (s : State) (row : Nat) : Area :=
  match s.img.force with
  | none => .nothing
  | some i =>
    let ring := i.handle i.ringHdl
    if ring.covers row then .slot ((row - ring.base) / 32)
    else
      let rs := List.range s.grade.regions
      match rs.find? (fun r => (i.handle (i.stateHdl r)).covers row) with
      | some r => .slot ((row - (i.handle (i.stateHdl r)).base) / 40 * s.grade.regions + r)
      | none =>
        match rs.find? (fun r => (i.handle (i.ckptHdl r)).covers row) with
        | some r => .ckpt r ((row - (i.handle (i.ckptHdl r)).base) / 32)
        | none => if s.hdl.any (fun c => (Handle.ofWord c.2).covers row) then .shared else .nothing

/-- The session that holds a checkpoint slot (R130). -/
def State.ckptOwner (s : State) (r k : Nat) : Option Nat :=
  (s.entries.find? (fun c => c.2.ckptValid && c.2.ckpt == k && s.regionOf c.1 == r)).map (·.1)

/-- An uncorrectable word of an SSM row: counted, SSM_UE, and the outcome its area names (R293). -/
def State.ssmUe (s : State) (row : Nat) : State :=
  let r := row / 2 ^ 19
  let s1 := (s.ueSsm r).supersede row
  let zero (s : State) : State := s.zeroMem row 1
  match s1.areaOf row with
  | .slot n =>
    let e := s1.entry n
    if e.state = .free then zero (s1.trouble .ssmUe 0 (Obj.row r row) none 0)
    else zero ((s1.trouble .ssmUe 2 (Obj.row r row) (some e.part) 0).cancelAll n .ecc)
  | .ckpt q k =>
    match s1.ckptOwner q k with
    | some n =>
      let s2 := (s1.trouble .ssmUe 2 (Obj.row r row) (some (s1.entry n).part) 0).cancelAll n .ecc
      match s2.img.force with
      | some i => s2.zeroMem (i.ckptRow q k) 32
      | none => s2
    | none => zero (s1.trouble .ssmUe 0 (Obj.row r row) none 0)
  | .shared => s1.jobFault .ssmUe (Obj.row r row) none 0
  | .nothing => zero (s1.trouble .ssmUe 0 (Obj.row r row) none 0)

/-- An uncorrectable word of an item's unit stores ends its session; of the stores loaded from the image, the job (R455). -/
def State.unitBad (s : State) (slot : Nat) : State :=
  let e := s.entry slot
  (s.trouble .unitUe 2 (Obj.handle (s.handle slot)) (some e.part) 0).cancelAll slot .ecc

/-- What the checks met while an item was fetched or screened (R455). -/
def State.itemCheck (s : State) (slot : Nat) : ItemFind → State
  | .clean => s
  | .ssmCorrected row => s.ssmCorrect row
  | .ssmBad row => s.ssmUe row
  | .unitCorrected => s.ceUnit
  | .unitBad => s.unitBad slot
  | .unitImageBad => s.jobFault .unitUe Obj.none none 0

end Sys2Proof.Machine
end

