-- ==== Sys2Proof/Machine/Tree.lean ====
section
/-! DEFINITION. Tree ensembles (08_tree_engines.md, R204 to R212). -/
namespace Sys2Proof.Machine

/-- e^(-2^k / 256) in units of 2^-128, for k from 0 to 12: the constants from which the gate's fixed link tables
LOGI and EXPT (R208) are computed. -/
def expConsts : List Nat :=
  [338955731696479810470146282672867036735, 337634268532609249517744113622081347951,
   335006777809430963166468914297166288163, 329812979126047300897653247035862915817,
   319665700530617779809390163992561606015, 300298134811882980317033350418940119803,
   265012173823417992016237332255925138361, 206391688497133195273760705512282642280,
   125182886983370532117250726298150828302, 46052210507670172419625860892627118820,
   6232488952727653950957829210887653621, 114152017036184782947077973323212575,
   38293735615330848145349245349513]

/-- e^(-j / 256) in units of 2^-128, for j from 0 to 8,191. -/
def expNeg (j : Nat) : Nat :=
  (expConsts.zipIdx).foldl (fun a ck => if nf j ck.2 ck.2 = 1 then (a * ck.1 + 2 ^ 127) >>> 128 else a) (2 ^ 128)

/-- LOGI[i]: the XF16 value nearest to 1 / (1 + e^(-(i - 4096) / 256)) (R208). -/
def logiEntry (i : Nat) : Nat :=
  if 4096 ≤ i then ratXf16 (2 ^ 24 * 2 ^ 128) (2 ^ 128 + expNeg (i - 4096))
  else ratXf16 (2 ^ 24 * expNeg (4096 - i)) (2 ^ 128 + expNeg (4096 - i))

/-- EXPT[j]: the integer nearest to 32768 e^(-j / 256) (R208). -/
def exptEntry (j : Nat) : Nat := (2 ^ 15 * expNeg j + 2 ^ 127) >>> 128

/-- The index of the logistic table for a sum with LSB 2^-24 (R208). -/
def logiIndex (s : Int) : Nat := (min (max (4096 + roundAway s 16) 0) 8191).toNat

/-- The largest of a list of sums. -/
def maxSum (ss : List Int) : Int := ss.foldl max (ss.headD 0)

/-- The softmax results of R208, as XF16 values. -/
def softmax (ss : List Int) : List Nat :=
  let m := maxSum ss
  let e := ss.map (fun s => exptEntry (min 4096 (roundAway (m - s) 16).toNat))
  let total := e.sum
  e.map (fun x => ratXf16 (((x * 65536 + (total >>> 1)) / total) * 2 ^ 8) 1)

/-- The link (R208): 0 identity, 1 logistic, 2 softmax. -/
def link (kind : Nat) (ss : List Int) : List Nat :=
  if kind = 0 then ss.map sumXf16
  else if kind = 1 then ss.map (fun s => logiEntry (logiIndex s))
  else softmax ss

/-- The ensemble header (R204). -/
structure Ensemble where
  mode : Nat
  linkKind : Nat
  classes : Nat
  groups : Nat
  trees : Nat
  weights : List Nat
  deriving DecidableEq, Repr

/-- The fields of an ensemble's header row (R204). -/
def Ensemble.ofRow (r : List Word) : Ensemble :=
  let w := wat r 0
  { mode := bf w 63 62, linkKind := bf w 61 60, classes := bf w 59 56 + 1, groups := bf w 55 52 + 1,
    trees := bf w 51 36, weights := (List.range 16).map (fun g => lane (r.drop 1) 16 g) }

/-- Base rows: ceil(G K / 32), and one in VOTE mode (R204). -/
def Ensemble.baseRows (e : Ensemble) : Nat := if e.mode = 1 then 1 else cdiv (e.groups * e.classes) 32

/-- A word of the tree directory (R204). -/
structure TreeDir where
  depth : Nat
  cls : Nat
  group : Nat
  offset : Nat
  rows : Nat
  deriving DecidableEq, Repr

/-- The fields of a directory word. -/
def TreeDir.ofWord (w : Word) : TreeDir :=
  { depth := bf w 63 60, cls := bf w 59 56, group := bf w 55 52, offset := bf w 51 28, rows := bf w 27 23 }

/-- Rows that a tree of depth `d` takes (R205). -/
def treeRows (d : Nat) : Nat := cdiv (2 ^ (d - 1) + max 1 (2 ^ d / 4)) 8

/-- Node `n` of a tree's words: feature index and threshold (R205). -/
def treeNode (ws : List Word) (n : Nat) : Nat × Nat :=
  let v := lane ws 32 n
  (nf v 31 22, nf v 15 0)

/-- Leaf `j` of a tree of depth `d` (R205). -/
def treeLeaf (ws : List Word) (d j : Nat) : Nat := lane (ws.drop (2 ^ (d - 1))) 16 j

/-- The walk of R206 from node `i`, `d` levels on: the index of the node reached. -/
def treeWalk (f : List Nat) (ws : List Word) : Nat → Nat → Nat
  | 0, i => i
  | d + 1, i =>
    let nd := treeNode ws i
    treeWalk f ws d (if nd.2 ≤ f.getD nd.1 0 then 2 * i + 2 else 2 * i + 1)

/-- The leaf value that a tree returns for the output vector `f` (R206). -/
def treeEval (f : List Nat) (ws : List Word) (d : Nat) : Nat := treeLeaf ws d (treeWalk f ws d 0 - (2 ^ d - 1))

/-- The index of the largest value, the lowest index on a tie. -/
def argmax (l : List Nat) : Nat :=
  (l.zipIdx).foldl (fun (best : Nat) vi => if vi.1 > l.getD best 0 then vi.2 else best) 0

/-- The class an XF16 integer leaf names (R209). -/
def leafClass (x : Nat) : Nat := (xf16 x).sig <<< (xf16 x).sh >>> 24

/-- The entries a TREE stage writes (R207 to R212), from the base scores, the trees' directory words and leaves. -/
def combine (e : Ensemble) (bases : List Nat) (leaves : List (TreeDir × Nat)) : List Nat :=
  let sums (g : Nat) : List Int := (List.range e.classes).map (fun k =>
    leaves.foldl (fun s tl => if tl.1.cls = k ∧ tl.1.group = g then s + (xf16 tl.2).units else s)
      (xf16 (bases.getD (g * e.classes + k) 0)).units)
  if e.mode = 0 then (link e.linkKind (sums 0)).map (fun r => (codeXf16 r).1)
  else
    let tallies :=
      if e.mode = 1 then
        (List.range e.classes).map (fun k => (leaves.filter (fun tl => leafClass tl.2 = k)).length)
      else
        let votes := (List.range e.groups).map (fun g =>
          (argmax ((link e.linkKind (sums g)).map (fun r => (codeXf16 r).1)), e.weights.getD g 0))
        (List.range e.classes).map (fun k => (votes.foldl (fun n v => if v.1 = k then n + v.2 else n) 0) % 2 ^ 20)
    let c := argmax tallies
    [c, min (tallies.getD c 0) 0xFFFF]

/-- A TREE stage on the output vector `f`: the ensemble lies at row `o` of handle `h` (R204 to R212). -/
def treeStage (env : Env) (h o : Nat) (f : List Nat) : Eval (List Nat) := do
  let e := Ensemble.ofRow (← env.row h o)
  let bases ← (List.range (if e.mode = 1 then 0 else e.groups * e.classes)).mapM (fun i => env.halfAt h (o + 1) i)
  let dir := o + 1 + e.baseRows
  let leaves ← (List.range e.trees).mapM (fun t => do
    let d := TreeDir.ofWord (← env.wordAt h dir t)
    let ws ← env.wordsAt h (o + d.offset) (8 * treeRows d.depth)
    return (d, treeEval f ws d.depth))
  return combine e bases leaves

end Sys2Proof.Machine
end

