-- ==== Sys2Proof/Machine/Policy.lean ====
section
/-! DEFINITION. Screening policies (R147 to R158): descriptors, stages, rules, the evaluation of one item on a copy of the
session's screening state, the decision step, and the delay budget. -/
namespace Sys2Proof.Machine

/-- A policy descriptor (R148). -/
structure Policy where
  dOut : Nat
  dInA : Nat
  dInB : Nat
  chains : Nat
  depth : Nat
  wPathOut : Nat
  issueOut : Nat
  rerunOut : Nat
  qwaitOut : Nat
  wPathIn : Nat
  issueIn : Nat
  rerunIn : Nat
  qwaitIn : Nat
  wTurn : Nat
  outStages : Nat
  inStages : Nat
  outRules : Nat
  inRules : Nat
  tableH : Nat
  tableO : Nat
  deriving DecidableEq, Repr

/-- The fields of a descriptor row (R148). -/
def Policy.ofRow (r : List Word) : Policy :=
  { dOut := bf (wat r 0) 63 47, dInA := bf (wat r 0) 46 30, dInB := bf (wat r 0) 29 18, chains := bf (wat r 0) 17 15,
    depth := bf (wat r 0) 14 11, wPathOut := bf (wat r 1) 63 48, issueOut := bf (wat r 1) 47 36, rerunOut := bf (wat r 1) 35 20,
    qwaitOut := bf (wat r 1) 19 4, wPathIn := bf (wat r 2) 63 48, issueIn := bf (wat r 2) 47 36, rerunIn := bf (wat r 2) 35 20,
    qwaitIn := bf (wat r 2) 19 4, wTurn := bf (wat r 3) 63 40, outStages := bf (wat r 3) 39 36, inStages := bf (wat r 3) 35 32,
    outRules := bf (wat r 3) 31 23, inRules := bf (wat r 3) 22 14, tableH := bf (wat r 4) 63 54, tableO := bf (wat r 4) 53 30 }

/-- Fields of the image header that the gate uses at run time (R362). -/
def Img.id (i : Img) : Nat := bf (wat i.hdr 0) 53 22
def Img.polH (i : Img) : Nat := bf (wat i.hdr 2) 63 54
def Img.polO (i : Img) : Nat := bf (wat i.hdr 2) 53 30
def Img.policies (i : Img) : Nat := bf (wat i.hdr 2) 29 17
def Img.patH (i : Img) : Nat := bf (wat i.hdr 3) 63 54
def Img.patO (i : Img) : Nat := bf (wat i.hdr 3) 53 30
def Img.maskToken (i : Img) : Nat := bf (wat i.hdr 5) 63 46
def Img.vocab (i : Img) : Nat := bf (wat i.hdr 5) 45 27

/-- The row at offset `o` of a handle, bounds apart: for what the load has checked. -/
def Env.rowAt (e : Env) (h o : Nat) : List Word := e.mem.row ((Handle.ofWord (sget 0#64 e.hdl h)).base + o)
/-- Word `i` from row `o` of a handle, bounds apart. -/
def Env.wordOf (e : Env) (h o i : Nat) : Word := e.mem.word (8 * ((Handle.ofWord (sget 0#64 e.hdl h)).base + o) + i)

/-- A policy of an image. -/
def State.policyOf (s : State) (i : Img) (p : Nat) : Policy := Policy.ofRow ((s.env i).rowAt i.polH (i.polO + p))
/-- The pattern header of an image. -/
def State.patHdr (s : State) (i : Img) : PatHdr := PatHdr.ofRow ((s.env i).rowAt i.patH i.patO)

/-- A stage word (R149). -/
structure Stage where
  kind : Nat
  wait : Nat
  base : Nat
  count : Nat
  objH : Nat
  objO : Nat
  deriving DecidableEq, Repr

/-- The fields of a stage word. -/
def Stage.ofWord (w : Word) : Stage :=
  { kind := bf w 63 61, wait := bf w 60 53, base := bf w 52 45, count := bf w 44 37, objH := bf w 36 27, objO := bf w 26 3 }

/-- Stage and rule words of a policy in their order at TABLE_OFFSET (R148). -/
def Policy.table (p : Policy) (e : Env) (i : Nat) : Word := e.wordOf p.tableH p.tableO i
/-- The rows that hold a policy's stage and rule words lie within their handle (R280). -/
def Policy.tableRows (p : Policy) (e : Env) : Eval Unit := do
  let n := p.outStages + p.inStages + p.outRules + p.inRules
  let _ ← (List.range ((n + 7) / 8)).mapM (fun k => e.row p.tableH (p.tableO + k))
  return ()

def Policy.egressStages (p : Policy) (e : Env) : List Stage := (List.range p.outStages).map (fun i => Stage.ofWord (p.table e i))
def Policy.ingressStages (p : Policy) (e : Env) : List Stage :=
  (List.range p.inStages).map (fun i => Stage.ofWord (p.table e (p.outStages + i)))
def Policy.egressRules (p : Policy) (e : Env) : List Word :=
  (List.range p.outRules).map (fun i => p.table e (p.outStages + p.inStages + i))
def Policy.ingressRules (p : Policy) (e : Env) : List Word :=
  (List.range p.inRules).map (fun i => p.table e (p.outStages + p.inStages + p.outRules + i))
/-- Whether the policy has a TURN stage (R150). -/
def Policy.hasTurn (p : Policy) (e : Env) : Bool := (p.ingressStages e).any (fun t => t.kind == 4)

/-- A session's copy of its screening state on its way through an item. -/
structure Eng where
  pf : List Word
  recur : List Word
  out : List Nat
  nan : Bool
  res : Reserve
  deriving DecidableEq, Repr

/-- Entries written from `base` on. -/
def writeEntries (out : List Nat) (base : Nat) (vs : List Nat) : List Nat :=
  vs.zipIdx.foldl (fun o v => o.set (base + v.2) v.1) out

/-- Where a program stage is read from in a region (R254, R271). -/
def progLoc (env : Env) (clusters region : Nat) (st : Stage) : Eval ProgLoc := do
  let h := ProgHdr.ofRow (← env.row st.objH st.objO)
  return { h := st.objH, o := st.objO, useRepl := h.placement clusters == 1 && region != 0,
           replH := h.repl.getD (region - 1) 0, objRows := h.objRows }

/-- One stage over one item (R149, R184, R196, R204, R253). -/
def runStage (env : Env) (ph : PatHdr) (it : ItemCtx) (clusters region : Nat) (g : Eng) (st : Stage) : Eval Eng := do
  if st.kind = 0 then
    let as ← patGroup env st.objH st.objO
    let r ← patStage env ph g.pf as it.token
    return { g with pf := r.1, out := writeEntries g.out st.base r.2 }
  else if st.kind = 1 then
    let r ← featStage env ph it st.objH st.objO st.base { pf := g.pf, out := g.out, nan := g.nan }
    return { g with pf := r.pf, out := r.out, nan := r.nan }
  else if st.kind = 2 then
    let vs ← treeStage env st.objH st.objO g.out
    return { g with out := writeEntries g.out st.base vs }
  else
    let l ← progLoc env clusters region st
    let r ← runProg env l st.base it.token g.recur g.out g.res
    return { g with recur := r.recur, out := r.out, res := r.reserve }

/-- The automata of a policy's PAT stages, both directions (R190). -/
def policyAutomata (env : Env) (p : Policy) : Eval (List Automaton) := do
  let gs ← ((p.egressStages env ++ p.ingressStages env).filter (fun t => t.kind == 0)).mapM (fun t => patGroup env t.objH t.objO)
  return gs.flatten

/-- The initial images of a policy's programs in a recurrent copy whose INIT is 0; INIT set (R266). -/
def initRecur (env : Env) (p : Policy) (clusters region : Nat) (recur : List Word) : Eval (List Word) := do
  let ss := (p.egressStages env ++ p.ingressStages env).filter (fun t => decide (3 ≤ t.kind))
  if bit (wat recur 0) 63 ∨ ss.isEmpty then return recur
  let r ← ss.foldlM (fun c t => do let l ← progLoc env clusters region t; initArea env l c) recur
  return r.set 0 (wat r 0 ||| 0x8000_0000_0000_0000)

/-- A rule's test on the output vector (R154). -/
def ruleHit (out : List Nat) (w : Word) : Bool := testEntry (bf w 55 54) (out.getD (bf w 63 56) 0) (bf w 50 35)

/-- The matching rules: index, ACTION, STOPSEQ (R155). -/
def ruleHits (rules : List Word) (out : List Nat) : List (Nat × Nat × Bool) :=
  rules.zipIdx.filterMap (fun r => if ruleHit out r.1 then some (r.2, bf r.1 53 51, bit r.1 34) else none)

/-- The most severe ACTION of some matches, a stop-set match counting as STOP (R151, R155). -/
def worst (hits : List (Nat × Nat × Bool)) (stop : Bool) : Nat :=
  hits.foldl (fun a h => max a h.2.1) (if stop then 3 else 0)

/-- ACTION and REASON of a verdict (R155). -/
def decideVerdict (hits : List (Nat × Nat × Bool)) (stop : Bool) : Nat × Nat :=
  let a := worst hits stop
  if a = 0 then (0, 0)
  else if a = 3 then (3, if stop || hits.any (fun h => h.2.1 == 3 && h.2.2) then 1 else 9)
  else (a, ((hits.find? (fun h => h.2.1 == a)).map (·.1)).getD 0)

/-- The ingress turn verdict over one more evaluation: ACTION, the least index of a rule with it, and whether a STOP rule had
STOPSEQ (R155). -/
def joinVerdict (t : Nat × Nat × Bool) (hits : List (Nat × Nat × Bool)) : Nat × Nat × Bool :=
  let a := worst hits false
  let seq := t.2.2 || hits.any (fun h => h.2.1 == 3 && h.2.2)
  let first := ((hits.find? (fun h => h.2.1 == a)).map (·.1)).getD 0
  if t.1 < a then (a, first, seq) else if t.1 = a ∧ a ≠ 0 then (a, min t.2.1 first, seq) else (t.1, t.2.1, seq)

/-- FIX_EDGE and FIX_HOME (R157). -/
def fixEdge : Nat := 96
def fixHome : Nat := 160

/-- The longest slot period of a lane in use in any variant (R157). -/
def Contract.pmax (c : Contract) : Nat := (c.periods.take (8 * c.variants)).foldl max 0

/-- The budgets of a policy at a hop count (R157): out, in a, in b. -/
def Policy.budget (p : Policy) (c : Contract) (floor hopNs hops : Nat) : Nat × Nat × Nat :=
  let ns (x : Nat) := cdiv (x * 1000) floor
  let seq := (p.depth + p.chains * p.depth) * p.issueOut
  let wOut := fixEdge + fixHome + p.wPathOut + seq + p.rerunOut + p.qwaitOut
  let wIn := fixEdge + fixHome + p.wPathIn + p.wTurn + p.rerunIn + p.qwaitIn
  let ring := 2 * hops * (hopNs + c.depthRing * c.ringPeriod)
  let thr := cdiv (c.depthThrottle * c.pmax * 1000) c.fclk
  (ns wOut + ring + 2000 + thr, ns wIn + ring + 2000 + thr, ns p.issueIn)

/-- A policy meets its budget at a hop count (R157). -/
def Policy.meets (p : Policy) (c : Contract) (floor hopNs hops : Nat) : Bool :=
  let b := p.budget c floor hopNs hops
  decide (b.1 ≤ p.dOut) && decide (b.2.1 ≤ p.dInA) && decide (b.2.2 ≤ p.dInB)

end Sys2Proof.Machine
end

