-- ==== Sys2Proof/Machine/Screen.lean ====
section
/-! DEFINITION. Screening on the home: the session's work in order (R123, R159), the step and its drafts (R130, R131, R136,
R139), the screening of one item on the session's state (R151, R153, R167, R181, R195, R239, R266), and the verdict sent to
the edge, which holds it (R160). -/
namespace Sys2Proof.Machine

/-- The policy that a session's item of an image is screened by (R147, R167). -/
def State.sessionPolicy (s : State) (slot gen : Nat) : Option (Img × Policy) :=
  (s.imgOf gen).map (fun i => (i, s.policyOf i (s.entry slot).policy))

/-- Sets the first entry of a list that satisfies `p`. -/
def setFirst (p : α → Bool) (f : α → α) : List α → List α
  | [] => []
  | a :: l => if p a then f a :: l else a :: setFirst p f l

/-- A verdict reaches the edge (R160): held until its release instant, or dropped and counted when the edge no longer holds
the item, when it comes at or after the instant, or when one is held already. A draft's verdict follows its step's own step message
(R130), so one that comes before it belongs to a draft of an earlier step. -/
def State.edgeVerdict (s : State) (slot : Nat) (w : Word) : State :=
  let v := verdictOf w
  let e := s.entry slot
  let x := s.edgeAt slot
  let drop := s.stateDrop e.part
  let tokOk (t : HeldTok) : Bool := t.pos == v.pos && t.verdict.isNone && (v.form != 1 || t.chain == some v.chain) && (x.tIn.isNone || decide (s.fine < t.release))
  let depth := v.pos + 1 - e.length
  let draftOk (d : HeldDraft) : Bool := d.chain == v.chain && d.depth == depth && decide (e.length ≤ v.pos) && d.verdict.isNone
  if v.form = 2 then
    if x.turnOpen && x.fedLast && x.turnPos == v.pos && x.ingress.isNone && !x.tInDone
        && (match x.tIn with | some t => decide (s.fine < t) | none => true) then
      s.setEdge slot { x with ingress := some w }
    else drop
  else if v.form = 1 && x.step == some true && x.drafts.any draftOk then
    s.setEdge slot { x with drafts := setFirst draftOk (fun d => { d with verdict := some w }) x.drafts }
  else if x.held.any tokOk then
    s.setEdge slot { x with held := setFirst tokOk (fun t => { t with verdict := some w }) x.held }
  else drop

/-- What a verdict's anomaly bits set besides (R249, R460): NAN_SEEN and DEGRADED, without an entry, and DEGRADED_ITEMS. -/
def State.noteAnomalies (s : State) (slot : Nat) (nan degraded : Bool) : State :=
  let e := s.entry slot
  let s1 := if nan then s.setSticky .nanSeen else s
  if degraded then
    (s1.setSticky .degraded).setPart e.part { s1.part e.part with degradedItems := satAdd 32 (s1.part e.part).degradedItems 1 }
  else s1

/-- A verdict leaves the home: its anomaly bits are noted, and it goes to the edge, on this gate or as an ITEM message (R123, R394). -/
def State.sendVerdict (s : State) (slot : Nat) (v : Verdict) : State :=
  let e := s.entry slot
  let s2 := s.noteAnomalies slot v.nan v.degraded
  if e.edge then s2.edgeVerdict slot v.word
  else s2.sendTo typItem e.edgeGate 3 (v.word :: List.replicate 6 idleWord)

/-- The home's step message reaches the edge (R130). -/
def State.edgeStep (s : State) (slot : Nat) (ckpt : Bool) : State :=
  let e := s.entry slot
  let x := s.edgeAt slot
  if x.mark then
    let s1 := s.setEdge slot { x with step := some ckpt }
    if ckpt && e.state == .live then s1.setEntry slot { e with state := .speculating } else s1
  else s

/-- The checkpoint slots of a region in use (R130). -/
def State.ckptUsed (s : State) (r : Nat) : List Nat :=
  (s.entries.filter (fun c => c.2.ckptValid && s.regionOf c.1 == r)).map (fun c => c.2.ckpt)

/-- The lowest free checkpoint slot of the session's region (R130). -/
def State.ckptFree (s : State) (slot : Nat) : Option Nat :=
  let r := s.regionOf slot
  match s.img.force with
  | some i =>
    let used := s.ckptUsed r
    (List.range (min (i.ckptN r) (used.length + 1))).find? (fun k => !used.contains k)
  | none => none

/-- A LIVE session that takes a checkpoint speculates (R130). -/
def specState (x : Sess) : Sess := if x = .live then .speculating else x

/-- The step of a session's first draft (R130): a checkpoint and SPECULATING, or drafts held unscreened; the edge is told. -/
def State.decideStep (s : State) (slot : Nat) : State :=
  let e := s.entry slot
  let h := s.homeAt slot
  let k := s.ckptFree slot
  let s1 := match k with
    | some n => (s.setEntry slot { e with ckpt := n, ckptValid := true, state := specState e.state }).setHome slot { h with step := some true }
    | none =>
      s.setHome slot { h with step := some false,
                              work := h.work.filter Work.notDraft }
  if e.edge then s1.edgeStep slot k.isSome
  else s1.sendTo typStep e.edgeGate 3 [pack [(s.handle slot, 63, 32), (b2n k.isSome, 0, 0)]]

/-- Work of a kind with everything else at rest. -/
def Work.mk' (k : WorkKind) (tok pos index stamp image : Nat) (poolFull : Bool) (queued turn stops : Nat) : Work :=
  { kind := k, tok := tok, pos := pos, index := index, stamp := stamp, image := image, poolFull := poolFull, queued := queued,
    overDue := false, first := false, turn := turn, stops := stops, cluster := none, split := [], running := false }

/-- The stop set that the last committed token in a session's work follows (R145). -/
def HomeAux.stopsNow (h : HomeAux) : Nat :=
  match h.work.reverse.find? (fun w => match w.kind with | .commit => true | .replay => true | .resolve _ _ => true | _ => false) with
  | some w => w.stops
  | none => h.stopIn

/-- The accumulator of a turn (R155). -/
def HomeAux.turnOf (h : HomeAux) (no : Nat) : Option TurnAcc := h.turns.find? (fun t => t.no == no)

/-- The accumulator of a turn changed. -/
def HomeAux.setTurn (h : HomeAux) (no : Nat) (f : TurnAcc → TurnAcc) : HomeAux :=
  { h with turns := h.turns.map (fun t => if t.no = no then f t else t) }

/-- An item joins a session's work; the first item of a turn carries the turn's resets (R181, R195). -/
def State.pushWork (s : State) (slot : Nat) (w : Work) : State :=
  let h := s.homeAt slot
  s.setHome slot { h with work := h.work ++ [{ w with first := h.fresh }], fresh := false }

/-- A turn's ingress verdict is formed and sent (R119, R153, R155, R156). -/
def State.sendTurn (s : State) (slot no pos : Nat) : State :=
  let e := s.entry slot
  let h := s.homeAt slot
  match h.turnOf no with
  | none => s
  | some t =>
    let reason := if t.action = 3 then (if t.seq then 1 else 9) else if t.action = 0 then 0 else t.reason
    let v : Verdict := { slot := slot, gen := e.gen, pos := pos, form := 2, chain := 0, action := t.action, nan := t.nan,
                         degraded := t.degraded, poolFull := false, reason := reason }
    (s.setHome slot { h with turns := h.turns.filter (fun u => u.no != no) }).sendVerdict slot v

/-- The replay, or the screening after acceptance, of an accepted prefix takes the place of its DRAFT_RESOLVE (R136, R139): without a
checkpoint the i-th token is stamped i × D_out later. -/
def resolveItems (w : Work) (toks : List Nat) (ckpt : Bool) (dOut : Nat) : List Work :=
  toks.zipIdx.map (fun t =>
    { Work.mk' (if ckpt then .replay else .commit) t.1 (w.pos + t.2) (w.index + t.2) (w.stamp + if ckpt then 0 else t.2 * fineOf dOut) w.image
        (!ckpt) w.queued w.turn w.stops with first := w.first && t.2 == 0 })

/-- What needs no engine at the head of a session's work takes effect: a DRAFT_RESOLVE in its turn, a turn that ends without
a TURN stage, the step of a first draft that waits behind no DRAFT_RESOLVE (R123, R130, R136, R153). -/
def State.settleHome : Nat → State → Nat → State
  | 0, s, _ => s
  | n + 1, s, slot =>
    let h := s.homeAt slot
    match h.work with
    | [] => s
    | w :: rest =>
      match w.kind with
      | .resolve toks ckpt =>
        let e := s.entry slot
        let s1 := if ckpt then
            s.setEntry slot { e with ckpt := 0, ckptValid := false, state := if e.state = .speculating then .live else e.state }
          else s
        let d := match s.sessionPolicy slot w.image with | some (_, p) => p.dOut | none => 0
        State.settleHome n (s1.setHome slot { h with work := resolveItems w toks ckpt d ++ rest, step := none }) slot
      | .turn =>
        match s.sessionPolicy slot w.image with
        | some (i, p) =>
          if p.hasTurn (s.env i) then s
          else State.settleHome n ((s.setHome slot { h with work := rest }).sendTurn slot w.turn w.pos) slot
        | none => s
      | _ =>
        let before := h.work.takeWhile (fun w => match w.kind with | .resolve _ _ => false | _ => true)
        if h.step.isNone && before.any (fun w => !w.notDraft) then s.decideStep slot else s

/-- Settling with room for every item. -/
def State.settle (s : State) (slot : Nat) : State := State.settleHome (2 * (s.homeAt slot).work.length + 24) s slot

/-- A token enters the hash record's BUF, and a full block waits for its hash (R313). -/
def State.hashToken (s : State) (slot tok : Nat) : State :=
  let r := s.hashRec slot
  if r.broken then s
  else
    let buf := r.buf ++ [tok]
    if buf.length = 64 then
      let h := s.homeAt slot
      (s.setHashRec slot { r with buf := [] }).setHome slot { h with hashQ := h.hashQ ++ [buf] }
    else s.setHashRec slot { r with buf := buf }

/-- A committed token at the home (R123, R145, R151, R313). -/
def State.homeToken (s : State) (slot pos tok outBefore image stamp : Nat) : State :=
  let h := s.homeAt slot
  ((s.hashToken slot tok).pushWork slot
    (Work.mk' .commit tok pos outBefore stamp image false s.gclks h.turnNo (s.entry slot).stopSet)).settle slot

/-- The place of a chain's items among a step's work: behind what has begun and before the chains of higher number (R131). -/
def insertChain (c : Nat) (ws : List Work) : List Work → List Work
  | [] => ws
  | w :: rest =>
    match w.kind with
    | .draft d k => if c < d ∧ k = 1 ∧ w.cluster = none then ws ++ w :: rest else w :: insertChain c ws rest
    | _ => w :: insertChain c ws rest

/-- The items of a chain whose packet is whole (R71, R129, R131). -/
def State.chainWork (s : State) (slot chain image : Nat) : List Work :=
  let e := s.entry slot
  let h := s.homeAt slot
  (h.drafts.filter (fun d => d.chain == chain)).map (fun d =>
    Work.mk' (.draft chain d.depth) d.tok (e.length + d.depth - 1) (e.outCount + d.depth - 1) d.stamp image false s.gclks h.turnNo h.stopsNow)

/-- A draft at the home (R129 to R131): a chain is screened once its packet is whole, unless the step's drafts are held
unscreened. -/
def State.homeDraft (s : State) (slot chain depth tok image stamp : Nat) (whole : Bool) : State :=
  let h := s.homeAt slot
  let s1 := s.setHome slot { h with drafts := h.drafts ++ [{ chain := chain, depth := depth, tok := tok, stamp := stamp, verdict := none }] }
  if !whole || (h.step == some false && !h.resolving) then s1
  else
    let h1 := s1.homeAt slot
    let w := h1.splitWork
    let ws := match s1.chainWork slot chain image with | [] => [] | x :: t => { x with first := h1.fresh } :: t
    (s1.setHome slot { h1 with work := w.1 ++ insertChain chain ws w.2, fresh := h1.fresh && ws.isEmpty }).settle slot

/-- A DRAFT_RESOLVE at the home: the first `n` drafts of the chain replayed as committed tokens from position `pos` on (R136, R139). A
draft of the accepted prefix that is not yet screened is screened first; of a rejected one nothing stays (R137). -/
def State.homeResolve (s : State) (slot chain n pos outBefore image stamp : Nat) : State :=
  let h := s.homeAt slot
  let toks := (List.range n).filterMap (fun i => (h.drafts.find? (fun d => d.chain == chain && d.depth == i + 1)).map (·.tok))
  let ck := h.step != some false || h.resolving
  let w := h.splitWork
  let keep (x : Work) : Bool := match x.kind with | .draft c d => c == chain && decide (d ≤ n) | _ => true
  let s1 := s.setHome slot { h with drafts := [], work := w.1 ++ w.2.filter keep }
  let s2 := toks.foldl (fun s t => s.hashToken slot t) s1
  (s2.pushWork slot (Work.mk' (.resolve toks ck) 0 pos outBefore stamp image false s.gclks h.turnNo (s.entry slot).stopSet)).settle slot

/-- The first FEED of a turn at the home (R153, R155, R246): its image, an empty union of matches, one rerun reserve. -/
def State.beginTurn (s : State) (slot pos image : Nat) : State :=
  let h := s.homeAt slot
  let left := match s.sessionPolicy slot image with | some (_, p) => p.rerunIn | none => 0
  let t : TurnAcc := { no := h.turnNo + 1, image := image, action := 0, reason := 0, seq := false, nan := false, degraded := false,
                       left := left, refused := false, lastPrompt := 0, promptEnd := pos, ended := false }
  s.setHome slot { h with fresh := true, streamEnded := false, turnNo := t.no, turns := h.turns ++ [t] }

/-- One prompt token of a turn at the home (R153, R313). -/
def State.homePrompt (s : State) (slot : Nat) (t : TurnAcc) (screened : Bool) (pos idx tok stamp : Nat) : State :=
  let s1 := s.hashToken slot tok
  let s2 := s1.setHome slot ((s1.homeAt slot).setTurn t.no (fun u => { u with lastPrompt := tok, promptEnd := pos + 1 }))
  if screened then s2.pushWork slot (Work.mk' .prompt tok pos idx stamp t.image false s.gclks t.no 0) else s2

/-- A FEED at the home (R101 to R103, R119, R153, R181, R195, R246): `pos` is the position of its first token, `idx` the prompt
index. A turn with no prompt token sends its PASS at once (log 132). -/
def State.homeFeed (s : State) (slot : Nat) (first last : Bool) (toks : List Nat) (pos idx image stamp : Nat) : State :=
  let s1 := if first then s.beginTurn slot pos image else s
  let no := (s1.homeAt slot).turnNo
  match (s1.homeAt slot).turnOf no with
  | none => s1
  | some t =>
    match s1.sessionPolicy slot t.image with
    | none => s1
    | some (_, p) =>
      let screened := p.inStages != 0
      let s2 := toks.zipIdx.foldl (fun s k => s.homePrompt slot t screened (pos + k.2) (idx + k.2) k.1 stamp) s1
      if last then
        let total := idx + toks.length
        let u := ((s2.homeAt slot).turnOf no).getD t
        let at' := (if total = 0 then pos else u.promptEnd) - 1
        if !screened ∨ total = 0 then s2.sendTurn slot no at'
        else (s2.pushWork slot (Work.mk' .turn u.lastPrompt at' (total - 1) stamp t.image false s.gclks no 0)).settle slot
      else s2

/-- What the screening of an item leaves: the memory with the session's state, the matches, the anomalies, the reserve. -/
structure Screened where
  mem : Memory
  hits : List (Nat × Nat × Bool)
  stop : Bool
  nan : Bool
  res : Reserve
  deriving DecidableEq, Repr

/-- The committed copy as an item finds it: new under a new image (R167, R190, R195, R239), a new stop set at START (R145, R190), with
the turn's resets (R181, R195), its programs' areas initialised (R266). -/
def committedCopy (env : Env) (p : Policy) (stopAs : List Automaton) (clusters region : Nat)
    (newImage newStops first : Bool) (pf recur : List Word) : Eval (List Word × List Word) := do
  let as ← policyAutomata env p
  let pf0 := if newImage then patOpen (as ++ stopAs) (featImage pf) else pf
  let pf1 := if newStops then patStopSet stopAs pf0 else pf0
  let rc1 := if newImage then List.replicate 256 0#64 else recur
  let pf2 ← if first then do
      let ops ← ((p.egressStages env ++ p.ingressStages env).filter (fun t => t.kind == 1)).mapM (fun t => featOps env t.objH t.objO)
      pure (featTurn ops.flatten (patTurn (as ++ stopAs) pf1))
    else pure pf1
  let rc2 ← initRecur env p clusters region rc1
  return (pf2, rc2)

/-- The stop set that the screening of an item follows (R145): its own, or for a prompt item that of the committed copy. -/
def State.stopsFor (s : State) (slot : Nat) (w : Work) : Nat :=
  if w.kind = .prompt ∨ w.kind = .turn then (s.homeAt slot).stopIn else w.stops

/-- What is left of the reserve that an item draws on (R246). -/
def State.reserveFor (s : State) (slot : Nat) (w : Work) (p : Policy) : Reserve :=
  if w.kind = .prompt ∨ w.kind = .turn then
    match (s.homeAt slot).turnOf w.turn with
    | some t => { left := t.left, refused := t.refused, runs := 0 }
    | none => { left := 0, refused := true, runs := 0 }
  else { left := p.rerunOut, refused := false, runs := 0 }

/-- The screening of one item, a function of the session's state and the image of the item (R151, R153, R250); the final evaluation of a
turn sees the entries of TURN alone (log 133). -/
def State.screen (s : State) (slot : Nat) (w : Work) (i : Img) (p : Policy) : Eval Screened := do
  let e := s.entry slot
  let h := s.homeAt slot
  let env := s.env i
  let ph := s.patHdr i
  let r := s.regionOf slot
  let cl := s.grade.clusters
  let row := s.stateRow i slot
  p.tableRows env
  let stopAs ← stopSetAutomata env ph (s.stopsFor slot w)
  let c ← committedCopy env p stopAs cl r (h.imageSeen != i.gen) (h.stopIn != s.stopsFor slot w) w.first
    (s.mem.words (8 * (row + 32)) 32) (s.mem.words (8 * row) 256)
  let mem1 := (s.mem.putWords (8 * (row + 32)) c.1).putWords (8 * row) c.2
  let ckRow := i.ckptRow r e.ckpt
  let work := match w.kind with
    | .draft _ d => if d = 1 then c else (s.mem.words (8 * (row + 36)) 32, s.mem.words (8 * ckRow) 256)
    | _ => c
  let depth := match w.kind with | .draft _ d => d | _ => 0
  let it : ItemCtx := { token := w.tok, index := w.index, depth := depth, promptLen := e.promptLen, tenant := e.tenant }
  let ingress := w.kind == .prompt || w.kind == .turn
  let stages := if w.kind = .turn then (p.ingressStages env).filter (fun t => t.kind == 4)
    else if w.kind = .prompt then (p.ingressStages env).filter (fun t => t.kind != 4)
    else p.egressStages env
  let g ← stages.foldlM (runStage env ph it cl r) { pf := work.1, recur := work.2, out := List.replicate 256 0, nan := false, res := s.reserveFor slot w p }
  let st ← if ingress then pure (g.pf, false) else stopStage env ph g.pf stopAs w.tok
  let rules := if ingress then p.ingressRules env else p.egressRules env
  let mem2 := match w.kind with
    | .draft _ _ => (mem1.putWords (8 * (row + 36)) st.1).putWords (8 * ckRow) g.recur
    | _ => (mem1.putWords (8 * (row + 32)) st.1).putWords (8 * row) g.recur
  return { mem := mem2, hits := ruleHits rules g.out, stop := st.2, nan := g.nan, res := g.res }

/-- RERUNS of the session's partition (R249). -/
def State.countReruns (s : State) (slot n : Nat) : State :=
  let p := (s.entry slot).part
  s.setPart p { s.part p with reruns := satAdd 32 (s.part p).reruns n }

/-- An evaluation of a turn joins what the turn's evaluations gave before it (R155, R156, R246). -/
def TurnAcc.join (t : TurnAcc) (r : Screened) : TurnAcc :=
  let j := joinVerdict (t.action, t.reason, t.seq) r.hits
  { t with action := j.1, reason := j.2.1, seq := j.2.2, nan := t.nan || r.nan, degraded := t.degraded || r.res.refused,
           left := r.res.left, refused := r.res.refused }

/-- The decision step of an item and what follows it (R136, R153, R155, R156, R165). A verdict of BLOCK cancels the session where it is
formed, its anomaly bits noted. -/
def State.concludeItem (s : State) (slot : Nat) (w : Work) (r : Screened) : State :=
  let e := s.entry slot
  let v := decideVerdict r.hits r.stop
  let verdict (form chain : Nat) : Verdict :=
    { slot := slot, gen := e.gen, pos := w.pos, form := form, chain := chain, action := v.1, nan := r.nan,
      degraded := r.res.refused, poolFull := w.poolFull, reason := v.2 }
  let blocked (nan degraded : Bool) : State := (s.noteAnomalies slot nan degraded).cancelAll slot .policy
  let turned : State := s.setHome slot ((s.homeAt slot).setTurn w.turn (fun t => t.join r))
  let turnBlocked : State :=
    match (turned.homeAt slot).turnOf w.turn with | some t => blocked t.nan t.degraded | none => blocked r.nan r.res.refused
  match w.kind with
  | .replay => s
  | .resolve _ _ => s
  | .commit => if v.1 = 4 then blocked r.nan r.res.refused else s.sendVerdict slot (verdict 0 0)
  | .draft c _ => s.sendVerdict slot (verdict 1 c)
  | .prompt => if v.1 = 4 then turnBlocked else turned
  | .turn => if v.1 = 4 then turnBlocked else turned.sendTurn slot w.turn w.pos

/-- The memory that the screening of an item leaves; write-backs that wait for the rows it wrote are dropped (R291). -/
def State.putScreened (s : State) (slot : Nat) (i : Img) (m : Memory) : State :=
  ({ s with mem := m }.dropBacks (s.stateRow i slot) 40).dropBacks (i.ckptRow (s.regionOf slot) (s.entry slot).ckpt) (if (s.entry slot).ckptValid then 32 else 0)

/-- The item at the head of a session's work is screened whole and leaves the work; an access outside its handle ends the job
(R280), a pattern state out of range the session (R189). -/
def State.finishItem (s : State) (slot : Nat) : State :=
  let h := s.homeAt slot
  match h.work with
  | [] => s
  | w :: rest =>
    match s.sessionPolicy slot w.image with
    | none => s.setHome slot (HomeAux.tidy { h with work := rest })
    | some (i, p) =>
      match s.screen slot w i p with
      | .error (.bound hd o) => s.jobFault .handleBound (Obj.ssm hd o) none 0
      | .error (.patRange sl st) =>
        (s.trouble .patRange 2 (Obj.handle (s.handle slot)) (some (s.entry slot).part)
          (pack [(sl, 63, 59), (st, 58, 37)])).cancelAll slot .ecc
      | .ok r =>
        let s1 := ((s.putScreened slot i r.mem).setHome slot { h with work := rest, imageSeen := i.gen, stopIn := s.stopsFor slot w }).countReruns slot r.res.runs
        let s2 := s1.concludeItem slot w r
        (s2.setHome slot (s2.homeAt slot).tidy).settle slot

end Sys2Proof.Machine
end

