-- ==== Sys2Proof/Machine/Stream.lean ====
section
/-! DEFINITION. Token streams on the edge (R115 to R146, R160 to R168): intake of TOKEN and DRAFT words, commits, the resolving
of a step's drafts, release, the turn's ingress verdict at T_in. -/
namespace Sys2Proof.Machine

/-- HRP runs: no reset asserted, the start past its step 3 (R350, R430 to R432). -/
def State.hrpUp (s : State) : Bool :=
  !s.inReset && (match s.rs.start with | none => true | some r => !r.held && decide (r.at' + 2500 ≤ s.tm.refclk))
/-- HRP takes words: it runs, and the gate is not in SLEEP (R438). -/
def State.hrpOn (s : State) : Bool := s.hrpUp && !s.clk.sleeping

/-- The partition that owns a tenant (R334). -/
def State.ownerOf (s : State) (t : Nat) : Option Nat :=
  (List.range 64).find? (fun p => s.partOn p && decide ((s.part p).base ≤ t) && decide (t < (s.part p).base + (s.part p).count))

/-- Vector 1 of the partition that owns a tenant (R336). -/
def State.levelSpent (s : State) (t : Nat) : State :=
  match s.ownerOf t with
  | some p => s.raise p 1
  | none => s

/-- One token charged to the session's output bucket (R122, R326). -/
def State.chargeOut (s : State) (slot : Nat) : State :=
  let t := (s.entry slot).tenant
  let l := s.ledger t
  let s1 := s.setLedger t { l with outLevel := l.outLevel - 1 }
  if l.outLevel = 1 then s1.levelSpent t else s1

/-- The longest LENGTH (R140). -/
def maxLength : Nat := 1048575

/-- The stop that a commit meets by itself, the lowest reason first (R140, R141). -/
def Entry.commitStop (e : Entry) (tok : Nat) : Stop :=
  if e.endEn && tok == e.endToken then .endToken
  else if e.maxOut ≠ 0 ∧ e.outCount + 1 = e.maxOut then .maxOut
  else if e.length + 1 = maxLength then .maxLength
  else .none

/-- The release instant of a token stamped at `stamp` (R60, R162, R163). -/
def State.releaseOf (s : State) (slot stamp : Nat) : Nat :=
  let x := s.edgeAt slot
  max (max (stamp + fineOf (s.entry slot).dOut) x.lastRelease) (x.tIn.getD 0)

/-- A token committed at LENGTH, with the chain and the verdict of the draft it was, if any (R122, R134): held for its release, counted, charged, metered (R340). -/
def State.commitTok (s : State) (slot tok stamp : Nat) (chain : Option Nat) (v : Option Word) : State :=
  let e := s.entry slot
  let x := s.edgeAt slot
  let rel := s.releaseOf slot stamp
  let t : HeldTok := { pos := e.length, tok := tok, stamp := stamp, release := rel, image := s.imgGen, stop := e.commitStop tok, chain := chain, verdict := v }
  let s1 := s.setEntry slot { e with length := e.length + 1, outCount := e.outCount + 1, outTotal := satAdd 32 e.outTotal 1 }
  let s2 := (s1.setEdge slot { x with held := x.held ++ [t], lastRelease := rel }).chargeOut slot
  { s2 with bal := { s2.bal with d := s2.bal.d + 1 } }

/-- A commit met with OUT_LEVEL zero (R328): counted, and the stream ends after the last token already committed, or now. -/
def State.budgetStop (s : State) (slot : Nat) : State :=
  let e := s.entry slot
  let l := s.ledger e.tenant
  let s1 := s.setLedger e.tenant { l with outRefused := satAdd 32 l.outRefused 1 }
  let x := s1.edgeAt slot
  match x.held.getLast? with
  | some t => s1.setEdge slot { x with stopPending := some (.budget, t.release) }
  | none => s1.endStream slot .budget e.length

/-- Whether a held draft verdict has the given ACTION. -/
def HeldDraft.acts (d : HeldDraft) (a : Nat) : Bool := match d.verdict with | some w => (verdictOf w).action == a | none => false

/-- The accepted prefix as truncated (R134): up to and with the first draft that ends the stream. -/
def truncatePrefix (e : Entry) : List HeldDraft → Nat → List HeldDraft
  | [], _ => []
  | d :: ds, i =>
    let at' := { e with outCount := e.outCount + i, length := e.length + i }
    if d.acts 3 || at'.commitStop d.tok != .none then [d] else d :: truncatePrefix e ds (i + 1)

/-- The accepted drafts in depth order (R134): depths 1 to n of chain c. -/
def EdgeAux.accepted (x : EdgeAux) (c n : Nat) : List HeldDraft :=
  (List.range n).filterMap (fun i => x.drafts.find? (fun d => d.chain == c && d.depth == i + 1))

/-- How many drafts of the chain are stored. -/
def EdgeAux.stored (x : EdgeAux) (c : Nat) : Nat := (x.drafts.filter (fun d => d.chain == c)).length

/-- Commits the drafts of a prefix, each with its stamp, until the output level is spent (R134, R139, R328). Answers how many. -/
def State.commitDrafts (s : State) (slot : Nat) (spread : Nat) : List HeldDraft → Nat → Nat → State × Nat
  | [], _, n => (s, n)
  | d :: ds, stamp, n =>
    if (s.ledger (s.entry slot).tenant).outLevel = 0 then (s.budgetStop slot, n)
    else State.commitDrafts (s.commitTok slot d.tok stamp (some d.chain) d.verdict) slot spread ds (stamp + spread) (n + 1)

/-- The RESOLVE message (R395). -/
def resolvePayload (h chain n : Nat) : List Word := [pack [(h, 63, 32), (chain, 31, 30), (n, 29, 26)]]

/-- The resolve reaches the home: on this gate, or as RESOLVE (R134). -/
def State.tellResolve (s : State) (slot chain n pos outBefore stamp : Nat) : State :=
  let e := s.entry slot
  if e.home then s.homeResolve slot chain n pos outBefore s.imgGen stamp
  else s.sendTo typResolve e.homeGate 3 (resolvePayload (s.handle slot) chain n)

/-- The drafts of a chain whose packet is whole go on to the home (R123, R129), END on the last. -/
def State.forwardChain (s : State) (slot c : Nat) : State :=
  let ds := (s.edgeAt slot).drafts.filter (fun d => d.chain == c)
  let e := s.entry slot
  ds.foldl (fun s d =>
    let last := d.depth == ds.length
    if e.home then s.homeDraft slot c d.depth d.tok s.imgGen d.stamp last
    else s.sendTo typItem e.homeGate 3 (draftWord last slot e.gen c d.depth d.tok :: List.replicate 6 idleWord)) s

/-- An unfinished packet of drafts is closed, and what it holds goes on to the home (R129). -/
def State.finishPacket (s : State) (slot : Nat) : State :=
  match (s.edgeAt slot).nextDraft with
  | some (c, _) => (s.closeOut slot).forwardChain slot c
  | none => s

/-- An accepted DRAFT_RESOLVE of `n` drafts of chain `c` at the edge, stamped with its arrival (R134, R135, R139). Answers how many tokens it committed;
none when a BLOCK cancelled the session. -/
def State.resolveStep (s0 : State) (slot c n stamp : Nat) : State × Option Nat :=
  let s := if n = 0 then s0 else s0.finishPacket slot
  let x := s.edgeAt slot
  let e := s.entry slot
  let keep := truncatePrefix e (x.accepted c n) 0
  if keep.any (fun d => d.acts 4) then
    ((((s.closeStep slot).countRejected slot x.drafts.length)).cancelAll slot .policy, none)
  else
    let spread := if x.step = some false then fineOf e.dOut else 0
    let r := (s.closeStep slot).commitDrafts slot spread keep stamp 0
    let s2 := r.1.countRejected slot (x.drafts.length - r.2)
    let s3 := s2.setEdge slot { s2.edgeAt slot with base := (s2.entry slot).length }
    (s3.tellResolve slot c r.2 e.length e.outCount stamp, some r.2)

/-- A word taken from HRP with an uncorrectable code (R491). -/
def State.hrpBad (s : State) (p : Nat) : State := s.trouble .cmdUe 1 Obj.none (some p) 0

/-- The session check of a stream word at HRP intake (R88, R89, R98, R116, R122, R143): the state after the drop, or none when
the word may be processed. A stream that a budget refusal ends takes no more words (R328, log 131). -/
def State.hrpCheck (s : State) (p : Nat) (w : Word) : Option State :=
  let e := s.entry (wSlot w)
  let x := s.edgeAt (wSlot w)
  if !s.hasEdge then some (s.stateDrop p)
  else if e.state = .free ∨ e.gen ≠ wGen w then some (s.staleDrop p)
  else if e.part ≠ p then some (s.stateDrop p)
  else if e.edge && x.turnOpen && x.stopPending.isNone && (e.state == .live || e.state == .speculating) then none
  else some (s.stateDrop p)

/-- VOCAB and MASK_TOKEN of the image in force (R362). -/
def State.vocab (s : State) : Nat := match s.img.force with | some i => i.vocab | none => 0

/-- A TOKEN that the session check let through (R122, R138, R328). -/
def State.acceptToken (s : State) (w : Word) : State :=
  let slot := wSlot w
  let e := s.entry slot
  if wPos w ≠ e.length ∨ maxLength ≤ e.length then s.stateDrop e.part
  else
    let s1 := if (s.edgeAt slot).mark then (s.resolveStep slot 0 0 s.fine).1 else s
    let e1 := s1.entry slot
    if s1.vocab ≤ wTok w then s1.stateDrop e1.part
    else if (s1.ledger e1.tenant).outLevel = 0 then (s1.countRejected slot 1).budgetStop slot
    else
      let s2 := (s1.writeOut slot (w ||| 0x8000_0000_0000_0000)).1.commitTok slot (wTok w) s.fine none none
      if e1.home then s2.homeToken slot e1.length (wTok w) e1.outCount s.imgGen s.fine
      else s2.sendTo typItem e1.homeGate 3 (w :: List.replicate 6 idleWord)

/-- A stream word on HRP as TOKEN_INTAKE takes it (R116, R122). A DRAFT word is DRAFT_INTAKE's. -/
def State.takeToken (s : State) (p : Nat) (w : Word) (entry : WordFind) : State :=
  if wKind w = 0 ∨ wKind w = 2 then s
  else if wKind w ≠ 1 then s.stateDrop p
  else
    let s1 := s.entryCheck (wSlot w) entry
    if s1.inReset then s1 else (s1.hrpCheck p w).getD (s1.acceptToken w)

/-- A DRAFT word dropped with every later word of its packet; the drafts before it stay usable, and go on to the home as a whole packet
(R129, R152). -/
def State.dropDraft (s : State) (w : Word) : State :=
  let slot := wSlot w
  let s2 := (s.stateDrop (s.entry slot).part).finishPacket slot
  s2.setEdge slot { s2.edgeAt slot with nextDraft := none, dropping := !wEnd w }

/-- Whether a DRAFT word keeps the order of R129 and the limits of R152. -/
def State.draftOk (s : State) (w : Word) (p : Policy) : Bool :=
  let e := s.entry (wSlot w)
  let x := s.edgeAt (wSlot w)
  let order := match x.nextDraft with
    | some (c, d) => wChain w == c && wDepth w == d
    | none => wDepth w == 1 && !(e.chains.testBit (wChain w)) && decide (x.base < e.length)
  order && decide (wChain w < p.chains) && decide (wDepth w ≤ p.depth) && decide (wTok w < s.vocab)

/-- A DRAFT word stored; its packet goes on to the home once it is whole (R71, R123, R129, R130). -/
def State.storeDraft (s : State) (w : Word) : State :=
  let slot := wSlot w
  let s0 := if (s.edgeAt slot).mark then s
    else
      let s' := s.markOut slot
      s'.setEdge slot { s'.edgeAt slot with mark := true, step := none, drafts := [] }
  let r := s0.writeOut slot w
  let x := r.1.edgeAt slot
  let c := wChain w
  if r.2 then
    let e := r.1.entry slot
    let s1 := r.1.setEntry slot { e with chains := e.chains ||| 2 ^ c }
    let d : HeldDraft := { chain := c, depth := wDepth w, tok := wTok w, stamp := s.fine, verdict := none }
    let s2 := s1.setEdge slot { x with drafts := x.drafts ++ [d], nextDraft := if wEnd w then none else some (c, wDepth w + 1) }
    if wEnd w then s2.forwardChain slot c else s2
  else r.1.setEdge slot { x with drafts := x.drafts.filter (fun d => d.chain != c), nextDraft := none }

/-- A DRAFT that the session check let through (R129, R132, R152). -/
def State.acceptDraft (s : State) (w : Word) : State :=
  let slot := wSlot w
  let x := s.edgeAt slot
  let e := s.entry slot
  if x.discardOut then (s.pushOut slot w).1
  else if x.dropping then (s.stateDrop e.part).setEdge slot { x with dropping := !wEnd w }
  else
    match s.sessionPolicy slot s.imgGen with
    | some (_, p) => if s.draftOk w p then s.storeDraft w else s.dropDraft w
    | none => s.dropDraft w

/-- A DRAFT word on HRP (R116, R118, R129). -/
def State.takeDraft (s : State) (p : Nat) (w : Word) : State :=
  if wKind w ≠ 2 then s
  else if bf w 32 18 ≠ 0 then s.stateDrop p
  else (s.hrpCheck p w).getD (s.acceptDraft w)

/-- What the code check of an HRP stream word finds, before it is taken (R491). -/
def State.hrpWord (s : State) (p : Nat) (f : Find) (take : State → State) : State :=
  if !s.hrpOn then s
  else
    match f with
    | .bad => s.hrpBad p
    | .corrected => take s.ceCommand
    | .clean => take s

/-- TOKEN_INTAKE. -/
def State.onTokenIntake (s : State) (part : Nat) (w : Word) (find : Find) (entry : WordFind) : State :=
  s.hrpWord part find (fun s => s.takeToken part w entry)

/-- DRAFT_INTAKE. -/
def State.onDraftIntake (s : State) (part : Nat) (w : Word) (find : Find) : State :=
  s.hrpWord part find (fun s => s.takeDraft part w)

/-- The anomaly bits of a verdict join the entry's (R127, R164). -/
def State.stickVerdict (s : State) (slot : Nat) (v : Verdict) : State :=
  let e := s.entry slot
  s.setEntry slot { e with nanSeen := e.nanSeen || v.nan, degraded := e.degraded || v.degraded, poolFull := e.poolFull || v.poolFull }

/-- The verdict is copied on the client stream: not PASS, or an anomaly bit (R126, R164). -/
def Verdict.copied (v : Verdict) : Bool := v.action != 0 || v.nan || v.degraded || v.poolFull

/-- FLAG and MASK are counted (R127, R164). -/
def State.countVerdict (s : State) (slot : Nat) (v : Verdict) : State :=
  let e := s.entry slot
  s.setEntry slot { e with flagCount := if v.action = 1 then satAdd 16 e.flagCount 1 else e.flagCount,
                           maskCount := if v.action = 2 then satAdd 16 e.maskCount 1 else e.maskCount }

/-- A late verdict counted, recorded and reported (R61, R161). -/
def State.lateVerdict (s : State) (slot pos : Nat) : State :=
  let p := (s.entry slot).part
  let s1 := s.setPart p { s.part p with lateVerdicts := satAdd 32 (s.part p).lateVerdicts 1 }
  (s1.trouble .verdictLate 3 (Obj.handle (s.handle slot)) (some p) (pack [(pos, 63, 44)])).raise p 4

/-- The ingress verdict takes effect at T_in, once (R164, R166). A stream that a close or deadline ends keeps that reason (R169). -/
def State.actTIn (s : State) (slot : Nat) : State :=
  let x := s.edgeAt slot
  let reason (r : Stop) : Stop := match x.stopPending with | some (q, _) => if (s.entry slot).state = .closing then q else r | none => r
  match x.tIn with
  | none => s
  | some t =>
    if !x.turnOpen || x.tInDone || decide (s.fine < t) then s
    else
      match x.ingress with
      | none => (s.lateVerdict slot x.turnPos).endStreamTo slot (reason .withheld) x.promptEnd 0
      | some w =>
        let v := verdictOf w
        let s1 := (s.setEdge slot { x with tInDone := true }).stickVerdict slot v
        if v.action = 4 then s1.cancelAll slot .policy
        else if v.action = 3 then s1.endStreamTo slot (reason (Stop.ofCode (v.reason % 16))) x.promptEnd 0
        else
          let s2 := s1.countVerdict slot v
          if v.copied then s2.tell slot [w] else s2

/-- The token ID that leaves: MASK replaces it (R127). -/
def State.maskOf (s : State) (t : HeldTok) (v : Verdict) : Nat :=
  if v.action = 2 then (match s.imgOf t.image, s.img.force with | some i, _ => i.maskToken | none, some i => i.maskToken | none, none => t.tok)
  else t.tok

/-- The lower of two stop reasons that is not NONE (R141). -/
def Stop.first (a b : Stop) : Stop := if a = .none then b else if b = .none then a else if a.code ≤ b.code then a else b

/-- The first held token at its release instant (R124 to R127, R141, R161). -/
def State.releaseTok (s : State) (slot : Nat) (t : HeldTok) : State :=
  match t.verdict with
  | none => (s.lateVerdict slot t.pos).endStream slot .withheld t.pos
  | some w =>
    let v := verdictOf w
    let e := s.entry slot
    let q := s.relqAt e.outLane
    if v.action = 4 then s.cancelAll slot .policy
    else if q.room = 0 then s.endStream slot .withheld t.pos
    else
      let word := tokenWord slot e.gen t.pos (s.maskOf t v)
      let s1 := (s.setRelq e.outLane (q.push [word])).tell slot (if v.copied then [word, w] else [word])
      let x := s1.edgeAt slot
      let s2 := ((s1.setEdge slot { x with held := x.held.drop 1 }).stickVerdict slot v).countVerdict slot v
      let r := Stop.first t.stop (if v.action = 3 then Stop.ofCode (v.reason % 16) else .none)
      if r = .none then s2 else s2.endStream slot r (t.pos + 1)

/-- The release instant of the first held token has come: T_in is fixed and past, and so is the instant (R60, R163). -/
def State.releaseDue (s : State) (slot : Nat) : Bool :=
  let x := s.edgeAt slot
  x.turnOpen && x.tInDone && (match x.held with | t :: _ => decide (t.release ≤ s.fine) | [] => false)

/-- Every token whose instant has come, in position order (R124). -/
def State.releaseAll : Nat → State → Nat → State
  | 0, s, _ => s
  | n + 1, s, slot =>
    match (s.edgeAt slot).held with
    | t :: _ => if s.releaseDue slot then State.releaseAll n (s.releaseTok slot t) slot else s
    | [] => s

/-- A stream whose end waits for the last committed token ends when none is left (R105, R328). -/
def State.endPending (s : State) (slot : Nat) : State :=
  let x := s.edgeAt slot
  match x.stopPending with
  | some (r, t) => if x.turnOpen && x.held.isEmpty && decide (t ≤ s.fine) then s.endStream slot r (s.entry slot).length else s
  | none => s

/-- What the instant brings to a slot's stream: T_in first, then releases, then the end (R169). -/
def State.streamDue (s : State) (slot : Nat) : State :=
  let s1 := s.actTIn slot
  (State.releaseAll (s1.edgeAt slot).held.length s1 slot).endPending slot

/-- What the check of the held-verdict store finds (R455). -/
def State.heldCheck (s : State) (slot : Nat) (f : Find) : State :=
  match f with
  | .clean => s
  | .corrected => s.ceUnit
  | .bad => s.unitBad slot

/-- TOKEN_RELEASE. -/
def State.onTokenRelease (s1 : State) (slot : Nat) (find : Find) : State :=
  if s1.inReset then s1
  else
    let s2 := s1.actTIn slot
    let s3 := if s2.releaseDue slot then s2.heldCheck slot find else s2
    (s3.streamDue slot)

/-- T_IN. -/
def State.onTIn (s1 : State) (slot : Nat) : State :=
  if s1.inReset then s1 else s1.actTIn slot

/-- QWAIT of an item's direction, in gclk (R148, R159). -/
def Work.qwait (w : Work) (p : Policy) : Nat := match w.kind with | .prompt => p.qwaitIn | .turn => p.qwaitIn | _ => p.qwaitOut

/-- A work item that has waited QWAIT without starting (R7, R159): the gclk cycles since it was queued are counted in the gclk that
ran. -/
def State.overdue (s : State) (slot : Nat) (w : Work) : Bool :=
  !w.running && !w.overDue && (match w.kind with | .resolve _ _ => false | _ => true)
    && (match s.sessionPolicy slot w.image with
        | some (_, p) => decide (w.queued + 4000 * w.qwait p ≤ s.gclks)
        | none => false)

/-- QUEUE_OVER. -/
def State.onQueueOver (s1 : State) (slot : Nat) : State :=
  let h := s1.homeAt slot
  if !s1.inReset && h.work.any (s1.overdue slot) then
    let s2 := s1.setHome slot { h with work := setFirst (s1.overdue slot) (fun w => { w with overDue := true }) h.work }
    (s2.trouble .queueOver 0 (Obj.handle (s1.handle slot)) (some (s1.entry slot).part) 0)
  else s1

/-- SLIPPED_NOTICE: HRP accepts words again, and the FIFO that was full has room (R49). -/
def State.onSlippedNotice (s1 : State) (slot : Nat) : State :=
  if s1.hrpOn && (s1.slotAt slot).slipped.any (fun l => !(s1.inLaneAt l).fifo.full) then s1.tell slot [] else s1

end Sys2Proof.Machine
end

