-- ==== Sys2Proof/Machine/Engine.lean ====
section
/-! DEFINITION. Screening work on clusters: waking, dispatch and completion (R18, R271 to R277, R439 to R441), block hashes
(R313, R314). -/
namespace Sys2Proof.Machine

def State.cluster (s : State) (c : Nat) : Cluster := s.clk.clusters.getD c Cluster.zero
def State.setCluster (s : State) (c : Nat) (v : Cluster) : State :=
  { s with clk := { s.clk with clusters := s.clk.clusters.set c v } }

/-- The clusters of a region that the part has (R28). -/
def State.clustersOf (s : State) (r : Nat) : List Nat := [2 * r, 2 * r + 1].filter (fun c => decide (c < s.grade.clusters))

/-- A stop of a started cluster is due: it has held nothing for STOP_IDLE µs (R440). -/
def State.stopDue (s : State) (c : Nat) : Bool :=
  (s.cluster c).power == .started && decide ((s.cluster c).idleSince + fineOf (1000 * bf s.clk.ctlIn 52 47) ≤ s.fine)

/-- WAKE_REQ: a stopped cluster begins to start; a stop of a started cluster that is due is dropped (R18, R274, R277, log 123). A
cluster whose region is in reset stays stopped (R425). -/
def State.wakeReq (s : State) (c : Nat) : State :=
  let k := s.cluster c
  if s.stopDue c then s.setCluster c { k with idleSince := s.fine }
  else if k.power = .stopped ∧ c < s.grade.clusters ∧ s.regionHeld (c / 2) = false then
    ({ s with clk := { s.clk with quietSince := none } }).setCluster c { k with power := .waking, wakeAt := s.fine }
  else s

/-- The work items of a home session that are assigned to a cluster. -/
def HomeAux.onCluster (h : HomeAux) (c : Nat) : List Work := h.work.filter (fun w => w.cluster == some c)

/-- Items assigned to a cluster and not yet started (R439). -/
def State.waitingOn (s : State) (c : Nat) : Nat :=
  s.home.foldl (fun n x => n + ((x.2.onCluster c).filter (fun w => !w.running)).length) 0

/-- The runs that a cluster can hold at once: four on each of its two NTEs (R273). -/
def clusterRuns : Nat := 8

/-- The items that a cluster runs, each with its session's slot. -/
def State.runningOn (s : State) (c : Nat) : List (Nat × Work) :=
  s.home.flatMap (fun x => ((x.2.onCluster c).filter (·.running)).map (fun w => (x.1, w)))

/-- Whether a cluster holds an item or a SPLIT instruction (R440). -/
def State.holdsWork (s : State) (c : Nat) : Bool :=
  s.home.any (fun x => x.2.work.any (fun w => w.cluster == some c || w.split.contains c))

/-- An item of a session comes before another in stamp order; then the higher priority, then the lower slot (R159). -/
def State.before (s : State) (a b : Nat × Work) : Bool :=
  let pa := (s.entry a.1).priority
  let pb := (s.entry b.1).priority
  decide (a.2.stamp < b.2.stamp) || (a.2.stamp == b.2.stamp && (decide (pb < pa) || (pa == pb && decide (a.1 < b.1))))

/-- The first of some items in stamp order (R159). -/
def State.firstOf (s : State) (l : List (Nat × Work)) : Option (Nat × Work) :=
  l.foldl (fun o x => match o with | none => some x | some y => if s.before x y then some x else some y) none

/-- The items that may begin on a cluster: assigned to it, not yet running, and every cluster that runs their SPLIT instructions
started (R272, R274). -/
def State.readyOn (s : State) (c : Nat) : List (Nat × Work) :=
  s.home.flatMap (fun x => ((x.2.onCluster c).filter (fun w => !w.running && w.split.all (fun d => (s.cluster d).power == .started))).map (fun w => (x.1, w)))

/-- One waiting item of a started cluster that has room for a run begins, in stamp order (R159, R273). -/
def State.runOne (s : State) (c : Nat) : State :=
  if (s.cluster c).power = .started ∧ (s.runningOn c).length < clusterRuns then
    match s.firstOf (s.readyOn c) with
    | some (slot, w) =>
      let h := s.homeAt slot
      s.setHome slot { h with work := setFirst (· == w) (fun w => { w with running := true }) h.work }
    | none => s
  else s

/-- A cluster takes up as many runs as it has room for (R273). -/
def State.runNext (s : State) (c : Nat) : State := (List.range clusterRuns).foldl (fun s _ => s.runOne c) s

/-- What the clusters do between two commands: each takes up the runs that may begin, and one that holds work is not idle (R273,
R440). -/
def State.runClusters (s : State) : State :=
  (List.range 8).foldl (fun s c =>
    let s1 := if s.holdsWork c then s.setCluster c { s.cluster c with idleSince := s.fine } else s
    s1.runNext c) s

/-- REGION and SPREAD of every instruction of a SPLIT program; nothing of a REPLICATED one (R270, R272). -/
def State.placed (s : State) (i : Img) (st : Stage) : List (Nat × Nat) :=
  let env := s.env i
  let h := ProgHdr.ofRow (env.rowAt st.objH st.objO)
  if h.placement s.grade.clusters = 1 then []
  else
    let off := if s.grade.clusters = 8 then h.pl8Offset else h.pl4Offset
    (List.range h.instrs).map (fun k =>
      let w := env.wordOf st.objH (st.objO + off + k / 64) ((k % 64) / 8)
      (bf w (8 * (k % 8) + 7) (8 * (k % 8) + 6), bf w (8 * (k % 8) + 5) (8 * (k % 8) + 4)))

/-- The regions that a program of a policy needs for a session of region `r` (R271, R272, R275). -/
def State.progRegions (s : State) (i : Img) (r : Nat) (st : Stage) : List Nat :=
  match s.placed i st with
  | [] => [r]
  | l => l.map (·.1)

/-- The program stages of an item: NEUR of its direction, TURN of a turn (R147). -/
def Work.programs (w : Work) (p : Policy) (env : Env) : List Stage :=
  match w.kind with
  | .prompt => (p.ingressStages env).filter (fun t => t.kind == 3)
  | .turn => (p.ingressStages env).filter (fun t => t.kind == 4)
  | _ => (p.egressStages env).filter (fun t => t.kind == 3)

/-- REGION and SPREAD of every SPLIT instruction of an item. -/
def State.splitPlaces (s : State) (slot : Nat) (w : Work) : List (Nat × Nat) :=
  match s.sessionPolicy slot w.image with
  | some (i, p) => (w.programs p (s.env i)).flatMap (s.placed i)
  | none => []

/-- The clusters of a region that run an item's SPLIT instructions there (R272): all for SPREAD 2, else one: the item's own, or one that
is started, or the first (log 124). Nothing when the region has no usable cluster (R275). -/
def State.spanOf (s : State) (own : Nat) (l : List (Nat × Nat)) (r : Nat) : List Nat :=
  let cs := (s.clustersOf r).filter (fun c => !(s.cluster c).removed)
  if l.contains (r, 2) then cs
  else
    match cs.find? (fun c => c == own), cs.find? (fun c => (s.cluster c).power == .started), cs with
    | some c, _, _ => [c]
    | none, some c, _ => [c]
    | none, none, c :: _ => [c]
    | none, none, [] => []

/-- Whether an item may be assigned: a stage waits for it, and a draft's step is decided (R130, R136). -/
def State.startable (s : State) (slot : Nat) (w : Work) : Bool :=
  match w.kind with
  | .resolve _ _ => false
  | .turn => (match s.sessionPolicy slot w.image with | some (i, p) => p.hasTurn (s.env i) | none => false)
  | .draft _ _ => (s.homeAt slot).step == some true
  | _ => true

/-- Each session's next item to assign, in a region. -/
def State.candidates (s : State) (r : Nat) : List (Nat × Work) :=
  s.home.filterMap (fun x =>
    if s.regionOf x.1 = r then
      match x.2.work.find? (fun w => w.cluster.isNone) with
      | some w => if s.startable x.1 w then some (x.1, w) else none
      | none => none
    else none)

/-- The first of two clusters with the shorter queue (R439). -/
def State.shorter (s : State) : List Nat → Option Nat
  | [] => none
  | c :: cs => some (cs.foldl (fun b d => if s.waitingOn d < s.waitingOn b then d else b) c)

/-- The cluster that takes the next item of a region, with the WAKE_REQs that R439 sends; none when none is usable (R275). -/
def State.assignTo (s : State) (r : Nat) : State × Option Nat :=
  let cs := (s.clustersOf r).filter (fun c => !(s.cluster c).removed)
  let started := cs.filter (fun c => (s.cluster c).power == .started)
  let depth := bf s.clk.ctlIn 46 43
  match s.shorter started with
  | some c =>
    let s1 := if started.all (fun d => decide (depth ≤ s.waitingOn d)) then cs.foldl (fun s d => s.wakeReq d) s else s
    (s1, some c)
  | none =>
    match s.shorter (cs.filter (fun c => (s.cluster c).power == .waking)) with
    | some c => (s, some c)
    | none => match cs with | c :: _ => (s.wakeReq c, some c) | [] => (s, none)

/-- The next item of a region is assigned, the clusters of its SPLIT instructions are woken, and it begins if all are started (R272,
R439). It waits while a region that it needs has no usable cluster (R275). -/
def State.dispatchNext (s : State) (r : Nat) : State × Option Nat :=
  match s.firstOf (s.candidates r) with
  | none => (s, none)
  | some (slot, w) =>
    match s.assignTo r with
    | (s1, some c) =>
      let l := s1.splitPlaces slot w
      let spans := ((List.range 4).filter (fun q => l.any (fun x => x.1 == q))).map (s1.spanOf c l)
      if spans.any (·.isEmpty) then (s, none)
      else
        let h := s1.homeAt slot
        let s2 := s1.setHome slot { h with work := setFirst (· == w) (fun w => { w with cluster := some c, split := spans.flatten }) h.work }
        ((spans.flatten.foldl (fun s d => s.wakeReq d) s2).runNext c, some slot)
    | (s1, none) => (s1, none)

/-- SCREENING_ITEM_START. -/
def State.onScreeningItemStart (s1 : State) (region : Nat) (find : ItemFind) : State :=
  if s1.inReset then s1
  else
    match s1.dispatchNext region with
    | (s2, some slot) => (s2.itemCheck slot find)
    | (s2, none) => s2

/-- The session whose item a cluster completes next: the first in stamp order of the running items that head their session's work
(R159, R273, log 104). -/
def State.completing (s : State) (c : Nat) : Option Nat :=
  (s.firstOf (s.home.filterMap (fun x =>
    match x.2.work with
    | w :: _ => if w.cluster == some c && w.running then some (x.1, w) else none
    | [] => none))).map (·.1)

/-- SCREENING_ITEM_DONE. -/
def State.onScreeningItemDone (s1 : State) (cluster : Nat) (find : ItemFind) : State :=
  match (if s1.inReset then none else s1.completing cluster) with
  | none => s1
  | some slot =>
    let s2 := s1.itemCheck slot find
    if s2.inReset then s2
    else
      let s3 := if s2.completing cluster = some slot then s2.finishItem slot else s2
      if s3.inReset then s3
      else
        let k := s3.cluster cluster
        (s3.setCluster cluster { k with runs := satAdd 32 k.runs 1 }).runClusters

/-- The reply of SESSION_FEED: MATCHED and LENGTH, CHAIN at the last match (R314, R359). -/
def State.feedResult (s : State) (slot length : Nat) : List Word :=
  let r := s.hashRec slot
  let c := if r.matched = 0 then s.root slot else (s.homeAt slot).matchChain
  [pack [(r.matched, 63, 50), (length, 49, 30)], c.1, c.2]

/-- FEED replies whose blocks are all processed are sent, in order (R314). -/
def State.feedsDone (s : State) (slot : Nat) : State :=
  let h := s.homeAt slot
  let ready := h.feeds.filter (fun f => f.blocks == 0)
  let s1 := s.setHome slot { h with feeds := h.feeds.filter (fun f => f.blocks != 0) }
  ready.foldl (fun s f =>
    match f.issuer.src with
    | some _ => s.reply f.issuer .ok (s.feedResult slot f.length)
    | none => s.endPendWith slot .ok (s.feedResult slot f.length)) s1

/-- BLOCK_HASH_DONE: the oldest filled block of a session is hashed and looked up (R313). -/
def State.onBlockHashDone (s1 : State) (slot : Nat) : State :=
  let h := s1.homeAt slot
  match h.hashQ with
  | [] => s1
  | b :: rest =>
    if s1.inReset then s1
    else
      let s2 := s1.setHome slot { h with hashQ := rest, feeds := h.feeds.map (fun f => { f with blocks := f.blocks - 1 }) }
      let before := (s2.hashRec slot).matched
      let s3 := s2.hashBlock slot b
      let r := s3.hashRec slot
      let s4 := if r.matched = before then s3 else s3.setHome slot { s3.homeAt slot with matchChain := r.chain }
      (s4.feedsDone slot)

/-- CLUSTER_WAKE_DONE: WAKE_ACK within 2,000 ns of the request (R274). A cluster that was removed counts again in the capacities (R275). -/
def State.onClusterWakeDone (s1 : State) (cluster : Nat) : State :=
  let k := s1.cluster cluster
  if !s1.inReset && k.power == .waking && decide (s1.fine ≤ k.wakeAt + fineOf 2000) then
    let s2 : State := { s1 with bal := { s1.bal with due := s1.bal.due || k.removed } }
    (s2.setCluster cluster { k with power := .started, removed := false, wakes := satAdd 16 k.wakes 1, idleSince := s1.fine }).runClusters
  else s1

/-- The items that wait for a cluster lose it and are assigned anew, in stamp order (R275). -/
def State.reassign (s : State) (c : Nat) : State :=
  let uses (w : Work) : Bool := !w.running && (w.cluster == some c || w.split.contains c)
  let count (r : Nat) : Nat := s.home.foldl (fun n x => if s.regionOf x.1 = r then n + (x.2.work.filter uses).length else n) 0
  let s1 := s.home.foldl (fun s x =>
    if x.2.work.any uses then
      s.setHome x.1 { x.2 with work := x.2.work.map (fun w => if uses w then { w with cluster := none, split := [] } else w) }
    else s) s
  (List.range 4).foldl (fun t r => (List.range (count r)).foldl (fun t _ => (t.dispatchNext r).1) t) s1

/-- CLUSTER_WAKE_TIMEOUT: no WAKE_ACK 2,000 ns after the request, or a rail check that fails (R275). -/
def State.onClusterWakeTimeout (s1 : State) (cluster : Nat) (railFail : Bool) : State :=
  let k := s1.cluster cluster
  if !s1.inReset && k.power == .waking && (railFail || decide (k.wakeAt + fineOf 2000 ≤ s1.fine)) then
    let s2 := s1.setCluster cluster { k with power := .stopped, removed := true }
    let s3 := s2.trouble .wakeFail 0 (Obj.cluster cluster) none 0
    (({ s3 with bal := { s3.bal with due := true } }).reassign cluster)
  else s1

/-- CLUSTER_IDLE_STOP: a started cluster that held nothing for STOP_IDLE µs (R440). -/
def State.onClusterIdleStop (s1 : State) (cluster : Nat) : State :=
  let k := s1.cluster cluster
  if !s1.inReset && s1.stopDue cluster && !s1.holdsWork cluster then
    (s1.setCluster cluster { k with power := .stopped })
  else s1

end Sys2Proof.Machine
end

