-- ==== Sys2Proof/Machine/Cmi.lean ====
section
/-! DEFINITION. The command interpreter (R335, R346 to R358): arrival of packets, the order of service, the checks that every
packet meets, and the general commands. -/
namespace Sys2Proof.Machine

/-- The opcodes of the tables (R359). -/
def opcodes : List Nat :=
  [0x01, 0x02, 0x03, 0x10, 0x11, 0x12, 0x13, 0x14, 0x15, 0x16, 0x17, 0x18, 0x20, 0x21, 0x22, 0x28, 0x29, 0x2A, 0x30, 0x31, 0x32,
   0x38, 0x39, 0x3A, 0x3B, 0x40, 0x41, 0x42, 0x48, 0x49, 0x4A, 0x4B, 0x4C, 0x50, 0x51, 0x58, 0x59, 0x5A, 0x5B, 0x60, 0x61]

/-- SMP serves every opcode: no reset asserted, the start past its step 2 and not held at step 3 (R350, R430, R434). -/
def State.smpFull (s : State) : Bool :=
  !s.inReset && (match s.rs.start with | none => true | some r => !r.held && decide (r.at' + 256 ≤ s.tm.refclk))

/-- SMP is served at all: not while PWR_OK or PORST_n is low (R423). -/
def State.smpOn (s : State) : Bool :=
  decide (s.rs.pinLow ≤ s.tm.refclk)

/-- NOP, IDENTIFY, TIME_QUERY, TROUBLE_READ and GATE_RESET, served while a reset is asserted (R350). -/
def alwaysOp (op : Nat) : Bool := op == 0x01 || op == 0x02 || op == 0x42 || op == 0x59 || op == 0x4B

/-- A packet refused on arrival on HRP: the reply goes to the issuing sideband (R349). -/
def State.refuseHrp (s : State) (p : Nat) (w : Word) (st : Status) : State :=
  s.putOut 1 p false (replyWords (pktIssuer false { part := p, words := [w], arrived := 0, fine := 0 }) st [])

/-- A packet with an uncorrectable word: discarded without a reply (R351). -/
def State.badPacket (s : State) (p : Nat) (w : Word) (readable smp : Bool) : State :=
  if readable then s.trouble .cmdUe 1 (Obj.command (hOp w) (hTag w) smp) (some p) 0
  else s.trouble .cmdUe 1 Obj.none (if smp then none else some p) 0

/-- A whole packet on HRP (R335, R337, R349, R351, R352). -/
def State.arriveHrp (s : State) (p : Nat) (ws : List Word) : State :=
  let h := wat ws 0
  let q := s.part p
  if hPart h ≠ p then s.refuseHrp p h .deniedPartition
  else if 4096 < hLen h then s.refuseHrp p h .reservedSet
  else if q.resetting then s.refuseHrp p h .busy
  else if 16 ≤ q.ring.length then (s.setPart p { q with refusedBusy := true }).refuseHrp p h .busy
  else s.setPart p { q with ring := q.ring ++ [{ part := p, words := ws, arrived := s.tm.refclk, fine := s.fine }] }

/-- A whole packet on SMP (R350, R351). -/
def State.arriveSmp (s : State) (ws : List Word) : State :=
  let h := wat ws 0
  let i := pktIssuer true { part := hPart h, words := ws, arrived := 0, fine := 0 }
  if 4096 < hLen h then s.answer i .reservedSet
  else if (s.part (hPart h)).resetting then s.answer i .busy
  else if 4 ≤ s.cmi.smpRing.length then s.answer i .busy
  else { s with cmi := { s.cmi with smpRing := s.cmi.smpRing ++ [{ part := hPart h, words := ws, arrived := s.tm.refclk, fine := s.fine }] } }

/-- The framed packet of some words: the header and PLEN words (R349). -/
def framed (ws : List Word) : Option (List Word) :=
  if ws.length < 1 + hLen (wat ws 0) then none else some (ws.take (1 + hLen (wat ws 0)))

/-- COMMAND_PACKET_ARRIVAL. -/
def State.onCommandPacketArrival (s1 : State) (via : Via) (words : List Word) (find : Find) (headerReadable : Bool) : State :=
  let on := match via with | .hrp _ => s1.hrpOn | .smp => s1.smpOn
  match (if on then framed words else none) with
  | none => s1
  | some ws =>
    let h := wat ws 0
    match find, via with
    | .bad, .hrp p => (s1.badPacket p h headerReadable false)
    | .bad, .smp => (s1.badPacket (hPart h) h headerReadable true)
    | .corrected, .hrp p => (s1.ceCommand.arriveHrp p ws)
    | .corrected, .smp => (s1.ceCommand.arriveSmp ws)
    | .clean, .hrp p => (s1.arriveHrp p ws)
    | .clean, .smp => (s1.arriveSmp ws)

/-- The partition whose packet starts next (R335): the visit in progress goes on, else the next partition with a packet; a SHARE
of 0 yields to every other. -/
def State.turnOf (s : State) : Option Nat :=
  let waits (p : Nat) : Bool := !(s.part p).ring.isEmpty
  let heavy := (List.range 64).any (fun p => waits p && decide (1 ≤ (s.part p).share))
  ((List.range 64).map (fun i => (s.cmi.nextPart + i) % 64)).find? (fun p => waits p && (decide (1 ≤ (s.part p).share) || !heavy))

/-- The packet that starts next: SMP packets before every round (R350). -/
def State.nextPkt (s : State) : Option (Bool × Pkt) :=
  match s.cmi.smpRing with
  | k :: _ => some (true, k)
  | [] =>
    match s.turnOf with
    | some p => match (s.part p).ring with | k :: _ => some (false, k) | [] => none
    | none => none

/-- The packet that starts next leaves its ring: the visit counts it, and a ring back to 8 packets after a refusal raises
vector 0 (R335). -/
def State.popPkt (s : State) : State :=
  match s.cmi.smpRing with
  | k :: rest => { s with cmi := { s.cmi with smpRing := rest, arrival := k.fine }, clk := { s.clk with quietSince := none } }
  | [] =>
    match s.turnOf with
    | none => s
    | some p =>
      let q := s.part p
      let ring := q.ring.drop 1
      let at' := match q.ring with | k :: _ => k.fine | [] => s.fine
      let drained := q.refusedBusy && ring.length == 8
      let s1 := s.setPart p { q with ring := ring, refusedBusy := q.refusedBusy && !drained }
      let n := (if p = s.cmi.nextPart then s.cmi.inVisit else 0) + 1
      let ends := ring.isEmpty || decide (q.share ≤ n)
      let s2 := { s1 with
        cmi := { s1.cmi with nextPart := if ends then (p + 1) % 64 else p, inVisit := if ends then 0 else n, arrival := at' },
        clk := { s1.clk with quietSince := none } }
      if drained then s2.raise p 0 else s2

/-- The negotiated version of a transport (R355). -/
def State.version (s : State) (i : Issuer) : Option Nat := if i.smp then s.cmi.smpVersion else (s.part i.part).version

/-- Checks 3 to 5 of R352, the refusal during a reset before them (R350). -/
def State.check5 (s : State) (i : Issuer) (h : Word) : Option Status :=
  if i.smp && !s.smpFull && !alwaysOp i.op then some .busy
  else if i.op = 0x01 ∨ i.op = 0x02 then
    if hVersion h = 0 then some .badVersion else if hReserved h ≠ 0 then some .reservedSet else none
  else if s.version i ≠ some (hVersion h) then some .badVersion
  else if !opcodes.contains i.op then some .badOpcode
  else if hReserved h ≠ 0 then some .reservedSet
  else none

/-- Packets whose opcode no table lists are refused when their turn comes (R352). -/
def State.refuseUnknown : Nat → State → State
  | 0, s => s
  | n + 1, s =>
    match s.nextPkt with
    | none => s
    | some (smp, k) =>
      let i := pktIssuer smp k
      if opcodes.contains i.op then s
      else State.refuseUnknown n (s.popPkt.answer i ((s.check5 i (wat k.words 0)).getD .badOpcode))

/-- The packets that wait to start. -/
def State.pktCount (s : State) : Nat := s.cmi.smpRing.length + s.parts.foldl (fun n p => n + p.2.ring.length) 0

/-- Partition 0 on HRP, or any packet on SMP (R350, R354). -/
def Issuer.isP0 (i : Issuer) : Bool := i.smp || i.part == 0

/-- Any issuer (R354). -/
def anyone : Issuer → List Word → Bool := fun _ _ => true
/-- P0 (R354). -/
def onlyP0 : Issuer → List Word → Bool := fun i _ => i.isP0

/-- Checks 6 to 8 of R352: `who` tells the issuers allowed; `len` is the opcode's parameter length, none when the word of its count is not there (R353); `bad`
tells a reserved bit or a field out of range. -/
def State.check8 (s : State) (i : Issuer) (who : Issuer → List Word → Bool) (len : List Word → Option Nat) (bad : List Word → Bool) (ps : List Word) :
    Option Status :=
  if i.op ≠ 0x01 ∧ i.op ≠ 0x02 ∧ s.partOn i.part = false then some .deniedPartition
  else if !who i ps then some .deniedPartition
  else
    match len ps with
    | none => some .empty
    | some n =>
      if ps.length < n then some .empty
      else if n < ps.length then some .reservedSet
      else if bad ps then some .reservedSet
      else none

/-- The CMI starts the next packet, when its opcode is `op`: the checks of R352 in their order, then the command's own act. -/
def State.runCmd (s : State) (op : Nat) (who : Issuer → List Word → Bool) (len : List Word → Option Nat) (bad : List Word → Bool)
    (act : Issuer → List Word → State → State) : State :=
  let s0 := State.refuseUnknown s.pktCount s
  match s0.nextPkt with
  | none => s0
  | some (smp, k) =>
    let i := pktIssuer smp k
    if i.op ≠ op then s0
    else
      let s1 := s0.popPkt
      match s1.check5 i (wat k.words 0) with
      | some st => s1.answer i st
      | none =>
        match s1.check8 i who len bad (k.words.drop 1) with
        | some st => s1.answer i st
        | none => act i (k.words.drop 1) s1

/-- A constant parameter length. -/
def fixed (n : Nat) : List Word → Option Nat := fun _ => some n

/-- Bits of a word outside some fields are set. -/
def stray (w : Word) (fields : List (Nat × Nat)) : Bool :=
  let mask := fields.foldl (fun a f => a ||| ((2 ^ (f.1 + 1 - f.2) - 1) <<< f.2)) 0
  decide (w &&& ~~~ (word mask) ≠ 0)

/-- NOP: always OK after the checks (R359). -/
def State.onNop (s : State) : State :=
  s.runCmd 0x01 anyone (fixed 0) (fun _ => false) (fun i _ s => s.answer i .ok)

/-- Time is set and locked (R377, R379). -/
def State.timeLocked (s : State) : Bool := s.tm.set && s.tm.locked

/-- The words of IDENTIFY's result (R355). -/
def State.identity (s : State) : List Word :=
  [ pack [(1, 63, 60), (1, 59, 52), (2, 51, 44), (0, 43, 32), (1, 31, 28), (1, 27, 24), (s.gate, 23, 14), (s.grade.code, 13, 10)],
    pack [(s.role, 63, 61), (b2n s.timeLocked, 60, 60), (b2n s.img.force.isSome, 59, 59), (b2n s.isCoord, 58, 58),
      (b2n s.net.paired, 57, 57), (if s.net.paired then s.net.twin else 0, 56, 47)] ]

/-- The negotiated version is recorded (R355). -/
def State.negotiate (s : State) (i : Issuer) : State :=
  if i.smp then { s with cmi := { s.cmi with smpVersion := some 1 } }
  else s.setPart i.part { s.part i.part with version := some 1 }

/-- IDENTIFY. -/
def State.onIdentify (s : State) : State :=
  s.runCmd 0x02 anyone (fixed 0) (fun _ => false) (fun i _ s => (s.negotiate i).reply i .ok s.identity)

/-- GT_GCAP0 to GT_GCAP4 (R28, R478). -/
def gcap (g : Grade) : List Word :=
  let k := g.regions
  [ pack [(g.code, 63, 60), (2 * k, 59, 56), (k, 55, 52), (4 * k, 51, 46), (4 * k, 45, 40), (2 * k, 39, 35), (2 * k, 34, 30),
      (k, 29, 26), (k, 25, 22), (2, 21, 19), (64, 18, 11), (g.ssmMib, 10, 0)],
    pack [(512, 63, 54), (1024, 53, 42), (8192, 41, 27), (8192, 26, 12), (4, 11, 9), (8, 8, 5)],
    pack [(16384, 63, 47), (64, 46, 39), (4194304, 38, 15), (8, 14, 11), (16, 10, 5)],
    pack [(4096, 63, 50), (16, 49, 45), (4, 44, 42), (g.tierDevices, 41, 36), (96, 35, 28), (g.egressRate, 27, 12)],
    pack [(g.ingressRate, 63, 46), (1024, 45, 34), (256, 33, 24)] ]

/-- CAPS_READ. -/
def State.onCapsRead (s : State) : State :=
  s.runCmd 0x03 anyone (fixed 0) (fun _ => false) (fun i _ s => s.reply i .ok (gcap s.grade))

end Sys2Proof.Machine
end

