-- ==== Sys2Proof/Machine/Capacity.lean ====
section
/-! DEFINITION. Admission (R25, R31, R275, R330, R332, R343, R401, R451): the budgets of a policy at a hop count, the factor and
the capacities, the checks at an open. -/
namespace Sys2Proof.Machine

/-- How a policy fits at a hop count (R451): QWAIT' of each direction, where one fits, and Lmax, where ns(ISSUE_IN) exceeds
D_IN_B_NS. -/
structure Fit where
  qOut : Option Nat
  qIn : Option Nat
  lmax : Option Nat
  deriving DecidableEq, Repr

/-- The pair fits: a SESSION_OPEN with it is not refused (R451). -/
def Fit.ok (f : Fit) : Bool := f.qOut.isSome && f.qIn.isSome && f.lmax != some 0

/-- The bound that a direction sets on FACTOR, from its QWAIT and QWAIT' (R451); one that does not fit sets none (log 138). -/
def queueBound (q : Nat) (q' : Option Nat) : Nat :=
  match q' with
  | some v => if q = 0 then 1024 else 1024 * v / q
  | none => 1024

/-- The largest queue term that fits, at most the policy's own: `d` the delay, `rest` the fixed terms in ns, `work` the other
gclk (R451). -/
def qFit (floor d rest work q : Nat) : Option Nat :=
  if d < rest then none
  else
    let room := (d - rest) * floor / 1000
    if room < work then none else some (min q (room - work))

/-- The terms of a budget that count no gclk (R157). -/
def Contract.restNs (c : Contract) (hopNs hops : Nat) : Nat :=
  2 * hops * (hopNs + c.depthRing * c.ringPeriod) + 2000 + cdiv (c.depthThrottle * c.pmax * 1000) c.fclk

/-- The fit of a policy at a hop count under a clock floor (R451). -/
def Policy.fit (p : Policy) (c : Contract) (floor hopNs hops : Nat) : Fit :=
  let rest := c.restNs hopNs hops
  let wOut := fixEdge + fixHome + p.wPathOut + (p.depth + p.chains * p.depth) * p.issueOut + p.rerunOut
  let wIn := fixEdge + fixHome + p.wPathIn + p.wTurn + p.rerunIn
  let qi := qFit floor p.dInA rest wIn p.qwaitIn
  let b := cdiv (p.issueIn * 1000) floor
  let lmax := match qi with
    | some q => if p.dInB < b then some ((p.dInA - (cdiv ((wIn + q) * 1000) floor + rest)) / (b - p.dInB)) else none
    | none => none
  { qOut := qFit floor p.dOut rest wOut p.qwaitOut, qIn := qi, lmax := lmax }

/-- Whether the maximum gclk planned is below the contract's floor (R451). -/
def State.ageing (s : State) : Bool := decide (s.clk.plan < s.floorMhz)

/-- A policy is admitted at a hop count (R25, R158, R451). -/
def State.fits (s : State) (i : Img) (policy hops : Nat) : Bool :=
  let p := s.policyOf i policy
  if s.ageing then (p.fit i.contract s.fFloor s.hopNs hops).ok else p.meets i.contract s.fFloor s.hopNs hops

/-- The limit of a turn's PROMPT_LEN for a session (R451); an Lmax of zero is no fit and limits no session that is open (log 138). -/
def State.promptLimit (s : State) (slot : Nat) : Option Nat :=
  match s.img.force with
  | some i =>
    let e := s.entry slot
    let l := ((s.policyOf i e.policy).fit i.contract s.fFloor s.hopNs e.hops).lmax
    if s.ageing = false ∨ l = some 0 then none else l
  | none => none

/-- The pairs in force (R451): those of entries that are not FREE, and every policy at HOPS 0. -/
def State.pairs (s : State) (i : Img) : List (Nat × Nat) :=
  ((s.entries.filter (fun c => c.2.state != .free)).map (fun c => (c.2.policy, c.2.hops))) ++ (List.range i.policies).map (fun p => (p, 0))

/-- The bound that a pair sets on FACTOR (R451). -/
def State.pairBound (s : State) (i : Img) (x : Nat × Nat) : Nat :=
  let p := s.policyOf i x.1
  let f := p.fit i.contract s.fFloor s.hopNs x.2
  min (queueBound p.qwaitOut f.qOut) (queueBound p.qwaitIn f.qIn)

/-- FACTOR (R330), lowered by the ageing terms of the pairs in force and `extra` (R451) and by the clusters removed from dispatch
(R275, log 16). -/
def State.factorNow (s : State) (extra : List (Nat × Nat)) : Nat :=
  match s.img.force with
  | none => 0
  | some i =>
    let base := min 1024 (if i.meter.needMhz = 0 then 1024 else 1024 * s.fFloor / i.meter.needMhz)
    let low := if s.ageing then (extra ++ s.pairs i).foldl (fun f x => min f (s.pairBound i x)) base else base
    let n := s.grade.clusters
    let gone := ((List.range n).filter (fun c => (s.cluster c).removed)).length
    low * (n - gone) / n

/-- Whether R451 limits a pair: a queue term below QWAIT, a limit of PROMPT_LEN, or no fit. -/
def State.limits (s : State) (i : Img) (x : Nat × Nat) : Bool :=
  let p := s.policyOf i x.1
  let f := p.fit i.contract s.fFloor s.hopNs x.2
  f.qOut != some p.qwaitOut || f.qIn != some p.qwaitIn || f.lmax.isSome

/-- The first policy that R451 limits (R452). -/
def State.limited (s : State) (extra : List (Nat × Nat)) : Option Nat :=
  match s.img.force with
  | some i => if s.ageing then ((extra ++ s.pairs i).find? (s.limits i)).map (·.1) else none
  | none => none

/-- AGE_MARGIN with its entry: PLAN_MHZ and the policy index (R452, R464). -/
def State.ageMargin (s : State) (policy : Nat) : State :=
  s.trouble .ageMargin 0 Obj.none none (pack [(s.clk.plan, 63, 53), (policy, 52, 41)])

/-- MARGIN, and AGE_MARGIN when a limit begins (R451, R452). -/
def State.marginWatch (s : State) (extra : List (Nat × Nat)) : State :=
  match s.limited extra with
  | some p =>
    let s1 := { s with clk := { s.clk with margin := true } }
    if s.clk.margin then s1 else s1.ageMargin p
  | none => { s with clk := { s.clk with margin := false } }

/-- The four capacities recomputed (R330, R451). -/
def State.recompute (s0 : State) (extra : List (Nat × Nat)) : State :=
  let s := s0.marginWatch extra
  let f := s.factorNow extra
  { s with bal := { s.bal with factor := f, capOut := s.grade.egressRate * f * 1024 / 1000000,
                               capIn := s.grade.ingressRate * f * 1024 / 1000000, sCap := 8192 * f / 1024, due := false } }

/-- GT_MTU_CTL in force: RESERVE, RESERVE_PRIO, TIER_PAGES (R332). -/
def State.reserve (s : State) : Nat := bf s.bal.ctlIn 63 60
def State.reservePrio (s : State) : Nat := bf s.bal.ctlIn 59 56
def State.tierPages (s : State) : Nat := bf s.bal.ctlIn 55 32

/-- The home's count of sessions that screening serves (R332). -/
def State.homeCount (s : State) : Nat :=
  (s.entries.filter (fun c => c.2.home && (c.2.state == .opening || c.2.state == .live || c.2.state == .speculating
    || c.2.state == .springing || c.2.state == .closing))).length

/-- One more session of a priority stays within the limit (R332). -/
def State.admits (s : State) (priority : Nat) : Bool :=
  let lim := if priority < s.reservePrio then s.bal.sCap * (16 - s.reserve) / 16 else s.bal.sCap
  decide (s.homeCount + 1 ≤ lim)

/-- The period of a lane in the variant in force (R343). -/
def State.lanePeriod (s : State) (dir l : Nat) : Nat := match s.contract with | some c => c.periodOf s.bal.active dir l | none => 0

/-- A region has a cluster that may take work (R275). -/
def State.regionUsable (s : State) (r : Nat) : Bool := (s.clustersOf r).any (fun c => !(s.cluster c).removed)

/-- Every region that the policy's programs need has a usable engine (R275). -/
def State.regionsUsable (s : State) (i : Img) (policy slot : Nat) : Bool :=
  let env := s.env i
  let p := s.policyOf i policy
  ((p.egressStages env ++ p.ingressStages env).filter (fun t => decide (3 ≤ t.kind))).all (fun t =>
    (s.progRegions i (s.regionOf slot) t).all s.regionUsable)

/-- The adapter library holds a variant: none while no device is trained (R318, R319). -/
def State.adapterValid (s : State) (v : Nat) : Bool := s.tierOn && s.tier.lib.any (fun c => c.1 == v)

/-- What SESSION_OPEN and OPEN name (R359). -/
structure OpenReq where
  tenant : Nat
  slot : Nat
  home : Nat
  homeEn : Bool
  priority : Nat
  inLane : Nat
  outLane : Nat
  hops : Nat
  policy : Nat
  stopSet : Nat
  endToken : Nat
  endEn : Bool
  adapter : Nat
  adapterEn : Bool
  deadline : Nat
  maxOut : Nat
  caller : Nat
  agent : Nat
  queue : Nat
  inThresh : Nat
  outThresh : Nat
  deriving DecidableEq, Repr

/-- The five parameter words of SESSION_OPEN (R359). -/
def OpenReq.ofWords (ws : List Word) : OpenReq :=
  { tenant := bf (wat ws 0) 63 50, slot := bf (wat ws 0) 49 37, home := bf (wat ws 0) 36 27, homeEn := bit (wat ws 0) 26,
    priority := bf (wat ws 0) 25 22, inLane := bf (wat ws 0) 21 20, outLane := bf (wat ws 0) 19 18, hops := bf (wat ws 0) 17 8,
    policy := bf (wat ws 1) 63 52, stopSet := bf (wat ws 1) 51 40, endToken := bf (wat ws 1) 39 22, endEn := bit (wat ws 1) 21,
    adapter := bf (wat ws 1) 20 9, adapterEn := bit (wat ws 1) 8, deadline := bf (wat ws 2) 63 32, maxOut := bf (wat ws 2) 31 12,
    caller := bf (wat ws 3) 63 32, agent := bf (wat ws 3) 31 0, queue := bf (wat ws 4) 63 32, inThresh := bf (wat ws 4) 31 25,
    outThresh := bf (wat ws 4) 24 18 }

/-- Reserved bits of the five words (R359). -/
def openStray (ws : List Word) : Bool :=
  stray (wat ws 0) [(63, 8)] || stray (wat ws 1) [(63, 8)] || stray (wat ws 2) [(63, 12)] || stray (wat ws 4) [(63, 18)]

/-- Check 5 of R99: time, image, policy, stop set, adapter. -/
def State.openNames (s : State) (q : OpenReq) : Option Status :=
  if !s.timeLocked then some .busy
  else
    match s.img.force with
    | none => some .badImage
    | some i =>
      if i.policies ≤ q.policy ∨ (s.patHdr i).stopsets ≤ q.stopSet ∨ (q.adapterEn = true ∧ s.adapterValid q.adapter = false) then some .badImage
      else none

/-- Checks 6 and 7 of R99 on one gate: the slot, the budget, the lanes of a region in reset (R425); `route` whether the route
check holds. -/
def State.openPlace (s : State) (q : OpenReq) (route : Bool) : Option Status :=
  match s.img.force with
  | none => some .badImage
  | some i =>
    if (s.entry q.slot).state = .free ∧ route = true ∧ s.fits i q.policy q.hops = true ∧ s.laneHeld q.inLane = false
        ∧ s.laneHeld q.outLane = false then none else some .busy

/-- The home's own part of check 7: admission, engines, a region in reset (R275, R332, R425). -/
def State.openAdmit (s : State) (q : OpenReq) : Option Status :=
  match s.img.force with
  | none => some .badImage
  | some i =>
    if s.admits q.priority ∧ s.regionsUsable i q.policy q.slot = true ∧ s.regionHeld (s.regionOf q.slot) = false then none else some .busy

end Sys2Proof.Machine
end

