-- ==== Sys2Proof/Machine/SessionCmd.lean ====
section
/-! DEFINITION. The session commands on a gate: open, feed, close, cancel, query, stop set, draft resolve (R97 to R111, R133,
R145, R359), and what the home does for each. -/
namespace Sys2Proof.Machine

/-- The checks of a session command after the gate's own (R89, R97, R354): the entry, the handle, the role `role` on this gate's
entry, the partition. -/
def State.sessCheck (s : State) (i : Issuer) (h : Nat) (role : Entry → Bool) : Option Status :=
  let e := s.entry (hdlSlot h)
  if e.state = .free then some .noSession
  else if !s.matches h then some .staleGeneration
  else if !role e then some .noSession
  else if e.part ≠ i.part then some .deniedPartition
  else none

/-- A session command: its checks, then its act on the slot. -/
def State.session (s : State) (i : Issuer) (w : Word) (gate : Bool) (role : Entry → Bool) (act : Nat → State) : State :=
  if !gate then s.answer i .noSession
  else
    match s.sessCheck i (hdlOf w) role with
    | some st => s.answer i st
    | none => act (hdlSlot (hdlOf w))

/-- The bits of W0 outside H are set. -/
def strayH (ws : List Word) : Bool := stray (wat ws 0) [(63, 32)]

/-- The screening state of a new session (R100, R181, R195, R239, R313): recurrent state zero, automata at their starts, the
keys, the hash record. -/
def State.freshState (s : State) (slot : Nat) (q : OpenReq) : State :=
  match s.img.force with
  | none => s
  | some i =>
    let env := s.env i
    let row := s.stateRow i slot
    let as := match policyAutomata env (s.policyOf i q.policy) with | .ok l => l | .error _ => []
    let st := match stopSetAutomata env (s.patHdr i) q.stopSet with | .ok l => l | .error _ => []
    let pf := patOpen (as ++ st) (featOpen q.caller q.agent q.queue (List.replicate 32 0#64))
    let s1 := (s.zeroMem row 40).putMem (8 * (row + 32)) pf
    let keys := [(2, 2 * slot, wat pf 16), (2, 2 * slot + 1, wat pf 17)]
    (s1.mirrorPut keys).openRec slot

/-- The entry of a new session (R87, R90, R99, R147); D_OUT_NS is the edge's (R92, R93, log 130). -/
def State.newEntry (s : State) (q : OpenReq) (state : Sess) (home edge : Bool) (part gen homeGate edgeGate openTime : Nat) : Entry :=
  let d := match s.img.force with | some i => (s.policyOf i q.policy).dOut | none => 0
  { Entry.zero with state := state, home := home, edge := edge, gen := gen, homeGate := homeGate, edgeGate := edgeGate, part := part,
                    tenant := q.tenant, priority := q.priority, maxOut := q.maxOut, deadline := q.deadline, openTime := openTime,
                    stopSet := q.stopSet, endToken := q.endToken, endEn := q.endEn, policy := q.policy, adapter := q.adapter,
                    adapterEn := q.adapterEn, inLane := q.inLane, outLane := q.outLane, hops := q.hops, dOut := if edge then d else 0,
                    inRing := RingD.opened q.inThresh, outRing := RingD.opened q.outThresh }

/-- An entry allocated for a tenant's session (R323). -/
def State.allocate (s : State) (slot : Nat) (e : Entry) : State :=
  let l := s.ledger e.tenant
  let s1 := (s.setLedger e.tenant { l with sessions := l.sessions + 1 }).setEntry slot e
  ((s1.setEdge slot EdgeAux.zero).setHome slot HomeAux.zero).setSlot slot { SlotAux.zero with openedAt := s.now }

/-- The session's state on its home, new (R100 step 2). -/
def State.openHome (s : State) (slot : Nat) (q : OpenReq) : State :=
  let s1 := s.freshState slot q
  s1.setHome slot { HomeAux.zero with imageSeen := s1.imgGen, stopIn := q.stopSet, matchChain := s1.root slot }

/-- Payload of OPEN (R395). -/
def openPayload (ws : List Word) (t : Nat) : List Word := ws.take 5 ++ [word t]

/-- The edge's lanes have a period in the variant in force (R343). -/
def State.lanesOpen (s : State) (q : OpenReq) : Bool := s.lanePeriod 0 q.inLane != 0 && s.lanePeriod 1 q.outLane != 0

/-- SESSION_OPEN's own preconditions on the edge, in the order of R99. -/
def State.openCheck (s : State) (i : Issuer) (q : OpenReq) : Option Status :=
  let l := s.ledger q.tenant
  let here := !q.homeEn || q.home == s.gate
  let route := if q.homeEn then (match s.route q.home with | some (_, h) => h == q.hops | none => false) else q.hops == 0
  if !s.hasEdge then some .noSession
  else if s.ownerOf q.tenant ≠ some i.part then some .deniedPartition
  else if l.inLevel = 0 ∨ l.outLevel = 0 then some .noBudget
  else if here && !s.hasHome then some .noSession
  else
    match s.openNames q with
    | some st => some st
    | none =>
      match s.openPlace q (route && s.lanesOpen q) with
      | some st => some st
      | none => if here then s.openAdmit q else none

/-- SESSION_OPEN accepted (R100); the OPENING entry keeps the GEN of its slot (log 129). -/
def State.openAccepted (s : State) (i : Issuer) (q : OpenReq) (ws : List Word) : State :=
  let old := s.entry q.slot
  if !q.homeEn || q.home == s.gate then
    let e := s.newEntry q .live true true i.part ((old.gen + 1) % 512) s.gate s.gate s.now
    let s1 := (s.allocate q.slot e).openHome q.slot q
    s1.reply i .ok [hdlWord (s1.handle q.slot)]
  else
    let e := { s.newEntry q .opening false true i.part old.gen q.home s.gate s.now with pendOp := i.op, pendTag := i.tag, pendSmp := i.smp }
    (s.allocate q.slot e).sendTo typOpen q.home 3 (openPayload ws s.now)

/-- SESSION_OPEN after the checks of the command interpreter: a new pair is in force before the admission check (R451). -/
def State.openSession (s : State) (i : Issuer) (ws : List Word) : State :=
  let q := OpenReq.ofWords ws
  let t := if s.ageing then s.recompute [(q.policy, q.hops)] else s
  match t.openCheck i q with
  | some st => s.answer i st
  | none => t.openAccepted i q ws

/-- SESSION_OPEN. -/
def State.onSessionOpen (s : State) : State :=
  s.runCmd 0x10 anyone (fixed 5) openStray (fun i ws s => s.openSession i ws)

/-- COUNT and LAST of SESSION_FEED (R359). -/
def feedCount (w : Word) : Nat := bf w 30 20
def feedLast (w : Word) : Bool := bit w 31

/-- The parameter length of SESSION_FEED (R359). -/
def feedLen (ws : List Word) : Option Nat := match ws with | [] => none | w :: _ => some (1 + cdiv (feedCount w) 3)

/-- Reserved bits of SESSION_FEED, unused token places among them, and COUNT out of range (R359). -/
def feedStray (ws : List Word) : Bool :=
  let n := feedCount (wat ws 0)
  stray (wat ws 0) [(63, 20)] || decide (1536 < n)
    || ((ws.drop 1).zipIdx.any (fun p => decide (18 * min 3 (n - 3 * p.2) ≤ 63) && decide (bf p.1 63 (18 * min 3 (n - 3 * p.2)) ≠ 0)))

/-- SESSION_FEED's own refusals (R101, R451). -/
def State.feedCheck (s : State) (slot : Nat) (toks : List Nat) : Option Status :=
  let e := s.entry slot
  let x := s.edgeAt slot
  let n := toks.length
  let prompt := if !x.turnOpen || (x.fedLast) then 0 else e.promptLen
  if maxLength < e.length + n then some .noSpace
  else if (match s.promptLimit slot with | some l => decide (l < prompt + n) | none => false) then some .noSpace
  else if (s.ledger e.tenant).inLevel < n then some .noBudget
  else if toks.any (fun t => decide (s.vocab ≤ t)) then some .badImage
  else none

/-- The first FEED of a turn at the edge (R101, R102, R143). -/
def State.openTurn (s : State) (slot : Nat) : State :=
  let e := s.entry slot
  let x := s.edgeAt slot
  let s1 := s.setEntry slot { e with outCount := 0, promptLen := 0, stop := .none }
  s1.setEdge slot { x with turnOpen := true, fedLast := false, turnStart := e.length, promptEnd := e.length, tIn := none,
                           tInImage := s.imgGen, tInDone := false, ingress := none, stopPending := none, turnImage := s.imgGen }

/-- The tokens charged to the input bucket, and metered (R326, R340). -/
def State.chargeIn (s : State) (slot n : Nat) : State :=
  let t := (s.entry slot).tenant
  let l := s.ledger t
  let s0 := s.setLedger t { l with inLevel := l.inLevel - n }
  let s1 := { s0 with bal := { s0.bal with p := s0.bal.p + n } }
  if n ≠ 0 ∧ l.inLevel = n then s1.levelSpent t else s1

/-- D_in of the turn: T_in fixed from the arrival of the FEED with LAST 1 (log 21), the instants of held tokens raised to it (R103, R163),
and the position that the ingress verdict will name (R119). -/
def State.fixTIn (s : State) (slot : Nat) : State :=
  let x := s.edgeAt slot
  let e := s.entry slot
  match s.sessionPolicy slot x.turnImage with
  | none => s
  | some (_, p) =>
    let t := s.cmi.arrival + fineOf (p.dInA + p.dInB * e.promptLen)
    s.setEdge slot { x with fedLast := true, tIn := some t, held := x.held.map (fun k => { k with release := max k.release t }),
                            lastRelease := if x.held.isEmpty then x.lastRelease else max x.lastRelease t,
                            stopPending := x.stopPending.map (fun q => (q.1, max q.2 t)),
                            turnPos := (if e.promptLen = 0 then e.length else x.promptEnd) - 1 }

/-- A FEED forwarded to the home, its reply held (R314, R358): on this gate the blocks it completed are awaited. -/
def State.feedHome (s : State) (slot : Nat) (i : Issuer) (ws : List Word) (first last : Bool) (toks : List Nat) (pos idx : Nat) : State :=
  let e := s.entry slot
  if e.home then
    let before := (s.homeAt slot).hashQ.length
    let s1 := s.homeFeed slot first last toks pos idx s.imgGen s.cmi.arrival
    let h := s1.homeAt slot
    if h.hashQ.length = before then s1.reply i .ok (s1.feedResult slot e.length)
    else (s1.setHome slot { h with feeds := h.feeds ++ [{ issuer := i, length := e.length, blocks := h.hashQ.length }] }).holdReply slot i
  else (s.holdReply slot i).forward e.homeGate ws i (some slot)

/-- What a FEED to a remote home is about to change (R101). -/
def State.undoOf (s : State) (slot n : Nat) : FeedUndo :=
  let e := s.entry slot
  let x := s.edgeAt slot
  { length := e.length, promptLen := e.promptLen, outCount := e.outCount, stop := e.stop, inTotal := e.inTotal, tokens := n,
    turnOpen := x.turnOpen, turnStart := x.turnStart, promptEnd := x.promptEnd, base := x.base }

/-- A FEED that the home refused: nothing was fed (R101). -/
def State.undoFeed (s : State) (slot : Nat) : State :=
  let x := s.edgeAt slot
  match x.undo with
  | none => s
  | some u =>
    let e := s.entry slot
    let l := s.ledger e.tenant
    let s1 := s.setEntry slot { e with length := u.length, promptLen := u.promptLen, outCount := u.outCount, stop := u.stop, inTotal := u.inTotal }
    let s2 := s1.setLedger e.tenant { l with inLevel := l.inLevel + u.tokens }
    let s3 : State := { s2 with bal := { s2.bal with p := s2.bal.p - u.tokens } }
    s3.setEdge slot { x with turnOpen := u.turnOpen, fedLast := false, turnStart := u.turnStart, promptEnd := u.promptEnd, tIn := none,
                             held := [], stopPending := none, base := u.base, undo := none }

/-- SESSION_FEED accepted at the edge (R101 to R103, R111). -/
def State.feedAccepted (s : State) (slot : Nat) (i : Issuer) (w : Word) (ws : List Word) (toks : List Nat) : State :=
  let x0 := s.edgeAt slot
  let s0 := if x0.turnOpen && x0.fedLast then s.endStream slot .nextTurn (s.withheldFrom slot) else s
  let undo := if (s.entry slot).home then none else some (s0.undoOf slot toks.length)
  let first := !(s0.edgeAt slot).turnOpen
  let s1 := (if first then s0.openTurn slot else s0).chargeIn slot toks.length
  let e := s1.entry slot
  let s2 := s1.writeIn slot e.length toks
  let e2 := s2.entry slot
  let n := toks.length
  let s3 := s2.setEntry slot { e2 with length := e.length + n, promptLen := e.promptLen + n, inTotal := satAdd 32 e.inTotal n }
  let x3 := s3.edgeAt slot
  let s4 := s3.setEdge slot { x3 with base := if n = 0 ∧ first = false then x3.base else e.length + n,
                                      promptEnd := if n = 0 then x3.promptEnd else e.length + n, undo := undo }
  let s5 := if feedLast w then s4.fixTIn slot else s4
  s5.feedHome slot i ws first (feedLast w) toks e.length e.promptLen

/-- SESSION_FEED on a slot that passed its checks (R101, R326, R357). -/
def State.feedSession (s : State) (i : Issuer) (ps ws : List Word) (slot : Nat) : State :=
  let toks := unpackToks (ps.drop 1) (feedCount (wat ps 0))
  let s0 := s.streamDue slot
  let e := s0.entry slot
  if e.state ≠ .live ∨ e.pendOp ≠ 0 then s0.answer i .busy
  else
    match s0.feedCheck slot toks with
    | some .noBudget =>
      let l := s0.ledger e.tenant
      (s0.setLedger e.tenant { l with inRefused := satAdd 32 l.inRefused toks.length }).answer i .noBudget
    | some st => s0.answer i st
    | none => s0.feedAccepted slot i (wat ps 0) ws toks

/-- The header that a forwarded command carries: the issuer's. -/
def cmdHeader (i : Issuer) (n : Nat) : Word :=
  pack [(i.op, 63, 56), (1, 55, 52), (i.part, 51, 46), (i.tag, 43, 28), (n, 27, 12)]

/-- SESSION_FEED. -/
def State.onSessionFeed (s : State) : State :=
  s.runCmd 0x11 anyone feedLen feedStray (fun i ps s =>
    s.session i (wat ps 0) s.hasEdge (·.edge) (fun slot => s.feedSession i ps (cmdHeader i ps.length :: ps) slot))

/-- SESSION_CLOSE on the home (R104, R105). -/
def State.closeHome (s : State) (i : Issuer) (slot : Nat) : State :=
  let e := s.entry slot
  match e.state with
  | .closing => s.answer i .noSession
  | .cancelled => s.answer i .noSession
  | .live =>
    match i.src with
    | none => if e.pendOp ≠ 0 then s.answer i .busy else (s.holdReply slot i).startClose slot .closed
    | some _ => (s.setHome slot { s.homeAt slot with closeFor := some i }).startClose slot .closed
  | .wintered =>
    match i.src with
    | none => if e.pendOp ≠ 0 then s.answer i .busy else (s.holdReply slot i).startClose slot .closed
    | some _ => (s.setHome slot { s.homeAt slot with closeFor := some i }).startClose slot .closed
  | _ => s.answer i .busy

/-- SESSION_CLOSE on the edge: forwarded to the home (R97, R105). -/
def State.closeEdge (s : State) (i : Issuer) (ws : List Word) (slot : Nat) : State :=
  let e := s.entry slot
  if e.state = .closing ∨ e.state = .cancelled then s.answer i .noSession
  else if e.state = .opening ∨ e.state = .speculating ∨ e.pendOp ≠ 0 then s.answer i .busy
  else (s.holdReply slot i).forward e.homeGate ws i (some slot)

/-- SESSION_CLOSE. -/
def State.onSessionClose (s : State) : State :=
  s.runCmd 0x12 anyone (fixed 1) strayH (fun i ps s =>
    s.session i (wat ps 0) (s.hasEdge || s.hasHome) (fun e => e.edge || e.home) (fun slot =>
      if (s.entry slot).home then s.closeHome i slot else s.closeEdge i (cmdHeader i 1 :: ps) slot))

/-- SESSION_CANCEL (R107, R110). -/
def State.onSessionCancel (s : State) : State :=
  s.runCmd 0x13 anyone (fixed 1) strayH (fun i ps s =>
    s.session i (wat ps 0) true (fun _ => true) (fun slot =>
      if (s.entry slot).state = .cancelled then s.answer i .noSession else (s.cancelAll slot .host).answer i .ok))

/-- The slot that a waiting SESSION_QUERY will read, when it passes orders 3 to 8 of R352. -/
def State.queried (s : State) : Option Nat :=
  match s.nextPkt with
  | some (smp, k) =>
    let i := pktIssuer smp k
    let ps := k.words.drop 1
    if i.op = 0x16 ∧ s.popPkt.check5 i (wat k.words 0) = none ∧ s.popPkt.check8 i anyone (fixed 1) strayH ps = none
        ∧ s.matches (hdlOf (wat ps 0)) = true then some (hdlSlot (hdlOf (wat ps 0)))
    else none
  | none => none

/-- SESSION_QUERY: the entry's words, checked as they are read (R92, R113). -/
def State.onSessionQuery (s0 : State) (find : WordFind) : State :=
  let s1 := State.refuseUnknown s0.pktCount s0
  let s2 := match s1.queried with | some slot => s1.entryCheck slot find | none => s1
  (s2.runCmd 0x16 anyone (fixed 1) strayH (fun i ps s =>
    s.session i (wat ps 0) true (fun _ => true) (fun slot => s.reply i .ok (s.entry slot).words)))

/-- The stop set of an entry replaced; at the home its automata take slots 24 to 31 at START before the next committed token that is
screened (R145, R190). -/
def State.setStops (s : State) (slot k tok : Nat) (en : Bool) : State :=
  s.setEntry slot { s.entry slot with stopSet := k, endToken := tok, endEn := en }

/-- W1 of STOP_SET (R359). -/
def stopsOf (w : Word) : Nat × Nat × Bool := (bf w 63 52, bf w 51 34, bit w 33)

/-- STOP_SET at a gate of the session: `fwd` the packet to forward when the home is another gate. -/
def State.stopSetAt (s : State) (i : Issuer) (w : Word) (fwd : List Word) (slot : Nat) : State :=
  let e := s.entry slot
  let q := stopsOf w
  let sets := match s.img.force with | some im => (s.patHdr im).stopsets | none => 0
  if e.state = .opening ∨ e.state = .closing ∨ e.state = .cancelled then s.answer i .busy
  else if sets ≤ q.1 then s.answer i .badImage
  else if e.home then (s.setStops slot q.1 q.2.1 q.2.2).answer i .ok
  else if e.pendOp ≠ 0 then s.answer i .busy
  else ((s.setStops slot q.1 q.2.1 q.2.2).holdReply slot i).forward e.homeGate fwd i (some slot)

/-- STOP_SET. -/
def State.onStopSet (s : State) : State :=
  s.runCmd 0x17 anyone (fixed 2) (fun ps => strayH ps || stray (wat ps 1) [(63, 33)]) (fun i ps s =>
    s.session i (wat ps 0) s.hasEdge (·.edge) (fun slot => s.stopSetAt i (wat ps 1) (cmdHeader i 2 :: ps) slot))

/-- DRAFT_RESOLVE at the edge (R133 to R135, R143, R146). -/
def State.resolveAt (s : State) (i : Issuer) (c n slot : Nat) : State :=
  let e := s.entry slot
  let x := s.edgeAt slot
  if e.state = .cancelled then s.answer i .noSession
  else if !(x.mark && x.stopPending.isNone && (e.state == .speculating || (e.state == .live && x.step.isSome && !x.drafts.isEmpty))) then s.answer i .busy
  else if x.stored c < n then s.answer i .busy
  else
    match s.resolveStep slot c n s.cmi.arrival with
    | (s1, none) => s1.answer i .noSession
    | (s1, some k) => s1.reply i .ok [pack [(k, 63, 60), ((s1.entry slot).length, 59, 40)]]

/-- DRAFT_RESOLVE. -/
def State.onDraftResolve (s : State) : State :=
  s.runCmd 0x18 anyone (fixed 2)
    (fun ps => strayH ps || stray (wat ps 1) [(63, 58)] || decide (8 < bf (wat ps 1) 61 58)) (fun i ps s =>
      s.session i (wat ps 0) s.hasEdge (·.edge) (fun slot => s.resolveAt i (bf (wat ps 1) 63 62) (bf (wat ps 1) 61 58) slot))

end Sys2Proof.Machine
end

