-- ==== Sys2Proof/Machine/TenantCmd.lean ====
section
/-! DEFINITION. Tenants and partitions (R323 to R337): the ledger commands, PARTITION_CONFIG and PARTITION_RESET. -/
namespace Sys2Proof.Machine

/-- A tenant command: the partition owns the tenant that W0 [63:50] names (R354). -/
def State.tenantCmd (s : State) (i : Issuer) (ps : List Word) (act : Nat → State) : State :=
  let t := bf (wat ps 0) 63 50
  if s.ownerOf t = some i.part then act t else s.answer i .deniedPartition

/-- Vector 1 for each level of a tenant that a write of its ledger took to zero or below (R329, R336). -/
def State.levelsGone (s : State) (t : Nat) (old : Ledger) : State :=
  let l := s.ledger t
  let gone := [old.inLevel != 0 && l.inLevel == 0, old.outLevel != 0 && l.outLevel == 0, decide (0 < old.pkLevel) && decide (l.pkLevel ≤ 0)]
  (gone.filter (fun g => g)).foldl (fun s _ => s.levelSpent t) s

/-- TENANT_SET's effect (R324): clearing VALID takes the levels to zero. -/
def State.setTenant (s : State) (t : Nat) (valid : Bool) (weight : Nat) (salt : Word) : State :=
  let l := s.ledger t
  if valid then s.setLedger t { l with valid := true, weight := weight, salt := salt }
  else
    (s.setLedger t { Ledger.zero with sessions := l.sessions, held := l.held, inRefused := l.inRefused, outRefused := l.outRefused }).levelsGone t l

/-- TENANT_SET. -/
def State.onTenantSet (s : State) : State :=
  s.runCmd 0x20 anyone (fixed 2)
    (fun ps => stray (wat ps 0) [(63, 41)] || (bit (wat ps 0) 49 && bf (wat ps 0) 48 41 == 0)) (fun i ps s =>
      s.tenantCmd i ps (fun t =>
        if (s.ledger t).sessions ≠ 0 then s.answer i .notIdle
        else (s.setTenant t (bit (wat ps 0) 49) (bf (wat ps 0) 48 41) (wat ps 1)).answer i .ok))

/-- A bucket of a ledger: 0 input, 1 output, 2 parked (R325). -/
def Ledger.level (l : Ledger) (b : Nat) : Int := if b = 0 then (l.inLevel : Int) else if b = 1 then (l.outLevel : Int) else l.pkLevel
def Ledger.burst (l : Ledger) (b : Nat) : Nat := if b = 0 then l.inBurst else if b = 1 then l.outBurst else l.pkBurst
/-- The rate, burst and level of a bucket written. -/
def Ledger.setBucket (l : Ledger) (b rate burst : Nat) (level : Int) : Ledger :=
  if b = 0 then { l with inRate := rate, inBurst := burst, inLevel := level.toNat }
  else if b = 1 then { l with outRate := rate, outBurst := burst, outLevel := level.toNat }
  else { l with pkRate := rate, pkBurst := burst, pkLevel := level }

/-- The level after a grant's operation and clamp (R325); a parked sum below the field's range stays at its least value (log 17). -/
def grantLevel (b op burst : Nat) (old value : Int) : Int :=
  let v := if op = 0 then old else if op = 1 then value else old + value
  let lo : Int := if b = 2 then -(2 ^ 47) else 0
  max lo (min v (burst : Int))

/-- The sum of a bucket's bursts over the valid tenants, tenant `t` with `burst` (R325). -/
def State.burstSum (s : State) (b t burst : Nat) : Nat :=
  s.ledgers.foldl (fun n c => if c.2.valid && c.1 != t then n + c.2.burst b else n) burst

/-- The image's burst allowance covers a grant (R325): checked for input and output, while an image is committed. -/
def State.burstOk (s : State) (b t burst : Nat) : Bool :=
  match s.meter with
  | none => true
  | some m => b == 2 || decide (s.burstSum b t burst ≤ if b = 0 then m.burstIn else m.burstOut)

/-- A ledger's bucket written, vector 1 when it takes the level to zero or below (R329, R336). -/
def State.setLevel (s : State) (t b rate burst : Nat) (level : Int) : State :=
  let l := s.ledger t
  let s1 := s.setLedger t (l.setBucket b rate burst level)
  if 0 < l.level b ∧ level ≤ 0 then s1.levelSpent t else s1

/-- Order 8 of BUDGET_GRANT (R352, R359). -/
def grantStray (ps : List Word) : Bool :=
  let b := bf (wat ps 0) 49 48
  let op := bf (wat ps 0) 47 46
  let v := (wat ps 2).toInt
  stray (wat ps 0) [(63, 22)] || stray (wat ps 1) [(63, 32)] || b == 3 || op == 3 || (op == 0 && v != 0)
    || (b == 2 && !(decide (-(2 ^ 47 : Int) ≤ v) && decide (v < (2 ^ 47 : Int))))

/-- BUDGET_GRANT. -/
def State.onBudgetGrant (s : State) : State :=
  s.runCmd 0x21 anyone (fixed 3) grantStray (fun i ps s =>
    s.tenantCmd i ps (fun t =>
      let b := bf (wat ps 0) 49 48
      let burst := bf (wat ps 1) 63 32
      let l := s.ledger t
      if !l.valid || !s.burstOk b t burst then s.answer i .busy
      else
        let v := grantLevel b (bf (wat ps 0) 47 46) burst (l.level b) (wat ps 2).toInt
        (s.setLevel t b (bf (wat ps 0) 45 22) burst v).reply i .ok [BitVec.ofInt 64 v]))

/-- BUDGET_READ: the entry with SALT zero (R325). -/
def State.onBudgetRead (s : State) : State :=
  s.runCmd 0x22 anyone (fixed 1) (fun ps => stray (wat ps 0) [(63, 50)]) (fun i ps s =>
    s.tenantCmd i ps (fun t => s.reply i .ok ((s.ledger t).words.set 1 0#64)))

/-- Whether two ranges of tenants overlap. -/
def overlap (a n b k : Nat) : Bool := decide (0 < n) && decide (0 < k) && decide (a < b + k) && decide (b < a + n)

/-- The held replies and waiting packets of a partition: its commands in progress (R337, R369). -/
def State.busyPart (s : State) (p : Nat) : Bool :=
  !(s.part p).ring.isEmpty || s.waitingIssuers.any (fun i => i.part == p)

/-- Whether PARTITION_CONFIG takes from partition `p` a tenant with SESSIONS or VALID (R334). -/
def State.takesTenant (s : State) (p base count : Nat) (on : Bool) : Bool :=
  let q := s.part p
  s.partOn p && s.ledgers.any (fun c =>
    decide (q.base ≤ c.1) && decide (c.1 < q.base + q.count) && !(on && decide (base ≤ c.1) && decide (c.1 < base + count))
      && (c.2.sessions != 0 || c.2.valid))

/-- PARTITION_CONFIG's own preconditions (R334, R369). -/
def State.configCheck (s : State) (p base count : Nat) (on : Bool) : Option Status :=
  if (List.range 64).any (fun o => o != p && s.partOn o && overlap base count (s.part o).base (s.part o).count) || decide (16384 < base + count) then some .busy
  else if s.takesTenant p base count on then some .notIdle
  else if !on && s.partOn p && s.busyPart p then some .notIdle
  else none

/-- PARTITION_CONFIG. -/
def State.onPartitionConfig (s : State) : State :=
  s.runCmd 0x48 onlyP0 (fixed 1)
    (fun ps => stray (wat ps 0) [(63, 20)] || decide (16384 < bf (wat ps 0) 34 20)) (fun i ps s =>
      let w := wat ps 0
      let p := bf w 63 58
      let on := p == 0 || bit w 57
      match s.configCheck p (bf w 48 35) (bf w 34 20) on with
      | some st => s.answer i st
      | none =>
        (s.setPart p { s.part p with enabled := p != 0 && on, share := bf w 56 49, base := bf w 48 35, count := bf w 34 20 }).answer i .ok)

/-- The partition is idle but for the reset itself (R114, R337). -/
def State.partIdle (s : State) (p : Nat) : Bool :=
  s.entries.all (fun c => c.2.part != p || c.2.state == .free || c.2.state == .wintered) && !s.busyPart p

/-- Steps 1 and 2 of a PARTITION_RESET (R337): its WINTERED sessions cancelled. -/
def State.startPartReset (s : State) (i : Issuer) (p : Nat) : State :=
  let s1 := s.setPart p { s.part p with resetting := true }
  let r : PartRst := { part := p, start := s1.tm.refclk, since := s1.fine, cleared := false, issuer := i }
  let s2 : State := { s1 with rs := { s1.rs with parts := s1.rs.parts ++ [r] } }
  ((s2.entries.filter (fun c => c.2.part == p && c.2.state == .wintered)).map (·.1)).foldl (fun s n => s.cancelAll n .partitionReset) s2

/-- PARTITION_RESET: issued by the partition, by partition 0 or over SMP (R337). -/
def State.onPartitionReset (s : State) : State :=
  s.runCmd 0x49 (fun i ps => i.isP0 || ps.isEmpty || i.part == bf (wat ps 0) 63 58) (fixed 1)
    (fun ps => stray (wat ps 0) [(63, 58)]) (fun i ps s =>
      let p := bf (wat ps 0) 63 58
      if s.partIdle p then s.startPartReset i p else s.answer i .notIdle)

/-- Step 3 of a PARTITION_RESET: PT_INT and the counters (R337). -/
def Partn.cleared (q : Partn) : Partn :=
  { q with intEn := 0, intPend := 0, intAgain := 0, evTime := List.replicate 8 0, repTime := List.replicate 8 0, staleDrops := 0,
           stateDrops := 0, lateVerdicts := 0, reruns := 0, degradedItems := 0, ringOvf := 0 }

/-- Step 4 of a PARTITION_RESET: packets accepted again; the version and the row window are as after a reset (R295, R337, R355). -/
def Partn.afterReset (q : Partn) : Partn := { q with refusedBusy := false, resetting := false, version := none, win := RowWin.zero }

/-- Step 3 of a partition reset: PT_INT and the counters zero, waiting messages discarded, in the next gclk cycle (R337, R346). -/
def State.clearPart (s : State) (r : PartRst) : State :=
  if r.cleared || decide (s.cycleOf s.fine ≤ s.cycleOf r.since) then s
  else
    let s1 := { s with rs := { s.rs with parts := s.rs.parts.map (fun x => if x = r then { r with cleared := true } else x) },
                       ints := s.ints.filter (fun x => x.part != r.part) }
    s1.setPart r.part (s1.part r.part).cleared

/-- Step 3 of every partition reset in progress. -/
def State.clearParts (s : State) : State := s.rs.parts.foldl State.clearPart s

/-- PARTITION_RESET_DONE: step 4, no sooner than 4,096 REFCLK cycles after acceptance (R337, R421). -/
def State.onPartitionResetDone (s1 : State) (part : Nat) : State :=
  match s1.rs.parts.find? (fun r => r.part == part && r.cleared && decide (r.start + 4096 ≤ s1.tm.refclk)) with
  | none => s1
  | some r =>
    if (s1.part part).win.busy then s1
    else
      let s2 := { s1 with rs := { s1.rs with parts := s1.rs.parts.filter (· != r) } }
      ((s2.setPart part (s2.part part).afterReset).answer r.issuer .ok)

end Sys2Proof.Machine
end

