-- ==== Sys2Proof/Machine/Lanes.lean ====
section
/-! DEFINITION. The slots of the FSP lanes (R40 to R61, R72 to R76, R496, R497): numbering and checks, slips, intake of ingress
items, what an egress slot carries, the end of winterings and springs. -/
namespace Sys2Proof.Machine

/-- A lane of a direction. -/
def State.laneAt (s : State) (egress : Bool) (l : Nat) : Lane := if egress then s.outLaneAt l else s.inLaneAt l
def State.setLane (s : State) (egress : Bool) (l : Nat) (v : Lane) : State := if egress then s.setOutLane l v else s.setInLane l v

/-- The gate time at which a lane's slot starts, in units of 2^-16 ns, by the kept measurement of fclk (R55). While the lane's
first start is awaited, slot 0 is taken at the tick (log 20). -/
def State.slotTime (s : State) (egress : Bool) (l slot : Nat) : Option Nat :=
  let v := s.laneAt egress l
  match s.fsp.fclkKept with
  | none => none
  | some e =>
    if e = 0 ∨ v.period = 0 then none
    else some ((match v.awaiting with | some t => t * 2 ^ 36 | none => v.slot0) + slot * v.period * 2 ^ 36 / e)

/-- The staged lead of an egress lane, or the free space kept on an ingress lane (R45, R46). -/
def State.leadItems (s : State) (egress : Bool) : Nat :=
  match s.contract with
  | some c => c.depthRefresh + c.depthLatency + c.depthThrottle + (if egress then 0 else c.depthHrp)
  | none => 0

/-- The partition of a session by its handle; partition 0 for none (R53). -/
def State.partOf (s : State) (h : Nat) : Nat := if h ≠ 0 ∧ s.matches h = true then (s.entry (hdlSlot h)).part else 0

/-- The sources that used the reserve within a run's lead window (R52): what the fabric side saw, a late ring message of the session,
a throttle step. -/
def State.slipSources (s : State) (egress : Bool) (l slot h stalls : Nat) : Nat :=
  let from' := (s.slotTime egress l (slot - s.leadItems egress)).getD 0
  let late := match (s.slotAt (hdlSlot h)).lateAt with | some t => decide (h ≠ 0) && decide (from' ≤ t) | none => false
  let thr := match s.clk.pausedAt with | some t => decide (from' ≤ t) | none => false
  stalls % 8 + 8 * b2n late + 16 * b2n thr

/-- A slip event in the log, if it has room (R51, R52). -/
def State.logSlip (s : State) (ev : SlipEv) : State :=
  if s.fsp.slipLog.length < 64 then { s with fsp := { s.fsp with slipLog := s.fsp.slipLog ++ [ev] } }
  else { s with fsp := { s.fsp with slipOvf := true } }

/-- One more slot of a run counted in its entry, if the log still holds it (R51); SOURCES are those of the run's own lead window, which
ends at its first slot (R52). -/
def SlipEv.grow (ev : SlipEv) (egress : Bool) (l h slot : Nat) : SlipEv :=
  if ev.lane = l ∧ ev.egress = egress ∧ ev.handle = h ∧ ev.slot + ev.count = slot then { ev with count := min (ev.count + 1) 0xFFFFF }
  else ev

/-- A slipped slot (R50 to R53): counted when a reserve was exhausted, and one event for the run it belongs to. -/
def State.slip (s : State) (egress : Bool) (l slot h sources : Nat) (counted : Bool) : State :=
  let v := s.laneAt egress l
  let s1 := s.setLane egress l { v with slip := if counted then satAdd 32 v.slip 1 else v.slip, run := some (h, slot + 1) }
  if v.run = some (h, slot) then
    { s1 with fsp := { s1.fsp with slipLog := s1.fsp.slipLog.map (fun ev => ev.grow egress l h slot) } }
  else
    (s1.logSlip { time := s1.now, slot := slot, lane := l, egress := egress, variant := s1.bal.active, handle := h, count := 1,
                  sources := sources }).raise (s1.partOf h) 3

/-- A slot start against the lane's declared period (R57, R58): the slot's number, or none for a violation. `gap` counts fclk since
the lane's last slot start, or since the tick that changed its period (log 2). -/
def Lane.advance (v : Lane) (gap : Nat) : Option Nat :=
  if v.period = 0 then none
  else
    match v.awaiting with
    | some _ => if gap < v.period then some 0 else none
    | none => if gap = v.period then some v.nextSlot else none

/-- The lane after a good slot start. -/
def State.started (s : State) (egress : Bool) (l n : Nat) : State :=
  let v := s.laneAt egress l
  let slot0 := if v.awaiting.isSome then s.fine else v.slot0
  s.setLane egress l { v with nextSlot := (n + 1) % 2 ^ 48, slot0 := slot0, awaiting := none,
                              dead := v.dead.filter (fun d => decide (n < d.stop) || v.fifo.items.any (fun x => decide (x.1 < d.stop))) }

/-- A contract violation on a lane (R57). -/
def State.overrun (s : State) (egress : Bool) (l : Nat) : State :=
  let v := s.laneAt egress l
  s.jobFault .contract (Obj.lane l egress) none (pack [(if v.awaiting.isSome then 0 else v.nextSlot, 63, 16)])

/-- An operation that writes pages from an ingress lane. -/
def OpKind.writes : OpKind → Bool
  | .spring _ => false
  | _ => true

/-- The operation that owes a slot of a lane. -/
def State.opAt (s : State) (egress : Bool) (l slot : Nat) : Option TierOp :=
  s.tier.ops.find? (fun o => o.kind.writes != egress && o.lane == l && decide (o.first ≤ slot) && decide (slot < o.first + o.total))

/-- The slots of an operation that ended early. -/
def Lane.deadAt (v : Lane) (slot : Nat) : Option Dead := v.dead.find? (fun d => decide (d.first ≤ slot) && decide (slot < d.stop))

/-- An operation changed in place. -/
def State.setOp (s : State) (o n : TierOp) : State :=
  { s with tier := { s.tier with ops := setFirst (· == o) (fun _ => n) s.tier.ops } }

/-- The handle of an operation's session; 0 for an adapter load. -/
def State.opHandle (s : State) (o : TierOp) : Nat := match o.kind.slot? with | some n => s.handle n | none => 0

/-- The held reply of an operation ends. -/
def State.opReply (s : State) (o : TierOp) (st : Status) (result : List Word) : State :=
  match o.kind.slot? with
  | some n => s.endPendWith n st result
  | none => s.reply o.issuer st result

/-- The state of a session after its operation is abandoned (R47, R48, R95): a new relay entry is FREE again,
and a relay kind that joined the entry with it is gone. -/
def State.abandonEntry (s : State) (k : OpKind) : State :=
  match k with
  | .winter n true _ => s.freeEntry n
  | .winter n false joined => s.setEntry n { s.entry n with state := .live, relay := (s.entry n).relay && !joined }
  | .spring n => s.setEntry n { s.entry n with state := .wintered }
  | _ => s

/-- An operation abandoned (R47, R48): its reply ends with SLIPPED, its partial pages are freed, its remaining slots slip when
`slips`, counted when `counted`. -/
def State.abandon (s : State) (o : TierOp) (slips counted : Bool) : State :=
  ((((s.deadOp o slips counted).opReply o .slipped []).freeOpPages o).endOp o).abandonEntry o.kind

/-- A slot of an abandoned operation (R42, R50). -/
def State.deadSlot (s : State) (egress : Bool) (l slot stalls : Nat) (d : Dead) : State :=
  if d.slips then s.slip egress l slot d.handle (if d.counted then s.slipSources egress l slot d.handle stalls else 0) d.counted
  else s

/-- An operation abandoned at a slot of its lane, which slips (R45, R47, R48, R304). -/
def State.abandonAt (s : State) (egress : Bool) (o : TierOp) (slot stalls : Nat) (counted : Bool) : State :=
  let h := s.opHandle o
  let src := if counted then s.slipSources egress o.lane slot h stalls else 0
  (s.slip egress o.lane slot h src counted).abandon o true counted

/-- What an ingress item must be at index `i` of an operation's slice (R304). -/
def State.goodItem (s : State) (o : TierOp) (i : Nat) (it : Item) : Bool :=
  let w := it.w0
  let named := match o.kind with
    | .adapterLoad _ => true
    | .winter n _ _ => wSlot w == n && wGen w == (s.entry n).gen
    | .publish n _ => wSlot w == n && wGen w == (s.entry n).gen
    | .spring _ => false
  wKind w == 5 && wClass w == 0 && named && wIndex w == i && (wEnd w == (i + 1 == o.total))

/-- Bound for HRP: logits and draft-head outputs (R40, R121). -/
def hrpBound (it : Item) : Bool := wKind it.w0 == 5 && (wClass it.w0 == 1 || wClass it.w0 == 2)

/-- A dropped stream word counted for the matching session's partition, else partition 0 (R116). -/
def State.wordDrop (s : State) (w : Word) : State :=
  let e := s.entry (wSlot w)
  s.stateDrop (if e.state != .free && e.gen == wGen w then e.part else 0)

/-- The session check of a PAYLOAD item at ingress intake (R88, R89): `ok` tells whether the entry accepts it. -/
def State.itemIntake (s : State) (it : Item) (ok : Entry → Bool) : State :=
  let e := s.entry (wSlot it.w0)
  if e.state = .free ∨ e.gen ≠ wGen it.w0 then s.staleDrop 0
  else if ok e then s.tell (wSlot it.w0) (itemWords it)
  else s.stateDrop e.part

/-- An item leaves an ingress slot FIFO (R40, R49, R84, R94, R116, R121): to the parking engine, to HRP, or dropped. The items of an
abandoned wintering are discarded (R48); those of slots no longer owed after a cancel meet the session check (R89, R107). -/
def State.intake (s : State) (l tag : Nat) (it : Item) : State :=
  match s.opAt false l tag with
  | some o => s.setOp o { o with buf := o.buf ++ [(itemWords it).drop 1], staged := o.staged + 1 }
  | none =>
    if ((s.inLaneAt l).deadAt tag).any (·.slips) then s
    else if hrpBound it then s.itemIntake it (fun e => e.edge && (e.state == .live || e.state == .speculating))
    else if wKind it.w0 = 5 then
      if wClass it.w0 = 3 then s.wordDrop it.w0 else s.itemIntake it (fun _ => false)
    else (itemWords it).foldl (fun s w => if w = idleWord then s else s.wordDrop w) s

/-- Items taken from an ingress slot FIFO, oldest first (R72). -/
def State.drain : Nat → State → Nat → State
  | 0, s, _ => s
  | n + 1, s, l =>
    let v := s.inLaneAt l
    match v.fifo.items with
    | (tag, it) :: _ => State.drain n ((s.setInLane l { v with fifo := v.fifo.pop }).intake l tag it) l
    | [] => s

/-- What the code check of the words read from a slot FIFO finds (R84, R455). -/
def State.fifoCheck (s : State) (egress : Bool) (l : Nat) (f : Find) : State :=
  match f with
  | .clean => s
  | .corrected => s.bumpCe (b2n egress) l 1
  | .bad => s.jobFault .fifoUe (Obj.lane l egress) none 0

/-- A full ingress FIFO discards an item bound for HRP: a slip, and the session is told (R45, R49, R50, R74). -/
def State.lostHrp (s : State) (l slot stalls : Nat) (it : Item) : State :=
  let n := wSlot it.w0
  let e := s.entry n
  if e.state != .free && e.gen == wGen it.w0 then
    let h := s.handle n
    (s.slip false l slot h (s.slipSources false l slot h stalls) true).setSlot n { s.slotAt n with slipped := insertNat l (s.slotAt n).slipped }
  else s.slip false l slot 0 (s.slipSources false l slot 0 stalls) true

/-- The item of an ingress slot that started well (R45, R48, R74, R107, R304). -/
def State.arrive (s : State) (l slot stalls : Nat) (it : Item) : State :=
  let v := s.inLaneAt l
  let full := v.fifo.full
  let ovf (s : State) : State := s.setInLane l { s.inLaneAt l with fifo := { (s.inLaneAt l).fifo with ovf := true } }
  match s.opAt false l slot with
  | some o =>
    if full then (ovf s).abandonAt false o slot stalls true
    else if s.goodItem o (slot - o.first) it then
      (s.setInLane l { v with fifo := v.fifo.push slot it }).setOp o { o with done := slot + 1 - o.first }
    else s.abandonAt false o slot stalls false
  | none =>
    match v.deadAt slot |>.filter (·.slips) with
    | some d => (if full then ovf s else s).deadSlot false l slot stalls d
    | none =>
      if !full then s.setInLane l { v with fifo := v.fifo.push slot it }
      else if hrpBound it then (ovf s).lostHrp l slot stalls it
      else ovf s

/-- FSP_INGRESS_SLOT: `taken` items leave the lane's FIFO before the slot starts (R69). With no contract every item is taken and
discarded (R43). -/
def State.onFspIngressSlot (s1 : State) (lane gap : Nat) (item : Item) (taken : Nat) (find : Find) (stalls : Nat) : State :=
  if s1.inReset || s1.contract.isNone || decide (4 ≤ lane) then s1
  else
    let some' := decide (0 < taken) && !(s1.inLaneAt lane).fifo.items.isEmpty
    let s2 := if some' then s1.fifoCheck false lane find else s1
    if s2.inReset then s2
    else
      let s3 := State.drain taken s2 lane
      match (s3.inLaneAt lane).advance gap with
      | none => (s3.overrun false lane)
      | some n => ((s3.started false lane n).arrive lane n stalls item)

/-- The item of an egress slot in place of staged items: up to eight words of the release queue, the rest idle (R125). -/
def fillItem (ws : List Word) : Item := itemOf idleWord ws

/-- What an egress slot carries goes out on the lane (R497). -/
def State.drive (s : State) (l : Nat) (it : Item) : State := { s with fspOut := s.fspOut.set l (some it) }

/-- A spring ends at the delivery of its last item (R95, R96, R308). -/
def State.springDone (s : State) (o : TierOp) (slot : Nat) : State :=
  let s1 := s.setEntry slot { s.entry slot with state := .live }
  (s1.endPend slot .ok).endOp o

/-- Springs of no items end at the start of their target slot (R111). -/
def State.emptySprings (s : State) (l slot : Nat) : State :=
  (s.tier.ops.filter (fun o => o.lane == l && o.total == 0 && decide (o.first ≤ slot))).foldl (fun s o =>
    match o.kind with | .spring n => s.springDone o n | _ => s) s

/-- The release queue of a lane fills the slot (R41, R125); on a gate with no role the slot is idle (R27). -/
def State.fillSlot (s : State) (l : Nat) (find : Find) : State :=
  let r := (s.relqAt l).take
  if s.role = 0 ∨ r.2.isEmpty = true then s.drive l idleItem
  else
    match find with
    | .clean => (s.setRelq l r.1).drive l (fillItem r.2)
    | .corrected => ((s.setRelq l r.1).ceRelq (l % s.grade.regions)).drive l (fillItem r.2)
    | .bad => (s.setRelq l r.1).jobFault .releaseUe (Obj.lane l true) none 0

/-- The staged item of an egress slot is taken (R72, R73, R305). -/
def State.deliver (s : State) (l slot : Nat) (o : TierOp) (it : Item) (find : Find) : State :=
  let v := s.outLaneAt l
  let s1 := (s.setOutLane l { v with fifo := v.fifo.pop }).fifoCheck true l find
  if s1.inReset then s1
  else
    let o1 := { o with done := slot + 1 - o.first }
    let s2 := (s1.setOp o o1).drive l it
    match o.kind with
    | .spring n => if o1.done = o1.total then s2.springDone o1 n else s2
    | _ => s2

/-- An egress slot that started well (R41, R42, R47, R73, R125). -/
def State.egressSlot (s : State) (l slot stalls : Nat) (find : Find) : State :=
  let s0 := s.emptySprings l slot
  let v := s0.outLaneAt l
  let f := SlotFifo.dropPast v.fifo.items.length v.fifo slot
  let s1 := s0.setOutLane l { v with fifo := f }
  match s1.opAt true l slot, f.items with
  | some o, (t, it) :: _ =>
    if t = slot then s1.deliver l slot o it find else (s1.abandonAt true o slot stalls true).drive l idleItem
  | some o, [] => (s1.abandonAt true o slot stalls true).drive l idleItem
  | none, _ =>
    match v.deadAt slot with
    | some d => if d.slips then (s1.deadSlot true l slot stalls d).drive l idleItem else s1.fillSlot l find
    | none => s1.fillSlot l find

/-- FSP_EGRESS_SLOT. -/
def State.onFspEgressSlot (s1 : State) (lane gap : Nat) (find : Find) (stalls : Nat) : State :=
  if s1.inReset || decide (4 ≤ lane) then s1
  else if s1.contract.isNone then (s1.drive lane idleItem)
  else
    match (s1.outLaneAt lane).advance gap with
    | none => (s1.overrun true lane)
    | some n => ((s1.started true lane n).egressSlot lane n stalls find)

/-- The instant by which the declared period calls for a lane's next slot start (R57, R58). -/
def State.startDue (s : State) (egress : Bool) (l : Nat) : Option Nat :=
  let v := s.laneAt egress l
  s.slotTime egress l (if v.awaiting.isSome then 1 else v.nextSlot)

/-- SLOT_START_MISSED: the slot start called for has not come (R57, R58). -/
def State.onSlotStartMissed (s1 : State) (egress : Bool) (lane : Nat) : State :=
  if s1.inReset || s1.contract.isNone then s1
  else
    match s1.startDue egress lane with
    | some t => (if t < s1.fine then s1.overrun egress lane else s1)
    | none => s1

/-- Whether any lane is in use in the active variant (R508). -/
def State.lanesInUse (s : State) : Bool := s.contract.isSome && (s.fsp.ingress ++ s.fsp.egress).any (fun v => v.period != 0)

/-- FSP_CLOCK_LOSS: no FSP_CLK edge for 1 µs of gate time while a lane is in use (R508). -/
def State.onFspClockLoss (s1 : State) : State :=
  if !s1.inReset && s1.lanesInUse then s1.jobFault .port Obj.none none 0 else s1

end Sys2Proof.Machine
end

