-- ==== Sys2Proof/Machine/TierCmd.lean ====
section
/-! DEFINITION. Winterings, springs, publishes, adapter loads and tier upkeep (R296 to R322, R333): the tier commands, the parking
engine's reads, the end of a write, scrubs. -/
namespace Sys2Proof.Machine

/-- Pages by the tick in which the slot of their first item starts (R333). -/
def tally : List Nat → List (Nat × Nat)
  | [] => []
  | t :: ts => let r := tally ts; (t, (r.find? (fun c => c.1 == t)).elim 1 (fun c => c.2 + 1)) :: r.filter (fun c => c.1 != t)

/-- The items at which the pages of slices begin, when the slices follow one another. -/
def pageStarts : Nat → List Slice → List Nat
  | _, [] => []
  | off, c :: cs => (List.range c.pages).map (fun k => off + 73 * k) ++ pageStarts (off + c.items) cs

/-- The booking of an operation whose pages begin at some items (R333); nothing with no limit set. -/
def State.bookingOf (s : State) (egress : Bool) (l first : Nat) (starts : List Nat) : List (Nat × Nat) :=
  if s.tierPages = 0 then [] else tally (starts.map (fun k => (s.slotTime egress l (first + k)).getD 0 >>> 36))

/-- What is booked in a tick: tenant and pages (R333). -/
def State.bookedAt (s : State) (j : Nat) : List (Option Nat × Nat) :=
  (s.tier.booked.filter (fun b => b.1 == j)).map (·.2) ++
    s.tier.ops.flatMap (fun o => (o.bookings.filter (fun b => b.1 == j)).map (fun b =>
      ((match o.kind with | .adapterLoad _ => none | _ => some o.tenant), b.2)))

/-- A booking passes the check (R333): `tenant` none for an adapter load. -/
def State.bookOk (s : State) (tenant : Option Nat) (bs : List (Nat × Nat)) : Bool :=
  bs.all (fun b =>
    let cur := s.bookedAt b.1
    if cur.foldl (fun n c => n + c.2) b.2 ≤ s.tierPages then true
    else
      match tenant with
      | none => false
      | some t =>
        let ts := ((t :: cur.filterMap (·.1))).eraseDups
        let wsum := ts.foldl (fun n u => n + (s.ledger u).weight) 0
        let mine := (cur.filter (fun c => c.1 == some t)).foldl (fun n c => n + c.2) b.2
        decide (mine ≤ s.tierPages * (s.ledger t).weight / wsum))

/-- The lead of a slot over the command's arrival: R304 and R55 ask for it, in units of 2^-16 ns. -/
def State.slotAfter (s : State) (egress : Bool) (l slot lead : Nat) (strict : Bool) : Bool :=
  match s.slotTime egress l slot with
  | some t => if strict then decide (s.cmi.arrival < t) else decide (s.cmi.arrival + lead ≤ t)
  | none => false

/-- What a write of `n` items needs, in order: the slot after the arrival, the tenant's parked budget, extents, the booking
(R302, R304, R326, R333). -/
def State.writeCheck (s : State) (tenant : Option Nat) (l first n : Nat) : Option Status :=
  let need := extentsOf (pagesOf n)
  if !s.slotAfter false l first 0 true then some .timeout
  else if (match tenant with | some t => decide ((s.ledger t).pkLevel ≤ 0) | none => false) then some .noBudget
  else if (s.freeExts need).length < need then some .noSpace
  else if !s.bookOk tenant (s.bookingOf false l first ((List.range (pagesOf n)).map (73 * ·))) then some .busy
  else none

/-- A write accepted: extents and HELD taken, the operation begun (R302, R304, R326). -/
def State.beginWrite (s : State) (k : OpKind) (i : Issuer) (tenant l first n ttl : Nat) : State :=
  let es := s.freeExts (extentsOf (pagesOf n))
  let bs := s.bookingOf false l first ((List.range (pagesOf n)).map (73 * ·))
  let o : TierOp := { kind := k, lane := l, first := first, total := n, done := 0, staged := 0, extents := es, slices := [],
                      buf := [], bookings := bs, tenant := tenant, ttl := ttl, issuer := i }
  let s1 := (s.takeExts es).keepAwake
  let s2 := match k with | .adapterLoad _ => s1 | _ => s1.addHeld tenant (pagesOf n)
  { s2 with tier := { s2.tier with ops := s2.tier.ops ++ [o] } }

/-- A slice parked (R96, R304, R309): the copy before it is freed, and the entry is WINTERED. -/
def State.install (s : State) (slot head pages ttl : Nat) : State :=
  let s1 := s.freeCopy slot
  let e := s1.entry slot
  s1.setEntry slot { e with state := .wintered, parked := true, plHead := head, plPages := pages, expiry := s1.expiryTick ttl }

/-- The entry that the first SESSION_PARK makes on a relay (R90, R95); its tenant is the first of the partition (log 18). -/
def State.relayEntry (s : State) (i : Issuer) (h : Nat) : Entry :=
  { Entry.zero with state := .live, relay := true, gen := hdlGen h, homeGate := hdlGate h, part := i.part,
                    tenant := (s.part i.part).base }

/-- SESSION_PARK on an entry that passed its checks (R30, R95, R111, R146, R304, R319, R343, R357); with neither a trained device nor a
contract, NO_SPACE (log 128). -/
def State.parkSlot (s : State) (i : Issuer) (slot l first n ttl : Nat) (fresh : Bool) : Option Status × State :=
  let e := s.entry slot
  if !s.tierOn then (some (if s.tierStarting then .busy else .noSpace), s)
  else if s.tierStarting || e.state != .live || e.pendOp != 0 || (s.edgeAt slot).mark || s.contract.isNone || s.lanePeriod 0 l == 0 || s.laneHeld l then
    (some .busy, s)
  else
    match s.writeCheck (some e.tenant) l first n with
    | some st => (some st, s)
    | none =>
      let s1 := s.setEntry slot { e with relay := true }
      if n = 0 then (some .ok, s1.install slot extEnd 0 ttl)
      else
        let s2 := (s1.setEntry slot { s1.entry slot with state := .wintering }).holdReply slot i
        (none, s2.beginWrite (.winter slot fresh (!e.relay)) i e.tenant l first n ttl)

/-- SESSION_PARK (R95, R304). -/
def State.park (s : State) (i : Issuer) (ps : List Word) : State :=
  let h := hdlOf (wat ps 0)
  let slot := hdlSlot h
  let run (t : State) (fresh : Bool) : State :=
    match t.parkSlot i slot (lLane (wat ps 1)) (lSlot (wat ps 1)) (bf (wat ps 2) 63 32) (bf (wat ps 2) 31 7) fresh with
    | (some .ok, u) => u.answer i .ok
    | (some st, _) => s.answer i st
    | (none, u) => u
  if (s.entry slot).state = .free ∧ hdlGate h ≠ s.gate then
    if s.hasRelay then run (s.allocate slot (s.relayEntry i h)) true else s.answer i .noSpace
  else
    match s.sessCheck i h (fun _ => true) with
    | some st => s.answer i st
    | none => if s.hasRelay then run s false else s.answer i .noSpace

/-- SESSION_PARK. -/
def State.onSessionPark (s : State) : State :=
  s.runCmd 0x14 anyone (fixed 3)
    (fun ps => strayH ps || lReserved (wat ps 1) != 0 || stray (wat ps 2) [(63, 7)] || bf (wat ps 2) 31 7 == 0
      || decide (2 ^ 24 < bf (wat ps 2) 31 7)) (fun i ps s => s.park i ps)

/-- The prefix entries from block 0 on, found from the named hash back through PARENT (R307). -/
def State.prefixWalk (s : State) (root : Word × Word) : Nat → Word × Word → Option (List DirEnt)
  | 0, h => if h = root then some [] else none
  | n + 1, h =>
    match s.dirFind (fun d => d.pages && d.block == n) h with
    | some (_, d) => (State.prefixWalk s root n d.parent).map (· ++ [d])
    | none => none

/-- A slice by its head and pages, with the KIND and OWNER of its tags (R300). -/
def State.sliceOf (s : State) (head pages kind owner : Nat) : Slice :=
  { head := head, pages := pages, items := s.sliceCount head pages, kind := kind, owner := owner }
/-- OWNER of a prefix page: HASH bits [21:0] (R300). -/
def DirEnt.owner (d : DirEnt) : Nat := d.hash.2.toNat % 2 ^ 22

/-- The adapter slice of a variant; none while no device is trained (R318, R319). -/
def State.adapterSlice (s : State) (v : Nat) : Option Slice := if s.tierOn then (s.tier.lib.find? (fun c => c.1 == v)).map (·.2) else none

/-- The parts of a spring in their order (R305, R307); none when a part is missing. -/
def State.springParts (s : State) (slot : Nat) (adapter : Option Nat) (n : Nat) (hash : Word × Word) : Option (List Slice) :=
  let e := s.entry slot
  let a := match adapter with | some v => (s.adapterSlice v).map (fun c => [c]) | none => some []
  let blocks := if n = 0 then some [] else s.prefixWalk (rootOf adapter.isSome (adapter.getD 0)) n hash
  match a, blocks with
  | some l, some ds =>
    if e.parked then some (l ++ ds.map (fun d => s.sliceOf d.plHead d.plPages 1 d.owner) ++ [s.sliceOf e.plHead e.plPages 0 (s.sessionOwner slot)]) else none
  | _, _ => none

/-- The home wakes one cluster of the region that holds the session's state (R441). -/
def State.wakeAhead (s : State) (slot : Nat) : State :=
  match (s.clustersOf (s.regionOf slot)).find? (fun c => (s.cluster c).power == .stopped && !(s.cluster c).removed) with
  | some c => s.wakeReq c
  | none => s

/-- SESSION_RESUME on an entry that passed its checks (R55, R95, R305 to R308, R318, R332, R333, R343). -/
def State.resumeSlot (s : State) (i : Issuer) (slot l first : Nat) (adapter : Option Nat) (n : Nat) (hash : Word × Word) : State :=
  let e := s.entry slot
  let lead := match s.contract with | some c => fineOf (c.resumeLead * 1000) | none => 0
  let mine := if e.adapterEn then some e.adapter else none
  if e.state = .cancelled ∨ (e.state = .wintered ∧ e.parked = true ∧ e.expiry ≤ s.tick) then s.answer i .noSession
  else if s.tierStarting || e.state != .wintered || e.pendOp != 0 || s.contract.isNone || s.lanePeriod 1 l == 0 || s.laneHeld l then s.answer i .busy
  else if (e.home || e.edge) && adapter != mine then s.answer i .busy
  else if (match adapter with | some v => !s.adapterValid v | none => false) then s.answer i .badImage
  else if !s.slotAfter true l first lead false then s.answer i .timeout
  else if e.home && !s.admits e.priority then s.answer i .busy
  else
    match s.springParts slot adapter n hash with
    | none => s.answer i .noSpace
    | some parts =>
      let bs := s.bookingOf true l first (pageStarts 0 parts)
      if !s.bookOk (some e.tenant) bs then s.answer i .busy
      else
        let o : TierOp := { kind := .spring slot, lane := l, first := first, total := parts.foldl (fun a c => a + c.items) 0,
                            done := 0, staged := 0, extents := [], slices := parts, buf := [], bookings := bs, tenant := e.tenant,
                            ttl := 0, issuer := i }
        let s1 := (s.setEntry slot { e with state := .springing }).holdReply slot i
        let s2 : State := { s1 with tier := { s1.tier with ops := s1.tier.ops ++ [o] } }
        if e.home then s2.wakeAhead slot else s2

/-- SESSION_RESUME. -/
def State.onSessionResume (s : State) : State :=
  s.runCmd 0x15 anyone (fixed 5)
    (fun ps => strayH ps || lReserved (wat ps 1) != 0 || stray (wat ps 2) [(63, 42)] || decide (256 < bf (wat ps 2) 50 42)
      || (bf (wat ps 2) 50 42 == 0 && (wat ps 3 != 0 || wat ps 4 != 0))) (fun i ps s =>
      s.session i (wat ps 0) true (fun _ => true) (fun slot =>
        s.resumeSlot i slot (lLane (wat ps 1)) (lSlot (wat ps 1)) (if bit (wat ps 2) 63 then some (bf (wat ps 2) 62 51) else none)
          (bf (wat ps 2) 50 42) (wat ps 3, wat ps 4)))

/-- A publish written (R309, R311, R316): an entry with equal HASH, TENANT and BLOCK is refreshed and keeps the pages it has, else a
free or expired position takes the entry. Answers none when no position is left. -/
def State.publishDone (s : State) (d : DirEnt) (ttl : Nat) : Option State :=
  let exp := s.expiryTick ttl
  match s.dirFind (fun x => decide (x.tenant = d.tenant) && decide (x.block = d.block)) d.hash with
  | some (k, x) =>
    let keep := x.pages || !d.pages
    some (s.dirPut k (some { x with tokens := x.tokens || d.tokens, tok := if d.tokens then d.tok else x.tok,
                                    pages := x.pages || d.pages, plHead := if keep then x.plHead else d.plHead,
                                    plPages := if keep then x.plPages else d.plPages, expiry := exp }))
  | none =>
    match s.dirRoom d.hash with
    | some k =>
      let s1 := match s.dirGet k with | some old => s.dirDrop k old | none => s
      some (s1.dirPut k (some { d with expiry := exp }))
    | none => none

/-- Whether the entry that a publish refreshes has pages already (R316). -/
def State.hasPages (s : State) (d : DirEnt) : Bool :=
  match s.dirFind (fun x => decide (x.tenant = d.tenant) && decide (x.block = d.block)) d.hash with
  | some (_, x) => x.pages
  | none => false

/-- The result words of PREFIX_PUBLISH (R359). -/
def DirEnt.result (d : DirEnt) : List Word := if d.tokens then [d.hash.1, d.hash.2, d.parent.1, d.parent.2] else []

/-- The home part of PREFIX_PUBLISH (R314, R316): the block's hash, or BUSY. -/
def State.homePublish (s : State) (slot b : Nat) (toks : List Nat) : Option (Word × Word) :=
  let r := s.hashRec slot
  let h := blockHash (s.ledger (s.entry slot).tenant).salt r.prev toks
  if r.broken || b + 1 != r.next || h != r.chain then none else some h

/-- PREFIX_PUBLISH on an entry that passed its checks (R316, R357); the order of its refusals under log 128. -/
def State.publishSlot (s : State) (i : Issuer) (ps : List Word) (slot : Nat) : State :=
  let w := wat ps 1
  let hp := bit w 63
  let rp := bit w 62
  let e := s.entry slot
  let q := ps.drop (if hp then 20 else 2)
  let toks := if hp then (let t := joinWords ((ps.drop 2).take 18); (List.range 64).map (fun k => nf t (18 * k + 17) (18 * k))) else []
  let named : Word × Word := (wat q 0, wat q 1)
  if hp = true ∧ e.home = false then s.answer i .noSession
  else if rp && !s.hasRelay then s.answer i .noSpace
  else if e.state != .live || (rp && e.pendOp != 0) then s.answer i .busy
  else
    match (if hp then s.homePublish slot (bf w 61 48) toks else some named) with
    | none => s.answer i .busy
    | some h =>
      let parent := if hp then (s.hashRec slot).prev else (wat q 2, wat q 3)
      let d : DirEnt := { tokens := hp, pages := rp, tenant := e.tenant, block := bf w 61 48, adapterEn := e.adapterEn,
                          adapter := e.adapter, hash := h, parent := parent, plHead := extEnd, plPages := 0, expiry := 0, tok := toks }
      if hp && rp && (named != h || (wat q 2, wat q 3) != parent) then s.answer i .busy
      else if rp then
        let l := lLane (wat q 4)
        let n := bf (wat q 5) 63 32
        if !s.tierOn then s.answer i (if s.tierStarting then .busy else .noSpace)
        else if s.tierStarting || s.contract.isNone || s.lanePeriod 0 l == 0 || s.laneHeld l then s.answer i .busy
        else
          match s.writeCheck (some e.tenant) l (lSlot (wat q 4)) n with
          | some st => s.answer i st
          | none =>
            match s.publishDone { d with pages := false } (bf w 47 23) with
            | none => s.answer i .noSpace
            | some _ =>
              if n = 0 then (match s.publishDone d (bf w 47 23) with | some t => t.reply i .ok d.result | none => s.answer i .noSpace)
              else (s.holdReply slot i).beginWrite (.publish slot d) i e.tenant l (lSlot (wat q 4)) n (bf w 47 23)
      else
        match s.publishDone d (bf w 47 23) with
        | some t => t.reply i .ok d.result
        | none => s.answer i .noSpace

/-- The parameter length of PREFIX_PUBLISH (R359). -/
def publishLen (ps : List Word) : Option Nat :=
  match ps with
  | _ :: w :: _ => some (2 + 18 * b2n (bit w 63) + 6 * b2n (bit w 62))
  | _ => none

/-- Reserved bits and ranges of PREFIX_PUBLISH (R309, R359). -/
def publishStray (ps : List Word) : Bool :=
  let w := wat ps 1
  let q := ps.drop (if bit w 63 then 20 else 2)
  strayH ps || stray w [(63, 23)] || (!bit w 63 && !bit w 62) || bf w 47 23 == 0 || decide (2 ^ 24 < bf w 47 23)
    || (bit w 62 && (lReserved (wat q 4) != 0 || stray (wat q 5) [(63, 32)]))

/-- PREFIX_PUBLISH. -/
def State.onPrefixPublish (s : State) : State :=
  s.runCmd 0x28 anyone publishLen publishStray (fun i ps s =>
    s.session i (wat ps 0) true (fun _ => true) (fun slot => s.publishSlot i ps slot))

/-- PREFIX_DROP (R317). -/
def State.onPrefixDrop (s : State) : State :=
  s.runCmd 0x29 anyone (fixed 2) (fun _ => false) (fun i ps s =>
    let h : Word × Word := (wat ps 0, wat ps 1)
    match s.dirFind (fun d => s.ownerOf d.tenant == some i.part) h with
    | some (k, d) => (s.dirRetire k d).answer i .ok
    | none => s.answer i (if (s.dirFind (fun _ => true) h).isSome then .deniedPartition else .noSession))

/-- The library entry of a variant replaced; the slice before it is freed, or when no spring pins it (R308, R318). -/
def State.setAdapter (s : State) (v : Nat) (c : Option Slice) : State :=
  let l := s.tier.lib
  let mid := match c with | some x => [(v, x)] | none => []
  let s1 : State := { s with tier := { s.tier with lib := l.filter (fun x => x.1 < v) ++ mid ++ l.filter (fun x => v < x.1) } }
  match (l.find? (fun x => x.1 == v)).map (·.2) with
  | some old => if old.pages = 0 then s1 else s1.freeSlice none old.head old.pages
  | none => s1

/-- ADAPTER_LOAD (R55, R304, R318, R319, R333, R343); with neither a trained device nor a contract, BUSY (log 128). -/
def State.loadAdapter (s : State) (i : Issuer) (v l first n : Nat) : State :=
  if s.tierStarting || s.contract.isNone then s.answer i .busy
  else if n ≠ 0 ∧ s.tierOn = false then s.answer i .noSpace
  else if s.lanePeriod 0 l = 0 ∨ s.laneHeld l = true then s.answer i .busy
  else
    match s.writeCheck none l first n with
    | some st => s.answer i st
    | none => if n = 0 then (s.setAdapter v none).answer i .ok else s.beginWrite (.adapterLoad v) i 0 l first n 0

/-- ADAPTER_LOAD. -/
def State.onAdapterLoad (s : State) : State :=
  s.runCmd 0x2A onlyP0 (fixed 3)
    (fun ps => stray (wat ps 0) [(63, 52)] || lReserved (wat ps 1) != 0 || stray (wat ps 2) [(63, 32)]) (fun i ps s =>
      s.loadAdapter i (bf (wat ps 0) 63 52) (lLane (wat ps 1)) (lSlot (wat ps 1)) (bf (wat ps 2) 63 32))

/-- Counters of a device (R298, R320). -/
def State.devCe (s : State) (d : Nat) : State := s.setDev d { s.dev d with ce := satAdd 16 (s.dev d).ce 1 }
def State.devUe (s : State) (d : Nat) : State := s.setDev d { s.dev d with ue := satAdd 8 (s.dev d).ue 1 }

/-- The session whose parked copy holds an extent. -/
def State.copyOwner (s : State) (e : Nat) : Option Nat :=
  (s.entries.find? (fun c => c.2.parked && (s.listExts c.2.plHead c.2.plPages).contains e)).map (·.1)

/-- Prefix entries and variants whose pages lie in an extent lose them (R320). -/
def State.dropOwners (s : State) (e : Nat) : State :=
  let ds := s.tier.dir.filter (fun c => c.2.pages && (s.listExts c.2.plHead c.2.plPages).contains e)
  let vs := s.tier.lib.filter (fun c => (s.listExts c.2.head c.2.pages).contains e)
  vs.foldl (fun s c => s.setAdapter c.1 none) (ds.foldl (fun s c => s.dirDrop c.1 c.2) s)

/-- A page still bad after its retry (R320): counted, TIER_UE, and its owner's outcome; `reader` the session whose spring read it. -/
def State.pageBad (s : State) (e : Nat) (reader : Option Nat) : State :=
  let who := (reader.toList ++ (s.copyOwner e).toList).eraseDups
  let part := who.head?.map (fun n => (s.entry n).part)
  let s1 := (s.devUe (extDev e)).trouble .tierUe (if who.isEmpty then 0 else 2) (Obj.extent (extDev e) e) part 0
  (who.foldl (fun s n => s.cancelAll n .ecc) s1).dropOwners e

/-- The tag of a slice's page is what the walk expects: KIND, OWNER, SEQ and COUNT (R301). -/
def State.tagGood (s : State) (c : Slice) (p : Nat) : Bool :=
  match s.page ((s.listExts c.head c.pages).getD (p / 16) 0) (p % 16) with
  | some g => g.kind == c.kind && g.owner == c.owner && g.seq == p % 128 && g.items.length == min 73 (c.items - 73 * p)
  | none => false

/-- The extent of the page that holds an item of a spring, and whether it can be read and its tag is good (R301, R320). -/
def State.pageOf (s : State) : List Slice → Nat → Option (Nat × Bool)
  | [], _ => none
  | c :: cs, k =>
    if k < c.items then
      let e := (s.listExts c.head c.pages).getD (k / 73 / 16) 0
      some (e, (s.dev (extDev e)).trained && s.tagGood c (k / 73))
    else State.pageOf s cs (k - c.items)

/-- The spring of a lane that stages next: the one whose next item has the earliest slot (R46, R73). -/
def State.stager (s : State) (l : Nat) : Option TierOp :=
  (s.tier.ops.filter (fun o => !o.kind.writes && o.lane == l && decide (o.staged < o.total))).foldl (fun b o =>
    match b with | none => some o | some x => if o.first + o.staged < x.first + x.staged then some o else some x) none

/-- How many items a spring stages: up to `count`, within the lead and the FIFO's room (R46, R73, R74). -/
def State.stageCount (s : State) (o : TierOp) (count : Nat) : Nat :=
  min count (min (o.total - o.staged) (min (o.done + max (s.leadItems true) 1 - o.staged) (512 - (s.outLaneAt o.lane).fifo.items.length)))

/-- Items staged for a spring (R46, R73, R299). -/
def State.stage (s : State) (o : TierOp) (slot count : Nat) : State :=
  let v := s.outLaneAt o.lane
  let k := s.stageCount o count
  let all := o.slices.flatMap (fun c => s.sliceItems c.head c.pages)
  let f := (List.range k).foldl (fun (f : SlotFifo) j =>
    let n := o.staged + j
    let w := payloadWord (n + 1 == o.total) slot (s.entry slot).gen 0 n
    f.push (o.first + n) (itemOf 0#64 (w :: all.getD n []))) v.fifo
  ((s.setOutLane o.lane { v with fifo := f }).setOp o { o with staged := o.staged + k }).touch
    ((List.range k).filterMap (fun j => (s.pageOf o.slices (o.staged + j)).map (·.1)))

/-- A device that fails a command twice (R508): device 0 ends the job, another is absent from then on. -/
def State.portFail (s : State) (d : Nat) : State :=
  if d = 0 then s.jobFault .port Obj.none none 0 else s.setDev d { s.dev d with present := false, trained := false }

/-- PKE_TIER_READ: pages read for the spring that stages next (R46, R301, R303, R320, R508). -/
def State.onPkeTierRead (s1 : State) (lane count : Nat) (find : TierFind) : State :=
  match (if s1.inReset then none else s1.stager lane) with
  | none => s1
  | some o =>
    match o.kind, s1.pageOf o.slices o.staged with
    | .spring slot, some (e, _) =>
      match (List.range (s1.stageCount o count)).findSome? (fun j =>
          match s1.pageOf o.slices (o.staged + j) with | some (b, false) => some b | _ => none) with
      | some b => s1.pageBad b (some slot)
      | none =>
        match find with
        | .clean => s1.stage o slot count
        | .corrected => (s1.devCe (extDev e)).stage o slot count
        | .bad => s1.pageBad e (some slot)
        | .portFail => if extDev e = 0 then s1.portFail 0 else (s1.portFail (extDev e)).pageBad e (some slot)
    | _, _ => s1

/-- The first extent of an operation's pages. -/
def TierOp.head (o : TierOp) : Nat := o.extents.headD extEnd

/-- A write whose last page is stored (R96, R304, R316, R318). -/
def State.writeDone (s : State) (o : TierOp) : State :=
  match o.kind with
  | .winter n _ _ =>
    let s1 := (s.writePages o.extents 0 (s.sessionOwner n) o.buf).install n o.head (pagesOf o.total) o.ttl
    (s1.endPend n .ok).endOp o
  | .publish n d =>
    let s0 := if s.hasPages d then s.freeOpPages o else s.writePages o.extents 1 d.owner o.buf
    match s0.publishDone { d with plHead := o.head, plPages := pagesOf o.total } o.ttl with
    | some s1 => (s1.endPendWith n .ok d.result).endOp o
    | none => ((s0.freeOpPages o).endPend n .noSpace).endOp o
  | .adapterLoad v =>
    let s1 := (s.writePages o.extents 2 v o.buf).endOp o
    (s1.setAdapter v (some { head := o.head, pages := pagesOf o.total, items := o.total, kind := 2, owner := v })).answer o.issuer .ok
  | .spring _ => s

/-- A write that the device fails twice (R320, R508): the session is cancelled, a load is abandoned. -/
def State.writeBad (s : State) (o : TierOp) : State :=
  let e := o.head
  match o.kind.slot? with
  | some n =>
    let s1 := (s.devUe (extDev e)).trouble .tierUe 2 (Obj.extent (extDev e) e) (some (s.entry n).part) 0
    s1.cancelAll n .ecc
  | none =>
    let s1 := (s.devUe (extDev e)).trouble .tierUe 0 (Obj.extent (extDev e) e) none 0
    let s2 := s1.abandon o false false
    match o.kind with | .adapterLoad v => s2.setAdapter v none | _ => s2

/-- WINTERING_DONE: every slot of a write on the lane has started, and its last page is stored (R304). -/
def State.onWinteringDone (s1 : State) (lane : Nat) (find : TierFind) : State :=
  match (if s1.inReset then none else s1.tier.ops.find? (fun o => o.kind.writes && o.lane == lane && o.done == o.total)) with
  | none => s1
  | some o =>
    let s2 := State.drain (s1.inLaneAt lane).fifo.items.length s1 lane
    match s2.tier.ops.find? (fun p => p.kind == o.kind && p.lane == lane && p.first == o.first) with
    | none => s2
    | some p =>
      match find with
      | .clean => (s2.writeDone p)
      | .corrected => (s2.writeDone p)
      | .bad => (s2.writeBad p)
      | .portFail =>
        if extDev p.head = 0 then s2.portFail 0 else (s2.portFail (extDev p.head)).writeBad p

/-- The devices that a scrub reads (R359): 31 names every trained device. -/
def State.scrubDevs (s : State) (d : Nat) : List Nat := if d = 31 then s.trainedDevs else if (s.dev d).trained then [d] else []

/-- The allocated pages on some devices. -/
def State.pagesOn (s : State) (ds : List Nat) : Nat := (s.tier.pages.filter (fun c => ds.contains (extDev (c.1 / 16)))).length

/-- TIER_SCRUB: its reply is held; one at a time (R320, R357). -/
def State.onTierScrub (s : State) : State :=
  s.runCmd 0x60 onlyP0 (fixed 1)
    (fun ps => stray (wat ps 0) [(63, 38)] || (decide (19 < bf (wat ps 0) 63 59) && bf (wat ps 0) 63 59 != 31)
      || bf (wat ps 0) 58 38 == 0) (fun i ps s =>
      if s.tierStarting || s.tier.scrub.isSome then s.answer i .busy
      else if (s.scrubDevs (bf (wat ps 0) 63 59)).isEmpty then s.answer i .noSpace
      else { s with tier := { s.tier with scrub := some { device := bf (wat ps 0) 63 59, pace := bf (wat ps 0) 58 38, issuer := i, startTick := s.tick } } })

/-- The positions of a directory page rewritten empty, their pages lost (R320, log 125). -/
def State.dirLost (s : State) (k : Nat) : State :=
  { s with tier := { s.tier with dir := s.tier.dir.filter (fun c => decide (c.1 < k) || decide (k + 16 ≤ c.1)),
                                 lost := min (s.tier.lost + 16) (2 ^ 21 - 1) } }

/-- An uncorrectable page by where it lies (R300, R320, R455). -/
def State.scrubBad (s : State) (e page : Nat) : State :=
  if extDev e = 0 ∧ e < 8192 then
    if e < 84 then (s.devUe 0).jobFault .tierMap (Obj.extent 0 e) none 0
    else if 4096 ≤ e then ((s.devUe 0).trouble .tierUe 0 (Obj.extent 0 e) none 0).dirLost ((e - 4096) * 256 + page * 16)
    else if 128 ≤ e ∧ e < 164 ∧ s.net.paired = true then
      let s1 := (s.devUe 0).trouble .tierUe 0 (Obj.extent 0 e) none 0
      ({ s1 with tier := { s1.tier with mirrorLost := s1.tier.mirrorLost ++ [((e - 128) * 16 + page) * 512] },
                 net := { s1.net with synced := false, copyNext := some 0, mirrorWait := [], area3Sent := [] } }).sendTo typPair s1.net.twin 4 [0]
    else s
  else if (s.page e page).isSome then s.pageBad e none
  else s

/-- A page that a scrub met (R320). -/
def State.scrubPage (s : State) (ds : List Nat) (f : PageFind) : State :=
  if s.inReset || !ds.contains (extDev f.extent) then s
  else
    match f.find with
    | .clean => s
    | .corrected => s.devCe (extDev f.extent)
    | .bad => s.scrubBad f.extent f.page

/-- TIER_SCRUB_DONE: every allocated page has been read at the pace asked for (R320, R359). -/
def State.onTierScrubDone (s1 : State) (finds : List PageFind) : State :=
  match (if s1.inReset then none else s1.tier.scrub) with
  | none => s1
  | some r =>
    let ds := s1.scrubDevs r.device
    let n := s1.pagesOn ds
    if s1.tick < r.startTick + cdiv n r.pace then s1
    else
      let s2 := finds.foldl (fun s f => s.scrubPage ds f) s1
      if s2.inReset then s2
      else
        let fixed := (finds.filter (fun f => f.find == .corrected && ds.contains (extDev f.extent))).length
        ({ s2 with tier := { s2.tier with scrub := none } }.reply r.issuer .ok [pack [(n, 63, 32), (fixed, 31, 0)]])

/-- TR_DEV_d (R298). -/
def State.devWord (s : State) (d : Nat) : Word :=
  let v := s.dev d
  pack [(b2n v.present, 63, 63), (b2n v.trained, 62, 62), (b2n v.selfref, 61, 61), (v.rate, 60, 58), (v.gib, 57, 50),
    (s.freeOn d, 49, 28), (v.ce, 27, 12), (v.ue, 11, 4)]

/-- TIER_STATUS. -/
def State.onTierStatus (s : State) : State :=
  s.runCmd 0x61 anyone (fixed 0) (fun _ => false) (fun i _ s =>
    s.reply i .ok (pack [(s.trainedDevs.length, 63, 59), (s.tier.lost, 58, 38)] :: (List.range s.grade.tierDevices).map s.devWord))

/-- TIER_DEVICE_SELFREF: a device other than device 0 that holds nothing and was not accessed for 1 ms, and that allocation does
not need awake (R298, R322). -/
def State.onTierDeviceSelfref (s1 : State) (device : Nat) : State :=
  let v := s1.dev device
  if !s1.inReset && device != 0 && v.trained && !v.selfref && !(s1.tier.alloc.any (fun e => extDev e == device))
      && decide (v.lastUse + 1000000 ≤ s1.now) then
    (s1.setDev device { v with selfref := true }).keepAwake
  else s1

end Sys2Proof.Machine
end

