-- ==== Sys2Proof/Machine/Layout.lean ====
section
/-! DEFINITION. The parts of a gate image that BEGIN carries (R283, R285, R362 to R366): its header row, its layout sections, and the
CRC-32C over the image. -/
namespace Sys2Proof.Machine

/-- One bit of CRC-32C, reflected (R366). -/
def crcBit (c : Nat) : Nat := if c % 2 = 1 then (c >>> 1) ^^^ 0x82F63B78 else c >>> 1
/-- One byte of CRC-32C. -/
def crcByte (c b : Nat) : Nat := crcBit (crcBit (crcBit (crcBit (crcBit (crcBit (crcBit (crcBit (c ^^^ b))))))))
/-- The bytes of a word, byte 0 first (R8), into a CRC. -/
def crcWord (c : Nat) (w : Word) : Nat := (bytesOf w).foldl (fun c b => crcByte c b.toNat) c
/-- CRC-32C of some words (R366). -/
def crc32c (ws : List Word) : Nat := (ws.foldl crcWord 0xFFFFFFFF) ^^^ 0xFFFFFFFF

/-- HCOUNT of a layout header (R283). -/
def hcount (w : Word) : Nat := bf w 63 53
/-- Words of a layout section (R363). -/
def layoutLen (w : Word) : Nat := 8 * (1 + cdiv (hcount w) 8)

/-- C8 and C4 of an image header (R362). -/
def imgC8 (w : Word) : Bool := bit w 55
def imgC4 (w : Word) : Bool := bit w 54

/-- PLEN of BEGIN (R363); none when a word that it depends on is missing. -/
def beginLen (ps : List Word) : Option Nat :=
  if ps.length < 9 then none
  else
    let h := wat ps 1
    let a := if imgC8 h then (if ps.length < 10 then none else some (9 + layoutLen (wat ps 9))) else some 9
    match a with
    | none => none
    | some n => if imgC4 h then (if ps.length < n + 1 then none else some (n + layoutLen (wat ps n))) else some n

/-- The layout sections of BEGIN's words after W0: cluster count, section (R363). -/
def layoutsOf (ws : List Word) : List (Nat × List Word) :=
  let h := wat ws 0
  let n8 := if imgC8 h then layoutLen (wat ws 8) else 0
  (if imgC8 h then [(8, (ws.drop 8).take n8)] else []) ++ (if imgC4 h then [(4, ws.drop (8 + n8))] else [])

/-- The handle table of a layout section (R283). -/
def tableOf (sec : List Word) : List (Nat × Word) :=
  (((sec.drop 8).take (hcount (wat sec 0))).zipIdx.map (fun p => (p.2, p.1))).filter (fun c => c.2 != 0)

/-- The layout header's reserved fields and the table's are zero, HCOUNT is in range (R285). -/
def layoutCoded (sec : List Word) : Bool :=
  let n := hcount (wat sec 0)
  decide (1 ≤ n) && decide (n ≤ 1024) && !stray (wat sec 0) [(63, 33)] && !stray (wat sec 1) [(63, 24)] && !stray (wat sec 2) [(63, 24)]
    && !stray (wat sec 3) [(63, 8)] && (((sec.take 8).drop 4).all (· == 0)) && ((sec.drop (8 + n)).all (· == 0))
    && (((sec.drop 8).take n).all (fun w => !stray w [(63, 10)]))

/-- A handle of a table. -/
def hdlAt (tab : List (Nat × Word)) (h : Nat) : Handle := Handle.ofWord (sget 0#64 tab h)

/-- Whether two handles overlap (R285). -/
def Handle.meets (a b : Handle) : Bool := decide (a.base < b.base + b.bound) && decide (b.base < a.base + a.bound)

/-- The region that holds all rows of a handle, if one does (R278, R285). -/
def Handle.inRegion (a : Handle) (r : Nat) : Bool := decide (r * 2 ^ 19 ≤ a.base) && decide (a.base + a.bound ≤ (r + 1) * 2 ^ 19)

/-- A gate-managed area (R285). -/
def Handle.area (a : Handle) : Bool := a.valid && a.gate && a.writable

/-- The layout checks of R285 for a grade. -/
def layoutGood (g : Grade) (i : Img) : Bool :=
  let hs := (i.hdl.map (fun c => Handle.ofWord c.2)).filter (·.valid)
  let rs := List.range g.regions
  let one (h : Handle) : Bool :=
    decide (1 ≤ h.bound) && decide (h.bound ≤ 2 ^ 21) && decide (h.base + h.bound ≤ g.rows) && (!h.gate || (h.scope == 0 && !h.allp))
  let two (a b : Handle) : Bool := !(a.meets b) || !(a.gate || b.gate || a.writable != b.writable)
  let region (r : Nat) : Bool :=
    let s := i.handle (i.stateHdl r)
    let c := i.handle (i.ckptHdl r)
    s.area && c.area && s.bound == 40 * 8192 / g.regions && decide (32 * i.ckptN r ≤ c.bound) && s.inRegion r && c.inRegion r
  hs.all one && hs.zipIdx.all (fun a => (hs.drop (a.2 + 1)).all (two a.1))
    && (i.handle i.ringHdl).area && (i.handle i.ringHdl).bound == 262144
    && (i.handle i.stageHdlNo).area
    && rs.all region && decide ((rs.map i.ckptN).sum ≤ 8192)

/-- The section pointers of the header name valid handles in a table (R362). -/
def pointersGood (hdr : List Word) (tab : List (Nat × Word)) : Bool := [1, 2, 3, 4].all (fun k => (hdlAt tab (bf (wat hdr k) 63 54)).valid)

/-- Two handles of the same place (R365). -/
def Handle.same (a b : Handle) : Bool := a.base == b.base && a.bound == b.bound

/-- Every gate-area handle keeps the place of the same area in force (R365). -/
def areasKept (g : Grade) (old new : Img) : Bool :=
  (old.handle old.ringHdl).same (new.handle new.ringHdl) && (old.handle old.stageHdlNo).same (new.handle new.stageHdlNo)
    && (List.range g.regions).all (fun r => (old.handle (old.stateHdl r)).same (new.handle (new.stateHdl r))
        && (old.handle (old.ckptHdl r)).same (new.handle (new.ckptHdl r)))

/-- The contract section in five rows (R519). -/
def Contract.ofWords (ws : List Word) : Contract :=
  { fclk := bf (wat ws 0) 63 52, floor := bf (wat ws 0) 51 40, resumeLead := bf (wat ws 0) 39 24, ringPeriod := bf (wat ws 0) 23 8,
    depthRing := bf (wat ws 0) 7 4, depthRefresh := bf (wat ws 1) 63 52, depthLatency := bf (wat ws 1) 51 40,
    depthHrp := bf (wat ws 1) 39 28, depthThrottle := bf (wat ws 1) 27 16, variants := bf (wat ws 1) 15 11,
    periods := (List.range 128).map (lane (ws.drop 8) 16) }

/-- The metering and balance section in two rows (R338): SHARE, LO and HI by variant. -/
def Meter.ofWords (ws : List Word) : Meter :=
  let v (n : Nat) : Nat := lane (ws.drop 8) 32 n
  { balEn := bit (wat ws 0) 63, wb := bf (wat ws 0) 62 59 + 1, hold := bf (wat ws 0) 58 55, dwell := bf (wat ws 0) 54 50,
    lead := bf (wat ws 0) 49 46, initial := bf (wat ws 0) 45 42, needMhz := bf (wat ws 0) 41 30, burstOut := bf (wat ws 1) 63 32,
    burstIn := bf (wat ws 1) 31 0, variants := (List.range 16).map (fun n => (nf (v n) 23 16, nf (v n) 15 8, nf (v n) 7 0)) }

/-- The image that an accepted BEGIN starts (R364), nothing read from its rows yet. -/
def imgOfBegin (g : Grade) (ws : List Word) (gen : Nat) : Option Img :=
  match (layoutsOf ws).find? (fun l => l.1 == g.clusters) with
  | none => none
  | some (_, sec) =>
    some { hdr := ws.take 8, layout := sec.take 8, hdl := tableOf sec, begun := ws, crc8 := 0, crc4 := 0,
           contract := Contract.ofWords [], meter := Meter.ofWords [], descs := [], repl := [], gen := gen }

/-- The checks of BEGIN (R364, R365). -/
def State.beginGood (s : State) (ws : List Word) (i : Img) : Bool :=
  bf (wat ws 0) 63 56 == 1 && (layoutsOf ws).all (fun l => layoutCoded l.2 && pointersGood i.hdr (tableOf l.2)) && layoutGood s.grade i
    && (match s.img.force with | some f => areasKept s.grade f i | none => true)

end Sys2Proof.Machine
end

