-- ==== Sys2Proof/Machine/LoadCheck.lean ====
section
/-! DEFINITION. The load checks of a gate image but for its programs: contract and metering (R34 to R38, R339), policies (R150),
pattern section (R188), features and trees (R214). A check that fails ends in an error. -/
namespace Sys2Proof.Machine

/-- A check: an error when it fails. -/
def chk (b : Bool) : Eval Unit := if b then .ok () else .error (.bound 0 0)

/-- Every element of a list passes. -/
def chkAll (l : List α) (f : α → Eval Unit) : Eval Unit := l.foldlM (fun _ x => f x) ()

/-- Whether a check passes. -/
def passes (c : Eval Unit) : Bool := match c with | .ok _ => true | .error _ => false

/-- `n` rows from row `o` of a valid handle lie in its bound. -/
def inBound (env : Env) (h o n : Nat) : Bool :=
  let d := hdlAt env.hdl h
  d.valid && decide (o + n ≤ d.bound)

/-- A handle that is a read-only lease. -/
def leased (env : Env) (h : Nat) : Bool := let d := hdlAt env.hdl h; d.valid && !d.writable

/-- A value in a range. -/
def within (v lo hi : Nat) : Bool := decide (lo ≤ v) && decide (v ≤ hi)

/-- The periods of lanes in use, by direction (R34). -/
def Contract.inUse (c : Contract) (dir : Nat) : List Nat :=
  (c.periods.take (8 * c.variants)).zipIdx.filterMap (fun p => if p.1 ≠ 0 ∧ p.2 % 8 / 4 = dir then some p.1 else none)

/-- min_depth of a bound for a lane's period (R36). -/
def Contract.minDepth (c : Contract) (bound period : Nat) : Nat := cdiv (bound * c.fclk) (period * 1000)

/-- The checks of the contract section (R34, R36, R37, R519); `tier` tells whether tier devices are attached. -/
def contractGood (ws : List Word) (tier : Bool) : Bool :=
  let c := Contract.ofWords ws
  let stage := c.depthRefresh + c.depthLatency + c.depthThrottle
  let deep (p : Nat) : Bool :=
    decide (c.minDepth 400 p ≤ c.depthThrottle)
      && (!tier || (decide (c.minDepth 1600 p ≤ c.depthRefresh) && decide (c.minDepth 800 p ≤ c.depthLatency)))
  !stray (wat ws 0) [(63, 4)] && !stray (wat ws 1) [(63, 11)] && ((ws.take 8).drop 2).all (· == 0)
    && within c.fclk 800 1600 && within c.floor 600 1600 && within c.resumeLead 100 65535 && within c.ringPeriod 8 65535
    && within c.depthRing 1 15 && decide (c.depthRefresh ≤ 512) && decide (c.depthLatency ≤ 512) && decide (c.depthHrp ≤ 512)
    && decide (c.depthThrottle ≤ 512) && within c.variants 1 16
    && (c.periods.take (8 * c.variants)).all (fun p => p == 0 || decide (4 ≤ p)) && (c.periods.drop (8 * c.variants)).all (· == 0)
    && (c.inUse 1).all deep && (c.inUse 0).all (fun p => deep p && decide (c.minDepth 1024 p ≤ c.depthHrp))
    && ((c.inUse 1).isEmpty || decide (stage ≤ 512)) && ((c.inUse 0).isEmpty || decide (stage + c.depthHrp ≤ 512))

/-- The checks of the metering section (R338, R339): `out` and `inn` the sums of the bursts granted. -/
def meterGood (ws : List Word) (variants out inn : Nat) : Bool :=
  let m := Meter.ofWords ws
  let v (n : Nat) : Nat := lane (ws.drop 8) 32 n
  !stray (wat ws 0) [(63, 30)] && ((ws.take 8).drop 2).all (· == 0) && within m.hold 1 15 && within m.dwell 1 31 && within m.lead 3 15
    && within m.needMhz 600 1600 && decide (m.initial < variants) && decide (out ≤ m.burstOut) && decide (inn ≤ m.burstIn)
    && (List.range 16).all (fun n =>
        if n < variants then decide (nf (v n) 31 24 = 0) && decide (nf (v n) 15 8 ≤ nf (v n) 23 16) && decide (nf (v n) 23 16 ≤ nf (v n) 7 0)
        else v n == 0)

/-- A policy as the load reads it: its descriptor, the stages and the rule words of each direction (R148). -/
structure Pol where
  pol : Policy
  outS : List Stage
  inS : List Stage
  deriving DecidableEq, Repr

/-- The entries that a stage writes. -/
def Stage.writes (t : Stage) (e : Nat) : Bool := decide (t.base ≤ e) && decide (e < t.base + t.count)

/-- The closures of the WAIT relation, stage by stage, as masks (R149). -/
def waitMasks (ss : List Stage) : List Nat :=
  ss.foldl (fun acc t => acc ++ [(List.range acc.length).foldl (fun m k => if t.wait.testBit k then m ||| acc.getD k 0 else m) t.wait]) []

/-- The stages of one direction (R149, R150). -/
def stagesGood (ss : List Stage) (ingress : Bool) : Bool :=
  ss.zipIdx.all (fun p =>
    let t := p.1
    decide (t.kind ≤ 4) && decide (1 ≤ t.count) && decide (t.base + t.count ≤ 256) && decide (t.wait < 2 ^ p.2)
      && (ss.drop (p.2 + 1)).all (fun u => decide (t.base + t.count ≤ u.base) || decide (u.base + u.count ≤ t.base))
      && (t.kind != 4 || (ingress && p.2 + 1 == ss.length)))

/-- A rule word of a direction (R150, R154). -/
def ruleGood (ss : List Stage) (ingress : Bool) (w : Word) : Bool :=
  decide (bf w 55 54 ≤ 2) && decide (bf w 53 51 ≤ 4) && bf w 33 0 == 0 && ss.any (fun t => t.writes (bf w 63 56))
    && !(ingress && bf w 53 51 == 2) && (!bit w 34 || bf w 53 51 == 3) && (bf w 55 54 != 0 || bf w 50 35 == 0)

/-- The fields of a policy descriptor (R148, R150). -/
def policyCoded (r : List Word) : Bool :=
  let p := Policy.ofRow r
  !stray (wat r 0) [(63, 11)] && !stray (wat r 1) [(63, 4)] && !stray (wat r 2) [(63, 4)] && !stray (wat r 3) [(63, 14)]
    && !stray (wat r 4) [(63, 30)] && (r.drop 5).all (· == 0)
    && within p.dOut 4000 64000 && within p.dInA 4000 131071 && within p.dInB 1 4095 && decide (p.chains ≤ 4) && decide (p.depth ≤ 8)
    && (p.depth == 0) == (p.chains == 0) && within p.outStages 1 8 && decide (p.inStages ≤ 8) && decide (p.outRules ≤ 256)
    && decide (p.inRules ≤ 256)

/-- One policy read and checked (R148, R150, R158); `floor` the clock its budget is taken at (R451). -/
def loadPolicy (env : Env) (i : Img) (c : Contract) (floor n : Nat) : Eval Pol := do
  let r ← env.row i.polH (i.polO + n)
  chk (policyCoded r)
  let p := Policy.ofRow r
  let total := p.outStages + p.inStages + p.outRules + p.inRules
  let ws ← env.wordsAt p.tableH p.tableO total
  let stages := (ws.take (p.outStages + p.inStages))
  chk (stages.all (fun w => bf w 2 0 == 0))
  let outS := (ws.take p.outStages).map Stage.ofWord
  let inS := ((ws.drop p.outStages).take p.inStages).map Stage.ofWord
  let rules := ws.drop (p.outStages + p.inStages)
  chk (stagesGood outS false && stagesGood inS true && ((p.wTurn == 0) == !(inS.any (fun t => t.kind == 4))))
  chk ((rules.take p.outRules).all (ruleGood outS false) && (rules.drop p.outRules).all (ruleGood inS true))
  chk (p.meets c floor 0 0)
  return { pol := p, outS := outS, inS := inS }

/-- Reserved fields and sizes of the pattern header (R170, R188, log 134). -/
def patHdrGood (env : Env) (r : List Word) (vocab : Nat) : Bool :=
  let p := PatHdr.ofRow r
  !stray (wat r 0) [(63, 12)] && !stray (wat r 1) [(63, 30)] && !stray (wat r 2) [(63, 30)] && !stray (wat r 3) [(63, 17)]
    && !stray (wat r 4) [(63, 11)] && !stray (wat r 5) [(63, 17)] && (r.drop 6).all (· == 0)
    && decide (p.states ≤ 4194304) && decide (p.cmaps ≤ 4096) && within p.vocab 1 262144 && within p.stopsets 1 4096 && p.vocab == vocab
    && inBound env p.stateH p.stateO (cdiv p.states 8) && inBound env p.transH p.transO (cdiv p.trans 8)
    && inBound env p.cmapH p.cmapO (cdiv p.cmaps 8) && inBound env p.detokH p.detokO (cdiv p.vocab 8)
    && inBound env p.stopH p.stopO (cdiv p.stopsets 8)

/-- State records, transitions, class-map directory and detokenisation table (R171 to R175, R188). -/
def loadPatArrays (env : Env) (p : PatHdr) : Eval Unit := do
  chkAll (List.range p.states) (fun s => do let w ← env.wordAt p.stateH p.stateO s; chk (bf w 1 0 == 0))
  chkAll (List.range p.trans) (fun t => do
    let w ← env.wordAt p.transH p.transO t
    chk (bf w 18 0 == 0 && (bit w 63 || w == 0)))
  chkAll (List.range p.cmaps) (fun k => do
    let w ← env.wordAt p.cmapH p.cmapO k
    chk (decide (bf w 63 62 ≤ 1) && bf w 37 0 == 0 && inBound env p.cmapH (bf w 61 38) (if bf w 63 62 = 0 then 4 else 8192)))
  chkAll (List.range p.vocab) (fun t => do
    let w ← env.wordAt p.detokH p.detokO t
    let n := bf w 63 59
    chk (bf w 31 0 == 0 && decide (n ≤ p.maxBytes)
      && (n == 0 || inBound env p.detokH (p.detokO + cdiv p.vocab 8 + (bf w 58 32 + n - 1) / 64) 1)))

/-- The two words of an automaton descriptor and its own fields (R173, R188, log 134). -/
def autoCoded (p : PatHdr) (a b : Word) : Bool :=
  let m := Automaton.ofWords a b
  bf a 16 0 == 0 && bf b 4 0 == 0 && decide (m.alpha ≤ 1) && decide (m.outMode ≤ 1) && within m.count 1 4194304
    && decide (m.first + m.count ≤ p.states) && decide (m.first ≤ m.start) && decide (m.start < m.first + m.count)
    && (m.alpha == 1 || decide (m.classesM1 ≤ 255)) && decide (m.cmap < p.cmaps)

/-- The transitions and the class map of an automaton (R188). -/
def loadAuto (env : Env) (p : PatHdr) (m : Automaton) : Eval Unit := do
  let inRange (s : Nat) : Bool := decide (m.first ≤ s) && decide (s < m.first + m.count)
  chkAll (List.range m.count) (fun k => do
    let s := m.first + k
    let r := PatState.ofWord (← env.wordAt p.stateH p.stateO s)
    chk (decide (r.base + m.classesM1 < p.trans) && inRange r.dflt)
    chkAll (List.range (m.classesM1 + 1)) (fun c => do
      let w ← env.wordAt p.transH p.transO (r.base + c)
      chk (!(bit w 63 && bf w 62 41 == s) || inRange (bf w 40 19))))
  let d ← env.wordAt p.cmapH p.cmapO m.cmap
  chk (bf d 63 62 == m.alpha)
  chkAll (List.range (if m.alpha = 0 then 256 else p.vocab)) (fun x => do
    let v ← if m.alpha = 0 then env.byteAt p.cmapH (bf d 61 38) x else env.halfAt p.cmapH (bf d 61 38) x
    chk (decide (v ≤ m.classesM1)))

/-- A PAT stage's group (R173, R188). -/
def loadGroup (env : Env) (p : PatHdr) (t : Stage) : Eval (List Automaton) := do
  let h ← env.row t.objH t.objO
  let n := bf (wat h 0) 63 59
  chk (bf (wat h 0) 58 0 == 0 && (h.drop 1).all (· == 0) && within n 1 24 && n == t.count)
  let ws ← env.wordsAt t.objH (t.objO + 1) (2 * n)
  chk ((List.range n).all (fun k => autoCoded p (wat ws (2 * k)) (wat ws (2 * k + 1))))
  let as := (List.range n).map (fun k => Automaton.ofWords (wat ws (2 * k)) (wat ws (2 * k + 1)))
  chk (as.all (fun a => decide (a.slot < 24)))
  chkAll as (loadAuto env p)
  return as

/-- A stop set (R176, R188). -/
def loadStopSet (env : Env) (p : PatHdr) (k : Nat) : Eval (List Automaton) := do
  let w ← env.wordAt p.stopH p.stopO k
  let n := bf w 63 60
  chk (decide (n ≤ 8) && bf w 35 0 == 0)
  let ws ← env.wordsAt p.stopH (bf w 59 36) (2 * n)
  chk ((List.range n).all (fun j => autoCoded p (wat ws (2 * j)) (wat ws (2 * j + 1))))
  let as := (List.range n).map (fun j => Automaton.ofWords (wat ws (2 * j)) (wat ws (2 * j + 1)))
  chk (as.zipIdx.all (fun a => a.1.slot == 24 + a.2 && a.1.outMode == 0 && a.1.engine == 0 && !a.1.resetTurn))
  chkAll as (loadAuto env p)
  return as

/-- Ranges of automata overlap only when identical (R188). -/
def rangesGood (as : List Automaton) : Bool :=
  as.zipIdx.all (fun a => (as.drop (a.2 + 1)).all (fun b =>
    (a.1.first == b.first && a.1.count == b.count) || decide (a.1.first + a.1.count ≤ b.first) || decide (b.first + b.count ≤ a.1.first)))

/-- An entity table that a LOOKUP names (R200, R201, R214). -/
def loadTable (env : Env) (h o k : Nat) : Eval Unit := do
  let r ← env.row h o
  let t := Entity.ofRow r
  chk (!stray (wat r 0) [(63, 33)] && !stray (wat r 1) [(41, 0)] && (r.drop 6).all (· == 0) && within t.rows 1 1048576
    && (if t.hashed then decide (t.log2Rows ≤ 20) && t.rows == 2 ^ t.log2Rows else t.log2Rows == 0 && t.probesM1 == 0)
    && (List.range 14).all (fun l => decide (t.laneType l ≤ 4)) && decide (k ≤ 13) && inBound env h o (1 + t.rows))
  chkAll (List.range t.rows) (fun n => do
    let rec' ← env.row h (o + 1 + n)
    chk (bf (wat rec' 0) 30 0 == 0 && (List.range 14).all (fun l =>
      let v := lane (rec'.drop 1) 32 l
      let ty := t.laneType l
      (ty == 2 || ty == 3 || nf v 31 16 == 0) && (ty != 4 || !xf16Bad v))))

/-- The fields of a feature operation (R196 to R199, R214, log 136). -/
def featOpCoded (w : Word) : Bool :=
  let k := bf w 63 61
  if k = 0 then bf w 22 0 == 0 && decide (bf w 26 23 ≤ 13)
  else if k = 1 then
    let op := bf w 54 52
    let test := bf w 43 42
    decide (bf w 60 55 ≤ 55) && decide (op ≤ 4) && bf w 24 0 == 0 && (op == 3 || test == 0) && decide (test ≤ 2)
      && (op == 1 || op == 2 || op == 3 || bf w 51 44 == 0) && ((op == 3 && test != 0) || bf w 41 26 == 0) && (op != 4 || !bit w 25)
  else if k = 2 then
    decide (bf w 21 20 ≤ 2) && decide (bf w 19 18 ≤ 2) && bf w 9 0 == 0 && (bf w 19 18 != 0 || bf w 17 10 == 0)
      && (bf w 19 18 != 2 || decide (bf w 17 10 ≤ 55))
  else if k = 3 then decide (bf w 60 58 ≤ 4) && bf w 57 0 == 0
  else false

/-- The entries that a feature operation reads (R196 to R198). -/
def featReads (w : Word) : List Nat :=
  if bf w 63 61 = 1 ∧ (bf w 54 52 = 1 ∨ bf w 54 52 = 2 ∨ bf w 54 52 = 3) then [bf w 51 44]
  else if bf w 63 61 = 2 ∧ bf w 19 18 = 1 then [bf w 17 10]
  else []

/-- A FEAT object: its operation words (R196, R214). -/
def loadFeat (env : Env) (t : Stage) : Eval (List Word) := do
  let h ← env.row t.objH t.objO
  let n := bf (wat h 0) 63 56
  chk (leased env t.objH && bf (wat h 0) 55 0 == 0 && (h.drop 1).all (· == 0) && n == t.count)
  let ws ← env.wordsAt t.objH (t.objO + 1) n
  chk (ws.all featOpCoded)
  chkAll ws (fun w => do
    if bf w 63 61 = 0 then loadTable env (bf w 60 51) (bf w 50 27) (bf w 26 23)
    else if bf w 63 61 = 2 then chk (inBound env (bf w 60 51) (bf w 50 27) (bf w 26 22 + 1)))
  return ws

/-- The entries an ensemble writes (R211). -/
def Ensemble.entries (e : Ensemble) : Nat := if e.mode = 0 then e.classes else 2

/-- A TREE object: the feature indices its nodes read (R204, R205, R214). -/
def loadTree (env : Env) (t : Stage) : Eval (List Nat) := do
  let r ← env.row t.objH t.objO
  let e := Ensemble.ofRow r
  chk (leased env t.objH && bf (wat r 0) 35 0 == 0 && (r.drop 5).all (· == 0) && decide (e.mode ≤ 2) && decide (e.linkKind ≤ 2)
    && (e.mode != 1 || e.linkKind == 0) && (e.linkKind != 2 || decide (2 ≤ e.classes)) && (e.mode == 2 || (e.groups == 1 && ((r.drop 1).take 4).all (· == 0)))
    && decide (e.classes ≤ 16) && e.entries == t.count)
  let dir := t.objO + 1 + e.baseRows
  let bases ← env.wordsAt t.objH (t.objO + 1) (8 * e.baseRows)
  chk (if e.mode = 1 then bases.all (· == 0)
    else (List.range (e.groups * e.classes)).all (fun k => !xf16Bad (lane bases 16 k)))
  let ds ← env.wordsAt t.objH dir e.trees
  chk (ds.all (fun w =>
    let d := TreeDir.ofWord w
    bf w 22 0 == 0 && within d.depth 1 8 && d.rows == treeRows d.depth && inBound env t.objH (t.objO + d.offset) d.rows
      && (if e.mode = 1 then d.cls == 0 else decide (d.cls < e.classes)) && (if e.mode = 2 then decide (d.group < e.groups) else d.group == 0)))
  let parts := (0, 1 + e.baseRows + cdiv e.trees 8) :: ds.map (fun w => let d := TreeDir.ofWord w; (d.offset, d.rows))
  chk (parts.zipIdx.all (fun a => (parts.drop (a.2 + 1)).all (fun b => decide (a.1.1 + a.1.2 ≤ b.1) || decide (b.1 + b.2 ≤ a.1.1))))
  let fs ← ds.mapM (fun w => do
    let d := TreeDir.ofWord w
    let ws ← env.wordsAt t.objH (t.objO + d.offset) (8 * d.rows)
    chk ((List.range (2 ^ d.depth - 1)).all (fun n => nf (lane ws 32 n) 21 16 == 0) && (List.range (2 ^ d.depth)).all (fun j =>
      let x := treeLeaf ws d.depth j
      !xf16Bad x && (e.mode != 1 || ((!(xf16 x).neg || (xf16 x).units == 0) && (xf16 x).units % 2 ^ 24 == 0 && decide (leafClass x < e.classes)))))
    return (List.range (2 ^ d.depth - 1)).map (fun n => (treeNode ws n).1))
  return fs.flatten

/-- What the FEAT and TREE stages of one direction read, and their counter operations: stage, place, counter, whether it updates. -/
structure DirUse where
  reads : List (Nat × Nat)
  ops : List (Nat × Nat × Nat × Bool)
  deriving DecidableEq, Repr

/-- The objects of a direction's FEAT and TREE stages, checked (R214). -/
def loadDir (env : Env) (ss : List Stage) : Eval DirUse := do
  ss.zipIdx.foldlM (fun (u : DirUse) t => do
    if t.1.kind = 1 then
      let ws ← loadFeat env t.1
      let ops := ws.zipIdx.filterMap (fun w => if bf w.1 63 61 = 1 then some (t.2, w.2, bf w.1 60 55, bf w.1 54 52 != 4) else none)
      return { reads := u.reads ++ (ws.flatMap featReads).map (fun e => (t.2, e)), ops := u.ops ++ ops }
    else if t.1.kind = 2 then
      let fs ← loadTree env t.1
      return { u with reads := u.reads ++ fs.map (fun e => (t.2, e)) }
    else return u) { reads := [], ops := [] }

/-- Every entry read is written by a stage waited on (R214). -/
def sourcesGood (ss : List Stage) (u : DirUse) : Bool :=
  let ms := waitMasks ss
  u.reads.all (fun r => decide (r.2 < 256) && ss.zipIdx.any (fun t => (ms.getD r.1 0).testBit t.2 && t.1.writes r.2))

/-- One update to a counter in a policy, and every READ after it (R197, R214). -/
def countersGood (outS inS : List Stage) (o i : DirUse) : Bool :=
  let ups := (o.ops ++ i.ops).filter (·.2.2.2)
  let one := ups.zipIdx.all (fun a => (ups.drop (a.2 + 1)).all (fun b => a.1.2.2.1 != b.2.2.1))
  let after (ss : List Stage) (u : DirUse) : Bool :=
    let ms := waitMasks ss
    (u.ops.filter (fun x => !x.2.2.2)).all (fun x => u.ops.any (fun y => y.2.2.2 && y.2.2.1 == x.2.2.1
      && ((y.1 == x.1 && decide (y.2.1 < x.2.1)) || (ms.getD x.1 0).testBit y.1)))
  one && after outS o && after inS i

/-- The automata of one policy have slots of their own (R188). -/
def slotsGood (as : List Automaton) : Bool := as.zipIdx.all (fun a => (as.drop (a.2 + 1)).all (fun b => a.1.slot != b.slot))

/-- One policy's pattern, feature and tree stages (R188, R214). Answers its automata. -/
def loadStages (env : Env) (p : PatHdr) (q : Pol) : Eval (List Automaton) := do
  let gs ← ((q.outS ++ q.inS).filter (fun t => t.kind == 0)).mapM (loadGroup env p)
  chk (slotsGood gs.flatten)
  let o ← loadDir env q.outS
  let i ← loadDir env q.inS
  chk (sourcesGood q.outS o && sourcesGood q.inS i && countersGood q.outS q.inS o i)
  return gs.flatten

/-- The pattern section and the policies' pattern, feature and tree stages (R188, R214). -/
def loadScreening (env : Env) (i : Img) (pols : List Pol) : Eval Unit := do
  let r ← env.row i.patH i.patO
  chk (patHdrGood env r i.vocab)
  let p := PatHdr.ofRow r
  loadPatArrays env p
  let gs ← pols.mapM (loadStages env p)
  let ss ← (List.range p.stopsets).mapM (loadStopSet env p)
  chk (rangesGood (gs.flatten ++ ss.flatten))

end Sys2Proof.Machine
end

