-- ==== Sys2Proof/Machine/LoadProgram.lean ====
section
/-! DEFINITION. The load checks of the tensor engine programs of a policy (R276), with those of narrow arithmetic (R235) and of
calibration (R251). A check that fails ends in an error. -/
namespace Sys2Proof.Machine

/-- What a program is checked against: its object, its placement, its stage and its policy. -/
structure ProgCtx where
  loc : ProgLoc
  prog : Prog
  split : Bool
  regions : Nat
  places : List (Nat × Nat)
  count : Nat
  reserve : Nat
  vocab : Nat
  deriving DecidableEq, Repr

/-- The SSM row address of a row of the object. -/
def ProgCtx.addr (env : Env) (c : ProgCtx) (row : Nat) : Nat := (hdlAt env.hdl c.loc.h).base + c.loc.o + row

/-- `n` rows of the object from `row` lie in OBJ_HANDLE's bound (R276 Layout). -/
def ProgCtx.inObj (env : Env) (c : ProgCtx) (row n : Nat) : Bool := inBound env c.loc.h (c.loc.o + row) n

/-- Whether some of the rows lie outside the region that runs an instruction (R269, R272): for a replicated program, rows that no
replica holds. -/
def ProgCtx.outside (env : Env) (c : ProgCtx) (region row n : Nat) : Bool :=
  if n = 0 then false
  else if c.split then decide (c.addr env row / 2 ^ 19 ≠ region) || decide (c.addr env (row + n - 1) / 2 ^ 19 ≠ region)
  else decide (c.loc.objRows < row + n) && decide (1 < c.regions)

/-- The rules of a codebook (R218, R219, R235). -/
def loadBook (env : Env) (l : ProgLoc) (row : Nat) : Eval Book := do
  let r ← l.words env row 8
  let b ← l.book env row
  let n := 2 ^ bitsOf b.bits
  let vs := b.used.map b.val
  chk (bf (wat r 0) 56 0 == 0 && (if b.bits = 3 then (r.drop 1).all (· == 0) else (r.drop 3).all (· == 0)))
  chk (!b.escEn || (decide (b.bits ≤ 2) && decide (b.escIdx < n)))
  chk ((vs.zip (vs.drop 1)).all (fun x => decide (x.1 < x.2)))
  chk (b.entries.zipIdx.all (fun e => (decide (e.2 < n) && !(b.escEn && e.2 == b.escIdx)) || e.1 == 0))
  return b

/-- The rows of a code array: bits [511:510] of a 3-bit row are zero (R220, R235). -/
def codeRowsGood (b : Book) (ws : List Word) : Bool :=
  b.bits != 1 || ws.zipIdx.all (fun w => w.2 % 8 != 7 || bf w.1 63 62 == 0)

/-- Rows that a STATE or WINDOW vector occupies in the recurrent state, in words (R257). -/
def VecD.words (v : VecD) (bits : Nat) : Nat := if v.space = 1 then 8 * groupsOf bits v.len else 1 + v.winK * winGroup v bits

/-- One vector descriptor, its own words beside it (R256, R276). Answers its codebook. -/
def loadVec (env : Env) (c : ProgCtx) (v : VecD) (a b : Word) : Eval Book := do
  chk (bf a 20 0 == 0 && bf b 15 0 == 0 && within v.len 1 4096 && (v.space != 0 || v.offset == 0) && (v.space == 3 || v.winK == 1)
    && (v.space == 0 || v.cb8 == 0) && v.len % v.winK == 0)
  let k ← loadBook env c.loc v.cb
  if v.cb8 ≠ 0 then
    let k8 ← loadBook env c.loc v.cb8
    chk (k8.bits == 3)
  if v.space = 1 ∨ v.space = 3 then chk (decide (v.offset + v.words k.bits ≤ 256))
  if v.space = 2 then
    let ws ← c.loc.words env v.offset (8 * groupsOf k.bits v.len)
    chk (codeRowsGood k ws)
  return k

/-- The rows of a tensor: codes, block scales, side list, scales; first row and number (R258). -/
def TenD.parts (d : TenD) (bits : Nat) : List (Nat × Nat) :=
  [(d.codes, groupsOf bits (d.rows * d.cols)), (d.bs, if d.bs = 0 then 0 else cdiv (cdiv (d.rows * d.cols) 32) 128),
   (d.side, if d.side = 0 then 0 else cdiv d.sideCount 32), (d.scales, cdiv d.scaleWords 8)]

/-- One tensor descriptor (R222, R229, R258, R235, R276). -/
def loadTen (env : Env) (c : ProgCtx) (d : TenD) (ws : List Word) : Eval Book := do
  chk (bf (wat ws 0) 2 0 == 0 && bf (wat ws 1) 15 0 == 0 && bf (wat ws 2) 15 0 == 0 && bf (wat ws 3) 26 0 == 0
    && decide (1 ≤ d.rows) && within d.cols 32 4096 && d.cols % 32 == 0
    && (d.scaleWords == 0 || d.scaleWords == 1 || d.scaleWords == d.rows) && (d.scaleWords == 0 || d.scales != 0))
  let b ← loadBook env c.loc d.cb
  chk ((d.parts b.bits).all (fun p => c.inObj env p.1 p.2))
  let n := d.rows * d.cols
  let cs ← c.loc.words env d.codes (8 * groupsOf b.bits n)
  chk (codeRowsGood b cs)
  let side ← if d.side = 0 then .ok [] else c.loc.words env d.side (cdiv d.sideCount 4)
  chk ((List.range d.sideCount).all (fun k => !xf16Bad (lane side 16 k)) && (d.side != 0 || d.sideCount == 0))
  chk (d.sideCount == if b.escEn then ((unpackCodes b.bits n cs).filter (· == b.escIdx)).length else 0)
  let sc ← if d.scaleWords = 0 then .ok [] else c.loc.words env d.scales d.scaleWords
  chk (sc.all (fun w => bf w 33 0 == 0))
  if d.alt ≠ 0xFF then
    let t := c.prog.ten d.alt
    chk (decide (d.alt < c.prog.hdr.tensors) && t.rows == d.rows && t.cols == d.cols)
    let ab ← c.loc.book env t.cb
    chk (ab.bits == 3)
  return b

/-- Vectors that an instruction reads (R260). -/
def insReads (w : Word) : List Nat :=
  let op := bf w 63 59
  if op = 1 then [bf w 50 43]
  else if op = 2 then [bf w 58 51, bf w 50 43] ++ (if bf w 34 27 = 0xFF then [] else [bf w 34 27, bf w 26 19])
  else if op = 3 ∨ op = 5 ∨ op = 6 ∨ op = 7 then [bf w 58 51]
  else []

/-- Vectors that an instruction writes (R260). -/
def insWrites (w : Word) : List Nat :=
  let op := bf w 63 59
  if op = 1 then (if bit w 34 && !bit w 33 then [bf w 42 35] else [])
  else if op = 2 then (if bit w 10 then [] else [bf w 42 35])
  else if op = 3 ∨ op = 4 ∨ op = 5 ∨ op = 6 then [bf w 50 43]
  else []

/-- The tensor of an instruction (R260). -/
def insTensor (w : Word) : Option Nat := let op := bf w 63 59; if op = 1 ∨ op = 4 then some (bf w 58 51) else none

/-- The output-vector entries that an instruction writes: first and number (R262 to R264). -/
def insEntries (p : Prog) (w : Word) : Nat × Nat :=
  let op := bf w 63 59
  if op = 1 ∧ bit w 34 = true ∧ bit w 33 = true then (bf w 42 35, (p.ten (bf w 58 51)).rows)
  else if op = 2 ∧ bit w 10 = true then (bf w 42 35, (p.vec (bf w 58 51)).len)
  else if op = 7 then (bf w 50 43, (p.vec (bf w 58 51)).len)
  else (0, 0)

/-- The reserved fields of an instruction (R260). -/
def insCoded (w : Word) : Bool :=
  let op := bf w 63 59
  if op = 0 then bf w 58 0 == 0
  else if op = 1 then bf w 23 0 == 0 && (bit w 34 || (bf w 42 35 == 0 && bf w 33 32 == 0 && bf w 31 24 == 0xFF))
  else if op = 2 then bf w 9 0 == 0 && ((bf w 34 27 == 0xFF) == (bf w 26 19 == 0xFF))
  else if op = 3 then bf w 34 0 == 0
  else if op ≤ 7 then bf w 42 0 == 0
  else false

/-- The cost of an instruction on `ne` engines, the term X apart (R269). -/
def insCost (p : Prog) (ne : Nat) (w : Word) : Nat :=
  let op := bf w 63 59
  let t := p.ten (bf w 58 51)
  if op = 1 then cdiv t.rows (64 * ne) * cdiv t.cols 64 + (if bit w 34 then 20 else 0)
  else if op = 2 then cdiv (p.vec (bf w 58 51)).len 64 + 10
  else if op = 3 then cdiv (p.vec (bf w 58 51)).len 64 + 4
  else if op = 4 then cdiv (p.vec (bf w 50 43)).len 64 + 6
  else if op = 5 then cdiv (winSlot (p.vec (bf w 50 43))) 64 + 4
  else if op = 6 then cdiv (p.vec (bf w 58 51)).len 64 + 2
  else if op = 7 then cdiv (p.vec (bf w 58 51)).len 64 + 4
  else 0

/-- What the pass over the instructions has met: the cost so far; the SCRATCH vectors written, with the region of the first writer;
the entries written; the tensors of the open chain; the records of calibrated layers; the touches of STATE and WINDOW vectors. -/
structure Scan where
  cost : Nat
  written : List (Nat × Nat)
  entries : List Nat
  chain : List Nat
  recs : List (Nat × Bool)
  touch : List (Nat × Nat × Nat)
  deriving DecidableEq, Repr

/-- Whether vector `i` lies outside the region that runs the instruction (R269, R272). -/
def ProgCtx.vecFar (env : Env) (c : ProgCtx) (k : Scan) (region i : Nat) : Eval Bool := do
  let v := c.prog.vec i
  if v.space = 0 then
    return match k.written.find? (fun x => x.1 == i) with | some x => x.2 != region | none => false
  else if v.space = 2 then
    let b ← c.loc.book env v.cb
    return c.outside env region v.offset (groupsOf b.bits v.len)
  else return c.split

/-- Whether a tensor costs the term X (R269). -/
def ProgCtx.tenFar (env : Env) (c : ProgCtx) (region t : Nat) : Eval Bool := do
  let d := c.prog.ten t
  let b ← c.loc.book env d.cb
  return d.shared || (d.parts b.bits).any (fun p => c.outside env region p.1 p.2)

/-- The unshared tensors that a SPLIT instruction reads lie in its region (R272). -/
def ProgCtx.tenPlaced (env : Env) (c : ProgCtx) (region t : Nat) : Eval Unit := do
  let d := c.prog.ten t
  let b ← c.loc.book env d.cb
  chk (!c.split || d.shared || (d.parts b.bits).all (fun p => !c.outside env region p.1 p.2))

/-- A vector that an instruction writes: not CONST, and a STATE or WINDOW vector within the program's own area (R266, R276). -/
def ProgCtx.writable (env : Env) (c : ProgCtx) (i : Nat) : Eval Unit := do
  let v := c.prog.vec i
  let b ← c.loc.book env v.cb
  let h := c.prog.hdr
  chk (v.space != 2 && (v.space == 0 || (decide (h.stateOff ≤ v.offset) && decide (v.offset + v.words b.bits ≤ h.stateOff + h.stateWords))))

/-- A calibration word of a closed chain (R251, R276). `ts` are the chain's tensors. -/
def calGood (c : ProgCtx) (w : Word) (ts : List Nat) : Bool :=
  let k := bf w 31 24
  let p := c.prog
  let a := wat p.consts k
  let b := wat p.consts (k + 1)
  let x := Cal.ofWords a b
  let y := p.vec (bf w 42 35)
  k == 0xFF ||
    (decide (k + 1 < p.hdr.consts) && bf a 10 0 == 0 && bf b 43 0 == 0
      && (if x.clipShare then x.target == 0 && x.adjMin == 0 else x.clipHi == 0 && within x.target 1 14)
      && decide (x.adjMin ≤ 0) && decide (0 ≤ x.adjMax) && (!x.calEn || (!p.hdr.folded && p.hdr.calOff != 0))
      && (if x.rerunEn then
            within x.rerunCost 1 c.reserve && ts.all (fun t => (p.ten t).alt != 0xFF) && !bit w 33 && y.space == 0 && y.cb8 != 0
          else x.rerunThresh == 0 && x.rerunCost == 0))

/-- The shapes, scales and destination of an MV (R262, R276). -/
def loadMv (env : Env) (c : ProgCtx) (k : Scan) (w : Word) : Eval Unit := do
  let p := c.prog
  let t := p.ten (bf w 58 51)
  let ts := k.chain ++ [bf w 58 51]
  chk (decide (t.rows ≤ 4096) && (p.vec (bf w 50 43)).len == t.cols && ts.all (fun x => (p.ten x).rows == t.rows)
    && decide ((ts.map (fun x => (p.ten x).cols)).sum ≤ 4096))
  if bit w 34 then
    chk (if p.hdr.folded then !bit w 32 else (if bit w 32 then t.scaleWords == t.rows else t.scaleWords != 0))
    chk (calGood c w ts)
    if !bit w 33 then
      let y := p.vec (bf w 42 35)
      let b ← c.loc.book env y.cb
      chk (y.len == t.rows && !b.escEn)

/-- The shapes and the scale of an EW (R263, R276). -/
def loadEw (env : Env) (c : ProgCtx) (w : Word) : Eval Unit := do
  let p := c.prog
  let n := (p.vec (bf w 58 51)).len
  chk ((insReads w).all (fun i => (p.vec i).len == n))
  chk (if p.hdr.folded then bf w 18 11 == 0 else decide (bf w 18 11 < p.hdr.consts) && bf (wat p.consts (bf w 18 11)) 33 0 == 0)
  if !bit w 10 then
    let y := p.vec (bf w 42 35)
    let b ← c.loc.book env y.cb
    chk (y.len == n && !b.escEn)

/-- A lookup table of `n` bytes whose entries are below a bound (R259, R276). -/
def loadLut (env : Env) (c : ProgCtx) (row n top : Nat) : Eval Unit := do
  let ws ← c.loc.words env row (cdiv n 8)
  chk ((List.range n).all (fun i => decide (lane ws 8 i < top)))

/-- MAP (R264, R276). -/
def loadMap (env : Env) (c : ProgCtx) (w : Word) : Eval Unit := do
  let p := c.prog
  let x := p.vec (bf w 58 51)
  let y := p.vec (bf w 50 43)
  let lk := wat p.consts (bf w 42 35)
  let bx ← c.loc.book env x.cb
  let bY ← c.loc.book env y.cb
  chk (decide (bf w 42 35 < p.hdr.consts) && bf lk 15 0 == 0 && x.len == y.len && (x.cb8 == 0 || bf lk 39 16 != 0))
  loadLut env c (bf lk 63 40) (2 ^ bitsOf bx.bits) (2 ^ bitsOf bY.bits)
  if bf lk 39 16 ≠ 0 then loadLut env c (bf lk 39 16) 256 (2 ^ bitsOf bY.bits)

/-- EMB (R264, R276). -/
def loadEmb (env : Env) (c : ProgCtx) (w : Word) : Eval Unit := do
  let d := c.prog.ten (bf w 58 51)
  let y := c.prog.vec (bf w 50 43)
  let b ← c.loc.book env d.cb
  chk (d.rows == c.vocab && !b.escEn && d.bs == 0 && y.cb == d.cb && y.len == d.cols)

/-- The rules of one kind of instruction (R262 to R264, R276). -/
def loadKind (env : Env) (c : ProgCtx) (k : Scan) (w : Word) : Eval Unit :=
  let op := bf w 63 59
  let x := c.prog.vec (bf w 58 51)
  let y := c.prog.vec (bf w 50 43)
  if op = 1 then loadMv env c k w
  else if op = 2 then loadEw env c w
  else if op = 3 then loadMap env c w
  else if op = 4 then loadEmb env c w
  else if op = 5 then chk (y.space == 3 && x.len == winSlot y && x.cb == y.cb && x.cb8 == 0)
  else if op = 6 then chk (x.len == y.len && x.cb == y.cb && x.cb8 == 0)
  else .ok ()

/-- The record that the calibration word of a closed chain names (R238, R251), and whether the layer keeps it (R244). -/
def insRec (p : Prog) (w : Word) : List (Nat × Bool) :=
  if bf w 63 59 = 1 ∧ bit w 34 = true ∧ bf w 31 24 ≠ 0xFF then [((p.cal (bf w 31 24)).record, (p.cal (bf w 31 24)).calEn)] else []

/-- One instruction checked (R276); instruction `i` of the program. -/
def loadIns (env : Env) (c : ProgCtx) (k : Scan) (w : Word) (i : Nat) : Eval Scan := do
  let p := c.prog
  let op := bf w 63 59
  let pl := c.places.getD i (0, 1)
  let rs := insReads w
  let ys := insWrites w
  chk (insCoded w && ((op == 0) == (i + 1 == p.hdr.instrs)) && (k.chain.isEmpty || op == 1))
  chk ((rs ++ ys).all (fun v => decide (v < p.hdr.vectors)) && (insTensor w).toList.all (fun t => decide (t < p.hdr.tensors)))
  chk (rs.all (fun v => (p.vec v).space != 0 || k.written.any (fun x => x.1 == v)))
  chkAll ys (c.writable env)
  loadKind env c k w
  chkAll (insTensor w).toList (c.tenPlaced env pl.1)
  let fars ← (rs ++ ys).mapM (c.vecFar env k pl.1)
  let tfar ← (insTensor w).toList.mapM (c.tenFar env pl.1)
  let stop := k.cost + insCost p pl.2 w + 16 * ((fars ++ tfar).filter id).length
  let es := insEntries p w
  let fresh := ys.filter (fun v => (p.vec v).space == 0 && !k.written.any (fun x => x.1 == v))
  return { cost := stop, written := k.written ++ fresh.map (fun v => (v, pl.1)),
           entries := k.entries ++ (List.range es.2).map (fun j => es.1 + j),
           chain := if op = 1 ∧ bit w 34 = false then k.chain ++ [bf w 58 51] else [],
           recs := k.recs ++ insRec p w,
           touch := k.touch ++ ((rs ++ ys).filter (fun v => (p.vec v).space == 1 || (p.vec v).space == 3)).map (fun v => (v, k.cost, stop)) }

/-- The tensors that a rerun of a SPLIT program's instruction reads lie in its region (R265, R272). -/
def altsPlaced (env : Env) (c : ProgCtx) : Eval Unit :=
  chkAll c.prog.code.zipIdx (fun x =>
    match insTensor x.1 with
    | some t => let a := (c.prog.ten t).alt; if a = 0xFF then .ok () else c.tenPlaced env (c.places.getD x.2 (0, 1)).1 a
    | none => .ok ())

/-- The longest state span: of a STATE or WINDOW vector, from its first touch to its last, by the words it occupies; 20 for a
calibration record (R268). -/
def Scan.span (p : Prog) (k : Scan) : Nat :=
  let piece (v : Nat) : Nat :=
    let ts := k.touch.filter (fun t => (p.vec t.1).offset == (p.vec v).offset)
    ts.foldl (fun m t => max m t.2.2) 0 - (ts.map (fun t => t.2.1)).foldl min (ts.foldl (fun m t => max m t.2.2) 0)
  (k.touch.map (fun t => piece t.1)).foldl max (if k.recs.any (·.2) then 20 else 0)

/-- The header fields of a program (R255, R276). -/
def progHdrGood (r : List Word) (clusters : Nat) : Bool :=
  let h := ProgHdr.ofRow r
  bf (wat r 0) 26 0 == 0 && bf (wat r 1) 14 0 == 0 && bf (wat r 2) 39 0 == 0 && bf (wat r 3) 11 0 == 0 && bf (wat r 4) 9 0 == 0
    && (r.drop 5).all (· == 0) && decide (1 ≤ h.instrs) && decide (1 ≤ h.vectors) && within (h.placement clusters) 1 2
    && decide (h.pl8 ≤ 2) && decide (h.pl4 ≤ 2)
    && (h.pl8 == 2 || h.pl8Offset == 0) && (h.pl4 == 2 || h.pl4Offset == 0)
    && (h.stateWords != 0 || h.initOffset == 0) && (h.stateWords == 0 || (decide (1 ≤ h.stateOff) && decide (h.stateOff + h.stateWords ≤ 256)))
    && decide (h.calOff ≤ 176)

/-- The placement of a REPLICATED program (R271, R276). -/
def replGood (env : Env) (c : ProgCtx) : Bool :=
  let h := c.prog.hdr
  c.inObj env 0 h.objRows && decide (c.addr env h.objRows ≤ 2 ^ 19)
    && (List.range c.regions).all (fun r => r == 0 || (let d := hdlAt env.hdl (h.repl.getD (r - 1) 0); d.valid && d.inRegion r && decide (h.objRows ≤ d.bound)))

/-- A SHARED tensor lies beyond OBJ_ROWS (R271). -/
def sharedFar (env : Env) (c : ProgCtx) : Eval Unit :=
  chkAll c.prog.tens (fun d => do
    let b ← c.loc.book env d.cb
    chk (c.split || !d.shared || (d.parts b.bits).all (fun p => p.2 == 0 || decide (c.loc.objRows ≤ p.1))))

/-- The placement table of a SPLIT program: region and engines of each instruction (R272). -/
def loadPlaces (env : Env) (l : ProgLoc) (row n regions : Nat) : Eval (List (Nat × Nat)) := do
  let ws ← l.words env row (cdiv n 8)
  let bs := (List.range n).map (lane ws 8)
  chk (bs.all (fun b => nf b 3 0 == 0 && decide (nf b 7 6 < regions) && nf b 5 4 != 3))
  return bs.map (fun b => (nf b 7 6, 2 ^ nf b 5 4))

/-- Bits that the SCRATCH vectors of a program hold (R256). -/
def scratchBits (p : Prog) (books : List Book) : Nat :=
  ((p.vecs.zip books).map (fun v => if v.1.space = 0 then v.1.len * (if v.1.cb8 = 0 then bitsOf v.2.bits else 8) else 0)).sum

/-- The head words that the initial image gives the program's own WINDOW vectors: HEAD below K, the rest zero (R257). -/
def headsGood (p : Prog) (init : List Word) : Bool :=
  p.vecs.all (fun v => v.space != 3 || decide (v.offset < p.hdr.stateOff) || decide (p.hdr.stateOff + p.hdr.stateWords ≤ v.offset)
    || (let w := wat init (v.offset - p.hdr.stateOff); bf w 59 0 == 0 && decide (bf w 63 60 < v.winK)))

/-- The first words of the 512-bit groups that hold a STATE or WINDOW vector's codes (R257). -/
def groupStarts (v : VecD) (bits : Nat) : List Nat :=
  if v.space = 1 then (List.range (cdiv v.len (perRow bits))).map (fun g => v.offset + 8 * g)
  else if v.space = 3 then
    (List.range v.winK).flatMap (fun s => (List.range (winGroup v bits / 8)).map (fun g => v.offset + 1 + s * winGroup v bits + 8 * g))
  else []

/-- Bits [511:510] of the groups of 3-bit codes that the initial image gives the program's own vectors (R9, R220, R257). -/
def groupsGood (p : Prog) (books : List Book) (init : List Word) : Bool :=
  (p.vecs.zip books).all (fun v => bitsOf v.2.bits != 3 || (groupStarts v.1 v.2.bits).all (fun o =>
    decide (o + 7 < p.hdr.stateOff) || decide (p.hdr.stateOff + p.hdr.stateWords ≤ o + 7) || bf (wat init (o + 7 - p.hdr.stateOff)) 63 62 == 0))

/-- What a policy must know of a program: its area, CAL_OFF, and the records of its calibrated layers. -/
structure ProgUse where
  off : Nat
  words : Nat
  cal : Nat
  recs : List Nat
  deriving DecidableEq, Repr

/-- One program of a policy checked (R276); `issue` bounds its state span when it is a NEUR stage's. -/
def loadProg (env : Env) (g : Grade) (vocab : Nat) (q : Policy) (t : Stage) (ingress : Bool) : Eval ProgUse := do
  let l0 : ProgLoc := { h := t.objH, o := t.objO, useRepl := false, replH := 0, objRows := 0 }
  let r ← l0.words env 0 8
  chk (leased env t.objH && progHdrGood r g.clusters)
  let h := ProgHdr.ofRow r
  let l := { l0 with objRows := h.objRows }
  let p ← readProg env l
  let split := h.placement g.clusters == 2
  let places ← if split then loadPlaces env l (if g.clusters = 8 then h.pl8Offset else h.pl4Offset) h.instrs g.regions else .ok []
  let _ ← if (if g.clusters = 8 then h.pl4 else h.pl8) = 2 then loadPlaces env l (if g.clusters = 8 then h.pl4Offset else h.pl8Offset) h.instrs 4 else .ok []
  let c : ProgCtx := { loc := l, prog := p, split := split, regions := g.regions, places := places, count := t.count,
                       reserve := if ingress then q.rerunIn else q.rerunOut, vocab := vocab }
  chk (split || replGood env c)
  let vw ← l.words env h.vecRow (2 * h.vectors)
  let tw ← l.words env h.tenRow (4 * h.tensors)
  let books ← p.vecs.zipIdx.mapM (fun v => loadVec env c v.1 (wat vw (2 * v.2)) (wat vw (2 * v.2 + 1)))
  chkAll p.tens.zipIdx (fun d => do let _ ← loadTen env c d.1 (tw.drop (4 * d.2)); return ())
  chk (decide (scratchBits p books ≤ 131072))
  sharedFar env c
  altsPlaced env c
  let init ← l.words env h.initOffset h.stateWords
  chk (headsGood p init && groupsGood p books init)
  let k ← p.code.zipIdx.foldlM (fun k x => loadIns env c k x.1 x.2)
    { cost := 18, written := [], entries := [], chain := [], recs := [], touch := [] }
  chk (k.entries.length == t.count && (List.range t.count).all k.entries.contains && decide (k.cost ≤ h.cost))
  chk (if t.kind = 4 then decide (h.cost ≤ q.wTurn) else decide (k.span p ≤ if ingress then q.issueIn else q.issueOut))
  return { off := h.stateOff, words := h.stateWords, cal := h.calOff, recs := k.recs.map (·.1) }

/-- The areas and records of a policy's programs (R251, R266, R276). -/
def areasGood (us : List ProgUse) : Bool :=
  let cals := (us.map (·.cal)).filter (· != 0)
  let recs := us.flatMap (·.recs)
  us.zipIdx.all (fun a => (us.drop (a.2 + 1)).all (fun b => a.1.words == 0 || b.words == 0
      || decide (a.1.off + a.1.words ≤ b.off) || decide (b.off + b.words ≤ a.1.off)))
    && cals.all (fun c => c == cals.headD 0)
    && us.all (fun a => a.words == 0 || cals.isEmpty || decide (a.off + a.words ≤ cals.headD 0) || decide (cals.headD 0 + 80 ≤ a.off))
    && recs.zipIdx.all (fun a => (recs.drop (a.2 + 1)).all (· != a.1))

/-- The NEUR and TURN programs of one policy (R235, R251, R276). -/
def loadPrograms (env : Env) (g : Grade) (vocab : Nat) (q : Pol) : Eval Unit := do
  let o ← (q.outS.filter (fun t => decide (3 ≤ t.kind))).mapM (fun t => loadProg env g vocab q.pol t false)
  let i ← (q.inS.filter (fun t => decide (3 ≤ t.kind))).mapM (fun t => loadProg env g vocab q.pol t true)
  chk (areasGood (o ++ i))

end Sys2Proof.Machine
end

