-- ==== Sys2Proof/Machine/ImageCmd.lean ====
section
/-! DEFINITION. IMAGE_LOAD in its three phases, and IMAGE_QUERY (R282, R362 to R367). -/
namespace Sys2Proof.Machine

/-- IMAGE_LOAD is accepted from cold step 4 on, from step 3 of a warm or job start on (R430, R431). -/
def State.loadOpen (s : State) : Bool :=
  !s.inReset && (match s.rs.start with
    | none => true
    | some r => !r.held && decide (r.at' + (if r.reach = .cold then 5000 else 2500) ≤ s.tm.refclk))

/-- PHASE of IMAGE_LOAD; a packet without W0 counts as BEGIN (R353). -/
def phaseOf (ps : List Word) : Nat := bf (wat ps 0) 63 62

/-- PLEN of IMAGE_LOAD (R353, R363). -/
def loadLen (ps : List Word) : Option Nat :=
  if ps.isEmpty then none
  else if phaseOf ps = 0 then beginLen ps
  else if phaseOf ps = 1 then some (1 + 8 * bf (wat ps 0) 27 19)
  else if phaseOf ps = 2 then some 2
  else some ps.length

/-- Reserved fields, encodings and ranges of IMAGE_LOAD (R352, R363). -/
def loadBad (ps : List Word) : Bool :=
  if phaseOf ps = 1 then stray (wat ps 0) [(63, 19)] || bf (wat ps 0) 27 19 == 0
  else if phaseOf ps = 3 then true
  else stray (wat ps 0) [(63, 62)]

/-- IMAGE_LOAD, when the packet that starts next is one and its PHASE is among those given. -/
def State.runLoad (s : State) (phases : List Nat) (act : Issuer → List Word → State → State) : State :=
  let s0 := State.refuseUnknown s.pktCount s
  match s0.nextPkt with
  | some (_, k) => if phases.contains (phaseOf (k.words.drop 1)) then s0.runCmd 0x30 onlyP0 loadLen loadBad act else s0
  | none => s0

/-- The load falls to IDLE with what it held (R364). -/
def State.dropLoad (s : State) : State := { s with img := { s.img with load := .idle, loading := none } }

/-- BEGIN accepted or refused (R364, R365). -/
def State.loadBegin (s : State) (i : Issuer) (ps : List Word) : State :=
  if !s.loadOpen || s.img.load == .committing || s.img.retiring.isSome then s.answer i .busy
  else
    let s0 := s.dropLoad
    let s1 : State := { s0 with img := { s0.img with rowsIn := 0 } }
    let ws := ps.drop 1
    match imgOfBegin s1.grade ws (s1.img.gen + 1) with
    | none => s1.answer i .badImage
    | some g =>
      if s1.beginGood ws g then
        { s1 with img := { s1.img with load := .loading, loading := some g, gen := s1.img.gen + 1 } }.answer i .ok
      else s1.answer i .badImage

/-- IMAGE_LOAD, PHASE 0. -/
def State.onImageLoadBegin (s : State) : State :=
  s.runLoad [0, 3] (fun i ps s => s.loadBegin i ps)

/-- Whether a row lies in a read-only lease of the image in force, its replicas among them (R271, R282). -/
def State.leaseHolds (s : State) (row : Nat) : Bool :=
  match s.img.force with
  | some f => s.hdl.any (fun c => let h := Handle.ofWord c.2; h.covers row && (!h.writable || f.repl.contains c.1))
  | none => false

/-- HANDLE_CONFLICT of the image-load path (R281, R282), reported in the partition of the handle (R336). -/
def State.loadConflict (s : State) (d : Handle) (h o : Nat) : State :=
  let s1 := s.trouble .handleConflict 6 (Obj.ssm h o) none 0
  if d.gate then s1 else s1.raise d.scope 6

/-- Rows written from the words of a packet; a write-back queued for one of them is dropped (R291). -/
def State.putRows (s : State) (row n : Nat) (ws : List Word) : State := { s.dropBacks row n with mem := s.mem.putWords (8 * row) ws }

/-- DATA accepted or refused (R363 to R365). -/
def State.loadData (s : State) (i : Issuer) (ps : List Word) : State :=
  match s.img.load, s.img.loading with
  | .loading, some g =>
    let h := bf (wat ps 0) 61 52
    let o := bf (wat ps 0) 51 28
    let n := bf (wat ps 0) 27 19
    let d := g.handle h
    if !d.valid || d.gate || decide (d.bound < o + n) then s.dropLoad.answer i .badImage
    else
      match (List.range n).find? (fun k => s.leaseHolds (d.base + o + k)) with
      | some k => (s.loadConflict d h (o + k)).dropLoad.answer i .badImage
      | none =>
        let s1 := s.putRows (d.base + o) n (ps.drop 1)
        { s1 with img := { s1.img with rowsIn := s1.img.rowsIn + n } }.answer i .ok
  | _, _ => s.answer i .busy

/-- IMAGE_LOAD, PHASE 1. -/
def State.onImageLoadData (s : State) : State :=
  s.runLoad [1] (fun i ps s => s.loadData i ps)

/-- The reserved bits and ranges of the image header (R362). -/
def imageHdrGood (h : List Word) : Bool :=
  !stray (wat h 0) [(63, 22)] && !stray (wat h 1) [(63, 30)] && !stray (wat h 2) [(63, 17)] && !stray (wat h 3) [(63, 30)]
    && !stray (wat h 4) [(63, 30)] && !stray (wat h 5) [(63, 27)] && wat h 6 == 0 && wat h 7 == 0
    && within (bf (wat h 2) 29 17) 1 4096 && within (bf (wat h 5) 45 27) 1 262144

/-- The stages of an image's policies that run programs, as they lie in memory (R148, R149). -/
def progStages (env : Env) (i : Img) : Eval (List Stage) := do
  let ss ← (List.range i.policies).mapM (fun n => do
    let p := Policy.ofRow (← env.row i.polH (i.polO + n))
    let ws ← env.wordsAt p.tableH p.tableO (p.outStages + p.inStages)
    return (ws.map Stage.ofWord).filter (fun t => t.kind == 3 || t.kind == 4))
  return ss.flatten

/-- The replicas of a REPLICATED program: region, handle, rows (R271). -/
def replOf (env : Env) (g : Grade) (t : Stage) : Eval (List (Nat × Nat)) := do
  let h := ProgHdr.ofRow (← env.row t.objH t.objO)
  return if h.placement g.clusters = 1 then (List.range g.regions).filterMap (fun r => if r = 0 then none else some (h.repl.getD (r - 1) 0, h.objRows)) else []

/-- The words over which END computes the CRC (R366). -/
def crcInput (env : Env) (i : Img) (repl : List Nat) : Eval (List Word) := do
  let hs := (List.range 1024).filter (fun n => let d := i.handle n; d.valid && !d.gate && !repl.contains n)
  let rows ← hs.mapM (fun n => env.wordsAt n 0 (8 * (i.handle n).bound))
  return i.begun ++ rows.flatten

/-- The descriptors of the tables that LOOKUP operations name, kept for the life of the image (R202). -/
def lookupDescs (env : Env) (pols : List Pol) : Eval (List ((Nat × Nat) × List Word)) := do
  let fs := (pols.flatMap (fun q => q.outS ++ q.inS)).filter (fun t => t.kind == 1)
  let ds ← fs.mapM (fun t => do
    let ws ← env.wordsAt t.objH (t.objO + 1) t.count
    (ws.filter (fun w => bf w 63 61 == 0)).mapM (fun w => do
      let r ← env.row (bf w 60 51) (bf w 50 27)
      return ((bf w 60 51, bf w 50 27), r)))
  return ds.flatten

/-- The sums of the bursts granted to valid tenants: output, input (R325, R339). -/
def State.bursts (s : State) : Nat × Nat :=
  (s.ledgers.filter (fun c => c.2.valid)).foldl (fun a c => (a.1 + c.2.outBurst, a.2 + c.2.inBurst)) (0, 0)

/-- Every check of END (R312, R366 and the chapters' load checks): the image with what the gate takes from its rows, or an error. A
tier device counts as attached once it has answered (log 127). -/
def State.loadChecked (s : State) (i : Img) (crc8 crc4 : Nat) : Eval Img := do
  let env := s.env i
  let ss ← progStages env i
  let reps := (← ss.mapM (replOf env s.grade)).flatten
  let repl := (reps.map (·.1)).eraseDups
  let crc := crc32c (← crcInput env i repl)
  chk (crc == (if s.grade.clusters = 8 then crc8 else crc4))
  chk (imageHdrGood i.hdr && decide (24576 ≤ (i.handle i.stageHdlNo).bound))
  let cw ← env.wordsAt (bf (wat i.hdr 1) 63 54) (bf (wat i.hdr 1) 53 30) 40
  chk (contractGood cw (s.tier.devs.any (·.present)))
  let c := Contract.ofWords cw
  let mw ← env.wordsAt (bf (wat i.hdr 4) 63 54) (bf (wat i.hdr 4) 53 30) 16
  chk (meterGood mw c.variants s.bursts.1 s.bursts.2)
  let pols ← (List.range i.policies).mapM (loadPolicy env i c (min c.floor s.clk.plan))
  loadScreening env i pols
  chkAll pols (loadPrograms env s.grade i.vocab)
  let descs ← lookupDescs env pols
  return { i with crc8 := crc8, crc4 := crc4, contract := c, meter := Meter.ofWords mw, descs := descs, repl := repl }

/-- The replicas that END writes: first row of the copy, the rows' words (R271). -/
def State.replicas (s : State) (i : Img) : Eval (List (Nat × Nat × List Word)) := do
  let env := s.env i
  let ss ← progStages env i
  let rs ← ss.mapM (fun t => do
    let reps ← replOf env s.grade t
    reps.mapM (fun x => do
      let ws ← env.wordsAt t.objH t.objO (8 * x.2)
      return (x.1, x.2, ws)))
  return rs.flatten

/-- A handle of a new layout that carries a read-only lease in force: same place, same MODE (R365). -/
def State.carried (s : State) (d : Handle) : Bool :=
  match s.img.force with
  | some f => s.hdl.any (fun c => let h := Handle.ofWord c.2; h.valid && (!h.writable || f.repl.contains c.1) && h.same d && h.writable == d.writable)
  | none => false

/-- The first row of a replica that END may not write (R282): a row of a lease in force, unless the lease is carried and the row keeps its
contents (R365). -/
def State.replConflict (s : State) (i : Img) (x : Nat × Nat × List Word) : Option Nat :=
  let d := i.handle x.1
  (List.range x.2.1).find? (fun k =>
    s.leaseHolds (d.base + k) && (!s.carried d || s.mem.row (d.base + k) != (x.2.2.drop (8 * k)).take 8))

/-- END accepted or refused (R364, R366). -/
def State.loadEnd (s : State) (i : Issuer) (ps : List Word) : State :=
  match s.img.load, s.img.loading with
  | .loading, some g =>
    let c8 := bf (wat ps 1) 63 32
    let c4 := bf (wat ps 1) 31 0
    let named := (imgC8 (wat g.hdr 0) || c8 == 0) && (imgC4 (wat g.hdr 0) || c4 == 0)
    match (if named then s.loadChecked g c8 c4 else .error (.bound 0 0)), s.replicas g with
    | .ok g1, .ok reps =>
      match reps.findSome? (fun x => (s.replConflict g x).map (fun k => (x.1, k))) with
      | some x => (s.loadConflict (g.handle x.1) x.1 x.2).dropLoad.answer i .badImage
      | none =>
        let s1 := reps.foldl (fun s x => s.putRows (g.handle x.1).base x.2.1 x.2.2) s
        { s1 with img := { s1.img with load := .loaded, loading := some g1 } }.answer i .ok
    | _, _ => s.dropLoad.answer i .badImage
  | _, _ => s.answer i .busy

/-- IMAGE_LOAD, PHASE 2. -/
def State.onImageLoadEnd (s : State) : State :=
  s.runLoad [2] (fun i ps s => s.loadEnd i ps)

/-- The CRC of an image that this gate checked (R366, R367). -/
def State.ownCrc (s : State) (i : Img) : Nat := if s.grade.clusters = 8 then i.crc8 else i.crc4

/-- The words of IMAGE_QUERY (R367). -/
def State.imageWords (s : State) : List Word :=
  let force := match s.img.force with | some f => pack [(f.id, 63, 32), (s.ownCrc f, 31, 0)] | none => 0
  let target := match s.com.staged with | some t => if t.kind = .image then t.target else 0 | none => 0
  [ pack [(s.img.load.code, 63, 62), (b2n s.img.retiring.isSome, 61, 61), ((match s.img.loading with | some g => g.id | none => 0), 60, 29)],
    force, pack [(target, 63, 20)], word s.img.rowsIn ]

/-- IMAGE_QUERY. -/
def State.onImageQuery (s : State) : State :=
  s.runCmd 0x32 anyone (fixed 0) (fun _ => false) (fun i _ s => s.reply i .ok s.imageWords)

end Sys2Proof.Machine
end

