-- ==== Sys2Proof/Machine/Clocks.lean ====
section
/-! DEFINITION. Clocks, sleep and ageing (R436 to R453): the running clock and its steps, THROTTLE, the power request, SLEEP, the
ageing monitor. -/
namespace Sys2Proof.Machine

/-- The count of R57 runs while a contract is in force, THROTTLE is asserted and gclk equals f_floor; it starts again whenever one
of them stops holding. -/
def State.floorWatch (s : State) : State :=
  let on := s.contract.isSome && s.clk.throttle && s.clk.mhz == s.fFloor && !s.clk.sleeping
  { s with clk := { s.clk with floorAt := if on then some (s.clk.floorAt.getD s.tm.refclk) else none } }

/-- BAND of a gclk (R444). -/
def bandOf (mhz : Nat) : Nat := min 5 (cdiv (mhz - 600) 200)
/-- VF of a band (R444). -/
def vfOf (band : Nat) : Nat := ([0, 2, 5, 9, 14, 20] : List Nat).getD band 20
/-- The word driven on PWR_REQ for a gclk and AGE_OFS (R444). -/
def pwrWord (mhz ofs : Nat) : Nat := min 31 (vfOf (bandOf mhz) + ofs) * 8 + bandOf mhz

/-- PWR_SETTLE in units of 2^-16 ns (R446). -/
def State.settleTime (s : State) : Nat := fineOf (1000 * bf s.clk.ctlIn 40 35)
/-- RUN_MHZ in force (R446). -/
def State.runMhz (s : State) : Nat := bf s.clk.ctlIn 63 53

/-- gclk moves to a frequency (R443): the step pauses it, and the count of R57 is looked at. -/
def State.stepTo (s : State) (mhz : Nat) : State :=
  ({ s with clk := { s.clk with mhz := mhz, stepAt := s.tm.refclk, pausedAt := some s.fine } }).floorWatch

/-- The gclk one step of at most 100 MHz from `a` toward `b` (R443). -/
def stepToward (a b : Nat) : Nat := if a < b then min b (a + 100) else max b (a - 100)

/-- The target of the present moment: f_floor under THROTTLE, f_run once it has been away for 64 cycles (R443). -/
def State.clockTarget (s : State) : Option Nat :=
  if s.clk.throttle then some s.fFloor
  else if s.clk.throttleAt + 64 ≤ s.tm.refclk ∨ s.clk.throttleAt = 0 then some s.fRun
  else none

/-- One step of gclk (R443, R445): a raise into a higher BAND drives the new word first and waits PWR_SETTLE; a lowering drives
the new word after it. -/
def State.clockStep (s : State) : State :=
  match s.clockTarget with
  | none => s
  | some t =>
    let n := stepToward s.clk.mhz t
    if n = s.clk.mhz then s
    else if s.clk.mhz < n ∧ bandOf s.clk.mhz < bandOf n then
      { s with clk := { s.clk with pwrReq := pwrWord n s.clk.ageOfs, raise := some (s.fine + s.settleTime, n), stepAt := s.tm.refclk } }
    else
      let s1 := s.stepTo n
      { s1 with clk := { s1.clk with pwrReq := pwrWord n s1.clk.ageOfs } }

/-- GCLK_STEP: 64 REFCLK cycles after the last step, no raise waiting (R442, R443). -/
def State.onGclkStep (s1 : State) : State :=
  if s1.clk.mhz ≠ 0 ∧ s1.clk.sleeping = false ∧ s1.clk.raise = none ∧ (s1.clk.stepAt = 0 ∨ s1.clk.stepAt + 64 ≤ s1.tm.refclk) then
    s1.clockStep else s1

/-- THROTTLE_ASSERT: a raise that waits on PWR_SETTLE is dropped (R443, R453). -/
def State.onThrottleAssert (s1 : State) : State :=
  if s1.clk.throttle then s1
    else
      ({ s1 with clk := { s1.clk with throttle := true, throttleAt := s1.tm.refclk, raise := none } }).floorWatch

/-- THROTTLE_DEASSERT (R443). -/
def State.onThrottleDeassert (s1 : State) : State :=
  if s1.clk.throttle then
      ({ s1 with clk := { s1.clk with throttle := false, throttleAt := s1.tm.refclk } }).floorWatch
    else s1

/-- THROTTLE_FLOOR_VIOLATION: 4,096 REFCLK cycles of the count of R57. -/
def State.onThrottleFloorViolation (s1 : State) : State :=
  match s1.clk.floorAt with
    | some t => if t + 4096 ≤ s1.tm.refclk then s1.jobFault .contract Obj.none none 0 else s1
    | none => s1

/-- The ageing header (R448). -/
def agHeaderAt : Nat := 0x800
/-- NEXT and COUNT of the ageing header. -/
def State.agNext (s : State) : Nat := bf (s.retained agHeaderAt) 55 47
def State.agCount (s : State) : Nat := bf (s.retained agHeaderAt) 46 38
/-- The first word of the record at a place of the ring (R448). -/
def agRecAt (k : Nat) : Nat := 0x810 + 4 * k

/-- Word 1 of a record: the code of cluster c in [8c + 7 : 8c], zero for clusters absent (R448). -/
def codeWord (clusters : Nat) (codes : List Nat) : Word :=
  pack ((List.range clusters).map (fun c => (codes.getD c 0, 8 * c + 7, 8 * c)))

/-- The codes of a record, clusters present then spine (R448, R449). -/
def State.recCodes (s : State) (k : Nat) : List Nat :=
  (List.range s.grade.clusters).map (fun c => bf (s.retained (agRecAt k + 1)) (8 * c + 7) (8 * c)) ++ [bf (s.retained (agRecAt k + 2)) 63 56]

/-- The record at a place of the ring is there: one lost to an uncorrectable word is treated as absent (R429). -/
def State.recThere (s : State) (k : Nat) : Bool := bf (s.retained (agRecAt k)) 19 17 != 0

/-- The codes of the last records, at most seven, oldest first (R449). -/
def State.agHistory (s : State) : List (List Nat) :=
  let n := min s.agCount 7
  (((List.range n).map (fun i => (s.agNext + 508 - n + i) % 508)).filter s.recThere).map s.recCodes

/-- The projected code of a unit (R449). -/
def projected (codes : List Nat) : Nat :=
  let n := codes.length
  let last := codes.getLastD 0
  let d : Int := (last : Int) - (codes.headD 0 : Int)
  let slope : Int := if 1 < n ∧ d < 0 then d / ((n - 1 : Nat) : Int) else 0
  ((last : Int) + slope).toNat

/-- fmin of R449 from the codes of the measurements, oldest first. -/
def planFmin (units : Nat) (hist : List (List Nat)) : Nat :=
  let ps := (List.range units).map (fun u => projected (hist.map (fun r => r.getD u 0)))
  1000 + 4 * (ps.foldl min 255)

/-- The planned maximum (R449). -/
def planOf (fmin : Nat) : Nat := min 1600 (max 600 ((fmin - 100) / 25 * 25))

/-- The four words of a record (R448). -/
def agRecord (tick cause ofs plan spine : Nat) (codes : Word) : List Word :=
  [pack [(tick, 63, 20), (cause, 19, 17)], codes, pack [(spine, 63, 56), (ofs, 55, 51), (plan, 50, 40)], 0]

/-- Words put into the retained store in a row. -/
def State.putRetainedAll (s : State) (a : Nat) (ws : List Word) : State :=
  ws.zipIdx.foldl (fun s w => s.putRetained (a + w.2) w.1) s

/-- A record written at NEXT; the first one after the store is initialised is the baseline too (R448). -/
def State.putRecord (s : State) (ws : List Word) : State :=
  let n := s.agNext
  let k := s.agCount
  let s1 := s.putRetainedAll (agRecAt n) ws
  let s2 := if k = 0 then s1.putRetainedAll 0x804 ws else s1
  s2.putRetained agHeaderAt (pack [(1, 63, 56), ((n + 1) % 508, 55, 47), (min (k + 1) 508, 46, 38)])

/-- A measurement (R447 to R450): one that would plan below the requested clock raises AGE_OFS once and measures again after
PWR_SETTLE; else its record is written and the plan takes effect. -/
def State.measure (s : State) (cause : Nat) (codes : List Nat) (spine : Nat) (second : Bool) : State :=
  let n := s.grade.clusters
  let mine := (List.range n).map (fun c => codes.getD c 0 % 256) ++ [spine % 256]
  let fmin := planFmin (n + 1) (s.agHistory ++ [mine])
  let plan := planOf fmin
  if !second && decide (plan < min s.runMhz 1600) && decide (s.clk.ageOfs < 30) then
    { s with clk := { s.clk with ageOfs := s.clk.ageOfs + 2, pwrReq := pwrWord s.clk.mhz (s.clk.ageOfs + 2),
                                 remeasure := some (s.fine + s.settleTime, cause) } }
  else
    let w := codeWord n codes
    let s1 := s.putRecord (agRecord s.tick cause s.clk.ageOfs plan spine w)
    let s2 := { s1 with clk := { s1.clk with plan := plan, agCode := w, agSpine := spine % 256, agTick := s.tick, remeasure := none },
                        bal := { s1.bal with due := true } }
    (if fmin < 700 then s2.ageMargin 0 else s2).floorWatch

/-- The gate leaves SLEEP: the PLL relocks at f_run (R438). -/
def State.leaveSleep (s : State) : State :=
  if s.clk.sleeping then ({ s with clk := { s.clk with sleeping := false, quietSince := none, mhz := s.fRun } }).floorWatch else s

/-- CAUSE of the measurement due: a cold or warm start at its step 3, or a tick that is a multiple of 65,536 (R447). -/
def State.measureDue (s : State) : Option Nat :=
  match s.rs.start with
  | some r =>
    if r.measured = false ∧ r.held = false ∧ r.reach ≠ .job then some (if r.reach = .cold then 1 else 2)
    else if s.tick % 65536 = 0 ∧ s.clk.agTick ≠ s.tick then some 3 else none
  | none => if s.tick % 65536 = 0 ∧ s.clk.agTick ≠ s.tick then some 3 else none

/-- AGEING_MEASUREMENT: the codes of the clusters and of the spine (R447). -/
def State.onAgeingMeasurement (s1 : State) (codes : List Nat) (spine : Nat) : State :=
  if s1.inReset || s1.clk.remeasure.isSome then s1
    else
      match s1.measureDue with
      | none => s1
      | some c =>
        let s2 : State := { s1 with rs := { s1.rs with start := s1.rs.start.map (fun r : StartRun => { r with measured := true }) } }
        s2.leaveSleep.measure c codes spine false

/-- PWR_SETTLE_DONE: the supply has settled; a raise that waited for it is made, a measurement that waited for it is repeated
(R445, R449). -/
def State.onPwrSettleDone (s1 : State) (codes : List Nat) (spine : Nat) : State :=
  if s1.inReset then s1
  else
    let s2 := match s1.clk.raise with
      | some (t, n) => if t ≤ s1.fine then ({ s1 with clk := { s1.clk with raise := none } }).stepTo n else s1
      | none => s1
    (match s2.clk.remeasure with
      | some (t, c) => if t ≤ s2.fine then s2.measure c codes spine true else s2
      | none => s2)

/-- SLEEP_ENTRY: the conditions of SLEEP have held for 1 ms (R438). -/
def State.onSleepEntry (s1 : State) : State :=
  match s1.clk.quietSince with
    | some t =>
      if t + fineOf 1000000 ≤ s1.fine ∧ s1.clk.sleeping = false then
        { s1 with clk := { s1.clk with sleeping := true, mhz := 0, raise := none, floorAt := none } }
      else s1
    | none => s1

/-- SLEEP_EXIT, for any of its causes (R438). -/
def State.onSleepExit (s1 : State) (cause : WakeCause) : State :=
  match cause with
  | .hrpWord => s1.leaveSleep
  | .smpPacket => s1.leaveSleep
  | .fspItem => s1.leaveSleep
  | .clkCtlWrite => s1.leaveSleep

end Sys2Proof.Machine
end

