-- ==== Sys2Proof/Machine/Commit.lean ====
section
/-! DEFINITION. Equinox commits (R26, R39, R167, R343, R344, R360, R367, R403, R404): the checks of a change, staging and
aborting, the coordinator's decision, what a commit does at its tick, and the commands that start one. -/
namespace Sys2Proof.Machine

/-- The word that carries a target tick in [63:20]. -/
def targetWord (t : Nat) : Word := pack [(t, 63, 20)]
/-- The target tick of such a word. -/
def targetOf (w : Word) : Nat := bf w 63 20

/-- Payload of PREPARE (R395). -/
def preparePayload (t : Staged) : List Word :=
  [ pack [(t.target, 63, 20), (t.kind.code, 19, 18)],
    (match t.kind with
     | .image => pack [(t.imageId, 63, 32)]
     | .variant => pack [(t.variant, 63, 60)]
     | .mode => 0),
    (match t.kind with
     | .image => pack [(t.crc8, 63, 32), (t.crc4, 31, 0)]
     | _ => 0) ]

/-- The change that a PREPARE's payload names; the roles of a mode commit are this gate's SHADOW (R479). -/
def State.stagedOf (s : State) (ws : List Word) : Staged :=
  { kind := Kind.ofCode (bf (wat ws 0) 19 18), target := targetOf (wat ws 0), imageId := bf (wat ws 1) 63 32, crc8 := bf (wat ws 2) 63 32,
    crc4 := bf (wat ws 2) 31 0, variant := bf (wat ws 1) 63 60, roles := s.roleShadow, go := false, acked := false }

/-- fclk as kept against FCLK_MHZ: within 0.1 % (R39). -/
def State.fclkGood (s : State) (c : Contract) : Bool :=
  match s.fsp.fclkKept with
  | none => false
  | some e => decide (((e * 1000 : Int) - (c.fclk * 2 ^ 20 : Int)).natAbs * 1000 ≤ c.fclk * 2 ^ 20)

/-- The entries that a change of image concerns on this gate: home and edge entries not FREE (R167). -/
def State.screened (s : State) : List (Nat × Entry) := s.entries.filter (fun c => c.2.state != .free && (c.2.home || c.2.edge))

/-- The checks of a new image at PREPARE (R39, R167, R367): the policy of each session, not its stop set (log 135). -/
def State.imageRefusal (s : State) (t : Staged) : Option Status :=
  match s.img.load, s.img.loading with
  | .loaded, some g =>
    let s' : State := { s with img := { s.img with force := some g } }
    if g.id ≠ t.imageId ∨ g.crc8 ≠ t.crc8 ∨ g.crc4 ≠ t.crc4 then some .badImage
    else if !s.fclkGood g.contract then some .badImage
    else if s.screened.any (fun c => decide (g.policies ≤ c.2.policy)) then some .badImage
    else if s.screened.any (fun c => !s'.fits g c.2.policy c.2.hops) then some .busy
    else none
  | _, _ => some .badImage

/-- The checks of a variant at PREPARE (R343, R344). -/
def State.variantRefusal (s : State) (v : Nat) : Option Status :=
  match s.contract with
  | none => some .badImage
  | some c =>
    if c.variants ≤ v then some .badImage
    else if s.entries.any (fun e => e.2.state != .free && e.2.state != .wintered && e.2.state != .cancelled
        && (c.periodOf v 0 e.2.inLane == 0 || c.periodOf v 1 e.2.outLane == 0)) then some .busy
    else none

/-- Work of the gate under the RELAY role (R26). -/
def State.relayWork (s : State) : Bool :=
  s.entries.any (fun e => e.2.state == .wintering || e.2.state == .wintered || e.2.state == .springing || e.2.parked)
    || s.tier.dir.any (fun d => d.2.pages) || !s.tier.lib.isEmpty
    || s.tier.ops.any (fun o => match o.kind with | .publish _ _ => true | .adapterLoad _ => true | _ => false)

/-- A commit of roles would remove one that still has work (R26). -/
def State.roleRefusal (s : State) (roles : Nat) : Option Status :=
  let gone (b : Nat) : Bool := s.role.testBit b && !roles.testBit b
  if (gone 2 && s.entries.any (fun e => e.2.home && e.2.state != .free))
      || (gone 1 && s.edge.any (fun x => x.2.turnOpen)) || (gone 0 && s.relayWork) then some .notIdle
  else none

/-- The gate's check of a change at PREPARE (R23, R403). -/
def State.stageCheck (s : State) (t : Staged) : Option Status :=
  if s.com.staged.isSome then some .busy
  else
    match (match t.kind with
      | .image => s.imageRefusal t
      | .variant => s.variantRefusal t.variant
      | .mode => s.roleRefusal t.roles) with
    | some st => some st
    | none => if s.timeLocked then none else some .busy

/-- A change staged (R336, R364, R403). -/
def State.stageChange (s : State) (t : Staged) : State :=
  let s1 : State := { s with com := { s.com with staged := some { t with acked := true } } }
  match t.kind with
  | .image => { s1 with img := { s1.img with load := .committing } }
  | .variant => s1.raiseAll 5
  | .mode => s1

/-- An abort of a variant counted and reported (R336, R343). -/
def State.countAbort (s : State) : State := ({ s with bal := { s.bal with aborts := satAdd 16 s.bal.aborts 1 } }).raiseAll 5

/-- A change that is not made: the load back to LOADED, an abort of a variant counted and reported (R336, R343, R364, R403). -/
def State.unstage (s : State) (k : Kind) : State :=
  let s1 : State := { s with com := { s.com with staged := none } }
  match k with
  | .image => if s1.img.load = .committing then { s1 with img := { s1.img with load := .loaded } } else s1
  | .variant => s1.countAbort
  | .mode => s1

/-- Replies that a commit holds end with one status (R360). -/
def State.answerAll (s : State) (is : List Issuer) (st : Status) : State := is.foldl (fun s i => s.answer i st) s

/-- The coordinator aborts the commit in progress (R360, R403). -/
def State.abortCommit (s : State) (st : Status) : State :=
  match s.com.coord with
  | none => s
  | some c =>
    let s1 := (s.bcast typAbort 1 [targetWord c.target]).unstage c.kind
    let s2 : State := { s1 with com := { s1.com with coord := none } }
    s2.answerAll (c.replies ++ c.prepare.toList) st

/-- Every member of the system has acknowledged (R391, R403). -/
def State.allAcked (s : State) (c : Coord) : Bool := s.members.all (fun g => g == s.gate || c.acks.contains g)

/-- MODE_PREPARE is answered once every gate has acknowledged (R360). -/
def State.prepareDone (s : State) : State :=
  match s.com.coord with
  | some c =>
    if s.allAcked c then
      ({ s with com := { s.com with coord := some { c with prepare := none } } }).answerAll c.prepare.toList .ok
    else s
  | none => s

/-- The coordinator starts a commit: PREPARE on every link, its own check (R403). -/
def State.startCommit (s : State) (t : Staged) (replies : List Issuer) (prepare : Option Issuer) (pin : Option Nat) : State :=
  let c : Coord := { kind := t.kind, target := t.target, acks := [], modeCommit := false, decided := false, going := false, replies := replies,
                     prepare := prepare, pin := pin }
  let s1 := s.bcast typPrepare 1 (preparePayload t)
  let s2 (s : State) : State := { s with com := { s.com with coord := some c } }
  match s.stageCheck t with
  | none => (s2 (s1.stageChange t)).prepareDone
  | some st => (s2 s1).abortCommit st

/-- A commit may be started: none staged, none in progress (R403). -/
def State.commitFree (s : State) : Bool := s.com.staged.isNone && s.com.coord.isNone

/-- A change of image as the coordinator names it (R367). -/
def State.imageChange (s : State) (target : Nat) : Option Staged :=
  match s.img.load, s.img.loading with
  | .loaded, some g =>
    some { kind := .image, target := target, imageId := g.id, crc8 := g.crc8, crc4 := g.crc4, variant := 0, roles := 0, go := false, acked := false }
  | _, _ => none

/-- A change of variant. -/
def variantChange (v target : Nat) : Staged :=
  { kind := .variant, target := target, imageId := 0, crc8 := 0, crc4 := 0, variant := v, roles := 0, go := false, acked := false }

/-- A change of mode registers (R360, R479). -/
def State.modeChange (s : State) (target : Nat) : Staged :=
  { kind := .mode, target := target, imageId := 0, crc8 := 0, crc4 := 0, variant := 0, roles := s.roleShadow, go := false, acked := false }

/-- IMAGE_COMMIT at the coordinator, arrived at tick `now` (R367). -/
def State.imageCommit (s : State) (i : Issuer) (ps : List Word) (now : Nat) : State :=
  let t := targetOf (wat ps 0)
  if t < now + 3 ∨ s.commitFree = false then s.answer i .busy
  else
    match s.imageChange t with
    | some c => s.startCommit c [i] none none
    | none => s.answer i .badImage

/-- MODE_PREPARE at the coordinator (R360). -/
def State.modePrepare (s : State) (i : Issuer) (ps : List Word) (now : Nat) : State :=
  let t := targetOf (wat ps 0)
  if t < now + 3 ∨ s.commitFree = false then s.answer i .busy
  else s.startCommit (s.modeChange t) [] (some i) none

/-- MODE_COMMIT at the coordinator: for the staged MODE_PREPARE of the same TARGET, before the instant of TARGET - 2 (R360,
R413). -/
def State.modeCommit (s : State) (i : Issuer) (ps : List Word) (now : Nat) : State :=
  match s.com.coord with
  | some c =>
    if c.kind = .mode ∧ c.target = targetOf (wat ps 0) ∧ now + 2 < c.target ∧ c.modeCommit = false ∧ c.decided = false then
      { s with com := { s.com with coord := some { c with modeCommit := true, replies := c.replies ++ [i] } } }
    else s.answer i .busy
  | none => s.answer i .busy

/-- MODE_ABORT at the coordinator: any staged commit of that TARGET, up to the end of the cycle of tick TARGET - 2 (R360, R369). -/
def State.modeAbort (s : State) (i : Issuer) (ps : List Word) (now : Nat) : State :=
  match s.com.coord with
  | some c =>
    if c.target = targetOf (wat ps 0) ∧ now + 2 ≤ c.target ∧ (c.decided = false ∨ c.going = true) then (s.abortCommit .busy).answer i .ok
    else s.answer i .busy
  | none => s.answer i .busy

/-- A SCHEDULE_PIN done at once, reported on the gate that issued it (R336, R344). -/
def State.pinDone (s : State) (i : Issuer) : State := (if i.src.isNone then s.raiseAll 5 else s).answer i .ok

/-- SCHEDULE_PIN at the coordinator (R344). -/
def State.schedulePin (s : State) (i : Issuer) (ps : List Word) (now : Nat) : State :=
  let v := bf (wat ps 0) 62 59
  if bit (wat ps 0) 63 then
    match s.img.force with
    | none => s.answer i .badImage
    | some f =>
      if f.contract.variants ≤ v then s.answer i .badImage
      else if !s.commitFree then s.answer i .busy
      else if v = s.bal.active then ({ s with bal := { s.bal with pinned := true } }).pinDone i
      else s.startCommit (variantChange v (now + f.meter.lead)) [i] none (some v)
  else
    let co := s.com.coord.map (fun c : Coord => { c with pin := none })
    ({ s with bal := { s.bal with pinned := false, out := 0, since := 0 }, com := { s.com with coord := co } }).pinDone i

/-- A command of this kind issued on this gate holds its reply already (R357). -/
def State.heldHere (s : State) (op : Nat) : Bool :=
  s.cmi.fwds.any (fun f => f.issuer.op == op)
    || (match s.com.coord with
        | some c => (c.replies ++ c.prepare.toList).any (fun i => i.op == op && i.src.isNone)
        | none => false)

/-- A command for the coordinator: acted on here, or forwarded to it; one more that would hold a reply of its kind here is refused (R344,
R357, R360, R367, R402). -/
def State.toCoord (s : State) (i : Issuer) (ps : List Word) (act : State → Nat → State) : State :=
  let clears := i.op == 0x3A || (i.op == 0x3B && !bit (wat ps 0) 63)
  if !s.isCoord && s.heldHere i.op && !clears then s.answer i .busy
  else if s.isCoord then act s (s.tickAt s.cmi.arrival) else s.forward s.coordGate (cmdHeader i ps.length :: ps) i none

/-- Reserved bits of the word that carries TARGET. -/
def strayTarget (ps : List Word) : Bool := stray (wat ps 0) [(63, 20)]

/-- IMAGE_COMMIT. -/
def State.onImageCommit (s : State) : State :=
  s.runCmd 0x31 onlyP0 (fixed 1) strayTarget (fun i ps s => s.toCoord i ps (fun s n => s.imageCommit i ps n))

/-- MODE_PREPARE. -/
def State.onModePrepare (s : State) : State :=
  s.runCmd 0x38 onlyP0 (fixed 1) strayTarget (fun i ps s => s.toCoord i ps (fun s n => s.modePrepare i ps n))

/-- MODE_COMMIT. -/
def State.onModeCommit (s : State) : State :=
  s.runCmd 0x39 onlyP0 (fixed 1) strayTarget (fun i ps s => s.toCoord i ps (fun s n => s.modeCommit i ps n))

/-- MODE_ABORT. -/
def State.onModeAbort (s : State) : State :=
  s.runCmd 0x3A onlyP0 (fixed 1) strayTarget (fun i ps s => s.toCoord i ps (fun s n => s.modeAbort i ps n))

/-- SCHEDULE_PIN. -/
def State.onSchedulePin (s : State) : State :=
  s.runCmd 0x3B onlyP0 (fixed 1) (fun ps => stray (wat ps 0) [(63, 59)]) (fun i ps s =>
    s.toCoord i ps (fun s n => s.schedulePin i ps n))

/-- The coordinator's decision at the instant of tick TARGET - 2 (R360, R403). An abort leaves at once; a MODE_ABORT that is accepted before
the tick's cycle ends still governs, so GO leaves at its end (R369). -/
def State.goDecision (s : State) (k : Nat) : State :=
  match s.com.coord with
  | none => s
  | some c =>
    if c.decided || decide (k + 2 < c.target) then s
    else if !s.allAcked c then s.abortCommit .timeout
    else if c.kind == .mode && !c.modeCommit then s.abortCommit .busy
    else { s with com := { s.com with coord := some { c with decided := true, going := true } } }

/-- The gclk cycle that holds the instant of tick `k` is over (R372). -/
def State.cycleOver (s : State) (k : Nat) : Bool := decide (s.cycleOf (k * 2 ^ 36) < s.cycleOf s.fine)

/-- GO leaves once the cycle of tick TARGET - 2 is over (R369, R403). -/
def State.sendGo (s : State) : State :=
  match s.com.coord with
  | some c =>
    if c.going && !s.inReset && s.cycleOver (c.target - 2) then
      let s1 := s.bcast typGo 1 [targetWord c.target]
      { s1 with com := { s1.com with coord := some { c with going := false }, staged := s1.com.staged.map (fun t : Staged => { t with go := true }) } }
    else s
  | none => s

/-- COMMIT_GO_DECISION. -/
def State.onCommitGoDecision (s1 : State) : State :=
  if s1.inReset then s1 else (s1.goDecision s1.tick).sendGo

/-- A gate that acknowledged holds neither GO nor ABORT at tick TARGET - 1 (R404). -/
def State.undecided (s : State) (k : Nat) : State :=
  match s.com.staged with
  | some t => if t.acked && !t.go && decide (t.target ≤ k + 1) then s.jobFault .commitUndecided Obj.none none 0 else s
  | none => s

/-- COMMIT_UNDECIDED. -/
def State.onCommitUndecided (s1 : State) : State :=
  if s1.inReset then s1 else s1.undecided s1.tick

/-- An operation of a lane with slots at or after a change of the lane's period is abandoned; its event is not counted (R56). -/
def State.abandonChanged (s : State) (egress : Bool) (l : Nat) : State :=
  let next := (s.laneAt egress l).nextSlot
  let os := s.tier.ops.filter (fun o => o.kind.writes != egress && o.lane == l && decide (max next o.first < o.first + o.total))
  os.foldl (fun s o => (s.slip egress l (max next o.first) (s.opHandle o) 0 false).abandon o false false) s

/-- A slot FIFO emptied by reads. -/
def SlotFifo.clear (f : SlotFifo) : SlotFifo := f.items.foldl (fun g _ => g.pop) f

/-- A lane's period changes at tick `k`: its numbering starts again (R44, R58). -/
def State.changeLane (s : State) (egress : Bool) (l period k : Nat) : State :=
  let s1 := if egress then s else State.drain (s.inLaneAt l).fifo.items.length s l
  let s2 := s1.abandonChanged egress l
  let v := s2.laneAt egress l
  s2.setLane egress l { v with fifo := v.fifo.clear, period := period, nextSlot := 0, slot0 := 0, awaiting := some k, run := none, dead := [] }

/-- The lanes whose period changes at tick `k` (R44). -/
def State.applyPeriods (s : State) (k : Nat) : State :=
  [false, true].foldl (fun s eg => (List.range 4).foldl (fun s l =>
    let p := s.lanePeriod (b2n eg) l
    if (s.laneAt eg l).period = p then s else s.changeLane eg l p k) s) s

/-- What an image commit does to one session on its edge: its step, if it has drafts, resolves with nothing accepted (R169; for a LIVE
session log 115), and a turn without its last FEED is discarded, LENGTH back to what it was before the turn (R168, log 116). -/
def State.sessionAtCommit (s : State) (slot : Nat) : State :=
  let s1 := if (s.edgeAt slot).mark then (s.resolveStep slot 0 0 s.fine).1 else s
  let x := s1.edgeAt slot
  if x.turnOpen && !x.fedLast then s1.endStreamTo slot .withheld x.turnStart 0 else s1

/-- Items and turns of an image that still await their verdict: at the home its work and its turns, at the edge the tokens held and the
turn whose T_in is not past (R167, R367). -/
def State.imageUsed (s : State) (gen : Nat) : Bool :=
  s.home.any (fun h => h.2.turns.any (fun t => t.image == gen) || h.2.work.any (fun w => w.image == gen))
    || s.edge.any (fun x => (x.2.turnOpen && !x.2.tInDone && x.2.turnImage == gen) || x.2.held.any (fun t => t.image == gen))

/-- The previous image is dropped when the last item stamped before the tick has its verdict (R367): none waits here, and a tick has passed
in which the ring still brought such items (log 117). -/
def State.retire (s : State) : State :=
  match s.img.retiring with
  | some i => if s.imageUsed i.gen || decide (s.tick < s.img.retireFrom) then s else { s with img := { s.img with retiring := none } }
  | none => s

/-- IMAGE_RETIRE. -/
def State.onImageRetire (s1 : State) : State :=
  if s1.inReset then s1 else s1.retire

/-- D_OUT of an edge entry under the image in force (R167). -/
def State.newDelay (s : State) (i : Img) (slot : Nat) : State :=
  let e := s.entry slot
  if e.edge && e.state != .free then s.setEntry slot { e with dOut := (s.policyOf i e.policy).dOut } else s

/-- The first image commit after a reset (R294, R315): rings are new, and a WINTERED home entry gets a record. -/
def State.firstCommit (s : State) (slot : Nat) : State :=
  let e := s.entry slot
  if e.state = .free then s
  else
    let s1 := s.setEntry slot { e with inRing := RingD.opened e.inRing.thresh, outRing := RingD.opened e.outRing.thresh }
    if e.home && e.state == .wintered then (s1.brokenRec slot).setHome slot { s1.homeAt slot with matchChain := s1.root slot } else s1

/-- An image commit takes effect at tick `k` (R167 to R169, R330, R340, R364, R367, R433). -/
def State.effectImage (s : State) (k : Nat) : State :=
  match s.img.loading with
  | none => s
  | some g =>
    let slots := s.entries.map (·.1)
    let s1 := slots.foldl State.sessionAtCommit s
    let share := (g.meter.variants.getD g.meter.initial (0, 0, 0)).1
    let s2 : State :=
      { s1 with hdl := g.hdl,
                img := { s1.img with load := .idle, loading := none, force := some g, retiring := s1.img.force, retireFrom := k + 1,
                                     forceEpoch := (s1.com.epoch + 1) % 256 },
                bal := { s1.bal with active := g.meter.initial, pinned := false, m := share, out := 0, since := 0, due := true },
                rs := { s1.rs with attempts := 0 } }
    let s3 := if s1.img.force.isNone then slots.foldl State.firstCommit s2 else s2
    slots.foldl (fun s n => s.newDelay g n) s3

/-- A variant commit takes effect (R341, R441). -/
def State.effectVariant (s : State) (v : Nat) : State :=
  let pin := match s.com.coord with | some c => c.pin.isSome | none => false
  let s1 : State := { s with bal := { s.bal with active := v, switches := satAdd 32 s.bal.switches 1, out := 0, since := 0,
                                                 pinned := s.bal.pinned || pin } }
  let s2 := if bit s1.clk.ctlIn 41 then (List.range s1.grade.clusters).foldl (fun s c => s.wakeReq c) s1 else s1
  s2.raiseAll 5

/-- A staged commit that holds GO takes effect at its tick (R373 order 1, R403); a SCHEDULE_PIN that it completes is reported on the gate that
issued it (R336). -/
def State.takeEffect (s : State) (k : Nat) : State :=
  match s.com.staged with
  | none => s
  | some t =>
    if t.go && decide (t.target ≤ k) then
      let s1 := match t.kind with
        | .image => s.effectImage k
        | .variant => s.effectVariant t.variant
        | .mode => { s with role := t.roles }
      let co := match s1.com.coord with | some c => c.replies ++ c.prepare.toList | none => []
      let s2 : State := { s1 with com := { s1.com with staged := none, coord := none, epoch := (s1.com.epoch + 1) % 256, window := false } }
      let s3 := ((s2.applyPeriods k).floorWatch).answerAll co .ok
      if co.any (fun i => i.op == 0x3B && i.src.isNone) then s3.raiseAll 5 else s3
    else s

end Sys2Proof.Machine
end

