-- ==== Sys2Proof/Machine/TimeUnit.lean ====
section
/-! DEFINITION. The time unit (R370 to R387): setting and adjusting gate time, the servo, following over the ring, the twin and
holdover, the time commands and pins. -/
namespace Sys2Proof.Machine

/-- MODE of TM_CTL in force (R374): 0 FOLLOW, 1 MASTER, 2 ALONE. -/
def State.tmMode (s : State) : Nat := bf s.tm.ctlIn 63 62
/-- SOURCE of TM_CTL in force (R374): 0 COMMAND, 1 PPS, 2 TREF, 3 PKG. -/
def State.tmSource (s : State) : Nat := bf s.tm.ctlIn 61 60
/-- A package lead (R21). -/
def State.isLead (s : State) : Bool := s.gate % 8 == 0

/-- A master that follows its twin in holdover (R383). -/
def State.deposed (s : State) : Bool := s.tmMode == 1 && !s.tm.serving
/-- A gate that keeps time by command (R375, R379); one that follows its twin disciplines from the ring (R383). -/
def State.byCommand (s : State) : Bool := s.tmMode != 0 && s.tmSource == 0 && !s.deposed
/-- A gate that follows the ring (R375, R383). -/
def State.follows (s : State) : Bool := (s.tmMode == 0 && s.isLead && !s.tm.serving) || s.deposed
/-- A gate that follows its package lead's pulse (R375). -/
def State.followsPulse (s : State) : Bool := s.tmMode == 0 && !s.isLead && s.tmSource == 3
/-- A gate that disciplines from PPS, TREF, PKG or the ring (R379). -/
def State.disciplined (s : State) : Bool := !s.byCommand

/-- LOCKED cleared, with TIME_UNLOCK when it was set; a COMMAND gate stays as it is (R379). -/
def State.unlock (s : State) : State :=
  if s.byCommand then s
  else
    let s1 : State := { s with tm := { s.tm with locked := false } }
    if s.tm.locked then s1.trouble .timeUnlock 0 Obj.none none 0 else s1

/-- LOCKED of a COMMAND gate is SET (R379). -/
def State.lockCommand (s : State) : State :=
  if s.byCommand then { s with tm := { s.tm with locked := s.tm.set } } else s

/-- The period of `p` ns into which a forward step leads past its beginning, whose pulse is then not raised; a backward step keeps
what it does not lead out of (R385). -/
def passedOver (p old new : Nat) (mute : Option Nat) : Option Nat :=
  if old / p < new / p then (if new % p = 0 then none else some (new / p))
  else mute.filter (fun k => decide (k ≤ new / p))

/-- Gate time moves by a number of units of 2^-48 ns in one REFCLK cycle (R384): a step. The servo's unspent slew goes with it;
a serving master marks its next TIME message. -/
def State.stepTime (s : State) (d : Int) : State :=
  let t := (((s.tm.t48 : Int) + d) % (2 ^ 112 : Int)).toNat
  let s1 : State :=
    { s with tm := { s.tm with t48 := t, slewLeft := 0, lockRun := 0, stepPending := s.tm.stepPending || s.tm.serving,
                               stepped := s.tm.stepped + ((t >>> 32 : Nat) : Int) - ((s.tm.t48 >>> 32 : Nat) : Int),
                               ppsMute := passedOver 1000000000 (s.tm.t48 >>> 48) (t >>> 48) s.tm.ppsMute,
                               solMute := passedOver (2 ^ 20) (s.tm.t48 >>> 48) (t >>> 48) s.tm.solMute } }
  s1.unlock.lockCommand

/-- This gate's own count, which a step does not move: units of 2^-16 ns, modulo 2^64 (R381). -/
def State.count (s : State) : Nat := (((s.fine : Int) - s.tm.stepped) % (2 ^ 64 : Int)).toNat

/-- TIME_SET at the packet's start: the count takes the value, and the interpolator starts again from it (R377, log 22). An edge of
PPS_IN in the same cycle is measured against the new time (R387). -/
def State.setTime (s : State) (ns : Word) (frac : Nat) : State :=
  let target : Int := (ns.toNat : Int) * 2 ^ 48 + (frac : Int) * 2 ^ 32
  let s1 := s.stepTime (target - (s.tm.t48 : Int))
  ({ s1 with tm := { s1.tm with set := true, quarters := 0, ppsEdge := s.tm.ppsEdge.map (fun q => q - (s.tm.quarters : Int)) } }).lockCommand

/-- TIME_SET. -/
def State.onTimeSet (s : State) : State :=
  s.runCmd 0x40 onlyP0 (fixed 2) (fun ps => stray (wat ps 1) [(63, 48)]) (fun i ps s =>
    if s.tmMode = 0 then s.answer i .busy else (s.setTime (wat ps 0) (bf (wat ps 1) 63 48)).answer i .ok)

/-- The spread of a slew over an interval of REFCLK edges: units of 2^-48 ns for each edge (R384). -/
def slewRate (total : Int) (edges : Nat) : Nat := cdiv total.natAbs edges

/-- The most that a slew of TIME_ADJUST changes an increment: 100 ppm of 40 ns (R384). -/
def adjustStep : Nat := 40 * 2 ^ 48 / 10000

/-- The offset of TIME_ADJUST: slewed up to 1,000 ns, else a step (R384). -/
def State.adjustOffset (s : State) (off : Int) : State :=
  if off.natAbs ≤ 1000 then { s with tm := { s.tm with slewLeft := off * 2 ^ 48, slewStep := adjustStep } }
  else s.stepTime (off * 2 ^ 48)

/-- The frequency word of TIME_ADJUST (R359). -/
def adjustFreq (ps : List Word) : Int := sext 32 (bf (wat ps 1) 63 32)

/-- TIME_ADJUST's act (R377, R384). -/
def State.adjustTime (s : State) (i : Issuer) (ps : List Word) : State :=
  let f := adjustFreq ps
  if s.tmMode = 0 ∨ (f ≠ 0 ∧ s.tmSource ≠ 0) then s.answer i .busy
  else
    let s1 : State := if s.tmSource = 0 then { s with tm := { s.tm with c := f } } else s
    (s1.adjustOffset (wat ps 0).toInt).answer i .ok

/-- TIME_ADJUST: a frequency beyond the range of c is refused with RESERVED_SET. -/
def State.onTimeAdjust (s : State) : State :=
  s.runCmd 0x41 onlyP0 (fixed 2)
    (fun ps => stray (wat ps 1) [(63, 32)] || decide (200000000 < (adjustFreq ps).natAbs)) (fun i ps s => s.adjustTime i ps)

/-- The master's gate number as TM_STAT and TIME_QUERY report it (R374). -/
def State.masterNo (s : State) : Nat := if s.alone then s.gate else s.tm.master

/-- The words of TIME_QUERY (R359). -/
def State.timeWords (s : State) : List Word :=
  [ word s.tm.ns, pack [(s.tm.frac16, 63, 48), (b2n s.tm.set, 47, 47), (b2n s.tm.locked, 46, 46), (b2n s.tm.holdover, 45, 45),
      (s.masterNo, 44, 35)] ]

/-- TIME_QUERY. -/
def State.onTimeQuery (s : State) : State :=
  s.runCmd 0x42 anyone (fixed 0) (fun _ => false) (fun i _ s => s.reply i .ok s.timeWords)

/-- The bounds of c (R370). -/
def clampC (c : Int) : Int := max (-200000000) (min 200000000 c)

/-- REFCLK edges of a measurement interval: one second, or one tick (R378). -/
def perSecond : Nat := 25000000
def perTick : Nat := 26214

/-- The frequency line of R378 and the run of close measurements; `e` in units of 2^-16 ns, `g` ppt per ns. -/
def State.tune (s : State) (e : Int) (g : Nat) : State :=
  { s with tm := { s.tm with c := clampC (s.tm.c - nearest (e * (g : Int)) (2 ^ 16)),
                             lockRun := if e.natAbs ≤ 4 * 2 ^ 16 then min (s.tm.lockRun + 1) 255 else 0 } }

/-- LOCKED after a measurement (R379): cleared beyond 20 ns, set when the run reaches 8 with SET 1. -/
def State.judgeLock (s : State) (e : Int) : State :=
  if 20 * 2 ^ 16 < e.natAbs then s.unlock
  else if 8 ≤ s.tm.lockRun ∧ s.tm.set = true then { s with tm := { s.tm with locked := true } }
  else s

/-- A measurement has come (R379). -/
def State.measured (s : State) : State := { s with tm := { s.tm with lastMeas := s.tm.refclk } }

/-- One pass of the loop of R378: a step beyond 1,000 ns, else c, the slew of -e/2 over the interval, and the run. -/
def State.servo (s : State) (e : Int) (g edges : Nat) : State :=
  let s0 := s.measured
  if 1000 * 2 ^ 16 < e.natAbs then s0.stepTime (-e * 2 ^ 32)
  else
    let slew := -e * 2 ^ 31
    let s1 := s0.tune e g
    let s2 : State := { s1 with tm := { s1.tm with slewLeft := slew, slewStep := slewRate slew edges } }
    s2.judgeLock e

/-- The loop with SOURCE TREF: gate time neither steps nor slews (R378). -/
def State.servoTref (s : State) (e : Int) : State := ((s.measured).tune e 500).judgeLock e

/-- SET at a follower's first step or first close measurement (R379). -/
def State.setBy (s : State) : State := { s with tm := { s.tm with set := true } }

/-- The multiple of `p` nearest to `t`. -/
def nearestMultiple (t p : Nat) : Nat := (2 * t + p) / (2 * p) * p

/-- PKG_DELAY in units of 2^-16 ns (R374). -/
def State.pkgDelay (s : State) : Nat := bf s.tm.ctlIn 57 48 * 2 ^ 13

/-- PPS_EDGE: a rising edge of PPS_IN, measured at the end of its REFCLK cycle (R375, R387). -/
def State.onPpsEdge (s : State) : State := { s with tm := { s.tm with ppsEdge := some (s.tm.quarters : Int) } }

/-- The gate time at a waiting edge of PPS_IN, in units of 2^-16 ns (R371). -/
def State.ppsTime (s : State) (q : Int) : Nat := (((s.tm.t48 >>> 32 : Nat) : Int) + q * 2 ^ 14).toNat

/-- The measurement of an edge of PPS_IN that came at gate time `f` (R375, R378). -/
def State.measurePps (s : State) (f : Nat) : State :=
  let s1 : State := { s with tm := { s.tm with ppsEdge := none } }
  if s1.tmMode ≠ 0 ∧ s1.deposed = false ∧ s1.tmSource = 1 then
    s1.servo ((f : Int) - (nearestMultiple f (fineOf 1000000000) : Int)) 500 perSecond
  else if s1.followsPulse then
    match s1.tm.named with
    | some k =>
      let e : Int := (f : Int) - (k * 2 ^ 36 : Int) - (s1.pkgDelay : Int)
      (({ s1 with tm := { s1.tm with named := some (k + 1) } }).setBy).servo e 477 perTick
    | none => s1
  else s1

/-- TREF_MEASUREMENT: the drift in units of 2^-16 ns of TREF_IN against gate time over one second (R375). -/
def State.onTrefMeasurement (s1 : State) (drift : Int) : State :=
  if s1.tmMode ≠ 0 ∧ s1.deposed = false ∧ s1.tmSource = 2 then s1.servoTref drift else s1

/-- The interval of the gate's measurements in REFCLK edges (R378). -/
def State.interval (s : State) : Nat := if s.tmMode = 0 ∨ s.deposed = true then perTick + 1 else perSecond

/-- MEASUREMENT_LOSS: 8 measurement intervals in a row without a measurement (R379). -/
def State.onMeasurementLoss (s1 : State) : State :=
  if s1.disciplined && s1.tm.locked && decide (s1.tm.lastMeas + 8 * s1.interval ≤ s1.tm.refclk) then
      ({ s1 with tm := { s1.tm with lockRun := 0 } }).unlock
    else s1

/-- TM_CTL sampled at a tick (R374, R379, R383): a rewritten register takes its gate out of holdover; a changed MODE or SOURCE
clears LOCKED. -/
def State.sampleTime (s : State) : State :=
  let old := s.tm.ctlIn
  let new := s.tm.ctl
  let mode := bf new 63 62
  let s1 : State := { s with tm := { s.tm with ctlIn := new, rewritten := false } }
  let s2 : State :=
    if s.tm.rewritten then
      { s1 with tm := { s1.tm with serving := mode == 1, holdover := false, master := if mode = 0 then s1.tm.master else s1.gate,
                                   masterTwin := none, silent := 0, stepPending := false } }
    else s1
  let s3 := if bf old 63 60 = bf new 63 60 then s2 else ({ s2 with tm := { s2.tm with lockRun := 0, lastMeas := s2.tm.refclk, named := none } }).unlock
  s3.lockCommand

/-- Payload of TIME (R380, R381): CORR counts from the tick's instant on the gate's own count, and departure adds its own instant to it. -/
def State.timePayload (s : State) (k : Nat) : List Word :=
  [ pack [(k, 63, 20)], word (((s.tm.stepped - (k * 2 ^ 36 : Int)) % (2 ^ 64 : Int)).toNat),
    pack [(s.gate, 63, 54), ((if s.net.paired then s.net.twin else 0), 53, 44), (b2n s.tm.holdover, 43, 43), (1, 42, 33),
      (b2n s.tm.stepPending, 32, 32)] ]

/-- The TIME message of tick `k` leaves on the serving master (R373 order 8, R380, R384): HOPS 1. -/
def State.sendTime (s : State) (k : Nat) : State :=
  if s.tm.serving && s.ringOn then
    let hdr := withHops (ringHeader true typTime 0 s.gate true 0) 1
    let s1 := s.links.foldl (fun s l => s.queueOn l 2 (ringItem hdr (s.timePayload k))) s
    { s1 with tm := { s1.tm with stepPending := false } }
  else s

/-- A TIME message has come from the serving master or its twin (R380, R381). -/
def State.noteTime (s : State) (k sender twin : Nat) (hold : Bool) : State :=
  { s with tm := { s.tm with master := sender, masterTwin := some twin, holdover := hold, silent := 0, named := some (k + 1) } }

/-- The sender of a TIME message is the serving master or its twin, as far as this gate knows them (R381). -/
def State.knownSender (s : State) (g : Nat) : Bool :=
  match s.tm.masterTwin with
  | none => true
  | some t => g == s.tm.master || g == t

/-- TIME_TWO_MASTERS (R381, R383, R464). -/
def State.twoMasters (s : State) (action sender : Nat) : State := s.trouble .timeTwoMasters action Obj.none none (pack [(sender, 63, 54)])

/-- A TIME message accepted by a gate that follows (R378, R381, R384). -/
def State.followTime (s : State) (w1 w2 w3 : Word) : State :=
  let expected : Nat := bf w1 63 20 * 2 ^ 36 + w2.toNat + fineOf (bf w3 42 33 * s.hopNs)
  let e : Int := (s.fine : Int) - (expected : Int)
  let s1 := s.setBy
  if bit w3 32 then s1.measured.stepTime (-e * 2 ^ 32) else s1.servo e 477 perTick

/-- TIME at this gate (R380, R381, R383). -/
def State.takeTime (s : State) (ws : List Word) : State :=
  let w1 := wat ws 0
  let w3 := wat ws 2
  let sender := bf w3 63 54
  let twin := bf w3 53 44
  let hold := bit w3 43
  if s.tmMode = 2 ∨ (s.tmMode = 0 ∧ s.tm.serving = true) then s.twoMasters 1 sender
  else if s.tmMode = 1 then
    if hold ∧ s.net.paired = true ∧ sender = s.net.twin then
      let s1 := if s.tm.serving then ({ s with tm := { s.tm with serving := false } }).twoMasters 0 sender else s
      (s1.noteTime (bf w1 63 20) sender twin hold).followTime w1 (wat ws 1) w3
    else s.twoMasters 1 sender
  else if !s.knownSender sender then s.twoMasters 1 sender
  else
    let s1 := s.noteTime (bf w1 63 20) sender twin hold
    if s.isLead then s1.followTime w1 (wat ws 1) w3 else s1

/-- The words of mirrored area 3 (R407): TM_CTL, TM_STAT, GT_BAL_STAT, then out, since and the pin, then the sums of the balance
window by tick. -/
def State.tmStat (s : State) : Word :=
  pack [(b2n s.tm.set, 63, 63), (b2n s.tm.locked, 62, 62), (b2n s.tm.holdover, 61, 61), (b2n s.tm.serving, 60, 60),
    (s.masterNo, 59, 50), (s.tm.lockRun, 49, 42), (twos 32 s.tm.c, 41, 10)]

/-- GT_BAL_STAT (R344). -/
def State.balStat (s : State) : Word :=
  let v := match s.com.staged with | some t => if t.kind = .variant then t.variant else 0 | none => 0
  let sv := match s.com.staged with | some t => t.kind == .variant | none => false
  let tgt := match s.com.staged with | some t => t.target | none => 0
  pack [(s.bal.active, 63, 60), (v, 59, 56), (b2n sv, 55, 55), (b2n s.bal.pinned, 54, 54), (s.bal.m, 53, 46), (tgt, 43, 0)]

/-- The sums of the reports of a tick: P, D. -/
def State.reportSum (s : State) (k : Nat) : Nat × Nat :=
  (s.bal.reports.filter (fun r => r.tick == k)).foldl (fun a r => (a.1 + r.p, a.2 + r.d)) (0, 0)

/-- The words of mirrored area 3 at tick `k`: 0 TM_CTL, 1 TM_STAT, 2 GT_BAL_STAT, 3 out, since and pin, 4 to 19 the sums of the
sixteen ticks before, by tick number modulo 16. -/
def State.area3 (s : State) (k : Nat) : List Word :=
  [s.tm.ctl, s.tmStat, s.balStat, pack [(s.bal.out, 63, 60), (min s.bal.since 255, 59, 52), (b2n s.bal.pinned, 51, 51), (k, 43, 0)]]
    ++ (List.range 16).map (fun r =>
      let t := k - 1 - (k - 1 + 16 - r) % 16
      let q := s.reportSum t
      pack [(min q.1 (2 ^ 32 - 1), 63, 32), (min q.2 (2 ^ 32 - 1), 31, 0)])

/-- A word of the twin's mirror (R407), when the copy that brought it has ended and its page is not lost. -/
def State.mirrored (s : State) (area index : Nat) : Option Word :=
  let k := mirrorPlace area index
  if !s.net.peerDone || s.tier.mirrorLost.contains k then none else some (sget 0#64 s.tier.mirror k)

/-- A twin that takes over continues balance decisions from area 3 (R408); for a word that its mirror does not hold it goes on with its own
(log 122). -/
def State.takeBalance (s : State) : State :=
  let s1 := match s.mirrored 3 3 with
    | some w => { s with bal := { s.bal with out := bf w 63 60, since := bf w 59 52, pinned := bit w 51 } }
    | none => s
  let s2 := match s.mirrored 3 2 with | some w => { s1 with bal := { s1.bal with m := bf w 53 46 } } | none => s1
  match s.mirrored 3 3 with
  | none => s2
  | some w =>
    let k := bf w 43 0
    let rs := (List.range 16).filterMap (fun r => (s.mirrored 3 (4 + r)).map (fun q =>
      ({ gate := s.tm.master, tick := k - 1 - (k - 1 + 16 - r) % 16, p := bf q 63 32, d := bf q 31 0 } : Report)))
    { s2 with bal := { s2.bal with reports := rs } }

/-- The twin of a master that has been silent for 3 ticks takes over (R383). -/
def State.takeover (s : State) : State :=
  if s.net.paired && s.tmMode == 0 && !s.tm.serving && s.tm.masterTwin == some s.gate && s.net.twin == s.tm.master && decide (3 ≤ s.tm.silent) then
    let s1 := s.takeBalance
    { s1 with tm := { s1.tm with serving := true, holdover := true, master := s1.gate, silent := 0, stepPending := false } }
  else s

/-- TWIN_TAKEOVER: the takeover is part of a tick's work (R383); the row runs that of a tick that passed in a reset. -/
def State.onTwinTakeover (s : State) : State := if s.inReset ∨ s.tm.silent ≤ 3 then s else s.takeover

/-- PPS_OUT and SOLSTICE_OUT, high or low (R385, R423): low while disabled, while SET is 0, during a cold reset, and in a second or
tick whose instant a step passed over. -/
def State.ppsOut (s : State) : Bool :=
  bit s.tm.ctlIn 59 && s.tm.set && s.rs.reach != some .cold && decide (s.now % 1000000000 < 100000000)
    && s.tm.ppsMute != some (s.now / 1000000000)
def State.solsticeOut (s : State) : Bool :=
  bit s.tm.ctlIn 58 && s.tm.set && s.rs.reach != some .cold && decide (s.now % 2 ^ 20 < 2 ^ 19) && s.tm.solMute != some (s.now / 2 ^ 20)

end Sys2Proof.Machine
end

