-- ==== Sys2Proof/Machine/Ring.lean ====
section
/-! DEFINITION. Ring messages on this gate (R88, R89, R388 to R411): their arrival, passing on and acceptance; what each type does
at its destination. -/
namespace Sys2Proof.Machine

/-- A ring message dropped and counted, with its sticky bit (R392, R395, R399). -/
def State.ringDrop (s : State) (b : Sticky) (link : Nat) (h : Word) : State :=
  ({ s with net := { s.net with dropped := satAdd 16 s.net.dropped 1 } }).trouble b 1 (Obj.ring link (rSrc h) (rType h)) none 0

/-- The words 1 to 7 of a message. -/
def msgWords (it : Item) : List Word := (itemWords it).drop 1

/-- A message as it leaves a passing gate (R380, R381, R394): one hop more; TIME in its payload too, with the residence counted
from the present instant. -/
def State.hopItem (s : State) (it : Item) : Item :=
  let h := withHops it.w0 (rHops it.w0 + 1)
  if rType it.w0 = typTime then
    { it with w0 := h, w2 := word (it.w2.toNat + 2 ^ 64 - s.count),
              w3 := pack [(bf it.w3 63 43, 63, 43), (bf it.w3 42 33 + 1, 42, 33), (bf it.w3 32 0, 32, 0)] }
  else { it with w0 := h }

/-- The hops after which a message is dropped (R392): its own TIME messages leave with HOPS 1, every other with HOPS 0. -/
def hopLimit (typ : Nat) : Nat := if typ = typTime then 1023 else 1022

/-- The sequence that a part of a passing CMD or CMD_REPLY belongs to (R394). -/
def Passing.of (it : Item) (cls : Nat) : Passing := { src := rSrc it.w0, dst := rDst it.w0, type := rType it.w0, cls := cls }

/-- The class of a message that passes (R395): a CMD or CMD_REPLY by the opcode in its first part, later parts as the first. -/
def State.classOf (s : State) (it : Item) : Nat :=
  let t := rType it.w0
  if t = typCmd ∨ t = typCmdReply then
    if rSeq it.w0 = 0 then (if sessionOp (hOp it.w1) then 3 else 4)
    else
      match s.net.passing.find? (fun p => Passing.of it p.cls == p) with
      | some p => p.cls
      | none => 4
  else (ringClass t false).getD 5

/-- What a gate keeps of a sequence that passes: its class until its last part has passed (R395). -/
def State.notePassing (s : State) (it : Item) (cls : Nat) : State :=
  if rType it.w0 = typCmd ∨ rType it.w0 = typCmdReply then
    let rest := s.net.passing.filter (fun p => Passing.of it p.cls != p)
    { s with net := { s.net with passing := if rEnd it.w0 then rest else rest ++ [Passing.of it cls] } }
  else s

/-- A message passed on along a link (R392, R393). -/
def State.passMsg (s : State) (rx link : Nat) (it : Item) : State :=
  if hopLimit (rType it.w0) ≤ rHops it.w0 then s.ringDrop .ringLoop rx it.w0
  else
    let cls := s.classOf it
    (s.notePassing it cls).queueOn link cls (s.hopItem it)

/-- A broadcast passed on every other link in use (R396). -/
def State.passAll (s : State) (rx : Nat) (it : Item) : State :=
  (s.links.filter (fun l => l != rx)).foldl (fun s l => s.passMsg rx l it) s

/-- The image that judges what a message of an epoch carries (R167, R399): the one before, when the message left before the last
image commit. -/
def State.msgImage (s : State) (epoch : Nat) : Nat :=
  match s.img.retiring with
  | some r => if (s.img.forceEpoch + 256 - epoch) % 256 = 1 then r.gen else s.imgGen
  | none => s.imgGen

/-- A TOKEN at the home (R88, R89, R90, R123). -/
def State.ringToken' (s : State) (w : Word) (image : Nat) : State :=
  let slot := wSlot w
  let e := s.entry slot
  if e.home && (e.state == .live || e.state == .speculating) && wPos w == e.length then
    let s1 := s.setEntry slot { e with length := e.length + 1, outCount := e.outCount + 1 }
    (s1.writeOut slot (w ||| 0x8000_0000_0000_0000)).1.homeToken slot e.length (wTok w) e.outCount image s.fine
  else s.stateDrop e.part

/-- The home's MARK on its egress ring at the first draft of a step (R90, R136). -/
def State.markHome (s : State) (slot : Nat) : State :=
  if (s.homeAt slot).mark then s
  else
    let t := s.markOut slot
    t.setHome slot { t.homeAt slot with mark := true }

/-- A DRAFT at the home (R90, R123, R130): a packet that its ring has no room for is gone whole (R74). -/
def State.ringDraft (s : State) (w : Word) (image : Nat) : State :=
  let slot := wSlot w
  let e := s.entry slot
  if e.home && (e.state == .live || e.state == .speculating) then
    let r := (s.markHome slot).writeOut slot w
    if r.2 then r.1.homeDraft slot (wChain w) (wDepth w) (wTok w) image s.fine (wEnd w)
    else
      let h := r.1.homeAt slot
      r.1.setHome slot { h with drafts := h.drafts.filter (fun d => d.chain != wChain w) }
  else s.stateDrop e.part

/-- A VERDICT at the edge (R160). -/
def State.ringVerdict (s : State) (w : Word) : State :=
  let e := s.entry (wSlot w)
  if e.edge && (e.state == .live || e.state == .speculating || e.state == .closing) then s.edgeVerdict (wSlot w) w
  else s.stateDrop e.part

/-- A word that the ring may not bring: of another KIND, or with a reserved field or value in it (R115, R116, R118, R119). -/
def badRingWord (w : Word) : Bool :=
  !(wKind w == 1 || wKind w == 2 || wKind w == 4) || (wKind w == 2 && bf w 32 18 != 0)
    || (wKind w == 4 && ((verdictOf w).form == 3 || decide (4 < (verdictOf w).action)))

/-- One stream word of an ITEM message, checked at ring intake (R88, R89, R116). -/
def State.takeItem (s : State) (image : Nat) (w : Word) : State :=
  let e := s.entry (wSlot w)
  if w = idleWord then s
  else if badRingWord w then s.wordDrop w
  else if e.state = .free ∨ e.gen ≠ wGen w then s.staleDrop 0
  else if wKind w = 1 then s.ringToken' w image
  else if wKind w = 2 then s.ringDraft w image
  else s.ringVerdict w

/-- ITEM (R123, R395). -/
def State.actItem (s : State) (it : Item) : State :=
  let image := s.msgImage (rEpoch it.w0)
  (msgWords it).foldl (fun s w => s.takeItem image w) s

/-- Payload of OPEN_REPLY (R395). -/
def openReplyPayload (h : Nat) (st : Status) : List Word := [hdlWord h, pack [(st.code, 7, 0)]]

/-- The checks of an open at the home (R99, R100, R401): 4 to 7 on this gate. -/
def State.homeOpenCheck (s : State) (q : OpenReq) (src : Nat) : Option Status :=
  let route := match s.route src with | some (_, h) => h == q.hops | none => false
  if !s.hasHome then some .noSession
  else
    match s.openNames q with
    | some st => some st
    | none =>
      match s.openPlace q route with
      | some st => some st
      | none => s.openAdmit q

/-- OPEN at the home (R87, R100 step 2). -/
def State.actOpen (s0 : State) (it : Item) : State :=
  let ws := msgWords it
  let q := OpenReq.ofWords ws
  let src := rSrc it.w0
  let s := if s0.ageing then s0.recompute [(q.policy, q.hops)] else s0
  let old := s.entry q.slot
  match s.homeOpenCheck q src with
  | some st => s.sendTo typOpenReply src 3 (openReplyPayload (handleOf s.gate q.slot old.gen) st)
  | none =>
    let e := s.newEntry q .live true false ((s.ownerOf q.tenant).getD 0) ((old.gen + 1) % 512) s.gate src (wat ws 5).toNat
    let s1 := (s.allocate q.slot e).openHome q.slot q
    s1.sendTo typOpenReply src 3 (openReplyPayload (s1.handle q.slot) .ok)

/-- OPEN_REPLY at the edge (R100 steps 3 and 3'); one that comes too late is answered with a cancel. -/
def State.actOpenReply (s : State) (it : Item) : State :=
  let ws := msgWords it
  let h := hdlOf (wat ws 0)
  let slot := hdlSlot h
  let st := Status.ofCode (bf (wat ws 1) 7 0)
  let e := s.entry slot
  if e.state = .opening ∧ e.homeGate = rSrc it.w0 ∧ e.homeGate = hdlGate h then
    if st = .ok then (s.setEntry slot { e with gen := hdlGen h, state := .live }).endPendWith slot .ok [hdlWord h]
    else (s.endPend slot st).freeEntry slot
  else if st = .ok then s.sendTo typCancel (rSrc it.w0) 3 (cancelPayload h .ringLost)
  else s

/-- STEP at the edge (R130). -/
def State.actStep (s : State) (it : Item) : State :=
  let h := hdlOf it.w1
  if s.matches h && (s.entry (hdlSlot h)).edge then s.edgeStep (hdlSlot h) (bit it.w1 0) else s

/-- The home's step ends with a DRAFT_RESOLVE: its egress ring is rewound, reread and released (R136). -/
def State.endHomeStep (s : State) (slot : Nat) : State :=
  if (s.homeAt slot).mark then
    let t := s.endStepRing slot
    t.setHome slot { t.homeAt slot with mark := false }
  else s

/-- RESOLVE at the home (R134, R136). -/
def State.actResolve (s : State) (it : Item) : State :=
  let h := hdlOf it.w1
  let slot := hdlSlot h
  let n := bf it.w1 29 26
  let e := s.entry slot
  if s.matches h && e.home && (e.state == .live || e.state == .speculating) then
    let t := s.endHomeStep slot
    let e1 := t.entry slot
    (t.setEntry slot { e1 with length := e.length + n, outCount := e.outCount + n }).homeResolve slot (bf it.w1 31 30) n e.length e.outCount
      (s.msgImage (rEpoch it.w0)) s.fine
  else s

/-- STREAM_END at the home (R105, R142). -/
def State.actStreamEnd (s : State) (it : Item) : State :=
  let h := hdlOf it.w1
  let e := s.entry (hdlSlot h)
  if s.matches h && e.home && e.state != .cancelled then
    s.homeStreamEnd (hdlSlot h) (bf it.w1 31 12) (Stop.ofCode (bf it.w1 3 0)) e.length
  else s

/-- The tick at which a session's deadline acts (R386). -/
def Entry.deadlineTick (e : Entry) : Option Nat :=
  if e.deadline = 0 then none else some ((e.openTime + e.deadline * 1000 + (2 ^ 20 - 1)) / 2 ^ 20 % 2 ^ 44)

/-- A session's deadline has been reached by a tick. -/
def Entry.deadlinePast (e : Entry) (k : Nat) : Bool := match e.deadlineTick with | some d => decide (d ≤ k) | none => false

/-- CLOSE at a gate that holds an entry (R105, R402): an edge entry's own wintering or springing ends with it, and its reply. -/
def State.actClose (s : State) (it : Item) : State :=
  let h := hdlOf it.w1
  let slot := hdlSlot h
  let e := s.entry slot
  if s.matches h && !e.home && e.state != .cancelled then
    let moving := e.state == .wintering || e.state == .springing
    let s0 := if moving || !e.edge then (s.endPend slot .noSession).dropOps slot else s
    let s1 := s0.freeCopy slot
    if e.edge then (s1.setEntry slot { s1.entry slot with state := .closing }).edgeClose slot (if e.deadlinePast s.tick then .deadline else .closed)
    else s1.freeEntry slot
  else s

/-- CANCEL (R107): the home cancels on every gate; any other gate on its own entry. -/
def State.actCancel (s : State) (it : Item) : State :=
  let h := hdlOf it.w1
  let c := Cancel.ofCode (bf it.w1 7 0)
  if s.matches h then
    if (s.entry (hdlSlot h)).home then s.cancelAll (hdlSlot h) c else s.cancelLocal (hdlSlot h) c
  else s

/-- A sequence of CMD or CMD_REPLY messages put together: its words when the last part has come in order (R394, R395). -/
def State.assemble (s : State) (it : Item) : State × Option (List Word) :=
  let src := rSrc it.w0
  let t := rType it.w0
  let rest := s.cmi.asm.filter (fun a => !(a.src == src && a.type == t))
  let old := match s.cmi.asm.find? (fun a => a.src == src && a.type == t) with | some a => a.words | none => []
  let base := if rSeq it.w0 = 0 then [] else old
  let whole := rSeq it.w0 == (base.length / 7) % 64
  let ws := base ++ msgWords it
  let keep (l : List Assembly) : State := { s with cmi := { s.cmi with asm := l } }
  if !whole then (keep rest, none)
  else if rEnd it.w0 then (keep rest, some (ws.take (1 + hLen (wat ws 0))))
  else (keep (rest ++ [{ src := src, type := t, words := ws }]), none)

/-- A forwarded SESSION_FEED at the home (R90, R101, R102, R314). -/
def State.remoteFeed (s : State) (i : Issuer) (ps : List Word) (slot image : Nat) : State :=
  let e := s.entry slot
  let toks := unpackToks (ps.drop 1) (feedCount (wat ps 0))
  let n := toks.length
  if e.state ≠ .live then s.answer i .busy
  else
    let s0 := s.writeIn slot e.length toks
    let first := (s0.homeAt slot).streamEnded
    let e0 := s0.entry slot
    let e1 := if first then { e0 with outCount := 0, promptLen := 0, stop := .none } else e0
    let s1 := s0.setEntry slot { e1 with length := e.length + n, promptLen := e1.promptLen + n, inTotal := satAdd 32 e.inTotal n }
    let before := (s1.homeAt slot).hashQ.length
    let s2 := s1.homeFeed slot first (feedLast (wat ps 0)) toks e.length e1.promptLen image s.fine
    let h := s2.homeAt slot
    if h.hashQ.length = before then s2.reply i .ok (s2.feedResult slot e.length)
    else s2.setHome slot { h with feeds := h.feeds ++ [{ issuer := i, length := e.length, blocks := h.hashQ.length }] }

/-- A forwarded session command at the home: the entry checks of R89, then its act. -/
def State.atHome (s : State) (i : Issuer) (w : Word) (act : Nat → State) : State :=
  let slot := hdlSlot (hdlOf w)
  let e := s.entry slot
  if e.state = .free then s.answer i .noSession
  else if !s.matches (hdlOf w) then s.answer i .staleGeneration
  else if !e.home then s.answer i .noSession
  else act slot

/-- A forwarded command for the coordinator, when this gate is it. -/
def State.atCoord (s : State) (i : Issuer) (act : State → State) : State := if s.isCoord then act s else s.answer i .busy

/-- A forwarded command acts (R358, R402). -/
def State.runForwarded (s : State) (src image : Nat) (ws : List Word) : State :=
  let h := wat ws 0
  let ps := ws.drop 1
  let i : Issuer := { op := hOp h, part := hPart h, tag := hTag h, smp := false, src := some src }
  match i.op with
  | 0x11 => s.atHome i (wat ps 0) (fun slot => s.remoteFeed i ps slot image)
  | 0x12 => s.atHome i (wat ps 0) (fun slot => s.closeHome i slot)
  | 0x17 => s.atHome i (wat ps 0) (fun slot => s.stopSetAt i (wat ps 1) [] slot)
  | 0x31 => s.atCoord i (fun s => s.imageCommit i ps s.tick)
  | 0x38 => s.atCoord i (fun s => s.modePrepare i ps s.tick)
  | 0x39 => s.atCoord i (fun s => s.modeCommit i ps s.tick)
  | 0x3A => s.atCoord i (fun s => s.modeAbort i ps s.tick)
  | 0x3B => s.atCoord i (fun s => s.schedulePin i ps s.tick)
  | _ => s.answer i .badOpcode

/-- CMD at the acting gate. -/
def State.actCmd (s : State) (it : Item) : State :=
  match s.assemble it with
  | (s1, some ws) => s1.runForwarded (rSrc it.w0) (s1.msgImage (rEpoch it.w0)) ws
  | (s1, none) => s1

/-- A FEED that was forwarded has its answer (R101, log 119): a home that refused it fed nothing, and the edge keeps nothing of it. -/
def State.feedAnswered (s : State) (slot : Nat) (st : Status) : State :=
  let t := if st = .ok ∨ st = .timeout then s else s.undoFeed slot
  t.setEdge slot { t.edgeAt slot with undo := none }

/-- The answer to a forwarded command ends its held reply (R358), which goes out also where the entry that held it is gone (R105). -/
def State.endForward (s : State) (f : Fwd) (st : Status) (result : List Word) : State :=
  let s1 : State := { s with cmi := { s.cmi with fwds := s.cmi.fwds.filter (· != f) } }
  let s2 := match f.slot with
    | some n =>
      if (s1.entry n).pendIssuer = f.issuer then
        (if f.issuer.op = 0x11 then s1.feedAnswered n st else s1).endPendWith n st result
      else s1.reply f.issuer st result
    | none => s1.reply f.issuer st result
  if f.issuer.op = 0x3B ∧ st = .ok then s2.raiseAll 5 else s2

/-- CMD_REPLY at the issuing gate (R358). -/
def State.actCmdReply (s : State) (it : Item) : State :=
  match s.assemble it with
  | (s1, some ws) =>
    let h := wat ws 0
    match s1.cmi.fwds.find? (fun f => f.dst == rSrc it.w0 && f.issuer.op == hOp h && f.issuer.part == hPart h && f.issuer.tag == hTag h) with
    | some f => s1.endForward f (Status.ofCode (bf h 7 0)) (ws.drop 1)
    | none => s1
  | (s1, none) => s1

/-- BALANCE at the coordinator (R340). -/
def State.actBalance (s : State) (it : Item) : State :=
  let r : Report := { gate := rSrc it.w0, tick := targetOf it.w1, p := bf it.w2 63 32, d := bf it.w2 31 0 }
  if s.isCoord then { s with bal := { s.bal with reports := s.bal.reports ++ [r] } } else s

/-- PREPARE (R403 step 2): the change is checked and staged, and answered with ACK. -/
def State.actPrepare (s : State) (it : Item) : State :=
  let t := s.stagedOf (msgWords it)
  let ack (s : State) (st : Status) : State := s.sendTo typAck (rSrc it.w0) 1 [pack [(t.target, 63, 20), (st.code, 7, 0)]]
  match s.stageCheck t with
  | none => ack (s.stageChange t) .ok
  | some st => ack { s with com := { s.com with refused := some (t.target, t.kind) } } st

/-- ACK at the coordinator (R403 steps 3 and 4). -/
def State.actAck (s : State) (it : Item) : State :=
  match s.com.coord with
  | some c =>
    if c.target = targetOf it.w1 ∧ c.decided = false then
      if bf it.w1 7 0 = 0 then ({ s with com := { s.com with coord := some { c with acks := c.acks ++ [rSrc it.w0] } } }).prepareDone
      else s.abortCommit (Status.ofCode (bf it.w1 7 0))
    else s
  | none => s

/-- GO (R403 step 4). -/
def State.actGo (s : State) (it : Item) : State :=
  match s.com.staged with
  | some t => if t.target = targetOf it.w1 then { s with com := { s.com with staged := some { t with go := true } } } else s
  | none => s

/-- ABORT (R403 step 5'): a gate that had refused the change counts it as aborted too (R343). -/
def State.actAbort (s : State) (it : Item) : State :=
  let s1 : State := { s with com := { s.com with refused := none } }
  match s.com.refused with
  | some (t, k) => if t = targetOf it.w1 then (if k = .variant then s1.countAbort else s1) else s
  | none =>
    match s.com.staged with
    | some t => if t.target = targetOf it.w1 ∧ t.go = false then s.unstage t.kind else s
    | none => s

/-- The words of a whole mirror (R407). -/
def mirrorSize : Nat := 278592

/-- Both copies of a pairing have ended: the held PAIR_TWIN is answered (R406). -/
def State.copiesDone (s : State) : State :=
  match s.net.pairFor with
  | some i => if s.net.synced && s.net.peerDone then ({ s with net := { s.net with pairFor := none } }).answer i .ok else s
  | none => s

/-- One mirrored word from the twin (R407). -/
def State.takeMirror (s : State) (a d : Word) : State :=
  if bit a 63 then
    let k := mirrorPlace (bf a 62 61) (bf a 60 39)
    let s1 : State := { s with tier := { s.tier with mirror := sset 0#64 s.tier.mirror k d, mirrorLost := s.tier.mirrorLost.filter (· != k) } }
    if k + 1 = mirrorSize then ({ s1 with net := { s1.net with peerDone := true } }).copiesDone else s1
  else s

/-- MIRROR at the twin (R407). -/
def State.actMirror (s : State) (it : Item) : State :=
  if s.net.paired && rSrc it.w0 == s.net.twin then ((s.takeMirror it.w1 it.w2).takeMirror it.w3 it.w4).takeMirror it.w5 it.w6 else s

/-- Pairing in force with a gate, its copies about to begin (R406). -/
def State.setPair (s : State) (g : Nat) : State :=
  { s with net := { s.net with paired := true, twin := g, synced := false, peerDone := false, copyNext := some 0, mirrorWait := [], area3Sent := [] } }

/-- A pairing ended, its mirror freed (R409). -/
def State.clearPair (s : State) : State :=
  { s with net := { s.net with paired := false, synced := false, twin := 0, peerDone := false, copyNext := none, mirrorWait := [], mirrorQ := [], area3Sent := [] },
           tier := { s.tier with mirror := [], mirrorLost := [] } }

/-- Conditions of R406 and R413 on one gate for a pairing with another, the tier apart. -/
def State.mayPair (s : State) (g : Nat) : Bool :=
  g != s.gate && (!s.net.paired || s.net.twin == g) && (s.route g).isSome && !s.com.window

/-- A gate is quiesced (R409). -/
def State.quiesced (s : State) : Bool :=
  s.entries.all (fun c => c.2.state == .free || c.2.state == .wintered || c.2.state == .cancelled) && s.com.staged.isNone && !s.tm.serving

/-- Payload of PAIR (R395). -/
def pairPayload (reply unpair : Bool) (st : Status) : List Word := [pack [(b2n reply, 63, 63), (b2n unpair, 62, 62), (st.code, 7, 0)]]

/-- PAIR: a request is judged and answered, a reply ends the command that waits for it (R406, R409). In a request to unpair the
status tells whether its gate is quiesced. -/
def State.actPair (s : State) (it : Item) : State :=
  let g := rSrc it.w0
  let st := Status.ofCode (bf it.w1 7 0)
  match bit it.w1 63, bit it.w1 62 with
  | false, false =>
    let r := if !s.mayPair g then .busy else if !(s.dev 0).trained then .noSpace else Status.ok
    (if r = .ok then s.setPair g else s).sendTo typPair g 4 (pairPayload true false r)
  | true, false =>
    if st = .ok then (if s.net.pairFor.isSome then s.setPair g else s)
    else
      match s.net.pairFor with
      | some i => ({ s with net := { s.net with pairFor := none } }).answer i st
      | none => s
  | false, true =>
    let mine := s.net.paired && s.net.twin == g
    if mine && (s.com.window || (st == .ok && s.quiesced)) then (s.clearPair).sendTo typPair g 4 (pairPayload true true .ok)
    else s.sendTo typPair g 4 (pairPayload true true (if mine then .notIdle else .notPaired))
  | true, true =>
    let s1 := if st = .ok ∧ s.net.paired = true ∧ s.net.twin = g then s.clearPair else s
    match s1.net.unpairFor with
    | some i => ({ s1 with net := { s1.net with unpairFor := none } }).answer i st
    | none => s1

/-- RESTART (R411, R459): a restart not handled before, met outside a reset, asserts the job-reach reset. -/
def State.actRestart (s : State) (it : Item) : State :=
  let origin := bf it.w1 63 54
  let tick := bf it.w1 53 10
  if s.com.restarts.contains (origin, tick) then s
  else
    let s0 := { s with com := { s.com with restarts := s.com.restarts ++ [(origin, tick)] } }
    let s1 := if s0.trb.jobEntry.isSome then s0
      else
        let k := s0.logNext
        let s2 := (s0.setSticky .jobFault).logNew (logWord1 .jobFault 4 Obj.none none (bf it.w1 7 0)) 0 (restartDetail origin tick)
        { s2 with trb := { s2.trb with jobEntry := some k } }
    if s0.inReset then s1 else s1.assertReset .job srcRingRestart 1

/-- What a message does at its destination (R395). -/
def State.handleMsg (s : State) (it : Item) : State :=
  match rType it.w0 with
  | 0x01 => s.actItem it
  | 0x02 => s.actOpen it
  | 0x03 => s.actOpenReply it
  | 0x04 => s.actStep it
  | 0x05 => s.actResolve it
  | 0x06 => s.actStreamEnd it
  | 0x07 => s.actClose it
  | 0x08 => s.actCancel it
  | 0x09 => s.actCmd it
  | 0x0A => s.actCmdReply it
  | 0x10 => s.takeTime (msgWords it)
  | 0x11 => s.actBalance it
  | 0x18 => s.actPrepare it
  | 0x19 => s.actAck it
  | 0x1A => s.actGo it
  | 0x1B => s.actAbort it
  | 0x20 => s.actMirror it
  | 0x21 => s.actPair it
  | 0x28 => s.actRestart it
  | _ => s

/-- A message accepted at its destination (R399, R410): the classes that pass during a reset, the mode epoch, then its act. -/
def State.acceptMsg (s : State) (link : Nat) (it : Item) : State :=
  let cls := (ringClass (rType it.w0) false).getD 5
  let d := (rEpoch it.w0 + 256 - s.com.epoch) % 256
  if s.inReset && cls != 0 && cls != 2 then s
  else if cls ≤ 2 ∨ d = 0 ∨ d = 255 then s.handleMsg it
  else if d = 1 then { s with net := { s.net with heldMsgs := s.net.heldMsgs ++ [it] } }
  else s.ringDrop .ringEpoch link it.w0

/-- A message whose words the codes let through (R393 to R396). -/
def State.routeMsg (s : State) (link : Nat) (it : Item) : State :=
  let h := it.w0
  if wKind h ≠ 6 then s
  else if (ringClass (rType h) false).isNone then s.ringDrop .ringUnknown link h
  else if rBcast h then
    if (match s.route (rSrc h) with | some (l, _) => l == link | none => false) then (s.passAll link it).acceptMsg link it else s
  else if rDst h = s.gate then s.acceptMsg link it
  else
    match s.route (rDst h) with
    | some (l, _) => s.passMsg link l it
    | none => s

/-- A message with an uncorrectable word (R400): discarded and counted; when its header is readable and its class is 0, 1, 2 or 5 the job
ends. -/
def State.badMsg (s : State) (link : Nat) (m : RxMsg) : State :=
  let h := m.item.w0
  let cls := (ringClass (rType h) false).getD 4
  let s1 := s.ceLink link
  if m.headerReadable && wKind h == 6 then
    if cls ≠ 3 ∧ cls ≠ 4 then s1.jobFault .ringUe (Obj.ring link (rSrc h) (rType h)) none 0
    else s1.trouble .ringUe 1 (Obj.ring link (rSrc h) (rType h)) none 0
  else s1.trouble .ringUe 1 (Obj.ring link 0 0) none 0

/-- A message arrives on a link: its port reports lock (R400, log 118), and a link in use brings it to the gate (R389). -/
def State.receive (s : State) (m : RxMsg) : State :=
  let s1 : State := if m.link < 4 then { s with net := { s.net with linkUp := s.net.linkUp ||| 2 ^ m.link } } else s
  if !s.ringOn || !s.links.contains m.link then s1
  else
    match m.find with
    | .clean => s1.routeMsg m.link m.item
    | .corrected => (s1.ceLink m.link).routeMsg m.link m.item
    | .bad => s1.badMsg m.link m

/-- The messages held for a commit, once it has taken effect (R399). -/
def State.releaseHeld (s : State) : State :=
  let l := s.net.heldMsgs
  l.foldl (fun s it => s.acceptMsg 0 it) { s with net := { s.net with heldMsgs := [] } }

/-- A message of one type arrives. -/
def State.receiveType (s : State) (typ : Nat) (m : RxMsg) : State := if rType m.item.w0 = typ then s.receive m else s

/-- RING_FORWARD: a message that this gate passes on, drops or discards. -/
def State.onRingForward (s : State) (msg : RxMsg) : State := s.receive msg
/-- ITEM. -/
def State.onItem (s : State) (msg : RxMsg) : State := s.receiveType 0x01 msg
/-- OPEN. -/
def State.onOpenMsg (s : State) (msg : RxMsg) : State := s.receiveType 0x02 msg
/-- OPEN_REPLY. -/
def State.onOpenReply (s : State) (msg : RxMsg) : State := s.receiveType 0x03 msg
/-- STEP. -/
def State.onStepMsg (s : State) (msg : RxMsg) : State := s.receiveType 0x04 msg
/-- RESOLVE. -/
def State.onResolve (s : State) (msg : RxMsg) : State := s.receiveType 0x05 msg
/-- STREAM_END. -/
def State.onStreamEnd (s : State) (msg : RxMsg) : State := s.receiveType 0x06 msg
/-- CLOSE. -/
def State.onClose (s : State) (msg : RxMsg) : State := s.receiveType 0x07 msg
/-- CANCEL. -/
def State.onCancel (s : State) (msg : RxMsg) : State := s.receiveType 0x08 msg
/-- CMD. -/
def State.onCmd (s : State) (msg : RxMsg) : State := s.receiveType 0x09 msg
/-- CMD_REPLY. -/
def State.onCmdReply (s : State) (msg : RxMsg) : State := s.receiveType 0x0A msg
/-- TIME. -/
def State.onTime (s : State) (msg : RxMsg) : State := s.receiveType 0x10 msg
/-- BALANCE. -/
def State.onBalance (s : State) (msg : RxMsg) : State := s.receiveType 0x11 msg
/-- PREPARE. -/
def State.onPrepare (s : State) (msg : RxMsg) : State := s.receiveType 0x18 msg
/-- ACK. -/
def State.onAck (s : State) (msg : RxMsg) : State := s.receiveType 0x19 msg
/-- GO. -/
def State.onGo (s : State) (msg : RxMsg) : State := s.receiveType 0x1A msg
/-- ABORT. -/
def State.onAbort (s : State) (msg : RxMsg) : State := s.receiveType 0x1B msg
/-- MIRROR. -/
def State.onMirror (s : State) (msg : RxMsg) : State := s.receiveType 0x20 msg
/-- PAIR. -/
def State.onPair (s : State) (msg : RxMsg) : State := s.receiveType 0x21 msg
/-- RESTART. -/
def State.onRestart (s : State) (msg : RxMsg) : State := s.receiveType 0x28 msg

end Sys2Proof.Machine
end

