-- ==== Sys2Proof/Machine/RingCmd.lean ====
section
/-! DEFINITION. The ring's sending side (R380, R389, R394, R397), the mirror queue (R407, R408), link loss (R508) and the
pairing commands (R406, R409). -/
namespace Sys2Proof.Machine

/-- The first element of the lowest-numbered class, and the list without it (R397). -/
def takeLowest (l : List QMsg) : Option (QMsg × List QMsg) :=
  match (List.range 6).findSome? (fun c => l.findIdx? (fun q => q.cls == c)) with
  | some k => (l[k]?).map (fun q => (q, l.eraseIdx k))
  | none => none

/-- The link to the twin (R407). -/
def State.twinLink (s : State) : Option Nat := if s.net.paired then (s.route s.net.twin).map (·.1) else none

/-- What may leave next on a link from its queue: with ENABLE 0 only the RESTART of a wide reset (R389, R419). -/
def State.txQueue (s : State) (link : Nat) : List QMsg :=
  let q := s.net.queues.getD link []
  if s.ringOn then q else if s.inReset then q.filter (fun x => x.cls == 0) else []

/-- The oldest mirror message of this gate, when the link leads to its twin (R407). -/
def State.txMirror (s : State) (link : Nat) : Option QMsg :=
  if s.ringOn && s.twinLink == some link then s.net.mirrorQ.head? else none

/-- The message that leaves next on a link, and the state without it: the oldest of the lowest class, those of class 5 from the link's queue
and the mirror queue by age (R397, R407). -/
def State.txTake (s : State) (link : Nat) : Option (QMsg × State) :=
  let own (m : QMsg) : QMsg × State :=
    (m, { s with net := { s.net with mirrorQ := s.net.mirrorQ.drop 1, mirrorRp := (s.net.mirrorRp + 8) % 2 ^ 16 } })
  match takeLowest (s.txQueue link), s.txMirror link with
  | some (m, rest), some o =>
    if m.cls = 5 ∧ o.since < m.since then some (own o)
    else some (m, { s with net := { s.net with queues := s.net.queues.set link rest } })
  | some (m, rest), none => some (m, { s with net := { s.net with queues := s.net.queues.set link rest } })
  | none, some o => some (own o)
  | none, none => none

/-- A message as it leaves: EPOCH on those that begin here, and the wait in a TIME message (R380, R394). -/
def State.txItem (s : State) (it : Item) : Item :=
  let a := if rSrc it.w0 = s.gate then { it with w0 := withEpoch it.w0 s.com.epoch } else it
  if rType it.w0 = typTime then { a with w2 := word (a.w2.toNat + s.count) } else a

/-- The sessions that a message names on this gate (R52): the slot it opens, its handle, or the slots of its stream words. -/
def namedSlots (it : Item) : List Nat :=
  let t := rType it.w0
  if t = typItem then ((msgWords it).filter (· != idleWord)).map wSlot
  else if t = typOpen then [(OpenReq.ofWords (msgWords it)).slot]
  else if 3 ≤ t ∧ t ≤ 8 then [hdlSlot (hdlOf it.w1)]
  else if t = typCmd ∧ rSeq it.w0 = 0 ∧ sessionOp (hOp it.w1) = true then [hdlSlot (hdlOf it.w2)]
  else []

/-- A message that waited more than DEPTH_RING slot periods is late (R397, R52). -/
def State.txLate (s : State) (m : QMsg) : State :=
  match s.contract with
  | some c =>
    if c.depthRing * c.ringPeriod < s.now - m.since then
      let s1 : State := { s with net := { s.net with late := satAdd 32 s.net.late 1 } }
      ((namedSlots m.item).filter (fun n => (s1.entry n).state != .free)).foldl (fun s n => s.setSlot n { s.slotAt n with lateAt := some s.now }) s1
    else s
  | none => s

/-- One slot of a link's transmit side (R388, R397): what the link carries stands in `sent`. -/
def State.txSlot (s : State) (link : Nat) : State :=
  let put (s : State) (o : Option Item) : State := { s with net := { s.net with sent := s.net.sent.set link o } }
  match s.txTake link with
  | some (m, t) => put (t.txLate m) (some (s.txItem m.item))
  | none => put s none

/-- GRP_TX_SLOT: a slot of a link in use; on another link the row brings nothing. -/
def State.onGrpTxSlot (s1 : State) (link : Nat) : State :=
  if s1.links.contains link || (s1.inReset && decide (link < 4)) then s1.txSlot link else s1

/-- The word of a copy at a place (R406, R407). -/
def State.copyWord (s : State) (k : Nat) : MirrorWrite :=
  let at' (a i : Nat) (w : Word) : MirrorWrite := { area := a, index := i, word := w, since := s.now }
  if k < 131072 then at' 0 k (wat (s.entry (k / 16)).words (k % 16))
  else if k < 262144 then at' 1 (k - 131072) (wat (s.ledger ((k - 131072) / 8)).words (k % 8))
  else if k < 278528 then
    let j := k - 262144
    let e := s.entry (j / 2)
    at' 2 j (match s.img.force with
      | some i => if e.home && e.state != .free then s.mem.word (8 * (s.stateRow i (j / 2) + 32) + 16 + j % 2) else 0
      | none => 0)
  else at' 3 (k - 278528) (wat (s.area3 s.tm.lastTick) (k - 278528))

/-- Changes of area 3 become mirror writes, and all of it does at each tick (R407). -/
def State.diffArea3 (s : State) : State :=
  if s.net.paired then
    let new := s.area3 s.tm.lastTick
    let old := (List.range 20).map (fun k => if k < s.net.area3Sent.length then wat s.net.area3Sent k else ~~~ wat new k)
    let s1 := s.mirrorPut (changedWords 3 0 old new)
    { s1 with net := { s1.net with area3Sent := new } }
  else s

/-- Mirror writes that wait for room enter the queue; with none waiting the copy goes on, up to three words in a message (R406 to R408). -/
def State.enqueueMirror (s0 : State) : State :=
  let s := s0.handMirror
  if 4096 ≤ s.net.mirrorQ.length then s
  else
    let from' := s.net.copyNext.getD mirrorSize
    let cs := (List.range (min 3 (mirrorSize - from'))).map (fun k => s.copyWord (from' + k))
    if cs.isEmpty then s
    else
      { s with net := { s.net with copyNext := some (from' + cs.length), mirrorQ := s.net.mirrorQ ++ [s.mirrorMsg cs],
                                   mirrorWp := (s.net.mirrorWp + 8) % 2 ^ 16 } }

/-- MIRROR_ENQUEUE. -/
def State.onMirrorEnqueue (s1 : State) : State :=
  if s1.net.paired && !s1.inReset then s1.enqueueMirror else s1

/-- TWIN_COPY_DONE: the copy has been handed to the queue to its last word (R406). -/
def State.onTwinCopyDone (s1 : State) : State :=
  if s1.net.paired && s1.net.copyNext == some mirrorSize then
      ({ s1 with net := { s1.net with synced := true, copyNext := none } }).copiesDone
    else s1

/-- LINK_LOCK_LOSS (R413, R508): a link in LINKS that a VALID route uses ends the job. -/
def State.onLinkLockLoss (s1 : State) (link : Nat) : State :=
  let s2 : State := if s1.net.linkUp.testBit link then { s1 with net := { s1.net with linkUp := s1.net.linkUp - 2 ^ link } } else s1
  if s2.links.contains link && s2.net.routes.any (fun r => bit r.2 63 && bf r.2 62 61 == link) then s2.jobFault .port Obj.none none 0
  else s2

/-- PAIR_TWIN (R406, R413). -/
def State.pairTwin (s : State) (i : Issuer) (g : Nat) : State :=
  if !s.mayPair g || s.net.pairFor.isSome then s.answer i .busy
  else ({ s with net := { s.net with pairFor := some i } }).sendTo typPair g 4 (pairPayload false false .ok)

/-- PAIR_TWIN. -/
def State.onPairTwin (s : State) : State :=
  s.runCmd 0x50 onlyP0 (fixed 1) (fun ps => stray (wat ps 0) [(63, 54)]) (fun i ps s => s.pairTwin i (bf (wat ps 0) 63 54))

/-- UNPAIR_TWIN (R409): accepted at once in this gate's WINDOW, else the twin is asked. -/
def State.unpairTwin (s : State) (i : Issuer) : State :=
  if !s.net.paired then s.answer i .notPaired
  else if s.net.unpairFor.isSome then s.answer i .busy
  else if s.com.window then
    let g := s.net.twin
    (s.clearPair.sendTo typPair g 4 (pairPayload true true .ok)).answer i .ok
  else
    ({ s with net := { s.net with unpairFor := some i } }).sendTo typPair s.net.twin 4 (pairPayload false true (if s.quiesced then .ok else .notIdle))

/-- UNPAIR_TWIN. -/
def State.onUnpairTwin (s : State) : State :=
  s.runCmd 0x51 onlyP0 (fixed 0) (fun _ => false) (fun i _ s => s.unpairTwin i)

end Sys2Proof.Machine
end

