-- ==== Sys2Proof/Machine/Start.lean ====
section
/-! DEFINITION. Reset sources, the release of the internal reset, starts, region resets (R414 to R435), and the port errors that raise a
job fault (R494, R508). -/
namespace Sys2Proof.Machine

/-- RS_STAT (R434). -/
def State.rsStat (s : State) : Word :=
  pack [(s.rs.lastReach, 63, 61), (s.rs.sources, 60, 52), (s.rs.region, 51, 50), (b2n s.rs.forced, 49, 49), (s.rs.attempts, 48, 47),
    (s.rs.starts, 46, 15)]

/-- The RS_STAT image written at a start (R428). -/
def State.putRsStat (s : State) : State := s.putRetained 1 s.rsStat

/-- PWR_OK or PORST_n is low for some REFCLK cycles more (R423). -/
def State.pinHeld (s : State) (cycles : Nat) : State := { s with rs := { s.rs with pinLow := max s.rs.pinLow (s.tm.refclk + cycles) } }

/-- POWER_ON: PWR_OK falls, or REFCLK is absent for more than 1 µs (R417). The backup registers read zero afterwards, and the test
port is reset (R427, R423); PWR_OK is high for the last 256 cycles of the assertion; without power nothing is kept, and what the registers kept so far hold is zero (R10, log 3). -/
def State.onPowerOn (s1 : State) (cause : PowerCause) (cycles : Nat) : State :=
  let n := max cycles 256
  let s2 := s1.assertReset .cold srcPowerOn n
  let s3 : State := { s2 with tap := TapU.zero, trb := { s2.trb with bkup := [], retNext := 0, retDue := s2.tm.refclk + n + 1 } }
  match cause with
  | .pwrOk =>
    ({ s3 with tm := { TimeU.cold with refclk := s3.tm.refclk }, net := { s3.net with routes := [] },
               tier := { s3.tier with devs := TierU.cold.devs } } : State).pinHeld (n - 256)
  | .refclkGap => { s3 with rs := { s3.rs with lossPending := true } }

/-- A low pulse of a reset pin that the synchroniser takes (R416): from 2 to 3 REFCLK cycles it may or may not. -/
def pulseTaken (cycles : Nat) (taken : Bool) : Bool := decide (4 ≤ cycles) || (decide (2 ≤ cycles) && taken)

/-- PORST_N. -/
def State.onPorstN (s1 : State) (cycles : Nat) (taken : Bool) : State :=
  if pulseTaken cycles taken then (s1.wideReset .cold srcPorst cycles).pinHeld cycles else s1

/-- SYSRST_N. -/
def State.onSysrstN (s1 : State) (cycles : Nat) (taken : Bool) : State :=
  if pulseTaken cycles taken then s1.wideReset .warm srcSysrst cycles else s1

/-- GATE_RESET: the reply goes out before the reset (R369, R414). -/
def State.onGateReset (s : State) : State :=
  s.runCmd 0x4B onlyP0 (fixed 1) (fun ps => stray (wat ps 0) [(63, 63)]) (fun i ps s =>
    (s.answer i .ok).wideReset (if bit (wat ps 0) 63 then .cold else .warm) srcGateReset 1)

/-- JOB_RESTART (R369, R410). -/
def State.onJobRestart (s : State) : State :=
  s.runCmd 0x4C onlyP0 (fixed 0) (fun _ => false) (fun i _ s => (s.answer i .ok).jobFault .host Obj.none none 0)

/-- HRP_ERR high outside a reset (R494, R508). -/
def State.onHrpErr (s1 : State) : State :=
  if s1.inReset then s1 else s1.jobFault .port Obj.none none 0

/-- CMI_WATCHDOG: the packet whose turn it is has waited 2^18 REFCLK cycles, the sequencer not having come back to its idle point
(R418). -/
def State.onCmiWatchdog (s1 : State) : State :=
  match s1.nextPkt with
  | none => s1
  | some (smp, k) =>
    if !s1.inReset && bit s1.rs.ctl 61 && decide (k.arrived + 2 ^ 18 ≤ s1.tm.refclk) then
      let i := pktIssuer smp k
      ((s1.trouble .watchdog 5 (Obj.command i.op i.tag smp) (some i.part) (targetWord s1.tick)).wideReset .warm srcWatchdog 1)
    else s1

/-- PLAN_MHZ of the last ageing record; 600 with none (R431, R448). -/
def State.lastPlan (s : State) : Nat :=
  if s.agCount = 0 ∨ s.recThere ((s.agNext + 507) % 508) = false then 600 else bf (s.retained (agRecAt ((s.agNext + 507) % 508) + 2)) 50 40

/-- The gclk PLL locks at a frequency; clusters are stopped (R430, R431). -/
def State.lockPll (s : State) (mhz : Nat) : State :=
  { s with clk := { s.clk with mhz := mhz, pwrReq := pwrWord mhz s.clk.ageOfs, stepAt := s.tm.refclk } }

/-- Step 3 of a start: the lock, at 600 MHz or at the last plan. A start whose PLL has not locked is held (R430, R431, R434). A job
start relocks only a PLL that a start cut short had not locked (R432). -/
def State.startClock (s : State) (pllLocks : Bool) : State :=
  match s.rs.start with
  | none => s
  | some r =>
    if r.reach = .job ∧ s.clk.mhz ≠ 0 then s
    else if pllLocks then
      let s1 : State := { s with rs := { s.rs with start := some { r with held := false } } }
      s1.lockPll (if r.reach = .cold then 600 else s.lastPlan)
    else if r.held then s
    else ({ s with rs := { s.rs with start := some { r with held := true } } }).trouble .startFail 0 Obj.none none 0

/-- The words of ABORTED_RESTART, then the replies, once HRP runs again (R369, R411 step 6). -/
def State.sendAborted (s : State) : State :=
  if s.hrpUp then
    let s1 := s.rs.aborted.foldl (fun s a => s.client a.1 [a.2]) s
    let s2 := s.rs.abortedCmds.foldl (fun s i => s.answer i .abortedRestart) s1
    { s2 with rs := { s2.rs with aborted := [], abortedCmds := [] } }
  else s

/-- A paired gate copies again (R408). -/
def State.copyAgain (s : State) : State :=
  if s.net.paired then { s with net := { s.net with synced := false, peerDone := false, copyNext := some 0, mirrorWait := [], area3Sent := [] } } else s

/-- A word of the retained store that cannot be corrected (R429, R455): a log entry reads as empty, an ageing record as absent, the
mirror is written again, any other word is lost. -/
def State.retainedBad (s : State) (k : Nat) : State :=
  let s1 := s.trouble .retainedUe 0 Obj.none none 0
  if 0x400 ≤ k ∧ k < 0x800 then s1.putRetainedAll (0x400 + (k - 0x400) / 4 * 4) [0, 0, 0, 0]
  else if 0x810 ≤ k ∧ k < 0x1000 then s1.putRetainedAll (0x810 + (k - 0x810) / 4 * 4) [0, 0, 0, 0]
  else if k = 0x10 ∨ k = 0x12 ∨ k = logHeaderAt then s1
  else s1.putRetained k 0

/-- What a check of one word of the retained store finds. -/
def State.retainedCheck (s : State) (f : WordFind) : State :=
  match f.find with
  | .clean => s
  | .corrected => s.ceRetained
  | .bad => s.retainedBad f.index

/-- The retained store checked at power-on (R429, R455, R460): initialised when SIGNATURE or format does not match or cannot be read, else
the sticky bits reload from their mirror. -/
def State.checkStore (s : State) (find : WordFind) : State :=
  let bad0 := find.find == .bad && find.index == 0
  let s1 : State :=
    if bf (s.retained 0) 63 24 ≠ 0x42534731_01 ∨ bad0 = true then
      { s with trb := { s.trb with retained := retainedInit, sticky := 0 }, rs := { s.rs with starts := 0, forced := false },
               clk := { s.clk with ageOfs := 0 } }
    else { s with trb := { s.trb with sticky := if find.find == .bad && find.index == 0x10 then 0 else s.retained 0x10 } }
  if bad0 then s1.trouble .retainedUe 0 Obj.none none 0 else s1.retainedCheck find

/-- A start of a reach begins (R430 to R432). -/
def State.beginStart (s : State) (r : Reach) (pllLocks : Bool) : State :=
  let st : StartRun := { reach := r, at' := s.tm.refclk, held := false, training := true, measured := false }
  let d := if r = .job then 0 else 1
  let s1 : State := { s with rs := { s.rs with start := some st, starts := satAdd 32 s.rs.starts d }, tier := { s.tier with training := true } }
  s1.putRsStat.startClock pllLocks

/-- A cold start: gate time from 0, the scrub walks from their start (R292, R430, R456). -/
def State.coldStart (s : State) (forced pllLocks : Bool) : State :=
  let n := s.tm.refclk
  let s1 : State :=
    { s with tm := s.tm.clearCold, rs := { s.rs with attempts := 0, forced := forced },
             img := { s.img with scrubRow := [0, 0, 0, 0], scrubFrom := List.replicate 4 (n + 1) },
             trb := { s.trb with tabNext := 0, tabDue := n + 1 } }
  s1.beginStart .cold pllLocks

/-- A warm start, or the cold start that a third failed one, or a store that does not match, forces (R431). -/
def State.warmStart (s : State) (pllLocks : Bool) (find : WordFind) : State :=
  let bad := decide (find.find = .bad ∧ find.index < 2) || bf (s.retained 0) 63 24 != 0x42534731_01
  if s.rs.attempts = 3 ∨ bad = true then (s.clearCold).coldStart true pllLocks
  else ({ s with rs := { s.rs with attempts := s.rs.attempts + 1, forced := false } }).beginStart .warm pllLocks

/-- Gate time counts from 0 at the release of a cold reset (R426, R430). -/
def State.timeFrom (s : State) (r : Reach) : State := if r = .cold then { s with tm := s.tm.clearCold } else s

/-- The retained store as a start reads it: at power-on, and in a warm start; no other start reads it (R429 to R432). -/
def State.storeRead (s : State) (r : Reach) (find : WordFind) : State :=
  if s.rs.sources.testBit srcPowerOn then s.checkStore find
  else if r = .warm then s.retainedCheck find
  else s

/-- The internal reset releases (R411 step 5, R417, R420, R422, R430 to R432). -/
def State.release (s : State) (r : Reach) (pllLocks : Bool) (find : WordFind) : State :=
  let s0 := (s.timeFrom r).storeRead r find
  let n := s0.tm.refclk
  let rise := if s0.rs.outHigh then none else some (s0.rs.outRise.getD (n + 1024 + 256 * (s0.gate % 8)))
  let s1 : State :=
    { s0 with rs := { s0.rs with reach := none, lastReach := r.code, lossPending := false, outRise := rise },
              trb := { s0.trb with jobEntry := none, tabDue := max s0.trb.tabDue n },
              com := { s0.com with epoch := 0, window := r == .job || (r == .warm && s0.ringOn) } }
  let s2 := if s0.rs.lossPending then s1.trouble .refclkLoss 5 Obj.none none 0 else s1
  let s3 := match r with
    | .cold => s2.coldStart false pllLocks
    | .warm => s2.warmStart pllLocks find
    | .job => ({ s2 with rs := { s2.rs with attempts := 0 } }).beginStart .job pllLocks
  s3.copyAgain

/-- Region resets whose 4,096 REFCLK cycles have passed release: the scrub walk starts again, the reply goes out (R292, R425). -/
def State.releaseRegions (s : State) : State :=
  let due := s.rs.regions.filter (fun x => decide (x.start + 4096 ≤ s.tm.refclk))
  due.foldl (fun s x =>
    ({ s with rs := { s.rs with regions := s.rs.regions.filter (· != x) },
              img := { s.img with scrubRow := s.img.scrubRow.set x.region 0, scrubFrom := s.img.scrubFrom.set x.region s.tm.refclk } }).answer
      x.issuer .ok) s

/-- RESET_RELEASE: the first REFCLK edge with no source asserted and the stretch counter at 4,096 (R420). `find` is what the check of
the retained store meets (R429, R431). -/
def State.onResetRelease (s1 : State) (pllLocks : Bool) (find : WordFind) : State :=
  match s1.rs.reach with
  | none => s1.releaseRegions
  | some r =>
    if s1.rs.until' ≤ s1.tm.refclk ∧ s1.rs.clearAt + 4096 ≤ s1.tm.refclk then (s1.release r pllLocks find) else s1

/-- RST_OUT_RELEASE: a reset that does not drive the pin leaves its rise as it was (R422, R423). -/
def State.onRstOutRelease (s1 : State) : State :=
  match s1.rs.outRise with
    | some t => if t ≤ s1.tm.refclk then { s1 with rs := { s1.rs with outHigh := true, outRise := none } } else s1
    | none => s1

/-- A density that the tier supports (R296): 16 to 96 GiB in steps of 16. -/
def gibOk (g : Nat) : Bool := decide (g % 16 = 0) && decide (16 ≤ g) && decide (g ≤ 96)

/-- The highest rate that passes training, codes 0 to 3 (R297, R298). -/
def trainRate (t : DevTrain) : Option Nat := [3, 2, 1, 0].find? (fun r => t.rates.contains r)

/-- A device after cold step 5: one that has not answered, or whose density is outside the limits, is reported absent (R296, R297,
R430). -/
def trainCold (t : DevTrain) : Dev :=
  if gibOk t.gib then
    match trainRate t with
    | some r => { Dev.zero with present := true, trained := true, rate := r, gib := t.gib }
    | none => { Dev.zero with present := true, gib := t.gib }
  else Dev.zero

/-- A device after warm steps 4 and 4': one that a density names is trained again, a failure marks it absent; any other leaves
self-refresh as it stands (R431). -/
def trainWarm (d : Dev) (t : DevTrain) : Dev :=
  if t.gib = 0 then { d with selfref := false }
  else
    match trainRate t with
    | some r =>
      if gibOk t.gib then { d with present := true, trained := true, selfref := false, rate := r, gib := t.gib }
      else { d with present := false, trained := false, selfref := false }
    | none => { d with present := false, trained := false, selfref := false }

/-- The training values of a device in the retained store, device-major: 48 words for each of its two channels (R296, R428). -/
def trainingAt (d : Nat) : Nat := 0x1000 + 96 * d

/-- A training that passed writes the device's training values (R428, R430). -/
def State.putTraining (s : State) (d : Nat) (t : DevTrain) : State :=
  s.putRetainedAll (trainingAt d) ((List.range 96).map (fun i => t.values.getD i 0))

/-- TIER_TRAINING_DONE: the tier step of the start ends (R430, R431). -/
def State.onTierTrainingDone (s1 : State) (results : List DevTrain) : State :=
  let res (k : Nat) : DevTrain := if k < s1.grade.tierDevices then results.getD k { gib := 0, rates := [], values := [] } else { gib := 0, rates := [], values := [] }
  match s1.rs.start with
  | some r =>
    if s1.tier.training && !s1.inReset && !r.held then
      let devs := s1.tier.devs.zipIdx.map (fun p =>
        let d := if r.reach = .cold then trainCold (res p.2) else trainWarm p.1 (res p.2)
        { d with lastUse := s1.now })
      let s2 : State := { s1 with tier := { s1.tier with devs := devs, training := false },
                                  rs := { s1.rs with start := some { r with training := false } } }
      ((devs.zipIdx.filter (fun p => p.1.trained && decide ((res p.2).gib ≠ 0))).foldl (fun s p => s.putTraining p.2 (res p.2)) s2)
    else s1
  | none => s1

/-- A policy has a SPLIT program that names a region (R272, R424). -/
def State.splitNames (s : State) (i : Img) (r : Nat) (p : Policy) : Bool :=
  let env := s.env i
  ((p.egressStages env ++ p.ingressStages env).filter (fun t => decide (3 ≤ t.kind))).any (fun t => (s.placed i t).any (fun x => x.1 == r))

/-- An entry that keeps a region busy (R424): its home part in the region, or a lane of it. -/
def State.entryUses (s : State) (r : Nat) (c : Nat × Entry) : Bool :=
  let e := c.2
  let k := s.grade.regions
  let split := match s.img.force with | some i => s.splitNames i r (s.policyOf i e.policy) | none => false
  e.state != .free && e.state != .wintered && e.state != .cancelled
    && ((e.home && (c.1 % k == r || split)) || e.inLane % k == r || e.outLane % k == r)

/-- The image in force runs SPLIT instructions in a region (R277). -/
def State.runsSplit (s : State) (r : Nat) : Bool :=
  match s.img.force with
  | some i => (List.range i.policies).any (fun p => s.splitNames i r (s.policyOf i p))
  | none => false

/-- Region r is idle (R424). -/
def State.regionIdle (s : State) (r : Nat) : Bool :=
  let k := s.grade.regions
  !s.entries.any (s.entryUses r) && !s.tier.ops.any (fun o => o.lane % k == r) && s.tier.scrub.isNone
    && (s.fsp.relq.zipIdx.all (fun q => q.2 % k != r || (q.1.words.isEmpty && q.1.waiting.isEmpty))) && !s.regionHeld r

/-- A region reset asserted (R19, R425, R434): the clusters and the release queues of the region are cleared; in a region that runs
SPLIT instructions the clusters count as removed from dispatch until they start again (R275, R277). -/
def State.startRegion (s : State) (i : Issuer) (r : Nat) : State :=
  let was := (s.clustersOf r).any (fun c => (s.cluster c).removed)
  let gone := s.runsSplit r
  let s1 := (s.clustersOf r).foldl (fun s c => s.setCluster c { Cluster.zero with removed := gone }) s
  { s1 with rs := { s1.rs with lastReach := 1, sources := 2 ^ srcRegion, region := r,
                               regions := s1.rs.regions ++ [{ region := r, start := s1.tm.refclk, issuer := i }] },
            fsp := { s1.fsp with relq := s1.fsp.relq.zipIdx.map (fun q => if q.2 % s1.grade.regions = r then RelQ.zero else q.1) },
            bal := { s1.bal with due := s1.bal.due || was || gone } }

/-- REGION_RESET. -/
def State.onRegionReset (s : State) : State :=
  s.runCmd 0x4A onlyP0 (fixed 1) (fun ps => stray (wat ps 0) [(63, 62)] || decide (s.grade.regions ≤ bf (wat ps 0) 63 62))
    (fun i ps s =>
      let r := bf (wat ps 0) 63 62
      if s.regionIdle r then s.startRegion i r else s.answer i .notIdle)

end Sys2Proof.Machine
end

