-- ==== Sys2Proof/Machine/Tick.lean ====
section
/-! DEFINITION. Solstice ticks (R372, R373, R384, R387): the work of each order, and the rows that are parts of it. One SOLSTICE_TICK runs the
work of one tick number. -/
namespace Sys2Proof.Machine

/-- A deadline acts on a home entry that is LIVE, SPECULATING or WINTERED (R104). -/
def State.deadlineAct (s : State) (k slot : Nat) : State :=
  let e := s.entry slot
  if e.home && (e.state == .live || e.state == .speculating || e.state == .wintered) && e.deadlinePast k then s.startClose slot .deadline
  else s

/-- The sweep of one parked copy (R96, R309). -/
def State.sweepSlot (s : State) (k slot : Nat) : State :=
  let e := s.entry slot
  if e.parked && decide (e.expiry ≤ k) then
    if e.state = .wintered then s.cancelAll slot .ttl
    else if e.state = .live ∨ e.state = .speculating then s.freeCopy slot
    else s
  else s

/-- The sweep of parked copies and of the directory in the tier (R309); one in STAGE_HDL only counts its entries as absent (R319). -/
def State.sweep (s : State) (k : Nat) : State :=
  let s1 := (s.entries.map (·.1)).foldl (fun s n => s.sweepSlot k n) s
  if s1.tierOn then (s1.tier.dir.filter (fun c => decide (c.2.expiry ≤ k))).foldl (fun s c => s.dirExpire c.1 c.2) s1 else s1

/-- A CANCELLED entry becomes FREE at its second tick (R109). -/
def State.cancelledFree (s : State) (k slot : Nat) : State :=
  if (s.entry slot).state = .cancelled ∧ (s.slotAt slot).cancelTick + 2 ≤ k then s.freeEntry slot else s

/-- An open that no home answered within a tick (R100). -/
def State.openTimeout (s : State) (k slot : Nat) : State :=
  let e := s.entry slot
  if e.state = .opening ∧ (s.slotAt slot).openedAt + 2 ^ 20 ≤ k * 2 ^ 20 then (s.endPend slot .timeout).freeEntry slot else s

/-- Commands whose replies a commit holds answer with the commit (R360, R367). -/
def heldByCommit (op : Nat) : Bool := op == 0x31 || op == 0x38 || op == 0x39 || op == 0x3B

/-- While a commit stands staged on this gate, a forwarded command that may wait for it is no older than the last tick (log 52). -/
def State.holdForwards (s : State) (k : Nat) : State :=
  if s.com.staged.isSome then
    { s with cmi := { s.cmi with fwds := s.cmi.fwds.map (fun f => if heldByCommit f.issuer.op then { f with since := k * 2 ^ 20 } else f) } }
  else s

/-- Forwarded commands without an answer within a tick (R358). -/
def State.forwardTimeouts (s : State) (k : Nat) : State :=
  (s.cmi.fwds.filter (fun f => decide (f.since + 2 ^ 20 ≤ k * 2 ^ 20))).foldl (fun s f => s.endForward f .timeout []) s

/-- The least parked level, a signed 48-bit number (R323, log 17). -/
def pkMin : Int := -(2 ^ 47)

/-- The parked charge of one ledger (R326, R327); a level that falls to zero or below raises vector 1 (R329). -/
def State.chargeParked (s : State) (t : Nat) : State :=
  let l := s.ledger t
  if l.held = 0 then s
  else
    let v := max pkMin (l.pkLevel - l.held)
    let s1 := s.setLedger t { l with pkLevel := v }
    if 0 < l.pkLevel ∧ v ≤ 0 then s1.levelSpent t else s1

/-- One tenant in the sharing of a capacity: number, rate, weight. -/
structure Claim where
  tenant : Nat
  rate : Nat
  weight : Nat
  deriving DecidableEq, Repr

/-- The grants of active tenants (R331). -/
def shares : Nat → Nat → List Claim → List (Nat × Nat)
  | 0, _, _ => []
  | n + 1, remaining, set =>
    let wsum := set.foldl (fun a c => a + c.weight) 0
    let fair (c : Claim) : Nat := remaining * c.weight / wsum
    let done := set.filter (fun c => decide (c.rate ≤ fair c))
    if set.isEmpty then []
    else if done.isEmpty then set.map (fun c => (c.tenant, fair c))
    else
      done.map (fun c => (c.tenant, c.rate))
        ++ shares n (done.foldl (fun r c => r - c.rate) remaining) (set.filter (fun c => !decide (c.rate ≤ fair c)))

/-- The grants of a capacity by tenant (R331). -/
def State.grants (s : State) (cap : Nat) (rate : Ledger → Nat) : List (Nat × Nat) :=
  let act := (s.ledgers.filter (fun c => c.2.valid && c.2.sessions != 0)).map (fun c => ({ tenant := c.1, rate := rate c.2, weight := c.2.weight } : Claim))
  shares (act.length + 1) cap act

/-- A tenant's grant: its share while it is active, else its full rate (R331). -/
def grantOf (gs : List (Nat × Nat)) (t rate : Nat) : Nat := match gs.find? (fun g => g.1 == t) with | some g => g.2 | none => rate

/-- The refill of one ledger (R327). -/
def Ledger.refill (l : Ledger) (gIn gOut : Nat) : Ledger :=
  { l with inLevel := min (l.inLevel + gIn) l.inBurst, outLevel := min (l.outLevel + gOut) l.outBurst,
           pkLevel := min (l.pkLevel + l.pkRate) (l.pkBurst : Int) }

/-- The parked charge, then the refill of every valid tenant (R327). -/
def State.ledgerTick (s : State) : State :=
  let ts := s.ledgers.map (·.1)
  let s1 := ts.foldl State.chargeParked s
  let gi := s1.grants s1.bal.capIn (·.inRate)
  let go := s1.grants s1.bal.capOut (·.outRate)
  ts.foldl (fun s t =>
    let l := s.ledger t
    if l.valid then s.setLedger t (l.refill (grantOf gi t l.inRate) (grantOf go t l.outRate)) else s) s1

/-- The balance report of tick `k` is closed and sent to the coordinator (R340, R402). -/
def State.closeReport (s : State) (k : Nat) : State :=
  let p := min s.bal.p (2 ^ 32 - 1)
  let d := min s.bal.d (2 ^ 32 - 1)
  let s1 : State := { s with bal := { s.bal with p := 0, d := 0, reports := s.bal.reports.filter (fun r => decide (k ≤ r.tick + 16)) } }
  if !s.hasEdge then s1
  else if s.isCoord then { s1 with bal := { s1.bal with reports := s1.bal.reports ++ [{ gate := s.gate, tick := k, p := p, d := d }] } }
  else s1.sendTo typBalance s.coordGate 4 [targetWord k, pack [(p, 63, 32), (d, 31, 0)]]

/-- The prefill share from the sums of a window (R340). -/
def shareOf (old p d : Nat) : Nat := if p + d = 0 then old else min 255 (256 * p / (p + d))

/-- m over the reports of the WB ticks before `k`, and the newest reports that have not arrived (R340). -/
def State.measureShare (s : State) (k : Nat) (x : Meter) : State :=
  let rs := s.bal.reports.filter (fun r => decide (k ≤ r.tick + x.wb) && decide (r.tick < k))
  let p := rs.foldl (fun a r => a + r.p) 0
  let d := rs.foldl (fun a r => a + r.d) 0
  let absent := (s.members.filter (fun g => g != s.gate && !rs.any (fun r => r.gate == g && r.tick + 1 == k))).length
  { s with bal := { s.bal with m := shareOf s.bal.m p d, missing := satAdd 16 s.bal.missing absent } }

/-- The distance of a variant's share from m. -/
def Meter.distance (x : Meter) (m u : Nat) : Nat :=
  let sh := (x.variants.getD u (0, 0, 0)).1
  if sh ≤ m then m - sh else sh - m

/-- The variant that a decision chooses: of those whose band holds m, or of all, the nearest share, ties to the lower index (R341). -/
def Meter.choose (x : Meter) (count m : Nat) : Nat :=
  let all := List.range count
  let inBand := all.filter (fun u => let v := x.variants.getD u (0, 0, 0); decide (v.2.1 ≤ m) && decide (m ≤ v.2.2))
  let cands := if inBand.isEmpty then all else inBand
  cands.foldl (fun b u => if x.distance m u < x.distance m b then u else b) (cands.headD 0)

/-- The decision of a tick (R341). -/
def State.balanceDecision (s : State) (k : Nat) (f : Img) : State :=
  let x := f.meter
  let m := s.bal.m
  let v := x.variants.getD s.bal.active (0, 0, 0)
  if !x.balEn || s.bal.pinned || !s.commitFree then s
  else if v.2.1 ≤ m ∧ m ≤ v.2.2 then { s with bal := { s.bal with out := 0 } }
  else
    let out := min (s.bal.out + 1) 15
    let s1 : State := { s with bal := { s.bal with out := out } }
    if out < x.hold ∨ s.bal.since < x.dwell then s1
    else
      let n := x.choose f.contract.variants m
      if n = s.bal.active then s1 else s1.startCommit (variantChange n (k + x.lead)) [] none none

/-- Order 5: parked charge, refill, report, decision (R327, R340, R341). -/
def State.meterTick (s : State) (k : Nat) : State :=
  let s1 := (s.ledgerTick).closeReport k
  match s1.img.force with
  | some f => if s1.isCoord then (s1.measureShare k f.meter).balanceDecision k f else s1
  | none => s1

/-- Order 6: capacities where due, wake retries (R275, R330, R451). -/
def State.capacityTick (s : State) : State :=
  let s1 := if s.bal.due || s.ageing || s.clk.margin then s.recompute [] else s
  (List.range s1.grade.clusters).foldl (fun s c => if (s.cluster c).removed then s.wakeReq c else s) s1

/-- Order 7: vector 7 of every partition that enables it (R336). -/
def State.vectorTick (s : State) : State :=
  (List.range 64).foldl (fun s p => if s.partOn p && (s.part p).intEn.testBit 7 then s.raise p 7 else s) s

/-- The registers that a tick samples (R332, R374, R446). -/
def State.sampleTick (s : State) : State :=
  let s1 := s.sampleTime
  let s2 : State := { s1 with clk := { s1.clk with ctlIn := s1.clk.ctl }, bal := { s1.bal with ctlIn := s1.bal.ctl, since := satAdd 8 s1.bal.since 1 } }
  s2.floorWatch

/-- The measure of fclk over the tick that ends (R39). -/
def State.fclkTick (s : State) (k : Nat) (edges : Option Nat) : State :=
  let kept := if s.fsp.fclkFrom = some (k - 1) ∧ edges.isSome = true then edges else s.fsp.fclkKept
  { s with fsp := { s.fsp with fclkKept := kept, fclkFrom := if s.tick = k then some k else none } }

/-- The lasting conditions set their bits again, with no entry (R461). -/
def State.lasting (s : State) : State :=
  let put (c : Bool) (b : Sticky) (s : State) : State := if c && !s.trb.sticky.getLsbD b.idx then s.setSticky b else s
  put s.clk.margin .ageMargin (put (s.tm.set && !s.tm.locked) .timeUnlock
    (put (match s.rs.start with | some r => r.held | none => false) .startFail
      (put (s.clk.clusters.any (·.removed)) .wakeFail s)))

/-- A tick more without a TIME message, or the takeover of the twin (R383). -/
def State.silentTick (s : State) : State :=
  let s1 := if s.inReset then s else s.takeover
  if s1.tm.serving || s1.tmMode != 0 then s1 else { s1 with tm := { s1.tm with silent := satAdd 8 s1.tm.silent 1 } }

/-- Orders 1 to 7 of tick `k` (R373). -/
def State.tickOrders (s : State) (k : Nat) : State :=
  let slots := s.entries.map (·.1)
  let s1 := (s.holdForwards k).takeEffect k
  let s2 := slots.foldl (fun s n => s.deadlineAct k n) s1
  let s3 := s2.sweep k
  let s4 := slots.foldl (fun s n => (s.cancelledFree k n).openTimeout k n) s3
  (((s4.forwardTimeouts k).meterTick k).capacityTick).vectorTick

/-- The work of tick `k`. A job fault that the tick raises asserts after it (R435). -/
def State.tickWork (s : State) (k : Nat) (edges : Option Nat) (pllLocks : Bool) : State :=
  let s0 : State := { s with tm := { s.tm with lastTick := k }, net := { s.net with area3Sent := [] } }
  let s1 := s0.sampleTick
  let s2 := if s1.inReset then s1 else (s1.fclkTick k edges).tickOrders k
  let s3 := (s2.silentTick).sendTime k
  let held := match s3.rs.start with | some r => r.held | none => false
  let s4 := if held && !s3.inReset then s3.startClock pllLocks else s3
  let s5 := s4.lasting
  if s5.inReset then s5 else (((s5.goDecision k).releaseHeld).undecided k).diffArea3

/-- DEADLINE_REACHED (R104). -/
def State.onDeadlineReached (s1 : State) (slot : Nat) : State :=
  if s1.inReset then s1 else s1.deadlineAct s1.tick slot

/-- TTL_EXPIRY (R309). -/
def State.onTtlExpiry (s1 : State) : State :=
  if s1.inReset then s1 else s1.sweep s1.tick

/-- CANCELLED_FREE (R109). -/
def State.onCancelledFree (s1 : State) (slot : Nat) : State :=
  if s1.inReset then s1 else s1.cancelledFree s1.tick slot

/-- OPEN_TIMEOUT (R100). -/
def State.onOpenTimeout (s1 : State) (slot : Nat) : State :=
  if s1.inReset then s1 else s1.openTimeout s1.tick slot

/-- FORWARD_TIMEOUT (R358). -/
def State.onForwardTimeout (s1 : State) : State :=
  if s1.inReset then s1 else s1.forwardTimeouts s1.tick

/-- COMMIT_TAKE_EFFECT (R373, R399, R403). -/
def State.onCommitTakeEffect (s1 : State) : State :=
  if s1.inReset then s1 else (s1.takeEffect s1.tick).releaseHeld

end Sys2Proof.Machine
end

