-- ==== Sys2Proof/Machine/Rows.lean ====
section
/-! DEFINITION. The row window (R286, R288, R295), the scrub of SSM and its write-backs (R291, R292), the scrub of the tables
(R456). -/
namespace Sys2Proof.Machine

/-- The row window's status for an access through a handle, a read-only lease or not (R271, R281, R286), the read of the row apart. -/
def winStatus (d : Handle) (leased : Bool) (part op off : Nat) : Nat :=
  if !d.valid then 1
  else if d.gate || (d.scope != part && !(op == 1 && d.allp)) then 2
  else if d.bound ≤ off then 3
  else if op == 2 && leased then 4
  else 0

/-- The handle table and the replicas that a row-window access of this moment meets (R295): in the cycle of an image commit tick a WRITE
meets those in force at the start of that cycle. -/
def State.winTable (s : State) (op : Nat) : List (Nat × Word) × List Nat :=
  let now := (s.hdl, match s.img.force with | some f => f.repl | none => [])
  if op = 2 ∧ s.img.retireFrom ≠ 0 ∧ s.cycleOver (s.img.retireFrom - 1) = false then
    match s.img.retiring with
    | some f => (f.hdl, f.repl)
    | none => ([], [])
  else now

/-- An access of a partition's row window starts (R286): its row and what its check finds. -/
def State.winStart (s : State) (p op : Nat) : State :=
  let q := s.part p
  let h := bf q.win.addr 63 54
  let off := bf q.win.addr 53 32
  let t := s.winTable op
  let d := Handle.ofWord (sget 0#64 t.1 h)
  s.setPart p { q with win := { q.win with op := op, busy := true, row := d.base + off,
                                           found := winStatus d (!d.writable || t.2.contains h) p op off } }

/-- The access of a window has ended with a status. -/
def State.winEnd (s : State) (p st : Nat) (data : List Word) : State :=
  let q := s.part p
  s.setPart p { q with win := { q.win with busy := false, op := 0, status := st, data := data } }

/-- A row-window access completes (R281, R286, R291, R293). -/
def State.winDone (s : State) (p : Nat) (find : WordFind) : State :=
  let w := (s.part p).win
  match w.found with
  | 0 =>
    if w.op = 2 then
      let s1 := (s.winEnd p 0 w.data).supersede w.row
      { s1 with mem := s1.mem.putRow w.row w.data }
    else
      match find.find with
      | .clean => s.winEnd p 0 (s.mem.row w.row)
      | .corrected => (s.winEnd p 0 (s.mem.row w.row)).ssmCorrect w.row
      | .bad => (s.winEnd p 5 (List.replicate 8 0#64)).ssmUe w.row
  | 4 => (s.winEnd p 4 w.data).trouble .handleConflict 6 (Obj.ssm (bf w.addr 63 54) (bf w.addr 53 32)) (some p) 0
  | st => s.winEnd p st w.data

/-- PT_SSM_ACCESS_DONE: `find` is what the check of the row met on a READ. -/
def State.onPtSsmAccessDone (s1 : State) (part : Nat) (find : WordFind) : State :=
  if (s1.part part).win.busy then s1.winDone part find else s1

/-- What the scrub of a row meets (R292). -/
def State.scrubRowAt (s : State) (row : Nat) : Find → State
  | .clean => s
  | .corrected => s.ssmCorrect row
  | .bad => s.ssmUe row

/-- One scrub of the banks of a region, when it is due (R292). -/
def State.scrubRegion (s : State) (finds : List BankFind) (r : Nat) : State :=
  let due := s.img.scrubFrom.getD r 0
  let k := s.img.scrubRow.getD r 0
  if s.tm.refclk < due then s
  else
    let s1 : State := { s with img := { s.img with scrubRow := s.img.scrubRow.set r ((k + 1) % 32768), scrubFrom := s.img.scrubFrom.set r (due + 256) } }
    (finds.filter (fun f => f.region == r && decide (f.bank < 16))).foldl (fun s f => s.scrubRowAt (r * 2 ^ 19 + 16 * k + f.bank) f.find) s1

/-- SSM is powered and its walks run: not while a cold reset holds the gate. -/
def State.scrubRuns (s : State) : Bool := s.rs.reach != some .cold

/-- SSM_SCRUB: every bank of a region scrubs one row each 256 REFCLK cycles. -/
def State.onSsmScrub (s1 : State) (finds : List BankFind) : State :=
  if s1.scrubRuns then (List.range s1.grade.regions).foldl (fun s r => s.scrubRegion finds r) s1 else s1

/-- SSM_WRITE_BACK: the corrected row is written (R291). -/
def State.onSsmWriteBack (s : State) (row : Nat) : State := s.supersede row

/-- A ledger entry with an uncorrectable word (R345, R408): restored from the twin's mirror, where that holds it as last written; else
rewritten, its levels zero (R329, log 120). -/
def State.ledgerBad (s : State) (t : Nat) : State :=
  let s1 := s.trouble .ledgerUe 0 Obj.none (s.ownerOf t) 0
  if (List.range 8).all (fun j => s.mirrorHas 1 (8 * t + j)) then s1
  else (s1.setLedger t { Ledger.zero with valid := true, weight := 1 }).levelsGone t (s.ledger t)

/-- What the check of a word of the ledger store finds. -/
def State.ledgerCheck (s : State) (t : Nat) : Find → State
  | .clean => s
  | .corrected => s.ceLedger
  | .bad => s.ledgerBad t

/-- The scrub of the session table and of the ledger store, one word each every 64 REFCLK cycles, paused in a reset (R456). -/
def State.scrubTables (s : State) (session ledger : Find) : State :=
  let k := s.trb.tabNext
  if s.inReset || decide (s.tm.refclk < s.trb.tabDue) then s
  else
    let s1 : State := { s with trb := { s.trb with tabNext := (k + 1) % 131072, tabDue := s.trb.tabDue + 64 } }
    (s1.entryCheck (k / 16) { find := session, index := k % 16 }).ledgerCheck (k / 8) ledger

/-- The scrub of the retained store, one word every 64 REFCLK cycles (R456). -/
def State.scrubRetained (s : State) (f : Find) : State :=
  let k := s.trb.retNext
  if s.tm.refclk < s.trb.retDue then s
  else
    let s1 : State := { s with trb := { s.trb with retNext := (k + 1) % 8192, retDue := s.trb.retDue + 64 } }
    s1.retainedCheck { find := f, index := k }

/-- TABLE_SCRUB. -/
def State.onTableScrub (s : State) (session ledger retained : Find) : State :=
  (s.scrubTables session ledger).scrubRetained retained

end Sys2Proof.Machine
end

