-- ==== Sys2Proof/Machine/Elapse.lean ====
section
/-! DEFINITION. The moment of a command (R371 to R373, R384, R387, log 2): time passes, the work of every tick that falls due runs, in
ascending order, and the checks of the reads at that moment find what they find (R454), before the command acts. -/
namespace Sys2Proof.Machine

/-- The least number from `lo` to `hi` at which `p` holds, `hi` where it holds nowhere before; `p` holds from some number on. -/
def leastFrom (p : Nat → Bool) : Nat → Nat → Nat → Nat
  | 0, _, hi => hi
  | f + 1, lo, hi =>
    if hi ≤ lo then hi
    else if p ((lo + hi) / 2) then leastFrom p f lo ((lo + hi) / 2)
    else leastFrom p f ((lo + hi) / 2 + 1) hi

/-- What happens in the cycles between two commands, once time has passed: consumers read the session rings (R69, R76), GO leaves at the
end of its cycle (R369), partition resets go on (R337), HRP sends what a restart left for it (R411). -/
def State.between (s : State) : State :=
  if s.inReset then s else s.consumeRings.runClusters.sendGo.clearParts.sendAborted

/-- Whether the gclk cycle of tick `k` has begun after `n` more REFCLK edges and `q` quarters. -/
def State.reaches (s : State) (k n q : Nat) : Bool := decide (k ≤ (s.pass n q).tick)

/-- The instant of tick `k` within the next `n` edges and `q` quarters: edges and quarters from now. -/
def State.tickMoment (s : State) (k n q : Nat) : Nat × Nat :=
  let last (j : Nat) : Nat := if j = n then q else 159
  let j := leastFrom (fun j => s.reaches k j (last j)) n 0 n
  (j, leastFrom (fun r => s.reaches k j r) 160 0 (last j))

/-- `n` edges and `q` quarters pass, and the work of at most `fuel` ticks runs on the way (R384). `edges` and `pllLocks` are what the
environment shows those ticks: the fclk edges of the tick that ends (R39), and whether the gclk PLL locks (R434). -/
def State.runTicks (edges : Option Nat) (pllLocks : Bool) : Nat → Nat → Nat → State → State
  | 0, n, q, s => (s.pass n q).between
  | fuel + 1, n, q, s =>
    let k := s.tm.lastTick + 1
    if (s.pass n q).tick < k then (s.pass n q).between
    else
      let x := s.tickMoment k n q
      State.runTicks edges pllLocks fuel (n - x.1) q ((s.pass x.1 x.2).between.tickWork k edges pllLocks)

/-- Time passes, with the work of the ticks that fall due. -/
def State.passTicks (s : State) (edges : Option Nat) (pllLocks : Bool) (n q : Nat) : State :=
  State.runTicks edges pllLocks ((s.pass n q).tick - s.tm.lastTick) n q s

/-- What one check finds at a command's moment (R454, R455, log 137): nothing is read in a reset, the retained store apart. -/
def State.meet (s : State) (f : StoreFind) : State :=
  match f with
  | .retained f => s.retainedCheck f
  | _ =>
    if s.inReset then s
    else
      match f with
      | .row row f => s.scrubRowAt row f
      | .entry slot f => s.entryCheck slot f
      | .ledger t f => s.ledgerCheck t f
      | .retained f => s.retainedCheck f
      | .unit slot f => s.heldCheck slot f
      | .unitImage .clean => s
      | .unitImage .corrected => s.ceUnit
      | .unitImage .bad => s.jobFault .unitUe Obj.none none 0
      | .fifo egress l f => s.fifoCheck egress l f
      | .release _ .clean => s
      | .release l .corrected => s.ceRelq (l % s.grade.regions)
      | .release l .bad => s.jobFault .releaseUe (Obj.lane l true) none 0
      | .page f => s.scrubPage [extDev f.extent] f
      | .onDie d => s.setDev d { s.dev d with onDie := (s.dev d).onDie + 1 }

/-- What the checks find at a command's moment, in order. -/
def State.meetAll (s : State) (fs : List StoreFind) : State := fs.foldl State.meet s

/-- The state when a command's moment has come, the environment showing the ticks on the way `edges` and `pllLocks`. Changes of area 3
are mirrored first (R407). An edge of PPS_IN is measured at the end of its REFCLK cycle. -/
def State.elapseWith (s0 : State) (edges : Option Nat) (pllLocks : Bool) (m : Moment) : State :=
  let s := s0.diffArea3
  let s1 := match s.tm.ppsEdge, m.edges with
    | some q, n + 1 => ((s.passTicks edges pllLocks 1 0).measurePps (s.ppsTime q)).passTicks edges pllLocks n m.quarters
    | _, n => s.passTicks edges pllLocks n m.quarters
  s1.meetAll m.finds

/-- The state when a command's moment has come. A tick on the way whose own row does not come finds fclk not measured and the PLL not
locked (log 114). -/
def State.elapse (s : State) (m : Moment) : State := s.elapseWith none false m

/-- The state in which a command that may step time acts: if it does, the work of the tick whose instant its REFCLK cycle holds is done
first (R387). -/
def State.settled (s : State) (act : State → State) : State :=
  let k := s.tm.lastTick + 1
  if (act s).tm.stepped = s.tm.stepped ∨ (s.pass 1 0).tick < k then s else s.tickWork k none false

/-- A command that may step time. -/
def State.stepping (s : State) (act : State → State) : State := act (s.settled act)

end Sys2Proof.Machine
end

