-- ==== Sys2Proof/Machine/Registers.lean ====
section
/-! DEFINITION. Register accesses (R9, R471 to R487, R492): the frame of an access, the windows, every register's reading and writing,
and the rows of single registers. -/
namespace Sys2Proof.Machine

/-- The byte address of an access (R492). -/
def beatAddr (b : RegBeat) : Nat := bf b.w0 18 0
/-- A write. -/
def beatWrites (b : RegBeat) : Bool := bit b.w0 63

/-- An access that R472 or R492 calls misformed. -/
def beatMisformed (b : RegBeat) : Bool :=
  bf b.w0 62 61 != 3 || (beatAddr b) % 8 != 0 || stray b.w0 [(63, 61), (18, 0)] || (!beatWrites b && b.w1 != 0)

/-- The window of an address: none for the management window and what lies beyond every window, else the partition (R471). -/
def windowOf (a : Nat) : Option Nat := if 0x10000 ≤ a ∧ a < 0x50000 then some ((a - 0x10000) / 0x1000) else none

/-- The offset within the window addressed; an address beyond every window is its own (R471, R475). -/
def offsetOf (a : Nat) : Nat := if 0x10000 ≤ a ∧ a < 0x50000 then (a - 0x10000) % 0x1000 else a

/-- An access that R473 denies. -/
def beatDenied (b : RegBeat) : Bool :=
  b.part != 0 && (match windowOf (beatAddr b) with | some p => p != b.part | none => true)

/-- Counters of GT_REG_STAT (R472, R473, R475). -/
def State.countDenied (s : State) : State := { s with denied := satAdd 16 s.denied 1 }
def State.countMisformed (s : State) : State := { s with misformed := satAdd 16 s.misformed 1 }
def State.countBlocked (s : State) : State := { s with blocked := satAdd 16 s.blocked 1 }

/-- The answer to a read: the word as received, then the value (R492). -/
def State.regReply (s : State) (b : RegBeat) (v : Word) : State := s.putOut 1 b.part true [b.w0, v]

/-- A register of the management window, with its index where it is one of several (R476). -/
inductive Reg where
  | id
  | gcap (n : Nat)
  | role
  | regStat
  | ce (n : Nat)
  | sticky0
  | sticky1
  | alertEn
  | fifoState (k : Nat)
  | fifoThr (k : Nat)
  | slip (k : Nat)
  | fref (r : Nat)
  | mtuCap
  | mtuCtl
  | balStat
  | balCnt
  | clkCtl
  | clkStat
  | ringCfg
  | ringStat
  | ringTgt
  | ringCnt
  | tmCtl
  | tmStat
  | tmNow
  | tmFrac
  | rsCtl
  | rsStat
  | bkup (n : Nat)
  | agStat
  | agCode
  | agSpine
  | trDev (d : Nat)
  | trSum
  | enClu (c : Nat)
  | enReg (r : Nat)
  | route (n : Nat)
  | hdl (n : Nat)
  | hdls (n : Nat)
  deriving DecidableEq, Repr

/-- The register at an offset that is a multiple of 8 (R476); none where the offset is reserved. -/
def regAt (a : Nat) : Option Reg :=
  if a = 0x0000 then some .id
  else if 0x0008 ≤ a ∧ a ≤ 0x0028 then some (.gcap ((a - 0x0008) / 8))
  else if a = 0x0030 then some .role
  else if a = 0x0038 then some .regStat
  else if 0x0040 ≤ a ∧ a ≤ 0x0078 then some (.ce ((a - 0x0040) / 8))
  else if a = 0x0080 then some .sticky0
  else if a = 0x0088 then some .sticky1
  else if a = 0x0090 then some .alertEn
  else if 0x0100 ≤ a ∧ a < 0x0180 then (if a % 16 = 0 then some (.fifoState ((a - 0x0100) / 16)) else some (.fifoThr ((a - 0x0100) / 16)))
  else if 0x0180 ≤ a ∧ a ≤ 0x01B8 then some (.slip ((a - 0x0180) / 8))
  else if 0x01C0 ≤ a ∧ a ≤ 0x01D8 then some (.fref ((a - 0x01C0) / 8))
  else if a = 0x0200 then some .mtuCap
  else if a = 0x0208 then some .mtuCtl
  else if a = 0x0210 then some .balStat
  else if a = 0x0218 then some .balCnt
  else if a = 0x0240 then some .clkCtl
  else if a = 0x0248 then some .clkStat
  else if a = 0x0280 then some .ringCfg
  else if a = 0x0288 then some .ringStat
  else if a = 0x0290 then some .ringTgt
  else if a = 0x0298 then some .ringCnt
  else if a = 0x0400 then some .tmCtl
  else if a = 0x0408 then some .tmStat
  else if a = 0x0410 then some .tmNow
  else if a = 0x0418 then some .tmFrac
  else if a = 0x0500 then some .rsCtl
  else if a = 0x0508 then some .rsStat
  else if 0x0580 ≤ a ∧ a ≤ 0x05F8 then some (.bkup ((a - 0x0580) / 8))
  else if a = 0x0600 then some .agStat
  else if a = 0x0608 then some .agCode
  else if a = 0x0610 then some .agSpine
  else if 0x0700 ≤ a ∧ a ≤ 0x0798 then some (.trDev ((a - 0x0700) / 8))
  else if a = 0x07A0 then some .trSum
  else if 0x0800 ≤ a ∧ a ≤ 0x0838 then some (.enClu ((a - 0x0800) / 8))
  else if 0x0840 ≤ a ∧ a ≤ 0x0858 then some (.enReg ((a - 0x0840) / 8))
  else if 0x2000 ≤ a ∧ a ≤ 0x3FF8 then some (.route ((a - 0x2000) / 8))
  else if 0x4000 ≤ a ∧ a ≤ 0x5FF8 then some (.hdl ((a - 0x4000) / 8))
  else if 0x6000 ≤ a ∧ a ≤ 0x7FF8 then some (.hdls ((a - 0x6000) / 8))
  else none

/-- The bit ranges of a register that are not reserved. -/
def Reg.fields : Reg → List (Nat × Nat)
  | .id => [(63, 20)]
  | .gcap 0 => [(63, 0)]
  | .gcap 1 => [(63, 5)]
  | .gcap 2 => [(63, 5)]
  | .gcap 3 => [(63, 12)]
  | .gcap _ => [(63, 24)]
  | .role => [(63, 58)]
  | .regStat => [(63, 16)]
  | .ce 6 => [(63, 48)]
  | .ce _ => [(63, 0)]
  | .sticky0 => [(30, 0)]
  | .sticky1 => []
  | .alertEn => [(30, 0)]
  | .fifoState _ => [(63, 11)]
  | .fifoThr _ => [(63, 37)]
  | .slip _ => [(31, 0)]
  | .fref _ => [(31, 0)]
  | .mtuCap => [(63, 5)]
  | .mtuCtl => [(63, 32)]
  | .balStat => [(63, 46), (43, 0)]
  | .balCnt => [(63, 0)]
  | .clkCtl => [(63, 35)]
  | .clkStat => [(63, 25)]
  | .ringCfg => [(63, 37)]
  | .ringStat => [(63, 36)]
  | .ringTgt => [(63, 20)]
  | .ringCnt => [(63, 16)]
  | .tmCtl => [(63, 48)]
  | .tmStat => [(63, 10)]
  | .tmNow => [(63, 0)]
  | .tmFrac => [(63, 48)]
  | .rsCtl => [(63, 61)]
  | .rsStat => [(63, 15)]
  | .bkup _ => [(63, 0)]
  | .agStat => [(63, 36)]
  | .agCode => [(63, 0)]
  | .agSpine => [(63, 12)]
  | .trDev _ => [(63, 4)]
  | .trSum => [(63, 37)]
  | .enClu _ => [(63, 8)]
  | .enReg _ => [(63, 43)]
  | .route _ => [(63, 51)]
  | .hdl _ => [(63, 10)]
  | .hdls _ => [(63, 10)]

/-- A register of a cluster, region or device that the grade lacks (R476). -/
def Reg.absent (g : Grade) : Reg → Bool
  | .fref r => decide (g.regions ≤ r)
  | .trDev d => decide (g.tierDevices ≤ d)
  | .enClu c => decide (g.clusters ≤ c)
  | .enReg r => decide (g.regions ≤ r)
  | _ => false

/-- The FIFO of GT_FIFO_k: ingress lanes, then egress lanes. -/
def State.fifoOf (s : State) (k : Nat) : SlotFifo := (s.laneAt (decide (4 ≤ k)) (k % 4)).fifo
/-- That FIFO written. -/
def State.setFifo (s : State) (k : Nat) (f : SlotFifo) : State :=
  let v := s.laneAt (decide (4 ≤ k)) (k % 4)
  s.setLane (decide (4 ≤ k)) (k % 4) { v with fifo := f }

/-- GT_ID (R477). -/
def gtId (g : Grade) : Word := pack [(1, 63, 60), (1, 59, 52), (2, 51, 44), (0, 43, 32), (1, 31, 28), (1, 27, 24), (g.code, 23, 20)]

/-- GT_CLK_STAT (R446). -/
def State.clkStat (s : State) : Word :=
  let started := s.clk.clusters.zipIdx.foldl (fun a c => a + b2n (c.1.power == .started) * 2 ^ c.2) 0
  let removed := s.clk.clusters.zipIdx.foldl (fun a c => a + b2n c.1.removed * 2 ^ c.2) 0
  let st := if s.clk.sleeping then 2 else if started = 0 then 1 else 0
  pack [(s.clk.mhz, 63, 53), (st, 52, 51), (started, 50, 43), (removed, 42, 35), (s.clk.pwrReq, 34, 27), (b2n s.clk.throttle, 26, 26),
    (b2n (s.clk.throttle && s.clk.mhz == s.fFloor), 25, 25)]

/-- GT_RING_STAT (R400). -/
def State.ringStat (s : State) : Word :=
  let k := match s.com.staged with | some t => t.kind.code | none => 0
  pack [(s.com.epoch, 63, 56), (s.net.linkUp, 55, 52), (b2n s.com.staged.isSome, 51, 51), (k, 50, 49), (b2n s.com.window, 48, 48),
    (b2n s.net.paired, 47, 47), (b2n s.net.synced, 46, 46), (s.net.twin, 45, 36)]

/-- AG_STAT (R452). -/
def State.agStat (s : State) : Word :=
  pack [(s.clk.plan, 63, 53), (s.clk.ageOfs, 52, 48), (s.fFloor, 47, 37), (b2n s.clk.margin, 36, 36)]

/-- EN_CLU_c (R484). -/
def State.cluWord (s : State) (c : Nat) : Word :=
  let k := s.cluster c
  pack [(min (s.waitingOn c) 255, 63, 56), (k.runs, 55, 24), (k.wakes, 23, 8)]

/-- EN_REG_r (R484): the release queues of the region's lanes and its parking engine. -/
def State.regionWord (s : State) (r : Nat) : Word :=
  let other := if s.grade.regions = 2 then (s.relqAt (r + 2)).words.length else 0
  pack [((s.relqAt r).words.length, 63, 54), (other, 53, 44),
    (b2n (s.tier.scrub.isSome || s.tier.ops.any (fun o => o.lane % s.grade.regions == r)), 43, 43)]

/-- The value of a register of the management window (R474). -/
def State.readReg (s : State) : Reg → Word
  | .id => gtId s.grade
  | .gcap n => wat (gcap s.grade) n
  | .role => pack [(s.roleShadow, 63, 61), (s.role, 60, 58)]
  | .regStat => pack [(s.denied, 63, 48), (s.misformed, 47, 32), (s.blocked, 31, 16)]
  | .ce n => wat s.trb.ce n
  | .sticky0 => s.trb.sticky
  | .sticky1 => 0
  | .alertEn => s.trb.alertEn
  | .fifoState k =>
    let f := s.fifoOf k
    pack [(f.wp, 63, 51), (f.rp, 50, 38), (f.fp, 37, 25), (f.ps, 24, 12), (b2n f.ovf, 11, 11)]
  | .fifoThr k =>
    let f := s.fifoOf k
    pack [(f.thresh, 63, 52), (b2n f.thrPend, 51, 51), (b2n f.thrEn, 50, 50), (f.pkts, 49, 37)]
  | .slip k => word (s.laneAt (decide (4 ≤ k)) (k % 4)).slip
  | .fref r => word (s.fsp.fref.getD r 0)
  | .mtuCap => pack [(s.bal.factor, 63, 53), (s.bal.capOut, 52, 29), (s.bal.capIn, 28, 5)]
  | .mtuCtl => s.bal.ctl
  | .balStat => s.balStat
  | .balCnt => pack [(s.bal.switches, 63, 32), (s.bal.aborts, 31, 16), (s.bal.missing, 15, 0)]
  | .clkCtl => s.clk.ctl
  | .clkStat => s.clkStat
  | .ringCfg => s.net.cfg
  | .ringStat => s.ringStat
  | .ringTgt => match s.com.staged with | some t => targetWord t.target | none => 0
  | .ringCnt => pack [(s.net.late, 63, 32), (s.net.dropped, 31, 16)]
  | .tmCtl => s.tm.ctl
  | .tmStat => s.tmStat
  | .tmNow => word s.tm.ns
  | .tmFrac => pack [(s.tm.frac, 63, 48)]
  | .rsCtl => s.rs.ctl
  | .rsStat => s.rsStat
  | .bkup n => sget 0#64 s.trb.bkup n
  | .agStat => s.agStat
  | .agCode => s.clk.agCode
  | .agSpine => pack [(s.clk.agSpine, 63, 56), (s.clk.agTick, 55, 12)]
  | .trDev d => s.devWord d
  | .trSum => pack [(s.trainedDevs.length, 63, 59), (s.tier.lost, 58, 38), (b2n s.tier.training, 37, 37)]
  | .enClu c => s.cluWord c
  | .enReg r => s.regionWord r
  | .route n => s.routeWord n
  | .hdl n => sget 0#64 s.hdl n
  | .hdls n => match s.img.load, s.img.loading with
    | .idle, _ => 0
    | _, some i => sget 0#64 i.hdl n
    | _, none => 0

/-- A field of GT_CLK_CTL out of its range (R446). -/
def clkCtlBad (v : Word) : Bool :=
  decide (bf v 63 53 < 600) || decide (1600 < bf v 63 53) || bf v 52 47 == 0 || bf v 46 43 == 0 || bf v 40 35 == 0 || decide (50 < bf v 40 35)

/-- A written value that sets a reserved bit, a reserved encoding or a field out of its range (R9, R374, R446). -/
def Reg.reserved (r : Reg) (v : Word) : Bool :=
  stray v r.fields || (match r with
    | .tmCtl => bf v 63 62 == 3
    | .clkCtl => clkCtlBad v
    | _ => false)

/-- A commit of mode registers is staged here (R479). -/
def State.modeStaged (s : State) : Bool := match s.com.staged with | some t => t.kind == .mode | none => false

/-- GT_RING_CFG written: while ENABLE is 1 only ENABLE changes (R389). -/
def State.writeRing (s : State) (v : Word) : State :=
  let w := if s.ringOn then pack [(bf v 63 63, 63, 63), (bf s.net.cfg 62 0, 62, 0)] else v
  let s1 : State := { s with net := { s.net with cfg := w }, clk := { s.clk with quietSince := if bit w 63 then none else s.clk.quietSince } }
  if s.ringOn && bf v 62 0 != bf s.net.cfg 62 0 then s1.countBlocked else s1

/-- The field of a written word is all zero. -/
def fieldZero (v : Word) (hi lo old : Nat) : Nat := if bf v hi lo = 0 then 0 else old

/-- A register of the management window written with a value that sets nothing reserved (R475, R480, R482, R486). -/
def State.writeReg (s : State) (r : Reg) (v : Word) : State :=
  match r with
  | .role => if s.modeStaged then s.countBlocked else { s with roleShadow := bf v 63 61 }
  | .regStat => { s with denied := fieldZero v 63 48 s.denied, misformed := fieldZero v 47 32 s.misformed, blocked := fieldZero v 31 16 s.blocked }
  | .ce n => if v = 0 then { s with trb := { s.trb with ce := s.trb.ce.set n 0 } } else s
  | .sticky0 => if v = 0 then s else s.clearSticky v
  | .alertEn => { s with trb := { s.trb with alertEn := v } }
  | .fifoState k => if bit v 11 then s.setFifo k { s.fifoOf k with ovf := false } else s
  | .fifoThr k => s.setFifo k { s.fifoOf k with thresh := bf v 63 52, thrEn := bit v 50, thrPend := (s.fifoOf k).thrPend && !bit v 51 }
  | .slip k =>
    if v = 0 then
      let l := s.laneAt (decide (4 ≤ k)) (k % 4)
      s.setLane (decide (4 ≤ k)) (k % 4) { l with slip := 0 }
    else s
  | .fref n => if v = 0 then { s with fsp := { s.fsp with fref := s.fsp.fref.set n 0 } } else s
  | .mtuCtl => { s with bal := { s.bal with ctl := v } }
  | .clkCtl => { s with clk := { s.clk with ctl := v } }
  | .ringCfg => s.writeRing v
  | .tmCtl => { s with tm := { s.tm with ctl := v, rewritten := true } }
  | .rsCtl => { s with rs := { s.rs with ctl := v } }
  | .bkup n => { s with trb := { s.trb with bkup := sset 0#64 s.trb.bkup n v } }
  | .route n => if s.ringOn then s.countBlocked else { s with net := { s.net with routes := sset 0#64 s.net.routes n v } }
  | _ => s

/-- A write in the management window, or beyond every window (R471, R472, R475, R476). -/
def State.writeMgmt (s : State) (a : Nat) (v : Word) : State :=
  match (if a < 0x10000 then regAt a else none) with
  | none => if v = 0 then s else s.regReserved (a % 2 ^ 16) none
  | some r =>
    if r.absent s.grade then s
    else if r.reserved v then s.regReserved a none
    else s.writeReg r v

/-- A read in the management window. -/
def State.readMgmt (s : State) (a : Nat) : Word :=
  match (if a < 0x10000 then regAt a else none) with
  | none => 0
  | some r => if r.absent s.grade then 0 else s.readReg r

/-- A register of a partition window (R485). -/
inductive PReg where
  | cfg
  | int
  | ssmAddr
  | ssmCtl
  | ssmData (n : Nat)
  | cnt (n : Nat)
  deriving DecidableEq, Repr

/-- The register at an offset of a partition window. -/
def pregAt (a : Nat) : Option PReg :=
  if a = 0x000 then some .cfg
  else if a = 0x008 then some .int
  else if a = 0x010 then some .ssmAddr
  else if a = 0x018 then some .ssmCtl
  else if 0x020 ≤ a ∧ a ≤ 0x058 then some (.ssmData ((a - 0x020) / 8))
  else if 0x060 ≤ a ∧ a ≤ 0x070 then some (.cnt ((a - 0x060) / 8))
  else none

/-- The bit ranges that are not reserved. -/
def PReg.fields : PReg → List (Nat × Nat)
  | .cfg => [(63, 26)]
  | .int => [(63, 40)]
  | .ssmAddr => [(63, 32)]
  | .ssmCtl => [(63, 58)]
  | .ssmData _ => [(63, 0)]
  | .cnt _ => [(63, 0)]

/-- PT_CNT0 to PT_CNT2, the words of STATS_READ group 2 (R485). -/
def Partn.counters (q : Partn) : List Word :=
  [ pack [(q.staleDrops, 63, 32), (q.stateDrops, 31, 0)], pack [(q.lateVerdicts, 63, 32), (q.reruns, 31, 0)],
    pack [(q.degradedItems, 63, 32), (q.ringOvf, 31, 0)] ]

/-- The value of a register of partition `p`'s window. -/
def State.readPReg (s : State) (p : Nat) (r : PReg) : Word :=
  let q := s.part p
  match r with
  | .cfg => pack [(b2n (s.partOn p), 63, 63), (q.share, 62, 55), (q.base, 54, 41), (q.count, 40, 26)]
  | .int => pack [(q.intEn, 63, 56), (q.intPend, 55, 48), (q.intAgain, 47, 40)]
  | .ssmAddr => q.win.addr
  | .ssmCtl => pack [(b2n q.win.busy, 61, 61), (q.win.status, 60, 58)]
  | .ssmData n => wat q.win.data n
  | .cnt n => wat q.counters n

/-- PT_INT written (R336, R475): enables that go, then the pending bits, then enables that come. -/
def State.writeInt (s : State) (p : Nat) (v : Word) : State :=
  let new := bf v 63 56
  ((s.setIntEn p ((s.part p).intEn &&& new)).clearPend p (bf v 55 48)).setIntEn p new

/-- A register of partition `p`'s window written with a value that sets nothing reserved (R286, R475). -/
def State.writePReg (s : State) (p : Nat) (r : PReg) (v : Word) : State :=
  let q := s.part p
  let win (w : RowWin) : State := s.setPart p { q with win := w }
  match r with
  | .int => s.writeInt p v
  | .ssmAddr => if q.win.busy then s.countBlocked else win { q.win with addr := v }
  | .ssmCtl =>
    if q.win.busy then s.countBlocked
    else if bf v 63 62 = 0 then s
    else s.winStart p (bf v 63 62)
  | .ssmData n => if q.win.busy then s.countBlocked else win { q.win with data := q.win.data.set n v }
  | _ => s

/-- A write in a partition window. -/
def State.writePart (s : State) (p a : Nat) (v : Word) : State :=
  match pregAt a with
  | none => if v = 0 then s else s.regReserved a (some p)
  | some r =>
    if stray v r.fields || (r == .ssmCtl && bf v 63 62 == 3) then s.regReserved a (some p) else s.writePReg p r v

/-- A read in a partition window. -/
def State.readPart (s : State) (p a : Nat) : Word := match pregAt a with | none => 0 | some r => s.readPReg p r

/-- The check of a backup register that is read (R455): an uncorrectable one reads zero until it is next written. -/
def State.bkupCheck (s : State) (a : Nat) (f : Find) : State :=
  match regAt a, f with
  | some (.bkup _), .corrected => s.ceRetained
  | some (.bkup n), .bad => (s.trouble .retainedUe 0 Obj.none none 0).writeReg (.bkup n) 0
  | _, _ => s

/-- A register access whose frame is whole and which its partition may make. -/
def State.accessReg (s : State) (b : RegBeat) : State :=
  let a := offsetOf (beatAddr b)
  match windowOf (beatAddr b), (beatWrites b) with
  | none, true => s.writeMgmt a b.w1
  | none, false =>
    let s1 := s.bkupCheck a b.find
    let s2 := s1.regReply b (s1.readMgmt a)
    if a = 0x0410 then { s2 with tm := { s2.tm with frac := s.tm.frac16 } } else s2
  | some p, true => s.writePart p a b.w1
  | some p, false => s.regReply b (s.readPart p a)

/-- A register access (R472, R473, R492): nothing while HRP does not take words. -/
def State.regAccess (s : State) (b : RegBeat) : State :=
  if !s.hrpOn then s
  else if beatMisformed b then (if beatWrites b then s.countMisformed else s.countMisformed.regReply b 0)
  else if beatDenied b then (if beatWrites b then s.countDenied else s.countDenied.regReply b 0)
  else s.accessReg b

/-- The registers that have a row of their own, and the accesses that the row is for. -/
inductive RegRow where
  | tmNow
  | ssmRead
  | ssmWrite
  | ptInt
  | sticky
  | other
  deriving DecidableEq, Repr

/-- The row of an access. -/
def beatRow (b : RegBeat) : RegRow :=
  let a := offsetOf (beatAddr b)
  match windowOf (beatAddr b), (beatWrites b) with
  | none, false => if a = 0x0410 then .tmNow else .other
  | none, true => if a = 0x0080 then .sticky else .other
  | some _, true => if a = 0x008 then .ptInt else if a = 0x018 ∧ bf b.w1 63 62 = 1 then .ssmRead else if a = 0x018 ∧ bf b.w1 63 62 = 2 then .ssmWrite else .other
  | some _, false => .other

/-- An access taken by the row it is for. -/
def State.rowAccess (s : State) (r : RegRow) (b : RegBeat) : State := if beatRow b = r then s.regAccess b else s

/-- REGISTER_WRITE: an access to a register with no row of its own. -/
def State.onRegisterWrite (s : State) (beat : RegBeat) : State := s.rowAccess .other beat
/-- TM_NOW_READ (R474). -/
def State.onTmNowRead (s : State) (beat : RegBeat) : State := s.rowAccess .tmNow beat
/-- PT_SSM_READ (R286). -/
def State.onPtSsmRead (s : State) (beat : RegBeat) : State := s.rowAccess .ssmRead beat
/-- PT_SSM_WRITE (R286). -/
def State.onPtSsmWrite (s : State) (beat : RegBeat) : State := s.rowAccess .ssmWrite beat
/-- PT_INT_WRITE (R336). -/
def State.onPtIntWrite (s : State) (beat : RegBeat) : State := s.rowAccess .ptInt beat
/-- TRB_STICKY_WRITE (R460). -/
def State.onTrbStickyWrite (s : State) (beat : RegBeat) : State := s.rowAccess .sticky beat

end Sys2Proof.Machine
end

