-- ==== Sys2Proof/Machine/Ports.lean ====
section
/-! DEFINITION. Statistics and trouble commands (R361, R448, R466, R467), interrupt messages (R336, R493), the sideband port (R501 to R503)
and the test port (R506, R507). -/
namespace Sys2Proof.Machine

/-- The words of a slip-log entry (R52). -/
def SlipEv.words (e : SlipEv) : List Word :=
  [ word e.time, pack [(e.slot, 63, 16), (e.lane, 15, 14), (b2n e.egress, 13, 13), (e.variant, 12, 9)],
    pack [(e.handle, 63, 32), (e.count, 31, 12), (e.sources, 4, 0)] ]

/-- One group of counters (R361). Group 1 hands out the slip log: its entries leave, and with them OVERFLOW. -/
def State.stats (s : State) (i : Issuer) (w : Word) : State :=
  match bf w 63 56 with
  | 0 => s.reply i .ok ((s.fsp.ingress ++ s.fsp.egress).map (fun l => word l.slip))
  | 1 =>
    let l := s.fsp.slipLog
    ({ s with fsp := { s.fsp with slipLog := [], slipOvf := false } }).reply i .ok
      (pack [(l.length, 63, 57), (b2n s.fsp.slipOvf, 56, 56)] :: l.flatMap SlipEv.words)
  | 2 => s.reply i .ok (s.part (bf w 55 50)).counters
  | 3 => s.reply i .ok s.trb.ce
  | _ => s.reply i .ok ((s.fsp.fref.take s.grade.regions).map word)

/-- The issuers of STATS_READ by its group (R361). -/
def statsWho (i : Issuer) (ps : List Word) : Bool :=
  let w := wat ps 0
  if ps.isEmpty then true
  else match bf w 63 56 with
  | 0 => i.isP0
  | 1 => i.isP0
  | 2 => i.isP0 || i.part == bf w 55 50
  | 3 => i.isP0
  | 4 => i.isP0
  | _ => true

/-- STATS_READ. -/
def State.onStatsRead (s : State) : State :=
  s.runCmd 0x58 statsWho (fixed 1)
    (fun ps =>
      let w := wat ps 0
      stray w [(63, 50)] || decide (5 ≤ bf w 63 56) || (bf w 63 56 != 2 && bf w 55 50 != 0))
    (fun i ps s => s.stats i (wat ps 0))

/-- The entries of the trouble log from `first`, at most `count`, oldest first (R466). -/
def State.logWords (s : State) (first count : Nat) : List Word :=
  let n := min count (s.logHeld - first)
  (List.range n).flatMap (fun k => s.logEntry ((s.logNext + 256 - s.logHeld + first + k) % 256))

/-- TROUBLE_READ. -/
def State.onTroubleRead (s : State) : State :=
  s.runCmd 0x59 anyone (fixed 1)
    (fun ps => stray (wat ps 0) [(63, 47)] || bf (wat ps 0) 55 47 == 0 || decide (256 < bf (wat ps 0) 55 47))
    (fun i ps s => s.reply i .ok ([s.trb.sticky, 0, s.retained logHeaderAt] ++ s.logWords (bf (wat ps 0) 63 56) (bf (wat ps 0) 55 47)))

/-- TROUBLE_CLEAR (R467). -/
def State.onTroubleClear (s : State) : State :=
  s.runCmd 0x5A onlyP0 (fixed 2) (fun ps => stray (wat ps 0) [(30, 0)] || wat ps 1 != 0)
    (fun i ps s => (s.clearSticky (wat ps 0)).answer i .ok)

/-- The words of AGE_REPORT (R448). -/
def State.ageWords (s : State) : List Word :=
  let n := s.agCount
  s.retained agHeaderAt :: ((List.range 4).map (fun k => s.retained (0x804 + k))
    ++ (List.range n).flatMap (fun j => (List.range 4).map (fun k => s.retained (agRecAt ((s.agNext + 508 - n + j) % 508) + k))))

/-- AGE_REPORT. -/
def State.onAgeReport (s : State) : State :=
  s.runCmd 0x5B anyone (fixed 0) (fun _ => false) (fun i _ s => s.reply i .ok s.ageWords)

/-- An interrupt message (R336). -/
def IntMsg.word (x : IntMsg) : Word := pack [(x.part, 63, 58), (x.vector, 57, 55), (x.time, 38, 0)]

/-- INTERRUPT_MESSAGE_SEND: the message that fell due first leaves on VC 2 (R336, R493). -/
def State.onInterruptMessageSend (s1 : State) : State :=
  match s1.ints with
  | x :: rest => (if s1.hrpUp then ({ s1 with ints := rest }).putOut 2 x.part false [x.word] else s1)
  | [] => s1

/-- TYPE and N of a frame (R502). -/
def frameType (f : SmpFrame) : Nat := f.control.toNat / 64
def frameCount (f : SmpFrame) : Nat := f.control.toNat % 64 + 1

/-- A frame that R503 refuses. -/
def frameRefused (f : SmpFrame) : Bool := f.bits != 8 + 72 * (frameCount f) || (frameType f) == 3 || ((frameType f) == 2 && (frameCount f) != 1)

/-- The status byte that a frame's control byte shifts out (R502). -/
def State.smpStatus (s : State) : Nat :=
  let n := s.cmi.smpReply.length
  b2n (decide (0 < n)) * 128 + b2n (decide (4 ≤ s.cmi.smpRing.length)) * 64 + min n 63

/-- What a frame shifts out: the status byte, then its words. -/
def State.smpShift (s : State) (ws : List Word) : State := { s with cmi := { s.cmi with smpStat := s.smpStatus, smpOut := ws } }

/-- Words of ones. -/
def onesWords (n : Nat) : List Word := List.replicate n (~~~ 0#64)

/-- The packet in progress is discarded without a reply (R351, R503). -/
def State.smpDiscard (s : State) : State :=
  let h := wat s.cmi.smpWords 0
  let readable := !s.cmi.smpWords.isEmpty
  ({ s with cmi := { s.cmi with smpWords := [], smpBad := false } }).badPacket (hPart h) h readable true

/-- One request word with what its code shows: a header that cannot be read is discarded at once; a packet is whole when PLEN words
have followed its header (R349, R351, R491, R502). -/
def State.smpTake (s : State) (w : Word) (f : Find) : State :=
  let s0 := if f = .corrected then s.ceCommand else s
  let c := s0.cmi
  if c.smpWords = [] ∧ f = .bad then s0.badPacket 0 w false true
  else
    let ws := c.smpWords ++ [w]
    let bad := c.smpBad || f == .bad
    if ws.length < 1 + hLen (wat ws 0) then { s0 with cmi := { c with smpWords := ws, smpBad := bad } }
    else
      let s1 : State := { s0 with cmi := { c with smpWords := [], smpBad := false } }
      if bad then s1.badPacket (hPart (wat ws 0)) (wat ws 0) true true else s1.arriveSmp ws

/-- The words of a WRITE frame. -/
def State.smpWrite (s : State) (f : SmpFrame) : State :=
  (f.words.zipIdx).foldl (fun s w => s.smpTake w.1 (if w.2 = f.find.index then f.find.find else .clean)) s

/-- SMP_WRITE (R502, R503). -/
def State.onSmpWrite (s1 : State) (frame : SmpFrame) : State :=
  if !s1.smpOn || (frameType frame) != 0 then s1
    else
      let s2 := s1.smpShift (onesWords (frameCount frame))
      if (frameRefused frame) then s2.smpDiscard else s2.smpWrite frame

/-- The words of a READ frame: reply words, then idle words (R502). -/
def readWords (l : List Word) (n : Nat) : List Word := (l ++ List.replicate n idleWord).take n

/-- SMP_READ: a reply word leaves when all its 72 bits have been shifted out (R502, R503). -/
def State.onSmpRead (s1 : State) (frame : SmpFrame) : State :=
  if !s1.smpOn || (frameType frame) != 1 then s1
    else
      let s2 := s1.smpShift (readWords s1.cmi.smpReply (frameCount frame))
      { s2 with cmi := { s2.cmi with smpReply := s2.cmi.smpReply.drop (min (frameCount frame) ((frame.bits - 8) / 72)) } }

/-- SMP_STATUS: nothing is removed (R502). -/
def State.onSmpStatus (s1 : State) (frame : SmpFrame) : State :=
  if !s1.smpOn || (frameType frame) != 2 then s1 else s1.smpShift (onesWords (frameCount frame))

/-- The test port is locked (R507). -/
def State.tapLocked (s : State) : Bool := (List.range 63).any (fun p => (s.part (p + 1)).enabled) || s.img.force.isSome

/-- Update-IR with an instruction; EXTEST and INSTR of a locked port act as BYPASS (R507). -/
def State.updateIr (s : State) (ir : BitVec 8) (lockable : Bool) : State :=
  { s with tap := { s.tap with ir := ir, bypassed := lockable && s.tapLocked } }

/-- The test register that is selected: an instruction in force when the lock is set acts as BYPASS from then on (R507). -/
def State.tapBypass (s : State) : Bool :=
  s.tap.bypassed || ((s.tap.ir == 0x00#8 || s.tap.ir == 0x20#8) && s.tapLocked) || !(s.tap.ir == 0x00#8 || s.tap.ir == 0x01#8 || s.tap.ir == 0x20#8)

/-- EXTEST. -/
def State.onExtest (s : State) : State := s.updateIr 0x00#8 true

/-- SAMPLE/PRELOAD: the boundary cells take the bits shifted in (R506, R507). -/
def State.onSamplePreload (s : State) (bits : List Bool) : State :=
  let s1 := s.updateIr 0x01#8 false
  { s1 with tap := { s1.tap with cells := bits } }

/-- INSTR: the IEEE 1687 network is selected (R506). -/
def State.onInstr (s : State) : State := s.updateIr 0x20#8 true

/-- BYPASS, by its own encoding or any other that the table does not list (R506). -/
def State.onBypass (s1 : State) (encoding : BitVec 8) : State :=
  if encoding = 0x00#8 ∨ encoding = 0x01#8 ∨ encoding = 0x20#8 then s1 else
    { s1 with tap := { s1.tap with ir := encoding, bypassed := true } }

/-- TRST_N: the TAP is reset (R506, R507). -/
def State.onTrstN (s1 : State) : State :=
  { s1 with tap := TapU.zero }

end Sys2Proof.Machine
end

