-- ==== Sys2Proof/Machine/Commands.lean ====
section
/-! DEFINITION. The meaning of every row: its moment comes, the ticks on the way having run (R110, R373), and it acts. -/
namespace Sys2Proof.Machine

/-- COMMAND_PACKET_ARRIVAL. -/
def execCommandPacketArrival (m : Moment) (via : Via) (words : List Word) (find : Find) (headerReadable : Bool) (s : State) : Host.Outcome State Fault Refusal :=
  .next ((s.elapse m).onCommandPacketArrival via words find headerReadable)
/-- NOP. -/
def execNop (m : Moment) (s : State) : Host.Outcome State Fault Refusal := .next (s.elapse m).onNop
/-- IDENTIFY. -/
def execIdentify (m : Moment) (s : State) : Host.Outcome State Fault Refusal := .next (s.elapse m).onIdentify
/-- CAPS_READ. -/
def execCapsRead (m : Moment) (s : State) : Host.Outcome State Fault Refusal := .next (s.elapse m).onCapsRead
/-- SESSION_OPEN. -/
def execSessionOpen (m : Moment) (s : State) : Host.Outcome State Fault Refusal := .next (s.elapse m).onSessionOpen
/-- SESSION_FEED. -/
def execSessionFeed (m : Moment) (s : State) : Host.Outcome State Fault Refusal := .next (s.elapse m).onSessionFeed
/-- SESSION_CLOSE. -/
def execSessionClose (m : Moment) (s : State) : Host.Outcome State Fault Refusal := .next (s.elapse m).onSessionClose
/-- SESSION_CANCEL. -/
def execSessionCancel (m : Moment) (s : State) : Host.Outcome State Fault Refusal := .next (s.elapse m).onSessionCancel
/-- SESSION_PARK. -/
def execSessionPark (m : Moment) (s : State) : Host.Outcome State Fault Refusal := .next (s.elapse m).onSessionPark
/-- SESSION_RESUME. -/
def execSessionResume (m : Moment) (s : State) : Host.Outcome State Fault Refusal := .next (s.elapse m).onSessionResume
/-- SESSION_QUERY. -/
def execSessionQuery (m : Moment) (find : WordFind) (s : State) : Host.Outcome State Fault Refusal := .next ((s.elapse m).onSessionQuery find)
/-- STOP_SET. -/
def execStopSet (m : Moment) (s : State) : Host.Outcome State Fault Refusal := .next (s.elapse m).onStopSet
/-- DRAFT_RESOLVE. -/
def execDraftResolve (m : Moment) (s : State) : Host.Outcome State Fault Refusal := .next (s.elapse m).onDraftResolve
/-- TENANT_SET. -/
def execTenantSet (m : Moment) (s : State) : Host.Outcome State Fault Refusal := .next (s.elapse m).onTenantSet
/-- BUDGET_GRANT. -/
def execBudgetGrant (m : Moment) (s : State) : Host.Outcome State Fault Refusal := .next (s.elapse m).onBudgetGrant
/-- BUDGET_READ. -/
def execBudgetRead (m : Moment) (s : State) : Host.Outcome State Fault Refusal := .next (s.elapse m).onBudgetRead
/-- PREFIX_PUBLISH. -/
def execPrefixPublish (m : Moment) (s : State) : Host.Outcome State Fault Refusal := .next (s.elapse m).onPrefixPublish
/-- PREFIX_DROP. -/
def execPrefixDrop (m : Moment) (s : State) : Host.Outcome State Fault Refusal := .next (s.elapse m).onPrefixDrop
/-- ADAPTER_LOAD. -/
def execAdapterLoad (m : Moment) (s : State) : Host.Outcome State Fault Refusal := .next (s.elapse m).onAdapterLoad
/-- TIER_SCRUB. -/
def execTierScrub (m : Moment) (s : State) : Host.Outcome State Fault Refusal := .next (s.elapse m).onTierScrub
/-- TIER_SCRUB_DONE. -/
def execTierScrubDone (m : Moment) (finds : List PageFind) (s : State) : Host.Outcome State Fault Refusal :=
  .next ((s.elapse m).onTierScrubDone finds)
/-- TIER_STATUS. -/
def execTierStatus (m : Moment) (s : State) : Host.Outcome State Fault Refusal := .next (s.elapse m).onTierStatus
/-- IMAGE_LOAD_BEGIN. -/
def execImageLoadBegin (m : Moment) (s : State) : Host.Outcome State Fault Refusal := .next (s.elapse m).onImageLoadBegin
/-- IMAGE_LOAD_DATA. -/
def execImageLoadData (m : Moment) (s : State) : Host.Outcome State Fault Refusal := .next (s.elapse m).onImageLoadData
/-- IMAGE_LOAD_END. -/
def execImageLoadEnd (m : Moment) (s : State) : Host.Outcome State Fault Refusal := .next (s.elapse m).onImageLoadEnd
/-- IMAGE_COMMIT. -/
def execImageCommit (m : Moment) (s : State) : Host.Outcome State Fault Refusal := .next (s.elapse m).onImageCommit
/-- IMAGE_QUERY. -/
def execImageQuery (m : Moment) (s : State) : Host.Outcome State Fault Refusal := .next (s.elapse m).onImageQuery
/-- MODE_PREPARE. -/
def execModePrepare (m : Moment) (s : State) : Host.Outcome State Fault Refusal := .next (s.elapse m).onModePrepare
/-- MODE_COMMIT. -/
def execModeCommit (m : Moment) (s : State) : Host.Outcome State Fault Refusal := .next (s.elapse m).onModeCommit
/-- MODE_ABORT. -/
def execModeAbort (m : Moment) (s : State) : Host.Outcome State Fault Refusal := .next (s.elapse m).onModeAbort
/-- SCHEDULE_PIN. -/
def execSchedulePin (m : Moment) (s : State) : Host.Outcome State Fault Refusal := .next (s.elapse m).onSchedulePin
/-- TIME_SET. -/
def execTimeSet (m : Moment) (s : State) : Host.Outcome State Fault Refusal := .next ((s.elapse m).stepping (fun s => s.onTimeSet))
/-- TIME_ADJUST. -/
def execTimeAdjust (m : Moment) (s : State) : Host.Outcome State Fault Refusal := .next ((s.elapse m).stepping (fun s => s.onTimeAdjust))
/-- TIME_QUERY. -/
def execTimeQuery (m : Moment) (s : State) : Host.Outcome State Fault Refusal := .next (s.elapse m).onTimeQuery
/-- PARTITION_CONFIG. -/
def execPartitionConfig (m : Moment) (s : State) : Host.Outcome State Fault Refusal := .next (s.elapse m).onPartitionConfig
/-- PARTITION_RESET. -/
def execPartitionReset (m : Moment) (s : State) : Host.Outcome State Fault Refusal := .next (s.elapse m).onPartitionReset
/-- PARTITION_RESET_DONE. -/
def execPartitionResetDone (m : Moment) (part : Nat) (s : State) : Host.Outcome State Fault Refusal := .next ((s.elapse m).onPartitionResetDone part)
/-- REGION_RESET. -/
def execRegionReset (m : Moment) (s : State) : Host.Outcome State Fault Refusal := .next (s.elapse m).onRegionReset
/-- GATE_RESET. -/
def execGateReset (m : Moment) (s : State) : Host.Outcome State Fault Refusal := .next (s.elapse m).onGateReset
/-- JOB_RESTART. -/
def execJobRestart (m : Moment) (s : State) : Host.Outcome State Fault Refusal := .next (s.elapse m).onJobRestart
/-- PAIR_TWIN. -/
def execPairTwin (m : Moment) (s : State) : Host.Outcome State Fault Refusal := .next (s.elapse m).onPairTwin
/-- UNPAIR_TWIN. -/
def execUnpairTwin (m : Moment) (s : State) : Host.Outcome State Fault Refusal := .next (s.elapse m).onUnpairTwin
/-- STATS_READ. -/
def execStatsRead (m : Moment) (s : State) : Host.Outcome State Fault Refusal := .next (s.elapse m).onStatsRead
/-- TROUBLE_READ. -/
def execTroubleRead (m : Moment) (s : State) : Host.Outcome State Fault Refusal := .next (s.elapse m).onTroubleRead
/-- TROUBLE_CLEAR. -/
def execTroubleClear (m : Moment) (s : State) : Host.Outcome State Fault Refusal := .next (s.elapse m).onTroubleClear
/-- AGE_REPORT. -/
def execAgeReport (m : Moment) (s : State) : Host.Outcome State Fault Refusal := .next (s.elapse m).onAgeReport
/-- REGISTER_WRITE. -/
def execRegisterWrite (m : Moment) (beat : RegBeat) (s : State) : Host.Outcome State Fault Refusal := .next ((s.elapse m).onRegisterWrite beat)
/-- TM_NOW_READ. -/
def execTmNowRead (m : Moment) (beat : RegBeat) (s : State) : Host.Outcome State Fault Refusal := .next ((s.elapse m).onTmNowRead beat)
/-- PT_SSM_READ. -/
def execPtSsmRead (m : Moment) (beat : RegBeat) (s : State) : Host.Outcome State Fault Refusal := .next ((s.elapse m).onPtSsmRead beat)
/-- PT_SSM_WRITE. -/
def execPtSsmWrite (m : Moment) (beat : RegBeat) (s : State) : Host.Outcome State Fault Refusal := .next ((s.elapse m).onPtSsmWrite beat)
/-- PT_SSM_ACCESS_DONE. -/
def execPtSsmAccessDone (m : Moment) (part : Nat) (find : WordFind) (s : State) : Host.Outcome State Fault Refusal :=
  .next ((s.elapse m).onPtSsmAccessDone part find)
/-- PT_INT_WRITE. -/
def execPtIntWrite (m : Moment) (beat : RegBeat) (s : State) : Host.Outcome State Fault Refusal := .next ((s.elapse m).onPtIntWrite beat)
/-- TRB_STICKY_WRITE. -/
def execTrbStickyWrite (m : Moment) (beat : RegBeat) (s : State) : Host.Outcome State Fault Refusal := .next ((s.elapse m).onTrbStickyWrite beat)
/-- TOKEN_INTAKE. -/
def execTokenIntake (m : Moment) (part : Nat) (w : Word) (find : Find) (entry : WordFind) (s : State) : Host.Outcome State Fault Refusal :=
  .next ((s.elapse m).onTokenIntake part w find entry)
/-- DRAFT_INTAKE. -/
def execDraftIntake (m : Moment) (part : Nat) (w : Word) (find : Find) (s : State) : Host.Outcome State Fault Refusal :=
  .next ((s.elapse m).onDraftIntake part w find)
/-- FSP_INGRESS_SLOT. -/
def execFspIngressSlot (m : Moment) (lane gap : Nat) (item : Item) (taken : Nat) (find : Find) (stalls : Nat) (s : State) : Host.Outcome State Fault Refusal :=
  .next ((s.elapse m).onFspIngressSlot lane gap item taken find stalls)
/-- WINTERING_DONE. -/
def execWinteringDone (m : Moment) (lane : Nat) (find : TierFind) (s : State) : Host.Outcome State Fault Refusal :=
  .next ((s.elapse m).onWinteringDone lane find)
/-- FSP_EGRESS_SLOT. -/
def execFspEgressSlot (m : Moment) (lane gap : Nat) (find : Find) (stalls : Nat) (s : State) : Host.Outcome State Fault Refusal :=
  .next ((s.elapse m).onFspEgressSlot lane gap find stalls)
/-- PKE_TIER_READ. -/
def execPkeTierRead (m : Moment) (lane count : Nat) (find : TierFind) (s : State) : Host.Outcome State Fault Refusal :=
  .next ((s.elapse m).onPkeTierRead lane count find)
/-- SCREENING_ITEM_START. -/
def execScreeningItemStart (m : Moment) (region : Nat) (find : ItemFind) (s : State) : Host.Outcome State Fault Refusal :=
  .next ((s.elapse m).onScreeningItemStart region find)
/-- SCREENING_ITEM_DONE. -/
def execScreeningItemDone (m : Moment) (cluster : Nat) (find : ItemFind) (s : State) : Host.Outcome State Fault Refusal :=
  .next ((s.elapse m).onScreeningItemDone cluster find)
/-- QUEUE_OVER. -/
def execQueueOver (m : Moment) (slot : Nat) (s : State) : Host.Outcome State Fault Refusal := .next ((s.elapse m).onQueueOver slot)
/-- TOKEN_RELEASE. -/
def execTokenRelease (m : Moment) (slot : Nat) (find : Find) (s : State) : Host.Outcome State Fault Refusal :=
  .next ((s.elapse m).onTokenRelease slot find)
/-- T_IN. -/
def execTIn (m : Moment) (slot : Nat) (s : State) : Host.Outcome State Fault Refusal := .next ((s.elapse m).onTIn slot)
/-- SMP_WRITE. -/
def execSmpWrite (m : Moment) (frame : SmpFrame) (s : State) : Host.Outcome State Fault Refusal := .next ((s.elapse m).onSmpWrite frame)
/-- SMP_READ. -/
def execSmpRead (m : Moment) (frame : SmpFrame) (s : State) : Host.Outcome State Fault Refusal := .next ((s.elapse m).onSmpRead frame)
/-- SMP_STATUS. -/
def execSmpStatus (m : Moment) (frame : SmpFrame) (s : State) : Host.Outcome State Fault Refusal := .next ((s.elapse m).onSmpStatus frame)
/-- HRP_ERR. -/
def execHrpErr (m : Moment) (s : State) : Host.Outcome State Fault Refusal := .next (s.elapse m).onHrpErr
/-- SLIPPED_NOTICE. -/
def execSlippedNotice (m : Moment) (slot : Nat) (s : State) : Host.Outcome State Fault Refusal := .next ((s.elapse m).onSlippedNotice slot)
/-- INTERRUPT_MESSAGE_SEND. -/
def execInterruptMessageSend (m : Moment) (s : State) : Host.Outcome State Fault Refusal := .next (s.elapse m).onInterruptMessageSend
/-- GRP_TX_SLOT. -/
def execGrpTxSlot (m : Moment) (link : Nat) (s : State) : Host.Outcome State Fault Refusal := .next ((s.elapse m).onGrpTxSlot link)
/-- MIRROR_ENQUEUE. -/
def execMirrorEnqueue (m : Moment) (s : State) : Host.Outcome State Fault Refusal := .next (s.elapse m).onMirrorEnqueue
/-- RING_FORWARD. -/
def execRingForward (m : Moment) (msg : RxMsg) (s : State) : Host.Outcome State Fault Refusal :=
  .next ((s.elapse m).stepping (fun s => s.onRingForward msg))
/-- ITEM. -/
def execItem (m : Moment) (msg : RxMsg) (s : State) : Host.Outcome State Fault Refusal := .next ((s.elapse m).onItem msg)
/-- OPEN. -/
def execOpenMsg (m : Moment) (msg : RxMsg) (s : State) : Host.Outcome State Fault Refusal := .next ((s.elapse m).onOpenMsg msg)
/-- OPEN_REPLY. -/
def execOpenReply (m : Moment) (msg : RxMsg) (s : State) : Host.Outcome State Fault Refusal := .next ((s.elapse m).onOpenReply msg)
/-- STEP. -/
def execStepMsg (m : Moment) (msg : RxMsg) (s : State) : Host.Outcome State Fault Refusal := .next ((s.elapse m).onStepMsg msg)
/-- RESOLVE. -/
def execResolve (m : Moment) (msg : RxMsg) (s : State) : Host.Outcome State Fault Refusal := .next ((s.elapse m).onResolve msg)
/-- STREAM_END. -/
def execStreamEnd (m : Moment) (msg : RxMsg) (s : State) : Host.Outcome State Fault Refusal := .next ((s.elapse m).onStreamEnd msg)
/-- CLOSE. -/
def execClose (m : Moment) (msg : RxMsg) (s : State) : Host.Outcome State Fault Refusal := .next ((s.elapse m).onClose msg)
/-- CANCEL. -/
def execCancel (m : Moment) (msg : RxMsg) (s : State) : Host.Outcome State Fault Refusal := .next ((s.elapse m).onCancel msg)
/-- CMD. -/
def execCmd (m : Moment) (msg : RxMsg) (s : State) : Host.Outcome State Fault Refusal := .next ((s.elapse m).onCmd msg)
/-- CMD_REPLY. -/
def execCmdReply (m : Moment) (msg : RxMsg) (s : State) : Host.Outcome State Fault Refusal := .next ((s.elapse m).onCmdReply msg)
/-- TIME. -/
def execTime (m : Moment) (msg : RxMsg) (s : State) : Host.Outcome State Fault Refusal := .next ((s.elapse m).stepping (fun s => s.onTime msg))
/-- BALANCE. -/
def execBalance (m : Moment) (msg : RxMsg) (s : State) : Host.Outcome State Fault Refusal := .next ((s.elapse m).onBalance msg)
/-- PREPARE. -/
def execPrepare (m : Moment) (msg : RxMsg) (s : State) : Host.Outcome State Fault Refusal := .next ((s.elapse m).onPrepare msg)
/-- ACK. -/
def execAck (m : Moment) (msg : RxMsg) (s : State) : Host.Outcome State Fault Refusal := .next ((s.elapse m).onAck msg)
/-- GO. -/
def execGo (m : Moment) (msg : RxMsg) (s : State) : Host.Outcome State Fault Refusal := .next ((s.elapse m).onGo msg)
/-- ABORT. -/
def execAbort (m : Moment) (msg : RxMsg) (s : State) : Host.Outcome State Fault Refusal := .next ((s.elapse m).onAbort msg)
/-- MIRROR. -/
def execMirror (m : Moment) (msg : RxMsg) (s : State) : Host.Outcome State Fault Refusal := .next ((s.elapse m).onMirror msg)
/-- PAIR. -/
def execPair (m : Moment) (msg : RxMsg) (s : State) : Host.Outcome State Fault Refusal := .next ((s.elapse m).onPair msg)
/-- TWIN_COPY_DONE. -/
def execTwinCopyDone (m : Moment) (s : State) : Host.Outcome State Fault Refusal := .next (s.elapse m).onTwinCopyDone
/-- RESTART. -/
def execRestart (m : Moment) (msg : RxMsg) (s : State) : Host.Outcome State Fault Refusal := .next ((s.elapse m).onRestart msg)
/-- LINK_LOCK_LOSS. -/
def execLinkLockLoss (m : Moment) (link : Nat) (s : State) : Host.Outcome State Fault Refusal := .next ((s.elapse m).onLinkLockLoss link)
/-- FSP_CLOCK_LOSS. -/
def execFspClockLoss (m : Moment) (s : State) : Host.Outcome State Fault Refusal := .next (s.elapse m).onFspClockLoss
/-- SOLSTICE_TICK: the tick that falls due runs with what the environment shows it. -/
def execSolsticeTick (m : Moment) (fclkEdges : Option Nat) (pllLocks : Bool) (s : State) : Host.Outcome State Fault Refusal :=
  .next (s.elapseWith fclkEdges pllLocks m)
/-- DEADLINE_REACHED. -/
def execDeadlineReached (m : Moment) (slot : Nat) (s : State) : Host.Outcome State Fault Refusal := .next ((s.elapse m).onDeadlineReached slot)
/-- TTL_EXPIRY. -/
def execTtlExpiry (m : Moment) (s : State) : Host.Outcome State Fault Refusal := .next (s.elapse m).onTtlExpiry
/-- CANCELLED_FREE. -/
def execCancelledFree (m : Moment) (slot : Nat) (s : State) : Host.Outcome State Fault Refusal := .next ((s.elapse m).onCancelledFree slot)
/-- OPEN_TIMEOUT. -/
def execOpenTimeout (m : Moment) (slot : Nat) (s : State) : Host.Outcome State Fault Refusal := .next ((s.elapse m).onOpenTimeout slot)
/-- FORWARD_TIMEOUT. -/
def execForwardTimeout (m : Moment) (s : State) : Host.Outcome State Fault Refusal := .next (s.elapse m).onForwardTimeout
/-- COMMIT_GO_DECISION. -/
def execCommitGoDecision (m : Moment) (s : State) : Host.Outcome State Fault Refusal := .next (s.elapse m).onCommitGoDecision
/-- COMMIT_UNDECIDED. -/
def execCommitUndecided (m : Moment) (s : State) : Host.Outcome State Fault Refusal := .next (s.elapse m).onCommitUndecided
/-- COMMIT_TAKE_EFFECT. -/
def execCommitTakeEffect (m : Moment) (s : State) : Host.Outcome State Fault Refusal := .next (s.elapse m).onCommitTakeEffect
/-- IMAGE_RETIRE. -/
def execImageRetire (m : Moment) (s : State) : Host.Outcome State Fault Refusal := .next (s.elapse m).onImageRetire
/-- TWIN_TAKEOVER. -/
def execTwinTakeover (m : Moment) (s : State) : Host.Outcome State Fault Refusal := .next (s.elapse m).onTwinTakeover
/-- MEASUREMENT_LOSS. -/
def execMeasurementLoss (m : Moment) (s : State) : Host.Outcome State Fault Refusal := .next (s.elapse m).onMeasurementLoss
/-- PPS_EDGE. -/
def execPpsEdge (m : Moment) (s : State) : Host.Outcome State Fault Refusal := .next (s.elapse m).onPpsEdge
/-- TREF_MEASUREMENT. -/
def execTrefMeasurement (m : Moment) (drift : Int) (s : State) : Host.Outcome State Fault Refusal := .next ((s.elapse m).onTrefMeasurement drift)
/-- AGEING_MEASUREMENT. -/
def execAgeingMeasurement (m : Moment) (codes : List Nat) (spine : Nat) (s : State) : Host.Outcome State Fault Refusal :=
  .next ((s.elapse m).onAgeingMeasurement codes spine)
/-- THROTTLE_ASSERT. -/
def execThrottleAssert (m : Moment) (s : State) : Host.Outcome State Fault Refusal := .next (s.elapse m).onThrottleAssert
/-- THROTTLE_DEASSERT. -/
def execThrottleDeassert (m : Moment) (s : State) : Host.Outcome State Fault Refusal := .next (s.elapse m).onThrottleDeassert
/-- GCLK_STEP. -/
def execGclkStep (m : Moment) (s : State) : Host.Outcome State Fault Refusal := .next (s.elapse m).onGclkStep
/-- PWR_SETTLE_DONE. -/
def execPwrSettleDone (m : Moment) (codes : List Nat) (spine : Nat) (s : State) : Host.Outcome State Fault Refusal :=
  .next ((s.elapse m).onPwrSettleDone codes spine)
/-- THROTTLE_FLOOR_VIOLATION. -/
def execThrottleFloorViolation (m : Moment) (s : State) : Host.Outcome State Fault Refusal := .next (s.elapse m).onThrottleFloorViolation
/-- CLUSTER_WAKE_DONE. -/
def execClusterWakeDone (m : Moment) (cluster : Nat) (s : State) : Host.Outcome State Fault Refusal := .next ((s.elapse m).onClusterWakeDone cluster)
/-- CLUSTER_WAKE_TIMEOUT. -/
def execClusterWakeTimeout (m : Moment) (cluster : Nat) (railFail : Bool) (s : State) : Host.Outcome State Fault Refusal :=
  .next ((s.elapse m).onClusterWakeTimeout cluster railFail)
/-- CLUSTER_IDLE_STOP. -/
def execClusterIdleStop (m : Moment) (cluster : Nat) (s : State) : Host.Outcome State Fault Refusal := .next ((s.elapse m).onClusterIdleStop cluster)
/-- SLEEP_ENTRY. -/
def execSleepEntry (m : Moment) (s : State) : Host.Outcome State Fault Refusal := .next (s.elapse m).onSleepEntry
/-- SLEEP_EXIT. -/
def execSleepExit (m : Moment) (cause : WakeCause) (s : State) : Host.Outcome State Fault Refusal := .next ((s.elapse m).onSleepExit cause)
/-- TIER_DEVICE_SELFREF. -/
def execTierDeviceSelfref (m : Moment) (device : Nat) (s : State) : Host.Outcome State Fault Refusal :=
  .next ((s.elapse m).onTierDeviceSelfref device)
/-- SSM_SCRUB. -/
def execSsmScrub (m : Moment) (finds : List BankFind) (s : State) : Host.Outcome State Fault Refusal := .next ((s.elapse m).onSsmScrub finds)
/-- SSM_WRITE_BACK. -/
def execSsmWriteBack (m : Moment) (row : Nat) (s : State) : Host.Outcome State Fault Refusal := .next ((s.elapse m).onSsmWriteBack row)
/-- TABLE_SCRUB. -/
def execTableScrub (m : Moment) (session ledger retained : Find) (s : State) : Host.Outcome State Fault Refusal :=
  .next ((s.elapse m).onTableScrub session ledger retained)
/-- POWER_ON. -/
def execPowerOn (m : Moment) (cause : PowerCause) (cycles : Nat) (s : State) : Host.Outcome State Fault Refusal :=
  .next ((s.elapse m).onPowerOn cause cycles)
/-- PORST_N. -/
def execPorstN (m : Moment) (cycles : Nat) (taken : Bool) (s : State) : Host.Outcome State Fault Refusal := .next ((s.elapse m).onPorstN cycles taken)
/-- SYSRST_N. -/
def execSysrstN (m : Moment) (cycles : Nat) (taken : Bool) (s : State) : Host.Outcome State Fault Refusal :=
  .next ((s.elapse m).onSysrstN cycles taken)
/-- CMI_WATCHDOG. -/
def execCmiWatchdog (m : Moment) (s : State) : Host.Outcome State Fault Refusal := .next (s.elapse m).onCmiWatchdog
/-- RESET_RELEASE. -/
def execResetRelease (m : Moment) (pllLocks : Bool) (find : WordFind) (s : State) : Host.Outcome State Fault Refusal :=
  .next ((s.elapse m).onResetRelease pllLocks find)
/-- TIER_TRAINING_DONE. -/
def execTierTrainingDone (m : Moment) (results : List DevTrain) (s : State) : Host.Outcome State Fault Refusal :=
  .next ((s.elapse m).onTierTrainingDone results)
/-- RST_OUT_RELEASE. -/
def execRstOutRelease (m : Moment) (s : State) : Host.Outcome State Fault Refusal := .next (s.elapse m).onRstOutRelease
/-- EXTEST. -/
def execExtest (m : Moment) (s : State) : Host.Outcome State Fault Refusal := .next (s.elapse m).onExtest
/-- SAMPLE_PRELOAD. -/
def execSamplePreload (m : Moment) (bits : List Bool) (s : State) : Host.Outcome State Fault Refusal := .next ((s.elapse m).onSamplePreload bits)
/-- INSTR. -/
def execInstr (m : Moment) (s : State) : Host.Outcome State Fault Refusal := .next (s.elapse m).onInstr
/-- BYPASS. -/
def execBypass (m : Moment) (encoding : BitVec 8) (s : State) : Host.Outcome State Fault Refusal := .next ((s.elapse m).onBypass encoding)
/-- TRST_N. -/
def execTrstN (m : Moment) (s : State) : Host.Outcome State Fault Refusal := .next (s.elapse m).onTrstN
/-- SLOT_START_MISSED. -/
def execSlotStartMissed (m : Moment) (egress : Bool) (lane : Nat) (s : State) : Host.Outcome State Fault Refusal :=
  .next ((s.elapse m).onSlotStartMissed egress lane)
/-- BLOCK_HASH_DONE. -/
def execBlockHashDone (m : Moment) (slot : Nat) (s : State) : Host.Outcome State Fault Refusal := .next ((s.elapse m).onBlockHashDone slot)

end Sys2Proof.Machine
end

