-- ==== Sys2Proof/Machine/Dispatch.lean ====
section
/-! DEFINITION. One arm for each command. -/
namespace Sys2Proof.Machine

/-- The effect of a command on everything but the queue. -/
def exec (i : Instr) (s : State) : Host.Outcome State Fault Refusal :=
  match i with
  | .commandPacketArrival m via words find headerReadable => Sys2Proof.Machine.execCommandPacketArrival m via words find headerReadable s
  | .nop m => Sys2Proof.Machine.execNop m s
  | .identify m => Sys2Proof.Machine.execIdentify m s
  | .capsRead m => Sys2Proof.Machine.execCapsRead m s
  | .sessionOpen m => Sys2Proof.Machine.execSessionOpen m s
  | .sessionFeed m => Sys2Proof.Machine.execSessionFeed m s
  | .sessionClose m => Sys2Proof.Machine.execSessionClose m s
  | .sessionCancel m => Sys2Proof.Machine.execSessionCancel m s
  | .sessionPark m => Sys2Proof.Machine.execSessionPark m s
  | .sessionResume m => Sys2Proof.Machine.execSessionResume m s
  | .sessionQuery m find => Sys2Proof.Machine.execSessionQuery m find s
  | .stopSet m => Sys2Proof.Machine.execStopSet m s
  | .draftResolve m => Sys2Proof.Machine.execDraftResolve m s
  | .tenantSet m => Sys2Proof.Machine.execTenantSet m s
  | .budgetGrant m => Sys2Proof.Machine.execBudgetGrant m s
  | .budgetRead m => Sys2Proof.Machine.execBudgetRead m s
  | .prefixPublish m => Sys2Proof.Machine.execPrefixPublish m s
  | .prefixDrop m => Sys2Proof.Machine.execPrefixDrop m s
  | .adapterLoad m => Sys2Proof.Machine.execAdapterLoad m s
  | .tierScrub m => Sys2Proof.Machine.execTierScrub m s
  | .tierScrubDone m finds => Sys2Proof.Machine.execTierScrubDone m finds s
  | .tierStatus m => Sys2Proof.Machine.execTierStatus m s
  | .imageLoadBegin m => Sys2Proof.Machine.execImageLoadBegin m s
  | .imageLoadData m => Sys2Proof.Machine.execImageLoadData m s
  | .imageLoadEnd m => Sys2Proof.Machine.execImageLoadEnd m s
  | .imageCommit m => Sys2Proof.Machine.execImageCommit m s
  | .imageQuery m => Sys2Proof.Machine.execImageQuery m s
  | .modePrepare m => Sys2Proof.Machine.execModePrepare m s
  | .modeCommit m => Sys2Proof.Machine.execModeCommit m s
  | .modeAbort m => Sys2Proof.Machine.execModeAbort m s
  | .schedulePin m => Sys2Proof.Machine.execSchedulePin m s
  | .timeSet m => Sys2Proof.Machine.execTimeSet m s
  | .timeAdjust m => Sys2Proof.Machine.execTimeAdjust m s
  | .timeQuery m => Sys2Proof.Machine.execTimeQuery m s
  | .partitionConfig m => Sys2Proof.Machine.execPartitionConfig m s
  | .partitionReset m => Sys2Proof.Machine.execPartitionReset m s
  | .partitionResetDone m part => Sys2Proof.Machine.execPartitionResetDone m part s
  | .regionReset m => Sys2Proof.Machine.execRegionReset m s
  | .gateReset m => Sys2Proof.Machine.execGateReset m s
  | .jobRestart m => Sys2Proof.Machine.execJobRestart m s
  | .pairTwin m => Sys2Proof.Machine.execPairTwin m s
  | .unpairTwin m => Sys2Proof.Machine.execUnpairTwin m s
  | .statsRead m => Sys2Proof.Machine.execStatsRead m s
  | .troubleRead m => Sys2Proof.Machine.execTroubleRead m s
  | .troubleClear m => Sys2Proof.Machine.execTroubleClear m s
  | .ageReport m => Sys2Proof.Machine.execAgeReport m s
  | .registerWrite m beat => Sys2Proof.Machine.execRegisterWrite m beat s
  | .tmNowRead m beat => Sys2Proof.Machine.execTmNowRead m beat s
  | .ptSsmRead m beat => Sys2Proof.Machine.execPtSsmRead m beat s
  | .ptSsmWrite m beat => Sys2Proof.Machine.execPtSsmWrite m beat s
  | .ptSsmAccessDone m part find => Sys2Proof.Machine.execPtSsmAccessDone m part find s
  | .ptIntWrite m beat => Sys2Proof.Machine.execPtIntWrite m beat s
  | .trbStickyWrite m beat => Sys2Proof.Machine.execTrbStickyWrite m beat s
  | .tokenIntake m part w find entry => Sys2Proof.Machine.execTokenIntake m part w find entry s
  | .draftIntake m part w find => Sys2Proof.Machine.execDraftIntake m part w find s
  | .fspIngressSlot m lane gap item taken find stalls => Sys2Proof.Machine.execFspIngressSlot m lane gap item taken find stalls s
  | .winteringDone m lane find => Sys2Proof.Machine.execWinteringDone m lane find s
  | .fspEgressSlot m lane gap find stalls => Sys2Proof.Machine.execFspEgressSlot m lane gap find stalls s
  | .pkeTierRead m lane count find => Sys2Proof.Machine.execPkeTierRead m lane count find s
  | .screeningItemStart m region find => Sys2Proof.Machine.execScreeningItemStart m region find s
  | .screeningItemDone m cluster find => Sys2Proof.Machine.execScreeningItemDone m cluster find s
  | .queueOver m slot => Sys2Proof.Machine.execQueueOver m slot s
  | .tokenRelease m slot find => Sys2Proof.Machine.execTokenRelease m slot find s
  | .tIn m slot => Sys2Proof.Machine.execTIn m slot s
  | .smpWrite m frame => Sys2Proof.Machine.execSmpWrite m frame s
  | .smpRead m frame => Sys2Proof.Machine.execSmpRead m frame s
  | .smpStatus m frame => Sys2Proof.Machine.execSmpStatus m frame s
  | .hrpErr m => Sys2Proof.Machine.execHrpErr m s
  | .slippedNotice m slot => Sys2Proof.Machine.execSlippedNotice m slot s
  | .interruptMessageSend m => Sys2Proof.Machine.execInterruptMessageSend m s
  | .grpTxSlot m link => Sys2Proof.Machine.execGrpTxSlot m link s
  | .mirrorEnqueue m => Sys2Proof.Machine.execMirrorEnqueue m s
  | .ringForward m msg => Sys2Proof.Machine.execRingForward m msg s
  | .item m msg => Sys2Proof.Machine.execItem m msg s
  | .openMsg m msg => Sys2Proof.Machine.execOpenMsg m msg s
  | .openReply m msg => Sys2Proof.Machine.execOpenReply m msg s
  | .stepMsg m msg => Sys2Proof.Machine.execStepMsg m msg s
  | .resolve m msg => Sys2Proof.Machine.execResolve m msg s
  | .streamEnd m msg => Sys2Proof.Machine.execStreamEnd m msg s
  | .close m msg => Sys2Proof.Machine.execClose m msg s
  | .cancel m msg => Sys2Proof.Machine.execCancel m msg s
  | .cmd m msg => Sys2Proof.Machine.execCmd m msg s
  | .cmdReply m msg => Sys2Proof.Machine.execCmdReply m msg s
  | .time m msg => Sys2Proof.Machine.execTime m msg s
  | .balance m msg => Sys2Proof.Machine.execBalance m msg s
  | .prepare m msg => Sys2Proof.Machine.execPrepare m msg s
  | .ack m msg => Sys2Proof.Machine.execAck m msg s
  | .go m msg => Sys2Proof.Machine.execGo m msg s
  | .abort m msg => Sys2Proof.Machine.execAbort m msg s
  | .mirror m msg => Sys2Proof.Machine.execMirror m msg s
  | .pair m msg => Sys2Proof.Machine.execPair m msg s
  | .twinCopyDone m => Sys2Proof.Machine.execTwinCopyDone m s
  | .restart m msg => Sys2Proof.Machine.execRestart m msg s
  | .linkLockLoss m link => Sys2Proof.Machine.execLinkLockLoss m link s
  | .fspClockLoss m => Sys2Proof.Machine.execFspClockLoss m s
  | .solsticeTick m fclkEdges pllLocks => Sys2Proof.Machine.execSolsticeTick m fclkEdges pllLocks s
  | .deadlineReached m slot => Sys2Proof.Machine.execDeadlineReached m slot s
  | .ttlExpiry m => Sys2Proof.Machine.execTtlExpiry m s
  | .cancelledFree m slot => Sys2Proof.Machine.execCancelledFree m slot s
  | .openTimeout m slot => Sys2Proof.Machine.execOpenTimeout m slot s
  | .forwardTimeout m => Sys2Proof.Machine.execForwardTimeout m s
  | .commitGoDecision m => Sys2Proof.Machine.execCommitGoDecision m s
  | .commitUndecided m => Sys2Proof.Machine.execCommitUndecided m s
  | .commitTakeEffect m => Sys2Proof.Machine.execCommitTakeEffect m s
  | .imageRetire m => Sys2Proof.Machine.execImageRetire m s
  | .twinTakeover m => Sys2Proof.Machine.execTwinTakeover m s
  | .measurementLoss m => Sys2Proof.Machine.execMeasurementLoss m s
  | .ppsEdge m => Sys2Proof.Machine.execPpsEdge m s
  | .trefMeasurement m drift => Sys2Proof.Machine.execTrefMeasurement m drift s
  | .ageingMeasurement m codes spine => Sys2Proof.Machine.execAgeingMeasurement m codes spine s
  | .throttleAssert m => Sys2Proof.Machine.execThrottleAssert m s
  | .throttleDeassert m => Sys2Proof.Machine.execThrottleDeassert m s
  | .gclkStep m => Sys2Proof.Machine.execGclkStep m s
  | .pwrSettleDone m codes spine => Sys2Proof.Machine.execPwrSettleDone m codes spine s
  | .throttleFloorViolation m => Sys2Proof.Machine.execThrottleFloorViolation m s
  | .clusterWakeDone m cluster => Sys2Proof.Machine.execClusterWakeDone m cluster s
  | .clusterWakeTimeout m cluster railFail => Sys2Proof.Machine.execClusterWakeTimeout m cluster railFail s
  | .clusterIdleStop m cluster => Sys2Proof.Machine.execClusterIdleStop m cluster s
  | .sleepEntry m => Sys2Proof.Machine.execSleepEntry m s
  | .sleepExit m cause => Sys2Proof.Machine.execSleepExit m cause s
  | .tierDeviceSelfref m device => Sys2Proof.Machine.execTierDeviceSelfref m device s
  | .ssmScrub m finds => Sys2Proof.Machine.execSsmScrub m finds s
  | .ssmWriteBack m row => Sys2Proof.Machine.execSsmWriteBack m row s
  | .tableScrub m session ledger retained => Sys2Proof.Machine.execTableScrub m session ledger retained s
  | .powerOn m cause cycles => Sys2Proof.Machine.execPowerOn m cause cycles s
  | .porstN m cycles taken => Sys2Proof.Machine.execPorstN m cycles taken s
  | .sysrstN m cycles taken => Sys2Proof.Machine.execSysrstN m cycles taken s
  | .cmiWatchdog m => Sys2Proof.Machine.execCmiWatchdog m s
  | .resetRelease m pllLocks find => Sys2Proof.Machine.execResetRelease m pllLocks find s
  | .tierTrainingDone m results => Sys2Proof.Machine.execTierTrainingDone m results s
  | .rstOutRelease m => Sys2Proof.Machine.execRstOutRelease m s
  | .extest m => Sys2Proof.Machine.execExtest m s
  | .samplePreload m bits => Sys2Proof.Machine.execSamplePreload m bits s
  | .instr m => Sys2Proof.Machine.execInstr m s
  | .bypass m encoding => Sys2Proof.Machine.execBypass m encoding s
  | .trstN m => Sys2Proof.Machine.execTrstN m s
  | .slotStartMissed m egress lane => Sys2Proof.Machine.execSlotStartMissed m egress lane s
  | .blockHashDone m slot => Sys2Proof.Machine.execBlockHashDone m slot s

end Sys2Proof.Machine
end

