-- ==== Sys2Proof/Machine/Step.lean ====
section
/-! DEFINITION. One step: the command at the front of the queue, run on the state with the queue's rest. -/
namespace Sys2Proof.Machine

/-- The time that passes in a step with no command: one REFCLK edge (log 2). -/
def idleMoment : Moment := { edges := 1, quarters := 0 }

/-- The step of the machine. -/
def step (s : State) : Host.Outcome State Fault Refusal :=
  match s.pending with
  | [] => .next (s.elapse idleMoment)
  | c :: rest => exec c { s with pending := rest }

/-- The state with the command a word spells at the front of its queue; the state itself where it spells none. -/
def State.withFetchWord (s : State) (nbits w : Nat) : State :=
  match decodeTableWord nbits w with
  | some c => { s with pending := c :: s.pending }
  | none => s

end Sys2Proof.Machine
end

