-- ==== Sys2Proof/Safety.lean ====
section
/-! DEFINITION. What the statements are said in: the forms that every state of a run has, and when a command packet starts. -/
namespace Sys2Proof

/-- The opcode of a row that starts a packet of the command interpreter, and the time that passes before it (R359); the rows of
IMAGE_LOAD, which share an opcode and are told apart by PHASE, have none here. -/
def Instr.opcode : Instr → Option (Nat × Moment)
  | .nop m => some (0x01, m)
  | .identify m => some (0x02, m)
  | .capsRead m => some (0x03, m)
  | .sessionOpen m => some (0x10, m)
  | .sessionFeed m => some (0x11, m)
  | .sessionClose m => some (0x12, m)
  | .sessionCancel m => some (0x13, m)
  | .sessionPark m => some (0x14, m)
  | .sessionResume m => some (0x15, m)
  | .sessionQuery m _ => some (0x16, m)
  | .stopSet m => some (0x17, m)
  | .draftResolve m => some (0x18, m)
  | .tenantSet m => some (0x20, m)
  | .budgetGrant m => some (0x21, m)
  | .budgetRead m => some (0x22, m)
  | .prefixPublish m => some (0x28, m)
  | .prefixDrop m => some (0x29, m)
  | .adapterLoad m => some (0x2A, m)
  | .tierScrub m => some (0x60, m)
  | .tierStatus m => some (0x61, m)
  | .imageCommit m => some (0x31, m)
  | .imageQuery m => some (0x32, m)
  | .modePrepare m => some (0x38, m)
  | .modeCommit m => some (0x39, m)
  | .modeAbort m => some (0x3A, m)
  | .schedulePin m => some (0x3B, m)
  | .timeSet m => some (0x40, m)
  | .timeAdjust m => some (0x41, m)
  | .timeQuery m => some (0x42, m)
  | .partitionConfig m => some (0x48, m)
  | .partitionReset m => some (0x49, m)
  | .regionReset m => some (0x4A, m)
  | .gateReset m => some (0x4B, m)
  | .jobRestart m => some (0x4C, m)
  | .pairTwin m => some (0x50, m)
  | .unpairTwin m => some (0x51, m)
  | .statsRead m => some (0x58, m)
  | .troubleRead m => some (0x59, m)
  | .troubleClear m => some (0x5A, m)
  | .ageReport m => some (0x5B, m)
  | _ => none

/-- The parameter words of a row whose opcode fixes their number, and whether the opcode is reserved to partition 0 (R353, R354,
R359). -/
def Instr.params : Instr → Option (Nat × Bool)
  | .nop _ | .identify _ | .capsRead _ | .tierStatus _ | .imageQuery _ | .timeQuery _ | .ageReport _ => some (0, false)
  | .sessionClose _ | .sessionCancel _ | .sessionQuery _ _ | .budgetRead _ | .troubleRead _ => some (1, false)
  | .stopSet _ | .draftResolve _ | .tenantSet _ | .prefixDrop _ => some (2, false)
  | .sessionPark _ | .budgetGrant _ => some (3, false)
  | .sessionOpen _ | .sessionResume _ => some (5, false)
  | .jobRestart _ | .unpairTwin _ => some (0, true)
  | .tierScrub _ | .imageCommit _ | .modePrepare _ | .modeCommit _ | .modeAbort _ | .schedulePin _ | .partitionConfig _
  | .regionReset _ | .gateReset _ | .pairTwin _ => some (1, true)
  | .timeSet _ | .timeAdjust _ | .troubleClear _ => some (2, true)
  | .adapterLoad _ => some (3, true)
  | _ => none

/-- The time that passes before a command. -/
def Instr.moment : Instr → Moment
  | .commandPacketArrival m _ _ _ _ | .nop m | .identify m | .capsRead m | .sessionOpen m | .sessionFeed m | .sessionClose m
  | .sessionCancel m | .sessionPark m | .sessionResume m | .sessionQuery m _ | .stopSet m | .draftResolve m | .tenantSet m
  | .budgetGrant m | .budgetRead m | .prefixPublish m | .prefixDrop m | .adapterLoad m | .tierScrub m | .tierScrubDone m _
  | .tierStatus m | .imageLoadBegin m | .imageLoadData m | .imageLoadEnd m | .imageCommit m | .imageQuery m | .modePrepare m
  | .modeCommit m | .modeAbort m | .schedulePin m | .timeSet m | .timeAdjust m | .timeQuery m | .partitionConfig m
  | .partitionReset m | .partitionResetDone m _ | .regionReset m | .gateReset m | .jobRestart m | .pairTwin m
  | .unpairTwin m | .statsRead m | .troubleRead m | .troubleClear m | .ageReport m | .registerWrite m _ | .tmNowRead m _
  | .ptSsmRead m _ | .ptSsmWrite m _ | .ptSsmAccessDone m _ _ | .ptIntWrite m _ | .trbStickyWrite m _
  | .tokenIntake m _ _ _ _ | .draftIntake m _ _ _ | .fspIngressSlot m _ _ _ _ _ _ | .winteringDone m _ _
  | .fspEgressSlot m _ _ _ _ | .pkeTierRead m _ _ _ | .screeningItemStart m _ _ | .screeningItemDone m _ _ | .queueOver m _
  | .tokenRelease m _ _ | .tIn m _ | .smpWrite m _ | .smpRead m _ | .smpStatus m _ | .hrpErr m | .slippedNotice m _
  | .interruptMessageSend m | .grpTxSlot m _ | .mirrorEnqueue m | .ringForward m _ | .item m _ | .openMsg m _
  | .openReply m _ | .stepMsg m _ | .resolve m _ | .streamEnd m _ | .close m _ | .cancel m _ | .cmd m _ | .cmdReply m _
  | .time m _ | .balance m _ | .prepare m _ | .ack m _ | .go m _ | .abort m _ | .mirror m _ | .pair m _ | .twinCopyDone m
  | .restart m _ | .linkLockLoss m _ | .fspClockLoss m | .solsticeTick m _ _ | .deadlineReached m _ | .ttlExpiry m
  | .cancelledFree m _ | .openTimeout m _ | .forwardTimeout m | .commitGoDecision m | .commitUndecided m
  | .commitTakeEffect m | .imageRetire m | .twinTakeover m | .measurementLoss m | .ppsEdge m | .trefMeasurement m _
  | .ageingMeasurement m _ _ | .throttleAssert m | .throttleDeassert m | .gclkStep m | .pwrSettleDone m _ _
  | .throttleFloorViolation m | .clusterWakeDone m _ | .clusterWakeTimeout m _ _ | .clusterIdleStop m _ | .sleepEntry m
  | .sleepExit m _ | .tierDeviceSelfref m _ | .ssmScrub m _ | .ssmWriteBack m _ | .tableScrub m _ _ _ | .powerOn m _ _
  | .porstN m _ _ | .sysrstN m _ _ | .cmiWatchdog m | .resetRelease m _ _ | .tierTrainingDone m _ | .rstOutRelease m
  | .extest m | .samplePreload m _ | .instr m | .bypass m _ | .trstN m | .slotStartMissed m _ _ | .blockHashDone m _ => m

/-- The ring message that a row brings, and the type that it acts on (R395). -/
def Instr.message : Instr → Option (Nat × RxMsg)
  | .item _ x => some (0x01, x)
  | .openMsg _ x => some (0x02, x)
  | .openReply _ x => some (0x03, x)
  | .stepMsg _ x => some (0x04, x)
  | .resolve _ x => some (0x05, x)
  | .streamEnd _ x => some (0x06, x)
  | .close _ x => some (0x07, x)
  | .cancel _ x => some (0x08, x)
  | .cmd _ x => some (0x09, x)
  | .cmdReply _ x => some (0x0A, x)
  | .time _ x => some (0x10, x)
  | .balance _ x => some (0x11, x)
  | .prepare _ x => some (0x18, x)
  | .ack _ x => some (0x19, x)
  | .go _ x => some (0x1A, x)
  | .abort _ x => some (0x1B, x)
  | .mirror _ x => some (0x20, x)
  | .pair _ x => some (0x21, x)
  | .restart _ x => some (0x28, x)
  | _ => none

end Sys2Proof

namespace Sys2Proof.Machine

/-- The state in which a command acts: its moment has come, the work of the ticks on the way done (R373); a command that steps time acts after
the work of a tick that its own cycle holds (R387), and SOLSTICE_TICK shows the ticks on the way what the environment gives them. -/
def State.moved (s : State) : Instr → State
  | .timeSet m => (s.elapse m).settled (fun s => s.onTimeSet)
  | .timeAdjust m => (s.elapse m).settled (fun s => s.onTimeAdjust)
  | .ringForward m msg => (s.elapse m).settled (fun s => s.onRingForward msg)
  | .time m msg => (s.elapse m).settled (fun s => s.onTime msg)
  | .solsticeTick m edges locks => s.elapseWith edges locks m
  | c => s.elapse c.moment

/-- The state in which a command of the interpreter acts: its time has passed and its packet has left its ring. -/
def State.taken (s : State) (m : Moment) : State := (s.elapse m).popPkt

/-- The sparse stores are in their canonical form: equal contents are equal data. -/
structure Canonical (s : State) : Prop where
  mem : Memory.wf s.mem = true
  entries : swf Entry.zero s.entries = true
  edge : swf EdgeAux.zero s.edge = true
  home : swf HomeAux.zero s.home = true
  slots : swf SlotAux.zero s.slots = true
  ledgers : swf Ledger.zero s.ledgers = true
  parts : swf Partn.cold s.parts = true

/-- The queues hold no more than the spec gives them room for: sixteen packets to a partition's ring (R335), four to the ring of
SMP (R350), 4,096 messages to the mirror queue (R407); gate time is a 64-bit count with 48 fraction bits, and the interpolator
stays within a REFCLK period (R370, R371). -/
structure Bounded (s : State) : Prop where
  rings : ∀ p, (s.part p).ring.length ≤ 16
  smpRing : s.cmi.smpRing.length ≤ 4
  mirrorQ : s.net.mirrorQ.length ≤ 4096
  time : s.tm.t48 < 2 ^ 112
  quarters : s.tm.quarters < 160

/-- The numbered units that the gate has, one element for each: four lanes in and out with a release queue each (R62, R495),
four ring links (R388), eight clusters (R18), twenty tier devices (R28). -/
structure Shaped (s : State) : Prop where
  ingress : s.fsp.ingress.length = 4
  egress : s.fsp.egress.length = 4
  relq : s.fsp.relq.length = 4
  queues : s.net.queues.length = 4
  sent : s.net.sent.length = 4
  clusters : s.clk.clusters.length = 8
  devs : s.tier.devs.length = 20

/-- The invariant of the gate. -/
structure Inv (s : State) : Prop where
  canonical : Canonical s
  bounded : Bounded s
  shaped : Shaped s

/-- The packet that the interpreter starts next (R335, R350) has opcode `op`, issuer `i` and parameter words `ps`, and passes the
checks 3 to 6 of R352 but for the issuer allowed: version, header, partition enabled. -/
structure Starts (s : State) (op : Nat) (i : Issuer) (ps : List Word) : Prop where
  packet : ∃ smp k, s.nextPkt = some (smp, k) ∧ pktIssuer smp k = i ∧ k.words.drop 1 = ps ∧ s.popPkt.check5 i (wat k.words 0) = none
  opcode : i.op = op
  enabled : op = 0x01 ∨ op = 0x02 ∨ s.popPkt.partOn i.part = true

/-- A session command finds its session: the gate may take it, and the checks of R89 and R354 on the handle in W0 pass. -/
def FindsSession (s : State) (i : Issuer) (ps : List Word) (role : Entry → Bool) (slot : Nat) : Prop :=
  hdlSlot (hdlOf (wat ps 0)) = slot ∧ s.sessCheck i (hdlOf (wat ps 0)) role = none

/-- The state in which a message that has come to this gate acts: its link is up, and a broadcast has been passed on along the
other links in use (R389, R396). -/
def State.heard (s : State) (x : RxMsg) : State :=
  let s1 : State := { s with net := { s.net with linkUp := s.net.linkUp ||| 2 ^ x.link } }
  if rBcast x.item.w0 then s1.passAll x.link x.item else s1

/-- A message of a type is delivered to this gate: whole, on a link in use, from the link that its route names when it is a broadcast,
outside a reset, and of the present mode epoch or the one before unless its class lives without epochs (R389, R394, R396,
R399). -/
structure Delivered (s : State) (typ : Nat) (x : RxMsg) : Prop where
  enabled : s.ringOn = true
  link : s.links.contains x.link = true
  clean : x.find = .clean
  kind : wKind x.item.w0 = 6
  type : rType x.item.w0 = typ
  destination : (rBcast x.item.w0 = true ∧ ∃ h, s.route (rSrc x.item.w0) = some (x.link, h)) ∨
    (rBcast x.item.w0 = false ∧ rDst x.item.w0 = s.gate)
  running : s.inReset = false
  epoch : (ringClass typ false).getD 5 ≤ 2 ∨ (rEpoch x.item.w0 + 256 - s.com.epoch) % 256 = 0 ∨
    (rEpoch x.item.w0 + 256 - s.com.epoch) % 256 = 255

/-- A fault that ends the job (R410, R411, R415): the job-reach reset is asserted for one REFCLK cycle under its source, the sticky bits
JOB_FAULT and of its cause are set, the ring's restart is on record as handled; no image is in force, nothing is staged, and gate time and the
roles stay, and memory where no operation of the tier ended. -/
structure JobEnds (s t : State) (c : Cause) : Prop where
  reach : t.rs.reach = some .job
  length : t.rs.until' = s.tm.refclk + 1
  source : t.rs.sources.testBit (if c = .host then srcJobRestart else srcJobFault) = true
  jobBit : bit t.trb.sticky 0 = true
  causeBit : bit t.trb.sticky c.sticky.idx = true
  told : t.com.restarts = s.com.restarts ++ [(s.gate, s.tick)]
  image : t.img.force = none
  staged : t.com.staged = none
  kept : t.tm.t48 = s.tm.t48 ∧ t.role = s.role ∧ (s.tier.ops = [] → t.mem = s.mem)

/-- A session cancelled (R107): its entry is CANCELLED with the reason under the generation it had, its working state is gone, the tick is on
record, and no other entry changes. -/
structure Cancels (s t : State) (slot : Nat) (c : Cancel) : Prop where
  state : (t.entry slot).state = .cancelled
  reason : (t.entry slot).endReason = c.code
  gen : (t.entry slot).gen = (s.entry slot).gen
  working : t.edgeAt slot = EdgeAux.zero ∧ t.homeAt slot = HomeAux.zero
  tick : (t.slotAt slot).cancelTick = s.tick
  others : ∀ n, n ≠ slot → t.entry n = s.entry n

/-- A stream ended (R124, R142): the turn is closed with nothing held and no step open, the entry holds the reason, LENGTH and OUT_COUNT, the
client stream gets the STREAM_END word, and no other entry changes. -/
structure StreamEnds (s t : State) (slot : Nat) (r : Stop) (length out : Nat) : Prop where
  turn : (t.edgeAt slot).turnOpen = false ∧ (t.edgeAt slot).held = [] ∧ (t.edgeAt slot).mark = false
  stop : (t.entry slot).stop = r
  lengthIs : (t.entry slot).length = length
  outIs : (t.entry slot).outCount = out
  word : ∃ o : HrpOut, t.hrpOut = s.hrpOut ++ [o] ∧ o.vc = 0 ∧ o.part = (s.entry slot).part ∧
    o.words.getLast? = some (streamEndWord slot (s.entry slot).gen length r)
  others : ∀ n, n ≠ slot → t.entry n = s.entry n

/-- The parts of the state that frames speak of: every field of the state but the grade and the queue. -/
inductive Field where
  | tm | rs | trb | entries | edge | home | slots | ledgers | parts | ints | cmi | mem | hdl | img | com | bal
  | net | fsp | tier | clk | role | roleShadow | denied | misformed | blocked | hrpOut | fspOut | tap
  deriving DecidableEq, Repr

/-- Two states agree in a part. -/
def Field.same : Field → State → State → Prop
  | .tm, s, t => s.tm = t.tm
  | .rs, s, t => s.rs = t.rs
  | .trb, s, t => s.trb = t.trb
  | .entries, s, t => s.entries = t.entries
  | .edge, s, t => s.edge = t.edge
  | .home, s, t => s.home = t.home
  | .slots, s, t => s.slots = t.slots
  | .ledgers, s, t => s.ledgers = t.ledgers
  | .parts, s, t => s.parts = t.parts
  | .ints, s, t => s.ints = t.ints
  | .cmi, s, t => s.cmi = t.cmi
  | .mem, s, t => s.mem = t.mem
  | .hdl, s, t => s.hdl = t.hdl
  | .img, s, t => s.img = t.img
  | .com, s, t => s.com = t.com
  | .bal, s, t => s.bal = t.bal
  | .net, s, t => s.net = t.net
  | .fsp, s, t => s.fsp = t.fsp
  | .tier, s, t => s.tier = t.tier
  | .clk, s, t => s.clk = t.clk
  | .role, s, t => s.role = t.role
  | .roleShadow, s, t => s.roleShadow = t.roleShadow
  | .denied, s, t => s.denied = t.denied
  | .misformed, s, t => s.misformed = t.misformed
  | .blocked, s, t => s.blocked = t.blocked
  | .hrpOut, s, t => s.hrpOut = t.hrpOut
  | .fspOut, s, t => s.fspOut = t.fspOut
  | .tap, s, t => s.tap = t.tap

/-- The parts that a command may change when it asserts no reset (for a reset clears by reach, R426); on an HRP or SMP command this takes in
its packet's ring, vector 0 and its reply's port. A part that is not here is as it was. -/
def touches : Instr → List Field
  | .commandPacketArrival _ _ _ _ _ | .smpWrite _ _ => [.trb, .parts, .ints, .cmi, .net, .hrpOut]
  | .nop _ | .identify _ | .capsRead _ | .budgetRead _ | .tierStatus _ | .imageQuery _ | .timeQuery _ | .partitionConfig _
  | .gateReset _ | .jobRestart _ | .pairTwin _ | .troubleRead _ | .ageReport _ => [.parts, .ints, .cmi, .net, .clk, .hrpOut]
  | .sessionOpen _
    => [.trb, .entries, .edge, .home, .slots, .ledgers, .parts, .ints, .cmi, .mem, .img, .bal, .net, .clk, .hrpOut]
  | .sessionFeed _ | .draftResolve _
    => [.trb, .entries, .edge, .home, .slots, .ledgers, .parts, .ints, .cmi, .mem, .img, .bal, .net, .fsp, .tier, .clk, .hrpOut]
  | .sessionClose _ | .sessionCancel _
    => [.entries, .edge, .home, .slots, .ledgers, .parts, .ints, .cmi, .mem, .img, .net, .fsp, .tier, .clk, .hrpOut]
  | .sessionPark _ => [.entries, .edge, .home, .slots, .ledgers, .parts, .ints, .cmi, .net, .tier, .clk, .hrpOut]
  | .sessionResume _ => [.entries, .parts, .ints, .cmi, .net, .tier, .clk, .hrpOut]
  | .sessionQuery _ _ | .screeningItemStart _ _ _ | .screeningItemDone _ _ _
    => [.trb, .entries, .edge, .home, .slots, .ledgers, .parts, .ints, .cmi, .mem, .img, .net, .fsp, .tier, .clk, .hrpOut]
  | .stopSet _ => [.entries, .parts, .ints, .cmi, .net, .clk, .hrpOut]
  | .tenantSet _ | .budgetGrant _ => [.ledgers, .parts, .ints, .cmi, .net, .clk, .hrpOut]
  | .prefixPublish _ => [.entries, .ledgers, .parts, .ints, .cmi, .mem, .img, .net, .tier, .clk, .hrpOut]
  | .prefixDrop _ => [.ledgers, .parts, .ints, .cmi, .mem, .img, .net, .tier, .clk, .hrpOut]
  | .adapterLoad _ => [.ledgers, .parts, .ints, .cmi, .net, .tier, .clk, .hrpOut]
  | .tierScrub _ | .unpairTwin _ => [.parts, .ints, .cmi, .net, .tier, .clk, .hrpOut]
  | .tierScrubDone _ _ | .ptSsmAccessDone _ _ _ | .fspIngressSlot _ _ _ _ _ _ _ | .winteringDone _ _ _
  | .pkeTierRead _ _ _ _ | .tokenRelease _ _ _ | .tIn _ _ | .streamEnd _ _ | .close _ _ | .cancel _ _ | .ssmScrub _ _
  | .tableScrub _ _ _ _
    => [.trb, .entries, .edge, .home, .slots, .ledgers, .parts, .ints, .cmi, .mem, .img, .net, .fsp, .tier, .hrpOut]
  | .imageLoadBegin _ => [.parts, .ints, .cmi, .img, .net, .clk, .hrpOut]
  | .imageLoadData _ | .imageLoadEnd _ => [.trb, .parts, .ints, .cmi, .mem, .img, .net, .clk, .hrpOut]
  | .imageCommit _ | .modePrepare _ | .modeAbort _ | .schedulePin _
    => [.parts, .ints, .cmi, .img, .com, .bal, .net, .clk, .hrpOut]
  | .modeCommit _ => [.parts, .ints, .cmi, .com, .net, .clk, .hrpOut]
  | .timeSet _ | .timeAdjust _ => [.tm, .trb, .parts, .ints, .cmi, .net, .clk, .hrpOut]
  | .partitionReset _
    => [.rs, .entries, .edge, .home, .slots, .ledgers, .parts, .ints, .cmi, .mem, .img, .net, .fsp, .tier, .clk, .hrpOut]
  | .partitionResetDone _ _ => [.rs, .parts, .cmi, .net, .hrpOut]
  | .regionReset _ => [.rs, .parts, .ints, .cmi, .bal, .net, .fsp, .clk, .hrpOut]
  | .statsRead _ => [.parts, .ints, .cmi, .net, .fsp, .clk, .hrpOut]
  | .troubleClear _ => [.trb, .parts, .ints, .cmi, .net, .clk, .hrpOut]
  | .registerWrite _ _ | .tmNowRead _ _ | .ptSsmRead _ _ | .ptSsmWrite _ _ | .ptIntWrite _ _ | .trbStickyWrite _ _
    => [.tm, .rs, .trb, .parts, .ints, .bal, .net, .fsp, .clk, .roleShadow, .denied, .misformed, .blocked, .hrpOut]
  | .tokenIntake _ _ _ _ _
    => [.trb, .entries, .edge, .home, .slots, .ledgers, .parts, .ints, .cmi, .mem, .img, .bal, .net, .fsp, .tier, .hrpOut]
  | .draftIntake _ _ _ _ | .item _ _ => [.trb, .entries, .edge, .home, .slots, .parts, .ints, .mem, .img, .net]
  | .fspEgressSlot _ _ _ _ _
    => [.trb, .entries, .edge, .home, .slots, .ledgers, .parts, .ints, .cmi, .mem, .img, .net, .fsp, .tier, .hrpOut, .fspOut]
  | .queueOver _ _ => [.trb, .home, .parts, .ints]
  | .smpRead _ _ | .smpStatus _ _ => [.cmi]
  | .hrpErr _ | .fspClockLoss _ | .solsticeTick _ _ _ | .commitUndecided _ | .throttleFloorViolation _ | .porstN _ _ _
  | .sysrstN _ _ _ | .cmiWatchdog _ | .slotStartMissed _ _ _ => []
  | .slippedNotice _ _ => [.slots, .hrpOut]
  | .interruptMessageSend _ => [.ints, .hrpOut]
  | .grpTxSlot _ _ => [.slots, .net]
  | .mirrorEnqueue _ | .linkLockLoss _ _ => [.net]
  | .ringForward _ _
    => [.tm, .trb, .entries, .edge, .home, .slots, .ledgers, .parts, .ints, .cmi, .mem, .img, .com, .bal, .net, .fsp, .tier, .clk, .hrpOut]
  | .openMsg _ _ => [.trb, .entries, .edge, .home, .slots, .ledgers, .parts, .ints, .mem, .img, .bal, .net, .clk]
  | .openReply _ _ => [.trb, .entries, .edge, .home, .slots, .ledgers, .parts, .ints, .cmi, .net, .hrpOut]
  | .stepMsg _ _ => [.trb, .entries, .edge, .parts, .ints, .net]
  | .resolve _ _ => [.trb, .entries, .edge, .home, .parts, .ints, .mem, .img, .net, .fsp]
  | .cmd _ _
    => [.trb, .entries, .edge, .home, .slots, .ledgers, .parts, .ints, .cmi, .mem, .img, .com, .bal, .net, .fsp, .tier, .hrpOut]
  | .cmdReply _ _ => [.trb, .entries, .edge, .ledgers, .parts, .ints, .cmi, .bal, .net, .hrpOut]
  | .time _ _ => [.tm, .trb, .parts, .ints, .net]
  | .balance _ _ => [.trb, .parts, .ints, .bal, .net]
  | .prepare _ _ => [.trb, .parts, .ints, .img, .com, .net]
  | .ack _ _ => [.trb, .parts, .ints, .cmi, .img, .com, .bal, .net, .hrpOut]
  | .go _ _ | .restart _ _ => [.trb, .parts, .ints, .com, .net]
  | .abort _ _ => [.trb, .parts, .ints, .img, .com, .bal, .net]
  | .mirror _ _ | .pair _ _ => [.trb, .parts, .ints, .cmi, .net, .tier, .hrpOut]
  | .twinCopyDone _ => [.cmi, .net, .hrpOut]
  | .deadlineReached _ _ | .ttlExpiry _
    => [.entries, .edge, .home, .slots, .ledgers, .parts, .ints, .cmi, .mem, .img, .net, .fsp, .tier, .hrpOut]
  | .cancelledFree _ _ => [.entries, .edge, .home, .slots, .ledgers, .net]
  | .openTimeout _ _ => [.entries, .edge, .home, .slots, .ledgers, .cmi, .net, .hrpOut]
  | .forwardTimeout _ => [.entries, .edge, .ledgers, .parts, .ints, .cmi, .bal, .net, .hrpOut]
  | .commitGoDecision _ => [.parts, .ints, .cmi, .img, .com, .bal, .net, .hrpOut]
  | .commitTakeEffect _
    => [.tm, .rs, .trb, .entries, .edge, .home, .slots, .ledgers, .parts, .ints, .cmi, .mem, .hdl, .img, .com, .bal, .net, .fsp, .tier, .clk, .role, .hrpOut]
  | .imageRetire _ | .ssmWriteBack _ _ => [.img]
  | .twinTakeover _ => [.tm, .bal]
  | .measurementLoss _ | .trefMeasurement _ _ => [.tm, .trb, .parts, .ints]
  | .ppsEdge _ => [.tm]
  | .ageingMeasurement _ _ _ => [.rs, .trb, .parts, .ints, .bal, .clk]
  | .throttleAssert _ | .throttleDeassert _ | .gclkStep _ | .clusterIdleStop _ _ | .sleepEntry _ | .sleepExit _ _ => [.clk]
  | .pwrSettleDone _ _ _ => [.trb, .parts, .ints, .bal, .clk]
  | .clusterWakeDone _ _ => [.home, .bal, .clk]
  | .clusterWakeTimeout _ _ _ => [.trb, .home, .parts, .ints, .bal, .clk]
  | .tierDeviceSelfref _ _ => [.tier]
  | .powerOn _ _ _ => [.tm, .rs, .trb, .net, .tier, .tap]
  | .resetRelease _ _ _ => [.rs, .cmi, .img, .net, .hrpOut]
  | .tierTrainingDone _ _ => [.rs, .trb, .tier]
  | .rstOutRelease _ => [.rs]
  | .extest _ | .samplePreload _ _ | .instr _ | .bypass _ _ | .trstN _ => [.tap]
  | .blockHashDone _ _ => [.entries, .home, .cmi, .mem, .img, .net, .hrpOut]

end Sys2Proof.Machine
end

