-- ==== Sys2Proof/Certificates/Slice0/Obligations.lean ====
section
/-! DEFINITION. The statements for the provers. -/
open Sys2Proof Sys2Proof.Machine

/-- A step with a command at the front of the queue is exec of that command on the state with the queue's rest. -/
def Obligations.StepRunsExec : Prop :=
  ∀ (c : Instr) (rest : List Instr) (s : State), s.pending = c :: rest → step s = exec c { s with pending := rest }

/-- The model's choice (log 2): on an empty queue one REFCLK edge passes. In a reset, on a gate without a twin, with no pulse
to measure and no tick due within the edge, only the time unit, the count of gclk cycles and the record of when the gate fell
quiet change. -/
def Obligations.EmptyQueueIdles : Prop :=
  ∀ s : State, s.pending = [] →
    step s = .next (s.elapse { edges := 1, quarters := 0, finds := [] }) ∧
    (s.inReset = true → s.net.paired = false → s.tm.ppsEdge = none → (s.pass 1 0).tick ≤ s.tm.lastTick →
      ∃ q n, step s = .next { s with tm := s.tm.advance 1 0, clk := { s.clk with quietSince := q, cycles := n } })

/-- Every command answers a next state, and it changes neither the queue nor the grade of the die. -/
def Obligations.CommandsLeaveQueue : Prop :=
  ∀ (c : Instr) (s : State), ∃ t, exec c s = .next t ∧ t.pending = s.pending ∧ t.grade = s.grade

/-- The invariant holds of the machine right after reset. -/
def Obligations.ResetInv : Prop := Inv State.reset

/-- Every step keeps the invariant: the stores stay in canonical form, no partition's ring holds more than 16 packets, the
ring of SMP no more than 4, the mirror queue no more than 4,096 messages, gate time stays within its width, and no lane,
link, cluster or device is lost or made. -/
def Obligations.StepKeepsInv : Prop := ∀ s t : State, Inv s → step s = .next t → Inv t

/-- A reply repeats the request's opcode, partition and tag, with version 1, its result's length and the status, and changes
nothing but the port it leaves by: HRP's virtual channel 1, the words for the next SMP reads, or the ring. A status other
than OK carries no result words. -/
def Obligations.ReplyForm : Prop :=
  ∀ (s : State) (i : Issuer) (st : Status) (result : List Word),
    i.op < 2 ^ 8 → i.part < 2 ^ 6 → i.tag < 2 ^ 16 → result.length < 2 ^ 16 →
    ∃ (h : Word) (n : Nat), n = (if st = .ok then result.length else 0) ∧
      replyWords i st result = h :: result.take n ∧
      bf h 63 56 = i.op ∧ bf h 55 52 = 1 ∧ bf h 51 46 = i.part ∧ bf h 45 44 = 0 ∧ bf h 43 28 = i.tag ∧ bf h 27 12 = n ∧
      bf h 11 8 = 0 ∧ bf h 7 0 = st.code ∧
      (i.src = none → i.smp = false →
        s.reply i st result = { s with hrpOut := s.hrpOut ++ [{ vc := 1, reg := false, part := i.part, words := h :: result.take n }] }) ∧
      (i.src = none → i.smp = true →
        s.reply i st result = { s with cmi := { s.cmi with smpReply := s.cmi.smpReply ++ h :: result.take n } }) ∧
      (∀ g, i.src = some g → s.reply i st result = s.sendWords typCmdReply g (if sessionOp i.op then 3 else 4) (h :: result.take n))

/-- A whole, readable packet on HRP: refused with DENIED_PARTITION where PARTITION differs from the sideband, with
RESERVED_SET where PLEN exceeds 4,096, with BUSY where the partition's ring holds 16 packets or its reset is in progress;
else it joins the end of the partition's ring with the instant of its arrival. A whole, readable packet on SMP joins the end
of SMP's ring of four, or is refused with BUSY while the ring is full. A packet with an uncorrectable word is discarded
without a reply: neither the rings nor any port changes, and the sticky bit CMD_UE is set with an entry of the trouble
record. -/
def Obligations.PacketsArrive : Prop :=
  (∀ (m : Moment) (s : State) (p : Nat) (h : Word) (ps more : List Word) (r : Bool),
      let e := s.elapse m
      let q := e.part p
      e.hrpOn = true → ps.length = hLen h →
      (hPart h = p → hLen h ≤ 4096 → q.resetting = false → q.ring.length < 16 →
        exec (.commandPacketArrival m (.hrp p) (h :: ps ++ more) .clean r) s =
          .next (e.setPart p { q with ring := q.ring ++ [{ part := p, words := h :: ps, arrived := e.tm.refclk, fine := e.fine }] })) ∧
      (hPart h ≠ p → exec (.commandPacketArrival m (.hrp p) (h :: ps ++ more) .clean r) s = .next (e.refuseHrp p h .deniedPartition)) ∧
      (hPart h = p → 4096 < hLen h →
        exec (.commandPacketArrival m (.hrp p) (h :: ps ++ more) .clean r) s = .next (e.refuseHrp p h .reservedSet)) ∧
      (hPart h = p → hLen h ≤ 4096 → q.resetting = true →
        exec (.commandPacketArrival m (.hrp p) (h :: ps ++ more) .clean r) s = .next (e.refuseHrp p h .busy)) ∧
      (hPart h = p → hLen h ≤ 4096 → q.resetting = false → 16 ≤ q.ring.length →
        exec (.commandPacketArrival m (.hrp p) (h :: ps ++ more) .clean r) s =
          .next ((e.setPart p { q with refusedBusy := true }).refuseHrp p h .busy))) ∧
  (∀ (m : Moment) (s : State) (h : Word) (ps more : List Word) (r : Bool),
      let e := s.elapse m
      e.smpOn = true → ps.length = hLen h → hLen h ≤ 4096 → (e.part (hPart h)).resetting = false →
      (e.cmi.smpRing.length < 4 →
        exec (.commandPacketArrival m .smp (h :: ps ++ more) .clean r) s =
          .next { e with cmi := { e.cmi with smpRing := e.cmi.smpRing ++
            [{ part := hPart h, words := h :: ps, arrived := e.tm.refclk, fine := e.fine }] } }) ∧
      (4 ≤ e.cmi.smpRing.length → ∃ i, i.smp = true ∧ i.op = hOp h ∧ i.tag = hTag h ∧ i.part = hPart h ∧
        exec (.commandPacketArrival m .smp (h :: ps ++ more) .clean r) s = .next (e.answer i .busy))) ∧
  (∀ (m : Moment) (s : State) (p : Nat) (h : Word) (ps more : List Word) (r : Bool),
      let e := s.elapse m
      e.hrpOn = true → ps.length = hLen h →
      ∃ t, exec (.commandPacketArrival m (.hrp p) (h :: ps ++ more) .bad r) s = .next t ∧
        bit t.trb.sticky 8 = true ∧ t.cmi = e.cmi ∧ (∀ q, (t.part q).ring = (e.part q).ring) ∧
        t.hrpOut = e.hrpOut ∧ t.trb = (e.trouble .cmdUe 1 (if r then Obj.command (hOp h) (hTag h) false else Obj.none) (some p) 0).trb)

/-- Orders 3 to 6 of the checks on the packet that starts next, for every row that starts a packet: a version, an opcode or a
reserved header bit out of place is answered with its status, a partition that is not enabled with DENIED_PARTITION unless
the opcode is NOP or IDENTIFY. Orders 6 and 7 of the checks, for every row whose opcode fixes its length: an opcode reserved
to partition 0 is answered DENIED_PARTITION to every other issuer, a packet too short EMPTY, a packet too long RESERVED_SET.
The model's choice (log 2): a row that starts packets acts only on a packet of its own opcode, and leaves one of another
listed opcode to that opcode's row. -/
def Obligations.CommandChecks : Prop :=
  (∀ (c : Instr) (op : Nat) (m : Moment) (s : State) (smp : Bool) (k : Pkt),
      let e := s.elapse m
      let i := pktIssuer smp k
      c.opcode = some (op, m) → e.nextPkt = some (smp, k) → i.op = op →
      (∀ st, (s.taken m).check5 i (wat k.words 0) = some st → exec c s = .next ((s.taken m).answer i st)) ∧
      ((s.taken m).check5 i (wat k.words 0) = none → op ≠ 0x01 → op ≠ 0x02 → (s.taken m).partOn i.part = false →
        exec c s = .next ((s.taken m).answer i .deniedPartition))) ∧
  (∀ (c : Instr) (op n : Nat) (p0 : Bool) (m : Moment) (s : State) (i : Issuer) (ps : List Word),
      c.opcode = some (op, m) → c.params = some (n, p0) → Starts (s.elapse m) op i ps →
      (p0 = true → i.isP0 = false → exec c s = .next ((s.taken m).answer i .deniedPartition)) ∧
      ((p0 = true → i.isP0 = true) → ps.length < n → exec c s = .next ((s.taken m).answer i .empty)) ∧
      ((p0 = true → i.isP0 = true) → n < ps.length → exec c s = .next ((s.taken m).answer i .reservedSet))) ∧
  (∀ (c : Instr) (op : Nat) (m : Moment) (s : State),
      c.opcode = some (op, m) →
      ((s.elapse m).nextPkt = none → exec c s = .next (s.elapse m)) ∧
      (∀ smp k, (s.elapse m).nextPkt = some (smp, k) → opcodes.contains (pktIssuer smp k).op = true → (pktIssuer smp k).op ≠ op →
        exec c s = .next (s.elapse m)))

/-- NOP is always OK after the checks; IDENTIFY records version 1 for its transport and answers the gate's identity;
CAPS_READ answers the five capability words. The commands that read. STATS_READ answers one group of counters and empties the
slip log when that is the group; TROUBLE_READ answers the sticky bits, the log's header and the entries asked for, oldest
first; TROUBLE_CLEAR clears the sticky bits named; AGE_REPORT answers the ageing record; IMAGE_QUERY the load, the images and
the target staged. -/
def Obligations.Reads : Prop :=
  (∀ (m : Moment) (s : State) (i : Issuer),
      (Starts (s.elapse m) 0x01 i [] → exec (.nop m) s = .next ((s.taken m).answer i .ok)) ∧
      (Starts (s.elapse m) 0x02 i [] → ∃ t, exec (.identify m) s = .next (t.reply i .ok (s.taken m).identity) ∧ t.version i = some 1 ∧
        t = if i.smp then { s.taken m with cmi := { (s.taken m).cmi with smpVersion := some 1 } }
            else (s.taken m).setPart i.part { (s.taken m).part i.part with version := some 1 }) ∧
      (Starts (s.elapse m) 0x03 i [] → exec (.capsRead m) s = .next ((s.taken m).reply i .ok (gcap s.grade)))) ∧
  (∀ (m : Moment) (s : State) (i : Issuer) (w v : Word),
      let p := s.taken m
      (Starts (s.elapse m) 0x58 i [w] → i.isP0 = true → stray w [(63, 56)] = false →
        (bf w 63 56 = 0 → exec (.statsRead m) s = .next (p.reply i .ok ((p.fsp.ingress ++ p.fsp.egress).map (fun l => word l.slip)))) ∧
        (bf w 63 56 = 1 → ∃ t : State, exec (.statsRead m) s = .next (t.reply i .ok
            (pack [(p.fsp.slipLog.length, 63, 57), (b2n p.fsp.slipOvf, 56, 56)] :: p.fsp.slipLog.flatMap SlipEv.words)) ∧
          t = { p with fsp := { p.fsp with slipLog := [], slipOvf := false } }) ∧
        (bf w 63 56 = 3 → exec (.statsRead m) s = .next (p.reply i .ok p.trb.ce)) ∧
        (bf w 63 56 = 4 → exec (.statsRead m) s = .next (p.reply i .ok ((p.fsp.fref.take p.grade.regions).map word)))) ∧
      (Starts (s.elapse m) 0x58 i [w] → (i.isP0 = true ∨ i.part = bf w 55 50) → stray w [(63, 50)] = false → bf w 63 56 = 2 →
        exec (.statsRead m) s = .next (p.reply i .ok (p.part (bf w 55 50)).counters)) ∧
      (Starts (s.elapse m) 0x59 i [w] → stray w [(63, 47)] = false → 1 ≤ bf w 55 47 → bf w 55 47 ≤ 256 →
        exec (.troubleRead m) s =
          .next (p.reply i .ok ([p.trb.sticky, 0, p.retained logHeaderAt] ++ p.logWords (bf w 63 56) (bf w 55 47)))) ∧
      (Starts (s.elapse m) 0x5A i [w, v] → i.isP0 = true → stray w [(30, 0)] = false → v = 0 →
        ∃ t : State, exec (.troubleClear m) s = .next (t.answer i .ok) ∧ t.trb.sticky = p.trb.sticky &&& ~~~ w ∧
          (∀ k, k ≠ 0x10 → k ≠ 0x13 → t.retained k = p.retained k) ∧ t.entries = p.entries ∧ t.parts = p.parts) ∧
      (Starts (s.elapse m) 0x5B i [] → exec (.ageReport m) s = .next (p.reply i .ok p.ageWords)) ∧
      (Starts (s.elapse m) 0x32 i [] → exec (.imageQuery m) s = .next (p.reply i .ok p.imageWords)))

/-- SESSION_OPEN. With every precondition met and the home on this gate, the entry becomes LIVE with both roles and the next
generation, its tenant's SESSIONS goes up by one, and the reply carries the new handle; with the home elsewhere the entry
waits in OPENING with the reply held. Other entries and ledgers stay. A precondition that fails is answered with its status
and nothing else. -/
def Obligations.SessionOpens : Prop :=
  ∀ (m : Moment) (s : State) (i : Issuer) (ps : List Word),
    let q := OpenReq.ofWords ps
    let p0 : State := s.taken m
    let p : State := if p0.ageing then p0.recompute [(q.policy, q.hops)] else p0
    Starts (s.elapse m) 0x10 i ps → ps.length = 5 → openStray ps = false →
    (∀ st, p.openCheck i q = some st → exec (.sessionOpen m) s = .next (p0.answer i st)) ∧
    (p.openCheck i q = none → q.homeEn = false ∨ q.home = p.gate →
      ∃ t : State, exec (.sessionOpen m) s = .next (t.reply i .ok [hdlWord (t.handle q.slot)]) ∧
        (∃ e : Entry, t.entry q.slot = e ∧ e.state = .live ∧ e.home = true ∧ e.edge = true ∧ e.relay = false ∧
          e.gen = ((p.entry q.slot).gen + 1) % 512 ∧ e.homeGate = p.gate ∧ e.edgeGate = p.gate ∧ e.part = i.part ∧
          e.tenant = q.tenant ∧ e.openTime = p.now ∧ e.length = 0 ∧ e.pendOp = 0) ∧
        t.ledger q.tenant = { p.ledger q.tenant with sessions := (p.ledger q.tenant).sessions + 1 } ∧
        (∀ n, n ≠ q.slot → t.entry n = p.entry n) ∧ (∀ k, k ≠ q.tenant → t.ledger k = p.ledger k)) ∧
    (p.openCheck i q = none → q.homeEn = true → q.home ≠ p.gate →
      ∃ t : State, exec (.sessionOpen m) s = .next t ∧
        (∃ e : Entry, t.entry q.slot = e ∧ e.state = .opening ∧ e.home = false ∧ e.edge = true ∧ e.gen = (p.entry q.slot).gen ∧
          e.homeGate = q.home ∧ e.edgeGate = p.gate ∧ e.part = i.part ∧ e.tenant = q.tenant ∧
          e.pendOp = i.op ∧ e.pendTag = i.tag ∧ e.pendSmp = i.smp) ∧
        t.ledger q.tenant = { p.ledger q.tenant with sessions := (p.ledger q.tenant).sessions + 1 } ∧
        (∀ n, n ≠ q.slot → t.entry n = p.entry n) ∧ (∀ k, k ≠ q.tenant → t.ledger k = p.ledger k) ∧
        t.hrpOut = p.hrpOut ∧ t.mem = p.mem)

/-- A session command that does not find its session is answered with the first status that fails: NO_SESSION where the gate
does not take it, where the entry is FREE or has not the role; STALE_GENERATION for an old handle; DENIED_PARTITION for
another partition's session. Nothing else changes. -/
def Obligations.SessionChecks : Prop :=
  ∀ (m : Moment) (s : State) (i : Issuer) (h : Nat) (st : Status) (w : Word),
    let p := s.taken m
    let e := p.entry (hdlSlot h)
    hdlOf w = h → stray w [(63, 32)] = false →
    ((e.state = .free ∧ st = .noSession) ∨
      (e.state ≠ .free ∧ p.matches h = false ∧ st = .staleGeneration) ∨
      (e.state ≠ .free ∧ p.matches h = true ∧ e.part ≠ i.part ∧ st = .deniedPartition)) →
    (Starts (s.elapse m) 0x13 i [w] → exec (.sessionCancel m) s = .next (p.answer i st)) ∧
    (Starts (s.elapse m) 0x16 i [w] → exec (.sessionQuery m ⟨.clean, 0⟩) s = .next (p.answer i st)) ∧
    (Starts (s.elapse m) 0x12 i [w] → p.hasEdge = true → (e.edge = true ∨ e.home = true) →
      exec (.sessionClose m) s = .next (p.answer i st)) ∧
    (Starts (s.elapse m) 0x12 i [w] → p.hasEdge = false → p.hasHome = false → exec (.sessionClose m) s = .next (p.answer i .noSession))

/-- SESSION_FEED accepted at the edge of a LIVE session. A FEED behind the turn's last one first ends that turn with
NEXT_TURN. A FEED that starts a turn opens it, with OUT_COUNT, PROMPT_LEN and STOP_REASON zero. COUNT leaves the tenant's
input bucket and joins the metered total, LENGTH, PROMPT_LEN and IN_TOTAL grow by COUNT, and the tokens go on to the home.
Refused with NO_BUDGET it adds COUNT to IN_REFUSED; any other refusal changes nothing but the reply. Vector 1 is raised when
the charge empties the bucket. At a home on the same gate the reply to a FEED tells what the home matched, or is held while
blocks it completed wait to be hashed; to a home on another gate the packet is forwarded and its reply held. -/
def Obligations.SessionFeedsAndCharges : Prop :=
  (∀ (m : Moment) (s : State) (i : Issuer) (ps : List Word) (slot : Nat),
      let p := s.taken m
      let q := p.streamDue slot
      let toks := unpackToks (ps.drop 1) (feedCount (wat ps 0))
      let n := toks.length
      let e := q.entry slot
      let l := q.ledger e.tenant
      let x := q.edgeAt slot
      let z := if x.turnOpen && x.fedLast then q.endStream slot .nextTurn (q.withheldFrom slot) else q
      let first := !(z.edgeAt slot).turnOpen
      let f := z.entry slot
      let pl := if first then 0 else f.promptLen
      Starts (s.elapse m) 0x11 i ps → feedLen ps = some ps.length → feedStray ps = false → p.hasEdge = true →
      FindsSession p i ps (·.edge) slot → e.state = .live → e.pendOp = 0 →
      (q.feedCheck slot toks = none →
        ∃ t : State, exec (.sessionFeed m) s =
            .next (t.feedHome slot i (cmdHeader i ps.length :: ps) first (feedLast (wat ps 0)) toks f.length pl) ∧
          t.entry slot = { f with length := f.length + n, promptLen := pl + n, inTotal := satAdd 32 f.inTotal n,
                                  outCount := if first then 0 else f.outCount, stop := if first then .none else f.stop,
                                  inRing := (t.entry slot).inRing } ∧
          (t.edgeAt slot).turnOpen = true ∧
          t.ledger f.tenant = { z.ledger f.tenant with inLevel := (z.ledger f.tenant).inLevel - n } ∧
          t.bal = { z.bal with p := z.bal.p + n } ∧ t.hrpOut = z.hrpOut ∧ t.home = z.home ∧ t.fsp = z.fsp) ∧
      (q.feedCheck slot toks = some .noBudget →
        exec (.sessionFeed m) s =
          .next ((q.setLedger e.tenant { l with inRefused := satAdd 32 l.inRefused toks.length }).answer i .noBudget)) ∧
      (∀ st, q.feedCheck slot toks = some st → st ≠ .noBudget → exec (.sessionFeed m) s = .next (q.answer i st))) ∧
  (∀ (s : State) (slot n : Nat) (i : Issuer) (ws : List Word) (first last : Bool) (toks : List Nat) (pos idx : Nat),
      let t := (s.entry slot).tenant
      let l := s.ledger t
      let v := s.homeFeed slot first last toks pos idx s.imgGen s.cmi.arrival
      (n ≤ l.inLevel → ∃ u : State, s.chargeIn slot n = (if n ≠ 0 ∧ l.inLevel = n then u.levelSpent t else u) ∧
        u.bal = { s.bal with p := s.bal.p + n } ∧ u.ledger t = { l with inLevel := l.inLevel - n } ∧
        (∀ k, k ≠ t → u.ledger k = s.ledger k) ∧ u.entries = s.entries ∧ u.mem = s.mem ∧ u.parts = s.parts) ∧
      ((s.entry slot).home = true → (v.homeAt slot).hashQ.length = (s.homeAt slot).hashQ.length →
        s.feedHome slot i ws first last toks pos idx = v.reply i .ok (v.feedResult slot (s.entry slot).length)) ∧
      ((s.entry slot).home = true → (v.homeAt slot).hashQ.length ≠ (s.homeAt slot).hashQ.length →
        ∃ u : State, s.feedHome slot i ws first last toks pos idx = u.holdReply slot i ∧ u.hrpOut = v.hrpOut ∧
          (u.homeAt slot).feeds =
            (v.homeAt slot).feeds ++ [{ issuer := i, length := (s.entry slot).length, blocks := (v.homeAt slot).hashQ.length }]) ∧
      ((s.entry slot).home = false →
        s.feedHome slot i ws first last toks pos idx = (s.holdReply slot i).forward (s.entry slot).homeGate ws i (some slot)))

/-- SESSION_CLOSE. At a home that is the edge too, a session with no turn open becomes FREE at once with the reply OK, its
GEN kept and its tenant's SESSIONS one less; with tokens still held it becomes CLOSING with the reply held, and its stream
ends at the last of their instants. At a home whose edge is another gate it becomes CLOSING with the reply held. At an edge
whose home is another gate it is forwarded there. A session already CLOSING or CANCELLED answers NO_SESSION. SESSION_CANCEL:
the entry becomes CANCELLED with reason HOST, what the gate kept for the session is dropped, CANCEL goes to every gate from
the home, or to the home, and the reply is OK. -/
def Obligations.SessionEnds : Prop :=
  (∀ (m : Moment) (s : State) (i : Issuer) (w : Word) (slot : Nat),
      let p := s.taken m
      let e := p.entry slot
      let x := p.edgeAt slot
      Starts (s.elapse m) 0x12 i [w] → stray w [(63, 32)] = false → (p.hasEdge || p.hasHome) = true →
      FindsSession p i [w] (fun e => e.edge || e.home) slot →
      (e.home = true → e.edge = true → e.state = .live ∨ e.state = .wintered → e.pendOp = 0 → x.turnOpen = false →
        (p.homeAt slot).feeds = [] → (p.homeAt slot).closeFor = none →
        ∃ t : State, exec (.sessionClose m) s = .next (t.answer i .ok) ∧ t.entry slot = { Entry.zero with gen := e.gen } ∧
          (t.ledger e.tenant).sessions = (p.ledger e.tenant).sessions - 1 ∧ t.edgeAt slot = EdgeAux.zero ∧ t.homeAt slot = HomeAux.zero ∧
          (∀ n, n ≠ slot → t.entry n = p.entry n) ∧ t.hrpOut = p.hrpOut) ∧
      (∀ k at', e.home = true → e.edge = true → e.state = .live → e.pendOp = 0 → x.turnOpen = true → x.held.getLast? = some k → x.tIn = some at' →
        ∃ t : State, exec (.sessionClose m) s = .next t ∧ (t.entry slot).state = .closing ∧ (t.entry slot).pendOp = 0x12 ∧
          (t.entry slot).pendTag = i.tag ∧ (t.edgeAt slot).stopPending = some (.closed, k.release) ∧ (t.edgeAt slot).held = x.held ∧
          (∀ n, n ≠ slot → t.entry n = p.entry n) ∧ t.hrpOut = p.hrpOut) ∧
      (e.home = true → e.edge = false → e.state = .live ∨ e.state = .wintered → e.pendOp = 0 → (p.homeAt slot).streamEnded = false →
        ∃ t : State, exec (.sessionClose m) s = .next t ∧ (t.entry slot).state = .closing ∧ (t.entry slot).pendOp = 0x12 ∧
          (t.entry slot).pendTag = i.tag ∧ (∀ n, n ≠ slot → t.entry n = p.entry n) ∧ t.hrpOut = p.hrpOut) ∧
      (e.home = false → e.state = .live ∨ e.state = .wintering ∨ e.state = .wintered ∨ e.state = .springing → e.pendOp = 0 →
        exec (.sessionClose m) s = .next ((p.holdReply slot i).forward e.homeGate [cmdHeader i 1, w] i (some slot))) ∧
      (e.state = .closing ∨ e.state = .cancelled → exec (.sessionClose m) s = .next (p.answer i .noSession))) ∧
  (∀ (m : Moment) (s : State) (i : Issuer) (w : Word) (slot : Nat),
      let p := s.taken m
      let e := p.entry slot
      Starts (s.elapse m) 0x13 i [w] → stray w [(63, 32)] = false → FindsSession p i [w] (fun _ => true) slot →
      (e.state ≠ .cancelled →
        ∃ t : State, exec (.sessionCancel m) s =
            .next ((if e.home then t.bcast typCancel 3 (cancelPayload (p.handle slot) .host)
                    else t.sendTo typCancel e.homeGate 3 (cancelPayload (p.handle slot) .host)).answer i .ok) ∧
          (t.entry slot).state = .cancelled ∧ (t.entry slot).endReason = 1 ∧ (t.entry slot).gen = e.gen ∧
          t.edgeAt slot = EdgeAux.zero ∧ t.homeAt slot = HomeAux.zero ∧ (t.slotAt slot).cancelTick = p.tick ∧
          (∀ n, n ≠ slot → t.entry n = p.entry n) ∧ t.rs = p.rs ∧ t.tm = p.tm) ∧
      (e.state = .cancelled → exec (.sessionCancel m) s = .next (p.answer i .noSession)))

/-- SESSION_QUERY answers the sixteen words of the entry and changes nothing; STOP_SET puts the stop set, the end token and
its enable into the entry at the home, or also forwards them where the home is another gate. -/
def Obligations.SessionQueryAndStopSet : Prop :=
  ∀ (m : Moment) (s : State) (i : Issuer) (ps : List Word) (slot : Nat),
    let p := s.taken m
    let e := p.entry slot
    let k := stopsOf (wat ps 1)
    (Starts (s.elapse m) 0x16 i ps → ps.length = 1 → strayH ps = false → FindsSession p i ps (fun _ => true) slot →
      exec (.sessionQuery m ⟨.clean, 0⟩) s = .next (p.reply i .ok e.words)) ∧
    (Starts (s.elapse m) 0x17 i ps → ps.length = 2 → (strayH ps || stray (wat ps 1) [(63, 33)]) = false → p.hasEdge = true →
      FindsSession p i ps (·.edge) slot → e.state ≠ .opening → e.state ≠ .closing → e.state ≠ .cancelled →
      (∃ im, p.img.force = some im ∧ k.1 < (p.patHdr im).stopsets) →
      (e.home = true → ∃ t : State, exec (.stopSet m) s = .next (t.answer i .ok) ∧
        t.entry slot = { e with stopSet := k.1, endToken := k.2.1, endEn := k.2.2 } ∧ (∀ n, n ≠ slot → t.entry n = p.entry n)) ∧
      (e.home = false → e.pendOp = 0 →
        exec (.stopSet m) s =
          .next (((p.setStops slot k.1 k.2.1 k.2.2).holdReply slot i).forward e.homeGate (cmdHeader i 2 :: ps) i (some slot))))

/-- DRAFT_RESOLVE of a marked step, with N drafts of the chain stored. The accepted drafts up to the first that ends the
stream commit in depth order, stamped from the packet's arrival on, within the output budget; the step ends, its other drafts
count as rejected; the home is told, and the reply gives the count committed and the length after. Where an accepted draft's
verdict is BLOCK the session is cancelled and the reply is NO_SESSION. -/
def Obligations.DraftResolves : Prop :=
  ∀ (m : Moment) (s : State) (i : Issuer) (ps : List Word) (slot : Nat),
    let p := s.taken m
    let e := p.entry slot
    let x := p.edgeAt slot
    let c := bf (wat ps 1) 63 62
    let n := bf (wat ps 1) 61 58
    let z := if n = 0 then p else p.finishPacket slot
    let f := z.entry slot
    let y := z.edgeAt slot
    let keep := truncatePrefix f (y.accepted c n) 0
    Starts (s.elapse m) 0x18 i ps → ps.length = 2 → (strayH ps || stray (wat ps 1) [(63, 58)] || decide (8 < n)) = false →
    p.hasEdge = true → FindsSession p i ps (·.edge) slot →
    x.mark = true → x.stopPending = none → (e.state = .speculating ∨ (e.state = .live ∧ x.step ≠ none ∧ x.drafts ≠ [])) →
    n ≤ x.stored c →
    (keep.any (fun d => d.acts 4) = false → keep.length ≤ (z.ledger f.tenant).outLevel →
      ∃ t u : State, exec (.draftResolve m) s = .next (u.reply i .ok [pack [(keep.length, 63, 60), ((u.entry slot).length, 59, 40)]]) ∧
        u = t.tellResolve slot c keep.length f.length f.outCount p.cmi.arrival ∧
        (t.entry slot).length = f.length + keep.length ∧ (t.entry slot).outCount = f.outCount + keep.length ∧
        (t.entry slot).chains = 0 ∧ (t.entry slot).state ≠ .speculating ∧
        (t.entry slot).draftRejected = satAdd 32 f.draftRejected (y.drafts.length - keep.length) ∧
        (t.edgeAt slot).mark = false ∧ (t.edgeAt slot).drafts = [] ∧ (t.edgeAt slot).step = none ∧
        (t.edgeAt slot).base = (t.entry slot).length ∧
        (t.edgeAt slot).held.map (·.tok) = y.held.map (·.tok) ++ keep.map (·.tok) ∧
        (t.ledger f.tenant).outLevel = (z.ledger f.tenant).outLevel - keep.length ∧ t.bal.d = z.bal.d + keep.length) ∧
    (keep.any (fun d => d.acts 4) = true → f.state ≠ .free → f.state ≠ .cancelled →
      ∃ t : State, exec (.draftResolve m) s = .next (t.answer i .noSession) ∧ (t.entry slot).state = .cancelled ∧
        (t.entry slot).endReason = 2)

/-- TENANT_SET by the tenant's owner: with VALID the weight and the salt are written; without it everything but SESSIONS,
HELD and the refusal counts becomes zero. A tenant with sessions answers NOT_IDLE, another partition's tenant
DENIED_PARTITION. BUDGET_GRANT on a valid tenant within the image's allowance: rate and burst are written, the level is kept,
set or added to and then held between zero (the least 48-bit value for the parked bucket) and the burst, the other buckets
stay, and the reply tells the level. BUDGET_READ answers the ledger with its salt zero. -/
def Obligations.TenantCommands : Prop :=
  (∀ (m : Moment) (s : State) (i : Issuer) (ps : List Word),
      let p := s.taken m
      let t := bf (wat ps 0) 63 50
      let l := p.ledger t
      Starts (s.elapse m) 0x20 i ps → ps.length = 2 →
      (stray (wat ps 0) [(63, 41)] || (bit (wat ps 0) 49 && bf (wat ps 0) 48 41 == 0)) = false →
      (p.ownerOf t ≠ some i.part → exec (.tenantSet m) s = .next (p.answer i .deniedPartition)) ∧
      (p.ownerOf t = some i.part → l.sessions ≠ 0 → exec (.tenantSet m) s = .next (p.answer i .notIdle)) ∧
      (p.ownerOf t = some i.part → l.sessions = 0 → bit (wat ps 0) 49 = true →
        exec (.tenantSet m) s =
          .next ((p.setLedger t { l with valid := true, weight := bf (wat ps 0) 48 41, salt := wat ps 1 }).answer i .ok)) ∧
      (p.ownerOf t = some i.part → l.sessions = 0 → bit (wat ps 0) 49 = false →
        exec (.tenantSet m) s =
          .next ((p.setLedger t { Ledger.zero with held := l.held, inRefused := l.inRefused, outRefused := l.outRefused }).answer i .ok))) ∧
  (∀ (m : Moment) (s : State) (i : Issuer) (ps : List Word),
      let p := s.taken m
      let t := bf (wat ps 0) 63 50
      let l := p.ledger t
      let b := bf (wat ps 0) 49 48
      let op := bf (wat ps 0) 47 46
      let rate := bf (wat ps 0) 45 22
      let burst := bf (wat ps 1) 63 32
      let old : Int := if b = 0 then (l.inLevel : Int) else if b = 1 then (l.outLevel : Int) else l.pkLevel
      let want : Int := if op = 0 then old else if op = 1 then (wat ps 2).toInt else old + (wat ps 2).toInt
      let v : Int := max (if b = 2 then -(2 ^ 47) else 0) (min want (burst : Int))
      let new : Ledger :=
        if b = 0 then { l with inRate := rate, inBurst := burst, inLevel := v.toNat }
        else if b = 1 then { l with outRate := rate, outBurst := burst, outLevel := v.toNat }
        else { l with pkRate := rate, pkBurst := burst, pkLevel := v }
      p.ownerOf t = some i.part →
      (Starts (s.elapse m) 0x21 i ps → ps.length = 3 → grantStray ps = false → l.valid = true → p.burstOk b t burst = true →
        exec (.budgetGrant m) s =
          .next ((if 0 < old ∧ v ≤ 0 then (p.setLedger t new).levelSpent t else p.setLedger t new).reply i .ok [BitVec.ofInt 64 v])) ∧
      (Starts (s.elapse m) 0x21 i ps → ps.length = 3 → grantStray ps = false → l.valid = false ∨ p.burstOk b t burst = false →
        exec (.budgetGrant m) s = .next (p.answer i .busy)) ∧
      (Starts (s.elapse m) 0x22 i ps → ps.length = 1 → stray (wat ps 0) [(63, 50)] = false →
        exec (.budgetRead m) s = .next (p.reply i .ok ({ l with salt := 0 }).words)))

/-- PARTITION_CONFIG writes SHARE, TENANT_BASE and TENANT_COUNT of the partition it names and enables or disables it,
partition 0 staying enabled. A range that overlaps another enabled partition's, or passes the last tenant, answers BUSY; a
tenant taken from the partition while it has SESSIONS or is VALID answers NOT_IDLE, and so does disabling a partition with
packets or commands in progress. PARTITION_RESET of an idle partition: its WINTERED sessions are cancelled, its packets are
refused from now on, and its reply is held. In the next gclk cycle its interrupts and counters become zero and its interrupt
messages that wait are discarded. No sooner than 4,096 REFCLK cycles after the command, with no access of its row window in
progress, its packets are taken again, its version is forgotten, its row window is zero, its configuration stays, and the
reply goes out. A partition at work answers NOT_IDLE. -/
def Obligations.PartitionCommands : Prop :=
  (∀ (m : Moment) (s : State) (i : Issuer) (w : Word),
      let p := s.taken m
      let n := bf w 63 58
      let on := n == 0 || bit w 57
      let base := bf w 48 35
      let count := bf w 34 20
      let clash := (List.range 64).any (fun o => o != n && p.partOn o && overlap base count (p.part o).base (p.part o).count)
        || decide (16384 < base + count)
      Starts (s.elapse m) 0x48 i [w] → i.isP0 = true → (stray w [(63, 20)] || decide (16384 < bf w 34 20)) = false →
      (clash = true → exec (.partitionConfig m) s = .next (p.answer i .busy)) ∧
      (clash = false → p.takesTenant n base count on = true → exec (.partitionConfig m) s = .next (p.answer i .notIdle)) ∧
      (clash = false → p.takesTenant n base count on = false → on = false → p.partOn n = true → p.busyPart n = true →
        exec (.partitionConfig m) s = .next (p.answer i .notIdle)) ∧
      (clash = false → p.takesTenant n base count on = false → on = true ∨ p.partOn n = false ∨ p.busyPart n = false →
        exec (.partitionConfig m) s =
          .next ((p.setPart n { p.part n with enabled := n != 0 && bit w 57, share := bf w 56 49, base := base, count := count }).answer i .ok))) ∧
  (∀ (m : Moment) (s : State) (i : Issuer) (w : Word) (r : PartRst) (n : Nat),
      let p := s.taken m
      let k := bf w 63 58
      let e := s.elapse m
      (Starts e 0x49 i [w] → (i.isP0 = true ∨ i.part = k) → stray w [(63, 58)] = false →
        (p.partIdle k = false → exec (.partitionReset m) s = .next (p.answer i .notIdle)) ∧
        (p.partIdle k = true → ∃ t : State, exec (.partitionReset m) s = .next t ∧
          t.rs.parts = p.rs.parts ++ [{ part := k, start := p.tm.refclk, since := p.fine, cleared := false, issuer := i }] ∧
          (t.part k).resetting = true ∧ (∀ o, o ≠ k → t.part o = p.part o) ∧
          (swf Entry.zero p.entries = true → ∀ x, (p.entry x).part = k → (p.entry x).state = .wintered →
            (t.entry x).state = .cancelled ∧ (t.entry x).endReason = 5) ∧
          (∀ x, (p.entry x).part ≠ k ∨ (p.entry x).state ≠ .wintered → t.entry x = p.entry x))) ∧
      (r.cleared = false → s.cycleOf r.since < s.cycleOf s.fine →
        ∃ t : State, s.clearPart r = t ∧ (t.part r.part).intPend = 0 ∧ (t.part r.part).intEn = 0 ∧
          (t.part r.part).counters = [0, 0, 0] ∧ t.ints = s.ints.filter (fun x => x.part != r.part) ∧
          (t.part r.part).resetting = (s.part r.part).resetting ∧ (∀ o, o ≠ r.part → t.part o = s.part o) ∧ t.entries = s.entries) ∧
      (e.rs.parts.find? (fun x => x.part == n && x.cleared && decide (x.start + 4096 ≤ e.tm.refclk)) = some r → (e.part n).win.busy = false →
        ∃ t : State, exec (.partitionResetDone m n) s = .next (t.answer r.issuer .ok) ∧
          t.rs.parts = e.rs.parts.filter (· != r) ∧
          t.part n = { e.part n with refusedBusy := false, resetting := false, version := none, win := RowWin.zero } ∧
          (∀ k, k ≠ n → t.part k = e.part k) ∧ t.ints = e.ints ∧ t.entries = e.entries))

/-- SESSION_PARK with items: the write is begun, the entry waits in WINTERING with the reply held; without items the entry is
WINTERED at once. SESSION_RESUME begins the spring of the parked copy and the entry waits in SPRINGING. ADAPTER_LOAD begins
its write, or empties the variant when it brings no items. Each first passes its checks. SESSION_RESUME of a WINTERED session
begins the spring of its parts, in order, and the entry waits in SPRINGING with the reply held; the home wakes a cluster
ahead. -/
def Obligations.TierMoves : Prop :=
  (∀ (m : Moment) (s : State) (i : Issuer) (ps : List Word) (slot : Nat),
      let p := s.taken m
      let e := p.entry slot
      let l := lLane (wat ps 1)
      let first := lSlot (wat ps 1)
      let n := bf (wat ps 2) 63 32
      (Starts (s.elapse m) 0x14 i ps → ps.length = 3 →
        (strayH ps || lReserved (wat ps 1) != 0 || stray (wat ps 2) [(63, 7)] || bf (wat ps 2) 31 7 == 0 || decide (2 ^ 24 < bf (wat ps 2) 31 7)) = false →
        FindsSession p i ps (fun _ => true) slot → p.hasRelay = true → e.state = .live → e.pendOp = 0 → p.tierOn = true → p.tierStarting = false →
        (p.edgeAt slot).mark = false → p.contract ≠ none → p.lanePeriod 0 l ≠ 0 → p.laneHeld l = false →
        p.writeCheck (some e.tenant) l first n = none →
        (n = 0 → exec (.sessionPark m) s =
          .next (((p.setEntry slot { e with relay := true }).install slot extEnd 0 (bf (wat ps 2) 31 7)).answer i .ok)) ∧
        (n ≠ 0 → exec (.sessionPark m) s =
          .next ((((p.setEntry slot { e with relay := true }).setEntry slot { e with relay := true, state := .wintering }).holdReply slot i).beginWrite
            (.winter slot false (!e.relay)) i e.tenant l first n (bf (wat ps 2) 31 7)))) ∧
      (Starts (s.elapse m) 0x2A i ps → ps.length = 3 → i.isP0 = true →
        (stray (wat ps 0) [(63, 52)] || lReserved (wat ps 1) != 0 || stray (wat ps 2) [(63, 32)]) = false →
        p.tierStarting = false → p.contract ≠ none → p.tierOn = true → p.lanePeriod 0 l ≠ 0 → p.laneHeld l = false →
        p.writeCheck none l first n = none →
        (n = 0 → exec (.adapterLoad m) s = .next ((p.setAdapter (bf (wat ps 0) 63 52) none).answer i .ok)) ∧
        (n ≠ 0 → exec (.adapterLoad m) s = .next (p.beginWrite (.adapterLoad (bf (wat ps 0) 63 52)) i 0 l first n 0)))) ∧
  (∀ (m : Moment) (s : State) (i : Issuer) (ps : List Word) (slot : Nat) (parts : List Slice) (c : Contract),
      let p := s.taken m
      let e := p.entry slot
      let l := lLane (wat ps 1)
      let first := lSlot (wat ps 1)
      let ad := if bit (wat ps 2) 63 then some (bf (wat ps 2) 62 51) else none
      let o : TierOp := { kind := .spring slot, lane := l, first := first, total := parts.foldl (fun a c => a + c.items) 0, done := 0,
                          staged := 0, extents := [], slices := parts, buf := [], bookings := p.bookingOf true l first (pageStarts 0 parts),
                          tenant := e.tenant, ttl := 0, issuer := i }
      Starts (s.elapse m) 0x15 i ps → ps.length = 5 →
      (strayH ps || lReserved (wat ps 1) != 0 || stray (wat ps 2) [(63, 42)] || decide (256 < bf (wat ps 2) 50 42)
        || (bf (wat ps 2) 50 42 == 0 && (wat ps 3 != 0 || wat ps 4 != 0))) = false →
      FindsSession p i ps (fun _ => true) slot → e.state = .wintered → e.pendOp = 0 → p.tick < e.expiry → p.tierStarting = false → p.contract = some c →
      p.lanePeriod 1 l ≠ 0 → p.laneHeld l = false → ad = (if e.adapterEn then some e.adapter else none) →
      (∀ v, ad = some v → p.adapterValid v = true) → p.slotAfter true l first (fineOf (c.resumeLead * 1000)) false = true →
      (e.home = true → p.admits e.priority = true) →
      p.springParts slot ad (bf (wat ps 2) 50 42) (wat ps 3, wat ps 4) = some parts → p.bookOk (some e.tenant) o.bookings = true →
      ∃ t : State, exec (.sessionResume m) s = .next (if e.home then t.wakeAhead slot else t) ∧
        t.tier = { p.tier with ops := p.tier.ops ++ [o] } ∧
        t.entry slot = { e with state := .springing, pendOp := i.op, pendTag := i.tag, pendSmp := i.smp } ∧
        (∀ k, k ≠ slot → t.entry k = p.entry k) ∧ t.hrpOut = p.hrpOut ∧ t.mem = p.mem)

/-- PREFIX_PUBLISH of a home part puts the completed block into the directory and answers the block's hash and its parent's;
PREFIX_DROP removes the entry of a hash the partition owns, at once or, while a spring reads it, when that ends; it answers
DENIED_PARTITION for another's and NO_SESSION where there is none. TIER_SCRUB is accepted one at a time and holds its reply;
it is done once every allocated page of its devices can have been read at its pace, and then answers the pages read and the
pages rewritten. TIER_STATUS answers the devices trained, the positions lost and each device's word. -/
def Obligations.TierStores : Prop :=
  (∀ (m : Moment) (s : State) (i : Issuer) (ps : List Word) (slot : Nat) (h : Word × Word),
      let p := s.taken m
      let e := p.entry slot
      let toks := let t := joinWords ((ps.drop 2).take 18); (List.range 64).map (fun k => nf t (18 * k + 17) (18 * k))
      let d : DirEnt := { tokens := true, pages := false, tenant := e.tenant, block := bf (wat ps 1) 61 48, adapterEn := e.adapterEn,
                          adapter := e.adapter, hash := h, parent := (p.hashRec slot).prev, plHead := extEnd, plPages := 0, expiry := 0, tok := toks }
      (Starts (s.elapse m) 0x28 i ps → ps.length = 20 → publishStray ps = false → bit (wat ps 1) 63 = true → bit (wat ps 1) 62 = false →
        FindsSession p i ps (fun _ => true) slot → e.home = true → e.state = .live → e.pendOp = 0 →
        p.homePublish slot (bf (wat ps 1) 61 48) toks = some h →
        (∀ t, p.publishDone d (bf (wat ps 1) 47 23) = some t →
          exec (.prefixPublish m) s = .next (t.reply i .ok [h.1, h.2, d.parent.1, d.parent.2])) ∧
        (p.publishDone d (bf (wat ps 1) 47 23) = none → exec (.prefixPublish m) s = .next (p.answer i .noSpace))) ∧
      (Starts (s.elapse m) 0x29 i ps → ps.length = 2 →
        (∀ k x, p.dirFind (fun d => p.ownerOf d.tenant == some i.part) (wat ps 0, wat ps 1) = some (k, x) →
          (p.dirPinned x = false → exec (.prefixDrop m) s = .next ((p.dirDrop k x).answer i .ok)) ∧
          (p.dirPinned x = true → exec (.prefixDrop m) s =
            .next (({ p with tier := { p.tier with dropping := insertNat k p.tier.dropping } } : State).answer i .ok))) ∧
        (p.dirFind (fun _ => true) (wat ps 0, wat ps 1) = none → exec (.prefixDrop m) s = .next (p.answer i .noSession)) ∧
        (p.dirFind (fun d => p.ownerOf d.tenant == some i.part) (wat ps 0, wat ps 1) = none →
          p.dirFind (fun _ => true) (wat ps 0, wat ps 1) ≠ none → exec (.prefixDrop m) s = .next (p.answer i .deniedPartition)))) ∧
  (∀ (m : Moment) (s : State) (i : Issuer) (w : Word) (r : TierScrub),
      let p := s.taken m
      let e := s.elapse m
      (Starts e 0x60 i [w] → i.isP0 = true →
        (stray w [(63, 38)] || (decide (19 < bf w 63 59) && bf w 63 59 != 31) || bf w 58 38 == 0) = false →
        (p.tierStarting = false → p.tier.scrub = none → p.scrubDevs (bf w 63 59) ≠ [] →
          exec (.tierScrub m) s =
            .next { p with tier := { p.tier with scrub := some { device := bf w 63 59, pace := bf w 58 38, issuer := i, startTick := p.tick } } }) ∧
        (p.tierStarting = true ∨ p.tier.scrub ≠ none → exec (.tierScrub m) s = .next (p.answer i .busy)) ∧
        (p.tierStarting = false → p.tier.scrub = none → p.scrubDevs (bf w 63 59) = [] → exec (.tierScrub m) s = .next (p.answer i .noSpace))) ∧
      (e.inReset = false → e.tier.scrub = some r → r.startTick + cdiv (e.pagesOn (e.scrubDevs r.device)) r.pace ≤ e.tick →
        exec (.tierScrubDone m []) s =
          .next ({ e with tier := { e.tier with scrub := none } }.reply r.issuer .ok [pack [(e.pagesOn (e.scrubDevs r.device), 63, 32), (0, 31, 0)]])) ∧
      (Starts e 0x61 i [] →
        exec (.tierStatus m) s =
          .next (p.reply i .ok (pack [(p.trainedDevs.length, 63, 59), (p.tier.lost, 58, 38)] :: (List.range s.grade.tierDevices).map p.devWord))))

/-- IMAGE_LOAD. BEGIN of a good image starts the load and drops what was held before; of a bad one it answers BAD_IMAGE and
the load is IDLE. DATA stores the packet's rows at the handle and offset it names, a handle of the image being loaded, and
counts them; a handle that is not usable or too short answers BAD_IMAGE, and so does a row in a read-only lease in force,
with HANDLE_CONFLICT; either drops the load. END of an image that passes every check writes its replicas and makes it LOADED;
one that fails answers BAD_IMAGE and drops the load. A phase out of turn answers BUSY. -/
def Obligations.ImageLoads : Prop :=
  ∀ (m : Moment) (s : State) (i : Issuer) (ps : List Word) (g : Img),
    let p := s.taken m
    let idle : ImageU := { p.img with load := .idle, loading := none }
    let h := bf (wat ps 0) 61 52
    let o := bf (wat ps 0) 51 28
    let n := bf (wat ps 0) 27 19
    let d := g.handle h
    let c8 := bf (wat ps 1) 63 32
    let c4 := bf (wat ps 1) 31 0
    let named := (imgC8 (wat g.hdr 0) || c8 == 0) && (imgC4 (wat g.hdr 0) || c4 == 0)
    i.isP0 = true → loadBad ps = false → loadLen ps = some ps.length → Starts (s.elapse m) 0x30 i ps →
    (phaseOf ps = 0 → p.loadOpen = true → p.img.load ≠ .committing → p.img.retiring = none →
      (imgOfBegin p.grade (ps.drop 1) (p.img.gen + 1) = some g → p.beginGood (ps.drop 1) g = true →
        exec (.imageLoadBegin m) s =
          .next ({ p with img := { p.img with load := .loading, loading := some g, rowsIn := 0, gen := p.img.gen + 1 } }.answer i .ok)) ∧
      (imgOfBegin p.grade (ps.drop 1) (p.img.gen + 1) = none ∨
          (imgOfBegin p.grade (ps.drop 1) (p.img.gen + 1) = some g ∧ p.beginGood (ps.drop 1) g = false) →
        exec (.imageLoadBegin m) s = .next ({ p with img := { idle with rowsIn := 0 } }.answer i .badImage))) ∧
    (phaseOf ps = 0 → p.loadOpen = false ∨ p.img.load = .committing ∨ p.img.retiring ≠ none →
      exec (.imageLoadBegin m) s = .next (p.answer i .busy)) ∧
    (phaseOf ps = 1 → p.img.load = .loading → p.img.loading = some g → d.valid = true → d.gate = false → o + n ≤ d.bound →
      ((∀ k, k < n → p.leaseHolds (d.base + o + k) = false) →
        ∃ t : State, exec (.imageLoadData m) s = .next (t.answer i .ok) ∧ t.mem = p.mem.putWords (8 * (d.base + o)) (ps.drop 1) ∧
          t.img.rowsIn = p.img.rowsIn + n ∧ t.img.load = .loading ∧ t.img.loading = some g ∧ t.img.force = p.img.force ∧
          t.hdl = p.hdl ∧ t.entries = p.entries) ∧
      ((∃ k, k < n ∧ p.leaseHolds (d.base + o + k) = true) →
        ∃ t : State, exec (.imageLoadData m) s = .next (t.answer i .badImage) ∧ t.img = idle ∧ t.mem = p.mem ∧ bit t.trb.sticky 12 = true)) ∧
    (phaseOf ps = 1 → p.img.load = .loading → p.img.loading = some g → d.valid = false ∨ d.gate = true ∨ d.bound < o + n →
      exec (.imageLoadData m) s = .next ({ p with img := idle }.answer i .badImage)) ∧
    (∀ g1 reps, phaseOf ps = 2 → p.img.load = .loading → p.img.loading = some g → named = true → p.loadChecked g c8 c4 = .ok g1 →
      p.replicas g = .ok reps → reps.all (fun x => (p.replConflict g x).isNone) = true →
      ∃ t : State, exec (.imageLoadEnd m) s = .next (t.answer i .ok) ∧
        t.mem = reps.foldl (fun a x => a.putWords (8 * (g.handle x.1).base) x.2.2) p.mem ∧
        t.img.load = .loaded ∧ t.img.loading = some g1 ∧ t.img.force = p.img.force ∧ t.hdl = p.hdl ∧ t.entries = p.entries) ∧
    (phaseOf ps = 2 → p.img.load = .loading → p.img.loading = some g →
      named = false ∨ (∃ x, p.loadChecked g c8 c4 = .error x) ∨ (∃ x, p.replicas g = .error x) ∨
        (∃ reps, p.replicas g = .ok reps ∧ reps.any (fun x => (p.replConflict g x).isSome) = true) →
      ∃ t : State, exec (.imageLoadEnd m) s = .next (t.answer i .badImage) ∧ t.img = idle ∧ t.mem = p.mem ∧ t.entries = p.entries) ∧
    (p.img.load ≠ .loading →
      (phaseOf ps = 1 → exec (.imageLoadData m) s = .next (p.answer i .busy)) ∧
      (phaseOf ps = 2 → exec (.imageLoadEnd m) s = .next (p.answer i .busy)))

/-- The commit commands at a gate that is not the coordinator go to the coordinator and are kept, unanswered, until it
answers; while one that holds a reply waits, a second of its kind is answered BUSY, a MODE_ABORT or a clear of the pin apart.
The commit commands at the coordinator. IMAGE_COMMIT of the loaded image, MODE_PREPARE and SCHEDULE_PIN of a variant not in
force start a commit when none is in progress, the target of the first two at least three ticks ahead: PREPARE goes to every
gate, and where this gate's own check passes the change is staged; where it fails the commit is aborted and its status
answered. MODE_PREPARE is answered OK once every gate has acknowledged. MODE_COMMIT joins the prepared commit of its target,
its reply held. MODE_ABORT, up to two ticks before its target, ends a commit, with BUSY for the replies that it held, and is
answered OK. SCHEDULE_PIN pins the variant in force at once; without PIN it clears the pin. -/
def Obligations.CommitOrders : Prop :=
  (∀ (m : Moment) (s : State) (i : Issuer) (w : Word),
      let p := s.taken m
      let fwd := p.forward p.coordGate [cmdHeader i 1, w] i none
      i.isP0 = true → p.isCoord = false →
      (fwd.cmi.fwds = p.cmi.fwds ++ [{ issuer := i, dst := p.coordGate, slot := none, since := p.now }] ∧ fwd.hrpOut = p.hrpOut ∧
        fwd.entries = p.entries ∧ fwd.com = p.com ∧ fwd.img = p.img) ∧
      (Starts (s.elapse m) 0x31 i [w] → stray w [(63, 20)] = false →
        (p.heldHere 0x31 = false → exec (.imageCommit m) s = .next fwd) ∧
        (p.heldHere 0x31 = true → exec (.imageCommit m) s = .next (p.answer i .busy))) ∧
      (Starts (s.elapse m) 0x38 i [w] → stray w [(63, 20)] = false →
        (p.heldHere 0x38 = false → exec (.modePrepare m) s = .next fwd) ∧
        (p.heldHere 0x38 = true → exec (.modePrepare m) s = .next (p.answer i .busy))) ∧
      (Starts (s.elapse m) 0x39 i [w] → stray w [(63, 20)] = false →
        (p.heldHere 0x39 = false → exec (.modeCommit m) s = .next fwd) ∧
        (p.heldHere 0x39 = true → exec (.modeCommit m) s = .next (p.answer i .busy))) ∧
      (Starts (s.elapse m) 0x3A i [w] → stray w [(63, 20)] = false → exec (.modeAbort m) s = .next fwd) ∧
      (Starts (s.elapse m) 0x3B i [w] → stray w [(63, 59)] = false →
        (p.heldHere 0x3B = false ∨ bit w 63 = false → exec (.schedulePin m) s = .next fwd) ∧
        (p.heldHere 0x3B = true → bit w 63 = true → exec (.schedulePin m) s = .next (p.answer i .busy)))) ∧
  (∀ (m : Moment) (s : State) (i : Issuer) (w : Word),
      let p := s.taken m
      let now := p.tickAt p.cmi.arrival
      let target := bf w 63 20
      let v := bf w 62 59
      let begun (k : Kind) (tgt : Nat) (rs : List Issuer) (pre : Option Issuer) (pin : Option Nat) : Coord :=
        { kind := k, target := tgt, acks := [], modeCommit := false, decided := false, going := false, replies := rs, prepare := pre, pin := pin }
      let alone := p.members.all (fun g => g == p.gate)
      i.isP0 = true → p.isCoord = true →
      (∀ g, Starts (s.elapse m) 0x31 i [w] → stray w [(63, 20)] = false → p.commitFree = true → now + 3 ≤ target → p.img.load = .loaded →
        p.img.loading = some g →
        let c : Staged := { kind := .image, target := target, imageId := g.id, crc8 := g.crc8, crc4 := g.crc4, variant := 0, roles := 0,
                            go := false, acked := false }
        (p.stageCheck c = none → ∃ t : State, exec (.imageCommit m) s = .next t ∧ t.com.staged = some { c with acked := true } ∧
          t.com.coord = some (begun .image target [i] none none) ∧ t.img = { p.img with load := .committing } ∧ t.hrpOut = p.hrpOut ∧
          t.net = (p.bcast typPrepare 1 (preparePayload c)).net ∧ t.entries = p.entries) ∧
        (∀ st, p.stageCheck c = some st → ∃ t : State, exec (.imageCommit m) s = .next (t.answer i st) ∧ t.com.staged = none ∧
          t.com.coord = none ∧ t.img = p.img ∧ t.entries = p.entries)) ∧
      (Starts (s.elapse m) 0x38 i [w] → stray w [(63, 20)] = false → p.commitFree = true → now + 3 ≤ target →
        (p.stageCheck (p.modeChange target) = none → ∃ t : State,
          exec (.modePrepare m) s = .next (if alone then t.answer i .ok else t) ∧
          t.com.staged = some { p.modeChange target with acked := true } ∧
          t.com.coord = some (begun .mode target [] (if alone then none else some i) none) ∧ t.img = p.img ∧ t.hrpOut = p.hrpOut ∧
          t.entries = p.entries) ∧
        (∀ st, p.stageCheck (p.modeChange target) = some st → ∃ t : State, exec (.modePrepare m) s = .next (t.answer i st) ∧
          t.com.staged = none ∧ t.com.coord = none ∧ t.img = p.img ∧ t.entries = p.entries)) ∧
      (∀ c, Starts (s.elapse m) 0x39 i [w] → stray w [(63, 20)] = false → p.com.coord = some c → c.kind = .mode → c.target = target →
        now + 2 < target → c.modeCommit = false → c.decided = false →
        exec (.modeCommit m) s = .next { p with com := { p.com with coord := some { c with modeCommit := true, replies := c.replies ++ [i] } } }) ∧
      (∀ c, Starts (s.elapse m) 0x3A i [w] → stray w [(63, 20)] = false → p.com.coord = some c → c.target = target → now + 2 ≤ target →
        c.decided = false ∨ c.going = true →
        ∃ t : State, exec (.modeAbort m) s = .next ((t.answerAll (c.replies ++ c.prepare.toList) .busy).answer i .ok) ∧
          t.com.staged = none ∧ t.com.coord = none ∧ t.net = (p.bcast typAbort 1 [targetWord c.target]).net ∧
          t.img = (if c.kind = .image ∧ p.img.load = .committing then { p.img with load := .loaded } else p.img) ∧ t.entries = p.entries) ∧
      (∀ f, Starts (s.elapse m) 0x3B i [w] → stray w [(63, 59)] = false → p.img.force = some f → bit w 63 = true → v < f.contract.variants →
        p.commitFree = true →
        (v = p.bal.active → exec (.schedulePin m) s = .next ((({ p with bal := { p.bal with pinned := true } } : State).raiseAll 5).answer i .ok)) ∧
        (v ≠ p.bal.active → p.stageCheck (variantChange v (now + f.meter.lead)) = none → ∃ t : State, exec (.schedulePin m) s = .next t ∧
          t.com.staged = some { variantChange v (now + f.meter.lead) with acked := true } ∧
          t.com.coord = some (begun .variant (now + f.meter.lead) [i] none (some v)) ∧ t.bal = p.bal ∧ t.hrpOut = p.hrpOut ∧
          t.entries = p.entries) ∧
        (∀ st, v ≠ p.bal.active → p.stageCheck (variantChange v (now + f.meter.lead)) = some st → ∃ t : State,
          exec (.schedulePin m) s = .next (t.answer i st) ∧ t.com.staged = none ∧ t.com.coord = none ∧ t.bal.active = p.bal.active ∧
          t.bal.pinned = p.bal.pinned ∧ t.entries = p.entries)) ∧
      (Starts (s.elapse m) 0x3B i [w] → stray w [(63, 59)] = false → bit w 63 = false →
        ∃ t : State, exec (.schedulePin m) s = .next ((t.raiseAll 5).answer i .ok) ∧
          t.bal = { p.bal with pinned := false, out := 0, since := 0 } ∧ t.com.staged = p.com.staged ∧ t.img = p.img ∧ t.entries = p.entries))

/-- TIME_SET on a gate that keeps its own time makes gate time the value given and SET 1; a follower answers BUSY. TIME_QUERY
answers the count at the last REFCLK edge, its fraction and the time flags. TIME_ADJUST on a gate that keeps time by command:
the frequency correction takes the word given, an offset of at most 1,000 ns is slewed at no more than 100 ppm, and a larger
one steps gate time. Where the gate follows, or is disciplined and a frequency is given, it answers BUSY. -/
def Obligations.TimeCommands : Prop :=
  (∀ (m : Moment) (s : State) (i : Issuer) (a b : Word),
      let z := s.moved (.timeSet m)
      let p := z.popPkt
      let q := s.taken m
      (Starts z 0x40 i [a, b] → i.isP0 = true → stray b [(63, 48)] = false →
        (p.tmMode = 0 → exec (.timeSet m) s = .next (p.answer i .busy)) ∧
        (p.tmMode ≠ 0 → ∃ t : State, exec (.timeSet m) s = .next (t.answer i .ok) ∧
          t.tm.t48 = a.toNat * 2 ^ 48 + bf b 63 48 * 2 ^ 32 ∧ t.tm.set = true ∧ t.tm.quarters = 0 ∧ t.tm.refclk = p.tm.refclk ∧
          t.tm.ctl = p.tm.ctl ∧ t.tm.c = p.tm.c ∧ t.entries = p.entries ∧ t.mem = p.mem)) ∧
      (Starts (s.elapse m) 0x42 i [] →
        exec (.timeQuery m) s =
          .next (q.reply i .ok [word (q.tm.t48 >>> 48),
            pack [((q.tm.t48 >>> 32) % 2 ^ 16, 63, 48), (b2n q.tm.set, 47, 47), (b2n q.tm.locked, 46, 46), (b2n q.tm.holdover, 45, 45),
              (q.masterNo, 44, 35)]]))) ∧
  (∀ (m : Moment) (s : State) (i : Issuer) (a b : Word),
      let z := s.moved (.timeAdjust m)
      let p := z.popPkt
      let f := adjustFreq [a, b]
      Starts z 0x41 i [a, b] → i.isP0 = true → (stray b [(63, 32)] || decide (200000000 < f.natAbs)) = false →
      (p.tmMode = 0 ∨ (f ≠ 0 ∧ p.tmSource ≠ 0) → exec (.timeAdjust m) s = .next (p.answer i .busy)) ∧
      (p.tmMode ≠ 0 → p.tmSource = 0 → a.toInt.natAbs ≤ 1000 →
        exec (.timeAdjust m) s = .next ({ p with tm := { p.tm with c := f, slewLeft := a.toInt * 2 ^ 48, slewStep := adjustStep } }.answer i .ok)) ∧
      (p.tmMode ≠ 0 → p.tmSource ≠ 0 → f = 0 → a.toInt.natAbs ≤ 1000 →
        exec (.timeAdjust m) s = .next ({ p with tm := { p.tm with slewLeft := a.toInt * 2 ^ 48, slewStep := adjustStep } }.answer i .ok)) ∧
      (p.tmMode ≠ 0 → p.tmSource = 0 → 1000 < a.toInt.natAbs →
        ∃ t : State, exec (.timeAdjust m) s = .next (t.answer i .ok) ∧ t.tm.c = f ∧
          t.tm.t48 = (((p.tm.t48 : Int) + a.toInt * 2 ^ 48) % (2 ^ 112 : Int)).toNat ∧ t.tm.slewLeft = 0))

/-- The twin commands. PAIR_TWIN of a member that may become the twin holds its reply and asks it, with BUSY for any other or
while one is held; UNPAIR_TWIN on an unpaired gate answers NOT_PAIRED, while one is held BUSY, in the window after a reset it
unpairs at once, tells the twin and answers OK, else it holds its reply and asks the twin with this gate's own quiescence. -/
def Obligations.TwinCommands : Prop :=
  ∀ (m : Moment) (s : State) (i : Issuer) (w : Word),
    let p := s.taken m
    let g := bf w 63 54
    i.isP0 = true →
    (Starts (s.elapse m) 0x50 i [w] → stray w [(63, 54)] = false →
      (p.mayPair g = true → p.net.pairFor = none →
        exec (.pairTwin m) s =
          .next (({ p with net := { p.net with pairFor := some i } } : State).sendTo typPair g 4 (pairPayload false false .ok))) ∧
      (p.mayPair g = false ∨ p.net.pairFor ≠ none → exec (.pairTwin m) s = .next (p.answer i .busy))) ∧
    (Starts (s.elapse m) 0x51 i [] →
      (p.net.paired = false → exec (.unpairTwin m) s = .next (p.answer i .notPaired)) ∧
      (p.net.paired = true → p.net.unpairFor ≠ none → exec (.unpairTwin m) s = .next (p.answer i .busy)) ∧
      (p.net.paired = true → p.net.unpairFor = none → p.com.window = true →
        ∃ t : State, exec (.unpairTwin m) s = .next ((t.sendTo typPair p.net.twin 4 (pairPayload true true .ok)).answer i .ok) ∧
          t.net.paired = false ∧ t.net.synced = false ∧ t.net.mirrorQ = [] ∧ t.tier.mirror = [] ∧ t.entries = p.entries) ∧
      (p.net.paired = true → p.net.unpairFor = none → p.com.window = false →
        exec (.unpairTwin m) s =
          .next (({ p with net := { p.net with unpairFor := some i } } : State).sendTo typPair p.net.twin 4
            (pairPayload false true (if p.quiesced then .ok else .notIdle)))))

/-- The commands that reset. GATE_RESET answers OK and asserts cold reach where its COLD bit is set, else warm reach;
JOB_RESTART answers OK and raises JOB_FAULT with cause HOST; REGION_RESET of an idle region asserts that region's reset and
holds its reply, and a region at work answers NOT_IDLE. -/
def Obligations.ResetCommands : Prop :=
  ∀ (m : Moment) (s : State) (i : Issuer) (w : Word),
    let p := s.taken m
    let r := bf w 63 62
    i.isP0 = true →
    (Starts (s.elapse m) 0x4B i [w] → stray w [(63, 63)] = false → p.inReset = false →
      ∃ t : State, exec (.gateReset m) s = .next t ∧ t.rs.reach = some (if bit w 63 then Reach.cold else Reach.warm) ∧
        t.rs.sources.testBit srcGateReset = true ∧ t.rs.until' = p.tm.refclk + 1 ∧ t.rs.start = none) ∧
    (Starts (s.elapse m) 0x4C i [] → p.inReset = false →
      ∃ t : State, exec (.jobRestart m) s = .next t ∧ t.rs.reach = some Reach.job ∧ t.rs.sources.testBit srcJobRestart = true ∧
        t.rs.until' = p.tm.refclk + 1 ∧ t.rs.start = none ∧ bit t.trb.sticky 0 = true) ∧
    (Starts (s.elapse m) 0x4A i [w] → (stray w [(63, 62)] || decide (s.grade.regions ≤ r)) = false →
      (p.regionIdle r = false → exec (.regionReset m) s = .next (p.answer i .notIdle)) ∧
      (p.regionIdle r = true → ∃ t : State, exec (.regionReset m) s = .next t ∧
        t.rs.regions = p.rs.regions ++ [{ region := r, start := p.tm.refclk, issuer := i }] ∧ t.rs.lastReach = 1 ∧ t.rs.region = r ∧
        t.regionHeld r = true ∧ t.entries = p.entries ∧ t.mem = p.mem ∧ t.hrpOut = p.hrpOut))

/-- A register access in the management window that is whole and allowed: a read answers the register's value and nothing
changes, but for an uncorrectable backup register, which reads zero from then on, with RETAINED_UE; a write with nothing
reserved set changes the register it names as the register's rule says. The rows of single registers act so too, on their own
registers: a read of TM_NOW also holds the fraction for TM_FRAC, and ones written to GT_TRB_STICKY0 clear its bits. A
misformed access is counted and does nothing more, a denied one likewise; a read of either answers zero. What a write leaves
in a register of the management window: each of these takes the value written, and no other register changes. A route is
written only while ENABLE is 0; while it is 1 the write is counted. -/
def Obligations.RegisterWindow : Prop :=
  (∀ (m : Moment) (s : State) (b : RegBeat) (r : Reg),
      let e := s.elapse m
      let a := beatAddr b
      e.hrpOn = true → beatMisformed b = false → beatDenied b = false → a < 0x10000 → regAt a = some r → r.absent s.grade = false →
      (beatWrites b = false → a ≠ 0x0410 → b.find = .clean → exec (.registerWrite m b) s = .next (e.regReply b (e.readReg r))) ∧
      (∀ n, r = .bkup n → beatWrites b = false → b.find = .bad →
        ∃ t : State, exec (.registerWrite m b) s = .next (t.regReply b 0) ∧ t.readReg (.bkup n) = 0 ∧ bit t.trb.sticky 9 = true ∧
          (∀ k, k ≠ n → t.readReg (.bkup k) = e.readReg (.bkup k)) ∧ t.hrpOut = e.hrpOut ∧ t.entries = e.entries) ∧
      (beatWrites b = false → a = 0x0410 →
        exec (.tmNowRead m b) s = .next { e.regReply b (word (e.tm.t48 >>> 48)) with tm := { e.tm with frac := (e.tm.t48 >>> 32) % 2 ^ 16 } }) ∧
      (beatWrites b = true → a ≠ 0x0080 → r.reserved b.w1 = false → exec (.registerWrite m b) s = .next (e.writeReg r b.w1)) ∧
      (beatWrites b = true → a = 0x0080 → r.reserved b.w1 = false → b.w1 ≠ 0 →
        ∃ t : State, exec (.trbStickyWrite m b) s = .next t ∧ t.trb.sticky = e.trb.sticky &&& ~~~ b.w1 ∧ t.trb.alertEn = e.trb.alertEn ∧
          (∀ k, k ≠ 0x10 → k ≠ 0x13 → t.retained k = e.retained k) ∧ t.parts = e.parts ∧ t.hrpOut = e.hrpOut) ∧
      (beatWrites b = true → a ≠ 0x0080 → r.reserved b.w1 = true →
        exec (.registerWrite m b) s = .next (e.trouble .regReserved 6 (Obj.register a) none 0))) ∧
  (∀ (m : Moment) (s : State) (b : RegBeat),
      let e := s.elapse m
      e.hrpOn = true → beatRow b = .other →
      (beatMisformed b = true →
        (beatWrites b = true → exec (.registerWrite m b) s = .next { e with misformed := min (e.misformed + 1) (2 ^ 16 - 1) }) ∧
        (beatWrites b = false →
          exec (.registerWrite m b) s = .next (({ e with misformed := min (e.misformed + 1) (2 ^ 16 - 1) } : State).regReply b 0))) ∧
      (beatMisformed b = false → beatDenied b = true →
        (beatWrites b = true → exec (.registerWrite m b) s = .next { e with denied := min (e.denied + 1) (2 ^ 16 - 1) }) ∧
        (beatWrites b = false →
          exec (.registerWrite m b) s = .next (({ e with denied := min (e.denied + 1) (2 ^ 16 - 1) } : State).regReply b 0)))) ∧
  (∀ (s : State) (v : Word) (n : Nat),
      s.writeReg .alertEn v = { s with trb := { s.trb with alertEn := v } } ∧
      s.writeReg .mtuCtl v = { s with bal := { s.bal with ctl := v } } ∧
      s.writeReg .clkCtl v = { s with clk := { s.clk with ctl := v } } ∧
      s.writeReg .tmCtl v = { s with tm := { s.tm with ctl := v, rewritten := true } } ∧
      s.writeReg .rsCtl v = { s with rs := { s.rs with ctl := v } } ∧
      (∃ t : State, s.writeReg (.bkup n) v = t ∧ t.readReg (.bkup n) = v ∧ (∀ k, k ≠ n → t.readReg (.bkup k) = s.readReg (.bkup k)) ∧
        t.parts = s.parts ∧ t.net = s.net) ∧
      (s.ringOn = false → ∃ t : State, s.writeReg (.route n) v = t ∧ t.readReg (.route n) = v ∧
        (∀ k, k ≠ n → t.readReg (.route k) = s.readReg (.route k)) ∧ t.net.cfg = s.net.cfg ∧ t.blocked = s.blocked) ∧
      (s.ringOn = true → s.writeReg (.route n) v = { s with blocked := min (s.blocked + 1) (2 ^ 16 - 1) }) ∧
      (s.modeStaged = false → s.writeReg .role v = { s with roleShadow := bf v 63 61 }) ∧
      (s.modeStaged = true → s.writeReg .role v = { s with blocked := min (s.blocked + 1) (2 ^ 16 - 1) }) ∧
      (s.ringOn = true → ∃ t : State, s.writeReg .ringCfg v = t ∧ bit t.net.cfg 63 = bit v 63 ∧ bf t.net.cfg 62 0 = bf s.net.cfg 62 0 ∧
        t.blocked = if bf v 62 0 = bf s.net.cfg 62 0 then s.blocked else min (s.blocked + 1) (2 ^ 16 - 1)))

/-- The row window. A write of OP 1 or 2 to the idle window's PT_SSM_CTL starts the access: the window is busy, and the
handle that it names, in the table in force, is checked at once. While busy a write is counted and does nothing. At its end
an access that passed leaves the eight words of the row in the window (READ), or stores the window's words to the row and no
other byte of memory (WRITE). One whose handle is not valid (1), not the partition's (2), too short (3) or read-only (4, with
HANDLE_CONFLICT) ends with that status and touches no memory. -/
def Obligations.RowWindow : Prop :=
  ∀ (m : Moment) (s : State) (b : RegBeat) (p : Nat),
    let e := s.elapse m
    let q := e.part p
    let h := bf q.win.addr 63 54
    let off := bf q.win.addr 53 32
    let d (op : Nat) : Handle := Handle.ofWord (sget 0#64 (e.winTable op).1 h)
    let found (op : Nat) : Nat :=
      if (d op).valid = false then 1
      else if (d op).gate = true ∨ ((d op).scope ≠ p ∧ ¬ (op = 1 ∧ (d op).allp = true)) then 2
      else if (d op).bound ≤ off then 3
      else if op = 2 ∧ ((d op).writable = false ∨ (e.winTable op).2.contains h = true) then 4 else 0
    let begun (op : Nat) : Partn :=
      { q with win := { q.win with op := op, busy := true, row := (d op).base + off, found := found op } }
    let ended (st : Nat) (ws : List Word) : Partn := { q with win := { q.win with op := 0, busy := false, status := st, data := ws } }
    (e.hrpOn = true → beatMisformed b = false → beatDenied b = false → beatWrites b = true → windowOf (beatAddr b) = some p →
      offsetOf (beatAddr b) = 0x018 → stray b.w1 [(63, 58)] = false →
      (q.win.busy = false → bf b.w1 63 62 = 1 → exec (.ptSsmRead m b) s = .next (e.setPart p (begun 1))) ∧
      (q.win.busy = false → bf b.w1 63 62 = 2 → exec (.ptSsmWrite m b) s = .next (e.setPart p (begun 2))) ∧
      (q.win.busy = true → bf b.w1 63 62 = 1 → exec (.ptSsmRead m b) s = .next { e with blocked := min (e.blocked + 1) (2 ^ 16 - 1) }) ∧
      (q.win.busy = true → bf b.w1 63 62 = 2 → exec (.ptSsmWrite m b) s = .next { e with blocked := min (e.blocked + 1) (2 ^ 16 - 1) })) ∧
    (q.win.busy = true →
      (q.win.found = 0 → q.win.op = 1 →
        exec (.ptSsmAccessDone m p ⟨.clean, 0⟩) s = .next (e.setPart p (ended 0 (e.mem.row q.win.row)))) ∧
      (q.win.found = 0 → q.win.op = 2 →
        ∃ t : State, exec (.ptSsmAccessDone m p ⟨.clean, 0⟩) s = .next t ∧ t.part p = ended 0 q.win.data ∧
          t.mem = e.mem.putRow q.win.row q.win.data ∧
          (∀ a, a < 64 * q.win.row ∨ 64 * q.win.row + 64 ≤ a → t.mem.byte a = e.mem.byte a) ∧ t.entries = e.entries ∧ t.hdl = e.hdl) ∧
      (q.win.found = 4 →
        ∃ t : State, exec (.ptSsmAccessDone m p ⟨.clean, 0⟩) s = .next t ∧ (t.part p).win = (ended 4 q.win.data).win ∧
          t.mem = e.mem ∧ bit t.trb.sticky 12 = true) ∧
      (∀ st, q.win.found = st → st ≠ 0 → st ≠ 4 →
        exec (.ptSsmAccessDone m p ⟨.clean, 0⟩) s = .next (e.setPart p (ended st q.win.data))))

/-- Memory. A row written reads back, and no byte outside it changes; a word written reads back. -/
def Obligations.MemoryReadAfterWrite : Prop :=
  ∀ (mem : Memory) (row : Nat) (ws : List Word),
    Memory.wf mem = true → ws.length = 8 →
    (mem.putRow row ws).row row = ws ∧ Memory.wf (mem.putRow row ws) = true ∧
    (∀ a, a < 64 * row ∨ 64 * row + 64 ≤ a → (mem.putRow row ws).byte a = mem.byte a) ∧
    (∀ r, r ≠ row → (mem.putRow row ws).row r = mem.row r)

/-- PT_INT of a partition's window: ones written to the pending field clear the bits that are pending and were not raised
again, the enable field takes the value written, and other partitions keep their interrupts. An event's interrupt: pending
with its instant when it was not, else marked as raised again; it leaves as a message on virtual channel 2, the message that
fell due first before the others. -/
def Obligations.Interrupts : Prop :=
  (∀ (m : Moment) (s : State) (b : RegBeat) (p : Nat),
      let e := s.elapse m
      let q := e.part p
      e.hrpOn = true → beatMisformed b = false → beatDenied b = false → beatWrites b = true → windowOf (beatAddr b) = some p →
      offsetOf (beatAddr b) = 0x008 → stray b.w1 [(63, 40)] = false → q.intEn < 2 ^ 8 →
      ∃ t : State, exec (.ptIntWrite m b) s = .next t ∧ (t.part p).intEn = bf b.w1 63 56 ∧
        (∀ v, v < 8 → (t.part p).intPend.testBit v =
          (q.intPend.testBit v && (!(bf b.w1 55 48).testBit v || q.intAgain.testBit v))) ∧
        (∀ k, k ≠ p → t.part k = e.part k) ∧ (t.part p).ring = q.ring ∧ (t.part p).win = q.win ∧ t.trb = e.trb ∧ t.mem = e.mem) ∧
  (∀ (m : Moment) (s : State) (p v : Nat) (x : IntMsg) (rest : List IntMsg),
      let q := s.part p
      let e := s.elapse m
      ((s.raise p v).part p).intPend.testBit v = true ∧
      (q.intPend.testBit v = false → q.intEn.testBit v = true → (s.raise p v).ints = queueInt s.ints p v s.now) ∧
      (q.intPend.testBit v = false → q.intEn.testBit v = false → (s.raise p v).ints = s.ints) ∧
      (q.intPend.testBit v = true → (s.raise p v).ints = s.ints ∧ ((s.raise p v).part p).intAgain.testBit v = true) ∧
      (∀ k, k ≠ p → (s.raise p v).part k = s.part k) ∧
      (e.ints = x :: rest → e.hrpUp = true →
        exec (.interruptMessageSend m) s = .next (({ e with ints := rest } : State).putOut 2 x.part false [pack [(x.part, 63, 58), (x.vector, 57, 55), (x.time, 38, 0)]])))

/-- The sideband port. A WRITE frame of whole words adds them to the packet in progress until it is whole; a READ frame
shifts out the reply words that wait, then idle words, and each leaves once its 72 bits are out; STATUS removes nothing.
Every frame shows the status byte first. A frame of a wrong length discards the packet in progress. The test port. Each row
selects its register; EXTEST and INSTR act as BYPASS while the lock is set, that is while any partition but 0 is enabled or
an image is in force; TRST_N puts BYPASS in force. Nothing else of the gate changes. -/
def Obligations.SerialPorts : Prop :=
  (∀ (m : Moment) (s : State) (f : SmpFrame),
      let e := s.elapse m
      let n := f.control.toNat % 64 + 1
      e.smpOn = true →
      (f.control.toNat / 64 = 1 →
        exec (.smpRead m f) s = .next { e with cmi :=
          { e.cmi with
            smpStat := e.smpStatus
            smpOut := (e.cmi.smpReply ++ List.replicate n idleWord).take n
            smpReply := e.cmi.smpReply.drop (min n ((f.bits - 8) / 72)) } }) ∧
      (f.control.toNat / 64 = 2 →
        exec (.smpStatus m f) s = .next { e with cmi := { e.cmi with smpStat := e.smpStatus, smpOut := List.replicate n (~~~ 0#64) } }) ∧
      (f.control.toNat / 64 = 0 → f.bits = 8 + 72 * n → n = 1 → (∃ w, f.words = [w] ∧ f.find = ⟨.clean, 0⟩ ∧
          e.cmi.smpWords ≠ [] ∧ e.cmi.smpWords.length < hLen (wat e.cmi.smpWords 0)) →
        exec (.smpWrite m f) s = .next { e with cmi :=
          { e.cmi with smpStat := e.smpStatus, smpOut := [~~~ 0#64], smpWords := e.cmi.smpWords ++ f.words } }) ∧
      (f.control.toNat / 64 = 0 → f.bits ≠ 8 + 72 * n →
        ∃ t : State, exec (.smpWrite m f) s = .next t ∧ t.cmi.smpWords = [] ∧ t.cmi.smpRing = e.cmi.smpRing ∧ t.cmi.smpReply = e.cmi.smpReply ∧
          bit t.trb.sticky 8 = true)) ∧
  (∀ (m : Moment) (s : State) (bits : List Bool) (ir : BitVec 8),
      let e := s.elapse m
      let locked := (List.range 63).any (fun p => (e.part (p + 1)).enabled) || e.img.force.isSome
      exec (.extest m) s = .next { e with tap := { e.tap with ir := 0x00#8, bypassed := locked } } ∧
      exec (.instr m) s = .next { e with tap := { e.tap with ir := 0x20#8, bypassed := locked } } ∧
      exec (.samplePreload m bits) s = .next { e with tap := { ir := 0x01#8, bypassed := false, cells := bits } } ∧
      (ir ≠ 0x00#8 → ir ≠ 0x01#8 → ir ≠ 0x20#8 → exec (.bypass m ir) s = .next { e with tap := { e.tap with ir := ir, bypassed := true } }) ∧
      exec (.trstN m) s = .next { e with tap := { ir := 0xFF#8, bypassed := true, cells := [] } })

/-- A TOKEN word on HRP that passes the session check commits at LENGTH, is held for its release, and reaches the home here,
where it is queued for screening, or over the ring. A DRAFT word in order is stored, its chain marked, and the chain goes on
once its packet is whole; one out of order is dropped with the rest of its packet. A word that fails the check is dropped and
counted: STATE_DROPS of its partition on a gate without the edge role or for a session that takes none, STALE_DROPS for a
slot that is FREE or of another generation. A word of an unreadable code sets CMD_UE. -/
def Obligations.StreamIntake : Prop :=
  ∀ (m : Moment) (s : State) (p : Nat) (w : Word) (i : Img) (pol : Policy),
    let e := s.elapse m
    let slot := wSlot w
    let n := e.entry slot
    let x := e.edgeAt slot
    let l := e.ledger n.tenant
    let takes (o : State) : Prop :=
      (wKind w = 1 → exec (.tokenIntake m p w .clean ⟨.clean, 0⟩) s = .next o) ∧
      (wKind w = 2 → bf w 32 18 = 0 → exec (.draftIntake m p w .clean) s = .next o)
    let c := wChain w
    let z := (e.stateDrop n.part).finishPacket slot
    e.hrpOn = true →
    (e.hasEdge = false → takes (e.stateDrop p)) ∧
    (e.hasEdge = true → n.state = .free ∨ n.gen ≠ wGen w → takes (e.staleDrop p)) ∧
    (e.hasEdge = true → n.state ≠ .free → n.gen = wGen w → n.part ≠ p → takes (e.stateDrop p)) ∧
    (e.hasEdge = true → n.state ≠ .free → n.gen = wGen w → n.part = p →
      (n.edge && x.turnOpen && x.stopPending.isNone && (n.state == .live || n.state == .speculating)) = false → takes (e.stateDrop p)) ∧
    (e.hrpCheck p w = none ↔ e.hasEdge = true ∧ n.gen = wGen w ∧ n.part = p ∧ n.edge = true ∧ x.turnOpen = true ∧ x.stopPending = none ∧
      (n.state = .live ∨ n.state = .speculating)) ∧
    (wKind w = 1 → e.hrpCheck p w = none →
      (wPos w ≠ n.length ∨ maxLength ≤ n.length → exec (.tokenIntake m p w .clean ⟨.clean, 0⟩) s = .next (e.stateDrop n.part)) ∧
      (wPos w = n.length → n.length < maxLength → x.mark = false →
        (e.vocab ≤ wTok w → exec (.tokenIntake m p w .clean ⟨.clean, 0⟩) s = .next (e.stateDrop n.part)) ∧
        (wTok w < e.vocab → l.outLevel ≠ 0 →
          ∃ t : State, exec (.tokenIntake m p w .clean ⟨.clean, 0⟩) s =
              .next (if n.home then t.homeToken slot n.length (wTok w) n.outCount e.imgGen e.fine
                     else t.sendTo typItem n.homeGate 3 (w :: List.replicate 6 idleWord)) ∧
            t.entry slot = { n with length := n.length + 1, outCount := n.outCount + 1, outTotal := satAdd 32 n.outTotal 1,
                                    outRing := (t.entry slot).outRing } ∧
            (∃ k : HeldTok, (t.edgeAt slot).held = x.held ++ [k] ∧ k.pos = n.length ∧ k.tok = wTok w ∧ k.stamp = e.fine) ∧
            t.ledger n.tenant = { l with outLevel := l.outLevel - 1 } ∧ t.bal = { e.bal with d := e.bal.d + 1 } ∧ t.home = e.home))) ∧
    (∀ (pos tok ob gen stamp : Nat), (e.homeAt slot).work = [] → ∃ k : Work, ((e.homeToken slot pos tok ob gen stamp).homeAt slot).work = [k] ∧
      k.kind = .commit ∧ k.tok = tok ∧ k.pos = pos ∧ k.stamp = stamp ∧ k.image = gen ∧ k.stops = n.stopSet) ∧
    (wKind w = 2 → bf w 32 18 ≠ 0 → exec (.draftIntake m p w .clean) s = .next (e.stateDrop p)) ∧
    (wKind w = 2 → bf w 32 18 = 0 → e.hrpCheck p w = none → x.discardOut = false →
      (x.dropping = true → exec (.draftIntake m p w .clean) s = .next ((e.stateDrop n.part).setEdge slot { x with dropping := !wEnd w })) ∧
      (x.dropping = false → e.sessionPolicy slot e.imgGen = some (i, pol) →
        (e.draftOk w pol = true → n.outRing.pkts = 0 → n.outRing.held < 128 →
          ∃ t : State, exec (.draftIntake m p w .clean) s = .next (if wEnd w then t.forwardChain slot c else t) ∧
            (t.edgeAt slot).drafts = (if x.mark then x.drafts else []) ++
              [{ chain := c, depth := wDepth w, tok := wTok w, stamp := e.fine, verdict := none }] ∧
            (t.edgeAt slot).mark = true ∧ (t.edgeAt slot).nextDraft = (if wEnd w then none else some (c, wDepth w + 1)) ∧
            (t.entry slot).chains = n.chains ||| 2 ^ c ∧ (t.entry slot).length = n.length ∧ t.ledgers = e.ledgers ∧ t.home = e.home) ∧
        (e.draftOk w pol = false → exec (.draftIntake m p w .clean) s =
          .next (z.setEdge slot { z.edgeAt slot with nextDraft := none, dropping := !wEnd w })))) ∧
    (x.nextDraft = none → z = e.stateDrop n.part) ∧
    exec (.tokenIntake m p w .bad ⟨.clean, 0⟩) s = .next (e.trouble .cmdUe 1 Obj.none (some p) 0) ∧
    exec (.draftIntake m p w .bad) s = .next (e.trouble .cmdUe 1 Obj.none (some p) 0)

/-- A commit. LENGTH, OUT_COUNT and OUT_TOTAL go up by one; the token is held with its stamp, and with the latest of its
stamp plus D_out, the release before it and T_in as its release instant; one token leaves the output bucket, and vector 1 is
raised when the bucket is empty. -/
def Obligations.CommitHoldsToken : Prop :=
  ∀ (s : State) (slot tok stamp : Nat) (c : Option Nat) (v : Option Word),
    let e := s.entry slot
    let x := s.edgeAt slot
    let l := s.ledger e.tenant
    let rel := max (max (stamp + fineOf e.dOut) x.lastRelease) (x.tIn.getD 0)
    ∃ t : State, s.commitTok slot tok stamp c v = t ∧
      t.entry slot = { e with length := e.length + 1, outCount := e.outCount + 1, outTotal := satAdd 32 e.outTotal 1 } ∧
      (t.edgeAt slot).lastRelease = rel ∧
      (∃ k : HeldTok, (t.edgeAt slot).held = x.held ++ [k] ∧ k.pos = e.length ∧ k.tok = tok ∧ k.stamp = stamp ∧ k.release = rel ∧
        k.image = s.imgGen ∧ k.stop = e.commitStop tok ∧ k.chain = c ∧ k.verdict = v) ∧
      t.ledger e.tenant = { l with outLevel := l.outLevel - 1 } ∧
      t.bal = { s.bal with d := s.bal.d + 1 } ∧ (∀ n, n ≠ slot → t.entry n = s.entry n) ∧ t.mem = s.mem ∧ t.fsp = s.fsp

/-- Release. Once T_in has acted and the first held token's instant has come, a token whose verdict neither stops nor blocks
leaves in one TOKEN word, to the release queue of the session's lane and to the client stream; no sooner. A verdict that
stops ends the stream behind the token with its reason, one that blocks cancels the session before it, and without a verdict
at its instant the stream ends WITHHELD before the token, with a late verdict counted. T_in. At its instant the ingress
verdict takes effect once: a BLOCK cancels the session, a STOP ends the stream at the prompt's end with the verdict's reason,
any other lets the turn go on; without a verdict the stream ends WITHHELD there, with a late verdict counted. Before T_in
nothing happens. -/
def Obligations.ReleaseInstants : Prop :=
  (∀ (m : Moment) (s : State) (slot : Nat) (k : HeldTok) (w : Word),
      let e := s.elapse m
      let x := e.edgeAt slot
      let n := e.entry slot
      let v := verdictOf w
      let q := e.part n.part
      e.inReset = false → x.turnOpen = true → x.tInDone = true → x.held = [k] → x.stopPending = none →
      (k.release ≤ e.fine → k.verdict = some w → v.action ≤ 2 → k.stop = .none → (e.slotAt slot).slipped = [] →
        (e.relqAt n.outLane).words.length < 512 → n.outLane < 4 → e.fsp.relq.length = 4 →
        ∃ t : State, exec (.tokenRelease m slot .clean) s = .next t ∧
          (t.relqAt n.outLane).words = (e.relqAt n.outLane).words ++ [tokenWord slot n.gen k.pos (e.maskOf k v)] ∧
          (∃ o : HrpOut, t.hrpOut = e.hrpOut ++ [o] ∧ o.vc = 0 ∧ o.reg = false ∧ o.part = n.part ∧
            o.words = tokenWord slot n.gen k.pos (e.maskOf k v) :: (if v.copied then [w] else [])) ∧
          t.edgeAt slot = { x with held := [] } ∧ (t.entry slot).length = n.length ∧ (t.entry slot).state = n.state ∧ t.ledgers = e.ledgers) ∧
      (e.fine < k.release → exec (.tokenRelease m slot .clean) s = .next e) ∧
      (k.release ≤ e.fine → k.verdict = some w → v.action = 3 → k.stop = .none → Stop.ofCode (v.reason % 16) ≠ .none → n.state = .live → (e.slotAt slot).slipped = [] →
        (e.relqAt n.outLane).words.length < 512 → n.outLane < 4 → e.fsp.relq.length = 4 → k.pos + 1 = n.length →
        ∃ u t : State, exec (.tokenRelease m slot .clean) s = .next t ∧
          (u.relqAt n.outLane).words = (e.relqAt n.outLane).words ++ [tokenWord slot n.gen k.pos (e.maskOf k v)] ∧
          (∃ o : HrpOut, u.hrpOut = e.hrpOut ++ [o] ∧ o.vc = 0 ∧ o.part = n.part ∧
            o.words = [tokenWord slot n.gen k.pos (e.maskOf k v), w]) ∧ (∀ j, j ≠ slot → u.entry j = e.entry j) ∧
          StreamEnds u t slot (Stop.ofCode (v.reason % 16)) n.length n.outCount) ∧
      (k.release ≤ e.fine → k.verdict = some w → v.action = 4 → n.state = .live →
        ∃ t : State, exec (.tokenRelease m slot .clean) s = .next t ∧ Cancels e t slot .policy) ∧
      (k.release ≤ e.fine → k.verdict = none → n.state = .live →
        ∃ t : State, exec (.tokenRelease m slot .clean) s = .next t ∧
          StreamEnds e t slot .withheld k.pos (n.outCount - (n.length - k.pos)) ∧
          (t.part n.part).lateVerdicts = satAdd 32 q.lateVerdicts 1 ∧ bit t.trb.sticky 14 = true)) ∧
  (∀ (m : Moment) (s : State) (slot t : Nat) (w : Word),
      let e := s.elapse m
      let x := e.edgeAt slot
      let n := e.entry slot
      let v := verdictOf w
      e.inReset = false → x.tIn = some t → x.turnOpen = true → x.tInDone = false → x.stopPending = none →
      (e.fine < t → exec (.tIn m slot) s = .next e) ∧
      (t ≤ e.fine → x.ingress = some w → v.action ≤ 2 →
        ∃ u : State, exec (.tIn m slot) s = .next u ∧ u.edgeAt slot = { x with tInDone := true } ∧
          u.entry slot = { n with nanSeen := n.nanSeen || v.nan, degraded := n.degraded || v.degraded, poolFull := n.poolFull || v.poolFull,
                                  flagCount := if v.action = 1 then satAdd 16 n.flagCount 1 else n.flagCount,
                                  maskCount := if v.action = 2 then satAdd 16 n.maskCount 1 else n.maskCount } ∧
          (∀ k, k ≠ slot → u.entry k = e.entry k) ∧ u.ledgers = e.ledgers ∧ u.fsp = e.fsp) ∧
      (t ≤ e.fine → x.ingress = some w → v.action = 3 → n.state = .live →
        ∃ u : State, exec (.tIn m slot) s = .next u ∧ StreamEnds e u slot (Stop.ofCode (v.reason % 16)) x.promptEnd 0) ∧
      (t ≤ e.fine → x.ingress = some w → v.action = 4 → n.state = .live →
        ∃ u : State, exec (.tIn m slot) s = .next u ∧ Cancels e u slot .policy) ∧
      (t ≤ e.fine → x.ingress = none → n.state = .live →
        ∃ u : State, exec (.tIn m slot) s = .next u ∧ StreamEnds e u slot .withheld x.promptEnd 0 ∧
          (u.part n.part).lateVerdicts = satAdd 32 (e.part n.part).lateVerdicts 1))

/-- An ingress slot that starts when its lane's period calls for it: its number is the next, and an item that no operation
owes enters the lane's FIFO with it; an item that a wintering owes, whole and in order, does so too and counts for its
operation. A slot start off the period is a contract violation and ends the job. The other lanes stay. An egress slot that
starts on its period. With nothing staged, up to eight words of the lane's release queue leave, oldest first, the rest of the
item idle; on a gate with no role the item is idle and the queue stays. A staged item whose tag is the slot leaves, and with
the last of its spring the session is LIVE. Where a spring's item is missing the slot slips and the spring is abandoned, its
session WINTERED. A slot start off the period ends the job. -/
def Obligations.LaneSlots : Prop :=
  (∀ (m : Moment) (s : State) (l gap stalls : Nat) (it : Item),
      let e := s.elapse m
      let v := e.inLaneAt l
      e.inReset = false → e.contract ≠ none → l < 4 → e.fsp.ingress.length = 4 → v.period ≠ 0 → v.awaiting = none →
      (gap = v.period → v.fifo.items.length < 512 → v.dead = [] →
        (e.opAt false l v.nextSlot = none →
          ∃ t : State, exec (.fspIngressSlot m l gap it 0 .clean stalls) s = .next t ∧
            t.inLaneAt l = { v with nextSlot := (v.nextSlot + 1) % 2 ^ 48, fifo := v.fifo.push v.nextSlot it } ∧
            (∀ k, k ≠ l → t.inLaneAt k = e.inLaneAt k) ∧ t.fsp.egress = e.fsp.egress ∧ t.fsp.relq = e.fsp.relq ∧ t.tier = e.tier ∧
            t.entries = e.entries ∧ t.mem = e.mem) ∧
        (∀ o, e.opAt false l v.nextSlot = some o → e.goodItem o (v.nextSlot - o.first) it = true →
          ∃ t : State, exec (.fspIngressSlot m l gap it 0 .clean stalls) s = .next t ∧
            t.inLaneAt l = { v with nextSlot := (v.nextSlot + 1) % 2 ^ 48, fifo := v.fifo.push v.nextSlot it } ∧
            t.tier = { e.tier with ops := setFirst (· == o) (fun _ => { o with done := v.nextSlot + 1 - o.first }) e.tier.ops } ∧
            t.entries = e.entries ∧ t.mem = e.mem)) ∧
      (gap ≠ v.period →
        ∃ t : State, exec (.fspIngressSlot m l gap it 0 .clean stalls) s = .next t ∧ JobEnds e t .contract)) ∧
  (∀ (m : Moment) (s : State) (l stalls slot : Nat) (it : Item),
      let e := s.elapse m
      let v := e.outLaneAt l
      let n := v.nextSlot
      let ws := (e.relqAt l).words
      e.inReset = false → e.contract ≠ none → l < 4 → e.fsp.egress.length = 4 → e.fsp.relq.length = 4 → e.fspOut.length = 4 →
      v.period ≠ 0 → v.awaiting = none → v.dead = [] →
      (∀ o ∈ e.tier.ops, o.total ≠ 0) →
      (v.fifo.items = [] → e.opAt true l n = none → (e.relqAt l).waiting = [] →
        ∃ t : State, exec (.fspEgressSlot m l v.period .clean stalls) s = .next t ∧
          t.fspOut = e.fspOut.set l (some (if e.role = 0 then idleItem else itemOf idleWord (ws.take 8))) ∧
          (t.relqAt l).words = (if e.role = 0 then ws else ws.drop 8) ∧ (t.outLaneAt l).nextSlot = (n + 1) % 2 ^ 48 ∧ t.entries = e.entries ∧
          t.mem = e.mem ∧ t.fsp.ingress = e.fsp.ingress) ∧
      (∀ o, v.fifo.items = [] → e.opAt true l n = some o → o.kind = .spring slot →
        ∃ t : State, exec (.fspEgressSlot m l v.period .clean stalls) s = .next t ∧ t.fspOut = e.fspOut.set l (some idleItem) ∧
          (t.entry slot).state = .wintered ∧ (t.entry slot).pendOp = 0 ∧ (∀ k, k ≠ slot → t.entry k = e.entry k) ∧ o ∉ t.tier.ops ∧
          (t.outLaneAt l).slip = satAdd 32 v.slip 1 ∧ (t.outLaneAt l).nextSlot = (n + 1) % 2 ^ 48) ∧
      (∀ o, v.fifo.items = [(n, it)] → e.opAt true l n = some o → o.kind = .spring slot →
        (n + 1 - o.first ≠ o.total →
          ∃ t : State, exec (.fspEgressSlot m l v.period .clean stalls) s = .next t ∧ t.fspOut = e.fspOut.set l (some it) ∧
            (t.outLaneAt l).fifo.items = [] ∧ (t.outLaneAt l).nextSlot = (n + 1) % 2 ^ 48 ∧
            t.tier = { e.tier with ops := setFirst (· == o) (fun _ => { o with done := n + 1 - o.first }) e.tier.ops } ∧ t.entries = e.entries) ∧
        (n + 1 - o.first = o.total → e.tier.ops = [o] →
          ∃ t : State, exec (.fspEgressSlot m l v.period .clean stalls) s = .next t ∧ t.fspOut = e.fspOut.set l (some it) ∧
            (t.entry slot).state = .live ∧ (t.entry slot).pendOp = 0 ∧ (∀ k, k ≠ slot → t.entry k = e.entry k) ∧ t.tier.ops = [])) ∧
      (∀ gap, gap ≠ v.period →
        ∃ t : State, exec (.fspEgressSlot m l gap .clean stalls) s = .next t ∧ JobEnds e t .contract))

/-- The parking engine. A read for the spring that stages next stages items into the lane's FIFO with the slots they are owed
to; a page that cannot be read cancels the spring's session with ECC, and a device that fails is lost too, or ends the job
where it is device 0. A write whose last page is stored makes the session WINTERED with its pages, and its held reply ends;
one that meets a bad page cancels the session with ECC. -/
def Obligations.ParkingEngine : Prop :=
  ∀ (m : Moment) (s : State) (l count slot x : Nat) (o : TierOp),
    let e := s.elapse m
    let n := e.entry slot
    let k := e.stageCount o count
    let b := e.outLaneAt l
    e.inReset = false → n.state ≠ .free → n.state ≠ .cancelled →
    (e.stager l = some o → o.kind = .spring slot → e.pageOf o.slices o.staged = some (x, true) →
      (∀ j y, j < k → e.pageOf o.slices (o.staged + j) ≠ some (y, false)) →
      (o.lane = l → l < 4 → e.fsp.egress.length = 4 →
        ∃ t : State, exec (.pkeTierRead m l count .clean) s = .next t ∧
          (t.outLaneAt l).fifo.items.map (·.1) = b.fifo.items.map (·.1) ++ (List.range k).map (fun j => o.first + (o.staged + j)) ∧
          t.tier.ops = setFirst (· == o) (fun _ => { o with staged := o.staged + k }) e.tier.ops ∧ t.tier.pages = e.tier.pages ∧
          t.entries = e.entries ∧ t.mem = e.mem ∧ t.fsp.ingress = e.fsp.ingress) ∧
      (∃ t : State, exec (.pkeTierRead m l count .bad) s = .next t ∧ (t.entry slot).state = .cancelled ∧
        (t.entry slot).endReason = Cancel.ecc.code) ∧
      (extDev x = 0 → ∃ t : State, exec (.pkeTierRead m l count .portFail) s = .next t ∧ JobEnds e t .port) ∧
      (extDev x ≠ 0 → extDev x < e.tier.devs.length →
        ∃ t : State, exec (.pkeTierRead m l count .portFail) s = .next t ∧ (t.dev (extDev x)).trained = false ∧
          (t.dev (extDev x)).present = false ∧ (t.entry slot).state = .cancelled)) ∧
    (∀ a c, e.tier.ops = [o] → o.kind = .winter slot a c → o.lane = l → o.done = o.total → (e.inLaneAt l).fifo.items = [] →
      (∃ t : State, exec (.winteringDone m l .clean) s = .next t ∧ (t.entry slot).state = .wintered ∧ (t.entry slot).parked = true ∧
        (t.entry slot).plHead = o.head ∧ (t.entry slot).plPages = pagesOf o.total ∧ (t.entry slot).expiry = e.expiryTick o.ttl ∧
        (t.entry slot).pendOp = 0 ∧ (∀ j, j ≠ slot → t.entry j = e.entry j) ∧ t.tier.ops = []) ∧
      (∃ t : State, exec (.winteringDone m l .bad) s = .next t ∧ Cancels e t slot .ecc))

/-- A session's queue notices: a work item that has waited its QWAIT is reported once with QUEUE_OVER; a session told of a
slip gets one SLIPPED word on the client stream for each lane whose FIFO has room again, and the mark of that lane goes;
while none has, or HRP takes no words, nothing happens. The events that end the job, each when it is due: they raise
JOB_FAULT with their cause and assert the job-reach reset; before it is due each does nothing. The watchdog of the command
interpreter records the packet and asserts warm reach. A link in use that loses its lock is down, and ends the job where a
valid route uses it. -/
def Obligations.NoticesAndFaults : Prop :=
  (∀ (m : Moment) (s : State) (slot : Nat),
      let e := s.elapse m
      let h := e.homeAt slot
      let x := e.slotAt slot
      let n := e.entry slot
      let ready := x.slipped.filter (fun l => !(e.inLaneAt l).fifo.full)
      (e.inReset = false → h.work.any (e.overdue slot) = true →
        ∃ t : State, exec (.queueOver m slot) s = .next t ∧
          t.homeAt slot = { h with work := setFirst (e.overdue slot) (fun w => { w with overDue := true }) h.work } ∧
          (∀ k, k ≠ slot → t.homeAt k = e.homeAt k) ∧ bit t.trb.sticky 15 = true ∧ t.entries = e.entries ∧ t.mem = e.mem) ∧
      (h.work.any (e.overdue slot) = false → exec (.queueOver m slot) s = .next e) ∧
      (e.hrpOn = true → ready ≠ [] →
        ∃ t : State, exec (.slippedNotice m slot) s = .next t ∧ (∀ l ∈ (t.slotAt slot).slipped, l ∈ x.slipped ∧ (e.inLaneAt l).fifo.full = true) ∧
          t.hrpOut = e.hrpOut ++ [{ vc := 0, reg := false, part := n.part, words := ready.map (fun _ => slippedWord slot n.gen) }] ∧
          t.entries = e.entries ∧ t.fsp = e.fsp) ∧
      (ready = [] ∨ e.hrpOn = false → exec (.slippedNotice m slot) s = .next e)) ∧
  (∀ (m : Moment) (s : State) (l t : Nat) (eg : Bool) (k : Pkt) (smp : Bool) (g : Staged),
      let e := s.elapse m
      let used := e.links.contains l && e.net.routes.any (fun r => bit r.2 63 && bf r.2 62 61 == l)
      e.inReset = false →
      (∃ u : State, exec (.hrpErr m) s = .next u ∧ JobEnds e u .port) ∧
      (e.lanesInUse = true → ∃ u : State, exec (.fspClockLoss m) s = .next u ∧ JobEnds e u .port) ∧
      (e.lanesInUse = false → exec (.fspClockLoss m) s = .next e) ∧
      (e.contract ≠ none → e.startDue eg l = some t →
        (t < e.fine → ∃ u : State, exec (.slotStartMissed m eg l) s = .next u ∧ JobEnds e u .contract) ∧
        (e.fine ≤ t → exec (.slotStartMissed m eg l) s = .next e)) ∧
      (e.com.staged = some g → g.acked = true → g.go = false →
        (g.target ≤ e.tick + 1 → ∃ u : State, exec (.commitUndecided m) s = .next u ∧ JobEnds e u .commitUndecided) ∧
        (e.tick + 1 < g.target → exec (.commitUndecided m) s = .next e)) ∧
      (e.clk.floorAt = some t →
        (t + 4096 ≤ e.tm.refclk → ∃ u : State, exec (.throttleFloorViolation m) s = .next u ∧ JobEnds e u .contract) ∧
        (e.tm.refclk < t + 4096 → exec (.throttleFloorViolation m) s = .next e)) ∧
      (e.nextPkt = some (smp, k) → bit e.rs.ctl 61 = true →
        (k.arrived + 2 ^ 18 ≤ e.tm.refclk → ∃ u : State, exec (.cmiWatchdog m) s = .next u ∧ u.rs.reach = some .warm ∧
          u.rs.until' = e.tm.refclk + 1 ∧ u.rs.sources.testBit srcWatchdog = true ∧ bit u.trb.sticky 19 = true ∧ (e.tier.ops = [] → u.mem = e.mem) ∧
          u.role = e.role ∧ u.tm.t48 = e.tm.t48) ∧
        (e.tm.refclk < k.arrived + 2 ^ 18 → exec (.cmiWatchdog m) s = .next e)) ∧
      (used = true → ∃ u : State, exec (.linkLockLoss m l) s = .next u ∧ JobEnds e u .port) ∧
      (used = false → exec (.linkLockLoss m l) s = .next { e with net := { e.net with linkUp := if e.net.linkUp.testBit l then e.net.linkUp - 2 ^ l else e.net.linkUp } }))

/-- Screening. The next item of a region in stamp order, where it has no SPLIT instruction, goes to the started cluster with
the fewest items waiting, among those not removed; with none started or waking, the first usable one is woken for it; with no
item to assign, or no usable cluster, nothing happens. A cluster that ends an item screens it and counts a run: a committed
token's verdict stands with the token at the edge, BLOCK cancels the session; an access outside its handle ends the job, and
a pattern state out of range cancels the session. The verdict of an item's decision: a committed token's and a draft's go to
the edge, a prompt token's joins the verdict of its turn, and a BLOCK on anything but a draft cancels the session at once.
The oldest filled block of a session is hashed into its hash record, with MATCHED when the directory holds it, and a FEED
reply that waited for its last block goes out. -/
def Obligations.Screening : Prop :=
  (∀ (m : Moment) (s : State) (r c slot : Nat) (w : Work) (rest : List Work) (i : Img) (p : Policy),
      let e := s.elapse m
      let h := e.homeAt slot
      let usable := (e.clustersOf r).filter (fun k => !(e.cluster k).removed)
      let still (l : List Work) : List Work := l.map (fun w => { w with running := false })
      let given (d : Nat) : List Work := setFirst (· == w) (fun w => { w with cluster := some d, split := [] }) h.work
      e.inReset = false →
      (e.firstOf (e.candidates r) = none ∨ usable = [] → exec (.screeningItemStart m r .clean) s = .next e) ∧
      (e.firstOf (e.candidates r) = some (slot, w) → e.splitPlaces slot w = [] →
        ((∃ d ∈ usable, (e.cluster d).power = .started) →
          ∃ (d : Nat) (t : State), exec (.screeningItemStart m r .clean) s = .next t ∧ d ∈ usable ∧ (e.cluster d).power = .started ∧
            (∀ k ∈ usable, (e.cluster k).power = .started → e.waitingOn d ≤ e.waitingOn k) ∧
            still (t.homeAt slot).work = still (given d) ∧ t.entries = e.entries ∧ t.edge = e.edge ∧ t.mem = e.mem) ∧
        (∀ d ds, usable = d :: ds → (∀ k ∈ usable, (e.cluster k).power = .stopped) → e.regionHeld (d / 2) = false → d < e.clk.clusters.length →
          ∃ t : State, exec (.screeningItemStart m r .clean) s = .next t ∧ t.cluster d = { e.cluster d with power := .waking, wakeAt := e.fine } ∧
            (t.homeAt slot).work = given d ∧ t.entries = e.entries ∧ t.mem = e.mem)) ∧
      (e.completing c = some slot → h.work = w :: rest → e.sessionPolicy slot w.image = some (i, p) →
        (∀ o k, e.screen slot w i p = .ok o → w.kind = .commit → rest = [] → (e.entry slot).edge = true → (e.edgeAt slot).held = [k] → k.pos = w.pos →
          w.pos < 2 ^ 20 → k.verdict = none → (e.edgeAt slot).tIn = none → c < e.clk.clusters.length →
          let d := decideVerdict o.hits o.stop
          let v : Verdict := { slot := slot, gen := (e.entry slot).gen, pos := w.pos, form := 0, chain := 0, action := d.1, nan := o.nan,
                               degraded := o.res.refused, poolFull := w.poolFull, reason := d.2 }
          d.1 ≠ 4 → ∃ t : State, exec (.screeningItemDone m c .clean) s = .next t ∧ t.mem = o.mem ∧
            (t.edgeAt slot).held = [{ k with verdict := some v.word }] ∧ (t.homeAt slot).work = [] ∧ t.entries = e.entries ∧
            (t.cluster c).runs = satAdd 32 (e.cluster c).runs 1) ∧
        (∀ o, e.screen slot w i p = .ok o → w.kind = .commit ∨ w.kind = .prompt ∨ w.kind = .turn → (decideVerdict o.hits o.stop).1 = 4 →
          (e.entry slot).state ≠ .free → (e.entry slot).state ≠ .cancelled →
          ∃ t : State, exec (.screeningItemDone m c .clean) s = .next t ∧ Cancels e t slot .policy) ∧
        (∀ hd off, e.screen slot w i p = .error (.bound hd off) →
          ∃ t : State, exec (.screeningItemDone m c .clean) s = .next t ∧ JobEnds e t .handleBound) ∧
        (∀ sl st, e.screen slot w i p = .error (.patRange sl st) → (e.entry slot).state ≠ .free → (e.entry slot).state ≠ .cancelled →
          ∃ t : State, exec (.screeningItemDone m c .clean) s = .next t ∧ Cancels e t slot .ecc)) ∧
      (e.completing c = none → exec (.screeningItemDone m c .clean) s = .next e)) ∧
  (∀ (m : Moment) (s : State) (slot : Nat) (w : Work) (o : Screened) (b : List Nat) (bs : List (List Nat)),
      let d := decideVerdict o.hits o.stop
      let v (form chain : Nat) : Verdict :=
        { slot := slot, gen := (s.entry slot).gen, pos := w.pos, form := form, chain := chain, action := d.1, nan := o.nan,
          degraded := o.res.refused, poolFull := w.poolFull, reason := d.2 }
      (w.kind = .commit → d.1 ≠ 4 → s.concludeItem slot w o = s.sendVerdict slot (v 0 0)) ∧
      (∀ c k, w.kind = .draft c k → s.concludeItem slot w o = s.sendVerdict slot (v 1 c)) ∧
      (w.kind = .commit ∨ w.kind = .prompt ∨ w.kind = .turn → d.1 = 4 → (s.entry slot).state ≠ .free → (s.entry slot).state ≠ .cancelled →
        Cancels s (s.concludeItem slot w o) slot .policy) ∧
      (w.kind = .prompt → d.1 ≠ 4 → ∃ t : State, s.concludeItem slot w o = t ∧ t.entries = s.entries ∧ t.edge = s.edge ∧ t.net = s.net ∧
        t.mem = s.mem ∧ (t.homeAt slot).work = (s.homeAt slot).work ∧
        (t.homeAt slot).turnOf w.turn = ((s.homeAt slot).turnOf w.turn).map (·.join o)) ∧
      (let e := s.elapse m
       let h := e.homeAt slot
       let r := e.hashRec slot
       let c := blockHash (e.ledger (e.entry slot).tenant).salt r.chain b
       let hit := r.run && e.dirHit slot r c b
       e.inReset = false →
       (h.hashQ = [] → exec (.blockHashDone m slot) s = .next e) ∧
       (h.hashQ = b :: bs → ∃ t : State, exec (.blockHashDone m slot) s = .next t ∧ (t.homeAt slot).hashQ = bs ∧ (t.homeAt slot).work = h.work ∧
         t.mem = (e.setHashRec slot { r with chain := c, prev := r.chain, next := r.next + 1, run := hit,
                                             matched := if hit then r.next + 1 else r.matched }).mem ∧
         (∀ f, h.feeds = [f] → f.blocks = 1 → f.issuer.src = none → (t.homeAt slot).feeds = [] ∧ (t.entry slot).pendOp = 0))))

/-- Cluster power. WAKE_ACK within 2,000 ns starts a waking cluster, which is usable from then on, and counts a wake; none by
then, or a rail check that fails, stops and removes it, with WAKE_FAIL; a started cluster that has held no item for STOP_IDLE
microseconds stops. Before its time each row does nothing. -/
def Obligations.ClusterPower : Prop :=
  ∀ (m : Moment) (s : State) (c : Nat) (rail : Bool),
    let e := s.elapse m
    let k := e.cluster c
    let stopAt := k.idleSince + fineOf (1000 * bf e.clk.ctlIn 52 47)
    e.inReset = false → c < e.clk.clusters.length →
    (k.power = .waking → e.fine ≤ k.wakeAt + fineOf 2000 →
      ∃ t : State, exec (.clusterWakeDone m c) s = .next t ∧ (t.cluster c).power = .started ∧ (t.cluster c).removed = false ∧
        (t.cluster c).wakes = satAdd 16 k.wakes 1 ∧ t.bal = { e.bal with due := e.bal.due || k.removed } ∧
        (∀ d, d ≠ c → (t.cluster d).power = (e.cluster d).power ∧ (t.cluster d).removed = (e.cluster d).removed ∧
          (t.cluster d).wakes = (e.cluster d).wakes) ∧ t.entries = e.entries ∧ t.mem = e.mem) ∧
    (k.power ≠ .waking → exec (.clusterWakeDone m c) s = .next e ∧ exec (.clusterWakeTimeout m c rail) s = .next e) ∧
    (k.power = .waking → rail = true ∨ k.wakeAt + fineOf 2000 ≤ e.fine →
      ∃ t : State, exec (.clusterWakeTimeout m c rail) s = .next t ∧ t.cluster c = { k with power := .stopped, removed := true } ∧
        bit t.trb.sticky 16 = true ∧ t.bal = { e.bal with due := true } ∧ t.entries = e.entries ∧ t.mem = e.mem) ∧
    (k.power = .waking → rail = false → e.fine < k.wakeAt + fineOf 2000 → exec (.clusterWakeTimeout m c rail) s = .next e) ∧
    (k.power = .started → e.holdsWork c = false → stopAt ≤ e.fine →
      ∃ t : State, exec (.clusterIdleStop m c) s = .next t ∧ t = e.setCluster c { k with power := .stopped } ∧ (t.cluster c).power = .stopped) ∧
    (e.holdsWork c = true ∨ k.power ≠ .started ∨ e.fine < stopAt → exec (.clusterIdleStop m c) s = .next e)

/-- gclk. A step comes no sooner than 64 REFCLK cycles after the last and is at most 100 MHz; under THROTTLE it goes toward
f_floor; toward f_run a raise into a higher BAND drives PWR_REQ first and waits PWR_SETTLE, when the raise is made. THROTTLE
drops a raise that waits. SLEEP stops gclk once its conditions have held for 1 ms, and ends at f_run. A measurement of the
ageing monitor that is due. One that would plan gclk below what is asked for, while AGE_OFS is below 30, raises AGE_OFS by
two, drives PWR_REQ and waits PWR_SETTLE to measure again, with no record written; any other writes its record, takes the new
plan and asks for the capacities. -/
def Obligations.ClocksAndAgeing : Prop :=
  (∀ (m : Moment) (s : State) (at' n : Nat) (cause : WakeCause) (codes : List Nat) (spine : Nat),
      let e := s.elapse m
      let k := e.clk
      let up := min e.fRun (k.mhz + 100)
      (k.throttle = false → ∃ t : State, exec (.throttleAssert m) s = .next t ∧ t.clk.throttle = true ∧ t.clk.raise = none ∧
        t.clk.throttleAt = e.tm.refclk ∧ t.clk.mhz = k.mhz ∧ t.tm = e.tm ∧ t.entries = e.entries ∧ t.mem = e.mem) ∧
      (k.throttle = true → exec (.throttleAssert m) s = .next e) ∧
      (k.throttle = true → ∃ t : State, exec (.throttleDeassert m) s = .next t ∧ t.clk.throttle = false ∧ t.clk.throttleAt = e.tm.refclk ∧
        t.clk.mhz = k.mhz ∧ t.tm = e.tm ∧ t.entries = e.entries) ∧
      (k.throttle = false → exec (.throttleDeassert m) s = .next e) ∧
      (k.mhz ≠ 0 → k.sleeping = false → k.raise = none → (k.stepAt = 0 ∨ k.stepAt + 64 ≤ e.tm.refclk) →
        (k.throttle = true → e.fFloor < k.mhz → ∃ t : State, exec (.gclkStep m) s = .next t ∧ t.clk.mhz = max e.fFloor (k.mhz - 100) ∧
          t.clk.stepAt = e.tm.refclk ∧ t.clk.pwrReq = pwrWord (max e.fFloor (k.mhz - 100)) k.ageOfs ∧ t.clk.raise = none ∧ t.entries = e.entries) ∧
        (k.throttle = false → k.throttleAt + 64 ≤ e.tm.refclk → k.mhz < e.fRun →
          (bandOf up ≤ bandOf k.mhz → ∃ t : State, exec (.gclkStep m) s = .next t ∧ t.clk.mhz = up ∧ t.clk.stepAt = e.tm.refclk ∧ t.clk.raise = none) ∧
          (bandOf k.mhz < bandOf up → ∃ t : State, exec (.gclkStep m) s = .next t ∧ t.clk.mhz = k.mhz ∧ t.clk.pwrReq = pwrWord up k.ageOfs ∧
            t.clk.raise = some (e.fine + e.settleTime, up)))) ∧
      (k.stepAt ≠ 0 → e.tm.refclk < k.stepAt + 64 → exec (.gclkStep m) s = .next e) ∧
      (e.inReset = false → k.raise = some (at', n) → k.remeasure = none →
        (at' ≤ e.fine → ∃ t : State, exec (.pwrSettleDone m codes spine) s = .next t ∧ t.clk.mhz = n ∧ t.clk.raise = none ∧ t.clk.stepAt = e.tm.refclk ∧
          t.clk.pwrReq = k.pwrReq) ∧
        (e.fine < at' → exec (.pwrSettleDone m codes spine) s = .next e)) ∧
      (k.quietSince = some at' → k.sleeping = false →
        (at' + fineOf 1000000 ≤ e.fine → ∃ t : State, exec (.sleepEntry m) s = .next t ∧ t.clk.sleeping = true ∧ t.clk.mhz = 0 ∧ t.tm = e.tm ∧
          t.entries = e.entries ∧ t.mem = e.mem) ∧
        (e.fine < at' + fineOf 1000000 → exec (.sleepEntry m) s = .next e)) ∧
      (k.sleeping = true → ∃ t : State, exec (.sleepExit m cause) s = .next t ∧ t.clk.sleeping = false ∧ t.clk.mhz = e.fRun ∧ t.entries = e.entries) ∧
      (k.sleeping = false → exec (.sleepExit m cause) s = .next e)) ∧
  (∀ (m : Moment) (s : State) (codes : List Nat) (spine cause : Nat),
      let e := s.elapse m
      let k := e.clk
      let mine := (List.range e.grade.clusters).map (fun c => codes.getD c 0 % 256) ++ [spine % 256]
      let fmin := planFmin (e.grade.clusters + 1) (e.agHistory ++ [mine])
      let plan := planOf fmin
      let low := plan < min e.runMhz 1600 ∧ k.ageOfs < 30
      e.inReset = false → k.remeasure = none →
      (e.measureDue = none → exec (.ageingMeasurement m codes spine) s = .next e) ∧
      (e.measureDue = some cause → k.sleeping = false →
        (low → ∃ t : State, exec (.ageingMeasurement m codes spine) s = .next t ∧ t.clk.ageOfs = k.ageOfs + 2 ∧ t.clk.plan = k.plan ∧
          t.clk.pwrReq = pwrWord k.mhz (k.ageOfs + 2) ∧ t.clk.remeasure = some (e.fine + e.settleTime, cause) ∧ t.trb = e.trb) ∧
        (¬ low → ∃ t : State, exec (.ageingMeasurement m codes spine) s = .next t ∧ t.clk.plan = plan ∧ t.clk.agTick = e.tick ∧
          t.clk.agSpine = spine % 256 ∧ t.clk.ageOfs = k.ageOfs ∧ t.bal = { e.bal with due := true } ∧ t.clk.mhz = k.mhz ∧ t.entries = e.entries)))

/-- The time unit's events. An edge of PPS_IN is held for the end of its REFCLK cycle; there, on a gate disciplined by it,
and at a TREF measurement, the servo runs: an error beyond 1,000 ns steps gate time by its negative, unless the source is
TREF, and any other corrects c and slews half of it away. Eight intervals without a measurement clear LOCKED, with
TIME_UNLOCK. The twin of a master that has been silent for more than three ticks takes over. -/
def Obligations.TimeEvents : Prop :=
  ∀ (m : Moment) (s u : State) (drift : Int) (f : Nat),
    let e := s.elapse m
    let err : Int := (f : Int) - (nearestMultiple f (fineOf 1000000000) : Int)
    (∃ t : State, exec (.ppsEdge m) s = .next t ∧ t.tm = { e.tm with ppsEdge := some (e.tm.quarters : Int) } ∧ t.entries = e.entries ∧ t.mem = e.mem) ∧
    (u.tmMode ≠ 0 → u.deposed = false → u.tmSource = 1 →
      let t := u.measurePps f
      t.tm.lastMeas = u.tm.refclk ∧ t.tm.ppsEdge = none ∧ t.entries = u.entries ∧
      (err.natAbs ≤ 1000 * 2 ^ 16 → t.tm.c = clampC (u.tm.c - nearest (err * 500) (2 ^ 16)) ∧
        t.tm.slewLeft = -err * 2 ^ 31 ∧ t.tm.t48 = u.tm.t48 ∧ t.tm.lockRun = (if err.natAbs ≤ 4 * 2 ^ 16 then min (u.tm.lockRun + 1) 255 else 0)) ∧
      (1000 * 2 ^ 16 < err.natAbs → t.tm.c = u.tm.c ∧ t.tm.slewLeft = 0 ∧ t.tm.locked = false ∧
        t.tm.t48 = (((u.tm.t48 : Int) + -err * 2 ^ 32) % (2 ^ 112 : Int)).toNat)) ∧
    (e.tmMode ≠ 0 → e.tmSource = 0 → exec (.trefMeasurement m drift) s = .next e) ∧
    (e.tmMode ≠ 0 → e.deposed = false → e.tmSource = 2 → ∃ t : State, exec (.trefMeasurement m drift) s = .next t ∧
      t.tm.c = clampC (e.tm.c - nearest (drift * 500) (2 ^ 16)) ∧ t.tm.slewLeft = e.tm.slewLeft ∧ t.tm.t48 = e.tm.t48 ∧ t.entries = e.entries) ∧
    (e.disciplined = true → e.tm.locked = true →
      (e.tm.lastMeas + 8 * e.interval ≤ e.tm.refclk → ∃ t : State, exec (.measurementLoss m) s = .next t ∧ t.tm.locked = false ∧ t.tm.lockRun = 0 ∧
        t.tm.t48 = e.tm.t48 ∧ t.tm.c = e.tm.c ∧ bit t.trb.sticky 20 = true) ∧
      (e.tm.refclk < e.tm.lastMeas + 8 * e.interval → exec (.measurementLoss m) s = .next e)) ∧
    (e.inReset = false → e.net.paired = true → e.tmMode = 0 → e.tm.serving = false → e.tm.masterTwin = some e.gate → e.net.twin = e.tm.master →
      (3 < e.tm.silent → ∃ t : State, exec (.twinTakeover m) s = .next t ∧ t.tm.serving = true ∧ t.tm.holdover = true ∧ t.tm.master = e.gate ∧
        t.tm.t48 = e.tm.t48 ∧ t.isCoord = true ∧ t.entries = e.entries ∧ t.net = e.net) ∧
      (e.tm.silent ≤ 3 → exec (.twinTakeover m) s = .next e))

/-- The tier's devices and the walks over the stores. A device other than 0 that holds nothing and was not used for 1 ms goes
to self-refresh; the tier step of a start ends with what each device answered, and the training values of a training that
passed stand in the retained store; a write-back of a row ends when it is made. Each walk goes on by one place when it is
due, and a check that finds nothing changes no store. -/
def Obligations.StoreWalks : Prop :=
  ∀ (m : Moment) (s : State) (d row : Nat) (r : StartRun) (res : List DevTrain),
    let e := s.elapse m
    (e.inReset = false → d ≠ 0 → (e.dev d).trained = true → (e.dev d).selfref = false → (∀ x ∈ e.tier.alloc, extDev x ≠ d) →
      (e.dev d).lastUse + 1000000 ≤ e.now →
      ∃ t : State, exec (.tierDeviceSelfref m d) s = .next t ∧ t.tier.pages = e.tier.pages ∧ t.entries = e.entries ∧
        (2048 ≤ (e.setDev d { e.dev d with selfref := true }).awakeFree → (t.dev d).selfref = true ∧ ∀ k, k ≠ d → t.dev k = e.dev k)) ∧
    ((e.dev d).selfref = true ∨ d = 0 → exec (.tierDeviceSelfref m d) s = .next e) ∧
    (e.rs.start = some r → e.tier.training = true → e.inReset = false → r.held = false → e.tier.devs.length = 20 → res.length = e.grade.tierDevices →
      e.grade.tierDevices ≤ 20 →
      ∃ t : State, exec (.tierTrainingDone m res) s = .next t ∧ t.tier.training = false ∧ t.rs.start = some { r with training := false } ∧
        (∀ k x, res[k]? = some x → t.dev k = { (if r.reach = .cold then trainCold x else trainWarm (e.dev k) x) with lastUse := e.now }) ∧
        (∀ k x i, res[k]? = some x → x.gib ≠ 0 → (t.dev k).trained = true → i < 96 → t.retained (0x1000 + 96 * k + i) = x.values.getD i 0) ∧
        (∀ a, a < 0x1000 → t.retained a = e.retained a) ∧ t.trb.sticky = e.trb.sticky ∧ t.tier.pages = e.tier.pages ∧ t.entries = e.entries) ∧
    (∃ t : State, exec (.ssmWriteBack m row) s = .next t ∧ (∀ k, k ∈ t.img.writeBacks ↔ k ∈ e.img.writeBacks ∧ k ≠ row) ∧ t.mem = e.mem ∧
      t.entries = e.entries ∧ t.trb = e.trb) ∧
    (e.scrubRuns = true → ∃ t : State, exec (.ssmScrub m []) s = .next t ∧ t.mem = e.mem ∧ t.img.writeBacks = e.img.writeBacks ∧ t.trb = e.trb ∧
      (∀ q, q < e.grade.regions → q < e.img.scrubFrom.length → q < e.img.scrubRow.length → e.img.scrubFrom.getD q 0 ≤ e.tm.refclk →
        t.img.scrubFrom.getD q 0 = e.img.scrubFrom.getD q 0 + 256 ∧ t.img.scrubRow.getD q 0 = (e.img.scrubRow.getD q 0 + 1) % 32768)) ∧
    (∃ t : State, exec (.tableScrub m .clean .clean .clean) s = .next t ∧ t.entries = e.entries ∧ t.ledgers = e.ledgers ∧ t.trb.retained = e.trb.retained ∧
      (e.inReset = false → e.trb.tabDue ≤ e.tm.refclk → t.trb.tabNext = (e.trb.tabNext + 1) % 131072 ∧ t.trb.tabDue = e.trb.tabDue + 64) ∧
      (e.trb.retDue ≤ e.tm.refclk → t.trb.retNext = (e.trb.retNext + 1) % 8192 ∧ t.trb.retDue = e.trb.retDue + 64))

/-- A solstice tick. The time of the command passes; with no tick number due, nothing else; with one due, the work of that
number is done at its instant, once, and recorded. The registers a tick samples come into force. In a reset the orders of the
tick do not run: the table, the ledgers, the partitions, memory and the image stay. -/
def Obligations.SolsticeTicks : Prop :=
  ∀ (m : Moment) (s u : State) (edges : Option Nat) (pll : Bool),
    let d := s.diffArea3
    let k := s.tm.lastTick + 1
    let x := d.tickMoment k m.edges m.quarters
    let q : State := ({ u with tm := { u.tm with lastTick := u.tm.lastTick + 1 }, net := { u.net with area3Sent := [] } } : State).sampleTick
    (q.tm.ctlIn = u.tm.ctl ∧ q.clk.ctlIn = u.clk.ctl ∧ q.bal.ctlIn = u.bal.ctl ∧ q.tm.t48 = u.tm.t48 ∧
      q.entries = u.entries ∧ q.ledgers = u.ledgers ∧ q.mem = u.mem ∧ q.parts = u.parts) ∧
    (s.tm.ppsEdge = none → m.finds = [] →
      ((d.pass m.edges m.quarters).tick ≤ s.tm.lastTick →
        ∃ t : State, exec (.solsticeTick m edges pll) s = .next t ∧ t = (d.pass m.edges m.quarters).between ∧ t.tm.lastTick = s.tm.lastTick ∧
          t.tm.ctlIn = s.tm.ctlIn ∧ t.ledgers = s.ledgers) ∧
      ((d.pass m.edges m.quarters).tick = k →
        ∃ t : State, exec (.solsticeTick m edges pll) s = .next t ∧ t.tm.lastTick = k ∧
          t = ((((d.pass x.1 x.2).between.tickWork k edges pll).pass (m.edges - x.1) m.quarters).between) ∧
          (s.inReset = true → t.tm.ctlIn = s.tm.ctl ∧ t.entries = s.entries ∧ t.ledgers = s.ledgers ∧ t.parts = s.parts ∧ t.mem = s.mem ∧
            t.img = s.img ∧ t.role = s.role)))

/-- The ledgers at a tick: each valid tenant's parked bucket is charged the pages it holds and held at the least 48-bit
number, then every bucket is refilled by its grant up to its burst, the input and output buckets by their shares of the
capacity and the parked bucket by its rate. -/
def Obligations.LedgerTicks : Prop :=
  ∀ (s : State) (t : Nat),
    let l := s.ledger t
    let level : Int := if l.held = 0 then l.pkLevel else max (-(2 ^ 47)) (l.pkLevel - (l.held : Int))
    let gi := s.grants s.bal.capIn (·.inRate)
    let go := s.grants s.bal.capOut (·.outRate)
    swf Ledger.zero s.ledgers = true → l.valid = true →
    s.ledgerTick.ledger t =
      { l with inLevel := min (l.inLevel + grantOf gi t l.inRate) l.inBurst, outLevel := min (l.outLevel + grantOf go t l.outRate) l.outBurst,
               pkLevel := min (level + (l.pkRate : Int)) (l.pkBurst : Int) }

/-- The shares of a capacity: the grants together never exceed it, no tenant is granted more than its rate, every tenant is
granted something or nothing once, and when the rates fit within the capacity every tenant is granted its rate. -/
def Obligations.GrantsShareCapacity : Prop :=
  ∀ (cap : Nat) (set : List Claim),
    let gs := shares (set.length + 1) cap set
    (gs.map (·.2)).sum ≤ cap ∧
    (∀ g ∈ gs, ∃ c ∈ set, c.tenant = g.1 ∧ g.2 ≤ c.rate) ∧
    (gs.map (·.1)).Perm (set.map (·.tenant)) ∧
    ((set.map (·.rate)).sum ≤ cap → (∀ c ∈ set, 1 ≤ c.weight) → ∀ g ∈ gs, ∃ c ∈ set, c.tenant = g.1 ∧ g.2 = c.rate)

/-- What falls due by time. A deadline reached closes a session at its home: with no turn open at the edge it becomes FREE,
with tokens held it is CLOSING until the last of them with reason DEADLINE, and with another gate its edge it is CLOSING; an
expired parked copy cancels a WINTERED session; a CANCELLED entry becomes FREE at its second tick, an open without an answer
after a tick, with its reply TIMEOUT; a forwarded command without an answer ends in TIMEOUT after a tick. Before its time
each row does nothing. -/
def Obligations.TimedEvents : Prop :=
  ∀ (m : Moment) (s : State) (slot : Nat) (f : Fwd),
    let e := s.elapse m
    let n := e.entry slot
    let x := e.edgeAt slot
    let freed : Entry := { Entry.zero with gen := n.gen }
    e.inReset = false →
    (n.home = true → n.deadlinePast e.tick = true →
      (n.edge = true → n.state = .live ∨ n.state = .wintered → n.pendOp = 0 → x.turnOpen = false → (e.homeAt slot).feeds = [] →
        (e.homeAt slot).closeFor = none →
        ∃ t : State, exec (.deadlineReached m slot) s = .next t ∧ t.entry slot = freed ∧
          (t.ledger n.tenant).sessions = (e.ledger n.tenant).sessions - 1 ∧ (∀ k, k ≠ slot → t.entry k = e.entry k) ∧ t.hrpOut = e.hrpOut) ∧
      (∀ k at', n.edge = true → n.state = .live → x.turnOpen = true → x.held.getLast? = some k → x.tIn = some at' →
        ∃ t : State, exec (.deadlineReached m slot) s = .next t ∧ (t.entry slot).state = .closing ∧
          (t.edgeAt slot).stopPending = some (.deadline, k.release) ∧ (t.edgeAt slot).held = x.held ∧ (∀ k, k ≠ slot → t.entry k = e.entry k)) ∧
      (n.edge = false → n.state = .live ∨ n.state = .wintered → (e.homeAt slot).streamEnded = false →
        ∃ t : State, exec (.deadlineReached m slot) s = .next t ∧ (t.entry slot).state = .closing ∧ (∀ k, k ≠ slot → t.entry k = e.entry k))) ∧
    (n.deadlinePast e.tick = false → exec (.deadlineReached m slot) s = .next e) ∧
    (e.entries = [(slot, n)] → e.tier.dir = [] → n.parked = true → n.state = .wintered → n.expiry ≤ e.tick →
      ∃ t : State, exec (.ttlExpiry m) s = .next t ∧ Cancels e t slot .ttl) ∧
    ((∀ k, (e.entry k).parked = true → e.tick < (e.entry k).expiry) → (∀ d ∈ e.tier.dir, e.tick < d.2.expiry) →
      swf Entry.zero e.entries = true → exec (.ttlExpiry m) s = .next e) ∧
    (n.state = .cancelled → (e.slotAt slot).cancelTick + 2 ≤ e.tick →
      ∃ t : State, exec (.cancelledFree m slot) s = .next t ∧ t.entry slot = freed ∧ (∀ k, k ≠ slot → t.entry k = e.entry k) ∧
        t.ledger n.tenant = { e.ledger n.tenant with sessions := (e.ledger n.tenant).sessions - 1 } ∧ t.mem = e.mem) ∧
    (n.state ≠ .cancelled ∨ e.tick < (e.slotAt slot).cancelTick + 2 → exec (.cancelledFree m slot) s = .next e) ∧
    (n.state = .opening → (e.slotAt slot).openedAt + 2 ^ 20 ≤ e.tick * 2 ^ 20 → n.pendOp ≠ 0 → n.pendIssuer.src = none → n.pendIssuer.smp = true →
      ∃ t : State, exec (.openTimeout m slot) s = .next t ∧ t.entry slot = freed ∧ (∀ k, k ≠ slot → t.entry k = e.entry k) ∧
        (t.ledger n.tenant).sessions = (e.ledger n.tenant).sessions - 1 ∧ t.cmi.smpReply = e.cmi.smpReply ++ replyWords n.pendIssuer .timeout []) ∧
    (n.state ≠ .opening ∨ e.tick * 2 ^ 20 < (e.slotAt slot).openedAt + 2 ^ 20 → exec (.openTimeout m slot) s = .next e) ∧
    (e.cmi.fwds = [f] →
      (f.slot = none → f.since + 2 ^ 20 ≤ e.tick * 2 ^ 20 →
        exec (.forwardTimeout m) s = .next (({ e with cmi := { e.cmi with fwds := [] } } : State).answer f.issuer .timeout)) ∧
      (f.slot = some slot → n.pendIssuer = f.issuer → n.pendOp ≠ 0 → f.issuer.op ≠ 0x11 → f.since + 2 ^ 20 ≤ e.tick * 2 ^ 20 →
        ∃ t : State, exec (.forwardTimeout m) s = .next (t.answer f.issuer .timeout) ∧ t.cmi.fwds = [] ∧ (t.entry slot).pendOp = 0 ∧
          (∀ k, k ≠ slot → t.entry k = e.entry k)) ∧
      (e.tick * 2 ^ 20 < f.since + 2 ^ 20 → exec (.forwardTimeout m) s = .next e)) ∧
    (e.cmi.fwds = [] → exec (.forwardTimeout m) s = .next e)

/-- A commit. From two ticks before its target the coordinator decides: with every member's acknowledgement, and for modes a
MODE_COMMIT, to go, and GO leaves at the end of that cycle; without one it aborts with TIMEOUT, or BUSY. A commit that holds
GO takes effect at its target: the image, the variant or the roles change, nothing is staged any more, the epoch goes up by
one and the window closes; the clauses are of a tick at which no lane changes its period. The image before is dropped when
nothing of it waits any more. -/
def Obligations.CommitProgress : Prop :=
  ∀ (m : Moment) (s : State) (c : Coord) (g : Staged) (i : Img) (ct : Contract),
    let e := s.elapse m
    let sent := e.cycleOver (c.target - 2)
    let lanesKept (ct : Contract) (v : Nat) : Prop := ∀ (eg : Bool) (l : Nat), l < 4 → (e.laneAt eg l).period = ct.periodOf v (b2n eg) l
    let aborted (t : State) : Prop := t.com.coord = none ∧ t.com.staged = none ∧ t.com.epoch = e.com.epoch ∧ t.entries = e.entries ∧ t.role = e.role ∧
      t.bal.active = e.bal.active ∧ (c.kind = .image → e.img.load = .committing → t.img.load = .loaded)
    let ended (t : State) : Prop := t.com.staged = none ∧ t.com.coord = none ∧ t.com.epoch = (e.com.epoch + 1) % 256 ∧ t.com.window = false
    e.inReset = false →
    (e.com.coord = some c → c.decided = false → c.target ≤ e.tick + 2 →
      (e.allAcked c = true → c.kind ≠ .mode ∨ c.modeCommit = true →
        ∃ t : State, exec (.commitGoDecision m) s = .next t ∧ t.com.coord = some { c with decided := true, going := !sent } ∧
          t.com.staged = (if sent then e.com.staged.map (fun x => { x with go := true }) else e.com.staged) ∧ t.img = e.img ∧ t.bal = e.bal ∧
          t.entries = e.entries) ∧
      (e.allAcked c = false → ∃ t : State, exec (.commitGoDecision m) s = .next (t.answerAll (c.replies ++ c.prepare.toList) .timeout) ∧ aborted t) ∧
      (e.allAcked c = true → c.kind = .mode → c.modeCommit = false →
        ∃ t : State, exec (.commitGoDecision m) s = .next (t.answerAll (c.replies ++ c.prepare.toList) .busy) ∧ aborted t)) ∧
    (e.com.coord = some c → c.going = false → e.tick + 2 < c.target → exec (.commitGoDecision m) s = .next e) ∧
    (e.com.coord = none → exec (.commitGoDecision m) s = .next e) ∧
    (e.com.staged = some g → g.go = true → g.target ≤ e.tick → e.net.heldMsgs = [] →
      (g.kind = .mode → e.contract = some ct → lanesKept ct e.bal.active → e.com.coord = none →
        ∃ t : State, exec (.commitTakeEffect m) s = .next t ∧ t.role = g.roles ∧ ended t ∧ t.img = e.img ∧ t.bal = e.bal ∧ t.entries = e.entries) ∧
      (g.kind = .variant → e.contract = some ct → lanesKept ct g.variant →
        ∃ t : State, exec (.commitTakeEffect m) s = .next t ∧ t.bal.active = g.variant ∧ t.bal.switches = satAdd 32 e.bal.switches 1 ∧
          t.bal.out = 0 ∧ t.bal.since = 0 ∧ t.bal.pinned = (e.bal.pinned || (match e.com.coord with | some c => c.pin.isSome | none => false)) ∧
          ended t ∧ t.img = e.img ∧ t.entries = e.entries ∧ t.role = e.role) ∧
      (g.kind = .image → e.img.loading = some i → lanesKept i.contract i.meter.initial →
        ∃ t : State, exec (.commitTakeEffect m) s = .next t ∧ t.img.force = some i ∧ t.img.retiring = e.img.force ∧ t.img.load = .idle ∧
          t.img.loading = none ∧ t.hdl = i.hdl ∧ t.bal.active = i.meter.initial ∧ t.bal.pinned = false ∧ t.rs.attempts = 0 ∧ ended t ∧ t.role = e.role)) ∧
    (e.com.staged = some g → g.go = false ∨ e.tick < g.target → e.net.heldMsgs = [] → exec (.commitTakeEffect m) s = .next e) ∧
    (e.com.staged = none → e.net.heldMsgs = [] → exec (.commitTakeEffect m) s = .next e) ∧
    (e.img.retiring = some i →
      (e.imageUsed i.gen = false → e.img.retireFrom ≤ e.tick → exec (.imageRetire m) s = .next { e with img := { e.img with retiring := none } }) ∧
      (e.imageUsed i.gen = true ∨ e.tick < e.img.retireFrom → exec (.imageRetire m) s = .next e)) ∧
    (e.img.retiring = none → exec (.imageRetire m) s = .next e)

/-- A message delivered to this gate does what its type says, in the state in which it was heard. The session messages. ITEM
brings the home a committed token, and the edge a verdict that then stands with its item; OPEN makes an entry LIVE under the
next generation at the home, with OPEN_REPLY; an OPEN_REPLY that is OK makes the waiting entry LIVE under the home's
generation; STEP marks the edge's step and a checkpoint makes the session SPECULATING; RESOLVE commits its count at the home
and ends the step; STREAM_END sets LENGTH and STOP_REASON there; CLOSE frees the entry of a gate that is not the home, or
ends its stream after its held tokens; CANCEL cancels the session; a forwarded STOP_SET takes effect at the home; a CMD_REPLY
ends the held command it answers. -/
def Obligations.MessagesAct : Prop :=
  (∀ (m : Moment) (s : State) (x : RxMsg),
      let e := s.elapse m
      let h := e.heard x
      let e2 := s.moved (.time m x)
      (Delivered e 0x01 x → exec (.item m x) s = .next (h.actItem x.item)) ∧
      (Delivered e 0x02 x → exec (.openMsg m x) s = .next (h.actOpen x.item)) ∧
      (Delivered e 0x03 x → exec (.openReply m x) s = .next (h.actOpenReply x.item)) ∧
      (Delivered e 0x04 x → exec (.stepMsg m x) s = .next (h.actStep x.item)) ∧
      (Delivered e 0x05 x → exec (.resolve m x) s = .next (h.actResolve x.item)) ∧
      (Delivered e 0x06 x → exec (.streamEnd m x) s = .next (h.actStreamEnd x.item)) ∧
      (Delivered e 0x07 x → exec (.close m x) s = .next (h.actClose x.item)) ∧
      (Delivered e 0x08 x → exec (.cancel m x) s = .next (h.actCancel x.item)) ∧
      (Delivered e 0x09 x → exec (.cmd m x) s = .next (h.actCmd x.item)) ∧
      (Delivered e 0x0A x → exec (.cmdReply m x) s = .next (h.actCmdReply x.item)) ∧
      (Delivered e2 0x10 x → exec (.time m x) s = .next ((e2.heard x).takeTime (msgWords x.item))) ∧
      (Delivered e 0x11 x → exec (.balance m x) s = .next (h.actBalance x.item)) ∧
      (Delivered e 0x18 x → exec (.prepare m x) s = .next (h.actPrepare x.item)) ∧
      (Delivered e 0x19 x → exec (.ack m x) s = .next (h.actAck x.item)) ∧
      (Delivered e 0x1A x → exec (.go m x) s = .next (h.actGo x.item)) ∧
      (Delivered e 0x1B x → exec (.abort m x) s = .next (h.actAbort x.item)) ∧
      (Delivered e 0x20 x → exec (.mirror m x) s = .next (h.actMirror x.item)) ∧
      (Delivered e 0x21 x → exec (.pair m x) s = .next (h.actPair x.item)) ∧
      (Delivered e 0x28 x → exec (.restart m x) s = .next (h.actRestart x.item))) ∧
  (∀ (m : Moment) (s : State) (x : RxMsg) (k : HeldTok) (f : Fwd) (at' : Nat),
      let e := s.elapse m
      let h := e.heard x
      let it := x.item
      let hd := hdlOf it.w1
      let slot := hdlSlot hd
      let n := h.entry slot
      let freed : Entry := { Entry.zero with gen := n.gen }
      let idle6 : Prop := it.w2 = idleWord ∧ it.w3 = idleWord ∧ it.w4 = idleWord ∧ it.w5 = idleWord ∧ it.w6 = idleWord ∧ it.w7 = idleWord
      let whole : Prop := rSeq it.w0 = 0 ∧ rEnd it.w0 = true
      (Delivered e 0x01 x → idle6 →
        (wKind it.w1 = 1 → let j := wSlot it.w1; let n := h.entry j
          n.gen = wGen it.w1 → n.home = true → n.state = .live → wPos it.w1 = n.length → (h.homeAt j).work = [] →
          ∃ (t : State) (w : Work), exec (.item m x) s = .next t ∧ (t.entry j).length = n.length + 1 ∧ (t.entry j).outCount = n.outCount + 1 ∧
            (t.homeAt j).work = [w] ∧ w.kind = .commit ∧ w.tok = wTok it.w1 ∧ w.pos = n.length ∧ w.stamp = h.fine ∧
            w.image = h.msgImage (rEpoch it.w0) ∧ ∀ i, i ≠ j → t.entry i = h.entry i) ∧
        (wKind it.w1 = 4 → let j := wSlot it.w1; let n := h.entry j; let v := verdictOf it.w1
          v.form = 0 → v.action ≤ 4 → n.gen = wGen it.w1 → n.edge = true → n.state = .live → (h.edgeAt j).held = [k] → k.pos = v.pos →
          k.verdict = none → (h.edgeAt j).tIn = none →
          ∃ t : State, exec (.item m x) s = .next t ∧ (t.edgeAt j).held = [{ k with verdict := some it.w1 }] ∧ t.entries = h.entries ∧ t.mem = h.mem)) ∧
      (Delivered e 0x02 x → let q := OpenReq.ofWords (msgWords it); let src := rSrc it.w0
        let p := if h.ageing then h.recompute [(q.policy, q.hops)] else h
        (∀ st, p.homeOpenCheck q src = some st → exec (.openMsg m x) s =
          .next (p.sendTo typOpenReply src 3 (openReplyPayload (handleOf h.gate q.slot (h.entry q.slot).gen) st))) ∧
        (p.homeOpenCheck q src = none → ∃ (t : State) (d : Entry),
          exec (.openMsg m x) s = .next (t.sendTo typOpenReply src 3 (openReplyPayload (t.handle q.slot) .ok)) ∧ t.entry q.slot = d ∧
          d.state = .live ∧ d.home = true ∧ d.edge = false ∧ d.gen = ((h.entry q.slot).gen + 1) % 512 ∧ d.homeGate = h.gate ∧ d.edgeGate = src ∧
          d.tenant = q.tenant ∧ d.length = 0 ∧ (t.ledger q.tenant).sessions = (h.ledger q.tenant).sessions + 1 ∧
          ∀ i, i ≠ q.slot → t.entry i = h.entry i)) ∧
      (Delivered e 0x03 x → n.state = .opening → n.homeGate = rSrc it.w0 → n.homeGate = hdlGate hd → Status.ofCode (bf it.w2 7 0) = .ok → n.pendOp ≠ 0 →
        ∃ t : State, exec (.openReply m x) s = .next t ∧
          t.entry slot = { n with gen := hdlGen hd, state := .live, pendOp := 0, pendTag := 0, pendSmp := false } ∧
          (n.pendSmp = false → ∃ o : HrpOut, t.hrpOut = h.hrpOut ++ [o] ∧ o.vc = 1 ∧ o.part = n.part ∧ o.words = replyWords n.pendIssuer .ok [hdlWord hd]) ∧
          ∀ i, i ≠ slot → t.entry i = h.entry i) ∧
      (Delivered e 0x04 x → h.matches hd = true → n.edge = true → (h.edgeAt slot).mark = true → bit it.w1 0 = true → n.state = .live →
        ∃ t : State, exec (.stepMsg m x) s = .next t ∧ t.entry slot = { n with state := .speculating } ∧ (t.edgeAt slot).step = some true ∧
          (∀ i, i ≠ slot → t.entry i = h.entry i) ∧ t.mem = h.mem) ∧
      (Delivered e 0x05 x → h.matches hd = true → n.home = true → n.state = .speculating → (h.homeAt slot).work = [] →
        (h.homeAt slot).step = some true →
        ∃ t : State, exec (.resolve m x) s = .next t ∧ (t.entry slot).length = n.length + bf it.w1 29 26 ∧
          (t.entry slot).outCount = n.outCount + bf it.w1 29 26 ∧ (t.entry slot).state = .live ∧ (t.entry slot).ckptValid = false ∧
          (t.homeAt slot).drafts = [] ∧ (t.homeAt slot).step = none ∧ ∀ i, i ≠ slot → t.entry i = h.entry i) ∧
      (Delivered e 0x06 x → h.matches hd = true → n.home = true → n.state ≠ .cancelled → n.state ≠ .closing →
        ∃ t : State, exec (.streamEnd m x) s = .next t ∧ (t.entry slot).stop = Stop.ofCode (bf it.w1 3 0) ∧ (t.entry slot).length = bf it.w1 31 12 ∧
          (t.entry slot).outCount = n.outCount - (n.length - bf it.w1 31 12) ∧ ∀ i, i ≠ slot → t.entry i = h.entry i) ∧
      (Delivered e 0x07 x → h.matches hd = true → n.home = false → n.state = .live ∨ n.state = .speculating →
        (n.edge = false ∨ (h.edgeAt slot).turnOpen = false →
          ∃ t : State, exec (.close m x) s = .next t ∧ t.entry slot = freed ∧ (t.ledger n.tenant).sessions = (h.ledger n.tenant).sessions - 1 ∧
            ∀ i, i ≠ slot → t.entry i = h.entry i) ∧
        (n.edge = true → (h.edgeAt slot).turnOpen = true → (h.edgeAt slot).held.getLast? = some k → (h.edgeAt slot).tIn = some at' →
          ∃ t : State, exec (.close m x) s = .next t ∧ (t.entry slot).state = .closing ∧ (t.edgeAt slot).held = (h.edgeAt slot).held ∧
            (t.edgeAt slot).stopPending = some (if n.deadlinePast h.tick then .deadline else .closed, k.release) ∧
            ∀ i, i ≠ slot → t.entry i = h.entry i)) ∧
      (Delivered e 0x08 x → h.matches hd = true → n.state ≠ .cancelled →
        ∃ t : State, exec (.cancel m x) s = .next t ∧ Cancels h t slot (Cancel.ofCode (bf it.w1 7 0))) ∧
      (Delivered e 0x09 x → whole → hOp it.w1 = 0x17 → hLen it.w1 = 2 →
        let i : Issuer := { op := 0x17, part := hPart it.w1, tag := hTag it.w1, smp := false, src := some (rSrc it.w0) }
        let j := hdlSlot (hdlOf it.w2)
        let q := stopsOf it.w3
        (h.matches (hdlOf it.w2) = true → (h.entry j).home = true → (h.entry j).state = .live → (∃ im, h.img.force = some im ∧ q.1 < (h.patHdr im).stopsets) →
          ∃ t : State, exec (.cmd m x) s = .next (t.answer i .ok) ∧ t.entry j = { h.entry j with stopSet := q.1, endToken := q.2.1, endEn := q.2.2 } ∧
            ∀ c, c ≠ j → t.entry c = h.entry c) ∧
        ((h.entry j).state = .free → ∃ t : State, exec (.cmd m x) s = .next (t.answer i .noSession) ∧ t.entries = h.entries ∧ t.mem = h.mem)) ∧
      (Delivered e 0x0A x → whole →
        (h.cmi.fwds = [] → ∃ t : State, exec (.cmdReply m x) s = .next t ∧ t.entries = h.entries ∧ t.hrpOut = h.hrpOut ∧ t.cmi.fwds = []) ∧
        (h.cmi.fwds = [f] → f.dst = rSrc it.w0 → f.issuer.op = hOp it.w1 → f.issuer.part = hPart it.w1 → f.issuer.tag = hTag it.w1 →
          f.issuer.op ≠ 0x11 → f.issuer.op ≠ 0x3B → ∀ j, f.slot = some j → (h.entry j).pendIssuer = f.issuer → (h.entry j).pendOp ≠ 0 →
          ∃ t : State, exec (.cmdReply m x) s = .next (t.reply f.issuer (Status.ofCode (bf it.w1 7 0)) (((msgWords it).take (1 + hLen it.w1)).drop 1)) ∧
            t.cmi.fwds = [] ∧ (t.entry j).pendOp = 0 ∧ ∀ i, i ≠ j → t.entry i = h.entry i)))

/-- Messages that this gate passes on, drops or discards. A message for another gate leaves along the route to it with one
hop more, or is dropped and counted with RING_LOOP after 1,022 hops; a type that the spec does not list is dropped with
RING_UNKNOWN; an uncorrectable word of a session message discards it with RING_UE, and of a control message ends the job. On
a link not in use, or with ENABLE 0, nothing else happens. -/
def Obligations.MessagesPassOn : Prop :=
  ∀ (m : Moment) (s : State) (x : RxMsg) (l hops : Nat),
    let e := s.moved (.ringForward m x)
    let h := x.item.w0
    let u : State := if x.link < 4 then { e with net := { e.net with linkUp := e.net.linkUp ||| 2 ^ x.link } } else e
    let lost (t : State) : State := { t with net := { t.net with dropped := satAdd 16 t.net.dropped 1 } }
    (e.ringOn = false ∨ e.links.contains x.link = false → exec (.ringForward m x) s = .next u) ∧
    (e.ringOn = true → e.links.contains x.link = true → x.find = .clean → wKind h = 6 →
      (rBcast h = false → (ringClass (rType h) false).isSome = true → rDst h ≠ e.gate → e.route (rDst h) = some (l, hops) → rType h ≠ typTime →
        (rHops h < 1022 → exec (.ringForward m x) s =
          .next ((u.notePassing x.item (u.classOf x.item)).queueOn l (u.classOf x.item) { x.item with w0 := withHops h (rHops h + 1) })) ∧
        (1022 ≤ rHops h → exec (.ringForward m x) s =
          .next ((lost u).trouble .ringLoop 1 (Obj.ring x.link (rSrc h) (rType h)) none 0))) ∧
      ((ringClass (rType h) false) = none → exec (.ringForward m x) s =
        .next ((lost u).trouble .ringUnknown 1 (Obj.ring x.link (rSrc h) (rType h)) none 0))) ∧
    (e.ringOn = true → e.links.contains x.link = true → x.find = .bad → x.headerReadable = true → wKind h = 6 →
      ((ringClass (rType h) false) = some 3 → exec (.ringForward m x) s =
        .next ((u.ceLink x.link).trouble .ringUe 1 (Obj.ring x.link (rSrc h) (rType h)) none 0)) ∧
      ((ringClass (rType h) false) = some 0 ∨ (ringClass (rType h) false) = some 1 ∨ (ringClass (rType h) false) = some 2 → e.inReset = false →
        ∃ t : State, exec (.ringForward m x) s = .next t ∧ JobEnds e t .ringUe))

/-- What the messages between gates leave. TIME of a second master sets TIME_TWO_MASTERS; a follower keeps its sender and its
tick, and a lead steers by it; BALANCE joins the coordinator's reports; PREPARE stages its change and is acknowledged, or
refused with the status of its check; ACK is counted, and one that refuses aborts; GO marks the staged commit of its target,
ABORT takes one without GO back; MIRROR from the twin stores its words; PAIR asked for pairs this gate where it may; a
RESTART not handled before asserts the job-reach reset, and one handled before does nothing. -/
def Obligations.MessageEffects : Prop :=
  ∀ (m : Moment) (s : State) (x : RxMsg) (g : Staged) (c : Coord) (st : Status) (o : Nat) (kd : Kind),
    let e := s.elapse m
    let h := e.heard x
    let it := x.item
    let e2 := s.moved (.time m x)
    let u := e2.heard x
    let sender := bf it.w3 63 54
    let noted : TimeU := { u.tm with master := sender, masterTwin := some (bf it.w3 53 44), holdover := bit it.w3 43, silent := 0,
                                     named := some (bf it.w1 63 20 + 1) }
    let err : Int := (u.fine : Int) - ((bf it.w1 63 20 * 2 ^ 36 + it.w2.toNat + fineOf (bf it.w3 42 33 * u.hopNs) : Nat) : Int)
    let asked := h.stagedOf (msgWords it)
    let ack (t : State) (st : Status) : State := t.sendTo typAck (rSrc it.w0) 1 [pack [(asked.target, 63, 20), (st.code, 7, 0)]]
    let place := mirrorPlace (bf it.w1 62 61) (bf it.w1 60 39)
    let r := (bf it.w1 63 54, bf it.w1 53 10)
    (Delivered e2 0x10 x →
      (u.tmMode = 2 → ∃ t : State, exec (.time m x) s = .next t ∧ bit t.trb.sticky Sticky.timeTwoMasters.idx = true ∧ t.tm = u.tm ∧ t.entries = u.entries) ∧
      (u.tmMode = 0 → u.tm.serving = false → u.knownSender sender = true →
        (u.isLead = false → exec (.time m x) s = .next { u with tm := noted }) ∧
        (u.isLead = true → bit it.w3 32 = false → err.natAbs ≤ 1000 * 2 ^ 16 → ∃ t : State, exec (.time m x) s = .next t ∧ t.tm.master = sender ∧
          t.tm.silent = 0 ∧ t.tm.set = true ∧ t.tm.lastMeas = u.tm.refclk ∧ t.tm.c = clampC (u.tm.c - nearest (err * 477) (2 ^ 16)) ∧
          t.tm.slewLeft = -err * 2 ^ 31 ∧ t.tm.t48 = u.tm.t48 ∧ t.entries = u.entries))) ∧
    (Delivered e 0x11 x →
      (h.isCoord = true → exec (.balance m x) s = .next { h with bal := { h.bal with reports := h.bal.reports ++
        [{ gate := rSrc it.w0, tick := targetOf it.w1, p := bf it.w2 63 32, d := bf it.w2 31 0 }] } }) ∧
      (h.isCoord = false → exec (.balance m x) s = .next h)) ∧
    (Delivered e 0x18 x →
      (h.stageCheck asked = none → ∃ t : State, exec (.prepare m x) s = .next (ack t .ok) ∧ t.com.staged = some { asked with acked := true } ∧
        (asked.kind = .image → t.img = { h.img with load := .committing }) ∧ t.entries = h.entries ∧ t.role = h.role ∧ t.mem = h.mem) ∧
      (h.stageCheck asked = some st → exec (.prepare m x) s =
        .next (ack { h with com := { h.com with refused := some (asked.target, asked.kind) } } st))) ∧
    (Delivered e 0x19 x → h.com.coord = some c →
      (c.target = targetOf it.w1 → c.decided = false → let c' : Coord := { c with acks := c.acks ++ [rSrc it.w0] }
        (bf it.w1 7 0 = 0 → h.allAcked c' = false → exec (.ack m x) s = .next { h with com := { h.com with coord := some c' } }) ∧
        (bf it.w1 7 0 = 0 → h.allAcked c' = true → exec (.ack m x) s =
          .next (({ h with com := { h.com with coord := some { c' with prepare := none } } } : State).answerAll c.prepare.toList .ok)) ∧
        (bf it.w1 7 0 ≠ 0 → ∃ t : State,
          exec (.ack m x) s = .next (t.answerAll (c.replies ++ c.prepare.toList) (Status.ofCode (bf it.w1 7 0))) ∧
          t.com.coord = none ∧ t.com.staged = none ∧ t.entries = h.entries)) ∧
      (c.target ≠ targetOf it.w1 ∨ c.decided = true → exec (.ack m x) s = .next h)) ∧
    (Delivered e 0x1A x → h.com.staged = some g →
      (g.target = targetOf it.w1 → exec (.go m x) s = .next { h with com := { h.com with staged := some { g with go := true } } }) ∧
      (g.target ≠ targetOf it.w1 → exec (.go m x) s = .next h)) ∧
    (Delivered e 0x1B x →
      (h.com.refused = none → h.com.staged = some g →
        (g.target = targetOf it.w1 → g.go = false → g.kind = .image → h.img.load = .committing → exec (.abort m x) s =
          .next { h with com := { h.com with staged := none }, img := { h.img with load := .loaded } }) ∧
        (g.target ≠ targetOf it.w1 → exec (.abort m x) s = .next h)) ∧
      (h.com.refused = some (o, kd) → o = targetOf it.w1 → ∃ t : State, exec (.abort m x) s = .next t ∧ t.com = { h.com with refused := none } ∧
        (kd = .variant → t.bal = { h.bal with aborts := satAdd 16 h.bal.aborts 1 }) ∧ t.entries = h.entries)) ∧
    (Delivered e 0x20 x → h.net.paired = true → rSrc it.w0 = h.net.twin → bit it.w1 63 = true → bit it.w3 63 = false → bit it.w5 63 = false →
      place + 1 < mirrorSize →
      ∃ t : State, exec (.mirror m x) s = .next t ∧ sget 0#64 t.tier.mirror place = it.w2 ∧
        (∀ k, k ≠ place → sget 0#64 t.tier.mirror k = sget 0#64 h.tier.mirror k) ∧ t.entries = h.entries ∧ t.net = h.net) ∧
    (Delivered e 0x21 x → bit it.w1 63 = false → bit it.w1 62 = false →
      (h.mayPair (rSrc it.w0) = false → exec (.pair m x) s = .next (h.sendTo typPair (rSrc it.w0) 4 (pairPayload true false .busy))) ∧
      (h.mayPair (rSrc it.w0) = true → (h.dev 0).trained = true → ∃ t : State,
        exec (.pair m x) s = .next (t.sendTo typPair (rSrc it.w0) 4 (pairPayload true false .ok)) ∧ t.net.paired = true ∧
        t.net.twin = rSrc it.w0 ∧ t.net.synced = false ∧ t.net.copyNext = some 0 ∧ t.entries = h.entries)) ∧
    (Delivered e 0x28 x →
      (h.com.restarts.contains r = true → exec (.restart m x) s = .next h) ∧
      (h.com.restarts.contains r = false → ∃ t : State, exec (.restart m x) s = .next t ∧ t.rs.reach = some .job ∧
        t.rs.sources.testBit srcRingRestart = true ∧ t.rs.until' = h.tm.refclk + 1 ∧ t.com.restarts = h.com.restarts ++ [r] ∧ t.img.force = none ∧
        (h.tier.ops = [] → t.mem = h.mem)))

/-- A slot of a link's transmit side. The oldest message of the lowest class that waits leaves, with the present epoch if it
began here; the mirror queue leaves on the link to the twin; with none waiting for the link the slot carries none. Mirror
writes that wait enter their queue three to a message as room allows, then the copy to the twin goes on by three words. The
copy, handed over to its last word, makes the pair synchronised. -/
def Obligations.RingSends : Prop :=
  ∀ (m : Moment) (s : State) (l n : Nat) (q : QMsg) (before after : List QMsg) (i : Issuer),
    let e := s.elapse m
    let waiting := (threes e.net.mirrorWait).take (4096 - e.net.mirrorQ.length)
    (e.links.contains l = true → e.ringOn = true → e.contract = none → e.net.queues.length = 4 → e.net.sent.length = 4 → l < 4 →
      (e.net.queues.getD l [] = before ++ q :: after → q.cls < 6 → (∀ x ∈ before, q.cls < x.cls) → (∀ x ∈ after, q.cls ≤ x.cls) →
        q.cls < 5 ∨ e.twinLink ≠ some l →
        ∃ t : State, exec (.grpTxSlot m l) s = .next t ∧ t.net.queues = e.net.queues.set l (before ++ after) ∧
          t.net.sent = e.net.sent.set l (some (e.txItem q.item)) ∧ t.net.late = e.net.late ∧ t.net.mirrorQ = e.net.mirrorQ) ∧
      (e.net.queues.getD l [] = [] → e.twinLink ≠ some l →
        ∃ t : State, exec (.grpTxSlot m l) s = .next t ∧ t.net.queues = e.net.queues ∧ t.net.sent = e.net.sent.set l none) ∧
      (e.net.queues.getD l [] = [] → e.twinLink = some l → e.net.mirrorQ = q :: after →
        ∃ t : State, exec (.grpTxSlot m l) s = .next t ∧ t.net.queues = e.net.queues ∧ t.net.mirrorQ = after ∧
          t.net.sent = e.net.sent.set l (some (e.txItem q.item)))) ∧
    (e.links.contains l = false → e.inReset = false → exec (.grpTxSlot m l) s = .next e) ∧
    (e.net.paired = false → exec (.mirrorEnqueue m) s = .next e ∧ exec (.twinCopyDone m) s = .next e) ∧
    (e.net.paired = true → e.inReset = false →
      (e.net.copyNext = none → ∃ t : State, exec (.mirrorEnqueue m) s = .next t ∧ t.net.mirrorWait = e.net.mirrorWait.drop (3 * waiting.length) ∧
        t.net.mirrorQ = e.net.mirrorQ ++ waiting.map e.mirrorMsg ∧ t.net.copyNext = none ∧ t.net.queues = e.net.queues ∧ t.entries = e.entries) ∧
      (e.net.copyNext = some n → n < mirrorSize → e.net.mirrorWait = [] → e.net.mirrorQ.length < 4096 →
        ∃ (t : State) (x : QMsg), exec (.mirrorEnqueue m) s = .next t ∧ t.net.copyNext = some (n + min 3 (mirrorSize - n)) ∧
          t.net.mirrorQ = e.net.mirrorQ ++ [x] ∧ x.cls = 5 ∧ rType x.item.w0 = typMirror ∧ rDst x.item.w0 = e.net.twin % 2 ^ 10 ∧
          t.net.queues = e.net.queues ∧ t.entries = e.entries)) ∧
    (e.net.paired = true → e.net.copyNext = some mirrorSize →
      (e.net.pairFor = none ∨ e.net.peerDone = false → exec (.twinCopyDone m) s = .next { e with net := { e.net with synced := true, copyNext := none } }) ∧
      (e.net.pairFor = some i → e.net.peerDone = true →
        exec (.twinCopyDone m) s = .next (({ e with net := { e.net with synced := true, copyNext := none, pairFor := none } } : State).answer i .ok)))

/-- The sources of resets. Power-on asserts cold reach for at least 256 REFCLK cycles and zeroes the backup registers;
PORST_n and SYSRST_n assert cold and warm reach when their low pulse is taken: 4 cycles always is, fewer than 2 never. A
source that comes during a reset is added, lengthens it, and widens its reach when its own is wider. Release. No sooner than
the last source has ended and 4,096 REFCLK cycles after the last clearing, the internal reset releases: nothing is asserted
any more, the epoch is 0, the window is open after a job reset, and the start begins, whose tier step is to come; the replies
that the reset held go out when HRP runs again. A region reset releases 4,096 cycles after its start with its reply, and
RST_OUT_n rises at its time, in a reset that does not drive it too. -/
def Obligations.ResetSourcesAndReleases : Prop :=
  (∀ (m : Moment) (s : State) (n : Nat) (taken : Bool) (cause : PowerCause),
      let e := s.elapse m
      let wide (own : Reach) : Reach := match e.rs.reach with | none => own | some r => if r.code < own.code then own else r
      let last (k : Nat) : Nat := if e.inReset then max e.rs.until' (e.tm.refclk + k) else e.tm.refclk + k
      (∃ t : State, exec (.powerOn m cause n) s = .next t ∧ t.rs.reach = some .cold ∧ t.rs.until' = last (max n 256) ∧
        t.rs.sources.testBit srcPowerOn = true ∧ t.trb.bkup = [] ∧ t.tap = TapU.zero ∧ t.trb.retained = e.trb.retained) ∧
      (4 ≤ n ∨ (2 ≤ n ∧ taken = true) →
        (∃ t : State, exec (.porstN m n taken) s = .next t ∧ t.rs.reach = some .cold ∧ t.rs.until' = last n ∧ t.rs.sources.testBit srcPorst = true ∧
          t.trb.bkup = e.trb.bkup) ∧
        (∃ t : State, exec (.sysrstN m n taken) s = .next t ∧ t.rs.reach = some (wide .warm) ∧ t.rs.until' = last n ∧
          t.rs.sources.testBit srcSysrst = true ∧ t.tm.t48 = e.tm.t48 ∧ t.trb.bkup = e.trb.bkup)) ∧
      (n < 2 ∨ (n < 4 ∧ taken = false) → exec (.porstN m n taken) s = .next e ∧ exec (.sysrstN m n taken) s = .next e)) ∧
  (∀ (m : Moment) (s u : State) (i : Issuer) (pll : Bool) (find : WordFind) (r : Reach) (x : RegionRst) (n : Nat),
      let e := s.elapse m
      (e.rs.reach = some r → e.rs.until' ≤ e.tm.refclk → e.rs.clearAt + 4096 ≤ e.tm.refclk →
        ∃ t : State, exec (.resetRelease m pll find) s = .next t ∧ t.inReset = false ∧ t.rs.lastReach = r.code ∧ t.com.epoch = 0 ∧ (r = .job → t.com.window = true ∧ t.rs.attempts = 0 ∧ t.role = e.role) ∧ t.tier.training = true ∧
          t.rs.start.isSome = true ∧ t.tap = e.tap) ∧
      (e.rs.reach = some r → e.tm.refclk < e.rs.until' ∨ e.tm.refclk < e.rs.clearAt + 4096 → exec (.resetRelease m pll find) s = .next e) ∧
      (e.rs.reach = none → e.rs.regions = [x] →
        (x.start + 4096 ≤ e.tm.refclk → ∃ t : State, exec (.resetRelease m pll find) s = .next (t.answer x.issuer .ok) ∧ t.rs.regions = [] ∧
          t.entries = e.entries ∧ t.mem = e.mem ∧ t.img.force = e.img.force) ∧
        (e.tm.refclk < x.start + 4096 → exec (.resetRelease m pll find) s = .next e)) ∧
      (e.rs.outRise = some n →
        (n ≤ e.tm.refclk → exec (.rstOutRelease m) s = .next { e with rs := { e.rs with outHigh := true, outRise := none } }) ∧
        (e.tm.refclk < n → exec (.rstOutRelease m) s = .next e)) ∧
      (e.rs.outRise = none → exec (.rstOutRelease m) s = .next e) ∧
      (u.hrpUp = true → u.sendAborted.rs.aborted = [] ∧ u.sendAborted.rs.abortedCmds = [] ∧
        (u.rs.aborted = [] → u.rs.abortedCmds = [i] → u.sendAborted.hrpOut = (u.answer i .abortedRestart).hrpOut)) ∧
      (u.hrpUp = false → u.sendAborted = u))

/-- What a reset clears by its reach. Every reach ends streams, operations, loads, staged commits, the image in force and the
commands that wait; job and warm reach keep the parked copies of the session table as WINTERED, memory, gate time, routes,
roles and the partitions' configuration; warm reach also forgets the negotiated versions; cold reach empties the table, the
ledgers, the partitions, memory and the tier, sets gate time, roles and the ring's configuration back, and clears VALID of
the routes; the fields of TM_STAT that are kept stay. What is said of memory and the table is of a gate with no tier
operation in progress. A job fault asserts job reach with its sticky bits. -/
def Obligations.ResetClears : Prop :=
  ∀ (s : State) (r : Reach) (src k n p : Nat) (c : Cause) (o : Obj) (q : Option Nat) (d : Word),
    let t := s.assertReset r src k
    let e := s.entry n
    let f := s.jobFault c o q d
    s.inReset = false → swf Partn.cold s.parts = true →
    t.rs.reach = some r ∧ t.rs.until' = s.tm.refclk + k ∧ t.rs.sources.testBit src = true ∧ t.rs.start = none ∧
    (t.edge = [] ∧ t.home = [] ∧ t.slots = [] ∧ t.hdl = [] ∧ t.ints = [] ∧ t.img.force = none ∧ t.img.load = .idle ∧ t.com.staged = none ∧
      t.com.coord = none ∧ t.tier.scrub = none ∧ t.clk.sleeping = false ∧ t.cmi.smpRing = [] ∧ t.cmi.fwds = [] ∧ (t.part p).ring = [] ∧
      (t.part p).intPend = 0 ∧ (t.part p).win.busy = false) ∧
    (r ≠ .cold → (s.tier.ops = [] → t.mem = s.mem) ∧ t.tm.t48 = s.tm.t48 ∧ t.tm.ctl = s.tm.ctl ∧ t.tm.set = s.tm.set ∧ t.role = s.role ∧ t.net.cfg = s.net.cfg ∧
      t.net.routes = s.net.routes ∧ t.net.paired = s.net.paired ∧ (t.part p).enabled = (s.part p).enabled ∧ (t.part p).base = (s.part p).base ∧
      (t.part p).count = (s.part p).count ∧ (t.part p).share = (s.part p).share ∧ t.trb = s.trb ∧ t.bal.ctl = s.bal.ctl ∧
      (swf Entry.zero s.entries = true → s.tier.ops = [] → e.parked = true →
        t.entry n = { e with state := .wintered, ckpt := 0, ckptValid := false, chains := 0, pendOp := 0, pendTag := 0, pendSmp := false }) ∧
      (swf Entry.zero s.entries = true → s.tier.ops = [] → e.parked = false → e.state ≠ .free → t.entry n = { Entry.zero with gen := e.gen })) ∧
    (r = .job → (t.part p).version = (s.part p).version ∧ t.clk.mhz = s.clk.mhz ∧ t.denied = s.denied) ∧
    (r ≠ .job → (t.part p).version = none ∧ t.cmi.smpVersion = none ∧ t.clk.mhz = 0 ∧ t.denied = 0 ∧ t.misformed = 0 ∧ t.blocked = 0) ∧
    (r = .cold → t.entries = [] ∧ t.ledgers = [] ∧ t.parts = [] ∧ t.mem = [] ∧ t.role = 0 ∧ t.roleShadow = 0 ∧ t.net.cfg = 0 ∧
      t.net.routes = clearRoutes s.net.routes ∧ (∀ x ∈ t.net.routes, bit x.2 63 = false) ∧ t.tm.holdover = s.tm.holdover ∧ t.tm.serving = s.tm.serving ∧
      t.tm.master = s.tm.master ∧ t.tm.lockRun = s.tm.lockRun ∧ t.net.paired = false ∧ t.tm.t48 = 0 ∧ t.tm.set = false ∧ t.tm.ctl = 0 ∧ t.tier.alloc = [] ∧ t.tier.pages = [] ∧ t.bal.ctl = 0 ∧
      t.trb.retained = s.trb.retained ∧ t.trb.sticky = s.trb.sticky) ∧
    JobEnds s f c

/-- GT_ID reads as the grade of the die has it, and no command changes it. -/
def Obligations.IdentityConstant : Prop :=
  (∀ s : State, (s.grade = .full → s.readReg .id = 0x1010_2000_1100_0000#64) ∧ (s.grade = .half → s.readReg .id = 0x1010_2000_1110_0000#64)) ∧
  (∀ (c : Instr) (s t : State), exec c s = .next t → t.readReg .id = s.readReg .id)

/-- A session's deadline tick is its open time plus its deadline, in ns, rounded up to a tick; the deadline acts from that
tick on, no earlier than the exact instant and less than 1,048,576 ns after it. -/
def Obligations.DeadlineTicks : Prop :=
  ∀ e : Entry, e.deadline ≠ 0 → e.openTime + e.deadline * 1000 + 2 ^ 20 ≤ 2 ^ 64 →
    ∃ d, e.deadlineTick = some d ∧ d = (e.openTime + e.deadline * 1000 + 2 ^ 20 - 1) >>> 20 ∧
      e.openTime + e.deadline * 1000 ≤ d * 2 ^ 20 ∧ d * 2 ^ 20 < e.openTime + e.deadline * 1000 + 1048576 ∧
      (∀ k, e.deadlinePast k = true ↔ d ≤ k)

/-- PWR_REQ: BAND in its low three bits is 0 up to 600 MHz and one more for each 200 MHz begun above; VOFS above it is VF of
the band plus AGE_OFS, at most 31. A cold reset drives the safe word 0xF8. -/
def Obligations.SupplyWord : Prop :=
  (∀ mhz ofs b : Nat, mhz ≤ 1600 →
    (mhz ≤ 600 → pwrWord mhz ofs % 8 = 0) ∧ (b ≤ 4 → 600 + 200 * b < mhz → mhz ≤ 800 + 200 * b → pwrWord mhz ofs % 8 = b + 1) ∧
    pwrWord mhz ofs / 8 = min 31 (([0, 2, 5, 9, 14, 20] : List Nat).getD (pwrWord mhz ofs % 8) 0 + ofs) ∧ pwrWord mhz ofs < 2 ^ 8) ∧
  (∀ (s : State) (src n : Nat), s.rs.reach ≠ some .cold → (s.assertReset .cold src n).clk.pwrReq = 0xF8)

/-- Gate time at REFCLK edges: with nothing to slew each edge adds the increment that c gives, 40 ns in units of 2^-48 ns
plus the nearest whole number to its correction, ties away from zero; reads give the whole ns and the upper 16 fraction bits. -/
def Obligations.TimeAdvances : Prop :=
  ∀ (t : TimeU) (s : State) (n q : Nat) (c : Int),
    let i := increment c - 40 * 2 ^ 48
    (t.slewLeft = 0 → t.c = c → ((t.advance n q).t48 : Int) = ((t.t48 : Int) + n * increment c) % 2 ^ 112 ∧ (t.advance n q).c = c ∧
      (t.advance n q).refclk = t.refclk + n) ∧
    2 * (i * 10 ^ 12 - 40 * c * 2 ^ 48).natAbs ≤ 10 ^ 12 ∧
    (2 * (i * 10 ^ 12 - 40 * c * 2 ^ 48).natAbs = 10 ^ 12 → (40 * c * 2 ^ 48).natAbs ≤ (i * 10 ^ 12).natAbs) ∧
    s.readReg .tmNow = word (s.tm.t48 >>> 48) ∧ s.tm.frac16 = (s.tm.t48 >>> 32) % 2 ^ 16

/-- The trouble log. An event that repeats the newest entry in the same tick adds one to its REPEAT and writes none; any
other is written at NEXT with its time, NEXT goes up by one modulo 256, HELD up to 256, and OVERWRITTEN counts when the log
was full. Every event sets its sticky bit, and raises vector 6 of the partition it names. -/
def Obligations.TroubleEntries : Prop :=
  ∀ (s : State) (b : Sticky) (a : Nat) (o : Obj) (p : Option Nat) (d : Word),
    let z := s.setSticky b
    let w1 := logWord1 b a o p 0
    let t := s.trouble b a o p d
    let newest := (s.logNext + 255) % 256
    bit t.trb.sticky b.idx = true ∧ t.trb.sticky &&& s.trb.sticky = s.trb.sticky ∧
    (z.logSame w1 o.val = true → t.logNext = s.logNext ∧ t.logHeld = s.logHeld ∧ t.logOver = s.logOver ∧
      bf (t.retained (0x401 + 4 * newest)) 34 19 = satAdd 16 (bf (s.retained (0x401 + 4 * newest)) 34 19) 1 ∧
      (∀ k, k ≠ newest → k < 256 → t.logEntry k = s.logEntry k)) ∧
    (z.logSame w1 o.val = false → t.logNext = (s.logNext + 1) % 256 ∧ t.logHeld = min (s.logHeld + 1) 256 ∧
      t.logOver = (if s.logHeld < 256 then s.logOver else satAdd 32 s.logOver 1) ∧ t.logEntry s.logNext = [word s.now, w1, o.val, d] ∧
      (∀ k, k ≠ s.logNext → k < 256 → t.logEntry k = s.logEntry k)) ∧
    (∀ k, p = some k → (t.part k).intPend.testBit 6 = true) ∧ t.entries = s.entries ∧ t.mem = s.mem ∧ t.tm = s.tm

/-- What a cold start leaves in the registers that the spec gives a value: no role, nothing counted, nothing enabled but the
alerts, gate time zero and not set, the ring off, the clock, reset and supply registers at their cold values, and the grade's
capabilities. -/
def Obligations.ColdRegisters : Prop :=
  let s := State.reset
  s.readReg .role = 0 ∧ s.readReg .regStat = 0 ∧ s.readReg .sticky0 = 0 ∧ s.readReg .mtuCtl = 0 ∧ s.readReg .balCnt = 0 ∧
  s.readReg .ringCfg = 0 ∧ s.readReg .ringCnt = 0 ∧ s.readReg .tmCtl = 0 ∧ s.readReg .tmNow = 0 ∧ s.readReg .clkCtl = 0xAF08_1390_0000_0000#64 ∧
  s.readReg .rsCtl = 0x6000_0000_0000_0000#64 ∧ s.tm.set = false ∧ s.clk.pwrReq = 0xF8 ∧
  (∀ n, n < 8 → s.readReg (.ce n) = 0 ∧ s.readReg (.slip n) = 0) ∧ (∀ n, s.readReg (.route n) = 0) ∧
  (∀ n, (s.entry n).state = .free ∧ (s.entry n).gen = 0 ∧ (s.ledger n).valid = false) ∧ s.img.load = .idle ∧ s.img.force = none ∧ s.pending = []

/-- The frame of the commands of HRP and SMP: one that asserts no reset leaves every part of the state that its row does not
name as it was at its moment. -/
def Obligations.CommandFrames : Prop :=
  ∀ (c : Instr) (s t : State) (f : Field),
    c.opcode.isSome = true → exec c s = .next t → t.inReset = false → f ∉ touches c → f.same (s.moved c) t

/-- The frame of the ring's messages, likewise. -/
def Obligations.MessageFrames : Prop :=
  ∀ (c : Instr) (s t : State) (f : Field),
    c.message.isSome = true → exec c s = .next t → t.inReset = false → f ∉ touches c → f.same (s.moved c) t

/-- The frame of every other row: the loads of images, accesses to registers, items and slots, screening, release, the ports,
ticks and clocks. -/
def Obligations.EventFrames : Prop :=
  ∀ (c : Instr) (s t : State) (f : Field),
    c.opcode = none → c.message = none → exec c s = .next t → (s.moved c).inReset = false → t.inReset = false → f ∉ touches c →
      f.same (s.moved c) t
end

