-- ==== Sys2Proof/Laws/Bits.lean ====
section
/-! SUPPORT. Fields of packed words read back. -/
namespace Sys2Proof.Machine

theorem place_testBit (v w lo j : Nat) : (place v w lo).testBit j = (decide (lo ≤ j) && (decide (j - lo < w) && v.testBit (j - lo))) := by
  unfold place
  rw [Nat.testBit_shiftLeft, Nat.testBit_mod_two_pow]

theorem fields_testBit (fs : List (Nat × Nat × Nat)) (a j : Nat) :
    (fs.foldl (fun a f => a ||| place f.1 (f.2.1 + 1 - f.2.2) f.2.2) a).testBit j
      = (a.testBit j || fs.any (fun f => (place f.1 (f.2.1 + 1 - f.2.2) f.2.2).testBit j)) := by
  induction fs generalizing a with
  | nil => simp
  | cons f fs ih => rw [List.foldl_cons, ih, List.any_cons, Nat.testBit_or, Bool.or_assoc]

theorem bf_testBit (w : Word) (hi lo j : Nat) : (bf w hi lo).testBit j = (decide (j < hi + 1 - lo) && w.getLsbD (lo + j)) := by
  simp [bf, nf, Nat.testBit_mod_two_pow, Nat.testBit_shiftRight, BitVec.testBit_toNat]

theorem pack_getLsbD (fs : List (Nat × Nat × Nat)) (j : Nat) :
    (pack fs).getLsbD j = (decide (j < 64) && fs.any (fun f => (place f.1 (f.2.1 + 1 - f.2.2) f.2.2).testBit j)) := by
  rw [pack, word, BitVec.getLsbD_ofNat, fields_testBit, Nat.zero_testBit, Bool.false_or]

/-- A field of a packed word reads as the value packed there, when no other field overlaps it. -/
theorem bf_pack {fs : List (Nat × Nat × Nat)} {v hi lo : Nat} (hm : (v, hi, lo) ∈ fs) (hh : hi < 64)
    (hd : ∀ g ∈ fs, g = (v, hi, lo) ∨ g.2.1 < lo ∨ hi < g.2.2) : bf (pack fs) hi lo = v % 2 ^ (hi + 1 - lo) := by
  apply Nat.eq_of_testBit_eq
  intro j
  rw [bf_testBit, pack_getLsbD, Nat.testBit_mod_two_pow]
  by_cases hj : j < hi + 1 - lo
  · have hl : lo + j < 64 := by omega
    simp only [hj, hl, decide_true, Bool.true_and]
    rw [Bool.eq_iff_iff, List.any_eq_true]
    constructor
    · rintro ⟨g, hg, hb⟩
      rw [place_testBit] at hb
      simp only [Bool.and_eq_true, decide_eq_true_eq] at hb
      obtain ⟨b1, b2, b3⟩ := hb
      rcases hd g hg with h | h | h
      · subst h; simpa using b3
      · omega
      · omega
    · intro hb
      refine ⟨_, hm, ?_⟩
      rw [place_testBit]
      simp [hj, hb]
  · simp [hj]

/-- Bits of a packed word that no field covers read zero. -/
theorem bf_pack_gap {fs : List (Nat × Nat × Nat)} {hi lo : Nat} (hd : ∀ g ∈ fs, g.2.1 < lo ∨ hi < g.2.2) : bf (pack fs) hi lo = 0 := by
  apply Nat.eq_of_testBit_eq
  intro j
  rw [bf_testBit, pack_getLsbD, Nat.zero_testBit]
  by_cases hj : j < hi + 1 - lo
  · rw [Bool.eq_false_iff]
    intro hb
    simp only [Bool.and_eq_true, List.any_eq_true] at hb
    obtain ⟨_, _, g, hg, h⟩ := hb
    rw [place_testBit] at h
    simp only [Bool.and_eq_true, decide_eq_true_eq] at h
    rcases hd g hg with k | k <;> omega
  · simp [hj]

end Sys2Proof.Machine
end

