-- ==== Sys2Proof/Laws/Store.lean ====
section
/-! SUPPORT. The laws of the sparse stores and of the memory: a read after a write, the canonical form and its uniqueness. -/
namespace Sys2Proof.Machine

section Store
variable {α : Type} {d v : α} {m : List (Nat × α)} {i j : Nat}

/-- Every key of the store satisfies `P`. -/
theorem swf_cons_iff [DecidableEq α] {k : Nat} {t : List (Nat × α)} :
    swf d ((k, v) :: t) = true ↔ v ≠ d ∧ (∀ c ∈ t, k < c.1) ∧ swf d t = true := by
  simp [swf, and_assoc]

/-- A part of a canonical store chosen by its keys and values is canonical. -/
theorem swf_filter [DecidableEq α] (p : Nat × α → Bool) (h : swf d m = true) : swf d (m.filter p) = true := by
  induction m with
  | nil => rfl
  | cons c t ih =>
    obtain ⟨k, w⟩ := c
    obtain ⟨hw, hk, ht⟩ := swf_cons_iff.1 h
    rw [List.filter_cons]
    split
    · exact swf_cons_iff.2 ⟨hw, fun c hc => hk c ((List.mem_filter.1 hc).1), ih ht⟩
    · exact ih ht

/-- Two canonical stores, every key of the first below every key of the second, make one. -/
theorem swf_append [DecidableEq α] {n : List (Nat × α)} (hm : swf d m = true) (hn : swf d n = true)
    (hlt : ∀ a ∈ m, ∀ b ∈ n, a.1 < b.1) : swf d (m ++ n) = true := by
  induction m with
  | nil => exact hn
  | cons c t ih =>
    obtain ⟨k, w⟩ := c
    obtain ⟨hw, hk, ht⟩ := swf_cons_iff.1 hm
    refine swf_cons_iff.2 ⟨hw, fun c hc => ?_, ih ht fun a ha b hb => hlt a (List.mem_cons_of_mem _ ha) b hb⟩
    rcases List.mem_append.1 hc with hc | hc
    · exact hk c hc
    · exact hlt (k, w) List.mem_cons_self c hc

/-- A write keeps the canonical form. -/
theorem swf_sset [DecidableEq α] (h : swf d m = true) : swf d (sset d m i v) = true := by
  unfold sset
  refine swf_append (swf_append (swf_filter _ h) ?_ ?_) (swf_filter _ h) ?_
  · split
    · rfl
    · rename_i hv; simp [swf, hv]
  · intro a ha b hb
    have h1 : a.1 < i := by simpa using (List.mem_filter.1 ha).2
    have h2 : b.1 = i := by
      split at hb
      · simp at hb
      · simp at hb; simp [hb]
    omega
  · intro a ha b hb
    have h2 : i < b.1 := by simpa using (List.mem_filter.1 hb).2
    have h1 : a.1 ≤ i := by
      rcases List.mem_append.1 ha with ha | ha
      · have : a.1 < i := by simpa using (List.mem_filter.1 ha).2
        omega
      · split at ha
        · simp at ha
        · simp at ha; simp [ha]
    omega

theorem sget_append {n : List (Nat × α)} :
    sget d (m ++ n) i = if m.any (fun c => c.1 == i) then sget d m i else sget d n i := by
  induction m with
  | nil => rfl
  | cons c t ih =>
    obtain ⟨k, w⟩ := c
    by_cases hk : k = i
    · simp [sget, hk]
    · have hb : (k == i) = false := by simpa using hk
      simp only [List.cons_append, sget, if_neg hk, ih, List.any_cons, hb, Bool.false_or]

theorem sget_filter_keep (p : Nat → Bool) (h : p i = true) :
    sget d (m.filter (fun c => p c.1)) i = sget d m i := by
  induction m with
  | nil => rfl
  | cons c t ih =>
    obtain ⟨k, w⟩ := c
    rw [List.filter_cons]
    by_cases hk : k = i
    · simp [hk, h, sget]
    · simp only [sget, if_neg hk]
      split
      · simp only [sget, if_neg hk]; exact ih
      · exact ih

theorem sget_filter_drop (p : Nat → Bool) (h : p i = false) :
    sget d (m.filter (fun c => p c.1)) i = d := by
  induction m with
  | nil => rfl
  | cons c t ih =>
    obtain ⟨k, w⟩ := c
    rw [List.filter_cons]
    by_cases hk : k = i
    · subst hk; simpa [h] using ih
    · split
      · simp only [sget, if_neg hk]; exact ih
      · exact ih

theorem sget_not_mem (h : m.any (fun c => c.1 == i) = false) : sget d m i = d := by
  induction m with
  | nil => rfl
  | cons c t ih =>
    obtain ⟨k, w⟩ := c
    simp only [List.any_cons, Bool.or_eq_false_iff, beq_eq_false_iff_ne] at h
    simp [sget, h.1, ih h.2]

/-- No key of a store all of whose keys satisfy `P` is one that does not. -/
theorem any_key_false {P : Nat → Prop} (h : ∀ c ∈ m, P c.1) (hi : ¬ P i) : m.any (fun c => c.1 == i) = false := by
  rw [List.any_eq_false]
  intro c hc hk
  exact hi (by rw [← beq_iff_eq.1 hk]; exact h c hc)

theorem any_filter_false (p : Nat → Bool) (h : p i = false) : (m.filter (fun c => p c.1)).any (fun c => c.1 == i) = false :=
  any_key_false (P := fun k => p k = true) (fun _ hc => (List.mem_filter.1 hc).2) (by simp [h])

/-- A read of the key written gives the value written. -/
@[simp] theorem sget_sset_same [DecidableEq α] : sget d (sset d m i v) i = v := by
  unfold sset
  rw [List.append_assoc, sget_append, any_filter_false (fun k => decide (k < i)) (by simp), sget_append]
  by_cases hv : v = d
  · simp [hv, sget_filter_drop (fun k => decide (i < k))]
  · simp [hv, sget]

/-- A read of another key gives what it gave before. -/
@[simp] theorem sget_sset_ne [DecidableEq α] (h : j ≠ i) : sget d (sset d m i v) j = sget d m j := by
  unfold sset
  have h2 : ((if v = d then [] else [(i, v)] : List (Nat × α))).any (fun c => c.1 == j) = false := by
    split
    · rfl
    · simp [Ne.symm h]
  rw [List.append_assoc, sget_append, sget_append, h2]
  rcases Nat.lt_or_gt_of_ne h with hlt | hgt
  · have hk := sget_filter_keep (m := m) (d := d) (fun k => decide (k < i)) (i := j) (by simpa using hlt)
    split
    · exact hk
    · rename_i hn
      simp only [Bool.false_eq_true, if_false]
      rw [sget_filter_drop (fun k => decide (i < k)) (by simp; omega), ← hk]
      exact (sget_not_mem (Bool.eq_false_iff.2 hn)).symm
  · rw [any_filter_false (fun k => decide (k < i)) (by simp; omega)]
    exact sget_filter_keep (fun k => decide (i < k)) (by simpa using hgt)

/-- A read after a write, in one equation. -/
theorem sget_sset [DecidableEq α] : sget d (sset d m i v) j = if j = i then v else sget d m j := by
  split
  · rename_i h; rw [h, sget_sset_same]
  · rename_i h; rw [sget_sset_ne h]

/-- The canonical form is one for each content: canonical stores that read alike are equal. -/
theorem swf_ext [DecidableEq α] {n : List (Nat × α)} (hm : swf d m = true) (hn : swf d n = true)
    (h : ∀ i, sget d m i = sget d n i) : m = n := by
  induction m generalizing n with
  | nil =>
    cases n with
    | nil => rfl
    | cons c t =>
      obtain ⟨k, w⟩ := c
      have hw := (swf_cons_iff.1 hn).1
      have := h k
      simp [sget] at this
      exact absurd this.symm hw
  | cons c t ih =>
    obtain ⟨k, w⟩ := c
    obtain ⟨hw, hk, ht⟩ := swf_cons_iff.1 hm
    cases n with
    | nil =>
      have := h k
      simp [sget] at this
      exact absurd this hw
    | cons c' t' =>
      obtain ⟨k', w'⟩ := c'
      obtain ⟨hw', hk', ht'⟩ := swf_cons_iff.1 hn
      have low (l : List (Nat × α)) (a b : Nat) (hl : ∀ c ∈ l, b < c.1) (hab : a ≤ b) : sget d l a = d :=
        sget_not_mem (any_key_false (P := fun k => b < k) hl (by omega))
      have hkk : k = k' := by
        rcases Nat.lt_trichotomy k k' with hlt | heq | hgt
        · have := h k
          simp [sget, Nat.ne_of_gt hlt, low t' k k' hk' (by omega)] at this
          exact absurd this hw
        · exact heq
        · have := h k'
          simp [sget, Nat.ne_of_gt hgt, low t k' k hk (by omega)] at this
          exact absurd this.symm hw'
      subst hkk
      have hww : w = w' := by simpa [sget] using h k
      subst hww
      congr 1
      refine ih ht ht' fun i => ?_
      by_cases hi : k = i
      · subst hi; rw [low t k k hk (by omega), low t' k k hk' (by omega)]
      · simpa [sget, hi] using h i

end Store

/-- The keys that `cellsFrom` lists lie from `a` on, below `a` and the number of bytes. -/
theorem cellsFrom_keys {a : Nat} {bs : List Byte} {c : Host.Cell} (h : c ∈ cellsFrom a bs) :
    a ≤ c.1 ∧ c.1 < a + bs.length := by
  induction bs generalizing a with
  | nil => simp [cellsFrom] at h
  | cons b bs ih =>
    simp only [cellsFrom, List.mem_append] at h
    rcases h with h | h
    · split at h
      · simp at h
      · simp at h; simp [h]
    · have := ih h
      simp only [List.length_cons]; omega

theorem cellsFrom_wf {a : Nat} {bs : List Byte} : swf 0#8 (cellsFrom a bs) = true := by
  induction bs generalizing a with
  | nil => rfl
  | cons b bs ih =>
    simp only [cellsFrom]
    refine swf_append ?_ ih ?_
    · split
      · rfl
      · rename_i hb; simp [swf, hb]
    · intro x hx y hy
      have hy := cellsFrom_keys hy
      split at hx
      · simp at hx
      · simp at hx; simp [hx]; omega

/-- Writing bytes keeps the canonical form. -/
theorem Memory.put_wf {m : Memory} {a : Nat} {bs : List Byte} (h : m.wf = true) : (m.put a bs).wf = true := by
  unfold Memory.put Memory.wf
  refine swf_append (swf_append (swf_filter _ h) cellsFrom_wf ?_) (swf_filter _ h) ?_
  · intro x hx y hy
    have h1 : x.1 < a := by simpa using (List.mem_filter.1 hx).2
    have := cellsFrom_keys hy
    omega
  · intro x hx y hy
    have h2 : a + bs.length ≤ y.1 := by simpa using (List.mem_filter.1 hy).2
    rcases List.mem_append.1 hx with hx | hx
    · have : x.1 < a := by simpa using (List.mem_filter.1 hx).2
      omega
    · have := cellsFrom_keys hx
      omega

theorem Memory.putWords_wf {m : Memory} {i : Nat} {ws : List Word} (h : m.wf = true) : (m.putWords i ws).wf = true :=
  Memory.put_wf h

theorem Memory.putRow_wf {m : Memory} {r : Nat} {ws : List Word} (h : m.wf = true) : (m.putRow r ws).wf = true :=
  Memory.put_wf h

theorem Memory.zeroRows_wf {m : Memory} {r n : Nat} (h : m.wf = true) : (m.zeroRows r n).wf = true :=
  swf_filter _ h

theorem sget_cellsFrom {a i : Nat} {bs : List Byte} :
    sget 0#8 (cellsFrom a bs) i = if a ≤ i then bs.getD (i - a) 0#8 else 0#8 := by
  induction bs generalizing a with
  | nil => simp [cellsFrom, sget]
  | cons b bs ih =>
    simp only [cellsFrom]
    by_cases hi : i = a
    · subst hi
      have h0 : sget 0#8 (cellsFrom (i + 1) bs) i = 0#8 := by rw [ih, if_neg (by omega)]
      by_cases hb : b = 0#8
      · simp [hb, h0]
      · simp [hb, sget]
    · have : sget 0#8 ((if b = 0#8 then [] else [(a, b)]) ++ cellsFrom (a + 1) bs) i = sget 0#8 (cellsFrom (a + 1) bs) i := by
        split
        · rfl
        · simp [sget, Ne.symm hi]
      rw [this, ih]
      by_cases hle : a ≤ i
      · have h1 : a + 1 ≤ i := by omega
        have h2 : i - a = (i - (a + 1)) + 1 := by omega
        rw [if_pos h1, if_pos hle, h2, List.getD_cons_succ]
      · rw [if_neg (by omega), if_neg hle]

/-- A byte read after bytes were written from `a` on: the byte written inside them, the old byte elsewhere. -/
theorem Memory.byte_put {m : Memory} {a i : Nat} {bs : List Byte} :
    (m.put a bs).byte i = if a ≤ i ∧ i < a + bs.length then bs.getD (i - a) 0#8 else m.byte i := by
  unfold Memory.put Memory.byte
  rw [List.append_assoc, sget_append, sget_append]
  have hc := sget_cellsFrom (a := a) (i := i) (bs := bs)
  have hk (h : ¬ (a ≤ i ∧ i < a + bs.length)) : (cellsFrom a bs).any (fun c => c.1 == i) = false :=
    any_key_false (P := fun k => a ≤ k ∧ k < a + bs.length) (fun _ hc => cellsFrom_keys hc) h
  by_cases h1 : i < a
  · have h3 : ¬ (a ≤ i ∧ i < a + bs.length) := by omega
    have hl := sget_filter_keep (m := m) (d := (0#8 : Byte)) (fun k => decide (k < a)) (i := i) (by simpa using h1)
    rw [if_neg h3, hk h3]
    split
    · exact hl
    · rename_i hn
      simp only [Bool.false_eq_true, if_false]
      rw [sget_filter_drop (fun k => decide (a + bs.length ≤ k)) (by simp; omega), ← hl]
      exact (sget_not_mem (Bool.eq_false_iff.2 hn)).symm
  · rw [any_filter_false (fun k => decide (k < a)) (by simp; omega)]
    simp only [Bool.false_eq_true, if_false]
    by_cases h2 : i < a + bs.length
    · rw [if_pos (⟨by omega, h2⟩ : a ≤ i ∧ i < a + bs.length)]
      rw [if_pos (by omega : a ≤ i)] at hc
      split
      · exact hc
      · rename_i hn
        rw [sget_filter_drop (fun k => decide (a + bs.length ≤ k)) (by simp; omega), ← hc]
        exact (sget_not_mem (Bool.eq_false_iff.2 hn)).symm
    · have h3 : ¬ (a ≤ i ∧ i < a + bs.length) := by omega
      rw [if_neg h3, hk h3]
      exact sget_filter_keep (fun k => decide (a + bs.length ≤ k)) (by simpa using h2)

/-- A byte read after rows were zeroed: zero inside them, the old byte elsewhere. -/
theorem Memory.byte_zeroRows {m : Memory} {r n i : Nat} :
    (m.zeroRows r n).byte i = if 64 * r ≤ i ∧ i < 64 * (r + n) then 0#8 else m.byte i := by
  unfold Memory.zeroRows Memory.byte
  split
  · rename_i h
    exact sget_filter_drop (fun k => decide (k < 64 * r ∨ 64 * (r + n) ≤ k)) (by simp; omega)
  · rename_i h
    exact sget_filter_keep (fun k => decide (k < 64 * r ∨ 64 * (r + n) ≤ k)) (by simp; omega)

theorem bytesOf_length (w : Word) : (bytesOf w).length = 8 := by simp [bytesOf]

theorem flatMap_bytesOf_length (ws : List Word) : (ws.flatMap bytesOf).length = 8 * ws.length := by
  induction ws with
  | nil => rfl
  | cons w ws ih => simp [bytesOf_length, ih]; omega

/-- Words written from word address `i` on leave every byte outside them as it was. -/
theorem Memory.byte_putWords_out {m : Memory} {i a : Nat} {ws : List Word} (h : a < 8 * i ∨ 8 * (i + ws.length) ≤ a) :
    (m.putWords i ws).byte a = m.byte a := by
  unfold Memory.putWords
  rw [Memory.byte_put, flatMap_bytesOf_length, if_neg (by omega)]

end Sys2Proof.Machine
end

