-- ==== Sys2Proof/Laws/State.lean ====
section
/-! SUPPORT. The state after each update, field by field: an update leaves every field but its own, and reading what was
written gives it back. -/
namespace Sys2Proof.Machine

variable (s : State)

/-! `State.setEdge` -/
@[simp] theorem State.setEdge_grade (n : Nat) (v : EdgeAux) : (s.setEdge n v).grade = s.grade := rfl
@[simp] theorem State.setEdge_tm (n : Nat) (v : EdgeAux) : (s.setEdge n v).tm = s.tm := rfl
@[simp] theorem State.setEdge_rs (n : Nat) (v : EdgeAux) : (s.setEdge n v).rs = s.rs := rfl
@[simp] theorem State.setEdge_trb (n : Nat) (v : EdgeAux) : (s.setEdge n v).trb = s.trb := rfl
@[simp] theorem State.setEdge_entries (n : Nat) (v : EdgeAux) : (s.setEdge n v).entries = s.entries := rfl
@[simp] theorem State.setEdge_home (n : Nat) (v : EdgeAux) : (s.setEdge n v).home = s.home := rfl
@[simp] theorem State.setEdge_slots (n : Nat) (v : EdgeAux) : (s.setEdge n v).slots = s.slots := rfl
@[simp] theorem State.setEdge_ledgers (n : Nat) (v : EdgeAux) : (s.setEdge n v).ledgers = s.ledgers := rfl
@[simp] theorem State.setEdge_parts (n : Nat) (v : EdgeAux) : (s.setEdge n v).parts = s.parts := rfl
@[simp] theorem State.setEdge_ints (n : Nat) (v : EdgeAux) : (s.setEdge n v).ints = s.ints := rfl
@[simp] theorem State.setEdge_cmi (n : Nat) (v : EdgeAux) : (s.setEdge n v).cmi = s.cmi := rfl
@[simp] theorem State.setEdge_mem (n : Nat) (v : EdgeAux) : (s.setEdge n v).mem = s.mem := rfl
@[simp] theorem State.setEdge_hdl (n : Nat) (v : EdgeAux) : (s.setEdge n v).hdl = s.hdl := rfl
@[simp] theorem State.setEdge_img (n : Nat) (v : EdgeAux) : (s.setEdge n v).img = s.img := rfl
@[simp] theorem State.setEdge_com (n : Nat) (v : EdgeAux) : (s.setEdge n v).com = s.com := rfl
@[simp] theorem State.setEdge_bal (n : Nat) (v : EdgeAux) : (s.setEdge n v).bal = s.bal := rfl
@[simp] theorem State.setEdge_net (n : Nat) (v : EdgeAux) : (s.setEdge n v).net = s.net := rfl
@[simp] theorem State.setEdge_fsp (n : Nat) (v : EdgeAux) : (s.setEdge n v).fsp = s.fsp := rfl
@[simp] theorem State.setEdge_tier (n : Nat) (v : EdgeAux) : (s.setEdge n v).tier = s.tier := rfl
@[simp] theorem State.setEdge_clk (n : Nat) (v : EdgeAux) : (s.setEdge n v).clk = s.clk := rfl
@[simp] theorem State.setEdge_role (n : Nat) (v : EdgeAux) : (s.setEdge n v).role = s.role := rfl
@[simp] theorem State.setEdge_roleShadow (n : Nat) (v : EdgeAux) : (s.setEdge n v).roleShadow = s.roleShadow := rfl
@[simp] theorem State.setEdge_denied (n : Nat) (v : EdgeAux) : (s.setEdge n v).denied = s.denied := rfl
@[simp] theorem State.setEdge_misformed (n : Nat) (v : EdgeAux) : (s.setEdge n v).misformed = s.misformed := rfl
@[simp] theorem State.setEdge_blocked (n : Nat) (v : EdgeAux) : (s.setEdge n v).blocked = s.blocked := rfl
@[simp] theorem State.setEdge_hrpOut (n : Nat) (v : EdgeAux) : (s.setEdge n v).hrpOut = s.hrpOut := rfl
@[simp] theorem State.setEdge_fspOut (n : Nat) (v : EdgeAux) : (s.setEdge n v).fspOut = s.fspOut := rfl
@[simp] theorem State.setEdge_tap (n : Nat) (v : EdgeAux) : (s.setEdge n v).tap = s.tap := rfl
@[simp] theorem State.setEdge_pending (n : Nat) (v : EdgeAux) : (s.setEdge n v).pending = s.pending := rfl
@[simp] theorem State.setEdge_entry (n : Nat) (v : EdgeAux) (k : Nat) : (s.setEdge n v).entry k = s.entry k := rfl
@[simp] theorem State.setEdge_homeAt (n : Nat) (v : EdgeAux) (k : Nat) : (s.setEdge n v).homeAt k = s.homeAt k := rfl
@[simp] theorem State.setEdge_slotAt (n : Nat) (v : EdgeAux) (k : Nat) : (s.setEdge n v).slotAt k = s.slotAt k := rfl
@[simp] theorem State.setEdge_ledger (n : Nat) (v : EdgeAux) (k : Nat) : (s.setEdge n v).ledger k = s.ledger k := rfl
@[simp] theorem State.setEdge_part (n : Nat) (v : EdgeAux) (k : Nat) : (s.setEdge n v).part k = s.part k := rfl

/-! `State.setHome` -/
@[simp] theorem State.setHome_grade (n : Nat) (v : HomeAux) : (s.setHome n v).grade = s.grade := rfl
@[simp] theorem State.setHome_tm (n : Nat) (v : HomeAux) : (s.setHome n v).tm = s.tm := rfl
@[simp] theorem State.setHome_rs (n : Nat) (v : HomeAux) : (s.setHome n v).rs = s.rs := rfl
@[simp] theorem State.setHome_trb (n : Nat) (v : HomeAux) : (s.setHome n v).trb = s.trb := rfl
@[simp] theorem State.setHome_entries (n : Nat) (v : HomeAux) : (s.setHome n v).entries = s.entries := rfl
@[simp] theorem State.setHome_edge (n : Nat) (v : HomeAux) : (s.setHome n v).edge = s.edge := rfl
@[simp] theorem State.setHome_slots (n : Nat) (v : HomeAux) : (s.setHome n v).slots = s.slots := rfl
@[simp] theorem State.setHome_ledgers (n : Nat) (v : HomeAux) : (s.setHome n v).ledgers = s.ledgers := rfl
@[simp] theorem State.setHome_parts (n : Nat) (v : HomeAux) : (s.setHome n v).parts = s.parts := rfl
@[simp] theorem State.setHome_ints (n : Nat) (v : HomeAux) : (s.setHome n v).ints = s.ints := rfl
@[simp] theorem State.setHome_cmi (n : Nat) (v : HomeAux) : (s.setHome n v).cmi = s.cmi := rfl
@[simp] theorem State.setHome_mem (n : Nat) (v : HomeAux) : (s.setHome n v).mem = s.mem := rfl
@[simp] theorem State.setHome_hdl (n : Nat) (v : HomeAux) : (s.setHome n v).hdl = s.hdl := rfl
@[simp] theorem State.setHome_img (n : Nat) (v : HomeAux) : (s.setHome n v).img = s.img := rfl
@[simp] theorem State.setHome_com (n : Nat) (v : HomeAux) : (s.setHome n v).com = s.com := rfl
@[simp] theorem State.setHome_bal (n : Nat) (v : HomeAux) : (s.setHome n v).bal = s.bal := rfl
@[simp] theorem State.setHome_net (n : Nat) (v : HomeAux) : (s.setHome n v).net = s.net := rfl
@[simp] theorem State.setHome_fsp (n : Nat) (v : HomeAux) : (s.setHome n v).fsp = s.fsp := rfl
@[simp] theorem State.setHome_tier (n : Nat) (v : HomeAux) : (s.setHome n v).tier = s.tier := rfl
@[simp] theorem State.setHome_clk (n : Nat) (v : HomeAux) : (s.setHome n v).clk = s.clk := rfl
@[simp] theorem State.setHome_role (n : Nat) (v : HomeAux) : (s.setHome n v).role = s.role := rfl
@[simp] theorem State.setHome_roleShadow (n : Nat) (v : HomeAux) : (s.setHome n v).roleShadow = s.roleShadow := rfl
@[simp] theorem State.setHome_denied (n : Nat) (v : HomeAux) : (s.setHome n v).denied = s.denied := rfl
@[simp] theorem State.setHome_misformed (n : Nat) (v : HomeAux) : (s.setHome n v).misformed = s.misformed := rfl
@[simp] theorem State.setHome_blocked (n : Nat) (v : HomeAux) : (s.setHome n v).blocked = s.blocked := rfl
@[simp] theorem State.setHome_hrpOut (n : Nat) (v : HomeAux) : (s.setHome n v).hrpOut = s.hrpOut := rfl
@[simp] theorem State.setHome_fspOut (n : Nat) (v : HomeAux) : (s.setHome n v).fspOut = s.fspOut := rfl
@[simp] theorem State.setHome_tap (n : Nat) (v : HomeAux) : (s.setHome n v).tap = s.tap := rfl
@[simp] theorem State.setHome_pending (n : Nat) (v : HomeAux) : (s.setHome n v).pending = s.pending := rfl
@[simp] theorem State.setHome_entry (n : Nat) (v : HomeAux) (k : Nat) : (s.setHome n v).entry k = s.entry k := rfl
@[simp] theorem State.setHome_edgeAt (n : Nat) (v : HomeAux) (k : Nat) : (s.setHome n v).edgeAt k = s.edgeAt k := rfl
@[simp] theorem State.setHome_slotAt (n : Nat) (v : HomeAux) (k : Nat) : (s.setHome n v).slotAt k = s.slotAt k := rfl
@[simp] theorem State.setHome_ledger (n : Nat) (v : HomeAux) (k : Nat) : (s.setHome n v).ledger k = s.ledger k := rfl
@[simp] theorem State.setHome_part (n : Nat) (v : HomeAux) (k : Nat) : (s.setHome n v).part k = s.part k := rfl

/-! `State.setSlot` -/
@[simp] theorem State.setSlot_grade (n : Nat) (v : SlotAux) : (s.setSlot n v).grade = s.grade := rfl
@[simp] theorem State.setSlot_tm (n : Nat) (v : SlotAux) : (s.setSlot n v).tm = s.tm := rfl
@[simp] theorem State.setSlot_rs (n : Nat) (v : SlotAux) : (s.setSlot n v).rs = s.rs := rfl
@[simp] theorem State.setSlot_trb (n : Nat) (v : SlotAux) : (s.setSlot n v).trb = s.trb := rfl
@[simp] theorem State.setSlot_entries (n : Nat) (v : SlotAux) : (s.setSlot n v).entries = s.entries := rfl
@[simp] theorem State.setSlot_edge (n : Nat) (v : SlotAux) : (s.setSlot n v).edge = s.edge := rfl
@[simp] theorem State.setSlot_home (n : Nat) (v : SlotAux) : (s.setSlot n v).home = s.home := rfl
@[simp] theorem State.setSlot_ledgers (n : Nat) (v : SlotAux) : (s.setSlot n v).ledgers = s.ledgers := rfl
@[simp] theorem State.setSlot_parts (n : Nat) (v : SlotAux) : (s.setSlot n v).parts = s.parts := rfl
@[simp] theorem State.setSlot_ints (n : Nat) (v : SlotAux) : (s.setSlot n v).ints = s.ints := rfl
@[simp] theorem State.setSlot_cmi (n : Nat) (v : SlotAux) : (s.setSlot n v).cmi = s.cmi := rfl
@[simp] theorem State.setSlot_mem (n : Nat) (v : SlotAux) : (s.setSlot n v).mem = s.mem := rfl
@[simp] theorem State.setSlot_hdl (n : Nat) (v : SlotAux) : (s.setSlot n v).hdl = s.hdl := rfl
@[simp] theorem State.setSlot_img (n : Nat) (v : SlotAux) : (s.setSlot n v).img = s.img := rfl
@[simp] theorem State.setSlot_com (n : Nat) (v : SlotAux) : (s.setSlot n v).com = s.com := rfl
@[simp] theorem State.setSlot_bal (n : Nat) (v : SlotAux) : (s.setSlot n v).bal = s.bal := rfl
@[simp] theorem State.setSlot_net (n : Nat) (v : SlotAux) : (s.setSlot n v).net = s.net := rfl
@[simp] theorem State.setSlot_fsp (n : Nat) (v : SlotAux) : (s.setSlot n v).fsp = s.fsp := rfl
@[simp] theorem State.setSlot_tier (n : Nat) (v : SlotAux) : (s.setSlot n v).tier = s.tier := rfl
@[simp] theorem State.setSlot_clk (n : Nat) (v : SlotAux) : (s.setSlot n v).clk = s.clk := rfl
@[simp] theorem State.setSlot_role (n : Nat) (v : SlotAux) : (s.setSlot n v).role = s.role := rfl
@[simp] theorem State.setSlot_roleShadow (n : Nat) (v : SlotAux) : (s.setSlot n v).roleShadow = s.roleShadow := rfl
@[simp] theorem State.setSlot_denied (n : Nat) (v : SlotAux) : (s.setSlot n v).denied = s.denied := rfl
@[simp] theorem State.setSlot_misformed (n : Nat) (v : SlotAux) : (s.setSlot n v).misformed = s.misformed := rfl
@[simp] theorem State.setSlot_blocked (n : Nat) (v : SlotAux) : (s.setSlot n v).blocked = s.blocked := rfl
@[simp] theorem State.setSlot_hrpOut (n : Nat) (v : SlotAux) : (s.setSlot n v).hrpOut = s.hrpOut := rfl
@[simp] theorem State.setSlot_fspOut (n : Nat) (v : SlotAux) : (s.setSlot n v).fspOut = s.fspOut := rfl
@[simp] theorem State.setSlot_tap (n : Nat) (v : SlotAux) : (s.setSlot n v).tap = s.tap := rfl
@[simp] theorem State.setSlot_pending (n : Nat) (v : SlotAux) : (s.setSlot n v).pending = s.pending := rfl
@[simp] theorem State.setSlot_entry (n : Nat) (v : SlotAux) (k : Nat) : (s.setSlot n v).entry k = s.entry k := rfl
@[simp] theorem State.setSlot_edgeAt (n : Nat) (v : SlotAux) (k : Nat) : (s.setSlot n v).edgeAt k = s.edgeAt k := rfl
@[simp] theorem State.setSlot_homeAt (n : Nat) (v : SlotAux) (k : Nat) : (s.setSlot n v).homeAt k = s.homeAt k := rfl
@[simp] theorem State.setSlot_ledger (n : Nat) (v : SlotAux) (k : Nat) : (s.setSlot n v).ledger k = s.ledger k := rfl
@[simp] theorem State.setSlot_part (n : Nat) (v : SlotAux) (k : Nat) : (s.setSlot n v).part k = s.part k := rfl

/-! `State.setPart` -/
@[simp] theorem State.setPart_grade (n : Nat) (v : Partn) : (s.setPart n v).grade = s.grade := rfl
@[simp] theorem State.setPart_tm (n : Nat) (v : Partn) : (s.setPart n v).tm = s.tm := rfl
@[simp] theorem State.setPart_rs (n : Nat) (v : Partn) : (s.setPart n v).rs = s.rs := rfl
@[simp] theorem State.setPart_trb (n : Nat) (v : Partn) : (s.setPart n v).trb = s.trb := rfl
@[simp] theorem State.setPart_entries (n : Nat) (v : Partn) : (s.setPart n v).entries = s.entries := rfl
@[simp] theorem State.setPart_edge (n : Nat) (v : Partn) : (s.setPart n v).edge = s.edge := rfl
@[simp] theorem State.setPart_home (n : Nat) (v : Partn) : (s.setPart n v).home = s.home := rfl
@[simp] theorem State.setPart_slots (n : Nat) (v : Partn) : (s.setPart n v).slots = s.slots := rfl
@[simp] theorem State.setPart_ledgers (n : Nat) (v : Partn) : (s.setPart n v).ledgers = s.ledgers := rfl
@[simp] theorem State.setPart_ints (n : Nat) (v : Partn) : (s.setPart n v).ints = s.ints := rfl
@[simp] theorem State.setPart_cmi (n : Nat) (v : Partn) : (s.setPart n v).cmi = s.cmi := rfl
@[simp] theorem State.setPart_mem (n : Nat) (v : Partn) : (s.setPart n v).mem = s.mem := rfl
@[simp] theorem State.setPart_hdl (n : Nat) (v : Partn) : (s.setPart n v).hdl = s.hdl := rfl
@[simp] theorem State.setPart_img (n : Nat) (v : Partn) : (s.setPart n v).img = s.img := rfl
@[simp] theorem State.setPart_com (n : Nat) (v : Partn) : (s.setPart n v).com = s.com := rfl
@[simp] theorem State.setPart_bal (n : Nat) (v : Partn) : (s.setPart n v).bal = s.bal := rfl
@[simp] theorem State.setPart_net (n : Nat) (v : Partn) : (s.setPart n v).net = s.net := rfl
@[simp] theorem State.setPart_fsp (n : Nat) (v : Partn) : (s.setPart n v).fsp = s.fsp := rfl
@[simp] theorem State.setPart_tier (n : Nat) (v : Partn) : (s.setPart n v).tier = s.tier := rfl
@[simp] theorem State.setPart_clk (n : Nat) (v : Partn) : (s.setPart n v).clk = s.clk := rfl
@[simp] theorem State.setPart_role (n : Nat) (v : Partn) : (s.setPart n v).role = s.role := rfl
@[simp] theorem State.setPart_roleShadow (n : Nat) (v : Partn) : (s.setPart n v).roleShadow = s.roleShadow := rfl
@[simp] theorem State.setPart_denied (n : Nat) (v : Partn) : (s.setPart n v).denied = s.denied := rfl
@[simp] theorem State.setPart_misformed (n : Nat) (v : Partn) : (s.setPart n v).misformed = s.misformed := rfl
@[simp] theorem State.setPart_blocked (n : Nat) (v : Partn) : (s.setPart n v).blocked = s.blocked := rfl
@[simp] theorem State.setPart_hrpOut (n : Nat) (v : Partn) : (s.setPart n v).hrpOut = s.hrpOut := rfl
@[simp] theorem State.setPart_fspOut (n : Nat) (v : Partn) : (s.setPart n v).fspOut = s.fspOut := rfl
@[simp] theorem State.setPart_tap (n : Nat) (v : Partn) : (s.setPart n v).tap = s.tap := rfl
@[simp] theorem State.setPart_pending (n : Nat) (v : Partn) : (s.setPart n v).pending = s.pending := rfl
@[simp] theorem State.setPart_entry (n : Nat) (v : Partn) (k : Nat) : (s.setPart n v).entry k = s.entry k := rfl
@[simp] theorem State.setPart_edgeAt (n : Nat) (v : Partn) (k : Nat) : (s.setPart n v).edgeAt k = s.edgeAt k := rfl
@[simp] theorem State.setPart_homeAt (n : Nat) (v : Partn) (k : Nat) : (s.setPart n v).homeAt k = s.homeAt k := rfl
@[simp] theorem State.setPart_slotAt (n : Nat) (v : Partn) (k : Nat) : (s.setPart n v).slotAt k = s.slotAt k := rfl
@[simp] theorem State.setPart_ledger (n : Nat) (v : Partn) (k : Nat) : (s.setPart n v).ledger k = s.ledger k := rfl

/-! `State.setInLane` -/
@[simp] theorem State.setInLane_grade (l : Nat) (v : Lane) : (s.setInLane l v).grade = s.grade := rfl
@[simp] theorem State.setInLane_tm (l : Nat) (v : Lane) : (s.setInLane l v).tm = s.tm := rfl
@[simp] theorem State.setInLane_rs (l : Nat) (v : Lane) : (s.setInLane l v).rs = s.rs := rfl
@[simp] theorem State.setInLane_trb (l : Nat) (v : Lane) : (s.setInLane l v).trb = s.trb := rfl
@[simp] theorem State.setInLane_entries (l : Nat) (v : Lane) : (s.setInLane l v).entries = s.entries := rfl
@[simp] theorem State.setInLane_edge (l : Nat) (v : Lane) : (s.setInLane l v).edge = s.edge := rfl
@[simp] theorem State.setInLane_home (l : Nat) (v : Lane) : (s.setInLane l v).home = s.home := rfl
@[simp] theorem State.setInLane_slots (l : Nat) (v : Lane) : (s.setInLane l v).slots = s.slots := rfl
@[simp] theorem State.setInLane_ledgers (l : Nat) (v : Lane) : (s.setInLane l v).ledgers = s.ledgers := rfl
@[simp] theorem State.setInLane_parts (l : Nat) (v : Lane) : (s.setInLane l v).parts = s.parts := rfl
@[simp] theorem State.setInLane_ints (l : Nat) (v : Lane) : (s.setInLane l v).ints = s.ints := rfl
@[simp] theorem State.setInLane_cmi (l : Nat) (v : Lane) : (s.setInLane l v).cmi = s.cmi := rfl
@[simp] theorem State.setInLane_mem (l : Nat) (v : Lane) : (s.setInLane l v).mem = s.mem := rfl
@[simp] theorem State.setInLane_hdl (l : Nat) (v : Lane) : (s.setInLane l v).hdl = s.hdl := rfl
@[simp] theorem State.setInLane_img (l : Nat) (v : Lane) : (s.setInLane l v).img = s.img := rfl
@[simp] theorem State.setInLane_com (l : Nat) (v : Lane) : (s.setInLane l v).com = s.com := rfl
@[simp] theorem State.setInLane_bal (l : Nat) (v : Lane) : (s.setInLane l v).bal = s.bal := rfl
@[simp] theorem State.setInLane_net (l : Nat) (v : Lane) : (s.setInLane l v).net = s.net := rfl
@[simp] theorem State.setInLane_tier (l : Nat) (v : Lane) : (s.setInLane l v).tier = s.tier := rfl
@[simp] theorem State.setInLane_clk (l : Nat) (v : Lane) : (s.setInLane l v).clk = s.clk := rfl
@[simp] theorem State.setInLane_role (l : Nat) (v : Lane) : (s.setInLane l v).role = s.role := rfl
@[simp] theorem State.setInLane_roleShadow (l : Nat) (v : Lane) : (s.setInLane l v).roleShadow = s.roleShadow := rfl
@[simp] theorem State.setInLane_denied (l : Nat) (v : Lane) : (s.setInLane l v).denied = s.denied := rfl
@[simp] theorem State.setInLane_misformed (l : Nat) (v : Lane) : (s.setInLane l v).misformed = s.misformed := rfl
@[simp] theorem State.setInLane_blocked (l : Nat) (v : Lane) : (s.setInLane l v).blocked = s.blocked := rfl
@[simp] theorem State.setInLane_hrpOut (l : Nat) (v : Lane) : (s.setInLane l v).hrpOut = s.hrpOut := rfl
@[simp] theorem State.setInLane_fspOut (l : Nat) (v : Lane) : (s.setInLane l v).fspOut = s.fspOut := rfl
@[simp] theorem State.setInLane_tap (l : Nat) (v : Lane) : (s.setInLane l v).tap = s.tap := rfl
@[simp] theorem State.setInLane_pending (l : Nat) (v : Lane) : (s.setInLane l v).pending = s.pending := rfl
@[simp] theorem State.setInLane_entry (l : Nat) (v : Lane) (k : Nat) : (s.setInLane l v).entry k = s.entry k := rfl
@[simp] theorem State.setInLane_edgeAt (l : Nat) (v : Lane) (k : Nat) : (s.setInLane l v).edgeAt k = s.edgeAt k := rfl
@[simp] theorem State.setInLane_homeAt (l : Nat) (v : Lane) (k : Nat) : (s.setInLane l v).homeAt k = s.homeAt k := rfl
@[simp] theorem State.setInLane_slotAt (l : Nat) (v : Lane) (k : Nat) : (s.setInLane l v).slotAt k = s.slotAt k := rfl
@[simp] theorem State.setInLane_ledger (l : Nat) (v : Lane) (k : Nat) : (s.setInLane l v).ledger k = s.ledger k := rfl
@[simp] theorem State.setInLane_part (l : Nat) (v : Lane) (k : Nat) : (s.setInLane l v).part k = s.part k := rfl

/-! `State.setOutLane` -/
@[simp] theorem State.setOutLane_grade (l : Nat) (v : Lane) : (s.setOutLane l v).grade = s.grade := rfl
@[simp] theorem State.setOutLane_tm (l : Nat) (v : Lane) : (s.setOutLane l v).tm = s.tm := rfl
@[simp] theorem State.setOutLane_rs (l : Nat) (v : Lane) : (s.setOutLane l v).rs = s.rs := rfl
@[simp] theorem State.setOutLane_trb (l : Nat) (v : Lane) : (s.setOutLane l v).trb = s.trb := rfl
@[simp] theorem State.setOutLane_entries (l : Nat) (v : Lane) : (s.setOutLane l v).entries = s.entries := rfl
@[simp] theorem State.setOutLane_edge (l : Nat) (v : Lane) : (s.setOutLane l v).edge = s.edge := rfl
@[simp] theorem State.setOutLane_home (l : Nat) (v : Lane) : (s.setOutLane l v).home = s.home := rfl
@[simp] theorem State.setOutLane_slots (l : Nat) (v : Lane) : (s.setOutLane l v).slots = s.slots := rfl
@[simp] theorem State.setOutLane_ledgers (l : Nat) (v : Lane) : (s.setOutLane l v).ledgers = s.ledgers := rfl
@[simp] theorem State.setOutLane_parts (l : Nat) (v : Lane) : (s.setOutLane l v).parts = s.parts := rfl
@[simp] theorem State.setOutLane_ints (l : Nat) (v : Lane) : (s.setOutLane l v).ints = s.ints := rfl
@[simp] theorem State.setOutLane_cmi (l : Nat) (v : Lane) : (s.setOutLane l v).cmi = s.cmi := rfl
@[simp] theorem State.setOutLane_mem (l : Nat) (v : Lane) : (s.setOutLane l v).mem = s.mem := rfl
@[simp] theorem State.setOutLane_hdl (l : Nat) (v : Lane) : (s.setOutLane l v).hdl = s.hdl := rfl
@[simp] theorem State.setOutLane_img (l : Nat) (v : Lane) : (s.setOutLane l v).img = s.img := rfl
@[simp] theorem State.setOutLane_com (l : Nat) (v : Lane) : (s.setOutLane l v).com = s.com := rfl
@[simp] theorem State.setOutLane_bal (l : Nat) (v : Lane) : (s.setOutLane l v).bal = s.bal := rfl
@[simp] theorem State.setOutLane_net (l : Nat) (v : Lane) : (s.setOutLane l v).net = s.net := rfl
@[simp] theorem State.setOutLane_tier (l : Nat) (v : Lane) : (s.setOutLane l v).tier = s.tier := rfl
@[simp] theorem State.setOutLane_clk (l : Nat) (v : Lane) : (s.setOutLane l v).clk = s.clk := rfl
@[simp] theorem State.setOutLane_role (l : Nat) (v : Lane) : (s.setOutLane l v).role = s.role := rfl
@[simp] theorem State.setOutLane_roleShadow (l : Nat) (v : Lane) : (s.setOutLane l v).roleShadow = s.roleShadow := rfl
@[simp] theorem State.setOutLane_denied (l : Nat) (v : Lane) : (s.setOutLane l v).denied = s.denied := rfl
@[simp] theorem State.setOutLane_misformed (l : Nat) (v : Lane) : (s.setOutLane l v).misformed = s.misformed := rfl
@[simp] theorem State.setOutLane_blocked (l : Nat) (v : Lane) : (s.setOutLane l v).blocked = s.blocked := rfl
@[simp] theorem State.setOutLane_hrpOut (l : Nat) (v : Lane) : (s.setOutLane l v).hrpOut = s.hrpOut := rfl
@[simp] theorem State.setOutLane_fspOut (l : Nat) (v : Lane) : (s.setOutLane l v).fspOut = s.fspOut := rfl
@[simp] theorem State.setOutLane_tap (l : Nat) (v : Lane) : (s.setOutLane l v).tap = s.tap := rfl
@[simp] theorem State.setOutLane_pending (l : Nat) (v : Lane) : (s.setOutLane l v).pending = s.pending := rfl
@[simp] theorem State.setOutLane_entry (l : Nat) (v : Lane) (k : Nat) : (s.setOutLane l v).entry k = s.entry k := rfl
@[simp] theorem State.setOutLane_edgeAt (l : Nat) (v : Lane) (k : Nat) : (s.setOutLane l v).edgeAt k = s.edgeAt k := rfl
@[simp] theorem State.setOutLane_homeAt (l : Nat) (v : Lane) (k : Nat) : (s.setOutLane l v).homeAt k = s.homeAt k := rfl
@[simp] theorem State.setOutLane_slotAt (l : Nat) (v : Lane) (k : Nat) : (s.setOutLane l v).slotAt k = s.slotAt k := rfl
@[simp] theorem State.setOutLane_ledger (l : Nat) (v : Lane) (k : Nat) : (s.setOutLane l v).ledger k = s.ledger k := rfl
@[simp] theorem State.setOutLane_part (l : Nat) (v : Lane) (k : Nat) : (s.setOutLane l v).part k = s.part k := rfl

/-! `State.setRelq` -/
@[simp] theorem State.setRelq_grade (l : Nat) (v : RelQ) : (s.setRelq l v).grade = s.grade := rfl
@[simp] theorem State.setRelq_tm (l : Nat) (v : RelQ) : (s.setRelq l v).tm = s.tm := rfl
@[simp] theorem State.setRelq_rs (l : Nat) (v : RelQ) : (s.setRelq l v).rs = s.rs := rfl
@[simp] theorem State.setRelq_trb (l : Nat) (v : RelQ) : (s.setRelq l v).trb = s.trb := rfl
@[simp] theorem State.setRelq_entries (l : Nat) (v : RelQ) : (s.setRelq l v).entries = s.entries := rfl
@[simp] theorem State.setRelq_edge (l : Nat) (v : RelQ) : (s.setRelq l v).edge = s.edge := rfl
@[simp] theorem State.setRelq_home (l : Nat) (v : RelQ) : (s.setRelq l v).home = s.home := rfl
@[simp] theorem State.setRelq_slots (l : Nat) (v : RelQ) : (s.setRelq l v).slots = s.slots := rfl
@[simp] theorem State.setRelq_ledgers (l : Nat) (v : RelQ) : (s.setRelq l v).ledgers = s.ledgers := rfl
@[simp] theorem State.setRelq_parts (l : Nat) (v : RelQ) : (s.setRelq l v).parts = s.parts := rfl
@[simp] theorem State.setRelq_ints (l : Nat) (v : RelQ) : (s.setRelq l v).ints = s.ints := rfl
@[simp] theorem State.setRelq_cmi (l : Nat) (v : RelQ) : (s.setRelq l v).cmi = s.cmi := rfl
@[simp] theorem State.setRelq_mem (l : Nat) (v : RelQ) : (s.setRelq l v).mem = s.mem := rfl
@[simp] theorem State.setRelq_hdl (l : Nat) (v : RelQ) : (s.setRelq l v).hdl = s.hdl := rfl
@[simp] theorem State.setRelq_img (l : Nat) (v : RelQ) : (s.setRelq l v).img = s.img := rfl
@[simp] theorem State.setRelq_com (l : Nat) (v : RelQ) : (s.setRelq l v).com = s.com := rfl
@[simp] theorem State.setRelq_bal (l : Nat) (v : RelQ) : (s.setRelq l v).bal = s.bal := rfl
@[simp] theorem State.setRelq_net (l : Nat) (v : RelQ) : (s.setRelq l v).net = s.net := rfl
@[simp] theorem State.setRelq_tier (l : Nat) (v : RelQ) : (s.setRelq l v).tier = s.tier := rfl
@[simp] theorem State.setRelq_clk (l : Nat) (v : RelQ) : (s.setRelq l v).clk = s.clk := rfl
@[simp] theorem State.setRelq_role (l : Nat) (v : RelQ) : (s.setRelq l v).role = s.role := rfl
@[simp] theorem State.setRelq_roleShadow (l : Nat) (v : RelQ) : (s.setRelq l v).roleShadow = s.roleShadow := rfl
@[simp] theorem State.setRelq_denied (l : Nat) (v : RelQ) : (s.setRelq l v).denied = s.denied := rfl
@[simp] theorem State.setRelq_misformed (l : Nat) (v : RelQ) : (s.setRelq l v).misformed = s.misformed := rfl
@[simp] theorem State.setRelq_blocked (l : Nat) (v : RelQ) : (s.setRelq l v).blocked = s.blocked := rfl
@[simp] theorem State.setRelq_hrpOut (l : Nat) (v : RelQ) : (s.setRelq l v).hrpOut = s.hrpOut := rfl
@[simp] theorem State.setRelq_fspOut (l : Nat) (v : RelQ) : (s.setRelq l v).fspOut = s.fspOut := rfl
@[simp] theorem State.setRelq_tap (l : Nat) (v : RelQ) : (s.setRelq l v).tap = s.tap := rfl
@[simp] theorem State.setRelq_pending (l : Nat) (v : RelQ) : (s.setRelq l v).pending = s.pending := rfl
@[simp] theorem State.setRelq_entry (l : Nat) (v : RelQ) (k : Nat) : (s.setRelq l v).entry k = s.entry k := rfl
@[simp] theorem State.setRelq_edgeAt (l : Nat) (v : RelQ) (k : Nat) : (s.setRelq l v).edgeAt k = s.edgeAt k := rfl
@[simp] theorem State.setRelq_homeAt (l : Nat) (v : RelQ) (k : Nat) : (s.setRelq l v).homeAt k = s.homeAt k := rfl
@[simp] theorem State.setRelq_slotAt (l : Nat) (v : RelQ) (k : Nat) : (s.setRelq l v).slotAt k = s.slotAt k := rfl
@[simp] theorem State.setRelq_ledger (l : Nat) (v : RelQ) (k : Nat) : (s.setRelq l v).ledger k = s.ledger k := rfl
@[simp] theorem State.setRelq_part (l : Nat) (v : RelQ) (k : Nat) : (s.setRelq l v).part k = s.part k := rfl

/-! `State.setDev` -/
@[simp] theorem State.setDev_grade (d : Nat) (v : Dev) : (s.setDev d v).grade = s.grade := rfl
@[simp] theorem State.setDev_tm (d : Nat) (v : Dev) : (s.setDev d v).tm = s.tm := rfl
@[simp] theorem State.setDev_rs (d : Nat) (v : Dev) : (s.setDev d v).rs = s.rs := rfl
@[simp] theorem State.setDev_trb (d : Nat) (v : Dev) : (s.setDev d v).trb = s.trb := rfl
@[simp] theorem State.setDev_entries (d : Nat) (v : Dev) : (s.setDev d v).entries = s.entries := rfl
@[simp] theorem State.setDev_edge (d : Nat) (v : Dev) : (s.setDev d v).edge = s.edge := rfl
@[simp] theorem State.setDev_home (d : Nat) (v : Dev) : (s.setDev d v).home = s.home := rfl
@[simp] theorem State.setDev_slots (d : Nat) (v : Dev) : (s.setDev d v).slots = s.slots := rfl
@[simp] theorem State.setDev_ledgers (d : Nat) (v : Dev) : (s.setDev d v).ledgers = s.ledgers := rfl
@[simp] theorem State.setDev_parts (d : Nat) (v : Dev) : (s.setDev d v).parts = s.parts := rfl
@[simp] theorem State.setDev_ints (d : Nat) (v : Dev) : (s.setDev d v).ints = s.ints := rfl
@[simp] theorem State.setDev_cmi (d : Nat) (v : Dev) : (s.setDev d v).cmi = s.cmi := rfl
@[simp] theorem State.setDev_mem (d : Nat) (v : Dev) : (s.setDev d v).mem = s.mem := rfl
@[simp] theorem State.setDev_hdl (d : Nat) (v : Dev) : (s.setDev d v).hdl = s.hdl := rfl
@[simp] theorem State.setDev_img (d : Nat) (v : Dev) : (s.setDev d v).img = s.img := rfl
@[simp] theorem State.setDev_com (d : Nat) (v : Dev) : (s.setDev d v).com = s.com := rfl
@[simp] theorem State.setDev_bal (d : Nat) (v : Dev) : (s.setDev d v).bal = s.bal := rfl
@[simp] theorem State.setDev_net (d : Nat) (v : Dev) : (s.setDev d v).net = s.net := rfl
@[simp] theorem State.setDev_fsp (d : Nat) (v : Dev) : (s.setDev d v).fsp = s.fsp := rfl
@[simp] theorem State.setDev_clk (d : Nat) (v : Dev) : (s.setDev d v).clk = s.clk := rfl
@[simp] theorem State.setDev_role (d : Nat) (v : Dev) : (s.setDev d v).role = s.role := rfl
@[simp] theorem State.setDev_roleShadow (d : Nat) (v : Dev) : (s.setDev d v).roleShadow = s.roleShadow := rfl
@[simp] theorem State.setDev_denied (d : Nat) (v : Dev) : (s.setDev d v).denied = s.denied := rfl
@[simp] theorem State.setDev_misformed (d : Nat) (v : Dev) : (s.setDev d v).misformed = s.misformed := rfl
@[simp] theorem State.setDev_blocked (d : Nat) (v : Dev) : (s.setDev d v).blocked = s.blocked := rfl
@[simp] theorem State.setDev_hrpOut (d : Nat) (v : Dev) : (s.setDev d v).hrpOut = s.hrpOut := rfl
@[simp] theorem State.setDev_fspOut (d : Nat) (v : Dev) : (s.setDev d v).fspOut = s.fspOut := rfl
@[simp] theorem State.setDev_tap (d : Nat) (v : Dev) : (s.setDev d v).tap = s.tap := rfl
@[simp] theorem State.setDev_pending (d : Nat) (v : Dev) : (s.setDev d v).pending = s.pending := rfl
@[simp] theorem State.setDev_entry (d : Nat) (v : Dev) (k : Nat) : (s.setDev d v).entry k = s.entry k := rfl
@[simp] theorem State.setDev_edgeAt (d : Nat) (v : Dev) (k : Nat) : (s.setDev d v).edgeAt k = s.edgeAt k := rfl
@[simp] theorem State.setDev_homeAt (d : Nat) (v : Dev) (k : Nat) : (s.setDev d v).homeAt k = s.homeAt k := rfl
@[simp] theorem State.setDev_slotAt (d : Nat) (v : Dev) (k : Nat) : (s.setDev d v).slotAt k = s.slotAt k := rfl
@[simp] theorem State.setDev_ledger (d : Nat) (v : Dev) (k : Nat) : (s.setDev d v).ledger k = s.ledger k := rfl
@[simp] theorem State.setDev_part (d : Nat) (v : Dev) (k : Nat) : (s.setDev d v).part k = s.part k := rfl

/-! `State.setCluster` -/
@[simp] theorem State.setCluster_grade (c : Nat) (v : Cluster) : (s.setCluster c v).grade = s.grade := rfl
@[simp] theorem State.setCluster_tm (c : Nat) (v : Cluster) : (s.setCluster c v).tm = s.tm := rfl
@[simp] theorem State.setCluster_rs (c : Nat) (v : Cluster) : (s.setCluster c v).rs = s.rs := rfl
@[simp] theorem State.setCluster_trb (c : Nat) (v : Cluster) : (s.setCluster c v).trb = s.trb := rfl
@[simp] theorem State.setCluster_entries (c : Nat) (v : Cluster) : (s.setCluster c v).entries = s.entries := rfl
@[simp] theorem State.setCluster_edge (c : Nat) (v : Cluster) : (s.setCluster c v).edge = s.edge := rfl
@[simp] theorem State.setCluster_home (c : Nat) (v : Cluster) : (s.setCluster c v).home = s.home := rfl
@[simp] theorem State.setCluster_slots (c : Nat) (v : Cluster) : (s.setCluster c v).slots = s.slots := rfl
@[simp] theorem State.setCluster_ledgers (c : Nat) (v : Cluster) : (s.setCluster c v).ledgers = s.ledgers := rfl
@[simp] theorem State.setCluster_parts (c : Nat) (v : Cluster) : (s.setCluster c v).parts = s.parts := rfl
@[simp] theorem State.setCluster_ints (c : Nat) (v : Cluster) : (s.setCluster c v).ints = s.ints := rfl
@[simp] theorem State.setCluster_cmi (c : Nat) (v : Cluster) : (s.setCluster c v).cmi = s.cmi := rfl
@[simp] theorem State.setCluster_mem (c : Nat) (v : Cluster) : (s.setCluster c v).mem = s.mem := rfl
@[simp] theorem State.setCluster_hdl (c : Nat) (v : Cluster) : (s.setCluster c v).hdl = s.hdl := rfl
@[simp] theorem State.setCluster_img (c : Nat) (v : Cluster) : (s.setCluster c v).img = s.img := rfl
@[simp] theorem State.setCluster_com (c : Nat) (v : Cluster) : (s.setCluster c v).com = s.com := rfl
@[simp] theorem State.setCluster_bal (c : Nat) (v : Cluster) : (s.setCluster c v).bal = s.bal := rfl
@[simp] theorem State.setCluster_net (c : Nat) (v : Cluster) : (s.setCluster c v).net = s.net := rfl
@[simp] theorem State.setCluster_fsp (c : Nat) (v : Cluster) : (s.setCluster c v).fsp = s.fsp := rfl
@[simp] theorem State.setCluster_tier (c : Nat) (v : Cluster) : (s.setCluster c v).tier = s.tier := rfl
@[simp] theorem State.setCluster_role (c : Nat) (v : Cluster) : (s.setCluster c v).role = s.role := rfl
@[simp] theorem State.setCluster_roleShadow (c : Nat) (v : Cluster) : (s.setCluster c v).roleShadow = s.roleShadow := rfl
@[simp] theorem State.setCluster_denied (c : Nat) (v : Cluster) : (s.setCluster c v).denied = s.denied := rfl
@[simp] theorem State.setCluster_misformed (c : Nat) (v : Cluster) : (s.setCluster c v).misformed = s.misformed := rfl
@[simp] theorem State.setCluster_blocked (c : Nat) (v : Cluster) : (s.setCluster c v).blocked = s.blocked := rfl
@[simp] theorem State.setCluster_hrpOut (c : Nat) (v : Cluster) : (s.setCluster c v).hrpOut = s.hrpOut := rfl
@[simp] theorem State.setCluster_fspOut (c : Nat) (v : Cluster) : (s.setCluster c v).fspOut = s.fspOut := rfl
@[simp] theorem State.setCluster_tap (c : Nat) (v : Cluster) : (s.setCluster c v).tap = s.tap := rfl
@[simp] theorem State.setCluster_pending (c : Nat) (v : Cluster) : (s.setCluster c v).pending = s.pending := rfl
@[simp] theorem State.setCluster_entry (c : Nat) (v : Cluster) (k : Nat) : (s.setCluster c v).entry k = s.entry k := rfl
@[simp] theorem State.setCluster_edgeAt (c : Nat) (v : Cluster) (k : Nat) : (s.setCluster c v).edgeAt k = s.edgeAt k := rfl
@[simp] theorem State.setCluster_homeAt (c : Nat) (v : Cluster) (k : Nat) : (s.setCluster c v).homeAt k = s.homeAt k := rfl
@[simp] theorem State.setCluster_slotAt (c : Nat) (v : Cluster) (k : Nat) : (s.setCluster c v).slotAt k = s.slotAt k := rfl
@[simp] theorem State.setCluster_ledger (c : Nat) (v : Cluster) (k : Nat) : (s.setCluster c v).ledger k = s.ledger k := rfl
@[simp] theorem State.setCluster_part (c : Nat) (v : Cluster) (k : Nat) : (s.setCluster c v).part k = s.part k := rfl

/-! `State.putOut` -/
@[simp] theorem State.putOut_grade (vc p : Nat) (reg : Bool) (ws : List Word) : (s.putOut vc p reg ws).grade = s.grade := rfl
@[simp] theorem State.putOut_tm (vc p : Nat) (reg : Bool) (ws : List Word) : (s.putOut vc p reg ws).tm = s.tm := rfl
@[simp] theorem State.putOut_rs (vc p : Nat) (reg : Bool) (ws : List Word) : (s.putOut vc p reg ws).rs = s.rs := rfl
@[simp] theorem State.putOut_trb (vc p : Nat) (reg : Bool) (ws : List Word) : (s.putOut vc p reg ws).trb = s.trb := rfl
@[simp] theorem State.putOut_entries (vc p : Nat) (reg : Bool) (ws : List Word) : (s.putOut vc p reg ws).entries = s.entries := rfl
@[simp] theorem State.putOut_edge (vc p : Nat) (reg : Bool) (ws : List Word) : (s.putOut vc p reg ws).edge = s.edge := rfl
@[simp] theorem State.putOut_home (vc p : Nat) (reg : Bool) (ws : List Word) : (s.putOut vc p reg ws).home = s.home := rfl
@[simp] theorem State.putOut_slots (vc p : Nat) (reg : Bool) (ws : List Word) : (s.putOut vc p reg ws).slots = s.slots := rfl
@[simp] theorem State.putOut_ledgers (vc p : Nat) (reg : Bool) (ws : List Word) : (s.putOut vc p reg ws).ledgers = s.ledgers := rfl
@[simp] theorem State.putOut_parts (vc p : Nat) (reg : Bool) (ws : List Word) : (s.putOut vc p reg ws).parts = s.parts := rfl
@[simp] theorem State.putOut_ints (vc p : Nat) (reg : Bool) (ws : List Word) : (s.putOut vc p reg ws).ints = s.ints := rfl
@[simp] theorem State.putOut_cmi (vc p : Nat) (reg : Bool) (ws : List Word) : (s.putOut vc p reg ws).cmi = s.cmi := rfl
@[simp] theorem State.putOut_mem (vc p : Nat) (reg : Bool) (ws : List Word) : (s.putOut vc p reg ws).mem = s.mem := rfl
@[simp] theorem State.putOut_hdl (vc p : Nat) (reg : Bool) (ws : List Word) : (s.putOut vc p reg ws).hdl = s.hdl := rfl
@[simp] theorem State.putOut_img (vc p : Nat) (reg : Bool) (ws : List Word) : (s.putOut vc p reg ws).img = s.img := rfl
@[simp] theorem State.putOut_com (vc p : Nat) (reg : Bool) (ws : List Word) : (s.putOut vc p reg ws).com = s.com := rfl
@[simp] theorem State.putOut_bal (vc p : Nat) (reg : Bool) (ws : List Word) : (s.putOut vc p reg ws).bal = s.bal := rfl
@[simp] theorem State.putOut_net (vc p : Nat) (reg : Bool) (ws : List Word) : (s.putOut vc p reg ws).net = s.net := rfl
@[simp] theorem State.putOut_fsp (vc p : Nat) (reg : Bool) (ws : List Word) : (s.putOut vc p reg ws).fsp = s.fsp := rfl
@[simp] theorem State.putOut_tier (vc p : Nat) (reg : Bool) (ws : List Word) : (s.putOut vc p reg ws).tier = s.tier := rfl
@[simp] theorem State.putOut_clk (vc p : Nat) (reg : Bool) (ws : List Word) : (s.putOut vc p reg ws).clk = s.clk := rfl
@[simp] theorem State.putOut_role (vc p : Nat) (reg : Bool) (ws : List Word) : (s.putOut vc p reg ws).role = s.role := rfl
@[simp] theorem State.putOut_roleShadow (vc p : Nat) (reg : Bool) (ws : List Word) : (s.putOut vc p reg ws).roleShadow = s.roleShadow := rfl
@[simp] theorem State.putOut_denied (vc p : Nat) (reg : Bool) (ws : List Word) : (s.putOut vc p reg ws).denied = s.denied := rfl
@[simp] theorem State.putOut_misformed (vc p : Nat) (reg : Bool) (ws : List Word) : (s.putOut vc p reg ws).misformed = s.misformed := rfl
@[simp] theorem State.putOut_blocked (vc p : Nat) (reg : Bool) (ws : List Word) : (s.putOut vc p reg ws).blocked = s.blocked := rfl
@[simp] theorem State.putOut_fspOut (vc p : Nat) (reg : Bool) (ws : List Word) : (s.putOut vc p reg ws).fspOut = s.fspOut := rfl
@[simp] theorem State.putOut_tap (vc p : Nat) (reg : Bool) (ws : List Word) : (s.putOut vc p reg ws).tap = s.tap := rfl
@[simp] theorem State.putOut_pending (vc p : Nat) (reg : Bool) (ws : List Word) : (s.putOut vc p reg ws).pending = s.pending := rfl
@[simp] theorem State.putOut_entry (vc p : Nat) (reg : Bool) (ws : List Word) (k : Nat) : (s.putOut vc p reg ws).entry k = s.entry k := rfl
@[simp] theorem State.putOut_edgeAt (vc p : Nat) (reg : Bool) (ws : List Word) (k : Nat) : (s.putOut vc p reg ws).edgeAt k = s.edgeAt k := rfl
@[simp] theorem State.putOut_homeAt (vc p : Nat) (reg : Bool) (ws : List Word) (k : Nat) : (s.putOut vc p reg ws).homeAt k = s.homeAt k := rfl
@[simp] theorem State.putOut_slotAt (vc p : Nat) (reg : Bool) (ws : List Word) (k : Nat) : (s.putOut vc p reg ws).slotAt k = s.slotAt k := rfl
@[simp] theorem State.putOut_ledger (vc p : Nat) (reg : Bool) (ws : List Word) (k : Nat) : (s.putOut vc p reg ws).ledger k = s.ledger k := rfl
@[simp] theorem State.putOut_part (vc p : Nat) (reg : Bool) (ws : List Word) (k : Nat) : (s.putOut vc p reg ws).part k = s.part k := rfl

/-! `State.putRetained` -/
@[simp] theorem State.putRetained_grade (i : Nat) (w : Word) : (s.putRetained i w).grade = s.grade := rfl
@[simp] theorem State.putRetained_tm (i : Nat) (w : Word) : (s.putRetained i w).tm = s.tm := rfl
@[simp] theorem State.putRetained_rs (i : Nat) (w : Word) : (s.putRetained i w).rs = s.rs := rfl
@[simp] theorem State.putRetained_entries (i : Nat) (w : Word) : (s.putRetained i w).entries = s.entries := rfl
@[simp] theorem State.putRetained_edge (i : Nat) (w : Word) : (s.putRetained i w).edge = s.edge := rfl
@[simp] theorem State.putRetained_home (i : Nat) (w : Word) : (s.putRetained i w).home = s.home := rfl
@[simp] theorem State.putRetained_slots (i : Nat) (w : Word) : (s.putRetained i w).slots = s.slots := rfl
@[simp] theorem State.putRetained_ledgers (i : Nat) (w : Word) : (s.putRetained i w).ledgers = s.ledgers := rfl
@[simp] theorem State.putRetained_parts (i : Nat) (w : Word) : (s.putRetained i w).parts = s.parts := rfl
@[simp] theorem State.putRetained_ints (i : Nat) (w : Word) : (s.putRetained i w).ints = s.ints := rfl
@[simp] theorem State.putRetained_cmi (i : Nat) (w : Word) : (s.putRetained i w).cmi = s.cmi := rfl
@[simp] theorem State.putRetained_mem (i : Nat) (w : Word) : (s.putRetained i w).mem = s.mem := rfl
@[simp] theorem State.putRetained_hdl (i : Nat) (w : Word) : (s.putRetained i w).hdl = s.hdl := rfl
@[simp] theorem State.putRetained_img (i : Nat) (w : Word) : (s.putRetained i w).img = s.img := rfl
@[simp] theorem State.putRetained_com (i : Nat) (w : Word) : (s.putRetained i w).com = s.com := rfl
@[simp] theorem State.putRetained_bal (i : Nat) (w : Word) : (s.putRetained i w).bal = s.bal := rfl
@[simp] theorem State.putRetained_net (i : Nat) (w : Word) : (s.putRetained i w).net = s.net := rfl
@[simp] theorem State.putRetained_fsp (i : Nat) (w : Word) : (s.putRetained i w).fsp = s.fsp := rfl
@[simp] theorem State.putRetained_tier (i : Nat) (w : Word) : (s.putRetained i w).tier = s.tier := rfl
@[simp] theorem State.putRetained_clk (i : Nat) (w : Word) : (s.putRetained i w).clk = s.clk := rfl
@[simp] theorem State.putRetained_role (i : Nat) (w : Word) : (s.putRetained i w).role = s.role := rfl
@[simp] theorem State.putRetained_roleShadow (i : Nat) (w : Word) : (s.putRetained i w).roleShadow = s.roleShadow := rfl
@[simp] theorem State.putRetained_denied (i : Nat) (w : Word) : (s.putRetained i w).denied = s.denied := rfl
@[simp] theorem State.putRetained_misformed (i : Nat) (w : Word) : (s.putRetained i w).misformed = s.misformed := rfl
@[simp] theorem State.putRetained_blocked (i : Nat) (w : Word) : (s.putRetained i w).blocked = s.blocked := rfl
@[simp] theorem State.putRetained_hrpOut (i : Nat) (w : Word) : (s.putRetained i w).hrpOut = s.hrpOut := rfl
@[simp] theorem State.putRetained_fspOut (i : Nat) (w : Word) : (s.putRetained i w).fspOut = s.fspOut := rfl
@[simp] theorem State.putRetained_tap (i : Nat) (w : Word) : (s.putRetained i w).tap = s.tap := rfl
@[simp] theorem State.putRetained_pending (i : Nat) (w : Word) : (s.putRetained i w).pending = s.pending := rfl
@[simp] theorem State.putRetained_entry (i : Nat) (w : Word) (k : Nat) : (s.putRetained i w).entry k = s.entry k := rfl
@[simp] theorem State.putRetained_edgeAt (i : Nat) (w : Word) (k : Nat) : (s.putRetained i w).edgeAt k = s.edgeAt k := rfl
@[simp] theorem State.putRetained_homeAt (i : Nat) (w : Word) (k : Nat) : (s.putRetained i w).homeAt k = s.homeAt k := rfl
@[simp] theorem State.putRetained_slotAt (i : Nat) (w : Word) (k : Nat) : (s.putRetained i w).slotAt k = s.slotAt k := rfl
@[simp] theorem State.putRetained_ledger (i : Nat) (w : Word) (k : Nat) : (s.putRetained i w).ledger k = s.ledger k := rfl
@[simp] theorem State.putRetained_part (i : Nat) (w : Word) (k : Nat) : (s.putRetained i w).part k = s.part k := rfl

/-! `State.pass` -/
@[simp] theorem State.pass_grade (n q : Nat) : (s.pass n q).grade = s.grade := rfl
@[simp] theorem State.pass_rs (n q : Nat) : (s.pass n q).rs = s.rs := rfl
@[simp] theorem State.pass_trb (n q : Nat) : (s.pass n q).trb = s.trb := rfl
@[simp] theorem State.pass_entries (n q : Nat) : (s.pass n q).entries = s.entries := rfl
@[simp] theorem State.pass_edge (n q : Nat) : (s.pass n q).edge = s.edge := rfl
@[simp] theorem State.pass_home (n q : Nat) : (s.pass n q).home = s.home := rfl
@[simp] theorem State.pass_slots (n q : Nat) : (s.pass n q).slots = s.slots := rfl
@[simp] theorem State.pass_ledgers (n q : Nat) : (s.pass n q).ledgers = s.ledgers := rfl
@[simp] theorem State.pass_parts (n q : Nat) : (s.pass n q).parts = s.parts := rfl
@[simp] theorem State.pass_ints (n q : Nat) : (s.pass n q).ints = s.ints := rfl
@[simp] theorem State.pass_cmi (n q : Nat) : (s.pass n q).cmi = s.cmi := rfl
@[simp] theorem State.pass_mem (n q : Nat) : (s.pass n q).mem = s.mem := rfl
@[simp] theorem State.pass_hdl (n q : Nat) : (s.pass n q).hdl = s.hdl := rfl
@[simp] theorem State.pass_img (n q : Nat) : (s.pass n q).img = s.img := rfl
@[simp] theorem State.pass_com (n q : Nat) : (s.pass n q).com = s.com := rfl
@[simp] theorem State.pass_bal (n q : Nat) : (s.pass n q).bal = s.bal := rfl
@[simp] theorem State.pass_net (n q : Nat) : (s.pass n q).net = s.net := rfl
@[simp] theorem State.pass_fsp (n q : Nat) : (s.pass n q).fsp = s.fsp := rfl
@[simp] theorem State.pass_tier (n q : Nat) : (s.pass n q).tier = s.tier := rfl
@[simp] theorem State.pass_role (n q : Nat) : (s.pass n q).role = s.role := rfl
@[simp] theorem State.pass_roleShadow (n q : Nat) : (s.pass n q).roleShadow = s.roleShadow := rfl
@[simp] theorem State.pass_denied (n q : Nat) : (s.pass n q).denied = s.denied := rfl
@[simp] theorem State.pass_misformed (n q : Nat) : (s.pass n q).misformed = s.misformed := rfl
@[simp] theorem State.pass_blocked (n q : Nat) : (s.pass n q).blocked = s.blocked := rfl
@[simp] theorem State.pass_hrpOut (n q : Nat) : (s.pass n q).hrpOut = s.hrpOut := rfl
@[simp] theorem State.pass_fspOut (n q : Nat) : (s.pass n q).fspOut = s.fspOut := rfl
@[simp] theorem State.pass_tap (n q : Nat) : (s.pass n q).tap = s.tap := rfl
@[simp] theorem State.pass_pending (n q : Nat) : (s.pass n q).pending = s.pending := rfl
@[simp] theorem State.pass_entry (n q : Nat) (k : Nat) : (s.pass n q).entry k = s.entry k := rfl
@[simp] theorem State.pass_edgeAt (n q : Nat) (k : Nat) : (s.pass n q).edgeAt k = s.edgeAt k := rfl
@[simp] theorem State.pass_homeAt (n q : Nat) (k : Nat) : (s.pass n q).homeAt k = s.homeAt k := rfl
@[simp] theorem State.pass_slotAt (n q : Nat) (k : Nat) : (s.pass n q).slotAt k = s.slotAt k := rfl
@[simp] theorem State.pass_ledger (n q : Nat) (k : Nat) : (s.pass n q).ledger k = s.ledger k := rfl
@[simp] theorem State.pass_part (n q : Nat) (k : Nat) : (s.pass n q).part k = s.part k := rfl

/-! Mirror writes leave every field but the ring’s. -/
@[simp] theorem State.handMirror_grade : s.handMirror.grade = s.grade := rfl
@[simp] theorem State.handMirror_tm : s.handMirror.tm = s.tm := rfl
@[simp] theorem State.handMirror_rs : s.handMirror.rs = s.rs := rfl
@[simp] theorem State.handMirror_trb : s.handMirror.trb = s.trb := rfl
@[simp] theorem State.handMirror_entries : s.handMirror.entries = s.entries := rfl
@[simp] theorem State.handMirror_edge : s.handMirror.edge = s.edge := rfl
@[simp] theorem State.handMirror_home : s.handMirror.home = s.home := rfl
@[simp] theorem State.handMirror_slots : s.handMirror.slots = s.slots := rfl
@[simp] theorem State.handMirror_ledgers : s.handMirror.ledgers = s.ledgers := rfl
@[simp] theorem State.handMirror_parts : s.handMirror.parts = s.parts := rfl
@[simp] theorem State.handMirror_ints : s.handMirror.ints = s.ints := rfl
@[simp] theorem State.handMirror_cmi : s.handMirror.cmi = s.cmi := rfl
@[simp] theorem State.handMirror_mem : s.handMirror.mem = s.mem := rfl
@[simp] theorem State.handMirror_hdl : s.handMirror.hdl = s.hdl := rfl
@[simp] theorem State.handMirror_img : s.handMirror.img = s.img := rfl
@[simp] theorem State.handMirror_com : s.handMirror.com = s.com := rfl
@[simp] theorem State.handMirror_bal : s.handMirror.bal = s.bal := rfl
@[simp] theorem State.handMirror_fsp : s.handMirror.fsp = s.fsp := rfl
@[simp] theorem State.handMirror_tier : s.handMirror.tier = s.tier := rfl
@[simp] theorem State.handMirror_clk : s.handMirror.clk = s.clk := rfl
@[simp] theorem State.handMirror_role : s.handMirror.role = s.role := rfl
@[simp] theorem State.handMirror_roleShadow : s.handMirror.roleShadow = s.roleShadow := rfl
@[simp] theorem State.handMirror_denied : s.handMirror.denied = s.denied := rfl
@[simp] theorem State.handMirror_misformed : s.handMirror.misformed = s.misformed := rfl
@[simp] theorem State.handMirror_blocked : s.handMirror.blocked = s.blocked := rfl
@[simp] theorem State.handMirror_hrpOut : s.handMirror.hrpOut = s.hrpOut := rfl
@[simp] theorem State.handMirror_fspOut : s.handMirror.fspOut = s.fspOut := rfl
@[simp] theorem State.handMirror_tap : s.handMirror.tap = s.tap := rfl
@[simp] theorem State.handMirror_pending : s.handMirror.pending = s.pending := rfl
@[simp] theorem State.mirrorPut_grade (ws : List (Nat × Nat × Word)) : (s.mirrorPut ws).grade = s.grade := by
  unfold State.mirrorPut; split <;> rfl
@[simp] theorem State.mirrorPut_tm (ws : List (Nat × Nat × Word)) : (s.mirrorPut ws).tm = s.tm := by
  unfold State.mirrorPut; split <;> rfl
@[simp] theorem State.mirrorPut_rs (ws : List (Nat × Nat × Word)) : (s.mirrorPut ws).rs = s.rs := by
  unfold State.mirrorPut; split <;> rfl
@[simp] theorem State.mirrorPut_trb (ws : List (Nat × Nat × Word)) : (s.mirrorPut ws).trb = s.trb := by
  unfold State.mirrorPut; split <;> rfl
@[simp] theorem State.mirrorPut_entries (ws : List (Nat × Nat × Word)) : (s.mirrorPut ws).entries = s.entries := by
  unfold State.mirrorPut; split <;> rfl
@[simp] theorem State.mirrorPut_edge (ws : List (Nat × Nat × Word)) : (s.mirrorPut ws).edge = s.edge := by
  unfold State.mirrorPut; split <;> rfl
@[simp] theorem State.mirrorPut_home (ws : List (Nat × Nat × Word)) : (s.mirrorPut ws).home = s.home := by
  unfold State.mirrorPut; split <;> rfl
@[simp] theorem State.mirrorPut_slots (ws : List (Nat × Nat × Word)) : (s.mirrorPut ws).slots = s.slots := by
  unfold State.mirrorPut; split <;> rfl
@[simp] theorem State.mirrorPut_ledgers (ws : List (Nat × Nat × Word)) : (s.mirrorPut ws).ledgers = s.ledgers := by
  unfold State.mirrorPut; split <;> rfl
@[simp] theorem State.mirrorPut_parts (ws : List (Nat × Nat × Word)) : (s.mirrorPut ws).parts = s.parts := by
  unfold State.mirrorPut; split <;> rfl
@[simp] theorem State.mirrorPut_ints (ws : List (Nat × Nat × Word)) : (s.mirrorPut ws).ints = s.ints := by
  unfold State.mirrorPut; split <;> rfl
@[simp] theorem State.mirrorPut_cmi (ws : List (Nat × Nat × Word)) : (s.mirrorPut ws).cmi = s.cmi := by
  unfold State.mirrorPut; split <;> rfl
@[simp] theorem State.mirrorPut_mem (ws : List (Nat × Nat × Word)) : (s.mirrorPut ws).mem = s.mem := by
  unfold State.mirrorPut; split <;> rfl
@[simp] theorem State.mirrorPut_hdl (ws : List (Nat × Nat × Word)) : (s.mirrorPut ws).hdl = s.hdl := by
  unfold State.mirrorPut; split <;> rfl
@[simp] theorem State.mirrorPut_img (ws : List (Nat × Nat × Word)) : (s.mirrorPut ws).img = s.img := by
  unfold State.mirrorPut; split <;> rfl
@[simp] theorem State.mirrorPut_com (ws : List (Nat × Nat × Word)) : (s.mirrorPut ws).com = s.com := by
  unfold State.mirrorPut; split <;> rfl
@[simp] theorem State.mirrorPut_bal (ws : List (Nat × Nat × Word)) : (s.mirrorPut ws).bal = s.bal := by
  unfold State.mirrorPut; split <;> rfl
@[simp] theorem State.mirrorPut_fsp (ws : List (Nat × Nat × Word)) : (s.mirrorPut ws).fsp = s.fsp := by
  unfold State.mirrorPut; split <;> rfl
@[simp] theorem State.mirrorPut_tier (ws : List (Nat × Nat × Word)) : (s.mirrorPut ws).tier = s.tier := by
  unfold State.mirrorPut; split <;> rfl
@[simp] theorem State.mirrorPut_clk (ws : List (Nat × Nat × Word)) : (s.mirrorPut ws).clk = s.clk := by
  unfold State.mirrorPut; split <;> rfl
@[simp] theorem State.mirrorPut_role (ws : List (Nat × Nat × Word)) : (s.mirrorPut ws).role = s.role := by
  unfold State.mirrorPut; split <;> rfl
@[simp] theorem State.mirrorPut_roleShadow (ws : List (Nat × Nat × Word)) : (s.mirrorPut ws).roleShadow = s.roleShadow := by
  unfold State.mirrorPut; split <;> rfl
@[simp] theorem State.mirrorPut_denied (ws : List (Nat × Nat × Word)) : (s.mirrorPut ws).denied = s.denied := by
  unfold State.mirrorPut; split <;> rfl
@[simp] theorem State.mirrorPut_misformed (ws : List (Nat × Nat × Word)) : (s.mirrorPut ws).misformed = s.misformed := by
  unfold State.mirrorPut; split <;> rfl
@[simp] theorem State.mirrorPut_blocked (ws : List (Nat × Nat × Word)) : (s.mirrorPut ws).blocked = s.blocked := by
  unfold State.mirrorPut; split <;> rfl
@[simp] theorem State.mirrorPut_hrpOut (ws : List (Nat × Nat × Word)) : (s.mirrorPut ws).hrpOut = s.hrpOut := by
  unfold State.mirrorPut; split <;> rfl
@[simp] theorem State.mirrorPut_fspOut (ws : List (Nat × Nat × Word)) : (s.mirrorPut ws).fspOut = s.fspOut := by
  unfold State.mirrorPut; split <;> rfl
@[simp] theorem State.mirrorPut_tap (ws : List (Nat × Nat × Word)) : (s.mirrorPut ws).tap = s.tap := by
  unfold State.mirrorPut; split <;> rfl
@[simp] theorem State.mirrorPut_pending (ws : List (Nat × Nat × Word)) : (s.mirrorPut ws).pending = s.pending := by
  unfold State.mirrorPut; split <;> rfl

/-! `State.setEntry` -/
@[simp] theorem State.setEntry_grade (n : Nat) (v : Entry) : (s.setEntry n v).grade = s.grade := by
  simp [State.setEntry]
@[simp] theorem State.setEntry_tm (n : Nat) (v : Entry) : (s.setEntry n v).tm = s.tm := by
  simp [State.setEntry]
@[simp] theorem State.setEntry_rs (n : Nat) (v : Entry) : (s.setEntry n v).rs = s.rs := by
  simp [State.setEntry]
@[simp] theorem State.setEntry_trb (n : Nat) (v : Entry) : (s.setEntry n v).trb = s.trb := by
  simp [State.setEntry]
@[simp] theorem State.setEntry_edge (n : Nat) (v : Entry) : (s.setEntry n v).edge = s.edge := by
  simp [State.setEntry]
@[simp] theorem State.setEntry_home (n : Nat) (v : Entry) : (s.setEntry n v).home = s.home := by
  simp [State.setEntry]
@[simp] theorem State.setEntry_slots (n : Nat) (v : Entry) : (s.setEntry n v).slots = s.slots := by
  simp [State.setEntry]
@[simp] theorem State.setEntry_ledgers (n : Nat) (v : Entry) : (s.setEntry n v).ledgers = s.ledgers := by
  simp [State.setEntry]
@[simp] theorem State.setEntry_parts (n : Nat) (v : Entry) : (s.setEntry n v).parts = s.parts := by
  simp [State.setEntry]
@[simp] theorem State.setEntry_ints (n : Nat) (v : Entry) : (s.setEntry n v).ints = s.ints := by
  simp [State.setEntry]
@[simp] theorem State.setEntry_cmi (n : Nat) (v : Entry) : (s.setEntry n v).cmi = s.cmi := by
  simp [State.setEntry]
@[simp] theorem State.setEntry_mem (n : Nat) (v : Entry) : (s.setEntry n v).mem = s.mem := by
  simp [State.setEntry]
@[simp] theorem State.setEntry_hdl (n : Nat) (v : Entry) : (s.setEntry n v).hdl = s.hdl := by
  simp [State.setEntry]
@[simp] theorem State.setEntry_img (n : Nat) (v : Entry) : (s.setEntry n v).img = s.img := by
  simp [State.setEntry]
@[simp] theorem State.setEntry_com (n : Nat) (v : Entry) : (s.setEntry n v).com = s.com := by
  simp [State.setEntry]
@[simp] theorem State.setEntry_bal (n : Nat) (v : Entry) : (s.setEntry n v).bal = s.bal := by
  simp [State.setEntry]
@[simp] theorem State.setEntry_fsp (n : Nat) (v : Entry) : (s.setEntry n v).fsp = s.fsp := by
  simp [State.setEntry]
@[simp] theorem State.setEntry_tier (n : Nat) (v : Entry) : (s.setEntry n v).tier = s.tier := by
  simp [State.setEntry]
@[simp] theorem State.setEntry_clk (n : Nat) (v : Entry) : (s.setEntry n v).clk = s.clk := by
  simp [State.setEntry]
@[simp] theorem State.setEntry_role (n : Nat) (v : Entry) : (s.setEntry n v).role = s.role := by
  simp [State.setEntry]
@[simp] theorem State.setEntry_roleShadow (n : Nat) (v : Entry) : (s.setEntry n v).roleShadow = s.roleShadow := by
  simp [State.setEntry]
@[simp] theorem State.setEntry_denied (n : Nat) (v : Entry) : (s.setEntry n v).denied = s.denied := by
  simp [State.setEntry]
@[simp] theorem State.setEntry_misformed (n : Nat) (v : Entry) : (s.setEntry n v).misformed = s.misformed := by
  simp [State.setEntry]
@[simp] theorem State.setEntry_blocked (n : Nat) (v : Entry) : (s.setEntry n v).blocked = s.blocked := by
  simp [State.setEntry]
@[simp] theorem State.setEntry_hrpOut (n : Nat) (v : Entry) : (s.setEntry n v).hrpOut = s.hrpOut := by
  simp [State.setEntry]
@[simp] theorem State.setEntry_fspOut (n : Nat) (v : Entry) : (s.setEntry n v).fspOut = s.fspOut := by
  simp [State.setEntry]
@[simp] theorem State.setEntry_tap (n : Nat) (v : Entry) : (s.setEntry n v).tap = s.tap := by
  simp [State.setEntry]
@[simp] theorem State.setEntry_pending (n : Nat) (v : Entry) : (s.setEntry n v).pending = s.pending := by
  simp [State.setEntry]
@[simp] theorem State.setEntry_edgeAt (n : Nat) (v : Entry) (k : Nat) : (s.setEntry n v).edgeAt k = s.edgeAt k := by
  simp [State.setEntry, State.edgeAt]
@[simp] theorem State.setEntry_homeAt (n : Nat) (v : Entry) (k : Nat) : (s.setEntry n v).homeAt k = s.homeAt k := by
  simp [State.setEntry, State.homeAt]
@[simp] theorem State.setEntry_slotAt (n : Nat) (v : Entry) (k : Nat) : (s.setEntry n v).slotAt k = s.slotAt k := by
  simp [State.setEntry, State.slotAt]
@[simp] theorem State.setEntry_ledger (n : Nat) (v : Entry) (k : Nat) : (s.setEntry n v).ledger k = s.ledger k := by
  simp [State.setEntry, State.ledger]
@[simp] theorem State.setEntry_part (n : Nat) (v : Entry) (k : Nat) : (s.setEntry n v).part k = s.part k := by
  simp [State.setEntry, State.part]

/-! `State.setLedger` -/
@[simp] theorem State.setLedger_grade (n : Nat) (v : Ledger) : (s.setLedger n v).grade = s.grade := by
  simp [State.setLedger]
@[simp] theorem State.setLedger_tm (n : Nat) (v : Ledger) : (s.setLedger n v).tm = s.tm := by
  simp [State.setLedger]
@[simp] theorem State.setLedger_rs (n : Nat) (v : Ledger) : (s.setLedger n v).rs = s.rs := by
  simp [State.setLedger]
@[simp] theorem State.setLedger_trb (n : Nat) (v : Ledger) : (s.setLedger n v).trb = s.trb := by
  simp [State.setLedger]
@[simp] theorem State.setLedger_entries (n : Nat) (v : Ledger) : (s.setLedger n v).entries = s.entries := by
  simp [State.setLedger]
@[simp] theorem State.setLedger_edge (n : Nat) (v : Ledger) : (s.setLedger n v).edge = s.edge := by
  simp [State.setLedger]
@[simp] theorem State.setLedger_home (n : Nat) (v : Ledger) : (s.setLedger n v).home = s.home := by
  simp [State.setLedger]
@[simp] theorem State.setLedger_slots (n : Nat) (v : Ledger) : (s.setLedger n v).slots = s.slots := by
  simp [State.setLedger]
@[simp] theorem State.setLedger_parts (n : Nat) (v : Ledger) : (s.setLedger n v).parts = s.parts := by
  simp [State.setLedger]
@[simp] theorem State.setLedger_ints (n : Nat) (v : Ledger) : (s.setLedger n v).ints = s.ints := by
  simp [State.setLedger]
@[simp] theorem State.setLedger_cmi (n : Nat) (v : Ledger) : (s.setLedger n v).cmi = s.cmi := by
  simp [State.setLedger]
@[simp] theorem State.setLedger_mem (n : Nat) (v : Ledger) : (s.setLedger n v).mem = s.mem := by
  simp [State.setLedger]
@[simp] theorem State.setLedger_hdl (n : Nat) (v : Ledger) : (s.setLedger n v).hdl = s.hdl := by
  simp [State.setLedger]
@[simp] theorem State.setLedger_img (n : Nat) (v : Ledger) : (s.setLedger n v).img = s.img := by
  simp [State.setLedger]
@[simp] theorem State.setLedger_com (n : Nat) (v : Ledger) : (s.setLedger n v).com = s.com := by
  simp [State.setLedger]
@[simp] theorem State.setLedger_bal (n : Nat) (v : Ledger) : (s.setLedger n v).bal = s.bal := by
  simp [State.setLedger]
@[simp] theorem State.setLedger_fsp (n : Nat) (v : Ledger) : (s.setLedger n v).fsp = s.fsp := by
  simp [State.setLedger]
@[simp] theorem State.setLedger_tier (n : Nat) (v : Ledger) : (s.setLedger n v).tier = s.tier := by
  simp [State.setLedger]
@[simp] theorem State.setLedger_clk (n : Nat) (v : Ledger) : (s.setLedger n v).clk = s.clk := by
  simp [State.setLedger]
@[simp] theorem State.setLedger_role (n : Nat) (v : Ledger) : (s.setLedger n v).role = s.role := by
  simp [State.setLedger]
@[simp] theorem State.setLedger_roleShadow (n : Nat) (v : Ledger) : (s.setLedger n v).roleShadow = s.roleShadow := by
  simp [State.setLedger]
@[simp] theorem State.setLedger_denied (n : Nat) (v : Ledger) : (s.setLedger n v).denied = s.denied := by
  simp [State.setLedger]
@[simp] theorem State.setLedger_misformed (n : Nat) (v : Ledger) : (s.setLedger n v).misformed = s.misformed := by
  simp [State.setLedger]
@[simp] theorem State.setLedger_blocked (n : Nat) (v : Ledger) : (s.setLedger n v).blocked = s.blocked := by
  simp [State.setLedger]
@[simp] theorem State.setLedger_hrpOut (n : Nat) (v : Ledger) : (s.setLedger n v).hrpOut = s.hrpOut := by
  simp [State.setLedger]
@[simp] theorem State.setLedger_fspOut (n : Nat) (v : Ledger) : (s.setLedger n v).fspOut = s.fspOut := by
  simp [State.setLedger]
@[simp] theorem State.setLedger_tap (n : Nat) (v : Ledger) : (s.setLedger n v).tap = s.tap := by
  simp [State.setLedger]
@[simp] theorem State.setLedger_pending (n : Nat) (v : Ledger) : (s.setLedger n v).pending = s.pending := by
  simp [State.setLedger]
@[simp] theorem State.setLedger_entry (n : Nat) (v : Ledger) (k : Nat) : (s.setLedger n v).entry k = s.entry k := by
  simp [State.setLedger, State.entry]
@[simp] theorem State.setLedger_edgeAt (n : Nat) (v : Ledger) (k : Nat) : (s.setLedger n v).edgeAt k = s.edgeAt k := by
  simp [State.setLedger, State.edgeAt]
@[simp] theorem State.setLedger_homeAt (n : Nat) (v : Ledger) (k : Nat) : (s.setLedger n v).homeAt k = s.homeAt k := by
  simp [State.setLedger, State.homeAt]
@[simp] theorem State.setLedger_slotAt (n : Nat) (v : Ledger) (k : Nat) : (s.setLedger n v).slotAt k = s.slotAt k := by
  simp [State.setLedger, State.slotAt]
@[simp] theorem State.setLedger_part (n : Nat) (v : Ledger) (k : Nat) : (s.setLedger n v).part k = s.part k := by
  simp [State.setLedger, State.part]

/-! Reading what was written. -/
@[simp] theorem State.setEntry_entry_same (n : Nat) (v : Entry) : (s.setEntry n v).entry n = v := by
  simp [State.setEntry, State.entry]
theorem State.setEntry_entry_ne {n k : Nat} (v : Entry) (h : k ≠ n) : (s.setEntry n v).entry k = s.entry k := by
  simp [State.setEntry, State.entry, h]
theorem State.setEntry_entry (n k : Nat) (v : Entry) : (s.setEntry n v).entry k = if k = n then v else s.entry k := by
  simp [State.setEntry, State.entry, sget_sset]
@[simp] theorem State.setEdge_edgeAt_same (n : Nat) (v : EdgeAux) : (s.setEdge n v).edgeAt n = v := by
  simp [State.setEdge, State.edgeAt]
theorem State.setEdge_edgeAt_ne {n k : Nat} (v : EdgeAux) (h : k ≠ n) : (s.setEdge n v).edgeAt k = s.edgeAt k := by
  simp [State.setEdge, State.edgeAt, h]
theorem State.setEdge_edgeAt (n k : Nat) (v : EdgeAux) : (s.setEdge n v).edgeAt k = if k = n then v else s.edgeAt k := by
  simp [State.setEdge, State.edgeAt, sget_sset]
@[simp] theorem State.setHome_homeAt_same (n : Nat) (v : HomeAux) : (s.setHome n v).homeAt n = v := by
  simp [State.setHome, State.homeAt]
theorem State.setHome_homeAt_ne {n k : Nat} (v : HomeAux) (h : k ≠ n) : (s.setHome n v).homeAt k = s.homeAt k := by
  simp [State.setHome, State.homeAt, h]
theorem State.setHome_homeAt (n k : Nat) (v : HomeAux) : (s.setHome n v).homeAt k = if k = n then v else s.homeAt k := by
  simp [State.setHome, State.homeAt, sget_sset]
@[simp] theorem State.setSlot_slotAt_same (n : Nat) (v : SlotAux) : (s.setSlot n v).slotAt n = v := by
  simp [State.setSlot, State.slotAt]
theorem State.setSlot_slotAt_ne {n k : Nat} (v : SlotAux) (h : k ≠ n) : (s.setSlot n v).slotAt k = s.slotAt k := by
  simp [State.setSlot, State.slotAt, h]
theorem State.setSlot_slotAt (n k : Nat) (v : SlotAux) : (s.setSlot n v).slotAt k = if k = n then v else s.slotAt k := by
  simp [State.setSlot, State.slotAt, sget_sset]
@[simp] theorem State.setLedger_ledger_same (n : Nat) (v : Ledger) : (s.setLedger n v).ledger n = v := by
  simp [State.setLedger, State.ledger]
theorem State.setLedger_ledger_ne {n k : Nat} (v : Ledger) (h : k ≠ n) : (s.setLedger n v).ledger k = s.ledger k := by
  simp [State.setLedger, State.ledger, h]
theorem State.setLedger_ledger (n k : Nat) (v : Ledger) : (s.setLedger n v).ledger k = if k = n then v else s.ledger k := by
  simp [State.setLedger, State.ledger, sget_sset]
@[simp] theorem State.setPart_part_same (n : Nat) (v : Partn) : (s.setPart n v).part n = v := by
  simp [State.setPart, State.part]
theorem State.setPart_part_ne {n k : Nat} (v : Partn) (h : k ≠ n) : (s.setPart n v).part k = s.part k := by
  simp [State.setPart, State.part, h]
theorem State.setPart_part (n k : Nat) (v : Partn) : (s.setPart n v).part k = if k = n then v else s.part k := by
  simp [State.setPart, State.part, sget_sset]

/-! The clock of the gate is read from the time unit alone. -/
@[simp] theorem State.retained_putRetained_same (i : Nat) (w : Word) : (s.putRetained i w).retained i = w := by
  simp [State.putRetained, State.retained]
theorem State.retained_putRetained_ne {i j : Nat} (w : Word) (h : j ≠ i) : (s.putRetained i w).retained j = s.retained j := by
  simp [State.putRetained, State.retained, h]
@[simp] theorem State.putOut_hrpOut (vc p : Nat) (reg : Bool) (ws : List Word) :
    (s.putOut vc p reg ws).hrpOut = s.hrpOut ++ [{ vc := vc, reg := reg, part := p, words := ws }] := rfl
@[simp] theorem State.pass_tm (n q : Nat) : (s.pass n q).tm = s.tm.advance n q := rfl

end Sys2Proof.Machine
end

