-- ==== Sys2Proof/Laws/Command.lean ====
section
/-! SUPPORT. What the interpreter does with the packet that starts next, said once for every command. -/
namespace Sys2Proof.Machine

/-- Packets whose opcode a table lists are not refused in passing. -/
theorem refuseUnknown_listed {s : State} {smp : Bool} {k : Pkt} (h : s.nextPkt = some (smp, k))
    (hop : opcodes.contains (pktIssuer smp k).op = true) : ∀ n, State.refuseUnknown n s = s
  | 0 => rfl
  | n + 1 => by
    have hm : (pktIssuer smp k).op ∈ opcodes := by simpa using hop
    simp [State.refuseUnknown, h, hm]

/-- With no packet waiting, none is refused. -/
theorem refuseUnknown_none {s : State} (h : s.nextPkt = none) : ∀ n, State.refuseUnknown n s = s
  | 0 => rfl
  | n + 1 => by simp [State.refuseUnknown, h]

variable {s : State} {op : Nat} {i : Issuer} {ps : List Word} {who : Issuer → List Word → Bool} {len : List Word → Option Nat}
  {bad : List Word → Bool} {act : Issuer → List Word → State → State}

/-- A packet that starts and passes every check does its act on the state without it. -/
theorem runCmd_acts (h : Starts s op i ps) (hop : opcodes.contains op = true) (hw : who i ps = true) (hl : len ps = some ps.length)
    (hb : bad ps = false) : s.runCmd op who len bad act = act i ps s.popPkt := by
  obtain ⟨⟨smp, k, hn, hi, hp, hc⟩, ho, he⟩ := h
  subst hi hp
  have hr := refuseUnknown_listed hn (by rw [ho]; exact hop) s.pktCount
  have h8 : s.popPkt.check8 (pktIssuer smp k) who len bad (k.words.drop 1) = none := by
    have hen : ¬ ((pktIssuer smp k).op ≠ 0x01 ∧ (pktIssuer smp k).op ≠ 0x02 ∧ s.popPkt.partOn (pktIssuer smp k).part = false) := by
      rw [ho]; rintro ⟨a, b, c⟩
      rcases he with e | e | e
      · exact a e
      · exact b e
      · rw [e] at c; exact absurd c (by decide)
    unfold State.check8
    rw [if_neg hen, hw, hl, hb]
    simp
  simp only [State.runCmd, hr, hn, ho, hc, h8, ne_eq, not_true_eq_false, if_false]

/-- A packet that starts and fails a check of orders 6 to 8 is answered with its status. -/
theorem runCmd_refuses {st : Status} (h : Starts s op i ps) (hop : opcodes.contains op = true)
    (h8 : s.popPkt.check8 i who len bad ps = some st) : s.runCmd op who len bad act = s.popPkt.answer i st := by
  obtain ⟨⟨smp, k, hn, hi, hp, hc⟩, ho, _⟩ := h
  subst hi hp
  have hr := refuseUnknown_listed hn (by rw [ho]; exact hop) s.pktCount
  simp only [State.runCmd, hr, hn, ho, hc, h8, ne_eq, not_true_eq_false, if_false]

/-- A packet that fails a check of orders 3 to 5 is answered with its status. -/
theorem runCmd_early {st : Status} {smp : Bool} {k : Pkt} (hn : s.nextPkt = some (smp, k)) (hi : (pktIssuer smp k).op = op)
    (hop : opcodes.contains op = true) (h5 : s.popPkt.check5 (pktIssuer smp k) (wat k.words 0) = some st) :
    s.runCmd op who len bad act = s.popPkt.answer (pktIssuer smp k) st := by
  have hr := refuseUnknown_listed hn (by rw [hi]; exact hop) s.pktCount
  simp only [State.runCmd, hr, hn, hi, h5, ne_eq, not_true_eq_false, if_false]

/-- A packet of a partition that is not enabled is answered with DENIED_PARTITION. -/
theorem runCmd_off {smp : Bool} {k : Pkt} (hn : s.nextPkt = some (smp, k)) (hi : (pktIssuer smp k).op = op)
    (hop : opcodes.contains op = true) (h5 : s.popPkt.check5 (pktIssuer smp k) (wat k.words 0) = none)
    (h1 : op ≠ 0x01) (h2 : op ≠ 0x02) (hd : s.popPkt.partOn (pktIssuer smp k).part = false) :
    s.runCmd op who len bad act = s.popPkt.answer (pktIssuer smp k) .deniedPartition := by
  have hr := refuseUnknown_listed hn (by rw [hi]; exact hop) s.pktCount
  have h8 : s.popPkt.check8 (pktIssuer smp k) who len bad (k.words.drop 1) = some .deniedPartition := by
    unfold State.check8; rw [hi, if_pos ⟨h1, h2, hd⟩]
  simp only [State.runCmd, hr, hn, hi, h5, h8, ne_eq, not_true_eq_false, if_false]

/-- The slot that SESSION_QUERY reads is none while its packet is refused. -/
theorem queried_none {smp : Bool} {k : Pkt} (hn : s.nextPkt = some (smp, k))
    (h : (pktIssuer smp k).op ≠ 0x16 ∨ s.popPkt.check5 (pktIssuer smp k) (wat k.words 0) ≠ none
      ∨ s.popPkt.check8 (pktIssuer smp k) anyone (fixed 1) strayH (k.words.drop 1) ≠ none) : s.queried = none := by
  simp only [State.queried, hn]
  rw [if_neg]
  rintro ⟨a, b, c, _⟩
  rcases h with h | h | h
  · exact h a
  · exact h b
  · exact h c

/-- With no packet waiting, a row of the interpreter does nothing. -/
theorem runCmd_idle (h : s.nextPkt = none) : s.runCmd op who len bad act = s := by
  simp [State.runCmd, refuseUnknown_none h, h]

/-- A packet of another listed opcode is left to its own row. -/
theorem runCmd_other {smp : Bool} {k : Pkt} (h : s.nextPkt = some (smp, k)) (hop : opcodes.contains (pktIssuer smp k).op = true)
    (hne : (pktIssuer smp k).op ≠ op) : s.runCmd op who len bad act = s := by
  simp [State.runCmd, refuseUnknown_listed h hop, h, hne]

/-- A session command whose session is found does its act on the slot. -/
theorem session_acts {w : Word} {gate : Bool} {role : Entry → Bool} {act : Nat → State} (hg : gate = true)
    (h : s.sessCheck i (hdlOf w) role = none) : s.session i w gate role act = act (hdlSlot (hdlOf w)) := by
  simp [State.session, hg, h]

end Sys2Proof.Machine
end

