-- ==== Sys2Proof/Laws/Framed.lean ====
section
/-! SUPPORT. What every operation below a command may change. `Framed rst F s t` says that `t`, reached from `s`, differs from it only in
the parts of `F`, unless `rst` and a reset is asserted in `t`, and that it ends no reset. -/
namespace Sys2Proof.Machine
set_option Elab.async false

theorem Field.same_refl (f : Field) (s : State) : f.same s s := by cases f <;> rfl

theorem Field.same_trans {f : Field} {r s t : State} (h : f.same r s) (k : f.same s t) : f.same r t := by
  cases f <;> exact Eq.trans h k

/-- `t` differs from `s` only in the parts of `F`, or, where `rst` allows it, a reset is asserted in it; a reset asserted in `s` is asserted
in `t`. -/
structure Framed (rst : Bool) (F : List Field) (s t : State) : Prop where
  reset : s.inReset = true → t.inReset = true
  same : (rst = true ∧ t.inReset = true) ∨ ∀ f, f ∉ F → f.same s t

theorem Framed.refl {rst : Bool} {F : List Field} (s : State) : Framed rst F s s := ⟨id, .inr fun f _ => f.same_refl s⟩

/-- One more operation, whose parts are among `F`. -/
theorem Framed.after {rst : Bool} {F G : List Field} {r s t : State} (h : Framed rst F r s) (k : Framed rst G s t) (hG : G.all (F.contains ·) = true) : Framed rst F r t := by
  refine ⟨fun x => k.reset (h.reset x), ?_⟩
  rcases h.same with a | a
  · exact .inl ⟨a.1, k.reset a.2⟩
  · rcases k.same with c | c
    · exact .inl c
    · refine .inr fun f hf => Field.same_trans (a f hf) (c f fun hg => hf ?_)
      simpa using List.all_eq_true.1 hG f hg

/-- More parts may be named. -/
theorem Framed.mono {rst : Bool} {F G : List Field} {s t : State} (k : Framed rst G s t) (hG : G.all (F.contains ·) = true) : Framed rst F s t :=
  (Framed.refl s).after k hG

/-- An operation that asserts a reset. -/
theorem Framed.of_reset {F : List Field} {s t : State} (h : t.inReset = true) : Framed true F s t := ⟨fun _ => h, .inl ⟨rfl, h⟩⟩

/-- Where no reset is asserted, the parts that are not named are as they were. -/
theorem Framed.out {rst : Bool} {F : List Field} {s t : State} (h : Framed rst F s t) (ht : t.inReset = false) {f : Field} (hf : f ∉ F) : f.same s t := by
  rcases h.same with a | a
  · rw [ht] at a; cases a.2
  · exact a f hf

/-- An operation that asserts no reset leaves the parts that are not named as they were. -/
theorem Framed.kept {F : List Field} {s t : State} (h : Framed false F s t) {f : Field} (hf : f ∉ F) : f.same s t := by
  rcases h.same with a | a
  · cases a.1
  · exact a f hf

/-- Parts named among parts named. -/
theorem Framed.sub {F G H : List Field} (h : H.all (G.contains ·) = true) (hG : G.all (F.contains ·) = true) : H.all (F.contains ·) = true := by
  rw [List.all_eq_true] at *
  intro f hf
  exact hG f (by simpa using h f hf)

theorem Framed.mem {F G : List Field} {f : Field} (hG : G.all (F.contains ·) = true) (h : G.contains f = true) : F.contains f = true :=
  List.all_eq_true.1 hG f (by simpa using h)

/-- A loop over a list changes what its body changes. -/
theorem Framed.foldl {rst : Bool} {α : Type} {F : List Field} {r : State} {g : State → α → State} (hg : ∀ s x, Framed rst F r s → Framed rst F r (g s x)) {l : List α} :
    ∀ {s : State}, Framed rst F r s → Framed rst F r (l.foldl g s) := by
  induction l with
  | nil => exact fun h => h
  | cons x t ih => exact fun h => ih (hg _ x h)

/-- An update: each part is named or stays, and the update ends no reset. -/
theorem Framed.of_mk {rst : Bool} {F : List Field} {r s : State} {grade' : Grade} {pending' : List Instr} {tm' : TimeU} {rs' : ResetU} {trb' : TroubleU} {entries' : List (Nat × Entry)} {edge' : List (Nat × EdgeAux)} {home' : List (Nat × HomeAux)} {slots' : List (Nat × SlotAux)} {ledgers' : List (Nat × Ledger)} {parts' : List (Nat × Partn)} {ints' : List IntMsg} {cmi' : CmiU} {mem' : Memory} {hdl' : List (Nat × Word)} {img' : ImageU} {com' : CommitU} {bal' : BalanceU} {net' : NetU} {fsp' : FspU} {tier' : TierU} {clk' : ClockU} {role' : Nat} {roleShadow' : Nat} {denied' : Nat} {misformed' : Nat} {blocked' : Nat} {hrpOut' : List HrpOut} {fspOut' : List (Option Item)} {tap' : TapU}
    (h : Framed rst F r s) (hr : s.rs.reach.isSome = true → rs'.reach.isSome = true)
    (h1 : F.contains .tm = true ∨ tm' = s.tm) (h2 : F.contains .rs = true ∨ rs' = s.rs) (h3 : F.contains .trb = true ∨ trb' = s.trb) (h4 : F.contains .entries = true ∨ entries' = s.entries) (h5 : F.contains .edge = true ∨ edge' = s.edge) (h6 : F.contains .home = true ∨ home' = s.home) (h7 : F.contains .slots = true ∨ slots' = s.slots) (h8 : F.contains .ledgers = true ∨ ledgers' = s.ledgers) (h9 : F.contains .parts = true ∨ parts' = s.parts) (h10 : F.contains .ints = true ∨ ints' = s.ints) (h11 : F.contains .cmi = true ∨ cmi' = s.cmi) (h12 : F.contains .mem = true ∨ mem' = s.mem) (h13 : F.contains .hdl = true ∨ hdl' = s.hdl) (h14 : F.contains .img = true ∨ img' = s.img) (h15 : F.contains .com = true ∨ com' = s.com) (h16 : F.contains .bal = true ∨ bal' = s.bal) (h17 : F.contains .net = true ∨ net' = s.net) (h18 : F.contains .fsp = true ∨ fsp' = s.fsp) (h19 : F.contains .tier = true ∨ tier' = s.tier) (h20 : F.contains .clk = true ∨ clk' = s.clk) (h21 : F.contains .role = true ∨ role' = s.role) (h22 : F.contains .roleShadow = true ∨ roleShadow' = s.roleShadow) (h23 : F.contains .denied = true ∨ denied' = s.denied) (h24 : F.contains .misformed = true ∨ misformed' = s.misformed) (h25 : F.contains .blocked = true ∨ blocked' = s.blocked) (h26 : F.contains .hrpOut = true ∨ hrpOut' = s.hrpOut) (h27 : F.contains .fspOut = true ∨ fspOut' = s.fspOut) (h28 : F.contains .tap = true ∨ tap' = s.tap) :
    Framed rst F r ⟨grade', tm', rs', trb', entries', edge', home', slots', ledgers', parts', ints', cmi', mem', hdl', img', com', bal', net', fsp', tier', clk', role', roleShadow', denied', misformed', blocked', hrpOut', fspOut', tap', pending'⟩ := by
  refine h.after (G := F) ⟨hr, .inr fun f hf => ?_⟩ (by simp)
  have hf' : ¬ F.contains f = true := by simpa using hf
  cases f
  · exact (h1.resolve_left hf').symm
  · exact (h2.resolve_left hf').symm
  · exact (h3.resolve_left hf').symm
  · exact (h4.resolve_left hf').symm
  · exact (h5.resolve_left hf').symm
  · exact (h6.resolve_left hf').symm
  · exact (h7.resolve_left hf').symm
  · exact (h8.resolve_left hf').symm
  · exact (h9.resolve_left hf').symm
  · exact (h10.resolve_left hf').symm
  · exact (h11.resolve_left hf').symm
  · exact (h12.resolve_left hf').symm
  · exact (h13.resolve_left hf').symm
  · exact (h14.resolve_left hf').symm
  · exact (h15.resolve_left hf').symm
  · exact (h16.resolve_left hf').symm
  · exact (h17.resolve_left hf').symm
  · exact (h18.resolve_left hf').symm
  · exact (h19.resolve_left hf').symm
  · exact (h20.resolve_left hf').symm
  · exact (h21.resolve_left hf').symm
  · exact (h22.resolve_left hf').symm
  · exact (h23.resolve_left hf').symm
  · exact (h24.resolve_left hf').symm
  · exact (h25.resolve_left hf').symm
  · exact (h26.resolve_left hf').symm
  · exact (h27.resolve_left hf').symm
  · exact (h28.resolve_left hf').symm

end Sys2Proof.Machine
end

