-- ==== Sys2Proof/Laws/FramedOps.lean ====
section
/-! SUPPORT. The named operations: the parts of the state that each operation may change, one lemma for each. -/
namespace Sys2Proof.Machine
set_option Elab.async false

theorem State.setEdge_framed {rst : Bool} {F : List Field} {z s : State} {slot : Nat} {e : EdgeAux} (hF : ([.edge] : List Field).all (F.contains ·) = true) (hz : Framed rst F z s) : Framed rst F z (State.setEdge s slot e) := by
  unfold State.setEdge
  try dsimp only
  repeat' first
    | with_reducible assumption
    | (with_reducible apply Or.inr; with_reducible rfl)
    | ((with_reducible apply Or.inl); exact Framed.mem hF rfl)
    | ((with_reducible apply Framed.sub (G := [.edge]) ?_ hF); rfl)
    | split
    | (refine Framed.of_mk ?_ (fun h => h) ?_ ?_ ?_ ?_ ?_ ?_ ?_ ?_ ?_ ?_ ?_ ?_ ?_ ?_ ?_ ?_ ?_ ?_ ?_ ?_ ?_ ?_ ?_ ?_ ?_ ?_ ?_ ?_)

theorem State.setHome_framed {rst : Bool} {F : List Field} {z s : State} {slot : Nat} {h : HomeAux} (hF : ([.home] : List Field).all (F.contains ·) = true) (hz : Framed rst F z s) : Framed rst F z (State.setHome s slot h) := by
  unfold State.setHome
  try dsimp only
  repeat' first
    | with_reducible assumption
    | (with_reducible apply Or.inr; with_reducible rfl)
    | ((with_reducible apply Or.inl); exact Framed.mem hF rfl)
    | ((with_reducible apply Framed.sub (G := [.home]) ?_ hF); rfl)
    | split
    | (refine Framed.of_mk ?_ (fun h => h) ?_ ?_ ?_ ?_ ?_ ?_ ?_ ?_ ?_ ?_ ?_ ?_ ?_ ?_ ?_ ?_ ?_ ?_ ?_ ?_ ?_ ?_ ?_ ?_ ?_ ?_ ?_ ?_)

theorem State.setSlot_framed {rst : Bool} {F : List Field} {z s : State} {slot : Nat} {a : SlotAux} (hF : ([.slots] : List Field).all (F.contains ·) = true) (hz : Framed rst F z s) : Framed rst F z (State.setSlot s slot a) := by
  unfold State.setSlot
  try dsimp only
  repeat' first
    | with_reducible assumption
    | (with_reducible apply Or.inr; with_reducible rfl)
    | ((with_reducible apply Or.inl); exact Framed.mem hF rfl)
    | ((with_reducible apply Framed.sub (G := [.slots]) ?_ hF); rfl)
    | split
    | (refine Framed.of_mk ?_ (fun h => h) ?_ ?_ ?_ ?_ ?_ ?_ ?_ ?_ ?_ ?_ ?_ ?_ ?_ ?_ ?_ ?_ ?_ ?_ ?_ ?_ ?_ ?_ ?_ ?_ ?_ ?_ ?_ ?_)

theorem State.setPart_framed {rst : Bool} {F : List Field} {z s : State} {p : Nat} {v : Partn} (hF : ([.parts] : List Field).all (F.contains ·) = true) (hz : Framed rst F z s) : Framed rst F z (State.setPart s p v) := by
  unfold State.setPart
  try dsimp only
  repeat' first
    | with_reducible assumption
    | (with_reducible apply Or.inr; with_reducible rfl)
    | ((with_reducible apply Or.inl); exact Framed.mem hF rfl)
    | ((with_reducible apply Framed.sub (G := [.parts]) ?_ hF); rfl)
    | split
    | (refine Framed.of_mk ?_ (fun h => h) ?_ ?_ ?_ ?_ ?_ ?_ ?_ ?_ ?_ ?_ ?_ ?_ ?_ ?_ ?_ ?_ ?_ ?_ ?_ ?_ ?_ ?_ ?_ ?_ ?_ ?_ ?_ ?_)

theorem State.setInLane_framed {rst : Bool} {F : List Field} {z s : State} {l : Nat} {v : Lane} (hF : ([.fsp] : List Field).all (F.contains ·) = true) (hz : Framed rst F z s) : Framed rst F z (State.setInLane s l v) := by
  unfold State.setInLane
  try dsimp only
  repeat' first
    | with_reducible assumption
    | (with_reducible apply Or.inr; with_reducible rfl)
    | ((with_reducible apply Or.inl); exact Framed.mem hF rfl)
    | ((with_reducible apply Framed.sub (G := [.fsp]) ?_ hF); rfl)
    | split
    | (refine Framed.of_mk ?_ (fun h => h) ?_ ?_ ?_ ?_ ?_ ?_ ?_ ?_ ?_ ?_ ?_ ?_ ?_ ?_ ?_ ?_ ?_ ?_ ?_ ?_ ?_ ?_ ?_ ?_ ?_ ?_ ?_ ?_)

theorem State.setOutLane_framed {rst : Bool} {F : List Field} {z s : State} {l : Nat} {v : Lane} (hF : ([.fsp] : List Field).all (F.contains ·) = true) (hz : Framed rst F z s) : Framed rst F z (State.setOutLane s l v) := by
  unfold State.setOutLane
  try dsimp only
  repeat' first
    | with_reducible assumption
    | (with_reducible apply Or.inr; with_reducible rfl)
    | ((with_reducible apply Or.inl); exact Framed.mem hF rfl)
    | ((with_reducible apply Framed.sub (G := [.fsp]) ?_ hF); rfl)
    | split
    | (refine Framed.of_mk ?_ (fun h => h) ?_ ?_ ?_ ?_ ?_ ?_ ?_ ?_ ?_ ?_ ?_ ?_ ?_ ?_ ?_ ?_ ?_ ?_ ?_ ?_ ?_ ?_ ?_ ?_ ?_ ?_ ?_ ?_)

theorem State.setRelq_framed {rst : Bool} {F : List Field} {z s : State} {l : Nat} {q : RelQ} (hF : ([.fsp] : List Field).all (F.contains ·) = true) (hz : Framed rst F z s) : Framed rst F z (State.setRelq s l q) := by
  unfold State.setRelq
  try dsimp only
  repeat' first
    | with_reducible assumption
    | (with_reducible apply Or.inr; with_reducible rfl)
    | ((with_reducible apply Or.inl); exact Framed.mem hF rfl)
    | ((with_reducible apply Framed.sub (G := [.fsp]) ?_ hF); rfl)
    | split
    | (refine Framed.of_mk ?_ (fun h => h) ?_ ?_ ?_ ?_ ?_ ?_ ?_ ?_ ?_ ?_ ?_ ?_ ?_ ?_ ?_ ?_ ?_ ?_ ?_ ?_ ?_ ?_ ?_ ?_ ?_ ?_ ?_ ?_)

theorem State.dropBacks_framed {rst : Bool} {F : List Field} {z s : State} {row : Nat} {n : Nat} (hF : ([.img] : List Field).all (F.contains ·) = true) (hz : Framed rst F z s) : Framed rst F z (State.dropBacks s row n) := by
  unfold State.dropBacks
  try dsimp only
  repeat' first
    | with_reducible assumption
    | (with_reducible apply Or.inr; with_reducible rfl)
    | ((with_reducible apply Or.inl); exact Framed.mem hF rfl)
    | ((with_reducible apply Framed.sub (G := [.img]) ?_ hF); rfl)
    | split
    | (refine Framed.of_mk ?_ (fun h => h) ?_ ?_ ?_ ?_ ?_ ?_ ?_ ?_ ?_ ?_ ?_ ?_ ?_ ?_ ?_ ?_ ?_ ?_ ?_ ?_ ?_ ?_ ?_ ?_ ?_ ?_ ?_ ?_)

theorem State.supersede_framed {rst : Bool} {F : List Field} {z s : State} {row : Nat} (hF : ([.img] : List Field).all (F.contains ·) = true) (hz : Framed rst F z s) : Framed rst F z (State.supersede s row) := by
  unfold State.supersede
  try dsimp only
  repeat' first
    | with_reducible assumption
    | (with_reducible apply Or.inr; with_reducible rfl)
    | ((with_reducible apply Or.inl); exact Framed.mem hF rfl)
    | ((with_reducible apply Framed.sub (G := [.img]) ?_ hF); rfl)
    | with_reducible apply State.dropBacks_framed
    | split

theorem State.putMem_framed {rst : Bool} {F : List Field} {z s : State} {a : Nat} {ws : List Word} (hF : ([.mem, .img] : List Field).all (F.contains ·) = true) (hz : Framed rst F z s) : Framed rst F z (State.putMem s a ws) := by
  unfold State.putMem
  try dsimp only
  repeat' first
    | with_reducible assumption
    | (with_reducible apply Or.inr; with_reducible rfl)
    | ((with_reducible apply Or.inl); exact Framed.mem hF rfl)
    | ((with_reducible apply Framed.sub (G := [.mem, .img]) ?_ hF); rfl)
    | with_reducible apply State.dropBacks_framed
    | split
    | (refine Framed.of_mk ?_ (fun h => h) ?_ ?_ ?_ ?_ ?_ ?_ ?_ ?_ ?_ ?_ ?_ ?_ ?_ ?_ ?_ ?_ ?_ ?_ ?_ ?_ ?_ ?_ ?_ ?_ ?_ ?_ ?_ ?_)

theorem State.zeroMem_framed {rst : Bool} {F : List Field} {z s : State} {row : Nat} {n : Nat} (hF : ([.mem, .img] : List Field).all (F.contains ·) = true) (hz : Framed rst F z s) : Framed rst F z (State.zeroMem s row n) := by
  unfold State.zeroMem
  try dsimp only
  repeat' first
    | with_reducible assumption
    | (with_reducible apply Or.inr; with_reducible rfl)
    | ((with_reducible apply Or.inl); exact Framed.mem hF rfl)
    | ((with_reducible apply Framed.sub (G := [.mem, .img]) ?_ hF); rfl)
    | with_reducible apply State.dropBacks_framed
    | split
    | (refine Framed.of_mk ?_ (fun h => h) ?_ ?_ ?_ ?_ ?_ ?_ ?_ ?_ ?_ ?_ ?_ ?_ ?_ ?_ ?_ ?_ ?_ ?_ ?_ ?_ ?_ ?_ ?_ ?_ ?_ ?_ ?_ ?_)

theorem State.putOut_framed {rst : Bool} {F : List Field} {z s : State} {vc : Nat} {part : Nat} {reg : Bool} {ws : List Word} (hF : ([.hrpOut] : List Field).all (F.contains ·) = true) (hz : Framed rst F z s) : Framed rst F z (State.putOut s vc part reg ws) := by
  unfold State.putOut
  try dsimp only
  repeat' first
    | with_reducible assumption
    | (with_reducible apply Or.inr; with_reducible rfl)
    | ((with_reducible apply Or.inl); exact Framed.mem hF rfl)
    | ((with_reducible apply Framed.sub (G := [.hrpOut]) ?_ hF); rfl)
    | split
    | (refine Framed.of_mk ?_ (fun h => h) ?_ ?_ ?_ ?_ ?_ ?_ ?_ ?_ ?_ ?_ ?_ ?_ ?_ ?_ ?_ ?_ ?_ ?_ ?_ ?_ ?_ ?_ ?_ ?_ ?_ ?_ ?_ ?_)

theorem State.putRetained_framed {rst : Bool} {F : List Field} {z s : State} {i : Nat} {w : Word} (hF : ([.trb] : List Field).all (F.contains ·) = true) (hz : Framed rst F z s) : Framed rst F z (State.putRetained s i w) := by
  unfold State.putRetained
  try dsimp only
  repeat' first
    | with_reducible assumption
    | (with_reducible apply Or.inr; with_reducible rfl)
    | ((with_reducible apply Or.inl); exact Framed.mem hF rfl)
    | ((with_reducible apply Framed.sub (G := [.trb]) ?_ hF); rfl)
    | split
    | (refine Framed.of_mk ?_ (fun h => h) ?_ ?_ ?_ ?_ ?_ ?_ ?_ ?_ ?_ ?_ ?_ ?_ ?_ ?_ ?_ ?_ ?_ ?_ ?_ ?_ ?_ ?_ ?_ ?_ ?_ ?_ ?_ ?_)

end Sys2Proof.Machine
end

