-- ==== Sys2Proof/Laws/FramedFlags.lean ====
section
/-! SUPPORT. What the gate records: the parts of the state that each operation may change, one lemma for each. -/
namespace Sys2Proof.Machine
set_option Elab.async false

theorem State.raise_framed {rst : Bool} {F : List Field} {z s : State} {p : Nat} {v : Nat} (hF : ([.parts, .ints] : List Field).all (F.contains ·) = true) (hz : Framed rst F z s) : Framed rst F z (State.raise s p v) := by
  unfold State.raise
  try dsimp only
  repeat' first
    | with_reducible assumption
    | (with_reducible apply Or.inr; with_reducible rfl)
    | ((with_reducible apply Or.inl); exact Framed.mem hF rfl)
    | ((with_reducible apply Framed.sub (G := [.parts, .ints]) ?_ hF); rfl)
    | with_reducible apply State.setPart_framed
    | split
    | (refine Framed.of_mk ?_ (fun h => h) ?_ ?_ ?_ ?_ ?_ ?_ ?_ ?_ ?_ ?_ ?_ ?_ ?_ ?_ ?_ ?_ ?_ ?_ ?_ ?_ ?_ ?_ ?_ ?_ ?_ ?_ ?_ ?_)

theorem State.raiseAll_framed {rst : Bool} {F : List Field} {z s : State} {v : Nat} (hF : ([.parts, .ints] : List Field).all (F.contains ·) = true) (hz : Framed rst F z s) : Framed rst F z (State.raiseAll s v) := by
  unfold State.raiseAll
  try dsimp only
  repeat' first
    | with_reducible assumption
    | (with_reducible apply Or.inr; with_reducible rfl)
    | ((with_reducible apply Or.inl); exact Framed.mem hF rfl)
    | ((with_reducible apply Framed.sub (G := [.parts, .ints]) ?_ hF); rfl)
    | with_reducible apply State.raise_framed
    | split
    | (refine Framed.foldl (fun _ _ _ => ?_) ?_)

theorem State.clearPend_framed {rst : Bool} {F : List Field} {z s : State} {p : Nat} {mask : Nat} (hF : ([.parts, .ints] : List Field).all (F.contains ·) = true) (hz : Framed rst F z s) : Framed rst F z (State.clearPend s p mask) := by
  unfold State.clearPend
  try dsimp only
  repeat' first
    | with_reducible assumption
    | (with_reducible apply Or.inr; with_reducible rfl)
    | ((with_reducible apply Or.inl); exact Framed.mem hF rfl)
    | ((with_reducible apply Framed.sub (G := [.parts, .ints]) ?_ hF); rfl)
    | with_reducible apply State.setPart_framed
    | split
    | (refine Framed.foldl (fun _ _ _ => ?_) ?_)
    | (refine Framed.of_mk ?_ (fun h => h) ?_ ?_ ?_ ?_ ?_ ?_ ?_ ?_ ?_ ?_ ?_ ?_ ?_ ?_ ?_ ?_ ?_ ?_ ?_ ?_ ?_ ?_ ?_ ?_ ?_ ?_ ?_ ?_)

theorem State.setIntEn_framed {rst : Bool} {F : List Field} {z s : State} {p : Nat} {en : Nat} (hF : ([.parts, .ints] : List Field).all (F.contains ·) = true) (hz : Framed rst F z s) : Framed rst F z (State.setIntEn s p en) := by
  unfold State.setIntEn
  try dsimp only
  repeat' first
    | with_reducible assumption
    | (with_reducible apply Or.inr; with_reducible rfl)
    | ((with_reducible apply Or.inl); exact Framed.mem hF rfl)
    | ((with_reducible apply Framed.sub (G := [.parts, .ints]) ?_ hF); rfl)
    | with_reducible apply State.setPart_framed
    | split
    | (refine Framed.foldl (fun _ _ _ => ?_) ?_)
    | (refine Framed.of_mk ?_ (fun h => h) ?_ ?_ ?_ ?_ ?_ ?_ ?_ ?_ ?_ ?_ ?_ ?_ ?_ ?_ ?_ ?_ ?_ ?_ ?_ ?_ ?_ ?_ ?_ ?_ ?_ ?_ ?_ ?_)

theorem State.logRepeat_framed {rst : Bool} {F : List Field} {z s : State} {slot : Nat} (hF : ([.trb] : List Field).all (F.contains ·) = true) (hz : Framed rst F z s) : Framed rst F z (State.logRepeat s slot) := by
  unfold State.logRepeat
  try dsimp only
  repeat' first
    | with_reducible assumption
    | (with_reducible apply Or.inr; with_reducible rfl)
    | ((with_reducible apply Or.inl); exact Framed.mem hF rfl)
    | ((with_reducible apply Framed.sub (G := [.trb]) ?_ hF); rfl)
    | with_reducible apply State.putRetained_framed
    | split

theorem State.setSticky_framed {rst : Bool} {F : List Field} {z s : State} {b : Sticky} (hF : ([.trb] : List Field).all (F.contains ·) = true) (hz : Framed rst F z s) : Framed rst F z (State.setSticky s b) := by
  unfold State.setSticky
  try dsimp only
  repeat' first
    | with_reducible assumption
    | (with_reducible apply Or.inr; with_reducible rfl)
    | ((with_reducible apply Or.inl); exact Framed.mem hF rfl)
    | ((with_reducible apply Framed.sub (G := [.trb]) ?_ hF); rfl)
    | with_reducible apply State.putRetained_framed
    | split
    | (refine Framed.of_mk ?_ (fun h => h) ?_ ?_ ?_ ?_ ?_ ?_ ?_ ?_ ?_ ?_ ?_ ?_ ?_ ?_ ?_ ?_ ?_ ?_ ?_ ?_ ?_ ?_ ?_ ?_ ?_ ?_ ?_ ?_)

theorem State.logNew_framed {rst : Bool} {F : List Field} {z s : State} {w1 : Word} {obj : Word} {detail : Word} (hF : ([.trb] : List Field).all (F.contains ·) = true) (hz : Framed rst F z s) : Framed rst F z (State.logNew s w1 obj detail) := by
  unfold State.logNew
  try dsimp only
  repeat' first
    | with_reducible assumption
    | (with_reducible apply Or.inr; with_reducible rfl)
    | ((with_reducible apply Or.inl); exact Framed.mem hF rfl)
    | ((with_reducible apply Framed.sub (G := [.trb]) ?_ hF); rfl)
    | with_reducible apply State.putRetained_framed
    | split

theorem State.trouble_framed {rst : Bool} {F : List Field} {z s : State} {b : Sticky} {action : Nat} {o : Obj} {part : Option Nat} {detail : Word} (hF : ([.trb, .parts, .ints] : List Field).all (F.contains ·) = true) (hz : Framed rst F z s) : Framed rst F z (State.trouble s b action o part detail) := by
  unfold State.trouble
  try dsimp only
  repeat' first
    | with_reducible assumption
    | (with_reducible apply Or.inr; with_reducible rfl)
    | ((with_reducible apply Or.inl); exact Framed.mem hF rfl)
    | ((with_reducible apply Framed.sub (G := [.trb, .parts, .ints]) ?_ hF); rfl)
    | with_reducible apply State.setSticky_framed
    | with_reducible apply State.logRepeat_framed
    | with_reducible apply State.logNew_framed
    | with_reducible apply State.raise_framed
    | split

theorem State.faultEntry_framed {rst : Bool} {F : List Field} {z s : State} {c : Cause} {o : Obj} {part : Option Nat} {detail : Word} (hF : ([.trb, .parts, .ints] : List Field).all (F.contains ·) = true) (hz : Framed rst F z s) : Framed rst F z (State.faultEntry s c o part detail) := by
  unfold State.faultEntry
  try dsimp only
  repeat' first
    | with_reducible assumption
    | (with_reducible apply Or.inr; with_reducible rfl)
    | ((with_reducible apply Or.inl); exact Framed.mem hF rfl)
    | ((with_reducible apply Framed.sub (G := [.trb, .parts, .ints]) ?_ hF); rfl)
    | with_reducible apply State.setSticky_framed
    | with_reducible apply State.logRepeat_framed
    | with_reducible apply State.logNew_framed
    | with_reducible apply State.raise_framed
    | split
    | (refine Framed.of_mk ?_ (fun h => h) ?_ ?_ ?_ ?_ ?_ ?_ ?_ ?_ ?_ ?_ ?_ ?_ ?_ ?_ ?_ ?_ ?_ ?_ ?_ ?_ ?_ ?_ ?_ ?_ ?_ ?_ ?_ ?_)

theorem State.clearSticky_framed {rst : Bool} {F : List Field} {z s : State} {mask : Word} (hF : ([.trb] : List Field).all (F.contains ·) = true) (hz : Framed rst F z s) : Framed rst F z (State.clearSticky s mask) := by
  unfold State.clearSticky
  try dsimp only
  repeat' first
    | with_reducible assumption
    | (with_reducible apply Or.inr; with_reducible rfl)
    | ((with_reducible apply Or.inl); exact Framed.mem hF rfl)
    | ((with_reducible apply Framed.sub (G := [.trb]) ?_ hF); rfl)
    | with_reducible apply State.putRetained_framed
    | split
    | (refine Framed.of_mk ?_ (fun h => h) ?_ ?_ ?_ ?_ ?_ ?_ ?_ ?_ ?_ ?_ ?_ ?_ ?_ ?_ ?_ ?_ ?_ ?_ ?_ ?_ ?_ ?_ ?_ ?_ ?_ ?_ ?_ ?_)

theorem State.bumpCe_framed {rst : Bool} {F : List Field} {z s : State} {r : Nat} {k : Nat} {n : Nat} (hF : ([.trb] : List Field).all (F.contains ·) = true) (hz : Framed rst F z s) : Framed rst F z (State.bumpCe s r k n) := by
  unfold State.bumpCe
  try dsimp only
  repeat' first
    | with_reducible assumption
    | (with_reducible apply Or.inr; with_reducible rfl)
    | ((with_reducible apply Or.inl); exact Framed.mem hF rfl)
    | ((with_reducible apply Framed.sub (G := [.trb]) ?_ hF); rfl)
    | split
    | (refine Framed.of_mk ?_ (fun h => h) ?_ ?_ ?_ ?_ ?_ ?_ ?_ ?_ ?_ ?_ ?_ ?_ ?_ ?_ ?_ ?_ ?_ ?_ ?_ ?_ ?_ ?_ ?_ ?_ ?_ ?_ ?_ ?_)

theorem State.ceSsm_framed {rst : Bool} {F : List Field} {z s : State} {r : Nat} (hF : ([.trb] : List Field).all (F.contains ·) = true) (hz : Framed rst F z s) : Framed rst F z (State.ceSsm s r) := by
  unfold State.ceSsm
  try dsimp only
  repeat' first
    | with_reducible assumption
    | (with_reducible apply Or.inr; with_reducible rfl)
    | ((with_reducible apply Or.inl); exact Framed.mem hF rfl)
    | ((with_reducible apply Framed.sub (G := [.trb]) ?_ hF); rfl)
    | with_reducible apply State.bumpCe_framed
    | split

theorem State.ceLink_framed {rst : Bool} {F : List Field} {z s : State} {l : Nat} (hF : ([.trb] : List Field).all (F.contains ·) = true) (hz : Framed rst F z s) : Framed rst F z (State.ceLink s l) := by
  unfold State.ceLink
  try dsimp only
  repeat' first
    | with_reducible assumption
    | (with_reducible apply Or.inr; with_reducible rfl)
    | ((with_reducible apply Or.inl); exact Framed.mem hF rfl)
    | ((with_reducible apply Framed.sub (G := [.trb]) ?_ hF); rfl)
    | with_reducible apply State.bumpCe_framed
    | split

theorem State.ceSession_framed {rst : Bool} {F : List Field} {z s : State}  (hF : ([.trb] : List Field).all (F.contains ·) = true) (hz : Framed rst F z s) : Framed rst F z (State.ceSession s) := by
  unfold State.ceSession
  try dsimp only
  repeat' first
    | with_reducible assumption
    | (with_reducible apply Or.inr; with_reducible rfl)
    | ((with_reducible apply Or.inl); exact Framed.mem hF rfl)
    | ((with_reducible apply Framed.sub (G := [.trb]) ?_ hF); rfl)
    | with_reducible apply State.bumpCe_framed
    | split

theorem State.ceLedger_framed {rst : Bool} {F : List Field} {z s : State}  (hF : ([.trb] : List Field).all (F.contains ·) = true) (hz : Framed rst F z s) : Framed rst F z (State.ceLedger s) := by
  unfold State.ceLedger
  try dsimp only
  repeat' first
    | with_reducible assumption
    | (with_reducible apply Or.inr; with_reducible rfl)
    | ((with_reducible apply Or.inl); exact Framed.mem hF rfl)
    | ((with_reducible apply Framed.sub (G := [.trb]) ?_ hF); rfl)
    | with_reducible apply State.bumpCe_framed
    | split

theorem State.ceRetained_framed {rst : Bool} {F : List Field} {z s : State}  (hF : ([.trb] : List Field).all (F.contains ·) = true) (hz : Framed rst F z s) : Framed rst F z (State.ceRetained s) := by
  unfold State.ceRetained
  try dsimp only
  repeat' first
    | with_reducible assumption
    | (with_reducible apply Or.inr; with_reducible rfl)
    | ((with_reducible apply Or.inl); exact Framed.mem hF rfl)
    | ((with_reducible apply Framed.sub (G := [.trb]) ?_ hF); rfl)
    | with_reducible apply State.bumpCe_framed
    | split

theorem State.ceCommand_framed {rst : Bool} {F : List Field} {z s : State}  (hF : ([.trb] : List Field).all (F.contains ·) = true) (hz : Framed rst F z s) : Framed rst F z (State.ceCommand s) := by
  unfold State.ceCommand
  try dsimp only
  repeat' first
    | with_reducible assumption
    | (with_reducible apply Or.inr; with_reducible rfl)
    | ((with_reducible apply Or.inl); exact Framed.mem hF rfl)
    | ((with_reducible apply Framed.sub (G := [.trb]) ?_ hF); rfl)
    | with_reducible apply State.bumpCe_framed
    | split

theorem State.ceRelq_framed {rst : Bool} {F : List Field} {z s : State} {r : Nat} (hF : ([.trb] : List Field).all (F.contains ·) = true) (hz : Framed rst F z s) : Framed rst F z (State.ceRelq s r) := by
  unfold State.ceRelq
  try dsimp only
  repeat' first
    | with_reducible assumption
    | (with_reducible apply Or.inr; with_reducible rfl)
    | ((with_reducible apply Or.inl); exact Framed.mem hF rfl)
    | ((with_reducible apply Framed.sub (G := [.trb]) ?_ hF); rfl)
    | with_reducible apply State.bumpCe_framed
    | split

theorem State.ceUnit_framed {rst : Bool} {F : List Field} {z s : State}  (hF : ([.trb] : List Field).all (F.contains ·) = true) (hz : Framed rst F z s) : Framed rst F z (State.ceUnit s) := by
  unfold State.ceUnit
  try dsimp only
  repeat' first
    | with_reducible assumption
    | (with_reducible apply Or.inr; with_reducible rfl)
    | ((with_reducible apply Or.inl); exact Framed.mem hF rfl)
    | ((with_reducible apply Framed.sub (G := [.trb]) ?_ hF); rfl)
    | with_reducible apply State.bumpCe_framed
    | split

theorem State.ueSsm_framed {rst : Bool} {F : List Field} {z s : State} {r : Nat} (hF : ([.trb] : List Field).all (F.contains ·) = true) (hz : Framed rst F z s) : Framed rst F z (State.ueSsm s r) := by
  unfold State.ueSsm
  try dsimp only
  repeat' first
    | with_reducible assumption
    | (with_reducible apply Or.inr; with_reducible rfl)
    | ((with_reducible apply Or.inl); exact Framed.mem hF rfl)
    | ((with_reducible apply Framed.sub (G := [.trb]) ?_ hF); rfl)
    | with_reducible apply State.bumpCe_framed
    | split

theorem State.staleDrop_framed {rst : Bool} {F : List Field} {z s : State} {p : Nat} (hF : ([.parts] : List Field).all (F.contains ·) = true) (hz : Framed rst F z s) : Framed rst F z (State.staleDrop s p) := by
  unfold State.staleDrop
  try dsimp only
  repeat' first
    | with_reducible assumption
    | (with_reducible apply Or.inr; with_reducible rfl)
    | ((with_reducible apply Or.inl); exact Framed.mem hF rfl)
    | ((with_reducible apply Framed.sub (G := [.parts]) ?_ hF); rfl)
    | with_reducible apply State.setPart_framed
    | split

theorem State.stateDrop_framed {rst : Bool} {F : List Field} {z s : State} {p : Nat} (hF : ([.parts] : List Field).all (F.contains ·) = true) (hz : Framed rst F z s) : Framed rst F z (State.stateDrop s p) := by
  unfold State.stateDrop
  try dsimp only
  repeat' first
    | with_reducible assumption
    | (with_reducible apply Or.inr; with_reducible rfl)
    | ((with_reducible apply Or.inl); exact Framed.mem hF rfl)
    | ((with_reducible apply Framed.sub (G := [.parts]) ?_ hF); rfl)
    | with_reducible apply State.setPart_framed
    | split

theorem State.regReserved_framed {rst : Bool} {F : List Field} {z s : State} {off : Nat} {part : Option Nat} (hF : ([.trb, .parts, .ints] : List Field).all (F.contains ·) = true) (hz : Framed rst F z s) : Framed rst F z (State.regReserved s off part) := by
  unfold State.regReserved
  try dsimp only
  repeat' first
    | with_reducible assumption
    | (with_reducible apply Or.inr; with_reducible rfl)
    | ((with_reducible apply Or.inl); exact Framed.mem hF rfl)
    | ((with_reducible apply Framed.sub (G := [.trb, .parts, .ints]) ?_ hF); rfl)
    | with_reducible apply State.trouble_framed
    | split

end Sys2Proof.Machine
end

