-- ==== Sys2Proof/Laws/FramedNet.lean ====
section
/-! SUPPORT. Sending and answering: the parts of the state that each operation may change, one lemma for each. -/
namespace Sys2Proof.Machine
set_option Elab.async false

theorem State.queueOn_framed {rst : Bool} {F : List Field} {z s : State} {link : Nat} {cls : Nat} {it : Item} (hF : ([.net] : List Field).all (F.contains ·) = true) (hz : Framed rst F z s) : Framed rst F z (State.queueOn s link cls it) := by
  unfold State.queueOn
  try dsimp only
  repeat' first
    | with_reducible assumption
    | (with_reducible apply Or.inr; with_reducible rfl)
    | ((with_reducible apply Or.inl); exact Framed.mem hF rfl)
    | ((with_reducible apply Framed.sub (G := [.net]) ?_ hF); rfl)
    | split
    | (refine Framed.of_mk ?_ (fun h => h) ?_ ?_ ?_ ?_ ?_ ?_ ?_ ?_ ?_ ?_ ?_ ?_ ?_ ?_ ?_ ?_ ?_ ?_ ?_ ?_ ?_ ?_ ?_ ?_ ?_ ?_ ?_ ?_)

theorem State.sendTo_framed {rst : Bool} {F : List Field} {z s : State} {typ : Nat} {dst : Nat} {cls : Nat} {payload : List Word} (hF : ([.net] : List Field).all (F.contains ·) = true) (hz : Framed rst F z s) : Framed rst F z (State.sendTo s typ dst cls payload) := by
  unfold State.sendTo
  try dsimp only
  repeat' first
    | with_reducible assumption
    | (with_reducible apply Or.inr; with_reducible rfl)
    | ((with_reducible apply Or.inl); exact Framed.mem hF rfl)
    | ((with_reducible apply Framed.sub (G := [.net]) ?_ hF); rfl)
    | with_reducible apply State.queueOn_framed
    | split

theorem State.bcast_framed {rst : Bool} {F : List Field} {z s : State} {typ : Nat} {cls : Nat} {payload : List Word} (hF : ([.net] : List Field).all (F.contains ·) = true) (hz : Framed rst F z s) : Framed rst F z (State.bcast s typ cls payload) := by
  unfold State.bcast
  try dsimp only
  repeat' first
    | with_reducible assumption
    | (with_reducible apply Or.inr; with_reducible rfl)
    | ((with_reducible apply Or.inl); exact Framed.mem hF rfl)
    | ((with_reducible apply Framed.sub (G := [.net]) ?_ hF); rfl)
    | with_reducible apply State.queueOn_framed
    | split
    | (refine Framed.foldl (fun _ _ _ => ?_) ?_)

theorem State.sendWords_framed {rst : Bool} {F : List Field} {z s : State} {typ : Nat} {dst : Nat} {cls : Nat} {ws : List Word} (hF : ([.net] : List Field).all (F.contains ·) = true) (hz : Framed rst F z s) : Framed rst F z (State.sendWords s typ dst cls ws) := by
  unfold State.sendWords
  try dsimp only
  repeat' first
    | with_reducible assumption
    | (with_reducible apply Or.inr; with_reducible rfl)
    | ((with_reducible apply Or.inl); exact Framed.mem hF rfl)
    | ((with_reducible apply Framed.sub (G := [.net]) ?_ hF); rfl)
    | with_reducible apply State.queueOn_framed
    | split
    | (refine Framed.foldl (fun _ _ _ => ?_) ?_)

theorem State.reply_framed {rst : Bool} {F : List Field} {z s : State} {i : Issuer} {st : Status} {result : List Word} (hF : ([.cmi, .net, .hrpOut] : List Field).all (F.contains ·) = true) (hz : Framed rst F z s) : Framed rst F z (State.reply s i st result) := by
  unfold State.reply
  try dsimp only
  repeat' first
    | with_reducible assumption
    | (with_reducible apply Or.inr; with_reducible rfl)
    | ((with_reducible apply Or.inl); exact Framed.mem hF rfl)
    | ((with_reducible apply Framed.sub (G := [.cmi, .net, .hrpOut]) ?_ hF); rfl)
    | with_reducible apply State.sendWords_framed
    | with_reducible apply State.putOut_framed
    | split
    | (refine Framed.of_mk ?_ (fun h => h) ?_ ?_ ?_ ?_ ?_ ?_ ?_ ?_ ?_ ?_ ?_ ?_ ?_ ?_ ?_ ?_ ?_ ?_ ?_ ?_ ?_ ?_ ?_ ?_ ?_ ?_ ?_ ?_)

theorem State.answer_framed {rst : Bool} {F : List Field} {z s : State} {i : Issuer} {st : Status} (hF : ([.cmi, .net, .hrpOut] : List Field).all (F.contains ·) = true) (hz : Framed rst F z s) : Framed rst F z (State.answer s i st) := by
  unfold State.answer
  try dsimp only
  repeat' first
    | with_reducible assumption
    | (with_reducible apply Or.inr; with_reducible rfl)
    | ((with_reducible apply Or.inl); exact Framed.mem hF rfl)
    | ((with_reducible apply Framed.sub (G := [.cmi, .net, .hrpOut]) ?_ hF); rfl)
    | with_reducible apply State.reply_framed
    | split

theorem State.forward_framed {rst : Bool} {F : List Field} {z s : State} {dst : Nat} {ws : List Word} {i : Issuer} {slot : Option Nat} (hF : ([.cmi, .net] : List Field).all (F.contains ·) = true) (hz : Framed rst F z s) : Framed rst F z (State.forward s dst ws i slot) := by
  unfold State.forward
  try dsimp only
  repeat' first
    | with_reducible assumption
    | (with_reducible apply Or.inr; with_reducible rfl)
    | ((with_reducible apply Or.inl); exact Framed.mem hF rfl)
    | ((with_reducible apply Framed.sub (G := [.cmi, .net]) ?_ hF); rfl)
    | with_reducible apply State.sendWords_framed
    | split
    | (refine Framed.of_mk ?_ (fun h => h) ?_ ?_ ?_ ?_ ?_ ?_ ?_ ?_ ?_ ?_ ?_ ?_ ?_ ?_ ?_ ?_ ?_ ?_ ?_ ?_ ?_ ?_ ?_ ?_ ?_ ?_ ?_ ?_)

theorem State.handMirror_framed {rst : Bool} {F : List Field} {z s : State}  (hF : ([.net] : List Field).all (F.contains ·) = true) (hz : Framed rst F z s) : Framed rst F z (State.handMirror s) := by
  unfold State.handMirror
  try dsimp only
  repeat' first
    | with_reducible assumption
    | (with_reducible apply Or.inr; with_reducible rfl)
    | ((with_reducible apply Or.inl); exact Framed.mem hF rfl)
    | ((with_reducible apply Framed.sub (G := [.net]) ?_ hF); rfl)
    | split
    | (refine Framed.of_mk ?_ (fun h => h) ?_ ?_ ?_ ?_ ?_ ?_ ?_ ?_ ?_ ?_ ?_ ?_ ?_ ?_ ?_ ?_ ?_ ?_ ?_ ?_ ?_ ?_ ?_ ?_ ?_ ?_ ?_ ?_)

theorem State.mirrorPut_framed {rst : Bool} {F : List Field} {z s : State} {ws : List (Nat × Nat × Word)}
    (hF : ([.net] : List Field).all (F.contains ·) = true) (hz : Framed rst F z s) : Framed rst F z (s.mirrorPut ws) := by
  refine hz.after (G := [.net]) ⟨fun h => ?_, .inr fun f hf => ?_⟩ hF
  · unfold State.inReset at *
    rw [show (s.mirrorPut ws).rs = s.rs by unfold State.mirrorPut; split <;> rfl]
    exact h
  · unfold State.mirrorPut
    split
    · cases f <;> first | rfl | simp at hf
    · exact f.same_refl s

theorem State.setEntry_framed {rst : Bool} {F : List Field} {z s : State} {slot : Nat} {e : Entry} (hF : ([.entries, .net] : List Field).all (F.contains ·) = true) (hz : Framed rst F z s) : Framed rst F z (State.setEntry s slot e) := by
  unfold State.setEntry
  try dsimp only
  repeat' first
    | with_reducible assumption
    | (with_reducible apply Or.inr; with_reducible rfl)
    | ((with_reducible apply Or.inl); exact Framed.mem hF rfl)
    | ((with_reducible apply Framed.sub (G := [.entries, .net]) ?_ hF); rfl)
    | with_reducible apply State.mirrorPut_framed
    | split
    | (refine Framed.of_mk ?_ (fun h => h) ?_ ?_ ?_ ?_ ?_ ?_ ?_ ?_ ?_ ?_ ?_ ?_ ?_ ?_ ?_ ?_ ?_ ?_ ?_ ?_ ?_ ?_ ?_ ?_ ?_ ?_ ?_ ?_)

theorem State.setLedger_framed {rst : Bool} {F : List Field} {z s : State} {t : Nat} {l : Ledger} (hF : ([.ledgers, .net] : List Field).all (F.contains ·) = true) (hz : Framed rst F z s) : Framed rst F z (State.setLedger s t l) := by
  unfold State.setLedger
  try dsimp only
  repeat' first
    | with_reducible assumption
    | (with_reducible apply Or.inr; with_reducible rfl)
    | ((with_reducible apply Or.inl); exact Framed.mem hF rfl)
    | ((with_reducible apply Framed.sub (G := [.ledgers, .net]) ?_ hF); rfl)
    | with_reducible apply State.mirrorPut_framed
    | split
    | (refine Framed.of_mk ?_ (fun h => h) ?_ ?_ ?_ ?_ ?_ ?_ ?_ ?_ ?_ ?_ ?_ ?_ ?_ ?_ ?_ ?_ ?_ ?_ ?_ ?_ ?_ ?_ ?_ ?_ ?_ ?_ ?_ ?_)

theorem State.client_framed {rst : Bool} {F : List Field} {z s : State} {part : Nat} {ws : List Word} (hF : ([.hrpOut] : List Field).all (F.contains ·) = true) (hz : Framed rst F z s) : Framed rst F z (State.client s part ws) := by
  unfold State.client
  try dsimp only
  repeat' first
    | with_reducible assumption
    | (with_reducible apply Or.inr; with_reducible rfl)
    | ((with_reducible apply Or.inl); exact Framed.mem hF rfl)
    | ((with_reducible apply Framed.sub (G := [.hrpOut]) ?_ hF); rfl)
    | with_reducible apply State.putOut_framed
    | split

end Sys2Proof.Machine
end

