-- ==== Sys2Proof/Laws/FramedTier.lean ====
section
/-! SUPPORT. The tier’s slices: the parts of the state that each operation may change, one lemma for each. -/
namespace Sys2Proof.Machine
set_option Elab.async false

theorem State.setDev_framed {rst : Bool} {F : List Field} {z s : State} {d : Nat} {v : Dev} (hF : ([.tier] : List Field).all (F.contains ·) = true) (hz : Framed rst F z s) : Framed rst F z (State.setDev s d v) := by
  unfold State.setDev
  try dsimp only
  repeat' first
    | with_reducible assumption
    | (with_reducible apply Or.inr; with_reducible rfl)
    | ((with_reducible apply Or.inl); exact Framed.mem hF rfl)
    | ((with_reducible apply Framed.sub (G := [.tier]) ?_ hF); rfl)
    | split
    | (refine Framed.of_mk ?_ (fun h => h) ?_ ?_ ?_ ?_ ?_ ?_ ?_ ?_ ?_ ?_ ?_ ?_ ?_ ?_ ?_ ?_ ?_ ?_ ?_ ?_ ?_ ?_ ?_ ?_ ?_ ?_ ?_ ?_)

theorem State.touch_framed {rst : Bool} {F : List Field} {z s : State} {es : List Nat} (hF : ([.tier] : List Field).all (F.contains ·) = true) (hz : Framed rst F z s) : Framed rst F z (State.touch s es) := by
  unfold State.touch
  try dsimp only
  repeat' first
    | with_reducible assumption
    | (with_reducible apply Or.inr; with_reducible rfl)
    | ((with_reducible apply Or.inl); exact Framed.mem hF rfl)
    | ((with_reducible apply Framed.sub (G := [.tier]) ?_ hF); rfl)
    | split
    | (refine Framed.of_mk ?_ (fun h => h) ?_ ?_ ?_ ?_ ?_ ?_ ?_ ?_ ?_ ?_ ?_ ?_ ?_ ?_ ?_ ?_ ?_ ?_ ?_ ?_ ?_ ?_ ?_ ?_ ?_ ?_ ?_ ?_)

theorem State.takeExts_framed {rst : Bool} {F : List Field} {z s : State} {es : List Nat} (hF : ([.tier] : List Field).all (F.contains ·) = true) (hz : Framed rst F z s) : Framed rst F z (State.takeExts s es) := by
  unfold State.takeExts
  try dsimp only
  repeat' first
    | with_reducible assumption
    | (with_reducible apply Or.inr; with_reducible rfl)
    | ((with_reducible apply Or.inl); exact Framed.mem hF rfl)
    | ((with_reducible apply Framed.sub (G := [.tier]) ?_ hF); rfl)
    | with_reducible apply State.touch_framed
    | split
    | (refine Framed.foldl (fun _ _ _ => ?_) ?_)
    | (refine Framed.of_mk ?_ (fun h => h) ?_ ?_ ?_ ?_ ?_ ?_ ?_ ?_ ?_ ?_ ?_ ?_ ?_ ?_ ?_ ?_ ?_ ?_ ?_ ?_ ?_ ?_ ?_ ?_ ?_ ?_ ?_ ?_)

theorem State.keepAwake_framed {rst : Bool} {F : List Field} {z s : State}  (hF : ([.tier] : List Field).all (F.contains ·) = true) (hz : Framed rst F z s) : Framed rst F z (State.keepAwake s) := by
  unfold State.keepAwake
  try dsimp only
  repeat' first
    | with_reducible assumption
    | (with_reducible apply Or.inr; with_reducible rfl)
    | ((with_reducible apply Or.inl); exact Framed.mem hF rfl)
    | ((with_reducible apply Framed.sub (G := [.tier]) ?_ hF); rfl)
    | with_reducible apply State.setDev_framed
    | split
    | (refine Framed.foldl (fun _ _ _ => ?_) ?_)

theorem State.freeExtents_framed {rst : Bool} {F : List Field} {z s : State} {es : List Nat} (hF : ([.tier] : List Field).all (F.contains ·) = true) (hz : Framed rst F z s) : Framed rst F z (State.freeExtents s es) := by
  unfold State.freeExtents
  try dsimp only
  repeat' first
    | with_reducible assumption
    | (with_reducible apply Or.inr; with_reducible rfl)
    | ((with_reducible apply Or.inl); exact Framed.mem hF rfl)
    | ((with_reducible apply Framed.sub (G := [.tier]) ?_ hF); rfl)
    | with_reducible apply State.touch_framed
    | split
    | (refine Framed.of_mk ?_ (fun h => h) ?_ ?_ ?_ ?_ ?_ ?_ ?_ ?_ ?_ ?_ ?_ ?_ ?_ ?_ ?_ ?_ ?_ ?_ ?_ ?_ ?_ ?_ ?_ ?_ ?_ ?_ ?_ ?_)

theorem State.addHeld_framed {rst : Bool} {F : List Field} {z s : State} {t : Nat} {n : Nat} (hF : ([.ledgers, .net] : List Field).all (F.contains ·) = true) (hz : Framed rst F z s) : Framed rst F z (State.addHeld s t n) := by
  unfold State.addHeld
  try dsimp only
  repeat' first
    | with_reducible assumption
    | (with_reducible apply Or.inr; with_reducible rfl)
    | ((with_reducible apply Or.inl); exact Framed.mem hF rfl)
    | ((with_reducible apply Framed.sub (G := [.ledgers, .net]) ?_ hF); rfl)
    | with_reducible apply State.setLedger_framed
    | split

theorem State.subHeld_framed {rst : Bool} {F : List Field} {z s : State} {t : Nat} {n : Nat} (hF : ([.ledgers, .net] : List Field).all (F.contains ·) = true) (hz : Framed rst F z s) : Framed rst F z (State.subHeld s t n) := by
  unfold State.subHeld
  try dsimp only
  repeat' first
    | with_reducible assumption
    | (with_reducible apply Or.inr; with_reducible rfl)
    | ((with_reducible apply Or.inl); exact Framed.mem hF rfl)
    | ((with_reducible apply Framed.sub (G := [.ledgers, .net]) ?_ hF); rfl)
    | with_reducible apply State.setLedger_framed
    | split

theorem State.freeList_framed {rst : Bool} {F : List Field} {z s : State} {tenant : Option Nat} {head : Nat} {pages : Nat} (hF : ([.ledgers, .net, .tier] : List Field).all (F.contains ·) = true) (hz : Framed rst F z s) : Framed rst F z (State.freeList s tenant head pages) := by
  unfold State.freeList
  try dsimp only
  repeat' first
    | with_reducible assumption
    | (with_reducible apply Or.inr; with_reducible rfl)
    | ((with_reducible apply Or.inl); exact Framed.mem hF rfl)
    | ((with_reducible apply Framed.sub (G := [.ledgers, .net, .tier]) ?_ hF); rfl)
    | with_reducible apply State.freeExtents_framed
    | with_reducible apply State.subHeld_framed
    | split

theorem State.writePages_framed {rst : Bool} {F : List Field} {z s : State} {es : List Nat} {kind : Nat} {owner : Nat} {items : List (List Word)} (hF : ([.tier] : List Field).all (F.contains ·) = true) (hz : Framed rst F z s) : Framed rst F z (State.writePages s es kind owner items) := by
  unfold State.writePages
  try dsimp only
  repeat' first
    | with_reducible assumption
    | (with_reducible apply Or.inr; with_reducible rfl)
    | ((with_reducible apply Or.inl); exact Framed.mem hF rfl)
    | ((with_reducible apply Framed.sub (G := [.tier]) ?_ hF); rfl)
    | with_reducible apply State.touch_framed
    | split
    | (refine Framed.foldl (fun _ _ _ => ?_) ?_)
    | (refine Framed.of_mk ?_ (fun h => h) ?_ ?_ ?_ ?_ ?_ ?_ ?_ ?_ ?_ ?_ ?_ ?_ ?_ ?_ ?_ ?_ ?_ ?_ ?_ ?_ ?_ ?_ ?_ ?_ ?_ ?_ ?_ ?_)

theorem State.freeSlice_framed {rst : Bool} {F : List Field} {z s : State} {tenant : Option Nat} {head : Nat} {pages : Nat} (hF : ([.ledgers, .net, .tier] : List Field).all (F.contains ·) = true) (hz : Framed rst F z s) : Framed rst F z (State.freeSlice s tenant head pages) := by
  unfold State.freeSlice
  try dsimp only
  repeat' first
    | with_reducible assumption
    | (with_reducible apply Or.inr; with_reducible rfl)
    | ((with_reducible apply Or.inl); exact Framed.mem hF rfl)
    | ((with_reducible apply Framed.sub (G := [.ledgers, .net, .tier]) ?_ hF); rfl)
    | with_reducible apply State.freeList_framed
    | split
    | (refine Framed.of_mk ?_ (fun h => h) ?_ ?_ ?_ ?_ ?_ ?_ ?_ ?_ ?_ ?_ ?_ ?_ ?_ ?_ ?_ ?_ ?_ ?_ ?_ ?_ ?_ ?_ ?_ ?_ ?_ ?_ ?_ ?_)

end Sys2Proof.Machine
end

