-- ==== Sys2Proof/Laws/FramedFifo.lean ====
section
/-! SUPPORT. The rings and FIFOs: the parts of the state that each operation may change, one lemma for each. -/
namespace Sys2Proof.Machine
set_option Elab.async false

theorem State.fifoRefusal_framed {rst : Bool} {F : List Field} {z s : State} {slot : Nat} (hF : ([.fsp] : List Field).all (F.contains ·) = true) (hz : Framed rst F z s) : Framed rst F z (State.fifoRefusal s slot) := by
  unfold State.fifoRefusal
  try dsimp only
  repeat' first
    | with_reducible assumption
    | (with_reducible apply Or.inr; with_reducible rfl)
    | ((with_reducible apply Or.inl); exact Framed.mem hF rfl)
    | ((with_reducible apply Framed.sub (G := [.fsp]) ?_ hF); rfl)
    | split
    | (refine Framed.of_mk ?_ (fun h => h) ?_ ?_ ?_ ?_ ?_ ?_ ?_ ?_ ?_ ?_ ?_ ?_ ?_ ?_ ?_ ?_ ?_ ?_ ?_ ?_ ?_ ?_ ?_ ?_ ?_ ?_ ?_ ?_)

theorem State.countOverflow_framed {rst : Bool} {F : List Field} {z s : State} {slot : Nat} {n : Nat} (hF : ([.parts] : List Field).all (F.contains ·) = true) (hz : Framed rst F z s) : Framed rst F z (State.countOverflow s slot n) := by
  unfold State.countOverflow
  try dsimp only
  repeat' first
    | with_reducible assumption
    | (with_reducible apply Or.inr; with_reducible rfl)
    | ((with_reducible apply Or.inl); exact Framed.mem hF rfl)
    | ((with_reducible apply Framed.sub (G := [.parts]) ?_ hF); rfl)
    | with_reducible apply State.setPart_framed
    | split

theorem State.schedule_framed {rst : Bool} {F : List Field} {z s : State} {slot : Nat} {out : Bool} {r : RingD} {t : RingD} (hF : ([.slots] : List Field).all (F.contains ·) = true) (hz : Framed rst F z s) : Framed rst F z (State.schedule s slot out r t) := by
  unfold State.schedule
  try dsimp only
  repeat' first
    | with_reducible assumption
    | (with_reducible apply Or.inr; with_reducible rfl)
    | ((with_reducible apply Or.inl); exact Framed.mem hF rfl)
    | ((with_reducible apply Framed.sub (G := [.slots]) ?_ hF); rfl)
    | with_reducible apply State.setSlot_framed
    | split

theorem State.pushOut_framed {rst : Bool} {F : List Field} {z s : State} {slot : Nat} {w : Word} (hF : ([.entries, .edge, .slots, .parts, .mem, .img, .net] : List Field).all (F.contains ·) = true) (hz : Framed rst F z s) : Framed rst F z (State.pushOut s slot w).1 := by
  unfold State.pushOut
  try dsimp only
  repeat' first
    | with_reducible assumption
    | (with_reducible apply Or.inr; with_reducible rfl)
    | ((with_reducible apply Or.inl); exact Framed.mem hF rfl)
    | ((with_reducible apply Framed.sub (G := [.entries, .edge, .slots, .parts, .mem, .img, .net]) ?_ hF); rfl)
    | with_reducible apply State.setEdge_framed
    | with_reducible apply State.countOverflow_framed
    | with_reducible apply State.putMem_framed
    | with_reducible apply State.schedule_framed
    | with_reducible apply State.setEntry_framed
    | split

theorem State.pushOut_framed_eq {rst : Bool} {F : List Field} {z s t : State} {x : _} {slot : Nat} {w : Word} (e : State.pushOut s slot w = (t, x)) (hF : ([.entries, .edge, .slots, .parts, .mem, .img, .net] : List Field).all (F.contains ·) = true) (hz : Framed rst F z s) : Framed rst F z t := by
  have k := State.pushOut_framed (F := F) (z := z) (s := s) (slot := slot) (w := w) hF hz
  rw [e] at k
  exact k

theorem State.pushIn_framed {rst : Bool} {F : List Field} {z s : State} {slot : Nat} {w : Word} (hF : ([.entries, .slots, .parts, .mem, .img, .net] : List Field).all (F.contains ·) = true) (hz : Framed rst F z s) : Framed rst F z (State.pushIn s slot w) := by
  unfold State.pushIn
  try dsimp only
  repeat' first
    | with_reducible assumption
    | (with_reducible apply Or.inr; with_reducible rfl)
    | ((with_reducible apply Or.inl); exact Framed.mem hF rfl)
    | ((with_reducible apply Framed.sub (G := [.entries, .slots, .parts, .mem, .img, .net]) ?_ hF); rfl)
    | with_reducible apply State.putMem_framed
    | with_reducible apply State.schedule_framed
    | with_reducible apply State.setEntry_framed
    | with_reducible apply State.countOverflow_framed
    | split

theorem State.readOut_framed {rst : Bool} {F : List Field} {z s : State} {slot : Nat} (hF : ([.entries, .net] : List Field).all (F.contains ·) = true) (hz : Framed rst F z s) : Framed rst F z (State.readOut s slot) := by
  unfold State.readOut
  try dsimp only
  repeat' first
    | with_reducible assumption
    | (with_reducible apply Or.inr; with_reducible rfl)
    | ((with_reducible apply Or.inl); exact Framed.mem hF rfl)
    | ((with_reducible apply Framed.sub (G := [.entries, .net]) ?_ hF); rfl)
    | with_reducible apply State.setEntry_framed
    | split
    | (refine Framed.foldl (fun _ _ _ => ?_) ?_)

theorem State.resolveOut_framed {rst : Bool} {F : List Field} {z s : State} {slot : Nat} (hF : ([.entries, .net, .fsp] : List Field).all (F.contains ·) = true) (hz : Framed rst F z s) : Framed rst F z (State.resolveOut s slot) := by
  unfold State.resolveOut
  try dsimp only
  repeat' first
    | with_reducible assumption
    | (with_reducible apply Or.inr; with_reducible rfl)
    | ((with_reducible apply Or.inl); exact Framed.mem hF rfl)
    | ((with_reducible apply Framed.sub (G := [.entries, .net, .fsp]) ?_ hF); rfl)
    | with_reducible apply State.fifoRefusal_framed
    | with_reducible apply State.setEntry_framed
    | split
    | (refine Framed.foldl (fun _ _ _ => ?_) ?_)

theorem State.consumeOut_framed {rst : Bool} {F : List Field} {z s : State} {slot : Nat} (hF : ([.entries, .slots, .net] : List Field).all (F.contains ·) = true) (hz : Framed rst F z s) : Framed rst F z (State.consumeOut s slot) := by
  unfold State.consumeOut
  try dsimp only
  repeat' first
    | with_reducible assumption
    | (with_reducible apply Or.inr; with_reducible rfl)
    | ((with_reducible apply Or.inl); exact Framed.mem hF rfl)
    | ((with_reducible apply Framed.sub (G := [.entries, .slots, .net]) ?_ hF); rfl)
    | with_reducible apply State.readOut_framed
    | with_reducible apply State.setEntry_framed
    | with_reducible apply State.setSlot_framed
    | split

theorem State.markOut_framed {rst : Bool} {F : List Field} {z s : State} {slot : Nat} (hF : ([.entries, .slots, .net] : List Field).all (F.contains ·) = true) (hz : Framed rst F z s) : Framed rst F z (State.markOut s slot) := by
  unfold State.markOut
  try dsimp only
  repeat' first
    | with_reducible assumption
    | (with_reducible apply Or.inr; with_reducible rfl)
    | ((with_reducible apply Or.inl); exact Framed.mem hF rfl)
    | ((with_reducible apply Framed.sub (G := [.entries, .slots, .net]) ?_ hF); rfl)
    | with_reducible apply State.consumeOut_framed
    | with_reducible apply State.setEntry_framed
    | split

theorem State.consumeIn_framed {rst : Bool} {F : List Field} {z s : State} {slot : Nat} (hF : ([.entries, .slots, .net] : List Field).all (F.contains ·) = true) (hz : Framed rst F z s) : Framed rst F z (State.consumeIn s slot) := by
  unfold State.consumeIn
  try dsimp only
  repeat' first
    | with_reducible assumption
    | (with_reducible apply Or.inr; with_reducible rfl)
    | ((with_reducible apply Or.inl); exact Framed.mem hF rfl)
    | ((with_reducible apply Framed.sub (G := [.entries, .slots, .net]) ?_ hF); rfl)
    | with_reducible apply State.setSlot_framed
    | with_reducible apply State.setEntry_framed
    | split
    | (refine Framed.foldl (fun _ _ _ => ?_) ?_)

theorem State.consumeRings_framed {rst : Bool} {F : List Field} {z s : State}  (hF : ([.entries, .slots, .net] : List Field).all (F.contains ·) = true) (hz : Framed rst F z s) : Framed rst F z (State.consumeRings s) := by
  unfold State.consumeRings
  try dsimp only
  repeat' first
    | with_reducible assumption
    | (with_reducible apply Or.inr; with_reducible rfl)
    | ((with_reducible apply Or.inl); exact Framed.mem hF rfl)
    | ((with_reducible apply Framed.sub (G := [.entries, .slots, .net]) ?_ hF); rfl)
    | with_reducible apply State.consumeIn_framed
    | with_reducible apply State.consumeOut_framed
    | split
    | (refine Framed.foldl (fun _ _ _ => ?_) ?_)

theorem State.writeOut_framed {rst : Bool} {F : List Field} {z s : State} {slot : Nat} {w : Word} (hF : ([.entries, .edge, .slots, .parts, .mem, .img, .net] : List Field).all (F.contains ·) = true) (hz : Framed rst F z s) : Framed rst F z (State.writeOut s slot w).1 := by
  unfold State.writeOut
  try dsimp only
  repeat' first
    | with_reducible assumption
    | (with_reducible apply Or.inr; with_reducible rfl)
    | ((with_reducible apply Or.inl); exact Framed.mem hF rfl)
    | ((with_reducible apply Framed.sub (G := [.entries, .edge, .slots, .parts, .mem, .img, .net]) ?_ hF); rfl)
    | with_reducible apply State.pushOut_framed
    | (with_reducible refine State.pushOut_framed_eq (by with_reducible assumption) ?_ ?_)
    | with_reducible apply State.consumeOut_framed
    | split

theorem State.writeOut_framed_eq {rst : Bool} {F : List Field} {z s t : State} {x : _} {slot : Nat} {w : Word} (e : State.writeOut s slot w = (t, x)) (hF : ([.entries, .edge, .slots, .parts, .mem, .img, .net] : List Field).all (F.contains ·) = true) (hz : Framed rst F z s) : Framed rst F z t := by
  have k := State.writeOut_framed (F := F) (z := z) (s := s) (slot := slot) (w := w) hF hz
  rw [e] at k
  exact k

theorem State.writeIn_framed {rst : Bool} {F : List Field} {z s : State} {slot : Nat} {pos : Nat} {toks : List Nat} (hF : ([.entries, .slots, .parts, .mem, .img, .net] : List Field).all (F.contains ·) = true) (hz : Framed rst F z s) : Framed rst F z (State.writeIn s slot pos toks) := by
  unfold State.writeIn
  try dsimp only
  repeat' first
    | with_reducible assumption
    | (with_reducible apply Or.inr; with_reducible rfl)
    | ((with_reducible apply Or.inl); exact Framed.mem hF rfl)
    | ((with_reducible apply Framed.sub (G := [.entries, .slots, .parts, .mem, .img, .net]) ?_ hF); rfl)
    | with_reducible apply State.pushIn_framed
    | with_reducible apply State.consumeIn_framed
    | split
    | (refine Framed.foldl (fun _ _ _ => ?_) ?_)

theorem State.queueControl_framed {rst : Bool} {F : List Field} {z s : State} {l : Nat} {w : Word} (hF : ([.fsp] : List Field).all (F.contains ·) = true) (hz : Framed rst F z s) : Framed rst F z (State.queueControl s l w) := by
  unfold State.queueControl
  try dsimp only
  repeat' first
    | with_reducible assumption
    | (with_reducible apply Or.inr; with_reducible rfl)
    | ((with_reducible apply Or.inl); exact Framed.mem hF rfl)
    | ((with_reducible apply Framed.sub (G := [.fsp]) ?_ hF); rfl)
    | with_reducible apply State.setRelq_framed
    | split

end Sys2Proof.Machine
end

