-- ==== Sys2Proof/Laws/FramedPrefix.lean ====
section
/-! SUPPORT. The prefix directory: the parts of the state that each operation may change, one lemma for each. -/
namespace Sys2Proof.Machine
set_option Elab.async false

theorem State.setHashRec_framed {rst : Bool} {F : List Field} {z s : State} {slot : Nat} {r : HashRec} (hF : ([.mem, .img] : List Field).all (F.contains ·) = true) (hz : Framed rst F z s) : Framed rst F z (State.setHashRec s slot r) := by
  unfold State.setHashRec
  try dsimp only
  repeat' first
    | with_reducible assumption
    | (with_reducible apply Or.inr; with_reducible rfl)
    | ((with_reducible apply Or.inl); exact Framed.mem hF rfl)
    | ((with_reducible apply Framed.sub (G := [.mem, .img]) ?_ hF); rfl)
    | with_reducible apply State.putMem_framed
    | split

theorem State.openRec_framed {rst : Bool} {F : List Field} {z s : State} {slot : Nat} (hF : ([.mem, .img] : List Field).all (F.contains ·) = true) (hz : Framed rst F z s) : Framed rst F z (State.openRec s slot) := by
  unfold State.openRec
  try dsimp only
  repeat' first
    | with_reducible assumption
    | (with_reducible apply Or.inr; with_reducible rfl)
    | ((with_reducible apply Or.inl); exact Framed.mem hF rfl)
    | ((with_reducible apply Framed.sub (G := [.mem, .img]) ?_ hF); rfl)
    | with_reducible apply State.setHashRec_framed
    | split

theorem State.brokenRec_framed {rst : Bool} {F : List Field} {z s : State} {slot : Nat} (hF : ([.mem, .img] : List Field).all (F.contains ·) = true) (hz : Framed rst F z s) : Framed rst F z (State.brokenRec s slot) := by
  unfold State.brokenRec
  try dsimp only
  repeat' first
    | with_reducible assumption
    | (with_reducible apply Or.inr; with_reducible rfl)
    | ((with_reducible apply Or.inl); exact Framed.mem hF rfl)
    | ((with_reducible apply Framed.sub (G := [.mem, .img]) ?_ hF); rfl)
    | with_reducible apply State.setHashRec_framed
    | split

theorem State.breakRec_framed {rst : Bool} {F : List Field} {z s : State} {slot : Nat} (hF : ([.mem, .img] : List Field).all (F.contains ·) = true) (hz : Framed rst F z s) : Framed rst F z (State.breakRec s slot) := by
  unfold State.breakRec
  try dsimp only
  repeat' first
    | with_reducible assumption
    | (with_reducible apply Or.inr; with_reducible rfl)
    | ((with_reducible apply Or.inl); exact Framed.mem hF rfl)
    | ((with_reducible apply Framed.sub (G := [.mem, .img]) ?_ hF); rfl)
    | with_reducible apply State.setHashRec_framed
    | split

theorem State.dirPut_framed {rst : Bool} {F : List Field} {z s : State} {i : Nat} {d : Option DirEnt} (hF : ([.mem, .img, .tier] : List Field).all (F.contains ·) = true) (hz : Framed rst F z s) : Framed rst F z (State.dirPut s i d) := by
  unfold State.dirPut
  try dsimp only
  repeat' first
    | with_reducible assumption
    | (with_reducible apply Or.inr; with_reducible rfl)
    | ((with_reducible apply Or.inl); exact Framed.mem hF rfl)
    | ((with_reducible apply Framed.sub (G := [.mem, .img, .tier]) ?_ hF); rfl)
    | with_reducible apply State.putMem_framed
    | split
    | (refine Framed.of_mk ?_ (fun h => h) ?_ ?_ ?_ ?_ ?_ ?_ ?_ ?_ ?_ ?_ ?_ ?_ ?_ ?_ ?_ ?_ ?_ ?_ ?_ ?_ ?_ ?_ ?_ ?_ ?_ ?_ ?_ ?_)

theorem State.hashBlock_framed {rst : Bool} {F : List Field} {z s : State} {slot : Nat} {toks : List Nat} (hF : ([.mem, .img] : List Field).all (F.contains ·) = true) (hz : Framed rst F z s) : Framed rst F z (State.hashBlock s slot toks) := by
  unfold State.hashBlock
  try dsimp only
  repeat' first
    | with_reducible assumption
    | (with_reducible apply Or.inr; with_reducible rfl)
    | ((with_reducible apply Or.inl); exact Framed.mem hF rfl)
    | ((with_reducible apply Framed.sub (G := [.mem, .img]) ?_ hF); rfl)
    | with_reducible apply State.setHashRec_framed
    | split

theorem State.dirDrop_framed {rst : Bool} {F : List Field} {z s : State} {i : Nat} {d : DirEnt} (hF : ([.ledgers, .mem, .img, .net, .tier] : List Field).all (F.contains ·) = true) (hz : Framed rst F z s) : Framed rst F z (State.dirDrop s i d) := by
  unfold State.dirDrop
  try dsimp only
  repeat' first
    | with_reducible assumption
    | (with_reducible apply Or.inr; with_reducible rfl)
    | ((with_reducible apply Or.inl); exact Framed.mem hF rfl)
    | ((with_reducible apply Framed.sub (G := [.ledgers, .mem, .img, .net, .tier]) ?_ hF); rfl)
    | with_reducible apply State.dirPut_framed
    | with_reducible apply State.freeSlice_framed
    | split

theorem State.dirExpire_framed {rst : Bool} {F : List Field} {z s : State} {i : Nat} {d : DirEnt} (hF : ([.ledgers, .mem, .img, .net, .tier] : List Field).all (F.contains ·) = true) (hz : Framed rst F z s) : Framed rst F z (State.dirExpire s i d) := by
  unfold State.dirExpire
  try dsimp only
  repeat' first
    | with_reducible assumption
    | (with_reducible apply Or.inr; with_reducible rfl)
    | ((with_reducible apply Or.inl); exact Framed.mem hF rfl)
    | ((with_reducible apply Framed.sub (G := [.ledgers, .mem, .img, .net, .tier]) ?_ hF); rfl)
    | with_reducible apply State.dirDrop_framed
    | split

theorem State.dirRetire_framed {rst : Bool} {F : List Field} {z s : State} {i : Nat} {d : DirEnt} (hF : ([.ledgers, .mem, .img, .net, .tier] : List Field).all (F.contains ·) = true) (hz : Framed rst F z s) : Framed rst F z (State.dirRetire s i d) := by
  unfold State.dirRetire
  try dsimp only
  repeat' first
    | with_reducible assumption
    | (with_reducible apply Or.inr; with_reducible rfl)
    | ((with_reducible apply Or.inl); exact Framed.mem hF rfl)
    | ((with_reducible apply Framed.sub (G := [.ledgers, .mem, .img, .net, .tier]) ?_ hF); rfl)
    | with_reducible apply State.dirDrop_framed
    | split
    | (refine Framed.of_mk ?_ (fun h => h) ?_ ?_ ?_ ?_ ?_ ?_ ?_ ?_ ?_ ?_ ?_ ?_ ?_ ?_ ?_ ?_ ?_ ?_ ?_ ?_ ?_ ?_ ?_ ?_ ?_ ?_ ?_ ?_)

theorem State.endOp_framed {rst : Bool} {F : List Field} {z s : State} {o : TierOp} (hF : ([.ledgers, .mem, .img, .net, .tier] : List Field).all (F.contains ·) = true) (hz : Framed rst F z s) : Framed rst F z (State.endOp s o) := by
  unfold State.endOp
  try dsimp only
  repeat' first
    | with_reducible assumption
    | (with_reducible apply Or.inr; with_reducible rfl)
    | ((with_reducible apply Or.inl); exact Framed.mem hF rfl)
    | ((with_reducible apply Framed.sub (G := [.ledgers, .mem, .img, .net, .tier]) ?_ hF); rfl)
    | with_reducible apply State.freeSlice_framed
    | with_reducible apply State.dirDrop_framed
    | split
    | (refine Framed.foldl (fun _ _ _ => ?_) ?_)
    | (refine Framed.of_mk ?_ (fun h => h) ?_ ?_ ?_ ?_ ?_ ?_ ?_ ?_ ?_ ?_ ?_ ?_ ?_ ?_ ?_ ?_ ?_ ?_ ?_ ?_ ?_ ?_ ?_ ?_ ?_ ?_ ?_ ?_)

end Sys2Proof.Machine
end

