-- ==== Sys2Proof/Laws/FramedSession.lean ====
section
/-! SUPPORT. The life of a session: the parts of the state that each operation may change, one lemma for each. -/
namespace Sys2Proof.Machine
set_option Elab.async false

theorem State.freeOpPages_framed {rst : Bool} {F : List Field} {z s : State} {o : TierOp} (hF : ([.ledgers, .net, .tier] : List Field).all (F.contains ·) = true) (hz : Framed rst F z s) : Framed rst F z (State.freeOpPages s o) := by
  unfold State.freeOpPages
  try dsimp only
  repeat' first
    | with_reducible assumption
    | (with_reducible apply Or.inr; with_reducible rfl)
    | ((with_reducible apply Or.inl); exact Framed.mem hF rfl)
    | ((with_reducible apply Framed.sub (G := [.ledgers, .net, .tier]) ?_ hF); rfl)
    | with_reducible apply State.freeExtents_framed
    | with_reducible apply State.subHeld_framed
    | split

theorem State.deadOp_framed {rst : Bool} {F : List Field} {z s : State} {o : TierOp} {slips : Bool} {counted : Bool} (hF : ([.fsp] : List Field).all (F.contains ·) = true) (hz : Framed rst F z s) : Framed rst F z (State.deadOp s o slips counted) := by
  unfold State.deadOp
  try dsimp only
  repeat' first
    | with_reducible assumption
    | (with_reducible apply Or.inr; with_reducible rfl)
    | ((with_reducible apply Or.inl); exact Framed.mem hF rfl)
    | ((with_reducible apply Framed.sub (G := [.fsp]) ?_ hF); rfl)
    | with_reducible apply State.setOutLane_framed
    | with_reducible apply State.setInLane_framed
    | split

theorem State.dropOps_framed {rst : Bool} {F : List Field} {z s : State} {slot : Nat} (hF : ([.ledgers, .mem, .img, .net, .fsp, .tier] : List Field).all (F.contains ·) = true) (hz : Framed rst F z s) : Framed rst F z (State.dropOps s slot) := by
  unfold State.dropOps
  try dsimp only
  repeat' first
    | with_reducible assumption
    | (with_reducible apply Or.inr; with_reducible rfl)
    | ((with_reducible apply Or.inl); exact Framed.mem hF rfl)
    | ((with_reducible apply Framed.sub (G := [.ledgers, .mem, .img, .net, .fsp, .tier]) ?_ hF); rfl)
    | with_reducible apply State.endOp_framed
    | with_reducible apply State.deadOp_framed
    | with_reducible apply State.freeOpPages_framed
    | split
    | (refine Framed.foldl (fun _ _ _ => ?_) ?_)

theorem State.holdReply_framed {rst : Bool} {F : List Field} {z s : State} {slot : Nat} {i : Issuer} (hF : ([.entries, .net] : List Field).all (F.contains ·) = true) (hz : Framed rst F z s) : Framed rst F z (State.holdReply s slot i) := by
  unfold State.holdReply
  try dsimp only
  repeat' first
    | with_reducible assumption
    | (with_reducible apply Or.inr; with_reducible rfl)
    | ((with_reducible apply Or.inl); exact Framed.mem hF rfl)
    | ((with_reducible apply Framed.sub (G := [.entries, .net]) ?_ hF); rfl)
    | with_reducible apply State.setEntry_framed
    | split

theorem State.endPendWith_framed {rst : Bool} {F : List Field} {z s : State} {slot : Nat} {st : Status} {result : List Word} (hF : ([.entries, .cmi, .net, .hrpOut] : List Field).all (F.contains ·) = true) (hz : Framed rst F z s) : Framed rst F z (State.endPendWith s slot st result) := by
  unfold State.endPendWith
  try dsimp only
  repeat' first
    | with_reducible assumption
    | (with_reducible apply Or.inr; with_reducible rfl)
    | ((with_reducible apply Or.inl); exact Framed.mem hF rfl)
    | ((with_reducible apply Framed.sub (G := [.entries, .cmi, .net, .hrpOut]) ?_ hF); rfl)
    | with_reducible apply State.setEntry_framed
    | with_reducible apply State.reply_framed
    | split
    | (refine Framed.of_mk ?_ (fun h => h) ?_ ?_ ?_ ?_ ?_ ?_ ?_ ?_ ?_ ?_ ?_ ?_ ?_ ?_ ?_ ?_ ?_ ?_ ?_ ?_ ?_ ?_ ?_ ?_ ?_ ?_ ?_ ?_)

theorem State.endPend_framed {rst : Bool} {F : List Field} {z s : State} {slot : Nat} {st : Status} (hF : ([.entries, .cmi, .net, .hrpOut] : List Field).all (F.contains ·) = true) (hz : Framed rst F z s) : Framed rst F z (State.endPend s slot st) := by
  unfold State.endPend
  try dsimp only
  repeat' first
    | with_reducible assumption
    | (with_reducible apply Or.inr; with_reducible rfl)
    | ((with_reducible apply Or.inl); exact Framed.mem hF rfl)
    | ((with_reducible apply Framed.sub (G := [.entries, .cmi, .net, .hrpOut]) ?_ hF); rfl)
    | with_reducible apply State.endPendWith_framed
    | split

theorem State.freeEntry_framed {rst : Bool} {F : List Field} {z s : State} {slot : Nat} (hF : ([.entries, .edge, .home, .slots, .ledgers, .net] : List Field).all (F.contains ·) = true) (hz : Framed rst F z s) : Framed rst F z (State.freeEntry s slot) := by
  unfold State.freeEntry
  try dsimp only
  repeat' first
    | with_reducible assumption
    | (with_reducible apply Or.inr; with_reducible rfl)
    | ((with_reducible apply Or.inl); exact Framed.mem hF rfl)
    | ((with_reducible apply Framed.sub (G := [.entries, .edge, .home, .slots, .ledgers, .net]) ?_ hF); rfl)
    | with_reducible apply State.setLedger_framed
    | with_reducible apply State.setEntry_framed
    | with_reducible apply State.setSlot_framed
    | with_reducible apply State.setHome_framed
    | with_reducible apply State.setEdge_framed
    | split

theorem State.tell_framed {rst : Bool} {F : List Field} {z s : State} {slot : Nat} {ws : List Word} (hF : ([.slots, .hrpOut] : List Field).all (F.contains ·) = true) (hz : Framed rst F z s) : Framed rst F z (State.tell s slot ws) := by
  unfold State.tell
  try dsimp only
  repeat' first
    | with_reducible assumption
    | (with_reducible apply Or.inr; with_reducible rfl)
    | ((with_reducible apply Or.inl); exact Framed.mem hF rfl)
    | ((with_reducible apply Framed.sub (G := [.slots, .hrpOut]) ?_ hF); rfl)
    | with_reducible apply State.client_framed
    | with_reducible apply State.setSlot_framed
    | split

theorem State.control_framed {rst : Bool} {F : List Field} {z s : State} {slot : Nat} {w : Word} (hF : ([.slots, .fsp, .hrpOut] : List Field).all (F.contains ·) = true) (hz : Framed rst F z s) : Framed rst F z (State.control s slot w) := by
  unfold State.control
  try dsimp only
  repeat' first
    | with_reducible assumption
    | (with_reducible apply Or.inr; with_reducible rfl)
    | ((with_reducible apply Or.inl); exact Framed.mem hF rfl)
    | ((with_reducible apply Framed.sub (G := [.slots, .fsp, .hrpOut]) ?_ hF); rfl)
    | with_reducible apply State.queueControl_framed
    | with_reducible apply State.tell_framed
    | split

theorem State.closeOut_framed {rst : Bool} {F : List Field} {z s : State} {slot : Nat} (hF : ([.entries, .mem, .img, .net] : List Field).all (F.contains ·) = true) (hz : Framed rst F z s) : Framed rst F z (State.closeOut s slot) := by
  unfold State.closeOut
  try dsimp only
  repeat' first
    | with_reducible assumption
    | (with_reducible apply Or.inr; with_reducible rfl)
    | ((with_reducible apply Or.inl); exact Framed.mem hF rfl)
    | ((with_reducible apply Framed.sub (G := [.entries, .mem, .img, .net]) ?_ hF); rfl)
    | with_reducible apply State.putMem_framed
    | with_reducible apply State.setEntry_framed
    | split

theorem State.endStepRing_framed {rst : Bool} {F : List Field} {z s : State} {slot : Nat} (hF : ([.entries, .mem, .img, .net, .fsp] : List Field).all (F.contains ·) = true) (hz : Framed rst F z s) : Framed rst F z (State.endStepRing s slot) := by
  unfold State.endStepRing
  try dsimp only
  repeat' first
    | with_reducible assumption
    | (with_reducible apply Or.inr; with_reducible rfl)
    | ((with_reducible apply Or.inl); exact Framed.mem hF rfl)
    | ((with_reducible apply Framed.sub (G := [.entries, .mem, .img, .net, .fsp]) ?_ hF); rfl)
    | with_reducible apply State.resolveOut_framed
    | with_reducible apply State.readOut_framed
    | with_reducible apply State.closeOut_framed
    | split

theorem State.homeDropDrafts_framed {rst : Bool} {F : List Field} {z s0 : State} {slot : Nat} (hF : ([.entries, .home, .mem, .img, .net, .fsp] : List Field).all (F.contains ·) = true) (hz : Framed rst F z s0) : Framed rst F z (State.homeDropDrafts s0 slot) := by
  unfold State.homeDropDrafts
  try dsimp only
  repeat' first
    | with_reducible assumption
    | (with_reducible apply Or.inr; with_reducible rfl)
    | ((with_reducible apply Or.inl); exact Framed.mem hF rfl)
    | ((with_reducible apply Framed.sub (G := [.entries, .home, .mem, .img, .net, .fsp]) ?_ hF); rfl)
    | with_reducible apply State.endStepRing_framed
    | with_reducible apply State.setHome_framed
    | with_reducible apply State.setEntry_framed
    | split

theorem State.closeStep_framed {rst : Bool} {F : List Field} {z s : State} {slot : Nat} (hF : ([.entries, .edge, .mem, .img, .net, .fsp] : List Field).all (F.contains ·) = true) (hz : Framed rst F z s) : Framed rst F z (State.closeStep s slot) := by
  unfold State.closeStep
  try dsimp only
  repeat' first
    | with_reducible assumption
    | (with_reducible apply Or.inr; with_reducible rfl)
    | ((with_reducible apply Or.inl); exact Framed.mem hF rfl)
    | ((with_reducible apply Framed.sub (G := [.entries, .edge, .mem, .img, .net, .fsp]) ?_ hF); rfl)
    | with_reducible apply State.endStepRing_framed
    | with_reducible apply State.setEntry_framed
    | with_reducible apply State.setEdge_framed
    | split

theorem State.countRejected_framed {rst : Bool} {F : List Field} {z s : State} {slot : Nat} {n : Nat} (hF : ([.entries, .net] : List Field).all (F.contains ·) = true) (hz : Framed rst F z s) : Framed rst F z (State.countRejected s slot n) := by
  unfold State.countRejected
  try dsimp only
  repeat' first
    | with_reducible assumption
    | (with_reducible apply Or.inr; with_reducible rfl)
    | ((with_reducible apply Or.inl); exact Framed.mem hF rfl)
    | ((with_reducible apply Framed.sub (G := [.entries, .net]) ?_ hF); rfl)
    | with_reducible apply State.setEntry_framed
    | split

theorem State.rejectDrafts_framed {rst : Bool} {F : List Field} {z s : State} {slot : Nat} (hF : ([.entries, .edge, .mem, .img, .net, .fsp] : List Field).all (F.contains ·) = true) (hz : Framed rst F z s) : Framed rst F z (State.rejectDrafts s slot) := by
  unfold State.rejectDrafts
  try dsimp only
  repeat' first
    | with_reducible assumption
    | (with_reducible apply Or.inr; with_reducible rfl)
    | ((with_reducible apply Or.inl); exact Framed.mem hF rfl)
    | ((with_reducible apply Framed.sub (G := [.entries, .edge, .mem, .img, .net, .fsp]) ?_ hF); rfl)
    | with_reducible apply State.countRejected_framed
    | with_reducible apply State.closeStep_framed
    | split

theorem State.closeDone_framed {rst : Bool} {F : List Field} {z s0 : State} {slot : Nat} (hF : ([.entries, .edge, .home, .slots, .ledgers, .cmi, .mem, .img, .net, .fsp, .tier, .hrpOut] : List Field).all (F.contains ·) = true) (hz : Framed rst F z s0) : Framed rst F z (State.closeDone s0 slot) := by
  unfold State.closeDone
  try dsimp only
  repeat' first
    | with_reducible assumption
    | (with_reducible apply Or.inr; with_reducible rfl)
    | ((with_reducible apply Or.inl); exact Framed.mem hF rfl)
    | ((with_reducible apply Framed.sub (G := [.entries, .edge, .home, .slots, .ledgers, .cmi, .mem, .img, .net, .fsp, .tier, .hrpOut]) ?_ hF); rfl)
    | with_reducible apply State.dropOps_framed
    | with_reducible apply State.freeEntry_framed
    | with_reducible apply State.answer_framed
    | split
    | (refine Framed.foldl (fun _ _ _ => ?_) ?_)

theorem State.homeStreamEnd_framed {rst : Bool} {F : List Field} {z s : State} {slot : Nat} {length : Nat} {r : Stop} {old : Nat} (hF : ([.entries, .edge, .home, .slots, .ledgers, .cmi, .mem, .img, .net, .fsp, .tier, .hrpOut] : List Field).all (F.contains ·) = true) (hz : Framed rst F z s) : Framed rst F z (State.homeStreamEnd s slot length r old) := by
  unfold State.homeStreamEnd
  try dsimp only
  repeat' first
    | with_reducible assumption
    | (with_reducible apply Or.inr; with_reducible rfl)
    | ((with_reducible apply Or.inl); exact Framed.mem hF rfl)
    | ((with_reducible apply Framed.sub (G := [.entries, .edge, .home, .slots, .ledgers, .cmi, .mem, .img, .net, .fsp, .tier, .hrpOut]) ?_ hF); rfl)
    | with_reducible apply State.breakRec_framed
    | with_reducible apply State.homeDropDrafts_framed
    | with_reducible apply State.setEntry_framed
    | with_reducible apply State.setHome_framed
    | with_reducible apply State.closeDone_framed
    | split

theorem State.endStreamTo_framed {rst : Bool} {F : List Field} {z s : State} {slot : Nat} {r : Stop} {length : Nat} {out : Nat} (hF : ([.entries, .edge, .home, .slots, .ledgers, .parts, .ints, .cmi, .mem, .img, .net, .fsp, .tier, .hrpOut] : List Field).all (F.contains ·) = true) (hz : Framed rst F z s) : Framed rst F z (State.endStreamTo s slot r length out) := by
  unfold State.endStreamTo
  try dsimp only
  repeat' first
    | with_reducible assumption
    | (with_reducible apply Or.inr; with_reducible rfl)
    | ((with_reducible apply Or.inl); exact Framed.mem hF rfl)
    | ((with_reducible apply Framed.sub (G := [.entries, .edge, .home, .slots, .ledgers, .parts, .ints, .cmi, .mem, .img, .net, .fsp, .tier, .hrpOut]) ?_ hF); rfl)
    | with_reducible apply State.rejectDrafts_framed
    | with_reducible apply State.setEntry_framed
    | with_reducible apply State.setEdge_framed
    | with_reducible apply State.control_framed
    | with_reducible apply State.raise_framed
    | with_reducible apply State.homeStreamEnd_framed
    | with_reducible apply State.sendTo_framed
    | with_reducible apply State.freeEntry_framed
    | split

theorem State.endStream_framed {rst : Bool} {F : List Field} {z s : State} {slot : Nat} {r : Stop} {length : Nat} (hF : ([.entries, .edge, .home, .slots, .ledgers, .parts, .ints, .cmi, .mem, .img, .net, .fsp, .tier, .hrpOut] : List Field).all (F.contains ·) = true) (hz : Framed rst F z s) : Framed rst F z (State.endStream s slot r length) := by
  unfold State.endStream
  try dsimp only
  repeat' first
    | with_reducible assumption
    | (with_reducible apply Or.inr; with_reducible rfl)
    | ((with_reducible apply Or.inl); exact Framed.mem hF rfl)
    | ((with_reducible apply Framed.sub (G := [.entries, .edge, .home, .slots, .ledgers, .parts, .ints, .cmi, .mem, .img, .net, .fsp, .tier, .hrpOut]) ?_ hF); rfl)
    | with_reducible apply State.endStreamTo_framed
    | split

theorem State.edgeClose_framed {rst : Bool} {F : List Field} {z s : State} {slot : Nat} {r : Stop} (hF : ([.entries, .edge, .home, .slots, .ledgers, .parts, .ints, .cmi, .mem, .img, .net, .fsp, .tier, .hrpOut] : List Field).all (F.contains ·) = true) (hz : Framed rst F z s) : Framed rst F z (State.edgeClose s slot r) := by
  unfold State.edgeClose
  try dsimp only
  repeat' first
    | with_reducible assumption
    | (with_reducible apply Or.inr; with_reducible rfl)
    | ((with_reducible apply Or.inl); exact Framed.mem hF rfl)
    | ((with_reducible apply Framed.sub (G := [.entries, .edge, .home, .slots, .ledgers, .parts, .ints, .cmi, .mem, .img, .net, .fsp, .tier, .hrpOut]) ?_ hF); rfl)
    | with_reducible apply State.rejectDrafts_framed
    | with_reducible apply State.setEdge_framed
    | with_reducible apply State.endStream_framed
    | with_reducible apply State.closeDone_framed
    | with_reducible apply State.freeEntry_framed
    | split

theorem State.freeCopy_framed {rst : Bool} {F : List Field} {z s : State} {slot : Nat} (hF : ([.entries, .ledgers, .net, .tier] : List Field).all (F.contains ·) = true) (hz : Framed rst F z s) : Framed rst F z (State.freeCopy s slot) := by
  unfold State.freeCopy
  try dsimp only
  repeat' first
    | with_reducible assumption
    | (with_reducible apply Or.inr; with_reducible rfl)
    | ((with_reducible apply Or.inl); exact Framed.mem hF rfl)
    | ((with_reducible apply Framed.sub (G := [.entries, .ledgers, .net, .tier]) ?_ hF); rfl)
    | with_reducible apply State.freeSlice_framed
    | with_reducible apply State.setEntry_framed
    | split

theorem State.startClose_framed {rst : Bool} {F : List Field} {z s : State} {slot : Nat} {r : Stop} (hF : ([.entries, .edge, .home, .slots, .ledgers, .parts, .ints, .cmi, .mem, .img, .net, .fsp, .tier, .hrpOut] : List Field).all (F.contains ·) = true) (hz : Framed rst F z s) : Framed rst F z (State.startClose s slot r) := by
  unfold State.startClose
  try dsimp only
  repeat' first
    | with_reducible assumption
    | (with_reducible apply Or.inr; with_reducible rfl)
    | ((with_reducible apply Or.inl); exact Framed.mem hF rfl)
    | ((with_reducible apply Framed.sub (G := [.entries, .edge, .home, .slots, .ledgers, .parts, .ints, .cmi, .mem, .img, .net, .fsp, .tier, .hrpOut]) ?_ hF); rfl)
    | with_reducible apply State.freeCopy_framed
    | with_reducible apply State.homeDropDrafts_framed
    | with_reducible apply State.bcast_framed
    | with_reducible apply State.setEntry_framed
    | with_reducible apply State.edgeClose_framed
    | with_reducible apply State.closeDone_framed
    | split

theorem State.cancelLocal_framed {rst : Bool} {F : List Field} {z s : State} {slot : Nat} {c : Cancel} (hF : ([.entries, .edge, .home, .slots, .ledgers, .parts, .ints, .cmi, .mem, .img, .net, .fsp, .tier, .hrpOut] : List Field).all (F.contains ·) = true) (hz : Framed rst F z s) : Framed rst F z (State.cancelLocal s slot c) := by
  unfold State.cancelLocal
  try dsimp only
  repeat' first
    | with_reducible assumption
    | (with_reducible apply Or.inr; with_reducible rfl)
    | ((with_reducible apply Or.inl); exact Framed.mem hF rfl)
    | ((with_reducible apply Framed.sub (G := [.entries, .edge, .home, .slots, .ledgers, .parts, .ints, .cmi, .mem, .img, .net, .fsp, .tier, .hrpOut]) ?_ hF); rfl)
    | with_reducible apply State.dropOps_framed
    | with_reducible apply State.endPend_framed
    | with_reducible apply State.answer_framed
    | with_reducible apply State.freeCopy_framed
    | with_reducible apply State.control_framed
    | with_reducible apply State.setEntry_framed
    | with_reducible apply State.setSlot_framed
    | with_reducible apply State.setHome_framed
    | with_reducible apply State.setEdge_framed
    | with_reducible apply State.raise_framed
    | split
    | (refine Framed.foldl (fun _ _ _ => ?_) ?_)

theorem State.cancelAll_framed {rst : Bool} {F : List Field} {z s : State} {slot : Nat} {c : Cancel} (hF : ([.entries, .edge, .home, .slots, .ledgers, .parts, .ints, .cmi, .mem, .img, .net, .fsp, .tier, .hrpOut] : List Field).all (F.contains ·) = true) (hz : Framed rst F z s) : Framed rst F z (State.cancelAll s slot c) := by
  unfold State.cancelAll
  try dsimp only
  repeat' first
    | with_reducible assumption
    | (with_reducible apply Or.inr; with_reducible rfl)
    | ((with_reducible apply Or.inl); exact Framed.mem hF rfl)
    | ((with_reducible apply Framed.sub (G := [.entries, .edge, .home, .slots, .ledgers, .parts, .ints, .cmi, .mem, .img, .net, .fsp, .tier, .hrpOut]) ?_ hF); rfl)
    | with_reducible apply State.cancelLocal_framed
    | with_reducible apply State.bcast_framed
    | with_reducible apply State.sendTo_framed
    | split

end Sys2Proof.Machine
end

