-- ==== Sys2Proof/Laws/FramedReset.lean ====
section
/-! SUPPORT. Resets and job faults: the parts of the state that each operation may change, one lemma for each. -/
namespace Sys2Proof.Machine
set_option Elab.async false

theorem State.pass_framed {rst : Bool} {F : List Field} {z s : State} {n : Nat} {q : Nat} (hF : ([.tm, .clk] : List Field).all (F.contains ·) = true) (hz : Framed rst F z s) : Framed rst F z (State.pass s n q) := by
  unfold State.pass
  try dsimp only
  repeat' first
    | with_reducible assumption
    | (with_reducible apply Or.inr; with_reducible rfl)
    | ((with_reducible apply Or.inl); exact Framed.mem hF rfl)
    | ((with_reducible apply Framed.sub (G := [.tm, .clk]) ?_ hF); rfl)
    | split
    | (refine Framed.of_mk ?_ (fun h => h) ?_ ?_ ?_ ?_ ?_ ?_ ?_ ?_ ?_ ?_ ?_ ?_ ?_ ?_ ?_ ?_ ?_ ?_ ?_ ?_ ?_ ?_ ?_ ?_ ?_ ?_ ?_ ?_)

theorem State.dropOut_framed {rst : Bool} {F : List Field} {z s : State} {r : Reach} (hF : ([.rs] : List Field).all (F.contains ·) = true) (hz : Framed rst F z s) : Framed rst F z (State.dropOut s r) := by
  unfold State.dropOut
  try dsimp only
  repeat' first
    | with_reducible assumption
    | (with_reducible apply Or.inr; with_reducible rfl)
    | ((with_reducible apply Or.inl); exact Framed.mem hF rfl)
    | ((with_reducible apply Framed.sub (G := [.rs]) ?_ hF); rfl)
    | split
    | (refine Framed.of_mk ?_ (fun h => h) ?_ ?_ ?_ ?_ ?_ ?_ ?_ ?_ ?_ ?_ ?_ ?_ ?_ ?_ ?_ ?_ ?_ ?_ ?_ ?_ ?_ ?_ ?_ ?_ ?_ ?_ ?_ ?_)

theorem State.assertReset_resets {s : State} {r : Reach} {src cycles : Nat} : (s.assertReset r src cycles).inReset = true := by
  unfold State.assertReset State.inReset
  dsimp only
  split
  · rfl
  · rename_i h
    split
    · rfl
    · dsimp only; rw [h]; rfl

theorem State.assertReset_framed {F : List Field} {z s : State} {r : Reach} {src cycles : Nat} (_hF : ([] : List Field).all (F.contains ·) = true) (_hz : Framed true F z s) :
    Framed true F z (s.assertReset r src cycles) := .of_reset State.assertReset_resets

theorem State.announceFault_framed {rst : Bool} {F : List Field} {z s : State} {c : Cause} {o : Obj} {part : Option Nat} {detail : Word} (hF : ([.trb, .parts, .ints, .com, .net] : List Field).all (F.contains ·) = true) (hz : Framed rst F z s) : Framed rst F z (State.announceFault s c o part detail) := by
  unfold State.announceFault
  try dsimp only
  repeat' first
    | with_reducible assumption
    | (with_reducible apply Or.inr; with_reducible rfl)
    | ((with_reducible apply Or.inl); exact Framed.mem hF rfl)
    | ((with_reducible apply Framed.sub (G := [.trb, .parts, .ints, .com, .net]) ?_ hF); rfl)
    | with_reducible apply State.bcast_framed
    | with_reducible apply State.faultEntry_framed
    | split
    | (refine Framed.of_mk ?_ (fun h => h) ?_ ?_ ?_ ?_ ?_ ?_ ?_ ?_ ?_ ?_ ?_ ?_ ?_ ?_ ?_ ?_ ?_ ?_ ?_ ?_ ?_ ?_ ?_ ?_ ?_ ?_ ?_ ?_)

theorem State.jobFault_framed {F : List Field} {z s : State} {c : Cause} {o : Obj} {part : Option Nat} {detail : Word}
    (_hF : ([] : List Field).all (F.contains ·) = true) (_hz : Framed true F z s) : Framed true F z (s.jobFault c o part detail) := .of_reset State.assertReset_resets

theorem State.wideReset_framed {F : List Field} {z s : State} {r : Reach} {src cycles : Nat} (_hF : ([] : List Field).all (F.contains ·) = true) (_hz : Framed true F z s) :
    Framed true F z (s.wideReset r src cycles) := .of_reset State.assertReset_resets

theorem State.entryLost_framed {F : List Field} {z s : State} {slot : Nat} (hF : ([.entries, .edge, .home, .slots, .ledgers, .mem, .img, .net, .fsp, .tier] : List Field).all (F.contains ·) = true) (hz : Framed true F z s) : Framed true F z (State.entryLost s slot) := by
  unfold State.entryLost
  try dsimp only
  repeat' first
    | with_reducible assumption
    | (with_reducible apply Or.inr; with_reducible rfl)
    | ((with_reducible apply Or.inl); exact Framed.mem hF rfl)
    | ((with_reducible apply Framed.sub (G := [.entries, .edge, .home, .slots, .ledgers, .mem, .img, .net, .fsp, .tier]) ?_ hF); rfl)
    | with_reducible apply State.freeCopy_framed
    | with_reducible apply State.dropOps_framed
    | with_reducible apply State.setEntry_framed
    | with_reducible apply State.freeEntry_framed
    | with_reducible apply State.jobFault_framed
    | split

theorem State.entryBad_framed {F : List Field} {z s : State} {slot : Nat} {word : Nat} (hF : ([.trb, .entries, .edge, .home, .slots, .ledgers, .parts, .ints, .cmi, .mem, .img, .net, .fsp, .tier, .hrpOut] : List Field).all (F.contains ·) = true) (hz : Framed true F z s) : Framed true F z (State.entryBad s slot word) := by
  unfold State.entryBad
  try dsimp only
  repeat' first
    | with_reducible assumption
    | (with_reducible apply Or.inr; with_reducible rfl)
    | ((with_reducible apply Or.inl); exact Framed.mem hF rfl)
    | ((with_reducible apply Framed.sub (G := [.trb, .entries, .edge, .home, .slots, .ledgers, .parts, .ints, .cmi, .mem, .img, .net, .fsp, .tier, .hrpOut]) ?_ hF); rfl)
    | with_reducible apply State.entryLost_framed
    | with_reducible apply State.cancelAll_framed
    | with_reducible apply State.trouble_framed
    | split

theorem State.entryCheck_framed {F : List Field} {z s : State} {slot : Nat} {f : WordFind} (hF : ([.trb, .entries, .edge, .home, .slots, .ledgers, .parts, .ints, .cmi, .mem, .img, .net, .fsp, .tier, .hrpOut] : List Field).all (F.contains ·) = true) (hz : Framed true F z s) : Framed true F z (State.entryCheck s slot f) := by
  unfold State.entryCheck
  try dsimp only
  repeat' first
    | with_reducible assumption
    | (with_reducible apply Or.inr; with_reducible rfl)
    | ((with_reducible apply Or.inl); exact Framed.mem hF rfl)
    | ((with_reducible apply Framed.sub (G := [.trb, .entries, .edge, .home, .slots, .ledgers, .parts, .ints, .cmi, .mem, .img, .net, .fsp, .tier, .hrpOut]) ?_ hF); rfl)
    | with_reducible apply State.ceSession_framed
    | with_reducible apply State.entryBad_framed
    | split

end Sys2Proof.Machine
end

