-- ==== Sys2Proof/Laws/Frames.lean ====
section
/-! SUPPORT. What the shared operations leave: for each one lemma that says which fields it may change, and the fields it leaves. -/
namespace Sys2Proof.Machine

/-- A fold of steps that change only the ring changes only the ring. -/
theorem net_foldl {α : Type} {f : State → α → State} (h : ∀ t a, ∃ n, f t a = { t with net := n }) :
    ∀ (l : List α) (s : State), ∃ n, l.foldl f s = { s with net := n }
  | [], s => ⟨s.net, rfl⟩
  | a :: l, s => by
    obtain ⟨n, e⟩ := h s a
    obtain ⟨k, e2⟩ := net_foldl h l (f s a)
    exact ⟨k, by rw [List.foldl_cons, e2, e]⟩

/-! `State.raise` -/
theorem raise_shape (s : State) (p v : Nat) :
    ∃ parts' ints', s.raise p v = { s with parts := parts', ints := ints' } := by
  unfold State.raise; dsimp only; repeat' split
  all_goals exact ⟨_, _, rfl⟩
@[simp] theorem State.raise_grade (s : State) (p v : Nat) : (s.raise p v).grade = s.grade := by obtain ⟨_, _, h⟩ := raise_shape s p v; rw [h]
@[simp] theorem State.raise_tm (s : State) (p v : Nat) : (s.raise p v).tm = s.tm := by obtain ⟨_, _, h⟩ := raise_shape s p v; rw [h]
@[simp] theorem State.raise_rs (s : State) (p v : Nat) : (s.raise p v).rs = s.rs := by obtain ⟨_, _, h⟩ := raise_shape s p v; rw [h]
@[simp] theorem State.raise_trb (s : State) (p v : Nat) : (s.raise p v).trb = s.trb := by obtain ⟨_, _, h⟩ := raise_shape s p v; rw [h]
@[simp] theorem State.raise_entries (s : State) (p v : Nat) : (s.raise p v).entries = s.entries := by obtain ⟨_, _, h⟩ := raise_shape s p v; rw [h]
@[simp] theorem State.raise_edge (s : State) (p v : Nat) : (s.raise p v).edge = s.edge := by obtain ⟨_, _, h⟩ := raise_shape s p v; rw [h]
@[simp] theorem State.raise_home (s : State) (p v : Nat) : (s.raise p v).home = s.home := by obtain ⟨_, _, h⟩ := raise_shape s p v; rw [h]
@[simp] theorem State.raise_slots (s : State) (p v : Nat) : (s.raise p v).slots = s.slots := by obtain ⟨_, _, h⟩ := raise_shape s p v; rw [h]
@[simp] theorem State.raise_ledgers (s : State) (p v : Nat) : (s.raise p v).ledgers = s.ledgers := by obtain ⟨_, _, h⟩ := raise_shape s p v; rw [h]
@[simp] theorem State.raise_cmi (s : State) (p v : Nat) : (s.raise p v).cmi = s.cmi := by obtain ⟨_, _, h⟩ := raise_shape s p v; rw [h]
@[simp] theorem State.raise_mem (s : State) (p v : Nat) : (s.raise p v).mem = s.mem := by obtain ⟨_, _, h⟩ := raise_shape s p v; rw [h]
@[simp] theorem State.raise_hdl (s : State) (p v : Nat) : (s.raise p v).hdl = s.hdl := by obtain ⟨_, _, h⟩ := raise_shape s p v; rw [h]
@[simp] theorem State.raise_img (s : State) (p v : Nat) : (s.raise p v).img = s.img := by obtain ⟨_, _, h⟩ := raise_shape s p v; rw [h]
@[simp] theorem State.raise_com (s : State) (p v : Nat) : (s.raise p v).com = s.com := by obtain ⟨_, _, h⟩ := raise_shape s p v; rw [h]
@[simp] theorem State.raise_bal (s : State) (p v : Nat) : (s.raise p v).bal = s.bal := by obtain ⟨_, _, h⟩ := raise_shape s p v; rw [h]
@[simp] theorem State.raise_net (s : State) (p v : Nat) : (s.raise p v).net = s.net := by obtain ⟨_, _, h⟩ := raise_shape s p v; rw [h]
@[simp] theorem State.raise_fsp (s : State) (p v : Nat) : (s.raise p v).fsp = s.fsp := by obtain ⟨_, _, h⟩ := raise_shape s p v; rw [h]
@[simp] theorem State.raise_tier (s : State) (p v : Nat) : (s.raise p v).tier = s.tier := by obtain ⟨_, _, h⟩ := raise_shape s p v; rw [h]
@[simp] theorem State.raise_clk (s : State) (p v : Nat) : (s.raise p v).clk = s.clk := by obtain ⟨_, _, h⟩ := raise_shape s p v; rw [h]
@[simp] theorem State.raise_role (s : State) (p v : Nat) : (s.raise p v).role = s.role := by obtain ⟨_, _, h⟩ := raise_shape s p v; rw [h]
@[simp] theorem State.raise_roleShadow (s : State) (p v : Nat) : (s.raise p v).roleShadow = s.roleShadow := by obtain ⟨_, _, h⟩ := raise_shape s p v; rw [h]
@[simp] theorem State.raise_denied (s : State) (p v : Nat) : (s.raise p v).denied = s.denied := by obtain ⟨_, _, h⟩ := raise_shape s p v; rw [h]
@[simp] theorem State.raise_misformed (s : State) (p v : Nat) : (s.raise p v).misformed = s.misformed := by obtain ⟨_, _, h⟩ := raise_shape s p v; rw [h]
@[simp] theorem State.raise_blocked (s : State) (p v : Nat) : (s.raise p v).blocked = s.blocked := by obtain ⟨_, _, h⟩ := raise_shape s p v; rw [h]
@[simp] theorem State.raise_hrpOut (s : State) (p v : Nat) : (s.raise p v).hrpOut = s.hrpOut := by obtain ⟨_, _, h⟩ := raise_shape s p v; rw [h]
@[simp] theorem State.raise_fspOut (s : State) (p v : Nat) : (s.raise p v).fspOut = s.fspOut := by obtain ⟨_, _, h⟩ := raise_shape s p v; rw [h]
@[simp] theorem State.raise_tap (s : State) (p v : Nat) : (s.raise p v).tap = s.tap := by obtain ⟨_, _, h⟩ := raise_shape s p v; rw [h]
@[simp] theorem State.raise_pending (s : State) (p v : Nat) : (s.raise p v).pending = s.pending := by obtain ⟨_, _, h⟩ := raise_shape s p v; rw [h]
@[simp] theorem State.raise_entry (s : State) (p v : Nat) (k : Nat) : (s.raise p v).entry k = s.entry k := by simp [State.entry]
@[simp] theorem State.raise_edgeAt (s : State) (p v : Nat) (k : Nat) : (s.raise p v).edgeAt k = s.edgeAt k := by simp [State.edgeAt]
@[simp] theorem State.raise_homeAt (s : State) (p v : Nat) (k : Nat) : (s.raise p v).homeAt k = s.homeAt k := by simp [State.homeAt]
@[simp] theorem State.raise_slotAt (s : State) (p v : Nat) (k : Nat) : (s.raise p v).slotAt k = s.slotAt k := by simp [State.slotAt]
@[simp] theorem State.raise_ledger (s : State) (p v : Nat) (k : Nat) : (s.raise p v).ledger k = s.ledger k := by simp [State.ledger]
/-! `State.queueOn` -/
theorem queueOn_shape (s : State) (l c : Nat) (it : Item) :
    ∃ net', s.queueOn l c it = { s with net := net' } := by
  unfold State.queueOn; split <;> exact ⟨_, rfl⟩
@[simp] theorem State.queueOn_grade (s : State) (l c : Nat) (it : Item) : (s.queueOn l c it).grade = s.grade := by obtain ⟨_, h⟩ := queueOn_shape s l c it; rw [h]
@[simp] theorem State.queueOn_tm (s : State) (l c : Nat) (it : Item) : (s.queueOn l c it).tm = s.tm := by obtain ⟨_, h⟩ := queueOn_shape s l c it; rw [h]
@[simp] theorem State.queueOn_rs (s : State) (l c : Nat) (it : Item) : (s.queueOn l c it).rs = s.rs := by obtain ⟨_, h⟩ := queueOn_shape s l c it; rw [h]
@[simp] theorem State.queueOn_trb (s : State) (l c : Nat) (it : Item) : (s.queueOn l c it).trb = s.trb := by obtain ⟨_, h⟩ := queueOn_shape s l c it; rw [h]
@[simp] theorem State.queueOn_entries (s : State) (l c : Nat) (it : Item) : (s.queueOn l c it).entries = s.entries := by obtain ⟨_, h⟩ := queueOn_shape s l c it; rw [h]
@[simp] theorem State.queueOn_edge (s : State) (l c : Nat) (it : Item) : (s.queueOn l c it).edge = s.edge := by obtain ⟨_, h⟩ := queueOn_shape s l c it; rw [h]
@[simp] theorem State.queueOn_home (s : State) (l c : Nat) (it : Item) : (s.queueOn l c it).home = s.home := by obtain ⟨_, h⟩ := queueOn_shape s l c it; rw [h]
@[simp] theorem State.queueOn_slots (s : State) (l c : Nat) (it : Item) : (s.queueOn l c it).slots = s.slots := by obtain ⟨_, h⟩ := queueOn_shape s l c it; rw [h]
@[simp] theorem State.queueOn_ledgers (s : State) (l c : Nat) (it : Item) : (s.queueOn l c it).ledgers = s.ledgers := by obtain ⟨_, h⟩ := queueOn_shape s l c it; rw [h]
@[simp] theorem State.queueOn_parts (s : State) (l c : Nat) (it : Item) : (s.queueOn l c it).parts = s.parts := by obtain ⟨_, h⟩ := queueOn_shape s l c it; rw [h]
@[simp] theorem State.queueOn_ints (s : State) (l c : Nat) (it : Item) : (s.queueOn l c it).ints = s.ints := by obtain ⟨_, h⟩ := queueOn_shape s l c it; rw [h]
@[simp] theorem State.queueOn_cmi (s : State) (l c : Nat) (it : Item) : (s.queueOn l c it).cmi = s.cmi := by obtain ⟨_, h⟩ := queueOn_shape s l c it; rw [h]
@[simp] theorem State.queueOn_mem (s : State) (l c : Nat) (it : Item) : (s.queueOn l c it).mem = s.mem := by obtain ⟨_, h⟩ := queueOn_shape s l c it; rw [h]
@[simp] theorem State.queueOn_hdl (s : State) (l c : Nat) (it : Item) : (s.queueOn l c it).hdl = s.hdl := by obtain ⟨_, h⟩ := queueOn_shape s l c it; rw [h]
@[simp] theorem State.queueOn_img (s : State) (l c : Nat) (it : Item) : (s.queueOn l c it).img = s.img := by obtain ⟨_, h⟩ := queueOn_shape s l c it; rw [h]
@[simp] theorem State.queueOn_com (s : State) (l c : Nat) (it : Item) : (s.queueOn l c it).com = s.com := by obtain ⟨_, h⟩ := queueOn_shape s l c it; rw [h]
@[simp] theorem State.queueOn_bal (s : State) (l c : Nat) (it : Item) : (s.queueOn l c it).bal = s.bal := by obtain ⟨_, h⟩ := queueOn_shape s l c it; rw [h]
@[simp] theorem State.queueOn_fsp (s : State) (l c : Nat) (it : Item) : (s.queueOn l c it).fsp = s.fsp := by obtain ⟨_, h⟩ := queueOn_shape s l c it; rw [h]
@[simp] theorem State.queueOn_tier (s : State) (l c : Nat) (it : Item) : (s.queueOn l c it).tier = s.tier := by obtain ⟨_, h⟩ := queueOn_shape s l c it; rw [h]
@[simp] theorem State.queueOn_clk (s : State) (l c : Nat) (it : Item) : (s.queueOn l c it).clk = s.clk := by obtain ⟨_, h⟩ := queueOn_shape s l c it; rw [h]
@[simp] theorem State.queueOn_role (s : State) (l c : Nat) (it : Item) : (s.queueOn l c it).role = s.role := by obtain ⟨_, h⟩ := queueOn_shape s l c it; rw [h]
@[simp] theorem State.queueOn_roleShadow (s : State) (l c : Nat) (it : Item) : (s.queueOn l c it).roleShadow = s.roleShadow := by obtain ⟨_, h⟩ := queueOn_shape s l c it; rw [h]
@[simp] theorem State.queueOn_denied (s : State) (l c : Nat) (it : Item) : (s.queueOn l c it).denied = s.denied := by obtain ⟨_, h⟩ := queueOn_shape s l c it; rw [h]
@[simp] theorem State.queueOn_misformed (s : State) (l c : Nat) (it : Item) : (s.queueOn l c it).misformed = s.misformed := by obtain ⟨_, h⟩ := queueOn_shape s l c it; rw [h]
@[simp] theorem State.queueOn_blocked (s : State) (l c : Nat) (it : Item) : (s.queueOn l c it).blocked = s.blocked := by obtain ⟨_, h⟩ := queueOn_shape s l c it; rw [h]
@[simp] theorem State.queueOn_hrpOut (s : State) (l c : Nat) (it : Item) : (s.queueOn l c it).hrpOut = s.hrpOut := by obtain ⟨_, h⟩ := queueOn_shape s l c it; rw [h]
@[simp] theorem State.queueOn_fspOut (s : State) (l c : Nat) (it : Item) : (s.queueOn l c it).fspOut = s.fspOut := by obtain ⟨_, h⟩ := queueOn_shape s l c it; rw [h]
@[simp] theorem State.queueOn_tap (s : State) (l c : Nat) (it : Item) : (s.queueOn l c it).tap = s.tap := by obtain ⟨_, h⟩ := queueOn_shape s l c it; rw [h]
@[simp] theorem State.queueOn_pending (s : State) (l c : Nat) (it : Item) : (s.queueOn l c it).pending = s.pending := by obtain ⟨_, h⟩ := queueOn_shape s l c it; rw [h]
@[simp] theorem State.queueOn_entry (s : State) (l c : Nat) (it : Item) (k : Nat) : (s.queueOn l c it).entry k = s.entry k := by simp [State.entry]
@[simp] theorem State.queueOn_edgeAt (s : State) (l c : Nat) (it : Item) (k : Nat) : (s.queueOn l c it).edgeAt k = s.edgeAt k := by simp [State.edgeAt]
@[simp] theorem State.queueOn_homeAt (s : State) (l c : Nat) (it : Item) (k : Nat) : (s.queueOn l c it).homeAt k = s.homeAt k := by simp [State.homeAt]
@[simp] theorem State.queueOn_slotAt (s : State) (l c : Nat) (it : Item) (k : Nat) : (s.queueOn l c it).slotAt k = s.slotAt k := by simp [State.slotAt]
@[simp] theorem State.queueOn_ledger (s : State) (l c : Nat) (it : Item) (k : Nat) : (s.queueOn l c it).ledger k = s.ledger k := by simp [State.ledger]
@[simp] theorem State.queueOn_part (s : State) (l c : Nat) (it : Item) (k : Nat) : (s.queueOn l c it).part k = s.part k := by simp [State.part]
/-! `State.sendTo` -/
theorem sendTo_shape (s : State) (t d c : Nat) (ws : List Word) :
    ∃ net', s.sendTo t d c ws = { s with net := net' } := by
  unfold State.sendTo; repeat' split
  · exact queueOn_shape ..
  all_goals exact ⟨_, rfl⟩
@[simp] theorem State.sendTo_grade (s : State) (t d c : Nat) (ws : List Word) : (s.sendTo t d c ws).grade = s.grade := by obtain ⟨_, h⟩ := sendTo_shape s t d c ws; rw [h]
@[simp] theorem State.sendTo_tm (s : State) (t d c : Nat) (ws : List Word) : (s.sendTo t d c ws).tm = s.tm := by obtain ⟨_, h⟩ := sendTo_shape s t d c ws; rw [h]
@[simp] theorem State.sendTo_rs (s : State) (t d c : Nat) (ws : List Word) : (s.sendTo t d c ws).rs = s.rs := by obtain ⟨_, h⟩ := sendTo_shape s t d c ws; rw [h]
@[simp] theorem State.sendTo_trb (s : State) (t d c : Nat) (ws : List Word) : (s.sendTo t d c ws).trb = s.trb := by obtain ⟨_, h⟩ := sendTo_shape s t d c ws; rw [h]
@[simp] theorem State.sendTo_entries (s : State) (t d c : Nat) (ws : List Word) : (s.sendTo t d c ws).entries = s.entries := by obtain ⟨_, h⟩ := sendTo_shape s t d c ws; rw [h]
@[simp] theorem State.sendTo_edge (s : State) (t d c : Nat) (ws : List Word) : (s.sendTo t d c ws).edge = s.edge := by obtain ⟨_, h⟩ := sendTo_shape s t d c ws; rw [h]
@[simp] theorem State.sendTo_home (s : State) (t d c : Nat) (ws : List Word) : (s.sendTo t d c ws).home = s.home := by obtain ⟨_, h⟩ := sendTo_shape s t d c ws; rw [h]
@[simp] theorem State.sendTo_slots (s : State) (t d c : Nat) (ws : List Word) : (s.sendTo t d c ws).slots = s.slots := by obtain ⟨_, h⟩ := sendTo_shape s t d c ws; rw [h]
@[simp] theorem State.sendTo_ledgers (s : State) (t d c : Nat) (ws : List Word) : (s.sendTo t d c ws).ledgers = s.ledgers := by obtain ⟨_, h⟩ := sendTo_shape s t d c ws; rw [h]
@[simp] theorem State.sendTo_parts (s : State) (t d c : Nat) (ws : List Word) : (s.sendTo t d c ws).parts = s.parts := by obtain ⟨_, h⟩ := sendTo_shape s t d c ws; rw [h]
@[simp] theorem State.sendTo_ints (s : State) (t d c : Nat) (ws : List Word) : (s.sendTo t d c ws).ints = s.ints := by obtain ⟨_, h⟩ := sendTo_shape s t d c ws; rw [h]
@[simp] theorem State.sendTo_cmi (s : State) (t d c : Nat) (ws : List Word) : (s.sendTo t d c ws).cmi = s.cmi := by obtain ⟨_, h⟩ := sendTo_shape s t d c ws; rw [h]
@[simp] theorem State.sendTo_mem (s : State) (t d c : Nat) (ws : List Word) : (s.sendTo t d c ws).mem = s.mem := by obtain ⟨_, h⟩ := sendTo_shape s t d c ws; rw [h]
@[simp] theorem State.sendTo_hdl (s : State) (t d c : Nat) (ws : List Word) : (s.sendTo t d c ws).hdl = s.hdl := by obtain ⟨_, h⟩ := sendTo_shape s t d c ws; rw [h]
@[simp] theorem State.sendTo_img (s : State) (t d c : Nat) (ws : List Word) : (s.sendTo t d c ws).img = s.img := by obtain ⟨_, h⟩ := sendTo_shape s t d c ws; rw [h]
@[simp] theorem State.sendTo_com (s : State) (t d c : Nat) (ws : List Word) : (s.sendTo t d c ws).com = s.com := by obtain ⟨_, h⟩ := sendTo_shape s t d c ws; rw [h]
@[simp] theorem State.sendTo_bal (s : State) (t d c : Nat) (ws : List Word) : (s.sendTo t d c ws).bal = s.bal := by obtain ⟨_, h⟩ := sendTo_shape s t d c ws; rw [h]
@[simp] theorem State.sendTo_fsp (s : State) (t d c : Nat) (ws : List Word) : (s.sendTo t d c ws).fsp = s.fsp := by obtain ⟨_, h⟩ := sendTo_shape s t d c ws; rw [h]
@[simp] theorem State.sendTo_tier (s : State) (t d c : Nat) (ws : List Word) : (s.sendTo t d c ws).tier = s.tier := by obtain ⟨_, h⟩ := sendTo_shape s t d c ws; rw [h]
@[simp] theorem State.sendTo_clk (s : State) (t d c : Nat) (ws : List Word) : (s.sendTo t d c ws).clk = s.clk := by obtain ⟨_, h⟩ := sendTo_shape s t d c ws; rw [h]
@[simp] theorem State.sendTo_role (s : State) (t d c : Nat) (ws : List Word) : (s.sendTo t d c ws).role = s.role := by obtain ⟨_, h⟩ := sendTo_shape s t d c ws; rw [h]
@[simp] theorem State.sendTo_roleShadow (s : State) (t d c : Nat) (ws : List Word) : (s.sendTo t d c ws).roleShadow = s.roleShadow := by obtain ⟨_, h⟩ := sendTo_shape s t d c ws; rw [h]
@[simp] theorem State.sendTo_denied (s : State) (t d c : Nat) (ws : List Word) : (s.sendTo t d c ws).denied = s.denied := by obtain ⟨_, h⟩ := sendTo_shape s t d c ws; rw [h]
@[simp] theorem State.sendTo_misformed (s : State) (t d c : Nat) (ws : List Word) : (s.sendTo t d c ws).misformed = s.misformed := by obtain ⟨_, h⟩ := sendTo_shape s t d c ws; rw [h]
@[simp] theorem State.sendTo_blocked (s : State) (t d c : Nat) (ws : List Word) : (s.sendTo t d c ws).blocked = s.blocked := by obtain ⟨_, h⟩ := sendTo_shape s t d c ws; rw [h]
@[simp] theorem State.sendTo_hrpOut (s : State) (t d c : Nat) (ws : List Word) : (s.sendTo t d c ws).hrpOut = s.hrpOut := by obtain ⟨_, h⟩ := sendTo_shape s t d c ws; rw [h]
@[simp] theorem State.sendTo_fspOut (s : State) (t d c : Nat) (ws : List Word) : (s.sendTo t d c ws).fspOut = s.fspOut := by obtain ⟨_, h⟩ := sendTo_shape s t d c ws; rw [h]
@[simp] theorem State.sendTo_tap (s : State) (t d c : Nat) (ws : List Word) : (s.sendTo t d c ws).tap = s.tap := by obtain ⟨_, h⟩ := sendTo_shape s t d c ws; rw [h]
@[simp] theorem State.sendTo_pending (s : State) (t d c : Nat) (ws : List Word) : (s.sendTo t d c ws).pending = s.pending := by obtain ⟨_, h⟩ := sendTo_shape s t d c ws; rw [h]
@[simp] theorem State.sendTo_entry (s : State) (t d c : Nat) (ws : List Word) (k : Nat) : (s.sendTo t d c ws).entry k = s.entry k := by simp [State.entry]
@[simp] theorem State.sendTo_edgeAt (s : State) (t d c : Nat) (ws : List Word) (k : Nat) : (s.sendTo t d c ws).edgeAt k = s.edgeAt k := by simp [State.edgeAt]
@[simp] theorem State.sendTo_homeAt (s : State) (t d c : Nat) (ws : List Word) (k : Nat) : (s.sendTo t d c ws).homeAt k = s.homeAt k := by simp [State.homeAt]
@[simp] theorem State.sendTo_slotAt (s : State) (t d c : Nat) (ws : List Word) (k : Nat) : (s.sendTo t d c ws).slotAt k = s.slotAt k := by simp [State.slotAt]
@[simp] theorem State.sendTo_ledger (s : State) (t d c : Nat) (ws : List Word) (k : Nat) : (s.sendTo t d c ws).ledger k = s.ledger k := by simp [State.ledger]
@[simp] theorem State.sendTo_part (s : State) (t d c : Nat) (ws : List Word) (k : Nat) : (s.sendTo t d c ws).part k = s.part k := by simp [State.part]
/-! `State.bcast` -/
theorem bcast_shape (s : State) (t c : Nat) (ws : List Word) :
    ∃ net', s.bcast t c ws = { s with net := net' } := by
  unfold State.bcast; split
  · exact net_foldl (fun t _ => queueOn_shape t ..) _ s
  · exact ⟨_, rfl⟩
@[simp] theorem State.bcast_grade (s : State) (t c : Nat) (ws : List Word) : (s.bcast t c ws).grade = s.grade := by obtain ⟨_, h⟩ := bcast_shape s t c ws; rw [h]
@[simp] theorem State.bcast_tm (s : State) (t c : Nat) (ws : List Word) : (s.bcast t c ws).tm = s.tm := by obtain ⟨_, h⟩ := bcast_shape s t c ws; rw [h]
@[simp] theorem State.bcast_rs (s : State) (t c : Nat) (ws : List Word) : (s.bcast t c ws).rs = s.rs := by obtain ⟨_, h⟩ := bcast_shape s t c ws; rw [h]
@[simp] theorem State.bcast_trb (s : State) (t c : Nat) (ws : List Word) : (s.bcast t c ws).trb = s.trb := by obtain ⟨_, h⟩ := bcast_shape s t c ws; rw [h]
@[simp] theorem State.bcast_entries (s : State) (t c : Nat) (ws : List Word) : (s.bcast t c ws).entries = s.entries := by obtain ⟨_, h⟩ := bcast_shape s t c ws; rw [h]
@[simp] theorem State.bcast_edge (s : State) (t c : Nat) (ws : List Word) : (s.bcast t c ws).edge = s.edge := by obtain ⟨_, h⟩ := bcast_shape s t c ws; rw [h]
@[simp] theorem State.bcast_home (s : State) (t c : Nat) (ws : List Word) : (s.bcast t c ws).home = s.home := by obtain ⟨_, h⟩ := bcast_shape s t c ws; rw [h]
@[simp] theorem State.bcast_slots (s : State) (t c : Nat) (ws : List Word) : (s.bcast t c ws).slots = s.slots := by obtain ⟨_, h⟩ := bcast_shape s t c ws; rw [h]
@[simp] theorem State.bcast_ledgers (s : State) (t c : Nat) (ws : List Word) : (s.bcast t c ws).ledgers = s.ledgers := by obtain ⟨_, h⟩ := bcast_shape s t c ws; rw [h]
@[simp] theorem State.bcast_parts (s : State) (t c : Nat) (ws : List Word) : (s.bcast t c ws).parts = s.parts := by obtain ⟨_, h⟩ := bcast_shape s t c ws; rw [h]
@[simp] theorem State.bcast_ints (s : State) (t c : Nat) (ws : List Word) : (s.bcast t c ws).ints = s.ints := by obtain ⟨_, h⟩ := bcast_shape s t c ws; rw [h]
@[simp] theorem State.bcast_cmi (s : State) (t c : Nat) (ws : List Word) : (s.bcast t c ws).cmi = s.cmi := by obtain ⟨_, h⟩ := bcast_shape s t c ws; rw [h]
@[simp] theorem State.bcast_mem (s : State) (t c : Nat) (ws : List Word) : (s.bcast t c ws).mem = s.mem := by obtain ⟨_, h⟩ := bcast_shape s t c ws; rw [h]
@[simp] theorem State.bcast_hdl (s : State) (t c : Nat) (ws : List Word) : (s.bcast t c ws).hdl = s.hdl := by obtain ⟨_, h⟩ := bcast_shape s t c ws; rw [h]
@[simp] theorem State.bcast_img (s : State) (t c : Nat) (ws : List Word) : (s.bcast t c ws).img = s.img := by obtain ⟨_, h⟩ := bcast_shape s t c ws; rw [h]
@[simp] theorem State.bcast_com (s : State) (t c : Nat) (ws : List Word) : (s.bcast t c ws).com = s.com := by obtain ⟨_, h⟩ := bcast_shape s t c ws; rw [h]
@[simp] theorem State.bcast_bal (s : State) (t c : Nat) (ws : List Word) : (s.bcast t c ws).bal = s.bal := by obtain ⟨_, h⟩ := bcast_shape s t c ws; rw [h]
@[simp] theorem State.bcast_fsp (s : State) (t c : Nat) (ws : List Word) : (s.bcast t c ws).fsp = s.fsp := by obtain ⟨_, h⟩ := bcast_shape s t c ws; rw [h]
@[simp] theorem State.bcast_tier (s : State) (t c : Nat) (ws : List Word) : (s.bcast t c ws).tier = s.tier := by obtain ⟨_, h⟩ := bcast_shape s t c ws; rw [h]
@[simp] theorem State.bcast_clk (s : State) (t c : Nat) (ws : List Word) : (s.bcast t c ws).clk = s.clk := by obtain ⟨_, h⟩ := bcast_shape s t c ws; rw [h]
@[simp] theorem State.bcast_role (s : State) (t c : Nat) (ws : List Word) : (s.bcast t c ws).role = s.role := by obtain ⟨_, h⟩ := bcast_shape s t c ws; rw [h]
@[simp] theorem State.bcast_roleShadow (s : State) (t c : Nat) (ws : List Word) : (s.bcast t c ws).roleShadow = s.roleShadow := by obtain ⟨_, h⟩ := bcast_shape s t c ws; rw [h]
@[simp] theorem State.bcast_denied (s : State) (t c : Nat) (ws : List Word) : (s.bcast t c ws).denied = s.denied := by obtain ⟨_, h⟩ := bcast_shape s t c ws; rw [h]
@[simp] theorem State.bcast_misformed (s : State) (t c : Nat) (ws : List Word) : (s.bcast t c ws).misformed = s.misformed := by obtain ⟨_, h⟩ := bcast_shape s t c ws; rw [h]
@[simp] theorem State.bcast_blocked (s : State) (t c : Nat) (ws : List Word) : (s.bcast t c ws).blocked = s.blocked := by obtain ⟨_, h⟩ := bcast_shape s t c ws; rw [h]
@[simp] theorem State.bcast_hrpOut (s : State) (t c : Nat) (ws : List Word) : (s.bcast t c ws).hrpOut = s.hrpOut := by obtain ⟨_, h⟩ := bcast_shape s t c ws; rw [h]
@[simp] theorem State.bcast_fspOut (s : State) (t c : Nat) (ws : List Word) : (s.bcast t c ws).fspOut = s.fspOut := by obtain ⟨_, h⟩ := bcast_shape s t c ws; rw [h]
@[simp] theorem State.bcast_tap (s : State) (t c : Nat) (ws : List Word) : (s.bcast t c ws).tap = s.tap := by obtain ⟨_, h⟩ := bcast_shape s t c ws; rw [h]
@[simp] theorem State.bcast_pending (s : State) (t c : Nat) (ws : List Word) : (s.bcast t c ws).pending = s.pending := by obtain ⟨_, h⟩ := bcast_shape s t c ws; rw [h]
@[simp] theorem State.bcast_entry (s : State) (t c : Nat) (ws : List Word) (k : Nat) : (s.bcast t c ws).entry k = s.entry k := by simp [State.entry]
@[simp] theorem State.bcast_edgeAt (s : State) (t c : Nat) (ws : List Word) (k : Nat) : (s.bcast t c ws).edgeAt k = s.edgeAt k := by simp [State.edgeAt]
@[simp] theorem State.bcast_homeAt (s : State) (t c : Nat) (ws : List Word) (k : Nat) : (s.bcast t c ws).homeAt k = s.homeAt k := by simp [State.homeAt]
@[simp] theorem State.bcast_slotAt (s : State) (t c : Nat) (ws : List Word) (k : Nat) : (s.bcast t c ws).slotAt k = s.slotAt k := by simp [State.slotAt]
@[simp] theorem State.bcast_ledger (s : State) (t c : Nat) (ws : List Word) (k : Nat) : (s.bcast t c ws).ledger k = s.ledger k := by simp [State.ledger]
@[simp] theorem State.bcast_part (s : State) (t c : Nat) (ws : List Word) (k : Nat) : (s.bcast t c ws).part k = s.part k := by simp [State.part]
/-! `State.sendWords` -/
theorem sendWords_shape (s : State) (t d c : Nat) (ws : List Word) :
    ∃ net', s.sendWords t d c ws = { s with net := net' } := by
  unfold State.sendWords; repeat' split
  · exact net_foldl (fun t _ => queueOn_shape t ..) _ s
  all_goals exact ⟨_, rfl⟩
@[simp] theorem State.sendWords_grade (s : State) (t d c : Nat) (ws : List Word) : (s.sendWords t d c ws).grade = s.grade := by obtain ⟨_, h⟩ := sendWords_shape s t d c ws; rw [h]
@[simp] theorem State.sendWords_tm (s : State) (t d c : Nat) (ws : List Word) : (s.sendWords t d c ws).tm = s.tm := by obtain ⟨_, h⟩ := sendWords_shape s t d c ws; rw [h]
@[simp] theorem State.sendWords_rs (s : State) (t d c : Nat) (ws : List Word) : (s.sendWords t d c ws).rs = s.rs := by obtain ⟨_, h⟩ := sendWords_shape s t d c ws; rw [h]
@[simp] theorem State.sendWords_trb (s : State) (t d c : Nat) (ws : List Word) : (s.sendWords t d c ws).trb = s.trb := by obtain ⟨_, h⟩ := sendWords_shape s t d c ws; rw [h]
@[simp] theorem State.sendWords_entries (s : State) (t d c : Nat) (ws : List Word) : (s.sendWords t d c ws).entries = s.entries := by obtain ⟨_, h⟩ := sendWords_shape s t d c ws; rw [h]
@[simp] theorem State.sendWords_edge (s : State) (t d c : Nat) (ws : List Word) : (s.sendWords t d c ws).edge = s.edge := by obtain ⟨_, h⟩ := sendWords_shape s t d c ws; rw [h]
@[simp] theorem State.sendWords_home (s : State) (t d c : Nat) (ws : List Word) : (s.sendWords t d c ws).home = s.home := by obtain ⟨_, h⟩ := sendWords_shape s t d c ws; rw [h]
@[simp] theorem State.sendWords_slots (s : State) (t d c : Nat) (ws : List Word) : (s.sendWords t d c ws).slots = s.slots := by obtain ⟨_, h⟩ := sendWords_shape s t d c ws; rw [h]
@[simp] theorem State.sendWords_ledgers (s : State) (t d c : Nat) (ws : List Word) : (s.sendWords t d c ws).ledgers = s.ledgers := by obtain ⟨_, h⟩ := sendWords_shape s t d c ws; rw [h]
@[simp] theorem State.sendWords_parts (s : State) (t d c : Nat) (ws : List Word) : (s.sendWords t d c ws).parts = s.parts := by obtain ⟨_, h⟩ := sendWords_shape s t d c ws; rw [h]
@[simp] theorem State.sendWords_ints (s : State) (t d c : Nat) (ws : List Word) : (s.sendWords t d c ws).ints = s.ints := by obtain ⟨_, h⟩ := sendWords_shape s t d c ws; rw [h]
@[simp] theorem State.sendWords_cmi (s : State) (t d c : Nat) (ws : List Word) : (s.sendWords t d c ws).cmi = s.cmi := by obtain ⟨_, h⟩ := sendWords_shape s t d c ws; rw [h]
@[simp] theorem State.sendWords_mem (s : State) (t d c : Nat) (ws : List Word) : (s.sendWords t d c ws).mem = s.mem := by obtain ⟨_, h⟩ := sendWords_shape s t d c ws; rw [h]
@[simp] theorem State.sendWords_hdl (s : State) (t d c : Nat) (ws : List Word) : (s.sendWords t d c ws).hdl = s.hdl := by obtain ⟨_, h⟩ := sendWords_shape s t d c ws; rw [h]
@[simp] theorem State.sendWords_img (s : State) (t d c : Nat) (ws : List Word) : (s.sendWords t d c ws).img = s.img := by obtain ⟨_, h⟩ := sendWords_shape s t d c ws; rw [h]
@[simp] theorem State.sendWords_com (s : State) (t d c : Nat) (ws : List Word) : (s.sendWords t d c ws).com = s.com := by obtain ⟨_, h⟩ := sendWords_shape s t d c ws; rw [h]
@[simp] theorem State.sendWords_bal (s : State) (t d c : Nat) (ws : List Word) : (s.sendWords t d c ws).bal = s.bal := by obtain ⟨_, h⟩ := sendWords_shape s t d c ws; rw [h]
@[simp] theorem State.sendWords_fsp (s : State) (t d c : Nat) (ws : List Word) : (s.sendWords t d c ws).fsp = s.fsp := by obtain ⟨_, h⟩ := sendWords_shape s t d c ws; rw [h]
@[simp] theorem State.sendWords_tier (s : State) (t d c : Nat) (ws : List Word) : (s.sendWords t d c ws).tier = s.tier := by obtain ⟨_, h⟩ := sendWords_shape s t d c ws; rw [h]
@[simp] theorem State.sendWords_clk (s : State) (t d c : Nat) (ws : List Word) : (s.sendWords t d c ws).clk = s.clk := by obtain ⟨_, h⟩ := sendWords_shape s t d c ws; rw [h]
@[simp] theorem State.sendWords_role (s : State) (t d c : Nat) (ws : List Word) : (s.sendWords t d c ws).role = s.role := by obtain ⟨_, h⟩ := sendWords_shape s t d c ws; rw [h]
@[simp] theorem State.sendWords_roleShadow (s : State) (t d c : Nat) (ws : List Word) : (s.sendWords t d c ws).roleShadow = s.roleShadow := by obtain ⟨_, h⟩ := sendWords_shape s t d c ws; rw [h]
@[simp] theorem State.sendWords_denied (s : State) (t d c : Nat) (ws : List Word) : (s.sendWords t d c ws).denied = s.denied := by obtain ⟨_, h⟩ := sendWords_shape s t d c ws; rw [h]
@[simp] theorem State.sendWords_misformed (s : State) (t d c : Nat) (ws : List Word) : (s.sendWords t d c ws).misformed = s.misformed := by obtain ⟨_, h⟩ := sendWords_shape s t d c ws; rw [h]
@[simp] theorem State.sendWords_blocked (s : State) (t d c : Nat) (ws : List Word) : (s.sendWords t d c ws).blocked = s.blocked := by obtain ⟨_, h⟩ := sendWords_shape s t d c ws; rw [h]
@[simp] theorem State.sendWords_hrpOut (s : State) (t d c : Nat) (ws : List Word) : (s.sendWords t d c ws).hrpOut = s.hrpOut := by obtain ⟨_, h⟩ := sendWords_shape s t d c ws; rw [h]
@[simp] theorem State.sendWords_fspOut (s : State) (t d c : Nat) (ws : List Word) : (s.sendWords t d c ws).fspOut = s.fspOut := by obtain ⟨_, h⟩ := sendWords_shape s t d c ws; rw [h]
@[simp] theorem State.sendWords_tap (s : State) (t d c : Nat) (ws : List Word) : (s.sendWords t d c ws).tap = s.tap := by obtain ⟨_, h⟩ := sendWords_shape s t d c ws; rw [h]
@[simp] theorem State.sendWords_pending (s : State) (t d c : Nat) (ws : List Word) : (s.sendWords t d c ws).pending = s.pending := by obtain ⟨_, h⟩ := sendWords_shape s t d c ws; rw [h]
@[simp] theorem State.sendWords_entry (s : State) (t d c : Nat) (ws : List Word) (k : Nat) : (s.sendWords t d c ws).entry k = s.entry k := by simp [State.entry]
@[simp] theorem State.sendWords_edgeAt (s : State) (t d c : Nat) (ws : List Word) (k : Nat) : (s.sendWords t d c ws).edgeAt k = s.edgeAt k := by simp [State.edgeAt]
@[simp] theorem State.sendWords_homeAt (s : State) (t d c : Nat) (ws : List Word) (k : Nat) : (s.sendWords t d c ws).homeAt k = s.homeAt k := by simp [State.homeAt]
@[simp] theorem State.sendWords_slotAt (s : State) (t d c : Nat) (ws : List Word) (k : Nat) : (s.sendWords t d c ws).slotAt k = s.slotAt k := by simp [State.slotAt]
@[simp] theorem State.sendWords_ledger (s : State) (t d c : Nat) (ws : List Word) (k : Nat) : (s.sendWords t d c ws).ledger k = s.ledger k := by simp [State.ledger]
@[simp] theorem State.sendWords_part (s : State) (t d c : Nat) (ws : List Word) (k : Nat) : (s.sendWords t d c ws).part k = s.part k := by simp [State.part]
/-! `State.reply` -/
theorem reply_shape (s : State) (i : Issuer) (st : Status) (ws : List Word) :
    ∃ cmi' net' hrpOut', s.reply i st ws = { s with cmi := cmi', net := net', hrpOut := hrpOut' } := by
  unfold State.reply; dsimp only; split
  · obtain ⟨_, h⟩ := sendWords_shape s typCmdReply ‹_› (if sessionOp i.op then 3 else 4) (replyWords i st ws)
    rw [h]; exact ⟨_, _, _, rfl⟩
  · split <;> exact ⟨_, _, _, rfl⟩
@[simp] theorem State.reply_grade (s : State) (i : Issuer) (st : Status) (ws : List Word) : (s.reply i st ws).grade = s.grade := by obtain ⟨_, _, _, h⟩ := reply_shape s i st ws; rw [h]
@[simp] theorem State.reply_tm (s : State) (i : Issuer) (st : Status) (ws : List Word) : (s.reply i st ws).tm = s.tm := by obtain ⟨_, _, _, h⟩ := reply_shape s i st ws; rw [h]
@[simp] theorem State.reply_rs (s : State) (i : Issuer) (st : Status) (ws : List Word) : (s.reply i st ws).rs = s.rs := by obtain ⟨_, _, _, h⟩ := reply_shape s i st ws; rw [h]
@[simp] theorem State.reply_trb (s : State) (i : Issuer) (st : Status) (ws : List Word) : (s.reply i st ws).trb = s.trb := by obtain ⟨_, _, _, h⟩ := reply_shape s i st ws; rw [h]
@[simp] theorem State.reply_entries (s : State) (i : Issuer) (st : Status) (ws : List Word) : (s.reply i st ws).entries = s.entries := by obtain ⟨_, _, _, h⟩ := reply_shape s i st ws; rw [h]
@[simp] theorem State.reply_edge (s : State) (i : Issuer) (st : Status) (ws : List Word) : (s.reply i st ws).edge = s.edge := by obtain ⟨_, _, _, h⟩ := reply_shape s i st ws; rw [h]
@[simp] theorem State.reply_home (s : State) (i : Issuer) (st : Status) (ws : List Word) : (s.reply i st ws).home = s.home := by obtain ⟨_, _, _, h⟩ := reply_shape s i st ws; rw [h]
@[simp] theorem State.reply_slots (s : State) (i : Issuer) (st : Status) (ws : List Word) : (s.reply i st ws).slots = s.slots := by obtain ⟨_, _, _, h⟩ := reply_shape s i st ws; rw [h]
@[simp] theorem State.reply_ledgers (s : State) (i : Issuer) (st : Status) (ws : List Word) : (s.reply i st ws).ledgers = s.ledgers := by obtain ⟨_, _, _, h⟩ := reply_shape s i st ws; rw [h]
@[simp] theorem State.reply_parts (s : State) (i : Issuer) (st : Status) (ws : List Word) : (s.reply i st ws).parts = s.parts := by obtain ⟨_, _, _, h⟩ := reply_shape s i st ws; rw [h]
@[simp] theorem State.reply_ints (s : State) (i : Issuer) (st : Status) (ws : List Word) : (s.reply i st ws).ints = s.ints := by obtain ⟨_, _, _, h⟩ := reply_shape s i st ws; rw [h]
@[simp] theorem State.reply_mem (s : State) (i : Issuer) (st : Status) (ws : List Word) : (s.reply i st ws).mem = s.mem := by obtain ⟨_, _, _, h⟩ := reply_shape s i st ws; rw [h]
@[simp] theorem State.reply_hdl (s : State) (i : Issuer) (st : Status) (ws : List Word) : (s.reply i st ws).hdl = s.hdl := by obtain ⟨_, _, _, h⟩ := reply_shape s i st ws; rw [h]
@[simp] theorem State.reply_img (s : State) (i : Issuer) (st : Status) (ws : List Word) : (s.reply i st ws).img = s.img := by obtain ⟨_, _, _, h⟩ := reply_shape s i st ws; rw [h]
@[simp] theorem State.reply_com (s : State) (i : Issuer) (st : Status) (ws : List Word) : (s.reply i st ws).com = s.com := by obtain ⟨_, _, _, h⟩ := reply_shape s i st ws; rw [h]
@[simp] theorem State.reply_bal (s : State) (i : Issuer) (st : Status) (ws : List Word) : (s.reply i st ws).bal = s.bal := by obtain ⟨_, _, _, h⟩ := reply_shape s i st ws; rw [h]
@[simp] theorem State.reply_fsp (s : State) (i : Issuer) (st : Status) (ws : List Word) : (s.reply i st ws).fsp = s.fsp := by obtain ⟨_, _, _, h⟩ := reply_shape s i st ws; rw [h]
@[simp] theorem State.reply_tier (s : State) (i : Issuer) (st : Status) (ws : List Word) : (s.reply i st ws).tier = s.tier := by obtain ⟨_, _, _, h⟩ := reply_shape s i st ws; rw [h]
@[simp] theorem State.reply_clk (s : State) (i : Issuer) (st : Status) (ws : List Word) : (s.reply i st ws).clk = s.clk := by obtain ⟨_, _, _, h⟩ := reply_shape s i st ws; rw [h]
@[simp] theorem State.reply_role (s : State) (i : Issuer) (st : Status) (ws : List Word) : (s.reply i st ws).role = s.role := by obtain ⟨_, _, _, h⟩ := reply_shape s i st ws; rw [h]
@[simp] theorem State.reply_roleShadow (s : State) (i : Issuer) (st : Status) (ws : List Word) : (s.reply i st ws).roleShadow = s.roleShadow := by obtain ⟨_, _, _, h⟩ := reply_shape s i st ws; rw [h]
@[simp] theorem State.reply_denied (s : State) (i : Issuer) (st : Status) (ws : List Word) : (s.reply i st ws).denied = s.denied := by obtain ⟨_, _, _, h⟩ := reply_shape s i st ws; rw [h]
@[simp] theorem State.reply_misformed (s : State) (i : Issuer) (st : Status) (ws : List Word) : (s.reply i st ws).misformed = s.misformed := by obtain ⟨_, _, _, h⟩ := reply_shape s i st ws; rw [h]
@[simp] theorem State.reply_blocked (s : State) (i : Issuer) (st : Status) (ws : List Word) : (s.reply i st ws).blocked = s.blocked := by obtain ⟨_, _, _, h⟩ := reply_shape s i st ws; rw [h]
@[simp] theorem State.reply_fspOut (s : State) (i : Issuer) (st : Status) (ws : List Word) : (s.reply i st ws).fspOut = s.fspOut := by obtain ⟨_, _, _, h⟩ := reply_shape s i st ws; rw [h]
@[simp] theorem State.reply_tap (s : State) (i : Issuer) (st : Status) (ws : List Word) : (s.reply i st ws).tap = s.tap := by obtain ⟨_, _, _, h⟩ := reply_shape s i st ws; rw [h]
@[simp] theorem State.reply_pending (s : State) (i : Issuer) (st : Status) (ws : List Word) : (s.reply i st ws).pending = s.pending := by obtain ⟨_, _, _, h⟩ := reply_shape s i st ws; rw [h]
@[simp] theorem State.reply_entry (s : State) (i : Issuer) (st : Status) (ws : List Word) (k : Nat) : (s.reply i st ws).entry k = s.entry k := by simp [State.entry]
@[simp] theorem State.reply_edgeAt (s : State) (i : Issuer) (st : Status) (ws : List Word) (k : Nat) : (s.reply i st ws).edgeAt k = s.edgeAt k := by simp [State.edgeAt]
@[simp] theorem State.reply_homeAt (s : State) (i : Issuer) (st : Status) (ws : List Word) (k : Nat) : (s.reply i st ws).homeAt k = s.homeAt k := by simp [State.homeAt]
@[simp] theorem State.reply_slotAt (s : State) (i : Issuer) (st : Status) (ws : List Word) (k : Nat) : (s.reply i st ws).slotAt k = s.slotAt k := by simp [State.slotAt]
@[simp] theorem State.reply_ledger (s : State) (i : Issuer) (st : Status) (ws : List Word) (k : Nat) : (s.reply i st ws).ledger k = s.ledger k := by simp [State.ledger]
@[simp] theorem State.reply_part (s : State) (i : Issuer) (st : Status) (ws : List Word) (k : Nat) : (s.reply i st ws).part k = s.part k := by simp [State.part]
/-! `State.answer` -/
theorem answer_shape (s : State) (i : Issuer) (st : Status) :
    ∃ cmi' net' hrpOut', s.answer i st = { s with cmi := cmi', net := net', hrpOut := hrpOut' } := by
  exact reply_shape ..
@[simp] theorem State.answer_grade (s : State) (i : Issuer) (st : Status) : (s.answer i st).grade = s.grade := by obtain ⟨_, _, _, h⟩ := answer_shape s i st; rw [h]
@[simp] theorem State.answer_tm (s : State) (i : Issuer) (st : Status) : (s.answer i st).tm = s.tm := by obtain ⟨_, _, _, h⟩ := answer_shape s i st; rw [h]
@[simp] theorem State.answer_rs (s : State) (i : Issuer) (st : Status) : (s.answer i st).rs = s.rs := by obtain ⟨_, _, _, h⟩ := answer_shape s i st; rw [h]
@[simp] theorem State.answer_trb (s : State) (i : Issuer) (st : Status) : (s.answer i st).trb = s.trb := by obtain ⟨_, _, _, h⟩ := answer_shape s i st; rw [h]
@[simp] theorem State.answer_entries (s : State) (i : Issuer) (st : Status) : (s.answer i st).entries = s.entries := by obtain ⟨_, _, _, h⟩ := answer_shape s i st; rw [h]
@[simp] theorem State.answer_edge (s : State) (i : Issuer) (st : Status) : (s.answer i st).edge = s.edge := by obtain ⟨_, _, _, h⟩ := answer_shape s i st; rw [h]
@[simp] theorem State.answer_home (s : State) (i : Issuer) (st : Status) : (s.answer i st).home = s.home := by obtain ⟨_, _, _, h⟩ := answer_shape s i st; rw [h]
@[simp] theorem State.answer_slots (s : State) (i : Issuer) (st : Status) : (s.answer i st).slots = s.slots := by obtain ⟨_, _, _, h⟩ := answer_shape s i st; rw [h]
@[simp] theorem State.answer_ledgers (s : State) (i : Issuer) (st : Status) : (s.answer i st).ledgers = s.ledgers := by obtain ⟨_, _, _, h⟩ := answer_shape s i st; rw [h]
@[simp] theorem State.answer_parts (s : State) (i : Issuer) (st : Status) : (s.answer i st).parts = s.parts := by obtain ⟨_, _, _, h⟩ := answer_shape s i st; rw [h]
@[simp] theorem State.answer_ints (s : State) (i : Issuer) (st : Status) : (s.answer i st).ints = s.ints := by obtain ⟨_, _, _, h⟩ := answer_shape s i st; rw [h]
@[simp] theorem State.answer_mem (s : State) (i : Issuer) (st : Status) : (s.answer i st).mem = s.mem := by obtain ⟨_, _, _, h⟩ := answer_shape s i st; rw [h]
@[simp] theorem State.answer_hdl (s : State) (i : Issuer) (st : Status) : (s.answer i st).hdl = s.hdl := by obtain ⟨_, _, _, h⟩ := answer_shape s i st; rw [h]
@[simp] theorem State.answer_img (s : State) (i : Issuer) (st : Status) : (s.answer i st).img = s.img := by obtain ⟨_, _, _, h⟩ := answer_shape s i st; rw [h]
@[simp] theorem State.answer_com (s : State) (i : Issuer) (st : Status) : (s.answer i st).com = s.com := by obtain ⟨_, _, _, h⟩ := answer_shape s i st; rw [h]
@[simp] theorem State.answer_bal (s : State) (i : Issuer) (st : Status) : (s.answer i st).bal = s.bal := by obtain ⟨_, _, _, h⟩ := answer_shape s i st; rw [h]
@[simp] theorem State.answer_fsp (s : State) (i : Issuer) (st : Status) : (s.answer i st).fsp = s.fsp := by obtain ⟨_, _, _, h⟩ := answer_shape s i st; rw [h]
@[simp] theorem State.answer_tier (s : State) (i : Issuer) (st : Status) : (s.answer i st).tier = s.tier := by obtain ⟨_, _, _, h⟩ := answer_shape s i st; rw [h]
@[simp] theorem State.answer_clk (s : State) (i : Issuer) (st : Status) : (s.answer i st).clk = s.clk := by obtain ⟨_, _, _, h⟩ := answer_shape s i st; rw [h]
@[simp] theorem State.answer_role (s : State) (i : Issuer) (st : Status) : (s.answer i st).role = s.role := by obtain ⟨_, _, _, h⟩ := answer_shape s i st; rw [h]
@[simp] theorem State.answer_roleShadow (s : State) (i : Issuer) (st : Status) : (s.answer i st).roleShadow = s.roleShadow := by obtain ⟨_, _, _, h⟩ := answer_shape s i st; rw [h]
@[simp] theorem State.answer_denied (s : State) (i : Issuer) (st : Status) : (s.answer i st).denied = s.denied := by obtain ⟨_, _, _, h⟩ := answer_shape s i st; rw [h]
@[simp] theorem State.answer_misformed (s : State) (i : Issuer) (st : Status) : (s.answer i st).misformed = s.misformed := by obtain ⟨_, _, _, h⟩ := answer_shape s i st; rw [h]
@[simp] theorem State.answer_blocked (s : State) (i : Issuer) (st : Status) : (s.answer i st).blocked = s.blocked := by obtain ⟨_, _, _, h⟩ := answer_shape s i st; rw [h]
@[simp] theorem State.answer_fspOut (s : State) (i : Issuer) (st : Status) : (s.answer i st).fspOut = s.fspOut := by obtain ⟨_, _, _, h⟩ := answer_shape s i st; rw [h]
@[simp] theorem State.answer_tap (s : State) (i : Issuer) (st : Status) : (s.answer i st).tap = s.tap := by obtain ⟨_, _, _, h⟩ := answer_shape s i st; rw [h]
@[simp] theorem State.answer_pending (s : State) (i : Issuer) (st : Status) : (s.answer i st).pending = s.pending := by obtain ⟨_, _, _, h⟩ := answer_shape s i st; rw [h]
@[simp] theorem State.answer_entry (s : State) (i : Issuer) (st : Status) (k : Nat) : (s.answer i st).entry k = s.entry k := by simp [State.entry]
@[simp] theorem State.answer_edgeAt (s : State) (i : Issuer) (st : Status) (k : Nat) : (s.answer i st).edgeAt k = s.edgeAt k := by simp [State.edgeAt]
@[simp] theorem State.answer_homeAt (s : State) (i : Issuer) (st : Status) (k : Nat) : (s.answer i st).homeAt k = s.homeAt k := by simp [State.homeAt]
@[simp] theorem State.answer_slotAt (s : State) (i : Issuer) (st : Status) (k : Nat) : (s.answer i st).slotAt k = s.slotAt k := by simp [State.slotAt]
@[simp] theorem State.answer_ledger (s : State) (i : Issuer) (st : Status) (k : Nat) : (s.answer i st).ledger k = s.ledger k := by simp [State.ledger]
@[simp] theorem State.answer_part (s : State) (i : Issuer) (st : Status) (k : Nat) : (s.answer i st).part k = s.part k := by simp [State.part]
/-! `State.forward` -/
theorem forward_shape (s : State) (d : Nat) (ws : List Word) (i : Issuer) (n : Option Nat) :
    ∃ cmi' net', s.forward d ws i n = { s with cmi := cmi', net := net' } := by
  unfold State.forward; dsimp only
  obtain ⟨_, h⟩ := sendWords_shape s typCmd d (if sessionOp i.op then 3 else 4) ws
  rw [h]; exact ⟨_, _, rfl⟩
@[simp] theorem State.forward_grade (s : State) (d : Nat) (ws : List Word) (i : Issuer) (n : Option Nat) : (s.forward d ws i n).grade = s.grade := by obtain ⟨_, _, h⟩ := forward_shape s d ws i n; rw [h]
@[simp] theorem State.forward_tm (s : State) (d : Nat) (ws : List Word) (i : Issuer) (n : Option Nat) : (s.forward d ws i n).tm = s.tm := by obtain ⟨_, _, h⟩ := forward_shape s d ws i n; rw [h]
@[simp] theorem State.forward_rs (s : State) (d : Nat) (ws : List Word) (i : Issuer) (n : Option Nat) : (s.forward d ws i n).rs = s.rs := by obtain ⟨_, _, h⟩ := forward_shape s d ws i n; rw [h]
@[simp] theorem State.forward_trb (s : State) (d : Nat) (ws : List Word) (i : Issuer) (n : Option Nat) : (s.forward d ws i n).trb = s.trb := by obtain ⟨_, _, h⟩ := forward_shape s d ws i n; rw [h]
@[simp] theorem State.forward_entries (s : State) (d : Nat) (ws : List Word) (i : Issuer) (n : Option Nat) : (s.forward d ws i n).entries = s.entries := by obtain ⟨_, _, h⟩ := forward_shape s d ws i n; rw [h]
@[simp] theorem State.forward_edge (s : State) (d : Nat) (ws : List Word) (i : Issuer) (n : Option Nat) : (s.forward d ws i n).edge = s.edge := by obtain ⟨_, _, h⟩ := forward_shape s d ws i n; rw [h]
@[simp] theorem State.forward_home (s : State) (d : Nat) (ws : List Word) (i : Issuer) (n : Option Nat) : (s.forward d ws i n).home = s.home := by obtain ⟨_, _, h⟩ := forward_shape s d ws i n; rw [h]
@[simp] theorem State.forward_slots (s : State) (d : Nat) (ws : List Word) (i : Issuer) (n : Option Nat) : (s.forward d ws i n).slots = s.slots := by obtain ⟨_, _, h⟩ := forward_shape s d ws i n; rw [h]
@[simp] theorem State.forward_ledgers (s : State) (d : Nat) (ws : List Word) (i : Issuer) (n : Option Nat) : (s.forward d ws i n).ledgers = s.ledgers := by obtain ⟨_, _, h⟩ := forward_shape s d ws i n; rw [h]
@[simp] theorem State.forward_parts (s : State) (d : Nat) (ws : List Word) (i : Issuer) (n : Option Nat) : (s.forward d ws i n).parts = s.parts := by obtain ⟨_, _, h⟩ := forward_shape s d ws i n; rw [h]
@[simp] theorem State.forward_ints (s : State) (d : Nat) (ws : List Word) (i : Issuer) (n : Option Nat) : (s.forward d ws i n).ints = s.ints := by obtain ⟨_, _, h⟩ := forward_shape s d ws i n; rw [h]
@[simp] theorem State.forward_mem (s : State) (d : Nat) (ws : List Word) (i : Issuer) (n : Option Nat) : (s.forward d ws i n).mem = s.mem := by obtain ⟨_, _, h⟩ := forward_shape s d ws i n; rw [h]
@[simp] theorem State.forward_hdl (s : State) (d : Nat) (ws : List Word) (i : Issuer) (n : Option Nat) : (s.forward d ws i n).hdl = s.hdl := by obtain ⟨_, _, h⟩ := forward_shape s d ws i n; rw [h]
@[simp] theorem State.forward_img (s : State) (d : Nat) (ws : List Word) (i : Issuer) (n : Option Nat) : (s.forward d ws i n).img = s.img := by obtain ⟨_, _, h⟩ := forward_shape s d ws i n; rw [h]
@[simp] theorem State.forward_com (s : State) (d : Nat) (ws : List Word) (i : Issuer) (n : Option Nat) : (s.forward d ws i n).com = s.com := by obtain ⟨_, _, h⟩ := forward_shape s d ws i n; rw [h]
@[simp] theorem State.forward_bal (s : State) (d : Nat) (ws : List Word) (i : Issuer) (n : Option Nat) : (s.forward d ws i n).bal = s.bal := by obtain ⟨_, _, h⟩ := forward_shape s d ws i n; rw [h]
@[simp] theorem State.forward_fsp (s : State) (d : Nat) (ws : List Word) (i : Issuer) (n : Option Nat) : (s.forward d ws i n).fsp = s.fsp := by obtain ⟨_, _, h⟩ := forward_shape s d ws i n; rw [h]
@[simp] theorem State.forward_tier (s : State) (d : Nat) (ws : List Word) (i : Issuer) (n : Option Nat) : (s.forward d ws i n).tier = s.tier := by obtain ⟨_, _, h⟩ := forward_shape s d ws i n; rw [h]
@[simp] theorem State.forward_clk (s : State) (d : Nat) (ws : List Word) (i : Issuer) (n : Option Nat) : (s.forward d ws i n).clk = s.clk := by obtain ⟨_, _, h⟩ := forward_shape s d ws i n; rw [h]
@[simp] theorem State.forward_role (s : State) (d : Nat) (ws : List Word) (i : Issuer) (n : Option Nat) : (s.forward d ws i n).role = s.role := by obtain ⟨_, _, h⟩ := forward_shape s d ws i n; rw [h]
@[simp] theorem State.forward_roleShadow (s : State) (d : Nat) (ws : List Word) (i : Issuer) (n : Option Nat) : (s.forward d ws i n).roleShadow = s.roleShadow := by obtain ⟨_, _, h⟩ := forward_shape s d ws i n; rw [h]
@[simp] theorem State.forward_denied (s : State) (d : Nat) (ws : List Word) (i : Issuer) (n : Option Nat) : (s.forward d ws i n).denied = s.denied := by obtain ⟨_, _, h⟩ := forward_shape s d ws i n; rw [h]
@[simp] theorem State.forward_misformed (s : State) (d : Nat) (ws : List Word) (i : Issuer) (n : Option Nat) : (s.forward d ws i n).misformed = s.misformed := by obtain ⟨_, _, h⟩ := forward_shape s d ws i n; rw [h]
@[simp] theorem State.forward_blocked (s : State) (d : Nat) (ws : List Word) (i : Issuer) (n : Option Nat) : (s.forward d ws i n).blocked = s.blocked := by obtain ⟨_, _, h⟩ := forward_shape s d ws i n; rw [h]
@[simp] theorem State.forward_hrpOut (s : State) (d : Nat) (ws : List Word) (i : Issuer) (n : Option Nat) : (s.forward d ws i n).hrpOut = s.hrpOut := by obtain ⟨_, _, h⟩ := forward_shape s d ws i n; rw [h]
@[simp] theorem State.forward_fspOut (s : State) (d : Nat) (ws : List Word) (i : Issuer) (n : Option Nat) : (s.forward d ws i n).fspOut = s.fspOut := by obtain ⟨_, _, h⟩ := forward_shape s d ws i n; rw [h]
@[simp] theorem State.forward_tap (s : State) (d : Nat) (ws : List Word) (i : Issuer) (n : Option Nat) : (s.forward d ws i n).tap = s.tap := by obtain ⟨_, _, h⟩ := forward_shape s d ws i n; rw [h]
@[simp] theorem State.forward_pending (s : State) (d : Nat) (ws : List Word) (i : Issuer) (n : Option Nat) : (s.forward d ws i n).pending = s.pending := by obtain ⟨_, _, h⟩ := forward_shape s d ws i n; rw [h]
@[simp] theorem State.forward_entry (s : State) (d : Nat) (ws : List Word) (i : Issuer) (n : Option Nat) (k : Nat) : (s.forward d ws i n).entry k = s.entry k := by simp [State.entry]
@[simp] theorem State.forward_edgeAt (s : State) (d : Nat) (ws : List Word) (i : Issuer) (n : Option Nat) (k : Nat) : (s.forward d ws i n).edgeAt k = s.edgeAt k := by simp [State.edgeAt]
@[simp] theorem State.forward_homeAt (s : State) (d : Nat) (ws : List Word) (i : Issuer) (n : Option Nat) (k : Nat) : (s.forward d ws i n).homeAt k = s.homeAt k := by simp [State.homeAt]
@[simp] theorem State.forward_slotAt (s : State) (d : Nat) (ws : List Word) (i : Issuer) (n : Option Nat) (k : Nat) : (s.forward d ws i n).slotAt k = s.slotAt k := by simp [State.slotAt]
@[simp] theorem State.forward_ledger (s : State) (d : Nat) (ws : List Word) (i : Issuer) (n : Option Nat) (k : Nat) : (s.forward d ws i n).ledger k = s.ledger k := by simp [State.ledger]
@[simp] theorem State.forward_part (s : State) (d : Nat) (ws : List Word) (i : Issuer) (n : Option Nat) (k : Nat) : (s.forward d ws i n).part k = s.part k := by simp [State.part]
/-! `State.setSticky` -/
theorem setSticky_shape (s : State) (b : Sticky) :
    ∃ trb', s.setSticky b = { s with trb := trb' } := by
  unfold State.setSticky; dsimp only [State.putRetained]; exact ⟨_, rfl⟩
/-! `State.logNew` -/
theorem logNew_shape (s : State) (a b c : Word) :
    ∃ trb', s.logNew a b c = { s with trb := trb' } := by
  unfold State.logNew; dsimp only [State.putRetained]; exact ⟨_, rfl⟩
/-! `State.logRepeat` -/
theorem logRepeat_shape (s : State) (n : Nat) :
    ∃ trb', s.logRepeat n = { s with trb := trb' } := by
  unfold State.logRepeat; dsimp only [State.putRetained]; exact ⟨_, rfl⟩
/-! `State.trouble` -/
theorem trouble_shape (s : State) (b : Sticky) (a : Nat) (o : Obj) (p : Option Nat) (d : Word) :
    ∃ trb' parts' ints', s.trouble b a o p d = { s with trb := trb', parts := parts', ints := ints' } := by
  unfold State.trouble; dsimp only
  have h : ∃ t, (if (s.setSticky b).logSame (logWord1 b a o p 0) o.val then (s.setSticky b).logRepeat (((s.setSticky b).logNext + 255) % 256)
      else (s.setSticky b).logNew (logWord1 b a o p 0) o.val d) = { s with trb := t } := by
    obtain ⟨x, hx⟩ := setSticky_shape s b
    rw [hx]; split
    · obtain ⟨_, h⟩ := logRepeat_shape { s with trb := x } ((State.logNext { s with trb := x } + 255) % 256)
      rw [h]; exact ⟨_, rfl⟩
    · obtain ⟨_, h⟩ := logNew_shape { s with trb := x } (logWord1 b a o p 0) o.val d
      rw [h]; exact ⟨_, rfl⟩
  obtain ⟨x, h⟩ := h
  rw [h]; split
  · obtain ⟨_, _, h2⟩ := raise_shape { s with trb := x } ‹_› 6
    rw [h2]; exact ⟨_, _, _, rfl⟩
  · exact ⟨_, _, _, rfl⟩
@[simp] theorem State.trouble_grade (s : State) (b : Sticky) (a : Nat) (o : Obj) (p : Option Nat) (d : Word) : (s.trouble b a o p d).grade = s.grade := by obtain ⟨_, _, _, h⟩ := trouble_shape s b a o p d; rw [h]
@[simp] theorem State.trouble_tm (s : State) (b : Sticky) (a : Nat) (o : Obj) (p : Option Nat) (d : Word) : (s.trouble b a o p d).tm = s.tm := by obtain ⟨_, _, _, h⟩ := trouble_shape s b a o p d; rw [h]
@[simp] theorem State.trouble_rs (s : State) (b : Sticky) (a : Nat) (o : Obj) (p : Option Nat) (d : Word) : (s.trouble b a o p d).rs = s.rs := by obtain ⟨_, _, _, h⟩ := trouble_shape s b a o p d; rw [h]
@[simp] theorem State.trouble_entries (s : State) (b : Sticky) (a : Nat) (o : Obj) (p : Option Nat) (d : Word) : (s.trouble b a o p d).entries = s.entries := by obtain ⟨_, _, _, h⟩ := trouble_shape s b a o p d; rw [h]
@[simp] theorem State.trouble_edge (s : State) (b : Sticky) (a : Nat) (o : Obj) (p : Option Nat) (d : Word) : (s.trouble b a o p d).edge = s.edge := by obtain ⟨_, _, _, h⟩ := trouble_shape s b a o p d; rw [h]
@[simp] theorem State.trouble_home (s : State) (b : Sticky) (a : Nat) (o : Obj) (p : Option Nat) (d : Word) : (s.trouble b a o p d).home = s.home := by obtain ⟨_, _, _, h⟩ := trouble_shape s b a o p d; rw [h]
@[simp] theorem State.trouble_slots (s : State) (b : Sticky) (a : Nat) (o : Obj) (p : Option Nat) (d : Word) : (s.trouble b a o p d).slots = s.slots := by obtain ⟨_, _, _, h⟩ := trouble_shape s b a o p d; rw [h]
@[simp] theorem State.trouble_ledgers (s : State) (b : Sticky) (a : Nat) (o : Obj) (p : Option Nat) (d : Word) : (s.trouble b a o p d).ledgers = s.ledgers := by obtain ⟨_, _, _, h⟩ := trouble_shape s b a o p d; rw [h]
@[simp] theorem State.trouble_cmi (s : State) (b : Sticky) (a : Nat) (o : Obj) (p : Option Nat) (d : Word) : (s.trouble b a o p d).cmi = s.cmi := by obtain ⟨_, _, _, h⟩ := trouble_shape s b a o p d; rw [h]
@[simp] theorem State.trouble_mem (s : State) (b : Sticky) (a : Nat) (o : Obj) (p : Option Nat) (d : Word) : (s.trouble b a o p d).mem = s.mem := by obtain ⟨_, _, _, h⟩ := trouble_shape s b a o p d; rw [h]
@[simp] theorem State.trouble_hdl (s : State) (b : Sticky) (a : Nat) (o : Obj) (p : Option Nat) (d : Word) : (s.trouble b a o p d).hdl = s.hdl := by obtain ⟨_, _, _, h⟩ := trouble_shape s b a o p d; rw [h]
@[simp] theorem State.trouble_img (s : State) (b : Sticky) (a : Nat) (o : Obj) (p : Option Nat) (d : Word) : (s.trouble b a o p d).img = s.img := by obtain ⟨_, _, _, h⟩ := trouble_shape s b a o p d; rw [h]
@[simp] theorem State.trouble_com (s : State) (b : Sticky) (a : Nat) (o : Obj) (p : Option Nat) (d : Word) : (s.trouble b a o p d).com = s.com := by obtain ⟨_, _, _, h⟩ := trouble_shape s b a o p d; rw [h]
@[simp] theorem State.trouble_bal (s : State) (b : Sticky) (a : Nat) (o : Obj) (p : Option Nat) (d : Word) : (s.trouble b a o p d).bal = s.bal := by obtain ⟨_, _, _, h⟩ := trouble_shape s b a o p d; rw [h]
@[simp] theorem State.trouble_net (s : State) (b : Sticky) (a : Nat) (o : Obj) (p : Option Nat) (d : Word) : (s.trouble b a o p d).net = s.net := by obtain ⟨_, _, _, h⟩ := trouble_shape s b a o p d; rw [h]
@[simp] theorem State.trouble_fsp (s : State) (b : Sticky) (a : Nat) (o : Obj) (p : Option Nat) (d : Word) : (s.trouble b a o p d).fsp = s.fsp := by obtain ⟨_, _, _, h⟩ := trouble_shape s b a o p d; rw [h]
@[simp] theorem State.trouble_tier (s : State) (b : Sticky) (a : Nat) (o : Obj) (p : Option Nat) (d : Word) : (s.trouble b a o p d).tier = s.tier := by obtain ⟨_, _, _, h⟩ := trouble_shape s b a o p d; rw [h]
@[simp] theorem State.trouble_clk (s : State) (b : Sticky) (a : Nat) (o : Obj) (p : Option Nat) (d : Word) : (s.trouble b a o p d).clk = s.clk := by obtain ⟨_, _, _, h⟩ := trouble_shape s b a o p d; rw [h]
@[simp] theorem State.trouble_role (s : State) (b : Sticky) (a : Nat) (o : Obj) (p : Option Nat) (d : Word) : (s.trouble b a o p d).role = s.role := by obtain ⟨_, _, _, h⟩ := trouble_shape s b a o p d; rw [h]
@[simp] theorem State.trouble_roleShadow (s : State) (b : Sticky) (a : Nat) (o : Obj) (p : Option Nat) (d : Word) : (s.trouble b a o p d).roleShadow = s.roleShadow := by obtain ⟨_, _, _, h⟩ := trouble_shape s b a o p d; rw [h]
@[simp] theorem State.trouble_denied (s : State) (b : Sticky) (a : Nat) (o : Obj) (p : Option Nat) (d : Word) : (s.trouble b a o p d).denied = s.denied := by obtain ⟨_, _, _, h⟩ := trouble_shape s b a o p d; rw [h]
@[simp] theorem State.trouble_misformed (s : State) (b : Sticky) (a : Nat) (o : Obj) (p : Option Nat) (d : Word) : (s.trouble b a o p d).misformed = s.misformed := by obtain ⟨_, _, _, h⟩ := trouble_shape s b a o p d; rw [h]
@[simp] theorem State.trouble_blocked (s : State) (b : Sticky) (a : Nat) (o : Obj) (p : Option Nat) (d : Word) : (s.trouble b a o p d).blocked = s.blocked := by obtain ⟨_, _, _, h⟩ := trouble_shape s b a o p d; rw [h]
@[simp] theorem State.trouble_hrpOut (s : State) (b : Sticky) (a : Nat) (o : Obj) (p : Option Nat) (d : Word) : (s.trouble b a o p d).hrpOut = s.hrpOut := by obtain ⟨_, _, _, h⟩ := trouble_shape s b a o p d; rw [h]
@[simp] theorem State.trouble_fspOut (s : State) (b : Sticky) (a : Nat) (o : Obj) (p : Option Nat) (d : Word) : (s.trouble b a o p d).fspOut = s.fspOut := by obtain ⟨_, _, _, h⟩ := trouble_shape s b a o p d; rw [h]
@[simp] theorem State.trouble_tap (s : State) (b : Sticky) (a : Nat) (o : Obj) (p : Option Nat) (d : Word) : (s.trouble b a o p d).tap = s.tap := by obtain ⟨_, _, _, h⟩ := trouble_shape s b a o p d; rw [h]
@[simp] theorem State.trouble_pending (s : State) (b : Sticky) (a : Nat) (o : Obj) (p : Option Nat) (d : Word) : (s.trouble b a o p d).pending = s.pending := by obtain ⟨_, _, _, h⟩ := trouble_shape s b a o p d; rw [h]
@[simp] theorem State.trouble_entry (s : State) (b : Sticky) (a : Nat) (o : Obj) (p : Option Nat) (d : Word) (k : Nat) : (s.trouble b a o p d).entry k = s.entry k := by simp [State.entry]
@[simp] theorem State.trouble_edgeAt (s : State) (b : Sticky) (a : Nat) (o : Obj) (p : Option Nat) (d : Word) (k : Nat) : (s.trouble b a o p d).edgeAt k = s.edgeAt k := by simp [State.edgeAt]
@[simp] theorem State.trouble_homeAt (s : State) (b : Sticky) (a : Nat) (o : Obj) (p : Option Nat) (d : Word) (k : Nat) : (s.trouble b a o p d).homeAt k = s.homeAt k := by simp [State.homeAt]
@[simp] theorem State.trouble_slotAt (s : State) (b : Sticky) (a : Nat) (o : Obj) (p : Option Nat) (d : Word) (k : Nat) : (s.trouble b a o p d).slotAt k = s.slotAt k := by simp [State.slotAt]
@[simp] theorem State.trouble_ledger (s : State) (b : Sticky) (a : Nat) (o : Obj) (p : Option Nat) (d : Word) (k : Nat) : (s.trouble b a o p d).ledger k = s.ledger k := by simp [State.ledger]
/-! `State.levelSpent` -/
theorem levelSpent_shape (s : State) (t : Nat) :
    ∃ parts' ints', s.levelSpent t = { s with parts := parts', ints := ints' } := by
  unfold State.levelSpent; split
  · exact raise_shape ..
  · exact ⟨_, _, rfl⟩
@[simp] theorem State.levelSpent_grade (s : State) (t : Nat) : (s.levelSpent t).grade = s.grade := by obtain ⟨_, _, h⟩ := levelSpent_shape s t; rw [h]
@[simp] theorem State.levelSpent_tm (s : State) (t : Nat) : (s.levelSpent t).tm = s.tm := by obtain ⟨_, _, h⟩ := levelSpent_shape s t; rw [h]
@[simp] theorem State.levelSpent_rs (s : State) (t : Nat) : (s.levelSpent t).rs = s.rs := by obtain ⟨_, _, h⟩ := levelSpent_shape s t; rw [h]
@[simp] theorem State.levelSpent_trb (s : State) (t : Nat) : (s.levelSpent t).trb = s.trb := by obtain ⟨_, _, h⟩ := levelSpent_shape s t; rw [h]
@[simp] theorem State.levelSpent_entries (s : State) (t : Nat) : (s.levelSpent t).entries = s.entries := by obtain ⟨_, _, h⟩ := levelSpent_shape s t; rw [h]
@[simp] theorem State.levelSpent_edge (s : State) (t : Nat) : (s.levelSpent t).edge = s.edge := by obtain ⟨_, _, h⟩ := levelSpent_shape s t; rw [h]
@[simp] theorem State.levelSpent_home (s : State) (t : Nat) : (s.levelSpent t).home = s.home := by obtain ⟨_, _, h⟩ := levelSpent_shape s t; rw [h]
@[simp] theorem State.levelSpent_slots (s : State) (t : Nat) : (s.levelSpent t).slots = s.slots := by obtain ⟨_, _, h⟩ := levelSpent_shape s t; rw [h]
@[simp] theorem State.levelSpent_ledgers (s : State) (t : Nat) : (s.levelSpent t).ledgers = s.ledgers := by obtain ⟨_, _, h⟩ := levelSpent_shape s t; rw [h]
@[simp] theorem State.levelSpent_cmi (s : State) (t : Nat) : (s.levelSpent t).cmi = s.cmi := by obtain ⟨_, _, h⟩ := levelSpent_shape s t; rw [h]
@[simp] theorem State.levelSpent_mem (s : State) (t : Nat) : (s.levelSpent t).mem = s.mem := by obtain ⟨_, _, h⟩ := levelSpent_shape s t; rw [h]
@[simp] theorem State.levelSpent_hdl (s : State) (t : Nat) : (s.levelSpent t).hdl = s.hdl := by obtain ⟨_, _, h⟩ := levelSpent_shape s t; rw [h]
@[simp] theorem State.levelSpent_img (s : State) (t : Nat) : (s.levelSpent t).img = s.img := by obtain ⟨_, _, h⟩ := levelSpent_shape s t; rw [h]
@[simp] theorem State.levelSpent_com (s : State) (t : Nat) : (s.levelSpent t).com = s.com := by obtain ⟨_, _, h⟩ := levelSpent_shape s t; rw [h]
@[simp] theorem State.levelSpent_bal (s : State) (t : Nat) : (s.levelSpent t).bal = s.bal := by obtain ⟨_, _, h⟩ := levelSpent_shape s t; rw [h]
@[simp] theorem State.levelSpent_net (s : State) (t : Nat) : (s.levelSpent t).net = s.net := by obtain ⟨_, _, h⟩ := levelSpent_shape s t; rw [h]
@[simp] theorem State.levelSpent_fsp (s : State) (t : Nat) : (s.levelSpent t).fsp = s.fsp := by obtain ⟨_, _, h⟩ := levelSpent_shape s t; rw [h]
@[simp] theorem State.levelSpent_tier (s : State) (t : Nat) : (s.levelSpent t).tier = s.tier := by obtain ⟨_, _, h⟩ := levelSpent_shape s t; rw [h]
@[simp] theorem State.levelSpent_clk (s : State) (t : Nat) : (s.levelSpent t).clk = s.clk := by obtain ⟨_, _, h⟩ := levelSpent_shape s t; rw [h]
@[simp] theorem State.levelSpent_role (s : State) (t : Nat) : (s.levelSpent t).role = s.role := by obtain ⟨_, _, h⟩ := levelSpent_shape s t; rw [h]
@[simp] theorem State.levelSpent_roleShadow (s : State) (t : Nat) : (s.levelSpent t).roleShadow = s.roleShadow := by obtain ⟨_, _, h⟩ := levelSpent_shape s t; rw [h]
@[simp] theorem State.levelSpent_denied (s : State) (t : Nat) : (s.levelSpent t).denied = s.denied := by obtain ⟨_, _, h⟩ := levelSpent_shape s t; rw [h]
@[simp] theorem State.levelSpent_misformed (s : State) (t : Nat) : (s.levelSpent t).misformed = s.misformed := by obtain ⟨_, _, h⟩ := levelSpent_shape s t; rw [h]
@[simp] theorem State.levelSpent_blocked (s : State) (t : Nat) : (s.levelSpent t).blocked = s.blocked := by obtain ⟨_, _, h⟩ := levelSpent_shape s t; rw [h]
@[simp] theorem State.levelSpent_hrpOut (s : State) (t : Nat) : (s.levelSpent t).hrpOut = s.hrpOut := by obtain ⟨_, _, h⟩ := levelSpent_shape s t; rw [h]
@[simp] theorem State.levelSpent_fspOut (s : State) (t : Nat) : (s.levelSpent t).fspOut = s.fspOut := by obtain ⟨_, _, h⟩ := levelSpent_shape s t; rw [h]
@[simp] theorem State.levelSpent_tap (s : State) (t : Nat) : (s.levelSpent t).tap = s.tap := by obtain ⟨_, _, h⟩ := levelSpent_shape s t; rw [h]
@[simp] theorem State.levelSpent_pending (s : State) (t : Nat) : (s.levelSpent t).pending = s.pending := by obtain ⟨_, _, h⟩ := levelSpent_shape s t; rw [h]
@[simp] theorem State.levelSpent_entry (s : State) (t : Nat) (k : Nat) : (s.levelSpent t).entry k = s.entry k := by simp [State.entry]
@[simp] theorem State.levelSpent_edgeAt (s : State) (t : Nat) (k : Nat) : (s.levelSpent t).edgeAt k = s.edgeAt k := by simp [State.edgeAt]
@[simp] theorem State.levelSpent_homeAt (s : State) (t : Nat) (k : Nat) : (s.levelSpent t).homeAt k = s.homeAt k := by simp [State.homeAt]
@[simp] theorem State.levelSpent_slotAt (s : State) (t : Nat) (k : Nat) : (s.levelSpent t).slotAt k = s.slotAt k := by simp [State.slotAt]
@[simp] theorem State.levelSpent_ledger (s : State) (t : Nat) (k : Nat) : (s.levelSpent t).ledger k = s.ledger k := by simp [State.ledger]
/-! `State.setHashRec` -/
theorem setHashRec_shape (s : State) (n : Nat) (r : HashRec) :
    ∃ mem' img', s.setHashRec n r = { s with mem := mem', img := img' } := by
  exact ⟨_, _, rfl⟩
@[simp] theorem State.setHashRec_grade (s : State) (n : Nat) (r : HashRec) : (s.setHashRec n r).grade = s.grade := by obtain ⟨_, _, h⟩ := setHashRec_shape s n r; rw [h]
@[simp] theorem State.setHashRec_tm (s : State) (n : Nat) (r : HashRec) : (s.setHashRec n r).tm = s.tm := by obtain ⟨_, _, h⟩ := setHashRec_shape s n r; rw [h]
@[simp] theorem State.setHashRec_rs (s : State) (n : Nat) (r : HashRec) : (s.setHashRec n r).rs = s.rs := by obtain ⟨_, _, h⟩ := setHashRec_shape s n r; rw [h]
@[simp] theorem State.setHashRec_trb (s : State) (n : Nat) (r : HashRec) : (s.setHashRec n r).trb = s.trb := by obtain ⟨_, _, h⟩ := setHashRec_shape s n r; rw [h]
@[simp] theorem State.setHashRec_entries (s : State) (n : Nat) (r : HashRec) : (s.setHashRec n r).entries = s.entries := by obtain ⟨_, _, h⟩ := setHashRec_shape s n r; rw [h]
@[simp] theorem State.setHashRec_edge (s : State) (n : Nat) (r : HashRec) : (s.setHashRec n r).edge = s.edge := by obtain ⟨_, _, h⟩ := setHashRec_shape s n r; rw [h]
@[simp] theorem State.setHashRec_home (s : State) (n : Nat) (r : HashRec) : (s.setHashRec n r).home = s.home := by obtain ⟨_, _, h⟩ := setHashRec_shape s n r; rw [h]
@[simp] theorem State.setHashRec_slots (s : State) (n : Nat) (r : HashRec) : (s.setHashRec n r).slots = s.slots := by obtain ⟨_, _, h⟩ := setHashRec_shape s n r; rw [h]
@[simp] theorem State.setHashRec_ledgers (s : State) (n : Nat) (r : HashRec) : (s.setHashRec n r).ledgers = s.ledgers := by obtain ⟨_, _, h⟩ := setHashRec_shape s n r; rw [h]
@[simp] theorem State.setHashRec_parts (s : State) (n : Nat) (r : HashRec) : (s.setHashRec n r).parts = s.parts := by obtain ⟨_, _, h⟩ := setHashRec_shape s n r; rw [h]
@[simp] theorem State.setHashRec_ints (s : State) (n : Nat) (r : HashRec) : (s.setHashRec n r).ints = s.ints := by obtain ⟨_, _, h⟩ := setHashRec_shape s n r; rw [h]
@[simp] theorem State.setHashRec_cmi (s : State) (n : Nat) (r : HashRec) : (s.setHashRec n r).cmi = s.cmi := by obtain ⟨_, _, h⟩ := setHashRec_shape s n r; rw [h]
@[simp] theorem State.setHashRec_hdl (s : State) (n : Nat) (r : HashRec) : (s.setHashRec n r).hdl = s.hdl := by obtain ⟨_, _, h⟩ := setHashRec_shape s n r; rw [h]
@[simp] theorem State.setHashRec_com (s : State) (n : Nat) (r : HashRec) : (s.setHashRec n r).com = s.com := by obtain ⟨_, _, h⟩ := setHashRec_shape s n r; rw [h]
@[simp] theorem State.setHashRec_bal (s : State) (n : Nat) (r : HashRec) : (s.setHashRec n r).bal = s.bal := by obtain ⟨_, _, h⟩ := setHashRec_shape s n r; rw [h]
@[simp] theorem State.setHashRec_net (s : State) (n : Nat) (r : HashRec) : (s.setHashRec n r).net = s.net := by obtain ⟨_, _, h⟩ := setHashRec_shape s n r; rw [h]
@[simp] theorem State.setHashRec_fsp (s : State) (n : Nat) (r : HashRec) : (s.setHashRec n r).fsp = s.fsp := by obtain ⟨_, _, h⟩ := setHashRec_shape s n r; rw [h]
@[simp] theorem State.setHashRec_tier (s : State) (n : Nat) (r : HashRec) : (s.setHashRec n r).tier = s.tier := by obtain ⟨_, _, h⟩ := setHashRec_shape s n r; rw [h]
@[simp] theorem State.setHashRec_clk (s : State) (n : Nat) (r : HashRec) : (s.setHashRec n r).clk = s.clk := by obtain ⟨_, _, h⟩ := setHashRec_shape s n r; rw [h]
@[simp] theorem State.setHashRec_role (s : State) (n : Nat) (r : HashRec) : (s.setHashRec n r).role = s.role := by obtain ⟨_, _, h⟩ := setHashRec_shape s n r; rw [h]
@[simp] theorem State.setHashRec_roleShadow (s : State) (n : Nat) (r : HashRec) : (s.setHashRec n r).roleShadow = s.roleShadow := by obtain ⟨_, _, h⟩ := setHashRec_shape s n r; rw [h]
@[simp] theorem State.setHashRec_denied (s : State) (n : Nat) (r : HashRec) : (s.setHashRec n r).denied = s.denied := by obtain ⟨_, _, h⟩ := setHashRec_shape s n r; rw [h]
@[simp] theorem State.setHashRec_misformed (s : State) (n : Nat) (r : HashRec) : (s.setHashRec n r).misformed = s.misformed := by obtain ⟨_, _, h⟩ := setHashRec_shape s n r; rw [h]
@[simp] theorem State.setHashRec_blocked (s : State) (n : Nat) (r : HashRec) : (s.setHashRec n r).blocked = s.blocked := by obtain ⟨_, _, h⟩ := setHashRec_shape s n r; rw [h]
@[simp] theorem State.setHashRec_hrpOut (s : State) (n : Nat) (r : HashRec) : (s.setHashRec n r).hrpOut = s.hrpOut := by obtain ⟨_, _, h⟩ := setHashRec_shape s n r; rw [h]
@[simp] theorem State.setHashRec_fspOut (s : State) (n : Nat) (r : HashRec) : (s.setHashRec n r).fspOut = s.fspOut := by obtain ⟨_, _, h⟩ := setHashRec_shape s n r; rw [h]
@[simp] theorem State.setHashRec_tap (s : State) (n : Nat) (r : HashRec) : (s.setHashRec n r).tap = s.tap := by obtain ⟨_, _, h⟩ := setHashRec_shape s n r; rw [h]
@[simp] theorem State.setHashRec_pending (s : State) (n : Nat) (r : HashRec) : (s.setHashRec n r).pending = s.pending := by obtain ⟨_, _, h⟩ := setHashRec_shape s n r; rw [h]
@[simp] theorem State.setHashRec_entry (s : State) (n : Nat) (r : HashRec) (k : Nat) : (s.setHashRec n r).entry k = s.entry k := by simp [State.entry]
@[simp] theorem State.setHashRec_edgeAt (s : State) (n : Nat) (r : HashRec) (k : Nat) : (s.setHashRec n r).edgeAt k = s.edgeAt k := by simp [State.edgeAt]
@[simp] theorem State.setHashRec_homeAt (s : State) (n : Nat) (r : HashRec) (k : Nat) : (s.setHashRec n r).homeAt k = s.homeAt k := by simp [State.homeAt]
@[simp] theorem State.setHashRec_slotAt (s : State) (n : Nat) (r : HashRec) (k : Nat) : (s.setHashRec n r).slotAt k = s.slotAt k := by simp [State.slotAt]
@[simp] theorem State.setHashRec_ledger (s : State) (n : Nat) (r : HashRec) (k : Nat) : (s.setHashRec n r).ledger k = s.ledger k := by simp [State.ledger]
@[simp] theorem State.setHashRec_part (s : State) (n : Nat) (r : HashRec) (k : Nat) : (s.setHashRec n r).part k = s.part k := by simp [State.part]

end Sys2Proof.Machine
end

