-- ==== Sys2Proof/Laws/Effects.lean ====
section
/-! SUPPORT. What the shared operations that end things do, said once: a fault that ends the job, the cancel of a session, the end of a
stream. -/
namespace Sys2Proof.Machine
set_option Elab.async false

/-- The parts that the end of the tier's operations and the table's pass over a reset may change. -/
def resetParts : List Field := [.entries, .edge, .home, .slots, .ledgers, .mem, .img, .net, .tier]

theorem State.resetOps_framed (s : State) : Framed false resetParts s s.resetOps := by
  unfold State.resetOps
  dsimp only
  refine Framed.of_mk (s := s.tier.ops.foldl (fun s o => (s.freeOpPages o).endOp o) s) ?_ id ?_ ?_ ?_ ?_ ?_ ?_ ?_ ?_ ?_ ?_ ?_ ?_ ?_ ?_ ?_ ?_ ?_ ?_ (.inl rfl) ?_ ?_ ?_ ?_ ?_ ?_ ?_ ?_ ?_ <;>
    try exact .inr rfl
  exact Framed.foldl (fun t o h => State.endOp_framed rfl (State.freeOpPages_framed rfl h)) (Framed.refl s)

theorem State.resetEntries_framed {F : List Field} {z s : State} (hF : ([.entries, .edge, .home, .slots, .ledgers, .net] : List Field).all (F.contains ·) = true)
    (hz : Framed false F z s) : Framed false F z s.resetEntries := by
  unfold State.resetEntries
  refine Framed.foldl (fun t c h => ?_) hz
  dsimp only
  split
  · exact State.setEntry_framed (Framed.sub (G := [.entries, .edge, .home, .slots, .ledgers, .net]) rfl hF) h
  · split
    · exact h
    · exact State.freeEntry_framed (Framed.sub (G := [.entries, .edge, .home, .slots, .ledgers, .net]) rfl hF) h

/-- What a reset of job reach leaves: the log, the roles, the restarts on record and gate time, and memory where no operation of the tier ends. -/
theorem State.clearJob_leaves (s : State) : s.clearJob.trb = s.trb ∧ s.clearJob.role = s.role ∧ s.clearJob.com.restarts = s.com.restarts ∧
    s.clearJob.tm.t48 = s.tm.t48 ∧ s.clearJob.tm.refclk = s.tm.refclk ∧ s.clearJob.com.staged = none ∧ s.clearJob.img.force = none ∧
    (s.tier.ops = [] → s.clearJob.mem = s.mem) := by
  have h : Framed false resetParts s s.resetOps.resetEntries := State.resetEntries_framed rfl s.resetOps_framed
  have ht : s.tm = s.resetOps.resetEntries.tm := h.kept (f := .tm) (by decide)
  have hc : s.com = s.resetOps.resetEntries.com := h.kept (f := .com) (by decide)
  refine ⟨(h.kept (f := .trb) (by decide)).symm, (h.kept (f := .role) (by decide)).symm, ?_, ?_, ?_, rfl, rfl, fun ho => ?_⟩
  · show s.resetOps.resetEntries.com.restarts = _; rw [← hc]
  · show s.resetOps.resetEntries.tm.t48 = _; rw [← ht]
  · show s.resetOps.resetEntries.tm.refclk = _; rw [← ht]
  · have hm := (State.resetEntries_framed (F := [.entries, .edge, .home, .slots, .ledgers, .net]) rfl (Framed.refl s.resetOps)).kept (f := .mem) (by decide)
    show s.resetOps.resetEntries.mem = _
    rw [← show s.resetOps.mem = _ from hm]
    unfold State.resetOps; rw [ho]; rfl

/-- A bit set in a word stays set, and is set by its own index. -/
theorem bit_or_left {w v : Word} {n : Nat} (h : bit w n = true) : bit (w ||| v) n = true := by
  unfold bit at *; simp [BitVec.getLsbD_or, h]

theorem bit_word_pow {n : Nat} (h : n < 64) (w : Word) : bit (w ||| word (2 ^ n)) n = true := by
  simp only [bit, word, BitVec.getLsbD_or, BitVec.getLsbD_ofNat, Nat.testBit_two_pow_self, h, decide_true, Bool.and_self, Bool.or_true]

@[simp] theorem State.putRetained_sticky (s : State) (n : Nat) (w : Word) : (s.putRetained n w).trb.sticky = s.trb.sticky := rfl
@[simp] theorem State.setSticky_sticky (s : State) (b : Sticky) : (s.setSticky b).trb.sticky = s.trb.sticky ||| word (2 ^ b.idx) := rfl
@[simp] theorem State.logRepeat_sticky (s : State) (n : Nat) : (s.logRepeat n).trb.sticky = s.trb.sticky := rfl
@[simp] theorem State.logNew_sticky (s : State) (a b c : Word) : (s.logNew a b c).trb.sticky = s.trb.sticky := by
  unfold State.logNew; simp only [State.putRetained_sticky]

/-- The entry of a fault sets the bit JOB_FAULT and its cause's. -/
theorem State.faultEntry_sticky (s : State) (c : Cause) (o : Obj) (p : Option Nat) (d : Word) :
    (s.faultEntry c o p d).trb.sticky = s.trb.sticky ||| word (2 ^ 0) ||| word (2 ^ c.sticky.idx) := by
  unfold State.faultEntry
  dsimp only
  cases p <;> dsimp only <;> (try simp only [State.raise_trb]) <;> split <;> (try dsimp only) <;> simp only [State.logRepeat_sticky, State.logNew_sticky, State.setSticky_sticky, Sticky.idx]

/-- A fault that ends the job outside a reset. -/
theorem State.jobFault_ends {s : State} (c : Cause) (o : Obj) (p : Option Nat) (d : Word) (h : s.inReset = false) : JobEnds s (s.jobFault c o p d) c := by
  have ha : Framed false [.trb, .parts, .ints, .com, .net] s (s.announceFault c o p d) := State.announceFault_framed rfl (Framed.refl s)
  have hrs : s.rs = (s.announceFault c o p d).rs := ha.kept (f := .rs) (by decide)
  have htm : s.tm = (s.announceFault c o p d).tm := ha.kept (f := .tm) (by decide)
  have hmem : s.mem = (s.announceFault c o p d).mem := ha.kept (f := .mem) (by decide)
  have hro : s.role = (s.announceFault c o p d).role := ha.kept (f := .role) (by decide)
  have hti : s.tier = (s.announceFault c o p d).tier := ha.kept (f := .tier) (by decide)
  have hst : (s.announceFault c o p d).trb.sticky = s.trb.sticky ||| word (2 ^ 0) ||| word (2 ^ c.sticky.idx) := by
    rw [← State.faultEntry_sticky s c o p (if c = .host ∨ c = .localReset then restartDetail s.gate s.tick else d)]
    show (State.bcast _ _ _ _).trb.sticky = _
    have := (State.bcast_framed (F := [.net]) (rst := false) (typ := typRestart) (cls := 0) (payload := restartPayload s.gate s.tick c.code) rfl
      (Framed.refl (s.faultEntry c o p (if c = .host ∨ c = .localReset then restartDetail s.gate s.tick else d)))).kept (f := .trb) (by decide)
    rw [← show _ = _ from this]
  have hcom : (s.announceFault c o p d).com.restarts = s.com.restarts ++ [(s.gate, s.tick)] := by
    have := (State.bcast_framed (F := [.trb, .parts, .ints, .net]) (rst := false) (typ := typRestart) (cls := 0) (payload := restartPayload s.gate s.tick c.code) rfl
      (State.faultEntry_framed (c := c) (o := o) (part := p) (detail := if c = .host ∨ c = .localReset then restartDetail s.gate s.tick else d) rfl
        (Framed.refl s))).kept (f := .com) (by decide)
    show (State.bcast _ _ _ _).com.restarts ++ _ = _
    rw [← show _ = _ from this]
  show JobEnds s ((s.announceFault c o p d).assertReset .job _ 1) c
  generalize s.announceFault c o p d = a at *
  have hin : a.rs.reach = none := by
    have : s.rs.reach.isSome = false := h
    rw [← hrs]; cases hx : s.rs.reach <;> simp_all
  unfold State.assertReset
  rw [hin]
  dsimp only [State.clearFor]
  generalize hb : (State.dropOut _ Reach.job) = b
  have hd : Framed false [.rs] { a with rs := { a.rs with ctlIn := a.rs.ctl } } b := by rw [← hb]; exact State.dropOut_framed rfl (Framed.refl _)
  have e1 : a.trb = b.trb := hd.kept (f := .trb) (by decide)
  have e2 : a.role = b.role := hd.kept (f := .role) (by decide)
  have e3 : a.com = b.com := hd.kept (f := .com) (by decide)
  have e4 : a.tm = b.tm := hd.kept (f := .tm) (by decide)
  have e5 : a.mem = b.mem := hd.kept (f := .mem) (by decide)
  have e6 : a.tier = b.tier := hd.kept (f := .tier) (by decide)
  obtain ⟨k1, k2, k3, k4, k5, k6, k7, k8⟩ := b.clearJob_leaves
  generalize b.clearJob = j at *
  refine ⟨?_, ?_, ?_, ?_, ?_, ?_, ?_, ?_, ?_⟩
  · rfl
  · show a.tm.refclk + 1 = _; rw [htm]
  · show (2 ^ _ ||| _).testBit _ = true
    rw [Nat.testBit_or, Nat.testBit_two_pow_self]; rfl
  · show bit j.trb.sticky 0 = true
    rw [k1, ← e1, hst]; exact bit_or_left (bit_word_pow (by decide) _)
  · show bit j.trb.sticky _ = true
    rw [k1, ← e1, hst]; exact bit_word_pow (by cases c <;> decide) _
  · show j.com.restarts = _; rw [k3, ← e3, hcom]
  · exact k7
  · exact k6
  · refine ⟨?_, ?_, fun ho => ?_⟩
    · show j.tm.t48 = _; rw [k4, ← e4, htm]
    · show j.role = _; rw [k2, ← e2, hro]
    · show j.mem = _
      rw [k8 (by rw [← e6, ← hti]; exact ho), ← e5, hmem]

/-- What the operations that end work of a session leave of its entry: who it is and how far its stream has come. -/
structure Entry.Keeps (a b : Entry) : Prop where
  gen : b.gen = a.gen
  part : b.part = a.part
  home : b.home = a.home
  stream : b.length = a.length ∧ b.outCount = a.outCount ∧ b.stop = a.stop
  lane : b.outLane = a.outLane
  closing : a.state ≠ .closing → b.state ≠ .closing

theorem Entry.Keeps.refl (a : Entry) : Entry.Keeps a a := ⟨rfl, rfl, rfl, ⟨rfl, rfl, rfl⟩, rfl, id⟩

theorem Entry.Keeps.trans {a b c : Entry} (h : Entry.Keeps a b) (k : Entry.Keeps b c) : Entry.Keeps a c :=
  ⟨k.gen.trans h.gen, k.part.trans h.part, k.home.trans h.home,
    ⟨k.stream.1.trans h.stream.1, k.stream.2.1.trans h.stream.2.1, k.stream.2.2.trans h.stream.2.2⟩, k.lane.trans h.lane,
    fun x => k.closing (h.closing x)⟩

/-- `t` has the gate time of `s` and differs from it in no entry but the slot's, which stays the same session. -/
structure OnlySlot (slot : Nat) (s t : State) : Prop where
  tm : t.tm = s.tm
  kept : Entry.Keeps (s.entry slot) (t.entry slot)
  others : ∀ n, n ≠ slot → t.entry n = s.entry n

theorem OnlySlot.trans {slot : Nat} {r s t : State} (h : OnlySlot slot r s) (k : OnlySlot slot s t) : OnlySlot slot r t :=
  ⟨k.tm.trans h.tm, h.kept.trans k.kept, fun n hn => (k.others n hn).trans (h.others n hn)⟩

theorem OnlySlot.of_entries {slot : Nat} {s t : State} (h : t.entries = s.entries) (k : t.tm = s.tm) : OnlySlot slot s t := by
  have : ∀ n, t.entry n = s.entry n := fun n => by unfold State.entry; rw [h]
  exact ⟨k, by rw [this]; exact .refl _, fun n _ => this n⟩

theorem OnlySlot.refl {slot : Nat} {s : State} : OnlySlot slot s s := .of_entries rfl rfl

/-- One more operation, which changes neither the table nor gate time. -/
theorem OnlySlot.framed {F : List Field} {slot : Nat} {r s t : State} (h : OnlySlot slot r s) (k : Framed false F s t)
    (hF : (F.contains .entries || F.contains .tm) = false) : OnlySlot slot r t := by
  simp only [Bool.or_eq_false_iff, List.contains_eq_mem, decide_eq_false_iff_not] at hF
  exact h.trans (.of_entries (k.kept (f := .entries) hF.1).symm (k.kept (f := .tm) hF.2).symm)

theorem OnlySlot.setEntry {slot : Nat} {r s : State} {e : Entry} (h : OnlySlot slot r s) (he : Entry.Keeps (s.entry slot) e) :
    OnlySlot slot r (s.setEntry slot e) :=
  h.trans ⟨(State.setEntry_framed (F := [.entries, .net]) (rst := false) rfl (Framed.refl s)).kept (f := .tm) (by decide) |>.symm,
    by simpa using he, fun n hn => by rw [State.setEntry_entry_ne s _ hn]⟩

theorem OnlySlot.endPendWith {slot : Nat} {r s : State} (h : OnlySlot slot r s) (st : Status) (ws : List Word) : OnlySlot slot r (s.endPendWith slot st ws) := by
  unfold State.endPendWith
  dsimp only
  split
  · exact h
  · refine OnlySlot.framed (F := [.cmi, .net, .hrpOut]) ?_ (State.reply_framed rfl (Framed.refl _)) rfl
    exact (h.setEntry (e := { s.entry slot with pendOp := 0, pendTag := 0, pendSmp := false }) ⟨rfl, rfl, rfl, ⟨rfl, rfl, rfl⟩, rfl, id⟩).trans (.of_entries rfl rfl)

theorem OnlySlot.freeCopy {slot : Nat} {r s : State} (h : OnlySlot slot r s) : OnlySlot slot r (s.freeCopy slot) := by
  unfold State.freeCopy
  dsimp only
  split
  · exact (h.framed (State.freeSlice_framed (F := [.ledgers, .net, .tier]) rfl (Framed.refl s)) rfl).setEntry ⟨rfl, rfl, rfl, ⟨rfl, rfl, rfl⟩, rfl, id⟩
  · exact h.setEntry ⟨rfl, rfl, rfl, ⟨rfl, rfl, rfl⟩, rfl, id⟩

/-- A session cancelled on this gate alone. -/
theorem State.cancelLocal_cancels {s : State} (slot : Nat) (c : Cancel) (h1 : (s.entry slot).state ≠ .free) (h2 : (s.entry slot).state ≠ .cancelled) :
    Cancels s (s.cancelLocal slot c) slot c := by
  unfold State.cancelLocal
  simp only [h1, h2, or_self, if_false]
  generalize hz : (if (s.entry slot).edge = true then _ else _ : State) = z
  have hs : OnlySlot slot s z := by
    rw [← hz]
    have a : OnlySlot slot s (((s.homeAt slot).feeds.filter (fun f => f.issuer.src.isSome)).foldl (fun s f => s.answer f.issuer .noSession)
        ((s.endPend slot .noSession).dropOps slot)) :=
      ((OnlySlot.refl.endPendWith .noSession []).framed (State.dropOps_framed (F := [.ledgers, .mem, .img, .net, .fsp, .tier]) rfl (Framed.refl _)) rfl).framed
        (Framed.foldl (F := [.cmi, .net, .hrpOut]) (fun t f h => State.answer_framed rfl h) (Framed.refl _)) rfl
    generalize (((s.homeAt slot).feeds.filter (fun f => f.issuer.src.isSome)).foldl (fun s f => s.answer f.issuer .noSession)
        ((s.endPend slot .noSession).dropOps slot)) = y at *
    have d : OnlySlot slot s (match (s.homeAt slot).closeFor with | some i => y.answer i .noSession | none => y) := by
      split
      · exact a.framed (State.answer_framed (F := [.cmi, .net, .hrpOut]) rfl (Framed.refl _)) rfl
      · exact a
    split
    · exact d.freeCopy.framed (State.control_framed (F := [.slots, .fsp, .hrpOut]) rfl (Framed.refl _)) rfl
    · exact d.freeCopy
  clear hz
  have key : ∀ (w : State) (e : Entry), w.entries = (z.setEntry slot e).entries → e.state = .cancelled → e.endReason = c.code →
      e.gen = (z.entry slot).gen → w.edgeAt slot = EdgeAux.zero → w.homeAt slot = HomeAux.zero → (w.slotAt slot).cancelTick = s.tick →
      Cancels s w slot c := by
    intro w e h3 e1 e2 e3 h4 h5 h6
    have h7 : ∀ n, w.entry n = (z.setEntry slot e).entry n := fun n => congrArg (sget Entry.zero · n) h3
    refine ⟨?_, ?_, ?_, ⟨h4, h5⟩, h6, fun n hn => ?_⟩
    · rw [h7]; simp [e1]
    · rw [h7]; simp [e2]
    · rw [h7]; simpa [e3] using hs.kept.gen
    · rw [h7, State.setEntry_entry_ne z _ hn, hs.others n hn]
  split <;> refine key _ { z.entry slot with state := .cancelled, endReason := c.code, ckpt := 0, ckptValid := false, chains := 0 } ?_ rfl rfl rfl ?_ ?_ ?_ <;> simp

/-- A session cancelled here, and the other gates told. -/
theorem State.cancelAll_cancels {s : State} (slot : Nat) (c : Cancel) (h1 : (s.entry slot).state ≠ .free) (h2 : (s.entry slot).state ≠ .cancelled) :
    Cancels s (s.cancelAll slot c) slot c := by
  have h := State.cancelLocal_cancels slot c h1 h2
  unfold State.cancelAll
  simp only [h1, h2, or_self, if_false]
  have key : ∀ w : State, Framed false [.net] (s.cancelLocal slot c) w → Cancels s w slot c := by
    intro w hw
    have e1 : ∀ n, w.entry n = _ := fun n => congrArg (sget Entry.zero · n) (hw.kept (f := .entries) (by decide)).symm
    have e2 : w.edgeAt slot = _ := congrArg (sget EdgeAux.zero · slot) (hw.kept (f := .edge) (by decide)).symm
    have e3 : w.homeAt slot = _ := congrArg (sget HomeAux.zero · slot) (hw.kept (f := .home) (by decide)).symm
    have e4 : w.slotAt slot = _ := congrArg (sget SlotAux.zero · slot) (hw.kept (f := .slots) (by decide)).symm
    exact ⟨by rw [e1]; exact h.state, by rw [e1]; exact h.reason, by rw [e1]; exact h.gen, ⟨e2.trans h.working.1, e3.trans h.working.2⟩,
      by rw [e4]; exact h.tick, fun n hn => by rw [e1]; exact h.others n hn⟩
  split
  · exact key _ (State.bcast_framed rfl (Framed.refl _))
  · exact key _ (State.sendTo_framed rfl (Framed.refl _))

theorem OnlySlot.closeOut {slot : Nat} {r s : State} (h : OnlySlot slot r s) : OnlySlot slot r (s.closeOut slot) := by
  unfold State.closeOut
  dsimp only
  split
  · exact h
  · refine OnlySlot.setEntry (s := s.putMem _ _) (h.framed (State.putMem_framed (F := [.mem, .img]) rfl (Framed.refl s)) rfl) ?_
    exact ⟨rfl, rfl, rfl, ⟨rfl, rfl, rfl⟩, rfl, id⟩

theorem OnlySlot.readOut {slot : Nat} {r s : State} (h : OnlySlot slot r s) : OnlySlot slot r (s.readOut slot) :=
  h.setEntry ⟨rfl, rfl, rfl, ⟨rfl, rfl, rfl⟩, rfl, id⟩

theorem OnlySlot.setOut {slot : Nat} {r s : State} (h : OnlySlot slot r s) (d : RingD) : OnlySlot slot r (s.setEntry slot { s.entry slot with outRing := d }) :=
  h.setEntry ⟨rfl, rfl, rfl, ⟨rfl, rfl, rfl⟩, rfl, id⟩

theorem OnlySlot.resolveOut {slot : Nat} {r s : State} (h : OnlySlot slot r s) : OnlySlot slot r (s.resolveOut slot) := by
  unfold State.resolveOut
  extract_lets e base r1 r2
  split
  · exact (h.setOut r1).framed (State.fifoRefusal_framed (F := [.fsp]) rfl (Framed.refl _)) rfl
  · exact h.setOut _

theorem OnlySlot.endStepRing {slot : Nat} {r s : State} (h : OnlySlot slot r s) : OnlySlot slot r (s.endStepRing slot) := h.closeOut.readOut.resolveOut

theorem Sess.settled_ne {x : Sess} (h : x ≠ .closing) : (if x = .speculating then .live else x) ≠ Sess.closing := by
  split
  · decide
  · exact h

theorem OnlySlot.closeStep {slot : Nat} {r s : State} (h : OnlySlot slot r s) : OnlySlot slot r (s.closeStep slot) := by
  unfold State.closeStep
  extract_lets x s1 e s2
  have h1 : OnlySlot slot r s1 := h.endStepRing
  clear_value s1
  have h2 : OnlySlot slot r s2 := h1.setEntry ⟨rfl, rfl, rfl, ⟨rfl, rfl, rfl⟩, rfl, Sess.settled_ne⟩
  clear_value s2
  exact h2.trans (.of_entries rfl rfl)

theorem OnlySlot.countRejected {slot : Nat} {r s : State} (h : OnlySlot slot r s) (n : Nat) : OnlySlot slot r (s.countRejected slot n) :=
  h.setEntry ⟨rfl, rfl, rfl, ⟨rfl, rfl, rfl⟩, rfl, id⟩

/-- The step of drafts closed: its drafts are gone, its words leave the ring. -/
theorem OnlySlot.rejectDrafts {slot : Nat} {r s : State} (h : OnlySlot slot r s) : OnlySlot slot r (s.rejectDrafts slot) := by
  unfold State.rejectDrafts
  extract_lets x
  split
  · exact h.closeStep.countRejected _
  · exact h

theorem State.rejectDrafts_mark (s : State) (slot : Nat) : ((s.rejectDrafts slot).edgeAt slot).mark = false := by
  unfold State.rejectDrafts
  dsimp only
  split
  · unfold State.countRejected State.closeStep; simp
  · exact Bool.eq_false_iff.2 ‹_›

theorem OnlySlot.homeDropDrafts {slot : Nat} {r s : State} (h : OnlySlot slot r s) : OnlySlot slot r (s.homeDropDrafts slot) := by
  unfold State.homeDropDrafts
  extract_lets z e k w h1
  have hs : OnlySlot slot r z := by
    show OnlySlot slot r (if _ then _ else _)
    split
    · exact h.endStepRing
    · exact h
  split
  · exact hs.trans (.of_entries rfl rfl)
  · exact (hs.setEntry (e := { e with ckpt := 0, ckptValid := false, state := if e.state = .speculating then .live else e.state })
      ⟨rfl, rfl, rfl, ⟨rfl, rfl, rfl⟩, rfl, Sess.settled_ne⟩).trans (.of_entries rfl rfl)

/-- What a stream's end writes into the entry and the words it sends stand in any state with the same table, edge and words sent. -/
theorem StreamEnds.of_same {s s' t t' : State} {slot : Nat} {r : Stop} {length out : Nat} (h : StreamEnds s t slot r length out)
    (h1 : s'.entries = s.entries) (h2 : s'.hrpOut = s.hrpOut) (k1 : t'.entries = t.entries) (k2 : t'.edge = t.edge) (k3 : t'.hrpOut = t.hrpOut) :
    StreamEnds s' t' slot r length out := by
  have e1 : ∀ n, s'.entry n = s.entry n := fun n => congrArg (sget Entry.zero · n) h1
  have e2 : ∀ n, t'.entry n = t.entry n := fun n => congrArg (sget Entry.zero · n) k1
  have e3 : t'.edgeAt slot = t.edgeAt slot := congrArg (sget EdgeAux.zero · slot) k2
  exact ⟨by rw [e3]; exact h.turn, by rw [e2]; exact h.stop, by rw [e2]; exact h.lengthIs, by rw [e2]; exact h.outIs,
    by rw [k3, h2, e1]; exact h.word, fun n hn => by rw [e1, e2]; exact h.others n hn⟩

/-- The home told of a stream's end outside a close. -/
theorem State.homeStreamEnd_ends (s : State) (slot length old : Nat) (r : Stop) (hc : (s.entry slot).state ≠ .closing) :
    ((s.homeStreamEnd slot length r old).entry slot).stop = r ∧ ((s.homeStreamEnd slot length r old).entry slot).length = length ∧
    ((s.homeStreamEnd slot length r old).entry slot).outCount = (s.entry slot).outCount - ((s.entry slot).length - length) ∧
    (∀ n, n ≠ slot → (s.homeStreamEnd slot length r old).entry n = s.entry n) ∧ (s.homeStreamEnd slot length r old).edge = s.edge ∧
    (s.homeStreamEnd slot length r old).hrpOut = s.hrpOut := by
  unfold State.homeStreamEnd
  extract_lets s0 s1 e h s2 h1 s3
  have f0 : Framed false [.mem, .img] s s0 := by
    show Framed false _ s (if _ then _ else _)
    split
    · exact State.breakRec_framed rfl (Framed.refl s)
    · exact Framed.refl s
  have k1 : OnlySlot slot s s1 := (OnlySlot.refl.framed f0 rfl).homeDropDrafts
  have f1 : Framed false [.entries, .home, .mem, .img, .net, .fsp] s s1 := State.homeDropDrafts_framed rfl (f0.mono rfl)
  have f3 : Framed false [.entries, .home, .mem, .img, .net, .fsp] s s3 :=
    State.setHome_framed rfl (State.setEntry_framed rfl f1)
  have e3 : s3.entry slot = { e with length := length, outCount := e.outCount - (e.length - length), stop := r } := by simp [s3, s2]
  rw [if_neg (k1.kept.closing hc)]
  refine ⟨by rw [e3], by rw [e3], ?_, fun n hn => ?_, (f3.kept (f := .edge) (by decide)).symm, (f3.kept (f := .hrpOut) (by decide)).symm⟩
  · rw [e3]; dsimp only; rw [k1.kept.stream.1, k1.kept.stream.2.1]
  · rw [← k1.others n hn, ← State.setEntry_entry_ne s1 { e with length := length, outCount := e.outCount - (e.length - length), stop := r } hn]; rfl

/-- A stream that ends outside a close. -/
theorem State.endStreamTo_ends {s : State} (slot : Nat) (r : Stop) (length out : Nat) (hc : (s.entry slot).state ≠ .closing) :
    StreamEnds s (s.endStreamTo slot r length out) slot r length out := by
  unfold State.endStreamTo
  extract_lets s1 e s2 x s3 s4 s5 s6
  have h1 : OnlySlot slot s s1 := OnlySlot.refl.rejectDrafts
  have hm : (s1.edgeAt slot).mark = false := s.rejectDrafts_mark slot
  have ho1 : s.hrpOut = s1.hrpOut := (State.rejectDrafts_framed (F := [.entries, .edge, .mem, .img, .net, .fsp]) (rst := false) rfl (Framed.refl s)).kept (f := .hrpOut) (by decide)
  have he2 : s3.entry slot = { e with stop := r, length := length, outCount := out } := by simp [s3, s2]
  have hn2 : ∀ n, n ≠ slot → s3.entry n = s.entry n := fun n hn => by
    rw [← h1.others n hn, ← State.setEntry_entry_ne s1 { e with stop := r, length := length, outCount := out } hn]; rfl
  have hx2 : (s3.edgeAt slot).turnOpen = false ∧ (s3.edgeAt slot).held = [] ∧ (s3.edgeAt slot).mark = false := by
    have : (s2.edgeAt slot).mark = false := by simpa [s2] using hm
    simp [s3, x, this]
  have ho2 : s3.hrpOut = s.hrpOut := by rw [ho1]; simp [s3, s2]
  have hf4 : Framed false [.slots, .fsp, .hrpOut] s3 s4 := State.control_framed rfl (Framed.refl _)
  have hw : ∃ o : HrpOut, s4.hrpOut = s.hrpOut ++ [o] ∧ o.vc = 0 ∧ o.part = e.part ∧ o.words.getLast? = some (streamEndWord slot e.gen length r) := by
    have hq : (s3.tell slot [streamEndWord slot e.gen length r]).hrpOut = s4.hrpOut :=
      (State.queueControl_framed (F := [.fsp]) (rst := false) (l := (s3.entry slot).outLane) (w := streamEndWord slot e.gen length r) rfl (Framed.refl _)).kept (f := .hrpOut) (by decide)
    rw [← hq]
    refine ⟨_, by rw [← ho2]; rfl, rfl, ?_, by simp⟩
    show (s3.entry slot).part = _; rw [he2]
  have hf5 : Framed false [.slots, .fsp, .hrpOut, .parts, .ints] s3 s5 := by
    show Framed false _ s3 (if _ then _ else _)
    split
    · exact State.raise_framed rfl (hf4.mono rfl)
    · exact hf4.mono rfl
  have ho5 : s5.hrpOut = s4.hrpOut := by
    show (if _ then _ else _ : State).hrpOut = _
    split
    · simp
    · rfl
  clear_value s5
  have key : ∀ t : State, t.entries = s5.entries → t.edge = s5.edge → t.hrpOut = s5.hrpOut → StreamEnds s t slot r length out := by
    intro t k1 k2 k3
    have e2 : ∀ n, t.entry n = s3.entry n := fun n => congrArg (sget Entry.zero · n) (k1.trans (hf5.kept (f := .entries) (by decide)).symm)
    have e3 : t.edgeAt slot = s3.edgeAt slot := congrArg (sget EdgeAux.zero · slot) (k2.trans (hf5.kept (f := .edge) (by decide)).symm)
    refine ⟨by rw [e3]; exact hx2, by rw [e2, he2], by rw [e2, he2], by rw [e2, he2], ?_, fun n hn => by rw [e2, hn2 n hn]⟩
    rw [k3, ho5, ← h1.kept.part, ← h1.kept.gen]; exact hw
  have hcl : e.state ≠ .closing := h1.kept.closing hc
  have e5 : ∀ n, s5.entry n = s3.entry n := fun n => congrArg (sget Entry.zero · n) (hf5.kept (f := .entries) (by decide)).symm
  split
  · obtain ⟨a, b, d, f, g, h⟩ := State.homeStreamEnd_ends s5 slot length e.length r (by rw [e5, he2]; exact hcl)
    have e3 : (s5.homeStreamEnd slot length r e.length).edgeAt slot = s3.edgeAt slot :=
      congrArg (sget EdgeAux.zero · slot) (g.trans (hf5.kept (f := .edge) (by decide)).symm)
    refine ⟨by rw [e3]; exact hx2, a, b, by rw [d, e5, he2]; simp, ?_, fun n hn => by rw [f n hn, e5, hn2 n hn]⟩
    rw [h, ho5, ← h1.kept.part, ← h1.kept.gen]; exact hw
  · have := State.sendTo_framed (F := [.net]) (rst := false) (typ := typStreamEnd) (dst := e.homeGate) (cls := 3) (payload := streamEndPayload (s.handle slot) length r) rfl (Framed.refl s5)
    exact key _ (this.kept (f := .entries) (by decide)).symm (this.kept (f := .edge) (by decide)).symm (this.kept (f := .hrpOut) (by decide)).symm

end Sys2Proof.Machine
end

