-- ==== Sys2Proof/Laws/FramedSsm.lean ====
section
/-! SUPPORT. Shared screening memory: the parts of the state that each operation may change, one lemma for each. -/
namespace Sys2Proof.Machine
set_option Elab.async false

theorem State.ssmCorrect_framed {rst : Bool} {F : List Field} {z s : State} {row : Nat} (hF : ([.trb, .img] : List Field).all (F.contains ·) = true) (hz : Framed rst F z s) : Framed rst F z (State.ssmCorrect s row) := by
  unfold State.ssmCorrect
  try dsimp only
  repeat' first
    | with_reducible assumption
    | (with_reducible apply Or.inr; with_reducible rfl)
    | ((with_reducible apply Or.inl); exact Framed.mem hF rfl)
    | ((with_reducible apply Framed.sub (G := [.trb, .img]) ?_ hF); rfl)
    | with_reducible apply State.ceSsm_framed
    | split
    | (refine Framed.of_mk ?_ (fun h => h) ?_ ?_ ?_ ?_ ?_ ?_ ?_ ?_ ?_ ?_ ?_ ?_ ?_ ?_ ?_ ?_ ?_ ?_ ?_ ?_ ?_ ?_ ?_ ?_ ?_ ?_ ?_ ?_)

theorem State.ssmUe_framed {F : List Field} {z s : State} {row : Nat} (hF : ([.trb, .entries, .edge, .home, .slots, .ledgers, .parts, .ints, .cmi, .mem, .img, .net, .fsp, .tier, .hrpOut] : List Field).all (F.contains ·) = true) (hz : Framed true F z s) : Framed true F z (State.ssmUe s row) := by
  unfold State.ssmUe
  try dsimp only
  repeat' first
    | with_reducible assumption
    | (with_reducible apply Or.inr; with_reducible rfl)
    | ((with_reducible apply Or.inl); exact Framed.mem hF rfl)
    | ((with_reducible apply Framed.sub (G := [.trb, .entries, .edge, .home, .slots, .ledgers, .parts, .ints, .cmi, .mem, .img, .net, .fsp, .tier, .hrpOut]) ?_ hF); rfl)
    | with_reducible apply State.supersede_framed
    | with_reducible apply State.ueSsm_framed
    | with_reducible apply State.zeroMem_framed
    | with_reducible apply State.trouble_framed
    | with_reducible apply State.cancelAll_framed
    | with_reducible apply State.jobFault_framed
    | split

theorem State.unitBad_framed {rst : Bool} {F : List Field} {z s : State} {slot : Nat} (hF : ([.trb, .entries, .edge, .home, .slots, .ledgers, .parts, .ints, .cmi, .mem, .img, .net, .fsp, .tier, .hrpOut] : List Field).all (F.contains ·) = true) (hz : Framed rst F z s) : Framed rst F z (State.unitBad s slot) := by
  unfold State.unitBad
  try dsimp only
  repeat' first
    | with_reducible assumption
    | (with_reducible apply Or.inr; with_reducible rfl)
    | ((with_reducible apply Or.inl); exact Framed.mem hF rfl)
    | ((with_reducible apply Framed.sub (G := [.trb, .entries, .edge, .home, .slots, .ledgers, .parts, .ints, .cmi, .mem, .img, .net, .fsp, .tier, .hrpOut]) ?_ hF); rfl)
    | with_reducible apply State.cancelAll_framed
    | with_reducible apply State.trouble_framed
    | split

theorem State.itemCheck_framed {F : List Field} {z s : State} {slot : Nat} {a2 : ItemFind} (hF : ([.trb, .entries, .edge, .home, .slots, .ledgers, .parts, .ints, .cmi, .mem, .img, .net, .fsp, .tier, .hrpOut] : List Field).all (F.contains ·) = true) (hz : Framed true F z s) : Framed true F z (State.itemCheck s slot a2) := by
  unfold State.itemCheck
  try dsimp only
  repeat' first
    | with_reducible assumption
    | (with_reducible apply Or.inr; with_reducible rfl)
    | ((with_reducible apply Or.inl); exact Framed.mem hF rfl)
    | ((with_reducible apply Framed.sub (G := [.trb, .entries, .edge, .home, .slots, .ledgers, .parts, .ints, .cmi, .mem, .img, .net, .fsp, .tier, .hrpOut]) ?_ hF); rfl)
    | with_reducible apply State.ssmCorrect_framed
    | with_reducible apply State.ssmUe_framed
    | with_reducible apply State.ceUnit_framed
    | with_reducible apply State.unitBad_framed
    | with_reducible apply State.jobFault_framed
    | split

end Sys2Proof.Machine
end

