-- ==== Sys2Proof/Laws/FramedScreen.lean ====
section
/-! SUPPORT. Screening: the parts of the state that each operation may change, one lemma for each. -/
namespace Sys2Proof.Machine
set_option Elab.async false

theorem State.edgeVerdict_framed {rst : Bool} {F : List Field} {z s : State} {slot : Nat} {w : Word} (hF : ([.edge, .parts] : List Field).all (F.contains ·) = true) (hz : Framed rst F z s) : Framed rst F z (State.edgeVerdict s slot w) := by
  unfold State.edgeVerdict
  try dsimp only
  repeat' first
    | with_reducible assumption
    | (with_reducible apply Or.inr; with_reducible rfl)
    | ((with_reducible apply Or.inl); exact Framed.mem hF rfl)
    | ((with_reducible apply Framed.sub (G := [.edge, .parts]) ?_ hF); rfl)
    | with_reducible apply State.stateDrop_framed
    | with_reducible apply State.setEdge_framed
    | split

theorem State.noteAnomalies_framed {rst : Bool} {F : List Field} {z s : State} {slot : Nat} {nan : Bool} {degraded : Bool} (hF : ([.trb, .parts] : List Field).all (F.contains ·) = true) (hz : Framed rst F z s) : Framed rst F z (State.noteAnomalies s slot nan degraded) := by
  unfold State.noteAnomalies
  try dsimp only
  repeat' first
    | with_reducible assumption
    | (with_reducible apply Or.inr; with_reducible rfl)
    | ((with_reducible apply Or.inl); exact Framed.mem hF rfl)
    | ((with_reducible apply Framed.sub (G := [.trb, .parts]) ?_ hF); rfl)
    | with_reducible apply State.setSticky_framed
    | with_reducible apply State.setPart_framed
    | split

theorem State.sendVerdict_framed {rst : Bool} {F : List Field} {z s : State} {slot : Nat} {v : Verdict} (hF : ([.trb, .edge, .parts, .net] : List Field).all (F.contains ·) = true) (hz : Framed rst F z s) : Framed rst F z (State.sendVerdict s slot v) := by
  unfold State.sendVerdict
  try dsimp only
  repeat' first
    | with_reducible assumption
    | (with_reducible apply Or.inr; with_reducible rfl)
    | ((with_reducible apply Or.inl); exact Framed.mem hF rfl)
    | ((with_reducible apply Framed.sub (G := [.trb, .edge, .parts, .net]) ?_ hF); rfl)
    | with_reducible apply State.noteAnomalies_framed
    | with_reducible apply State.edgeVerdict_framed
    | with_reducible apply State.sendTo_framed
    | split

theorem State.edgeStep_framed {rst : Bool} {F : List Field} {z s : State} {slot : Nat} {ckpt : Bool} (hF : ([.entries, .edge, .net] : List Field).all (F.contains ·) = true) (hz : Framed rst F z s) : Framed rst F z (State.edgeStep s slot ckpt) := by
  unfold State.edgeStep
  try dsimp only
  repeat' first
    | with_reducible assumption
    | (with_reducible apply Or.inr; with_reducible rfl)
    | ((with_reducible apply Or.inl); exact Framed.mem hF rfl)
    | ((with_reducible apply Framed.sub (G := [.entries, .edge, .net]) ?_ hF); rfl)
    | with_reducible apply State.setEdge_framed
    | with_reducible apply State.setEntry_framed
    | split

theorem State.decideStep_framed {rst : Bool} {F : List Field} {z s : State} {slot : Nat} (hF : ([.entries, .edge, .home, .net] : List Field).all (F.contains ·) = true) (hz : Framed rst F z s) : Framed rst F z (State.decideStep s slot) := by
  unfold State.decideStep
  try dsimp only
  repeat' first
    | with_reducible assumption
    | (with_reducible apply Or.inr; with_reducible rfl)
    | ((with_reducible apply Or.inl); exact Framed.mem hF rfl)
    | ((with_reducible apply Framed.sub (G := [.entries, .edge, .home, .net]) ?_ hF); rfl)
    | with_reducible apply State.setHome_framed
    | with_reducible apply State.setEntry_framed
    | with_reducible apply State.edgeStep_framed
    | with_reducible apply State.sendTo_framed
    | split

theorem State.pushWork_framed {rst : Bool} {F : List Field} {z s : State} {slot : Nat} {w : Work} (hF : ([.home] : List Field).all (F.contains ·) = true) (hz : Framed rst F z s) : Framed rst F z (State.pushWork s slot w) := by
  unfold State.pushWork
  try dsimp only
  repeat' first
    | with_reducible assumption
    | (with_reducible apply Or.inr; with_reducible rfl)
    | ((with_reducible apply Or.inl); exact Framed.mem hF rfl)
    | ((with_reducible apply Framed.sub (G := [.home]) ?_ hF); rfl)
    | with_reducible apply State.setHome_framed
    | split

theorem State.sendTurn_framed {rst : Bool} {F : List Field} {z s : State} {slot : Nat} {no : Nat} {pos : Nat} (hF : ([.trb, .edge, .home, .parts, .net] : List Field).all (F.contains ·) = true) (hz : Framed rst F z s) : Framed rst F z (State.sendTurn s slot no pos) := by
  unfold State.sendTurn
  try dsimp only
  repeat' first
    | with_reducible assumption
    | (with_reducible apply Or.inr; with_reducible rfl)
    | ((with_reducible apply Or.inl); exact Framed.mem hF rfl)
    | ((with_reducible apply Framed.sub (G := [.trb, .edge, .home, .parts, .net]) ?_ hF); rfl)
    | with_reducible apply State.sendVerdict_framed
    | with_reducible apply State.setHome_framed
    | split

theorem State.settleHome_framed {rst : Bool} {F : List Field} {z : State} {slot : Nat} (hF : ([.trb, .entries, .edge, .home, .parts, .net] : List Field).all (F.contains ·) = true) :
    ∀ {n : Nat} {s : State}, Framed rst F z s → Framed rst F z (State.settleHome n s slot)
  | 0, _, hz => hz
  | n + 1, s, hz => by
    unfold State.settleHome
    dsimp only
    repeat' first
      | with_reducible assumption
      | with_reducible apply (State.settleHome_framed hF)
      | with_reducible apply State.setHome_framed
      | with_reducible apply State.setEntry_framed
      | with_reducible apply State.sendTurn_framed
      | with_reducible apply State.decideStep_framed
      | ((with_reducible apply Framed.sub (G := [.trb, .entries, .edge, .home, .parts, .net]) ?_ hF); rfl)
      | split

theorem State.settle_framed {rst : Bool} {F : List Field} {z s : State} {slot : Nat} (hF : ([.trb, .entries, .edge, .home, .parts, .net] : List Field).all (F.contains ·) = true) (hz : Framed rst F z s) : Framed rst F z (State.settle s slot) := by
  unfold State.settle
  try dsimp only
  repeat' first
    | with_reducible assumption
    | (with_reducible apply Or.inr; with_reducible rfl)
    | ((with_reducible apply Or.inl); exact Framed.mem hF rfl)
    | ((with_reducible apply Framed.sub (G := [.trb, .entries, .edge, .home, .parts, .net]) ?_ hF); rfl)
    | with_reducible apply State.settleHome_framed
    | split

theorem State.hashToken_framed {rst : Bool} {F : List Field} {z s : State} {slot : Nat} {tok : Nat} (hF : ([.home, .mem, .img] : List Field).all (F.contains ·) = true) (hz : Framed rst F z s) : Framed rst F z (State.hashToken s slot tok) := by
  unfold State.hashToken
  try dsimp only
  repeat' first
    | with_reducible assumption
    | (with_reducible apply Or.inr; with_reducible rfl)
    | ((with_reducible apply Or.inl); exact Framed.mem hF rfl)
    | ((with_reducible apply Framed.sub (G := [.home, .mem, .img]) ?_ hF); rfl)
    | with_reducible apply State.setHome_framed
    | with_reducible apply State.setHashRec_framed
    | split

theorem State.homeToken_framed {rst : Bool} {F : List Field} {z s : State} {slot : Nat} {pos : Nat} {tok : Nat} {outBefore : Nat} {image : Nat} {stamp : Nat} (hF : ([.trb, .entries, .edge, .home, .parts, .mem, .img, .net] : List Field).all (F.contains ·) = true) (hz : Framed rst F z s) : Framed rst F z (State.homeToken s slot pos tok outBefore image stamp) := by
  unfold State.homeToken
  try dsimp only
  repeat' first
    | with_reducible assumption
    | (with_reducible apply Or.inr; with_reducible rfl)
    | ((with_reducible apply Or.inl); exact Framed.mem hF rfl)
    | ((with_reducible apply Framed.sub (G := [.trb, .entries, .edge, .home, .parts, .mem, .img, .net]) ?_ hF); rfl)
    | with_reducible apply State.settle_framed
    | with_reducible apply State.pushWork_framed
    | with_reducible apply State.hashToken_framed
    | split

theorem State.homeDraft_framed {rst : Bool} {F : List Field} {z s : State} {slot : Nat} {chain : Nat} {depth : Nat} {tok : Nat} {image : Nat} {stamp : Nat} {whole : Bool} (hF : ([.trb, .entries, .edge, .home, .parts, .net] : List Field).all (F.contains ·) = true) (hz : Framed rst F z s) : Framed rst F z (State.homeDraft s slot chain depth tok image stamp whole) := by
  unfold State.homeDraft
  try dsimp only
  repeat' first
    | with_reducible assumption
    | (with_reducible apply Or.inr; with_reducible rfl)
    | ((with_reducible apply Or.inl); exact Framed.mem hF rfl)
    | ((with_reducible apply Framed.sub (G := [.trb, .entries, .edge, .home, .parts, .net]) ?_ hF); rfl)
    | with_reducible apply State.setHome_framed
    | with_reducible apply State.settle_framed
    | split

theorem State.homeResolve_framed {rst : Bool} {F : List Field} {z s : State} {slot : Nat} {chain : Nat} {n : Nat} {pos : Nat} {outBefore : Nat} {image : Nat} {stamp : Nat} (hF : ([.trb, .entries, .edge, .home, .parts, .mem, .img, .net] : List Field).all (F.contains ·) = true) (hz : Framed rst F z s) : Framed rst F z (State.homeResolve s slot chain n pos outBefore image stamp) := by
  unfold State.homeResolve
  try dsimp only
  repeat' first
    | with_reducible assumption
    | (with_reducible apply Or.inr; with_reducible rfl)
    | ((with_reducible apply Or.inl); exact Framed.mem hF rfl)
    | ((with_reducible apply Framed.sub (G := [.trb, .entries, .edge, .home, .parts, .mem, .img, .net]) ?_ hF); rfl)
    | with_reducible apply State.setHome_framed
    | with_reducible apply State.hashToken_framed
    | with_reducible apply State.settle_framed
    | with_reducible apply State.pushWork_framed
    | split
    | (refine Framed.foldl (fun _ _ _ => ?_) ?_)

theorem State.beginTurn_framed {rst : Bool} {F : List Field} {z s : State} {slot : Nat} {pos : Nat} {image : Nat} (hF : ([.home] : List Field).all (F.contains ·) = true) (hz : Framed rst F z s) : Framed rst F z (State.beginTurn s slot pos image) := by
  unfold State.beginTurn
  try dsimp only
  repeat' first
    | with_reducible assumption
    | (with_reducible apply Or.inr; with_reducible rfl)
    | ((with_reducible apply Or.inl); exact Framed.mem hF rfl)
    | ((with_reducible apply Framed.sub (G := [.home]) ?_ hF); rfl)
    | with_reducible apply State.setHome_framed
    | split

theorem State.homePrompt_framed {rst : Bool} {F : List Field} {z s : State} {slot : Nat} {t : TurnAcc} {screened : Bool} {pos : Nat} {idx : Nat} {tok : Nat} {stamp : Nat} (hF : ([.home, .mem, .img] : List Field).all (F.contains ·) = true) (hz : Framed rst F z s) : Framed rst F z (State.homePrompt s slot t screened pos idx tok stamp) := by
  unfold State.homePrompt
  try dsimp only
  repeat' first
    | with_reducible assumption
    | (with_reducible apply Or.inr; with_reducible rfl)
    | ((with_reducible apply Or.inl); exact Framed.mem hF rfl)
    | ((with_reducible apply Framed.sub (G := [.home, .mem, .img]) ?_ hF); rfl)
    | with_reducible apply State.hashToken_framed
    | with_reducible apply State.setHome_framed
    | with_reducible apply State.pushWork_framed
    | split

theorem State.homeFeed_framed {rst : Bool} {F : List Field} {z s : State} {slot : Nat} {first : Bool} {last : Bool} {toks : List Nat} {pos : Nat} {idx : Nat} {image : Nat} {stamp : Nat} (hF : ([.trb, .entries, .edge, .home, .parts, .mem, .img, .net] : List Field).all (F.contains ·) = true) (hz : Framed rst F z s) : Framed rst F z (State.homeFeed s slot first last toks pos idx image stamp) := by
  unfold State.homeFeed
  try dsimp only
  repeat' first
    | with_reducible assumption
    | (with_reducible apply Or.inr; with_reducible rfl)
    | ((with_reducible apply Or.inl); exact Framed.mem hF rfl)
    | ((with_reducible apply Framed.sub (G := [.trb, .entries, .edge, .home, .parts, .mem, .img, .net]) ?_ hF); rfl)
    | with_reducible apply State.beginTurn_framed
    | with_reducible apply State.homePrompt_framed
    | with_reducible apply State.sendTurn_framed
    | with_reducible apply State.settle_framed
    | with_reducible apply State.pushWork_framed
    | split
    | (refine Framed.foldl (fun _ _ _ => ?_) ?_)

theorem State.countReruns_framed {rst : Bool} {F : List Field} {z s : State} {slot : Nat} {n : Nat} (hF : ([.parts] : List Field).all (F.contains ·) = true) (hz : Framed rst F z s) : Framed rst F z (State.countReruns s slot n) := by
  unfold State.countReruns
  try dsimp only
  repeat' first
    | with_reducible assumption
    | (with_reducible apply Or.inr; with_reducible rfl)
    | ((with_reducible apply Or.inl); exact Framed.mem hF rfl)
    | ((with_reducible apply Framed.sub (G := [.parts]) ?_ hF); rfl)
    | with_reducible apply State.setPart_framed
    | split

theorem State.concludeItem_framed {rst : Bool} {F : List Field} {z s : State} {slot : Nat} {w : Work} {r : Screened} (hF : ([.trb, .entries, .edge, .home, .slots, .ledgers, .parts, .ints, .cmi, .mem, .img, .net, .fsp, .tier, .hrpOut] : List Field).all (F.contains ·) = true) (hz : Framed rst F z s) : Framed rst F z (State.concludeItem s slot w r) := by
  unfold State.concludeItem
  try dsimp only
  repeat' first
    | with_reducible assumption
    | (with_reducible apply Or.inr; with_reducible rfl)
    | ((with_reducible apply Or.inl); exact Framed.mem hF rfl)
    | ((with_reducible apply Framed.sub (G := [.trb, .entries, .edge, .home, .slots, .ledgers, .parts, .ints, .cmi, .mem, .img, .net, .fsp, .tier, .hrpOut]) ?_ hF); rfl)
    | with_reducible apply State.cancelAll_framed
    | with_reducible apply State.noteAnomalies_framed
    | with_reducible apply State.setHome_framed
    | with_reducible apply State.sendVerdict_framed
    | with_reducible apply State.sendTurn_framed
    | split

theorem State.putScreened_framed {rst : Bool} {F : List Field} {z s : State} {slot : Nat} {i : Img} {m : Memory} (hF : ([.mem, .img] : List Field).all (F.contains ·) = true) (hz : Framed rst F z s) : Framed rst F z (State.putScreened s slot i m) := by
  unfold State.putScreened
  try dsimp only
  repeat' first
    | with_reducible assumption
    | (with_reducible apply Or.inr; with_reducible rfl)
    | ((with_reducible apply Or.inl); exact Framed.mem hF rfl)
    | ((with_reducible apply Framed.sub (G := [.mem, .img]) ?_ hF); rfl)
    | with_reducible apply State.dropBacks_framed
    | split
    | (refine Framed.of_mk ?_ (fun h => h) ?_ ?_ ?_ ?_ ?_ ?_ ?_ ?_ ?_ ?_ ?_ ?_ ?_ ?_ ?_ ?_ ?_ ?_ ?_ ?_ ?_ ?_ ?_ ?_ ?_ ?_ ?_ ?_)

theorem State.finishItem_framed {F : List Field} {z s : State} {slot : Nat} (hF : ([.trb, .entries, .edge, .home, .slots, .ledgers, .parts, .ints, .cmi, .mem, .img, .net, .fsp, .tier, .hrpOut] : List Field).all (F.contains ·) = true) (hz : Framed true F z s) : Framed true F z (State.finishItem s slot) := by
  unfold State.finishItem
  try dsimp only
  repeat' first
    | with_reducible assumption
    | (with_reducible apply Or.inr; with_reducible rfl)
    | ((with_reducible apply Or.inl); exact Framed.mem hF rfl)
    | ((with_reducible apply Framed.sub (G := [.trb, .entries, .edge, .home, .slots, .ledgers, .parts, .ints, .cmi, .mem, .img, .net, .fsp, .tier, .hrpOut]) ?_ hF); rfl)
    | with_reducible apply State.setHome_framed
    | with_reducible apply State.jobFault_framed
    | with_reducible apply State.cancelAll_framed
    | with_reducible apply State.trouble_framed
    | with_reducible apply State.countReruns_framed
    | with_reducible apply State.putScreened_framed
    | with_reducible apply State.concludeItem_framed
    | with_reducible apply State.settle_framed
    | split

end Sys2Proof.Machine
end

