-- ==== Sys2Proof/Laws/FramedStream.lean ====
section
/-! SUPPORT. The stream at the edge: the parts of the state that each operation may change, one lemma for each. -/
namespace Sys2Proof.Machine
set_option Elab.async false

theorem State.levelSpent_framed {rst : Bool} {F : List Field} {z s : State} {t : Nat} (hF : ([.parts, .ints] : List Field).all (F.contains ·) = true) (hz : Framed rst F z s) : Framed rst F z (State.levelSpent s t) := by
  unfold State.levelSpent
  try dsimp only
  repeat' first
    | with_reducible assumption
    | (with_reducible apply Or.inr; with_reducible rfl)
    | ((with_reducible apply Or.inl); exact Framed.mem hF rfl)
    | ((with_reducible apply Framed.sub (G := [.parts, .ints]) ?_ hF); rfl)
    | with_reducible apply State.raise_framed
    | split

theorem State.chargeOut_framed {rst : Bool} {F : List Field} {z s : State} {slot : Nat} (hF : ([.ledgers, .parts, .ints, .net] : List Field).all (F.contains ·) = true) (hz : Framed rst F z s) : Framed rst F z (State.chargeOut s slot) := by
  unfold State.chargeOut
  try dsimp only
  repeat' first
    | with_reducible assumption
    | (with_reducible apply Or.inr; with_reducible rfl)
    | ((with_reducible apply Or.inl); exact Framed.mem hF rfl)
    | ((with_reducible apply Framed.sub (G := [.ledgers, .parts, .ints, .net]) ?_ hF); rfl)
    | with_reducible apply State.setLedger_framed
    | with_reducible apply State.levelSpent_framed
    | split

theorem State.commitTok_framed {rst : Bool} {F : List Field} {z s : State} {slot : Nat} {tok : Nat} {stamp : Nat} {chain : Option Nat} {v : Option Word} (hF : ([.entries, .edge, .ledgers, .parts, .ints, .bal, .net] : List Field).all (F.contains ·) = true) (hz : Framed rst F z s) : Framed rst F z (State.commitTok s slot tok stamp chain v) := by
  unfold State.commitTok
  try dsimp only
  repeat' first
    | with_reducible assumption
    | (with_reducible apply Or.inr; with_reducible rfl)
    | ((with_reducible apply Or.inl); exact Framed.mem hF rfl)
    | ((with_reducible apply Framed.sub (G := [.entries, .edge, .ledgers, .parts, .ints, .bal, .net]) ?_ hF); rfl)
    | with_reducible apply State.setEntry_framed
    | with_reducible apply State.chargeOut_framed
    | with_reducible apply State.setEdge_framed
    | split
    | (refine Framed.of_mk ?_ (fun h => h) ?_ ?_ ?_ ?_ ?_ ?_ ?_ ?_ ?_ ?_ ?_ ?_ ?_ ?_ ?_ ?_ ?_ ?_ ?_ ?_ ?_ ?_ ?_ ?_ ?_ ?_ ?_ ?_)

theorem State.budgetStop_framed {rst : Bool} {F : List Field} {z s : State} {slot : Nat} (hF : ([.entries, .edge, .home, .slots, .ledgers, .parts, .ints, .cmi, .mem, .img, .net, .fsp, .tier, .hrpOut] : List Field).all (F.contains ·) = true) (hz : Framed rst F z s) : Framed rst F z (State.budgetStop s slot) := by
  unfold State.budgetStop
  try dsimp only
  repeat' first
    | with_reducible assumption
    | (with_reducible apply Or.inr; with_reducible rfl)
    | ((with_reducible apply Or.inl); exact Framed.mem hF rfl)
    | ((with_reducible apply Framed.sub (G := [.entries, .edge, .home, .slots, .ledgers, .parts, .ints, .cmi, .mem, .img, .net, .fsp, .tier, .hrpOut]) ?_ hF); rfl)
    | with_reducible apply State.setLedger_framed
    | with_reducible apply State.setEdge_framed
    | with_reducible apply State.endStream_framed
    | split

theorem State.commitDrafts_framed {rst : Bool} {F : List Field} {z : State} {slot spread : Nat} (hF : ([.entries, .edge, .home, .slots, .ledgers, .parts, .ints, .cmi, .mem, .img, .bal, .net, .fsp, .tier, .hrpOut] : List Field).all (F.contains ·) = true) :
    ∀ {ds : List HeldDraft} {s : State} {stamp n : Nat}, Framed rst F z s → Framed rst F z (State.commitDrafts s slot spread ds stamp n).1
  | [], _, _, _, hz => hz
  | d :: ds, s, stamp, n, hz => by
    unfold State.commitDrafts
    split
    · exact State.budgetStop_framed (Framed.sub (by rfl) hF) hz
    · exact State.commitDrafts_framed hF (State.commitTok_framed (Framed.sub (by rfl) hF) hz)

theorem State.commitDrafts_framed_eq {rst : Bool} {F : List Field} {z s t : State} {slot spread stamp n : Nat} {ds : List HeldDraft} {x : Nat}
    (e : State.commitDrafts s slot spread ds stamp n = (t, x)) (hF : ([.entries, .edge, .home, .slots, .ledgers, .parts, .ints, .cmi, .mem, .img, .bal, .net, .fsp, .tier, .hrpOut] : List Field).all (F.contains ·) = true)
    (hz : Framed rst F z s) : Framed rst F z t := by
  have k := State.commitDrafts_framed hF (slot := slot) (spread := spread) (ds := ds) (stamp := stamp) (n := n) hz
  rw [e] at k
  exact k

theorem State.tellResolve_framed {rst : Bool} {F : List Field} {z s : State} {slot : Nat} {chain : Nat} {n : Nat} {pos : Nat} {outBefore : Nat} {stamp : Nat} (hF : ([.trb, .entries, .edge, .home, .parts, .mem, .img, .net] : List Field).all (F.contains ·) = true) (hz : Framed rst F z s) : Framed rst F z (State.tellResolve s slot chain n pos outBefore stamp) := by
  unfold State.tellResolve
  try dsimp only
  repeat' first
    | with_reducible assumption
    | (with_reducible apply Or.inr; with_reducible rfl)
    | ((with_reducible apply Or.inl); exact Framed.mem hF rfl)
    | ((with_reducible apply Framed.sub (G := [.trb, .entries, .edge, .home, .parts, .mem, .img, .net]) ?_ hF); rfl)
    | with_reducible apply State.homeResolve_framed
    | with_reducible apply State.sendTo_framed
    | split

theorem State.forwardChain_framed {rst : Bool} {F : List Field} {z s : State} {slot : Nat} {c : Nat} (hF : ([.trb, .entries, .edge, .home, .parts, .net] : List Field).all (F.contains ·) = true) (hz : Framed rst F z s) : Framed rst F z (State.forwardChain s slot c) := by
  unfold State.forwardChain
  try dsimp only
  repeat' first
    | with_reducible assumption
    | (with_reducible apply Or.inr; with_reducible rfl)
    | ((with_reducible apply Or.inl); exact Framed.mem hF rfl)
    | ((with_reducible apply Framed.sub (G := [.trb, .entries, .edge, .home, .parts, .net]) ?_ hF); rfl)
    | with_reducible apply State.homeDraft_framed
    | with_reducible apply State.sendTo_framed
    | split
    | (refine Framed.foldl (fun _ _ _ => ?_) ?_)

theorem State.finishPacket_framed {rst : Bool} {F : List Field} {z s : State} {slot : Nat} (hF : ([.trb, .entries, .edge, .home, .parts, .mem, .img, .net] : List Field).all (F.contains ·) = true) (hz : Framed rst F z s) : Framed rst F z (State.finishPacket s slot) := by
  unfold State.finishPacket
  try dsimp only
  repeat' first
    | with_reducible assumption
    | (with_reducible apply Or.inr; with_reducible rfl)
    | ((with_reducible apply Or.inl); exact Framed.mem hF rfl)
    | ((with_reducible apply Framed.sub (G := [.trb, .entries, .edge, .home, .parts, .mem, .img, .net]) ?_ hF); rfl)
    | with_reducible apply State.forwardChain_framed
    | with_reducible apply State.closeOut_framed
    | split

theorem State.resolveStep_framed {rst : Bool} {F : List Field} {z s0 : State} {slot : Nat} {c : Nat} {n : Nat} {stamp : Nat} (hF : ([.trb, .entries, .edge, .home, .slots, .ledgers, .parts, .ints, .cmi, .mem, .img, .bal, .net, .fsp, .tier, .hrpOut] : List Field).all (F.contains ·) = true) (hz : Framed rst F z s0) : Framed rst F z (State.resolveStep s0 slot c n stamp).1 := by
  unfold State.resolveStep
  try dsimp only
  repeat' first
    | with_reducible assumption
    | (with_reducible apply Or.inr; with_reducible rfl)
    | ((with_reducible apply Or.inl); exact Framed.mem hF rfl)
    | ((with_reducible apply Framed.sub (G := [.trb, .entries, .edge, .home, .slots, .ledgers, .parts, .ints, .cmi, .mem, .img, .bal, .net, .fsp, .tier, .hrpOut]) ?_ hF); rfl)
    | with_reducible apply State.finishPacket_framed
    | with_reducible apply State.cancelAll_framed
    | with_reducible apply State.countRejected_framed
    | with_reducible apply State.closeStep_framed
    | with_reducible apply State.commitDrafts_framed
    | (with_reducible refine State.commitDrafts_framed_eq (by with_reducible assumption) ?_ ?_)
    | with_reducible apply State.setEdge_framed
    | with_reducible apply State.tellResolve_framed
    | split

theorem State.resolveStep_framed_eq {rst : Bool} {F : List Field} {z s0 t : State} {x : _} {slot : Nat} {c : Nat} {n : Nat} {stamp : Nat} (e : State.resolveStep s0 slot c n stamp = (t, x)) (hF : ([.trb, .entries, .edge, .home, .slots, .ledgers, .parts, .ints, .cmi, .mem, .img, .bal, .net, .fsp, .tier, .hrpOut] : List Field).all (F.contains ·) = true) (hz : Framed rst F z s0) : Framed rst F z t := by
  have k := State.resolveStep_framed (F := F) (z := z) (s0 := s0) (slot := slot) (c := c) (n := n) (stamp := stamp) hF hz
  rw [e] at k
  exact k

theorem State.hrpBad_framed {rst : Bool} {F : List Field} {z s : State} {p : Nat} (hF : ([.trb, .parts, .ints] : List Field).all (F.contains ·) = true) (hz : Framed rst F z s) : Framed rst F z (State.hrpBad s p) := by
  unfold State.hrpBad
  try dsimp only
  repeat' first
    | with_reducible assumption
    | (with_reducible apply Or.inr; with_reducible rfl)
    | ((with_reducible apply Or.inl); exact Framed.mem hF rfl)
    | ((with_reducible apply Framed.sub (G := [.trb, .parts, .ints]) ?_ hF); rfl)
    | with_reducible apply State.trouble_framed
    | split

theorem State.hrpCheck_framed {rst : Bool} {F : List Field} {z s t : State} {p : Nat} {w : Word} (hF : ([.parts] : List Field).all (F.contains ·) = true)
    (hz : Framed rst F z s) (ht : Framed rst F z t) : Framed rst F z ((s.hrpCheck p w).getD t) := by
  unfold State.hrpCheck
  dsimp only
  repeat' first
    | split
    | exact ht
    | exact State.stateDrop_framed hF hz
    | exact State.staleDrop_framed hF hz

theorem State.acceptToken_framed {rst : Bool} {F : List Field} {z s : State} {w : Word} (hF : ([.trb, .entries, .edge, .home, .slots, .ledgers, .parts, .ints, .cmi, .mem, .img, .bal, .net, .fsp, .tier, .hrpOut] : List Field).all (F.contains ·) = true) (hz : Framed rst F z s) : Framed rst F z (State.acceptToken s w) := by
  unfold State.acceptToken
  try dsimp only
  repeat' first
    | with_reducible assumption
    | (with_reducible apply Or.inr; with_reducible rfl)
    | ((with_reducible apply Or.inl); exact Framed.mem hF rfl)
    | ((with_reducible apply Framed.sub (G := [.trb, .entries, .edge, .home, .slots, .ledgers, .parts, .ints, .cmi, .mem, .img, .bal, .net, .fsp, .tier, .hrpOut]) ?_ hF); rfl)
    | with_reducible apply State.stateDrop_framed
    | with_reducible apply State.resolveStep_framed
    | (with_reducible refine State.resolveStep_framed_eq (by with_reducible assumption) ?_ ?_)
    | with_reducible apply State.budgetStop_framed
    | with_reducible apply State.countRejected_framed
    | with_reducible apply State.commitTok_framed
    | with_reducible apply State.writeOut_framed
    | (with_reducible refine State.writeOut_framed_eq (by with_reducible assumption) ?_ ?_)
    | with_reducible apply State.homeToken_framed
    | with_reducible apply State.sendTo_framed
    | split

theorem State.takeToken_framed {F : List Field} {z s : State} {p : Nat} {w : Word} {entry : WordFind} (hF : ([.trb, .entries, .edge, .home, .slots, .ledgers, .parts, .ints, .cmi, .mem, .img, .bal, .net, .fsp, .tier, .hrpOut] : List Field).all (F.contains ·) = true) (hz : Framed true F z s) : Framed true F z (State.takeToken s p w entry) := by
  unfold State.takeToken
  try dsimp only
  repeat' first
    | with_reducible assumption
    | (with_reducible apply Or.inr; with_reducible rfl)
    | ((with_reducible apply Or.inl); exact Framed.mem hF rfl)
    | ((with_reducible apply Framed.sub (G := [.trb, .entries, .edge, .home, .slots, .ledgers, .parts, .ints, .cmi, .mem, .img, .bal, .net, .fsp, .tier, .hrpOut]) ?_ hF); rfl)
    | with_reducible apply State.stateDrop_framed
    | with_reducible apply State.entryCheck_framed
    | with_reducible apply State.hrpCheck_framed
    | with_reducible apply State.acceptToken_framed
    | split

theorem State.dropDraft_framed {rst : Bool} {F : List Field} {z s : State} {w : Word} (hF : ([.trb, .entries, .edge, .home, .parts, .mem, .img, .net] : List Field).all (F.contains ·) = true) (hz : Framed rst F z s) : Framed rst F z (State.dropDraft s w) := by
  unfold State.dropDraft
  try dsimp only
  repeat' first
    | with_reducible assumption
    | (with_reducible apply Or.inr; with_reducible rfl)
    | ((with_reducible apply Or.inl); exact Framed.mem hF rfl)
    | ((with_reducible apply Framed.sub (G := [.trb, .entries, .edge, .home, .parts, .mem, .img, .net]) ?_ hF); rfl)
    | with_reducible apply State.finishPacket_framed
    | with_reducible apply State.stateDrop_framed
    | with_reducible apply State.setEdge_framed
    | split

theorem State.storeDraft_framed {rst : Bool} {F : List Field} {z s : State} {w : Word} (hF : ([.trb, .entries, .edge, .home, .slots, .parts, .mem, .img, .net] : List Field).all (F.contains ·) = true) (hz : Framed rst F z s) : Framed rst F z (State.storeDraft s w) := by
  unfold State.storeDraft
  try dsimp only
  repeat' first
    | with_reducible assumption
    | (with_reducible apply Or.inr; with_reducible rfl)
    | ((with_reducible apply Or.inl); exact Framed.mem hF rfl)
    | ((with_reducible apply Framed.sub (G := [.trb, .entries, .edge, .home, .slots, .parts, .mem, .img, .net]) ?_ hF); rfl)
    | with_reducible apply State.markOut_framed
    | with_reducible apply State.setEdge_framed
    | with_reducible apply State.writeOut_framed
    | (with_reducible refine State.writeOut_framed_eq (by with_reducible assumption) ?_ ?_)
    | with_reducible apply State.setEntry_framed
    | with_reducible apply State.forwardChain_framed
    | split

theorem State.acceptDraft_framed {rst : Bool} {F : List Field} {z s : State} {w : Word} (hF : ([.trb, .entries, .edge, .home, .slots, .parts, .mem, .img, .net] : List Field).all (F.contains ·) = true) (hz : Framed rst F z s) : Framed rst F z (State.acceptDraft s w) := by
  unfold State.acceptDraft
  try dsimp only
  repeat' first
    | with_reducible assumption
    | (with_reducible apply Or.inr; with_reducible rfl)
    | ((with_reducible apply Or.inl); exact Framed.mem hF rfl)
    | ((with_reducible apply Framed.sub (G := [.trb, .entries, .edge, .home, .slots, .parts, .mem, .img, .net]) ?_ hF); rfl)
    | with_reducible apply State.pushOut_framed
    | (with_reducible refine State.pushOut_framed_eq (by with_reducible assumption) ?_ ?_)
    | with_reducible apply State.setEdge_framed
    | with_reducible apply State.stateDrop_framed
    | with_reducible apply State.storeDraft_framed
    | with_reducible apply State.dropDraft_framed
    | split

theorem State.takeDraft_framed {rst : Bool} {F : List Field} {z s : State} {p : Nat} {w : Word} (hF : ([.trb, .entries, .edge, .home, .slots, .parts, .mem, .img, .net] : List Field).all (F.contains ·) = true) (hz : Framed rst F z s) : Framed rst F z (State.takeDraft s p w) := by
  unfold State.takeDraft
  try dsimp only
  repeat' first
    | with_reducible assumption
    | (with_reducible apply Or.inr; with_reducible rfl)
    | ((with_reducible apply Or.inl); exact Framed.mem hF rfl)
    | ((with_reducible apply Framed.sub (G := [.trb, .entries, .edge, .home, .slots, .parts, .mem, .img, .net]) ?_ hF); rfl)
    | with_reducible apply State.stateDrop_framed
    | with_reducible apply State.hrpCheck_framed
    | with_reducible apply State.acceptDraft_framed
    | split

theorem State.hrpWord_framed {rst : Bool} {F : List Field} {z s : State} {p : Nat} {f : Find} {take : State → State} (hF : ([.trb, .parts, .ints] : List Field).all (F.contains ·) = true) (hz : Framed rst F z s) (htake : ∀ x0, Framed rst F z x0 → Framed rst F z (take x0)) : Framed rst F z (State.hrpWord s p f take) := by
  unfold State.hrpWord
  try dsimp only
  repeat' first
    | with_reducible assumption
    | (with_reducible apply Or.inr; with_reducible rfl)
    | ((with_reducible apply Or.inl); exact Framed.mem hF rfl)
    | ((with_reducible apply Framed.sub (G := [.trb, .parts, .ints]) ?_ hF); rfl)
    | with_reducible apply State.hrpBad_framed
    | with_reducible apply State.ceCommand_framed
    | with_reducible apply htake
    | intro _
    | split

theorem State.onTokenIntake_framed {F : List Field} {z s : State} {part : Nat} {w : Word} {find : Find} {entry : WordFind} (hF : ([.trb, .entries, .edge, .home, .slots, .ledgers, .parts, .ints, .cmi, .mem, .img, .bal, .net, .fsp, .tier, .hrpOut] : List Field).all (F.contains ·) = true) (hz : Framed true F z s) : Framed true F z (State.onTokenIntake s part w find entry) := by
  unfold State.onTokenIntake
  try dsimp only
  repeat' first
    | with_reducible assumption
    | (with_reducible apply Or.inr; with_reducible rfl)
    | ((with_reducible apply Or.inl); exact Framed.mem hF rfl)
    | ((with_reducible apply Framed.sub (G := [.trb, .entries, .edge, .home, .slots, .ledgers, .parts, .ints, .cmi, .mem, .img, .bal, .net, .fsp, .tier, .hrpOut]) ?_ hF); rfl)
    | with_reducible apply State.hrpWord_framed
    | with_reducible apply State.takeToken_framed
    | intro _
    | split

theorem State.onDraftIntake_framed {rst : Bool} {F : List Field} {z s : State} {part : Nat} {w : Word} {find : Find} (hF : ([.trb, .entries, .edge, .home, .slots, .parts, .ints, .mem, .img, .net] : List Field).all (F.contains ·) = true) (hz : Framed rst F z s) : Framed rst F z (State.onDraftIntake s part w find) := by
  unfold State.onDraftIntake
  try dsimp only
  repeat' first
    | with_reducible assumption
    | (with_reducible apply Or.inr; with_reducible rfl)
    | ((with_reducible apply Or.inl); exact Framed.mem hF rfl)
    | ((with_reducible apply Framed.sub (G := [.trb, .entries, .edge, .home, .slots, .parts, .ints, .mem, .img, .net]) ?_ hF); rfl)
    | with_reducible apply State.hrpWord_framed
    | with_reducible apply State.takeDraft_framed
    | intro _
    | split

theorem State.stickVerdict_framed {rst : Bool} {F : List Field} {z s : State} {slot : Nat} {v : Verdict} (hF : ([.entries, .net] : List Field).all (F.contains ·) = true) (hz : Framed rst F z s) : Framed rst F z (State.stickVerdict s slot v) := by
  unfold State.stickVerdict
  try dsimp only
  repeat' first
    | with_reducible assumption
    | (with_reducible apply Or.inr; with_reducible rfl)
    | ((with_reducible apply Or.inl); exact Framed.mem hF rfl)
    | ((with_reducible apply Framed.sub (G := [.entries, .net]) ?_ hF); rfl)
    | with_reducible apply State.setEntry_framed
    | split

theorem State.countVerdict_framed {rst : Bool} {F : List Field} {z s : State} {slot : Nat} {v : Verdict} (hF : ([.entries, .net] : List Field).all (F.contains ·) = true) (hz : Framed rst F z s) : Framed rst F z (State.countVerdict s slot v) := by
  unfold State.countVerdict
  try dsimp only
  repeat' first
    | with_reducible assumption
    | (with_reducible apply Or.inr; with_reducible rfl)
    | ((with_reducible apply Or.inl); exact Framed.mem hF rfl)
    | ((with_reducible apply Framed.sub (G := [.entries, .net]) ?_ hF); rfl)
    | with_reducible apply State.setEntry_framed
    | split

theorem State.lateVerdict_framed {rst : Bool} {F : List Field} {z s : State} {slot : Nat} {pos : Nat} (hF : ([.trb, .parts, .ints] : List Field).all (F.contains ·) = true) (hz : Framed rst F z s) : Framed rst F z (State.lateVerdict s slot pos) := by
  unfold State.lateVerdict
  try dsimp only
  repeat' first
    | with_reducible assumption
    | (with_reducible apply Or.inr; with_reducible rfl)
    | ((with_reducible apply Or.inl); exact Framed.mem hF rfl)
    | ((with_reducible apply Framed.sub (G := [.trb, .parts, .ints]) ?_ hF); rfl)
    | with_reducible apply State.setPart_framed
    | with_reducible apply State.raise_framed
    | with_reducible apply State.trouble_framed
    | split

theorem State.actTIn_framed {rst : Bool} {F : List Field} {z s : State} {slot : Nat} (hF : ([.trb, .entries, .edge, .home, .slots, .ledgers, .parts, .ints, .cmi, .mem, .img, .net, .fsp, .tier, .hrpOut] : List Field).all (F.contains ·) = true) (hz : Framed rst F z s) : Framed rst F z (State.actTIn s slot) := by
  unfold State.actTIn
  try dsimp only
  repeat' first
    | with_reducible assumption
    | (with_reducible apply Or.inr; with_reducible rfl)
    | ((with_reducible apply Or.inl); exact Framed.mem hF rfl)
    | ((with_reducible apply Framed.sub (G := [.trb, .entries, .edge, .home, .slots, .ledgers, .parts, .ints, .cmi, .mem, .img, .net, .fsp, .tier, .hrpOut]) ?_ hF); rfl)
    | with_reducible apply State.endStreamTo_framed
    | with_reducible apply State.lateVerdict_framed
    | with_reducible apply State.stickVerdict_framed
    | with_reducible apply State.setEdge_framed
    | with_reducible apply State.cancelAll_framed
    | with_reducible apply State.countVerdict_framed
    | with_reducible apply State.tell_framed
    | split

theorem State.releaseTok_framed {rst : Bool} {F : List Field} {z s : State} {slot : Nat} {t : HeldTok} (hF : ([.trb, .entries, .edge, .home, .slots, .ledgers, .parts, .ints, .cmi, .mem, .img, .net, .fsp, .tier, .hrpOut] : List Field).all (F.contains ·) = true) (hz : Framed rst F z s) : Framed rst F z (State.releaseTok s slot t) := by
  unfold State.releaseTok
  try dsimp only
  repeat' first
    | with_reducible assumption
    | (with_reducible apply Or.inr; with_reducible rfl)
    | ((with_reducible apply Or.inl); exact Framed.mem hF rfl)
    | ((with_reducible apply Framed.sub (G := [.trb, .entries, .edge, .home, .slots, .ledgers, .parts, .ints, .cmi, .mem, .img, .net, .fsp, .tier, .hrpOut]) ?_ hF); rfl)
    | with_reducible apply State.endStream_framed
    | with_reducible apply State.lateVerdict_framed
    | with_reducible apply State.cancelAll_framed
    | with_reducible apply State.tell_framed
    | with_reducible apply State.setRelq_framed
    | with_reducible apply State.countVerdict_framed
    | with_reducible apply State.stickVerdict_framed
    | with_reducible apply State.setEdge_framed
    | split

theorem State.releaseAll_framed {rst : Bool} {F : List Field} {z : State} {slot : Nat} (hF : ([.trb, .entries, .edge, .home, .slots, .ledgers, .parts, .ints, .cmi, .mem, .img, .net, .fsp, .tier, .hrpOut] : List Field).all (F.contains ·) = true) :
    ∀ {n : Nat} {s : State}, Framed rst F z s → Framed rst F z (State.releaseAll n s slot)
  | 0, _, hz => hz
  | n + 1, s, hz => by
    unfold State.releaseAll
    repeat' first
      | with_reducible assumption
      | with_reducible apply (State.releaseAll_framed hF)
      | with_reducible apply State.releaseTok_framed
      | ((with_reducible apply Framed.sub (G := [.trb, .entries, .edge, .home, .slots, .ledgers, .parts, .ints, .cmi, .mem, .img, .net, .fsp, .tier, .hrpOut]) ?_ hF); rfl)
      | split

theorem State.endPending_framed {rst : Bool} {F : List Field} {z s : State} {slot : Nat} (hF : ([.entries, .edge, .home, .slots, .ledgers, .parts, .ints, .cmi, .mem, .img, .net, .fsp, .tier, .hrpOut] : List Field).all (F.contains ·) = true) (hz : Framed rst F z s) : Framed rst F z (State.endPending s slot) := by
  unfold State.endPending
  try dsimp only
  repeat' first
    | with_reducible assumption
    | (with_reducible apply Or.inr; with_reducible rfl)
    | ((with_reducible apply Or.inl); exact Framed.mem hF rfl)
    | ((with_reducible apply Framed.sub (G := [.entries, .edge, .home, .slots, .ledgers, .parts, .ints, .cmi, .mem, .img, .net, .fsp, .tier, .hrpOut]) ?_ hF); rfl)
    | with_reducible apply State.endStream_framed
    | split

theorem State.streamDue_framed {rst : Bool} {F : List Field} {z s : State} {slot : Nat} (hF : ([.trb, .entries, .edge, .home, .slots, .ledgers, .parts, .ints, .cmi, .mem, .img, .net, .fsp, .tier, .hrpOut] : List Field).all (F.contains ·) = true) (hz : Framed rst F z s) : Framed rst F z (State.streamDue s slot) := by
  unfold State.streamDue
  try dsimp only
  repeat' first
    | with_reducible assumption
    | (with_reducible apply Or.inr; with_reducible rfl)
    | ((with_reducible apply Or.inl); exact Framed.mem hF rfl)
    | ((with_reducible apply Framed.sub (G := [.trb, .entries, .edge, .home, .slots, .ledgers, .parts, .ints, .cmi, .mem, .img, .net, .fsp, .tier, .hrpOut]) ?_ hF); rfl)
    | with_reducible apply State.actTIn_framed
    | with_reducible apply State.endPending_framed
    | with_reducible apply State.releaseAll_framed
    | split

theorem State.heldCheck_framed {rst : Bool} {F : List Field} {z s : State} {slot : Nat} {f : Find} (hF : ([.trb, .entries, .edge, .home, .slots, .ledgers, .parts, .ints, .cmi, .mem, .img, .net, .fsp, .tier, .hrpOut] : List Field).all (F.contains ·) = true) (hz : Framed rst F z s) : Framed rst F z (State.heldCheck s slot f) := by
  unfold State.heldCheck
  try dsimp only
  repeat' first
    | with_reducible assumption
    | (with_reducible apply Or.inr; with_reducible rfl)
    | ((with_reducible apply Or.inl); exact Framed.mem hF rfl)
    | ((with_reducible apply Framed.sub (G := [.trb, .entries, .edge, .home, .slots, .ledgers, .parts, .ints, .cmi, .mem, .img, .net, .fsp, .tier, .hrpOut]) ?_ hF); rfl)
    | with_reducible apply State.ceUnit_framed
    | with_reducible apply State.unitBad_framed
    | split

theorem State.onTokenRelease_framed {rst : Bool} {F : List Field} {z s1 : State} {slot : Nat} {find : Find} (hF : ([.trb, .entries, .edge, .home, .slots, .ledgers, .parts, .ints, .cmi, .mem, .img, .net, .fsp, .tier, .hrpOut] : List Field).all (F.contains ·) = true) (hz : Framed rst F z s1) : Framed rst F z (State.onTokenRelease s1 slot find) := by
  unfold State.onTokenRelease
  try dsimp only
  repeat' first
    | with_reducible assumption
    | (with_reducible apply Or.inr; with_reducible rfl)
    | ((with_reducible apply Or.inl); exact Framed.mem hF rfl)
    | ((with_reducible apply Framed.sub (G := [.trb, .entries, .edge, .home, .slots, .ledgers, .parts, .ints, .cmi, .mem, .img, .net, .fsp, .tier, .hrpOut]) ?_ hF); rfl)
    | with_reducible apply State.actTIn_framed
    | with_reducible apply State.heldCheck_framed
    | with_reducible apply State.streamDue_framed
    | split

theorem State.onTIn_framed {rst : Bool} {F : List Field} {z s1 : State} {slot : Nat} (hF : ([.trb, .entries, .edge, .home, .slots, .ledgers, .parts, .ints, .cmi, .mem, .img, .net, .fsp, .tier, .hrpOut] : List Field).all (F.contains ·) = true) (hz : Framed rst F z s1) : Framed rst F z (State.onTIn s1 slot) := by
  unfold State.onTIn
  try dsimp only
  repeat' first
    | with_reducible assumption
    | (with_reducible apply Or.inr; with_reducible rfl)
    | ((with_reducible apply Or.inl); exact Framed.mem hF rfl)
    | ((with_reducible apply Framed.sub (G := [.trb, .entries, .edge, .home, .slots, .ledgers, .parts, .ints, .cmi, .mem, .img, .net, .fsp, .tier, .hrpOut]) ?_ hF); rfl)
    | with_reducible apply State.actTIn_framed
    | split

theorem State.onQueueOver_framed {rst : Bool} {F : List Field} {z s1 : State} {slot : Nat} (hF : ([.trb, .home, .parts, .ints] : List Field).all (F.contains ·) = true) (hz : Framed rst F z s1) : Framed rst F z (State.onQueueOver s1 slot) := by
  unfold State.onQueueOver
  try dsimp only
  repeat' first
    | with_reducible assumption
    | (with_reducible apply Or.inr; with_reducible rfl)
    | ((with_reducible apply Or.inl); exact Framed.mem hF rfl)
    | ((with_reducible apply Framed.sub (G := [.trb, .home, .parts, .ints]) ?_ hF); rfl)
    | with_reducible apply State.setHome_framed
    | with_reducible apply State.trouble_framed
    | split

theorem State.onSlippedNotice_framed {rst : Bool} {F : List Field} {z s1 : State} {slot : Nat} (hF : ([.slots, .hrpOut] : List Field).all (F.contains ·) = true) (hz : Framed rst F z s1) : Framed rst F z (State.onSlippedNotice s1 slot) := by
  unfold State.onSlippedNotice
  try dsimp only
  repeat' first
    | with_reducible assumption
    | (with_reducible apply Or.inr; with_reducible rfl)
    | ((with_reducible apply Or.inl); exact Framed.mem hF rfl)
    | ((with_reducible apply Framed.sub (G := [.slots, .hrpOut]) ?_ hF); rfl)
    | with_reducible apply State.tell_framed
    | split

end Sys2Proof.Machine
end

