-- ==== Sys2Proof/Laws/FramedEngine.lean ====
section
/-! SUPPORT. Screening work on clusters: the parts of the state that each operation may change, one lemma for each. -/
namespace Sys2Proof.Machine
set_option Elab.async false

theorem State.setCluster_framed {rst : Bool} {F : List Field} {z s : State} {c : Nat} {v : Cluster} (hF : ([.clk] : List Field).all (F.contains ·) = true) (hz : Framed rst F z s) : Framed rst F z (State.setCluster s c v) := by
  unfold State.setCluster
  try dsimp only
  repeat' first
    | with_reducible assumption
    | (with_reducible apply Or.inr; with_reducible rfl)
    | ((with_reducible apply Or.inl); exact Framed.mem hF rfl)
    | ((with_reducible apply Framed.sub (G := [.clk]) ?_ hF); rfl)
    | split
    | (refine Framed.of_mk ?_ (fun h => h) ?_ ?_ ?_ ?_ ?_ ?_ ?_ ?_ ?_ ?_ ?_ ?_ ?_ ?_ ?_ ?_ ?_ ?_ ?_ ?_ ?_ ?_ ?_ ?_ ?_ ?_ ?_ ?_)

theorem State.wakeReq_framed {rst : Bool} {F : List Field} {z s : State} {c : Nat} (hF : ([.clk] : List Field).all (F.contains ·) = true) (hz : Framed rst F z s) : Framed rst F z (State.wakeReq s c) := by
  unfold State.wakeReq
  try dsimp only
  repeat' first
    | with_reducible assumption
    | (with_reducible apply Or.inr; with_reducible rfl)
    | ((with_reducible apply Or.inl); exact Framed.mem hF rfl)
    | ((with_reducible apply Framed.sub (G := [.clk]) ?_ hF); rfl)
    | with_reducible apply State.setCluster_framed
    | split
    | (refine Framed.of_mk ?_ (fun h => h) ?_ ?_ ?_ ?_ ?_ ?_ ?_ ?_ ?_ ?_ ?_ ?_ ?_ ?_ ?_ ?_ ?_ ?_ ?_ ?_ ?_ ?_ ?_ ?_ ?_ ?_ ?_ ?_)

theorem State.runOne_framed {rst : Bool} {F : List Field} {z s : State} {c : Nat} (hF : ([.home] : List Field).all (F.contains ·) = true) (hz : Framed rst F z s) : Framed rst F z (State.runOne s c) := by
  unfold State.runOne
  try dsimp only
  repeat' first
    | with_reducible assumption
    | (with_reducible apply Or.inr; with_reducible rfl)
    | ((with_reducible apply Or.inl); exact Framed.mem hF rfl)
    | ((with_reducible apply Framed.sub (G := [.home]) ?_ hF); rfl)
    | with_reducible apply State.setHome_framed
    | split

theorem State.runNext_framed {rst : Bool} {F : List Field} {z s : State} {c : Nat} (hF : ([.home] : List Field).all (F.contains ·) = true) (hz : Framed rst F z s) : Framed rst F z (State.runNext s c) := by
  unfold State.runNext
  try dsimp only
  repeat' first
    | with_reducible assumption
    | (with_reducible apply Or.inr; with_reducible rfl)
    | ((with_reducible apply Or.inl); exact Framed.mem hF rfl)
    | ((with_reducible apply Framed.sub (G := [.home]) ?_ hF); rfl)
    | with_reducible apply State.runOne_framed
    | split
    | (refine Framed.foldl (fun _ _ _ => ?_) ?_)

theorem State.runClusters_framed {rst : Bool} {F : List Field} {z s : State}  (hF : ([.home, .clk] : List Field).all (F.contains ·) = true) (hz : Framed rst F z s) : Framed rst F z (State.runClusters s) := by
  unfold State.runClusters
  try dsimp only
  repeat' first
    | with_reducible assumption
    | (with_reducible apply Or.inr; with_reducible rfl)
    | ((with_reducible apply Or.inl); exact Framed.mem hF rfl)
    | ((with_reducible apply Framed.sub (G := [.home, .clk]) ?_ hF); rfl)
    | with_reducible apply State.setCluster_framed
    | with_reducible apply State.runNext_framed
    | split
    | (refine Framed.foldl (fun _ _ _ => ?_) ?_)

theorem State.assignTo_framed {rst : Bool} {F : List Field} {z s : State} {r : Nat} (hF : ([.clk] : List Field).all (F.contains ·) = true) (hz : Framed rst F z s) : Framed rst F z (State.assignTo s r).1 := by
  unfold State.assignTo
  try dsimp only
  repeat' first
    | with_reducible assumption
    | (with_reducible apply Or.inr; with_reducible rfl)
    | ((with_reducible apply Or.inl); exact Framed.mem hF rfl)
    | ((with_reducible apply Framed.sub (G := [.clk]) ?_ hF); rfl)
    | with_reducible apply State.wakeReq_framed
    | split
    | (refine Framed.foldl (fun _ _ _ => ?_) ?_)

theorem State.assignTo_framed_eq {rst : Bool} {F : List Field} {z s t : State} {x : _} {r : Nat} (e : State.assignTo s r = (t, x)) (hF : ([.clk] : List Field).all (F.contains ·) = true) (hz : Framed rst F z s) : Framed rst F z t := by
  have k := State.assignTo_framed (F := F) (z := z) (s := s) (r := r) hF hz
  rw [e] at k
  exact k

theorem State.dispatchNext_framed {rst : Bool} {F : List Field} {z s : State} {r : Nat} (hF : ([.home, .clk] : List Field).all (F.contains ·) = true) (hz : Framed rst F z s) : Framed rst F z (State.dispatchNext s r).1 := by
  unfold State.dispatchNext
  try dsimp only
  repeat' first
    | with_reducible assumption
    | (with_reducible apply Or.inr; with_reducible rfl)
    | ((with_reducible apply Or.inl); exact Framed.mem hF rfl)
    | ((with_reducible apply Framed.sub (G := [.home, .clk]) ?_ hF); rfl)
    | with_reducible apply State.assignTo_framed
    | (with_reducible refine State.assignTo_framed_eq (by with_reducible assumption) ?_ ?_)
    | with_reducible apply State.setHome_framed
    | with_reducible apply State.runNext_framed
    | with_reducible apply State.wakeReq_framed
    | split
    | (refine Framed.foldl (fun _ _ _ => ?_) ?_)

theorem State.dispatchNext_framed_eq {rst : Bool} {F : List Field} {z s t : State} {x : _} {r : Nat} (e : State.dispatchNext s r = (t, x)) (hF : ([.home, .clk] : List Field).all (F.contains ·) = true) (hz : Framed rst F z s) : Framed rst F z t := by
  have k := State.dispatchNext_framed (F := F) (z := z) (s := s) (r := r) hF hz
  rw [e] at k
  exact k

theorem State.onScreeningItemStart_framed {F : List Field} {z s1 : State} {region : Nat} {find : ItemFind} (hF : ([.trb, .entries, .edge, .home, .slots, .ledgers, .parts, .ints, .cmi, .mem, .img, .net, .fsp, .tier, .clk, .hrpOut] : List Field).all (F.contains ·) = true) (hz : Framed true F z s1) : Framed true F z (State.onScreeningItemStart s1 region find) := by
  unfold State.onScreeningItemStart
  try dsimp only
  repeat' first
    | with_reducible assumption
    | (with_reducible apply Or.inr; with_reducible rfl)
    | ((with_reducible apply Or.inl); exact Framed.mem hF rfl)
    | ((with_reducible apply Framed.sub (G := [.trb, .entries, .edge, .home, .slots, .ledgers, .parts, .ints, .cmi, .mem, .img, .net, .fsp, .tier, .clk, .hrpOut]) ?_ hF); rfl)
    | with_reducible apply State.dispatchNext_framed
    | (with_reducible refine State.dispatchNext_framed_eq (by with_reducible assumption) ?_ ?_)
    | with_reducible apply State.itemCheck_framed
    | split

theorem State.onScreeningItemDone_framed {F : List Field} {z s1 : State} {cluster : Nat} {find : ItemFind} (hF : ([.trb, .entries, .edge, .home, .slots, .ledgers, .parts, .ints, .cmi, .mem, .img, .net, .fsp, .tier, .clk, .hrpOut] : List Field).all (F.contains ·) = true) (hz : Framed true F z s1) : Framed true F z (State.onScreeningItemDone s1 cluster find) := by
  unfold State.onScreeningItemDone
  try dsimp only
  repeat' first
    | with_reducible assumption
    | (with_reducible apply Or.inr; with_reducible rfl)
    | ((with_reducible apply Or.inl); exact Framed.mem hF rfl)
    | ((with_reducible apply Framed.sub (G := [.trb, .entries, .edge, .home, .slots, .ledgers, .parts, .ints, .cmi, .mem, .img, .net, .fsp, .tier, .clk, .hrpOut]) ?_ hF); rfl)
    | with_reducible apply State.itemCheck_framed
    | with_reducible apply State.finishItem_framed
    | with_reducible apply State.runClusters_framed
    | with_reducible apply State.setCluster_framed
    | split

theorem State.feedsDone_framed {rst : Bool} {F : List Field} {z s : State} {slot : Nat} (hF : ([.entries, .home, .cmi, .net, .hrpOut] : List Field).all (F.contains ·) = true) (hz : Framed rst F z s) : Framed rst F z (State.feedsDone s slot) := by
  unfold State.feedsDone
  try dsimp only
  repeat' first
    | with_reducible assumption
    | (with_reducible apply Or.inr; with_reducible rfl)
    | ((with_reducible apply Or.inl); exact Framed.mem hF rfl)
    | ((with_reducible apply Framed.sub (G := [.entries, .home, .cmi, .net, .hrpOut]) ?_ hF); rfl)
    | with_reducible apply State.setHome_framed
    | with_reducible apply State.reply_framed
    | with_reducible apply State.endPendWith_framed
    | split
    | (refine Framed.foldl (fun _ _ _ => ?_) ?_)

theorem State.onBlockHashDone_framed {rst : Bool} {F : List Field} {z s1 : State} {slot : Nat} (hF : ([.entries, .home, .cmi, .mem, .img, .net, .hrpOut] : List Field).all (F.contains ·) = true) (hz : Framed rst F z s1) : Framed rst F z (State.onBlockHashDone s1 slot) := by
  unfold State.onBlockHashDone
  try dsimp only
  repeat' first
    | with_reducible assumption
    | (with_reducible apply Or.inr; with_reducible rfl)
    | ((with_reducible apply Or.inl); exact Framed.mem hF rfl)
    | ((with_reducible apply Framed.sub (G := [.entries, .home, .cmi, .mem, .img, .net, .hrpOut]) ?_ hF); rfl)
    | with_reducible apply State.setHome_framed
    | with_reducible apply State.hashBlock_framed
    | with_reducible apply State.feedsDone_framed
    | split

theorem State.onClusterWakeDone_framed {rst : Bool} {F : List Field} {z s1 : State} {cluster : Nat} (hF : ([.home, .bal, .clk] : List Field).all (F.contains ·) = true) (hz : Framed rst F z s1) : Framed rst F z (State.onClusterWakeDone s1 cluster) := by
  unfold State.onClusterWakeDone
  try dsimp only
  repeat' first
    | with_reducible assumption
    | (with_reducible apply Or.inr; with_reducible rfl)
    | ((with_reducible apply Or.inl); exact Framed.mem hF rfl)
    | ((with_reducible apply Framed.sub (G := [.home, .bal, .clk]) ?_ hF); rfl)
    | with_reducible apply State.runClusters_framed
    | with_reducible apply State.setCluster_framed
    | split
    | (refine Framed.of_mk ?_ (fun h => h) ?_ ?_ ?_ ?_ ?_ ?_ ?_ ?_ ?_ ?_ ?_ ?_ ?_ ?_ ?_ ?_ ?_ ?_ ?_ ?_ ?_ ?_ ?_ ?_ ?_ ?_ ?_ ?_)

theorem State.reassign_framed {rst : Bool} {F : List Field} {z s : State} {c : Nat} (hF : ([.home, .clk] : List Field).all (F.contains ·) = true) (hz : Framed rst F z s) : Framed rst F z (State.reassign s c) := by
  unfold State.reassign
  try dsimp only
  repeat' first
    | with_reducible assumption
    | (with_reducible apply Or.inr; with_reducible rfl)
    | ((with_reducible apply Or.inl); exact Framed.mem hF rfl)
    | ((with_reducible apply Framed.sub (G := [.home, .clk]) ?_ hF); rfl)
    | with_reducible apply State.setHome_framed
    | with_reducible apply State.dispatchNext_framed
    | (with_reducible refine State.dispatchNext_framed_eq (by with_reducible assumption) ?_ ?_)
    | split
    | (refine Framed.foldl (fun _ _ _ => ?_) ?_)

theorem State.onClusterWakeTimeout_framed {rst : Bool} {F : List Field} {z s1 : State} {cluster : Nat} {railFail : Bool} (hF : ([.trb, .home, .parts, .ints, .bal, .clk] : List Field).all (F.contains ·) = true) (hz : Framed rst F z s1) : Framed rst F z (State.onClusterWakeTimeout s1 cluster railFail) := by
  unfold State.onClusterWakeTimeout
  try dsimp only
  repeat' first
    | with_reducible assumption
    | (with_reducible apply Or.inr; with_reducible rfl)
    | ((with_reducible apply Or.inl); exact Framed.mem hF rfl)
    | ((with_reducible apply Framed.sub (G := [.trb, .home, .parts, .ints, .bal, .clk]) ?_ hF); rfl)
    | with_reducible apply State.setCluster_framed
    | with_reducible apply State.trouble_framed
    | with_reducible apply State.reassign_framed
    | split
    | (refine Framed.of_mk ?_ (fun h => h) ?_ ?_ ?_ ?_ ?_ ?_ ?_ ?_ ?_ ?_ ?_ ?_ ?_ ?_ ?_ ?_ ?_ ?_ ?_ ?_ ?_ ?_ ?_ ?_ ?_ ?_ ?_ ?_)

theorem State.onClusterIdleStop_framed {rst : Bool} {F : List Field} {z s1 : State} {cluster : Nat} (hF : ([.clk] : List Field).all (F.contains ·) = true) (hz : Framed rst F z s1) : Framed rst F z (State.onClusterIdleStop s1 cluster) := by
  unfold State.onClusterIdleStop
  try dsimp only
  repeat' first
    | with_reducible assumption
    | (with_reducible apply Or.inr; with_reducible rfl)
    | ((with_reducible apply Or.inl); exact Framed.mem hF rfl)
    | ((with_reducible apply Framed.sub (G := [.clk]) ?_ hF); rfl)
    | with_reducible apply State.setCluster_framed
    | split

end Sys2Proof.Machine
end

