-- ==== Sys2Proof/Laws/FramedCmi.lean ====
section
/-! SUPPORT. The command interpreter: the parts of the state that each operation may change, one lemma for each. -/
namespace Sys2Proof.Machine
set_option Elab.async false

theorem State.refuseHrp_framed {rst : Bool} {F : List Field} {z s : State} {p : Nat} {w : Word} {st : Status} (hF : ([.hrpOut] : List Field).all (F.contains ·) = true) (hz : Framed rst F z s) : Framed rst F z (State.refuseHrp s p w st) := by
  unfold State.refuseHrp
  try dsimp only
  repeat' first
    | with_reducible assumption
    | (with_reducible apply Or.inr; with_reducible rfl)
    | ((with_reducible apply Or.inl); exact Framed.mem hF rfl)
    | ((with_reducible apply Framed.sub (G := [.hrpOut]) ?_ hF); rfl)
    | with_reducible apply State.putOut_framed
    | split

theorem State.badPacket_framed {rst : Bool} {F : List Field} {z s : State} {p : Nat} {w : Word} {readable : Bool} {smp : Bool} (hF : ([.trb, .parts, .ints] : List Field).all (F.contains ·) = true) (hz : Framed rst F z s) : Framed rst F z (State.badPacket s p w readable smp) := by
  unfold State.badPacket
  try dsimp only
  repeat' first
    | with_reducible assumption
    | (with_reducible apply Or.inr; with_reducible rfl)
    | ((with_reducible apply Or.inl); exact Framed.mem hF rfl)
    | ((with_reducible apply Framed.sub (G := [.trb, .parts, .ints]) ?_ hF); rfl)
    | with_reducible apply State.trouble_framed
    | split

theorem State.arriveHrp_framed {rst : Bool} {F : List Field} {z s : State} {p : Nat} {ws : List Word} (hF : ([.parts, .hrpOut] : List Field).all (F.contains ·) = true) (hz : Framed rst F z s) : Framed rst F z (State.arriveHrp s p ws) := by
  unfold State.arriveHrp
  try dsimp only
  repeat' first
    | with_reducible assumption
    | (with_reducible apply Or.inr; with_reducible rfl)
    | ((with_reducible apply Or.inl); exact Framed.mem hF rfl)
    | ((with_reducible apply Framed.sub (G := [.parts, .hrpOut]) ?_ hF); rfl)
    | with_reducible apply State.refuseHrp_framed
    | with_reducible apply State.setPart_framed
    | split

theorem State.arriveSmp_framed {rst : Bool} {F : List Field} {z s : State} {ws : List Word} (hF : ([.cmi, .net, .hrpOut] : List Field).all (F.contains ·) = true) (hz : Framed rst F z s) : Framed rst F z (State.arriveSmp s ws) := by
  unfold State.arriveSmp
  try dsimp only
  repeat' first
    | with_reducible assumption
    | (with_reducible apply Or.inr; with_reducible rfl)
    | ((with_reducible apply Or.inl); exact Framed.mem hF rfl)
    | ((with_reducible apply Framed.sub (G := [.cmi, .net, .hrpOut]) ?_ hF); rfl)
    | with_reducible apply State.answer_framed
    | split
    | (refine Framed.of_mk ?_ (fun h => h) ?_ ?_ ?_ ?_ ?_ ?_ ?_ ?_ ?_ ?_ ?_ ?_ ?_ ?_ ?_ ?_ ?_ ?_ ?_ ?_ ?_ ?_ ?_ ?_ ?_ ?_ ?_ ?_)

theorem State.onCommandPacketArrival_framed {rst : Bool} {F : List Field} {z s1 : State} {via : Via} {words : List Word} {find : Find} {headerReadable : Bool} (hF : ([.trb, .parts, .ints, .cmi, .net, .hrpOut] : List Field).all (F.contains ·) = true) (hz : Framed rst F z s1) : Framed rst F z (State.onCommandPacketArrival s1 via words find headerReadable) := by
  unfold State.onCommandPacketArrival
  try dsimp only
  repeat' first
    | with_reducible assumption
    | (with_reducible apply Or.inr; with_reducible rfl)
    | ((with_reducible apply Or.inl); exact Framed.mem hF rfl)
    | ((with_reducible apply Framed.sub (G := [.trb, .parts, .ints, .cmi, .net, .hrpOut]) ?_ hF); rfl)
    | with_reducible apply State.badPacket_framed
    | with_reducible apply State.arriveHrp_framed
    | with_reducible apply State.ceCommand_framed
    | with_reducible apply State.arriveSmp_framed
    | split

theorem State.popPkt_framed {rst : Bool} {F : List Field} {z s : State}  (hF : ([.parts, .ints, .cmi, .clk] : List Field).all (F.contains ·) = true) (hz : Framed rst F z s) : Framed rst F z (State.popPkt s) := by
  unfold State.popPkt
  try dsimp only
  repeat' first
    | with_reducible assumption
    | (with_reducible apply Or.inr; with_reducible rfl)
    | ((with_reducible apply Or.inl); exact Framed.mem hF rfl)
    | ((with_reducible apply Framed.sub (G := [.parts, .ints, .cmi, .clk]) ?_ hF); rfl)
    | with_reducible apply State.setPart_framed
    | with_reducible apply State.raise_framed
    | split
    | (refine Framed.of_mk ?_ (fun h => h) ?_ ?_ ?_ ?_ ?_ ?_ ?_ ?_ ?_ ?_ ?_ ?_ ?_ ?_ ?_ ?_ ?_ ?_ ?_ ?_ ?_ ?_ ?_ ?_ ?_ ?_ ?_ ?_)

theorem State.refuseUnknown_framed {rst : Bool} {F : List Field} {z : State}  (hF : ([.parts, .ints, .cmi, .net, .clk, .hrpOut] : List Field).all (F.contains ·) = true) :
    ∀ {n : Nat} {s : State}, Framed rst F z s → Framed rst F z (State.refuseUnknown n s)
  | 0, _, hz => hz
  | n + 1, s, hz => by
    unfold State.refuseUnknown
    dsimp only
    repeat' first
      | with_reducible assumption
      | with_reducible apply (State.refuseUnknown_framed hF)
      | with_reducible apply State.answer_framed
      | with_reducible apply State.popPkt_framed
      | ((with_reducible apply Framed.sub (G := [.parts, .ints, .cmi, .net, .clk, .hrpOut]) ?_ hF); rfl)
      | split

theorem State.runCmd_framed {rst : Bool} {F : List Field} {z s : State} {op : Nat} {who : Issuer → List Word → Bool} {len : List Word → Option Nat} {bad : List Word → Bool} {act : Issuer → List Word → State → State} (hF : ([.parts, .ints, .cmi, .net, .clk, .hrpOut] : List Field).all (F.contains ·) = true) (hz : Framed rst F z s) (hact : ∀ x0 x1 x2, Framed rst F z x2 → Framed rst F z (act x0 x1 x2)) : Framed rst F z (State.runCmd s op who len bad act) := by
  unfold State.runCmd
  try dsimp only
  repeat' first
    | with_reducible assumption
    | (with_reducible apply Or.inr; with_reducible rfl)
    | ((with_reducible apply Or.inl); exact Framed.mem hF rfl)
    | ((with_reducible apply Framed.sub (G := [.parts, .ints, .cmi, .net, .clk, .hrpOut]) ?_ hF); rfl)
    | with_reducible apply State.refuseUnknown_framed
    | with_reducible apply State.popPkt_framed
    | with_reducible apply State.answer_framed
    | with_reducible apply hact
    | intro _
    | split

theorem State.onNop_framed {rst : Bool} {F : List Field} {z s : State}  (hF : ([.parts, .ints, .cmi, .net, .clk, .hrpOut] : List Field).all (F.contains ·) = true) (hz : Framed rst F z s) : Framed rst F z (State.onNop s) := by
  unfold State.onNop
  try dsimp only
  repeat' first
    | with_reducible assumption
    | (with_reducible apply Or.inr; with_reducible rfl)
    | ((with_reducible apply Or.inl); exact Framed.mem hF rfl)
    | ((with_reducible apply Framed.sub (G := [.parts, .ints, .cmi, .net, .clk, .hrpOut]) ?_ hF); rfl)
    | with_reducible apply State.runCmd_framed
    | with_reducible apply State.answer_framed
    | intro _
    | split

theorem State.negotiate_framed {rst : Bool} {F : List Field} {z s : State} {i : Issuer} (hF : ([.parts, .cmi] : List Field).all (F.contains ·) = true) (hz : Framed rst F z s) : Framed rst F z (State.negotiate s i) := by
  unfold State.negotiate
  try dsimp only
  repeat' first
    | with_reducible assumption
    | (with_reducible apply Or.inr; with_reducible rfl)
    | ((with_reducible apply Or.inl); exact Framed.mem hF rfl)
    | ((with_reducible apply Framed.sub (G := [.parts, .cmi]) ?_ hF); rfl)
    | with_reducible apply State.setPart_framed
    | split
    | (refine Framed.of_mk ?_ (fun h => h) ?_ ?_ ?_ ?_ ?_ ?_ ?_ ?_ ?_ ?_ ?_ ?_ ?_ ?_ ?_ ?_ ?_ ?_ ?_ ?_ ?_ ?_ ?_ ?_ ?_ ?_ ?_ ?_)

theorem State.onIdentify_framed {rst : Bool} {F : List Field} {z s : State}  (hF : ([.parts, .ints, .cmi, .net, .clk, .hrpOut] : List Field).all (F.contains ·) = true) (hz : Framed rst F z s) : Framed rst F z (State.onIdentify s) := by
  unfold State.onIdentify
  try dsimp only
  repeat' first
    | with_reducible assumption
    | (with_reducible apply Or.inr; with_reducible rfl)
    | ((with_reducible apply Or.inl); exact Framed.mem hF rfl)
    | ((with_reducible apply Framed.sub (G := [.parts, .ints, .cmi, .net, .clk, .hrpOut]) ?_ hF); rfl)
    | with_reducible apply State.runCmd_framed
    | with_reducible apply State.reply_framed
    | with_reducible apply State.negotiate_framed
    | intro _
    | split

theorem State.onCapsRead_framed {rst : Bool} {F : List Field} {z s : State}  (hF : ([.parts, .ints, .cmi, .net, .clk, .hrpOut] : List Field).all (F.contains ·) = true) (hz : Framed rst F z s) : Framed rst F z (State.onCapsRead s) := by
  unfold State.onCapsRead
  try dsimp only
  repeat' first
    | with_reducible assumption
    | (with_reducible apply Or.inr; with_reducible rfl)
    | ((with_reducible apply Or.inl); exact Framed.mem hF rfl)
    | ((with_reducible apply Framed.sub (G := [.parts, .ints, .cmi, .net, .clk, .hrpOut]) ?_ hF); rfl)
    | with_reducible apply State.runCmd_framed
    | with_reducible apply State.reply_framed
    | intro _
    | split

end Sys2Proof.Machine
end

