-- ==== Sys2Proof/Laws/FramedCapacity.lean ====
section
/-! SUPPORT. Capacity and the plan: the parts of the state that each operation may change, one lemma for each. -/
namespace Sys2Proof.Machine
set_option Elab.async false

theorem State.ageMargin_framed {rst : Bool} {F : List Field} {z s : State} {policy : Nat} (hF : ([.trb, .parts, .ints] : List Field).all (F.contains ·) = true) (hz : Framed rst F z s) : Framed rst F z (State.ageMargin s policy) := by
  unfold State.ageMargin
  try dsimp only
  repeat' first
    | with_reducible assumption
    | (with_reducible apply Or.inr; with_reducible rfl)
    | ((with_reducible apply Or.inl); exact Framed.mem hF rfl)
    | ((with_reducible apply Framed.sub (G := [.trb, .parts, .ints]) ?_ hF); rfl)
    | with_reducible apply State.trouble_framed
    | split

theorem State.marginWatch_framed {rst : Bool} {F : List Field} {z s : State} {extra : List (Nat × Nat)} (hF : ([.trb, .parts, .ints, .clk] : List Field).all (F.contains ·) = true) (hz : Framed rst F z s) : Framed rst F z (State.marginWatch s extra) := by
  unfold State.marginWatch
  try dsimp only
  repeat' first
    | with_reducible assumption
    | (with_reducible apply Or.inr; with_reducible rfl)
    | ((with_reducible apply Or.inl); exact Framed.mem hF rfl)
    | ((with_reducible apply Framed.sub (G := [.trb, .parts, .ints, .clk]) ?_ hF); rfl)
    | with_reducible apply State.ageMargin_framed
    | split
    | (refine Framed.of_mk ?_ (fun h => h) ?_ ?_ ?_ ?_ ?_ ?_ ?_ ?_ ?_ ?_ ?_ ?_ ?_ ?_ ?_ ?_ ?_ ?_ ?_ ?_ ?_ ?_ ?_ ?_ ?_ ?_ ?_ ?_)

theorem State.recompute_framed {rst : Bool} {F : List Field} {z s0 : State} {extra : List (Nat × Nat)} (hF : ([.trb, .parts, .ints, .bal, .clk] : List Field).all (F.contains ·) = true) (hz : Framed rst F z s0) : Framed rst F z (State.recompute s0 extra) := by
  unfold State.recompute
  try dsimp only
  repeat' first
    | with_reducible assumption
    | (with_reducible apply Or.inr; with_reducible rfl)
    | ((with_reducible apply Or.inl); exact Framed.mem hF rfl)
    | ((with_reducible apply Framed.sub (G := [.trb, .parts, .ints, .bal, .clk]) ?_ hF); rfl)
    | with_reducible apply State.marginWatch_framed
    | split
    | (refine Framed.of_mk ?_ (fun h => h) ?_ ?_ ?_ ?_ ?_ ?_ ?_ ?_ ?_ ?_ ?_ ?_ ?_ ?_ ?_ ?_ ?_ ?_ ?_ ?_ ?_ ?_ ?_ ?_ ?_ ?_ ?_ ?_)

end Sys2Proof.Machine
end

