-- ==== Sys2Proof/Laws/FramedSessionCmd.lean ====
section
/-! SUPPORT. The session commands: the parts of the state that each operation may change, one lemma for each. -/
namespace Sys2Proof.Machine
set_option Elab.async false

theorem State.session_framed {rst : Bool} {F : List Field} {z s : State} {i : Issuer} {w : Word} {gate : Bool} {role : Entry → Bool} {act : Nat → State} (hF : ([.cmi, .net, .hrpOut] : List Field).all (F.contains ·) = true) (hz : Framed rst F z s) (hact : ∀ x0, Framed rst F z (act x0)) : Framed rst F z (State.session s i w gate role act) := by
  unfold State.session
  try dsimp only
  repeat' first
    | with_reducible assumption
    | (with_reducible apply Or.inr; with_reducible rfl)
    | ((with_reducible apply Or.inl); exact Framed.mem hF rfl)
    | ((with_reducible apply Framed.sub (G := [.cmi, .net, .hrpOut]) ?_ hF); rfl)
    | with_reducible apply State.answer_framed
    | (exact hact _)
    | intro _
    | split

theorem State.freshState_framed {rst : Bool} {F : List Field} {z s : State} {slot : Nat} {q : OpenReq} (hF : ([.mem, .img, .net] : List Field).all (F.contains ·) = true) (hz : Framed rst F z s) : Framed rst F z (State.freshState s slot q) := by
  unfold State.freshState
  try dsimp only
  repeat' first
    | with_reducible assumption
    | (with_reducible apply Or.inr; with_reducible rfl)
    | ((with_reducible apply Or.inl); exact Framed.mem hF rfl)
    | ((with_reducible apply Framed.sub (G := [.mem, .img, .net]) ?_ hF); rfl)
    | with_reducible apply State.putMem_framed
    | with_reducible apply State.zeroMem_framed
    | with_reducible apply State.openRec_framed
    | with_reducible apply State.mirrorPut_framed
    | split

theorem State.allocate_framed {rst : Bool} {F : List Field} {z s : State} {slot : Nat} {e : Entry} (hF : ([.entries, .edge, .home, .slots, .ledgers, .net] : List Field).all (F.contains ·) = true) (hz : Framed rst F z s) : Framed rst F z (State.allocate s slot e) := by
  unfold State.allocate
  try dsimp only
  repeat' first
    | with_reducible assumption
    | (with_reducible apply Or.inr; with_reducible rfl)
    | ((with_reducible apply Or.inl); exact Framed.mem hF rfl)
    | ((with_reducible apply Framed.sub (G := [.entries, .edge, .home, .slots, .ledgers, .net]) ?_ hF); rfl)
    | with_reducible apply State.setEntry_framed
    | with_reducible apply State.setLedger_framed
    | with_reducible apply State.setSlot_framed
    | with_reducible apply State.setHome_framed
    | with_reducible apply State.setEdge_framed
    | split

theorem State.openHome_framed {rst : Bool} {F : List Field} {z s : State} {slot : Nat} {q : OpenReq} (hF : ([.home, .mem, .img, .net] : List Field).all (F.contains ·) = true) (hz : Framed rst F z s) : Framed rst F z (State.openHome s slot q) := by
  unfold State.openHome
  try dsimp only
  repeat' first
    | with_reducible assumption
    | (with_reducible apply Or.inr; with_reducible rfl)
    | ((with_reducible apply Or.inl); exact Framed.mem hF rfl)
    | ((with_reducible apply Framed.sub (G := [.home, .mem, .img, .net]) ?_ hF); rfl)
    | with_reducible apply State.freshState_framed
    | with_reducible apply State.setHome_framed
    | split

theorem State.openAccepted_framed {rst : Bool} {F : List Field} {z s : State} {i : Issuer} {q : OpenReq} {ws : List Word} (hF : ([.entries, .edge, .home, .slots, .ledgers, .cmi, .mem, .img, .net, .hrpOut] : List Field).all (F.contains ·) = true) (hz : Framed rst F z s) : Framed rst F z (State.openAccepted s i q ws) := by
  unfold State.openAccepted
  try dsimp only
  repeat' first
    | with_reducible assumption
    | (with_reducible apply Or.inr; with_reducible rfl)
    | ((with_reducible apply Or.inl); exact Framed.mem hF rfl)
    | ((with_reducible apply Framed.sub (G := [.entries, .edge, .home, .slots, .ledgers, .cmi, .mem, .img, .net, .hrpOut]) ?_ hF); rfl)
    | with_reducible apply State.openHome_framed
    | with_reducible apply State.allocate_framed
    | with_reducible apply State.reply_framed
    | with_reducible apply State.sendTo_framed
    | split

theorem State.openSession_framed {rst : Bool} {F : List Field} {z s : State} {i : Issuer} {ws : List Word} (hF : ([.trb, .entries, .edge, .home, .slots, .ledgers, .parts, .ints, .cmi, .mem, .img, .bal, .net, .clk, .hrpOut] : List Field).all (F.contains ·) = true) (hz : Framed rst F z s) : Framed rst F z (State.openSession s i ws) := by
  unfold State.openSession
  try dsimp only
  repeat' first
    | with_reducible assumption
    | (with_reducible apply Or.inr; with_reducible rfl)
    | ((with_reducible apply Or.inl); exact Framed.mem hF rfl)
    | ((with_reducible apply Framed.sub (G := [.trb, .entries, .edge, .home, .slots, .ledgers, .parts, .ints, .cmi, .mem, .img, .bal, .net, .clk, .hrpOut]) ?_ hF); rfl)
    | with_reducible apply State.recompute_framed
    | with_reducible apply State.answer_framed
    | with_reducible apply State.openAccepted_framed
    | split

theorem State.onSessionOpen_framed {rst : Bool} {F : List Field} {z s : State}  (hF : ([.trb, .entries, .edge, .home, .slots, .ledgers, .parts, .ints, .cmi, .mem, .img, .bal, .net, .clk, .hrpOut] : List Field).all (F.contains ·) = true) (hz : Framed rst F z s) : Framed rst F z (State.onSessionOpen s) := by
  unfold State.onSessionOpen
  try dsimp only
  repeat' first
    | with_reducible assumption
    | (with_reducible apply Or.inr; with_reducible rfl)
    | ((with_reducible apply Or.inl); exact Framed.mem hF rfl)
    | ((with_reducible apply Framed.sub (G := [.trb, .entries, .edge, .home, .slots, .ledgers, .parts, .ints, .cmi, .mem, .img, .bal, .net, .clk, .hrpOut]) ?_ hF); rfl)
    | with_reducible apply State.runCmd_framed
    | with_reducible apply State.openSession_framed
    | intro _
    | split

theorem State.openTurn_framed {rst : Bool} {F : List Field} {z s : State} {slot : Nat} (hF : ([.entries, .edge, .net] : List Field).all (F.contains ·) = true) (hz : Framed rst F z s) : Framed rst F z (State.openTurn s slot) := by
  unfold State.openTurn
  try dsimp only
  repeat' first
    | with_reducible assumption
    | (with_reducible apply Or.inr; with_reducible rfl)
    | ((with_reducible apply Or.inl); exact Framed.mem hF rfl)
    | ((with_reducible apply Framed.sub (G := [.entries, .edge, .net]) ?_ hF); rfl)
    | with_reducible apply State.setEntry_framed
    | with_reducible apply State.setEdge_framed
    | split

theorem State.chargeIn_framed {rst : Bool} {F : List Field} {z s : State} {slot : Nat} {n : Nat} (hF : ([.ledgers, .parts, .ints, .bal, .net] : List Field).all (F.contains ·) = true) (hz : Framed rst F z s) : Framed rst F z (State.chargeIn s slot n) := by
  unfold State.chargeIn
  try dsimp only
  repeat' first
    | with_reducible assumption
    | (with_reducible apply Or.inr; with_reducible rfl)
    | ((with_reducible apply Or.inl); exact Framed.mem hF rfl)
    | ((with_reducible apply Framed.sub (G := [.ledgers, .parts, .ints, .bal, .net]) ?_ hF); rfl)
    | with_reducible apply State.setLedger_framed
    | with_reducible apply State.levelSpent_framed
    | split
    | (refine Framed.of_mk ?_ (fun h => h) ?_ ?_ ?_ ?_ ?_ ?_ ?_ ?_ ?_ ?_ ?_ ?_ ?_ ?_ ?_ ?_ ?_ ?_ ?_ ?_ ?_ ?_ ?_ ?_ ?_ ?_ ?_ ?_)

theorem State.fixTIn_framed {rst : Bool} {F : List Field} {z s : State} {slot : Nat} (hF : ([.edge] : List Field).all (F.contains ·) = true) (hz : Framed rst F z s) : Framed rst F z (State.fixTIn s slot) := by
  unfold State.fixTIn
  try dsimp only
  repeat' first
    | with_reducible assumption
    | (with_reducible apply Or.inr; with_reducible rfl)
    | ((with_reducible apply Or.inl); exact Framed.mem hF rfl)
    | ((with_reducible apply Framed.sub (G := [.edge]) ?_ hF); rfl)
    | with_reducible apply State.setEdge_framed
    | split

theorem State.feedHome_framed {rst : Bool} {F : List Field} {z s : State} {slot : Nat} {i : Issuer} {ws : List Word} {first : Bool} {last : Bool} {toks : List Nat} {pos : Nat} {idx : Nat} (hF : ([.trb, .entries, .edge, .home, .parts, .cmi, .mem, .img, .net, .hrpOut] : List Field).all (F.contains ·) = true) (hz : Framed rst F z s) : Framed rst F z (State.feedHome s slot i ws first last toks pos idx) := by
  unfold State.feedHome
  try dsimp only
  repeat' first
    | with_reducible assumption
    | (with_reducible apply Or.inr; with_reducible rfl)
    | ((with_reducible apply Or.inl); exact Framed.mem hF rfl)
    | ((with_reducible apply Framed.sub (G := [.trb, .entries, .edge, .home, .parts, .cmi, .mem, .img, .net, .hrpOut]) ?_ hF); rfl)
    | with_reducible apply State.homeFeed_framed
    | with_reducible apply State.reply_framed
    | with_reducible apply State.holdReply_framed
    | with_reducible apply State.setHome_framed
    | with_reducible apply State.forward_framed
    | split

theorem State.undoFeed_framed {rst : Bool} {F : List Field} {z s : State} {slot : Nat} (hF : ([.entries, .edge, .ledgers, .bal, .net] : List Field).all (F.contains ·) = true) (hz : Framed rst F z s) : Framed rst F z (State.undoFeed s slot) := by
  unfold State.undoFeed
  try dsimp only
  repeat' first
    | with_reducible assumption
    | (with_reducible apply Or.inr; with_reducible rfl)
    | ((with_reducible apply Or.inl); exact Framed.mem hF rfl)
    | ((with_reducible apply Framed.sub (G := [.entries, .edge, .ledgers, .bal, .net]) ?_ hF); rfl)
    | with_reducible apply State.setEntry_framed
    | with_reducible apply State.setLedger_framed
    | with_reducible apply State.setEdge_framed
    | split
    | (refine Framed.of_mk ?_ (fun h => h) ?_ ?_ ?_ ?_ ?_ ?_ ?_ ?_ ?_ ?_ ?_ ?_ ?_ ?_ ?_ ?_ ?_ ?_ ?_ ?_ ?_ ?_ ?_ ?_ ?_ ?_ ?_ ?_)

theorem State.feedAccepted_framed {rst : Bool} {F : List Field} {z s : State} {slot : Nat} {i : Issuer} {w : Word} {ws : List Word} {toks : List Nat} (hF : ([.trb, .entries, .edge, .home, .slots, .ledgers, .parts, .ints, .cmi, .mem, .img, .bal, .net, .fsp, .tier, .hrpOut] : List Field).all (F.contains ·) = true) (hz : Framed rst F z s) : Framed rst F z (State.feedAccepted s slot i w ws toks) := by
  unfold State.feedAccepted
  try dsimp only
  repeat' first
    | with_reducible assumption
    | (with_reducible apply Or.inr; with_reducible rfl)
    | ((with_reducible apply Or.inl); exact Framed.mem hF rfl)
    | ((with_reducible apply Framed.sub (G := [.trb, .entries, .edge, .home, .slots, .ledgers, .parts, .ints, .cmi, .mem, .img, .bal, .net, .fsp, .tier, .hrpOut]) ?_ hF); rfl)
    | with_reducible apply State.endStream_framed
    | with_reducible apply State.chargeIn_framed
    | with_reducible apply State.openTurn_framed
    | with_reducible apply State.writeIn_framed
    | with_reducible apply State.setEntry_framed
    | with_reducible apply State.setEdge_framed
    | with_reducible apply State.fixTIn_framed
    | with_reducible apply State.feedHome_framed
    | split

theorem State.feedSession_framed {rst : Bool} {F : List Field} {z s : State} {i : Issuer} {ps : List Word} {ws : List Word} {slot : Nat} (hF : ([.trb, .entries, .edge, .home, .slots, .ledgers, .parts, .ints, .cmi, .mem, .img, .bal, .net, .fsp, .tier, .hrpOut] : List Field).all (F.contains ·) = true) (hz : Framed rst F z s) : Framed rst F z (State.feedSession s i ps ws slot) := by
  unfold State.feedSession
  try dsimp only
  repeat' first
    | with_reducible assumption
    | (with_reducible apply Or.inr; with_reducible rfl)
    | ((with_reducible apply Or.inl); exact Framed.mem hF rfl)
    | ((with_reducible apply Framed.sub (G := [.trb, .entries, .edge, .home, .slots, .ledgers, .parts, .ints, .cmi, .mem, .img, .bal, .net, .fsp, .tier, .hrpOut]) ?_ hF); rfl)
    | with_reducible apply State.streamDue_framed
    | with_reducible apply State.answer_framed
    | with_reducible apply State.setLedger_framed
    | with_reducible apply State.feedAccepted_framed
    | split

theorem State.onSessionFeed_framed {rst : Bool} {F : List Field} {z s : State}  (hF : ([.trb, .entries, .edge, .home, .slots, .ledgers, .parts, .ints, .cmi, .mem, .img, .bal, .net, .fsp, .tier, .clk, .hrpOut] : List Field).all (F.contains ·) = true) (hz : Framed rst F z s) : Framed rst F z (State.onSessionFeed s) := by
  unfold State.onSessionFeed
  try dsimp only
  repeat' first
    | with_reducible assumption
    | (with_reducible apply Or.inr; with_reducible rfl)
    | ((with_reducible apply Or.inl); exact Framed.mem hF rfl)
    | ((with_reducible apply Framed.sub (G := [.trb, .entries, .edge, .home, .slots, .ledgers, .parts, .ints, .cmi, .mem, .img, .bal, .net, .fsp, .tier, .clk, .hrpOut]) ?_ hF); rfl)
    | with_reducible apply State.runCmd_framed
    | with_reducible apply State.session_framed
    | with_reducible apply State.feedSession_framed
    | intro _
    | split

theorem State.closeHome_framed {rst : Bool} {F : List Field} {z s : State} {i : Issuer} {slot : Nat} (hF : ([.entries, .edge, .home, .slots, .ledgers, .parts, .ints, .cmi, .mem, .img, .net, .fsp, .tier, .hrpOut] : List Field).all (F.contains ·) = true) (hz : Framed rst F z s) : Framed rst F z (State.closeHome s i slot) := by
  unfold State.closeHome
  try dsimp only
  repeat' first
    | with_reducible assumption
    | (with_reducible apply Or.inr; with_reducible rfl)
    | ((with_reducible apply Or.inl); exact Framed.mem hF rfl)
    | ((with_reducible apply Framed.sub (G := [.entries, .edge, .home, .slots, .ledgers, .parts, .ints, .cmi, .mem, .img, .net, .fsp, .tier, .hrpOut]) ?_ hF); rfl)
    | with_reducible apply State.answer_framed
    | with_reducible apply State.startClose_framed
    | with_reducible apply State.holdReply_framed
    | with_reducible apply State.setHome_framed
    | split

theorem State.closeEdge_framed {rst : Bool} {F : List Field} {z s : State} {i : Issuer} {ws : List Word} {slot : Nat} (hF : ([.entries, .cmi, .net, .hrpOut] : List Field).all (F.contains ·) = true) (hz : Framed rst F z s) : Framed rst F z (State.closeEdge s i ws slot) := by
  unfold State.closeEdge
  try dsimp only
  repeat' first
    | with_reducible assumption
    | (with_reducible apply Or.inr; with_reducible rfl)
    | ((with_reducible apply Or.inl); exact Framed.mem hF rfl)
    | ((with_reducible apply Framed.sub (G := [.entries, .cmi, .net, .hrpOut]) ?_ hF); rfl)
    | with_reducible apply State.answer_framed
    | with_reducible apply State.forward_framed
    | with_reducible apply State.holdReply_framed
    | split

theorem State.onSessionClose_framed {rst : Bool} {F : List Field} {z s : State}  (hF : ([.entries, .edge, .home, .slots, .ledgers, .parts, .ints, .cmi, .mem, .img, .net, .fsp, .tier, .clk, .hrpOut] : List Field).all (F.contains ·) = true) (hz : Framed rst F z s) : Framed rst F z (State.onSessionClose s) := by
  unfold State.onSessionClose
  try dsimp only
  repeat' first
    | with_reducible assumption
    | (with_reducible apply Or.inr; with_reducible rfl)
    | ((with_reducible apply Or.inl); exact Framed.mem hF rfl)
    | ((with_reducible apply Framed.sub (G := [.entries, .edge, .home, .slots, .ledgers, .parts, .ints, .cmi, .mem, .img, .net, .fsp, .tier, .clk, .hrpOut]) ?_ hF); rfl)
    | with_reducible apply State.runCmd_framed
    | with_reducible apply State.session_framed
    | with_reducible apply State.closeHome_framed
    | with_reducible apply State.closeEdge_framed
    | intro _
    | split

theorem State.onSessionCancel_framed {rst : Bool} {F : List Field} {z s : State}  (hF : ([.entries, .edge, .home, .slots, .ledgers, .parts, .ints, .cmi, .mem, .img, .net, .fsp, .tier, .clk, .hrpOut] : List Field).all (F.contains ·) = true) (hz : Framed rst F z s) : Framed rst F z (State.onSessionCancel s) := by
  unfold State.onSessionCancel
  try dsimp only
  repeat' first
    | with_reducible assumption
    | (with_reducible apply Or.inr; with_reducible rfl)
    | ((with_reducible apply Or.inl); exact Framed.mem hF rfl)
    | ((with_reducible apply Framed.sub (G := [.entries, .edge, .home, .slots, .ledgers, .parts, .ints, .cmi, .mem, .img, .net, .fsp, .tier, .clk, .hrpOut]) ?_ hF); rfl)
    | with_reducible apply State.runCmd_framed
    | with_reducible apply State.session_framed
    | with_reducible apply State.answer_framed
    | with_reducible apply State.cancelAll_framed
    | intro _
    | split

theorem State.onSessionQuery_framed {F : List Field} {z s0 : State} {find : WordFind} (hF : ([.trb, .entries, .edge, .home, .slots, .ledgers, .parts, .ints, .cmi, .mem, .img, .net, .fsp, .tier, .clk, .hrpOut] : List Field).all (F.contains ·) = true) (hz : Framed true F z s0) : Framed true F z (State.onSessionQuery s0 find) := by
  unfold State.onSessionQuery
  try dsimp only
  repeat' first
    | with_reducible assumption
    | (with_reducible apply Or.inr; with_reducible rfl)
    | ((with_reducible apply Or.inl); exact Framed.mem hF rfl)
    | ((with_reducible apply Framed.sub (G := [.trb, .entries, .edge, .home, .slots, .ledgers, .parts, .ints, .cmi, .mem, .img, .net, .fsp, .tier, .clk, .hrpOut]) ?_ hF); rfl)
    | with_reducible apply State.refuseUnknown_framed
    | with_reducible apply State.entryCheck_framed
    | with_reducible apply State.runCmd_framed
    | with_reducible apply State.session_framed
    | with_reducible apply State.reply_framed
    | intro _
    | split

theorem State.setStops_framed {rst : Bool} {F : List Field} {z s : State} {slot : Nat} {k : Nat} {tok : Nat} {en : Bool} (hF : ([.entries, .net] : List Field).all (F.contains ·) = true) (hz : Framed rst F z s) : Framed rst F z (State.setStops s slot k tok en) := by
  unfold State.setStops
  try dsimp only
  repeat' first
    | with_reducible assumption
    | (with_reducible apply Or.inr; with_reducible rfl)
    | ((with_reducible apply Or.inl); exact Framed.mem hF rfl)
    | ((with_reducible apply Framed.sub (G := [.entries, .net]) ?_ hF); rfl)
    | with_reducible apply State.setEntry_framed
    | split

theorem State.stopSetAt_framed {rst : Bool} {F : List Field} {z s : State} {i : Issuer} {w : Word} {fwd : List Word} {slot : Nat} (hF : ([.entries, .cmi, .net, .hrpOut] : List Field).all (F.contains ·) = true) (hz : Framed rst F z s) : Framed rst F z (State.stopSetAt s i w fwd slot) := by
  unfold State.stopSetAt
  try dsimp only
  repeat' first
    | with_reducible assumption
    | (with_reducible apply Or.inr; with_reducible rfl)
    | ((with_reducible apply Or.inl); exact Framed.mem hF rfl)
    | ((with_reducible apply Framed.sub (G := [.entries, .cmi, .net, .hrpOut]) ?_ hF); rfl)
    | with_reducible apply State.answer_framed
    | with_reducible apply State.setStops_framed
    | with_reducible apply State.forward_framed
    | with_reducible apply State.holdReply_framed
    | split

theorem State.onStopSet_framed {rst : Bool} {F : List Field} {z s : State}  (hF : ([.entries, .parts, .ints, .cmi, .net, .clk, .hrpOut] : List Field).all (F.contains ·) = true) (hz : Framed rst F z s) : Framed rst F z (State.onStopSet s) := by
  unfold State.onStopSet
  try dsimp only
  repeat' first
    | with_reducible assumption
    | (with_reducible apply Or.inr; with_reducible rfl)
    | ((with_reducible apply Or.inl); exact Framed.mem hF rfl)
    | ((with_reducible apply Framed.sub (G := [.entries, .parts, .ints, .cmi, .net, .clk, .hrpOut]) ?_ hF); rfl)
    | with_reducible apply State.runCmd_framed
    | with_reducible apply State.session_framed
    | with_reducible apply State.stopSetAt_framed
    | intro _
    | split

theorem State.resolveAt_framed {rst : Bool} {F : List Field} {z s : State} {i : Issuer} {c : Nat} {n : Nat} {slot : Nat} (hF : ([.trb, .entries, .edge, .home, .slots, .ledgers, .parts, .ints, .cmi, .mem, .img, .bal, .net, .fsp, .tier, .hrpOut] : List Field).all (F.contains ·) = true) (hz : Framed rst F z s) : Framed rst F z (State.resolveAt s i c n slot) := by
  unfold State.resolveAt
  try dsimp only
  repeat' first
    | with_reducible assumption
    | (with_reducible apply Or.inr; with_reducible rfl)
    | ((with_reducible apply Or.inl); exact Framed.mem hF rfl)
    | ((with_reducible apply Framed.sub (G := [.trb, .entries, .edge, .home, .slots, .ledgers, .parts, .ints, .cmi, .mem, .img, .bal, .net, .fsp, .tier, .hrpOut]) ?_ hF); rfl)
    | with_reducible apply State.answer_framed
    | with_reducible apply State.resolveStep_framed
    | (with_reducible refine State.resolveStep_framed_eq (by with_reducible assumption) ?_ ?_)
    | with_reducible apply State.reply_framed
    | split

theorem State.onDraftResolve_framed {rst : Bool} {F : List Field} {z s : State}  (hF : ([.trb, .entries, .edge, .home, .slots, .ledgers, .parts, .ints, .cmi, .mem, .img, .bal, .net, .fsp, .tier, .clk, .hrpOut] : List Field).all (F.contains ·) = true) (hz : Framed rst F z s) : Framed rst F z (State.onDraftResolve s) := by
  unfold State.onDraftResolve
  try dsimp only
  repeat' first
    | with_reducible assumption
    | (with_reducible apply Or.inr; with_reducible rfl)
    | ((with_reducible apply Or.inl); exact Framed.mem hF rfl)
    | ((with_reducible apply Framed.sub (G := [.trb, .entries, .edge, .home, .slots, .ledgers, .parts, .ints, .cmi, .mem, .img, .bal, .net, .fsp, .tier, .clk, .hrpOut]) ?_ hF); rfl)
    | with_reducible apply State.runCmd_framed
    | with_reducible apply State.session_framed
    | with_reducible apply State.resolveAt_framed
    | intro _
    | split

end Sys2Proof.Machine
end

