-- ==== Sys2Proof/Laws/FramedTenantCmd.lean ====
section
/-! SUPPORT. Tenants and partitions: the parts of the state that each operation may change, one lemma for each. -/
namespace Sys2Proof.Machine
set_option Elab.async false

theorem State.tenantCmd_framed {rst : Bool} {F : List Field} {z s : State} {i : Issuer} {ps : List Word} {act : Nat → State} (hF : ([.cmi, .net, .hrpOut] : List Field).all (F.contains ·) = true) (hz : Framed rst F z s) (hact : ∀ x0, Framed rst F z (act x0)) : Framed rst F z (State.tenantCmd s i ps act) := by
  unfold State.tenantCmd
  try dsimp only
  repeat' first
    | with_reducible assumption
    | (with_reducible apply Or.inr; with_reducible rfl)
    | ((with_reducible apply Or.inl); exact Framed.mem hF rfl)
    | ((with_reducible apply Framed.sub (G := [.cmi, .net, .hrpOut]) ?_ hF); rfl)
    | with_reducible apply State.answer_framed
    | (exact hact _)
    | intro _
    | split

theorem State.levelsGone_framed {rst : Bool} {F : List Field} {z s : State} {t : Nat} {old : Ledger} (hF : ([.parts, .ints] : List Field).all (F.contains ·) = true) (hz : Framed rst F z s) : Framed rst F z (State.levelsGone s t old) := by
  unfold State.levelsGone
  try dsimp only
  repeat' first
    | with_reducible assumption
    | (with_reducible apply Or.inr; with_reducible rfl)
    | ((with_reducible apply Or.inl); exact Framed.mem hF rfl)
    | ((with_reducible apply Framed.sub (G := [.parts, .ints]) ?_ hF); rfl)
    | with_reducible apply State.levelSpent_framed
    | split
    | (refine Framed.foldl (fun _ _ _ => ?_) ?_)

theorem State.setTenant_framed {rst : Bool} {F : List Field} {z s : State} {t : Nat} {valid : Bool} {weight : Nat} {salt : Word} (hF : ([.ledgers, .parts, .ints, .net] : List Field).all (F.contains ·) = true) (hz : Framed rst F z s) : Framed rst F z (State.setTenant s t valid weight salt) := by
  unfold State.setTenant
  try dsimp only
  repeat' first
    | with_reducible assumption
    | (with_reducible apply Or.inr; with_reducible rfl)
    | ((with_reducible apply Or.inl); exact Framed.mem hF rfl)
    | ((with_reducible apply Framed.sub (G := [.ledgers, .parts, .ints, .net]) ?_ hF); rfl)
    | with_reducible apply State.setLedger_framed
    | with_reducible apply State.levelsGone_framed
    | split

theorem State.onTenantSet_framed {rst : Bool} {F : List Field} {z s : State}  (hF : ([.ledgers, .parts, .ints, .cmi, .net, .clk, .hrpOut] : List Field).all (F.contains ·) = true) (hz : Framed rst F z s) : Framed rst F z (State.onTenantSet s) := by
  unfold State.onTenantSet
  try dsimp only
  repeat' first
    | with_reducible assumption
    | (with_reducible apply Or.inr; with_reducible rfl)
    | ((with_reducible apply Or.inl); exact Framed.mem hF rfl)
    | ((with_reducible apply Framed.sub (G := [.ledgers, .parts, .ints, .cmi, .net, .clk, .hrpOut]) ?_ hF); rfl)
    | with_reducible apply State.runCmd_framed
    | with_reducible apply State.tenantCmd_framed
    | with_reducible apply State.answer_framed
    | with_reducible apply State.setTenant_framed
    | intro _
    | split

theorem State.setLevel_framed {rst : Bool} {F : List Field} {z s : State} {t : Nat} {b : Nat} {rate : Nat} {burst : Nat} {level : Int} (hF : ([.ledgers, .parts, .ints, .net] : List Field).all (F.contains ·) = true) (hz : Framed rst F z s) : Framed rst F z (State.setLevel s t b rate burst level) := by
  unfold State.setLevel
  try dsimp only
  repeat' first
    | with_reducible assumption
    | (with_reducible apply Or.inr; with_reducible rfl)
    | ((with_reducible apply Or.inl); exact Framed.mem hF rfl)
    | ((with_reducible apply Framed.sub (G := [.ledgers, .parts, .ints, .net]) ?_ hF); rfl)
    | with_reducible apply State.setLedger_framed
    | with_reducible apply State.levelSpent_framed
    | split

theorem State.onBudgetGrant_framed {rst : Bool} {F : List Field} {z s : State}  (hF : ([.ledgers, .parts, .ints, .cmi, .net, .clk, .hrpOut] : List Field).all (F.contains ·) = true) (hz : Framed rst F z s) : Framed rst F z (State.onBudgetGrant s) := by
  unfold State.onBudgetGrant
  try dsimp only
  repeat' first
    | with_reducible assumption
    | (with_reducible apply Or.inr; with_reducible rfl)
    | ((with_reducible apply Or.inl); exact Framed.mem hF rfl)
    | ((with_reducible apply Framed.sub (G := [.ledgers, .parts, .ints, .cmi, .net, .clk, .hrpOut]) ?_ hF); rfl)
    | with_reducible apply State.runCmd_framed
    | with_reducible apply State.tenantCmd_framed
    | with_reducible apply State.answer_framed
    | with_reducible apply State.reply_framed
    | with_reducible apply State.setLevel_framed
    | intro _
    | split

theorem State.onBudgetRead_framed {rst : Bool} {F : List Field} {z s : State}  (hF : ([.parts, .ints, .cmi, .net, .clk, .hrpOut] : List Field).all (F.contains ·) = true) (hz : Framed rst F z s) : Framed rst F z (State.onBudgetRead s) := by
  unfold State.onBudgetRead
  try dsimp only
  repeat' first
    | with_reducible assumption
    | (with_reducible apply Or.inr; with_reducible rfl)
    | ((with_reducible apply Or.inl); exact Framed.mem hF rfl)
    | ((with_reducible apply Framed.sub (G := [.parts, .ints, .cmi, .net, .clk, .hrpOut]) ?_ hF); rfl)
    | with_reducible apply State.runCmd_framed
    | with_reducible apply State.tenantCmd_framed
    | with_reducible apply State.reply_framed
    | intro _
    | split

theorem State.onPartitionConfig_framed {rst : Bool} {F : List Field} {z s : State}  (hF : ([.parts, .ints, .cmi, .net, .clk, .hrpOut] : List Field).all (F.contains ·) = true) (hz : Framed rst F z s) : Framed rst F z (State.onPartitionConfig s) := by
  unfold State.onPartitionConfig
  try dsimp only
  repeat' first
    | with_reducible assumption
    | (with_reducible apply Or.inr; with_reducible rfl)
    | ((with_reducible apply Or.inl); exact Framed.mem hF rfl)
    | ((with_reducible apply Framed.sub (G := [.parts, .ints, .cmi, .net, .clk, .hrpOut]) ?_ hF); rfl)
    | with_reducible apply State.runCmd_framed
    | with_reducible apply State.answer_framed
    | with_reducible apply State.setPart_framed
    | intro _
    | split

theorem State.startPartReset_framed {rst : Bool} {F : List Field} {z s : State} {i : Issuer} {p : Nat} (hF : ([.rs, .entries, .edge, .home, .slots, .ledgers, .parts, .ints, .cmi, .mem, .img, .net, .fsp, .tier, .hrpOut] : List Field).all (F.contains ·) = true) (hz : Framed rst F z s) : Framed rst F z (State.startPartReset s i p) := by
  unfold State.startPartReset
  try dsimp only
  repeat' first
    | with_reducible assumption
    | (with_reducible apply Or.inr; with_reducible rfl)
    | ((with_reducible apply Or.inl); exact Framed.mem hF rfl)
    | ((with_reducible apply Framed.sub (G := [.rs, .entries, .edge, .home, .slots, .ledgers, .parts, .ints, .cmi, .mem, .img, .net, .fsp, .tier, .hrpOut]) ?_ hF); rfl)
    | with_reducible apply State.setPart_framed
    | with_reducible apply State.cancelAll_framed
    | split
    | (refine Framed.foldl (fun _ _ _ => ?_) ?_)
    | (refine Framed.of_mk ?_ (fun h => h) ?_ ?_ ?_ ?_ ?_ ?_ ?_ ?_ ?_ ?_ ?_ ?_ ?_ ?_ ?_ ?_ ?_ ?_ ?_ ?_ ?_ ?_ ?_ ?_ ?_ ?_ ?_ ?_)

theorem State.onPartitionReset_framed {rst : Bool} {F : List Field} {z s : State}  (hF : ([.rs, .entries, .edge, .home, .slots, .ledgers, .parts, .ints, .cmi, .mem, .img, .net, .fsp, .tier, .clk, .hrpOut] : List Field).all (F.contains ·) = true) (hz : Framed rst F z s) : Framed rst F z (State.onPartitionReset s) := by
  unfold State.onPartitionReset
  try dsimp only
  repeat' first
    | with_reducible assumption
    | (with_reducible apply Or.inr; with_reducible rfl)
    | ((with_reducible apply Or.inl); exact Framed.mem hF rfl)
    | ((with_reducible apply Framed.sub (G := [.rs, .entries, .edge, .home, .slots, .ledgers, .parts, .ints, .cmi, .mem, .img, .net, .fsp, .tier, .clk, .hrpOut]) ?_ hF); rfl)
    | with_reducible apply State.runCmd_framed
    | with_reducible apply State.startPartReset_framed
    | with_reducible apply State.answer_framed
    | intro _
    | split

theorem State.clearPart_framed {rst : Bool} {F : List Field} {z s : State} {r : PartRst} (hF : ([.rs, .parts, .ints] : List Field).all (F.contains ·) = true) (hz : Framed rst F z s) : Framed rst F z (State.clearPart s r) := by
  unfold State.clearPart
  try dsimp only
  repeat' first
    | with_reducible assumption
    | (with_reducible apply Or.inr; with_reducible rfl)
    | ((with_reducible apply Or.inl); exact Framed.mem hF rfl)
    | ((with_reducible apply Framed.sub (G := [.rs, .parts, .ints]) ?_ hF); rfl)
    | with_reducible apply State.setPart_framed
    | split
    | (refine Framed.of_mk ?_ (fun h => h) ?_ ?_ ?_ ?_ ?_ ?_ ?_ ?_ ?_ ?_ ?_ ?_ ?_ ?_ ?_ ?_ ?_ ?_ ?_ ?_ ?_ ?_ ?_ ?_ ?_ ?_ ?_ ?_)

theorem State.clearParts_framed {rst : Bool} {F : List Field} {z s : State}  (hF : ([.rs, .parts, .ints] : List Field).all (F.contains ·) = true) (hz : Framed rst F z s) : Framed rst F z (State.clearParts s) := by
  unfold State.clearParts
  try dsimp only
  repeat' first
    | with_reducible assumption
    | (with_reducible apply Or.inr; with_reducible rfl)
    | ((with_reducible apply Or.inl); exact Framed.mem hF rfl)
    | ((with_reducible apply Framed.sub (G := [.rs, .parts, .ints]) ?_ hF); rfl)
    | with_reducible apply State.clearPart_framed
    | split
    | (refine Framed.foldl (fun _ _ _ => ?_) ?_)

theorem State.onPartitionResetDone_framed {rst : Bool} {F : List Field} {z s1 : State} {part : Nat} (hF : ([.rs, .parts, .cmi, .net, .hrpOut] : List Field).all (F.contains ·) = true) (hz : Framed rst F z s1) : Framed rst F z (State.onPartitionResetDone s1 part) := by
  unfold State.onPartitionResetDone
  try dsimp only
  repeat' first
    | with_reducible assumption
    | (with_reducible apply Or.inr; with_reducible rfl)
    | ((with_reducible apply Or.inl); exact Framed.mem hF rfl)
    | ((with_reducible apply Framed.sub (G := [.rs, .parts, .cmi, .net, .hrpOut]) ?_ hF); rfl)
    | with_reducible apply State.answer_framed
    | with_reducible apply State.setPart_framed
    | split
    | (refine Framed.of_mk ?_ (fun h => h) ?_ ?_ ?_ ?_ ?_ ?_ ?_ ?_ ?_ ?_ ?_ ?_ ?_ ?_ ?_ ?_ ?_ ?_ ?_ ?_ ?_ ?_ ?_ ?_ ?_ ?_ ?_ ?_)

end Sys2Proof.Machine
end

