-- ==== Sys2Proof/Laws/FramedLanes.lean ====
section
/-! SUPPORT. The fabric lanes: the parts of the state that each operation may change, one lemma for each. -/
namespace Sys2Proof.Machine
set_option Elab.async false

theorem State.setLane_framed {rst : Bool} {F : List Field} {z s : State} {egress : Bool} {l : Nat} {v : Lane} (hF : ([.fsp] : List Field).all (F.contains ·) = true) (hz : Framed rst F z s) : Framed rst F z (State.setLane s egress l v) := by
  unfold State.setLane
  try dsimp only
  repeat' first
    | with_reducible assumption
    | (with_reducible apply Or.inr; with_reducible rfl)
    | ((with_reducible apply Or.inl); exact Framed.mem hF rfl)
    | ((with_reducible apply Framed.sub (G := [.fsp]) ?_ hF); rfl)
    | with_reducible apply State.setOutLane_framed
    | with_reducible apply State.setInLane_framed
    | split

theorem State.logSlip_framed {rst : Bool} {F : List Field} {z s : State} {ev : SlipEv} (hF : ([.fsp] : List Field).all (F.contains ·) = true) (hz : Framed rst F z s) : Framed rst F z (State.logSlip s ev) := by
  unfold State.logSlip
  try dsimp only
  repeat' first
    | with_reducible assumption
    | (with_reducible apply Or.inr; with_reducible rfl)
    | ((with_reducible apply Or.inl); exact Framed.mem hF rfl)
    | ((with_reducible apply Framed.sub (G := [.fsp]) ?_ hF); rfl)
    | split
    | (refine Framed.of_mk ?_ (fun h => h) ?_ ?_ ?_ ?_ ?_ ?_ ?_ ?_ ?_ ?_ ?_ ?_ ?_ ?_ ?_ ?_ ?_ ?_ ?_ ?_ ?_ ?_ ?_ ?_ ?_ ?_ ?_ ?_)

theorem State.slip_framed {rst : Bool} {F : List Field} {z s : State} {egress : Bool} {l : Nat} {slot : Nat} {h : Nat} {sources : Nat} {counted : Bool} (hF : ([.parts, .ints, .fsp] : List Field).all (F.contains ·) = true) (hz : Framed rst F z s) : Framed rst F z (State.slip s egress l slot h sources counted) := by
  unfold State.slip
  try dsimp only
  repeat' first
    | with_reducible assumption
    | (with_reducible apply Or.inr; with_reducible rfl)
    | ((with_reducible apply Or.inl); exact Framed.mem hF rfl)
    | ((with_reducible apply Framed.sub (G := [.parts, .ints, .fsp]) ?_ hF); rfl)
    | with_reducible apply State.setLane_framed
    | with_reducible apply State.raise_framed
    | with_reducible apply State.logSlip_framed
    | split
    | (refine Framed.of_mk ?_ (fun h => h) ?_ ?_ ?_ ?_ ?_ ?_ ?_ ?_ ?_ ?_ ?_ ?_ ?_ ?_ ?_ ?_ ?_ ?_ ?_ ?_ ?_ ?_ ?_ ?_ ?_ ?_ ?_ ?_)

theorem State.started_framed {rst : Bool} {F : List Field} {z s : State} {egress : Bool} {l : Nat} {n : Nat} (hF : ([.fsp] : List Field).all (F.contains ·) = true) (hz : Framed rst F z s) : Framed rst F z (State.started s egress l n) := by
  unfold State.started
  try dsimp only
  repeat' first
    | with_reducible assumption
    | (with_reducible apply Or.inr; with_reducible rfl)
    | ((with_reducible apply Or.inl); exact Framed.mem hF rfl)
    | ((with_reducible apply Framed.sub (G := [.fsp]) ?_ hF); rfl)
    | with_reducible apply State.setLane_framed
    | split

theorem State.overrun_framed {F : List Field} {z s : State} {egress : Bool} {l : Nat} (hF : ([] : List Field).all (F.contains ·) = true) (hz : Framed true F z s) : Framed true F z (State.overrun s egress l) := by
  unfold State.overrun
  try dsimp only
  repeat' first
    | with_reducible assumption
    | (with_reducible apply Or.inr; with_reducible rfl)
    | ((with_reducible apply Or.inl); exact Framed.mem hF rfl)
    | ((with_reducible apply Framed.sub (G := []) ?_ hF); rfl)
    | with_reducible apply State.jobFault_framed
    | split

theorem State.setOp_framed {rst : Bool} {F : List Field} {z s : State} {o : TierOp} {n : TierOp} (hF : ([.tier] : List Field).all (F.contains ·) = true) (hz : Framed rst F z s) : Framed rst F z (State.setOp s o n) := by
  unfold State.setOp
  try dsimp only
  repeat' first
    | with_reducible assumption
    | (with_reducible apply Or.inr; with_reducible rfl)
    | ((with_reducible apply Or.inl); exact Framed.mem hF rfl)
    | ((with_reducible apply Framed.sub (G := [.tier]) ?_ hF); rfl)
    | split
    | (refine Framed.of_mk ?_ (fun h => h) ?_ ?_ ?_ ?_ ?_ ?_ ?_ ?_ ?_ ?_ ?_ ?_ ?_ ?_ ?_ ?_ ?_ ?_ ?_ ?_ ?_ ?_ ?_ ?_ ?_ ?_ ?_ ?_)

theorem State.opReply_framed {rst : Bool} {F : List Field} {z s : State} {o : TierOp} {st : Status} {result : List Word} (hF : ([.entries, .cmi, .net, .hrpOut] : List Field).all (F.contains ·) = true) (hz : Framed rst F z s) : Framed rst F z (State.opReply s o st result) := by
  unfold State.opReply
  try dsimp only
  repeat' first
    | with_reducible assumption
    | (with_reducible apply Or.inr; with_reducible rfl)
    | ((with_reducible apply Or.inl); exact Framed.mem hF rfl)
    | ((with_reducible apply Framed.sub (G := [.entries, .cmi, .net, .hrpOut]) ?_ hF); rfl)
    | with_reducible apply State.endPendWith_framed
    | with_reducible apply State.reply_framed
    | split

theorem State.abandonEntry_framed {rst : Bool} {F : List Field} {z s : State} {k : OpKind} (hF : ([.entries, .edge, .home, .slots, .ledgers, .net] : List Field).all (F.contains ·) = true) (hz : Framed rst F z s) : Framed rst F z (State.abandonEntry s k) := by
  unfold State.abandonEntry
  try dsimp only
  repeat' first
    | with_reducible assumption
    | (with_reducible apply Or.inr; with_reducible rfl)
    | ((with_reducible apply Or.inl); exact Framed.mem hF rfl)
    | ((with_reducible apply Framed.sub (G := [.entries, .edge, .home, .slots, .ledgers, .net]) ?_ hF); rfl)
    | with_reducible apply State.freeEntry_framed
    | with_reducible apply State.setEntry_framed
    | split

theorem State.abandon_framed {rst : Bool} {F : List Field} {z s : State} {o : TierOp} {slips : Bool} {counted : Bool} (hF : ([.entries, .edge, .home, .slots, .ledgers, .cmi, .mem, .img, .net, .fsp, .tier, .hrpOut] : List Field).all (F.contains ·) = true) (hz : Framed rst F z s) : Framed rst F z (State.abandon s o slips counted) := by
  unfold State.abandon
  try dsimp only
  repeat' first
    | with_reducible assumption
    | (with_reducible apply Or.inr; with_reducible rfl)
    | ((with_reducible apply Or.inl); exact Framed.mem hF rfl)
    | ((with_reducible apply Framed.sub (G := [.entries, .edge, .home, .slots, .ledgers, .cmi, .mem, .img, .net, .fsp, .tier, .hrpOut]) ?_ hF); rfl)
    | with_reducible apply State.abandonEntry_framed
    | with_reducible apply State.endOp_framed
    | with_reducible apply State.freeOpPages_framed
    | with_reducible apply State.opReply_framed
    | with_reducible apply State.deadOp_framed
    | split

theorem State.deadSlot_framed {rst : Bool} {F : List Field} {z s : State} {egress : Bool} {l : Nat} {slot : Nat} {stalls : Nat} {d : Dead} (hF : ([.parts, .ints, .fsp] : List Field).all (F.contains ·) = true) (hz : Framed rst F z s) : Framed rst F z (State.deadSlot s egress l slot stalls d) := by
  unfold State.deadSlot
  try dsimp only
  repeat' first
    | with_reducible assumption
    | (with_reducible apply Or.inr; with_reducible rfl)
    | ((with_reducible apply Or.inl); exact Framed.mem hF rfl)
    | ((with_reducible apply Framed.sub (G := [.parts, .ints, .fsp]) ?_ hF); rfl)
    | with_reducible apply State.slip_framed
    | split

theorem State.abandonAt_framed {rst : Bool} {F : List Field} {z s : State} {egress : Bool} {o : TierOp} {slot : Nat} {stalls : Nat} {counted : Bool} (hF : ([.entries, .edge, .home, .slots, .ledgers, .parts, .ints, .cmi, .mem, .img, .net, .fsp, .tier, .hrpOut] : List Field).all (F.contains ·) = true) (hz : Framed rst F z s) : Framed rst F z (State.abandonAt s egress o slot stalls counted) := by
  unfold State.abandonAt
  try dsimp only
  repeat' first
    | with_reducible assumption
    | (with_reducible apply Or.inr; with_reducible rfl)
    | ((with_reducible apply Or.inl); exact Framed.mem hF rfl)
    | ((with_reducible apply Framed.sub (G := [.entries, .edge, .home, .slots, .ledgers, .parts, .ints, .cmi, .mem, .img, .net, .fsp, .tier, .hrpOut]) ?_ hF); rfl)
    | with_reducible apply State.abandon_framed
    | with_reducible apply State.slip_framed
    | split

theorem State.wordDrop_framed {rst : Bool} {F : List Field} {z s : State} {w : Word} (hF : ([.parts] : List Field).all (F.contains ·) = true) (hz : Framed rst F z s) : Framed rst F z (State.wordDrop s w) := by
  unfold State.wordDrop
  try dsimp only
  repeat' first
    | with_reducible assumption
    | (with_reducible apply Or.inr; with_reducible rfl)
    | ((with_reducible apply Or.inl); exact Framed.mem hF rfl)
    | ((with_reducible apply Framed.sub (G := [.parts]) ?_ hF); rfl)
    | with_reducible apply State.stateDrop_framed
    | split

theorem State.itemIntake_framed {rst : Bool} {F : List Field} {z s : State} {it : Item} {ok : Entry → Bool} (hF : ([.slots, .parts, .hrpOut] : List Field).all (F.contains ·) = true) (hz : Framed rst F z s) : Framed rst F z (State.itemIntake s it ok) := by
  unfold State.itemIntake
  try dsimp only
  repeat' first
    | with_reducible assumption
    | (with_reducible apply Or.inr; with_reducible rfl)
    | ((with_reducible apply Or.inl); exact Framed.mem hF rfl)
    | ((with_reducible apply Framed.sub (G := [.slots, .parts, .hrpOut]) ?_ hF); rfl)
    | with_reducible apply State.staleDrop_framed
    | with_reducible apply State.tell_framed
    | with_reducible apply State.stateDrop_framed
    | split

theorem State.intake_framed {rst : Bool} {F : List Field} {z s : State} {l : Nat} {tag : Nat} {it : Item} (hF : ([.slots, .parts, .tier, .hrpOut] : List Field).all (F.contains ·) = true) (hz : Framed rst F z s) : Framed rst F z (State.intake s l tag it) := by
  unfold State.intake
  try dsimp only
  repeat' first
    | with_reducible assumption
    | (with_reducible apply Or.inr; with_reducible rfl)
    | ((with_reducible apply Or.inl); exact Framed.mem hF rfl)
    | ((with_reducible apply Framed.sub (G := [.slots, .parts, .tier, .hrpOut]) ?_ hF); rfl)
    | with_reducible apply State.setOp_framed
    | with_reducible apply State.itemIntake_framed
    | with_reducible apply State.wordDrop_framed
    | split
    | (refine Framed.foldl (fun _ _ _ => ?_) ?_)

theorem State.drain_framed {rst : Bool} {F : List Field} {z : State} {l : Nat} (hF : ([.slots, .parts, .fsp, .tier, .hrpOut] : List Field).all (F.contains ·) = true) :
    ∀ {n : Nat} {s : State}, Framed rst F z s → Framed rst F z (State.drain n s l)
  | 0, _, hz => hz
  | n + 1, s, hz => by
    unfold State.drain
    dsimp only
    repeat' first
      | with_reducible assumption
      | with_reducible apply (State.drain_framed hF)
      | with_reducible apply State.intake_framed
      | with_reducible apply State.setInLane_framed
      | ((with_reducible apply Framed.sub (G := [.slots, .parts, .fsp, .tier, .hrpOut]) ?_ hF); rfl)
      | split

theorem State.fifoCheck_framed {F : List Field} {z s : State} {egress : Bool} {l : Nat} {f : Find} (hF : ([.trb] : List Field).all (F.contains ·) = true) (hz : Framed true F z s) : Framed true F z (State.fifoCheck s egress l f) := by
  unfold State.fifoCheck
  try dsimp only
  repeat' first
    | with_reducible assumption
    | (with_reducible apply Or.inr; with_reducible rfl)
    | ((with_reducible apply Or.inl); exact Framed.mem hF rfl)
    | ((with_reducible apply Framed.sub (G := [.trb]) ?_ hF); rfl)
    | with_reducible apply State.bumpCe_framed
    | with_reducible apply State.jobFault_framed
    | split

theorem State.lostHrp_framed {rst : Bool} {F : List Field} {z s : State} {l : Nat} {slot : Nat} {stalls : Nat} {it : Item} (hF : ([.slots, .parts, .ints, .fsp] : List Field).all (F.contains ·) = true) (hz : Framed rst F z s) : Framed rst F z (State.lostHrp s l slot stalls it) := by
  unfold State.lostHrp
  try dsimp only
  repeat' first
    | with_reducible assumption
    | (with_reducible apply Or.inr; with_reducible rfl)
    | ((with_reducible apply Or.inl); exact Framed.mem hF rfl)
    | ((with_reducible apply Framed.sub (G := [.slots, .parts, .ints, .fsp]) ?_ hF); rfl)
    | with_reducible apply State.setSlot_framed
    | with_reducible apply State.slip_framed
    | split

theorem State.arrive_framed {rst : Bool} {F : List Field} {z s : State} {l : Nat} {slot : Nat} {stalls : Nat} {it : Item} (hF : ([.entries, .edge, .home, .slots, .ledgers, .parts, .ints, .cmi, .mem, .img, .net, .fsp, .tier, .hrpOut] : List Field).all (F.contains ·) = true) (hz : Framed rst F z s) : Framed rst F z (State.arrive s l slot stalls it) := by
  unfold State.arrive
  try dsimp only
  repeat' first
    | with_reducible assumption
    | (with_reducible apply Or.inr; with_reducible rfl)
    | ((with_reducible apply Or.inl); exact Framed.mem hF rfl)
    | ((with_reducible apply Framed.sub (G := [.entries, .edge, .home, .slots, .ledgers, .parts, .ints, .cmi, .mem, .img, .net, .fsp, .tier, .hrpOut]) ?_ hF); rfl)
    | with_reducible apply State.setInLane_framed
    | with_reducible apply State.abandonAt_framed
    | with_reducible apply State.setOp_framed
    | with_reducible apply State.deadSlot_framed
    | with_reducible apply State.lostHrp_framed
    | split

theorem State.onFspIngressSlot_framed {F : List Field} {z s1 : State} {lane : Nat} {gap : Nat} {item : Item} {taken : Nat} {find : Find} {stalls : Nat} (hF : ([.trb, .entries, .edge, .home, .slots, .ledgers, .parts, .ints, .cmi, .mem, .img, .net, .fsp, .tier, .hrpOut] : List Field).all (F.contains ·) = true) (hz : Framed true F z s1) : Framed true F z (State.onFspIngressSlot s1 lane gap item taken find stalls) := by
  unfold State.onFspIngressSlot
  try dsimp only
  repeat' first
    | with_reducible assumption
    | (with_reducible apply Or.inr; with_reducible rfl)
    | ((with_reducible apply Or.inl); exact Framed.mem hF rfl)
    | ((with_reducible apply Framed.sub (G := [.trb, .entries, .edge, .home, .slots, .ledgers, .parts, .ints, .cmi, .mem, .img, .net, .fsp, .tier, .hrpOut]) ?_ hF); rfl)
    | with_reducible apply State.fifoCheck_framed
    | with_reducible apply State.drain_framed
    | with_reducible apply State.overrun_framed
    | with_reducible apply State.arrive_framed
    | with_reducible apply State.started_framed
    | split

theorem State.drive_framed {rst : Bool} {F : List Field} {z s : State} {l : Nat} {it : Item} (hF : ([.fspOut] : List Field).all (F.contains ·) = true) (hz : Framed rst F z s) : Framed rst F z (State.drive s l it) := by
  unfold State.drive
  try dsimp only
  repeat' first
    | with_reducible assumption
    | (with_reducible apply Or.inr; with_reducible rfl)
    | ((with_reducible apply Or.inl); exact Framed.mem hF rfl)
    | ((with_reducible apply Framed.sub (G := [.fspOut]) ?_ hF); rfl)
    | split
    | (refine Framed.of_mk ?_ (fun h => h) ?_ ?_ ?_ ?_ ?_ ?_ ?_ ?_ ?_ ?_ ?_ ?_ ?_ ?_ ?_ ?_ ?_ ?_ ?_ ?_ ?_ ?_ ?_ ?_ ?_ ?_ ?_ ?_)

theorem State.springDone_framed {rst : Bool} {F : List Field} {z s : State} {o : TierOp} {slot : Nat} (hF : ([.entries, .ledgers, .cmi, .mem, .img, .net, .tier, .hrpOut] : List Field).all (F.contains ·) = true) (hz : Framed rst F z s) : Framed rst F z (State.springDone s o slot) := by
  unfold State.springDone
  try dsimp only
  repeat' first
    | with_reducible assumption
    | (with_reducible apply Or.inr; with_reducible rfl)
    | ((with_reducible apply Or.inl); exact Framed.mem hF rfl)
    | ((with_reducible apply Framed.sub (G := [.entries, .ledgers, .cmi, .mem, .img, .net, .tier, .hrpOut]) ?_ hF); rfl)
    | with_reducible apply State.setEntry_framed
    | with_reducible apply State.endOp_framed
    | with_reducible apply State.endPend_framed
    | split

theorem State.emptySprings_framed {rst : Bool} {F : List Field} {z s : State} {l : Nat} {slot : Nat} (hF : ([.entries, .ledgers, .cmi, .mem, .img, .net, .tier, .hrpOut] : List Field).all (F.contains ·) = true) (hz : Framed rst F z s) : Framed rst F z (State.emptySprings s l slot) := by
  unfold State.emptySprings
  try dsimp only
  repeat' first
    | with_reducible assumption
    | (with_reducible apply Or.inr; with_reducible rfl)
    | ((with_reducible apply Or.inl); exact Framed.mem hF rfl)
    | ((with_reducible apply Framed.sub (G := [.entries, .ledgers, .cmi, .mem, .img, .net, .tier, .hrpOut]) ?_ hF); rfl)
    | with_reducible apply State.springDone_framed
    | split
    | (refine Framed.foldl (fun _ _ _ => ?_) ?_)

theorem State.fillSlot_framed {F : List Field} {z s : State} {l : Nat} {find : Find} (hF : ([.trb, .fsp, .fspOut] : List Field).all (F.contains ·) = true) (hz : Framed true F z s) : Framed true F z (State.fillSlot s l find) := by
  unfold State.fillSlot
  try dsimp only
  repeat' first
    | with_reducible assumption
    | (with_reducible apply Or.inr; with_reducible rfl)
    | ((with_reducible apply Or.inl); exact Framed.mem hF rfl)
    | ((with_reducible apply Framed.sub (G := [.trb, .fsp, .fspOut]) ?_ hF); rfl)
    | with_reducible apply State.drive_framed
    | with_reducible apply State.setRelq_framed
    | with_reducible apply State.ceRelq_framed
    | with_reducible apply State.jobFault_framed
    | split

theorem State.deliver_framed {F : List Field} {z s : State} {l : Nat} {slot : Nat} {o : TierOp} {it : Item} {find : Find} (hF : ([.trb, .entries, .ledgers, .cmi, .mem, .img, .net, .fsp, .tier, .hrpOut, .fspOut] : List Field).all (F.contains ·) = true) (hz : Framed true F z s) : Framed true F z (State.deliver s l slot o it find) := by
  unfold State.deliver
  try dsimp only
  repeat' first
    | with_reducible assumption
    | (with_reducible apply Or.inr; with_reducible rfl)
    | ((with_reducible apply Or.inl); exact Framed.mem hF rfl)
    | ((with_reducible apply Framed.sub (G := [.trb, .entries, .ledgers, .cmi, .mem, .img, .net, .fsp, .tier, .hrpOut, .fspOut]) ?_ hF); rfl)
    | with_reducible apply State.fifoCheck_framed
    | with_reducible apply State.setOutLane_framed
    | with_reducible apply State.drive_framed
    | with_reducible apply State.setOp_framed
    | with_reducible apply State.springDone_framed
    | split

theorem State.egressSlot_framed {F : List Field} {z s : State} {l : Nat} {slot : Nat} {stalls : Nat} {find : Find} (hF : ([.trb, .entries, .edge, .home, .slots, .ledgers, .parts, .ints, .cmi, .mem, .img, .net, .fsp, .tier, .hrpOut, .fspOut] : List Field).all (F.contains ·) = true) (hz : Framed true F z s) : Framed true F z (State.egressSlot s l slot stalls find) := by
  unfold State.egressSlot
  try dsimp only
  repeat' first
    | with_reducible assumption
    | (with_reducible apply Or.inr; with_reducible rfl)
    | ((with_reducible apply Or.inl); exact Framed.mem hF rfl)
    | ((with_reducible apply Framed.sub (G := [.trb, .entries, .edge, .home, .slots, .ledgers, .parts, .ints, .cmi, .mem, .img, .net, .fsp, .tier, .hrpOut, .fspOut]) ?_ hF); rfl)
    | with_reducible apply State.emptySprings_framed
    | with_reducible apply State.setOutLane_framed
    | with_reducible apply State.deliver_framed
    | with_reducible apply State.drive_framed
    | with_reducible apply State.abandonAt_framed
    | with_reducible apply State.deadSlot_framed
    | with_reducible apply State.fillSlot_framed
    | split

theorem State.onFspEgressSlot_framed {F : List Field} {z s1 : State} {lane : Nat} {gap : Nat} {find : Find} {stalls : Nat} (hF : ([.trb, .entries, .edge, .home, .slots, .ledgers, .parts, .ints, .cmi, .mem, .img, .net, .fsp, .tier, .hrpOut, .fspOut] : List Field).all (F.contains ·) = true) (hz : Framed true F z s1) : Framed true F z (State.onFspEgressSlot s1 lane gap find stalls) := by
  unfold State.onFspEgressSlot
  try dsimp only
  repeat' first
    | with_reducible assumption
    | (with_reducible apply Or.inr; with_reducible rfl)
    | ((with_reducible apply Or.inl); exact Framed.mem hF rfl)
    | ((with_reducible apply Framed.sub (G := [.trb, .entries, .edge, .home, .slots, .ledgers, .parts, .ints, .cmi, .mem, .img, .net, .fsp, .tier, .hrpOut, .fspOut]) ?_ hF); rfl)
    | with_reducible apply State.drive_framed
    | with_reducible apply State.overrun_framed
    | with_reducible apply State.egressSlot_framed
    | with_reducible apply State.started_framed
    | split

theorem State.onSlotStartMissed_framed {F : List Field} {z s1 : State} {egress : Bool} {lane : Nat} (hF : ([] : List Field).all (F.contains ·) = true) (hz : Framed true F z s1) : Framed true F z (State.onSlotStartMissed s1 egress lane) := by
  unfold State.onSlotStartMissed
  try dsimp only
  repeat' first
    | with_reducible assumption
    | (with_reducible apply Or.inr; with_reducible rfl)
    | ((with_reducible apply Or.inl); exact Framed.mem hF rfl)
    | ((with_reducible apply Framed.sub (G := []) ?_ hF); rfl)
    | with_reducible apply State.overrun_framed
    | split

theorem State.onFspClockLoss_framed {F : List Field} {z s1 : State}  (hF : ([] : List Field).all (F.contains ·) = true) (hz : Framed true F z s1) : Framed true F z (State.onFspClockLoss s1) := by
  unfold State.onFspClockLoss
  try dsimp only
  repeat' first
    | with_reducible assumption
    | (with_reducible apply Or.inr; with_reducible rfl)
    | ((with_reducible apply Or.inl); exact Framed.mem hF rfl)
    | ((with_reducible apply Framed.sub (G := []) ?_ hF); rfl)
    | with_reducible apply State.jobFault_framed
    | split

end Sys2Proof.Machine
end

