-- ==== Sys2Proof/Laws/FramedTierCmd.lean ====
section
/-! SUPPORT. The tier commands: the parts of the state that each operation may change, one lemma for each. -/
namespace Sys2Proof.Machine
set_option Elab.async false

theorem State.beginWrite_framed {rst : Bool} {F : List Field} {z s : State} {k : OpKind} {i : Issuer} {tenant : Nat} {l : Nat} {first : Nat} {n : Nat} {ttl : Nat} (hF : ([.ledgers, .net, .tier] : List Field).all (F.contains ·) = true) (hz : Framed rst F z s) : Framed rst F z (State.beginWrite s k i tenant l first n ttl) := by
  unfold State.beginWrite
  try dsimp only
  repeat' first
    | with_reducible assumption
    | (with_reducible apply Or.inr; with_reducible rfl)
    | ((with_reducible apply Or.inl); exact Framed.mem hF rfl)
    | ((with_reducible apply Framed.sub (G := [.ledgers, .net, .tier]) ?_ hF); rfl)
    | with_reducible apply State.keepAwake_framed
    | with_reducible apply State.takeExts_framed
    | with_reducible apply State.addHeld_framed
    | split
    | (refine Framed.of_mk ?_ (fun h => h) ?_ ?_ ?_ ?_ ?_ ?_ ?_ ?_ ?_ ?_ ?_ ?_ ?_ ?_ ?_ ?_ ?_ ?_ ?_ ?_ ?_ ?_ ?_ ?_ ?_ ?_ ?_ ?_)

theorem State.install_framed {rst : Bool} {F : List Field} {z s : State} {slot : Nat} {head : Nat} {pages : Nat} {ttl : Nat} (hF : ([.entries, .ledgers, .net, .tier] : List Field).all (F.contains ·) = true) (hz : Framed rst F z s) : Framed rst F z (State.install s slot head pages ttl) := by
  unfold State.install
  try dsimp only
  repeat' first
    | with_reducible assumption
    | (with_reducible apply Or.inr; with_reducible rfl)
    | ((with_reducible apply Or.inl); exact Framed.mem hF rfl)
    | ((with_reducible apply Framed.sub (G := [.entries, .ledgers, .net, .tier]) ?_ hF); rfl)
    | with_reducible apply State.freeCopy_framed
    | with_reducible apply State.setEntry_framed
    | split

theorem State.parkSlot_framed {rst : Bool} {F : List Field} {z s : State} {i : Issuer} {slot : Nat} {l : Nat} {first : Nat} {n : Nat} {ttl : Nat} {fresh : Bool} (hF : ([.entries, .ledgers, .net, .tier] : List Field).all (F.contains ·) = true) (hz : Framed rst F z s) : Framed rst F z (State.parkSlot s i slot l first n ttl fresh).2 := by
  unfold State.parkSlot
  try dsimp only
  repeat' first
    | with_reducible assumption
    | (with_reducible apply Or.inr; with_reducible rfl)
    | ((with_reducible apply Or.inl); exact Framed.mem hF rfl)
    | ((with_reducible apply Framed.sub (G := [.entries, .ledgers, .net, .tier]) ?_ hF); rfl)
    | with_reducible apply State.setEntry_framed
    | with_reducible apply State.install_framed
    | with_reducible apply State.holdReply_framed
    | with_reducible apply State.beginWrite_framed
    | split

theorem State.parkSlot_framed_eq {rst : Bool} {F : List Field} {z s t : State} {x : _} {i : Issuer} {slot : Nat} {l : Nat} {first : Nat} {n : Nat} {ttl : Nat} {fresh : Bool} (e : State.parkSlot s i slot l first n ttl fresh = (x, t)) (hF : ([.entries, .ledgers, .net, .tier] : List Field).all (F.contains ·) = true) (hz : Framed rst F z s) : Framed rst F z t := by
  have k := State.parkSlot_framed (F := F) (z := z) (s := s) (i := i) (slot := slot) (l := l) (first := first) (n := n) (ttl := ttl) (fresh := fresh) hF hz
  rw [e] at k
  exact k

theorem State.park_framed {rst : Bool} {F : List Field} {z s : State} {i : Issuer} {ps : List Word} (hF : ([.entries, .edge, .home, .slots, .ledgers, .cmi, .net, .tier, .hrpOut] : List Field).all (F.contains ·) = true) (hz : Framed rst F z s) : Framed rst F z (State.park s i ps) := by
  unfold State.park
  try dsimp only
  repeat' first
    | with_reducible assumption
    | (with_reducible apply Or.inr; with_reducible rfl)
    | ((with_reducible apply Or.inl); exact Framed.mem hF rfl)
    | ((with_reducible apply Framed.sub (G := [.entries, .edge, .home, .slots, .ledgers, .cmi, .net, .tier, .hrpOut]) ?_ hF); rfl)
    | with_reducible apply State.parkSlot_framed
    | (with_reducible refine State.parkSlot_framed_eq (by with_reducible assumption) ?_ ?_)
    | with_reducible apply State.answer_framed
    | with_reducible apply State.allocate_framed
    | split

theorem State.onSessionPark_framed {rst : Bool} {F : List Field} {z s : State}  (hF : ([.entries, .edge, .home, .slots, .ledgers, .parts, .ints, .cmi, .net, .tier, .clk, .hrpOut] : List Field).all (F.contains ·) = true) (hz : Framed rst F z s) : Framed rst F z (State.onSessionPark s) := by
  unfold State.onSessionPark
  try dsimp only
  repeat' first
    | with_reducible assumption
    | (with_reducible apply Or.inr; with_reducible rfl)
    | ((with_reducible apply Or.inl); exact Framed.mem hF rfl)
    | ((with_reducible apply Framed.sub (G := [.entries, .edge, .home, .slots, .ledgers, .parts, .ints, .cmi, .net, .tier, .clk, .hrpOut]) ?_ hF); rfl)
    | with_reducible apply State.runCmd_framed
    | with_reducible apply State.park_framed
    | intro _
    | split

theorem State.wakeAhead_framed {rst : Bool} {F : List Field} {z s : State} {slot : Nat} (hF : ([.clk] : List Field).all (F.contains ·) = true) (hz : Framed rst F z s) : Framed rst F z (State.wakeAhead s slot) := by
  unfold State.wakeAhead
  try dsimp only
  repeat' first
    | with_reducible assumption
    | (with_reducible apply Or.inr; with_reducible rfl)
    | ((with_reducible apply Or.inl); exact Framed.mem hF rfl)
    | ((with_reducible apply Framed.sub (G := [.clk]) ?_ hF); rfl)
    | with_reducible apply State.wakeReq_framed
    | split

theorem State.resumeSlot_framed {rst : Bool} {F : List Field} {z s : State} {i : Issuer} {slot : Nat} {l : Nat} {first : Nat} {adapter : Option Nat} {n : Nat} {hash : Word × Word} (hF : ([.entries, .cmi, .net, .tier, .clk, .hrpOut] : List Field).all (F.contains ·) = true) (hz : Framed rst F z s) : Framed rst F z (State.resumeSlot s i slot l first adapter n hash) := by
  unfold State.resumeSlot
  try dsimp only
  repeat' first
    | with_reducible assumption
    | (with_reducible apply Or.inr; with_reducible rfl)
    | ((with_reducible apply Or.inl); exact Framed.mem hF rfl)
    | ((with_reducible apply Framed.sub (G := [.entries, .cmi, .net, .tier, .clk, .hrpOut]) ?_ hF); rfl)
    | with_reducible apply State.answer_framed
    | with_reducible apply State.holdReply_framed
    | with_reducible apply State.setEntry_framed
    | with_reducible apply State.wakeAhead_framed
    | split
    | (refine Framed.foldl (fun _ _ _ => ?_) ?_)
    | (refine Framed.of_mk ?_ (fun h => h) ?_ ?_ ?_ ?_ ?_ ?_ ?_ ?_ ?_ ?_ ?_ ?_ ?_ ?_ ?_ ?_ ?_ ?_ ?_ ?_ ?_ ?_ ?_ ?_ ?_ ?_ ?_ ?_)

theorem State.onSessionResume_framed {rst : Bool} {F : List Field} {z s : State}  (hF : ([.entries, .parts, .ints, .cmi, .net, .tier, .clk, .hrpOut] : List Field).all (F.contains ·) = true) (hz : Framed rst F z s) : Framed rst F z (State.onSessionResume s) := by
  unfold State.onSessionResume
  try dsimp only
  repeat' first
    | with_reducible assumption
    | (with_reducible apply Or.inr; with_reducible rfl)
    | ((with_reducible apply Or.inl); exact Framed.mem hF rfl)
    | ((with_reducible apply Framed.sub (G := [.entries, .parts, .ints, .cmi, .net, .tier, .clk, .hrpOut]) ?_ hF); rfl)
    | with_reducible apply State.runCmd_framed
    | with_reducible apply State.session_framed
    | with_reducible apply State.resumeSlot_framed
    | intro _
    | split

theorem State.publishDone_framed {rst : Bool} {F : List Field} {z s : State} {d : DirEnt} {ttl : Nat} (hF : ([.ledgers, .mem, .img, .net, .tier] : List Field).all (F.contains ·) = true) (hz : Framed rst F z s) : ∀ t, State.publishDone s d ttl = some t → Framed rst F z t := by
  intro t ht
  unfold State.publishDone at ht
  try dsimp only at ht
  repeat' split at ht
  all_goals first | (cases ht; done) | (injection ht with ht; subst ht)
  all_goals repeat' first
    | with_reducible assumption
    | (with_reducible apply Or.inr; with_reducible rfl)
    | ((with_reducible apply Or.inl); exact Framed.mem hF rfl)
    | ((with_reducible apply Framed.sub (G := [.ledgers, .mem, .img, .net, .tier]) ?_ hF); rfl)
    | with_reducible apply State.dirPut_framed
    | with_reducible apply State.dirDrop_framed
    | split

theorem State.publishSlot_framed {rst : Bool} {F : List Field} {z s : State} {i : Issuer} {ps : List Word} {slot : Nat}
    (hF : ([.entries, .ledgers, .cmi, .mem, .img, .net, .tier, .hrpOut] : List Field).all (F.contains ·) = true) (hz : Framed rst F z s) : Framed rst F z (s.publishSlot i ps slot) := by
  unfold State.publishSlot
  extract_lets w hp rp e q toks named
  repeat' first
    | (with_reducible refine State.answer_framed ?_ hz; exact Framed.sub rfl hF)
    | extract_lets
    | split
  all_goals first
    | exact Framed.sub rfl hF
    | (rename_i t ht; exact State.reply_framed (Framed.sub rfl hF) (State.publishDone_framed (Framed.sub rfl hF) hz _ ht))
    | exact State.beginWrite_framed (Framed.sub rfl hF) (State.holdReply_framed (Framed.sub rfl hF) hz)

theorem State.onPrefixPublish_framed {rst : Bool} {F : List Field} {z s : State}  (hF : ([.entries, .ledgers, .parts, .ints, .cmi, .mem, .img, .net, .tier, .clk, .hrpOut] : List Field).all (F.contains ·) = true) (hz : Framed rst F z s) : Framed rst F z (State.onPrefixPublish s) := by
  unfold State.onPrefixPublish
  try dsimp only
  repeat' first
    | with_reducible assumption
    | (with_reducible apply Or.inr; with_reducible rfl)
    | ((with_reducible apply Or.inl); exact Framed.mem hF rfl)
    | ((with_reducible apply Framed.sub (G := [.entries, .ledgers, .parts, .ints, .cmi, .mem, .img, .net, .tier, .clk, .hrpOut]) ?_ hF); rfl)
    | with_reducible apply State.runCmd_framed
    | with_reducible apply State.session_framed
    | with_reducible apply State.publishSlot_framed
    | intro _
    | split

theorem State.onPrefixDrop_framed {rst : Bool} {F : List Field} {z s : State}  (hF : ([.ledgers, .parts, .ints, .cmi, .mem, .img, .net, .tier, .clk, .hrpOut] : List Field).all (F.contains ·) = true) (hz : Framed rst F z s) : Framed rst F z (State.onPrefixDrop s) := by
  unfold State.onPrefixDrop
  try dsimp only
  repeat' first
    | with_reducible assumption
    | (with_reducible apply Or.inr; with_reducible rfl)
    | ((with_reducible apply Or.inl); exact Framed.mem hF rfl)
    | ((with_reducible apply Framed.sub (G := [.ledgers, .parts, .ints, .cmi, .mem, .img, .net, .tier, .clk, .hrpOut]) ?_ hF); rfl)
    | with_reducible apply State.runCmd_framed
    | with_reducible apply State.answer_framed
    | with_reducible apply State.dirRetire_framed
    | intro _
    | split

theorem State.setAdapter_framed {rst : Bool} {F : List Field} {z s : State} {v : Nat} {c : Option Slice} (hF : ([.ledgers, .net, .tier] : List Field).all (F.contains ·) = true) (hz : Framed rst F z s) : Framed rst F z (State.setAdapter s v c) := by
  unfold State.setAdapter
  try dsimp only
  repeat' first
    | with_reducible assumption
    | (with_reducible apply Or.inr; with_reducible rfl)
    | ((with_reducible apply Or.inl); exact Framed.mem hF rfl)
    | ((with_reducible apply Framed.sub (G := [.ledgers, .net, .tier]) ?_ hF); rfl)
    | with_reducible apply State.freeSlice_framed
    | split
    | (refine Framed.of_mk ?_ (fun h => h) ?_ ?_ ?_ ?_ ?_ ?_ ?_ ?_ ?_ ?_ ?_ ?_ ?_ ?_ ?_ ?_ ?_ ?_ ?_ ?_ ?_ ?_ ?_ ?_ ?_ ?_ ?_ ?_)

theorem State.loadAdapter_framed {rst : Bool} {F : List Field} {z s : State} {i : Issuer} {v : Nat} {l : Nat} {first : Nat} {n : Nat} (hF : ([.ledgers, .cmi, .net, .tier, .hrpOut] : List Field).all (F.contains ·) = true) (hz : Framed rst F z s) : Framed rst F z (State.loadAdapter s i v l first n) := by
  unfold State.loadAdapter
  try dsimp only
  repeat' first
    | with_reducible assumption
    | (with_reducible apply Or.inr; with_reducible rfl)
    | ((with_reducible apply Or.inl); exact Framed.mem hF rfl)
    | ((with_reducible apply Framed.sub (G := [.ledgers, .cmi, .net, .tier, .hrpOut]) ?_ hF); rfl)
    | with_reducible apply State.answer_framed
    | with_reducible apply State.setAdapter_framed
    | with_reducible apply State.beginWrite_framed
    | split

theorem State.onAdapterLoad_framed {rst : Bool} {F : List Field} {z s : State}  (hF : ([.ledgers, .parts, .ints, .cmi, .net, .tier, .clk, .hrpOut] : List Field).all (F.contains ·) = true) (hz : Framed rst F z s) : Framed rst F z (State.onAdapterLoad s) := by
  unfold State.onAdapterLoad
  try dsimp only
  repeat' first
    | with_reducible assumption
    | (with_reducible apply Or.inr; with_reducible rfl)
    | ((with_reducible apply Or.inl); exact Framed.mem hF rfl)
    | ((with_reducible apply Framed.sub (G := [.ledgers, .parts, .ints, .cmi, .net, .tier, .clk, .hrpOut]) ?_ hF); rfl)
    | with_reducible apply State.runCmd_framed
    | with_reducible apply State.loadAdapter_framed
    | intro _
    | split

theorem State.devCe_framed {rst : Bool} {F : List Field} {z s : State} {d : Nat} (hF : ([.tier] : List Field).all (F.contains ·) = true) (hz : Framed rst F z s) : Framed rst F z (State.devCe s d) := by
  unfold State.devCe
  try dsimp only
  repeat' first
    | with_reducible assumption
    | (with_reducible apply Or.inr; with_reducible rfl)
    | ((with_reducible apply Or.inl); exact Framed.mem hF rfl)
    | ((with_reducible apply Framed.sub (G := [.tier]) ?_ hF); rfl)
    | with_reducible apply State.setDev_framed
    | split

theorem State.devUe_framed {rst : Bool} {F : List Field} {z s : State} {d : Nat} (hF : ([.tier] : List Field).all (F.contains ·) = true) (hz : Framed rst F z s) : Framed rst F z (State.devUe s d) := by
  unfold State.devUe
  try dsimp only
  repeat' first
    | with_reducible assumption
    | (with_reducible apply Or.inr; with_reducible rfl)
    | ((with_reducible apply Or.inl); exact Framed.mem hF rfl)
    | ((with_reducible apply Framed.sub (G := [.tier]) ?_ hF); rfl)
    | with_reducible apply State.setDev_framed
    | split

theorem State.dropOwners_framed {rst : Bool} {F : List Field} {z s : State} {e : Nat} (hF : ([.ledgers, .mem, .img, .net, .tier] : List Field).all (F.contains ·) = true) (hz : Framed rst F z s) : Framed rst F z (State.dropOwners s e) := by
  unfold State.dropOwners
  try dsimp only
  repeat' first
    | with_reducible assumption
    | (with_reducible apply Or.inr; with_reducible rfl)
    | ((with_reducible apply Or.inl); exact Framed.mem hF rfl)
    | ((with_reducible apply Framed.sub (G := [.ledgers, .mem, .img, .net, .tier]) ?_ hF); rfl)
    | with_reducible apply State.setAdapter_framed
    | with_reducible apply State.dirDrop_framed
    | split
    | (refine Framed.foldl (fun _ _ _ => ?_) ?_)

theorem State.pageBad_framed {rst : Bool} {F : List Field} {z s : State} {e : Nat} {reader : Option Nat} (hF : ([.trb, .entries, .edge, .home, .slots, .ledgers, .parts, .ints, .cmi, .mem, .img, .net, .fsp, .tier, .hrpOut] : List Field).all (F.contains ·) = true) (hz : Framed rst F z s) : Framed rst F z (State.pageBad s e reader) := by
  unfold State.pageBad
  try dsimp only
  repeat' first
    | with_reducible assumption
    | (with_reducible apply Or.inr; with_reducible rfl)
    | ((with_reducible apply Or.inl); exact Framed.mem hF rfl)
    | ((with_reducible apply Framed.sub (G := [.trb, .entries, .edge, .home, .slots, .ledgers, .parts, .ints, .cmi, .mem, .img, .net, .fsp, .tier, .hrpOut]) ?_ hF); rfl)
    | with_reducible apply State.trouble_framed
    | with_reducible apply State.devUe_framed
    | with_reducible apply State.dropOwners_framed
    | with_reducible apply State.cancelAll_framed
    | split
    | (refine Framed.foldl (fun _ _ _ => ?_) ?_)

theorem State.stage_framed {rst : Bool} {F : List Field} {z s : State} {o : TierOp} {slot : Nat} {count : Nat} (hF : ([.fsp, .tier] : List Field).all (F.contains ·) = true) (hz : Framed rst F z s) : Framed rst F z (State.stage s o slot count) := by
  unfold State.stage
  try dsimp only
  repeat' first
    | with_reducible assumption
    | (with_reducible apply Or.inr; with_reducible rfl)
    | ((with_reducible apply Or.inl); exact Framed.mem hF rfl)
    | ((with_reducible apply Framed.sub (G := [.fsp, .tier]) ?_ hF); rfl)
    | with_reducible apply State.touch_framed
    | with_reducible apply State.setOp_framed
    | with_reducible apply State.setOutLane_framed
    | split
    | (refine Framed.foldl (fun _ _ _ => ?_) ?_)

theorem State.portFail_framed {F : List Field} {z s : State} {d : Nat} (hF : ([.tier] : List Field).all (F.contains ·) = true) (hz : Framed true F z s) : Framed true F z (State.portFail s d) := by
  unfold State.portFail
  try dsimp only
  repeat' first
    | with_reducible assumption
    | (with_reducible apply Or.inr; with_reducible rfl)
    | ((with_reducible apply Or.inl); exact Framed.mem hF rfl)
    | ((with_reducible apply Framed.sub (G := [.tier]) ?_ hF); rfl)
    | with_reducible apply State.jobFault_framed
    | with_reducible apply State.setDev_framed
    | split

theorem State.onPkeTierRead_framed {F : List Field} {z s1 : State} {lane : Nat} {count : Nat} {find : TierFind} (hF : ([.trb, .entries, .edge, .home, .slots, .ledgers, .parts, .ints, .cmi, .mem, .img, .net, .fsp, .tier, .hrpOut] : List Field).all (F.contains ·) = true) (hz : Framed true F z s1) : Framed true F z (State.onPkeTierRead s1 lane count find) := by
  unfold State.onPkeTierRead
  try dsimp only
  repeat' first
    | with_reducible assumption
    | (with_reducible apply Or.inr; with_reducible rfl)
    | ((with_reducible apply Or.inl); exact Framed.mem hF rfl)
    | ((with_reducible apply Framed.sub (G := [.trb, .entries, .edge, .home, .slots, .ledgers, .parts, .ints, .cmi, .mem, .img, .net, .fsp, .tier, .hrpOut]) ?_ hF); rfl)
    | with_reducible apply State.pageBad_framed
    | with_reducible apply State.stage_framed
    | with_reducible apply State.devCe_framed
    | with_reducible apply State.portFail_framed
    | split

theorem State.writeDone_framed {rst : Bool} {F : List Field} {z s : State} {o : TierOp} (hF : ([.entries, .ledgers, .cmi, .mem, .img, .net, .tier, .hrpOut] : List Field).all (F.contains ·) = true) (hz : Framed rst F z s) : Framed rst F z (State.writeDone s o) := by
  unfold State.writeDone
  try dsimp only
  repeat' first
    | with_reducible assumption
    | (with_reducible apply Or.inr; with_reducible rfl)
    | ((with_reducible apply Or.inl); exact Framed.mem hF rfl)
    | ((with_reducible apply Framed.sub (G := [.entries, .ledgers, .cmi, .mem, .img, .net, .tier, .hrpOut]) ?_ hF); rfl)
    | with_reducible apply State.install_framed
    | with_reducible apply State.writePages_framed
    | with_reducible apply State.endOp_framed
    | with_reducible apply State.endPend_framed
    | with_reducible apply State.freeOpPages_framed
    | (with_reducible refine State.publishDone_framed ?_ ?_ _ (by with_reducible assumption))
    | with_reducible apply State.endPendWith_framed
    | with_reducible apply State.answer_framed
    | with_reducible apply State.setAdapter_framed
    | split

theorem State.writeBad_framed {rst : Bool} {F : List Field} {z s : State} {o : TierOp} (hF : ([.trb, .entries, .edge, .home, .slots, .ledgers, .parts, .ints, .cmi, .mem, .img, .net, .fsp, .tier, .hrpOut] : List Field).all (F.contains ·) = true) (hz : Framed rst F z s) : Framed rst F z (State.writeBad s o) := by
  unfold State.writeBad
  try dsimp only
  repeat' first
    | with_reducible assumption
    | (with_reducible apply Or.inr; with_reducible rfl)
    | ((with_reducible apply Or.inl); exact Framed.mem hF rfl)
    | ((with_reducible apply Framed.sub (G := [.trb, .entries, .edge, .home, .slots, .ledgers, .parts, .ints, .cmi, .mem, .img, .net, .fsp, .tier, .hrpOut]) ?_ hF); rfl)
    | with_reducible apply State.trouble_framed
    | with_reducible apply State.devUe_framed
    | with_reducible apply State.cancelAll_framed
    | with_reducible apply State.abandon_framed
    | with_reducible apply State.setAdapter_framed
    | split

theorem State.onWinteringDone_framed {F : List Field} {z s1 : State} {lane : Nat} {find : TierFind} (hF : ([.trb, .entries, .edge, .home, .slots, .ledgers, .parts, .ints, .cmi, .mem, .img, .net, .fsp, .tier, .hrpOut] : List Field).all (F.contains ·) = true) (hz : Framed true F z s1) : Framed true F z (State.onWinteringDone s1 lane find) := by
  unfold State.onWinteringDone
  try dsimp only
  repeat' first
    | with_reducible assumption
    | (with_reducible apply Or.inr; with_reducible rfl)
    | ((with_reducible apply Or.inl); exact Framed.mem hF rfl)
    | ((with_reducible apply Framed.sub (G := [.trb, .entries, .edge, .home, .slots, .ledgers, .parts, .ints, .cmi, .mem, .img, .net, .fsp, .tier, .hrpOut]) ?_ hF); rfl)
    | with_reducible apply State.drain_framed
    | with_reducible apply State.writeDone_framed
    | with_reducible apply State.writeBad_framed
    | with_reducible apply State.portFail_framed
    | split

theorem State.onTierScrub_framed {rst : Bool} {F : List Field} {z s : State}  (hF : ([.parts, .ints, .cmi, .net, .tier, .clk, .hrpOut] : List Field).all (F.contains ·) = true) (hz : Framed rst F z s) : Framed rst F z (State.onTierScrub s) := by
  unfold State.onTierScrub
  try dsimp only
  repeat' first
    | with_reducible assumption
    | (with_reducible apply Or.inr; with_reducible rfl)
    | ((with_reducible apply Or.inl); exact Framed.mem hF rfl)
    | ((with_reducible apply Framed.sub (G := [.parts, .ints, .cmi, .net, .tier, .clk, .hrpOut]) ?_ hF); rfl)
    | with_reducible apply State.runCmd_framed
    | with_reducible apply State.answer_framed
    | intro _
    | split
    | (refine Framed.of_mk ?_ (fun h => h) ?_ ?_ ?_ ?_ ?_ ?_ ?_ ?_ ?_ ?_ ?_ ?_ ?_ ?_ ?_ ?_ ?_ ?_ ?_ ?_ ?_ ?_ ?_ ?_ ?_ ?_ ?_ ?_)

theorem State.dirLost_framed {rst : Bool} {F : List Field} {z s : State} {k : Nat} (hF : ([.tier] : List Field).all (F.contains ·) = true) (hz : Framed rst F z s) : Framed rst F z (State.dirLost s k) := by
  unfold State.dirLost
  try dsimp only
  repeat' first
    | with_reducible assumption
    | (with_reducible apply Or.inr; with_reducible rfl)
    | ((with_reducible apply Or.inl); exact Framed.mem hF rfl)
    | ((with_reducible apply Framed.sub (G := [.tier]) ?_ hF); rfl)
    | split
    | (refine Framed.of_mk ?_ (fun h => h) ?_ ?_ ?_ ?_ ?_ ?_ ?_ ?_ ?_ ?_ ?_ ?_ ?_ ?_ ?_ ?_ ?_ ?_ ?_ ?_ ?_ ?_ ?_ ?_ ?_ ?_ ?_ ?_)

theorem State.scrubBad_framed {F : List Field} {z s : State} {e : Nat} {page : Nat} (hF : ([.trb, .entries, .edge, .home, .slots, .ledgers, .parts, .ints, .cmi, .mem, .img, .net, .fsp, .tier, .hrpOut] : List Field).all (F.contains ·) = true) (hz : Framed true F z s) : Framed true F z (State.scrubBad s e page) := by
  unfold State.scrubBad
  try dsimp only
  repeat' first
    | with_reducible assumption
    | (with_reducible apply Or.inr; with_reducible rfl)
    | ((with_reducible apply Or.inl); exact Framed.mem hF rfl)
    | ((with_reducible apply Framed.sub (G := [.trb, .entries, .edge, .home, .slots, .ledgers, .parts, .ints, .cmi, .mem, .img, .net, .fsp, .tier, .hrpOut]) ?_ hF); rfl)
    | with_reducible apply State.jobFault_framed
    | with_reducible apply State.devUe_framed
    | with_reducible apply State.dirLost_framed
    | with_reducible apply State.trouble_framed
    | with_reducible apply State.sendTo_framed
    | with_reducible apply State.pageBad_framed
    | split
    | (refine Framed.of_mk ?_ (fun h => h) ?_ ?_ ?_ ?_ ?_ ?_ ?_ ?_ ?_ ?_ ?_ ?_ ?_ ?_ ?_ ?_ ?_ ?_ ?_ ?_ ?_ ?_ ?_ ?_ ?_ ?_ ?_ ?_)

theorem State.scrubPage_framed {F : List Field} {z s : State} {ds : List Nat} {f : PageFind} (hF : ([.trb, .entries, .edge, .home, .slots, .ledgers, .parts, .ints, .cmi, .mem, .img, .net, .fsp, .tier, .hrpOut] : List Field).all (F.contains ·) = true) (hz : Framed true F z s) : Framed true F z (State.scrubPage s ds f) := by
  unfold State.scrubPage
  try dsimp only
  repeat' first
    | with_reducible assumption
    | (with_reducible apply Or.inr; with_reducible rfl)
    | ((with_reducible apply Or.inl); exact Framed.mem hF rfl)
    | ((with_reducible apply Framed.sub (G := [.trb, .entries, .edge, .home, .slots, .ledgers, .parts, .ints, .cmi, .mem, .img, .net, .fsp, .tier, .hrpOut]) ?_ hF); rfl)
    | with_reducible apply State.devCe_framed
    | with_reducible apply State.scrubBad_framed
    | split

theorem State.onTierScrubDone_framed {F : List Field} {z s1 : State} {finds : List PageFind} (hF : ([.trb, .entries, .edge, .home, .slots, .ledgers, .parts, .ints, .cmi, .mem, .img, .net, .fsp, .tier, .hrpOut] : List Field).all (F.contains ·) = true) (hz : Framed true F z s1) : Framed true F z (State.onTierScrubDone s1 finds) := by
  unfold State.onTierScrubDone
  try dsimp only
  repeat' first
    | with_reducible assumption
    | (with_reducible apply Or.inr; with_reducible rfl)
    | ((with_reducible apply Or.inl); exact Framed.mem hF rfl)
    | ((with_reducible apply Framed.sub (G := [.trb, .entries, .edge, .home, .slots, .ledgers, .parts, .ints, .cmi, .mem, .img, .net, .fsp, .tier, .hrpOut]) ?_ hF); rfl)
    | with_reducible apply State.scrubPage_framed
    | with_reducible apply State.reply_framed
    | split
    | (refine Framed.foldl (fun _ _ _ => ?_) ?_)
    | (refine Framed.of_mk ?_ (fun h => h) ?_ ?_ ?_ ?_ ?_ ?_ ?_ ?_ ?_ ?_ ?_ ?_ ?_ ?_ ?_ ?_ ?_ ?_ ?_ ?_ ?_ ?_ ?_ ?_ ?_ ?_ ?_ ?_)

theorem State.onTierStatus_framed {rst : Bool} {F : List Field} {z s : State}  (hF : ([.parts, .ints, .cmi, .net, .clk, .hrpOut] : List Field).all (F.contains ·) = true) (hz : Framed rst F z s) : Framed rst F z (State.onTierStatus s) := by
  unfold State.onTierStatus
  try dsimp only
  repeat' first
    | with_reducible assumption
    | (with_reducible apply Or.inr; with_reducible rfl)
    | ((with_reducible apply Or.inl); exact Framed.mem hF rfl)
    | ((with_reducible apply Framed.sub (G := [.parts, .ints, .cmi, .net, .clk, .hrpOut]) ?_ hF); rfl)
    | with_reducible apply State.runCmd_framed
    | with_reducible apply State.reply_framed
    | intro _
    | split

theorem State.onTierDeviceSelfref_framed {rst : Bool} {F : List Field} {z s1 : State} {device : Nat} (hF : ([.tier] : List Field).all (F.contains ·) = true) (hz : Framed rst F z s1) : Framed rst F z (State.onTierDeviceSelfref s1 device) := by
  unfold State.onTierDeviceSelfref
  try dsimp only
  repeat' first
    | with_reducible assumption
    | (with_reducible apply Or.inr; with_reducible rfl)
    | ((with_reducible apply Or.inl); exact Framed.mem hF rfl)
    | ((with_reducible apply Framed.sub (G := [.tier]) ?_ hF); rfl)
    | with_reducible apply State.keepAwake_framed
    | with_reducible apply State.setDev_framed
    | split

end Sys2Proof.Machine
end

