-- ==== Sys2Proof/Laws/FramedImageCmd.lean ====
section
/-! SUPPORT. Loading an image: the parts of the state that each operation may change, one lemma for each. -/
namespace Sys2Proof.Machine
set_option Elab.async false

theorem State.runLoad_framed {rst : Bool} {F : List Field} {z s : State} {phases : List Nat} {act : Issuer → List Word → State → State} (hF : ([.parts, .ints, .cmi, .net, .clk, .hrpOut] : List Field).all (F.contains ·) = true) (hz : Framed rst F z s) (hact : ∀ x0 x1 x2, Framed rst F z x2 → Framed rst F z (act x0 x1 x2)) : Framed rst F z (State.runLoad s phases act) := by
  unfold State.runLoad
  try dsimp only
  repeat' first
    | with_reducible assumption
    | (with_reducible apply Or.inr; with_reducible rfl)
    | ((with_reducible apply Or.inl); exact Framed.mem hF rfl)
    | ((with_reducible apply Framed.sub (G := [.parts, .ints, .cmi, .net, .clk, .hrpOut]) ?_ hF); rfl)
    | with_reducible apply State.refuseUnknown_framed
    | with_reducible apply State.runCmd_framed
    | with_reducible apply hact
    | intro _
    | split

theorem State.dropLoad_framed {rst : Bool} {F : List Field} {z s : State}  (hF : ([.img] : List Field).all (F.contains ·) = true) (hz : Framed rst F z s) : Framed rst F z (State.dropLoad s) := by
  unfold State.dropLoad
  try dsimp only
  repeat' first
    | with_reducible assumption
    | (with_reducible apply Or.inr; with_reducible rfl)
    | ((with_reducible apply Or.inl); exact Framed.mem hF rfl)
    | ((with_reducible apply Framed.sub (G := [.img]) ?_ hF); rfl)
    | split
    | (refine Framed.of_mk ?_ (fun h => h) ?_ ?_ ?_ ?_ ?_ ?_ ?_ ?_ ?_ ?_ ?_ ?_ ?_ ?_ ?_ ?_ ?_ ?_ ?_ ?_ ?_ ?_ ?_ ?_ ?_ ?_ ?_ ?_)

theorem State.loadBegin_framed {rst : Bool} {F : List Field} {z s : State} {i : Issuer} {ps : List Word} (hF : ([.cmi, .img, .net, .hrpOut] : List Field).all (F.contains ·) = true) (hz : Framed rst F z s) : Framed rst F z (State.loadBegin s i ps) := by
  unfold State.loadBegin
  try dsimp only
  repeat' first
    | with_reducible assumption
    | (with_reducible apply Or.inr; with_reducible rfl)
    | ((with_reducible apply Or.inl); exact Framed.mem hF rfl)
    | ((with_reducible apply Framed.sub (G := [.cmi, .img, .net, .hrpOut]) ?_ hF); rfl)
    | with_reducible apply State.answer_framed
    | with_reducible apply State.dropLoad_framed
    | split
    | (refine Framed.of_mk ?_ (fun h => h) ?_ ?_ ?_ ?_ ?_ ?_ ?_ ?_ ?_ ?_ ?_ ?_ ?_ ?_ ?_ ?_ ?_ ?_ ?_ ?_ ?_ ?_ ?_ ?_ ?_ ?_ ?_ ?_)

theorem State.onImageLoadBegin_framed {rst : Bool} {F : List Field} {z s : State}  (hF : ([.parts, .ints, .cmi, .img, .net, .clk, .hrpOut] : List Field).all (F.contains ·) = true) (hz : Framed rst F z s) : Framed rst F z (State.onImageLoadBegin s) := by
  unfold State.onImageLoadBegin
  try dsimp only
  repeat' first
    | with_reducible assumption
    | (with_reducible apply Or.inr; with_reducible rfl)
    | ((with_reducible apply Or.inl); exact Framed.mem hF rfl)
    | ((with_reducible apply Framed.sub (G := [.parts, .ints, .cmi, .img, .net, .clk, .hrpOut]) ?_ hF); rfl)
    | with_reducible apply State.runLoad_framed
    | with_reducible apply State.loadBegin_framed
    | intro _
    | split

theorem State.loadConflict_framed {rst : Bool} {F : List Field} {z s : State} {d : Handle} {h : Nat} {o : Nat} (hF : ([.trb, .parts, .ints] : List Field).all (F.contains ·) = true) (hz : Framed rst F z s) : Framed rst F z (State.loadConflict s d h o) := by
  unfold State.loadConflict
  try dsimp only
  repeat' first
    | with_reducible assumption
    | (with_reducible apply Or.inr; with_reducible rfl)
    | ((with_reducible apply Or.inl); exact Framed.mem hF rfl)
    | ((with_reducible apply Framed.sub (G := [.trb, .parts, .ints]) ?_ hF); rfl)
    | with_reducible apply State.trouble_framed
    | with_reducible apply State.raise_framed
    | split

theorem State.putRows_framed {rst : Bool} {F : List Field} {z s : State} {row : Nat} {n : Nat} {ws : List Word} (hF : ([.mem, .img] : List Field).all (F.contains ·) = true) (hz : Framed rst F z s) : Framed rst F z (State.putRows s row n ws) := by
  unfold State.putRows
  try dsimp only
  repeat' first
    | with_reducible assumption
    | (with_reducible apply Or.inr; with_reducible rfl)
    | ((with_reducible apply Or.inl); exact Framed.mem hF rfl)
    | ((with_reducible apply Framed.sub (G := [.mem, .img]) ?_ hF); rfl)
    | with_reducible apply State.dropBacks_framed
    | split
    | (refine Framed.of_mk ?_ (fun h => h) ?_ ?_ ?_ ?_ ?_ ?_ ?_ ?_ ?_ ?_ ?_ ?_ ?_ ?_ ?_ ?_ ?_ ?_ ?_ ?_ ?_ ?_ ?_ ?_ ?_ ?_ ?_ ?_)

theorem State.loadData_framed {rst : Bool} {F : List Field} {z s : State} {i : Issuer} {ps : List Word} (hF : ([.trb, .parts, .ints, .cmi, .mem, .img, .net, .hrpOut] : List Field).all (F.contains ·) = true) (hz : Framed rst F z s) : Framed rst F z (State.loadData s i ps) := by
  unfold State.loadData
  try dsimp only
  repeat' first
    | with_reducible assumption
    | (with_reducible apply Or.inr; with_reducible rfl)
    | ((with_reducible apply Or.inl); exact Framed.mem hF rfl)
    | ((with_reducible apply Framed.sub (G := [.trb, .parts, .ints, .cmi, .mem, .img, .net, .hrpOut]) ?_ hF); rfl)
    | with_reducible apply State.answer_framed
    | with_reducible apply State.dropLoad_framed
    | with_reducible apply State.loadConflict_framed
    | with_reducible apply State.putRows_framed
    | split
    | (refine Framed.of_mk ?_ (fun h => h) ?_ ?_ ?_ ?_ ?_ ?_ ?_ ?_ ?_ ?_ ?_ ?_ ?_ ?_ ?_ ?_ ?_ ?_ ?_ ?_ ?_ ?_ ?_ ?_ ?_ ?_ ?_ ?_)

theorem State.onImageLoadData_framed {rst : Bool} {F : List Field} {z s : State}  (hF : ([.trb, .parts, .ints, .cmi, .mem, .img, .net, .clk, .hrpOut] : List Field).all (F.contains ·) = true) (hz : Framed rst F z s) : Framed rst F z (State.onImageLoadData s) := by
  unfold State.onImageLoadData
  try dsimp only
  repeat' first
    | with_reducible assumption
    | (with_reducible apply Or.inr; with_reducible rfl)
    | ((with_reducible apply Or.inl); exact Framed.mem hF rfl)
    | ((with_reducible apply Framed.sub (G := [.trb, .parts, .ints, .cmi, .mem, .img, .net, .clk, .hrpOut]) ?_ hF); rfl)
    | with_reducible apply State.runLoad_framed
    | with_reducible apply State.loadData_framed
    | intro _
    | split

theorem State.loadEnd_framed {rst : Bool} {F : List Field} {z s : State} {i : Issuer} {ps : List Word} (hF : ([.trb, .parts, .ints, .cmi, .mem, .img, .net, .hrpOut] : List Field).all (F.contains ·) = true) (hz : Framed rst F z s) : Framed rst F z (State.loadEnd s i ps) := by
  unfold State.loadEnd
  try dsimp only
  repeat' first
    | with_reducible assumption
    | (with_reducible apply Or.inr; with_reducible rfl)
    | ((with_reducible apply Or.inl); exact Framed.mem hF rfl)
    | ((with_reducible apply Framed.sub (G := [.trb, .parts, .ints, .cmi, .mem, .img, .net, .hrpOut]) ?_ hF); rfl)
    | with_reducible apply State.answer_framed
    | with_reducible apply State.dropLoad_framed
    | with_reducible apply State.loadConflict_framed
    | with_reducible apply State.putRows_framed
    | split
    | (refine Framed.foldl (fun _ _ _ => ?_) ?_)
    | (refine Framed.of_mk ?_ (fun h => h) ?_ ?_ ?_ ?_ ?_ ?_ ?_ ?_ ?_ ?_ ?_ ?_ ?_ ?_ ?_ ?_ ?_ ?_ ?_ ?_ ?_ ?_ ?_ ?_ ?_ ?_ ?_ ?_)

theorem State.onImageLoadEnd_framed {rst : Bool} {F : List Field} {z s : State}  (hF : ([.trb, .parts, .ints, .cmi, .mem, .img, .net, .clk, .hrpOut] : List Field).all (F.contains ·) = true) (hz : Framed rst F z s) : Framed rst F z (State.onImageLoadEnd s) := by
  unfold State.onImageLoadEnd
  try dsimp only
  repeat' first
    | with_reducible assumption
    | (with_reducible apply Or.inr; with_reducible rfl)
    | ((with_reducible apply Or.inl); exact Framed.mem hF rfl)
    | ((with_reducible apply Framed.sub (G := [.trb, .parts, .ints, .cmi, .mem, .img, .net, .clk, .hrpOut]) ?_ hF); rfl)
    | with_reducible apply State.runLoad_framed
    | with_reducible apply State.loadEnd_framed
    | intro _
    | split

theorem State.onImageQuery_framed {rst : Bool} {F : List Field} {z s : State}  (hF : ([.parts, .ints, .cmi, .net, .clk, .hrpOut] : List Field).all (F.contains ·) = true) (hz : Framed rst F z s) : Framed rst F z (State.onImageQuery s) := by
  unfold State.onImageQuery
  try dsimp only
  repeat' first
    | with_reducible assumption
    | (with_reducible apply Or.inr; with_reducible rfl)
    | ((with_reducible apply Or.inl); exact Framed.mem hF rfl)
    | ((with_reducible apply Framed.sub (G := [.parts, .ints, .cmi, .net, .clk, .hrpOut]) ?_ hF); rfl)
    | with_reducible apply State.runCmd_framed
    | with_reducible apply State.reply_framed
    | intro _
    | split

end Sys2Proof.Machine
end

