-- ==== Sys2Proof/Laws/FramedClocks.lean ====
section
/-! SUPPORT. Clocks and power: the parts of the state that each operation may change, one lemma for each. -/
namespace Sys2Proof.Machine
set_option Elab.async false

theorem State.floorWatch_framed {rst : Bool} {F : List Field} {z s : State}  (hF : ([.clk] : List Field).all (F.contains ·) = true) (hz : Framed rst F z s) : Framed rst F z (State.floorWatch s) := by
  unfold State.floorWatch
  try dsimp only
  repeat' first
    | with_reducible assumption
    | (with_reducible apply Or.inr; with_reducible rfl)
    | ((with_reducible apply Or.inl); exact Framed.mem hF rfl)
    | ((with_reducible apply Framed.sub (G := [.clk]) ?_ hF); rfl)
    | split
    | (refine Framed.of_mk ?_ (fun h => h) ?_ ?_ ?_ ?_ ?_ ?_ ?_ ?_ ?_ ?_ ?_ ?_ ?_ ?_ ?_ ?_ ?_ ?_ ?_ ?_ ?_ ?_ ?_ ?_ ?_ ?_ ?_ ?_)

theorem State.stepTo_framed {rst : Bool} {F : List Field} {z s : State} {mhz : Nat} (hF : ([.clk] : List Field).all (F.contains ·) = true) (hz : Framed rst F z s) : Framed rst F z (State.stepTo s mhz) := by
  unfold State.stepTo
  try dsimp only
  repeat' first
    | with_reducible assumption
    | (with_reducible apply Or.inr; with_reducible rfl)
    | ((with_reducible apply Or.inl); exact Framed.mem hF rfl)
    | ((with_reducible apply Framed.sub (G := [.clk]) ?_ hF); rfl)
    | with_reducible apply State.floorWatch_framed
    | split
    | (refine Framed.of_mk ?_ (fun h => h) ?_ ?_ ?_ ?_ ?_ ?_ ?_ ?_ ?_ ?_ ?_ ?_ ?_ ?_ ?_ ?_ ?_ ?_ ?_ ?_ ?_ ?_ ?_ ?_ ?_ ?_ ?_ ?_)

theorem State.clockStep_framed {rst : Bool} {F : List Field} {z s : State}  (hF : ([.clk] : List Field).all (F.contains ·) = true) (hz : Framed rst F z s) : Framed rst F z (State.clockStep s) := by
  unfold State.clockStep
  try dsimp only
  repeat' first
    | with_reducible assumption
    | (with_reducible apply Or.inr; with_reducible rfl)
    | ((with_reducible apply Or.inl); exact Framed.mem hF rfl)
    | ((with_reducible apply Framed.sub (G := [.clk]) ?_ hF); rfl)
    | with_reducible apply State.stepTo_framed
    | split
    | (refine Framed.of_mk ?_ (fun h => h) ?_ ?_ ?_ ?_ ?_ ?_ ?_ ?_ ?_ ?_ ?_ ?_ ?_ ?_ ?_ ?_ ?_ ?_ ?_ ?_ ?_ ?_ ?_ ?_ ?_ ?_ ?_ ?_)

theorem State.onGclkStep_framed {rst : Bool} {F : List Field} {z s1 : State}  (hF : ([.clk] : List Field).all (F.contains ·) = true) (hz : Framed rst F z s1) : Framed rst F z (State.onGclkStep s1) := by
  unfold State.onGclkStep
  try dsimp only
  repeat' first
    | with_reducible assumption
    | (with_reducible apply Or.inr; with_reducible rfl)
    | ((with_reducible apply Or.inl); exact Framed.mem hF rfl)
    | ((with_reducible apply Framed.sub (G := [.clk]) ?_ hF); rfl)
    | with_reducible apply State.clockStep_framed
    | split

theorem State.onThrottleAssert_framed {rst : Bool} {F : List Field} {z s1 : State}  (hF : ([.clk] : List Field).all (F.contains ·) = true) (hz : Framed rst F z s1) : Framed rst F z (State.onThrottleAssert s1) := by
  unfold State.onThrottleAssert
  try dsimp only
  repeat' first
    | with_reducible assumption
    | (with_reducible apply Or.inr; with_reducible rfl)
    | ((with_reducible apply Or.inl); exact Framed.mem hF rfl)
    | ((with_reducible apply Framed.sub (G := [.clk]) ?_ hF); rfl)
    | with_reducible apply State.floorWatch_framed
    | split
    | (refine Framed.of_mk ?_ (fun h => h) ?_ ?_ ?_ ?_ ?_ ?_ ?_ ?_ ?_ ?_ ?_ ?_ ?_ ?_ ?_ ?_ ?_ ?_ ?_ ?_ ?_ ?_ ?_ ?_ ?_ ?_ ?_ ?_)

theorem State.onThrottleDeassert_framed {rst : Bool} {F : List Field} {z s1 : State}  (hF : ([.clk] : List Field).all (F.contains ·) = true) (hz : Framed rst F z s1) : Framed rst F z (State.onThrottleDeassert s1) := by
  unfold State.onThrottleDeassert
  try dsimp only
  repeat' first
    | with_reducible assumption
    | (with_reducible apply Or.inr; with_reducible rfl)
    | ((with_reducible apply Or.inl); exact Framed.mem hF rfl)
    | ((with_reducible apply Framed.sub (G := [.clk]) ?_ hF); rfl)
    | with_reducible apply State.floorWatch_framed
    | split
    | (refine Framed.of_mk ?_ (fun h => h) ?_ ?_ ?_ ?_ ?_ ?_ ?_ ?_ ?_ ?_ ?_ ?_ ?_ ?_ ?_ ?_ ?_ ?_ ?_ ?_ ?_ ?_ ?_ ?_ ?_ ?_ ?_ ?_)

theorem State.onThrottleFloorViolation_framed {F : List Field} {z s1 : State}  (hF : ([] : List Field).all (F.contains ·) = true) (hz : Framed true F z s1) : Framed true F z (State.onThrottleFloorViolation s1) := by
  unfold State.onThrottleFloorViolation
  try dsimp only
  repeat' first
    | with_reducible assumption
    | (with_reducible apply Or.inr; with_reducible rfl)
    | ((with_reducible apply Or.inl); exact Framed.mem hF rfl)
    | ((with_reducible apply Framed.sub (G := []) ?_ hF); rfl)
    | with_reducible apply State.jobFault_framed
    | split

theorem State.putRetainedAll_framed {rst : Bool} {F : List Field} {z s : State} {a : Nat} {ws : List Word} (hF : ([.trb] : List Field).all (F.contains ·) = true) (hz : Framed rst F z s) : Framed rst F z (State.putRetainedAll s a ws) := by
  unfold State.putRetainedAll
  try dsimp only
  repeat' first
    | with_reducible assumption
    | (with_reducible apply Or.inr; with_reducible rfl)
    | ((with_reducible apply Or.inl); exact Framed.mem hF rfl)
    | ((with_reducible apply Framed.sub (G := [.trb]) ?_ hF); rfl)
    | with_reducible apply State.putRetained_framed
    | split
    | (refine Framed.foldl (fun _ _ _ => ?_) ?_)

theorem State.putRecord_framed {rst : Bool} {F : List Field} {z s : State} {ws : List Word} (hF : ([.trb] : List Field).all (F.contains ·) = true) (hz : Framed rst F z s) : Framed rst F z (State.putRecord s ws) := by
  unfold State.putRecord
  try dsimp only
  repeat' first
    | with_reducible assumption
    | (with_reducible apply Or.inr; with_reducible rfl)
    | ((with_reducible apply Or.inl); exact Framed.mem hF rfl)
    | ((with_reducible apply Framed.sub (G := [.trb]) ?_ hF); rfl)
    | with_reducible apply State.putRetainedAll_framed
    | with_reducible apply State.putRetained_framed
    | split

theorem State.measure_framed {rst : Bool} {F : List Field} {z s : State} {cause : Nat} {codes : List Nat} {spine : Nat} {second : Bool} (hF : ([.trb, .parts, .ints, .bal, .clk] : List Field).all (F.contains ·) = true) (hz : Framed rst F z s) : Framed rst F z (State.measure s cause codes spine second) := by
  unfold State.measure
  try dsimp only
  repeat' first
    | with_reducible assumption
    | (with_reducible apply Or.inr; with_reducible rfl)
    | ((with_reducible apply Or.inl); exact Framed.mem hF rfl)
    | ((with_reducible apply Framed.sub (G := [.trb, .parts, .ints, .bal, .clk]) ?_ hF); rfl)
    | with_reducible apply State.putRecord_framed
    | with_reducible apply State.floorWatch_framed
    | with_reducible apply State.ageMargin_framed
    | split
    | (refine Framed.of_mk ?_ (fun h => h) ?_ ?_ ?_ ?_ ?_ ?_ ?_ ?_ ?_ ?_ ?_ ?_ ?_ ?_ ?_ ?_ ?_ ?_ ?_ ?_ ?_ ?_ ?_ ?_ ?_ ?_ ?_ ?_)

theorem State.leaveSleep_framed {rst : Bool} {F : List Field} {z s : State}  (hF : ([.clk] : List Field).all (F.contains ·) = true) (hz : Framed rst F z s) : Framed rst F z (State.leaveSleep s) := by
  unfold State.leaveSleep
  try dsimp only
  repeat' first
    | with_reducible assumption
    | (with_reducible apply Or.inr; with_reducible rfl)
    | ((with_reducible apply Or.inl); exact Framed.mem hF rfl)
    | ((with_reducible apply Framed.sub (G := [.clk]) ?_ hF); rfl)
    | with_reducible apply State.floorWatch_framed
    | split
    | (refine Framed.of_mk ?_ (fun h => h) ?_ ?_ ?_ ?_ ?_ ?_ ?_ ?_ ?_ ?_ ?_ ?_ ?_ ?_ ?_ ?_ ?_ ?_ ?_ ?_ ?_ ?_ ?_ ?_ ?_ ?_ ?_ ?_)

theorem State.onAgeingMeasurement_framed {rst : Bool} {F : List Field} {z s1 : State} {codes : List Nat} {spine : Nat} (hF : ([.rs, .trb, .parts, .ints, .bal, .clk] : List Field).all (F.contains ·) = true) (hz : Framed rst F z s1) : Framed rst F z (State.onAgeingMeasurement s1 codes spine) := by
  unfold State.onAgeingMeasurement
  try dsimp only
  repeat' first
    | with_reducible assumption
    | (with_reducible apply Or.inr; with_reducible rfl)
    | ((with_reducible apply Or.inl); exact Framed.mem hF rfl)
    | ((with_reducible apply Framed.sub (G := [.rs, .trb, .parts, .ints, .bal, .clk]) ?_ hF); rfl)
    | with_reducible apply State.measure_framed
    | with_reducible apply State.leaveSleep_framed
    | split
    | (refine Framed.of_mk ?_ (fun h => h) ?_ ?_ ?_ ?_ ?_ ?_ ?_ ?_ ?_ ?_ ?_ ?_ ?_ ?_ ?_ ?_ ?_ ?_ ?_ ?_ ?_ ?_ ?_ ?_ ?_ ?_ ?_ ?_)

theorem State.onPwrSettleDone_framed {rst : Bool} {F : List Field} {z s1 : State} {codes : List Nat} {spine : Nat} (hF : ([.trb, .parts, .ints, .bal, .clk] : List Field).all (F.contains ·) = true) (hz : Framed rst F z s1) : Framed rst F z (State.onPwrSettleDone s1 codes spine) := by
  unfold State.onPwrSettleDone
  try dsimp only
  repeat' first
    | with_reducible assumption
    | (with_reducible apply Or.inr; with_reducible rfl)
    | ((with_reducible apply Or.inl); exact Framed.mem hF rfl)
    | ((with_reducible apply Framed.sub (G := [.trb, .parts, .ints, .bal, .clk]) ?_ hF); rfl)
    | with_reducible apply State.stepTo_framed
    | with_reducible apply State.measure_framed
    | split
    | (refine Framed.of_mk ?_ (fun h => h) ?_ ?_ ?_ ?_ ?_ ?_ ?_ ?_ ?_ ?_ ?_ ?_ ?_ ?_ ?_ ?_ ?_ ?_ ?_ ?_ ?_ ?_ ?_ ?_ ?_ ?_ ?_ ?_)

theorem State.onSleepEntry_framed {rst : Bool} {F : List Field} {z s1 : State}  (hF : ([.clk] : List Field).all (F.contains ·) = true) (hz : Framed rst F z s1) : Framed rst F z (State.onSleepEntry s1) := by
  unfold State.onSleepEntry
  try dsimp only
  repeat' first
    | with_reducible assumption
    | (with_reducible apply Or.inr; with_reducible rfl)
    | ((with_reducible apply Or.inl); exact Framed.mem hF rfl)
    | ((with_reducible apply Framed.sub (G := [.clk]) ?_ hF); rfl)
    | split
    | (refine Framed.of_mk ?_ (fun h => h) ?_ ?_ ?_ ?_ ?_ ?_ ?_ ?_ ?_ ?_ ?_ ?_ ?_ ?_ ?_ ?_ ?_ ?_ ?_ ?_ ?_ ?_ ?_ ?_ ?_ ?_ ?_ ?_)

theorem State.onSleepExit_framed {rst : Bool} {F : List Field} {z s1 : State} {cause : WakeCause} (hF : ([.clk] : List Field).all (F.contains ·) = true) (hz : Framed rst F z s1) : Framed rst F z (State.onSleepExit s1 cause) := by
  unfold State.onSleepExit
  try dsimp only
  repeat' first
    | with_reducible assumption
    | (with_reducible apply Or.inr; with_reducible rfl)
    | ((with_reducible apply Or.inl); exact Framed.mem hF rfl)
    | ((with_reducible apply Framed.sub (G := [.clk]) ?_ hF); rfl)
    | with_reducible apply State.leaveSleep_framed
    | split

end Sys2Proof.Machine
end

