-- ==== Sys2Proof/Laws/FramedCommit.lean ====
section
/-! SUPPORT. Mode commits: the parts of the state that each operation may change, one lemma for each. -/
namespace Sys2Proof.Machine
set_option Elab.async false

theorem State.stageChange_framed {rst : Bool} {F : List Field} {z s : State} {t : Staged} (hF : ([.parts, .ints, .img, .com] : List Field).all (F.contains ·) = true) (hz : Framed rst F z s) : Framed rst F z (State.stageChange s t) := by
  unfold State.stageChange
  try dsimp only
  repeat' first
    | with_reducible assumption
    | (with_reducible apply Or.inr; with_reducible rfl)
    | ((with_reducible apply Or.inl); exact Framed.mem hF rfl)
    | ((with_reducible apply Framed.sub (G := [.parts, .ints, .img, .com]) ?_ hF); rfl)
    | with_reducible apply State.raiseAll_framed
    | split
    | (refine Framed.of_mk ?_ (fun h => h) ?_ ?_ ?_ ?_ ?_ ?_ ?_ ?_ ?_ ?_ ?_ ?_ ?_ ?_ ?_ ?_ ?_ ?_ ?_ ?_ ?_ ?_ ?_ ?_ ?_ ?_ ?_ ?_)

theorem State.countAbort_framed {rst : Bool} {F : List Field} {z s : State}  (hF : ([.parts, .ints, .bal] : List Field).all (F.contains ·) = true) (hz : Framed rst F z s) : Framed rst F z (State.countAbort s) := by
  unfold State.countAbort
  try dsimp only
  repeat' first
    | with_reducible assumption
    | (with_reducible apply Or.inr; with_reducible rfl)
    | ((with_reducible apply Or.inl); exact Framed.mem hF rfl)
    | ((with_reducible apply Framed.sub (G := [.parts, .ints, .bal]) ?_ hF); rfl)
    | with_reducible apply State.raiseAll_framed
    | split
    | (refine Framed.of_mk ?_ (fun h => h) ?_ ?_ ?_ ?_ ?_ ?_ ?_ ?_ ?_ ?_ ?_ ?_ ?_ ?_ ?_ ?_ ?_ ?_ ?_ ?_ ?_ ?_ ?_ ?_ ?_ ?_ ?_ ?_)

theorem State.unstage_framed {rst : Bool} {F : List Field} {z s : State} {k : Kind} (hF : ([.parts, .ints, .img, .com, .bal] : List Field).all (F.contains ·) = true) (hz : Framed rst F z s) : Framed rst F z (State.unstage s k) := by
  unfold State.unstage
  try dsimp only
  repeat' first
    | with_reducible assumption
    | (with_reducible apply Or.inr; with_reducible rfl)
    | ((with_reducible apply Or.inl); exact Framed.mem hF rfl)
    | ((with_reducible apply Framed.sub (G := [.parts, .ints, .img, .com, .bal]) ?_ hF); rfl)
    | with_reducible apply State.countAbort_framed
    | split
    | (refine Framed.of_mk ?_ (fun h => h) ?_ ?_ ?_ ?_ ?_ ?_ ?_ ?_ ?_ ?_ ?_ ?_ ?_ ?_ ?_ ?_ ?_ ?_ ?_ ?_ ?_ ?_ ?_ ?_ ?_ ?_ ?_ ?_)

theorem State.answerAll_framed {rst : Bool} {F : List Field} {z s : State} {is : List Issuer} {st : Status} (hF : ([.cmi, .net, .hrpOut] : List Field).all (F.contains ·) = true) (hz : Framed rst F z s) : Framed rst F z (State.answerAll s is st) := by
  unfold State.answerAll
  try dsimp only
  repeat' first
    | with_reducible assumption
    | (with_reducible apply Or.inr; with_reducible rfl)
    | ((with_reducible apply Or.inl); exact Framed.mem hF rfl)
    | ((with_reducible apply Framed.sub (G := [.cmi, .net, .hrpOut]) ?_ hF); rfl)
    | with_reducible apply State.answer_framed
    | split
    | (refine Framed.foldl (fun _ _ _ => ?_) ?_)

theorem State.abortCommit_framed {rst : Bool} {F : List Field} {z s : State} {st : Status} (hF : ([.parts, .ints, .cmi, .img, .com, .bal, .net, .hrpOut] : List Field).all (F.contains ·) = true) (hz : Framed rst F z s) : Framed rst F z (State.abortCommit s st) := by
  unfold State.abortCommit
  try dsimp only
  repeat' first
    | with_reducible assumption
    | (with_reducible apply Or.inr; with_reducible rfl)
    | ((with_reducible apply Or.inl); exact Framed.mem hF rfl)
    | ((with_reducible apply Framed.sub (G := [.parts, .ints, .cmi, .img, .com, .bal, .net, .hrpOut]) ?_ hF); rfl)
    | with_reducible apply State.unstage_framed
    | with_reducible apply State.bcast_framed
    | with_reducible apply State.answerAll_framed
    | split
    | (refine Framed.of_mk ?_ (fun h => h) ?_ ?_ ?_ ?_ ?_ ?_ ?_ ?_ ?_ ?_ ?_ ?_ ?_ ?_ ?_ ?_ ?_ ?_ ?_ ?_ ?_ ?_ ?_ ?_ ?_ ?_ ?_ ?_)

theorem State.prepareDone_framed {rst : Bool} {F : List Field} {z s : State}  (hF : ([.cmi, .com, .net, .hrpOut] : List Field).all (F.contains ·) = true) (hz : Framed rst F z s) : Framed rst F z (State.prepareDone s) := by
  unfold State.prepareDone
  try dsimp only
  repeat' first
    | with_reducible assumption
    | (with_reducible apply Or.inr; with_reducible rfl)
    | ((with_reducible apply Or.inl); exact Framed.mem hF rfl)
    | ((with_reducible apply Framed.sub (G := [.cmi, .com, .net, .hrpOut]) ?_ hF); rfl)
    | with_reducible apply State.answerAll_framed
    | split
    | (refine Framed.of_mk ?_ (fun h => h) ?_ ?_ ?_ ?_ ?_ ?_ ?_ ?_ ?_ ?_ ?_ ?_ ?_ ?_ ?_ ?_ ?_ ?_ ?_ ?_ ?_ ?_ ?_ ?_ ?_ ?_ ?_ ?_)

theorem State.startCommit_framed {rst : Bool} {F : List Field} {z s : State} {t : Staged} {replies : List Issuer} {prepare : Option Issuer} {pin : Option Nat} (hF : ([.parts, .ints, .cmi, .img, .com, .bal, .net, .hrpOut] : List Field).all (F.contains ·) = true) (hz : Framed rst F z s) : Framed rst F z (State.startCommit s t replies prepare pin) := by
  unfold State.startCommit
  try dsimp only
  repeat' first
    | with_reducible assumption
    | (with_reducible apply Or.inr; with_reducible rfl)
    | ((with_reducible apply Or.inl); exact Framed.mem hF rfl)
    | ((with_reducible apply Framed.sub (G := [.parts, .ints, .cmi, .img, .com, .bal, .net, .hrpOut]) ?_ hF); rfl)
    | with_reducible apply State.bcast_framed
    | with_reducible apply State.prepareDone_framed
    | with_reducible apply State.stageChange_framed
    | with_reducible apply State.abortCommit_framed
    | split
    | (refine Framed.of_mk ?_ (fun h => h) ?_ ?_ ?_ ?_ ?_ ?_ ?_ ?_ ?_ ?_ ?_ ?_ ?_ ?_ ?_ ?_ ?_ ?_ ?_ ?_ ?_ ?_ ?_ ?_ ?_ ?_ ?_ ?_)

theorem State.imageCommit_framed {rst : Bool} {F : List Field} {z s : State} {i : Issuer} {ps : List Word} {now : Nat} (hF : ([.parts, .ints, .cmi, .img, .com, .bal, .net, .hrpOut] : List Field).all (F.contains ·) = true) (hz : Framed rst F z s) : Framed rst F z (State.imageCommit s i ps now) := by
  unfold State.imageCommit
  try dsimp only
  repeat' first
    | with_reducible assumption
    | (with_reducible apply Or.inr; with_reducible rfl)
    | ((with_reducible apply Or.inl); exact Framed.mem hF rfl)
    | ((with_reducible apply Framed.sub (G := [.parts, .ints, .cmi, .img, .com, .bal, .net, .hrpOut]) ?_ hF); rfl)
    | with_reducible apply State.answer_framed
    | with_reducible apply State.startCommit_framed
    | split

theorem State.modePrepare_framed {rst : Bool} {F : List Field} {z s : State} {i : Issuer} {ps : List Word} {now : Nat} (hF : ([.parts, .ints, .cmi, .img, .com, .bal, .net, .hrpOut] : List Field).all (F.contains ·) = true) (hz : Framed rst F z s) : Framed rst F z (State.modePrepare s i ps now) := by
  unfold State.modePrepare
  try dsimp only
  repeat' first
    | with_reducible assumption
    | (with_reducible apply Or.inr; with_reducible rfl)
    | ((with_reducible apply Or.inl); exact Framed.mem hF rfl)
    | ((with_reducible apply Framed.sub (G := [.parts, .ints, .cmi, .img, .com, .bal, .net, .hrpOut]) ?_ hF); rfl)
    | with_reducible apply State.answer_framed
    | with_reducible apply State.startCommit_framed
    | split

theorem State.modeCommit_framed {rst : Bool} {F : List Field} {z s : State} {i : Issuer} {ps : List Word} {now : Nat} (hF : ([.cmi, .com, .net, .hrpOut] : List Field).all (F.contains ·) = true) (hz : Framed rst F z s) : Framed rst F z (State.modeCommit s i ps now) := by
  unfold State.modeCommit
  try dsimp only
  repeat' first
    | with_reducible assumption
    | (with_reducible apply Or.inr; with_reducible rfl)
    | ((with_reducible apply Or.inl); exact Framed.mem hF rfl)
    | ((with_reducible apply Framed.sub (G := [.cmi, .com, .net, .hrpOut]) ?_ hF); rfl)
    | with_reducible apply State.answer_framed
    | split
    | (refine Framed.of_mk ?_ (fun h => h) ?_ ?_ ?_ ?_ ?_ ?_ ?_ ?_ ?_ ?_ ?_ ?_ ?_ ?_ ?_ ?_ ?_ ?_ ?_ ?_ ?_ ?_ ?_ ?_ ?_ ?_ ?_ ?_)

theorem State.modeAbort_framed {rst : Bool} {F : List Field} {z s : State} {i : Issuer} {ps : List Word} {now : Nat} (hF : ([.parts, .ints, .cmi, .img, .com, .bal, .net, .hrpOut] : List Field).all (F.contains ·) = true) (hz : Framed rst F z s) : Framed rst F z (State.modeAbort s i ps now) := by
  unfold State.modeAbort
  try dsimp only
  repeat' first
    | with_reducible assumption
    | (with_reducible apply Or.inr; with_reducible rfl)
    | ((with_reducible apply Or.inl); exact Framed.mem hF rfl)
    | ((with_reducible apply Framed.sub (G := [.parts, .ints, .cmi, .img, .com, .bal, .net, .hrpOut]) ?_ hF); rfl)
    | with_reducible apply State.answer_framed
    | with_reducible apply State.abortCommit_framed
    | split

theorem State.pinDone_framed {rst : Bool} {F : List Field} {z s : State} {i : Issuer} (hF : ([.parts, .ints, .cmi, .net, .hrpOut] : List Field).all (F.contains ·) = true) (hz : Framed rst F z s) : Framed rst F z (State.pinDone s i) := by
  unfold State.pinDone
  try dsimp only
  repeat' first
    | with_reducible assumption
    | (with_reducible apply Or.inr; with_reducible rfl)
    | ((with_reducible apply Or.inl); exact Framed.mem hF rfl)
    | ((with_reducible apply Framed.sub (G := [.parts, .ints, .cmi, .net, .hrpOut]) ?_ hF); rfl)
    | with_reducible apply State.answer_framed
    | with_reducible apply State.raiseAll_framed
    | split

theorem State.schedulePin_framed {rst : Bool} {F : List Field} {z s : State} {i : Issuer} {ps : List Word} {now : Nat} (hF : ([.parts, .ints, .cmi, .img, .com, .bal, .net, .hrpOut] : List Field).all (F.contains ·) = true) (hz : Framed rst F z s) : Framed rst F z (State.schedulePin s i ps now) := by
  unfold State.schedulePin
  try dsimp only
  repeat' first
    | with_reducible assumption
    | (with_reducible apply Or.inr; with_reducible rfl)
    | ((with_reducible apply Or.inl); exact Framed.mem hF rfl)
    | ((with_reducible apply Framed.sub (G := [.parts, .ints, .cmi, .img, .com, .bal, .net, .hrpOut]) ?_ hF); rfl)
    | with_reducible apply State.answer_framed
    | with_reducible apply State.pinDone_framed
    | with_reducible apply State.startCommit_framed
    | split
    | (refine Framed.of_mk ?_ (fun h => h) ?_ ?_ ?_ ?_ ?_ ?_ ?_ ?_ ?_ ?_ ?_ ?_ ?_ ?_ ?_ ?_ ?_ ?_ ?_ ?_ ?_ ?_ ?_ ?_ ?_ ?_ ?_ ?_)

theorem State.toCoord_framed {rst : Bool} {F : List Field} {z s : State} {i : Issuer} {ps : List Word} {act : State → Nat → State} (hF : ([.cmi, .net, .hrpOut] : List Field).all (F.contains ·) = true) (hz : Framed rst F z s) (hact : ∀ x0 x1, Framed rst F z x0 → Framed rst F z (act x0 x1)) : Framed rst F z (State.toCoord s i ps act) := by
  unfold State.toCoord
  try dsimp only
  repeat' first
    | with_reducible assumption
    | (with_reducible apply Or.inr; with_reducible rfl)
    | ((with_reducible apply Or.inl); exact Framed.mem hF rfl)
    | ((with_reducible apply Framed.sub (G := [.cmi, .net, .hrpOut]) ?_ hF); rfl)
    | with_reducible apply State.answer_framed
    | with_reducible apply State.forward_framed
    | with_reducible apply hact
    | intro _
    | split

theorem State.onImageCommit_framed {rst : Bool} {F : List Field} {z s : State}  (hF : ([.parts, .ints, .cmi, .img, .com, .bal, .net, .clk, .hrpOut] : List Field).all (F.contains ·) = true) (hz : Framed rst F z s) : Framed rst F z (State.onImageCommit s) := by
  unfold State.onImageCommit
  try dsimp only
  repeat' first
    | with_reducible assumption
    | (with_reducible apply Or.inr; with_reducible rfl)
    | ((with_reducible apply Or.inl); exact Framed.mem hF rfl)
    | ((with_reducible apply Framed.sub (G := [.parts, .ints, .cmi, .img, .com, .bal, .net, .clk, .hrpOut]) ?_ hF); rfl)
    | with_reducible apply State.runCmd_framed
    | with_reducible apply State.toCoord_framed
    | with_reducible apply State.imageCommit_framed
    | intro _
    | split

theorem State.onModePrepare_framed {rst : Bool} {F : List Field} {z s : State}  (hF : ([.parts, .ints, .cmi, .img, .com, .bal, .net, .clk, .hrpOut] : List Field).all (F.contains ·) = true) (hz : Framed rst F z s) : Framed rst F z (State.onModePrepare s) := by
  unfold State.onModePrepare
  try dsimp only
  repeat' first
    | with_reducible assumption
    | (with_reducible apply Or.inr; with_reducible rfl)
    | ((with_reducible apply Or.inl); exact Framed.mem hF rfl)
    | ((with_reducible apply Framed.sub (G := [.parts, .ints, .cmi, .img, .com, .bal, .net, .clk, .hrpOut]) ?_ hF); rfl)
    | with_reducible apply State.runCmd_framed
    | with_reducible apply State.toCoord_framed
    | with_reducible apply State.modePrepare_framed
    | intro _
    | split

theorem State.onModeCommit_framed {rst : Bool} {F : List Field} {z s : State}  (hF : ([.parts, .ints, .cmi, .com, .net, .clk, .hrpOut] : List Field).all (F.contains ·) = true) (hz : Framed rst F z s) : Framed rst F z (State.onModeCommit s) := by
  unfold State.onModeCommit
  try dsimp only
  repeat' first
    | with_reducible assumption
    | (with_reducible apply Or.inr; with_reducible rfl)
    | ((with_reducible apply Or.inl); exact Framed.mem hF rfl)
    | ((with_reducible apply Framed.sub (G := [.parts, .ints, .cmi, .com, .net, .clk, .hrpOut]) ?_ hF); rfl)
    | with_reducible apply State.runCmd_framed
    | with_reducible apply State.toCoord_framed
    | with_reducible apply State.modeCommit_framed
    | intro _
    | split

theorem State.onModeAbort_framed {rst : Bool} {F : List Field} {z s : State}  (hF : ([.parts, .ints, .cmi, .img, .com, .bal, .net, .clk, .hrpOut] : List Field).all (F.contains ·) = true) (hz : Framed rst F z s) : Framed rst F z (State.onModeAbort s) := by
  unfold State.onModeAbort
  try dsimp only
  repeat' first
    | with_reducible assumption
    | (with_reducible apply Or.inr; with_reducible rfl)
    | ((with_reducible apply Or.inl); exact Framed.mem hF rfl)
    | ((with_reducible apply Framed.sub (G := [.parts, .ints, .cmi, .img, .com, .bal, .net, .clk, .hrpOut]) ?_ hF); rfl)
    | with_reducible apply State.runCmd_framed
    | with_reducible apply State.toCoord_framed
    | with_reducible apply State.modeAbort_framed
    | intro _
    | split

theorem State.onSchedulePin_framed {rst : Bool} {F : List Field} {z s : State}  (hF : ([.parts, .ints, .cmi, .img, .com, .bal, .net, .clk, .hrpOut] : List Field).all (F.contains ·) = true) (hz : Framed rst F z s) : Framed rst F z (State.onSchedulePin s) := by
  unfold State.onSchedulePin
  try dsimp only
  repeat' first
    | with_reducible assumption
    | (with_reducible apply Or.inr; with_reducible rfl)
    | ((with_reducible apply Or.inl); exact Framed.mem hF rfl)
    | ((with_reducible apply Framed.sub (G := [.parts, .ints, .cmi, .img, .com, .bal, .net, .clk, .hrpOut]) ?_ hF); rfl)
    | with_reducible apply State.runCmd_framed
    | with_reducible apply State.toCoord_framed
    | with_reducible apply State.schedulePin_framed
    | intro _
    | split

theorem State.goDecision_framed {rst : Bool} {F : List Field} {z s : State} {k : Nat} (hF : ([.parts, .ints, .cmi, .img, .com, .bal, .net, .hrpOut] : List Field).all (F.contains ·) = true) (hz : Framed rst F z s) : Framed rst F z (State.goDecision s k) := by
  unfold State.goDecision
  try dsimp only
  repeat' first
    | with_reducible assumption
    | (with_reducible apply Or.inr; with_reducible rfl)
    | ((with_reducible apply Or.inl); exact Framed.mem hF rfl)
    | ((with_reducible apply Framed.sub (G := [.parts, .ints, .cmi, .img, .com, .bal, .net, .hrpOut]) ?_ hF); rfl)
    | with_reducible apply State.abortCommit_framed
    | split
    | (refine Framed.of_mk ?_ (fun h => h) ?_ ?_ ?_ ?_ ?_ ?_ ?_ ?_ ?_ ?_ ?_ ?_ ?_ ?_ ?_ ?_ ?_ ?_ ?_ ?_ ?_ ?_ ?_ ?_ ?_ ?_ ?_ ?_)

theorem State.sendGo_framed {rst : Bool} {F : List Field} {z s : State}  (hF : ([.com, .net] : List Field).all (F.contains ·) = true) (hz : Framed rst F z s) : Framed rst F z (State.sendGo s) := by
  unfold State.sendGo
  try dsimp only
  repeat' first
    | with_reducible assumption
    | (with_reducible apply Or.inr; with_reducible rfl)
    | ((with_reducible apply Or.inl); exact Framed.mem hF rfl)
    | ((with_reducible apply Framed.sub (G := [.com, .net]) ?_ hF); rfl)
    | with_reducible apply State.bcast_framed
    | split
    | (refine Framed.of_mk ?_ (fun h => h) ?_ ?_ ?_ ?_ ?_ ?_ ?_ ?_ ?_ ?_ ?_ ?_ ?_ ?_ ?_ ?_ ?_ ?_ ?_ ?_ ?_ ?_ ?_ ?_ ?_ ?_ ?_ ?_)

theorem State.onCommitGoDecision_framed {rst : Bool} {F : List Field} {z s1 : State}  (hF : ([.parts, .ints, .cmi, .img, .com, .bal, .net, .hrpOut] : List Field).all (F.contains ·) = true) (hz : Framed rst F z s1) : Framed rst F z (State.onCommitGoDecision s1) := by
  unfold State.onCommitGoDecision
  try dsimp only
  repeat' first
    | with_reducible assumption
    | (with_reducible apply Or.inr; with_reducible rfl)
    | ((with_reducible apply Or.inl); exact Framed.mem hF rfl)
    | ((with_reducible apply Framed.sub (G := [.parts, .ints, .cmi, .img, .com, .bal, .net, .hrpOut]) ?_ hF); rfl)
    | with_reducible apply State.sendGo_framed
    | with_reducible apply State.goDecision_framed
    | split

theorem State.undecided_framed {F : List Field} {z s : State} {k : Nat} (hF : ([] : List Field).all (F.contains ·) = true) (hz : Framed true F z s) : Framed true F z (State.undecided s k) := by
  unfold State.undecided
  try dsimp only
  repeat' first
    | with_reducible assumption
    | (with_reducible apply Or.inr; with_reducible rfl)
    | ((with_reducible apply Or.inl); exact Framed.mem hF rfl)
    | ((with_reducible apply Framed.sub (G := []) ?_ hF); rfl)
    | with_reducible apply State.jobFault_framed
    | split

theorem State.onCommitUndecided_framed {F : List Field} {z s1 : State}  (hF : ([] : List Field).all (F.contains ·) = true) (hz : Framed true F z s1) : Framed true F z (State.onCommitUndecided s1) := by
  unfold State.onCommitUndecided
  try dsimp only
  repeat' first
    | with_reducible assumption
    | (with_reducible apply Or.inr; with_reducible rfl)
    | ((with_reducible apply Or.inl); exact Framed.mem hF rfl)
    | ((with_reducible apply Framed.sub (G := []) ?_ hF); rfl)
    | with_reducible apply State.undecided_framed
    | split

theorem State.abandonChanged_framed {rst : Bool} {F : List Field} {z s : State} {egress : Bool} {l : Nat} (hF : ([.entries, .edge, .home, .slots, .ledgers, .parts, .ints, .cmi, .mem, .img, .net, .fsp, .tier, .hrpOut] : List Field).all (F.contains ·) = true) (hz : Framed rst F z s) : Framed rst F z (State.abandonChanged s egress l) := by
  unfold State.abandonChanged
  try dsimp only
  repeat' first
    | with_reducible assumption
    | (with_reducible apply Or.inr; with_reducible rfl)
    | ((with_reducible apply Or.inl); exact Framed.mem hF rfl)
    | ((with_reducible apply Framed.sub (G := [.entries, .edge, .home, .slots, .ledgers, .parts, .ints, .cmi, .mem, .img, .net, .fsp, .tier, .hrpOut]) ?_ hF); rfl)
    | with_reducible apply State.abandon_framed
    | with_reducible apply State.slip_framed
    | split
    | (refine Framed.foldl (fun _ _ _ => ?_) ?_)

theorem State.changeLane_framed {rst : Bool} {F : List Field} {z s : State} {egress : Bool} {l : Nat} {period : Nat} {k : Nat} (hF : ([.entries, .edge, .home, .slots, .ledgers, .parts, .ints, .cmi, .mem, .img, .net, .fsp, .tier, .hrpOut] : List Field).all (F.contains ·) = true) (hz : Framed rst F z s) : Framed rst F z (State.changeLane s egress l period k) := by
  unfold State.changeLane
  try dsimp only
  repeat' first
    | with_reducible assumption
    | (with_reducible apply Or.inr; with_reducible rfl)
    | ((with_reducible apply Or.inl); exact Framed.mem hF rfl)
    | ((with_reducible apply Framed.sub (G := [.entries, .edge, .home, .slots, .ledgers, .parts, .ints, .cmi, .mem, .img, .net, .fsp, .tier, .hrpOut]) ?_ hF); rfl)
    | with_reducible apply State.drain_framed
    | with_reducible apply State.abandonChanged_framed
    | with_reducible apply State.setLane_framed
    | split

theorem State.applyPeriods_framed {rst : Bool} {F : List Field} {z s : State} {k : Nat} (hF : ([.entries, .edge, .home, .slots, .ledgers, .parts, .ints, .cmi, .mem, .img, .net, .fsp, .tier, .hrpOut] : List Field).all (F.contains ·) = true) (hz : Framed rst F z s) : Framed rst F z (State.applyPeriods s k) := by
  unfold State.applyPeriods
  try dsimp only
  repeat' first
    | with_reducible assumption
    | (with_reducible apply Or.inr; with_reducible rfl)
    | ((with_reducible apply Or.inl); exact Framed.mem hF rfl)
    | ((with_reducible apply Framed.sub (G := [.entries, .edge, .home, .slots, .ledgers, .parts, .ints, .cmi, .mem, .img, .net, .fsp, .tier, .hrpOut]) ?_ hF); rfl)
    | with_reducible apply State.changeLane_framed
    | split
    | (refine Framed.foldl (fun _ _ _ => ?_) ?_)

theorem State.sessionAtCommit_framed {rst : Bool} {F : List Field} {z s : State} {slot : Nat} (hF : ([.trb, .entries, .edge, .home, .slots, .ledgers, .parts, .ints, .cmi, .mem, .img, .bal, .net, .fsp, .tier, .hrpOut] : List Field).all (F.contains ·) = true) (hz : Framed rst F z s) : Framed rst F z (State.sessionAtCommit s slot) := by
  unfold State.sessionAtCommit
  try dsimp only
  repeat' first
    | with_reducible assumption
    | (with_reducible apply Or.inr; with_reducible rfl)
    | ((with_reducible apply Or.inl); exact Framed.mem hF rfl)
    | ((with_reducible apply Framed.sub (G := [.trb, .entries, .edge, .home, .slots, .ledgers, .parts, .ints, .cmi, .mem, .img, .bal, .net, .fsp, .tier, .hrpOut]) ?_ hF); rfl)
    | with_reducible apply State.resolveStep_framed
    | (with_reducible refine State.resolveStep_framed_eq (by with_reducible assumption) ?_ ?_)
    | with_reducible apply State.endStreamTo_framed
    | split

theorem State.retire_framed {rst : Bool} {F : List Field} {z s : State}  (hF : ([.img] : List Field).all (F.contains ·) = true) (hz : Framed rst F z s) : Framed rst F z (State.retire s) := by
  unfold State.retire
  try dsimp only
  repeat' first
    | with_reducible assumption
    | (with_reducible apply Or.inr; with_reducible rfl)
    | ((with_reducible apply Or.inl); exact Framed.mem hF rfl)
    | ((with_reducible apply Framed.sub (G := [.img]) ?_ hF); rfl)
    | split
    | (refine Framed.of_mk ?_ (fun h => h) ?_ ?_ ?_ ?_ ?_ ?_ ?_ ?_ ?_ ?_ ?_ ?_ ?_ ?_ ?_ ?_ ?_ ?_ ?_ ?_ ?_ ?_ ?_ ?_ ?_ ?_ ?_ ?_)

theorem State.onImageRetire_framed {rst : Bool} {F : List Field} {z s1 : State}  (hF : ([.img] : List Field).all (F.contains ·) = true) (hz : Framed rst F z s1) : Framed rst F z (State.onImageRetire s1) := by
  unfold State.onImageRetire
  try dsimp only
  repeat' first
    | with_reducible assumption
    | (with_reducible apply Or.inr; with_reducible rfl)
    | ((with_reducible apply Or.inl); exact Framed.mem hF rfl)
    | ((with_reducible apply Framed.sub (G := [.img]) ?_ hF); rfl)
    | with_reducible apply State.retire_framed
    | split

theorem State.newDelay_framed {rst : Bool} {F : List Field} {z s : State} {i : Img} {slot : Nat} (hF : ([.entries, .net] : List Field).all (F.contains ·) = true) (hz : Framed rst F z s) : Framed rst F z (State.newDelay s i slot) := by
  unfold State.newDelay
  try dsimp only
  repeat' first
    | with_reducible assumption
    | (with_reducible apply Or.inr; with_reducible rfl)
    | ((with_reducible apply Or.inl); exact Framed.mem hF rfl)
    | ((with_reducible apply Framed.sub (G := [.entries, .net]) ?_ hF); rfl)
    | with_reducible apply State.setEntry_framed
    | split

theorem State.firstCommit_framed {rst : Bool} {F : List Field} {z s : State} {slot : Nat} (hF : ([.entries, .home, .mem, .img, .net] : List Field).all (F.contains ·) = true) (hz : Framed rst F z s) : Framed rst F z (State.firstCommit s slot) := by
  unfold State.firstCommit
  try dsimp only
  repeat' first
    | with_reducible assumption
    | (with_reducible apply Or.inr; with_reducible rfl)
    | ((with_reducible apply Or.inl); exact Framed.mem hF rfl)
    | ((with_reducible apply Framed.sub (G := [.entries, .home, .mem, .img, .net]) ?_ hF); rfl)
    | with_reducible apply State.setEntry_framed
    | with_reducible apply State.setHome_framed
    | with_reducible apply State.brokenRec_framed
    | split

theorem State.effectImage_framed {rst : Bool} {F : List Field} {z s : State} {k : Nat} (hF : ([.rs, .trb, .entries, .edge, .home, .slots, .ledgers, .parts, .ints, .cmi, .mem, .hdl, .img, .bal, .net, .fsp, .tier, .hrpOut] : List Field).all (F.contains ·) = true) (hz : Framed rst F z s) : Framed rst F z (State.effectImage s k) := by
  unfold State.effectImage
  try dsimp only
  repeat' first
    | with_reducible assumption
    | (with_reducible apply Or.inr; with_reducible rfl)
    | ((with_reducible apply Or.inl); exact Framed.mem hF rfl)
    | ((with_reducible apply Framed.sub (G := [.rs, .trb, .entries, .edge, .home, .slots, .ledgers, .parts, .ints, .cmi, .mem, .hdl, .img, .bal, .net, .fsp, .tier, .hrpOut]) ?_ hF); rfl)
    | with_reducible apply State.sessionAtCommit_framed
    | with_reducible apply State.firstCommit_framed
    | with_reducible apply State.newDelay_framed
    | split
    | (refine Framed.foldl (fun _ _ _ => ?_) ?_)
    | (refine Framed.of_mk ?_ (fun h => h) ?_ ?_ ?_ ?_ ?_ ?_ ?_ ?_ ?_ ?_ ?_ ?_ ?_ ?_ ?_ ?_ ?_ ?_ ?_ ?_ ?_ ?_ ?_ ?_ ?_ ?_ ?_ ?_)

theorem State.effectVariant_framed {rst : Bool} {F : List Field} {z s : State} {v : Nat} (hF : ([.parts, .ints, .bal, .clk] : List Field).all (F.contains ·) = true) (hz : Framed rst F z s) : Framed rst F z (State.effectVariant s v) := by
  unfold State.effectVariant
  try dsimp only
  repeat' first
    | with_reducible assumption
    | (with_reducible apply Or.inr; with_reducible rfl)
    | ((with_reducible apply Or.inl); exact Framed.mem hF rfl)
    | ((with_reducible apply Framed.sub (G := [.parts, .ints, .bal, .clk]) ?_ hF); rfl)
    | with_reducible apply State.wakeReq_framed
    | with_reducible apply State.raiseAll_framed
    | split
    | (refine Framed.foldl (fun _ _ _ => ?_) ?_)
    | (refine Framed.of_mk ?_ (fun h => h) ?_ ?_ ?_ ?_ ?_ ?_ ?_ ?_ ?_ ?_ ?_ ?_ ?_ ?_ ?_ ?_ ?_ ?_ ?_ ?_ ?_ ?_ ?_ ?_ ?_ ?_ ?_ ?_)

theorem State.takeEffect_framed {rst : Bool} {F : List Field} {z s : State} {k : Nat} (hF : ([.rs, .trb, .entries, .edge, .home, .slots, .ledgers, .parts, .ints, .cmi, .mem, .hdl, .img, .com, .bal, .net, .fsp, .tier, .clk, .role, .hrpOut] : List Field).all (F.contains ·) = true) (hz : Framed rst F z s) : Framed rst F z (State.takeEffect s k) := by
  unfold State.takeEffect
  try dsimp only
  repeat' first
    | with_reducible assumption
    | (with_reducible apply Or.inr; with_reducible rfl)
    | ((with_reducible apply Or.inl); exact Framed.mem hF rfl)
    | ((with_reducible apply Framed.sub (G := [.rs, .trb, .entries, .edge, .home, .slots, .ledgers, .parts, .ints, .cmi, .mem, .hdl, .img, .com, .bal, .net, .fsp, .tier, .clk, .role, .hrpOut]) ?_ hF); rfl)
    | with_reducible apply State.effectImage_framed
    | with_reducible apply State.effectVariant_framed
    | with_reducible apply State.answerAll_framed
    | with_reducible apply State.floorWatch_framed
    | with_reducible apply State.applyPeriods_framed
    | with_reducible apply State.raiseAll_framed
    | split
    | (refine Framed.of_mk ?_ (fun h => h) ?_ ?_ ?_ ?_ ?_ ?_ ?_ ?_ ?_ ?_ ?_ ?_ ?_ ?_ ?_ ?_ ?_ ?_ ?_ ?_ ?_ ?_ ?_ ?_ ?_ ?_ ?_ ?_)

end Sys2Proof.Machine
end

