-- ==== Sys2Proof/Laws/FramedTimeUnit.lean ====
section
/-! SUPPORT. The time unit: the parts of the state that each operation may change, one lemma for each. -/
namespace Sys2Proof.Machine
set_option Elab.async false

theorem State.unlock_framed {rst : Bool} {F : List Field} {z s : State}  (hF : ([.tm, .trb, .parts, .ints] : List Field).all (F.contains ·) = true) (hz : Framed rst F z s) : Framed rst F z (State.unlock s) := by
  unfold State.unlock
  try dsimp only
  repeat' first
    | with_reducible assumption
    | (with_reducible apply Or.inr; with_reducible rfl)
    | ((with_reducible apply Or.inl); exact Framed.mem hF rfl)
    | ((with_reducible apply Framed.sub (G := [.tm, .trb, .parts, .ints]) ?_ hF); rfl)
    | with_reducible apply State.trouble_framed
    | split
    | (refine Framed.of_mk ?_ (fun h => h) ?_ ?_ ?_ ?_ ?_ ?_ ?_ ?_ ?_ ?_ ?_ ?_ ?_ ?_ ?_ ?_ ?_ ?_ ?_ ?_ ?_ ?_ ?_ ?_ ?_ ?_ ?_ ?_)

theorem State.lockCommand_framed {rst : Bool} {F : List Field} {z s : State}  (hF : ([.tm] : List Field).all (F.contains ·) = true) (hz : Framed rst F z s) : Framed rst F z (State.lockCommand s) := by
  unfold State.lockCommand
  try dsimp only
  repeat' first
    | with_reducible assumption
    | (with_reducible apply Or.inr; with_reducible rfl)
    | ((with_reducible apply Or.inl); exact Framed.mem hF rfl)
    | ((with_reducible apply Framed.sub (G := [.tm]) ?_ hF); rfl)
    | split
    | (refine Framed.of_mk ?_ (fun h => h) ?_ ?_ ?_ ?_ ?_ ?_ ?_ ?_ ?_ ?_ ?_ ?_ ?_ ?_ ?_ ?_ ?_ ?_ ?_ ?_ ?_ ?_ ?_ ?_ ?_ ?_ ?_ ?_)

theorem State.stepTime_framed {rst : Bool} {F : List Field} {z s : State} {d : Int} (hF : ([.tm, .trb, .parts, .ints] : List Field).all (F.contains ·) = true) (hz : Framed rst F z s) : Framed rst F z (State.stepTime s d) := by
  unfold State.stepTime
  try dsimp only
  repeat' first
    | with_reducible assumption
    | (with_reducible apply Or.inr; with_reducible rfl)
    | ((with_reducible apply Or.inl); exact Framed.mem hF rfl)
    | ((with_reducible apply Framed.sub (G := [.tm, .trb, .parts, .ints]) ?_ hF); rfl)
    | with_reducible apply State.lockCommand_framed
    | with_reducible apply State.unlock_framed
    | split
    | (refine Framed.of_mk ?_ (fun h => h) ?_ ?_ ?_ ?_ ?_ ?_ ?_ ?_ ?_ ?_ ?_ ?_ ?_ ?_ ?_ ?_ ?_ ?_ ?_ ?_ ?_ ?_ ?_ ?_ ?_ ?_ ?_ ?_)

theorem State.setTime_framed {rst : Bool} {F : List Field} {z s : State} {ns : Word} {frac : Nat} (hF : ([.tm, .trb, .parts, .ints] : List Field).all (F.contains ·) = true) (hz : Framed rst F z s) : Framed rst F z (State.setTime s ns frac) := by
  unfold State.setTime
  try dsimp only
  repeat' first
    | with_reducible assumption
    | (with_reducible apply Or.inr; with_reducible rfl)
    | ((with_reducible apply Or.inl); exact Framed.mem hF rfl)
    | ((with_reducible apply Framed.sub (G := [.tm, .trb, .parts, .ints]) ?_ hF); rfl)
    | with_reducible apply State.stepTime_framed
    | with_reducible apply State.lockCommand_framed
    | split
    | (refine Framed.of_mk ?_ (fun h => h) ?_ ?_ ?_ ?_ ?_ ?_ ?_ ?_ ?_ ?_ ?_ ?_ ?_ ?_ ?_ ?_ ?_ ?_ ?_ ?_ ?_ ?_ ?_ ?_ ?_ ?_ ?_ ?_)

theorem State.onTimeSet_framed {rst : Bool} {F : List Field} {z s : State}  (hF : ([.tm, .trb, .parts, .ints, .cmi, .net, .clk, .hrpOut] : List Field).all (F.contains ·) = true) (hz : Framed rst F z s) : Framed rst F z (State.onTimeSet s) := by
  unfold State.onTimeSet
  try dsimp only
  repeat' first
    | with_reducible assumption
    | (with_reducible apply Or.inr; with_reducible rfl)
    | ((with_reducible apply Or.inl); exact Framed.mem hF rfl)
    | ((with_reducible apply Framed.sub (G := [.tm, .trb, .parts, .ints, .cmi, .net, .clk, .hrpOut]) ?_ hF); rfl)
    | with_reducible apply State.runCmd_framed
    | with_reducible apply State.answer_framed
    | with_reducible apply State.setTime_framed
    | intro _
    | split

theorem State.adjustOffset_framed {rst : Bool} {F : List Field} {z s : State} {off : Int} (hF : ([.tm, .trb, .parts, .ints] : List Field).all (F.contains ·) = true) (hz : Framed rst F z s) : Framed rst F z (State.adjustOffset s off) := by
  unfold State.adjustOffset
  try dsimp only
  repeat' first
    | with_reducible assumption
    | (with_reducible apply Or.inr; with_reducible rfl)
    | ((with_reducible apply Or.inl); exact Framed.mem hF rfl)
    | ((with_reducible apply Framed.sub (G := [.tm, .trb, .parts, .ints]) ?_ hF); rfl)
    | with_reducible apply State.stepTime_framed
    | split
    | (refine Framed.of_mk ?_ (fun h => h) ?_ ?_ ?_ ?_ ?_ ?_ ?_ ?_ ?_ ?_ ?_ ?_ ?_ ?_ ?_ ?_ ?_ ?_ ?_ ?_ ?_ ?_ ?_ ?_ ?_ ?_ ?_ ?_)

theorem State.adjustTime_framed {rst : Bool} {F : List Field} {z s : State} {i : Issuer} {ps : List Word} (hF : ([.tm, .trb, .parts, .ints, .cmi, .net, .hrpOut] : List Field).all (F.contains ·) = true) (hz : Framed rst F z s) : Framed rst F z (State.adjustTime s i ps) := by
  unfold State.adjustTime
  try dsimp only
  repeat' first
    | with_reducible assumption
    | (with_reducible apply Or.inr; with_reducible rfl)
    | ((with_reducible apply Or.inl); exact Framed.mem hF rfl)
    | ((with_reducible apply Framed.sub (G := [.tm, .trb, .parts, .ints, .cmi, .net, .hrpOut]) ?_ hF); rfl)
    | with_reducible apply State.answer_framed
    | with_reducible apply State.adjustOffset_framed
    | split
    | (refine Framed.of_mk ?_ (fun h => h) ?_ ?_ ?_ ?_ ?_ ?_ ?_ ?_ ?_ ?_ ?_ ?_ ?_ ?_ ?_ ?_ ?_ ?_ ?_ ?_ ?_ ?_ ?_ ?_ ?_ ?_ ?_ ?_)

theorem State.onTimeAdjust_framed {rst : Bool} {F : List Field} {z s : State}  (hF : ([.tm, .trb, .parts, .ints, .cmi, .net, .clk, .hrpOut] : List Field).all (F.contains ·) = true) (hz : Framed rst F z s) : Framed rst F z (State.onTimeAdjust s) := by
  unfold State.onTimeAdjust
  try dsimp only
  repeat' first
    | with_reducible assumption
    | (with_reducible apply Or.inr; with_reducible rfl)
    | ((with_reducible apply Or.inl); exact Framed.mem hF rfl)
    | ((with_reducible apply Framed.sub (G := [.tm, .trb, .parts, .ints, .cmi, .net, .clk, .hrpOut]) ?_ hF); rfl)
    | with_reducible apply State.runCmd_framed
    | with_reducible apply State.adjustTime_framed
    | intro _
    | split

theorem State.onTimeQuery_framed {rst : Bool} {F : List Field} {z s : State}  (hF : ([.parts, .ints, .cmi, .net, .clk, .hrpOut] : List Field).all (F.contains ·) = true) (hz : Framed rst F z s) : Framed rst F z (State.onTimeQuery s) := by
  unfold State.onTimeQuery
  try dsimp only
  repeat' first
    | with_reducible assumption
    | (with_reducible apply Or.inr; with_reducible rfl)
    | ((with_reducible apply Or.inl); exact Framed.mem hF rfl)
    | ((with_reducible apply Framed.sub (G := [.parts, .ints, .cmi, .net, .clk, .hrpOut]) ?_ hF); rfl)
    | with_reducible apply State.runCmd_framed
    | with_reducible apply State.reply_framed
    | intro _
    | split

theorem State.tune_framed {rst : Bool} {F : List Field} {z s : State} {e : Int} {g : Nat} (hF : ([.tm] : List Field).all (F.contains ·) = true) (hz : Framed rst F z s) : Framed rst F z (State.tune s e g) := by
  unfold State.tune
  try dsimp only
  repeat' first
    | with_reducible assumption
    | (with_reducible apply Or.inr; with_reducible rfl)
    | ((with_reducible apply Or.inl); exact Framed.mem hF rfl)
    | ((with_reducible apply Framed.sub (G := [.tm]) ?_ hF); rfl)
    | split
    | (refine Framed.of_mk ?_ (fun h => h) ?_ ?_ ?_ ?_ ?_ ?_ ?_ ?_ ?_ ?_ ?_ ?_ ?_ ?_ ?_ ?_ ?_ ?_ ?_ ?_ ?_ ?_ ?_ ?_ ?_ ?_ ?_ ?_)

theorem State.judgeLock_framed {rst : Bool} {F : List Field} {z s : State} {e : Int} (hF : ([.tm, .trb, .parts, .ints] : List Field).all (F.contains ·) = true) (hz : Framed rst F z s) : Framed rst F z (State.judgeLock s e) := by
  unfold State.judgeLock
  try dsimp only
  repeat' first
    | with_reducible assumption
    | (with_reducible apply Or.inr; with_reducible rfl)
    | ((with_reducible apply Or.inl); exact Framed.mem hF rfl)
    | ((with_reducible apply Framed.sub (G := [.tm, .trb, .parts, .ints]) ?_ hF); rfl)
    | with_reducible apply State.unlock_framed
    | split
    | (refine Framed.of_mk ?_ (fun h => h) ?_ ?_ ?_ ?_ ?_ ?_ ?_ ?_ ?_ ?_ ?_ ?_ ?_ ?_ ?_ ?_ ?_ ?_ ?_ ?_ ?_ ?_ ?_ ?_ ?_ ?_ ?_ ?_)

theorem State.measured_framed {rst : Bool} {F : List Field} {z s : State}  (hF : ([.tm] : List Field).all (F.contains ·) = true) (hz : Framed rst F z s) : Framed rst F z (State.measured s) := by
  unfold State.measured
  try dsimp only
  repeat' first
    | with_reducible assumption
    | (with_reducible apply Or.inr; with_reducible rfl)
    | ((with_reducible apply Or.inl); exact Framed.mem hF rfl)
    | ((with_reducible apply Framed.sub (G := [.tm]) ?_ hF); rfl)
    | split
    | (refine Framed.of_mk ?_ (fun h => h) ?_ ?_ ?_ ?_ ?_ ?_ ?_ ?_ ?_ ?_ ?_ ?_ ?_ ?_ ?_ ?_ ?_ ?_ ?_ ?_ ?_ ?_ ?_ ?_ ?_ ?_ ?_ ?_)

theorem State.servo_framed {rst : Bool} {F : List Field} {z s : State} {e : Int} {g : Nat} {edges : Nat} (hF : ([.tm, .trb, .parts, .ints] : List Field).all (F.contains ·) = true) (hz : Framed rst F z s) : Framed rst F z (State.servo s e g edges) := by
  unfold State.servo
  try dsimp only
  repeat' first
    | with_reducible assumption
    | (with_reducible apply Or.inr; with_reducible rfl)
    | ((with_reducible apply Or.inl); exact Framed.mem hF rfl)
    | ((with_reducible apply Framed.sub (G := [.tm, .trb, .parts, .ints]) ?_ hF); rfl)
    | with_reducible apply State.measured_framed
    | with_reducible apply State.stepTime_framed
    | with_reducible apply State.tune_framed
    | with_reducible apply State.judgeLock_framed
    | split
    | (refine Framed.of_mk ?_ (fun h => h) ?_ ?_ ?_ ?_ ?_ ?_ ?_ ?_ ?_ ?_ ?_ ?_ ?_ ?_ ?_ ?_ ?_ ?_ ?_ ?_ ?_ ?_ ?_ ?_ ?_ ?_ ?_ ?_)

theorem State.servoTref_framed {rst : Bool} {F : List Field} {z s : State} {e : Int} (hF : ([.tm, .trb, .parts, .ints] : List Field).all (F.contains ·) = true) (hz : Framed rst F z s) : Framed rst F z (State.servoTref s e) := by
  unfold State.servoTref
  try dsimp only
  repeat' first
    | with_reducible assumption
    | (with_reducible apply Or.inr; with_reducible rfl)
    | ((with_reducible apply Or.inl); exact Framed.mem hF rfl)
    | ((with_reducible apply Framed.sub (G := [.tm, .trb, .parts, .ints]) ?_ hF); rfl)
    | with_reducible apply State.judgeLock_framed
    | with_reducible apply State.tune_framed
    | with_reducible apply State.measured_framed
    | split

theorem State.setBy_framed {rst : Bool} {F : List Field} {z s : State}  (hF : ([.tm] : List Field).all (F.contains ·) = true) (hz : Framed rst F z s) : Framed rst F z (State.setBy s) := by
  unfold State.setBy
  try dsimp only
  repeat' first
    | with_reducible assumption
    | (with_reducible apply Or.inr; with_reducible rfl)
    | ((with_reducible apply Or.inl); exact Framed.mem hF rfl)
    | ((with_reducible apply Framed.sub (G := [.tm]) ?_ hF); rfl)
    | split
    | (refine Framed.of_mk ?_ (fun h => h) ?_ ?_ ?_ ?_ ?_ ?_ ?_ ?_ ?_ ?_ ?_ ?_ ?_ ?_ ?_ ?_ ?_ ?_ ?_ ?_ ?_ ?_ ?_ ?_ ?_ ?_ ?_ ?_)

theorem State.onPpsEdge_framed {rst : Bool} {F : List Field} {z s : State}  (hF : ([.tm] : List Field).all (F.contains ·) = true) (hz : Framed rst F z s) : Framed rst F z (State.onPpsEdge s) := by
  unfold State.onPpsEdge
  try dsimp only
  repeat' first
    | with_reducible assumption
    | (with_reducible apply Or.inr; with_reducible rfl)
    | ((with_reducible apply Or.inl); exact Framed.mem hF rfl)
    | ((with_reducible apply Framed.sub (G := [.tm]) ?_ hF); rfl)
    | split
    | (refine Framed.of_mk ?_ (fun h => h) ?_ ?_ ?_ ?_ ?_ ?_ ?_ ?_ ?_ ?_ ?_ ?_ ?_ ?_ ?_ ?_ ?_ ?_ ?_ ?_ ?_ ?_ ?_ ?_ ?_ ?_ ?_ ?_)

theorem State.measurePps_framed {rst : Bool} {F : List Field} {z s : State} {f : Nat} (hF : ([.tm, .trb, .parts, .ints] : List Field).all (F.contains ·) = true) (hz : Framed rst F z s) : Framed rst F z (State.measurePps s f) := by
  unfold State.measurePps
  try dsimp only
  repeat' first
    | with_reducible assumption
    | (with_reducible apply Or.inr; with_reducible rfl)
    | ((with_reducible apply Or.inl); exact Framed.mem hF rfl)
    | ((with_reducible apply Framed.sub (G := [.tm, .trb, .parts, .ints]) ?_ hF); rfl)
    | with_reducible apply State.servo_framed
    | with_reducible apply State.setBy_framed
    | split
    | (refine Framed.of_mk ?_ (fun h => h) ?_ ?_ ?_ ?_ ?_ ?_ ?_ ?_ ?_ ?_ ?_ ?_ ?_ ?_ ?_ ?_ ?_ ?_ ?_ ?_ ?_ ?_ ?_ ?_ ?_ ?_ ?_ ?_)

theorem State.onTrefMeasurement_framed {rst : Bool} {F : List Field} {z s1 : State} {drift : Int} (hF : ([.tm, .trb, .parts, .ints] : List Field).all (F.contains ·) = true) (hz : Framed rst F z s1) : Framed rst F z (State.onTrefMeasurement s1 drift) := by
  unfold State.onTrefMeasurement
  try dsimp only
  repeat' first
    | with_reducible assumption
    | (with_reducible apply Or.inr; with_reducible rfl)
    | ((with_reducible apply Or.inl); exact Framed.mem hF rfl)
    | ((with_reducible apply Framed.sub (G := [.tm, .trb, .parts, .ints]) ?_ hF); rfl)
    | with_reducible apply State.servoTref_framed
    | split

theorem State.onMeasurementLoss_framed {rst : Bool} {F : List Field} {z s1 : State}  (hF : ([.tm, .trb, .parts, .ints] : List Field).all (F.contains ·) = true) (hz : Framed rst F z s1) : Framed rst F z (State.onMeasurementLoss s1) := by
  unfold State.onMeasurementLoss
  try dsimp only
  repeat' first
    | with_reducible assumption
    | (with_reducible apply Or.inr; with_reducible rfl)
    | ((with_reducible apply Or.inl); exact Framed.mem hF rfl)
    | ((with_reducible apply Framed.sub (G := [.tm, .trb, .parts, .ints]) ?_ hF); rfl)
    | with_reducible apply State.unlock_framed
    | split
    | (refine Framed.of_mk ?_ (fun h => h) ?_ ?_ ?_ ?_ ?_ ?_ ?_ ?_ ?_ ?_ ?_ ?_ ?_ ?_ ?_ ?_ ?_ ?_ ?_ ?_ ?_ ?_ ?_ ?_ ?_ ?_ ?_ ?_)

theorem State.sampleTime_framed {rst : Bool} {F : List Field} {z s : State}  (hF : ([.tm, .trb, .parts, .ints] : List Field).all (F.contains ·) = true) (hz : Framed rst F z s) : Framed rst F z (State.sampleTime s) := by
  unfold State.sampleTime
  try dsimp only
  repeat' first
    | with_reducible assumption
    | (with_reducible apply Or.inr; with_reducible rfl)
    | ((with_reducible apply Or.inl); exact Framed.mem hF rfl)
    | ((with_reducible apply Framed.sub (G := [.tm, .trb, .parts, .ints]) ?_ hF); rfl)
    | with_reducible apply State.unlock_framed
    | with_reducible apply State.lockCommand_framed
    | split
    | (refine Framed.of_mk ?_ (fun h => h) ?_ ?_ ?_ ?_ ?_ ?_ ?_ ?_ ?_ ?_ ?_ ?_ ?_ ?_ ?_ ?_ ?_ ?_ ?_ ?_ ?_ ?_ ?_ ?_ ?_ ?_ ?_ ?_)

theorem State.sendTime_framed {rst : Bool} {F : List Field} {z s : State} {k : Nat} (hF : ([.tm, .net] : List Field).all (F.contains ·) = true) (hz : Framed rst F z s) : Framed rst F z (State.sendTime s k) := by
  unfold State.sendTime
  try dsimp only
  repeat' first
    | with_reducible assumption
    | (with_reducible apply Or.inr; with_reducible rfl)
    | ((with_reducible apply Or.inl); exact Framed.mem hF rfl)
    | ((with_reducible apply Framed.sub (G := [.tm, .net]) ?_ hF); rfl)
    | with_reducible apply State.queueOn_framed
    | split
    | (refine Framed.foldl (fun _ _ _ => ?_) ?_)
    | (refine Framed.of_mk ?_ (fun h => h) ?_ ?_ ?_ ?_ ?_ ?_ ?_ ?_ ?_ ?_ ?_ ?_ ?_ ?_ ?_ ?_ ?_ ?_ ?_ ?_ ?_ ?_ ?_ ?_ ?_ ?_ ?_ ?_)

theorem State.noteTime_framed {rst : Bool} {F : List Field} {z s : State} {k : Nat} {sender : Nat} {twin : Nat} {hold : Bool} (hF : ([.tm] : List Field).all (F.contains ·) = true) (hz : Framed rst F z s) : Framed rst F z (State.noteTime s k sender twin hold) := by
  unfold State.noteTime
  try dsimp only
  repeat' first
    | with_reducible assumption
    | (with_reducible apply Or.inr; with_reducible rfl)
    | ((with_reducible apply Or.inl); exact Framed.mem hF rfl)
    | ((with_reducible apply Framed.sub (G := [.tm]) ?_ hF); rfl)
    | split
    | (refine Framed.of_mk ?_ (fun h => h) ?_ ?_ ?_ ?_ ?_ ?_ ?_ ?_ ?_ ?_ ?_ ?_ ?_ ?_ ?_ ?_ ?_ ?_ ?_ ?_ ?_ ?_ ?_ ?_ ?_ ?_ ?_ ?_)

theorem State.twoMasters_framed {rst : Bool} {F : List Field} {z s : State} {action : Nat} {sender : Nat} (hF : ([.trb, .parts, .ints] : List Field).all (F.contains ·) = true) (hz : Framed rst F z s) : Framed rst F z (State.twoMasters s action sender) := by
  unfold State.twoMasters
  try dsimp only
  repeat' first
    | with_reducible assumption
    | (with_reducible apply Or.inr; with_reducible rfl)
    | ((with_reducible apply Or.inl); exact Framed.mem hF rfl)
    | ((with_reducible apply Framed.sub (G := [.trb, .parts, .ints]) ?_ hF); rfl)
    | with_reducible apply State.trouble_framed
    | split

theorem State.followTime_framed {rst : Bool} {F : List Field} {z s : State} {w1 : Word} {w2 : Word} {w3 : Word} (hF : ([.tm, .trb, .parts, .ints] : List Field).all (F.contains ·) = true) (hz : Framed rst F z s) : Framed rst F z (State.followTime s w1 w2 w3) := by
  unfold State.followTime
  try dsimp only
  repeat' first
    | with_reducible assumption
    | (with_reducible apply Or.inr; with_reducible rfl)
    | ((with_reducible apply Or.inl); exact Framed.mem hF rfl)
    | ((with_reducible apply Framed.sub (G := [.tm, .trb, .parts, .ints]) ?_ hF); rfl)
    | with_reducible apply State.setBy_framed
    | with_reducible apply State.stepTime_framed
    | with_reducible apply State.measured_framed
    | with_reducible apply State.servo_framed
    | split

theorem State.takeTime_framed {rst : Bool} {F : List Field} {z s : State} {ws : List Word} (hF : ([.tm, .trb, .parts, .ints] : List Field).all (F.contains ·) = true) (hz : Framed rst F z s) : Framed rst F z (State.takeTime s ws) := by
  unfold State.takeTime
  try dsimp only
  repeat' first
    | with_reducible assumption
    | (with_reducible apply Or.inr; with_reducible rfl)
    | ((with_reducible apply Or.inl); exact Framed.mem hF rfl)
    | ((with_reducible apply Framed.sub (G := [.tm, .trb, .parts, .ints]) ?_ hF); rfl)
    | with_reducible apply State.twoMasters_framed
    | with_reducible apply State.followTime_framed
    | with_reducible apply State.noteTime_framed
    | split
    | (refine Framed.of_mk ?_ (fun h => h) ?_ ?_ ?_ ?_ ?_ ?_ ?_ ?_ ?_ ?_ ?_ ?_ ?_ ?_ ?_ ?_ ?_ ?_ ?_ ?_ ?_ ?_ ?_ ?_ ?_ ?_ ?_ ?_)

theorem State.takeBalance_framed {rst : Bool} {F : List Field} {z s : State}  (hF : ([.bal] : List Field).all (F.contains ·) = true) (hz : Framed rst F z s) : Framed rst F z (State.takeBalance s) := by
  unfold State.takeBalance
  try dsimp only
  repeat' first
    | with_reducible assumption
    | (with_reducible apply Or.inr; with_reducible rfl)
    | ((with_reducible apply Or.inl); exact Framed.mem hF rfl)
    | ((with_reducible apply Framed.sub (G := [.bal]) ?_ hF); rfl)
    | split
    | (refine Framed.of_mk ?_ (fun h => h) ?_ ?_ ?_ ?_ ?_ ?_ ?_ ?_ ?_ ?_ ?_ ?_ ?_ ?_ ?_ ?_ ?_ ?_ ?_ ?_ ?_ ?_ ?_ ?_ ?_ ?_ ?_ ?_)

theorem State.takeover_framed {rst : Bool} {F : List Field} {z s : State}  (hF : ([.tm, .bal] : List Field).all (F.contains ·) = true) (hz : Framed rst F z s) : Framed rst F z (State.takeover s) := by
  unfold State.takeover
  try dsimp only
  repeat' first
    | with_reducible assumption
    | (with_reducible apply Or.inr; with_reducible rfl)
    | ((with_reducible apply Or.inl); exact Framed.mem hF rfl)
    | ((with_reducible apply Framed.sub (G := [.tm, .bal]) ?_ hF); rfl)
    | with_reducible apply State.takeBalance_framed
    | split
    | (refine Framed.of_mk ?_ (fun h => h) ?_ ?_ ?_ ?_ ?_ ?_ ?_ ?_ ?_ ?_ ?_ ?_ ?_ ?_ ?_ ?_ ?_ ?_ ?_ ?_ ?_ ?_ ?_ ?_ ?_ ?_ ?_ ?_)

theorem State.onTwinTakeover_framed {rst : Bool} {F : List Field} {z s : State}  (hF : ([.tm, .bal] : List Field).all (F.contains ·) = true) (hz : Framed rst F z s) : Framed rst F z (State.onTwinTakeover s) := by
  unfold State.onTwinTakeover
  try dsimp only
  repeat' first
    | with_reducible assumption
    | (with_reducible apply Or.inr; with_reducible rfl)
    | ((with_reducible apply Or.inl); exact Framed.mem hF rfl)
    | ((with_reducible apply Framed.sub (G := [.tm, .bal]) ?_ hF); rfl)
    | with_reducible apply State.takeover_framed
    | split

end Sys2Proof.Machine
end

