-- ==== Sys2Proof/Laws/FramedRing.lean ====
section
/-! SUPPORT. The ring’s receiving side: the parts of the state that each operation may change, one lemma for each. -/
namespace Sys2Proof.Machine
set_option Elab.async false

theorem State.ringDrop_framed {rst : Bool} {F : List Field} {z s : State} {b : Sticky} {link : Nat} {h : Word} (hF : ([.trb, .parts, .ints, .net] : List Field).all (F.contains ·) = true) (hz : Framed rst F z s) : Framed rst F z (State.ringDrop s b link h) := by
  unfold State.ringDrop
  try dsimp only
  repeat' first
    | with_reducible assumption
    | (with_reducible apply Or.inr; with_reducible rfl)
    | ((with_reducible apply Or.inl); exact Framed.mem hF rfl)
    | ((with_reducible apply Framed.sub (G := [.trb, .parts, .ints, .net]) ?_ hF); rfl)
    | with_reducible apply State.trouble_framed
    | split
    | (refine Framed.of_mk ?_ (fun h => h) ?_ ?_ ?_ ?_ ?_ ?_ ?_ ?_ ?_ ?_ ?_ ?_ ?_ ?_ ?_ ?_ ?_ ?_ ?_ ?_ ?_ ?_ ?_ ?_ ?_ ?_ ?_ ?_)

theorem State.notePassing_framed {rst : Bool} {F : List Field} {z s : State} {it : Item} {cls : Nat} (hF : ([.net] : List Field).all (F.contains ·) = true) (hz : Framed rst F z s) : Framed rst F z (State.notePassing s it cls) := by
  unfold State.notePassing
  try dsimp only
  repeat' first
    | with_reducible assumption
    | (with_reducible apply Or.inr; with_reducible rfl)
    | ((with_reducible apply Or.inl); exact Framed.mem hF rfl)
    | ((with_reducible apply Framed.sub (G := [.net]) ?_ hF); rfl)
    | split
    | (refine Framed.of_mk ?_ (fun h => h) ?_ ?_ ?_ ?_ ?_ ?_ ?_ ?_ ?_ ?_ ?_ ?_ ?_ ?_ ?_ ?_ ?_ ?_ ?_ ?_ ?_ ?_ ?_ ?_ ?_ ?_ ?_ ?_)

theorem State.passMsg_framed {rst : Bool} {F : List Field} {z s : State} {rx : Nat} {link : Nat} {it : Item} (hF : ([.trb, .parts, .ints, .net] : List Field).all (F.contains ·) = true) (hz : Framed rst F z s) : Framed rst F z (State.passMsg s rx link it) := by
  unfold State.passMsg
  try dsimp only
  repeat' first
    | with_reducible assumption
    | (with_reducible apply Or.inr; with_reducible rfl)
    | ((with_reducible apply Or.inl); exact Framed.mem hF rfl)
    | ((with_reducible apply Framed.sub (G := [.trb, .parts, .ints, .net]) ?_ hF); rfl)
    | with_reducible apply State.ringDrop_framed
    | with_reducible apply State.queueOn_framed
    | with_reducible apply State.notePassing_framed
    | split

theorem State.passAll_framed {rst : Bool} {F : List Field} {z s : State} {rx : Nat} {it : Item} (hF : ([.trb, .parts, .ints, .net] : List Field).all (F.contains ·) = true) (hz : Framed rst F z s) : Framed rst F z (State.passAll s rx it) := by
  unfold State.passAll
  try dsimp only
  repeat' first
    | with_reducible assumption
    | (with_reducible apply Or.inr; with_reducible rfl)
    | ((with_reducible apply Or.inl); exact Framed.mem hF rfl)
    | ((with_reducible apply Framed.sub (G := [.trb, .parts, .ints, .net]) ?_ hF); rfl)
    | with_reducible apply State.passMsg_framed
    | split
    | (refine Framed.foldl (fun _ _ _ => ?_) ?_)

theorem State.ringToken'_framed {rst : Bool} {F : List Field} {z s : State} {w : Word} {image : Nat} (hF : ([.trb, .entries, .edge, .home, .slots, .parts, .mem, .img, .net] : List Field).all (F.contains ·) = true) (hz : Framed rst F z s) : Framed rst F z (State.ringToken' s w image) := by
  unfold State.ringToken'
  try dsimp only
  repeat' first
    | with_reducible assumption
    | (with_reducible apply Or.inr; with_reducible rfl)
    | ((with_reducible apply Or.inl); exact Framed.mem hF rfl)
    | ((with_reducible apply Framed.sub (G := [.trb, .entries, .edge, .home, .slots, .parts, .mem, .img, .net]) ?_ hF); rfl)
    | with_reducible apply State.setEntry_framed
    | with_reducible apply State.homeToken_framed
    | with_reducible apply State.writeOut_framed
    | (with_reducible refine State.writeOut_framed_eq (by with_reducible assumption) ?_ ?_)
    | with_reducible apply State.stateDrop_framed
    | split

theorem State.markHome_framed {rst : Bool} {F : List Field} {z s : State} {slot : Nat} (hF : ([.entries, .home, .slots, .net] : List Field).all (F.contains ·) = true) (hz : Framed rst F z s) : Framed rst F z (State.markHome s slot) := by
  unfold State.markHome
  try dsimp only
  repeat' first
    | with_reducible assumption
    | (with_reducible apply Or.inr; with_reducible rfl)
    | ((with_reducible apply Or.inl); exact Framed.mem hF rfl)
    | ((with_reducible apply Framed.sub (G := [.entries, .home, .slots, .net]) ?_ hF); rfl)
    | with_reducible apply State.markOut_framed
    | with_reducible apply State.setHome_framed
    | split

theorem State.ringDraft_framed {rst : Bool} {F : List Field} {z s : State} {w : Word} {image : Nat} (hF : ([.trb, .entries, .edge, .home, .slots, .parts, .mem, .img, .net] : List Field).all (F.contains ·) = true) (hz : Framed rst F z s) : Framed rst F z (State.ringDraft s w image) := by
  unfold State.ringDraft
  try dsimp only
  repeat' first
    | with_reducible assumption
    | (with_reducible apply Or.inr; with_reducible rfl)
    | ((with_reducible apply Or.inl); exact Framed.mem hF rfl)
    | ((with_reducible apply Framed.sub (G := [.trb, .entries, .edge, .home, .slots, .parts, .mem, .img, .net]) ?_ hF); rfl)
    | with_reducible apply State.writeOut_framed
    | (with_reducible refine State.writeOut_framed_eq (by with_reducible assumption) ?_ ?_)
    | with_reducible apply State.markHome_framed
    | with_reducible apply State.homeDraft_framed
    | with_reducible apply State.setHome_framed
    | with_reducible apply State.stateDrop_framed
    | split

theorem State.ringVerdict_framed {rst : Bool} {F : List Field} {z s : State} {w : Word} (hF : ([.edge, .parts] : List Field).all (F.contains ·) = true) (hz : Framed rst F z s) : Framed rst F z (State.ringVerdict s w) := by
  unfold State.ringVerdict
  try dsimp only
  repeat' first
    | with_reducible assumption
    | (with_reducible apply Or.inr; with_reducible rfl)
    | ((with_reducible apply Or.inl); exact Framed.mem hF rfl)
    | ((with_reducible apply Framed.sub (G := [.edge, .parts]) ?_ hF); rfl)
    | with_reducible apply State.edgeVerdict_framed
    | with_reducible apply State.stateDrop_framed
    | split

theorem State.takeItem_framed {rst : Bool} {F : List Field} {z s : State} {image : Nat} {w : Word} (hF : ([.trb, .entries, .edge, .home, .slots, .parts, .mem, .img, .net] : List Field).all (F.contains ·) = true) (hz : Framed rst F z s) : Framed rst F z (State.takeItem s image w) := by
  unfold State.takeItem
  try dsimp only
  repeat' first
    | with_reducible assumption
    | (with_reducible apply Or.inr; with_reducible rfl)
    | ((with_reducible apply Or.inl); exact Framed.mem hF rfl)
    | ((with_reducible apply Framed.sub (G := [.trb, .entries, .edge, .home, .slots, .parts, .mem, .img, .net]) ?_ hF); rfl)
    | with_reducible apply State.wordDrop_framed
    | with_reducible apply State.staleDrop_framed
    | with_reducible apply State.ringToken'_framed
    | with_reducible apply State.ringDraft_framed
    | with_reducible apply State.ringVerdict_framed
    | split

theorem State.actItem_framed {rst : Bool} {F : List Field} {z s : State} {it : Item} (hF : ([.trb, .entries, .edge, .home, .slots, .parts, .mem, .img, .net] : List Field).all (F.contains ·) = true) (hz : Framed rst F z s) : Framed rst F z (State.actItem s it) := by
  unfold State.actItem
  try dsimp only
  repeat' first
    | with_reducible assumption
    | (with_reducible apply Or.inr; with_reducible rfl)
    | ((with_reducible apply Or.inl); exact Framed.mem hF rfl)
    | ((with_reducible apply Framed.sub (G := [.trb, .entries, .edge, .home, .slots, .parts, .mem, .img, .net]) ?_ hF); rfl)
    | with_reducible apply State.takeItem_framed
    | split
    | (refine Framed.foldl (fun _ _ _ => ?_) ?_)

theorem State.actOpen_framed {rst : Bool} {F : List Field} {z s0 : State} {it : Item} (hF : ([.trb, .entries, .edge, .home, .slots, .ledgers, .parts, .ints, .mem, .img, .bal, .net, .clk] : List Field).all (F.contains ·) = true) (hz : Framed rst F z s0) : Framed rst F z (State.actOpen s0 it) := by
  unfold State.actOpen
  try dsimp only
  repeat' first
    | with_reducible assumption
    | (with_reducible apply Or.inr; with_reducible rfl)
    | ((with_reducible apply Or.inl); exact Framed.mem hF rfl)
    | ((with_reducible apply Framed.sub (G := [.trb, .entries, .edge, .home, .slots, .ledgers, .parts, .ints, .mem, .img, .bal, .net, .clk]) ?_ hF); rfl)
    | with_reducible apply State.recompute_framed
    | with_reducible apply State.sendTo_framed
    | with_reducible apply State.openHome_framed
    | with_reducible apply State.allocate_framed
    | split

theorem State.actOpenReply_framed {rst : Bool} {F : List Field} {z s : State} {it : Item} (hF : ([.entries, .edge, .home, .slots, .ledgers, .cmi, .net, .hrpOut] : List Field).all (F.contains ·) = true) (hz : Framed rst F z s) : Framed rst F z (State.actOpenReply s it) := by
  unfold State.actOpenReply
  try dsimp only
  repeat' first
    | with_reducible assumption
    | (with_reducible apply Or.inr; with_reducible rfl)
    | ((with_reducible apply Or.inl); exact Framed.mem hF rfl)
    | ((with_reducible apply Framed.sub (G := [.entries, .edge, .home, .slots, .ledgers, .cmi, .net, .hrpOut]) ?_ hF); rfl)
    | with_reducible apply State.endPendWith_framed
    | with_reducible apply State.setEntry_framed
    | with_reducible apply State.freeEntry_framed
    | with_reducible apply State.endPend_framed
    | with_reducible apply State.sendTo_framed
    | split

theorem State.actStep_framed {rst : Bool} {F : List Field} {z s : State} {it : Item} (hF : ([.entries, .edge, .net] : List Field).all (F.contains ·) = true) (hz : Framed rst F z s) : Framed rst F z (State.actStep s it) := by
  unfold State.actStep
  try dsimp only
  repeat' first
    | with_reducible assumption
    | (with_reducible apply Or.inr; with_reducible rfl)
    | ((with_reducible apply Or.inl); exact Framed.mem hF rfl)
    | ((with_reducible apply Framed.sub (G := [.entries, .edge, .net]) ?_ hF); rfl)
    | with_reducible apply State.edgeStep_framed
    | split

theorem State.endHomeStep_framed {rst : Bool} {F : List Field} {z s : State} {slot : Nat} (hF : ([.entries, .home, .mem, .img, .net, .fsp] : List Field).all (F.contains ·) = true) (hz : Framed rst F z s) : Framed rst F z (State.endHomeStep s slot) := by
  unfold State.endHomeStep
  try dsimp only
  repeat' first
    | with_reducible assumption
    | (with_reducible apply Or.inr; with_reducible rfl)
    | ((with_reducible apply Or.inl); exact Framed.mem hF rfl)
    | ((with_reducible apply Framed.sub (G := [.entries, .home, .mem, .img, .net, .fsp]) ?_ hF); rfl)
    | with_reducible apply State.endStepRing_framed
    | with_reducible apply State.setHome_framed
    | split

theorem State.actResolve_framed {rst : Bool} {F : List Field} {z s : State} {it : Item} (hF : ([.trb, .entries, .edge, .home, .parts, .mem, .img, .net, .fsp] : List Field).all (F.contains ·) = true) (hz : Framed rst F z s) : Framed rst F z (State.actResolve s it) := by
  unfold State.actResolve
  try dsimp only
  repeat' first
    | with_reducible assumption
    | (with_reducible apply Or.inr; with_reducible rfl)
    | ((with_reducible apply Or.inl); exact Framed.mem hF rfl)
    | ((with_reducible apply Framed.sub (G := [.trb, .entries, .edge, .home, .parts, .mem, .img, .net, .fsp]) ?_ hF); rfl)
    | with_reducible apply State.endHomeStep_framed
    | with_reducible apply State.homeResolve_framed
    | with_reducible apply State.setEntry_framed
    | split

theorem State.actStreamEnd_framed {rst : Bool} {F : List Field} {z s : State} {it : Item} (hF : ([.entries, .edge, .home, .slots, .ledgers, .cmi, .mem, .img, .net, .fsp, .tier, .hrpOut] : List Field).all (F.contains ·) = true) (hz : Framed rst F z s) : Framed rst F z (State.actStreamEnd s it) := by
  unfold State.actStreamEnd
  try dsimp only
  repeat' first
    | with_reducible assumption
    | (with_reducible apply Or.inr; with_reducible rfl)
    | ((with_reducible apply Or.inl); exact Framed.mem hF rfl)
    | ((with_reducible apply Framed.sub (G := [.entries, .edge, .home, .slots, .ledgers, .cmi, .mem, .img, .net, .fsp, .tier, .hrpOut]) ?_ hF); rfl)
    | with_reducible apply State.homeStreamEnd_framed
    | split

theorem State.actClose_framed {rst : Bool} {F : List Field} {z s : State} {it : Item} (hF : ([.entries, .edge, .home, .slots, .ledgers, .parts, .ints, .cmi, .mem, .img, .net, .fsp, .tier, .hrpOut] : List Field).all (F.contains ·) = true) (hz : Framed rst F z s) : Framed rst F z (State.actClose s it) := by
  unfold State.actClose
  try dsimp only
  repeat' first
    | with_reducible assumption
    | (with_reducible apply Or.inr; with_reducible rfl)
    | ((with_reducible apply Or.inl); exact Framed.mem hF rfl)
    | ((with_reducible apply Framed.sub (G := [.entries, .edge, .home, .slots, .ledgers, .parts, .ints, .cmi, .mem, .img, .net, .fsp, .tier, .hrpOut]) ?_ hF); rfl)
    | with_reducible apply State.dropOps_framed
    | with_reducible apply State.endPend_framed
    | with_reducible apply State.freeCopy_framed
    | with_reducible apply State.edgeClose_framed
    | with_reducible apply State.setEntry_framed
    | with_reducible apply State.freeEntry_framed
    | split

theorem State.actCancel_framed {rst : Bool} {F : List Field} {z s : State} {it : Item} (hF : ([.entries, .edge, .home, .slots, .ledgers, .parts, .ints, .cmi, .mem, .img, .net, .fsp, .tier, .hrpOut] : List Field).all (F.contains ·) = true) (hz : Framed rst F z s) : Framed rst F z (State.actCancel s it) := by
  unfold State.actCancel
  try dsimp only
  repeat' first
    | with_reducible assumption
    | (with_reducible apply Or.inr; with_reducible rfl)
    | ((with_reducible apply Or.inl); exact Framed.mem hF rfl)
    | ((with_reducible apply Framed.sub (G := [.entries, .edge, .home, .slots, .ledgers, .parts, .ints, .cmi, .mem, .img, .net, .fsp, .tier, .hrpOut]) ?_ hF); rfl)
    | with_reducible apply State.cancelAll_framed
    | with_reducible apply State.cancelLocal_framed
    | split

theorem State.assemble_framed {rst : Bool} {F : List Field} {z s : State} {it : Item} (hF : ([.cmi] : List Field).all (F.contains ·) = true) (hz : Framed rst F z s) : Framed rst F z (State.assemble s it).1 := by
  unfold State.assemble
  try dsimp only
  repeat' first
    | with_reducible assumption
    | (with_reducible apply Or.inr; with_reducible rfl)
    | ((with_reducible apply Or.inl); exact Framed.mem hF rfl)
    | ((with_reducible apply Framed.sub (G := [.cmi]) ?_ hF); rfl)
    | split
    | (refine Framed.of_mk ?_ (fun h => h) ?_ ?_ ?_ ?_ ?_ ?_ ?_ ?_ ?_ ?_ ?_ ?_ ?_ ?_ ?_ ?_ ?_ ?_ ?_ ?_ ?_ ?_ ?_ ?_ ?_ ?_ ?_ ?_)

theorem State.assemble_framed_eq {rst : Bool} {F : List Field} {z s t : State} {x : _} {it : Item} (e : State.assemble s it = (t, x)) (hF : ([.cmi] : List Field).all (F.contains ·) = true) (hz : Framed rst F z s) : Framed rst F z t := by
  have k := State.assemble_framed (F := F) (z := z) (s := s) (it := it) hF hz
  rw [e] at k
  exact k

theorem State.remoteFeed_framed {rst : Bool} {F : List Field} {z s : State} {i : Issuer} {ps : List Word} {slot : Nat} {image : Nat} (hF : ([.trb, .entries, .edge, .home, .slots, .parts, .cmi, .mem, .img, .net, .hrpOut] : List Field).all (F.contains ·) = true) (hz : Framed rst F z s) : Framed rst F z (State.remoteFeed s i ps slot image) := by
  unfold State.remoteFeed
  try dsimp only
  repeat' first
    | with_reducible assumption
    | (with_reducible apply Or.inr; with_reducible rfl)
    | ((with_reducible apply Or.inl); exact Framed.mem hF rfl)
    | ((with_reducible apply Framed.sub (G := [.trb, .entries, .edge, .home, .slots, .parts, .cmi, .mem, .img, .net, .hrpOut]) ?_ hF); rfl)
    | with_reducible apply State.answer_framed
    | with_reducible apply State.writeIn_framed
    | with_reducible apply State.setEntry_framed
    | with_reducible apply State.homeFeed_framed
    | with_reducible apply State.reply_framed
    | with_reducible apply State.setHome_framed
    | split

theorem State.atHome_framed {rst : Bool} {F : List Field} {z s : State} {i : Issuer} {w : Word} {act : Nat → State} (hF : ([.cmi, .net, .hrpOut] : List Field).all (F.contains ·) = true) (hz : Framed rst F z s) (hact : ∀ x0, Framed rst F z (act x0)) : Framed rst F z (State.atHome s i w act) := by
  unfold State.atHome
  try dsimp only
  repeat' first
    | with_reducible assumption
    | (with_reducible apply Or.inr; with_reducible rfl)
    | ((with_reducible apply Or.inl); exact Framed.mem hF rfl)
    | ((with_reducible apply Framed.sub (G := [.cmi, .net, .hrpOut]) ?_ hF); rfl)
    | with_reducible apply State.answer_framed
    | (exact hact _)
    | intro _
    | split

theorem State.atCoord_framed {rst : Bool} {F : List Field} {z s : State} {i : Issuer} {act : State → State} (hF : ([.cmi, .net, .hrpOut] : List Field).all (F.contains ·) = true) (hz : Framed rst F z s) (hact : ∀ x0, Framed rst F z x0 → Framed rst F z (act x0)) : Framed rst F z (State.atCoord s i act) := by
  unfold State.atCoord
  try dsimp only
  repeat' first
    | with_reducible assumption
    | (with_reducible apply Or.inr; with_reducible rfl)
    | ((with_reducible apply Or.inl); exact Framed.mem hF rfl)
    | ((with_reducible apply Framed.sub (G := [.cmi, .net, .hrpOut]) ?_ hF); rfl)
    | with_reducible apply State.answer_framed
    | with_reducible apply hact
    | intro _
    | split

theorem State.runForwarded_framed {rst : Bool} {F : List Field} {z s : State} {src : Nat} {image : Nat} {ws : List Word} (hF : ([.trb, .entries, .edge, .home, .slots, .ledgers, .parts, .ints, .cmi, .mem, .img, .com, .bal, .net, .fsp, .tier, .hrpOut] : List Field).all (F.contains ·) = true) (hz : Framed rst F z s) : Framed rst F z (State.runForwarded s src image ws) := by
  unfold State.runForwarded
  try dsimp only
  repeat' first
    | with_reducible assumption
    | (with_reducible apply Or.inr; with_reducible rfl)
    | ((with_reducible apply Or.inl); exact Framed.mem hF rfl)
    | ((with_reducible apply Framed.sub (G := [.trb, .entries, .edge, .home, .slots, .ledgers, .parts, .ints, .cmi, .mem, .img, .com, .bal, .net, .fsp, .tier, .hrpOut]) ?_ hF); rfl)
    | with_reducible apply State.atHome_framed
    | with_reducible apply State.remoteFeed_framed
    | with_reducible apply State.closeHome_framed
    | with_reducible apply State.stopSetAt_framed
    | with_reducible apply State.atCoord_framed
    | with_reducible apply State.imageCommit_framed
    | with_reducible apply State.modePrepare_framed
    | with_reducible apply State.modeCommit_framed
    | with_reducible apply State.modeAbort_framed
    | with_reducible apply State.schedulePin_framed
    | with_reducible apply State.answer_framed
    | intro _
    | split

theorem State.actCmd_framed {rst : Bool} {F : List Field} {z s : State} {it : Item} (hF : ([.trb, .entries, .edge, .home, .slots, .ledgers, .parts, .ints, .cmi, .mem, .img, .com, .bal, .net, .fsp, .tier, .hrpOut] : List Field).all (F.contains ·) = true) (hz : Framed rst F z s) : Framed rst F z (State.actCmd s it) := by
  unfold State.actCmd
  try dsimp only
  repeat' first
    | with_reducible assumption
    | (with_reducible apply Or.inr; with_reducible rfl)
    | ((with_reducible apply Or.inl); exact Framed.mem hF rfl)
    | ((with_reducible apply Framed.sub (G := [.trb, .entries, .edge, .home, .slots, .ledgers, .parts, .ints, .cmi, .mem, .img, .com, .bal, .net, .fsp, .tier, .hrpOut]) ?_ hF); rfl)
    | with_reducible apply State.assemble_framed
    | (with_reducible refine State.assemble_framed_eq (by with_reducible assumption) ?_ ?_)
    | with_reducible apply State.runForwarded_framed
    | split

theorem State.feedAnswered_framed {rst : Bool} {F : List Field} {z s : State} {slot : Nat} {st : Status} (hF : ([.entries, .edge, .ledgers, .bal, .net] : List Field).all (F.contains ·) = true) (hz : Framed rst F z s) : Framed rst F z (State.feedAnswered s slot st) := by
  unfold State.feedAnswered
  try dsimp only
  repeat' first
    | with_reducible assumption
    | (with_reducible apply Or.inr; with_reducible rfl)
    | ((with_reducible apply Or.inl); exact Framed.mem hF rfl)
    | ((with_reducible apply Framed.sub (G := [.entries, .edge, .ledgers, .bal, .net]) ?_ hF); rfl)
    | with_reducible apply State.undoFeed_framed
    | with_reducible apply State.setEdge_framed
    | split

theorem State.endForward_framed {rst : Bool} {F : List Field} {z s : State} {f : Fwd} {st : Status} {result : List Word} (hF : ([.entries, .edge, .ledgers, .parts, .ints, .cmi, .bal, .net, .hrpOut] : List Field).all (F.contains ·) = true) (hz : Framed rst F z s) : Framed rst F z (State.endForward s f st result) := by
  unfold State.endForward
  try dsimp only
  repeat' first
    | with_reducible assumption
    | (with_reducible apply Or.inr; with_reducible rfl)
    | ((with_reducible apply Or.inl); exact Framed.mem hF rfl)
    | ((with_reducible apply Framed.sub (G := [.entries, .edge, .ledgers, .parts, .ints, .cmi, .bal, .net, .hrpOut]) ?_ hF); rfl)
    | with_reducible apply State.endPendWith_framed
    | with_reducible apply State.feedAnswered_framed
    | with_reducible apply State.reply_framed
    | with_reducible apply State.raiseAll_framed
    | split
    | (refine Framed.of_mk ?_ (fun h => h) ?_ ?_ ?_ ?_ ?_ ?_ ?_ ?_ ?_ ?_ ?_ ?_ ?_ ?_ ?_ ?_ ?_ ?_ ?_ ?_ ?_ ?_ ?_ ?_ ?_ ?_ ?_ ?_)

theorem State.actCmdReply_framed {rst : Bool} {F : List Field} {z s : State} {it : Item} (hF : ([.entries, .edge, .ledgers, .parts, .ints, .cmi, .bal, .net, .hrpOut] : List Field).all (F.contains ·) = true) (hz : Framed rst F z s) : Framed rst F z (State.actCmdReply s it) := by
  unfold State.actCmdReply
  try dsimp only
  repeat' first
    | with_reducible assumption
    | (with_reducible apply Or.inr; with_reducible rfl)
    | ((with_reducible apply Or.inl); exact Framed.mem hF rfl)
    | ((with_reducible apply Framed.sub (G := [.entries, .edge, .ledgers, .parts, .ints, .cmi, .bal, .net, .hrpOut]) ?_ hF); rfl)
    | with_reducible apply State.assemble_framed
    | (with_reducible refine State.assemble_framed_eq (by with_reducible assumption) ?_ ?_)
    | with_reducible apply State.endForward_framed
    | split

theorem State.actBalance_framed {rst : Bool} {F : List Field} {z s : State} {it : Item} (hF : ([.bal] : List Field).all (F.contains ·) = true) (hz : Framed rst F z s) : Framed rst F z (State.actBalance s it) := by
  unfold State.actBalance
  try dsimp only
  repeat' first
    | with_reducible assumption
    | (with_reducible apply Or.inr; with_reducible rfl)
    | ((with_reducible apply Or.inl); exact Framed.mem hF rfl)
    | ((with_reducible apply Framed.sub (G := [.bal]) ?_ hF); rfl)
    | split
    | (refine Framed.of_mk ?_ (fun h => h) ?_ ?_ ?_ ?_ ?_ ?_ ?_ ?_ ?_ ?_ ?_ ?_ ?_ ?_ ?_ ?_ ?_ ?_ ?_ ?_ ?_ ?_ ?_ ?_ ?_ ?_ ?_ ?_)

theorem State.actPrepare_framed {rst : Bool} {F : List Field} {z s : State} {it : Item} (hF : ([.parts, .ints, .img, .com, .net] : List Field).all (F.contains ·) = true) (hz : Framed rst F z s) : Framed rst F z (State.actPrepare s it) := by
  unfold State.actPrepare
  try dsimp only
  repeat' first
    | with_reducible assumption
    | (with_reducible apply Or.inr; with_reducible rfl)
    | ((with_reducible apply Or.inl); exact Framed.mem hF rfl)
    | ((with_reducible apply Framed.sub (G := [.parts, .ints, .img, .com, .net]) ?_ hF); rfl)
    | with_reducible apply State.sendTo_framed
    | with_reducible apply State.stageChange_framed
    | split
    | (refine Framed.of_mk ?_ (fun h => h) ?_ ?_ ?_ ?_ ?_ ?_ ?_ ?_ ?_ ?_ ?_ ?_ ?_ ?_ ?_ ?_ ?_ ?_ ?_ ?_ ?_ ?_ ?_ ?_ ?_ ?_ ?_ ?_)

theorem State.actAck_framed {rst : Bool} {F : List Field} {z s : State} {it : Item} (hF : ([.parts, .ints, .cmi, .img, .com, .bal, .net, .hrpOut] : List Field).all (F.contains ·) = true) (hz : Framed rst F z s) : Framed rst F z (State.actAck s it) := by
  unfold State.actAck
  try dsimp only
  repeat' first
    | with_reducible assumption
    | (with_reducible apply Or.inr; with_reducible rfl)
    | ((with_reducible apply Or.inl); exact Framed.mem hF rfl)
    | ((with_reducible apply Framed.sub (G := [.parts, .ints, .cmi, .img, .com, .bal, .net, .hrpOut]) ?_ hF); rfl)
    | with_reducible apply State.prepareDone_framed
    | with_reducible apply State.abortCommit_framed
    | split
    | (refine Framed.of_mk ?_ (fun h => h) ?_ ?_ ?_ ?_ ?_ ?_ ?_ ?_ ?_ ?_ ?_ ?_ ?_ ?_ ?_ ?_ ?_ ?_ ?_ ?_ ?_ ?_ ?_ ?_ ?_ ?_ ?_ ?_)

theorem State.actGo_framed {rst : Bool} {F : List Field} {z s : State} {it : Item} (hF : ([.com] : List Field).all (F.contains ·) = true) (hz : Framed rst F z s) : Framed rst F z (State.actGo s it) := by
  unfold State.actGo
  try dsimp only
  repeat' first
    | with_reducible assumption
    | (with_reducible apply Or.inr; with_reducible rfl)
    | ((with_reducible apply Or.inl); exact Framed.mem hF rfl)
    | ((with_reducible apply Framed.sub (G := [.com]) ?_ hF); rfl)
    | split
    | (refine Framed.of_mk ?_ (fun h => h) ?_ ?_ ?_ ?_ ?_ ?_ ?_ ?_ ?_ ?_ ?_ ?_ ?_ ?_ ?_ ?_ ?_ ?_ ?_ ?_ ?_ ?_ ?_ ?_ ?_ ?_ ?_ ?_)

theorem State.actAbort_framed {rst : Bool} {F : List Field} {z s : State} {it : Item} (hF : ([.parts, .ints, .img, .com, .bal] : List Field).all (F.contains ·) = true) (hz : Framed rst F z s) : Framed rst F z (State.actAbort s it) := by
  unfold State.actAbort
  try dsimp only
  repeat' first
    | with_reducible assumption
    | (with_reducible apply Or.inr; with_reducible rfl)
    | ((with_reducible apply Or.inl); exact Framed.mem hF rfl)
    | ((with_reducible apply Framed.sub (G := [.parts, .ints, .img, .com, .bal]) ?_ hF); rfl)
    | with_reducible apply State.countAbort_framed
    | with_reducible apply State.unstage_framed
    | split
    | (refine Framed.of_mk ?_ (fun h => h) ?_ ?_ ?_ ?_ ?_ ?_ ?_ ?_ ?_ ?_ ?_ ?_ ?_ ?_ ?_ ?_ ?_ ?_ ?_ ?_ ?_ ?_ ?_ ?_ ?_ ?_ ?_ ?_)

theorem State.copiesDone_framed {rst : Bool} {F : List Field} {z s : State}  (hF : ([.cmi, .net, .hrpOut] : List Field).all (F.contains ·) = true) (hz : Framed rst F z s) : Framed rst F z (State.copiesDone s) := by
  unfold State.copiesDone
  try dsimp only
  repeat' first
    | with_reducible assumption
    | (with_reducible apply Or.inr; with_reducible rfl)
    | ((with_reducible apply Or.inl); exact Framed.mem hF rfl)
    | ((with_reducible apply Framed.sub (G := [.cmi, .net, .hrpOut]) ?_ hF); rfl)
    | with_reducible apply State.answer_framed
    | split
    | (refine Framed.of_mk ?_ (fun h => h) ?_ ?_ ?_ ?_ ?_ ?_ ?_ ?_ ?_ ?_ ?_ ?_ ?_ ?_ ?_ ?_ ?_ ?_ ?_ ?_ ?_ ?_ ?_ ?_ ?_ ?_ ?_ ?_)

theorem State.takeMirror_framed {rst : Bool} {F : List Field} {z s : State} {a : Word} {d : Word} (hF : ([.cmi, .net, .tier, .hrpOut] : List Field).all (F.contains ·) = true) (hz : Framed rst F z s) : Framed rst F z (State.takeMirror s a d) := by
  unfold State.takeMirror
  try dsimp only
  repeat' first
    | with_reducible assumption
    | (with_reducible apply Or.inr; with_reducible rfl)
    | ((with_reducible apply Or.inl); exact Framed.mem hF rfl)
    | ((with_reducible apply Framed.sub (G := [.cmi, .net, .tier, .hrpOut]) ?_ hF); rfl)
    | with_reducible apply State.copiesDone_framed
    | split
    | (refine Framed.of_mk ?_ (fun h => h) ?_ ?_ ?_ ?_ ?_ ?_ ?_ ?_ ?_ ?_ ?_ ?_ ?_ ?_ ?_ ?_ ?_ ?_ ?_ ?_ ?_ ?_ ?_ ?_ ?_ ?_ ?_ ?_)

theorem State.actMirror_framed {rst : Bool} {F : List Field} {z s : State} {it : Item} (hF : ([.cmi, .net, .tier, .hrpOut] : List Field).all (F.contains ·) = true) (hz : Framed rst F z s) : Framed rst F z (State.actMirror s it) := by
  unfold State.actMirror
  try dsimp only
  repeat' first
    | with_reducible assumption
    | (with_reducible apply Or.inr; with_reducible rfl)
    | ((with_reducible apply Or.inl); exact Framed.mem hF rfl)
    | ((with_reducible apply Framed.sub (G := [.cmi, .net, .tier, .hrpOut]) ?_ hF); rfl)
    | with_reducible apply State.takeMirror_framed
    | split

theorem State.setPair_framed {rst : Bool} {F : List Field} {z s : State} {g : Nat} (hF : ([.net] : List Field).all (F.contains ·) = true) (hz : Framed rst F z s) : Framed rst F z (State.setPair s g) := by
  unfold State.setPair
  try dsimp only
  repeat' first
    | with_reducible assumption
    | (with_reducible apply Or.inr; with_reducible rfl)
    | ((with_reducible apply Or.inl); exact Framed.mem hF rfl)
    | ((with_reducible apply Framed.sub (G := [.net]) ?_ hF); rfl)
    | split
    | (refine Framed.of_mk ?_ (fun h => h) ?_ ?_ ?_ ?_ ?_ ?_ ?_ ?_ ?_ ?_ ?_ ?_ ?_ ?_ ?_ ?_ ?_ ?_ ?_ ?_ ?_ ?_ ?_ ?_ ?_ ?_ ?_ ?_)

theorem State.clearPair_framed {rst : Bool} {F : List Field} {z s : State}  (hF : ([.net, .tier] : List Field).all (F.contains ·) = true) (hz : Framed rst F z s) : Framed rst F z (State.clearPair s) := by
  unfold State.clearPair
  try dsimp only
  repeat' first
    | with_reducible assumption
    | (with_reducible apply Or.inr; with_reducible rfl)
    | ((with_reducible apply Or.inl); exact Framed.mem hF rfl)
    | ((with_reducible apply Framed.sub (G := [.net, .tier]) ?_ hF); rfl)
    | split
    | (refine Framed.of_mk ?_ (fun h => h) ?_ ?_ ?_ ?_ ?_ ?_ ?_ ?_ ?_ ?_ ?_ ?_ ?_ ?_ ?_ ?_ ?_ ?_ ?_ ?_ ?_ ?_ ?_ ?_ ?_ ?_ ?_ ?_)

theorem State.actPair_framed {rst : Bool} {F : List Field} {z s : State} {it : Item} (hF : ([.cmi, .net, .tier, .hrpOut] : List Field).all (F.contains ·) = true) (hz : Framed rst F z s) : Framed rst F z (State.actPair s it) := by
  unfold State.actPair
  try dsimp only
  repeat' first
    | with_reducible assumption
    | (with_reducible apply Or.inr; with_reducible rfl)
    | ((with_reducible apply Or.inl); exact Framed.mem hF rfl)
    | ((with_reducible apply Framed.sub (G := [.cmi, .net, .tier, .hrpOut]) ?_ hF); rfl)
    | with_reducible apply State.sendTo_framed
    | with_reducible apply State.setPair_framed
    | with_reducible apply State.answer_framed
    | with_reducible apply State.clearPair_framed
    | split
    | (refine Framed.of_mk ?_ (fun h => h) ?_ ?_ ?_ ?_ ?_ ?_ ?_ ?_ ?_ ?_ ?_ ?_ ?_ ?_ ?_ ?_ ?_ ?_ ?_ ?_ ?_ ?_ ?_ ?_ ?_ ?_ ?_ ?_)

theorem State.actRestart_framed {F : List Field} {z s : State} {it : Item} (hF : ([.trb, .com] : List Field).all (F.contains ·) = true) (hz : Framed true F z s) : Framed true F z (State.actRestart s it) := by
  unfold State.actRestart
  try dsimp only
  repeat' first
    | with_reducible assumption
    | (with_reducible apply Or.inr; with_reducible rfl)
    | ((with_reducible apply Or.inl); exact Framed.mem hF rfl)
    | ((with_reducible apply Framed.sub (G := [.trb, .com]) ?_ hF); rfl)
    | with_reducible apply State.logNew_framed
    | with_reducible apply State.setSticky_framed
    | with_reducible apply State.assertReset_framed
    | split
    | (refine Framed.of_mk ?_ (fun h => h) ?_ ?_ ?_ ?_ ?_ ?_ ?_ ?_ ?_ ?_ ?_ ?_ ?_ ?_ ?_ ?_ ?_ ?_ ?_ ?_ ?_ ?_ ?_ ?_ ?_ ?_ ?_ ?_)

theorem State.handleMsg_framed {F : List Field} {z s : State} {it : Item} (hF : ([.tm, .trb, .entries, .edge, .home, .slots, .ledgers, .parts, .ints, .cmi, .mem, .img, .com, .bal, .net, .fsp, .tier, .clk, .hrpOut] : List Field).all (F.contains ·) = true) (hz : Framed true F z s) : Framed true F z (State.handleMsg s it) := by
  unfold State.handleMsg
  try dsimp only
  repeat' first
    | with_reducible assumption
    | (with_reducible apply Or.inr; with_reducible rfl)
    | ((with_reducible apply Or.inl); exact Framed.mem hF rfl)
    | ((with_reducible apply Framed.sub (G := [.tm, .trb, .entries, .edge, .home, .slots, .ledgers, .parts, .ints, .cmi, .mem, .img, .com, .bal, .net, .fsp, .tier, .clk, .hrpOut]) ?_ hF); rfl)
    | with_reducible apply State.actItem_framed
    | with_reducible apply State.actOpen_framed
    | with_reducible apply State.actOpenReply_framed
    | with_reducible apply State.actStep_framed
    | with_reducible apply State.actResolve_framed
    | with_reducible apply State.actStreamEnd_framed
    | with_reducible apply State.actClose_framed
    | with_reducible apply State.actCancel_framed
    | with_reducible apply State.actCmd_framed
    | with_reducible apply State.actCmdReply_framed
    | with_reducible apply State.takeTime_framed
    | with_reducible apply State.actBalance_framed
    | with_reducible apply State.actPrepare_framed
    | with_reducible apply State.actAck_framed
    | with_reducible apply State.actGo_framed
    | with_reducible apply State.actAbort_framed
    | with_reducible apply State.actMirror_framed
    | with_reducible apply State.actPair_framed
    | with_reducible apply State.actRestart_framed
    | split

theorem State.acceptMsg_framed {F : List Field} {z s : State} {link : Nat} {it : Item} (hF : ([.tm, .trb, .entries, .edge, .home, .slots, .ledgers, .parts, .ints, .cmi, .mem, .img, .com, .bal, .net, .fsp, .tier, .clk, .hrpOut] : List Field).all (F.contains ·) = true) (hz : Framed true F z s) : Framed true F z (State.acceptMsg s link it) := by
  unfold State.acceptMsg
  try dsimp only
  repeat' first
    | with_reducible assumption
    | (with_reducible apply Or.inr; with_reducible rfl)
    | ((with_reducible apply Or.inl); exact Framed.mem hF rfl)
    | ((with_reducible apply Framed.sub (G := [.tm, .trb, .entries, .edge, .home, .slots, .ledgers, .parts, .ints, .cmi, .mem, .img, .com, .bal, .net, .fsp, .tier, .clk, .hrpOut]) ?_ hF); rfl)
    | with_reducible apply State.handleMsg_framed
    | with_reducible apply State.ringDrop_framed
    | split
    | (refine Framed.of_mk ?_ (fun h => h) ?_ ?_ ?_ ?_ ?_ ?_ ?_ ?_ ?_ ?_ ?_ ?_ ?_ ?_ ?_ ?_ ?_ ?_ ?_ ?_ ?_ ?_ ?_ ?_ ?_ ?_ ?_ ?_)

theorem State.routeMsg_framed {F : List Field} {z s : State} {link : Nat} {it : Item} (hF : ([.tm, .trb, .entries, .edge, .home, .slots, .ledgers, .parts, .ints, .cmi, .mem, .img, .com, .bal, .net, .fsp, .tier, .clk, .hrpOut] : List Field).all (F.contains ·) = true) (hz : Framed true F z s) : Framed true F z (State.routeMsg s link it) := by
  unfold State.routeMsg
  try dsimp only
  repeat' first
    | with_reducible assumption
    | (with_reducible apply Or.inr; with_reducible rfl)
    | ((with_reducible apply Or.inl); exact Framed.mem hF rfl)
    | ((with_reducible apply Framed.sub (G := [.tm, .trb, .entries, .edge, .home, .slots, .ledgers, .parts, .ints, .cmi, .mem, .img, .com, .bal, .net, .fsp, .tier, .clk, .hrpOut]) ?_ hF); rfl)
    | with_reducible apply State.ringDrop_framed
    | with_reducible apply State.acceptMsg_framed
    | with_reducible apply State.passAll_framed
    | with_reducible apply State.passMsg_framed
    | split

theorem State.badMsg_framed {F : List Field} {z s : State} {link : Nat} {m : RxMsg} (hF : ([.trb, .parts, .ints] : List Field).all (F.contains ·) = true) (hz : Framed true F z s) : Framed true F z (State.badMsg s link m) := by
  unfold State.badMsg
  try dsimp only
  repeat' first
    | with_reducible assumption
    | (with_reducible apply Or.inr; with_reducible rfl)
    | ((with_reducible apply Or.inl); exact Framed.mem hF rfl)
    | ((with_reducible apply Framed.sub (G := [.trb, .parts, .ints]) ?_ hF); rfl)
    | with_reducible apply State.ceLink_framed
    | with_reducible apply State.jobFault_framed
    | with_reducible apply State.trouble_framed
    | split

theorem State.receive_framed {F : List Field} {z s : State} {m : RxMsg} (hF : ([.tm, .trb, .entries, .edge, .home, .slots, .ledgers, .parts, .ints, .cmi, .mem, .img, .com, .bal, .net, .fsp, .tier, .clk, .hrpOut] : List Field).all (F.contains ·) = true) (hz : Framed true F z s) : Framed true F z (State.receive s m) := by
  unfold State.receive
  try dsimp only
  repeat' first
    | with_reducible assumption
    | (with_reducible apply Or.inr; with_reducible rfl)
    | ((with_reducible apply Or.inl); exact Framed.mem hF rfl)
    | ((with_reducible apply Framed.sub (G := [.tm, .trb, .entries, .edge, .home, .slots, .ledgers, .parts, .ints, .cmi, .mem, .img, .com, .bal, .net, .fsp, .tier, .clk, .hrpOut]) ?_ hF); rfl)
    | with_reducible apply State.routeMsg_framed
    | with_reducible apply State.ceLink_framed
    | with_reducible apply State.badMsg_framed
    | split
    | (refine Framed.of_mk ?_ (fun h => h) ?_ ?_ ?_ ?_ ?_ ?_ ?_ ?_ ?_ ?_ ?_ ?_ ?_ ?_ ?_ ?_ ?_ ?_ ?_ ?_ ?_ ?_ ?_ ?_ ?_ ?_ ?_ ?_)

theorem State.releaseHeld_framed {F : List Field} {z s : State}  (hF : ([.tm, .trb, .entries, .edge, .home, .slots, .ledgers, .parts, .ints, .cmi, .mem, .img, .com, .bal, .net, .fsp, .tier, .clk, .hrpOut] : List Field).all (F.contains ·) = true) (hz : Framed true F z s) : Framed true F z (State.releaseHeld s) := by
  unfold State.releaseHeld
  try dsimp only
  repeat' first
    | with_reducible assumption
    | (with_reducible apply Or.inr; with_reducible rfl)
    | ((with_reducible apply Or.inl); exact Framed.mem hF rfl)
    | ((with_reducible apply Framed.sub (G := [.tm, .trb, .entries, .edge, .home, .slots, .ledgers, .parts, .ints, .cmi, .mem, .img, .com, .bal, .net, .fsp, .tier, .clk, .hrpOut]) ?_ hF); rfl)
    | with_reducible apply State.acceptMsg_framed
    | split
    | (refine Framed.foldl (fun _ _ _ => ?_) ?_)
    | (refine Framed.of_mk ?_ (fun h => h) ?_ ?_ ?_ ?_ ?_ ?_ ?_ ?_ ?_ ?_ ?_ ?_ ?_ ?_ ?_ ?_ ?_ ?_ ?_ ?_ ?_ ?_ ?_ ?_ ?_ ?_ ?_ ?_)

theorem State.receiveType_framed {F : List Field} {z s : State} {typ : Nat} {m : RxMsg} (hF : ([.tm, .trb, .entries, .edge, .home, .slots, .ledgers, .parts, .ints, .cmi, .mem, .img, .com, .bal, .net, .fsp, .tier, .clk, .hrpOut] : List Field).all (F.contains ·) = true) (hz : Framed true F z s) : Framed true F z (State.receiveType s typ m) := by
  unfold State.receiveType
  try dsimp only
  repeat' first
    | with_reducible assumption
    | (with_reducible apply Or.inr; with_reducible rfl)
    | ((with_reducible apply Or.inl); exact Framed.mem hF rfl)
    | ((with_reducible apply Framed.sub (G := [.tm, .trb, .entries, .edge, .home, .slots, .ledgers, .parts, .ints, .cmi, .mem, .img, .com, .bal, .net, .fsp, .tier, .clk, .hrpOut]) ?_ hF); rfl)
    | with_reducible apply State.receive_framed
    | split

theorem State.onRingForward_framed {F : List Field} {z s : State} {msg : RxMsg} (hF : ([.tm, .trb, .entries, .edge, .home, .slots, .ledgers, .parts, .ints, .cmi, .mem, .img, .com, .bal, .net, .fsp, .tier, .clk, .hrpOut] : List Field).all (F.contains ·) = true) (hz : Framed true F z s) : Framed true F z (State.onRingForward s msg) := by
  unfold State.onRingForward
  try dsimp only
  repeat' first
    | with_reducible assumption
    | (with_reducible apply Or.inr; with_reducible rfl)
    | ((with_reducible apply Or.inl); exact Framed.mem hF rfl)
    | ((with_reducible apply Framed.sub (G := [.tm, .trb, .entries, .edge, .home, .slots, .ledgers, .parts, .ints, .cmi, .mem, .img, .com, .bal, .net, .fsp, .tier, .clk, .hrpOut]) ?_ hF); rfl)
    | with_reducible apply State.receive_framed
    | split

theorem State.onItem_framed {F : List Field} {z s : State} {msg : RxMsg} (hF : ([.tm, .trb, .entries, .edge, .home, .slots, .ledgers, .parts, .ints, .cmi, .mem, .img, .com, .bal, .net, .fsp, .tier, .clk, .hrpOut] : List Field).all (F.contains ·) = true) (hz : Framed true F z s) : Framed true F z (State.onItem s msg) := by
  unfold State.onItem
  try dsimp only
  repeat' first
    | with_reducible assumption
    | (with_reducible apply Or.inr; with_reducible rfl)
    | ((with_reducible apply Or.inl); exact Framed.mem hF rfl)
    | ((with_reducible apply Framed.sub (G := [.tm, .trb, .entries, .edge, .home, .slots, .ledgers, .parts, .ints, .cmi, .mem, .img, .com, .bal, .net, .fsp, .tier, .clk, .hrpOut]) ?_ hF); rfl)
    | with_reducible apply State.receiveType_framed
    | split

theorem State.onOpenMsg_framed {F : List Field} {z s : State} {msg : RxMsg} (hF : ([.tm, .trb, .entries, .edge, .home, .slots, .ledgers, .parts, .ints, .cmi, .mem, .img, .com, .bal, .net, .fsp, .tier, .clk, .hrpOut] : List Field).all (F.contains ·) = true) (hz : Framed true F z s) : Framed true F z (State.onOpenMsg s msg) := by
  unfold State.onOpenMsg
  try dsimp only
  repeat' first
    | with_reducible assumption
    | (with_reducible apply Or.inr; with_reducible rfl)
    | ((with_reducible apply Or.inl); exact Framed.mem hF rfl)
    | ((with_reducible apply Framed.sub (G := [.tm, .trb, .entries, .edge, .home, .slots, .ledgers, .parts, .ints, .cmi, .mem, .img, .com, .bal, .net, .fsp, .tier, .clk, .hrpOut]) ?_ hF); rfl)
    | with_reducible apply State.receiveType_framed
    | split

theorem State.onOpenReply_framed {F : List Field} {z s : State} {msg : RxMsg} (hF : ([.tm, .trb, .entries, .edge, .home, .slots, .ledgers, .parts, .ints, .cmi, .mem, .img, .com, .bal, .net, .fsp, .tier, .clk, .hrpOut] : List Field).all (F.contains ·) = true) (hz : Framed true F z s) : Framed true F z (State.onOpenReply s msg) := by
  unfold State.onOpenReply
  try dsimp only
  repeat' first
    | with_reducible assumption
    | (with_reducible apply Or.inr; with_reducible rfl)
    | ((with_reducible apply Or.inl); exact Framed.mem hF rfl)
    | ((with_reducible apply Framed.sub (G := [.tm, .trb, .entries, .edge, .home, .slots, .ledgers, .parts, .ints, .cmi, .mem, .img, .com, .bal, .net, .fsp, .tier, .clk, .hrpOut]) ?_ hF); rfl)
    | with_reducible apply State.receiveType_framed
    | split

theorem State.onStepMsg_framed {F : List Field} {z s : State} {msg : RxMsg} (hF : ([.tm, .trb, .entries, .edge, .home, .slots, .ledgers, .parts, .ints, .cmi, .mem, .img, .com, .bal, .net, .fsp, .tier, .clk, .hrpOut] : List Field).all (F.contains ·) = true) (hz : Framed true F z s) : Framed true F z (State.onStepMsg s msg) := by
  unfold State.onStepMsg
  try dsimp only
  repeat' first
    | with_reducible assumption
    | (with_reducible apply Or.inr; with_reducible rfl)
    | ((with_reducible apply Or.inl); exact Framed.mem hF rfl)
    | ((with_reducible apply Framed.sub (G := [.tm, .trb, .entries, .edge, .home, .slots, .ledgers, .parts, .ints, .cmi, .mem, .img, .com, .bal, .net, .fsp, .tier, .clk, .hrpOut]) ?_ hF); rfl)
    | with_reducible apply State.receiveType_framed
    | split

theorem State.onResolve_framed {F : List Field} {z s : State} {msg : RxMsg} (hF : ([.tm, .trb, .entries, .edge, .home, .slots, .ledgers, .parts, .ints, .cmi, .mem, .img, .com, .bal, .net, .fsp, .tier, .clk, .hrpOut] : List Field).all (F.contains ·) = true) (hz : Framed true F z s) : Framed true F z (State.onResolve s msg) := by
  unfold State.onResolve
  try dsimp only
  repeat' first
    | with_reducible assumption
    | (with_reducible apply Or.inr; with_reducible rfl)
    | ((with_reducible apply Or.inl); exact Framed.mem hF rfl)
    | ((with_reducible apply Framed.sub (G := [.tm, .trb, .entries, .edge, .home, .slots, .ledgers, .parts, .ints, .cmi, .mem, .img, .com, .bal, .net, .fsp, .tier, .clk, .hrpOut]) ?_ hF); rfl)
    | with_reducible apply State.receiveType_framed
    | split

theorem State.onStreamEnd_framed {F : List Field} {z s : State} {msg : RxMsg} (hF : ([.tm, .trb, .entries, .edge, .home, .slots, .ledgers, .parts, .ints, .cmi, .mem, .img, .com, .bal, .net, .fsp, .tier, .clk, .hrpOut] : List Field).all (F.contains ·) = true) (hz : Framed true F z s) : Framed true F z (State.onStreamEnd s msg) := by
  unfold State.onStreamEnd
  try dsimp only
  repeat' first
    | with_reducible assumption
    | (with_reducible apply Or.inr; with_reducible rfl)
    | ((with_reducible apply Or.inl); exact Framed.mem hF rfl)
    | ((with_reducible apply Framed.sub (G := [.tm, .trb, .entries, .edge, .home, .slots, .ledgers, .parts, .ints, .cmi, .mem, .img, .com, .bal, .net, .fsp, .tier, .clk, .hrpOut]) ?_ hF); rfl)
    | with_reducible apply State.receiveType_framed
    | split

theorem State.onClose_framed {F : List Field} {z s : State} {msg : RxMsg} (hF : ([.tm, .trb, .entries, .edge, .home, .slots, .ledgers, .parts, .ints, .cmi, .mem, .img, .com, .bal, .net, .fsp, .tier, .clk, .hrpOut] : List Field).all (F.contains ·) = true) (hz : Framed true F z s) : Framed true F z (State.onClose s msg) := by
  unfold State.onClose
  try dsimp only
  repeat' first
    | with_reducible assumption
    | (with_reducible apply Or.inr; with_reducible rfl)
    | ((with_reducible apply Or.inl); exact Framed.mem hF rfl)
    | ((with_reducible apply Framed.sub (G := [.tm, .trb, .entries, .edge, .home, .slots, .ledgers, .parts, .ints, .cmi, .mem, .img, .com, .bal, .net, .fsp, .tier, .clk, .hrpOut]) ?_ hF); rfl)
    | with_reducible apply State.receiveType_framed
    | split

theorem State.onCancel_framed {F : List Field} {z s : State} {msg : RxMsg} (hF : ([.tm, .trb, .entries, .edge, .home, .slots, .ledgers, .parts, .ints, .cmi, .mem, .img, .com, .bal, .net, .fsp, .tier, .clk, .hrpOut] : List Field).all (F.contains ·) = true) (hz : Framed true F z s) : Framed true F z (State.onCancel s msg) := by
  unfold State.onCancel
  try dsimp only
  repeat' first
    | with_reducible assumption
    | (with_reducible apply Or.inr; with_reducible rfl)
    | ((with_reducible apply Or.inl); exact Framed.mem hF rfl)
    | ((with_reducible apply Framed.sub (G := [.tm, .trb, .entries, .edge, .home, .slots, .ledgers, .parts, .ints, .cmi, .mem, .img, .com, .bal, .net, .fsp, .tier, .clk, .hrpOut]) ?_ hF); rfl)
    | with_reducible apply State.receiveType_framed
    | split

theorem State.onCmd_framed {F : List Field} {z s : State} {msg : RxMsg} (hF : ([.tm, .trb, .entries, .edge, .home, .slots, .ledgers, .parts, .ints, .cmi, .mem, .img, .com, .bal, .net, .fsp, .tier, .clk, .hrpOut] : List Field).all (F.contains ·) = true) (hz : Framed true F z s) : Framed true F z (State.onCmd s msg) := by
  unfold State.onCmd
  try dsimp only
  repeat' first
    | with_reducible assumption
    | (with_reducible apply Or.inr; with_reducible rfl)
    | ((with_reducible apply Or.inl); exact Framed.mem hF rfl)
    | ((with_reducible apply Framed.sub (G := [.tm, .trb, .entries, .edge, .home, .slots, .ledgers, .parts, .ints, .cmi, .mem, .img, .com, .bal, .net, .fsp, .tier, .clk, .hrpOut]) ?_ hF); rfl)
    | with_reducible apply State.receiveType_framed
    | split

theorem State.onCmdReply_framed {F : List Field} {z s : State} {msg : RxMsg} (hF : ([.tm, .trb, .entries, .edge, .home, .slots, .ledgers, .parts, .ints, .cmi, .mem, .img, .com, .bal, .net, .fsp, .tier, .clk, .hrpOut] : List Field).all (F.contains ·) = true) (hz : Framed true F z s) : Framed true F z (State.onCmdReply s msg) := by
  unfold State.onCmdReply
  try dsimp only
  repeat' first
    | with_reducible assumption
    | (with_reducible apply Or.inr; with_reducible rfl)
    | ((with_reducible apply Or.inl); exact Framed.mem hF rfl)
    | ((with_reducible apply Framed.sub (G := [.tm, .trb, .entries, .edge, .home, .slots, .ledgers, .parts, .ints, .cmi, .mem, .img, .com, .bal, .net, .fsp, .tier, .clk, .hrpOut]) ?_ hF); rfl)
    | with_reducible apply State.receiveType_framed
    | split

theorem State.onTime_framed {F : List Field} {z s : State} {msg : RxMsg} (hF : ([.tm, .trb, .entries, .edge, .home, .slots, .ledgers, .parts, .ints, .cmi, .mem, .img, .com, .bal, .net, .fsp, .tier, .clk, .hrpOut] : List Field).all (F.contains ·) = true) (hz : Framed true F z s) : Framed true F z (State.onTime s msg) := by
  unfold State.onTime
  try dsimp only
  repeat' first
    | with_reducible assumption
    | (with_reducible apply Or.inr; with_reducible rfl)
    | ((with_reducible apply Or.inl); exact Framed.mem hF rfl)
    | ((with_reducible apply Framed.sub (G := [.tm, .trb, .entries, .edge, .home, .slots, .ledgers, .parts, .ints, .cmi, .mem, .img, .com, .bal, .net, .fsp, .tier, .clk, .hrpOut]) ?_ hF); rfl)
    | with_reducible apply State.receiveType_framed
    | split

theorem State.onBalance_framed {F : List Field} {z s : State} {msg : RxMsg} (hF : ([.tm, .trb, .entries, .edge, .home, .slots, .ledgers, .parts, .ints, .cmi, .mem, .img, .com, .bal, .net, .fsp, .tier, .clk, .hrpOut] : List Field).all (F.contains ·) = true) (hz : Framed true F z s) : Framed true F z (State.onBalance s msg) := by
  unfold State.onBalance
  try dsimp only
  repeat' first
    | with_reducible assumption
    | (with_reducible apply Or.inr; with_reducible rfl)
    | ((with_reducible apply Or.inl); exact Framed.mem hF rfl)
    | ((with_reducible apply Framed.sub (G := [.tm, .trb, .entries, .edge, .home, .slots, .ledgers, .parts, .ints, .cmi, .mem, .img, .com, .bal, .net, .fsp, .tier, .clk, .hrpOut]) ?_ hF); rfl)
    | with_reducible apply State.receiveType_framed
    | split

theorem State.onPrepare_framed {F : List Field} {z s : State} {msg : RxMsg} (hF : ([.tm, .trb, .entries, .edge, .home, .slots, .ledgers, .parts, .ints, .cmi, .mem, .img, .com, .bal, .net, .fsp, .tier, .clk, .hrpOut] : List Field).all (F.contains ·) = true) (hz : Framed true F z s) : Framed true F z (State.onPrepare s msg) := by
  unfold State.onPrepare
  try dsimp only
  repeat' first
    | with_reducible assumption
    | (with_reducible apply Or.inr; with_reducible rfl)
    | ((with_reducible apply Or.inl); exact Framed.mem hF rfl)
    | ((with_reducible apply Framed.sub (G := [.tm, .trb, .entries, .edge, .home, .slots, .ledgers, .parts, .ints, .cmi, .mem, .img, .com, .bal, .net, .fsp, .tier, .clk, .hrpOut]) ?_ hF); rfl)
    | with_reducible apply State.receiveType_framed
    | split

theorem State.onAck_framed {F : List Field} {z s : State} {msg : RxMsg} (hF : ([.tm, .trb, .entries, .edge, .home, .slots, .ledgers, .parts, .ints, .cmi, .mem, .img, .com, .bal, .net, .fsp, .tier, .clk, .hrpOut] : List Field).all (F.contains ·) = true) (hz : Framed true F z s) : Framed true F z (State.onAck s msg) := by
  unfold State.onAck
  try dsimp only
  repeat' first
    | with_reducible assumption
    | (with_reducible apply Or.inr; with_reducible rfl)
    | ((with_reducible apply Or.inl); exact Framed.mem hF rfl)
    | ((with_reducible apply Framed.sub (G := [.tm, .trb, .entries, .edge, .home, .slots, .ledgers, .parts, .ints, .cmi, .mem, .img, .com, .bal, .net, .fsp, .tier, .clk, .hrpOut]) ?_ hF); rfl)
    | with_reducible apply State.receiveType_framed
    | split

theorem State.onGo_framed {F : List Field} {z s : State} {msg : RxMsg} (hF : ([.tm, .trb, .entries, .edge, .home, .slots, .ledgers, .parts, .ints, .cmi, .mem, .img, .com, .bal, .net, .fsp, .tier, .clk, .hrpOut] : List Field).all (F.contains ·) = true) (hz : Framed true F z s) : Framed true F z (State.onGo s msg) := by
  unfold State.onGo
  try dsimp only
  repeat' first
    | with_reducible assumption
    | (with_reducible apply Or.inr; with_reducible rfl)
    | ((with_reducible apply Or.inl); exact Framed.mem hF rfl)
    | ((with_reducible apply Framed.sub (G := [.tm, .trb, .entries, .edge, .home, .slots, .ledgers, .parts, .ints, .cmi, .mem, .img, .com, .bal, .net, .fsp, .tier, .clk, .hrpOut]) ?_ hF); rfl)
    | with_reducible apply State.receiveType_framed
    | split

theorem State.onAbort_framed {F : List Field} {z s : State} {msg : RxMsg} (hF : ([.tm, .trb, .entries, .edge, .home, .slots, .ledgers, .parts, .ints, .cmi, .mem, .img, .com, .bal, .net, .fsp, .tier, .clk, .hrpOut] : List Field).all (F.contains ·) = true) (hz : Framed true F z s) : Framed true F z (State.onAbort s msg) := by
  unfold State.onAbort
  try dsimp only
  repeat' first
    | with_reducible assumption
    | (with_reducible apply Or.inr; with_reducible rfl)
    | ((with_reducible apply Or.inl); exact Framed.mem hF rfl)
    | ((with_reducible apply Framed.sub (G := [.tm, .trb, .entries, .edge, .home, .slots, .ledgers, .parts, .ints, .cmi, .mem, .img, .com, .bal, .net, .fsp, .tier, .clk, .hrpOut]) ?_ hF); rfl)
    | with_reducible apply State.receiveType_framed
    | split

theorem State.onMirror_framed {F : List Field} {z s : State} {msg : RxMsg} (hF : ([.tm, .trb, .entries, .edge, .home, .slots, .ledgers, .parts, .ints, .cmi, .mem, .img, .com, .bal, .net, .fsp, .tier, .clk, .hrpOut] : List Field).all (F.contains ·) = true) (hz : Framed true F z s) : Framed true F z (State.onMirror s msg) := by
  unfold State.onMirror
  try dsimp only
  repeat' first
    | with_reducible assumption
    | (with_reducible apply Or.inr; with_reducible rfl)
    | ((with_reducible apply Or.inl); exact Framed.mem hF rfl)
    | ((with_reducible apply Framed.sub (G := [.tm, .trb, .entries, .edge, .home, .slots, .ledgers, .parts, .ints, .cmi, .mem, .img, .com, .bal, .net, .fsp, .tier, .clk, .hrpOut]) ?_ hF); rfl)
    | with_reducible apply State.receiveType_framed
    | split

theorem State.onPair_framed {F : List Field} {z s : State} {msg : RxMsg} (hF : ([.tm, .trb, .entries, .edge, .home, .slots, .ledgers, .parts, .ints, .cmi, .mem, .img, .com, .bal, .net, .fsp, .tier, .clk, .hrpOut] : List Field).all (F.contains ·) = true) (hz : Framed true F z s) : Framed true F z (State.onPair s msg) := by
  unfold State.onPair
  try dsimp only
  repeat' first
    | with_reducible assumption
    | (with_reducible apply Or.inr; with_reducible rfl)
    | ((with_reducible apply Or.inl); exact Framed.mem hF rfl)
    | ((with_reducible apply Framed.sub (G := [.tm, .trb, .entries, .edge, .home, .slots, .ledgers, .parts, .ints, .cmi, .mem, .img, .com, .bal, .net, .fsp, .tier, .clk, .hrpOut]) ?_ hF); rfl)
    | with_reducible apply State.receiveType_framed
    | split

theorem State.onRestart_framed {F : List Field} {z s : State} {msg : RxMsg} (hF : ([.tm, .trb, .entries, .edge, .home, .slots, .ledgers, .parts, .ints, .cmi, .mem, .img, .com, .bal, .net, .fsp, .tier, .clk, .hrpOut] : List Field).all (F.contains ·) = true) (hz : Framed true F z s) : Framed true F z (State.onRestart s msg) := by
  unfold State.onRestart
  try dsimp only
  repeat' first
    | with_reducible assumption
    | (with_reducible apply Or.inr; with_reducible rfl)
    | ((with_reducible apply Or.inl); exact Framed.mem hF rfl)
    | ((with_reducible apply Framed.sub (G := [.tm, .trb, .entries, .edge, .home, .slots, .ledgers, .parts, .ints, .cmi, .mem, .img, .com, .bal, .net, .fsp, .tier, .clk, .hrpOut]) ?_ hF); rfl)
    | with_reducible apply State.receiveType_framed
    | split

end Sys2Proof.Machine
end

