-- ==== Sys2Proof/Laws/FramedRingCmd.lean ====
section
/-! SUPPORT. The ring’s sending side: the parts of the state that each operation may change, one lemma for each. -/
namespace Sys2Proof.Machine
set_option Elab.async false

theorem State.txLate_framed {rst : Bool} {F : List Field} {z s : State} {m : QMsg} (hF : ([.slots, .net] : List Field).all (F.contains ·) = true) (hz : Framed rst F z s) : Framed rst F z (State.txLate s m) := by
  unfold State.txLate
  try dsimp only
  repeat' first
    | with_reducible assumption
    | (with_reducible apply Or.inr; with_reducible rfl)
    | ((with_reducible apply Or.inl); exact Framed.mem hF rfl)
    | ((with_reducible apply Framed.sub (G := [.slots, .net]) ?_ hF); rfl)
    | with_reducible apply State.setSlot_framed
    | split
    | (refine Framed.foldl (fun _ _ _ => ?_) ?_)
    | (refine Framed.of_mk ?_ (fun h => h) ?_ ?_ ?_ ?_ ?_ ?_ ?_ ?_ ?_ ?_ ?_ ?_ ?_ ?_ ?_ ?_ ?_ ?_ ?_ ?_ ?_ ?_ ?_ ?_ ?_ ?_ ?_ ?_)

theorem State.txTake_framed {rst : Bool} {F : List Field} {z s t : State} {link : Nat} {m : QMsg} (e : s.txTake link = some (m, t))
    (hF : ([.net] : List Field).all (F.contains ·) = true) (hz : Framed rst F z s) : Framed rst F z t := by
  have k (n : NetU) : Framed rst F z { s with net := n } :=
    hz.after (G := [.net]) ⟨id, .inr fun f hf => by cases f <;> first | rfl | simp at hf⟩ hF
  unfold State.txTake at e
  dsimp only at e
  repeat' split at e
  all_goals cases e
  all_goals exact k _

theorem State.txSlot_framed {rst : Bool} {F : List Field} {z s : State} {link : Nat} (hF : ([.slots, .net] : List Field).all (F.contains ·) = true)
    (hz : Framed rst F z s) : Framed rst F z (s.txSlot link) := by
  unfold State.txSlot
  dsimp only
  have put (t : State) (n : NetU) (h : Framed rst F z t) : Framed rst F z { t with net := n } :=
    h.after (G := [.net]) ⟨id, .inr fun f hf => by cases f <;> first | rfl | simp at hf⟩ (Framed.sub rfl hF)
  split
  · rename_i m t e
    exact put _ _ (State.txLate_framed (Framed.sub rfl hF) (State.txTake_framed e (Framed.sub rfl hF) hz))
  · exact put _ _ hz

theorem State.onGrpTxSlot_framed {rst : Bool} {F : List Field} {z s1 : State} {link : Nat} (hF : ([.slots, .net] : List Field).all (F.contains ·) = true) (hz : Framed rst F z s1) : Framed rst F z (State.onGrpTxSlot s1 link) := by
  unfold State.onGrpTxSlot
  try dsimp only
  repeat' first
    | with_reducible assumption
    | (with_reducible apply Or.inr; with_reducible rfl)
    | ((with_reducible apply Or.inl); exact Framed.mem hF rfl)
    | ((with_reducible apply Framed.sub (G := [.slots, .net]) ?_ hF); rfl)
    | with_reducible apply State.txSlot_framed
    | split

theorem State.diffArea3_framed {rst : Bool} {F : List Field} {z s : State}  (hF : ([.net] : List Field).all (F.contains ·) = true) (hz : Framed rst F z s) : Framed rst F z (State.diffArea3 s) := by
  unfold State.diffArea3
  try dsimp only
  repeat' first
    | with_reducible assumption
    | (with_reducible apply Or.inr; with_reducible rfl)
    | ((with_reducible apply Or.inl); exact Framed.mem hF rfl)
    | ((with_reducible apply Framed.sub (G := [.net]) ?_ hF); rfl)
    | with_reducible apply State.mirrorPut_framed
    | split
    | (refine Framed.of_mk ?_ (fun h => h) ?_ ?_ ?_ ?_ ?_ ?_ ?_ ?_ ?_ ?_ ?_ ?_ ?_ ?_ ?_ ?_ ?_ ?_ ?_ ?_ ?_ ?_ ?_ ?_ ?_ ?_ ?_ ?_)

theorem State.enqueueMirror_framed {rst : Bool} {F : List Field} {z s0 : State}  (hF : ([.net] : List Field).all (F.contains ·) = true) (hz : Framed rst F z s0) : Framed rst F z (State.enqueueMirror s0) := by
  unfold State.enqueueMirror
  try dsimp only
  repeat' first
    | with_reducible assumption
    | (with_reducible apply Or.inr; with_reducible rfl)
    | ((with_reducible apply Or.inl); exact Framed.mem hF rfl)
    | ((with_reducible apply Framed.sub (G := [.net]) ?_ hF); rfl)
    | with_reducible apply State.handMirror_framed
    | split
    | (refine Framed.of_mk ?_ (fun h => h) ?_ ?_ ?_ ?_ ?_ ?_ ?_ ?_ ?_ ?_ ?_ ?_ ?_ ?_ ?_ ?_ ?_ ?_ ?_ ?_ ?_ ?_ ?_ ?_ ?_ ?_ ?_ ?_)

theorem State.onMirrorEnqueue_framed {rst : Bool} {F : List Field} {z s1 : State}  (hF : ([.net] : List Field).all (F.contains ·) = true) (hz : Framed rst F z s1) : Framed rst F z (State.onMirrorEnqueue s1) := by
  unfold State.onMirrorEnqueue
  try dsimp only
  repeat' first
    | with_reducible assumption
    | (with_reducible apply Or.inr; with_reducible rfl)
    | ((with_reducible apply Or.inl); exact Framed.mem hF rfl)
    | ((with_reducible apply Framed.sub (G := [.net]) ?_ hF); rfl)
    | with_reducible apply State.enqueueMirror_framed
    | split

theorem State.onTwinCopyDone_framed {rst : Bool} {F : List Field} {z s1 : State}  (hF : ([.cmi, .net, .hrpOut] : List Field).all (F.contains ·) = true) (hz : Framed rst F z s1) : Framed rst F z (State.onTwinCopyDone s1) := by
  unfold State.onTwinCopyDone
  try dsimp only
  repeat' first
    | with_reducible assumption
    | (with_reducible apply Or.inr; with_reducible rfl)
    | ((with_reducible apply Or.inl); exact Framed.mem hF rfl)
    | ((with_reducible apply Framed.sub (G := [.cmi, .net, .hrpOut]) ?_ hF); rfl)
    | with_reducible apply State.copiesDone_framed
    | split
    | (refine Framed.of_mk ?_ (fun h => h) ?_ ?_ ?_ ?_ ?_ ?_ ?_ ?_ ?_ ?_ ?_ ?_ ?_ ?_ ?_ ?_ ?_ ?_ ?_ ?_ ?_ ?_ ?_ ?_ ?_ ?_ ?_ ?_)

theorem State.onLinkLockLoss_framed {F : List Field} {z s1 : State} {link : Nat} (hF : ([.net] : List Field).all (F.contains ·) = true) (hz : Framed true F z s1) : Framed true F z (State.onLinkLockLoss s1 link) := by
  unfold State.onLinkLockLoss
  try dsimp only
  repeat' first
    | with_reducible assumption
    | (with_reducible apply Or.inr; with_reducible rfl)
    | ((with_reducible apply Or.inl); exact Framed.mem hF rfl)
    | ((with_reducible apply Framed.sub (G := [.net]) ?_ hF); rfl)
    | with_reducible apply State.jobFault_framed
    | split
    | (refine Framed.of_mk ?_ (fun h => h) ?_ ?_ ?_ ?_ ?_ ?_ ?_ ?_ ?_ ?_ ?_ ?_ ?_ ?_ ?_ ?_ ?_ ?_ ?_ ?_ ?_ ?_ ?_ ?_ ?_ ?_ ?_ ?_)

theorem State.pairTwin_framed {rst : Bool} {F : List Field} {z s : State} {i : Issuer} {g : Nat} (hF : ([.cmi, .net, .hrpOut] : List Field).all (F.contains ·) = true) (hz : Framed rst F z s) : Framed rst F z (State.pairTwin s i g) := by
  unfold State.pairTwin
  try dsimp only
  repeat' first
    | with_reducible assumption
    | (with_reducible apply Or.inr; with_reducible rfl)
    | ((with_reducible apply Or.inl); exact Framed.mem hF rfl)
    | ((with_reducible apply Framed.sub (G := [.cmi, .net, .hrpOut]) ?_ hF); rfl)
    | with_reducible apply State.answer_framed
    | with_reducible apply State.sendTo_framed
    | split
    | (refine Framed.of_mk ?_ (fun h => h) ?_ ?_ ?_ ?_ ?_ ?_ ?_ ?_ ?_ ?_ ?_ ?_ ?_ ?_ ?_ ?_ ?_ ?_ ?_ ?_ ?_ ?_ ?_ ?_ ?_ ?_ ?_ ?_)

theorem State.onPairTwin_framed {rst : Bool} {F : List Field} {z s : State}  (hF : ([.parts, .ints, .cmi, .net, .clk, .hrpOut] : List Field).all (F.contains ·) = true) (hz : Framed rst F z s) : Framed rst F z (State.onPairTwin s) := by
  unfold State.onPairTwin
  try dsimp only
  repeat' first
    | with_reducible assumption
    | (with_reducible apply Or.inr; with_reducible rfl)
    | ((with_reducible apply Or.inl); exact Framed.mem hF rfl)
    | ((with_reducible apply Framed.sub (G := [.parts, .ints, .cmi, .net, .clk, .hrpOut]) ?_ hF); rfl)
    | with_reducible apply State.runCmd_framed
    | with_reducible apply State.pairTwin_framed
    | intro _
    | split

theorem State.unpairTwin_framed {rst : Bool} {F : List Field} {z s : State} {i : Issuer} (hF : ([.cmi, .net, .tier, .hrpOut] : List Field).all (F.contains ·) = true) (hz : Framed rst F z s) : Framed rst F z (State.unpairTwin s i) := by
  unfold State.unpairTwin
  try dsimp only
  repeat' first
    | with_reducible assumption
    | (with_reducible apply Or.inr; with_reducible rfl)
    | ((with_reducible apply Or.inl); exact Framed.mem hF rfl)
    | ((with_reducible apply Framed.sub (G := [.cmi, .net, .tier, .hrpOut]) ?_ hF); rfl)
    | with_reducible apply State.answer_framed
    | with_reducible apply State.sendTo_framed
    | with_reducible apply State.clearPair_framed
    | split
    | (refine Framed.of_mk ?_ (fun h => h) ?_ ?_ ?_ ?_ ?_ ?_ ?_ ?_ ?_ ?_ ?_ ?_ ?_ ?_ ?_ ?_ ?_ ?_ ?_ ?_ ?_ ?_ ?_ ?_ ?_ ?_ ?_ ?_)

theorem State.onUnpairTwin_framed {rst : Bool} {F : List Field} {z s : State}  (hF : ([.parts, .ints, .cmi, .net, .tier, .clk, .hrpOut] : List Field).all (F.contains ·) = true) (hz : Framed rst F z s) : Framed rst F z (State.onUnpairTwin s) := by
  unfold State.onUnpairTwin
  try dsimp only
  repeat' first
    | with_reducible assumption
    | (with_reducible apply Or.inr; with_reducible rfl)
    | ((with_reducible apply Or.inl); exact Framed.mem hF rfl)
    | ((with_reducible apply Framed.sub (G := [.parts, .ints, .cmi, .net, .tier, .clk, .hrpOut]) ?_ hF); rfl)
    | with_reducible apply State.runCmd_framed
    | with_reducible apply State.unpairTwin_framed
    | intro _
    | split

end Sys2Proof.Machine
end

