-- ==== Sys2Proof/Laws/FramedStart.lean ====
section
/-! SUPPORT. Releases and starts: the parts of the state that each operation may change, one lemma for each. -/
namespace Sys2Proof.Machine
set_option Elab.async false

theorem State.putRsStat_framed {rst : Bool} {F : List Field} {z s : State}  (hF : ([.trb] : List Field).all (F.contains ·) = true) (hz : Framed rst F z s) : Framed rst F z (State.putRsStat s) := by
  unfold State.putRsStat
  try dsimp only
  repeat' first
    | with_reducible assumption
    | (with_reducible apply Or.inr; with_reducible rfl)
    | ((with_reducible apply Or.inl); exact Framed.mem hF rfl)
    | ((with_reducible apply Framed.sub (G := [.trb]) ?_ hF); rfl)
    | with_reducible apply State.putRetained_framed
    | split

theorem State.onPowerOn_framed {F : List Field} {z s1 : State} {cause : PowerCause} {cycles : Nat} (hF : ([.tm, .rs, .trb, .net, .tier, .tap] : List Field).all (F.contains ·) = true) (hz : Framed true F z s1) : Framed true F z (State.onPowerOn s1 cause cycles) := by
  unfold State.onPowerOn
  try dsimp only
  repeat' first
    | with_reducible assumption
    | (with_reducible apply Or.inr; with_reducible rfl)
    | ((with_reducible apply Or.inl); exact Framed.mem hF rfl)
    | ((with_reducible apply Framed.sub (G := [.tm, .rs, .trb, .net, .tier, .tap]) ?_ hF); rfl)
    | with_reducible apply State.assertReset_framed
    | split
    | (refine Framed.of_mk ?_ (fun h => h) ?_ ?_ ?_ ?_ ?_ ?_ ?_ ?_ ?_ ?_ ?_ ?_ ?_ ?_ ?_ ?_ ?_ ?_ ?_ ?_ ?_ ?_ ?_ ?_ ?_ ?_ ?_ ?_)

theorem State.pinHeld_resets {s : State} {cycles : Nat} (h : s.inReset = true) : (s.pinHeld cycles).inReset = true := h

theorem State.onPorstN_framed {F : List Field} {z s1 : State} {cycles : Nat} {taken : Bool} (_hF : ([] : List Field).all (F.contains ·) = true) (hz : Framed true F z s1) : Framed true F z (State.onPorstN s1 cycles taken) := by
  unfold State.onPorstN
  split
  · exact .of_reset (State.pinHeld_resets State.assertReset_resets)
  · exact hz

theorem State.onSysrstN_framed {F : List Field} {z s1 : State} {cycles : Nat} {taken : Bool} (hF : ([] : List Field).all (F.contains ·) = true) (hz : Framed true F z s1) : Framed true F z (State.onSysrstN s1 cycles taken) := by
  unfold State.onSysrstN
  try dsimp only
  repeat' first
    | with_reducible assumption
    | (with_reducible apply Or.inr; with_reducible rfl)
    | ((with_reducible apply Or.inl); exact Framed.mem hF rfl)
    | ((with_reducible apply Framed.sub (G := []) ?_ hF); rfl)
    | with_reducible apply State.wideReset_framed
    | split

theorem State.onGateReset_framed {F : List Field} {z s : State}  (hF : ([.parts, .ints, .cmi, .net, .clk, .hrpOut] : List Field).all (F.contains ·) = true) (hz : Framed true F z s) : Framed true F z (State.onGateReset s) := by
  unfold State.onGateReset
  try dsimp only
  repeat' first
    | with_reducible assumption
    | (with_reducible apply Or.inr; with_reducible rfl)
    | ((with_reducible apply Or.inl); exact Framed.mem hF rfl)
    | ((with_reducible apply Framed.sub (G := [.parts, .ints, .cmi, .net, .clk, .hrpOut]) ?_ hF); rfl)
    | with_reducible apply State.runCmd_framed
    | with_reducible apply State.wideReset_framed
    | with_reducible apply State.answer_framed
    | intro _
    | split

theorem State.onJobRestart_framed {F : List Field} {z s : State}  (hF : ([.parts, .ints, .cmi, .net, .clk, .hrpOut] : List Field).all (F.contains ·) = true) (hz : Framed true F z s) : Framed true F z (State.onJobRestart s) := by
  unfold State.onJobRestart
  try dsimp only
  repeat' first
    | with_reducible assumption
    | (with_reducible apply Or.inr; with_reducible rfl)
    | ((with_reducible apply Or.inl); exact Framed.mem hF rfl)
    | ((with_reducible apply Framed.sub (G := [.parts, .ints, .cmi, .net, .clk, .hrpOut]) ?_ hF); rfl)
    | with_reducible apply State.runCmd_framed
    | with_reducible apply State.jobFault_framed
    | with_reducible apply State.answer_framed
    | intro _
    | split

theorem State.onHrpErr_framed {F : List Field} {z s1 : State}  (hF : ([] : List Field).all (F.contains ·) = true) (hz : Framed true F z s1) : Framed true F z (State.onHrpErr s1) := by
  unfold State.onHrpErr
  try dsimp only
  repeat' first
    | with_reducible assumption
    | (with_reducible apply Or.inr; with_reducible rfl)
    | ((with_reducible apply Or.inl); exact Framed.mem hF rfl)
    | ((with_reducible apply Framed.sub (G := []) ?_ hF); rfl)
    | with_reducible apply State.jobFault_framed
    | split

theorem State.onCmiWatchdog_framed {F : List Field} {z s1 : State}  (hF : ([.trb, .parts, .ints] : List Field).all (F.contains ·) = true) (hz : Framed true F z s1) : Framed true F z (State.onCmiWatchdog s1) := by
  unfold State.onCmiWatchdog
  try dsimp only
  repeat' first
    | with_reducible assumption
    | (with_reducible apply Or.inr; with_reducible rfl)
    | ((with_reducible apply Or.inl); exact Framed.mem hF rfl)
    | ((with_reducible apply Framed.sub (G := [.trb, .parts, .ints]) ?_ hF); rfl)
    | with_reducible apply State.wideReset_framed
    | with_reducible apply State.trouble_framed
    | split

theorem State.lockPll_framed {rst : Bool} {F : List Field} {z s : State} {mhz : Nat} (hF : ([.clk] : List Field).all (F.contains ·) = true) (hz : Framed rst F z s) : Framed rst F z (State.lockPll s mhz) := by
  unfold State.lockPll
  try dsimp only
  repeat' first
    | with_reducible assumption
    | (with_reducible apply Or.inr; with_reducible rfl)
    | ((with_reducible apply Or.inl); exact Framed.mem hF rfl)
    | ((with_reducible apply Framed.sub (G := [.clk]) ?_ hF); rfl)
    | split
    | (refine Framed.of_mk ?_ (fun h => h) ?_ ?_ ?_ ?_ ?_ ?_ ?_ ?_ ?_ ?_ ?_ ?_ ?_ ?_ ?_ ?_ ?_ ?_ ?_ ?_ ?_ ?_ ?_ ?_ ?_ ?_ ?_ ?_)

theorem State.startClock_framed {rst : Bool} {F : List Field} {z s : State} {pllLocks : Bool} (hF : ([.rs, .trb, .parts, .ints, .clk] : List Field).all (F.contains ·) = true) (hz : Framed rst F z s) : Framed rst F z (State.startClock s pllLocks) := by
  unfold State.startClock
  try dsimp only
  repeat' first
    | with_reducible assumption
    | (with_reducible apply Or.inr; with_reducible rfl)
    | ((with_reducible apply Or.inl); exact Framed.mem hF rfl)
    | ((with_reducible apply Framed.sub (G := [.rs, .trb, .parts, .ints, .clk]) ?_ hF); rfl)
    | with_reducible apply State.lockPll_framed
    | with_reducible apply State.trouble_framed
    | split
    | (refine Framed.of_mk ?_ (fun h => h) ?_ ?_ ?_ ?_ ?_ ?_ ?_ ?_ ?_ ?_ ?_ ?_ ?_ ?_ ?_ ?_ ?_ ?_ ?_ ?_ ?_ ?_ ?_ ?_ ?_ ?_ ?_ ?_)

theorem State.sendAborted_framed {rst : Bool} {F : List Field} {z s : State}  (hF : ([.rs, .cmi, .net, .hrpOut] : List Field).all (F.contains ·) = true) (hz : Framed rst F z s) : Framed rst F z (State.sendAborted s) := by
  unfold State.sendAborted
  try dsimp only
  repeat' first
    | with_reducible assumption
    | (with_reducible apply Or.inr; with_reducible rfl)
    | ((with_reducible apply Or.inl); exact Framed.mem hF rfl)
    | ((with_reducible apply Framed.sub (G := [.rs, .cmi, .net, .hrpOut]) ?_ hF); rfl)
    | with_reducible apply State.client_framed
    | with_reducible apply State.answer_framed
    | split
    | (refine Framed.foldl (fun _ _ _ => ?_) ?_)
    | (refine Framed.of_mk ?_ (fun h => h) ?_ ?_ ?_ ?_ ?_ ?_ ?_ ?_ ?_ ?_ ?_ ?_ ?_ ?_ ?_ ?_ ?_ ?_ ?_ ?_ ?_ ?_ ?_ ?_ ?_ ?_ ?_ ?_)

theorem State.copyAgain_framed {rst : Bool} {F : List Field} {z s : State}  (hF : ([.net] : List Field).all (F.contains ·) = true) (hz : Framed rst F z s) : Framed rst F z (State.copyAgain s) := by
  unfold State.copyAgain
  try dsimp only
  repeat' first
    | with_reducible assumption
    | (with_reducible apply Or.inr; with_reducible rfl)
    | ((with_reducible apply Or.inl); exact Framed.mem hF rfl)
    | ((with_reducible apply Framed.sub (G := [.net]) ?_ hF); rfl)
    | split
    | (refine Framed.of_mk ?_ (fun h => h) ?_ ?_ ?_ ?_ ?_ ?_ ?_ ?_ ?_ ?_ ?_ ?_ ?_ ?_ ?_ ?_ ?_ ?_ ?_ ?_ ?_ ?_ ?_ ?_ ?_ ?_ ?_ ?_)

theorem State.retainedBad_framed {rst : Bool} {F : List Field} {z s : State} {k : Nat} (hF : ([.trb, .parts, .ints] : List Field).all (F.contains ·) = true) (hz : Framed rst F z s) : Framed rst F z (State.retainedBad s k) := by
  unfold State.retainedBad
  try dsimp only
  repeat' first
    | with_reducible assumption
    | (with_reducible apply Or.inr; with_reducible rfl)
    | ((with_reducible apply Or.inl); exact Framed.mem hF rfl)
    | ((with_reducible apply Framed.sub (G := [.trb, .parts, .ints]) ?_ hF); rfl)
    | with_reducible apply State.trouble_framed
    | with_reducible apply State.putRetainedAll_framed
    | with_reducible apply State.putRetained_framed
    | split

theorem State.retainedCheck_framed {rst : Bool} {F : List Field} {z s : State} {f : WordFind} (hF : ([.trb, .parts, .ints] : List Field).all (F.contains ·) = true) (hz : Framed rst F z s) : Framed rst F z (State.retainedCheck s f) := by
  unfold State.retainedCheck
  try dsimp only
  repeat' first
    | with_reducible assumption
    | (with_reducible apply Or.inr; with_reducible rfl)
    | ((with_reducible apply Or.inl); exact Framed.mem hF rfl)
    | ((with_reducible apply Framed.sub (G := [.trb, .parts, .ints]) ?_ hF); rfl)
    | with_reducible apply State.ceRetained_framed
    | with_reducible apply State.retainedBad_framed
    | split

theorem State.checkStore_framed {rst : Bool} {F : List Field} {z s : State} {find : WordFind} (hF : ([.rs, .trb, .parts, .ints, .clk] : List Field).all (F.contains ·) = true) (hz : Framed rst F z s) : Framed rst F z (State.checkStore s find) := by
  unfold State.checkStore
  try dsimp only
  repeat' first
    | with_reducible assumption
    | with_reducible apply State.trouble_framed
    | with_reducible apply State.retainedCheck_framed
    | (with_reducible apply Or.inr; with_reducible rfl)
    | ((with_reducible apply Or.inl); exact Framed.mem hF rfl)
    | ((with_reducible apply Framed.sub (G := [.rs, .trb, .parts, .ints, .clk]) ?_ hF); rfl)
    | split
    | (refine Framed.of_mk ?_ (fun h => h) ?_ ?_ ?_ ?_ ?_ ?_ ?_ ?_ ?_ ?_ ?_ ?_ ?_ ?_ ?_ ?_ ?_ ?_ ?_ ?_ ?_ ?_ ?_ ?_ ?_ ?_ ?_ ?_)

theorem State.beginStart_framed {rst : Bool} {F : List Field} {z s : State} {r : Reach} {pllLocks : Bool} (hF : ([.rs, .trb, .parts, .ints, .tier, .clk] : List Field).all (F.contains ·) = true) (hz : Framed rst F z s) : Framed rst F z (State.beginStart s r pllLocks) := by
  unfold State.beginStart
  try dsimp only
  repeat' first
    | with_reducible assumption
    | (with_reducible apply Or.inr; with_reducible rfl)
    | ((with_reducible apply Or.inl); exact Framed.mem hF rfl)
    | ((with_reducible apply Framed.sub (G := [.rs, .trb, .parts, .ints, .tier, .clk]) ?_ hF); rfl)
    | with_reducible apply State.startClock_framed
    | with_reducible apply State.putRsStat_framed
    | split
    | (refine Framed.of_mk ?_ (fun h => h) ?_ ?_ ?_ ?_ ?_ ?_ ?_ ?_ ?_ ?_ ?_ ?_ ?_ ?_ ?_ ?_ ?_ ?_ ?_ ?_ ?_ ?_ ?_ ?_ ?_ ?_ ?_ ?_)

theorem State.coldStart_framed {rst : Bool} {F : List Field} {z s : State} {forced : Bool} {pllLocks : Bool} (hF : ([.tm, .rs, .trb, .parts, .ints, .img, .tier, .clk] : List Field).all (F.contains ·) = true) (hz : Framed rst F z s) : Framed rst F z (State.coldStart s forced pllLocks) := by
  unfold State.coldStart
  try dsimp only
  repeat' first
    | with_reducible assumption
    | (with_reducible apply Or.inr; with_reducible rfl)
    | ((with_reducible apply Or.inl); exact Framed.mem hF rfl)
    | ((with_reducible apply Framed.sub (G := [.tm, .rs, .trb, .parts, .ints, .img, .tier, .clk]) ?_ hF); rfl)
    | with_reducible apply State.beginStart_framed
    | split
    | (refine Framed.of_mk ?_ (fun h => h) ?_ ?_ ?_ ?_ ?_ ?_ ?_ ?_ ?_ ?_ ?_ ?_ ?_ ?_ ?_ ?_ ?_ ?_ ?_ ?_ ?_ ?_ ?_ ?_ ?_ ?_ ?_ ?_)

theorem State.warmStart_framed {rst : Bool} {F : List Field} {z s : State} {pllLocks : Bool} {find : WordFind} (hF : ([.tm, .rs, .trb, .entries, .ledgers, .parts, .ints, .mem, .img, .com, .bal, .net, .fsp, .tier, .clk, .role, .roleShadow] : List Field).all (F.contains ·) = true) (hz : Framed rst F z s) : Framed rst F z (State.warmStart s pllLocks find) := by
  unfold State.warmStart
  try dsimp only
  repeat' first
    | with_reducible assumption
    | (with_reducible apply Or.inr; with_reducible rfl)
    | ((with_reducible apply Or.inl); exact Framed.mem hF rfl)
    | ((with_reducible apply Framed.sub (G := [.tm, .rs, .trb, .entries, .ledgers, .parts, .ints, .mem, .img, .com, .bal, .net, .fsp, .tier, .clk, .role, .roleShadow]) ?_ hF); rfl)
    | with_reducible apply State.coldStart_framed
    | with_reducible apply State.beginStart_framed
    | split
    | (refine Framed.of_mk ?_ (fun h => h) ?_ ?_ ?_ ?_ ?_ ?_ ?_ ?_ ?_ ?_ ?_ ?_ ?_ ?_ ?_ ?_ ?_ ?_ ?_ ?_ ?_ ?_ ?_ ?_ ?_ ?_ ?_ ?_)

theorem State.releaseRegions_framed {rst : Bool} {F : List Field} {z s : State}  (hF : ([.rs, .cmi, .img, .net, .hrpOut] : List Field).all (F.contains ·) = true) (hz : Framed rst F z s) : Framed rst F z (State.releaseRegions s) := by
  unfold State.releaseRegions
  try dsimp only
  repeat' first
    | with_reducible assumption
    | (with_reducible apply Or.inr; with_reducible rfl)
    | ((with_reducible apply Or.inl); exact Framed.mem hF rfl)
    | ((with_reducible apply Framed.sub (G := [.rs, .cmi, .img, .net, .hrpOut]) ?_ hF); rfl)
    | with_reducible apply State.answer_framed
    | split
    | (refine Framed.foldl (fun _ _ _ => ?_) ?_)
    | (refine Framed.of_mk ?_ (fun h => h) ?_ ?_ ?_ ?_ ?_ ?_ ?_ ?_ ?_ ?_ ?_ ?_ ?_ ?_ ?_ ?_ ?_ ?_ ?_ ?_ ?_ ?_ ?_ ?_ ?_ ?_ ?_ ?_)

theorem State.onRstOutRelease_framed {rst : Bool} {F : List Field} {z s1 : State}  (hF : ([.rs] : List Field).all (F.contains ·) = true) (hz : Framed rst F z s1) : Framed rst F z (State.onRstOutRelease s1) := by
  unfold State.onRstOutRelease
  try dsimp only
  repeat' first
    | with_reducible assumption
    | (with_reducible apply Or.inr; with_reducible rfl)
    | ((with_reducible apply Or.inl); exact Framed.mem hF rfl)
    | ((with_reducible apply Framed.sub (G := [.rs]) ?_ hF); rfl)
    | split
    | (refine Framed.of_mk ?_ (fun h => h) ?_ ?_ ?_ ?_ ?_ ?_ ?_ ?_ ?_ ?_ ?_ ?_ ?_ ?_ ?_ ?_ ?_ ?_ ?_ ?_ ?_ ?_ ?_ ?_ ?_ ?_ ?_ ?_)

theorem State.putTraining_framed {rst : Bool} {F : List Field} {z s : State} {d : Nat} {t : DevTrain} (hF : ([.trb] : List Field).all (F.contains ·) = true) (hz : Framed rst F z s) : Framed rst F z (State.putTraining s d t) := by
  unfold State.putTraining
  try dsimp only
  repeat' first
    | with_reducible assumption
    | (with_reducible apply Or.inr; with_reducible rfl)
    | ((with_reducible apply Or.inl); exact Framed.mem hF rfl)
    | ((with_reducible apply Framed.sub (G := [.trb]) ?_ hF); rfl)
    | with_reducible apply State.putRetainedAll_framed
    | split

theorem State.onTierTrainingDone_framed {rst : Bool} {F : List Field} {z s1 : State} {results : List DevTrain} (hF : ([.rs, .trb, .tier] : List Field).all (F.contains ·) = true) (hz : Framed rst F z s1) : Framed rst F z (State.onTierTrainingDone s1 results) := by
  unfold State.onTierTrainingDone
  try dsimp only
  repeat' first
    | with_reducible assumption
    | (with_reducible apply Or.inr; with_reducible rfl)
    | ((with_reducible apply Or.inl); exact Framed.mem hF rfl)
    | ((with_reducible apply Framed.sub (G := [.rs, .trb, .tier]) ?_ hF); rfl)
    | with_reducible apply State.putTraining_framed
    | split
    | (refine Framed.foldl (fun _ _ _ => ?_) ?_)
    | (refine Framed.of_mk ?_ (fun h => h) ?_ ?_ ?_ ?_ ?_ ?_ ?_ ?_ ?_ ?_ ?_ ?_ ?_ ?_ ?_ ?_ ?_ ?_ ?_ ?_ ?_ ?_ ?_ ?_ ?_ ?_ ?_ ?_)

theorem State.startRegion_framed {rst : Bool} {F : List Field} {z s : State} {i : Issuer} {r : Nat} (hF : ([.rs, .bal, .fsp, .clk] : List Field).all (F.contains ·) = true) (hz : Framed rst F z s) : Framed rst F z (State.startRegion s i r) := by
  unfold State.startRegion
  try dsimp only
  repeat' first
    | with_reducible assumption
    | (with_reducible apply Or.inr; with_reducible rfl)
    | ((with_reducible apply Or.inl); exact Framed.mem hF rfl)
    | ((with_reducible apply Framed.sub (G := [.rs, .bal, .fsp, .clk]) ?_ hF); rfl)
    | with_reducible apply State.setCluster_framed
    | split
    | (refine Framed.foldl (fun _ _ _ => ?_) ?_)
    | (refine Framed.of_mk ?_ (fun h => h) ?_ ?_ ?_ ?_ ?_ ?_ ?_ ?_ ?_ ?_ ?_ ?_ ?_ ?_ ?_ ?_ ?_ ?_ ?_ ?_ ?_ ?_ ?_ ?_ ?_ ?_ ?_ ?_)

theorem State.onRegionReset_framed {rst : Bool} {F : List Field} {z s : State}  (hF : ([.rs, .parts, .ints, .cmi, .bal, .net, .fsp, .clk, .hrpOut] : List Field).all (F.contains ·) = true) (hz : Framed rst F z s) : Framed rst F z (State.onRegionReset s) := by
  unfold State.onRegionReset
  try dsimp only
  repeat' first
    | with_reducible assumption
    | (with_reducible apply Or.inr; with_reducible rfl)
    | ((with_reducible apply Or.inl); exact Framed.mem hF rfl)
    | ((with_reducible apply Framed.sub (G := [.rs, .parts, .ints, .cmi, .bal, .net, .fsp, .clk, .hrpOut]) ?_ hF); rfl)
    | with_reducible apply State.runCmd_framed
    | with_reducible apply State.startRegion_framed
    | with_reducible apply State.answer_framed
    | intro _
    | split

end Sys2Proof.Machine
end

