-- ==== Sys2Proof/Laws/FramedTick.lean ====
section
/-! SUPPORT. The solstice tick: the parts of the state that each operation may change, one lemma for each. -/
namespace Sys2Proof.Machine
set_option Elab.async false

theorem State.deadlineAct_framed {rst : Bool} {F : List Field} {z s : State} {k : Nat} {slot : Nat} (hF : ([.entries, .edge, .home, .slots, .ledgers, .parts, .ints, .cmi, .mem, .img, .net, .fsp, .tier, .hrpOut] : List Field).all (F.contains ·) = true) (hz : Framed rst F z s) : Framed rst F z (State.deadlineAct s k slot) := by
  unfold State.deadlineAct
  try dsimp only
  repeat' first
    | with_reducible assumption
    | (with_reducible apply Or.inr; with_reducible rfl)
    | ((with_reducible apply Or.inl); exact Framed.mem hF rfl)
    | ((with_reducible apply Framed.sub (G := [.entries, .edge, .home, .slots, .ledgers, .parts, .ints, .cmi, .mem, .img, .net, .fsp, .tier, .hrpOut]) ?_ hF); rfl)
    | with_reducible apply State.startClose_framed
    | split

theorem State.sweepSlot_framed {rst : Bool} {F : List Field} {z s : State} {k : Nat} {slot : Nat} (hF : ([.entries, .edge, .home, .slots, .ledgers, .parts, .ints, .cmi, .mem, .img, .net, .fsp, .tier, .hrpOut] : List Field).all (F.contains ·) = true) (hz : Framed rst F z s) : Framed rst F z (State.sweepSlot s k slot) := by
  unfold State.sweepSlot
  try dsimp only
  repeat' first
    | with_reducible assumption
    | (with_reducible apply Or.inr; with_reducible rfl)
    | ((with_reducible apply Or.inl); exact Framed.mem hF rfl)
    | ((with_reducible apply Framed.sub (G := [.entries, .edge, .home, .slots, .ledgers, .parts, .ints, .cmi, .mem, .img, .net, .fsp, .tier, .hrpOut]) ?_ hF); rfl)
    | with_reducible apply State.cancelAll_framed
    | with_reducible apply State.freeCopy_framed
    | split

theorem State.sweep_framed {rst : Bool} {F : List Field} {z s : State} {k : Nat} (hF : ([.entries, .edge, .home, .slots, .ledgers, .parts, .ints, .cmi, .mem, .img, .net, .fsp, .tier, .hrpOut] : List Field).all (F.contains ·) = true) (hz : Framed rst F z s) : Framed rst F z (State.sweep s k) := by
  unfold State.sweep
  try dsimp only
  repeat' first
    | with_reducible assumption
    | (with_reducible apply Or.inr; with_reducible rfl)
    | ((with_reducible apply Or.inl); exact Framed.mem hF rfl)
    | ((with_reducible apply Framed.sub (G := [.entries, .edge, .home, .slots, .ledgers, .parts, .ints, .cmi, .mem, .img, .net, .fsp, .tier, .hrpOut]) ?_ hF); rfl)
    | with_reducible apply State.sweepSlot_framed
    | with_reducible apply State.dirExpire_framed
    | split
    | (refine Framed.foldl (fun _ _ _ => ?_) ?_)

theorem State.cancelledFree_framed {rst : Bool} {F : List Field} {z s : State} {k : Nat} {slot : Nat} (hF : ([.entries, .edge, .home, .slots, .ledgers, .net] : List Field).all (F.contains ·) = true) (hz : Framed rst F z s) : Framed rst F z (State.cancelledFree s k slot) := by
  unfold State.cancelledFree
  try dsimp only
  repeat' first
    | with_reducible assumption
    | (with_reducible apply Or.inr; with_reducible rfl)
    | ((with_reducible apply Or.inl); exact Framed.mem hF rfl)
    | ((with_reducible apply Framed.sub (G := [.entries, .edge, .home, .slots, .ledgers, .net]) ?_ hF); rfl)
    | with_reducible apply State.freeEntry_framed
    | split

theorem State.openTimeout_framed {rst : Bool} {F : List Field} {z s : State} {k : Nat} {slot : Nat} (hF : ([.entries, .edge, .home, .slots, .ledgers, .cmi, .net, .hrpOut] : List Field).all (F.contains ·) = true) (hz : Framed rst F z s) : Framed rst F z (State.openTimeout s k slot) := by
  unfold State.openTimeout
  try dsimp only
  repeat' first
    | with_reducible assumption
    | (with_reducible apply Or.inr; with_reducible rfl)
    | ((with_reducible apply Or.inl); exact Framed.mem hF rfl)
    | ((with_reducible apply Framed.sub (G := [.entries, .edge, .home, .slots, .ledgers, .cmi, .net, .hrpOut]) ?_ hF); rfl)
    | with_reducible apply State.freeEntry_framed
    | with_reducible apply State.endPend_framed
    | split

theorem State.holdForwards_framed {rst : Bool} {F : List Field} {z s : State} {k : Nat} (hF : ([.cmi] : List Field).all (F.contains ·) = true) (hz : Framed rst F z s) : Framed rst F z (State.holdForwards s k) := by
  unfold State.holdForwards
  try dsimp only
  repeat' first
    | with_reducible assumption
    | (with_reducible apply Or.inr; with_reducible rfl)
    | ((with_reducible apply Or.inl); exact Framed.mem hF rfl)
    | ((with_reducible apply Framed.sub (G := [.cmi]) ?_ hF); rfl)
    | split
    | (refine Framed.of_mk ?_ (fun h => h) ?_ ?_ ?_ ?_ ?_ ?_ ?_ ?_ ?_ ?_ ?_ ?_ ?_ ?_ ?_ ?_ ?_ ?_ ?_ ?_ ?_ ?_ ?_ ?_ ?_ ?_ ?_ ?_)

theorem State.forwardTimeouts_framed {rst : Bool} {F : List Field} {z s : State} {k : Nat} (hF : ([.entries, .edge, .ledgers, .parts, .ints, .cmi, .bal, .net, .hrpOut] : List Field).all (F.contains ·) = true) (hz : Framed rst F z s) : Framed rst F z (State.forwardTimeouts s k) := by
  unfold State.forwardTimeouts
  try dsimp only
  repeat' first
    | with_reducible assumption
    | (with_reducible apply Or.inr; with_reducible rfl)
    | ((with_reducible apply Or.inl); exact Framed.mem hF rfl)
    | ((with_reducible apply Framed.sub (G := [.entries, .edge, .ledgers, .parts, .ints, .cmi, .bal, .net, .hrpOut]) ?_ hF); rfl)
    | with_reducible apply State.endForward_framed
    | split
    | (refine Framed.foldl (fun _ _ _ => ?_) ?_)

theorem State.chargeParked_framed {rst : Bool} {F : List Field} {z s : State} {t : Nat} (hF : ([.ledgers, .parts, .ints, .net] : List Field).all (F.contains ·) = true) (hz : Framed rst F z s) : Framed rst F z (State.chargeParked s t) := by
  unfold State.chargeParked
  try dsimp only
  repeat' first
    | with_reducible assumption
    | (with_reducible apply Or.inr; with_reducible rfl)
    | ((with_reducible apply Or.inl); exact Framed.mem hF rfl)
    | ((with_reducible apply Framed.sub (G := [.ledgers, .parts, .ints, .net]) ?_ hF); rfl)
    | with_reducible apply State.setLedger_framed
    | with_reducible apply State.levelSpent_framed
    | split

theorem State.ledgerTick_framed {rst : Bool} {F : List Field} {z s : State}  (hF : ([.ledgers, .parts, .ints, .net] : List Field).all (F.contains ·) = true) (hz : Framed rst F z s) : Framed rst F z (State.ledgerTick s) := by
  unfold State.ledgerTick
  try dsimp only
  repeat' first
    | with_reducible assumption
    | (with_reducible apply Or.inr; with_reducible rfl)
    | ((with_reducible apply Or.inl); exact Framed.mem hF rfl)
    | ((with_reducible apply Framed.sub (G := [.ledgers, .parts, .ints, .net]) ?_ hF); rfl)
    | with_reducible apply State.chargeParked_framed
    | with_reducible apply State.setLedger_framed
    | split
    | (refine Framed.foldl (fun _ _ _ => ?_) ?_)

theorem State.closeReport_framed {rst : Bool} {F : List Field} {z s : State} {k : Nat} (hF : ([.bal, .net] : List Field).all (F.contains ·) = true) (hz : Framed rst F z s) : Framed rst F z (State.closeReport s k) := by
  unfold State.closeReport
  try dsimp only
  repeat' first
    | with_reducible assumption
    | (with_reducible apply Or.inr; with_reducible rfl)
    | ((with_reducible apply Or.inl); exact Framed.mem hF rfl)
    | ((with_reducible apply Framed.sub (G := [.bal, .net]) ?_ hF); rfl)
    | with_reducible apply State.sendTo_framed
    | split
    | (refine Framed.of_mk ?_ (fun h => h) ?_ ?_ ?_ ?_ ?_ ?_ ?_ ?_ ?_ ?_ ?_ ?_ ?_ ?_ ?_ ?_ ?_ ?_ ?_ ?_ ?_ ?_ ?_ ?_ ?_ ?_ ?_ ?_)

theorem State.measureShare_framed {rst : Bool} {F : List Field} {z s : State} {k : Nat} {a2 : Meter} (hF : ([.bal] : List Field).all (F.contains ·) = true) (hz : Framed rst F z s) : Framed rst F z (State.measureShare s k a2) := by
  unfold State.measureShare
  try dsimp only
  repeat' first
    | with_reducible assumption
    | (with_reducible apply Or.inr; with_reducible rfl)
    | ((with_reducible apply Or.inl); exact Framed.mem hF rfl)
    | ((with_reducible apply Framed.sub (G := [.bal]) ?_ hF); rfl)
    | split
    | (refine Framed.foldl (fun _ _ _ => ?_) ?_)
    | (refine Framed.of_mk ?_ (fun h => h) ?_ ?_ ?_ ?_ ?_ ?_ ?_ ?_ ?_ ?_ ?_ ?_ ?_ ?_ ?_ ?_ ?_ ?_ ?_ ?_ ?_ ?_ ?_ ?_ ?_ ?_ ?_ ?_)

theorem State.balanceDecision_framed {rst : Bool} {F : List Field} {z s : State} {k : Nat} {f : Img} (hF : ([.parts, .ints, .cmi, .img, .com, .bal, .net, .hrpOut] : List Field).all (F.contains ·) = true) (hz : Framed rst F z s) : Framed rst F z (State.balanceDecision s k f) := by
  unfold State.balanceDecision
  try dsimp only
  repeat' first
    | with_reducible assumption
    | (with_reducible apply Or.inr; with_reducible rfl)
    | ((with_reducible apply Or.inl); exact Framed.mem hF rfl)
    | ((with_reducible apply Framed.sub (G := [.parts, .ints, .cmi, .img, .com, .bal, .net, .hrpOut]) ?_ hF); rfl)
    | with_reducible apply State.startCommit_framed
    | split
    | (refine Framed.of_mk ?_ (fun h => h) ?_ ?_ ?_ ?_ ?_ ?_ ?_ ?_ ?_ ?_ ?_ ?_ ?_ ?_ ?_ ?_ ?_ ?_ ?_ ?_ ?_ ?_ ?_ ?_ ?_ ?_ ?_ ?_)

theorem State.meterTick_framed {rst : Bool} {F : List Field} {z s : State} {k : Nat} (hF : ([.ledgers, .parts, .ints, .cmi, .img, .com, .bal, .net, .hrpOut] : List Field).all (F.contains ·) = true) (hz : Framed rst F z s) : Framed rst F z (State.meterTick s k) := by
  unfold State.meterTick
  try dsimp only
  repeat' first
    | with_reducible assumption
    | (with_reducible apply Or.inr; with_reducible rfl)
    | ((with_reducible apply Or.inl); exact Framed.mem hF rfl)
    | ((with_reducible apply Framed.sub (G := [.ledgers, .parts, .ints, .cmi, .img, .com, .bal, .net, .hrpOut]) ?_ hF); rfl)
    | with_reducible apply State.closeReport_framed
    | with_reducible apply State.ledgerTick_framed
    | with_reducible apply State.balanceDecision_framed
    | with_reducible apply State.measureShare_framed
    | split

theorem State.capacityTick_framed {rst : Bool} {F : List Field} {z s : State}  (hF : ([.trb, .parts, .ints, .bal, .clk] : List Field).all (F.contains ·) = true) (hz : Framed rst F z s) : Framed rst F z (State.capacityTick s) := by
  unfold State.capacityTick
  try dsimp only
  repeat' first
    | with_reducible assumption
    | (with_reducible apply Or.inr; with_reducible rfl)
    | ((with_reducible apply Or.inl); exact Framed.mem hF rfl)
    | ((with_reducible apply Framed.sub (G := [.trb, .parts, .ints, .bal, .clk]) ?_ hF); rfl)
    | with_reducible apply State.recompute_framed
    | with_reducible apply State.wakeReq_framed
    | split
    | (refine Framed.foldl (fun _ _ _ => ?_) ?_)

theorem State.vectorTick_framed {rst : Bool} {F : List Field} {z s : State}  (hF : ([.parts, .ints] : List Field).all (F.contains ·) = true) (hz : Framed rst F z s) : Framed rst F z (State.vectorTick s) := by
  unfold State.vectorTick
  try dsimp only
  repeat' first
    | with_reducible assumption
    | (with_reducible apply Or.inr; with_reducible rfl)
    | ((with_reducible apply Or.inl); exact Framed.mem hF rfl)
    | ((with_reducible apply Framed.sub (G := [.parts, .ints]) ?_ hF); rfl)
    | with_reducible apply State.raise_framed
    | split
    | (refine Framed.foldl (fun _ _ _ => ?_) ?_)

theorem State.sampleTick_framed {rst : Bool} {F : List Field} {z s : State}  (hF : ([.tm, .trb, .parts, .ints, .bal, .clk] : List Field).all (F.contains ·) = true) (hz : Framed rst F z s) : Framed rst F z (State.sampleTick s) := by
  unfold State.sampleTick
  try dsimp only
  repeat' first
    | with_reducible assumption
    | (with_reducible apply Or.inr; with_reducible rfl)
    | ((with_reducible apply Or.inl); exact Framed.mem hF rfl)
    | ((with_reducible apply Framed.sub (G := [.tm, .trb, .parts, .ints, .bal, .clk]) ?_ hF); rfl)
    | with_reducible apply State.sampleTime_framed
    | with_reducible apply State.floorWatch_framed
    | split
    | (refine Framed.of_mk ?_ (fun h => h) ?_ ?_ ?_ ?_ ?_ ?_ ?_ ?_ ?_ ?_ ?_ ?_ ?_ ?_ ?_ ?_ ?_ ?_ ?_ ?_ ?_ ?_ ?_ ?_ ?_ ?_ ?_ ?_)

theorem State.fclkTick_framed {rst : Bool} {F : List Field} {z s : State} {k : Nat} {edges : Option Nat} (hF : ([.fsp] : List Field).all (F.contains ·) = true) (hz : Framed rst F z s) : Framed rst F z (State.fclkTick s k edges) := by
  unfold State.fclkTick
  try dsimp only
  repeat' first
    | with_reducible assumption
    | (with_reducible apply Or.inr; with_reducible rfl)
    | ((with_reducible apply Or.inl); exact Framed.mem hF rfl)
    | ((with_reducible apply Framed.sub (G := [.fsp]) ?_ hF); rfl)
    | split
    | (refine Framed.of_mk ?_ (fun h => h) ?_ ?_ ?_ ?_ ?_ ?_ ?_ ?_ ?_ ?_ ?_ ?_ ?_ ?_ ?_ ?_ ?_ ?_ ?_ ?_ ?_ ?_ ?_ ?_ ?_ ?_ ?_ ?_)

theorem State.lasting_framed {rst : Bool} {F : List Field} {z s : State}  (hF : ([.trb] : List Field).all (F.contains ·) = true) (hz : Framed rst F z s) : Framed rst F z (State.lasting s) := by
  unfold State.lasting
  try dsimp only
  repeat' first
    | with_reducible assumption
    | (with_reducible apply Or.inr; with_reducible rfl)
    | ((with_reducible apply Or.inl); exact Framed.mem hF rfl)
    | ((with_reducible apply Framed.sub (G := [.trb]) ?_ hF); rfl)
    | with_reducible apply State.setSticky_framed
    | split

theorem State.silentTick_framed {rst : Bool} {F : List Field} {z s : State}  (hF : ([.tm, .bal] : List Field).all (F.contains ·) = true) (hz : Framed rst F z s) : Framed rst F z (State.silentTick s) := by
  unfold State.silentTick
  try dsimp only
  repeat' first
    | with_reducible assumption
    | (with_reducible apply Or.inr; with_reducible rfl)
    | ((with_reducible apply Or.inl); exact Framed.mem hF rfl)
    | ((with_reducible apply Framed.sub (G := [.tm, .bal]) ?_ hF); rfl)
    | with_reducible apply State.takeover_framed
    | split
    | (refine Framed.of_mk ?_ (fun h => h) ?_ ?_ ?_ ?_ ?_ ?_ ?_ ?_ ?_ ?_ ?_ ?_ ?_ ?_ ?_ ?_ ?_ ?_ ?_ ?_ ?_ ?_ ?_ ?_ ?_ ?_ ?_ ?_)

theorem State.tickOrders_framed {rst : Bool} {F : List Field} {z s : State} {k : Nat} (hF : ([.rs, .trb, .entries, .edge, .home, .slots, .ledgers, .parts, .ints, .cmi, .mem, .hdl, .img, .com, .bal, .net, .fsp, .tier, .clk, .role, .hrpOut] : List Field).all (F.contains ·) = true) (hz : Framed rst F z s) : Framed rst F z (State.tickOrders s k) := by
  unfold State.tickOrders
  try dsimp only
  repeat' first
    | with_reducible assumption
    | (with_reducible apply Or.inr; with_reducible rfl)
    | ((with_reducible apply Or.inl); exact Framed.mem hF rfl)
    | ((with_reducible apply Framed.sub (G := [.rs, .trb, .entries, .edge, .home, .slots, .ledgers, .parts, .ints, .cmi, .mem, .hdl, .img, .com, .bal, .net, .fsp, .tier, .clk, .role, .hrpOut]) ?_ hF); rfl)
    | with_reducible apply State.takeEffect_framed
    | with_reducible apply State.holdForwards_framed
    | with_reducible apply State.deadlineAct_framed
    | with_reducible apply State.sweep_framed
    | with_reducible apply State.openTimeout_framed
    | with_reducible apply State.cancelledFree_framed
    | with_reducible apply State.vectorTick_framed
    | with_reducible apply State.capacityTick_framed
    | with_reducible apply State.meterTick_framed
    | with_reducible apply State.forwardTimeouts_framed
    | split
    | (refine Framed.foldl (fun _ _ _ => ?_) ?_)

theorem State.onDeadlineReached_framed {rst : Bool} {F : List Field} {z s1 : State} {slot : Nat} (hF : ([.entries, .edge, .home, .slots, .ledgers, .parts, .ints, .cmi, .mem, .img, .net, .fsp, .tier, .hrpOut] : List Field).all (F.contains ·) = true) (hz : Framed rst F z s1) : Framed rst F z (State.onDeadlineReached s1 slot) := by
  unfold State.onDeadlineReached
  try dsimp only
  repeat' first
    | with_reducible assumption
    | (with_reducible apply Or.inr; with_reducible rfl)
    | ((with_reducible apply Or.inl); exact Framed.mem hF rfl)
    | ((with_reducible apply Framed.sub (G := [.entries, .edge, .home, .slots, .ledgers, .parts, .ints, .cmi, .mem, .img, .net, .fsp, .tier, .hrpOut]) ?_ hF); rfl)
    | with_reducible apply State.deadlineAct_framed
    | split

theorem State.onTtlExpiry_framed {rst : Bool} {F : List Field} {z s1 : State}  (hF : ([.entries, .edge, .home, .slots, .ledgers, .parts, .ints, .cmi, .mem, .img, .net, .fsp, .tier, .hrpOut] : List Field).all (F.contains ·) = true) (hz : Framed rst F z s1) : Framed rst F z (State.onTtlExpiry s1) := by
  unfold State.onTtlExpiry
  try dsimp only
  repeat' first
    | with_reducible assumption
    | (with_reducible apply Or.inr; with_reducible rfl)
    | ((with_reducible apply Or.inl); exact Framed.mem hF rfl)
    | ((with_reducible apply Framed.sub (G := [.entries, .edge, .home, .slots, .ledgers, .parts, .ints, .cmi, .mem, .img, .net, .fsp, .tier, .hrpOut]) ?_ hF); rfl)
    | with_reducible apply State.sweep_framed
    | split

theorem State.onCancelledFree_framed {rst : Bool} {F : List Field} {z s1 : State} {slot : Nat} (hF : ([.entries, .edge, .home, .slots, .ledgers, .net] : List Field).all (F.contains ·) = true) (hz : Framed rst F z s1) : Framed rst F z (State.onCancelledFree s1 slot) := by
  unfold State.onCancelledFree
  try dsimp only
  repeat' first
    | with_reducible assumption
    | (with_reducible apply Or.inr; with_reducible rfl)
    | ((with_reducible apply Or.inl); exact Framed.mem hF rfl)
    | ((with_reducible apply Framed.sub (G := [.entries, .edge, .home, .slots, .ledgers, .net]) ?_ hF); rfl)
    | with_reducible apply State.cancelledFree_framed
    | split

theorem State.onOpenTimeout_framed {rst : Bool} {F : List Field} {z s1 : State} {slot : Nat} (hF : ([.entries, .edge, .home, .slots, .ledgers, .cmi, .net, .hrpOut] : List Field).all (F.contains ·) = true) (hz : Framed rst F z s1) : Framed rst F z (State.onOpenTimeout s1 slot) := by
  unfold State.onOpenTimeout
  try dsimp only
  repeat' first
    | with_reducible assumption
    | (with_reducible apply Or.inr; with_reducible rfl)
    | ((with_reducible apply Or.inl); exact Framed.mem hF rfl)
    | ((with_reducible apply Framed.sub (G := [.entries, .edge, .home, .slots, .ledgers, .cmi, .net, .hrpOut]) ?_ hF); rfl)
    | with_reducible apply State.openTimeout_framed
    | split

theorem State.onForwardTimeout_framed {rst : Bool} {F : List Field} {z s1 : State}  (hF : ([.entries, .edge, .ledgers, .parts, .ints, .cmi, .bal, .net, .hrpOut] : List Field).all (F.contains ·) = true) (hz : Framed rst F z s1) : Framed rst F z (State.onForwardTimeout s1) := by
  unfold State.onForwardTimeout
  try dsimp only
  repeat' first
    | with_reducible assumption
    | (with_reducible apply Or.inr; with_reducible rfl)
    | ((with_reducible apply Or.inl); exact Framed.mem hF rfl)
    | ((with_reducible apply Framed.sub (G := [.entries, .edge, .ledgers, .parts, .ints, .cmi, .bal, .net, .hrpOut]) ?_ hF); rfl)
    | with_reducible apply State.forwardTimeouts_framed
    | split

theorem State.onCommitTakeEffect_framed {F : List Field} {z s1 : State}  (hF : ([.tm, .rs, .trb, .entries, .edge, .home, .slots, .ledgers, .parts, .ints, .cmi, .mem, .hdl, .img, .com, .bal, .net, .fsp, .tier, .clk, .role, .hrpOut] : List Field).all (F.contains ·) = true) (hz : Framed true F z s1) : Framed true F z (State.onCommitTakeEffect s1) := by
  unfold State.onCommitTakeEffect
  try dsimp only
  repeat' first
    | with_reducible assumption
    | (with_reducible apply Or.inr; with_reducible rfl)
    | ((with_reducible apply Or.inl); exact Framed.mem hF rfl)
    | ((with_reducible apply Framed.sub (G := [.tm, .rs, .trb, .entries, .edge, .home, .slots, .ledgers, .parts, .ints, .cmi, .mem, .hdl, .img, .com, .bal, .net, .fsp, .tier, .clk, .role, .hrpOut]) ?_ hF); rfl)
    | with_reducible apply State.releaseHeld_framed
    | with_reducible apply State.takeEffect_framed
    | split

end Sys2Proof.Machine
end

