-- ==== Sys2Proof/Laws/FramedElapse.lean ====
section
/-! SUPPORT. The time before a command: the parts of the state that each operation may change, one lemma for each. -/
namespace Sys2Proof.Machine
set_option Elab.async false

theorem State.between_framed {rst : Bool} {F : List Field} {z s : State}  (hF : ([.rs, .entries, .home, .slots, .parts, .ints, .cmi, .com, .net, .clk, .hrpOut] : List Field).all (F.contains ·) = true) (hz : Framed rst F z s) : Framed rst F z (State.between s) := by
  unfold State.between
  try dsimp only
  repeat' first
    | with_reducible assumption
    | (with_reducible apply Or.inr; with_reducible rfl)
    | ((with_reducible apply Or.inl); exact Framed.mem hF rfl)
    | ((with_reducible apply Framed.sub (G := [.rs, .entries, .home, .slots, .parts, .ints, .cmi, .com, .net, .clk, .hrpOut]) ?_ hF); rfl)
    | with_reducible apply State.sendAborted_framed
    | with_reducible apply State.clearParts_framed
    | with_reducible apply State.sendGo_framed
    | with_reducible apply State.runClusters_framed
    | with_reducible apply State.consumeRings_framed
    | split

theorem State.meet_framed {F : List Field} {z s : State} {f : StoreFind} (hF : ([.trb, .entries, .edge, .home, .slots, .ledgers, .parts, .ints, .cmi, .mem, .img, .net, .fsp, .tier, .hrpOut] : List Field).all (F.contains ·) = true) (hz : Framed true F z s) : Framed true F z (State.meet s f) := by
  unfold State.meet
  try dsimp only
  repeat' first
    | with_reducible assumption
    | (with_reducible apply Or.inr; with_reducible rfl)
    | ((with_reducible apply Or.inl); exact Framed.mem hF rfl)
    | ((with_reducible apply Framed.sub (G := [.trb, .entries, .edge, .home, .slots, .ledgers, .parts, .ints, .cmi, .mem, .img, .net, .fsp, .tier, .hrpOut]) ?_ hF); rfl)
    | with_reducible apply State.retainedCheck_framed
    | with_reducible apply State.scrubRowAt_framed
    | with_reducible apply State.entryCheck_framed
    | with_reducible apply State.ledgerCheck_framed
    | with_reducible apply State.heldCheck_framed
    | with_reducible apply State.ceUnit_framed
    | with_reducible apply State.jobFault_framed
    | with_reducible apply State.fifoCheck_framed
    | with_reducible apply State.ceRelq_framed
    | with_reducible apply State.scrubPage_framed
    | with_reducible apply State.setDev_framed
    | split

theorem State.meetAll_framed {F : List Field} {z s : State} {fs : List StoreFind} (hF : ([.trb, .entries, .edge, .home, .slots, .ledgers, .parts, .ints, .cmi, .mem, .img, .net, .fsp, .tier, .hrpOut] : List Field).all (F.contains ·) = true) (hz : Framed true F z s) : Framed true F z (State.meetAll s fs) := by
  unfold State.meetAll
  try dsimp only
  repeat' first
    | with_reducible assumption
    | (with_reducible apply Or.inr; with_reducible rfl)
    | ((with_reducible apply Or.inl); exact Framed.mem hF rfl)
    | ((with_reducible apply Framed.sub (G := [.trb, .entries, .edge, .home, .slots, .ledgers, .parts, .ints, .cmi, .mem, .img, .net, .fsp, .tier, .hrpOut]) ?_ hF); rfl)
    | with_reducible apply State.meet_framed
    | split
    | (refine Framed.foldl (fun _ _ _ => ?_) ?_)

end Sys2Proof.Machine
end

