-- ==== Sys2Proof/Laws/FramedRegisters.lean ====
section
/-! SUPPORT. The registers: the parts of the state that each operation may change, one lemma for each. -/
namespace Sys2Proof.Machine
set_option Elab.async false

theorem State.countDenied_framed {rst : Bool} {F : List Field} {z s : State}  (hF : ([.denied] : List Field).all (F.contains ·) = true) (hz : Framed rst F z s) : Framed rst F z (State.countDenied s) := by
  unfold State.countDenied
  try dsimp only
  repeat' first
    | with_reducible assumption
    | (with_reducible apply Or.inr; with_reducible rfl)
    | ((with_reducible apply Or.inl); exact Framed.mem hF rfl)
    | ((with_reducible apply Framed.sub (G := [.denied]) ?_ hF); rfl)
    | split
    | (refine Framed.of_mk ?_ (fun h => h) ?_ ?_ ?_ ?_ ?_ ?_ ?_ ?_ ?_ ?_ ?_ ?_ ?_ ?_ ?_ ?_ ?_ ?_ ?_ ?_ ?_ ?_ ?_ ?_ ?_ ?_ ?_ ?_)

theorem State.countMisformed_framed {rst : Bool} {F : List Field} {z s : State}  (hF : ([.misformed] : List Field).all (F.contains ·) = true) (hz : Framed rst F z s) : Framed rst F z (State.countMisformed s) := by
  unfold State.countMisformed
  try dsimp only
  repeat' first
    | with_reducible assumption
    | (with_reducible apply Or.inr; with_reducible rfl)
    | ((with_reducible apply Or.inl); exact Framed.mem hF rfl)
    | ((with_reducible apply Framed.sub (G := [.misformed]) ?_ hF); rfl)
    | split
    | (refine Framed.of_mk ?_ (fun h => h) ?_ ?_ ?_ ?_ ?_ ?_ ?_ ?_ ?_ ?_ ?_ ?_ ?_ ?_ ?_ ?_ ?_ ?_ ?_ ?_ ?_ ?_ ?_ ?_ ?_ ?_ ?_ ?_)

theorem State.countBlocked_framed {rst : Bool} {F : List Field} {z s : State}  (hF : ([.blocked] : List Field).all (F.contains ·) = true) (hz : Framed rst F z s) : Framed rst F z (State.countBlocked s) := by
  unfold State.countBlocked
  try dsimp only
  repeat' first
    | with_reducible assumption
    | (with_reducible apply Or.inr; with_reducible rfl)
    | ((with_reducible apply Or.inl); exact Framed.mem hF rfl)
    | ((with_reducible apply Framed.sub (G := [.blocked]) ?_ hF); rfl)
    | split
    | (refine Framed.of_mk ?_ (fun h => h) ?_ ?_ ?_ ?_ ?_ ?_ ?_ ?_ ?_ ?_ ?_ ?_ ?_ ?_ ?_ ?_ ?_ ?_ ?_ ?_ ?_ ?_ ?_ ?_ ?_ ?_ ?_ ?_)

theorem State.regReply_framed {rst : Bool} {F : List Field} {z s : State} {b : RegBeat} {v : Word} (hF : ([.hrpOut] : List Field).all (F.contains ·) = true) (hz : Framed rst F z s) : Framed rst F z (State.regReply s b v) := by
  unfold State.regReply
  try dsimp only
  repeat' first
    | with_reducible assumption
    | (with_reducible apply Or.inr; with_reducible rfl)
    | ((with_reducible apply Or.inl); exact Framed.mem hF rfl)
    | ((with_reducible apply Framed.sub (G := [.hrpOut]) ?_ hF); rfl)
    | with_reducible apply State.putOut_framed
    | split

theorem State.setFifo_framed {rst : Bool} {F : List Field} {z s : State} {k : Nat} {f : SlotFifo} (hF : ([.fsp] : List Field).all (F.contains ·) = true) (hz : Framed rst F z s) : Framed rst F z (State.setFifo s k f) := by
  unfold State.setFifo
  try dsimp only
  repeat' first
    | with_reducible assumption
    | (with_reducible apply Or.inr; with_reducible rfl)
    | ((with_reducible apply Or.inl); exact Framed.mem hF rfl)
    | ((with_reducible apply Framed.sub (G := [.fsp]) ?_ hF); rfl)
    | with_reducible apply State.setLane_framed
    | split

theorem State.writeRing_framed {rst : Bool} {F : List Field} {z s : State} {v : Word} (hF : ([.net, .clk, .blocked] : List Field).all (F.contains ·) = true) (hz : Framed rst F z s) : Framed rst F z (State.writeRing s v) := by
  unfold State.writeRing
  try dsimp only
  repeat' first
    | with_reducible assumption
    | (with_reducible apply Or.inr; with_reducible rfl)
    | ((with_reducible apply Or.inl); exact Framed.mem hF rfl)
    | ((with_reducible apply Framed.sub (G := [.net, .clk, .blocked]) ?_ hF); rfl)
    | with_reducible apply State.countBlocked_framed
    | split
    | (refine Framed.of_mk ?_ (fun h => h) ?_ ?_ ?_ ?_ ?_ ?_ ?_ ?_ ?_ ?_ ?_ ?_ ?_ ?_ ?_ ?_ ?_ ?_ ?_ ?_ ?_ ?_ ?_ ?_ ?_ ?_ ?_ ?_)

theorem State.writeReg_framed {rst : Bool} {F : List Field} {z s : State} {r : Reg} {v : Word} (hF : ([.tm, .rs, .trb, .bal, .net, .fsp, .clk, .roleShadow, .denied, .misformed, .blocked] : List Field).all (F.contains ·) = true) (hz : Framed rst F z s) : Framed rst F z (State.writeReg s r v) := by
  unfold State.writeReg
  try dsimp only
  repeat' first
    | with_reducible assumption
    | (with_reducible apply Or.inr; with_reducible rfl)
    | ((with_reducible apply Or.inl); exact Framed.mem hF rfl)
    | ((with_reducible apply Framed.sub (G := [.tm, .rs, .trb, .bal, .net, .fsp, .clk, .roleShadow, .denied, .misformed, .blocked]) ?_ hF); rfl)
    | with_reducible apply State.countBlocked_framed
    | with_reducible apply State.clearSticky_framed
    | with_reducible apply State.setFifo_framed
    | with_reducible apply State.setLane_framed
    | with_reducible apply State.writeRing_framed
    | split
    | (refine Framed.of_mk ?_ (fun h => h) ?_ ?_ ?_ ?_ ?_ ?_ ?_ ?_ ?_ ?_ ?_ ?_ ?_ ?_ ?_ ?_ ?_ ?_ ?_ ?_ ?_ ?_ ?_ ?_ ?_ ?_ ?_ ?_)

theorem State.writeMgmt_framed {rst : Bool} {F : List Field} {z s : State} {a : Nat} {v : Word} (hF : ([.tm, .rs, .trb, .parts, .ints, .bal, .net, .fsp, .clk, .roleShadow, .denied, .misformed, .blocked] : List Field).all (F.contains ·) = true) (hz : Framed rst F z s) : Framed rst F z (State.writeMgmt s a v) := by
  unfold State.writeMgmt
  try dsimp only
  repeat' first
    | with_reducible assumption
    | (with_reducible apply Or.inr; with_reducible rfl)
    | ((with_reducible apply Or.inl); exact Framed.mem hF rfl)
    | ((with_reducible apply Framed.sub (G := [.tm, .rs, .trb, .parts, .ints, .bal, .net, .fsp, .clk, .roleShadow, .denied, .misformed, .blocked]) ?_ hF); rfl)
    | with_reducible apply State.regReserved_framed
    | with_reducible apply State.writeReg_framed
    | split

theorem State.writeInt_framed {rst : Bool} {F : List Field} {z s : State} {p : Nat} {v : Word} (hF : ([.parts, .ints] : List Field).all (F.contains ·) = true) (hz : Framed rst F z s) : Framed rst F z (State.writeInt s p v) := by
  unfold State.writeInt
  try dsimp only
  repeat' first
    | with_reducible assumption
    | (with_reducible apply Or.inr; with_reducible rfl)
    | ((with_reducible apply Or.inl); exact Framed.mem hF rfl)
    | ((with_reducible apply Framed.sub (G := [.parts, .ints]) ?_ hF); rfl)
    | with_reducible apply State.setIntEn_framed
    | with_reducible apply State.clearPend_framed
    | split

theorem State.writePReg_framed {rst : Bool} {F : List Field} {z s : State} {p : Nat} {r : PReg} {v : Word} (hF : ([.parts, .ints, .blocked] : List Field).all (F.contains ·) = true) (hz : Framed rst F z s) : Framed rst F z (State.writePReg s p r v) := by
  unfold State.writePReg
  try dsimp only
  repeat' first
    | with_reducible assumption
    | (with_reducible apply Or.inr; with_reducible rfl)
    | ((with_reducible apply Or.inl); exact Framed.mem hF rfl)
    | ((with_reducible apply Framed.sub (G := [.parts, .ints, .blocked]) ?_ hF); rfl)
    | with_reducible apply State.setPart_framed
    | with_reducible apply State.writeInt_framed
    | with_reducible apply State.countBlocked_framed
    | with_reducible apply State.winStart_framed
    | split

theorem State.writePart_framed {rst : Bool} {F : List Field} {z s : State} {p : Nat} {a : Nat} {v : Word} (hF : ([.trb, .parts, .ints, .blocked] : List Field).all (F.contains ·) = true) (hz : Framed rst F z s) : Framed rst F z (State.writePart s p a v) := by
  unfold State.writePart
  try dsimp only
  repeat' first
    | with_reducible assumption
    | (with_reducible apply Or.inr; with_reducible rfl)
    | ((with_reducible apply Or.inl); exact Framed.mem hF rfl)
    | ((with_reducible apply Framed.sub (G := [.trb, .parts, .ints, .blocked]) ?_ hF); rfl)
    | with_reducible apply State.regReserved_framed
    | with_reducible apply State.writePReg_framed
    | split

theorem State.bkupCheck_framed {rst : Bool} {F : List Field} {z s : State} {a : Nat} {f : Find} (hF : ([.tm, .rs, .trb, .parts, .ints, .bal, .net, .fsp, .clk, .roleShadow, .denied, .misformed, .blocked] : List Field).all (F.contains ·) = true) (hz : Framed rst F z s) : Framed rst F z (State.bkupCheck s a f) := by
  unfold State.bkupCheck
  try dsimp only
  repeat' first
    | with_reducible assumption
    | (with_reducible apply Or.inr; with_reducible rfl)
    | ((with_reducible apply Or.inl); exact Framed.mem hF rfl)
    | ((with_reducible apply Framed.sub (G := [.tm, .rs, .trb, .parts, .ints, .bal, .net, .fsp, .clk, .roleShadow, .denied, .misformed, .blocked]) ?_ hF); rfl)
    | with_reducible apply State.ceRetained_framed
    | with_reducible apply State.writeReg_framed
    | with_reducible apply State.trouble_framed
    | split

theorem State.accessReg_framed {rst : Bool} {F : List Field} {z s : State} {b : RegBeat} (hF : ([.tm, .rs, .trb, .parts, .ints, .bal, .net, .fsp, .clk, .roleShadow, .denied, .misformed, .blocked, .hrpOut] : List Field).all (F.contains ·) = true) (hz : Framed rst F z s) : Framed rst F z (State.accessReg s b) := by
  unfold State.accessReg
  try dsimp only
  repeat' first
    | with_reducible assumption
    | (with_reducible apply Or.inr; with_reducible rfl)
    | ((with_reducible apply Or.inl); exact Framed.mem hF rfl)
    | ((with_reducible apply Framed.sub (G := [.tm, .rs, .trb, .parts, .ints, .bal, .net, .fsp, .clk, .roleShadow, .denied, .misformed, .blocked, .hrpOut]) ?_ hF); rfl)
    | with_reducible apply State.writeMgmt_framed
    | with_reducible apply State.bkupCheck_framed
    | with_reducible apply State.regReply_framed
    | with_reducible apply State.writePart_framed
    | split
    | (refine Framed.of_mk ?_ (fun h => h) ?_ ?_ ?_ ?_ ?_ ?_ ?_ ?_ ?_ ?_ ?_ ?_ ?_ ?_ ?_ ?_ ?_ ?_ ?_ ?_ ?_ ?_ ?_ ?_ ?_ ?_ ?_ ?_)

theorem State.regAccess_framed {rst : Bool} {F : List Field} {z s : State} {b : RegBeat} (hF : ([.tm, .rs, .trb, .parts, .ints, .bal, .net, .fsp, .clk, .roleShadow, .denied, .misformed, .blocked, .hrpOut] : List Field).all (F.contains ·) = true) (hz : Framed rst F z s) : Framed rst F z (State.regAccess s b) := by
  unfold State.regAccess
  try dsimp only
  repeat' first
    | with_reducible assumption
    | (with_reducible apply Or.inr; with_reducible rfl)
    | ((with_reducible apply Or.inl); exact Framed.mem hF rfl)
    | ((with_reducible apply Framed.sub (G := [.tm, .rs, .trb, .parts, .ints, .bal, .net, .fsp, .clk, .roleShadow, .denied, .misformed, .blocked, .hrpOut]) ?_ hF); rfl)
    | with_reducible apply State.countMisformed_framed
    | with_reducible apply State.regReply_framed
    | with_reducible apply State.countDenied_framed
    | with_reducible apply State.accessReg_framed
    | split

theorem State.rowAccess_framed {rst : Bool} {F : List Field} {z s : State} {r : RegRow} {b : RegBeat} (hF : ([.tm, .rs, .trb, .parts, .ints, .bal, .net, .fsp, .clk, .roleShadow, .denied, .misformed, .blocked, .hrpOut] : List Field).all (F.contains ·) = true) (hz : Framed rst F z s) : Framed rst F z (State.rowAccess s r b) := by
  unfold State.rowAccess
  try dsimp only
  repeat' first
    | with_reducible assumption
    | (with_reducible apply Or.inr; with_reducible rfl)
    | ((with_reducible apply Or.inl); exact Framed.mem hF rfl)
    | ((with_reducible apply Framed.sub (G := [.tm, .rs, .trb, .parts, .ints, .bal, .net, .fsp, .clk, .roleShadow, .denied, .misformed, .blocked, .hrpOut]) ?_ hF); rfl)
    | with_reducible apply State.regAccess_framed
    | split

theorem State.onRegisterWrite_framed {rst : Bool} {F : List Field} {z s : State} {beat : RegBeat} (hF : ([.tm, .rs, .trb, .parts, .ints, .bal, .net, .fsp, .clk, .roleShadow, .denied, .misformed, .blocked, .hrpOut] : List Field).all (F.contains ·) = true) (hz : Framed rst F z s) : Framed rst F z (State.onRegisterWrite s beat) := by
  unfold State.onRegisterWrite
  try dsimp only
  repeat' first
    | with_reducible assumption
    | (with_reducible apply Or.inr; with_reducible rfl)
    | ((with_reducible apply Or.inl); exact Framed.mem hF rfl)
    | ((with_reducible apply Framed.sub (G := [.tm, .rs, .trb, .parts, .ints, .bal, .net, .fsp, .clk, .roleShadow, .denied, .misformed, .blocked, .hrpOut]) ?_ hF); rfl)
    | with_reducible apply State.rowAccess_framed
    | split

theorem State.onTmNowRead_framed {rst : Bool} {F : List Field} {z s : State} {beat : RegBeat} (hF : ([.tm, .rs, .trb, .parts, .ints, .bal, .net, .fsp, .clk, .roleShadow, .denied, .misformed, .blocked, .hrpOut] : List Field).all (F.contains ·) = true) (hz : Framed rst F z s) : Framed rst F z (State.onTmNowRead s beat) := by
  unfold State.onTmNowRead
  try dsimp only
  repeat' first
    | with_reducible assumption
    | (with_reducible apply Or.inr; with_reducible rfl)
    | ((with_reducible apply Or.inl); exact Framed.mem hF rfl)
    | ((with_reducible apply Framed.sub (G := [.tm, .rs, .trb, .parts, .ints, .bal, .net, .fsp, .clk, .roleShadow, .denied, .misformed, .blocked, .hrpOut]) ?_ hF); rfl)
    | with_reducible apply State.rowAccess_framed
    | split

theorem State.onPtSsmRead_framed {rst : Bool} {F : List Field} {z s : State} {beat : RegBeat} (hF : ([.tm, .rs, .trb, .parts, .ints, .bal, .net, .fsp, .clk, .roleShadow, .denied, .misformed, .blocked, .hrpOut] : List Field).all (F.contains ·) = true) (hz : Framed rst F z s) : Framed rst F z (State.onPtSsmRead s beat) := by
  unfold State.onPtSsmRead
  try dsimp only
  repeat' first
    | with_reducible assumption
    | (with_reducible apply Or.inr; with_reducible rfl)
    | ((with_reducible apply Or.inl); exact Framed.mem hF rfl)
    | ((with_reducible apply Framed.sub (G := [.tm, .rs, .trb, .parts, .ints, .bal, .net, .fsp, .clk, .roleShadow, .denied, .misformed, .blocked, .hrpOut]) ?_ hF); rfl)
    | with_reducible apply State.rowAccess_framed
    | split

theorem State.onPtSsmWrite_framed {rst : Bool} {F : List Field} {z s : State} {beat : RegBeat} (hF : ([.tm, .rs, .trb, .parts, .ints, .bal, .net, .fsp, .clk, .roleShadow, .denied, .misformed, .blocked, .hrpOut] : List Field).all (F.contains ·) = true) (hz : Framed rst F z s) : Framed rst F z (State.onPtSsmWrite s beat) := by
  unfold State.onPtSsmWrite
  try dsimp only
  repeat' first
    | with_reducible assumption
    | (with_reducible apply Or.inr; with_reducible rfl)
    | ((with_reducible apply Or.inl); exact Framed.mem hF rfl)
    | ((with_reducible apply Framed.sub (G := [.tm, .rs, .trb, .parts, .ints, .bal, .net, .fsp, .clk, .roleShadow, .denied, .misformed, .blocked, .hrpOut]) ?_ hF); rfl)
    | with_reducible apply State.rowAccess_framed
    | split

theorem State.onPtIntWrite_framed {rst : Bool} {F : List Field} {z s : State} {beat : RegBeat} (hF : ([.tm, .rs, .trb, .parts, .ints, .bal, .net, .fsp, .clk, .roleShadow, .denied, .misformed, .blocked, .hrpOut] : List Field).all (F.contains ·) = true) (hz : Framed rst F z s) : Framed rst F z (State.onPtIntWrite s beat) := by
  unfold State.onPtIntWrite
  try dsimp only
  repeat' first
    | with_reducible assumption
    | (with_reducible apply Or.inr; with_reducible rfl)
    | ((with_reducible apply Or.inl); exact Framed.mem hF rfl)
    | ((with_reducible apply Framed.sub (G := [.tm, .rs, .trb, .parts, .ints, .bal, .net, .fsp, .clk, .roleShadow, .denied, .misformed, .blocked, .hrpOut]) ?_ hF); rfl)
    | with_reducible apply State.rowAccess_framed
    | split

theorem State.onTrbStickyWrite_framed {rst : Bool} {F : List Field} {z s : State} {beat : RegBeat} (hF : ([.tm, .rs, .trb, .parts, .ints, .bal, .net, .fsp, .clk, .roleShadow, .denied, .misformed, .blocked, .hrpOut] : List Field).all (F.contains ·) = true) (hz : Framed rst F z s) : Framed rst F z (State.onTrbStickyWrite s beat) := by
  unfold State.onTrbStickyWrite
  try dsimp only
  repeat' first
    | with_reducible assumption
    | (with_reducible apply Or.inr; with_reducible rfl)
    | ((with_reducible apply Or.inl); exact Framed.mem hF rfl)
    | ((with_reducible apply Framed.sub (G := [.tm, .rs, .trb, .parts, .ints, .bal, .net, .fsp, .clk, .roleShadow, .denied, .misformed, .blocked, .hrpOut]) ?_ hF); rfl)
    | with_reducible apply State.rowAccess_framed
    | split

end Sys2Proof.Machine
end

