-- ==== Sys2Proof/Laws/FramedPorts.lean ====
section
/-! SUPPORT. The service ports: the parts of the state that each operation may change, one lemma for each. -/
namespace Sys2Proof.Machine
set_option Elab.async false

theorem State.stats_framed {rst : Bool} {F : List Field} {z s : State} {i : Issuer} {w : Word} (hF : ([.cmi, .net, .fsp, .hrpOut] : List Field).all (F.contains ·) = true) (hz : Framed rst F z s) : Framed rst F z (State.stats s i w) := by
  unfold State.stats
  try dsimp only
  repeat' first
    | with_reducible assumption
    | (with_reducible apply Or.inr; with_reducible rfl)
    | ((with_reducible apply Or.inl); exact Framed.mem hF rfl)
    | ((with_reducible apply Framed.sub (G := [.cmi, .net, .fsp, .hrpOut]) ?_ hF); rfl)
    | with_reducible apply State.reply_framed
    | split
    | (refine Framed.of_mk ?_ (fun h => h) ?_ ?_ ?_ ?_ ?_ ?_ ?_ ?_ ?_ ?_ ?_ ?_ ?_ ?_ ?_ ?_ ?_ ?_ ?_ ?_ ?_ ?_ ?_ ?_ ?_ ?_ ?_ ?_)

theorem State.onStatsRead_framed {rst : Bool} {F : List Field} {z s : State}  (hF : ([.parts, .ints, .cmi, .net, .fsp, .clk, .hrpOut] : List Field).all (F.contains ·) = true) (hz : Framed rst F z s) : Framed rst F z (State.onStatsRead s) := by
  unfold State.onStatsRead
  try dsimp only
  repeat' first
    | with_reducible assumption
    | (with_reducible apply Or.inr; with_reducible rfl)
    | ((with_reducible apply Or.inl); exact Framed.mem hF rfl)
    | ((with_reducible apply Framed.sub (G := [.parts, .ints, .cmi, .net, .fsp, .clk, .hrpOut]) ?_ hF); rfl)
    | with_reducible apply State.runCmd_framed
    | with_reducible apply State.stats_framed
    | intro _
    | split

theorem State.onTroubleRead_framed {rst : Bool} {F : List Field} {z s : State}  (hF : ([.parts, .ints, .cmi, .net, .clk, .hrpOut] : List Field).all (F.contains ·) = true) (hz : Framed rst F z s) : Framed rst F z (State.onTroubleRead s) := by
  unfold State.onTroubleRead
  try dsimp only
  repeat' first
    | with_reducible assumption
    | (with_reducible apply Or.inr; with_reducible rfl)
    | ((with_reducible apply Or.inl); exact Framed.mem hF rfl)
    | ((with_reducible apply Framed.sub (G := [.parts, .ints, .cmi, .net, .clk, .hrpOut]) ?_ hF); rfl)
    | with_reducible apply State.runCmd_framed
    | with_reducible apply State.reply_framed
    | intro _
    | split

theorem State.onTroubleClear_framed {rst : Bool} {F : List Field} {z s : State}  (hF : ([.trb, .parts, .ints, .cmi, .net, .clk, .hrpOut] : List Field).all (F.contains ·) = true) (hz : Framed rst F z s) : Framed rst F z (State.onTroubleClear s) := by
  unfold State.onTroubleClear
  try dsimp only
  repeat' first
    | with_reducible assumption
    | (with_reducible apply Or.inr; with_reducible rfl)
    | ((with_reducible apply Or.inl); exact Framed.mem hF rfl)
    | ((with_reducible apply Framed.sub (G := [.trb, .parts, .ints, .cmi, .net, .clk, .hrpOut]) ?_ hF); rfl)
    | with_reducible apply State.runCmd_framed
    | with_reducible apply State.answer_framed
    | with_reducible apply State.clearSticky_framed
    | intro _
    | split

theorem State.onAgeReport_framed {rst : Bool} {F : List Field} {z s : State}  (hF : ([.parts, .ints, .cmi, .net, .clk, .hrpOut] : List Field).all (F.contains ·) = true) (hz : Framed rst F z s) : Framed rst F z (State.onAgeReport s) := by
  unfold State.onAgeReport
  try dsimp only
  repeat' first
    | with_reducible assumption
    | (with_reducible apply Or.inr; with_reducible rfl)
    | ((with_reducible apply Or.inl); exact Framed.mem hF rfl)
    | ((with_reducible apply Framed.sub (G := [.parts, .ints, .cmi, .net, .clk, .hrpOut]) ?_ hF); rfl)
    | with_reducible apply State.runCmd_framed
    | with_reducible apply State.reply_framed
    | intro _
    | split

theorem State.onInterruptMessageSend_framed {rst : Bool} {F : List Field} {z s1 : State}  (hF : ([.ints, .hrpOut] : List Field).all (F.contains ·) = true) (hz : Framed rst F z s1) : Framed rst F z (State.onInterruptMessageSend s1) := by
  unfold State.onInterruptMessageSend
  try dsimp only
  repeat' first
    | with_reducible assumption
    | (with_reducible apply Or.inr; with_reducible rfl)
    | ((with_reducible apply Or.inl); exact Framed.mem hF rfl)
    | ((with_reducible apply Framed.sub (G := [.ints, .hrpOut]) ?_ hF); rfl)
    | with_reducible apply State.putOut_framed
    | split
    | (refine Framed.of_mk ?_ (fun h => h) ?_ ?_ ?_ ?_ ?_ ?_ ?_ ?_ ?_ ?_ ?_ ?_ ?_ ?_ ?_ ?_ ?_ ?_ ?_ ?_ ?_ ?_ ?_ ?_ ?_ ?_ ?_ ?_)

theorem State.smpShift_framed {rst : Bool} {F : List Field} {z s : State} {ws : List Word} (hF : ([.cmi] : List Field).all (F.contains ·) = true) (hz : Framed rst F z s) : Framed rst F z (State.smpShift s ws) := by
  unfold State.smpShift
  try dsimp only
  repeat' first
    | with_reducible assumption
    | (with_reducible apply Or.inr; with_reducible rfl)
    | ((with_reducible apply Or.inl); exact Framed.mem hF rfl)
    | ((with_reducible apply Framed.sub (G := [.cmi]) ?_ hF); rfl)
    | split
    | (refine Framed.of_mk ?_ (fun h => h) ?_ ?_ ?_ ?_ ?_ ?_ ?_ ?_ ?_ ?_ ?_ ?_ ?_ ?_ ?_ ?_ ?_ ?_ ?_ ?_ ?_ ?_ ?_ ?_ ?_ ?_ ?_ ?_)

theorem State.smpDiscard_framed {rst : Bool} {F : List Field} {z s : State}  (hF : ([.trb, .parts, .ints, .cmi] : List Field).all (F.contains ·) = true) (hz : Framed rst F z s) : Framed rst F z (State.smpDiscard s) := by
  unfold State.smpDiscard
  try dsimp only
  repeat' first
    | with_reducible assumption
    | (with_reducible apply Or.inr; with_reducible rfl)
    | ((with_reducible apply Or.inl); exact Framed.mem hF rfl)
    | ((with_reducible apply Framed.sub (G := [.trb, .parts, .ints, .cmi]) ?_ hF); rfl)
    | with_reducible apply State.badPacket_framed
    | split
    | (refine Framed.of_mk ?_ (fun h => h) ?_ ?_ ?_ ?_ ?_ ?_ ?_ ?_ ?_ ?_ ?_ ?_ ?_ ?_ ?_ ?_ ?_ ?_ ?_ ?_ ?_ ?_ ?_ ?_ ?_ ?_ ?_ ?_)

theorem State.smpTake_framed {rst : Bool} {F : List Field} {z s : State} {w : Word} {f : Find} (hF : ([.trb, .parts, .ints, .cmi, .net, .hrpOut] : List Field).all (F.contains ·) = true) (hz : Framed rst F z s) : Framed rst F z (State.smpTake s w f) := by
  unfold State.smpTake
  try dsimp only
  repeat' first
    | with_reducible assumption
    | (with_reducible apply Or.inr; with_reducible rfl)
    | ((with_reducible apply Or.inl); exact Framed.mem hF rfl)
    | ((with_reducible apply Framed.sub (G := [.trb, .parts, .ints, .cmi, .net, .hrpOut]) ?_ hF); rfl)
    | with_reducible apply State.ceCommand_framed
    | with_reducible apply State.badPacket_framed
    | with_reducible apply State.arriveSmp_framed
    | split
    | (refine Framed.of_mk ?_ (fun h => h) ?_ ?_ ?_ ?_ ?_ ?_ ?_ ?_ ?_ ?_ ?_ ?_ ?_ ?_ ?_ ?_ ?_ ?_ ?_ ?_ ?_ ?_ ?_ ?_ ?_ ?_ ?_ ?_)

theorem State.smpWrite_framed {rst : Bool} {F : List Field} {z s : State} {f : SmpFrame} (hF : ([.trb, .parts, .ints, .cmi, .net, .hrpOut] : List Field).all (F.contains ·) = true) (hz : Framed rst F z s) : Framed rst F z (State.smpWrite s f) := by
  unfold State.smpWrite
  try dsimp only
  repeat' first
    | with_reducible assumption
    | (with_reducible apply Or.inr; with_reducible rfl)
    | ((with_reducible apply Or.inl); exact Framed.mem hF rfl)
    | ((with_reducible apply Framed.sub (G := [.trb, .parts, .ints, .cmi, .net, .hrpOut]) ?_ hF); rfl)
    | with_reducible apply State.smpTake_framed
    | split
    | (refine Framed.foldl (fun _ _ _ => ?_) ?_)

theorem State.onSmpWrite_framed {rst : Bool} {F : List Field} {z s1 : State} {frame : SmpFrame} (hF : ([.trb, .parts, .ints, .cmi, .net, .hrpOut] : List Field).all (F.contains ·) = true) (hz : Framed rst F z s1) : Framed rst F z (State.onSmpWrite s1 frame) := by
  unfold State.onSmpWrite
  try dsimp only
  repeat' first
    | with_reducible assumption
    | (with_reducible apply Or.inr; with_reducible rfl)
    | ((with_reducible apply Or.inl); exact Framed.mem hF rfl)
    | ((with_reducible apply Framed.sub (G := [.trb, .parts, .ints, .cmi, .net, .hrpOut]) ?_ hF); rfl)
    | with_reducible apply State.smpShift_framed
    | with_reducible apply State.smpDiscard_framed
    | with_reducible apply State.smpWrite_framed
    | split

theorem State.onSmpRead_framed {rst : Bool} {F : List Field} {z s1 : State} {frame : SmpFrame} (hF : ([.cmi] : List Field).all (F.contains ·) = true) (hz : Framed rst F z s1) : Framed rst F z (State.onSmpRead s1 frame) := by
  unfold State.onSmpRead
  try dsimp only
  repeat' first
    | with_reducible assumption
    | (with_reducible apply Or.inr; with_reducible rfl)
    | ((with_reducible apply Or.inl); exact Framed.mem hF rfl)
    | ((with_reducible apply Framed.sub (G := [.cmi]) ?_ hF); rfl)
    | with_reducible apply State.smpShift_framed
    | split
    | (refine Framed.of_mk ?_ (fun h => h) ?_ ?_ ?_ ?_ ?_ ?_ ?_ ?_ ?_ ?_ ?_ ?_ ?_ ?_ ?_ ?_ ?_ ?_ ?_ ?_ ?_ ?_ ?_ ?_ ?_ ?_ ?_ ?_)

theorem State.onSmpStatus_framed {rst : Bool} {F : List Field} {z s1 : State} {frame : SmpFrame} (hF : ([.cmi] : List Field).all (F.contains ·) = true) (hz : Framed rst F z s1) : Framed rst F z (State.onSmpStatus s1 frame) := by
  unfold State.onSmpStatus
  try dsimp only
  repeat' first
    | with_reducible assumption
    | (with_reducible apply Or.inr; with_reducible rfl)
    | ((with_reducible apply Or.inl); exact Framed.mem hF rfl)
    | ((with_reducible apply Framed.sub (G := [.cmi]) ?_ hF); rfl)
    | with_reducible apply State.smpShift_framed
    | split

theorem State.updateIr_framed {rst : Bool} {F : List Field} {z s : State} {ir : BitVec 8} {lockable : Bool} (hF : ([.tap] : List Field).all (F.contains ·) = true) (hz : Framed rst F z s) : Framed rst F z (State.updateIr s ir lockable) := by
  unfold State.updateIr
  try dsimp only
  repeat' first
    | with_reducible assumption
    | (with_reducible apply Or.inr; with_reducible rfl)
    | ((with_reducible apply Or.inl); exact Framed.mem hF rfl)
    | ((with_reducible apply Framed.sub (G := [.tap]) ?_ hF); rfl)
    | split
    | (refine Framed.of_mk ?_ (fun h => h) ?_ ?_ ?_ ?_ ?_ ?_ ?_ ?_ ?_ ?_ ?_ ?_ ?_ ?_ ?_ ?_ ?_ ?_ ?_ ?_ ?_ ?_ ?_ ?_ ?_ ?_ ?_ ?_)

theorem State.onExtest_framed {rst : Bool} {F : List Field} {z s : State}  (hF : ([.tap] : List Field).all (F.contains ·) = true) (hz : Framed rst F z s) : Framed rst F z (State.onExtest s) := by
  unfold State.onExtest
  try dsimp only
  repeat' first
    | with_reducible assumption
    | (with_reducible apply Or.inr; with_reducible rfl)
    | ((with_reducible apply Or.inl); exact Framed.mem hF rfl)
    | ((with_reducible apply Framed.sub (G := [.tap]) ?_ hF); rfl)
    | with_reducible apply State.updateIr_framed
    | split

theorem State.onSamplePreload_framed {rst : Bool} {F : List Field} {z s : State} {bits : List Bool} (hF : ([.tap] : List Field).all (F.contains ·) = true) (hz : Framed rst F z s) : Framed rst F z (State.onSamplePreload s bits) := by
  unfold State.onSamplePreload
  try dsimp only
  repeat' first
    | with_reducible assumption
    | (with_reducible apply Or.inr; with_reducible rfl)
    | ((with_reducible apply Or.inl); exact Framed.mem hF rfl)
    | ((with_reducible apply Framed.sub (G := [.tap]) ?_ hF); rfl)
    | with_reducible apply State.updateIr_framed
    | split
    | (refine Framed.of_mk ?_ (fun h => h) ?_ ?_ ?_ ?_ ?_ ?_ ?_ ?_ ?_ ?_ ?_ ?_ ?_ ?_ ?_ ?_ ?_ ?_ ?_ ?_ ?_ ?_ ?_ ?_ ?_ ?_ ?_ ?_)

theorem State.onInstr_framed {rst : Bool} {F : List Field} {z s : State}  (hF : ([.tap] : List Field).all (F.contains ·) = true) (hz : Framed rst F z s) : Framed rst F z (State.onInstr s) := by
  unfold State.onInstr
  try dsimp only
  repeat' first
    | with_reducible assumption
    | (with_reducible apply Or.inr; with_reducible rfl)
    | ((with_reducible apply Or.inl); exact Framed.mem hF rfl)
    | ((with_reducible apply Framed.sub (G := [.tap]) ?_ hF); rfl)
    | with_reducible apply State.updateIr_framed
    | split

theorem State.onBypass_framed {rst : Bool} {F : List Field} {z s1 : State} {encoding : BitVec 8} (hF : ([.tap] : List Field).all (F.contains ·) = true) (hz : Framed rst F z s1) : Framed rst F z (State.onBypass s1 encoding) := by
  unfold State.onBypass
  try dsimp only
  repeat' first
    | with_reducible assumption
    | (with_reducible apply Or.inr; with_reducible rfl)
    | ((with_reducible apply Or.inl); exact Framed.mem hF rfl)
    | ((with_reducible apply Framed.sub (G := [.tap]) ?_ hF); rfl)
    | split
    | (refine Framed.of_mk ?_ (fun h => h) ?_ ?_ ?_ ?_ ?_ ?_ ?_ ?_ ?_ ?_ ?_ ?_ ?_ ?_ ?_ ?_ ?_ ?_ ?_ ?_ ?_ ?_ ?_ ?_ ?_ ?_ ?_ ?_)

theorem State.onTrstN_framed {rst : Bool} {F : List Field} {z s1 : State}  (hF : ([.tap] : List Field).all (F.contains ·) = true) (hz : Framed rst F z s1) : Framed rst F z (State.onTrstN s1) := by
  unfold State.onTrstN
  try dsimp only
  repeat' first
    | with_reducible assumption
    | (with_reducible apply Or.inr; with_reducible rfl)
    | ((with_reducible apply Or.inl); exact Framed.mem hF rfl)
    | ((with_reducible apply Framed.sub (G := [.tap]) ?_ hF); rfl)
    | split
    | (refine Framed.of_mk ?_ (fun h => h) ?_ ?_ ?_ ?_ ?_ ?_ ?_ ?_ ?_ ?_ ?_ ?_ ?_ ?_ ?_ ?_ ?_ ?_ ?_ ?_ ?_ ?_ ?_ ?_ ?_ ?_ ?_ ?_)

end Sys2Proof.Machine
end

