-- ==== Sys2Proof/Laws/FramedMsg.lean ====
section
/-! SUPPORT. What a delivered ring message changes: what its type does, and what its arrival does (R392 to R400). -/
namespace Sys2Proof.Machine
set_option Elab.async false

/-- A message of a type acts as its type says, and beside that its arrival changes only the ring, the trouble record and what it raises. -/
theorem State.receiveType_framed_of {F : List Field} {z s : State} {typ : Nat} {m : RxMsg}
    (hF : ([.trb, .parts, .ints, .net] : List Field).all (F.contains ·) = true) (hz : Framed true F z s)
    (hact : ∀ s it, rType it.w0 = typ → Framed true F z s → Framed true F z (s.handleMsg it)) : Framed true F z (s.receiveType typ m) := by
  unfold State.receiveType
  split
  · rename_i ht
    have haccept (u : State) (h : Framed true F z u) : Framed true F z (u.acceptMsg m.link m.item) := by
      unfold State.acceptMsg
      dsimp only
      repeat' split
      · exact h
      · exact hact _ _ ht h
      · exact h.after (G := [.net]) ⟨id, .inr fun f hf => by cases f <;> first | rfl | simp at hf⟩ (Framed.sub rfl hF)
      · exact State.ringDrop_framed (Framed.sub rfl hF) h
    have hroute (u : State) (h : Framed true F z u) : Framed true F z (u.routeMsg m.link m.item) := by
      unfold State.routeMsg
      dsimp only
      split
      · exact h
      · split
        · exact State.ringDrop_framed (Framed.sub rfl hF) h
        · split
          · repeat' split
            all_goals first
              | exact h
              | exact haccept _ (State.passAll_framed (Framed.sub rfl hF) h)
          · split
            · exact haccept _ h
            · split
              · exact State.passMsg_framed (Framed.sub rfl hF) h
              · exact h
    unfold State.receive
    extract_lets _ s1
    have hlink : Framed true F z s1 := by
      unfold s1
      split
      · exact hz.after (G := [.net]) ⟨id, .inr fun f hf => by cases f <;> first | rfl | simp at hf⟩ (Framed.sub rfl hF)
      · exact hz
    clear_value s1
    split
    · exact hlink
    · split
      · exact hroute _ hlink
      · exact hroute _ (State.ceLink_framed (Framed.sub rfl hF) hlink)
      · exact State.badMsg_framed (Framed.sub rfl hF) hlink
  · exact hz

end Sys2Proof.Machine
end

