-- ==== Sys2Proof/Laws/Keeps.lean ====
section
/-! SUPPORT. What every operation below a command keeps: the grade, the queue of commands, and the invariant. `Keeps r s`
says that `s`, reached from `r`, has `r`'s grade and queue, and the invariant if `r` has it. -/
namespace Sys2Proof.Machine
set_option Elab.async false

/-- `s` has the grade and the queue of `r`, and the invariant if `r` has it. -/
structure Keeps (r s : State) : Prop where
  grade : s.grade = r.grade
  pending : s.pending = r.pending
  inv : Inv r → Inv s

theorem Keeps.refl (s : State) : Keeps s s := ⟨rfl, rfl, id⟩

theorem Keeps.trans {r s t : State} (h : Keeps r s) (k : Keeps s t) : Keeps r t :=
  ⟨k.grade.trans h.grade, k.pending.trans h.pending, fun i => k.inv (h.inv i)⟩

/-- The invariant reads only these parts of the state: a state that agrees on them keeps what the other keeps. -/
theorem Keeps.of_eq {r s t : State} (h : Keeps r s) (h1 : t.grade = s.grade) (h2 : t.pending = s.pending) (h3 : t.mem = s.mem)
    (h4 : t.entries = s.entries) (h5 : t.edge = s.edge) (h6 : t.home = s.home) (h7 : t.slots = s.slots) (h8 : t.ledgers = s.ledgers)
    (h9 : t.parts = s.parts) (h10 : t.cmi.smpRing = s.cmi.smpRing) (h11 : t.net.mirrorQ = s.net.mirrorQ) (h12 : t.tm.t48 = s.tm.t48)
    (h13 : t.tm.quarters = s.tm.quarters) (h14 : t.fsp.ingress = s.fsp.ingress) (h15 : t.fsp.egress = s.fsp.egress)
    (h16 : t.fsp.relq = s.fsp.relq) (h17 : t.net.queues = s.net.queues) (h18 : t.net.sent = s.net.sent)
    (h19 : t.clk.clusters = s.clk.clusters) (h20 : t.tier.devs = s.tier.devs) : Keeps r t := by
  refine ⟨h1.trans h.grade, h2.trans h.pending, fun i => ?_⟩
  obtain ⟨⟨a1, a2, a3, a4, a5, a6, a7⟩, ⟨b1, b2, b3, b4, b5⟩, ⟨c1, c2, c3, c4, c5, c6, c7⟩⟩ := h.inv i
  exact ⟨⟨h3 ▸ a1, h4 ▸ a2, h5 ▸ a3, h6 ▸ a4, h7 ▸ a5, h8 ▸ a6, h9 ▸ a7⟩,
    ⟨fun p => by have := b1 p; unfold State.part at *; rwa [h9], h10 ▸ b2, h11 ▸ b3, h12 ▸ b4, h13 ▸ b5⟩,
    ⟨h14 ▸ c1, h15 ▸ c2, h16 ▸ c3, h17 ▸ c4, h18 ▸ c5, h19 ▸ c6, h20 ▸ c7⟩⟩

/-- A state that differs in units of which the invariant reads nothing changed. -/
theorem Keeps.of_mk {z s : State} {tm' : TimeU} {rs' : ResetU} {trb' : TroubleU} {ints' : List IntMsg} {cmi' : CmiU} {hdl' : List (Nat × Word)} {img' : ImageU} {com' : CommitU} {bal' : BalanceU} {net' : NetU} {fsp' : FspU} {tier' : TierU} {clk' : ClockU} {role' : Nat} {roleShadow' : Nat} {denied' : Nat} {misformed' : Nat} {blocked' : Nat} {hrpOut' : List HrpOut} {fspOut' : List (Option Item)} {tap' : TapU}
    (h : Keeps z s) (h1 : cmi'.smpRing = s.cmi.smpRing) (h2 : net'.mirrorQ = s.net.mirrorQ) (h3 : tm'.t48 = s.tm.t48)
    (h4 : tm'.quarters = s.tm.quarters) (h5 : fsp'.ingress = s.fsp.ingress) (h6 : fsp'.egress = s.fsp.egress)
    (h7 : fsp'.relq = s.fsp.relq) (h8 : net'.queues = s.net.queues) (h9 : net'.sent = s.net.sent)
    (h10 : clk'.clusters = s.clk.clusters) (h11 : tier'.devs = s.tier.devs) :
    Keeps z ⟨s.grade, tm', rs', trb', s.entries, s.edge, s.home, s.slots, s.ledgers, s.parts, ints', cmi', s.mem, hdl', img', com', bal', net', fsp', tier', clk', role', roleShadow', denied', misformed', blocked', hrpOut', fspOut', tap', s.pending⟩ :=
  h.of_eq rfl rfl rfl rfl rfl rfl rfl rfl rfl h1 h2 h3 h4 h5 h6 h7 h8 h9 h10 h11

/-- A loop over a list keeps what its body keeps. -/
theorem Keeps.foldl {α : Type} {r : State} {g : State → α → State} (hg : ∀ s x, Keeps r s → Keeps r (g s x)) {l : List α} :
    ∀ {s : State}, Keeps r s → Keeps r (l.foldl g s) := by
  induction l with
  | nil => exact fun h => h
  | cons x t ih => exact fun h => ih (hg _ x h)

/-- A state each of whose parts keeps its own piece of the invariant. -/
theorem Keeps.of_imp {r s t : State} (h : Keeps r s) (h1 : t.grade = s.grade) (h2 : t.pending = s.pending)
    (h3 : Memory.wf s.mem = true → Memory.wf t.mem = true)
    (h4 : swf Entry.zero s.entries = true → swf Entry.zero t.entries = true)
    (h5 : swf EdgeAux.zero s.edge = true → swf EdgeAux.zero t.edge = true)
    (h6 : swf HomeAux.zero s.home = true → swf HomeAux.zero t.home = true)
    (h7 : swf SlotAux.zero s.slots = true → swf SlotAux.zero t.slots = true)
    (h8 : swf Ledger.zero s.ledgers = true → swf Ledger.zero t.ledgers = true)
    (h9 : swf Partn.cold s.parts = true → swf Partn.cold t.parts = true)
    (h10 : (∀ p, (s.part p).ring.length ≤ 16) → ∀ p, (t.part p).ring.length ≤ 16)
    (h11 : s.cmi.smpRing.length ≤ 4 → t.cmi.smpRing.length ≤ 4)
    (h12 : s.net.mirrorQ.length ≤ 4096 → t.net.mirrorQ.length ≤ 4096)
    (h13 : s.tm.t48 < 2 ^ 112 → t.tm.t48 < 2 ^ 112) (h14 : s.tm.quarters < 160 → t.tm.quarters < 160)
    (h15 : s.fsp.ingress.length = 4 → t.fsp.ingress.length = 4) (h16 : s.fsp.egress.length = 4 → t.fsp.egress.length = 4)
    (h17 : s.fsp.relq.length = 4 → t.fsp.relq.length = 4) (h18 : s.net.queues.length = 4 → t.net.queues.length = 4)
    (h19 : s.net.sent.length = 4 → t.net.sent.length = 4) (h20 : s.clk.clusters.length = 8 → t.clk.clusters.length = 8)
    (h21 : s.tier.devs.length = 20 → t.tier.devs.length = 20) : Keeps r t := by
  refine ⟨h1.trans h.grade, h2.trans h.pending, fun i => ?_⟩
  obtain ⟨⟨a1, a2, a3, a4, a5, a6, a7⟩, ⟨b1, b2, b3, b4, b5⟩, ⟨c1, c2, c3, c4, c5, c6, c7⟩⟩ := h.inv i
  exact ⟨⟨h3 a1, h4 a2, h5 a3, h6 a4, h7 a5, h8 a6, h9 a7⟩, ⟨h10 b1, h11 b2, h12 b3, h13 b4, h14 b5⟩,
    ⟨h15 c1, h16 c2, h17 c3, h18 c4, h19 c5, h20 c6, h21 c7⟩⟩

variable {r s : State}

/-- Another memory in canonical form. -/
theorem Keeps.mem {m : Memory} (h : Keeps r s) (hm : Memory.wf s.mem = true → Memory.wf m = true) : Keeps r { s with mem := m } :=
  h.of_imp rfl rfl hm id id id id id id id id id id id id id id id id id id

theorem State.setEdge_keeps (slot : Nat) (e : EdgeAux) (h : Keeps r s) : Keeps r (s.setEdge slot e) :=
  h.of_imp rfl rfl id id swf_sset id id id id id id id id id id id id id id id id

theorem State.setHome_keeps (slot : Nat) (e : HomeAux) (h : Keeps r s) : Keeps r (s.setHome slot e) :=
  h.of_imp rfl rfl id id id swf_sset id id id id id id id id id id id id id id id

theorem State.setSlot_keeps (slot : Nat) (e : SlotAux) (h : Keeps r s) : Keeps r (s.setSlot slot e) :=
  h.of_imp rfl rfl id id id id swf_sset id id id id id id id id id id id id id id

/-- A partition written with a ring that is no longer than sixteen packets. -/
theorem State.setPart_keeps (p : Nat) (q : Partn) (h : Keeps r s) (hq : Inv r → q.ring.length ≤ 16) : Keeps r (s.setPart p q) := by
  refine ⟨h.grade, h.pending, fun i => ?_⟩
  refine (h.of_imp (t := s.setPart p q) rfl rfl id id id id id id swf_sset (fun b p' => ?_) id id id id id id id id id id id).inv i
  unfold State.part State.setPart
  rw [sget_sset]
  split
  · exact hq i
  · exact b p'

/-- A partition read from a state that keeps the invariant has a ring within its bound. -/
theorem Keeps.ring (h : Keeps r s) (p : Nat) (i : Inv r) : (s.part p).ring.length ≤ 16 := (h.inv i).bounded.rings p

/-- Waiting mirror writes enter the queue only while it has room. -/
theorem State.handMirror_keeps (h : Keeps r s) : Keeps r s.handMirror :=
  h.of_imp rfl rfl id id id id id id id id id
    (fun hl => by
      show (s.net.mirrorQ ++ (((threes s.net.mirrorWait).take (4096 - s.net.mirrorQ.length)).map s.mirrorMsg)).length ≤ 4096
      simp only [List.length_append, List.length_map, List.length_take]
      omega) id id id id id id id id id

theorem State.mirrorPut_keeps (ws : List (Nat × Nat × Word)) (h : Keeps r s) : Keeps r (s.mirrorPut ws) := by
  unfold State.mirrorPut
  split
  · exact State.handMirror_keeps (h.of_eq rfl rfl rfl rfl rfl rfl rfl rfl rfl rfl rfl rfl rfl rfl rfl rfl rfl rfl rfl rfl)
  · exact h

theorem State.setEntry_keeps (slot : Nat) (e : Entry) (h : Keeps r s) : Keeps r (s.setEntry slot e) :=
  (State.mirrorPut_keeps _ h).of_imp rfl rfl id swf_sset id id id id id id id id id id id id id id id id id

theorem State.setLedger_keeps (t : Nat) (e : Ledger) (h : Keeps r s) : Keeps r (s.setLedger t e) :=
  (State.mirrorPut_keeps _ h).of_imp rfl rfl id id id id id swf_sset id id id id id id id id id id id id id

theorem State.setInLane_keeps (l : Nat) (v : Lane) (h : Keeps r s) : Keeps r (s.setInLane l v) :=
  h.of_imp rfl rfl id id id id id id id id id id id id (fun hl => by simpa [State.setInLane] using hl) id id id id id id

theorem State.setOutLane_keeps (l : Nat) (v : Lane) (h : Keeps r s) : Keeps r (s.setOutLane l v) :=
  h.of_imp rfl rfl id id id id id id id id id id id id id (fun hl => by simpa [State.setOutLane] using hl) id id id id id

theorem State.setRelq_keeps (l : Nat) (v : RelQ) (h : Keeps r s) : Keeps r (s.setRelq l v) :=
  h.of_imp rfl rfl id id id id id id id id id id id id id id (fun hl => by simpa [State.setRelq] using hl) id id id id

theorem State.setCluster_keeps (c : Nat) (v : Cluster) (h : Keeps r s) : Keeps r (s.setCluster c v) :=
  h.of_imp rfl rfl id id id id id id id id id id id id id id id id id (fun hl => by simpa [State.setCluster] using hl) id

theorem State.setDev_keeps (d : Nat) (v : Dev) (h : Keeps r s) : Keeps r (s.setDev d v) :=
  h.of_imp rfl rfl id id id id id id id id id id id id id id id id id id (fun hl => by simpa [State.setDev] using hl)

theorem State.queueOn_keeps (link cls : Nat) (it : Item) (h : Keeps r s) : Keeps r (s.queueOn link cls it) := by
  unfold State.queueOn
  split
  · exact h
  · exact h.of_imp rfl rfl id id id id id id id id id id id id id id id (fun hl => by simpa using hl) id id id

/-- Time passes: the gate time stays a 112-bit count, and the interpolator stays within a REFCLK period. -/
theorem State.pass_keeps (n q : Nat) (h : Keeps r s) : Keeps r (s.pass n q) :=
  h.of_imp rfl rfl id id id id id id id id id id
    (fun _ => by
      show (_ % (2 ^ 112 : Int)).toNat < 2 ^ 112
      have h1 := Int.emod_lt_of_pos ((s.tm.t48 : Int) + (n : Int) * increment s.tm.c + slewPart s.tm.slewLeft s.tm.slewStep n)
        (by decide : (0 : Int) < 2 ^ 112)
      omega)
    (fun hq => by
      show (if n = 0 then max s.tm.quarters (min q 159) else min q 159) < 160
      split <;> omega)
    id id id id id id id

end Sys2Proof.Machine
end

