-- ==== Sys2Proof/Laws/KeepsOps.lean ====
section
/-! SUPPORT. The named operations: what each operation keeps, one lemma for each. -/
namespace Sys2Proof.Machine
set_option Elab.async false

theorem State.dropBacks_keeps {z s : State} {row : Nat} {n : Nat} (hz : Keeps z s) : Keeps z (State.dropBacks s row n) := by
  unfold State.dropBacks
  try dsimp only
  repeat' first
    | with_reducible assumption
    | split
    | (refine Keeps.foldl (fun _ _ _ => ?_) ?_)
    | (refine Keeps.of_mk ?_ rfl rfl rfl rfl rfl rfl rfl rfl rfl rfl rfl)

theorem State.supersede_keeps {z s : State} {row : Nat} (hz : Keeps z s) : Keeps z (State.supersede s row) := by
  unfold State.supersede
  try dsimp only
  repeat' first
    | with_reducible assumption
    | with_reducible apply State.dropBacks_keeps
    | split
    | (refine Keeps.foldl (fun _ _ _ => ?_) ?_)
    | (refine Keeps.of_mk ?_ rfl rfl rfl rfl rfl rfl rfl rfl rfl rfl rfl)

theorem State.putMem_keeps {z s : State} {a : Nat} {ws : List Word} (hz : Keeps z s) : Keeps z (s.putMem a ws) :=
  (State.dropBacks_keeps hz).mem fun h => Memory.putWords_wf h

theorem State.zeroMem_keeps {z s : State} {row n : Nat} (hz : Keeps z s) : Keeps z (s.zeroMem row n) :=
  (State.dropBacks_keeps hz).mem fun h => Memory.zeroRows_wf h

theorem State.putOut_keeps {z s : State} {vc : Nat} {part : Nat} {reg : Bool} {ws : List Word} (hz : Keeps z s) : Keeps z (State.putOut s vc part reg ws) := by
  unfold State.putOut
  try dsimp only
  repeat' first
    | with_reducible assumption
    | split
    | (refine Keeps.foldl (fun _ _ _ => ?_) ?_)
    | (refine Keeps.of_mk ?_ rfl rfl rfl rfl rfl rfl rfl rfl rfl rfl rfl)

theorem State.putRetained_keeps {z s : State} {i : Nat} {w : Word} (hz : Keeps z s) : Keeps z (State.putRetained s i w) := by
  unfold State.putRetained
  try dsimp only
  repeat' first
    | with_reducible assumption
    | split
    | (refine Keeps.foldl (fun _ _ _ => ?_) ?_)
    | (refine Keeps.of_mk ?_ rfl rfl rfl rfl rfl rfl rfl rfl rfl rfl rfl)

end Sys2Proof.Machine
end

