-- ==== Sys2Proof/Laws/KeepsFlags.lean ====
section
/-! SUPPORT. What the gate records: what each operation keeps, one lemma for each. -/
namespace Sys2Proof.Machine
set_option Elab.async false

theorem State.raise_keeps {z s : State} {p : Nat} {v : Nat} (hz : Keeps z s) : Keeps z (State.raise s p v) := by
  unfold State.raise
  try dsimp only
  repeat' first
    | with_reducible assumption
    | (refine State.setPart_keeps _ _ ?_ (fun i => Keeps.ring ?_ _ i))
    | with_reducible apply State.setPart_keeps
    | split
    | (refine Keeps.foldl (fun _ _ _ => ?_) ?_)
    | (refine Keeps.of_mk ?_ rfl rfl rfl rfl rfl rfl rfl rfl rfl rfl rfl)

theorem State.raiseAll_keeps {z s : State} {v : Nat} (hz : Keeps z s) : Keeps z (State.raiseAll s v) := by
  unfold State.raiseAll
  try dsimp only
  repeat' first
    | with_reducible assumption
    | with_reducible apply State.raise_keeps
    | split
    | (refine Keeps.foldl (fun _ _ _ => ?_) ?_)
    | (refine Keeps.of_mk ?_ rfl rfl rfl rfl rfl rfl rfl rfl rfl rfl rfl)

theorem State.clearPend_keeps {z s : State} {p : Nat} {mask : Nat} (hz : Keeps z s) : Keeps z (State.clearPend s p mask) := by
  unfold State.clearPend
  try dsimp only
  repeat' first
    | with_reducible assumption
    | (refine State.setPart_keeps _ _ ?_ (fun i => Keeps.ring ?_ _ i))
    | with_reducible apply State.setPart_keeps
    | split
    | (refine Keeps.foldl (fun _ _ _ => ?_) ?_)
    | (refine Keeps.of_mk ?_ rfl rfl rfl rfl rfl rfl rfl rfl rfl rfl rfl)

theorem State.setIntEn_keeps {z s : State} {p : Nat} {en : Nat} (hz : Keeps z s) : Keeps z (State.setIntEn s p en) := by
  unfold State.setIntEn
  try dsimp only
  repeat' first
    | with_reducible assumption
    | (refine State.setPart_keeps _ _ ?_ (fun i => Keeps.ring ?_ _ i))
    | with_reducible apply State.setPart_keeps
    | split
    | (refine Keeps.foldl (fun _ _ _ => ?_) ?_)
    | (refine Keeps.of_mk ?_ rfl rfl rfl rfl rfl rfl rfl rfl rfl rfl rfl)

theorem State.logRepeat_keeps {z s : State} {slot : Nat} (hz : Keeps z s) : Keeps z (State.logRepeat s slot) := by
  unfold State.logRepeat
  try dsimp only
  repeat' first
    | with_reducible assumption
    | with_reducible apply State.putRetained_keeps
    | split
    | (refine Keeps.foldl (fun _ _ _ => ?_) ?_)
    | (refine Keeps.of_mk ?_ rfl rfl rfl rfl rfl rfl rfl rfl rfl rfl rfl)

theorem State.setSticky_keeps {z s : State} {b : Sticky} (hz : Keeps z s) : Keeps z (State.setSticky s b) := by
  unfold State.setSticky
  try dsimp only
  repeat' first
    | with_reducible assumption
    | with_reducible apply State.putRetained_keeps
    | split
    | (refine Keeps.foldl (fun _ _ _ => ?_) ?_)
    | (refine Keeps.of_mk ?_ rfl rfl rfl rfl rfl rfl rfl rfl rfl rfl rfl)

theorem State.logNew_keeps {z s : State} {w1 : Word} {obj : Word} {detail : Word} (hz : Keeps z s) : Keeps z (State.logNew s w1 obj detail) := by
  unfold State.logNew
  try dsimp only
  repeat' first
    | with_reducible assumption
    | with_reducible apply State.putRetained_keeps
    | split
    | (refine Keeps.foldl (fun _ _ _ => ?_) ?_)
    | (refine Keeps.of_mk ?_ rfl rfl rfl rfl rfl rfl rfl rfl rfl rfl rfl)

theorem State.trouble_keeps {z s : State} {b : Sticky} {action : Nat} {o : Obj} {part : Option Nat} {detail : Word} (hz : Keeps z s) : Keeps z (State.trouble s b action o part detail) := by
  unfold State.trouble
  try dsimp only
  repeat' first
    | with_reducible assumption
    | with_reducible apply State.setSticky_keeps
    | with_reducible apply State.logRepeat_keeps
    | with_reducible apply State.logNew_keeps
    | with_reducible apply State.raise_keeps
    | split
    | (refine Keeps.foldl (fun _ _ _ => ?_) ?_)
    | (refine Keeps.of_mk ?_ rfl rfl rfl rfl rfl rfl rfl rfl rfl rfl rfl)

theorem State.faultEntry_keeps {z s : State} {c : Cause} {o : Obj} {part : Option Nat} {detail : Word} (hz : Keeps z s) : Keeps z (State.faultEntry s c o part detail) := by
  unfold State.faultEntry
  try dsimp only
  repeat' first
    | with_reducible assumption
    | with_reducible apply State.setSticky_keeps
    | with_reducible apply State.logRepeat_keeps
    | with_reducible apply State.logNew_keeps
    | with_reducible apply State.raise_keeps
    | split
    | (refine Keeps.foldl (fun _ _ _ => ?_) ?_)
    | (refine Keeps.of_mk ?_ rfl rfl rfl rfl rfl rfl rfl rfl rfl rfl rfl)

theorem State.clearSticky_keeps {z s : State} {mask : Word} (hz : Keeps z s) : Keeps z (State.clearSticky s mask) := by
  unfold State.clearSticky
  try dsimp only
  repeat' first
    | with_reducible assumption
    | with_reducible apply State.putRetained_keeps
    | split
    | (refine Keeps.foldl (fun _ _ _ => ?_) ?_)
    | (refine Keeps.of_mk ?_ rfl rfl rfl rfl rfl rfl rfl rfl rfl rfl rfl)

theorem State.bumpCe_keeps {z s : State} {r : Nat} {k : Nat} {n : Nat} (hz : Keeps z s) : Keeps z (State.bumpCe s r k n) := by
  unfold State.bumpCe
  try dsimp only
  repeat' first
    | with_reducible assumption
    | split
    | (refine Keeps.foldl (fun _ _ _ => ?_) ?_)
    | (refine Keeps.of_mk ?_ rfl rfl rfl rfl rfl rfl rfl rfl rfl rfl rfl)

theorem State.ceSsm_keeps {z s : State} {r : Nat} (hz : Keeps z s) : Keeps z (State.ceSsm s r) := by
  unfold State.ceSsm
  try dsimp only
  repeat' first
    | with_reducible assumption
    | with_reducible apply State.bumpCe_keeps
    | split
    | (refine Keeps.foldl (fun _ _ _ => ?_) ?_)
    | (refine Keeps.of_mk ?_ rfl rfl rfl rfl rfl rfl rfl rfl rfl rfl rfl)

theorem State.ceLink_keeps {z s : State} {l : Nat} (hz : Keeps z s) : Keeps z (State.ceLink s l) := by
  unfold State.ceLink
  try dsimp only
  repeat' first
    | with_reducible assumption
    | with_reducible apply State.bumpCe_keeps
    | split
    | (refine Keeps.foldl (fun _ _ _ => ?_) ?_)
    | (refine Keeps.of_mk ?_ rfl rfl rfl rfl rfl rfl rfl rfl rfl rfl rfl)

theorem State.ceSession_keeps {z s : State}  (hz : Keeps z s) : Keeps z (State.ceSession s) := by
  unfold State.ceSession
  try dsimp only
  repeat' first
    | with_reducible assumption
    | with_reducible apply State.bumpCe_keeps
    | split
    | (refine Keeps.foldl (fun _ _ _ => ?_) ?_)
    | (refine Keeps.of_mk ?_ rfl rfl rfl rfl rfl rfl rfl rfl rfl rfl rfl)

theorem State.ceLedger_keeps {z s : State}  (hz : Keeps z s) : Keeps z (State.ceLedger s) := by
  unfold State.ceLedger
  try dsimp only
  repeat' first
    | with_reducible assumption
    | with_reducible apply State.bumpCe_keeps
    | split
    | (refine Keeps.foldl (fun _ _ _ => ?_) ?_)
    | (refine Keeps.of_mk ?_ rfl rfl rfl rfl rfl rfl rfl rfl rfl rfl rfl)

theorem State.ceRetained_keeps {z s : State}  (hz : Keeps z s) : Keeps z (State.ceRetained s) := by
  unfold State.ceRetained
  try dsimp only
  repeat' first
    | with_reducible assumption
    | with_reducible apply State.bumpCe_keeps
    | split
    | (refine Keeps.foldl (fun _ _ _ => ?_) ?_)
    | (refine Keeps.of_mk ?_ rfl rfl rfl rfl rfl rfl rfl rfl rfl rfl rfl)

theorem State.ceCommand_keeps {z s : State}  (hz : Keeps z s) : Keeps z (State.ceCommand s) := by
  unfold State.ceCommand
  try dsimp only
  repeat' first
    | with_reducible assumption
    | with_reducible apply State.bumpCe_keeps
    | split
    | (refine Keeps.foldl (fun _ _ _ => ?_) ?_)
    | (refine Keeps.of_mk ?_ rfl rfl rfl rfl rfl rfl rfl rfl rfl rfl rfl)

theorem State.ceRelq_keeps {z s : State} {r : Nat} (hz : Keeps z s) : Keeps z (State.ceRelq s r) := by
  unfold State.ceRelq
  try dsimp only
  repeat' first
    | with_reducible assumption
    | with_reducible apply State.bumpCe_keeps
    | split
    | (refine Keeps.foldl (fun _ _ _ => ?_) ?_)
    | (refine Keeps.of_mk ?_ rfl rfl rfl rfl rfl rfl rfl rfl rfl rfl rfl)

theorem State.ceUnit_keeps {z s : State}  (hz : Keeps z s) : Keeps z (State.ceUnit s) := by
  unfold State.ceUnit
  try dsimp only
  repeat' first
    | with_reducible assumption
    | with_reducible apply State.bumpCe_keeps
    | split
    | (refine Keeps.foldl (fun _ _ _ => ?_) ?_)
    | (refine Keeps.of_mk ?_ rfl rfl rfl rfl rfl rfl rfl rfl rfl rfl rfl)

theorem State.ueSsm_keeps {z s : State} {r : Nat} (hz : Keeps z s) : Keeps z (State.ueSsm s r) := by
  unfold State.ueSsm
  try dsimp only
  repeat' first
    | with_reducible assumption
    | with_reducible apply State.bumpCe_keeps
    | split
    | (refine Keeps.foldl (fun _ _ _ => ?_) ?_)
    | (refine Keeps.of_mk ?_ rfl rfl rfl rfl rfl rfl rfl rfl rfl rfl rfl)

theorem State.staleDrop_keeps {z s : State} {p : Nat} (hz : Keeps z s) : Keeps z (State.staleDrop s p) := by
  unfold State.staleDrop
  try dsimp only
  repeat' first
    | with_reducible assumption
    | (refine State.setPart_keeps _ _ ?_ (fun i => Keeps.ring ?_ _ i))
    | with_reducible apply State.setPart_keeps
    | split
    | (refine Keeps.foldl (fun _ _ _ => ?_) ?_)
    | (refine Keeps.of_mk ?_ rfl rfl rfl rfl rfl rfl rfl rfl rfl rfl rfl)

theorem State.stateDrop_keeps {z s : State} {p : Nat} (hz : Keeps z s) : Keeps z (State.stateDrop s p) := by
  unfold State.stateDrop
  try dsimp only
  repeat' first
    | with_reducible assumption
    | (refine State.setPart_keeps _ _ ?_ (fun i => Keeps.ring ?_ _ i))
    | with_reducible apply State.setPart_keeps
    | split
    | (refine Keeps.foldl (fun _ _ _ => ?_) ?_)
    | (refine Keeps.of_mk ?_ rfl rfl rfl rfl rfl rfl rfl rfl rfl rfl rfl)

theorem State.regReserved_keeps {z s : State} {off : Nat} {part : Option Nat} (hz : Keeps z s) : Keeps z (State.regReserved s off part) := by
  unfold State.regReserved
  try dsimp only
  repeat' first
    | with_reducible assumption
    | with_reducible apply State.trouble_keeps
    | split
    | (refine Keeps.foldl (fun _ _ _ => ?_) ?_)
    | (refine Keeps.of_mk ?_ rfl rfl rfl rfl rfl rfl rfl rfl rfl rfl rfl)

end Sys2Proof.Machine
end

