-- ==== Sys2Proof/Laws/KeepsNet.lean ====
section
/-! SUPPORT. Sending and answering: what each operation keeps, one lemma for each. -/
namespace Sys2Proof.Machine
set_option Elab.async false

theorem State.sendTo_keeps {z s : State} {typ : Nat} {dst : Nat} {cls : Nat} {payload : List Word} (hz : Keeps z s) : Keeps z (State.sendTo s typ dst cls payload) := by
  unfold State.sendTo
  try dsimp only
  repeat' first
    | with_reducible assumption
    | with_reducible apply State.queueOn_keeps
    | split
    | (refine Keeps.foldl (fun _ _ _ => ?_) ?_)
    | (refine Keeps.of_mk ?_ rfl rfl rfl rfl rfl rfl rfl rfl rfl rfl rfl)

theorem State.bcast_keeps {z s : State} {typ : Nat} {cls : Nat} {payload : List Word} (hz : Keeps z s) : Keeps z (State.bcast s typ cls payload) := by
  unfold State.bcast
  try dsimp only
  repeat' first
    | with_reducible assumption
    | with_reducible apply State.queueOn_keeps
    | split
    | (refine Keeps.foldl (fun _ _ _ => ?_) ?_)
    | (refine Keeps.of_mk ?_ rfl rfl rfl rfl rfl rfl rfl rfl rfl rfl rfl)

theorem State.sendWords_keeps {z s : State} {typ : Nat} {dst : Nat} {cls : Nat} {ws : List Word} (hz : Keeps z s) : Keeps z (State.sendWords s typ dst cls ws) := by
  unfold State.sendWords
  try dsimp only
  repeat' first
    | with_reducible assumption
    | with_reducible apply State.queueOn_keeps
    | split
    | (refine Keeps.foldl (fun _ _ _ => ?_) ?_)
    | (refine Keeps.of_mk ?_ rfl rfl rfl rfl rfl rfl rfl rfl rfl rfl rfl)

theorem State.reply_keeps {z s : State} {i : Issuer} {st : Status} {result : List Word} (hz : Keeps z s) : Keeps z (State.reply s i st result) := by
  unfold State.reply
  try dsimp only
  repeat' first
    | with_reducible assumption
    | with_reducible apply State.sendWords_keeps
    | with_reducible apply State.putOut_keeps
    | split
    | (refine Keeps.foldl (fun _ _ _ => ?_) ?_)
    | (refine Keeps.of_mk ?_ rfl rfl rfl rfl rfl rfl rfl rfl rfl rfl rfl)

theorem State.answer_keeps {z s : State} {i : Issuer} {st : Status} (hz : Keeps z s) : Keeps z (State.answer s i st) := by
  unfold State.answer
  try dsimp only
  repeat' first
    | with_reducible assumption
    | with_reducible apply State.reply_keeps
    | split
    | (refine Keeps.foldl (fun _ _ _ => ?_) ?_)
    | (refine Keeps.of_mk ?_ rfl rfl rfl rfl rfl rfl rfl rfl rfl rfl rfl)

theorem State.forward_keeps {z s : State} {dst : Nat} {ws : List Word} {i : Issuer} {slot : Option Nat} (hz : Keeps z s) : Keeps z (State.forward s dst ws i slot) := by
  unfold State.forward
  try dsimp only
  repeat' first
    | with_reducible assumption
    | with_reducible apply State.sendWords_keeps
    | split
    | (refine Keeps.foldl (fun _ _ _ => ?_) ?_)
    | (refine Keeps.of_mk ?_ rfl rfl rfl rfl rfl rfl rfl rfl rfl rfl rfl)

theorem State.client_keeps {z s : State} {part : Nat} {ws : List Word} (hz : Keeps z s) : Keeps z (State.client s part ws) := by
  unfold State.client
  try dsimp only
  repeat' first
    | with_reducible assumption
    | with_reducible apply State.putOut_keeps
    | split
    | (refine Keeps.foldl (fun _ _ _ => ?_) ?_)
    | (refine Keeps.of_mk ?_ rfl rfl rfl rfl rfl rfl rfl rfl rfl rfl rfl)

end Sys2Proof.Machine
end

