-- ==== Sys2Proof/Laws/KeepsTier.lean ====
section
/-! SUPPORT. The tier’s slices: what each operation keeps, one lemma for each. -/
namespace Sys2Proof.Machine
set_option Elab.async false

theorem State.touch_keeps {z s : State} {es : List Nat} (hz : Keeps z s) : Keeps z (s.touch es) :=
  hz.of_imp rfl rfl id id id id id id id id id id id id id id id id id id (fun hl => by simpa [State.touch] using hl)

theorem State.takeExts_keeps {z s : State} {es : List Nat} (hz : Keeps z s) : Keeps z (State.takeExts s es) := by
  unfold State.takeExts
  try dsimp only
  repeat' first
    | with_reducible assumption
    | with_reducible apply State.touch_keeps
    | split
    | (refine Keeps.foldl (fun _ _ _ => ?_) ?_)
    | (refine Keeps.of_mk ?_ rfl rfl rfl rfl rfl rfl rfl rfl rfl rfl rfl)

theorem State.keepAwake_keeps {z s : State}  (hz : Keeps z s) : Keeps z (State.keepAwake s) := by
  unfold State.keepAwake
  try dsimp only
  repeat' first
    | with_reducible assumption
    | with_reducible apply State.setDev_keeps
    | split
    | (refine Keeps.foldl (fun _ _ _ => ?_) ?_)
    | (refine Keeps.of_mk ?_ rfl rfl rfl rfl rfl rfl rfl rfl rfl rfl rfl)

theorem State.freeExtents_keeps {z s : State} {es : List Nat} (hz : Keeps z s) : Keeps z (State.freeExtents s es) := by
  unfold State.freeExtents
  try dsimp only
  repeat' first
    | with_reducible assumption
    | with_reducible apply State.touch_keeps
    | split
    | (refine Keeps.foldl (fun _ _ _ => ?_) ?_)
    | (refine Keeps.of_mk ?_ rfl rfl rfl rfl rfl rfl rfl rfl rfl rfl rfl)

theorem State.addHeld_keeps {z s : State} {t : Nat} {n : Nat} (hz : Keeps z s) : Keeps z (State.addHeld s t n) := by
  unfold State.addHeld
  try dsimp only
  repeat' first
    | with_reducible assumption
    | with_reducible apply State.setLedger_keeps
    | split
    | (refine Keeps.foldl (fun _ _ _ => ?_) ?_)
    | (refine Keeps.of_mk ?_ rfl rfl rfl rfl rfl rfl rfl rfl rfl rfl rfl)

theorem State.subHeld_keeps {z s : State} {t : Nat} {n : Nat} (hz : Keeps z s) : Keeps z (State.subHeld s t n) := by
  unfold State.subHeld
  try dsimp only
  repeat' first
    | with_reducible assumption
    | with_reducible apply State.setLedger_keeps
    | split
    | (refine Keeps.foldl (fun _ _ _ => ?_) ?_)
    | (refine Keeps.of_mk ?_ rfl rfl rfl rfl rfl rfl rfl rfl rfl rfl rfl)

theorem State.freeList_keeps {z s : State} {tenant : Option Nat} {head : Nat} {pages : Nat} (hz : Keeps z s) : Keeps z (State.freeList s tenant head pages) := by
  unfold State.freeList
  try dsimp only
  repeat' first
    | with_reducible assumption
    | with_reducible apply State.freeExtents_keeps
    | with_reducible apply State.subHeld_keeps
    | split
    | (refine Keeps.foldl (fun _ _ _ => ?_) ?_)
    | (refine Keeps.of_mk ?_ rfl rfl rfl rfl rfl rfl rfl rfl rfl rfl rfl)

theorem State.writePages_keeps {z s : State} {es : List Nat} {kind : Nat} {owner : Nat} {items : List (List Word)} (hz : Keeps z s) : Keeps z (State.writePages s es kind owner items) := by
  unfold State.writePages
  try dsimp only
  repeat' first
    | with_reducible assumption
    | with_reducible apply State.touch_keeps
    | split
    | (refine Keeps.foldl (fun _ _ _ => ?_) ?_)
    | (refine Keeps.of_mk ?_ rfl rfl rfl rfl rfl rfl rfl rfl rfl rfl rfl)

theorem State.freeSlice_keeps {z s : State} {tenant : Option Nat} {head : Nat} {pages : Nat} (hz : Keeps z s) : Keeps z (State.freeSlice s tenant head pages) := by
  unfold State.freeSlice
  try dsimp only
  repeat' first
    | with_reducible assumption
    | with_reducible apply State.freeList_keeps
    | split
    | (refine Keeps.foldl (fun _ _ _ => ?_) ?_)
    | (refine Keeps.of_mk ?_ rfl rfl rfl rfl rfl rfl rfl rfl rfl rfl rfl)

end Sys2Proof.Machine
end

