-- ==== Sys2Proof/Laws/KeepsFifo.lean ====
section
/-! SUPPORT. The rings and FIFOs: what each operation keeps, one lemma for each. -/
namespace Sys2Proof.Machine
set_option Elab.async false

theorem State.fifoRefusal_keeps {z s : State} {slot : Nat} (hz : Keeps z s) : Keeps z (State.fifoRefusal s slot) := by
  unfold State.fifoRefusal
  try dsimp only
  repeat' first
    | with_reducible assumption
    | split
    | (refine Keeps.foldl (fun _ _ _ => ?_) ?_)
    | (refine Keeps.of_mk ?_ rfl rfl rfl rfl rfl rfl rfl rfl rfl rfl rfl)

theorem State.countOverflow_keeps {z s : State} {slot : Nat} {n : Nat} (hz : Keeps z s) : Keeps z (State.countOverflow s slot n) := by
  unfold State.countOverflow
  try dsimp only
  repeat' first
    | with_reducible assumption
    | (refine State.setPart_keeps _ _ ?_ (fun i => Keeps.ring ?_ _ i))
    | with_reducible apply State.setPart_keeps
    | split
    | (refine Keeps.foldl (fun _ _ _ => ?_) ?_)
    | (refine Keeps.of_mk ?_ rfl rfl rfl rfl rfl rfl rfl rfl rfl rfl rfl)

theorem State.schedule_keeps {z s : State} {slot : Nat} {out : Bool} {r : RingD} {t : RingD} (hz : Keeps z s) : Keeps z (State.schedule s slot out r t) := by
  unfold State.schedule
  try dsimp only
  repeat' first
    | with_reducible assumption
    | with_reducible apply State.setSlot_keeps
    | split
    | (refine Keeps.foldl (fun _ _ _ => ?_) ?_)
    | (refine Keeps.of_mk ?_ rfl rfl rfl rfl rfl rfl rfl rfl rfl rfl rfl)

theorem State.pushOut_keeps {z s : State} {slot : Nat} {w : Word} (hz : Keeps z s) : Keeps z (State.pushOut s slot w).1 := by
  unfold State.pushOut
  try dsimp only
  repeat' first
    | with_reducible assumption
    | with_reducible apply State.setEdge_keeps
    | with_reducible apply State.countOverflow_keeps
    | with_reducible apply State.putMem_keeps
    | with_reducible apply State.schedule_keeps
    | with_reducible apply State.setEntry_keeps
    | split
    | (refine Keeps.foldl (fun _ _ _ => ?_) ?_)
    | (refine Keeps.of_mk ?_ rfl rfl rfl rfl rfl rfl rfl rfl rfl rfl rfl)

theorem State.pushOut_keeps_eq {z s t : State} {x : _} {slot : Nat} {w : Word} (e : State.pushOut s slot w = (t, x)) (hz : Keeps z s) : Keeps z t := by
  have k := State.pushOut_keeps hz (z := z) (slot := slot) (w := w)
  rw [e] at k
  exact k

theorem State.pushIn_keeps {z s : State} {slot : Nat} {w : Word} (hz : Keeps z s) : Keeps z (State.pushIn s slot w) := by
  unfold State.pushIn
  try dsimp only
  repeat' first
    | with_reducible assumption
    | with_reducible apply State.putMem_keeps
    | with_reducible apply State.schedule_keeps
    | with_reducible apply State.setEntry_keeps
    | with_reducible apply State.countOverflow_keeps
    | split
    | (refine Keeps.foldl (fun _ _ _ => ?_) ?_)
    | (refine Keeps.of_mk ?_ rfl rfl rfl rfl rfl rfl rfl rfl rfl rfl rfl)

theorem State.readOut_keeps {z s : State} {slot : Nat} (hz : Keeps z s) : Keeps z (State.readOut s slot) := by
  unfold State.readOut
  try dsimp only
  repeat' first
    | with_reducible assumption
    | with_reducible apply State.setEntry_keeps
    | split
    | (refine Keeps.foldl (fun _ _ _ => ?_) ?_)
    | (refine Keeps.of_mk ?_ rfl rfl rfl rfl rfl rfl rfl rfl rfl rfl rfl)

theorem State.resolveOut_keeps {z s : State} {slot : Nat} (hz : Keeps z s) : Keeps z (State.resolveOut s slot) := by
  unfold State.resolveOut
  try dsimp only
  repeat' first
    | with_reducible assumption
    | with_reducible apply State.fifoRefusal_keeps
    | with_reducible apply State.setEntry_keeps
    | split
    | (refine Keeps.foldl (fun _ _ _ => ?_) ?_)
    | (refine Keeps.of_mk ?_ rfl rfl rfl rfl rfl rfl rfl rfl rfl rfl rfl)

theorem State.consumeOut_keeps {z s : State} {slot : Nat} (hz : Keeps z s) : Keeps z (State.consumeOut s slot) := by
  unfold State.consumeOut
  try dsimp only
  repeat' first
    | with_reducible assumption
    | with_reducible apply State.readOut_keeps
    | with_reducible apply State.setEntry_keeps
    | with_reducible apply State.setSlot_keeps
    | split
    | (refine Keeps.foldl (fun _ _ _ => ?_) ?_)
    | (refine Keeps.of_mk ?_ rfl rfl rfl rfl rfl rfl rfl rfl rfl rfl rfl)

theorem State.markOut_keeps {z s : State} {slot : Nat} (hz : Keeps z s) : Keeps z (State.markOut s slot) := by
  unfold State.markOut
  try dsimp only
  repeat' first
    | with_reducible assumption
    | with_reducible apply State.consumeOut_keeps
    | with_reducible apply State.setEntry_keeps
    | split
    | (refine Keeps.foldl (fun _ _ _ => ?_) ?_)
    | (refine Keeps.of_mk ?_ rfl rfl rfl rfl rfl rfl rfl rfl rfl rfl rfl)

theorem State.consumeIn_keeps {z s : State} {slot : Nat} (hz : Keeps z s) : Keeps z (State.consumeIn s slot) := by
  unfold State.consumeIn
  try dsimp only
  repeat' first
    | with_reducible assumption
    | with_reducible apply State.setSlot_keeps
    | with_reducible apply State.setEntry_keeps
    | split
    | (refine Keeps.foldl (fun _ _ _ => ?_) ?_)
    | (refine Keeps.of_mk ?_ rfl rfl rfl rfl rfl rfl rfl rfl rfl rfl rfl)

theorem State.consumeRings_keeps {z s : State}  (hz : Keeps z s) : Keeps z (State.consumeRings s) := by
  unfold State.consumeRings
  try dsimp only
  repeat' first
    | with_reducible assumption
    | with_reducible apply State.consumeIn_keeps
    | with_reducible apply State.consumeOut_keeps
    | split
    | (refine Keeps.foldl (fun _ _ _ => ?_) ?_)
    | (refine Keeps.of_mk ?_ rfl rfl rfl rfl rfl rfl rfl rfl rfl rfl rfl)

theorem State.writeOut_keeps {z s : State} {slot : Nat} {w : Word} (hz : Keeps z s) : Keeps z (State.writeOut s slot w).1 := by
  unfold State.writeOut
  try dsimp only
  repeat' first
    | with_reducible assumption
    | with_reducible apply State.pushOut_keeps
    | (with_reducible refine State.pushOut_keeps_eq (by with_reducible assumption) ?_)
    | with_reducible apply State.consumeOut_keeps
    | split
    | (refine Keeps.foldl (fun _ _ _ => ?_) ?_)
    | (refine Keeps.of_mk ?_ rfl rfl rfl rfl rfl rfl rfl rfl rfl rfl rfl)

theorem State.writeOut_keeps_eq {z s t : State} {x : _} {slot : Nat} {w : Word} (e : State.writeOut s slot w = (t, x)) (hz : Keeps z s) : Keeps z t := by
  have k := State.writeOut_keeps hz (z := z) (slot := slot) (w := w)
  rw [e] at k
  exact k

theorem State.writeIn_keeps {z s : State} {slot : Nat} {pos : Nat} {toks : List Nat} (hz : Keeps z s) : Keeps z (State.writeIn s slot pos toks) := by
  unfold State.writeIn
  try dsimp only
  repeat' first
    | with_reducible assumption
    | with_reducible apply State.pushIn_keeps
    | with_reducible apply State.consumeIn_keeps
    | split
    | (refine Keeps.foldl (fun _ _ _ => ?_) ?_)
    | (refine Keeps.of_mk ?_ rfl rfl rfl rfl rfl rfl rfl rfl rfl rfl rfl)

theorem State.queueControl_keeps {z s : State} {l : Nat} {w : Word} (hz : Keeps z s) : Keeps z (State.queueControl s l w) := by
  unfold State.queueControl
  try dsimp only
  repeat' first
    | with_reducible assumption
    | with_reducible apply State.setRelq_keeps
    | split
    | (refine Keeps.foldl (fun _ _ _ => ?_) ?_)
    | (refine Keeps.of_mk ?_ rfl rfl rfl rfl rfl rfl rfl rfl rfl rfl rfl)

end Sys2Proof.Machine
end

