-- ==== Sys2Proof/Laws/KeepsPrefix.lean ====
section
/-! SUPPORT. The prefix directory: what each operation keeps, one lemma for each. -/
namespace Sys2Proof.Machine
set_option Elab.async false

theorem State.setHashRec_keeps {z s : State} {slot : Nat} {r : HashRec} (hz : Keeps z s) : Keeps z (State.setHashRec s slot r) := by
  unfold State.setHashRec
  try dsimp only
  repeat' first
    | with_reducible assumption
    | with_reducible apply State.putMem_keeps
    | split
    | (refine Keeps.foldl (fun _ _ _ => ?_) ?_)
    | (refine Keeps.of_mk ?_ rfl rfl rfl rfl rfl rfl rfl rfl rfl rfl rfl)

theorem State.openRec_keeps {z s : State} {slot : Nat} (hz : Keeps z s) : Keeps z (State.openRec s slot) := by
  unfold State.openRec
  try dsimp only
  repeat' first
    | with_reducible assumption
    | with_reducible apply State.setHashRec_keeps
    | split
    | (refine Keeps.foldl (fun _ _ _ => ?_) ?_)
    | (refine Keeps.of_mk ?_ rfl rfl rfl rfl rfl rfl rfl rfl rfl rfl rfl)

theorem State.brokenRec_keeps {z s : State} {slot : Nat} (hz : Keeps z s) : Keeps z (State.brokenRec s slot) := by
  unfold State.brokenRec
  try dsimp only
  repeat' first
    | with_reducible assumption
    | with_reducible apply State.setHashRec_keeps
    | split
    | (refine Keeps.foldl (fun _ _ _ => ?_) ?_)
    | (refine Keeps.of_mk ?_ rfl rfl rfl rfl rfl rfl rfl rfl rfl rfl rfl)

theorem State.breakRec_keeps {z s : State} {slot : Nat} (hz : Keeps z s) : Keeps z (State.breakRec s slot) := by
  unfold State.breakRec
  try dsimp only
  repeat' first
    | with_reducible assumption
    | with_reducible apply State.setHashRec_keeps
    | split
    | (refine Keeps.foldl (fun _ _ _ => ?_) ?_)
    | (refine Keeps.of_mk ?_ rfl rfl rfl rfl rfl rfl rfl rfl rfl rfl rfl)

theorem State.dirPut_keeps {z s : State} {i : Nat} {d : Option DirEnt} (hz : Keeps z s) : Keeps z (State.dirPut s i d) := by
  unfold State.dirPut
  try dsimp only
  repeat' first
    | with_reducible assumption
    | with_reducible apply State.putMem_keeps
    | split
    | (refine Keeps.foldl (fun _ _ _ => ?_) ?_)
    | (refine Keeps.of_mk ?_ rfl rfl rfl rfl rfl rfl rfl rfl rfl rfl rfl)

theorem State.hashBlock_keeps {z s : State} {slot : Nat} {toks : List Nat} (hz : Keeps z s) : Keeps z (State.hashBlock s slot toks) := by
  unfold State.hashBlock
  try dsimp only
  repeat' first
    | with_reducible assumption
    | with_reducible apply State.setHashRec_keeps
    | split
    | (refine Keeps.foldl (fun _ _ _ => ?_) ?_)
    | (refine Keeps.of_mk ?_ rfl rfl rfl rfl rfl rfl rfl rfl rfl rfl rfl)

theorem State.dirDrop_keeps {z s : State} {i : Nat} {d : DirEnt} (hz : Keeps z s) : Keeps z (State.dirDrop s i d) := by
  unfold State.dirDrop
  try dsimp only
  repeat' first
    | with_reducible assumption
    | with_reducible apply State.dirPut_keeps
    | with_reducible apply State.freeSlice_keeps
    | split
    | (refine Keeps.foldl (fun _ _ _ => ?_) ?_)
    | (refine Keeps.of_mk ?_ rfl rfl rfl rfl rfl rfl rfl rfl rfl rfl rfl)

theorem State.dirExpire_keeps {z s : State} {i : Nat} {d : DirEnt} (hz : Keeps z s) : Keeps z (State.dirExpire s i d) := by
  unfold State.dirExpire
  try dsimp only
  repeat' first
    | with_reducible assumption
    | with_reducible apply State.dirDrop_keeps
    | split
    | (refine Keeps.foldl (fun _ _ _ => ?_) ?_)
    | (refine Keeps.of_mk ?_ rfl rfl rfl rfl rfl rfl rfl rfl rfl rfl rfl)

theorem State.dirRetire_keeps {z s : State} {i : Nat} {d : DirEnt} (hz : Keeps z s) : Keeps z (State.dirRetire s i d) := by
  unfold State.dirRetire
  try dsimp only
  repeat' first
    | with_reducible assumption
    | with_reducible apply State.dirDrop_keeps
    | split
    | (refine Keeps.foldl (fun _ _ _ => ?_) ?_)
    | (refine Keeps.of_mk ?_ rfl rfl rfl rfl rfl rfl rfl rfl rfl rfl rfl)

theorem State.endOp_keeps {z s : State} {o : TierOp} (hz : Keeps z s) : Keeps z (State.endOp s o) := by
  unfold State.endOp
  try dsimp only
  repeat' first
    | with_reducible assumption
    | with_reducible apply State.freeSlice_keeps
    | with_reducible apply State.dirDrop_keeps
    | split
    | (refine Keeps.foldl (fun _ _ _ => ?_) ?_)
    | (refine Keeps.of_mk ?_ rfl rfl rfl rfl rfl rfl rfl rfl rfl rfl rfl)

end Sys2Proof.Machine
end

