-- ==== Sys2Proof/Laws/KeepsSession.lean ====
section
/-! SUPPORT. The life of a session: what each operation keeps, one lemma for each. -/
namespace Sys2Proof.Machine
set_option Elab.async false

theorem State.freeOpPages_keeps {z s : State} {o : TierOp} (hz : Keeps z s) : Keeps z (State.freeOpPages s o) := by
  unfold State.freeOpPages
  try dsimp only
  repeat' first
    | with_reducible assumption
    | with_reducible apply State.freeExtents_keeps
    | with_reducible apply State.subHeld_keeps
    | split
    | (refine Keeps.foldl (fun _ _ _ => ?_) ?_)
    | (refine Keeps.of_mk ?_ rfl rfl rfl rfl rfl rfl rfl rfl rfl rfl rfl)

theorem State.deadOp_keeps {z s : State} {o : TierOp} {slips : Bool} {counted : Bool} (hz : Keeps z s) : Keeps z (State.deadOp s o slips counted) := by
  unfold State.deadOp
  try dsimp only
  repeat' first
    | with_reducible assumption
    | with_reducible apply State.setOutLane_keeps
    | with_reducible apply State.setInLane_keeps
    | split
    | (refine Keeps.foldl (fun _ _ _ => ?_) ?_)
    | (refine Keeps.of_mk ?_ rfl rfl rfl rfl rfl rfl rfl rfl rfl rfl rfl)

theorem State.dropOps_keeps {z s : State} {slot : Nat} (hz : Keeps z s) : Keeps z (State.dropOps s slot) := by
  unfold State.dropOps
  try dsimp only
  repeat' first
    | with_reducible assumption
    | with_reducible apply State.endOp_keeps
    | with_reducible apply State.deadOp_keeps
    | with_reducible apply State.freeOpPages_keeps
    | split
    | (refine Keeps.foldl (fun _ _ _ => ?_) ?_)
    | (refine Keeps.of_mk ?_ rfl rfl rfl rfl rfl rfl rfl rfl rfl rfl rfl)

theorem State.holdReply_keeps {z s : State} {slot : Nat} {i : Issuer} (hz : Keeps z s) : Keeps z (State.holdReply s slot i) := by
  unfold State.holdReply
  try dsimp only
  repeat' first
    | with_reducible assumption
    | with_reducible apply State.setEntry_keeps
    | split
    | (refine Keeps.foldl (fun _ _ _ => ?_) ?_)
    | (refine Keeps.of_mk ?_ rfl rfl rfl rfl rfl rfl rfl rfl rfl rfl rfl)

theorem State.endPendWith_keeps {z s : State} {slot : Nat} {st : Status} {result : List Word} (hz : Keeps z s) : Keeps z (State.endPendWith s slot st result) := by
  unfold State.endPendWith
  try dsimp only
  repeat' first
    | with_reducible assumption
    | with_reducible apply State.setEntry_keeps
    | with_reducible apply State.reply_keeps
    | split
    | (refine Keeps.foldl (fun _ _ _ => ?_) ?_)
    | (refine Keeps.of_mk ?_ rfl rfl rfl rfl rfl rfl rfl rfl rfl rfl rfl)

theorem State.endPend_keeps {z s : State} {slot : Nat} {st : Status} (hz : Keeps z s) : Keeps z (State.endPend s slot st) := by
  unfold State.endPend
  try dsimp only
  repeat' first
    | with_reducible assumption
    | with_reducible apply State.endPendWith_keeps
    | split
    | (refine Keeps.foldl (fun _ _ _ => ?_) ?_)
    | (refine Keeps.of_mk ?_ rfl rfl rfl rfl rfl rfl rfl rfl rfl rfl rfl)

theorem State.freeEntry_keeps {z s : State} {slot : Nat} (hz : Keeps z s) : Keeps z (State.freeEntry s slot) := by
  unfold State.freeEntry
  try dsimp only
  repeat' first
    | with_reducible assumption
    | with_reducible apply State.setLedger_keeps
    | with_reducible apply State.setEntry_keeps
    | with_reducible apply State.setSlot_keeps
    | with_reducible apply State.setHome_keeps
    | with_reducible apply State.setEdge_keeps
    | split
    | (refine Keeps.foldl (fun _ _ _ => ?_) ?_)
    | (refine Keeps.of_mk ?_ rfl rfl rfl rfl rfl rfl rfl rfl rfl rfl rfl)

theorem State.tell_keeps {z s : State} {slot : Nat} {ws : List Word} (hz : Keeps z s) : Keeps z (State.tell s slot ws) := by
  unfold State.tell
  try dsimp only
  repeat' first
    | with_reducible assumption
    | with_reducible apply State.client_keeps
    | with_reducible apply State.setSlot_keeps
    | split
    | (refine Keeps.foldl (fun _ _ _ => ?_) ?_)
    | (refine Keeps.of_mk ?_ rfl rfl rfl rfl rfl rfl rfl rfl rfl rfl rfl)

theorem State.control_keeps {z s : State} {slot : Nat} {w : Word} (hz : Keeps z s) : Keeps z (State.control s slot w) := by
  unfold State.control
  try dsimp only
  repeat' first
    | with_reducible assumption
    | with_reducible apply State.queueControl_keeps
    | with_reducible apply State.tell_keeps
    | split
    | (refine Keeps.foldl (fun _ _ _ => ?_) ?_)
    | (refine Keeps.of_mk ?_ rfl rfl rfl rfl rfl rfl rfl rfl rfl rfl rfl)

theorem State.closeOut_keeps {z s : State} {slot : Nat} (hz : Keeps z s) : Keeps z (State.closeOut s slot) := by
  unfold State.closeOut
  try dsimp only
  repeat' first
    | with_reducible assumption
    | with_reducible apply State.putMem_keeps
    | with_reducible apply State.setEntry_keeps
    | split
    | (refine Keeps.foldl (fun _ _ _ => ?_) ?_)
    | (refine Keeps.of_mk ?_ rfl rfl rfl rfl rfl rfl rfl rfl rfl rfl rfl)

theorem State.endStepRing_keeps {z s : State} {slot : Nat} (hz : Keeps z s) : Keeps z (State.endStepRing s slot) := by
  unfold State.endStepRing
  try dsimp only
  repeat' first
    | with_reducible assumption
    | with_reducible apply State.resolveOut_keeps
    | with_reducible apply State.readOut_keeps
    | with_reducible apply State.closeOut_keeps
    | split
    | (refine Keeps.foldl (fun _ _ _ => ?_) ?_)
    | (refine Keeps.of_mk ?_ rfl rfl rfl rfl rfl rfl rfl rfl rfl rfl rfl)

theorem State.homeDropDrafts_keeps {z s0 : State} {slot : Nat} (hz : Keeps z s0) : Keeps z (State.homeDropDrafts s0 slot) := by
  unfold State.homeDropDrafts
  try dsimp only
  repeat' first
    | with_reducible assumption
    | with_reducible apply State.endStepRing_keeps
    | with_reducible apply State.setHome_keeps
    | with_reducible apply State.setEntry_keeps
    | split
    | (refine Keeps.foldl (fun _ _ _ => ?_) ?_)
    | (refine Keeps.of_mk ?_ rfl rfl rfl rfl rfl rfl rfl rfl rfl rfl rfl)

theorem State.closeStep_keeps {z s : State} {slot : Nat} (hz : Keeps z s) : Keeps z (State.closeStep s slot) := by
  unfold State.closeStep
  try dsimp only
  repeat' first
    | with_reducible assumption
    | with_reducible apply State.endStepRing_keeps
    | with_reducible apply State.setEntry_keeps
    | with_reducible apply State.setEdge_keeps
    | split
    | (refine Keeps.foldl (fun _ _ _ => ?_) ?_)
    | (refine Keeps.of_mk ?_ rfl rfl rfl rfl rfl rfl rfl rfl rfl rfl rfl)

theorem State.countRejected_keeps {z s : State} {slot : Nat} {n : Nat} (hz : Keeps z s) : Keeps z (State.countRejected s slot n) := by
  unfold State.countRejected
  try dsimp only
  repeat' first
    | with_reducible assumption
    | with_reducible apply State.setEntry_keeps
    | split
    | (refine Keeps.foldl (fun _ _ _ => ?_) ?_)
    | (refine Keeps.of_mk ?_ rfl rfl rfl rfl rfl rfl rfl rfl rfl rfl rfl)

theorem State.rejectDrafts_keeps {z s : State} {slot : Nat} (hz : Keeps z s) : Keeps z (State.rejectDrafts s slot) := by
  unfold State.rejectDrafts
  try dsimp only
  repeat' first
    | with_reducible assumption
    | with_reducible apply State.countRejected_keeps
    | with_reducible apply State.closeStep_keeps
    | split
    | (refine Keeps.foldl (fun _ _ _ => ?_) ?_)
    | (refine Keeps.of_mk ?_ rfl rfl rfl rfl rfl rfl rfl rfl rfl rfl rfl)

theorem State.closeDone_keeps {z s0 : State} {slot : Nat} (hz : Keeps z s0) : Keeps z (State.closeDone s0 slot) := by
  unfold State.closeDone
  try dsimp only
  repeat' first
    | with_reducible assumption
    | with_reducible apply State.dropOps_keeps
    | with_reducible apply State.freeEntry_keeps
    | with_reducible apply State.answer_keeps
    | split
    | (refine Keeps.foldl (fun _ _ _ => ?_) ?_)
    | (refine Keeps.of_mk ?_ rfl rfl rfl rfl rfl rfl rfl rfl rfl rfl rfl)

theorem State.homeStreamEnd_keeps {z s : State} {slot : Nat} {length : Nat} {r : Stop} {old : Nat} (hz : Keeps z s) : Keeps z (State.homeStreamEnd s slot length r old) := by
  unfold State.homeStreamEnd
  try dsimp only
  repeat' first
    | with_reducible assumption
    | with_reducible apply State.breakRec_keeps
    | with_reducible apply State.homeDropDrafts_keeps
    | with_reducible apply State.setEntry_keeps
    | with_reducible apply State.setHome_keeps
    | with_reducible apply State.closeDone_keeps
    | split
    | (refine Keeps.foldl (fun _ _ _ => ?_) ?_)
    | (refine Keeps.of_mk ?_ rfl rfl rfl rfl rfl rfl rfl rfl rfl rfl rfl)

theorem State.endStreamTo_keeps {z s : State} {slot : Nat} {r : Stop} {length : Nat} {out : Nat} (hz : Keeps z s) : Keeps z (State.endStreamTo s slot r length out) := by
  unfold State.endStreamTo
  try dsimp only
  repeat' first
    | with_reducible assumption
    | with_reducible apply State.rejectDrafts_keeps
    | with_reducible apply State.setEntry_keeps
    | with_reducible apply State.setEdge_keeps
    | with_reducible apply State.control_keeps
    | with_reducible apply State.raise_keeps
    | with_reducible apply State.homeStreamEnd_keeps
    | with_reducible apply State.sendTo_keeps
    | with_reducible apply State.freeEntry_keeps
    | split
    | (refine Keeps.foldl (fun _ _ _ => ?_) ?_)
    | (refine Keeps.of_mk ?_ rfl rfl rfl rfl rfl rfl rfl rfl rfl rfl rfl)

theorem State.endStream_keeps {z s : State} {slot : Nat} {r : Stop} {length : Nat} (hz : Keeps z s) : Keeps z (State.endStream s slot r length) := by
  unfold State.endStream
  try dsimp only
  repeat' first
    | with_reducible assumption
    | with_reducible apply State.endStreamTo_keeps
    | split
    | (refine Keeps.foldl (fun _ _ _ => ?_) ?_)
    | (refine Keeps.of_mk ?_ rfl rfl rfl rfl rfl rfl rfl rfl rfl rfl rfl)

theorem State.edgeClose_keeps {z s : State} {slot : Nat} {r : Stop} (hz : Keeps z s) : Keeps z (State.edgeClose s slot r) := by
  unfold State.edgeClose
  try dsimp only
  repeat' first
    | with_reducible assumption
    | with_reducible apply State.rejectDrafts_keeps
    | with_reducible apply State.setEdge_keeps
    | with_reducible apply State.endStream_keeps
    | with_reducible apply State.closeDone_keeps
    | with_reducible apply State.freeEntry_keeps
    | split
    | (refine Keeps.foldl (fun _ _ _ => ?_) ?_)
    | (refine Keeps.of_mk ?_ rfl rfl rfl rfl rfl rfl rfl rfl rfl rfl rfl)

theorem State.freeCopy_keeps {z s : State} {slot : Nat} (hz : Keeps z s) : Keeps z (State.freeCopy s slot) := by
  unfold State.freeCopy
  try dsimp only
  repeat' first
    | with_reducible assumption
    | with_reducible apply State.freeSlice_keeps
    | with_reducible apply State.setEntry_keeps
    | split
    | (refine Keeps.foldl (fun _ _ _ => ?_) ?_)
    | (refine Keeps.of_mk ?_ rfl rfl rfl rfl rfl rfl rfl rfl rfl rfl rfl)

theorem State.startClose_keeps {z s : State} {slot : Nat} {r : Stop} (hz : Keeps z s) : Keeps z (State.startClose s slot r) := by
  unfold State.startClose
  try dsimp only
  repeat' first
    | with_reducible assumption
    | with_reducible apply State.freeCopy_keeps
    | with_reducible apply State.homeDropDrafts_keeps
    | with_reducible apply State.bcast_keeps
    | with_reducible apply State.setEntry_keeps
    | with_reducible apply State.edgeClose_keeps
    | with_reducible apply State.closeDone_keeps
    | split
    | (refine Keeps.foldl (fun _ _ _ => ?_) ?_)
    | (refine Keeps.of_mk ?_ rfl rfl rfl rfl rfl rfl rfl rfl rfl rfl rfl)

theorem State.cancelLocal_keeps {z s : State} {slot : Nat} {c : Cancel} (hz : Keeps z s) : Keeps z (State.cancelLocal s slot c) := by
  unfold State.cancelLocal
  try dsimp only
  repeat' first
    | with_reducible assumption
    | with_reducible apply State.dropOps_keeps
    | with_reducible apply State.endPend_keeps
    | with_reducible apply State.answer_keeps
    | with_reducible apply State.freeCopy_keeps
    | with_reducible apply State.control_keeps
    | with_reducible apply State.setEntry_keeps
    | with_reducible apply State.setSlot_keeps
    | with_reducible apply State.setHome_keeps
    | with_reducible apply State.setEdge_keeps
    | with_reducible apply State.raise_keeps
    | split
    | (refine Keeps.foldl (fun _ _ _ => ?_) ?_)
    | (refine Keeps.of_mk ?_ rfl rfl rfl rfl rfl rfl rfl rfl rfl rfl rfl)

theorem State.cancelAll_keeps {z s : State} {slot : Nat} {c : Cancel} (hz : Keeps z s) : Keeps z (State.cancelAll s slot c) := by
  unfold State.cancelAll
  try dsimp only
  repeat' first
    | with_reducible assumption
    | with_reducible apply State.cancelLocal_keeps
    | with_reducible apply State.bcast_keeps
    | with_reducible apply State.sendTo_keeps
    | split
    | (refine Keeps.foldl (fun _ _ _ => ?_) ?_)
    | (refine Keeps.of_mk ?_ rfl rfl rfl rfl rfl rfl rfl rfl rfl rfl rfl)

end Sys2Proof.Machine
end

