-- ==== Sys2Proof/Laws/KeepsReset.lean ====
section
/-! SUPPORT. Resets and what they clear: what each operation keeps, one lemma for each. -/
namespace Sys2Proof.Machine
set_option Elab.async false

theorem State.resetEntries_keeps {z s : State}  (hz : Keeps z s) : Keeps z (State.resetEntries s) := by
  unfold State.resetEntries
  try dsimp only
  repeat' first
    | with_reducible assumption
    | with_reducible apply State.setEntry_keeps
    | with_reducible apply State.freeEntry_keeps
    | split
    | (refine Keeps.foldl (fun _ _ _ => ?_) ?_)
    | (refine Keeps.of_mk ?_ rfl rfl rfl rfl rfl rfl rfl rfl rfl rfl rfl)

theorem State.resetOps_keeps {z s : State} (hz : Keeps z s) : Keeps z s.resetOps := by
  unfold State.resetOps
  have k : Keeps z (s.tier.ops.foldl (fun s o => (s.freeOpPages o).endOp o) s) :=
    Keeps.foldl (fun _ _ h => State.endOp_keeps (State.freeOpPages_keeps h)) hz
  exact k.of_imp rfl rfl id id id id id id id id id id id id id id id id id id (fun hl => by simpa using hl)

theorem mapParts_wf (f : Partn → Partn) {l : List (Nat × Partn)} (h : swf Partn.cold l = true) : swf Partn.cold (mapParts f l) = true := by
  have key : ∀ (l : List (Nat × Partn)) (b : Nat), (∀ c ∈ l, b < c.1) → ∀ c ∈ mapParts f l, b < c.1 := by
    intro l b hb
    induction l with
    | nil => simp [mapParts]
    | cons c t ih =>
      have ih := ih fun x hx => hb x (List.mem_cons_of_mem _ hx)
      intro x hx
      simp only [mapParts, List.foldr_cons] at hx
      split at hx
      · exact ih x hx
      · rcases List.mem_cons.1 hx with rfl | hx
        · exact hb c List.mem_cons_self
        · exact ih x hx
  induction l with
  | nil => rfl
  | cons c t ih =>
    obtain ⟨k, w⟩ := c
    obtain ⟨_, hk, ht⟩ := swf_cons_iff.1 h
    simp only [mapParts, List.foldr_cons]
    split
    · exact ih ht
    · rename_i hne
      exact swf_cons_iff.2 ⟨hne, key t k hk, ih ht⟩

/-- A partition read from the mapped ones is the image of one of them, or a partition at its reset values. -/
theorem sget_mapParts (f : Partn → Partn) (p : Nat) (l : List (Nat × Partn)) :
    sget Partn.cold (mapParts f l) p = Partn.cold ∨ ∃ q, sget Partn.cold (mapParts f l) p = f q ∧ (p, q) ∈ l := by
  induction l with
  | nil => exact Or.inl rfl
  | cons c t ih =>
    obtain ⟨k, w⟩ := c
    simp only [mapParts, List.foldr_cons]
    split
    · rcases ih with h | ⟨q, h, hq⟩
      · exact Or.inl h
      · exact Or.inr ⟨q, h, List.mem_cons_of_mem _ hq⟩
    · by_cases hk : k = p
      · exact Or.inr ⟨w, by simp [sget, hk], by simp [hk]⟩
      · simp only [sget, if_neg hk]
        rcases ih with h | ⟨q, h, hq⟩
        · exact Or.inl h
        · exact Or.inr ⟨q, h, List.mem_cons_of_mem _ hq⟩

/-- In a canonical store the value read is the one listed. -/
theorem sget_of_mem {α : Type} [DecidableEq α] {d v : α} {l : List (Nat × α)} {p : Nat} (h : swf d l = true) (hp : (p, v) ∈ l) :
    sget d l p = v := by
  induction l with
  | nil => simp at hp
  | cons c t ih =>
    obtain ⟨k, w⟩ := c
    obtain ⟨_, hk, ht⟩ := swf_cons_iff.1 h
    rcases List.mem_cons.1 hp with e | hp
    · injection e with e1 e2
      simp [sget, e1, e2]
    · have := hk (p, v) hp
      have hne : k ≠ p := by simp at this; omega
      simp only [sget, if_neg hne]
      exact ih ht hp

theorem State.clearJob_keeps {z s : State} (hz : Keeps z s) : Keeps z s.clearJob := by
  unfold State.clearJob
  dsimp only
  have k := State.resetEntries_keeps (State.resetOps_keeps hz)
  generalize s.resetOps.resetEntries = s1 at k
  refine k.of_imp rfl rfl id id (fun _ => rfl) (fun _ => rfl) (fun _ => rfl) id (fun h => mapParts_wf _ h) (fun _ p => ?_)
    (fun _ => Nat.zero_le _) (fun _ => Nat.zero_le _) id id (fun hl => by simpa using hl) (fun hl => by simpa using hl) (fun _ => rfl)
    (fun hl => by simpa using hl) id (fun _ => rfl) id
  unfold State.part
  dsimp only
  rcases sget_mapParts Partn.reset p s1.parts with h | ⟨q, h, _⟩ <;> rw [h] <;> exact Nat.zero_le _

theorem State.clearWarm_keeps {z s : State} (hz : Keeps z s) : Keeps z s.clearWarm := by
  refine ⟨hz.grade, hz.pending, fun i => ?_⟩
  have hs := hz.inv i
  have b : ∀ p, (sget Partn.cold (mapParts (fun p => { p with version := none }) s.parts) p).ring.length ≤ 16 := fun p => by
    rcases sget_mapParts (fun p => { p with version := none }) p s.parts with h | ⟨q, h, hq⟩
    · rw [h]; exact Nat.zero_le _
    · rw [h]
      have := hs.bounded.rings p
      unfold State.part at this
      rw [sget_of_mem hs.canonical.parts hq] at this
      exact this
  exact ((Keeps.refl s).of_imp (t := s.clearWarm) rfl rfl id id id id id id (fun h => (mapParts_wf (fun p => { p with version := none }) h : swf Partn.cold (mapParts _ s.parts) = true)) (fun _ => b) id id id id
    (fun hl => by simpa [State.clearWarm] using hl) (fun hl => by simpa [State.clearWarm] using hl) id id id id id).inv hs

theorem State.clearCold_keeps {z s : State} (hz : Keeps z s) : Keeps z s.clearCold := by
  unfold State.clearCold
  exact hz.of_imp rfl rfl (fun _ => rfl) (fun _ => rfl) id id id (fun _ => rfl) (fun _ => rfl) (fun _ _ => Nat.zero_le _) id
    (fun _ => Nat.zero_le _) (fun _ => (by decide : TimeU.cold.t48 < 2 ^ 112)) (fun _ => (by decide : TimeU.cold.quarters < 160))
    (fun _ => rfl) (fun _ => rfl) (fun _ => rfl) (fun hl => by simpa using hl) id (fun _ => rfl) (fun hl => by simpa using hl)

theorem State.clearFor_keeps {z s : State} {a1 : Reach} (hz : Keeps z s) : Keeps z (State.clearFor s a1) := by
  unfold State.clearFor
  try dsimp only
  repeat' first
    | with_reducible assumption
    | with_reducible apply State.clearJob_keeps
    | with_reducible apply State.clearWarm_keeps
    | with_reducible apply State.clearCold_keeps
    | split
    | (refine Keeps.foldl (fun _ _ _ => ?_) ?_)
    | (refine Keeps.of_mk ?_ rfl rfl rfl rfl rfl rfl rfl rfl rfl rfl rfl)

theorem State.dropOut_keeps {z s : State} {r : Reach} (hz : Keeps z s) : Keeps z (State.dropOut s r) := by
  unfold State.dropOut
  try dsimp only
  repeat' first
    | with_reducible assumption
    | split
    | (refine Keeps.foldl (fun _ _ _ => ?_) ?_)
    | (refine Keeps.of_mk ?_ rfl rfl rfl rfl rfl rfl rfl rfl rfl rfl rfl)

theorem State.assertReset_keeps {z s : State} {r : Reach} {src : Nat} {cycles : Nat} (hz : Keeps z s) : Keeps z (State.assertReset s r src cycles) := by
  unfold State.assertReset
  try dsimp only
  repeat' first
    | with_reducible assumption
    | with_reducible apply State.clearFor_keeps
    | with_reducible apply State.dropOut_keeps
    | split
    | (refine Keeps.foldl (fun _ _ _ => ?_) ?_)
    | (refine Keeps.of_mk ?_ rfl rfl rfl rfl rfl rfl rfl rfl rfl rfl rfl)

theorem State.announceFault_keeps {z s : State} {c : Cause} {o : Obj} {part : Option Nat} {detail : Word} (hz : Keeps z s) : Keeps z (State.announceFault s c o part detail) := by
  unfold State.announceFault
  try dsimp only
  repeat' first
    | with_reducible assumption
    | with_reducible apply State.bcast_keeps
    | with_reducible apply State.faultEntry_keeps
    | split
    | (refine Keeps.foldl (fun _ _ _ => ?_) ?_)
    | (refine Keeps.of_mk ?_ rfl rfl rfl rfl rfl rfl rfl rfl rfl rfl rfl)

theorem State.jobFault_keeps {z s : State} {c : Cause} {o : Obj} {part : Option Nat} {detail : Word} (hz : Keeps z s) : Keeps z (State.jobFault s c o part detail) := by
  unfold State.jobFault
  try dsimp only
  repeat' first
    | with_reducible assumption
    | with_reducible apply State.assertReset_keeps
    | with_reducible apply State.announceFault_keeps
    | split
    | (refine Keeps.foldl (fun _ _ _ => ?_) ?_)
    | (refine Keeps.of_mk ?_ rfl rfl rfl rfl rfl rfl rfl rfl rfl rfl rfl)

theorem State.wideReset_keeps {z s : State} {r : Reach} {src : Nat} {cycles : Nat} (hz : Keeps z s) : Keeps z (State.wideReset s r src cycles) := by
  unfold State.wideReset
  try dsimp only
  repeat' first
    | with_reducible assumption
    | with_reducible apply State.announceFault_keeps
    | with_reducible apply State.assertReset_keeps
    | split
    | (refine Keeps.foldl (fun _ _ _ => ?_) ?_)
    | (refine Keeps.of_mk ?_ rfl rfl rfl rfl rfl rfl rfl rfl rfl rfl rfl)

theorem State.entryLost_keeps {z s : State} {slot : Nat} (hz : Keeps z s) : Keeps z (State.entryLost s slot) := by
  unfold State.entryLost
  try dsimp only
  repeat' first
    | with_reducible assumption
    | with_reducible apply State.freeCopy_keeps
    | with_reducible apply State.dropOps_keeps
    | with_reducible apply State.setEntry_keeps
    | with_reducible apply State.freeEntry_keeps
    | with_reducible apply State.jobFault_keeps
    | split
    | (refine Keeps.foldl (fun _ _ _ => ?_) ?_)
    | (refine Keeps.of_mk ?_ rfl rfl rfl rfl rfl rfl rfl rfl rfl rfl rfl)

theorem State.entryBad_keeps {z s : State} {slot : Nat} {word : Nat} (hz : Keeps z s) : Keeps z (State.entryBad s slot word) := by
  unfold State.entryBad
  try dsimp only
  repeat' first
    | with_reducible assumption
    | with_reducible apply State.entryLost_keeps
    | with_reducible apply State.cancelAll_keeps
    | with_reducible apply State.trouble_keeps
    | split
    | (refine Keeps.foldl (fun _ _ _ => ?_) ?_)
    | (refine Keeps.of_mk ?_ rfl rfl rfl rfl rfl rfl rfl rfl rfl rfl rfl)

theorem State.entryCheck_keeps {z s : State} {slot : Nat} {f : WordFind} (hz : Keeps z s) : Keeps z (State.entryCheck s slot f) := by
  unfold State.entryCheck
  try dsimp only
  repeat' first
    | with_reducible assumption
    | with_reducible apply State.ceSession_keeps
    | with_reducible apply State.entryBad_keeps
    | split
    | (refine Keeps.foldl (fun _ _ _ => ?_) ?_)
    | (refine Keeps.of_mk ?_ rfl rfl rfl rfl rfl rfl rfl rfl rfl rfl rfl)

end Sys2Proof.Machine
end

