-- ==== Sys2Proof/Laws/KeepsSsm.lean ====
section
/-! SUPPORT. Shared screening memory: what each operation keeps, one lemma for each. -/
namespace Sys2Proof.Machine
set_option Elab.async false

theorem State.ssmCorrect_keeps {z s : State} {row : Nat} (hz : Keeps z s) : Keeps z (State.ssmCorrect s row) := by
  unfold State.ssmCorrect
  try dsimp only
  repeat' first
    | with_reducible assumption
    | with_reducible apply State.ceSsm_keeps
    | split
    | (refine Keeps.foldl (fun _ _ _ => ?_) ?_)
    | (refine Keeps.of_mk ?_ rfl rfl rfl rfl rfl rfl rfl rfl rfl rfl rfl)

theorem State.ssmUe_keeps {z s : State} {row : Nat} (hz : Keeps z s) : Keeps z (State.ssmUe s row) := by
  unfold State.ssmUe
  try dsimp only
  repeat' first
    | with_reducible assumption
    | with_reducible apply State.supersede_keeps
    | with_reducible apply State.ueSsm_keeps
    | with_reducible apply State.zeroMem_keeps
    | with_reducible apply State.trouble_keeps
    | with_reducible apply State.cancelAll_keeps
    | with_reducible apply State.jobFault_keeps
    | split
    | (refine Keeps.foldl (fun _ _ _ => ?_) ?_)
    | (refine Keeps.of_mk ?_ rfl rfl rfl rfl rfl rfl rfl rfl rfl rfl rfl)

theorem State.unitBad_keeps {z s : State} {slot : Nat} (hz : Keeps z s) : Keeps z (State.unitBad s slot) := by
  unfold State.unitBad
  try dsimp only
  repeat' first
    | with_reducible assumption
    | with_reducible apply State.cancelAll_keeps
    | with_reducible apply State.trouble_keeps
    | split
    | (refine Keeps.foldl (fun _ _ _ => ?_) ?_)
    | (refine Keeps.of_mk ?_ rfl rfl rfl rfl rfl rfl rfl rfl rfl rfl rfl)

theorem State.itemCheck_keeps {z s : State} {slot : Nat} {a2 : ItemFind} (hz : Keeps z s) : Keeps z (State.itemCheck s slot a2) := by
  unfold State.itemCheck
  try dsimp only
  repeat' first
    | with_reducible assumption
    | with_reducible apply State.ssmCorrect_keeps
    | with_reducible apply State.ssmUe_keeps
    | with_reducible apply State.ceUnit_keeps
    | with_reducible apply State.unitBad_keeps
    | with_reducible apply State.jobFault_keeps
    | split
    | (refine Keeps.foldl (fun _ _ _ => ?_) ?_)
    | (refine Keeps.of_mk ?_ rfl rfl rfl rfl rfl rfl rfl rfl rfl rfl rfl)

end Sys2Proof.Machine
end

