-- ==== Sys2Proof/Laws/KeepsScreen.lean ====
section
/-! SUPPORT. Screening: what each operation keeps, one lemma for each. -/
namespace Sys2Proof.Machine
set_option Elab.async false

theorem State.edgeVerdict_keeps {z s : State} {slot : Nat} {w : Word} (hz : Keeps z s) : Keeps z (State.edgeVerdict s slot w) := by
  unfold State.edgeVerdict
  try dsimp only
  repeat' first
    | with_reducible assumption
    | with_reducible apply State.stateDrop_keeps
    | with_reducible apply State.setEdge_keeps
    | split
    | (refine Keeps.foldl (fun _ _ _ => ?_) ?_)
    | (refine Keeps.of_mk ?_ rfl rfl rfl rfl rfl rfl rfl rfl rfl rfl rfl)

theorem State.noteAnomalies_keeps {z s : State} {slot : Nat} {nan : Bool} {degraded : Bool} (hz : Keeps z s) : Keeps z (State.noteAnomalies s slot nan degraded) := by
  unfold State.noteAnomalies
  try dsimp only
  repeat' first
    | with_reducible assumption
    | with_reducible apply State.setSticky_keeps
    | (refine State.setPart_keeps _ _ ?_ (fun i => Keeps.ring ?_ _ i))
    | with_reducible apply State.setPart_keeps
    | split
    | (refine Keeps.foldl (fun _ _ _ => ?_) ?_)
    | (refine Keeps.of_mk ?_ rfl rfl rfl rfl rfl rfl rfl rfl rfl rfl rfl)

theorem State.sendVerdict_keeps {z s : State} {slot : Nat} {v : Verdict} (hz : Keeps z s) : Keeps z (State.sendVerdict s slot v) := by
  unfold State.sendVerdict
  try dsimp only
  repeat' first
    | with_reducible assumption
    | with_reducible apply State.noteAnomalies_keeps
    | with_reducible apply State.edgeVerdict_keeps
    | with_reducible apply State.sendTo_keeps
    | split
    | (refine Keeps.foldl (fun _ _ _ => ?_) ?_)
    | (refine Keeps.of_mk ?_ rfl rfl rfl rfl rfl rfl rfl rfl rfl rfl rfl)

theorem State.edgeStep_keeps {z s : State} {slot : Nat} {ckpt : Bool} (hz : Keeps z s) : Keeps z (State.edgeStep s slot ckpt) := by
  unfold State.edgeStep
  try dsimp only
  repeat' first
    | with_reducible assumption
    | with_reducible apply State.setEdge_keeps
    | with_reducible apply State.setEntry_keeps
    | split
    | (refine Keeps.foldl (fun _ _ _ => ?_) ?_)
    | (refine Keeps.of_mk ?_ rfl rfl rfl rfl rfl rfl rfl rfl rfl rfl rfl)

theorem State.decideStep_keeps {z s : State} {slot : Nat} (hz : Keeps z s) : Keeps z (State.decideStep s slot) := by
  unfold State.decideStep
  try dsimp only
  repeat' first
    | with_reducible assumption
    | with_reducible apply State.setHome_keeps
    | with_reducible apply State.setEntry_keeps
    | with_reducible apply State.edgeStep_keeps
    | with_reducible apply State.sendTo_keeps
    | split
    | (refine Keeps.foldl (fun _ _ _ => ?_) ?_)
    | (refine Keeps.of_mk ?_ rfl rfl rfl rfl rfl rfl rfl rfl rfl rfl rfl)

theorem State.pushWork_keeps {z s : State} {slot : Nat} {w : Work} (hz : Keeps z s) : Keeps z (State.pushWork s slot w) := by
  unfold State.pushWork
  try dsimp only
  repeat' first
    | with_reducible assumption
    | with_reducible apply State.setHome_keeps
    | split
    | (refine Keeps.foldl (fun _ _ _ => ?_) ?_)
    | (refine Keeps.of_mk ?_ rfl rfl rfl rfl rfl rfl rfl rfl rfl rfl rfl)

theorem State.sendTurn_keeps {z s : State} {slot : Nat} {no : Nat} {pos : Nat} (hz : Keeps z s) : Keeps z (State.sendTurn s slot no pos) := by
  unfold State.sendTurn
  try dsimp only
  repeat' first
    | with_reducible assumption
    | with_reducible apply State.sendVerdict_keeps
    | with_reducible apply State.setHome_keeps
    | split
    | (refine Keeps.foldl (fun _ _ _ => ?_) ?_)
    | (refine Keeps.of_mk ?_ rfl rfl rfl rfl rfl rfl rfl rfl rfl rfl rfl)

theorem State.settleHome_keeps {z : State} {slot : Nat} : ∀ {n : Nat} {s : State}, Keeps z s → Keeps z (State.settleHome n s slot)
  | 0, _, hz => hz
  | n + 1, s, hz => by
    unfold State.settleHome
    dsimp only
    repeat' first
      | with_reducible assumption
      | with_reducible apply State.settleHome_keeps
      | with_reducible apply State.setHome_keeps
      | with_reducible apply State.setEntry_keeps
      | with_reducible apply State.sendTurn_keeps
      | with_reducible apply State.decideStep_keeps
      | split

theorem State.settle_keeps {z s : State} {slot : Nat} (hz : Keeps z s) : Keeps z (State.settle s slot) := by
  unfold State.settle
  try dsimp only
  repeat' first
    | with_reducible assumption
    | with_reducible apply State.settleHome_keeps
    | split
    | (refine Keeps.foldl (fun _ _ _ => ?_) ?_)
    | (refine Keeps.of_mk ?_ rfl rfl rfl rfl rfl rfl rfl rfl rfl rfl rfl)

theorem State.hashToken_keeps {z s : State} {slot : Nat} {tok : Nat} (hz : Keeps z s) : Keeps z (State.hashToken s slot tok) := by
  unfold State.hashToken
  try dsimp only
  repeat' first
    | with_reducible assumption
    | with_reducible apply State.setHome_keeps
    | with_reducible apply State.setHashRec_keeps
    | split
    | (refine Keeps.foldl (fun _ _ _ => ?_) ?_)
    | (refine Keeps.of_mk ?_ rfl rfl rfl rfl rfl rfl rfl rfl rfl rfl rfl)

theorem State.homeToken_keeps {z s : State} {slot : Nat} {pos : Nat} {tok : Nat} {outBefore : Nat} {image : Nat} {stamp : Nat} (hz : Keeps z s) : Keeps z (State.homeToken s slot pos tok outBefore image stamp) := by
  unfold State.homeToken
  try dsimp only
  repeat' first
    | with_reducible assumption
    | with_reducible apply State.settle_keeps
    | with_reducible apply State.pushWork_keeps
    | with_reducible apply State.hashToken_keeps
    | split
    | (refine Keeps.foldl (fun _ _ _ => ?_) ?_)
    | (refine Keeps.of_mk ?_ rfl rfl rfl rfl rfl rfl rfl rfl rfl rfl rfl)

theorem State.homeDraft_keeps {z s : State} {slot : Nat} {chain : Nat} {depth : Nat} {tok : Nat} {image : Nat} {stamp : Nat} {whole : Bool} (hz : Keeps z s) : Keeps z (State.homeDraft s slot chain depth tok image stamp whole) := by
  unfold State.homeDraft
  try dsimp only
  repeat' first
    | with_reducible assumption
    | with_reducible apply State.setHome_keeps
    | with_reducible apply State.settle_keeps
    | split
    | (refine Keeps.foldl (fun _ _ _ => ?_) ?_)
    | (refine Keeps.of_mk ?_ rfl rfl rfl rfl rfl rfl rfl rfl rfl rfl rfl)

theorem State.homeResolve_keeps {z s : State} {slot : Nat} {chain : Nat} {n : Nat} {pos : Nat} {outBefore : Nat} {image : Nat} {stamp : Nat} (hz : Keeps z s) : Keeps z (State.homeResolve s slot chain n pos outBefore image stamp) := by
  unfold State.homeResolve
  try dsimp only
  repeat' first
    | with_reducible assumption
    | with_reducible apply State.setHome_keeps
    | with_reducible apply State.hashToken_keeps
    | with_reducible apply State.settle_keeps
    | with_reducible apply State.pushWork_keeps
    | split
    | (refine Keeps.foldl (fun _ _ _ => ?_) ?_)
    | (refine Keeps.of_mk ?_ rfl rfl rfl rfl rfl rfl rfl rfl rfl rfl rfl)

theorem State.beginTurn_keeps {z s : State} {slot : Nat} {pos : Nat} {image : Nat} (hz : Keeps z s) : Keeps z (State.beginTurn s slot pos image) := by
  unfold State.beginTurn
  try dsimp only
  repeat' first
    | with_reducible assumption
    | with_reducible apply State.setHome_keeps
    | split
    | (refine Keeps.foldl (fun _ _ _ => ?_) ?_)
    | (refine Keeps.of_mk ?_ rfl rfl rfl rfl rfl rfl rfl rfl rfl rfl rfl)

theorem State.homePrompt_keeps {z s : State} {slot : Nat} {t : TurnAcc} {screened : Bool} {pos : Nat} {idx : Nat} {tok : Nat} {stamp : Nat} (hz : Keeps z s) : Keeps z (State.homePrompt s slot t screened pos idx tok stamp) := by
  unfold State.homePrompt
  try dsimp only
  repeat' first
    | with_reducible assumption
    | with_reducible apply State.hashToken_keeps
    | with_reducible apply State.setHome_keeps
    | with_reducible apply State.pushWork_keeps
    | split
    | (refine Keeps.foldl (fun _ _ _ => ?_) ?_)
    | (refine Keeps.of_mk ?_ rfl rfl rfl rfl rfl rfl rfl rfl rfl rfl rfl)

theorem State.homeFeed_keeps {z s : State} {slot : Nat} {first : Bool} {last : Bool} {toks : List Nat} {pos : Nat} {idx : Nat} {image : Nat} {stamp : Nat} (hz : Keeps z s) : Keeps z (State.homeFeed s slot first last toks pos idx image stamp) := by
  unfold State.homeFeed
  try dsimp only
  repeat' first
    | with_reducible assumption
    | with_reducible apply State.beginTurn_keeps
    | with_reducible apply State.homePrompt_keeps
    | with_reducible apply State.sendTurn_keeps
    | with_reducible apply State.settle_keeps
    | with_reducible apply State.pushWork_keeps
    | split
    | (refine Keeps.foldl (fun _ _ _ => ?_) ?_)
    | (refine Keeps.of_mk ?_ rfl rfl rfl rfl rfl rfl rfl rfl rfl rfl rfl)

theorem State.countReruns_keeps {z s : State} {slot : Nat} {n : Nat} (hz : Keeps z s) : Keeps z (State.countReruns s slot n) := by
  unfold State.countReruns
  try dsimp only
  repeat' first
    | with_reducible assumption
    | (refine State.setPart_keeps _ _ ?_ (fun i => Keeps.ring ?_ _ i))
    | with_reducible apply State.setPart_keeps
    | split
    | (refine Keeps.foldl (fun _ _ _ => ?_) ?_)
    | (refine Keeps.of_mk ?_ rfl rfl rfl rfl rfl rfl rfl rfl rfl rfl rfl)

theorem State.concludeItem_keeps {z s : State} {slot : Nat} {w : Work} {r : Screened} (hz : Keeps z s) : Keeps z (State.concludeItem s slot w r) := by
  unfold State.concludeItem
  try dsimp only
  repeat' first
    | with_reducible assumption
    | with_reducible apply State.cancelAll_keeps
    | with_reducible apply State.noteAnomalies_keeps
    | with_reducible apply State.setHome_keeps
    | with_reducible apply State.sendVerdict_keeps
    | with_reducible apply State.sendTurn_keeps
    | split
    | (refine Keeps.foldl (fun _ _ _ => ?_) ?_)
    | (refine Keeps.of_mk ?_ rfl rfl rfl rfl rfl rfl rfl rfl rfl rfl rfl)

theorem State.putScreened_keeps {z s : State} {slot : Nat} {i : Img} {m : Memory} (hz : Keeps z s) (hm : s.mem.wf = true → m.wf = true) :
    Keeps z (s.putScreened slot i m) := by
  unfold State.putScreened
  exact State.dropBacks_keeps (State.dropBacks_keeps (hz.mem hm))

/-- A computation that succeeds succeeds in its first part. -/
theorem Eval.bind_ok {α β : Type} {x : Eval α} {f : α → Eval β} {r : β} (h : (x >>= f) = .ok r) : ∃ a, x = .ok a ∧ f a = .ok r := by
  cases x with
  | error e => cases h
  | ok a => exact ⟨a, rfl, h⟩

theorem State.screen_wf {s : State} {slot : Nat} {w : Work} {i : Img} {p : Policy} {r : Screened} (e : s.screen slot w i p = .ok r)
    (hm : s.mem.wf = true) : r.mem.wf = true := by
  unfold State.screen at e
  obtain ⟨_, -, e⟩ := Eval.bind_ok e
  obtain ⟨_, -, e⟩ := Eval.bind_ok e
  obtain ⟨_, -, e⟩ := Eval.bind_ok e
  obtain ⟨_, -, e⟩ := Eval.bind_ok e
  dsimp only at e
  split at e
  all_goals obtain ⟨_, -, e⟩ := Eval.bind_ok e
  all_goals cases e
  all_goals dsimp only
  all_goals split
  all_goals exact Memory.putWords_wf (Memory.putWords_wf (Memory.putWords_wf (Memory.putWords_wf hm)))

theorem State.finishItem_keeps {z s : State} {slot : Nat} (hz : Keeps z s) : Keeps z (s.finishItem slot) := by
  unfold State.finishItem
  dsimp only
  split
  · exact hz
  · split
    · exact State.setHome_keeps _ _ hz
    · split
      · exact State.jobFault_keeps hz
      · exact State.cancelAll_keeps (State.trouble_keeps hz)
      · rename_i r hr
        exact State.settle_keeps (State.setHome_keeps _ _ (State.concludeItem_keeps (State.countReruns_keeps
          (State.setHome_keeps _ _ (State.putScreened_keeps hz fun hm => State.screen_wf hr hm)))))

end Sys2Proof.Machine
end

