-- ==== Sys2Proof/Laws/KeepsStream.lean ====
section
/-! SUPPORT. The stream at the edge: what each operation keeps, one lemma for each. -/
namespace Sys2Proof.Machine
set_option Elab.async false

theorem State.levelSpent_keeps {z s : State} {t : Nat} (hz : Keeps z s) : Keeps z (State.levelSpent s t) := by
  unfold State.levelSpent
  try dsimp only
  repeat' first
    | with_reducible assumption
    | with_reducible apply State.raise_keeps
    | split
    | (refine Keeps.foldl (fun _ _ _ => ?_) ?_)
    | (refine Keeps.of_mk ?_ rfl rfl rfl rfl rfl rfl rfl rfl rfl rfl rfl)

theorem State.chargeOut_keeps {z s : State} {slot : Nat} (hz : Keeps z s) : Keeps z (State.chargeOut s slot) := by
  unfold State.chargeOut
  try dsimp only
  repeat' first
    | with_reducible assumption
    | with_reducible apply State.setLedger_keeps
    | with_reducible apply State.levelSpent_keeps
    | split
    | (refine Keeps.foldl (fun _ _ _ => ?_) ?_)
    | (refine Keeps.of_mk ?_ rfl rfl rfl rfl rfl rfl rfl rfl rfl rfl rfl)

theorem State.commitTok_keeps {z s : State} {slot : Nat} {tok : Nat} {stamp : Nat} {chain : Option Nat} {v : Option Word} (hz : Keeps z s) : Keeps z (State.commitTok s slot tok stamp chain v) := by
  unfold State.commitTok
  try dsimp only
  repeat' first
    | with_reducible assumption
    | with_reducible apply State.setEntry_keeps
    | with_reducible apply State.chargeOut_keeps
    | with_reducible apply State.setEdge_keeps
    | split
    | (refine Keeps.foldl (fun _ _ _ => ?_) ?_)
    | (refine Keeps.of_mk ?_ rfl rfl rfl rfl rfl rfl rfl rfl rfl rfl rfl)

theorem State.budgetStop_keeps {z s : State} {slot : Nat} (hz : Keeps z s) : Keeps z (State.budgetStop s slot) := by
  unfold State.budgetStop
  try dsimp only
  repeat' first
    | with_reducible assumption
    | with_reducible apply State.setLedger_keeps
    | with_reducible apply State.setEdge_keeps
    | with_reducible apply State.endStream_keeps
    | split
    | (refine Keeps.foldl (fun _ _ _ => ?_) ?_)
    | (refine Keeps.of_mk ?_ rfl rfl rfl rfl rfl rfl rfl rfl rfl rfl rfl)

theorem State.commitDrafts_keeps {z : State} {slot spread : Nat} : ∀ {ds : List HeldDraft} {s : State} {stamp n : Nat},
    Keeps z s → Keeps z (State.commitDrafts s slot spread ds stamp n).1
  | [], _, _, _, hz => hz
  | d :: ds, s, stamp, n, hz => by
    unfold State.commitDrafts
    split
    · exact State.budgetStop_keeps hz
    · exact State.commitDrafts_keeps (State.commitTok_keeps hz)

theorem State.commitDrafts_keeps_eq {z s t : State} {slot spread stamp n : Nat} {ds : List HeldDraft} {x : Nat}
    (e : State.commitDrafts s slot spread ds stamp n = (t, x)) (hz : Keeps z s) : Keeps z t := by
  have k := State.commitDrafts_keeps (slot := slot) (spread := spread) (ds := ds) (stamp := stamp) (n := n) hz
  rw [e] at k
  exact k

theorem State.tellResolve_keeps {z s : State} {slot : Nat} {chain : Nat} {n : Nat} {pos : Nat} {outBefore : Nat} {stamp : Nat} (hz : Keeps z s) : Keeps z (State.tellResolve s slot chain n pos outBefore stamp) := by
  unfold State.tellResolve
  try dsimp only
  repeat' first
    | with_reducible assumption
    | with_reducible apply State.homeResolve_keeps
    | with_reducible apply State.sendTo_keeps
    | split
    | (refine Keeps.foldl (fun _ _ _ => ?_) ?_)
    | (refine Keeps.of_mk ?_ rfl rfl rfl rfl rfl rfl rfl rfl rfl rfl rfl)

theorem State.forwardChain_keeps {z s : State} {slot : Nat} {c : Nat} (hz : Keeps z s) : Keeps z (State.forwardChain s slot c) := by
  unfold State.forwardChain
  try dsimp only
  repeat' first
    | with_reducible assumption
    | with_reducible apply State.homeDraft_keeps
    | with_reducible apply State.sendTo_keeps
    | split
    | (refine Keeps.foldl (fun _ _ _ => ?_) ?_)
    | (refine Keeps.of_mk ?_ rfl rfl rfl rfl rfl rfl rfl rfl rfl rfl rfl)

theorem State.finishPacket_keeps {z s : State} {slot : Nat} (hz : Keeps z s) : Keeps z (State.finishPacket s slot) := by
  unfold State.finishPacket
  try dsimp only
  repeat' first
    | with_reducible assumption
    | with_reducible apply State.forwardChain_keeps
    | with_reducible apply State.closeOut_keeps
    | split
    | (refine Keeps.foldl (fun _ _ _ => ?_) ?_)
    | (refine Keeps.of_mk ?_ rfl rfl rfl rfl rfl rfl rfl rfl rfl rfl rfl)

theorem State.resolveStep_keeps {z s0 : State} {slot : Nat} {c : Nat} {n : Nat} {stamp : Nat} (hz : Keeps z s0) : Keeps z (State.resolveStep s0 slot c n stamp).1 := by
  unfold State.resolveStep
  try dsimp only
  repeat' first
    | with_reducible assumption
    | with_reducible apply State.finishPacket_keeps
    | with_reducible apply State.cancelAll_keeps
    | with_reducible apply State.countRejected_keeps
    | with_reducible apply State.closeStep_keeps
    | with_reducible apply State.commitDrafts_keeps
    | (with_reducible refine State.commitDrafts_keeps_eq (by with_reducible assumption) ?_)
    | with_reducible apply State.setEdge_keeps
    | with_reducible apply State.tellResolve_keeps
    | split
    | (refine Keeps.foldl (fun _ _ _ => ?_) ?_)
    | (refine Keeps.of_mk ?_ rfl rfl rfl rfl rfl rfl rfl rfl rfl rfl rfl)

theorem State.resolveStep_keeps_eq {z s0 t : State} {x : _} {slot : Nat} {c : Nat} {n : Nat} {stamp : Nat} (e : State.resolveStep s0 slot c n stamp = (t, x)) (hz : Keeps z s0) : Keeps z t := by
  have k := State.resolveStep_keeps hz (z := z) (slot := slot) (c := c) (n := n) (stamp := stamp)
  rw [e] at k
  exact k

theorem State.hrpBad_keeps {z s : State} {p : Nat} (hz : Keeps z s) : Keeps z (State.hrpBad s p) := by
  unfold State.hrpBad
  try dsimp only
  repeat' first
    | with_reducible assumption
    | with_reducible apply State.trouble_keeps
    | split
    | (refine Keeps.foldl (fun _ _ _ => ?_) ?_)
    | (refine Keeps.of_mk ?_ rfl rfl rfl rfl rfl rfl rfl rfl rfl rfl rfl)

theorem State.hrpCheck_keeps {z s t : State} {p : Nat} {w : Word} (hz : Keeps z s) (ht : Keeps z t) :
    Keeps z ((s.hrpCheck p w).getD t) := by
  unfold State.hrpCheck
  dsimp only
  repeat' first
    | split
    | exact ht
    | exact State.stateDrop_keeps hz
    | exact State.staleDrop_keeps hz

theorem State.acceptToken_keeps {z s : State} {w : Word} (hz : Keeps z s) : Keeps z (State.acceptToken s w) := by
  unfold State.acceptToken
  try dsimp only
  repeat' first
    | with_reducible assumption
    | with_reducible apply State.stateDrop_keeps
    | with_reducible apply State.resolveStep_keeps
    | (with_reducible refine State.resolveStep_keeps_eq (by with_reducible assumption) ?_)
    | with_reducible apply State.budgetStop_keeps
    | with_reducible apply State.countRejected_keeps
    | with_reducible apply State.commitTok_keeps
    | with_reducible apply State.writeOut_keeps
    | (with_reducible refine State.writeOut_keeps_eq (by with_reducible assumption) ?_)
    | with_reducible apply State.homeToken_keeps
    | with_reducible apply State.sendTo_keeps
    | split
    | (refine Keeps.foldl (fun _ _ _ => ?_) ?_)
    | (refine Keeps.of_mk ?_ rfl rfl rfl rfl rfl rfl rfl rfl rfl rfl rfl)

theorem State.takeToken_keeps {z s : State} {p : Nat} {w : Word} {entry : WordFind} (hz : Keeps z s) : Keeps z (State.takeToken s p w entry) := by
  unfold State.takeToken
  try dsimp only
  repeat' first
    | with_reducible assumption
    | with_reducible apply State.stateDrop_keeps
    | with_reducible apply State.entryCheck_keeps
    | with_reducible apply State.hrpCheck_keeps
    | with_reducible apply State.acceptToken_keeps
    | split
    | (refine Keeps.foldl (fun _ _ _ => ?_) ?_)
    | (refine Keeps.of_mk ?_ rfl rfl rfl rfl rfl rfl rfl rfl rfl rfl rfl)

theorem State.dropDraft_keeps {z s : State} {w : Word} (hz : Keeps z s) : Keeps z (State.dropDraft s w) := by
  unfold State.dropDraft
  try dsimp only
  repeat' first
    | with_reducible assumption
    | with_reducible apply State.finishPacket_keeps
    | with_reducible apply State.stateDrop_keeps
    | with_reducible apply State.setEdge_keeps
    | split
    | (refine Keeps.foldl (fun _ _ _ => ?_) ?_)
    | (refine Keeps.of_mk ?_ rfl rfl rfl rfl rfl rfl rfl rfl rfl rfl rfl)

theorem State.storeDraft_keeps {z s : State} {w : Word} (hz : Keeps z s) : Keeps z (State.storeDraft s w) := by
  unfold State.storeDraft
  try dsimp only
  repeat' first
    | with_reducible assumption
    | with_reducible apply State.markOut_keeps
    | with_reducible apply State.setEdge_keeps
    | with_reducible apply State.writeOut_keeps
    | (with_reducible refine State.writeOut_keeps_eq (by with_reducible assumption) ?_)
    | with_reducible apply State.setEntry_keeps
    | with_reducible apply State.forwardChain_keeps
    | split
    | (refine Keeps.foldl (fun _ _ _ => ?_) ?_)
    | (refine Keeps.of_mk ?_ rfl rfl rfl rfl rfl rfl rfl rfl rfl rfl rfl)

theorem State.acceptDraft_keeps {z s : State} {w : Word} (hz : Keeps z s) : Keeps z (State.acceptDraft s w) := by
  unfold State.acceptDraft
  try dsimp only
  repeat' first
    | with_reducible assumption
    | with_reducible apply State.pushOut_keeps
    | (with_reducible refine State.pushOut_keeps_eq (by with_reducible assumption) ?_)
    | with_reducible apply State.setEdge_keeps
    | with_reducible apply State.stateDrop_keeps
    | with_reducible apply State.storeDraft_keeps
    | with_reducible apply State.dropDraft_keeps
    | split
    | (refine Keeps.foldl (fun _ _ _ => ?_) ?_)
    | (refine Keeps.of_mk ?_ rfl rfl rfl rfl rfl rfl rfl rfl rfl rfl rfl)

theorem State.takeDraft_keeps {z s : State} {p : Nat} {w : Word} (hz : Keeps z s) : Keeps z (State.takeDraft s p w) := by
  unfold State.takeDraft
  try dsimp only
  repeat' first
    | with_reducible assumption
    | with_reducible apply State.stateDrop_keeps
    | with_reducible apply State.hrpCheck_keeps
    | with_reducible apply State.acceptDraft_keeps
    | split
    | (refine Keeps.foldl (fun _ _ _ => ?_) ?_)
    | (refine Keeps.of_mk ?_ rfl rfl rfl rfl rfl rfl rfl rfl rfl rfl rfl)

theorem State.hrpWord_keeps {z s : State} {p : Nat} {f : Find} {take : State → State} (hz : Keeps z s) (htake : ∀ x0, Keeps z x0 → Keeps z (take x0)) : Keeps z (State.hrpWord s p f take) := by
  unfold State.hrpWord
  try dsimp only
  repeat' first
    | with_reducible assumption
    | with_reducible apply State.hrpBad_keeps
    | with_reducible apply State.ceCommand_keeps
    | (refine htake _ ?_)
    | split
    | (refine Keeps.foldl (fun _ _ _ => ?_) ?_)
    | (refine Keeps.of_mk ?_ rfl rfl rfl rfl rfl rfl rfl rfl rfl rfl rfl)

theorem State.onTokenIntake_keeps {z s : State} {part : Nat} {w : Word} {find : Find} {entry : WordFind} (hz : Keeps z s) : Keeps z (State.onTokenIntake s part w find entry) := by
  unfold State.onTokenIntake
  try dsimp only
  repeat' first
    | with_reducible assumption
    | with_reducible apply State.hrpWord_keeps
    | with_reducible apply State.takeToken_keeps
    | split
    | (refine Keeps.foldl (fun _ _ _ => ?_) ?_)
    | intro _
    | (refine Keeps.of_mk ?_ rfl rfl rfl rfl rfl rfl rfl rfl rfl rfl rfl)

theorem State.onDraftIntake_keeps {z s : State} {part : Nat} {w : Word} {find : Find} (hz : Keeps z s) : Keeps z (State.onDraftIntake s part w find) := by
  unfold State.onDraftIntake
  try dsimp only
  repeat' first
    | with_reducible assumption
    | with_reducible apply State.hrpWord_keeps
    | with_reducible apply State.takeDraft_keeps
    | split
    | (refine Keeps.foldl (fun _ _ _ => ?_) ?_)
    | intro _
    | (refine Keeps.of_mk ?_ rfl rfl rfl rfl rfl rfl rfl rfl rfl rfl rfl)

theorem State.stickVerdict_keeps {z s : State} {slot : Nat} {v : Verdict} (hz : Keeps z s) : Keeps z (State.stickVerdict s slot v) := by
  unfold State.stickVerdict
  try dsimp only
  repeat' first
    | with_reducible assumption
    | with_reducible apply State.setEntry_keeps
    | split
    | (refine Keeps.foldl (fun _ _ _ => ?_) ?_)
    | (refine Keeps.of_mk ?_ rfl rfl rfl rfl rfl rfl rfl rfl rfl rfl rfl)

theorem State.countVerdict_keeps {z s : State} {slot : Nat} {v : Verdict} (hz : Keeps z s) : Keeps z (State.countVerdict s slot v) := by
  unfold State.countVerdict
  try dsimp only
  repeat' first
    | with_reducible assumption
    | with_reducible apply State.setEntry_keeps
    | split
    | (refine Keeps.foldl (fun _ _ _ => ?_) ?_)
    | (refine Keeps.of_mk ?_ rfl rfl rfl rfl rfl rfl rfl rfl rfl rfl rfl)

theorem State.lateVerdict_keeps {z s : State} {slot : Nat} {pos : Nat} (hz : Keeps z s) : Keeps z (State.lateVerdict s slot pos) := by
  unfold State.lateVerdict
  try dsimp only
  repeat' first
    | with_reducible assumption
    | (refine State.setPart_keeps _ _ ?_ (fun i => Keeps.ring ?_ _ i))
    | with_reducible apply State.setPart_keeps
    | with_reducible apply State.raise_keeps
    | with_reducible apply State.trouble_keeps
    | split
    | (refine Keeps.foldl (fun _ _ _ => ?_) ?_)
    | (refine Keeps.of_mk ?_ rfl rfl rfl rfl rfl rfl rfl rfl rfl rfl rfl)

theorem State.actTIn_keeps {z s : State} {slot : Nat} (hz : Keeps z s) : Keeps z (State.actTIn s slot) := by
  unfold State.actTIn
  try dsimp only
  repeat' first
    | with_reducible assumption
    | with_reducible apply State.endStreamTo_keeps
    | with_reducible apply State.lateVerdict_keeps
    | with_reducible apply State.stickVerdict_keeps
    | with_reducible apply State.setEdge_keeps
    | with_reducible apply State.cancelAll_keeps
    | with_reducible apply State.countVerdict_keeps
    | with_reducible apply State.tell_keeps
    | split
    | (refine Keeps.foldl (fun _ _ _ => ?_) ?_)
    | (refine Keeps.of_mk ?_ rfl rfl rfl rfl rfl rfl rfl rfl rfl rfl rfl)

theorem State.releaseTok_keeps {z s : State} {slot : Nat} {t : HeldTok} (hz : Keeps z s) : Keeps z (State.releaseTok s slot t) := by
  unfold State.releaseTok
  try dsimp only
  repeat' first
    | with_reducible assumption
    | with_reducible apply State.endStream_keeps
    | with_reducible apply State.lateVerdict_keeps
    | with_reducible apply State.cancelAll_keeps
    | with_reducible apply State.tell_keeps
    | with_reducible apply State.setRelq_keeps
    | with_reducible apply State.countVerdict_keeps
    | with_reducible apply State.stickVerdict_keeps
    | with_reducible apply State.setEdge_keeps
    | split
    | (refine Keeps.foldl (fun _ _ _ => ?_) ?_)
    | (refine Keeps.of_mk ?_ rfl rfl rfl rfl rfl rfl rfl rfl rfl rfl rfl)

theorem State.releaseAll_keeps {z : State} {slot : Nat} : ∀ {n : Nat} {s : State}, Keeps z s → Keeps z (State.releaseAll n s slot)
  | 0, _, hz => hz
  | n + 1, s, hz => by
    unfold State.releaseAll
    split
    · split
      · exact State.releaseAll_keeps (State.releaseTok_keeps hz)
      · exact hz
    · exact hz

theorem State.endPending_keeps {z s : State} {slot : Nat} (hz : Keeps z s) : Keeps z (State.endPending s slot) := by
  unfold State.endPending
  try dsimp only
  repeat' first
    | with_reducible assumption
    | with_reducible apply State.endStream_keeps
    | split
    | (refine Keeps.foldl (fun _ _ _ => ?_) ?_)
    | (refine Keeps.of_mk ?_ rfl rfl rfl rfl rfl rfl rfl rfl rfl rfl rfl)

theorem State.streamDue_keeps {z s : State} {slot : Nat} (hz : Keeps z s) : Keeps z (State.streamDue s slot) := by
  unfold State.streamDue
  try dsimp only
  repeat' first
    | with_reducible assumption
    | with_reducible apply State.actTIn_keeps
    | with_reducible apply State.endPending_keeps
    | with_reducible apply State.releaseAll_keeps
    | split
    | (refine Keeps.foldl (fun _ _ _ => ?_) ?_)
    | (refine Keeps.of_mk ?_ rfl rfl rfl rfl rfl rfl rfl rfl rfl rfl rfl)

theorem State.heldCheck_keeps {z s : State} {slot : Nat} {f : Find} (hz : Keeps z s) : Keeps z (State.heldCheck s slot f) := by
  unfold State.heldCheck
  try dsimp only
  repeat' first
    | with_reducible assumption
    | with_reducible apply State.ceUnit_keeps
    | with_reducible apply State.unitBad_keeps
    | split
    | (refine Keeps.foldl (fun _ _ _ => ?_) ?_)
    | (refine Keeps.of_mk ?_ rfl rfl rfl rfl rfl rfl rfl rfl rfl rfl rfl)

theorem State.onTokenRelease_keeps {z s1 : State} {slot : Nat} {find : Find} (hz : Keeps z s1) : Keeps z (State.onTokenRelease s1 slot find) := by
  unfold State.onTokenRelease
  try dsimp only
  repeat' first
    | with_reducible assumption
    | with_reducible apply State.actTIn_keeps
    | with_reducible apply State.heldCheck_keeps
    | with_reducible apply State.streamDue_keeps
    | split
    | (refine Keeps.foldl (fun _ _ _ => ?_) ?_)
    | (refine Keeps.of_mk ?_ rfl rfl rfl rfl rfl rfl rfl rfl rfl rfl rfl)

theorem State.onTIn_keeps {z s1 : State} {slot : Nat} (hz : Keeps z s1) : Keeps z (State.onTIn s1 slot) := by
  unfold State.onTIn
  try dsimp only
  repeat' first
    | with_reducible assumption
    | with_reducible apply State.actTIn_keeps
    | split
    | (refine Keeps.foldl (fun _ _ _ => ?_) ?_)
    | (refine Keeps.of_mk ?_ rfl rfl rfl rfl rfl rfl rfl rfl rfl rfl rfl)

theorem State.onQueueOver_keeps {z s1 : State} {slot : Nat} (hz : Keeps z s1) : Keeps z (State.onQueueOver s1 slot) := by
  unfold State.onQueueOver
  try dsimp only
  repeat' first
    | with_reducible assumption
    | with_reducible apply State.setHome_keeps
    | with_reducible apply State.trouble_keeps
    | split
    | (refine Keeps.foldl (fun _ _ _ => ?_) ?_)
    | (refine Keeps.of_mk ?_ rfl rfl rfl rfl rfl rfl rfl rfl rfl rfl rfl)

theorem State.onSlippedNotice_keeps {z s1 : State} {slot : Nat} (hz : Keeps z s1) : Keeps z (State.onSlippedNotice s1 slot) := by
  unfold State.onSlippedNotice
  try dsimp only
  repeat' first
    | with_reducible assumption
    | with_reducible apply State.tell_keeps
    | split
    | (refine Keeps.foldl (fun _ _ _ => ?_) ?_)
    | (refine Keeps.of_mk ?_ rfl rfl rfl rfl rfl rfl rfl rfl rfl rfl rfl)

end Sys2Proof.Machine
end

