-- ==== Sys2Proof/Laws/KeepsEngine.lean ====
section
/-! SUPPORT. Screening work on clusters: what each operation keeps, one lemma for each. -/
namespace Sys2Proof.Machine
set_option Elab.async false

theorem State.wakeReq_keeps {z s : State} {c : Nat} (hz : Keeps z s) : Keeps z (State.wakeReq s c) := by
  unfold State.wakeReq
  try dsimp only
  repeat' first
    | with_reducible assumption
    | with_reducible apply State.setCluster_keeps
    | split
    | (refine Keeps.foldl (fun _ _ _ => ?_) ?_)
    | (refine Keeps.of_mk ?_ rfl rfl rfl rfl rfl rfl rfl rfl rfl rfl rfl)

theorem State.runOne_keeps {z s : State} {c : Nat} (hz : Keeps z s) : Keeps z (State.runOne s c) := by
  unfold State.runOne
  try dsimp only
  repeat' first
    | with_reducible assumption
    | with_reducible apply State.setHome_keeps
    | split
    | (refine Keeps.foldl (fun _ _ _ => ?_) ?_)
    | (refine Keeps.of_mk ?_ rfl rfl rfl rfl rfl rfl rfl rfl rfl rfl rfl)

theorem State.runNext_keeps {z s : State} {c : Nat} (hz : Keeps z s) : Keeps z (State.runNext s c) := by
  unfold State.runNext
  try dsimp only
  repeat' first
    | with_reducible assumption
    | with_reducible apply State.runOne_keeps
    | split
    | (refine Keeps.foldl (fun _ _ _ => ?_) ?_)
    | (refine Keeps.of_mk ?_ rfl rfl rfl rfl rfl rfl rfl rfl rfl rfl rfl)

theorem State.runClusters_keeps {z s : State}  (hz : Keeps z s) : Keeps z (State.runClusters s) := by
  unfold State.runClusters
  try dsimp only
  repeat' first
    | with_reducible assumption
    | with_reducible apply State.setCluster_keeps
    | with_reducible apply State.runNext_keeps
    | split
    | (refine Keeps.foldl (fun _ _ _ => ?_) ?_)
    | (refine Keeps.of_mk ?_ rfl rfl rfl rfl rfl rfl rfl rfl rfl rfl rfl)

theorem State.assignTo_keeps {z s : State} {r : Nat} (hz : Keeps z s) : Keeps z (State.assignTo s r).1 := by
  unfold State.assignTo
  try dsimp only
  repeat' first
    | with_reducible assumption
    | with_reducible apply State.wakeReq_keeps
    | split
    | (refine Keeps.foldl (fun _ _ _ => ?_) ?_)
    | (refine Keeps.of_mk ?_ rfl rfl rfl rfl rfl rfl rfl rfl rfl rfl rfl)

theorem State.assignTo_keeps_eq {z s t : State} {x : _} {r : Nat} (e : State.assignTo s r = (t, x)) (hz : Keeps z s) : Keeps z t := by
  have k := State.assignTo_keeps hz (z := z) (r := r)
  rw [e] at k
  exact k

theorem State.dispatchNext_keeps {z s : State} {r : Nat} (hz : Keeps z s) : Keeps z (State.dispatchNext s r).1 := by
  unfold State.dispatchNext
  try dsimp only
  repeat' first
    | with_reducible assumption
    | with_reducible apply State.assignTo_keeps
    | (with_reducible refine State.assignTo_keeps_eq (by with_reducible assumption) ?_)
    | with_reducible apply State.setHome_keeps
    | with_reducible apply State.runNext_keeps
    | with_reducible apply State.wakeReq_keeps
    | split
    | (refine Keeps.foldl (fun _ _ _ => ?_) ?_)
    | (refine Keeps.of_mk ?_ rfl rfl rfl rfl rfl rfl rfl rfl rfl rfl rfl)

theorem State.dispatchNext_keeps_eq {z s t : State} {x : _} {r : Nat} (e : State.dispatchNext s r = (t, x)) (hz : Keeps z s) : Keeps z t := by
  have k := State.dispatchNext_keeps hz (z := z) (r := r)
  rw [e] at k
  exact k

theorem State.onScreeningItemStart_keeps {z s1 : State} {region : Nat} {find : ItemFind} (hz : Keeps z s1) : Keeps z (State.onScreeningItemStart s1 region find) := by
  unfold State.onScreeningItemStart
  try dsimp only
  repeat' first
    | with_reducible assumption
    | with_reducible apply State.dispatchNext_keeps
    | (with_reducible refine State.dispatchNext_keeps_eq (by with_reducible assumption) ?_)
    | with_reducible apply State.itemCheck_keeps
    | split
    | (refine Keeps.foldl (fun _ _ _ => ?_) ?_)
    | (refine Keeps.of_mk ?_ rfl rfl rfl rfl rfl rfl rfl rfl rfl rfl rfl)

theorem State.onScreeningItemDone_keeps {z s1 : State} {cluster : Nat} {find : ItemFind} (hz : Keeps z s1) : Keeps z (State.onScreeningItemDone s1 cluster find) := by
  unfold State.onScreeningItemDone
  try dsimp only
  repeat' first
    | with_reducible assumption
    | with_reducible apply State.itemCheck_keeps
    | with_reducible apply State.finishItem_keeps
    | with_reducible apply State.runClusters_keeps
    | with_reducible apply State.setCluster_keeps
    | split
    | (refine Keeps.foldl (fun _ _ _ => ?_) ?_)
    | (refine Keeps.of_mk ?_ rfl rfl rfl rfl rfl rfl rfl rfl rfl rfl rfl)

theorem State.feedsDone_keeps {z s : State} {slot : Nat} (hz : Keeps z s) : Keeps z (State.feedsDone s slot) := by
  unfold State.feedsDone
  try dsimp only
  repeat' first
    | with_reducible assumption
    | with_reducible apply State.setHome_keeps
    | with_reducible apply State.reply_keeps
    | with_reducible apply State.endPendWith_keeps
    | split
    | (refine Keeps.foldl (fun _ _ _ => ?_) ?_)
    | (refine Keeps.of_mk ?_ rfl rfl rfl rfl rfl rfl rfl rfl rfl rfl rfl)

theorem State.onBlockHashDone_keeps {z s1 : State} {slot : Nat} (hz : Keeps z s1) : Keeps z (State.onBlockHashDone s1 slot) := by
  unfold State.onBlockHashDone
  try dsimp only
  repeat' first
    | with_reducible assumption
    | with_reducible apply State.setHome_keeps
    | with_reducible apply State.hashBlock_keeps
    | with_reducible apply State.feedsDone_keeps
    | split
    | (refine Keeps.foldl (fun _ _ _ => ?_) ?_)
    | (refine Keeps.of_mk ?_ rfl rfl rfl rfl rfl rfl rfl rfl rfl rfl rfl)

theorem State.onClusterWakeDone_keeps {z s1 : State} {cluster : Nat} (hz : Keeps z s1) : Keeps z (State.onClusterWakeDone s1 cluster) := by
  unfold State.onClusterWakeDone
  try dsimp only
  repeat' first
    | with_reducible assumption
    | with_reducible apply State.runClusters_keeps
    | with_reducible apply State.setCluster_keeps
    | split
    | (refine Keeps.foldl (fun _ _ _ => ?_) ?_)
    | (refine Keeps.of_mk ?_ rfl rfl rfl rfl rfl rfl rfl rfl rfl rfl rfl)

theorem State.reassign_keeps {z s : State} {c : Nat} (hz : Keeps z s) : Keeps z (State.reassign s c) := by
  unfold State.reassign
  try dsimp only
  repeat' first
    | with_reducible assumption
    | with_reducible apply State.setHome_keeps
    | with_reducible apply State.dispatchNext_keeps
    | (with_reducible refine State.dispatchNext_keeps_eq (by with_reducible assumption) ?_)
    | split
    | (refine Keeps.foldl (fun _ _ _ => ?_) ?_)
    | (refine Keeps.of_mk ?_ rfl rfl rfl rfl rfl rfl rfl rfl rfl rfl rfl)

theorem State.onClusterWakeTimeout_keeps {z s1 : State} {cluster : Nat} {railFail : Bool} (hz : Keeps z s1) : Keeps z (State.onClusterWakeTimeout s1 cluster railFail) := by
  unfold State.onClusterWakeTimeout
  try dsimp only
  repeat' first
    | with_reducible assumption
    | with_reducible apply State.setCluster_keeps
    | with_reducible apply State.trouble_keeps
    | with_reducible apply State.reassign_keeps
    | split
    | (refine Keeps.foldl (fun _ _ _ => ?_) ?_)
    | (refine Keeps.of_mk ?_ rfl rfl rfl rfl rfl rfl rfl rfl rfl rfl rfl)

theorem State.onClusterIdleStop_keeps {z s1 : State} {cluster : Nat} (hz : Keeps z s1) : Keeps z (State.onClusterIdleStop s1 cluster) := by
  unfold State.onClusterIdleStop
  try dsimp only
  repeat' first
    | with_reducible assumption
    | with_reducible apply State.setCluster_keeps
    | split
    | (refine Keeps.foldl (fun _ _ _ => ?_) ?_)
    | (refine Keeps.of_mk ?_ rfl rfl rfl rfl rfl rfl rfl rfl rfl rfl rfl)

end Sys2Proof.Machine
end

