-- ==== Sys2Proof/Laws/KeepsCmi.lean ====
section
/-! SUPPORT. The command interpreter: what each operation keeps, one lemma for each. -/
namespace Sys2Proof.Machine
set_option Elab.async false

theorem State.refuseHrp_keeps {z s : State} {p : Nat} {w : Word} {st : Status} (hz : Keeps z s) : Keeps z (State.refuseHrp s p w st) := by
  unfold State.refuseHrp
  try dsimp only
  repeat' first
    | with_reducible assumption
    | with_reducible apply State.putOut_keeps
    | split
    | (refine Keeps.foldl (fun _ _ _ => ?_) ?_)
    | (refine Keeps.of_mk ?_ rfl rfl rfl rfl rfl rfl rfl rfl rfl rfl rfl)

theorem State.badPacket_keeps {z s : State} {p : Nat} {w : Word} {readable : Bool} {smp : Bool} (hz : Keeps z s) : Keeps z (State.badPacket s p w readable smp) := by
  unfold State.badPacket
  try dsimp only
  repeat' first
    | with_reducible assumption
    | with_reducible apply State.trouble_keeps
    | split
    | (refine Keeps.foldl (fun _ _ _ => ?_) ?_)
    | (refine Keeps.of_mk ?_ rfl rfl rfl rfl rfl rfl rfl rfl rfl rfl rfl)

theorem State.arriveHrp_keeps {z s : State} {p : Nat} {ws : List Word} (hz : Keeps z s) : Keeps z (s.arriveHrp p ws) := by
  unfold State.arriveHrp
  dsimp only
  repeat' split
  · exact State.refuseHrp_keeps hz
  · exact State.refuseHrp_keeps hz
  · exact State.refuseHrp_keeps hz
  · exact State.refuseHrp_keeps (State.setPart_keeps _ _ hz fun i => hz.ring _ i)
  · rename_i hlt
    refine State.setPart_keeps _ _ hz fun _ => ?_
    simp only [List.length_append, List.length_cons, List.length_nil]
    omega

theorem State.arriveSmp_keeps {z s : State} {ws : List Word} (hz : Keeps z s) : Keeps z (s.arriveSmp ws) := by
  unfold State.arriveSmp
  dsimp only
  repeat' split
  · exact State.answer_keeps hz
  · exact State.answer_keeps hz
  · exact State.answer_keeps hz
  · rename_i hlt
    exact hz.of_imp rfl rfl id id id id id id id id
      (fun _ => by simp only [List.length_append, List.length_cons, List.length_nil]; omega) id id id id id id id id id id

theorem State.onCommandPacketArrival_keeps {z s1 : State} {via : Via} {words : List Word} {find : Find} {headerReadable : Bool} (hz : Keeps z s1) : Keeps z (State.onCommandPacketArrival s1 via words find headerReadable) := by
  unfold State.onCommandPacketArrival
  try dsimp only
  repeat' first
    | with_reducible assumption
    | with_reducible apply State.badPacket_keeps
    | with_reducible apply State.arriveHrp_keeps
    | with_reducible apply State.ceCommand_keeps
    | with_reducible apply State.arriveSmp_keeps
    | split
    | (refine Keeps.foldl (fun _ _ _ => ?_) ?_)
    | (refine Keeps.of_mk ?_ rfl rfl rfl rfl rfl rfl rfl rfl rfl rfl rfl)

theorem State.popPkt_keeps {z s : State} (hz : Keeps z s) : Keeps z s.popPkt := by
  unfold State.popPkt
  dsimp only
  split
  · rename_i k rest hk
    exact hz.of_imp rfl rfl id id id id id id id id
      (fun hl => by rw [hk] at hl; simp only [List.length_cons] at hl; show rest.length ≤ 4; omega) id id id id id id id id id id
  · split
    · exact hz
    · rename_i p _
      have k : Keeps z (s.setPart p { s.part p with
          ring := (s.part p).ring.drop 1,
          refusedBusy := (s.part p).refusedBusy && !((s.part p).refusedBusy && ((s.part p).ring.drop 1).length == 8) }) :=
        State.setPart_keeps _ _ hz fun i => by
          have := hz.ring p i
          simp only [List.length_drop]; omega
      split
      · exact State.raise_keeps (Keeps.of_mk k rfl rfl rfl rfl rfl rfl rfl rfl rfl rfl rfl)
      · exact Keeps.of_mk k rfl rfl rfl rfl rfl rfl rfl rfl rfl rfl rfl

theorem State.refuseUnknown_keeps {z : State} : ∀ {n : Nat} {s : State}, Keeps z s → Keeps z (State.refuseUnknown n s)
  | 0, _, hz => hz
  | n + 1, s, hz => by
    unfold State.refuseUnknown
    dsimp only
    split
    · exact hz
    · split
      · exact hz
      · exact State.refuseUnknown_keeps (State.answer_keeps (State.popPkt_keeps hz))

theorem State.runCmd_keeps {z s : State} {op : Nat} {who : Issuer → List Word → Bool} {len : List Word → Option Nat} {bad : List Word → Bool} {act : Issuer → List Word → State → State} (hz : Keeps z s) (hact : ∀ x0 x1 x2, Keeps z x2 → Keeps z (act x0 x1 x2)) : Keeps z (State.runCmd s op who len bad act) := by
  unfold State.runCmd
  try dsimp only
  repeat' first
    | with_reducible assumption
    | with_reducible apply State.refuseUnknown_keeps
    | with_reducible apply State.popPkt_keeps
    | with_reducible apply State.answer_keeps
    | (refine hact _ _ _ ?_)
    | split
    | (refine Keeps.foldl (fun _ _ _ => ?_) ?_)
    | (refine Keeps.of_mk ?_ rfl rfl rfl rfl rfl rfl rfl rfl rfl rfl rfl)

theorem State.onNop_keeps {z s : State}  (hz : Keeps z s) : Keeps z (State.onNop s) := by
  unfold State.onNop
  try dsimp only
  repeat' first
    | with_reducible assumption
    | with_reducible apply State.runCmd_keeps
    | with_reducible apply State.answer_keeps
    | split
    | (refine Keeps.foldl (fun _ _ _ => ?_) ?_)
    | intro _
    | (refine Keeps.of_mk ?_ rfl rfl rfl rfl rfl rfl rfl rfl rfl rfl rfl)

theorem State.negotiate_keeps {z s : State} {i : Issuer} (hz : Keeps z s) : Keeps z (State.negotiate s i) := by
  unfold State.negotiate
  try dsimp only
  repeat' first
    | with_reducible assumption
    | (refine State.setPart_keeps _ _ ?_ (fun i => Keeps.ring ?_ _ i))
    | with_reducible apply State.setPart_keeps
    | split
    | (refine Keeps.foldl (fun _ _ _ => ?_) ?_)
    | (refine Keeps.of_mk ?_ rfl rfl rfl rfl rfl rfl rfl rfl rfl rfl rfl)

theorem State.onIdentify_keeps {z s : State}  (hz : Keeps z s) : Keeps z (State.onIdentify s) := by
  unfold State.onIdentify
  try dsimp only
  repeat' first
    | with_reducible assumption
    | with_reducible apply State.runCmd_keeps
    | with_reducible apply State.reply_keeps
    | with_reducible apply State.negotiate_keeps
    | split
    | (refine Keeps.foldl (fun _ _ _ => ?_) ?_)
    | intro _
    | (refine Keeps.of_mk ?_ rfl rfl rfl rfl rfl rfl rfl rfl rfl rfl rfl)

theorem State.onCapsRead_keeps {z s : State}  (hz : Keeps z s) : Keeps z (State.onCapsRead s) := by
  unfold State.onCapsRead
  try dsimp only
  repeat' first
    | with_reducible assumption
    | with_reducible apply State.runCmd_keeps
    | with_reducible apply State.reply_keeps
    | split
    | (refine Keeps.foldl (fun _ _ _ => ?_) ?_)
    | intro _
    | (refine Keeps.of_mk ?_ rfl rfl rfl rfl rfl rfl rfl rfl rfl rfl rfl)

end Sys2Proof.Machine
end

