-- ==== Sys2Proof/Laws/KeepsCapacity.lean ====
section
/-! SUPPORT. Capacity and the plan: what each operation keeps, one lemma for each. -/
namespace Sys2Proof.Machine
set_option Elab.async false

theorem State.ageMargin_keeps {z s : State} {policy : Nat} (hz : Keeps z s) : Keeps z (State.ageMargin s policy) := by
  unfold State.ageMargin
  try dsimp only
  repeat' first
    | with_reducible assumption
    | with_reducible apply State.trouble_keeps
    | split
    | (refine Keeps.foldl (fun _ _ _ => ?_) ?_)
    | (refine Keeps.of_mk ?_ rfl rfl rfl rfl rfl rfl rfl rfl rfl rfl rfl)

theorem State.marginWatch_keeps {z s : State} {extra : List (Nat × Nat)} (hz : Keeps z s) : Keeps z (State.marginWatch s extra) := by
  unfold State.marginWatch
  try dsimp only
  repeat' first
    | with_reducible assumption
    | with_reducible apply State.ageMargin_keeps
    | split
    | (refine Keeps.foldl (fun _ _ _ => ?_) ?_)
    | (refine Keeps.of_mk ?_ rfl rfl rfl rfl rfl rfl rfl rfl rfl rfl rfl)

theorem State.recompute_keeps {z s0 : State} {extra : List (Nat × Nat)} (hz : Keeps z s0) : Keeps z (State.recompute s0 extra) := by
  unfold State.recompute
  try dsimp only
  repeat' first
    | with_reducible assumption
    | with_reducible apply State.marginWatch_keeps
    | split
    | (refine Keeps.foldl (fun _ _ _ => ?_) ?_)
    | (refine Keeps.of_mk ?_ rfl rfl rfl rfl rfl rfl rfl rfl rfl rfl rfl)

end Sys2Proof.Machine
end

