-- ==== Sys2Proof/Laws/KeepsSessionCmd.lean ====
section
/-! SUPPORT. The session commands: what each operation keeps, one lemma for each. -/
namespace Sys2Proof.Machine
set_option Elab.async false

theorem State.session_keeps {z s : State} {i : Issuer} {w : Word} {gate : Bool} {role : Entry → Bool} {act : Nat → State} (hz : Keeps z s) (hact : ∀ x0, Keeps z (act x0)) : Keeps z (State.session s i w gate role act) := by
  unfold State.session
  try dsimp only
  repeat' first
    | with_reducible assumption
    | with_reducible apply State.answer_keeps
    | (exact hact _)
    | split
    | (refine Keeps.foldl (fun _ _ _ => ?_) ?_)
    | (refine Keeps.of_mk ?_ rfl rfl rfl rfl rfl rfl rfl rfl rfl rfl rfl)

theorem State.freshState_keeps {z s : State} {slot : Nat} {q : OpenReq} (hz : Keeps z s) : Keeps z (State.freshState s slot q) := by
  unfold State.freshState
  try dsimp only
  repeat' first
    | with_reducible assumption
    | with_reducible apply State.putMem_keeps
    | with_reducible apply State.zeroMem_keeps
    | with_reducible apply State.openRec_keeps
    | with_reducible apply State.mirrorPut_keeps
    | split
    | (refine Keeps.foldl (fun _ _ _ => ?_) ?_)
    | (refine Keeps.of_mk ?_ rfl rfl rfl rfl rfl rfl rfl rfl rfl rfl rfl)

theorem State.allocate_keeps {z s : State} {slot : Nat} {e : Entry} (hz : Keeps z s) : Keeps z (State.allocate s slot e) := by
  unfold State.allocate
  try dsimp only
  repeat' first
    | with_reducible assumption
    | with_reducible apply State.setEntry_keeps
    | with_reducible apply State.setLedger_keeps
    | with_reducible apply State.setSlot_keeps
    | with_reducible apply State.setHome_keeps
    | with_reducible apply State.setEdge_keeps
    | split
    | (refine Keeps.foldl (fun _ _ _ => ?_) ?_)
    | (refine Keeps.of_mk ?_ rfl rfl rfl rfl rfl rfl rfl rfl rfl rfl rfl)

theorem State.openHome_keeps {z s : State} {slot : Nat} {q : OpenReq} (hz : Keeps z s) : Keeps z (State.openHome s slot q) := by
  unfold State.openHome
  try dsimp only
  repeat' first
    | with_reducible assumption
    | with_reducible apply State.freshState_keeps
    | with_reducible apply State.setHome_keeps
    | split
    | (refine Keeps.foldl (fun _ _ _ => ?_) ?_)
    | (refine Keeps.of_mk ?_ rfl rfl rfl rfl rfl rfl rfl rfl rfl rfl rfl)

theorem State.openAccepted_keeps {z s : State} {i : Issuer} {q : OpenReq} {ws : List Word} (hz : Keeps z s) : Keeps z (State.openAccepted s i q ws) := by
  unfold State.openAccepted
  try dsimp only
  repeat' first
    | with_reducible assumption
    | with_reducible apply State.openHome_keeps
    | with_reducible apply State.allocate_keeps
    | with_reducible apply State.reply_keeps
    | with_reducible apply State.sendTo_keeps
    | split
    | (refine Keeps.foldl (fun _ _ _ => ?_) ?_)
    | (refine Keeps.of_mk ?_ rfl rfl rfl rfl rfl rfl rfl rfl rfl rfl rfl)

theorem State.openSession_keeps {z s : State} {i : Issuer} {ws : List Word} (hz : Keeps z s) : Keeps z (State.openSession s i ws) := by
  unfold State.openSession
  try dsimp only
  repeat' first
    | with_reducible assumption
    | with_reducible apply State.recompute_keeps
    | with_reducible apply State.answer_keeps
    | with_reducible apply State.openAccepted_keeps
    | split
    | (refine Keeps.foldl (fun _ _ _ => ?_) ?_)
    | (refine Keeps.of_mk ?_ rfl rfl rfl rfl rfl rfl rfl rfl rfl rfl rfl)

theorem State.onSessionOpen_keeps {z s : State}  (hz : Keeps z s) : Keeps z (State.onSessionOpen s) := by
  unfold State.onSessionOpen
  try dsimp only
  repeat' first
    | with_reducible assumption
    | with_reducible apply State.runCmd_keeps
    | with_reducible apply State.openSession_keeps
    | split
    | (refine Keeps.foldl (fun _ _ _ => ?_) ?_)
    | intro _
    | (refine Keeps.of_mk ?_ rfl rfl rfl rfl rfl rfl rfl rfl rfl rfl rfl)

theorem State.openTurn_keeps {z s : State} {slot : Nat} (hz : Keeps z s) : Keeps z (State.openTurn s slot) := by
  unfold State.openTurn
  try dsimp only
  repeat' first
    | with_reducible assumption
    | with_reducible apply State.setEntry_keeps
    | with_reducible apply State.setEdge_keeps
    | split
    | (refine Keeps.foldl (fun _ _ _ => ?_) ?_)
    | (refine Keeps.of_mk ?_ rfl rfl rfl rfl rfl rfl rfl rfl rfl rfl rfl)

theorem State.chargeIn_keeps {z s : State} {slot : Nat} {n : Nat} (hz : Keeps z s) : Keeps z (State.chargeIn s slot n) := by
  unfold State.chargeIn
  try dsimp only
  repeat' first
    | with_reducible assumption
    | with_reducible apply State.setLedger_keeps
    | with_reducible apply State.levelSpent_keeps
    | split
    | (refine Keeps.foldl (fun _ _ _ => ?_) ?_)
    | (refine Keeps.of_mk ?_ rfl rfl rfl rfl rfl rfl rfl rfl rfl rfl rfl)

theorem State.fixTIn_keeps {z s : State} {slot : Nat} (hz : Keeps z s) : Keeps z (State.fixTIn s slot) := by
  unfold State.fixTIn
  try dsimp only
  repeat' first
    | with_reducible assumption
    | with_reducible apply State.setEdge_keeps
    | split
    | (refine Keeps.foldl (fun _ _ _ => ?_) ?_)
    | (refine Keeps.of_mk ?_ rfl rfl rfl rfl rfl rfl rfl rfl rfl rfl rfl)

theorem State.feedHome_keeps {z s : State} {slot : Nat} {i : Issuer} {ws : List Word} {first : Bool} {last : Bool} {toks : List Nat} {pos : Nat} {idx : Nat} (hz : Keeps z s) : Keeps z (State.feedHome s slot i ws first last toks pos idx) := by
  unfold State.feedHome
  try dsimp only
  repeat' first
    | with_reducible assumption
    | with_reducible apply State.homeFeed_keeps
    | with_reducible apply State.reply_keeps
    | with_reducible apply State.holdReply_keeps
    | with_reducible apply State.setHome_keeps
    | with_reducible apply State.forward_keeps
    | split
    | (refine Keeps.foldl (fun _ _ _ => ?_) ?_)
    | (refine Keeps.of_mk ?_ rfl rfl rfl rfl rfl rfl rfl rfl rfl rfl rfl)

theorem State.undoFeed_keeps {z s : State} {slot : Nat} (hz : Keeps z s) : Keeps z (State.undoFeed s slot) := by
  unfold State.undoFeed
  try dsimp only
  repeat' first
    | with_reducible assumption
    | with_reducible apply State.setEntry_keeps
    | with_reducible apply State.setLedger_keeps
    | with_reducible apply State.setEdge_keeps
    | split
    | (refine Keeps.foldl (fun _ _ _ => ?_) ?_)
    | (refine Keeps.of_mk ?_ rfl rfl rfl rfl rfl rfl rfl rfl rfl rfl rfl)

theorem State.feedAccepted_keeps {z s : State} {slot : Nat} {i : Issuer} {w : Word} {ws : List Word} {toks : List Nat} (hz : Keeps z s) : Keeps z (State.feedAccepted s slot i w ws toks) := by
  unfold State.feedAccepted
  try dsimp only
  repeat' first
    | with_reducible assumption
    | with_reducible apply State.endStream_keeps
    | with_reducible apply State.chargeIn_keeps
    | with_reducible apply State.openTurn_keeps
    | with_reducible apply State.writeIn_keeps
    | with_reducible apply State.setEntry_keeps
    | with_reducible apply State.setEdge_keeps
    | with_reducible apply State.fixTIn_keeps
    | with_reducible apply State.feedHome_keeps
    | split
    | (refine Keeps.foldl (fun _ _ _ => ?_) ?_)
    | (refine Keeps.of_mk ?_ rfl rfl rfl rfl rfl rfl rfl rfl rfl rfl rfl)

theorem State.feedSession_keeps {z s : State} {i : Issuer} {ps : List Word} {ws : List Word} {slot : Nat} (hz : Keeps z s) : Keeps z (State.feedSession s i ps ws slot) := by
  unfold State.feedSession
  try dsimp only
  repeat' first
    | with_reducible assumption
    | with_reducible apply State.streamDue_keeps
    | with_reducible apply State.answer_keeps
    | with_reducible apply State.setLedger_keeps
    | with_reducible apply State.feedAccepted_keeps
    | split
    | (refine Keeps.foldl (fun _ _ _ => ?_) ?_)
    | (refine Keeps.of_mk ?_ rfl rfl rfl rfl rfl rfl rfl rfl rfl rfl rfl)

theorem State.onSessionFeed_keeps {z s : State}  (hz : Keeps z s) : Keeps z (State.onSessionFeed s) := by
  unfold State.onSessionFeed
  try dsimp only
  repeat' first
    | with_reducible assumption
    | with_reducible apply State.runCmd_keeps
    | with_reducible apply State.session_keeps
    | with_reducible apply State.feedSession_keeps
    | split
    | (refine Keeps.foldl (fun _ _ _ => ?_) ?_)
    | intro _
    | (refine Keeps.of_mk ?_ rfl rfl rfl rfl rfl rfl rfl rfl rfl rfl rfl)

theorem State.closeHome_keeps {z s : State} {i : Issuer} {slot : Nat} (hz : Keeps z s) : Keeps z (State.closeHome s i slot) := by
  unfold State.closeHome
  try dsimp only
  repeat' first
    | with_reducible assumption
    | with_reducible apply State.answer_keeps
    | with_reducible apply State.startClose_keeps
    | with_reducible apply State.holdReply_keeps
    | with_reducible apply State.setHome_keeps
    | split
    | (refine Keeps.foldl (fun _ _ _ => ?_) ?_)
    | (refine Keeps.of_mk ?_ rfl rfl rfl rfl rfl rfl rfl rfl rfl rfl rfl)

theorem State.closeEdge_keeps {z s : State} {i : Issuer} {ws : List Word} {slot : Nat} (hz : Keeps z s) : Keeps z (State.closeEdge s i ws slot) := by
  unfold State.closeEdge
  try dsimp only
  repeat' first
    | with_reducible assumption
    | with_reducible apply State.answer_keeps
    | with_reducible apply State.forward_keeps
    | with_reducible apply State.holdReply_keeps
    | split
    | (refine Keeps.foldl (fun _ _ _ => ?_) ?_)
    | (refine Keeps.of_mk ?_ rfl rfl rfl rfl rfl rfl rfl rfl rfl rfl rfl)

theorem State.onSessionClose_keeps {z s : State}  (hz : Keeps z s) : Keeps z (State.onSessionClose s) := by
  unfold State.onSessionClose
  try dsimp only
  repeat' first
    | with_reducible assumption
    | with_reducible apply State.runCmd_keeps
    | with_reducible apply State.session_keeps
    | with_reducible apply State.closeHome_keeps
    | with_reducible apply State.closeEdge_keeps
    | split
    | (refine Keeps.foldl (fun _ _ _ => ?_) ?_)
    | intro _
    | (refine Keeps.of_mk ?_ rfl rfl rfl rfl rfl rfl rfl rfl rfl rfl rfl)

theorem State.onSessionCancel_keeps {z s : State}  (hz : Keeps z s) : Keeps z (State.onSessionCancel s) := by
  unfold State.onSessionCancel
  try dsimp only
  repeat' first
    | with_reducible assumption
    | with_reducible apply State.runCmd_keeps
    | with_reducible apply State.session_keeps
    | with_reducible apply State.answer_keeps
    | with_reducible apply State.cancelAll_keeps
    | split
    | (refine Keeps.foldl (fun _ _ _ => ?_) ?_)
    | intro _
    | (refine Keeps.of_mk ?_ rfl rfl rfl rfl rfl rfl rfl rfl rfl rfl rfl)

theorem State.onSessionQuery_keeps {z s0 : State} {find : WordFind} (hz : Keeps z s0) : Keeps z (State.onSessionQuery s0 find) := by
  unfold State.onSessionQuery
  try dsimp only
  repeat' first
    | with_reducible assumption
    | with_reducible apply State.refuseUnknown_keeps
    | with_reducible apply State.entryCheck_keeps
    | with_reducible apply State.runCmd_keeps
    | with_reducible apply State.session_keeps
    | with_reducible apply State.reply_keeps
    | split
    | (refine Keeps.foldl (fun _ _ _ => ?_) ?_)
    | intro _
    | (refine Keeps.of_mk ?_ rfl rfl rfl rfl rfl rfl rfl rfl rfl rfl rfl)

theorem State.setStops_keeps {z s : State} {slot : Nat} {k : Nat} {tok : Nat} {en : Bool} (hz : Keeps z s) : Keeps z (State.setStops s slot k tok en) := by
  unfold State.setStops
  try dsimp only
  repeat' first
    | with_reducible assumption
    | with_reducible apply State.setEntry_keeps
    | split
    | (refine Keeps.foldl (fun _ _ _ => ?_) ?_)
    | (refine Keeps.of_mk ?_ rfl rfl rfl rfl rfl rfl rfl rfl rfl rfl rfl)

theorem State.stopSetAt_keeps {z s : State} {i : Issuer} {w : Word} {fwd : List Word} {slot : Nat} (hz : Keeps z s) : Keeps z (State.stopSetAt s i w fwd slot) := by
  unfold State.stopSetAt
  try dsimp only
  repeat' first
    | with_reducible assumption
    | with_reducible apply State.answer_keeps
    | with_reducible apply State.setStops_keeps
    | with_reducible apply State.forward_keeps
    | with_reducible apply State.holdReply_keeps
    | split
    | (refine Keeps.foldl (fun _ _ _ => ?_) ?_)
    | (refine Keeps.of_mk ?_ rfl rfl rfl rfl rfl rfl rfl rfl rfl rfl rfl)

theorem State.onStopSet_keeps {z s : State}  (hz : Keeps z s) : Keeps z (State.onStopSet s) := by
  unfold State.onStopSet
  try dsimp only
  repeat' first
    | with_reducible assumption
    | with_reducible apply State.runCmd_keeps
    | with_reducible apply State.session_keeps
    | with_reducible apply State.stopSetAt_keeps
    | split
    | (refine Keeps.foldl (fun _ _ _ => ?_) ?_)
    | intro _
    | (refine Keeps.of_mk ?_ rfl rfl rfl rfl rfl rfl rfl rfl rfl rfl rfl)

theorem State.resolveAt_keeps {z s : State} {i : Issuer} {c : Nat} {n : Nat} {slot : Nat} (hz : Keeps z s) : Keeps z (State.resolveAt s i c n slot) := by
  unfold State.resolveAt
  try dsimp only
  repeat' first
    | with_reducible assumption
    | with_reducible apply State.answer_keeps
    | with_reducible apply State.resolveStep_keeps
    | (with_reducible refine State.resolveStep_keeps_eq (by with_reducible assumption) ?_)
    | with_reducible apply State.reply_keeps
    | split
    | (refine Keeps.foldl (fun _ _ _ => ?_) ?_)
    | (refine Keeps.of_mk ?_ rfl rfl rfl rfl rfl rfl rfl rfl rfl rfl rfl)

theorem State.onDraftResolve_keeps {z s : State}  (hz : Keeps z s) : Keeps z (State.onDraftResolve s) := by
  unfold State.onDraftResolve
  try dsimp only
  repeat' first
    | with_reducible assumption
    | with_reducible apply State.runCmd_keeps
    | with_reducible apply State.session_keeps
    | with_reducible apply State.resolveAt_keeps
    | split
    | (refine Keeps.foldl (fun _ _ _ => ?_) ?_)
    | intro _
    | (refine Keeps.of_mk ?_ rfl rfl rfl rfl rfl rfl rfl rfl rfl rfl rfl)

end Sys2Proof.Machine
end

