-- ==== Sys2Proof/Laws/KeepsTenantCmd.lean ====
section
/-! SUPPORT. Tenants and partitions: what each operation keeps, one lemma for each. -/
namespace Sys2Proof.Machine
set_option Elab.async false

theorem State.tenantCmd_keeps {z s : State} {i : Issuer} {ps : List Word} {act : Nat → State} (hz : Keeps z s) (hact : ∀ x0, Keeps z (act x0)) : Keeps z (State.tenantCmd s i ps act) := by
  unfold State.tenantCmd
  try dsimp only
  repeat' first
    | with_reducible assumption
    | with_reducible apply State.answer_keeps
    | (exact hact _)
    | split
    | (refine Keeps.foldl (fun _ _ _ => ?_) ?_)
    | (refine Keeps.of_mk ?_ rfl rfl rfl rfl rfl rfl rfl rfl rfl rfl rfl)

theorem State.levelsGone_keeps {z s : State} {t : Nat} {old : Ledger} (hz : Keeps z s) : Keeps z (State.levelsGone s t old) := by
  unfold State.levelsGone
  try dsimp only
  repeat' first
    | with_reducible assumption
    | with_reducible apply State.levelSpent_keeps
    | split
    | (refine Keeps.foldl (fun _ _ _ => ?_) ?_)
    | (refine Keeps.of_mk ?_ rfl rfl rfl rfl rfl rfl rfl rfl rfl rfl rfl)

theorem State.setTenant_keeps {z s : State} {t : Nat} {valid : Bool} {weight : Nat} {salt : Word} (hz : Keeps z s) : Keeps z (State.setTenant s t valid weight salt) := by
  unfold State.setTenant
  try dsimp only
  repeat' first
    | with_reducible assumption
    | with_reducible apply State.setLedger_keeps
    | with_reducible apply State.levelsGone_keeps
    | split
    | (refine Keeps.foldl (fun _ _ _ => ?_) ?_)
    | (refine Keeps.of_mk ?_ rfl rfl rfl rfl rfl rfl rfl rfl rfl rfl rfl)

theorem State.onTenantSet_keeps {z s : State}  (hz : Keeps z s) : Keeps z (State.onTenantSet s) := by
  unfold State.onTenantSet
  try dsimp only
  repeat' first
    | with_reducible assumption
    | with_reducible apply State.runCmd_keeps
    | with_reducible apply State.tenantCmd_keeps
    | with_reducible apply State.answer_keeps
    | with_reducible apply State.setTenant_keeps
    | split
    | (refine Keeps.foldl (fun _ _ _ => ?_) ?_)
    | intro _
    | (refine Keeps.of_mk ?_ rfl rfl rfl rfl rfl rfl rfl rfl rfl rfl rfl)

theorem State.setLevel_keeps {z s : State} {t : Nat} {b : Nat} {rate : Nat} {burst : Nat} {level : Int} (hz : Keeps z s) : Keeps z (State.setLevel s t b rate burst level) := by
  unfold State.setLevel
  try dsimp only
  repeat' first
    | with_reducible assumption
    | with_reducible apply State.setLedger_keeps
    | with_reducible apply State.levelSpent_keeps
    | split
    | (refine Keeps.foldl (fun _ _ _ => ?_) ?_)
    | (refine Keeps.of_mk ?_ rfl rfl rfl rfl rfl rfl rfl rfl rfl rfl rfl)

theorem State.onBudgetGrant_keeps {z s : State}  (hz : Keeps z s) : Keeps z (State.onBudgetGrant s) := by
  unfold State.onBudgetGrant
  try dsimp only
  repeat' first
    | with_reducible assumption
    | with_reducible apply State.runCmd_keeps
    | with_reducible apply State.tenantCmd_keeps
    | with_reducible apply State.answer_keeps
    | with_reducible apply State.reply_keeps
    | with_reducible apply State.setLevel_keeps
    | split
    | (refine Keeps.foldl (fun _ _ _ => ?_) ?_)
    | intro _
    | (refine Keeps.of_mk ?_ rfl rfl rfl rfl rfl rfl rfl rfl rfl rfl rfl)

theorem State.onBudgetRead_keeps {z s : State}  (hz : Keeps z s) : Keeps z (State.onBudgetRead s) := by
  unfold State.onBudgetRead
  try dsimp only
  repeat' first
    | with_reducible assumption
    | with_reducible apply State.runCmd_keeps
    | with_reducible apply State.tenantCmd_keeps
    | with_reducible apply State.reply_keeps
    | split
    | (refine Keeps.foldl (fun _ _ _ => ?_) ?_)
    | intro _
    | (refine Keeps.of_mk ?_ rfl rfl rfl rfl rfl rfl rfl rfl rfl rfl rfl)

theorem State.onPartitionConfig_keeps {z s : State}  (hz : Keeps z s) : Keeps z (State.onPartitionConfig s) := by
  unfold State.onPartitionConfig
  try dsimp only
  repeat' first
    | with_reducible assumption
    | with_reducible apply State.runCmd_keeps
    | with_reducible apply State.answer_keeps
    | (refine State.setPart_keeps _ _ ?_ (fun i => Keeps.ring ?_ _ i))
    | with_reducible apply State.setPart_keeps
    | split
    | (refine Keeps.foldl (fun _ _ _ => ?_) ?_)
    | intro _
    | (refine Keeps.of_mk ?_ rfl rfl rfl rfl rfl rfl rfl rfl rfl rfl rfl)

theorem State.startPartReset_keeps {z s : State} {i : Issuer} {p : Nat} (hz : Keeps z s) : Keeps z (State.startPartReset s i p) := by
  unfold State.startPartReset
  try dsimp only
  repeat' first
    | with_reducible assumption
    | (refine State.setPart_keeps _ _ ?_ (fun i => Keeps.ring ?_ _ i))
    | with_reducible apply State.setPart_keeps
    | with_reducible apply State.cancelAll_keeps
    | split
    | (refine Keeps.foldl (fun _ _ _ => ?_) ?_)
    | (refine Keeps.of_mk ?_ rfl rfl rfl rfl rfl rfl rfl rfl rfl rfl rfl)

theorem State.onPartitionReset_keeps {z s : State}  (hz : Keeps z s) : Keeps z (State.onPartitionReset s) := by
  unfold State.onPartitionReset
  try dsimp only
  repeat' first
    | with_reducible assumption
    | with_reducible apply State.runCmd_keeps
    | with_reducible apply State.startPartReset_keeps
    | with_reducible apply State.answer_keeps
    | split
    | (refine Keeps.foldl (fun _ _ _ => ?_) ?_)
    | intro _
    | (refine Keeps.of_mk ?_ rfl rfl rfl rfl rfl rfl rfl rfl rfl rfl rfl)

theorem State.clearPart_keeps {z s : State} {r : PartRst} (hz : Keeps z s) : Keeps z (State.clearPart s r) := by
  unfold State.clearPart
  try dsimp only
  repeat' first
    | with_reducible assumption
    | (refine State.setPart_keeps _ _ ?_ (fun i => Keeps.ring ?_ _ i))
    | with_reducible apply State.setPart_keeps
    | split
    | (refine Keeps.foldl (fun _ _ _ => ?_) ?_)
    | (refine Keeps.of_mk ?_ rfl rfl rfl rfl rfl rfl rfl rfl rfl rfl rfl)

theorem State.clearParts_keeps {z s : State}  (hz : Keeps z s) : Keeps z (State.clearParts s) := by
  unfold State.clearParts
  try dsimp only
  repeat' first
    | with_reducible assumption
    | with_reducible apply State.clearPart_keeps
    | split
    | (refine Keeps.foldl (fun _ _ _ => ?_) ?_)
    | (refine Keeps.of_mk ?_ rfl rfl rfl rfl rfl rfl rfl rfl rfl rfl rfl)

theorem State.onPartitionResetDone_keeps {z s1 : State} {part : Nat} (hz : Keeps z s1) : Keeps z (State.onPartitionResetDone s1 part) := by
  unfold State.onPartitionResetDone
  try dsimp only
  repeat' first
    | with_reducible assumption
    | with_reducible apply State.answer_keeps
    | (refine State.setPart_keeps _ _ ?_ (fun i => Keeps.ring ?_ _ i))
    | with_reducible apply State.setPart_keeps
    | split
    | (refine Keeps.foldl (fun _ _ _ => ?_) ?_)
    | (refine Keeps.of_mk ?_ rfl rfl rfl rfl rfl rfl rfl rfl rfl rfl rfl)

end Sys2Proof.Machine
end

