-- ==== Sys2Proof/Laws/KeepsLanes.lean ====
section
/-! SUPPORT. The fabric lanes: what each operation keeps, one lemma for each. -/
namespace Sys2Proof.Machine
set_option Elab.async false

theorem State.setLane_keeps {z s : State} {egress : Bool} {l : Nat} {v : Lane} (hz : Keeps z s) : Keeps z (State.setLane s egress l v) := by
  unfold State.setLane
  try dsimp only
  repeat' first
    | with_reducible assumption
    | with_reducible apply State.setOutLane_keeps
    | with_reducible apply State.setInLane_keeps
    | split
    | (refine Keeps.foldl (fun _ _ _ => ?_) ?_)
    | (refine Keeps.of_mk ?_ rfl rfl rfl rfl rfl rfl rfl rfl rfl rfl rfl)

theorem State.logSlip_keeps {z s : State} {ev : SlipEv} (hz : Keeps z s) : Keeps z (State.logSlip s ev) := by
  unfold State.logSlip
  try dsimp only
  repeat' first
    | with_reducible assumption
    | split
    | (refine Keeps.foldl (fun _ _ _ => ?_) ?_)
    | (refine Keeps.of_mk ?_ rfl rfl rfl rfl rfl rfl rfl rfl rfl rfl rfl)

theorem State.slip_keeps {z s : State} {egress : Bool} {l : Nat} {slot : Nat} {h : Nat} {sources : Nat} {counted : Bool} (hz : Keeps z s) : Keeps z (State.slip s egress l slot h sources counted) := by
  unfold State.slip
  try dsimp only
  repeat' first
    | with_reducible assumption
    | with_reducible apply State.setLane_keeps
    | with_reducible apply State.raise_keeps
    | with_reducible apply State.logSlip_keeps
    | split
    | (refine Keeps.foldl (fun _ _ _ => ?_) ?_)
    | (refine Keeps.of_mk ?_ rfl rfl rfl rfl rfl rfl rfl rfl rfl rfl rfl)

theorem State.started_keeps {z s : State} {egress : Bool} {l : Nat} {n : Nat} (hz : Keeps z s) : Keeps z (State.started s egress l n) := by
  unfold State.started
  try dsimp only
  repeat' first
    | with_reducible assumption
    | with_reducible apply State.setLane_keeps
    | split
    | (refine Keeps.foldl (fun _ _ _ => ?_) ?_)
    | (refine Keeps.of_mk ?_ rfl rfl rfl rfl rfl rfl rfl rfl rfl rfl rfl)

theorem State.overrun_keeps {z s : State} {egress : Bool} {l : Nat} (hz : Keeps z s) : Keeps z (State.overrun s egress l) := by
  unfold State.overrun
  try dsimp only
  repeat' first
    | with_reducible assumption
    | with_reducible apply State.jobFault_keeps
    | split
    | (refine Keeps.foldl (fun _ _ _ => ?_) ?_)
    | (refine Keeps.of_mk ?_ rfl rfl rfl rfl rfl rfl rfl rfl rfl rfl rfl)

theorem State.setOp_keeps {z s : State} {o : TierOp} {n : TierOp} (hz : Keeps z s) : Keeps z (State.setOp s o n) := by
  unfold State.setOp
  try dsimp only
  repeat' first
    | with_reducible assumption
    | split
    | (refine Keeps.foldl (fun _ _ _ => ?_) ?_)
    | (refine Keeps.of_mk ?_ rfl rfl rfl rfl rfl rfl rfl rfl rfl rfl rfl)

theorem State.opReply_keeps {z s : State} {o : TierOp} {st : Status} {result : List Word} (hz : Keeps z s) : Keeps z (State.opReply s o st result) := by
  unfold State.opReply
  try dsimp only
  repeat' first
    | with_reducible assumption
    | with_reducible apply State.endPendWith_keeps
    | with_reducible apply State.reply_keeps
    | split
    | (refine Keeps.foldl (fun _ _ _ => ?_) ?_)
    | (refine Keeps.of_mk ?_ rfl rfl rfl rfl rfl rfl rfl rfl rfl rfl rfl)

theorem State.abandonEntry_keeps {z s : State} {k : OpKind} (hz : Keeps z s) : Keeps z (State.abandonEntry s k) := by
  unfold State.abandonEntry
  try dsimp only
  repeat' first
    | with_reducible assumption
    | with_reducible apply State.freeEntry_keeps
    | with_reducible apply State.setEntry_keeps
    | split
    | (refine Keeps.foldl (fun _ _ _ => ?_) ?_)
    | (refine Keeps.of_mk ?_ rfl rfl rfl rfl rfl rfl rfl rfl rfl rfl rfl)

theorem State.abandon_keeps {z s : State} {o : TierOp} {slips : Bool} {counted : Bool} (hz : Keeps z s) : Keeps z (State.abandon s o slips counted) := by
  unfold State.abandon
  try dsimp only
  repeat' first
    | with_reducible assumption
    | with_reducible apply State.abandonEntry_keeps
    | with_reducible apply State.endOp_keeps
    | with_reducible apply State.freeOpPages_keeps
    | with_reducible apply State.opReply_keeps
    | with_reducible apply State.deadOp_keeps
    | split
    | (refine Keeps.foldl (fun _ _ _ => ?_) ?_)
    | (refine Keeps.of_mk ?_ rfl rfl rfl rfl rfl rfl rfl rfl rfl rfl rfl)

theorem State.deadSlot_keeps {z s : State} {egress : Bool} {l : Nat} {slot : Nat} {stalls : Nat} {d : Dead} (hz : Keeps z s) : Keeps z (State.deadSlot s egress l slot stalls d) := by
  unfold State.deadSlot
  try dsimp only
  repeat' first
    | with_reducible assumption
    | with_reducible apply State.slip_keeps
    | split
    | (refine Keeps.foldl (fun _ _ _ => ?_) ?_)
    | (refine Keeps.of_mk ?_ rfl rfl rfl rfl rfl rfl rfl rfl rfl rfl rfl)

theorem State.abandonAt_keeps {z s : State} {egress : Bool} {o : TierOp} {slot : Nat} {stalls : Nat} {counted : Bool} (hz : Keeps z s) : Keeps z (State.abandonAt s egress o slot stalls counted) := by
  unfold State.abandonAt
  try dsimp only
  repeat' first
    | with_reducible assumption
    | with_reducible apply State.abandon_keeps
    | with_reducible apply State.slip_keeps
    | split
    | (refine Keeps.foldl (fun _ _ _ => ?_) ?_)
    | (refine Keeps.of_mk ?_ rfl rfl rfl rfl rfl rfl rfl rfl rfl rfl rfl)

theorem State.wordDrop_keeps {z s : State} {w : Word} (hz : Keeps z s) : Keeps z (State.wordDrop s w) := by
  unfold State.wordDrop
  try dsimp only
  repeat' first
    | with_reducible assumption
    | with_reducible apply State.stateDrop_keeps
    | split
    | (refine Keeps.foldl (fun _ _ _ => ?_) ?_)
    | (refine Keeps.of_mk ?_ rfl rfl rfl rfl rfl rfl rfl rfl rfl rfl rfl)

theorem State.itemIntake_keeps {z s : State} {it : Item} {ok : Entry → Bool} (hz : Keeps z s) : Keeps z (State.itemIntake s it ok) := by
  unfold State.itemIntake
  try dsimp only
  repeat' first
    | with_reducible assumption
    | with_reducible apply State.staleDrop_keeps
    | with_reducible apply State.tell_keeps
    | with_reducible apply State.stateDrop_keeps
    | split
    | (refine Keeps.foldl (fun _ _ _ => ?_) ?_)
    | (refine Keeps.of_mk ?_ rfl rfl rfl rfl rfl rfl rfl rfl rfl rfl rfl)

theorem State.intake_keeps {z s : State} {l : Nat} {tag : Nat} {it : Item} (hz : Keeps z s) : Keeps z (State.intake s l tag it) := by
  unfold State.intake
  try dsimp only
  repeat' first
    | with_reducible assumption
    | with_reducible apply State.setOp_keeps
    | with_reducible apply State.itemIntake_keeps
    | with_reducible apply State.wordDrop_keeps
    | split
    | (refine Keeps.foldl (fun _ _ _ => ?_) ?_)
    | (refine Keeps.of_mk ?_ rfl rfl rfl rfl rfl rfl rfl rfl rfl rfl rfl)

theorem State.drain_keeps {z : State} {l : Nat} : ∀ {n : Nat} {s : State}, Keeps z s → Keeps z (State.drain n s l)
  | 0, _, hz => hz
  | n + 1, s, hz => by
    unfold State.drain
    dsimp only
    split
    · exact State.drain_keeps (State.intake_keeps (State.setInLane_keeps _ _ hz))
    · exact hz

theorem State.fifoCheck_keeps {z s : State} {egress : Bool} {l : Nat} {f : Find} (hz : Keeps z s) : Keeps z (State.fifoCheck s egress l f) := by
  unfold State.fifoCheck
  try dsimp only
  repeat' first
    | with_reducible assumption
    | with_reducible apply State.bumpCe_keeps
    | with_reducible apply State.jobFault_keeps
    | split
    | (refine Keeps.foldl (fun _ _ _ => ?_) ?_)
    | (refine Keeps.of_mk ?_ rfl rfl rfl rfl rfl rfl rfl rfl rfl rfl rfl)

theorem State.lostHrp_keeps {z s : State} {l : Nat} {slot : Nat} {stalls : Nat} {it : Item} (hz : Keeps z s) : Keeps z (State.lostHrp s l slot stalls it) := by
  unfold State.lostHrp
  try dsimp only
  repeat' first
    | with_reducible assumption
    | with_reducible apply State.setSlot_keeps
    | with_reducible apply State.slip_keeps
    | split
    | (refine Keeps.foldl (fun _ _ _ => ?_) ?_)
    | (refine Keeps.of_mk ?_ rfl rfl rfl rfl rfl rfl rfl rfl rfl rfl rfl)

theorem State.arrive_keeps {z s : State} {l : Nat} {slot : Nat} {stalls : Nat} {it : Item} (hz : Keeps z s) : Keeps z (State.arrive s l slot stalls it) := by
  unfold State.arrive
  try dsimp only
  repeat' first
    | with_reducible assumption
    | with_reducible apply State.setInLane_keeps
    | with_reducible apply State.abandonAt_keeps
    | with_reducible apply State.setOp_keeps
    | with_reducible apply State.deadSlot_keeps
    | with_reducible apply State.lostHrp_keeps
    | split
    | (refine Keeps.foldl (fun _ _ _ => ?_) ?_)
    | (refine Keeps.of_mk ?_ rfl rfl rfl rfl rfl rfl rfl rfl rfl rfl rfl)

theorem State.onFspIngressSlot_keeps {z s1 : State} {lane : Nat} {gap : Nat} {item : Item} {taken : Nat} {find : Find} {stalls : Nat} (hz : Keeps z s1) : Keeps z (State.onFspIngressSlot s1 lane gap item taken find stalls) := by
  unfold State.onFspIngressSlot
  try dsimp only
  repeat' first
    | with_reducible assumption
    | with_reducible apply State.fifoCheck_keeps
    | with_reducible apply State.drain_keeps
    | with_reducible apply State.overrun_keeps
    | with_reducible apply State.arrive_keeps
    | with_reducible apply State.started_keeps
    | split
    | (refine Keeps.foldl (fun _ _ _ => ?_) ?_)
    | (refine Keeps.of_mk ?_ rfl rfl rfl rfl rfl rfl rfl rfl rfl rfl rfl)

theorem State.drive_keeps {z s : State} {l : Nat} {it : Item} (hz : Keeps z s) : Keeps z (State.drive s l it) := by
  unfold State.drive
  try dsimp only
  repeat' first
    | with_reducible assumption
    | split
    | (refine Keeps.foldl (fun _ _ _ => ?_) ?_)
    | (refine Keeps.of_mk ?_ rfl rfl rfl rfl rfl rfl rfl rfl rfl rfl rfl)

theorem State.springDone_keeps {z s : State} {o : TierOp} {slot : Nat} (hz : Keeps z s) : Keeps z (State.springDone s o slot) := by
  unfold State.springDone
  try dsimp only
  repeat' first
    | with_reducible assumption
    | with_reducible apply State.setEntry_keeps
    | with_reducible apply State.endOp_keeps
    | with_reducible apply State.endPend_keeps
    | split
    | (refine Keeps.foldl (fun _ _ _ => ?_) ?_)
    | (refine Keeps.of_mk ?_ rfl rfl rfl rfl rfl rfl rfl rfl rfl rfl rfl)

theorem State.emptySprings_keeps {z s : State} {l : Nat} {slot : Nat} (hz : Keeps z s) : Keeps z (State.emptySprings s l slot) := by
  unfold State.emptySprings
  try dsimp only
  repeat' first
    | with_reducible assumption
    | with_reducible apply State.springDone_keeps
    | split
    | (refine Keeps.foldl (fun _ _ _ => ?_) ?_)
    | (refine Keeps.of_mk ?_ rfl rfl rfl rfl rfl rfl rfl rfl rfl rfl rfl)

theorem State.fillSlot_keeps {z s : State} {l : Nat} {find : Find} (hz : Keeps z s) : Keeps z (State.fillSlot s l find) := by
  unfold State.fillSlot
  try dsimp only
  repeat' first
    | with_reducible assumption
    | with_reducible apply State.drive_keeps
    | with_reducible apply State.setRelq_keeps
    | with_reducible apply State.ceRelq_keeps
    | with_reducible apply State.jobFault_keeps
    | split
    | (refine Keeps.foldl (fun _ _ _ => ?_) ?_)
    | (refine Keeps.of_mk ?_ rfl rfl rfl rfl rfl rfl rfl rfl rfl rfl rfl)

theorem State.deliver_keeps {z s : State} {l : Nat} {slot : Nat} {o : TierOp} {it : Item} {find : Find} (hz : Keeps z s) : Keeps z (State.deliver s l slot o it find) := by
  unfold State.deliver
  try dsimp only
  repeat' first
    | with_reducible assumption
    | with_reducible apply State.fifoCheck_keeps
    | with_reducible apply State.setOutLane_keeps
    | with_reducible apply State.drive_keeps
    | with_reducible apply State.setOp_keeps
    | with_reducible apply State.springDone_keeps
    | split
    | (refine Keeps.foldl (fun _ _ _ => ?_) ?_)
    | (refine Keeps.of_mk ?_ rfl rfl rfl rfl rfl rfl rfl rfl rfl rfl rfl)

theorem State.egressSlot_keeps {z s : State} {l : Nat} {slot : Nat} {stalls : Nat} {find : Find} (hz : Keeps z s) : Keeps z (State.egressSlot s l slot stalls find) := by
  unfold State.egressSlot
  try dsimp only
  repeat' first
    | with_reducible assumption
    | with_reducible apply State.emptySprings_keeps
    | with_reducible apply State.setOutLane_keeps
    | with_reducible apply State.deliver_keeps
    | with_reducible apply State.drive_keeps
    | with_reducible apply State.abandonAt_keeps
    | with_reducible apply State.deadSlot_keeps
    | with_reducible apply State.fillSlot_keeps
    | split
    | (refine Keeps.foldl (fun _ _ _ => ?_) ?_)
    | (refine Keeps.of_mk ?_ rfl rfl rfl rfl rfl rfl rfl rfl rfl rfl rfl)

theorem State.onFspEgressSlot_keeps {z s1 : State} {lane : Nat} {gap : Nat} {find : Find} {stalls : Nat} (hz : Keeps z s1) : Keeps z (State.onFspEgressSlot s1 lane gap find stalls) := by
  unfold State.onFspEgressSlot
  try dsimp only
  repeat' first
    | with_reducible assumption
    | with_reducible apply State.drive_keeps
    | with_reducible apply State.overrun_keeps
    | with_reducible apply State.egressSlot_keeps
    | with_reducible apply State.started_keeps
    | split
    | (refine Keeps.foldl (fun _ _ _ => ?_) ?_)
    | (refine Keeps.of_mk ?_ rfl rfl rfl rfl rfl rfl rfl rfl rfl rfl rfl)

theorem State.onSlotStartMissed_keeps {z s1 : State} {egress : Bool} {lane : Nat} (hz : Keeps z s1) : Keeps z (State.onSlotStartMissed s1 egress lane) := by
  unfold State.onSlotStartMissed
  try dsimp only
  repeat' first
    | with_reducible assumption
    | with_reducible apply State.overrun_keeps
    | split
    | (refine Keeps.foldl (fun _ _ _ => ?_) ?_)
    | (refine Keeps.of_mk ?_ rfl rfl rfl rfl rfl rfl rfl rfl rfl rfl rfl)

theorem State.onFspClockLoss_keeps {z s1 : State}  (hz : Keeps z s1) : Keeps z (State.onFspClockLoss s1) := by
  unfold State.onFspClockLoss
  try dsimp only
  repeat' first
    | with_reducible assumption
    | with_reducible apply State.jobFault_keeps
    | split
    | (refine Keeps.foldl (fun _ _ _ => ?_) ?_)
    | (refine Keeps.of_mk ?_ rfl rfl rfl rfl rfl rfl rfl rfl rfl rfl rfl)

end Sys2Proof.Machine
end

