-- ==== Sys2Proof/Laws/KeepsTierCmd.lean ====
section
/-! SUPPORT. The tier commands: what each operation keeps, one lemma for each. -/
namespace Sys2Proof.Machine
set_option Elab.async false

theorem State.beginWrite_keeps {z s : State} {k : OpKind} {i : Issuer} {tenant : Nat} {l : Nat} {first : Nat} {n : Nat} {ttl : Nat} (hz : Keeps z s) : Keeps z (State.beginWrite s k i tenant l first n ttl) := by
  unfold State.beginWrite
  try dsimp only
  repeat' first
    | with_reducible assumption
    | with_reducible apply State.keepAwake_keeps
    | with_reducible apply State.takeExts_keeps
    | with_reducible apply State.addHeld_keeps
    | split
    | (refine Keeps.foldl (fun _ _ _ => ?_) ?_)
    | (refine Keeps.of_mk ?_ rfl rfl rfl rfl rfl rfl rfl rfl rfl rfl rfl)

theorem State.install_keeps {z s : State} {slot : Nat} {head : Nat} {pages : Nat} {ttl : Nat} (hz : Keeps z s) : Keeps z (State.install s slot head pages ttl) := by
  unfold State.install
  try dsimp only
  repeat' first
    | with_reducible assumption
    | with_reducible apply State.freeCopy_keeps
    | with_reducible apply State.setEntry_keeps
    | split
    | (refine Keeps.foldl (fun _ _ _ => ?_) ?_)
    | (refine Keeps.of_mk ?_ rfl rfl rfl rfl rfl rfl rfl rfl rfl rfl rfl)

theorem State.parkSlot_keeps {z s : State} {i : Issuer} {slot : Nat} {l : Nat} {first : Nat} {n : Nat} {ttl : Nat} {fresh : Bool} (hz : Keeps z s) : Keeps z (State.parkSlot s i slot l first n ttl fresh).2 := by
  unfold State.parkSlot
  try dsimp only
  repeat' first
    | with_reducible assumption
    | with_reducible apply State.setEntry_keeps
    | with_reducible apply State.install_keeps
    | with_reducible apply State.holdReply_keeps
    | with_reducible apply State.beginWrite_keeps
    | split
    | (refine Keeps.foldl (fun _ _ _ => ?_) ?_)
    | (refine Keeps.of_mk ?_ rfl rfl rfl rfl rfl rfl rfl rfl rfl rfl rfl)

theorem State.parkSlot_keeps_eq {z s t : State} {x : _} {i : Issuer} {slot : Nat} {l : Nat} {first : Nat} {n : Nat} {ttl : Nat} {fresh : Bool} (e : State.parkSlot s i slot l first n ttl fresh = (x, t)) (hz : Keeps z s) : Keeps z t := by
  have k := State.parkSlot_keeps hz (z := z) (i := i) (slot := slot) (l := l) (first := first) (n := n) (ttl := ttl) (fresh := fresh)
  rw [e] at k
  exact k

theorem State.park_keeps {z s : State} {i : Issuer} {ps : List Word} (hz : Keeps z s) : Keeps z (State.park s i ps) := by
  unfold State.park
  try dsimp only
  repeat' first
    | with_reducible assumption
    | with_reducible apply State.parkSlot_keeps
    | (with_reducible refine State.parkSlot_keeps_eq (by with_reducible assumption) ?_)
    | with_reducible apply State.answer_keeps
    | with_reducible apply State.allocate_keeps
    | split
    | (refine Keeps.foldl (fun _ _ _ => ?_) ?_)
    | (refine Keeps.of_mk ?_ rfl rfl rfl rfl rfl rfl rfl rfl rfl rfl rfl)

theorem State.onSessionPark_keeps {z s : State}  (hz : Keeps z s) : Keeps z (State.onSessionPark s) := by
  unfold State.onSessionPark
  try dsimp only
  repeat' first
    | with_reducible assumption
    | with_reducible apply State.runCmd_keeps
    | with_reducible apply State.park_keeps
    | split
    | (refine Keeps.foldl (fun _ _ _ => ?_) ?_)
    | intro _
    | (refine Keeps.of_mk ?_ rfl rfl rfl rfl rfl rfl rfl rfl rfl rfl rfl)

theorem State.wakeAhead_keeps {z s : State} {slot : Nat} (hz : Keeps z s) : Keeps z (State.wakeAhead s slot) := by
  unfold State.wakeAhead
  try dsimp only
  repeat' first
    | with_reducible assumption
    | with_reducible apply State.wakeReq_keeps
    | split
    | (refine Keeps.foldl (fun _ _ _ => ?_) ?_)
    | (refine Keeps.of_mk ?_ rfl rfl rfl rfl rfl rfl rfl rfl rfl rfl rfl)

theorem State.resumeSlot_keeps {z s : State} {i : Issuer} {slot : Nat} {l : Nat} {first : Nat} {adapter : Option Nat} {n : Nat} {hash : Word × Word} (hz : Keeps z s) : Keeps z (State.resumeSlot s i slot l first adapter n hash) := by
  unfold State.resumeSlot
  try dsimp only
  repeat' first
    | with_reducible assumption
    | with_reducible apply State.answer_keeps
    | with_reducible apply State.holdReply_keeps
    | with_reducible apply State.setEntry_keeps
    | with_reducible apply State.wakeAhead_keeps
    | split
    | (refine Keeps.foldl (fun _ _ _ => ?_) ?_)
    | (refine Keeps.of_mk ?_ rfl rfl rfl rfl rfl rfl rfl rfl rfl rfl rfl)

theorem State.onSessionResume_keeps {z s : State}  (hz : Keeps z s) : Keeps z (State.onSessionResume s) := by
  unfold State.onSessionResume
  try dsimp only
  repeat' first
    | with_reducible assumption
    | with_reducible apply State.runCmd_keeps
    | with_reducible apply State.session_keeps
    | with_reducible apply State.resumeSlot_keeps
    | split
    | (refine Keeps.foldl (fun _ _ _ => ?_) ?_)
    | intro _
    | (refine Keeps.of_mk ?_ rfl rfl rfl rfl rfl rfl rfl rfl rfl rfl rfl)

theorem State.publishDone_keeps {z s t : State} {d : DirEnt} {ttl : Nat} (e : s.publishDone d ttl = some t) (hz : Keeps z s) :
    Keeps z t := by
  unfold State.publishDone at e
  dsimp only at e
  split at e
  · injection e with e
    exact e ▸ State.dirPut_keeps hz
  · split at e
    · injection e with e
      subst e
      refine State.dirPut_keeps ?_
      split
      · exact State.dirDrop_keeps hz
      · exact hz
    · exact absurd e (by simp)

theorem State.publishSlot_keeps {z s : State} {i : Issuer} {ps : List Word} {slot : Nat} (hz : Keeps z s) :
    Keeps z (s.publishSlot i ps slot) := by
  unfold State.publishSlot
  extract_lets w hp rp e q toks named
  repeat' first
    | with_reducible exact State.answer_keeps hz
    | extract_lets
    | split
  all_goals first
    | (rename_i t ht; exact State.reply_keeps (State.publishDone_keeps ht hz))
    | exact State.beginWrite_keeps (State.holdReply_keeps hz)

theorem State.onPrefixPublish_keeps {z s : State}  (hz : Keeps z s) : Keeps z (State.onPrefixPublish s) := by
  unfold State.onPrefixPublish
  try dsimp only
  repeat' first
    | with_reducible assumption
    | with_reducible apply State.runCmd_keeps
    | with_reducible apply State.session_keeps
    | with_reducible apply State.publishSlot_keeps
    | split
    | (refine Keeps.foldl (fun _ _ _ => ?_) ?_)
    | intro _
    | (refine Keeps.of_mk ?_ rfl rfl rfl rfl rfl rfl rfl rfl rfl rfl rfl)

theorem State.onPrefixDrop_keeps {z s : State}  (hz : Keeps z s) : Keeps z (State.onPrefixDrop s) := by
  unfold State.onPrefixDrop
  try dsimp only
  repeat' first
    | with_reducible assumption
    | with_reducible apply State.runCmd_keeps
    | with_reducible apply State.answer_keeps
    | with_reducible apply State.dirRetire_keeps
    | split
    | (refine Keeps.foldl (fun _ _ _ => ?_) ?_)
    | intro _
    | (refine Keeps.of_mk ?_ rfl rfl rfl rfl rfl rfl rfl rfl rfl rfl rfl)

theorem State.setAdapter_keeps {z s : State} {v : Nat} {c : Option Slice} (hz : Keeps z s) : Keeps z (State.setAdapter s v c) := by
  unfold State.setAdapter
  try dsimp only
  repeat' first
    | with_reducible assumption
    | with_reducible apply State.freeSlice_keeps
    | split
    | (refine Keeps.foldl (fun _ _ _ => ?_) ?_)
    | (refine Keeps.of_mk ?_ rfl rfl rfl rfl rfl rfl rfl rfl rfl rfl rfl)

theorem State.loadAdapter_keeps {z s : State} {i : Issuer} {v : Nat} {l : Nat} {first : Nat} {n : Nat} (hz : Keeps z s) : Keeps z (State.loadAdapter s i v l first n) := by
  unfold State.loadAdapter
  try dsimp only
  repeat' first
    | with_reducible assumption
    | with_reducible apply State.answer_keeps
    | with_reducible apply State.setAdapter_keeps
    | with_reducible apply State.beginWrite_keeps
    | split
    | (refine Keeps.foldl (fun _ _ _ => ?_) ?_)
    | (refine Keeps.of_mk ?_ rfl rfl rfl rfl rfl rfl rfl rfl rfl rfl rfl)

theorem State.onAdapterLoad_keeps {z s : State}  (hz : Keeps z s) : Keeps z (State.onAdapterLoad s) := by
  unfold State.onAdapterLoad
  try dsimp only
  repeat' first
    | with_reducible assumption
    | with_reducible apply State.runCmd_keeps
    | with_reducible apply State.loadAdapter_keeps
    | split
    | (refine Keeps.foldl (fun _ _ _ => ?_) ?_)
    | intro _
    | (refine Keeps.of_mk ?_ rfl rfl rfl rfl rfl rfl rfl rfl rfl rfl rfl)

theorem State.devCe_keeps {z s : State} {d : Nat} (hz : Keeps z s) : Keeps z (State.devCe s d) := by
  unfold State.devCe
  try dsimp only
  repeat' first
    | with_reducible assumption
    | with_reducible apply State.setDev_keeps
    | split
    | (refine Keeps.foldl (fun _ _ _ => ?_) ?_)
    | (refine Keeps.of_mk ?_ rfl rfl rfl rfl rfl rfl rfl rfl rfl rfl rfl)

theorem State.devUe_keeps {z s : State} {d : Nat} (hz : Keeps z s) : Keeps z (State.devUe s d) := by
  unfold State.devUe
  try dsimp only
  repeat' first
    | with_reducible assumption
    | with_reducible apply State.setDev_keeps
    | split
    | (refine Keeps.foldl (fun _ _ _ => ?_) ?_)
    | (refine Keeps.of_mk ?_ rfl rfl rfl rfl rfl rfl rfl rfl rfl rfl rfl)

theorem State.dropOwners_keeps {z s : State} {e : Nat} (hz : Keeps z s) : Keeps z (State.dropOwners s e) := by
  unfold State.dropOwners
  try dsimp only
  repeat' first
    | with_reducible assumption
    | with_reducible apply State.setAdapter_keeps
    | with_reducible apply State.dirDrop_keeps
    | split
    | (refine Keeps.foldl (fun _ _ _ => ?_) ?_)
    | (refine Keeps.of_mk ?_ rfl rfl rfl rfl rfl rfl rfl rfl rfl rfl rfl)

theorem State.pageBad_keeps {z s : State} {e : Nat} {reader : Option Nat} (hz : Keeps z s) : Keeps z (State.pageBad s e reader) := by
  unfold State.pageBad
  try dsimp only
  repeat' first
    | with_reducible assumption
    | with_reducible apply State.trouble_keeps
    | with_reducible apply State.devUe_keeps
    | with_reducible apply State.dropOwners_keeps
    | with_reducible apply State.cancelAll_keeps
    | split
    | (refine Keeps.foldl (fun _ _ _ => ?_) ?_)
    | (refine Keeps.of_mk ?_ rfl rfl rfl rfl rfl rfl rfl rfl rfl rfl rfl)

theorem State.stage_keeps {z s : State} {o : TierOp} {slot : Nat} {count : Nat} (hz : Keeps z s) : Keeps z (State.stage s o slot count) := by
  unfold State.stage
  try dsimp only
  repeat' first
    | with_reducible assumption
    | with_reducible apply State.touch_keeps
    | with_reducible apply State.setOp_keeps
    | with_reducible apply State.setOutLane_keeps
    | split
    | (refine Keeps.foldl (fun _ _ _ => ?_) ?_)
    | (refine Keeps.of_mk ?_ rfl rfl rfl rfl rfl rfl rfl rfl rfl rfl rfl)

theorem State.portFail_keeps {z s : State} {d : Nat} (hz : Keeps z s) : Keeps z (State.portFail s d) := by
  unfold State.portFail
  try dsimp only
  repeat' first
    | with_reducible assumption
    | with_reducible apply State.jobFault_keeps
    | with_reducible apply State.setDev_keeps
    | split
    | (refine Keeps.foldl (fun _ _ _ => ?_) ?_)
    | (refine Keeps.of_mk ?_ rfl rfl rfl rfl rfl rfl rfl rfl rfl rfl rfl)

theorem State.onPkeTierRead_keeps {z s1 : State} {lane : Nat} {count : Nat} {find : TierFind} (hz : Keeps z s1) : Keeps z (State.onPkeTierRead s1 lane count find) := by
  unfold State.onPkeTierRead
  try dsimp only
  repeat' first
    | with_reducible assumption
    | with_reducible apply State.pageBad_keeps
    | with_reducible apply State.stage_keeps
    | with_reducible apply State.devCe_keeps
    | with_reducible apply State.portFail_keeps
    | split
    | (refine Keeps.foldl (fun _ _ _ => ?_) ?_)
    | (refine Keeps.of_mk ?_ rfl rfl rfl rfl rfl rfl rfl rfl rfl rfl rfl)

theorem State.writeDone_keeps {z s : State} {o : TierOp} (hz : Keeps z s) : Keeps z (s.writeDone o) := by
  unfold State.writeDone
  dsimp only
  split
  · exact State.endOp_keeps (State.endPend_keeps (State.install_keeps (State.writePages_keeps hz)))
  · rename_i n d _
    have k : Keeps z (if s.hasPages d then s.freeOpPages o else s.writePages o.extents 1 (d.hash.2.toNat % 2 ^ 22) o.buf) := by
      split
      · exact State.freeOpPages_keeps hz
      · exact State.writePages_keeps hz
    split
    · rename_i s1 h1
      exact State.endOp_keeps (State.endPendWith_keeps (State.publishDone_keeps h1 k))
    · exact State.endOp_keeps (State.endPend_keeps (State.freeOpPages_keeps k))
  · exact State.answer_keeps (State.setAdapter_keeps (State.endOp_keeps (State.writePages_keeps hz)))
  · exact hz

theorem State.writeBad_keeps {z s : State} {o : TierOp} (hz : Keeps z s) : Keeps z (State.writeBad s o) := by
  unfold State.writeBad
  try dsimp only
  repeat' first
    | with_reducible assumption
    | with_reducible apply State.trouble_keeps
    | with_reducible apply State.devUe_keeps
    | with_reducible apply State.cancelAll_keeps
    | with_reducible apply State.abandon_keeps
    | with_reducible apply State.setAdapter_keeps
    | split
    | (refine Keeps.foldl (fun _ _ _ => ?_) ?_)
    | (refine Keeps.of_mk ?_ rfl rfl rfl rfl rfl rfl rfl rfl rfl rfl rfl)

theorem State.onWinteringDone_keeps {z s1 : State} {lane : Nat} {find : TierFind} (hz : Keeps z s1) : Keeps z (State.onWinteringDone s1 lane find) := by
  unfold State.onWinteringDone
  try dsimp only
  repeat' first
    | with_reducible assumption
    | with_reducible apply State.drain_keeps
    | with_reducible apply State.writeDone_keeps
    | with_reducible apply State.writeBad_keeps
    | with_reducible apply State.portFail_keeps
    | split
    | (refine Keeps.foldl (fun _ _ _ => ?_) ?_)
    | (refine Keeps.of_mk ?_ rfl rfl rfl rfl rfl rfl rfl rfl rfl rfl rfl)

theorem State.onTierScrub_keeps {z s : State}  (hz : Keeps z s) : Keeps z (State.onTierScrub s) := by
  unfold State.onTierScrub
  try dsimp only
  repeat' first
    | with_reducible assumption
    | with_reducible apply State.runCmd_keeps
    | with_reducible apply State.answer_keeps
    | split
    | (refine Keeps.foldl (fun _ _ _ => ?_) ?_)
    | intro _
    | (refine Keeps.of_mk ?_ rfl rfl rfl rfl rfl rfl rfl rfl rfl rfl rfl)

theorem State.dirLost_keeps {z s : State} {k : Nat} (hz : Keeps z s) : Keeps z (State.dirLost s k) := by
  unfold State.dirLost
  try dsimp only
  repeat' first
    | with_reducible assumption
    | split
    | (refine Keeps.foldl (fun _ _ _ => ?_) ?_)
    | (refine Keeps.of_mk ?_ rfl rfl rfl rfl rfl rfl rfl rfl rfl rfl rfl)

theorem State.scrubBad_keeps {z s : State} {e : Nat} {page : Nat} (hz : Keeps z s) : Keeps z (State.scrubBad s e page) := by
  unfold State.scrubBad
  try dsimp only
  repeat' first
    | with_reducible assumption
    | with_reducible apply State.jobFault_keeps
    | with_reducible apply State.devUe_keeps
    | with_reducible apply State.dirLost_keeps
    | with_reducible apply State.trouble_keeps
    | with_reducible apply State.sendTo_keeps
    | with_reducible apply State.pageBad_keeps
    | split
    | (refine Keeps.foldl (fun _ _ _ => ?_) ?_)
    | (refine Keeps.of_mk ?_ rfl rfl rfl rfl rfl rfl rfl rfl rfl rfl rfl)

theorem State.scrubPage_keeps {z s : State} {ds : List Nat} {f : PageFind} (hz : Keeps z s) : Keeps z (State.scrubPage s ds f) := by
  unfold State.scrubPage
  try dsimp only
  repeat' first
    | with_reducible assumption
    | with_reducible apply State.devCe_keeps
    | with_reducible apply State.scrubBad_keeps
    | split
    | (refine Keeps.foldl (fun _ _ _ => ?_) ?_)
    | (refine Keeps.of_mk ?_ rfl rfl rfl rfl rfl rfl rfl rfl rfl rfl rfl)

theorem State.onTierScrubDone_keeps {z s1 : State} {finds : List PageFind} (hz : Keeps z s1) : Keeps z (State.onTierScrubDone s1 finds) := by
  unfold State.onTierScrubDone
  try dsimp only
  repeat' first
    | with_reducible assumption
    | with_reducible apply State.scrubPage_keeps
    | with_reducible apply State.reply_keeps
    | split
    | (refine Keeps.foldl (fun _ _ _ => ?_) ?_)
    | (refine Keeps.of_mk ?_ rfl rfl rfl rfl rfl rfl rfl rfl rfl rfl rfl)

theorem State.onTierStatus_keeps {z s : State}  (hz : Keeps z s) : Keeps z (State.onTierStatus s) := by
  unfold State.onTierStatus
  try dsimp only
  repeat' first
    | with_reducible assumption
    | with_reducible apply State.runCmd_keeps
    | with_reducible apply State.reply_keeps
    | split
    | (refine Keeps.foldl (fun _ _ _ => ?_) ?_)
    | intro _
    | (refine Keeps.of_mk ?_ rfl rfl rfl rfl rfl rfl rfl rfl rfl rfl rfl)

theorem State.onTierDeviceSelfref_keeps {z s1 : State} {device : Nat} (hz : Keeps z s1) : Keeps z (State.onTierDeviceSelfref s1 device) := by
  unfold State.onTierDeviceSelfref
  try dsimp only
  repeat' first
    | with_reducible assumption
    | with_reducible apply State.keepAwake_keeps
    | with_reducible apply State.setDev_keeps
    | split
    | (refine Keeps.foldl (fun _ _ _ => ?_) ?_)
    | (refine Keeps.of_mk ?_ rfl rfl rfl rfl rfl rfl rfl rfl rfl rfl rfl)

end Sys2Proof.Machine
end

