-- ==== Sys2Proof/Laws/KeepsImageCmd.lean ====
section
/-! SUPPORT. Loading an image: what each operation keeps, one lemma for each. -/
namespace Sys2Proof.Machine
set_option Elab.async false

theorem State.runLoad_keeps {z s : State} {phases : List Nat} {act : Issuer → List Word → State → State} (hz : Keeps z s) (hact : ∀ x0 x1 x2, Keeps z x2 → Keeps z (act x0 x1 x2)) : Keeps z (State.runLoad s phases act) := by
  unfold State.runLoad
  try dsimp only
  repeat' first
    | with_reducible assumption
    | with_reducible apply State.refuseUnknown_keeps
    | with_reducible apply State.runCmd_keeps
    | (refine hact _ _ _ ?_)
    | split
    | (refine Keeps.foldl (fun _ _ _ => ?_) ?_)
    | intro _
    | (refine Keeps.of_mk ?_ rfl rfl rfl rfl rfl rfl rfl rfl rfl rfl rfl)

theorem State.dropLoad_keeps {z s : State}  (hz : Keeps z s) : Keeps z (State.dropLoad s) := by
  unfold State.dropLoad
  try dsimp only
  repeat' first
    | with_reducible assumption
    | split
    | (refine Keeps.foldl (fun _ _ _ => ?_) ?_)
    | (refine Keeps.of_mk ?_ rfl rfl rfl rfl rfl rfl rfl rfl rfl rfl rfl)

theorem State.loadBegin_keeps {z s : State} {i : Issuer} {ps : List Word} (hz : Keeps z s) : Keeps z (State.loadBegin s i ps) := by
  unfold State.loadBegin
  try dsimp only
  repeat' first
    | with_reducible assumption
    | with_reducible apply State.answer_keeps
    | with_reducible apply State.dropLoad_keeps
    | split
    | (refine Keeps.foldl (fun _ _ _ => ?_) ?_)
    | (refine Keeps.of_mk ?_ rfl rfl rfl rfl rfl rfl rfl rfl rfl rfl rfl)

theorem State.onImageLoadBegin_keeps {z s : State}  (hz : Keeps z s) : Keeps z (State.onImageLoadBegin s) := by
  unfold State.onImageLoadBegin
  try dsimp only
  repeat' first
    | with_reducible assumption
    | with_reducible apply State.runLoad_keeps
    | with_reducible apply State.loadBegin_keeps
    | split
    | (refine Keeps.foldl (fun _ _ _ => ?_) ?_)
    | intro _
    | (refine Keeps.of_mk ?_ rfl rfl rfl rfl rfl rfl rfl rfl rfl rfl rfl)

theorem State.loadConflict_keeps {z s : State} {d : Handle} {h : Nat} {o : Nat} (hz : Keeps z s) : Keeps z (State.loadConflict s d h o) := by
  unfold State.loadConflict
  try dsimp only
  repeat' first
    | with_reducible assumption
    | with_reducible apply State.trouble_keeps
    | with_reducible apply State.raise_keeps
    | split
    | (refine Keeps.foldl (fun _ _ _ => ?_) ?_)
    | (refine Keeps.of_mk ?_ rfl rfl rfl rfl rfl rfl rfl rfl rfl rfl rfl)

theorem State.putRows_keeps {z s : State} {row n : Nat} {ws : List Word} (hz : Keeps z s) : Keeps z (s.putRows row n ws) :=
  hz.of_imp rfl rfl Memory.putWords_wf id id id id id id id id id id id id id id id id id id

theorem State.loadData_keeps {z s : State} {i : Issuer} {ps : List Word} (hz : Keeps z s) : Keeps z (State.loadData s i ps) := by
  unfold State.loadData
  try dsimp only
  repeat' first
    | with_reducible assumption
    | with_reducible apply State.answer_keeps
    | with_reducible apply State.dropLoad_keeps
    | with_reducible apply State.loadConflict_keeps
    | with_reducible apply State.putRows_keeps
    | split
    | (refine Keeps.foldl (fun _ _ _ => ?_) ?_)
    | (refine Keeps.of_mk ?_ rfl rfl rfl rfl rfl rfl rfl rfl rfl rfl rfl)

theorem State.onImageLoadData_keeps {z s : State}  (hz : Keeps z s) : Keeps z (State.onImageLoadData s) := by
  unfold State.onImageLoadData
  try dsimp only
  repeat' first
    | with_reducible assumption
    | with_reducible apply State.runLoad_keeps
    | with_reducible apply State.loadData_keeps
    | split
    | (refine Keeps.foldl (fun _ _ _ => ?_) ?_)
    | intro _
    | (refine Keeps.of_mk ?_ rfl rfl rfl rfl rfl rfl rfl rfl rfl rfl rfl)

theorem State.loadEnd_keeps {z s : State} {i : Issuer} {ps : List Word} (hz : Keeps z s) : Keeps z (State.loadEnd s i ps) := by
  unfold State.loadEnd
  try dsimp only
  repeat' first
    | with_reducible assumption
    | with_reducible apply State.answer_keeps
    | with_reducible apply State.dropLoad_keeps
    | with_reducible apply State.loadConflict_keeps
    | with_reducible apply State.putRows_keeps
    | split
    | (refine Keeps.foldl (fun _ _ _ => ?_) ?_)
    | (refine Keeps.of_mk ?_ rfl rfl rfl rfl rfl rfl rfl rfl rfl rfl rfl)

theorem State.onImageLoadEnd_keeps {z s : State}  (hz : Keeps z s) : Keeps z (State.onImageLoadEnd s) := by
  unfold State.onImageLoadEnd
  try dsimp only
  repeat' first
    | with_reducible assumption
    | with_reducible apply State.runLoad_keeps
    | with_reducible apply State.loadEnd_keeps
    | split
    | (refine Keeps.foldl (fun _ _ _ => ?_) ?_)
    | intro _
    | (refine Keeps.of_mk ?_ rfl rfl rfl rfl rfl rfl rfl rfl rfl rfl rfl)

theorem State.onImageQuery_keeps {z s : State}  (hz : Keeps z s) : Keeps z (State.onImageQuery s) := by
  unfold State.onImageQuery
  try dsimp only
  repeat' first
    | with_reducible assumption
    | with_reducible apply State.runCmd_keeps
    | with_reducible apply State.reply_keeps
    | split
    | (refine Keeps.foldl (fun _ _ _ => ?_) ?_)
    | intro _
    | (refine Keeps.of_mk ?_ rfl rfl rfl rfl rfl rfl rfl rfl rfl rfl rfl)

end Sys2Proof.Machine
end

