-- ==== Sys2Proof/Laws/KeepsClocks.lean ====
section
/-! SUPPORT. Clocks and power: what each operation keeps, one lemma for each. -/
namespace Sys2Proof.Machine
set_option Elab.async false

theorem State.floorWatch_keeps {z s : State}  (hz : Keeps z s) : Keeps z (State.floorWatch s) := by
  unfold State.floorWatch
  try dsimp only
  repeat' first
    | with_reducible assumption
    | split
    | (refine Keeps.foldl (fun _ _ _ => ?_) ?_)
    | (refine Keeps.of_mk ?_ rfl rfl rfl rfl rfl rfl rfl rfl rfl rfl rfl)

theorem State.stepTo_keeps {z s : State} {mhz : Nat} (hz : Keeps z s) : Keeps z (State.stepTo s mhz) := by
  unfold State.stepTo
  try dsimp only
  repeat' first
    | with_reducible assumption
    | with_reducible apply State.floorWatch_keeps
    | split
    | (refine Keeps.foldl (fun _ _ _ => ?_) ?_)
    | (refine Keeps.of_mk ?_ rfl rfl rfl rfl rfl rfl rfl rfl rfl rfl rfl)

theorem State.clockStep_keeps {z s : State}  (hz : Keeps z s) : Keeps z (State.clockStep s) := by
  unfold State.clockStep
  try dsimp only
  repeat' first
    | with_reducible assumption
    | with_reducible apply State.stepTo_keeps
    | split
    | (refine Keeps.foldl (fun _ _ _ => ?_) ?_)
    | (refine Keeps.of_mk ?_ rfl rfl rfl rfl rfl rfl rfl rfl rfl rfl rfl)

theorem State.onGclkStep_keeps {z s1 : State}  (hz : Keeps z s1) : Keeps z (State.onGclkStep s1) := by
  unfold State.onGclkStep
  try dsimp only
  repeat' first
    | with_reducible assumption
    | with_reducible apply State.clockStep_keeps
    | split
    | (refine Keeps.foldl (fun _ _ _ => ?_) ?_)
    | (refine Keeps.of_mk ?_ rfl rfl rfl rfl rfl rfl rfl rfl rfl rfl rfl)

theorem State.onThrottleAssert_keeps {z s1 : State}  (hz : Keeps z s1) : Keeps z (State.onThrottleAssert s1) := by
  unfold State.onThrottleAssert
  try dsimp only
  repeat' first
    | with_reducible assumption
    | with_reducible apply State.floorWatch_keeps
    | split
    | (refine Keeps.foldl (fun _ _ _ => ?_) ?_)
    | (refine Keeps.of_mk ?_ rfl rfl rfl rfl rfl rfl rfl rfl rfl rfl rfl)

theorem State.onThrottleDeassert_keeps {z s1 : State}  (hz : Keeps z s1) : Keeps z (State.onThrottleDeassert s1) := by
  unfold State.onThrottleDeassert
  try dsimp only
  repeat' first
    | with_reducible assumption
    | with_reducible apply State.floorWatch_keeps
    | split
    | (refine Keeps.foldl (fun _ _ _ => ?_) ?_)
    | (refine Keeps.of_mk ?_ rfl rfl rfl rfl rfl rfl rfl rfl rfl rfl rfl)

theorem State.onThrottleFloorViolation_keeps {z s1 : State}  (hz : Keeps z s1) : Keeps z (State.onThrottleFloorViolation s1) := by
  unfold State.onThrottleFloorViolation
  try dsimp only
  repeat' first
    | with_reducible assumption
    | with_reducible apply State.jobFault_keeps
    | split
    | (refine Keeps.foldl (fun _ _ _ => ?_) ?_)
    | (refine Keeps.of_mk ?_ rfl rfl rfl rfl rfl rfl rfl rfl rfl rfl rfl)

theorem State.putRetainedAll_keeps {z s : State} {a : Nat} {ws : List Word} (hz : Keeps z s) : Keeps z (State.putRetainedAll s a ws) := by
  unfold State.putRetainedAll
  try dsimp only
  repeat' first
    | with_reducible assumption
    | with_reducible apply State.putRetained_keeps
    | split
    | (refine Keeps.foldl (fun _ _ _ => ?_) ?_)
    | (refine Keeps.of_mk ?_ rfl rfl rfl rfl rfl rfl rfl rfl rfl rfl rfl)

theorem State.putRecord_keeps {z s : State} {ws : List Word} (hz : Keeps z s) : Keeps z (State.putRecord s ws) := by
  unfold State.putRecord
  try dsimp only
  repeat' first
    | with_reducible assumption
    | with_reducible apply State.putRetainedAll_keeps
    | with_reducible apply State.putRetained_keeps
    | split
    | (refine Keeps.foldl (fun _ _ _ => ?_) ?_)
    | (refine Keeps.of_mk ?_ rfl rfl rfl rfl rfl rfl rfl rfl rfl rfl rfl)

theorem State.measure_keeps {z s : State} {cause : Nat} {codes : List Nat} {spine : Nat} {second : Bool} (hz : Keeps z s) : Keeps z (State.measure s cause codes spine second) := by
  unfold State.measure
  try dsimp only
  repeat' first
    | with_reducible assumption
    | with_reducible apply State.putRecord_keeps
    | with_reducible apply State.floorWatch_keeps
    | with_reducible apply State.ageMargin_keeps
    | split
    | (refine Keeps.foldl (fun _ _ _ => ?_) ?_)
    | (refine Keeps.of_mk ?_ rfl rfl rfl rfl rfl rfl rfl rfl rfl rfl rfl)

theorem State.leaveSleep_keeps {z s : State}  (hz : Keeps z s) : Keeps z (State.leaveSleep s) := by
  unfold State.leaveSleep
  try dsimp only
  repeat' first
    | with_reducible assumption
    | with_reducible apply State.floorWatch_keeps
    | split
    | (refine Keeps.foldl (fun _ _ _ => ?_) ?_)
    | (refine Keeps.of_mk ?_ rfl rfl rfl rfl rfl rfl rfl rfl rfl rfl rfl)

theorem State.onAgeingMeasurement_keeps {z s1 : State} {codes : List Nat} {spine : Nat} (hz : Keeps z s1) : Keeps z (State.onAgeingMeasurement s1 codes spine) := by
  unfold State.onAgeingMeasurement
  try dsimp only
  repeat' first
    | with_reducible assumption
    | with_reducible apply State.measure_keeps
    | with_reducible apply State.leaveSleep_keeps
    | split
    | (refine Keeps.foldl (fun _ _ _ => ?_) ?_)
    | (refine Keeps.of_mk ?_ rfl rfl rfl rfl rfl rfl rfl rfl rfl rfl rfl)

theorem State.onPwrSettleDone_keeps {z s1 : State} {codes : List Nat} {spine : Nat} (hz : Keeps z s1) : Keeps z (State.onPwrSettleDone s1 codes spine) := by
  unfold State.onPwrSettleDone
  try dsimp only
  repeat' first
    | with_reducible assumption
    | with_reducible apply State.stepTo_keeps
    | with_reducible apply State.measure_keeps
    | split
    | (refine Keeps.foldl (fun _ _ _ => ?_) ?_)
    | (refine Keeps.of_mk ?_ rfl rfl rfl rfl rfl rfl rfl rfl rfl rfl rfl)

theorem State.onSleepEntry_keeps {z s1 : State}  (hz : Keeps z s1) : Keeps z (State.onSleepEntry s1) := by
  unfold State.onSleepEntry
  try dsimp only
  repeat' first
    | with_reducible assumption
    | split
    | (refine Keeps.foldl (fun _ _ _ => ?_) ?_)
    | (refine Keeps.of_mk ?_ rfl rfl rfl rfl rfl rfl rfl rfl rfl rfl rfl)

theorem State.onSleepExit_keeps {z s1 : State} {cause : WakeCause} (hz : Keeps z s1) : Keeps z (State.onSleepExit s1 cause) := by
  unfold State.onSleepExit
  try dsimp only
  repeat' first
    | with_reducible assumption
    | with_reducible apply State.leaveSleep_keeps
    | split
    | (refine Keeps.foldl (fun _ _ _ => ?_) ?_)
    | (refine Keeps.of_mk ?_ rfl rfl rfl rfl rfl rfl rfl rfl rfl rfl rfl)

end Sys2Proof.Machine
end

