-- ==== Sys2Proof/Laws/KeepsCommit.lean ====
section
/-! SUPPORT. Mode commits: what each operation keeps, one lemma for each. -/
namespace Sys2Proof.Machine
set_option Elab.async false

theorem State.stageChange_keeps {z s : State} {t : Staged} (hz : Keeps z s) : Keeps z (State.stageChange s t) := by
  unfold State.stageChange
  try dsimp only
  repeat' first
    | with_reducible assumption
    | with_reducible apply State.raiseAll_keeps
    | split
    | (refine Keeps.foldl (fun _ _ _ => ?_) ?_)
    | (refine Keeps.of_mk ?_ rfl rfl rfl rfl rfl rfl rfl rfl rfl rfl rfl)

theorem State.countAbort_keeps {z s : State}  (hz : Keeps z s) : Keeps z (State.countAbort s) := by
  unfold State.countAbort
  try dsimp only
  repeat' first
    | with_reducible assumption
    | with_reducible apply State.raiseAll_keeps
    | split
    | (refine Keeps.foldl (fun _ _ _ => ?_) ?_)
    | (refine Keeps.of_mk ?_ rfl rfl rfl rfl rfl rfl rfl rfl rfl rfl rfl)

theorem State.unstage_keeps {z s : State} {k : Kind} (hz : Keeps z s) : Keeps z (State.unstage s k) := by
  unfold State.unstage
  try dsimp only
  repeat' first
    | with_reducible assumption
    | with_reducible apply State.countAbort_keeps
    | split
    | (refine Keeps.foldl (fun _ _ _ => ?_) ?_)
    | (refine Keeps.of_mk ?_ rfl rfl rfl rfl rfl rfl rfl rfl rfl rfl rfl)

theorem State.answerAll_keeps {z s : State} {is : List Issuer} {st : Status} (hz : Keeps z s) : Keeps z (State.answerAll s is st) := by
  unfold State.answerAll
  try dsimp only
  repeat' first
    | with_reducible assumption
    | with_reducible apply State.answer_keeps
    | split
    | (refine Keeps.foldl (fun _ _ _ => ?_) ?_)
    | (refine Keeps.of_mk ?_ rfl rfl rfl rfl rfl rfl rfl rfl rfl rfl rfl)

theorem State.abortCommit_keeps {z s : State} {st : Status} (hz : Keeps z s) : Keeps z (State.abortCommit s st) := by
  unfold State.abortCommit
  try dsimp only
  repeat' first
    | with_reducible assumption
    | with_reducible apply State.unstage_keeps
    | with_reducible apply State.bcast_keeps
    | with_reducible apply State.answerAll_keeps
    | split
    | (refine Keeps.foldl (fun _ _ _ => ?_) ?_)
    | (refine Keeps.of_mk ?_ rfl rfl rfl rfl rfl rfl rfl rfl rfl rfl rfl)

theorem State.prepareDone_keeps {z s : State}  (hz : Keeps z s) : Keeps z (State.prepareDone s) := by
  unfold State.prepareDone
  try dsimp only
  repeat' first
    | with_reducible assumption
    | with_reducible apply State.answerAll_keeps
    | split
    | (refine Keeps.foldl (fun _ _ _ => ?_) ?_)
    | (refine Keeps.of_mk ?_ rfl rfl rfl rfl rfl rfl rfl rfl rfl rfl rfl)

theorem State.startCommit_keeps {z s : State} {t : Staged} {replies : List Issuer} {prepare : Option Issuer} {pin : Option Nat} (hz : Keeps z s) : Keeps z (State.startCommit s t replies prepare pin) := by
  unfold State.startCommit
  try dsimp only
  repeat' first
    | with_reducible assumption
    | with_reducible apply State.bcast_keeps
    | with_reducible apply State.prepareDone_keeps
    | with_reducible apply State.stageChange_keeps
    | with_reducible apply State.abortCommit_keeps
    | split
    | (refine Keeps.foldl (fun _ _ _ => ?_) ?_)
    | (refine Keeps.of_mk ?_ rfl rfl rfl rfl rfl rfl rfl rfl rfl rfl rfl)

theorem State.imageCommit_keeps {z s : State} {i : Issuer} {ps : List Word} {now : Nat} (hz : Keeps z s) : Keeps z (State.imageCommit s i ps now) := by
  unfold State.imageCommit
  try dsimp only
  repeat' first
    | with_reducible assumption
    | with_reducible apply State.answer_keeps
    | with_reducible apply State.startCommit_keeps
    | split
    | (refine Keeps.foldl (fun _ _ _ => ?_) ?_)
    | (refine Keeps.of_mk ?_ rfl rfl rfl rfl rfl rfl rfl rfl rfl rfl rfl)

theorem State.modePrepare_keeps {z s : State} {i : Issuer} {ps : List Word} {now : Nat} (hz : Keeps z s) : Keeps z (State.modePrepare s i ps now) := by
  unfold State.modePrepare
  try dsimp only
  repeat' first
    | with_reducible assumption
    | with_reducible apply State.answer_keeps
    | with_reducible apply State.startCommit_keeps
    | split
    | (refine Keeps.foldl (fun _ _ _ => ?_) ?_)
    | (refine Keeps.of_mk ?_ rfl rfl rfl rfl rfl rfl rfl rfl rfl rfl rfl)

theorem State.modeCommit_keeps {z s : State} {i : Issuer} {ps : List Word} {now : Nat} (hz : Keeps z s) : Keeps z (State.modeCommit s i ps now) := by
  unfold State.modeCommit
  try dsimp only
  repeat' first
    | with_reducible assumption
    | with_reducible apply State.answer_keeps
    | split
    | (refine Keeps.foldl (fun _ _ _ => ?_) ?_)
    | (refine Keeps.of_mk ?_ rfl rfl rfl rfl rfl rfl rfl rfl rfl rfl rfl)

theorem State.modeAbort_keeps {z s : State} {i : Issuer} {ps : List Word} {now : Nat} (hz : Keeps z s) : Keeps z (State.modeAbort s i ps now) := by
  unfold State.modeAbort
  try dsimp only
  repeat' first
    | with_reducible assumption
    | with_reducible apply State.answer_keeps
    | with_reducible apply State.abortCommit_keeps
    | split
    | (refine Keeps.foldl (fun _ _ _ => ?_) ?_)
    | (refine Keeps.of_mk ?_ rfl rfl rfl rfl rfl rfl rfl rfl rfl rfl rfl)

theorem State.pinDone_keeps {z s : State} {i : Issuer} (hz : Keeps z s) : Keeps z (State.pinDone s i) := by
  unfold State.pinDone
  try dsimp only
  repeat' first
    | with_reducible assumption
    | with_reducible apply State.answer_keeps
    | with_reducible apply State.raiseAll_keeps
    | split
    | (refine Keeps.foldl (fun _ _ _ => ?_) ?_)
    | (refine Keeps.of_mk ?_ rfl rfl rfl rfl rfl rfl rfl rfl rfl rfl rfl)

theorem State.schedulePin_keeps {z s : State} {i : Issuer} {ps : List Word} {now : Nat} (hz : Keeps z s) : Keeps z (State.schedulePin s i ps now) := by
  unfold State.schedulePin
  try dsimp only
  repeat' first
    | with_reducible assumption
    | with_reducible apply State.answer_keeps
    | with_reducible apply State.pinDone_keeps
    | with_reducible apply State.startCommit_keeps
    | split
    | (refine Keeps.foldl (fun _ _ _ => ?_) ?_)
    | (refine Keeps.of_mk ?_ rfl rfl rfl rfl rfl rfl rfl rfl rfl rfl rfl)

theorem State.toCoord_keeps {z s : State} {i : Issuer} {ps : List Word} {act : State → Nat → State} (hz : Keeps z s) (hact : ∀ x0 x1, Keeps z x0 → Keeps z (act x0 x1)) : Keeps z (State.toCoord s i ps act) := by
  unfold State.toCoord
  try dsimp only
  repeat' first
    | with_reducible assumption
    | with_reducible apply State.answer_keeps
    | with_reducible apply State.forward_keeps
    | (refine hact _ _ ?_)
    | split
    | (refine Keeps.foldl (fun _ _ _ => ?_) ?_)
    | (refine Keeps.of_mk ?_ rfl rfl rfl rfl rfl rfl rfl rfl rfl rfl rfl)

theorem State.onImageCommit_keeps {z s : State}  (hz : Keeps z s) : Keeps z (State.onImageCommit s) := by
  unfold State.onImageCommit
  try dsimp only
  repeat' first
    | with_reducible assumption
    | with_reducible apply State.runCmd_keeps
    | with_reducible apply State.toCoord_keeps
    | with_reducible apply State.imageCommit_keeps
    | split
    | (refine Keeps.foldl (fun _ _ _ => ?_) ?_)
    | intro _
    | (refine Keeps.of_mk ?_ rfl rfl rfl rfl rfl rfl rfl rfl rfl rfl rfl)

theorem State.onModePrepare_keeps {z s : State}  (hz : Keeps z s) : Keeps z (State.onModePrepare s) := by
  unfold State.onModePrepare
  try dsimp only
  repeat' first
    | with_reducible assumption
    | with_reducible apply State.runCmd_keeps
    | with_reducible apply State.toCoord_keeps
    | with_reducible apply State.modePrepare_keeps
    | split
    | (refine Keeps.foldl (fun _ _ _ => ?_) ?_)
    | intro _
    | (refine Keeps.of_mk ?_ rfl rfl rfl rfl rfl rfl rfl rfl rfl rfl rfl)

theorem State.onModeCommit_keeps {z s : State}  (hz : Keeps z s) : Keeps z (State.onModeCommit s) := by
  unfold State.onModeCommit
  try dsimp only
  repeat' first
    | with_reducible assumption
    | with_reducible apply State.runCmd_keeps
    | with_reducible apply State.toCoord_keeps
    | with_reducible apply State.modeCommit_keeps
    | split
    | (refine Keeps.foldl (fun _ _ _ => ?_) ?_)
    | intro _
    | (refine Keeps.of_mk ?_ rfl rfl rfl rfl rfl rfl rfl rfl rfl rfl rfl)

theorem State.onModeAbort_keeps {z s : State}  (hz : Keeps z s) : Keeps z (State.onModeAbort s) := by
  unfold State.onModeAbort
  try dsimp only
  repeat' first
    | with_reducible assumption
    | with_reducible apply State.runCmd_keeps
    | with_reducible apply State.toCoord_keeps
    | with_reducible apply State.modeAbort_keeps
    | split
    | (refine Keeps.foldl (fun _ _ _ => ?_) ?_)
    | intro _
    | (refine Keeps.of_mk ?_ rfl rfl rfl rfl rfl rfl rfl rfl rfl rfl rfl)

theorem State.onSchedulePin_keeps {z s : State}  (hz : Keeps z s) : Keeps z (State.onSchedulePin s) := by
  unfold State.onSchedulePin
  try dsimp only
  repeat' first
    | with_reducible assumption
    | with_reducible apply State.runCmd_keeps
    | with_reducible apply State.toCoord_keeps
    | with_reducible apply State.schedulePin_keeps
    | split
    | (refine Keeps.foldl (fun _ _ _ => ?_) ?_)
    | intro _
    | (refine Keeps.of_mk ?_ rfl rfl rfl rfl rfl rfl rfl rfl rfl rfl rfl)

theorem State.goDecision_keeps {z s : State} {k : Nat} (hz : Keeps z s) : Keeps z (State.goDecision s k) := by
  unfold State.goDecision
  try dsimp only
  repeat' first
    | with_reducible assumption
    | with_reducible apply State.abortCommit_keeps
    | split
    | (refine Keeps.foldl (fun _ _ _ => ?_) ?_)
    | (refine Keeps.of_mk ?_ rfl rfl rfl rfl rfl rfl rfl rfl rfl rfl rfl)

theorem State.sendGo_keeps {z s : State}  (hz : Keeps z s) : Keeps z (State.sendGo s) := by
  unfold State.sendGo
  try dsimp only
  repeat' first
    | with_reducible assumption
    | with_reducible apply State.bcast_keeps
    | split
    | (refine Keeps.foldl (fun _ _ _ => ?_) ?_)
    | (refine Keeps.of_mk ?_ rfl rfl rfl rfl rfl rfl rfl rfl rfl rfl rfl)

theorem State.onCommitGoDecision_keeps {z s1 : State}  (hz : Keeps z s1) : Keeps z (State.onCommitGoDecision s1) := by
  unfold State.onCommitGoDecision
  try dsimp only
  repeat' first
    | with_reducible assumption
    | with_reducible apply State.sendGo_keeps
    | with_reducible apply State.goDecision_keeps
    | split
    | (refine Keeps.foldl (fun _ _ _ => ?_) ?_)
    | (refine Keeps.of_mk ?_ rfl rfl rfl rfl rfl rfl rfl rfl rfl rfl rfl)

theorem State.undecided_keeps {z s : State} {k : Nat} (hz : Keeps z s) : Keeps z (State.undecided s k) := by
  unfold State.undecided
  try dsimp only
  repeat' first
    | with_reducible assumption
    | with_reducible apply State.jobFault_keeps
    | split
    | (refine Keeps.foldl (fun _ _ _ => ?_) ?_)
    | (refine Keeps.of_mk ?_ rfl rfl rfl rfl rfl rfl rfl rfl rfl rfl rfl)

theorem State.onCommitUndecided_keeps {z s1 : State}  (hz : Keeps z s1) : Keeps z (State.onCommitUndecided s1) := by
  unfold State.onCommitUndecided
  try dsimp only
  repeat' first
    | with_reducible assumption
    | with_reducible apply State.undecided_keeps
    | split
    | (refine Keeps.foldl (fun _ _ _ => ?_) ?_)
    | (refine Keeps.of_mk ?_ rfl rfl rfl rfl rfl rfl rfl rfl rfl rfl rfl)

theorem State.abandonChanged_keeps {z s : State} {egress : Bool} {l : Nat} (hz : Keeps z s) : Keeps z (State.abandonChanged s egress l) := by
  unfold State.abandonChanged
  try dsimp only
  repeat' first
    | with_reducible assumption
    | with_reducible apply State.abandon_keeps
    | with_reducible apply State.slip_keeps
    | split
    | (refine Keeps.foldl (fun _ _ _ => ?_) ?_)
    | (refine Keeps.of_mk ?_ rfl rfl rfl rfl rfl rfl rfl rfl rfl rfl rfl)

theorem State.changeLane_keeps {z s : State} {egress : Bool} {l : Nat} {period : Nat} {k : Nat} (hz : Keeps z s) : Keeps z (State.changeLane s egress l period k) := by
  unfold State.changeLane
  try dsimp only
  repeat' first
    | with_reducible assumption
    | with_reducible apply State.drain_keeps
    | with_reducible apply State.abandonChanged_keeps
    | with_reducible apply State.setLane_keeps
    | split
    | (refine Keeps.foldl (fun _ _ _ => ?_) ?_)
    | (refine Keeps.of_mk ?_ rfl rfl rfl rfl rfl rfl rfl rfl rfl rfl rfl)

theorem State.applyPeriods_keeps {z s : State} {k : Nat} (hz : Keeps z s) : Keeps z (State.applyPeriods s k) := by
  unfold State.applyPeriods
  try dsimp only
  repeat' first
    | with_reducible assumption
    | with_reducible apply State.changeLane_keeps
    | split
    | (refine Keeps.foldl (fun _ _ _ => ?_) ?_)
    | (refine Keeps.of_mk ?_ rfl rfl rfl rfl rfl rfl rfl rfl rfl rfl rfl)

theorem State.sessionAtCommit_keeps {z s : State} {slot : Nat} (hz : Keeps z s) : Keeps z (State.sessionAtCommit s slot) := by
  unfold State.sessionAtCommit
  try dsimp only
  repeat' first
    | with_reducible assumption
    | with_reducible apply State.resolveStep_keeps
    | (with_reducible refine State.resolveStep_keeps_eq (by with_reducible assumption) ?_)
    | with_reducible apply State.endStreamTo_keeps
    | split
    | (refine Keeps.foldl (fun _ _ _ => ?_) ?_)
    | (refine Keeps.of_mk ?_ rfl rfl rfl rfl rfl rfl rfl rfl rfl rfl rfl)

theorem State.retire_keeps {z s : State}  (hz : Keeps z s) : Keeps z (State.retire s) := by
  unfold State.retire
  try dsimp only
  repeat' first
    | with_reducible assumption
    | split
    | (refine Keeps.foldl (fun _ _ _ => ?_) ?_)
    | (refine Keeps.of_mk ?_ rfl rfl rfl rfl rfl rfl rfl rfl rfl rfl rfl)

theorem State.onImageRetire_keeps {z s1 : State}  (hz : Keeps z s1) : Keeps z (State.onImageRetire s1) := by
  unfold State.onImageRetire
  try dsimp only
  repeat' first
    | with_reducible assumption
    | with_reducible apply State.retire_keeps
    | split
    | (refine Keeps.foldl (fun _ _ _ => ?_) ?_)
    | (refine Keeps.of_mk ?_ rfl rfl rfl rfl rfl rfl rfl rfl rfl rfl rfl)

theorem State.newDelay_keeps {z s : State} {i : Img} {slot : Nat} (hz : Keeps z s) : Keeps z (State.newDelay s i slot) := by
  unfold State.newDelay
  try dsimp only
  repeat' first
    | with_reducible assumption
    | with_reducible apply State.setEntry_keeps
    | split
    | (refine Keeps.foldl (fun _ _ _ => ?_) ?_)
    | (refine Keeps.of_mk ?_ rfl rfl rfl rfl rfl rfl rfl rfl rfl rfl rfl)

theorem State.firstCommit_keeps {z s : State} {slot : Nat} (hz : Keeps z s) : Keeps z (State.firstCommit s slot) := by
  unfold State.firstCommit
  try dsimp only
  repeat' first
    | with_reducible assumption
    | with_reducible apply State.setEntry_keeps
    | with_reducible apply State.setHome_keeps
    | with_reducible apply State.brokenRec_keeps
    | split
    | (refine Keeps.foldl (fun _ _ _ => ?_) ?_)
    | (refine Keeps.of_mk ?_ rfl rfl rfl rfl rfl rfl rfl rfl rfl rfl rfl)

theorem State.effectImage_keeps {z s : State} {k : Nat} (hz : Keeps z s) : Keeps z (State.effectImage s k) := by
  unfold State.effectImage
  try dsimp only
  repeat' first
    | with_reducible assumption
    | with_reducible apply State.sessionAtCommit_keeps
    | with_reducible apply State.firstCommit_keeps
    | with_reducible apply State.newDelay_keeps
    | split
    | (refine Keeps.foldl (fun _ _ _ => ?_) ?_)
    | (refine Keeps.of_mk ?_ rfl rfl rfl rfl rfl rfl rfl rfl rfl rfl rfl)

theorem State.effectVariant_keeps {z s : State} {v : Nat} (hz : Keeps z s) : Keeps z (State.effectVariant s v) := by
  unfold State.effectVariant
  try dsimp only
  repeat' first
    | with_reducible assumption
    | with_reducible apply State.wakeReq_keeps
    | with_reducible apply State.raiseAll_keeps
    | split
    | (refine Keeps.foldl (fun _ _ _ => ?_) ?_)
    | (refine Keeps.of_mk ?_ rfl rfl rfl rfl rfl rfl rfl rfl rfl rfl rfl)

theorem State.takeEffect_keeps {z s : State} {k : Nat} (hz : Keeps z s) : Keeps z (s.takeEffect k) := by
  unfold State.takeEffect
  split
  · exact hz
  · rename_i t _
    split
    · extract_lets s1 co _ s2 s3
      have h1 : Keeps z s1 := by
        unfold s1
        split
        · exact State.effectImage_keeps hz
        · exact State.effectVariant_keeps hz
        · exact Keeps.of_mk hz rfl rfl rfl rfl rfl rfl rfl rfl rfl rfl rfl
      clear_value s1
      have h2 : Keeps z s2 := Keeps.of_mk h1 rfl rfl rfl rfl rfl rfl rfl rfl rfl rfl rfl
      clear_value s2
      have h3 : Keeps z s3 := State.answerAll_keeps (State.floorWatch_keeps (State.applyPeriods_keeps h2))
      clear_value s3
      split
      · exact State.raiseAll_keeps h3
      · exact h3
    · exact hz

end Sys2Proof.Machine
end

