-- ==== Sys2Proof/Laws/KeepsTimeUnit.lean ====
section
/-! SUPPORT. The time unit: what each operation keeps, one lemma for each. -/
namespace Sys2Proof.Machine
set_option Elab.async false

theorem State.unlock_keeps {z s : State}  (hz : Keeps z s) : Keeps z (State.unlock s) := by
  unfold State.unlock
  try dsimp only
  repeat' first
    | with_reducible assumption
    | with_reducible apply State.trouble_keeps
    | split
    | (refine Keeps.foldl (fun _ _ _ => ?_) ?_)
    | (refine Keeps.of_mk ?_ rfl rfl rfl rfl rfl rfl rfl rfl rfl rfl rfl)

theorem State.lockCommand_keeps {z s : State}  (hz : Keeps z s) : Keeps z (State.lockCommand s) := by
  unfold State.lockCommand
  try dsimp only
  repeat' first
    | with_reducible assumption
    | split
    | (refine Keeps.foldl (fun _ _ _ => ?_) ?_)
    | (refine Keeps.of_mk ?_ rfl rfl rfl rfl rfl rfl rfl rfl rfl rfl rfl)

theorem State.stepTime_keeps {z s : State} {d : Int} (hz : Keeps z s) : Keeps z (s.stepTime d) := by
  unfold State.stepTime
  refine State.lockCommand_keeps (State.unlock_keeps ?_)
  exact hz.of_imp rfl rfl id id id id id id id id id id
    (fun _ => by
      have h1 := Int.emod_lt_of_pos ((s.tm.t48 : Int) + d) (by decide : (0 : Int) < 2 ^ 112)
      show (((s.tm.t48 : Int) + d) % (2 ^ 112 : Int)).toNat < 2 ^ 112
      omega) id id id id id id id id

theorem State.setTime_keeps {z s : State} {ns : Word} {frac : Nat} (hz : Keeps z s) : Keeps z (s.setTime ns frac) := by
  unfold State.setTime
  refine State.lockCommand_keeps ?_
  exact (State.stepTime_keeps hz).of_imp rfl rfl id id id id id id id id id id id (fun _ => (by decide : (0 : Nat) < 160)) id id id id id id id

theorem State.onTimeSet_keeps {z s : State}  (hz : Keeps z s) : Keeps z (State.onTimeSet s) := by
  unfold State.onTimeSet
  try dsimp only
  repeat' first
    | with_reducible assumption
    | with_reducible apply State.runCmd_keeps
    | with_reducible apply State.answer_keeps
    | with_reducible apply State.setTime_keeps
    | split
    | (refine Keeps.foldl (fun _ _ _ => ?_) ?_)
    | intro _
    | (refine Keeps.of_mk ?_ rfl rfl rfl rfl rfl rfl rfl rfl rfl rfl rfl)

theorem State.adjustOffset_keeps {z s : State} {off : Int} (hz : Keeps z s) : Keeps z (State.adjustOffset s off) := by
  unfold State.adjustOffset
  try dsimp only
  repeat' first
    | with_reducible assumption
    | with_reducible apply State.stepTime_keeps
    | split
    | (refine Keeps.foldl (fun _ _ _ => ?_) ?_)
    | (refine Keeps.of_mk ?_ rfl rfl rfl rfl rfl rfl rfl rfl rfl rfl rfl)

theorem State.adjustTime_keeps {z s : State} {i : Issuer} {ps : List Word} (hz : Keeps z s) : Keeps z (State.adjustTime s i ps) := by
  unfold State.adjustTime
  try dsimp only
  repeat' first
    | with_reducible assumption
    | with_reducible apply State.answer_keeps
    | with_reducible apply State.adjustOffset_keeps
    | split
    | (refine Keeps.foldl (fun _ _ _ => ?_) ?_)
    | (refine Keeps.of_mk ?_ rfl rfl rfl rfl rfl rfl rfl rfl rfl rfl rfl)

theorem State.onTimeAdjust_keeps {z s : State}  (hz : Keeps z s) : Keeps z (State.onTimeAdjust s) := by
  unfold State.onTimeAdjust
  try dsimp only
  repeat' first
    | with_reducible assumption
    | with_reducible apply State.runCmd_keeps
    | with_reducible apply State.adjustTime_keeps
    | split
    | (refine Keeps.foldl (fun _ _ _ => ?_) ?_)
    | intro _
    | (refine Keeps.of_mk ?_ rfl rfl rfl rfl rfl rfl rfl rfl rfl rfl rfl)

theorem State.onTimeQuery_keeps {z s : State}  (hz : Keeps z s) : Keeps z (State.onTimeQuery s) := by
  unfold State.onTimeQuery
  try dsimp only
  repeat' first
    | with_reducible assumption
    | with_reducible apply State.runCmd_keeps
    | with_reducible apply State.reply_keeps
    | split
    | (refine Keeps.foldl (fun _ _ _ => ?_) ?_)
    | intro _
    | (refine Keeps.of_mk ?_ rfl rfl rfl rfl rfl rfl rfl rfl rfl rfl rfl)

theorem State.tune_keeps {z s : State} {e : Int} {g : Nat} (hz : Keeps z s) : Keeps z (State.tune s e g) := by
  unfold State.tune
  try dsimp only
  repeat' first
    | with_reducible assumption
    | split
    | (refine Keeps.foldl (fun _ _ _ => ?_) ?_)
    | (refine Keeps.of_mk ?_ rfl rfl rfl rfl rfl rfl rfl rfl rfl rfl rfl)

theorem State.judgeLock_keeps {z s : State} {e : Int} (hz : Keeps z s) : Keeps z (State.judgeLock s e) := by
  unfold State.judgeLock
  try dsimp only
  repeat' first
    | with_reducible assumption
    | with_reducible apply State.unlock_keeps
    | split
    | (refine Keeps.foldl (fun _ _ _ => ?_) ?_)
    | (refine Keeps.of_mk ?_ rfl rfl rfl rfl rfl rfl rfl rfl rfl rfl rfl)

theorem State.measured_keeps {z s : State}  (hz : Keeps z s) : Keeps z (State.measured s) := by
  unfold State.measured
  try dsimp only
  repeat' first
    | with_reducible assumption
    | split
    | (refine Keeps.foldl (fun _ _ _ => ?_) ?_)
    | (refine Keeps.of_mk ?_ rfl rfl rfl rfl rfl rfl rfl rfl rfl rfl rfl)

theorem State.servo_keeps {z s : State} {e : Int} {g : Nat} {edges : Nat} (hz : Keeps z s) : Keeps z (State.servo s e g edges) := by
  unfold State.servo
  try dsimp only
  repeat' first
    | with_reducible assumption
    | with_reducible apply State.measured_keeps
    | with_reducible apply State.stepTime_keeps
    | with_reducible apply State.tune_keeps
    | with_reducible apply State.judgeLock_keeps
    | split
    | (refine Keeps.foldl (fun _ _ _ => ?_) ?_)
    | (refine Keeps.of_mk ?_ rfl rfl rfl rfl rfl rfl rfl rfl rfl rfl rfl)

theorem State.servoTref_keeps {z s : State} {e : Int} (hz : Keeps z s) : Keeps z (State.servoTref s e) := by
  unfold State.servoTref
  try dsimp only
  repeat' first
    | with_reducible assumption
    | with_reducible apply State.judgeLock_keeps
    | with_reducible apply State.tune_keeps
    | with_reducible apply State.measured_keeps
    | split
    | (refine Keeps.foldl (fun _ _ _ => ?_) ?_)
    | (refine Keeps.of_mk ?_ rfl rfl rfl rfl rfl rfl rfl rfl rfl rfl rfl)

theorem State.setBy_keeps {z s : State}  (hz : Keeps z s) : Keeps z (State.setBy s) := by
  unfold State.setBy
  try dsimp only
  repeat' first
    | with_reducible assumption
    | split
    | (refine Keeps.foldl (fun _ _ _ => ?_) ?_)
    | (refine Keeps.of_mk ?_ rfl rfl rfl rfl rfl rfl rfl rfl rfl rfl rfl)

theorem State.onPpsEdge_keeps {z s : State}  (hz : Keeps z s) : Keeps z (State.onPpsEdge s) := by
  unfold State.onPpsEdge
  try dsimp only
  repeat' first
    | with_reducible assumption
    | split
    | (refine Keeps.foldl (fun _ _ _ => ?_) ?_)
    | (refine Keeps.of_mk ?_ rfl rfl rfl rfl rfl rfl rfl rfl rfl rfl rfl)

theorem State.measurePps_keeps {z s : State} {f : Nat} (hz : Keeps z s) : Keeps z (State.measurePps s f) := by
  unfold State.measurePps
  try dsimp only
  repeat' first
    | with_reducible assumption
    | with_reducible apply State.servo_keeps
    | with_reducible apply State.setBy_keeps
    | split
    | (refine Keeps.foldl (fun _ _ _ => ?_) ?_)
    | (refine Keeps.of_mk ?_ rfl rfl rfl rfl rfl rfl rfl rfl rfl rfl rfl)

theorem State.onTrefMeasurement_keeps {z s1 : State} {drift : Int} (hz : Keeps z s1) : Keeps z (State.onTrefMeasurement s1 drift) := by
  unfold State.onTrefMeasurement
  try dsimp only
  repeat' first
    | with_reducible assumption
    | with_reducible apply State.servoTref_keeps
    | split
    | (refine Keeps.foldl (fun _ _ _ => ?_) ?_)
    | (refine Keeps.of_mk ?_ rfl rfl rfl rfl rfl rfl rfl rfl rfl rfl rfl)

theorem State.onMeasurementLoss_keeps {z s1 : State}  (hz : Keeps z s1) : Keeps z (State.onMeasurementLoss s1) := by
  unfold State.onMeasurementLoss
  try dsimp only
  repeat' first
    | with_reducible assumption
    | with_reducible apply State.unlock_keeps
    | split
    | (refine Keeps.foldl (fun _ _ _ => ?_) ?_)
    | (refine Keeps.of_mk ?_ rfl rfl rfl rfl rfl rfl rfl rfl rfl rfl rfl)

theorem State.sampleTime_keeps {z s : State}  (hz : Keeps z s) : Keeps z (State.sampleTime s) := by
  unfold State.sampleTime
  try dsimp only
  repeat' first
    | with_reducible assumption
    | with_reducible apply State.unlock_keeps
    | with_reducible apply State.lockCommand_keeps
    | split
    | (refine Keeps.foldl (fun _ _ _ => ?_) ?_)
    | (refine Keeps.of_mk ?_ rfl rfl rfl rfl rfl rfl rfl rfl rfl rfl rfl)

theorem State.sendTime_keeps {z s : State} {k : Nat} (hz : Keeps z s) : Keeps z (State.sendTime s k) := by
  unfold State.sendTime
  try dsimp only
  repeat' first
    | with_reducible assumption
    | with_reducible apply State.queueOn_keeps
    | split
    | (refine Keeps.foldl (fun _ _ _ => ?_) ?_)
    | (refine Keeps.of_mk ?_ rfl rfl rfl rfl rfl rfl rfl rfl rfl rfl rfl)

theorem State.noteTime_keeps {z s : State} {k : Nat} {sender : Nat} {twin : Nat} {hold : Bool} (hz : Keeps z s) : Keeps z (State.noteTime s k sender twin hold) := by
  unfold State.noteTime
  try dsimp only
  repeat' first
    | with_reducible assumption
    | split
    | (refine Keeps.foldl (fun _ _ _ => ?_) ?_)
    | (refine Keeps.of_mk ?_ rfl rfl rfl rfl rfl rfl rfl rfl rfl rfl rfl)

theorem State.twoMasters_keeps {z s : State} {action : Nat} {sender : Nat} (hz : Keeps z s) : Keeps z (State.twoMasters s action sender) := by
  unfold State.twoMasters
  try dsimp only
  repeat' first
    | with_reducible assumption
    | with_reducible apply State.trouble_keeps
    | split
    | (refine Keeps.foldl (fun _ _ _ => ?_) ?_)
    | (refine Keeps.of_mk ?_ rfl rfl rfl rfl rfl rfl rfl rfl rfl rfl rfl)

theorem State.followTime_keeps {z s : State} {w1 : Word} {w2 : Word} {w3 : Word} (hz : Keeps z s) : Keeps z (State.followTime s w1 w2 w3) := by
  unfold State.followTime
  try dsimp only
  repeat' first
    | with_reducible assumption
    | with_reducible apply State.setBy_keeps
    | with_reducible apply State.stepTime_keeps
    | with_reducible apply State.measured_keeps
    | with_reducible apply State.servo_keeps
    | split
    | (refine Keeps.foldl (fun _ _ _ => ?_) ?_)
    | (refine Keeps.of_mk ?_ rfl rfl rfl rfl rfl rfl rfl rfl rfl rfl rfl)

theorem State.takeTime_keeps {z s : State} {ws : List Word} (hz : Keeps z s) : Keeps z (State.takeTime s ws) := by
  unfold State.takeTime
  try dsimp only
  repeat' first
    | with_reducible assumption
    | with_reducible apply State.twoMasters_keeps
    | with_reducible apply State.followTime_keeps
    | with_reducible apply State.noteTime_keeps
    | split
    | (refine Keeps.foldl (fun _ _ _ => ?_) ?_)
    | (refine Keeps.of_mk ?_ rfl rfl rfl rfl rfl rfl rfl rfl rfl rfl rfl)

theorem State.takeBalance_keeps {z s : State}  (hz : Keeps z s) : Keeps z (State.takeBalance s) := by
  unfold State.takeBalance
  try dsimp only
  repeat' first
    | with_reducible assumption
    | split
    | (refine Keeps.foldl (fun _ _ _ => ?_) ?_)
    | (refine Keeps.of_mk ?_ rfl rfl rfl rfl rfl rfl rfl rfl rfl rfl rfl)

theorem State.takeover_keeps {z s : State}  (hz : Keeps z s) : Keeps z (State.takeover s) := by
  unfold State.takeover
  try dsimp only
  repeat' first
    | with_reducible assumption
    | with_reducible apply State.takeBalance_keeps
    | split
    | (refine Keeps.foldl (fun _ _ _ => ?_) ?_)
    | (refine Keeps.of_mk ?_ rfl rfl rfl rfl rfl rfl rfl rfl rfl rfl rfl)

theorem State.onTwinTakeover_keeps {z s : State}  (hz : Keeps z s) : Keeps z (State.onTwinTakeover s) := by
  unfold State.onTwinTakeover
  try dsimp only
  repeat' first
    | with_reducible assumption
    | with_reducible apply State.takeover_keeps
    | split
    | (refine Keeps.foldl (fun _ _ _ => ?_) ?_)
    | (refine Keeps.of_mk ?_ rfl rfl rfl rfl rfl rfl rfl rfl rfl rfl rfl)

end Sys2Proof.Machine
end

