-- ==== Sys2Proof/Laws/KeepsRing.lean ====
section
/-! SUPPORT. The ring’s receiving side: what each operation keeps, one lemma for each. -/
namespace Sys2Proof.Machine
set_option Elab.async false

theorem State.ringDrop_keeps {z s : State} {b : Sticky} {link : Nat} {h : Word} (hz : Keeps z s) : Keeps z (State.ringDrop s b link h) := by
  unfold State.ringDrop
  try dsimp only
  repeat' first
    | with_reducible assumption
    | with_reducible apply State.trouble_keeps
    | split
    | (refine Keeps.foldl (fun _ _ _ => ?_) ?_)
    | (refine Keeps.of_mk ?_ rfl rfl rfl rfl rfl rfl rfl rfl rfl rfl rfl)

theorem State.notePassing_keeps {z s : State} {it : Item} {cls : Nat} (hz : Keeps z s) : Keeps z (State.notePassing s it cls) := by
  unfold State.notePassing
  try dsimp only
  repeat' first
    | with_reducible assumption
    | split
    | (refine Keeps.foldl (fun _ _ _ => ?_) ?_)
    | (refine Keeps.of_mk ?_ rfl rfl rfl rfl rfl rfl rfl rfl rfl rfl rfl)

theorem State.passMsg_keeps {z s : State} {rx : Nat} {link : Nat} {it : Item} (hz : Keeps z s) : Keeps z (State.passMsg s rx link it) := by
  unfold State.passMsg
  try dsimp only
  repeat' first
    | with_reducible assumption
    | with_reducible apply State.ringDrop_keeps
    | with_reducible apply State.queueOn_keeps
    | with_reducible apply State.notePassing_keeps
    | split
    | (refine Keeps.foldl (fun _ _ _ => ?_) ?_)
    | (refine Keeps.of_mk ?_ rfl rfl rfl rfl rfl rfl rfl rfl rfl rfl rfl)

theorem State.passAll_keeps {z s : State} {rx : Nat} {it : Item} (hz : Keeps z s) : Keeps z (State.passAll s rx it) := by
  unfold State.passAll
  try dsimp only
  repeat' first
    | with_reducible assumption
    | with_reducible apply State.passMsg_keeps
    | split
    | (refine Keeps.foldl (fun _ _ _ => ?_) ?_)
    | (refine Keeps.of_mk ?_ rfl rfl rfl rfl rfl rfl rfl rfl rfl rfl rfl)

theorem State.ringToken'_keeps {z s : State} {w : Word} {image : Nat} (hz : Keeps z s) : Keeps z (State.ringToken' s w image) := by
  unfold State.ringToken'
  try dsimp only
  repeat' first
    | with_reducible assumption
    | with_reducible apply State.setEntry_keeps
    | with_reducible apply State.homeToken_keeps
    | with_reducible apply State.writeOut_keeps
    | (with_reducible refine State.writeOut_keeps_eq (by with_reducible assumption) ?_)
    | with_reducible apply State.stateDrop_keeps
    | split
    | (refine Keeps.foldl (fun _ _ _ => ?_) ?_)
    | (refine Keeps.of_mk ?_ rfl rfl rfl rfl rfl rfl rfl rfl rfl rfl rfl)

theorem State.markHome_keeps {z s : State} {slot : Nat} (hz : Keeps z s) : Keeps z (State.markHome s slot) := by
  unfold State.markHome
  try dsimp only
  repeat' first
    | with_reducible assumption
    | with_reducible apply State.markOut_keeps
    | with_reducible apply State.setHome_keeps
    | split
    | (refine Keeps.foldl (fun _ _ _ => ?_) ?_)
    | (refine Keeps.of_mk ?_ rfl rfl rfl rfl rfl rfl rfl rfl rfl rfl rfl)

theorem State.ringDraft_keeps {z s : State} {w : Word} {image : Nat} (hz : Keeps z s) : Keeps z (State.ringDraft s w image) := by
  unfold State.ringDraft
  try dsimp only
  repeat' first
    | with_reducible assumption
    | with_reducible apply State.writeOut_keeps
    | (with_reducible refine State.writeOut_keeps_eq (by with_reducible assumption) ?_)
    | with_reducible apply State.markHome_keeps
    | with_reducible apply State.homeDraft_keeps
    | with_reducible apply State.setHome_keeps
    | with_reducible apply State.stateDrop_keeps
    | split
    | (refine Keeps.foldl (fun _ _ _ => ?_) ?_)
    | (refine Keeps.of_mk ?_ rfl rfl rfl rfl rfl rfl rfl rfl rfl rfl rfl)

theorem State.ringVerdict_keeps {z s : State} {w : Word} (hz : Keeps z s) : Keeps z (State.ringVerdict s w) := by
  unfold State.ringVerdict
  try dsimp only
  repeat' first
    | with_reducible assumption
    | with_reducible apply State.edgeVerdict_keeps
    | with_reducible apply State.stateDrop_keeps
    | split
    | (refine Keeps.foldl (fun _ _ _ => ?_) ?_)
    | (refine Keeps.of_mk ?_ rfl rfl rfl rfl rfl rfl rfl rfl rfl rfl rfl)

theorem State.takeItem_keeps {z s : State} {image : Nat} {w : Word} (hz : Keeps z s) : Keeps z (State.takeItem s image w) := by
  unfold State.takeItem
  try dsimp only
  repeat' first
    | with_reducible assumption
    | with_reducible apply State.wordDrop_keeps
    | with_reducible apply State.staleDrop_keeps
    | with_reducible apply State.ringToken'_keeps
    | with_reducible apply State.ringDraft_keeps
    | with_reducible apply State.ringVerdict_keeps
    | split
    | (refine Keeps.foldl (fun _ _ _ => ?_) ?_)
    | (refine Keeps.of_mk ?_ rfl rfl rfl rfl rfl rfl rfl rfl rfl rfl rfl)

theorem State.actItem_keeps {z s : State} {it : Item} (hz : Keeps z s) : Keeps z (State.actItem s it) := by
  unfold State.actItem
  try dsimp only
  repeat' first
    | with_reducible assumption
    | with_reducible apply State.takeItem_keeps
    | split
    | (refine Keeps.foldl (fun _ _ _ => ?_) ?_)
    | (refine Keeps.of_mk ?_ rfl rfl rfl rfl rfl rfl rfl rfl rfl rfl rfl)

theorem State.actOpen_keeps {z s0 : State} {it : Item} (hz : Keeps z s0) : Keeps z (State.actOpen s0 it) := by
  unfold State.actOpen
  try dsimp only
  repeat' first
    | with_reducible assumption
    | with_reducible apply State.recompute_keeps
    | with_reducible apply State.sendTo_keeps
    | with_reducible apply State.openHome_keeps
    | with_reducible apply State.allocate_keeps
    | split
    | (refine Keeps.foldl (fun _ _ _ => ?_) ?_)
    | (refine Keeps.of_mk ?_ rfl rfl rfl rfl rfl rfl rfl rfl rfl rfl rfl)

theorem State.actOpenReply_keeps {z s : State} {it : Item} (hz : Keeps z s) : Keeps z (State.actOpenReply s it) := by
  unfold State.actOpenReply
  try dsimp only
  repeat' first
    | with_reducible assumption
    | with_reducible apply State.endPendWith_keeps
    | with_reducible apply State.setEntry_keeps
    | with_reducible apply State.freeEntry_keeps
    | with_reducible apply State.endPend_keeps
    | with_reducible apply State.sendTo_keeps
    | split
    | (refine Keeps.foldl (fun _ _ _ => ?_) ?_)
    | (refine Keeps.of_mk ?_ rfl rfl rfl rfl rfl rfl rfl rfl rfl rfl rfl)

theorem State.actStep_keeps {z s : State} {it : Item} (hz : Keeps z s) : Keeps z (State.actStep s it) := by
  unfold State.actStep
  try dsimp only
  repeat' first
    | with_reducible assumption
    | with_reducible apply State.edgeStep_keeps
    | split
    | (refine Keeps.foldl (fun _ _ _ => ?_) ?_)
    | (refine Keeps.of_mk ?_ rfl rfl rfl rfl rfl rfl rfl rfl rfl rfl rfl)

theorem State.endHomeStep_keeps {z s : State} {slot : Nat} (hz : Keeps z s) : Keeps z (State.endHomeStep s slot) := by
  unfold State.endHomeStep
  try dsimp only
  repeat' first
    | with_reducible assumption
    | with_reducible apply State.endStepRing_keeps
    | with_reducible apply State.setHome_keeps
    | split
    | (refine Keeps.foldl (fun _ _ _ => ?_) ?_)
    | (refine Keeps.of_mk ?_ rfl rfl rfl rfl rfl rfl rfl rfl rfl rfl rfl)

theorem State.actResolve_keeps {z s : State} {it : Item} (hz : Keeps z s) : Keeps z (State.actResolve s it) := by
  unfold State.actResolve
  try dsimp only
  repeat' first
    | with_reducible assumption
    | with_reducible apply State.endHomeStep_keeps
    | with_reducible apply State.homeResolve_keeps
    | with_reducible apply State.setEntry_keeps
    | split
    | (refine Keeps.foldl (fun _ _ _ => ?_) ?_)
    | (refine Keeps.of_mk ?_ rfl rfl rfl rfl rfl rfl rfl rfl rfl rfl rfl)

theorem State.actStreamEnd_keeps {z s : State} {it : Item} (hz : Keeps z s) : Keeps z (State.actStreamEnd s it) := by
  unfold State.actStreamEnd
  try dsimp only
  repeat' first
    | with_reducible assumption
    | with_reducible apply State.homeStreamEnd_keeps
    | split
    | (refine Keeps.foldl (fun _ _ _ => ?_) ?_)
    | (refine Keeps.of_mk ?_ rfl rfl rfl rfl rfl rfl rfl rfl rfl rfl rfl)

theorem State.actClose_keeps {z s : State} {it : Item} (hz : Keeps z s) : Keeps z (State.actClose s it) := by
  unfold State.actClose
  try dsimp only
  repeat' first
    | with_reducible assumption
    | with_reducible apply State.dropOps_keeps
    | with_reducible apply State.endPend_keeps
    | with_reducible apply State.freeCopy_keeps
    | with_reducible apply State.edgeClose_keeps
    | with_reducible apply State.setEntry_keeps
    | with_reducible apply State.freeEntry_keeps
    | split
    | (refine Keeps.foldl (fun _ _ _ => ?_) ?_)
    | (refine Keeps.of_mk ?_ rfl rfl rfl rfl rfl rfl rfl rfl rfl rfl rfl)

theorem State.actCancel_keeps {z s : State} {it : Item} (hz : Keeps z s) : Keeps z (State.actCancel s it) := by
  unfold State.actCancel
  try dsimp only
  repeat' first
    | with_reducible assumption
    | with_reducible apply State.cancelAll_keeps
    | with_reducible apply State.cancelLocal_keeps
    | split
    | (refine Keeps.foldl (fun _ _ _ => ?_) ?_)
    | (refine Keeps.of_mk ?_ rfl rfl rfl rfl rfl rfl rfl rfl rfl rfl rfl)

theorem State.assemble_keeps {z s : State} {it : Item} (hz : Keeps z s) : Keeps z (State.assemble s it).1 := by
  unfold State.assemble
  try dsimp only
  repeat' first
    | with_reducible assumption
    | split
    | (refine Keeps.foldl (fun _ _ _ => ?_) ?_)
    | (refine Keeps.of_mk ?_ rfl rfl rfl rfl rfl rfl rfl rfl rfl rfl rfl)

theorem State.assemble_keeps_eq {z s t : State} {x : _} {it : Item} (e : State.assemble s it = (t, x)) (hz : Keeps z s) : Keeps z t := by
  have k := State.assemble_keeps hz (z := z) (it := it)
  rw [e] at k
  exact k

theorem State.remoteFeed_keeps {z s : State} {i : Issuer} {ps : List Word} {slot : Nat} {image : Nat} (hz : Keeps z s) : Keeps z (State.remoteFeed s i ps slot image) := by
  unfold State.remoteFeed
  try dsimp only
  repeat' first
    | with_reducible assumption
    | with_reducible apply State.answer_keeps
    | with_reducible apply State.writeIn_keeps
    | with_reducible apply State.setEntry_keeps
    | with_reducible apply State.homeFeed_keeps
    | with_reducible apply State.reply_keeps
    | with_reducible apply State.setHome_keeps
    | split
    | (refine Keeps.foldl (fun _ _ _ => ?_) ?_)
    | (refine Keeps.of_mk ?_ rfl rfl rfl rfl rfl rfl rfl rfl rfl rfl rfl)

theorem State.atHome_keeps {z s : State} {i : Issuer} {w : Word} {act : Nat → State} (hz : Keeps z s) (hact : ∀ x0, Keeps z (act x0)) : Keeps z (State.atHome s i w act) := by
  unfold State.atHome
  try dsimp only
  repeat' first
    | with_reducible assumption
    | with_reducible apply State.answer_keeps
    | (exact hact _)
    | split
    | (refine Keeps.foldl (fun _ _ _ => ?_) ?_)
    | (refine Keeps.of_mk ?_ rfl rfl rfl rfl rfl rfl rfl rfl rfl rfl rfl)

theorem State.atCoord_keeps {z s : State} {i : Issuer} {act : State → State} (hz : Keeps z s) (hact : ∀ x0, Keeps z x0 → Keeps z (act x0)) : Keeps z (State.atCoord s i act) := by
  unfold State.atCoord
  try dsimp only
  repeat' first
    | with_reducible assumption
    | with_reducible apply State.answer_keeps
    | (refine hact _ ?_)
    | split
    | (refine Keeps.foldl (fun _ _ _ => ?_) ?_)
    | (refine Keeps.of_mk ?_ rfl rfl rfl rfl rfl rfl rfl rfl rfl rfl rfl)

theorem State.runForwarded_keeps {z s : State} {src : Nat} {image : Nat} {ws : List Word} (hz : Keeps z s) : Keeps z (State.runForwarded s src image ws) := by
  unfold State.runForwarded
  try dsimp only
  repeat' first
    | with_reducible assumption
    | with_reducible apply State.atHome_keeps
    | with_reducible apply State.remoteFeed_keeps
    | with_reducible apply State.closeHome_keeps
    | with_reducible apply State.stopSetAt_keeps
    | with_reducible apply State.atCoord_keeps
    | with_reducible apply State.imageCommit_keeps
    | with_reducible apply State.modePrepare_keeps
    | with_reducible apply State.modeCommit_keeps
    | with_reducible apply State.modeAbort_keeps
    | with_reducible apply State.schedulePin_keeps
    | with_reducible apply State.answer_keeps
    | split
    | (refine Keeps.foldl (fun _ _ _ => ?_) ?_)
    | intro _
    | (refine Keeps.of_mk ?_ rfl rfl rfl rfl rfl rfl rfl rfl rfl rfl rfl)

theorem State.actCmd_keeps {z s : State} {it : Item} (hz : Keeps z s) : Keeps z (State.actCmd s it) := by
  unfold State.actCmd
  try dsimp only
  repeat' first
    | with_reducible assumption
    | with_reducible apply State.assemble_keeps
    | (with_reducible refine State.assemble_keeps_eq (by with_reducible assumption) ?_)
    | with_reducible apply State.runForwarded_keeps
    | split
    | (refine Keeps.foldl (fun _ _ _ => ?_) ?_)
    | (refine Keeps.of_mk ?_ rfl rfl rfl rfl rfl rfl rfl rfl rfl rfl rfl)

theorem State.feedAnswered_keeps {z s : State} {slot : Nat} {st : Status} (hz : Keeps z s) : Keeps z (State.feedAnswered s slot st) := by
  unfold State.feedAnswered
  try dsimp only
  repeat' first
    | with_reducible assumption
    | with_reducible apply State.undoFeed_keeps
    | with_reducible apply State.setEdge_keeps
    | split
    | (refine Keeps.foldl (fun _ _ _ => ?_) ?_)
    | (refine Keeps.of_mk ?_ rfl rfl rfl rfl rfl rfl rfl rfl rfl rfl rfl)

theorem State.endForward_keeps {z s : State} {f : Fwd} {st : Status} {result : List Word} (hz : Keeps z s) : Keeps z (State.endForward s f st result) := by
  unfold State.endForward
  try dsimp only
  repeat' first
    | with_reducible assumption
    | with_reducible apply State.endPendWith_keeps
    | with_reducible apply State.feedAnswered_keeps
    | with_reducible apply State.reply_keeps
    | with_reducible apply State.raiseAll_keeps
    | split
    | (refine Keeps.foldl (fun _ _ _ => ?_) ?_)
    | (refine Keeps.of_mk ?_ rfl rfl rfl rfl rfl rfl rfl rfl rfl rfl rfl)

theorem State.actCmdReply_keeps {z s : State} {it : Item} (hz : Keeps z s) : Keeps z (State.actCmdReply s it) := by
  unfold State.actCmdReply
  try dsimp only
  repeat' first
    | with_reducible assumption
    | with_reducible apply State.assemble_keeps
    | (with_reducible refine State.assemble_keeps_eq (by with_reducible assumption) ?_)
    | with_reducible apply State.endForward_keeps
    | split
    | (refine Keeps.foldl (fun _ _ _ => ?_) ?_)
    | (refine Keeps.of_mk ?_ rfl rfl rfl rfl rfl rfl rfl rfl rfl rfl rfl)

theorem State.actBalance_keeps {z s : State} {it : Item} (hz : Keeps z s) : Keeps z (State.actBalance s it) := by
  unfold State.actBalance
  try dsimp only
  repeat' first
    | with_reducible assumption
    | split
    | (refine Keeps.foldl (fun _ _ _ => ?_) ?_)
    | (refine Keeps.of_mk ?_ rfl rfl rfl rfl rfl rfl rfl rfl rfl rfl rfl)

theorem State.actPrepare_keeps {z s : State} {it : Item} (hz : Keeps z s) : Keeps z (State.actPrepare s it) := by
  unfold State.actPrepare
  try dsimp only
  repeat' first
    | with_reducible assumption
    | with_reducible apply State.sendTo_keeps
    | with_reducible apply State.stageChange_keeps
    | split
    | (refine Keeps.foldl (fun _ _ _ => ?_) ?_)
    | (refine Keeps.of_mk ?_ rfl rfl rfl rfl rfl rfl rfl rfl rfl rfl rfl)

theorem State.actAck_keeps {z s : State} {it : Item} (hz : Keeps z s) : Keeps z (State.actAck s it) := by
  unfold State.actAck
  try dsimp only
  repeat' first
    | with_reducible assumption
    | with_reducible apply State.prepareDone_keeps
    | with_reducible apply State.abortCommit_keeps
    | split
    | (refine Keeps.foldl (fun _ _ _ => ?_) ?_)
    | (refine Keeps.of_mk ?_ rfl rfl rfl rfl rfl rfl rfl rfl rfl rfl rfl)

theorem State.actGo_keeps {z s : State} {it : Item} (hz : Keeps z s) : Keeps z (State.actGo s it) := by
  unfold State.actGo
  try dsimp only
  repeat' first
    | with_reducible assumption
    | split
    | (refine Keeps.foldl (fun _ _ _ => ?_) ?_)
    | (refine Keeps.of_mk ?_ rfl rfl rfl rfl rfl rfl rfl rfl rfl rfl rfl)

theorem State.actAbort_keeps {z s : State} {it : Item} (hz : Keeps z s) : Keeps z (State.actAbort s it) := by
  unfold State.actAbort
  try dsimp only
  repeat' first
    | with_reducible assumption
    | with_reducible apply State.countAbort_keeps
    | with_reducible apply State.unstage_keeps
    | split
    | (refine Keeps.foldl (fun _ _ _ => ?_) ?_)
    | (refine Keeps.of_mk ?_ rfl rfl rfl rfl rfl rfl rfl rfl rfl rfl rfl)

theorem State.copiesDone_keeps {z s : State}  (hz : Keeps z s) : Keeps z (State.copiesDone s) := by
  unfold State.copiesDone
  try dsimp only
  repeat' first
    | with_reducible assumption
    | with_reducible apply State.answer_keeps
    | split
    | (refine Keeps.foldl (fun _ _ _ => ?_) ?_)
    | (refine Keeps.of_mk ?_ rfl rfl rfl rfl rfl rfl rfl rfl rfl rfl rfl)

theorem State.takeMirror_keeps {z s : State} {a : Word} {d : Word} (hz : Keeps z s) : Keeps z (State.takeMirror s a d) := by
  unfold State.takeMirror
  try dsimp only
  repeat' first
    | with_reducible assumption
    | with_reducible apply State.copiesDone_keeps
    | split
    | (refine Keeps.foldl (fun _ _ _ => ?_) ?_)
    | (refine Keeps.of_mk ?_ rfl rfl rfl rfl rfl rfl rfl rfl rfl rfl rfl)

theorem State.actMirror_keeps {z s : State} {it : Item} (hz : Keeps z s) : Keeps z (State.actMirror s it) := by
  unfold State.actMirror
  try dsimp only
  repeat' first
    | with_reducible assumption
    | with_reducible apply State.takeMirror_keeps
    | split
    | (refine Keeps.foldl (fun _ _ _ => ?_) ?_)
    | (refine Keeps.of_mk ?_ rfl rfl rfl rfl rfl rfl rfl rfl rfl rfl rfl)

theorem State.setPair_keeps {z s : State} {g : Nat} (hz : Keeps z s) : Keeps z (State.setPair s g) := by
  unfold State.setPair
  try dsimp only
  repeat' first
    | with_reducible assumption
    | split
    | (refine Keeps.foldl (fun _ _ _ => ?_) ?_)
    | (refine Keeps.of_mk ?_ rfl rfl rfl rfl rfl rfl rfl rfl rfl rfl rfl)

theorem State.clearPair_keeps {z s : State} (hz : Keeps z s) : Keeps z s.clearPair :=
  hz.of_imp rfl rfl id id id id id id id id id (fun _ => Nat.zero_le _) id id id id id id id id id

theorem State.actPair_keeps {z s : State} {it : Item} (hz : Keeps z s) : Keeps z (State.actPair s it) := by
  unfold State.actPair
  try dsimp only
  repeat' first
    | with_reducible assumption
    | with_reducible apply State.sendTo_keeps
    | with_reducible apply State.setPair_keeps
    | with_reducible apply State.answer_keeps
    | with_reducible apply State.clearPair_keeps
    | split
    | (refine Keeps.foldl (fun _ _ _ => ?_) ?_)
    | (refine Keeps.of_mk ?_ rfl rfl rfl rfl rfl rfl rfl rfl rfl rfl rfl)

theorem State.actRestart_keeps {z s : State} {it : Item} (hz : Keeps z s) : Keeps z (State.actRestart s it) := by
  unfold State.actRestart
  try dsimp only
  repeat' first
    | with_reducible assumption
    | with_reducible apply State.logNew_keeps
    | with_reducible apply State.setSticky_keeps
    | with_reducible apply State.assertReset_keeps
    | split
    | (refine Keeps.foldl (fun _ _ _ => ?_) ?_)
    | (refine Keeps.of_mk ?_ rfl rfl rfl rfl rfl rfl rfl rfl rfl rfl rfl)

theorem State.handleMsg_keeps {z s : State} {it : Item} (hz : Keeps z s) : Keeps z (State.handleMsg s it) := by
  unfold State.handleMsg
  try dsimp only
  repeat' first
    | with_reducible assumption
    | with_reducible apply State.actItem_keeps
    | with_reducible apply State.actOpen_keeps
    | with_reducible apply State.actOpenReply_keeps
    | with_reducible apply State.actStep_keeps
    | with_reducible apply State.actResolve_keeps
    | with_reducible apply State.actStreamEnd_keeps
    | with_reducible apply State.actClose_keeps
    | with_reducible apply State.actCancel_keeps
    | with_reducible apply State.actCmd_keeps
    | with_reducible apply State.actCmdReply_keeps
    | with_reducible apply State.takeTime_keeps
    | with_reducible apply State.actBalance_keeps
    | with_reducible apply State.actPrepare_keeps
    | with_reducible apply State.actAck_keeps
    | with_reducible apply State.actGo_keeps
    | with_reducible apply State.actAbort_keeps
    | with_reducible apply State.actMirror_keeps
    | with_reducible apply State.actPair_keeps
    | with_reducible apply State.actRestart_keeps
    | split
    | (refine Keeps.foldl (fun _ _ _ => ?_) ?_)
    | (refine Keeps.of_mk ?_ rfl rfl rfl rfl rfl rfl rfl rfl rfl rfl rfl)

theorem State.acceptMsg_keeps {z s : State} {link : Nat} {it : Item} (hz : Keeps z s) : Keeps z (State.acceptMsg s link it) := by
  unfold State.acceptMsg
  try dsimp only
  repeat' first
    | with_reducible assumption
    | with_reducible apply State.handleMsg_keeps
    | with_reducible apply State.ringDrop_keeps
    | split
    | (refine Keeps.foldl (fun _ _ _ => ?_) ?_)
    | (refine Keeps.of_mk ?_ rfl rfl rfl rfl rfl rfl rfl rfl rfl rfl rfl)

theorem State.routeMsg_keeps {z s : State} {link : Nat} {it : Item} (hz : Keeps z s) : Keeps z (State.routeMsg s link it) := by
  unfold State.routeMsg
  try dsimp only
  repeat' first
    | with_reducible assumption
    | with_reducible apply State.ringDrop_keeps
    | with_reducible apply State.acceptMsg_keeps
    | with_reducible apply State.passAll_keeps
    | with_reducible apply State.passMsg_keeps
    | split
    | (refine Keeps.foldl (fun _ _ _ => ?_) ?_)
    | (refine Keeps.of_mk ?_ rfl rfl rfl rfl rfl rfl rfl rfl rfl rfl rfl)

theorem State.badMsg_keeps {z s : State} {link : Nat} {m : RxMsg} (hz : Keeps z s) : Keeps z (State.badMsg s link m) := by
  unfold State.badMsg
  try dsimp only
  repeat' first
    | with_reducible assumption
    | with_reducible apply State.ceLink_keeps
    | with_reducible apply State.jobFault_keeps
    | with_reducible apply State.trouble_keeps
    | split
    | (refine Keeps.foldl (fun _ _ _ => ?_) ?_)
    | (refine Keeps.of_mk ?_ rfl rfl rfl rfl rfl rfl rfl rfl rfl rfl rfl)

theorem State.receive_keeps {z s : State} {m : RxMsg} (hz : Keeps z s) : Keeps z (State.receive s m) := by
  unfold State.receive
  try dsimp only
  repeat' first
    | with_reducible assumption
    | with_reducible apply State.routeMsg_keeps
    | with_reducible apply State.ceLink_keeps
    | with_reducible apply State.badMsg_keeps
    | split
    | (refine Keeps.foldl (fun _ _ _ => ?_) ?_)
    | (refine Keeps.of_mk ?_ rfl rfl rfl rfl rfl rfl rfl rfl rfl rfl rfl)

theorem State.releaseHeld_keeps {z s : State}  (hz : Keeps z s) : Keeps z (State.releaseHeld s) := by
  unfold State.releaseHeld
  try dsimp only
  repeat' first
    | with_reducible assumption
    | with_reducible apply State.acceptMsg_keeps
    | split
    | (refine Keeps.foldl (fun _ _ _ => ?_) ?_)
    | (refine Keeps.of_mk ?_ rfl rfl rfl rfl rfl rfl rfl rfl rfl rfl rfl)

theorem State.receiveType_keeps {z s : State} {typ : Nat} {m : RxMsg} (hz : Keeps z s) : Keeps z (State.receiveType s typ m) := by
  unfold State.receiveType
  try dsimp only
  repeat' first
    | with_reducible assumption
    | with_reducible apply State.receive_keeps
    | split
    | (refine Keeps.foldl (fun _ _ _ => ?_) ?_)
    | (refine Keeps.of_mk ?_ rfl rfl rfl rfl rfl rfl rfl rfl rfl rfl rfl)

theorem State.onRingForward_keeps {z s : State} {msg : RxMsg} (hz : Keeps z s) : Keeps z (State.onRingForward s msg) := by
  unfold State.onRingForward
  try dsimp only
  repeat' first
    | with_reducible assumption
    | with_reducible apply State.receive_keeps
    | split
    | (refine Keeps.foldl (fun _ _ _ => ?_) ?_)
    | (refine Keeps.of_mk ?_ rfl rfl rfl rfl rfl rfl rfl rfl rfl rfl rfl)

theorem State.onItem_keeps {z s : State} {msg : RxMsg} (hz : Keeps z s) : Keeps z (State.onItem s msg) := by
  unfold State.onItem
  try dsimp only
  repeat' first
    | with_reducible assumption
    | with_reducible apply State.receiveType_keeps
    | split
    | (refine Keeps.foldl (fun _ _ _ => ?_) ?_)
    | (refine Keeps.of_mk ?_ rfl rfl rfl rfl rfl rfl rfl rfl rfl rfl rfl)

theorem State.onOpenMsg_keeps {z s : State} {msg : RxMsg} (hz : Keeps z s) : Keeps z (State.onOpenMsg s msg) := by
  unfold State.onOpenMsg
  try dsimp only
  repeat' first
    | with_reducible assumption
    | with_reducible apply State.receiveType_keeps
    | split
    | (refine Keeps.foldl (fun _ _ _ => ?_) ?_)
    | (refine Keeps.of_mk ?_ rfl rfl rfl rfl rfl rfl rfl rfl rfl rfl rfl)

theorem State.onOpenReply_keeps {z s : State} {msg : RxMsg} (hz : Keeps z s) : Keeps z (State.onOpenReply s msg) := by
  unfold State.onOpenReply
  try dsimp only
  repeat' first
    | with_reducible assumption
    | with_reducible apply State.receiveType_keeps
    | split
    | (refine Keeps.foldl (fun _ _ _ => ?_) ?_)
    | (refine Keeps.of_mk ?_ rfl rfl rfl rfl rfl rfl rfl rfl rfl rfl rfl)

theorem State.onStepMsg_keeps {z s : State} {msg : RxMsg} (hz : Keeps z s) : Keeps z (State.onStepMsg s msg) := by
  unfold State.onStepMsg
  try dsimp only
  repeat' first
    | with_reducible assumption
    | with_reducible apply State.receiveType_keeps
    | split
    | (refine Keeps.foldl (fun _ _ _ => ?_) ?_)
    | (refine Keeps.of_mk ?_ rfl rfl rfl rfl rfl rfl rfl rfl rfl rfl rfl)

theorem State.onResolve_keeps {z s : State} {msg : RxMsg} (hz : Keeps z s) : Keeps z (State.onResolve s msg) := by
  unfold State.onResolve
  try dsimp only
  repeat' first
    | with_reducible assumption
    | with_reducible apply State.receiveType_keeps
    | split
    | (refine Keeps.foldl (fun _ _ _ => ?_) ?_)
    | (refine Keeps.of_mk ?_ rfl rfl rfl rfl rfl rfl rfl rfl rfl rfl rfl)

theorem State.onStreamEnd_keeps {z s : State} {msg : RxMsg} (hz : Keeps z s) : Keeps z (State.onStreamEnd s msg) := by
  unfold State.onStreamEnd
  try dsimp only
  repeat' first
    | with_reducible assumption
    | with_reducible apply State.receiveType_keeps
    | split
    | (refine Keeps.foldl (fun _ _ _ => ?_) ?_)
    | (refine Keeps.of_mk ?_ rfl rfl rfl rfl rfl rfl rfl rfl rfl rfl rfl)

theorem State.onClose_keeps {z s : State} {msg : RxMsg} (hz : Keeps z s) : Keeps z (State.onClose s msg) := by
  unfold State.onClose
  try dsimp only
  repeat' first
    | with_reducible assumption
    | with_reducible apply State.receiveType_keeps
    | split
    | (refine Keeps.foldl (fun _ _ _ => ?_) ?_)
    | (refine Keeps.of_mk ?_ rfl rfl rfl rfl rfl rfl rfl rfl rfl rfl rfl)

theorem State.onCancel_keeps {z s : State} {msg : RxMsg} (hz : Keeps z s) : Keeps z (State.onCancel s msg) := by
  unfold State.onCancel
  try dsimp only
  repeat' first
    | with_reducible assumption
    | with_reducible apply State.receiveType_keeps
    | split
    | (refine Keeps.foldl (fun _ _ _ => ?_) ?_)
    | (refine Keeps.of_mk ?_ rfl rfl rfl rfl rfl rfl rfl rfl rfl rfl rfl)

theorem State.onCmd_keeps {z s : State} {msg : RxMsg} (hz : Keeps z s) : Keeps z (State.onCmd s msg) := by
  unfold State.onCmd
  try dsimp only
  repeat' first
    | with_reducible assumption
    | with_reducible apply State.receiveType_keeps
    | split
    | (refine Keeps.foldl (fun _ _ _ => ?_) ?_)
    | (refine Keeps.of_mk ?_ rfl rfl rfl rfl rfl rfl rfl rfl rfl rfl rfl)

theorem State.onCmdReply_keeps {z s : State} {msg : RxMsg} (hz : Keeps z s) : Keeps z (State.onCmdReply s msg) := by
  unfold State.onCmdReply
  try dsimp only
  repeat' first
    | with_reducible assumption
    | with_reducible apply State.receiveType_keeps
    | split
    | (refine Keeps.foldl (fun _ _ _ => ?_) ?_)
    | (refine Keeps.of_mk ?_ rfl rfl rfl rfl rfl rfl rfl rfl rfl rfl rfl)

theorem State.onTime_keeps {z s : State} {msg : RxMsg} (hz : Keeps z s) : Keeps z (State.onTime s msg) := by
  unfold State.onTime
  try dsimp only
  repeat' first
    | with_reducible assumption
    | with_reducible apply State.receiveType_keeps
    | split
    | (refine Keeps.foldl (fun _ _ _ => ?_) ?_)
    | (refine Keeps.of_mk ?_ rfl rfl rfl rfl rfl rfl rfl rfl rfl rfl rfl)

theorem State.onBalance_keeps {z s : State} {msg : RxMsg} (hz : Keeps z s) : Keeps z (State.onBalance s msg) := by
  unfold State.onBalance
  try dsimp only
  repeat' first
    | with_reducible assumption
    | with_reducible apply State.receiveType_keeps
    | split
    | (refine Keeps.foldl (fun _ _ _ => ?_) ?_)
    | (refine Keeps.of_mk ?_ rfl rfl rfl rfl rfl rfl rfl rfl rfl rfl rfl)

theorem State.onPrepare_keeps {z s : State} {msg : RxMsg} (hz : Keeps z s) : Keeps z (State.onPrepare s msg) := by
  unfold State.onPrepare
  try dsimp only
  repeat' first
    | with_reducible assumption
    | with_reducible apply State.receiveType_keeps
    | split
    | (refine Keeps.foldl (fun _ _ _ => ?_) ?_)
    | (refine Keeps.of_mk ?_ rfl rfl rfl rfl rfl rfl rfl rfl rfl rfl rfl)

theorem State.onAck_keeps {z s : State} {msg : RxMsg} (hz : Keeps z s) : Keeps z (State.onAck s msg) := by
  unfold State.onAck
  try dsimp only
  repeat' first
    | with_reducible assumption
    | with_reducible apply State.receiveType_keeps
    | split
    | (refine Keeps.foldl (fun _ _ _ => ?_) ?_)
    | (refine Keeps.of_mk ?_ rfl rfl rfl rfl rfl rfl rfl rfl rfl rfl rfl)

theorem State.onGo_keeps {z s : State} {msg : RxMsg} (hz : Keeps z s) : Keeps z (State.onGo s msg) := by
  unfold State.onGo
  try dsimp only
  repeat' first
    | with_reducible assumption
    | with_reducible apply State.receiveType_keeps
    | split
    | (refine Keeps.foldl (fun _ _ _ => ?_) ?_)
    | (refine Keeps.of_mk ?_ rfl rfl rfl rfl rfl rfl rfl rfl rfl rfl rfl)

theorem State.onAbort_keeps {z s : State} {msg : RxMsg} (hz : Keeps z s) : Keeps z (State.onAbort s msg) := by
  unfold State.onAbort
  try dsimp only
  repeat' first
    | with_reducible assumption
    | with_reducible apply State.receiveType_keeps
    | split
    | (refine Keeps.foldl (fun _ _ _ => ?_) ?_)
    | (refine Keeps.of_mk ?_ rfl rfl rfl rfl rfl rfl rfl rfl rfl rfl rfl)

theorem State.onMirror_keeps {z s : State} {msg : RxMsg} (hz : Keeps z s) : Keeps z (State.onMirror s msg) := by
  unfold State.onMirror
  try dsimp only
  repeat' first
    | with_reducible assumption
    | with_reducible apply State.receiveType_keeps
    | split
    | (refine Keeps.foldl (fun _ _ _ => ?_) ?_)
    | (refine Keeps.of_mk ?_ rfl rfl rfl rfl rfl rfl rfl rfl rfl rfl rfl)

theorem State.onPair_keeps {z s : State} {msg : RxMsg} (hz : Keeps z s) : Keeps z (State.onPair s msg) := by
  unfold State.onPair
  try dsimp only
  repeat' first
    | with_reducible assumption
    | with_reducible apply State.receiveType_keeps
    | split
    | (refine Keeps.foldl (fun _ _ _ => ?_) ?_)
    | (refine Keeps.of_mk ?_ rfl rfl rfl rfl rfl rfl rfl rfl rfl rfl rfl)

theorem State.onRestart_keeps {z s : State} {msg : RxMsg} (hz : Keeps z s) : Keeps z (State.onRestart s msg) := by
  unfold State.onRestart
  try dsimp only
  repeat' first
    | with_reducible assumption
    | with_reducible apply State.receiveType_keeps
    | split
    | (refine Keeps.foldl (fun _ _ _ => ?_) ?_)
    | (refine Keeps.of_mk ?_ rfl rfl rfl rfl rfl rfl rfl rfl rfl rfl rfl)

end Sys2Proof.Machine
end

