-- ==== Sys2Proof/Laws/KeepsRingCmd.lean ====
section
/-! SUPPORT. The ring’s sending side: what each operation keeps, one lemma for each. -/
namespace Sys2Proof.Machine
set_option Elab.async false

theorem State.txLate_keeps {z s : State} {m : QMsg} (hz : Keeps z s) : Keeps z (State.txLate s m) := by
  unfold State.txLate
  try dsimp only
  repeat' first
    | with_reducible assumption
    | with_reducible apply State.setSlot_keeps
    | split
    | (refine Keeps.foldl (fun _ _ _ => ?_) ?_)
    | (refine Keeps.of_mk ?_ rfl rfl rfl rfl rfl rfl rfl rfl rfl rfl rfl)

theorem State.txTake_keeps {z s t : State} {link : Nat} {m : QMsg} (e : s.txTake link = some (m, t)) (hz : Keeps z s) : Keeps z t := by
  unfold State.txTake at e
  dsimp only at e
  have own : Keeps z { s with net := { s.net with mirrorQ := s.net.mirrorQ.drop 1, mirrorRp := (s.net.mirrorRp + 8) % 2 ^ 16 } } :=
    hz.of_imp rfl rfl id id id id id id id id id (fun hl => by simp only [List.length_drop]; omega) id id id id id id id id id
  have que : ∀ q : List QMsg, Keeps z { s with net := { s.net with queues := s.net.queues.set link q } } := fun _ =>
    hz.of_imp rfl rfl id id id id id id id id id id id id id id id (fun hl => by simpa using hl) id id id
  repeat' split at e
  all_goals cases e
  all_goals first
    | exact own
    | exact que _

theorem State.txSlot_keeps {z s : State} {link : Nat} (hz : Keeps z s) : Keeps z (s.txSlot link) := by
  unfold State.txSlot
  dsimp only
  have put (t : State) (o : Option Item) (h : Keeps z t) : Keeps z { t with net := { t.net with sent := t.net.sent.set link o } } :=
    h.of_imp rfl rfl id id id id id id id id id id id id id id id id (fun hl => by simpa using hl) id id
  split
  · rename_i m t e
    exact put _ _ (State.txLate_keeps (State.txTake_keeps e hz))
  · exact put _ _ hz

theorem State.onGrpTxSlot_keeps {z s1 : State} {link : Nat} (hz : Keeps z s1) : Keeps z (State.onGrpTxSlot s1 link) := by
  unfold State.onGrpTxSlot
  try dsimp only
  repeat' first
    | with_reducible assumption
    | with_reducible apply State.txSlot_keeps
    | split
    | (refine Keeps.foldl (fun _ _ _ => ?_) ?_)
    | (refine Keeps.of_mk ?_ rfl rfl rfl rfl rfl rfl rfl rfl rfl rfl rfl)

theorem State.diffArea3_keeps {z s : State}  (hz : Keeps z s) : Keeps z (State.diffArea3 s) := by
  unfold State.diffArea3
  try dsimp only
  repeat' first
    | with_reducible assumption
    | with_reducible apply State.mirrorPut_keeps
    | split
    | (refine Keeps.foldl (fun _ _ _ => ?_) ?_)
    | (refine Keeps.of_mk ?_ rfl rfl rfl rfl rfl rfl rfl rfl rfl rfl rfl)

theorem State.enqueueMirror_keeps {z s : State} (hz : Keeps z s) : Keeps z s.enqueueMirror := by
  unfold State.enqueueMirror
  extract_lets s1 from' cs
  have k : Keeps z s1 := State.handMirror_keeps hz
  split
  · exact k
  · rename_i hlt
    split
    · exact k
    · refine k.of_imp rfl rfl id id id id id id id id id (fun _ => ?_) id id id id id id id id id
      simp only [List.length_append, List.length_cons, List.length_nil]
      omega

theorem State.onMirrorEnqueue_keeps {z s1 : State}  (hz : Keeps z s1) : Keeps z (State.onMirrorEnqueue s1) := by
  unfold State.onMirrorEnqueue
  try dsimp only
  repeat' first
    | with_reducible assumption
    | with_reducible apply State.enqueueMirror_keeps
    | split
    | (refine Keeps.foldl (fun _ _ _ => ?_) ?_)
    | (refine Keeps.of_mk ?_ rfl rfl rfl rfl rfl rfl rfl rfl rfl rfl rfl)

theorem State.onTwinCopyDone_keeps {z s1 : State}  (hz : Keeps z s1) : Keeps z (State.onTwinCopyDone s1) := by
  unfold State.onTwinCopyDone
  try dsimp only
  repeat' first
    | with_reducible assumption
    | with_reducible apply State.copiesDone_keeps
    | split
    | (refine Keeps.foldl (fun _ _ _ => ?_) ?_)
    | (refine Keeps.of_mk ?_ rfl rfl rfl rfl rfl rfl rfl rfl rfl rfl rfl)

theorem State.onLinkLockLoss_keeps {z s1 : State} {link : Nat} (hz : Keeps z s1) : Keeps z (State.onLinkLockLoss s1 link) := by
  unfold State.onLinkLockLoss
  try dsimp only
  repeat' first
    | with_reducible assumption
    | with_reducible apply State.jobFault_keeps
    | split
    | (refine Keeps.foldl (fun _ _ _ => ?_) ?_)
    | (refine Keeps.of_mk ?_ rfl rfl rfl rfl rfl rfl rfl rfl rfl rfl rfl)

theorem State.pairTwin_keeps {z s : State} {i : Issuer} {g : Nat} (hz : Keeps z s) : Keeps z (State.pairTwin s i g) := by
  unfold State.pairTwin
  try dsimp only
  repeat' first
    | with_reducible assumption
    | with_reducible apply State.answer_keeps
    | with_reducible apply State.sendTo_keeps
    | split
    | (refine Keeps.foldl (fun _ _ _ => ?_) ?_)
    | (refine Keeps.of_mk ?_ rfl rfl rfl rfl rfl rfl rfl rfl rfl rfl rfl)

theorem State.onPairTwin_keeps {z s : State}  (hz : Keeps z s) : Keeps z (State.onPairTwin s) := by
  unfold State.onPairTwin
  try dsimp only
  repeat' first
    | with_reducible assumption
    | with_reducible apply State.runCmd_keeps
    | with_reducible apply State.pairTwin_keeps
    | split
    | (refine Keeps.foldl (fun _ _ _ => ?_) ?_)
    | intro _
    | (refine Keeps.of_mk ?_ rfl rfl rfl rfl rfl rfl rfl rfl rfl rfl rfl)

theorem State.unpairTwin_keeps {z s : State} {i : Issuer} (hz : Keeps z s) : Keeps z (State.unpairTwin s i) := by
  unfold State.unpairTwin
  try dsimp only
  repeat' first
    | with_reducible assumption
    | with_reducible apply State.answer_keeps
    | with_reducible apply State.sendTo_keeps
    | with_reducible apply State.clearPair_keeps
    | split
    | (refine Keeps.foldl (fun _ _ _ => ?_) ?_)
    | (refine Keeps.of_mk ?_ rfl rfl rfl rfl rfl rfl rfl rfl rfl rfl rfl)

theorem State.onUnpairTwin_keeps {z s : State}  (hz : Keeps z s) : Keeps z (State.onUnpairTwin s) := by
  unfold State.onUnpairTwin
  try dsimp only
  repeat' first
    | with_reducible assumption
    | with_reducible apply State.runCmd_keeps
    | with_reducible apply State.unpairTwin_keeps
    | split
    | (refine Keeps.foldl (fun _ _ _ => ?_) ?_)
    | intro _
    | (refine Keeps.of_mk ?_ rfl rfl rfl rfl rfl rfl rfl rfl rfl rfl rfl)

end Sys2Proof.Machine
end

