-- ==== Sys2Proof/Laws/KeepsStart.lean ====
section
/-! SUPPORT. Releases and starts: what each operation keeps, one lemma for each. -/
namespace Sys2Proof.Machine
set_option Elab.async false

theorem State.putRsStat_keeps {z s : State}  (hz : Keeps z s) : Keeps z (State.putRsStat s) := by
  unfold State.putRsStat
  try dsimp only
  repeat' first
    | with_reducible assumption
    | with_reducible apply State.putRetained_keeps
    | split
    | (refine Keeps.foldl (fun _ _ _ => ?_) ?_)
    | (refine Keeps.of_mk ?_ rfl rfl rfl rfl rfl rfl rfl rfl rfl rfl rfl)

theorem State.onPowerOn_keeps {z s : State} {cause : PowerCause} {cycles : Nat} (hz : Keeps z s) : Keeps z (s.onPowerOn cause cycles) := by
  unfold State.onPowerOn
  dsimp only
  have k : Keeps z (s.assertReset .cold srcPowerOn (max cycles 256)) := State.assertReset_keeps hz
  split
  · exact k.of_imp rfl rfl id id id id id id id id id id (fun _ => (by decide : TimeU.cold.t48 < 2 ^ 112))
      (fun _ => (by decide : TimeU.cold.quarters < 160)) id id id id id id (fun _ => rfl)
  · exact Keeps.of_mk k rfl rfl rfl rfl rfl rfl rfl rfl rfl rfl rfl

theorem State.onPorstN_keeps {z s1 : State} {cycles : Nat} {taken : Bool} (hz : Keeps z s1) : Keeps z (State.onPorstN s1 cycles taken) := by
  unfold State.onPorstN
  try dsimp only
  repeat' first
    | with_reducible assumption
    | with_reducible apply State.wideReset_keeps
    | split
    | (refine Keeps.foldl (fun _ _ _ => ?_) ?_)
    | (refine Keeps.of_mk ?_ rfl rfl rfl rfl rfl rfl rfl rfl rfl rfl rfl)

theorem State.onSysrstN_keeps {z s1 : State} {cycles : Nat} {taken : Bool} (hz : Keeps z s1) : Keeps z (State.onSysrstN s1 cycles taken) := by
  unfold State.onSysrstN
  try dsimp only
  repeat' first
    | with_reducible assumption
    | with_reducible apply State.wideReset_keeps
    | split
    | (refine Keeps.foldl (fun _ _ _ => ?_) ?_)
    | (refine Keeps.of_mk ?_ rfl rfl rfl rfl rfl rfl rfl rfl rfl rfl rfl)

theorem State.onGateReset_keeps {z s : State}  (hz : Keeps z s) : Keeps z (State.onGateReset s) := by
  unfold State.onGateReset
  try dsimp only
  repeat' first
    | with_reducible assumption
    | with_reducible apply State.runCmd_keeps
    | with_reducible apply State.wideReset_keeps
    | with_reducible apply State.answer_keeps
    | split
    | (refine Keeps.foldl (fun _ _ _ => ?_) ?_)
    | intro _
    | (refine Keeps.of_mk ?_ rfl rfl rfl rfl rfl rfl rfl rfl rfl rfl rfl)

theorem State.onJobRestart_keeps {z s : State}  (hz : Keeps z s) : Keeps z (State.onJobRestart s) := by
  unfold State.onJobRestart
  try dsimp only
  repeat' first
    | with_reducible assumption
    | with_reducible apply State.runCmd_keeps
    | with_reducible apply State.jobFault_keeps
    | with_reducible apply State.answer_keeps
    | split
    | (refine Keeps.foldl (fun _ _ _ => ?_) ?_)
    | intro _
    | (refine Keeps.of_mk ?_ rfl rfl rfl rfl rfl rfl rfl rfl rfl rfl rfl)

theorem State.onHrpErr_keeps {z s1 : State}  (hz : Keeps z s1) : Keeps z (State.onHrpErr s1) := by
  unfold State.onHrpErr
  try dsimp only
  repeat' first
    | with_reducible assumption
    | with_reducible apply State.jobFault_keeps
    | split
    | (refine Keeps.foldl (fun _ _ _ => ?_) ?_)
    | (refine Keeps.of_mk ?_ rfl rfl rfl rfl rfl rfl rfl rfl rfl rfl rfl)

theorem State.onCmiWatchdog_keeps {z s1 : State}  (hz : Keeps z s1) : Keeps z (State.onCmiWatchdog s1) := by
  unfold State.onCmiWatchdog
  try dsimp only
  repeat' first
    | with_reducible assumption
    | with_reducible apply State.wideReset_keeps
    | with_reducible apply State.trouble_keeps
    | split
    | (refine Keeps.foldl (fun _ _ _ => ?_) ?_)
    | (refine Keeps.of_mk ?_ rfl rfl rfl rfl rfl rfl rfl rfl rfl rfl rfl)

theorem State.lockPll_keeps {z s : State} {mhz : Nat} (hz : Keeps z s) : Keeps z (State.lockPll s mhz) := by
  unfold State.lockPll
  try dsimp only
  repeat' first
    | with_reducible assumption
    | split
    | (refine Keeps.foldl (fun _ _ _ => ?_) ?_)
    | (refine Keeps.of_mk ?_ rfl rfl rfl rfl rfl rfl rfl rfl rfl rfl rfl)

theorem State.startClock_keeps {z s : State} {pllLocks : Bool} (hz : Keeps z s) : Keeps z (State.startClock s pllLocks) := by
  unfold State.startClock
  try dsimp only
  repeat' first
    | with_reducible assumption
    | with_reducible apply State.lockPll_keeps
    | with_reducible apply State.trouble_keeps
    | split
    | (refine Keeps.foldl (fun _ _ _ => ?_) ?_)
    | (refine Keeps.of_mk ?_ rfl rfl rfl rfl rfl rfl rfl rfl rfl rfl rfl)

theorem State.sendAborted_keeps {z s : State}  (hz : Keeps z s) : Keeps z (State.sendAborted s) := by
  unfold State.sendAborted
  try dsimp only
  repeat' first
    | with_reducible assumption
    | with_reducible apply State.client_keeps
    | with_reducible apply State.answer_keeps
    | split
    | (refine Keeps.foldl (fun _ _ _ => ?_) ?_)
    | (refine Keeps.of_mk ?_ rfl rfl rfl rfl rfl rfl rfl rfl rfl rfl rfl)

theorem State.copyAgain_keeps {z s : State}  (hz : Keeps z s) : Keeps z (State.copyAgain s) := by
  unfold State.copyAgain
  try dsimp only
  repeat' first
    | with_reducible assumption
    | split
    | (refine Keeps.foldl (fun _ _ _ => ?_) ?_)
    | (refine Keeps.of_mk ?_ rfl rfl rfl rfl rfl rfl rfl rfl rfl rfl rfl)

theorem State.retainedBad_keeps {z s : State} {k : Nat} (hz : Keeps z s) : Keeps z (State.retainedBad s k) := by
  unfold State.retainedBad
  try dsimp only
  repeat' first
    | with_reducible assumption
    | with_reducible apply State.trouble_keeps
    | with_reducible apply State.putRetainedAll_keeps
    | with_reducible apply State.putRetained_keeps
    | split
    | (refine Keeps.foldl (fun _ _ _ => ?_) ?_)
    | (refine Keeps.of_mk ?_ rfl rfl rfl rfl rfl rfl rfl rfl rfl rfl rfl)

theorem State.retainedCheck_keeps {z s : State} {f : WordFind} (hz : Keeps z s) : Keeps z (State.retainedCheck s f) := by
  unfold State.retainedCheck
  try dsimp only
  repeat' first
    | with_reducible assumption
    | with_reducible apply State.ceRetained_keeps
    | with_reducible apply State.retainedBad_keeps
    | split
    | (refine Keeps.foldl (fun _ _ _ => ?_) ?_)
    | (refine Keeps.of_mk ?_ rfl rfl rfl rfl rfl rfl rfl rfl rfl rfl rfl)

theorem State.checkStore_keeps {z s : State} {find : WordFind} (hz : Keeps z s) : Keeps z (State.checkStore s find) := by
  unfold State.checkStore
  try dsimp only
  repeat' first
    | with_reducible assumption
    | with_reducible apply State.trouble_keeps
    | with_reducible apply State.retainedCheck_keeps
    | split
    | (refine Keeps.foldl (fun _ _ _ => ?_) ?_)
    | (refine Keeps.of_mk ?_ rfl rfl rfl rfl rfl rfl rfl rfl rfl rfl rfl)

theorem State.timeFrom_keeps {z s : State} {r : Reach} (hz : Keeps z s) : Keeps z (State.timeFrom s r) := by
  unfold State.timeFrom
  split
  · exact hz.of_imp rfl rfl id id id id id id id id id id (fun _ => (by decide : TimeU.cold.t48 < 2 ^ 112))
      (fun _ => (by decide : TimeU.cold.quarters < 160)) id id id id id id id
  · exact hz

theorem State.storeRead_keeps {z s : State} {r : Reach} {find : WordFind} (hz : Keeps z s) : Keeps z (State.storeRead s r find) := by
  unfold State.storeRead
  repeat' first
    | with_reducible assumption
    | with_reducible apply State.checkStore_keeps
    | with_reducible apply State.retainedCheck_keeps
    | split

theorem State.beginStart_keeps {z s : State} {r : Reach} {pllLocks : Bool} (hz : Keeps z s) : Keeps z (State.beginStart s r pllLocks) := by
  unfold State.beginStart
  try dsimp only
  repeat' first
    | with_reducible assumption
    | with_reducible apply State.startClock_keeps
    | with_reducible apply State.putRsStat_keeps
    | split
    | (refine Keeps.foldl (fun _ _ _ => ?_) ?_)
    | (refine Keeps.of_mk ?_ rfl rfl rfl rfl rfl rfl rfl rfl rfl rfl rfl)

theorem State.coldStart_keeps {z s : State} {forced pllLocks : Bool} (hz : Keeps z s) : Keeps z (s.coldStart forced pllLocks) := by
  unfold State.coldStart
  refine State.beginStart_keeps ?_
  exact hz.of_imp rfl rfl id id id id id id id id id id (fun _ => (by decide : TimeU.cold.t48 < 2 ^ 112))
    (fun _ => (by decide : TimeU.cold.quarters < 160)) id id id id id id id

theorem State.warmStart_keeps {z s : State} {pllLocks : Bool} {find : WordFind} (hz : Keeps z s) : Keeps z (State.warmStart s pllLocks find) := by
  unfold State.warmStart
  try dsimp only
  repeat' first
    | with_reducible assumption
    | with_reducible apply State.coldStart_keeps
    | with_reducible apply State.clearCold_keeps
    | with_reducible apply State.beginStart_keeps
    | split
    | (refine Keeps.foldl (fun _ _ _ => ?_) ?_)
    | (refine Keeps.of_mk ?_ rfl rfl rfl rfl rfl rfl rfl rfl rfl rfl rfl)

theorem State.release_keeps {z s : State} {r : Reach} {pllLocks : Bool} {find : WordFind} (hz : Keeps z s) : Keeps z (State.release s r pllLocks find) := by
  unfold State.release
  try dsimp only
  repeat' first
    | with_reducible assumption
    | with_reducible apply State.storeRead_keeps
    | with_reducible apply State.timeFrom_keeps
    | with_reducible apply State.coldStart_keeps
    | with_reducible apply State.warmStart_keeps
    | with_reducible apply State.beginStart_keeps
    | with_reducible apply State.trouble_keeps
    | with_reducible apply State.retainedCheck_keeps
    | with_reducible apply State.copyAgain_keeps
    | split
    | (refine Keeps.foldl (fun _ _ _ => ?_) ?_)
    | (refine Keeps.of_mk ?_ rfl rfl rfl rfl rfl rfl rfl rfl rfl rfl rfl)

theorem State.releaseRegions_keeps {z s : State}  (hz : Keeps z s) : Keeps z (State.releaseRegions s) := by
  unfold State.releaseRegions
  try dsimp only
  repeat' first
    | with_reducible assumption
    | with_reducible apply State.answer_keeps
    | split
    | (refine Keeps.foldl (fun _ _ _ => ?_) ?_)
    | (refine Keeps.of_mk ?_ rfl rfl rfl rfl rfl rfl rfl rfl rfl rfl rfl)

theorem State.onResetRelease_keeps {z s1 : State} {pllLocks : Bool} {find : WordFind} (hz : Keeps z s1) : Keeps z (State.onResetRelease s1 pllLocks find) := by
  unfold State.onResetRelease
  try dsimp only
  repeat' first
    | with_reducible assumption
    | with_reducible apply State.releaseRegions_keeps
    | with_reducible apply State.release_keeps
    | split
    | (refine Keeps.foldl (fun _ _ _ => ?_) ?_)
    | (refine Keeps.of_mk ?_ rfl rfl rfl rfl rfl rfl rfl rfl rfl rfl rfl)

theorem State.onRstOutRelease_keeps {z s1 : State}  (hz : Keeps z s1) : Keeps z (State.onRstOutRelease s1) := by
  unfold State.onRstOutRelease
  try dsimp only
  repeat' first
    | with_reducible assumption
    | split
    | (refine Keeps.foldl (fun _ _ _ => ?_) ?_)
    | (refine Keeps.of_mk ?_ rfl rfl rfl rfl rfl rfl rfl rfl rfl rfl rfl)

theorem State.putTraining_keeps {z s : State} {d : Nat} {t : DevTrain} (hz : Keeps z s) : Keeps z (State.putTraining s d t) := by
  unfold State.putTraining
  try dsimp only
  repeat' first
    | with_reducible assumption
    | with_reducible apply State.putRetainedAll_keeps
    | split
    | (refine Keeps.foldl (fun _ _ _ => ?_) ?_)
    | (refine Keeps.of_mk ?_ rfl rfl rfl rfl rfl rfl rfl rfl rfl rfl rfl)

theorem State.onTierTrainingDone_keeps {z s : State} {results : List DevTrain} (hz : Keeps z s) : Keeps z (s.onTierTrainingDone results) := by
  unfold State.onTierTrainingDone
  dsimp only
  split
  · split
    · refine Keeps.foldl (fun _ _ h => State.putTraining_keeps h) ?_
      exact hz.of_imp rfl rfl id id id id id id id id id id id id id id id id id id (fun hl => by simpa using hl)
    · exact hz
  · exact hz

theorem State.startRegion_keeps {z s : State} {i : Issuer} {r : Nat} (hz : Keeps z s) : Keeps z (s.startRegion i r) := by
  unfold State.startRegion
  dsimp only
  have k : Keeps z ((s.clustersOf r).foldl (fun t c => t.setCluster c { Cluster.zero with removed := s.runsSplit r }) s) :=
    Keeps.foldl (fun _ _ h => State.setCluster_keeps _ _ h) hz
  exact k.of_imp rfl rfl id id id id id id id id id id id id id id (fun hl => by simpa using hl) id id id id

theorem State.onRegionReset_keeps {z s : State}  (hz : Keeps z s) : Keeps z (State.onRegionReset s) := by
  unfold State.onRegionReset
  try dsimp only
  repeat' first
    | with_reducible assumption
    | with_reducible apply State.runCmd_keeps
    | with_reducible apply State.startRegion_keeps
    | with_reducible apply State.answer_keeps
    | split
    | (refine Keeps.foldl (fun _ _ _ => ?_) ?_)
    | intro _
    | (refine Keeps.of_mk ?_ rfl rfl rfl rfl rfl rfl rfl rfl rfl rfl rfl)

end Sys2Proof.Machine
end

