-- ==== Sys2Proof/Laws/KeepsTick.lean ====
section
/-! SUPPORT. The solstice tick: what each operation keeps, one lemma for each. -/
namespace Sys2Proof.Machine
set_option Elab.async false

theorem State.deadlineAct_keeps {z s : State} {k : Nat} {slot : Nat} (hz : Keeps z s) : Keeps z (State.deadlineAct s k slot) := by
  unfold State.deadlineAct
  try dsimp only
  repeat' first
    | with_reducible assumption
    | with_reducible apply State.startClose_keeps
    | split
    | (refine Keeps.foldl (fun _ _ _ => ?_) ?_)
    | (refine Keeps.of_mk ?_ rfl rfl rfl rfl rfl rfl rfl rfl rfl rfl rfl)

theorem State.sweepSlot_keeps {z s : State} {k : Nat} {slot : Nat} (hz : Keeps z s) : Keeps z (State.sweepSlot s k slot) := by
  unfold State.sweepSlot
  try dsimp only
  repeat' first
    | with_reducible assumption
    | with_reducible apply State.cancelAll_keeps
    | with_reducible apply State.freeCopy_keeps
    | split
    | (refine Keeps.foldl (fun _ _ _ => ?_) ?_)
    | (refine Keeps.of_mk ?_ rfl rfl rfl rfl rfl rfl rfl rfl rfl rfl rfl)

theorem State.sweep_keeps {z s : State} {k : Nat} (hz : Keeps z s) : Keeps z (State.sweep s k) := by
  unfold State.sweep
  try dsimp only
  repeat' first
    | with_reducible assumption
    | with_reducible apply State.sweepSlot_keeps
    | with_reducible apply State.dirExpire_keeps
    | split
    | (refine Keeps.foldl (fun _ _ _ => ?_) ?_)
    | (refine Keeps.of_mk ?_ rfl rfl rfl rfl rfl rfl rfl rfl rfl rfl rfl)

theorem State.cancelledFree_keeps {z s : State} {k : Nat} {slot : Nat} (hz : Keeps z s) : Keeps z (State.cancelledFree s k slot) := by
  unfold State.cancelledFree
  try dsimp only
  repeat' first
    | with_reducible assumption
    | with_reducible apply State.freeEntry_keeps
    | split
    | (refine Keeps.foldl (fun _ _ _ => ?_) ?_)
    | (refine Keeps.of_mk ?_ rfl rfl rfl rfl rfl rfl rfl rfl rfl rfl rfl)

theorem State.openTimeout_keeps {z s : State} {k : Nat} {slot : Nat} (hz : Keeps z s) : Keeps z (State.openTimeout s k slot) := by
  unfold State.openTimeout
  try dsimp only
  repeat' first
    | with_reducible assumption
    | with_reducible apply State.freeEntry_keeps
    | with_reducible apply State.endPend_keeps
    | split
    | (refine Keeps.foldl (fun _ _ _ => ?_) ?_)
    | (refine Keeps.of_mk ?_ rfl rfl rfl rfl rfl rfl rfl rfl rfl rfl rfl)

theorem State.holdForwards_keeps {z s : State} {k : Nat} (hz : Keeps z s) : Keeps z (State.holdForwards s k) := by
  unfold State.holdForwards
  try dsimp only
  repeat' first
    | with_reducible assumption
    | split
    | (refine Keeps.foldl (fun _ _ _ => ?_) ?_)
    | (refine Keeps.of_mk ?_ rfl rfl rfl rfl rfl rfl rfl rfl rfl rfl rfl)

theorem State.forwardTimeouts_keeps {z s : State} {k : Nat} (hz : Keeps z s) : Keeps z (State.forwardTimeouts s k) := by
  unfold State.forwardTimeouts
  try dsimp only
  repeat' first
    | with_reducible assumption
    | with_reducible apply State.endForward_keeps
    | split
    | (refine Keeps.foldl (fun _ _ _ => ?_) ?_)
    | (refine Keeps.of_mk ?_ rfl rfl rfl rfl rfl rfl rfl rfl rfl rfl rfl)

theorem State.chargeParked_keeps {z s : State} {t : Nat} (hz : Keeps z s) : Keeps z (State.chargeParked s t) := by
  unfold State.chargeParked
  try dsimp only
  repeat' first
    | with_reducible assumption
    | with_reducible apply State.setLedger_keeps
    | with_reducible apply State.levelSpent_keeps
    | split
    | (refine Keeps.foldl (fun _ _ _ => ?_) ?_)
    | (refine Keeps.of_mk ?_ rfl rfl rfl rfl rfl rfl rfl rfl rfl rfl rfl)

theorem State.ledgerTick_keeps {z s : State}  (hz : Keeps z s) : Keeps z (State.ledgerTick s) := by
  unfold State.ledgerTick
  try dsimp only
  repeat' first
    | with_reducible assumption
    | with_reducible apply State.chargeParked_keeps
    | with_reducible apply State.setLedger_keeps
    | split
    | (refine Keeps.foldl (fun _ _ _ => ?_) ?_)
    | (refine Keeps.of_mk ?_ rfl rfl rfl rfl rfl rfl rfl rfl rfl rfl rfl)

theorem State.closeReport_keeps {z s : State} {k : Nat} (hz : Keeps z s) : Keeps z (State.closeReport s k) := by
  unfold State.closeReport
  try dsimp only
  repeat' first
    | with_reducible assumption
    | with_reducible apply State.sendTo_keeps
    | split
    | (refine Keeps.foldl (fun _ _ _ => ?_) ?_)
    | (refine Keeps.of_mk ?_ rfl rfl rfl rfl rfl rfl rfl rfl rfl rfl rfl)

theorem State.measureShare_keeps {z s : State} {k : Nat} {a2 : Meter} (hz : Keeps z s) : Keeps z (State.measureShare s k a2) := by
  unfold State.measureShare
  try dsimp only
  repeat' first
    | with_reducible assumption
    | split
    | (refine Keeps.foldl (fun _ _ _ => ?_) ?_)
    | (refine Keeps.of_mk ?_ rfl rfl rfl rfl rfl rfl rfl rfl rfl rfl rfl)

theorem State.balanceDecision_keeps {z s : State} {k : Nat} {f : Img} (hz : Keeps z s) : Keeps z (State.balanceDecision s k f) := by
  unfold State.balanceDecision
  try dsimp only
  repeat' first
    | with_reducible assumption
    | with_reducible apply State.startCommit_keeps
    | split
    | (refine Keeps.foldl (fun _ _ _ => ?_) ?_)
    | (refine Keeps.of_mk ?_ rfl rfl rfl rfl rfl rfl rfl rfl rfl rfl rfl)

theorem State.meterTick_keeps {z s : State} {k : Nat} (hz : Keeps z s) : Keeps z (State.meterTick s k) := by
  unfold State.meterTick
  try dsimp only
  repeat' first
    | with_reducible assumption
    | with_reducible apply State.closeReport_keeps
    | with_reducible apply State.ledgerTick_keeps
    | with_reducible apply State.balanceDecision_keeps
    | with_reducible apply State.measureShare_keeps
    | split
    | (refine Keeps.foldl (fun _ _ _ => ?_) ?_)
    | (refine Keeps.of_mk ?_ rfl rfl rfl rfl rfl rfl rfl rfl rfl rfl rfl)

theorem State.capacityTick_keeps {z s : State}  (hz : Keeps z s) : Keeps z (State.capacityTick s) := by
  unfold State.capacityTick
  try dsimp only
  repeat' first
    | with_reducible assumption
    | with_reducible apply State.recompute_keeps
    | with_reducible apply State.wakeReq_keeps
    | split
    | (refine Keeps.foldl (fun _ _ _ => ?_) ?_)
    | (refine Keeps.of_mk ?_ rfl rfl rfl rfl rfl rfl rfl rfl rfl rfl rfl)

theorem State.vectorTick_keeps {z s : State}  (hz : Keeps z s) : Keeps z (State.vectorTick s) := by
  unfold State.vectorTick
  try dsimp only
  repeat' first
    | with_reducible assumption
    | with_reducible apply State.raise_keeps
    | split
    | (refine Keeps.foldl (fun _ _ _ => ?_) ?_)
    | (refine Keeps.of_mk ?_ rfl rfl rfl rfl rfl rfl rfl rfl rfl rfl rfl)

theorem State.sampleTick_keeps {z s : State}  (hz : Keeps z s) : Keeps z (State.sampleTick s) := by
  unfold State.sampleTick
  try dsimp only
  repeat' first
    | with_reducible assumption
    | with_reducible apply State.sampleTime_keeps
    | with_reducible apply State.floorWatch_keeps
    | split
    | (refine Keeps.foldl (fun _ _ _ => ?_) ?_)
    | (refine Keeps.of_mk ?_ rfl rfl rfl rfl rfl rfl rfl rfl rfl rfl rfl)

theorem State.fclkTick_keeps {z s : State} {k : Nat} {edges : Option Nat} (hz : Keeps z s) : Keeps z (State.fclkTick s k edges) := by
  unfold State.fclkTick
  try dsimp only
  repeat' first
    | with_reducible assumption
    | split
    | (refine Keeps.foldl (fun _ _ _ => ?_) ?_)
    | (refine Keeps.of_mk ?_ rfl rfl rfl rfl rfl rfl rfl rfl rfl rfl rfl)

theorem State.lasting_keeps {z s : State}  (hz : Keeps z s) : Keeps z (State.lasting s) := by
  unfold State.lasting
  try dsimp only
  repeat' first
    | with_reducible assumption
    | with_reducible apply State.setSticky_keeps
    | split
    | (refine Keeps.foldl (fun _ _ _ => ?_) ?_)
    | (refine Keeps.of_mk ?_ rfl rfl rfl rfl rfl rfl rfl rfl rfl rfl rfl)

theorem State.silentTick_keeps {z s : State}  (hz : Keeps z s) : Keeps z (State.silentTick s) := by
  unfold State.silentTick
  try dsimp only
  repeat' first
    | with_reducible assumption
    | with_reducible apply State.takeover_keeps
    | split
    | (refine Keeps.foldl (fun _ _ _ => ?_) ?_)
    | (refine Keeps.of_mk ?_ rfl rfl rfl rfl rfl rfl rfl rfl rfl rfl rfl)

theorem State.tickOrders_keeps {z s : State} {k : Nat} (hz : Keeps z s) : Keeps z (State.tickOrders s k) := by
  unfold State.tickOrders
  try dsimp only
  repeat' first
    | with_reducible assumption
    | with_reducible apply State.takeEffect_keeps
    | with_reducible apply State.holdForwards_keeps
    | with_reducible apply State.deadlineAct_keeps
    | with_reducible apply State.sweep_keeps
    | with_reducible apply State.openTimeout_keeps
    | with_reducible apply State.cancelledFree_keeps
    | with_reducible apply State.vectorTick_keeps
    | with_reducible apply State.capacityTick_keeps
    | with_reducible apply State.meterTick_keeps
    | with_reducible apply State.forwardTimeouts_keeps
    | split
    | (refine Keeps.foldl (fun _ _ _ => ?_) ?_)
    | (refine Keeps.of_mk ?_ rfl rfl rfl rfl rfl rfl rfl rfl rfl rfl rfl)

theorem State.tickWork_keeps {z s : State} {k : Nat} {edges : Option Nat} {pllLocks : Bool} (hz : Keeps z s) : Keeps z (State.tickWork s k edges pllLocks) := by
  unfold State.tickWork
  try dsimp only
  repeat' first
    | with_reducible assumption
    | with_reducible apply State.sampleTick_keeps
    | with_reducible apply State.tickOrders_keeps
    | with_reducible apply State.fclkTick_keeps
    | with_reducible apply State.sendTime_keeps
    | with_reducible apply State.silentTick_keeps
    | with_reducible apply State.startClock_keeps
    | with_reducible apply State.lasting_keeps
    | with_reducible apply State.diffArea3_keeps
    | with_reducible apply State.undecided_keeps
    | with_reducible apply State.releaseHeld_keeps
    | with_reducible apply State.goDecision_keeps
    | split
    | (refine Keeps.foldl (fun _ _ _ => ?_) ?_)
    | (refine Keeps.of_mk ?_ rfl rfl rfl rfl rfl rfl rfl rfl rfl rfl rfl)

theorem State.onDeadlineReached_keeps {z s1 : State} {slot : Nat} (hz : Keeps z s1) : Keeps z (State.onDeadlineReached s1 slot) := by
  unfold State.onDeadlineReached
  try dsimp only
  repeat' first
    | with_reducible assumption
    | with_reducible apply State.deadlineAct_keeps
    | split
    | (refine Keeps.foldl (fun _ _ _ => ?_) ?_)
    | (refine Keeps.of_mk ?_ rfl rfl rfl rfl rfl rfl rfl rfl rfl rfl rfl)

theorem State.onTtlExpiry_keeps {z s1 : State}  (hz : Keeps z s1) : Keeps z (State.onTtlExpiry s1) := by
  unfold State.onTtlExpiry
  try dsimp only
  repeat' first
    | with_reducible assumption
    | with_reducible apply State.sweep_keeps
    | split
    | (refine Keeps.foldl (fun _ _ _ => ?_) ?_)
    | (refine Keeps.of_mk ?_ rfl rfl rfl rfl rfl rfl rfl rfl rfl rfl rfl)

theorem State.onCancelledFree_keeps {z s1 : State} {slot : Nat} (hz : Keeps z s1) : Keeps z (State.onCancelledFree s1 slot) := by
  unfold State.onCancelledFree
  try dsimp only
  repeat' first
    | with_reducible assumption
    | with_reducible apply State.cancelledFree_keeps
    | split
    | (refine Keeps.foldl (fun _ _ _ => ?_) ?_)
    | (refine Keeps.of_mk ?_ rfl rfl rfl rfl rfl rfl rfl rfl rfl rfl rfl)

theorem State.onOpenTimeout_keeps {z s1 : State} {slot : Nat} (hz : Keeps z s1) : Keeps z (State.onOpenTimeout s1 slot) := by
  unfold State.onOpenTimeout
  try dsimp only
  repeat' first
    | with_reducible assumption
    | with_reducible apply State.openTimeout_keeps
    | split
    | (refine Keeps.foldl (fun _ _ _ => ?_) ?_)
    | (refine Keeps.of_mk ?_ rfl rfl rfl rfl rfl rfl rfl rfl rfl rfl rfl)

theorem State.onForwardTimeout_keeps {z s1 : State}  (hz : Keeps z s1) : Keeps z (State.onForwardTimeout s1) := by
  unfold State.onForwardTimeout
  try dsimp only
  repeat' first
    | with_reducible assumption
    | with_reducible apply State.forwardTimeouts_keeps
    | split
    | (refine Keeps.foldl (fun _ _ _ => ?_) ?_)
    | (refine Keeps.of_mk ?_ rfl rfl rfl rfl rfl rfl rfl rfl rfl rfl rfl)

theorem State.onCommitTakeEffect_keeps {z s1 : State}  (hz : Keeps z s1) : Keeps z (State.onCommitTakeEffect s1) := by
  unfold State.onCommitTakeEffect
  try dsimp only
  repeat' first
    | with_reducible assumption
    | with_reducible apply State.releaseHeld_keeps
    | with_reducible apply State.takeEffect_keeps
    | split
    | (refine Keeps.foldl (fun _ _ _ => ?_) ?_)
    | (refine Keeps.of_mk ?_ rfl rfl rfl rfl rfl rfl rfl rfl rfl rfl rfl)

end Sys2Proof.Machine
end

