-- ==== Sys2Proof/Laws/KeepsRows.lean ====
section
/-! SUPPORT. The row window and scrubs: what each operation keeps, one lemma for each. -/
namespace Sys2Proof.Machine
set_option Elab.async false

theorem State.winStart_keeps {z s : State} {p : Nat} {op : Nat} (hz : Keeps z s) : Keeps z (State.winStart s p op) := by
  unfold State.winStart
  try dsimp only
  repeat' first
    | with_reducible assumption
    | (refine State.setPart_keeps _ _ ?_ (fun i => Keeps.ring ?_ _ i))
    | with_reducible apply State.setPart_keeps
    | split
    | (refine Keeps.foldl (fun _ _ _ => ?_) ?_)
    | (refine Keeps.of_mk ?_ rfl rfl rfl rfl rfl rfl rfl rfl rfl rfl rfl)

theorem State.winEnd_keeps {z s : State} {p : Nat} {st : Nat} {data : List Word} (hz : Keeps z s) : Keeps z (State.winEnd s p st data) := by
  unfold State.winEnd
  try dsimp only
  repeat' first
    | with_reducible assumption
    | (refine State.setPart_keeps _ _ ?_ (fun i => Keeps.ring ?_ _ i))
    | with_reducible apply State.setPart_keeps
    | split
    | (refine Keeps.foldl (fun _ _ _ => ?_) ?_)
    | (refine Keeps.of_mk ?_ rfl rfl rfl rfl rfl rfl rfl rfl rfl rfl rfl)

theorem State.winDone_keeps {z s : State} {p : Nat} {find : WordFind} (hz : Keeps z s) : Keeps z (State.winDone s p find) := by
  unfold State.winDone
  try dsimp only
  repeat' first
    | with_reducible assumption
    | with_reducible apply State.supersede_keeps
    | with_reducible apply State.winEnd_keeps
    | with_reducible apply State.ssmCorrect_keeps
    | with_reducible apply State.ssmUe_keeps
    | with_reducible apply State.trouble_keeps
    | split
    | (refine Keeps.foldl (fun _ _ _ => ?_) ?_)
    | (refine Keeps.mem ?_ Memory.putWords_wf)
    | (refine Keeps.mem ?_ Memory.zeroRows_wf)
    | (refine Keeps.mem ?_ Memory.putRow_wf)
    | (refine Keeps.of_mk ?_ rfl rfl rfl rfl rfl rfl rfl rfl rfl rfl rfl)

theorem State.onPtSsmAccessDone_keeps {z s1 : State} {part : Nat} {find : WordFind} (hz : Keeps z s1) : Keeps z (State.onPtSsmAccessDone s1 part find) := by
  unfold State.onPtSsmAccessDone
  try dsimp only
  repeat' first
    | with_reducible assumption
    | with_reducible apply State.winDone_keeps
    | split
    | (refine Keeps.foldl (fun _ _ _ => ?_) ?_)
    | (refine Keeps.of_mk ?_ rfl rfl rfl rfl rfl rfl rfl rfl rfl rfl rfl)

theorem State.scrubRowAt_keeps {z s : State} {row : Nat} {a2 : Find} (hz : Keeps z s) : Keeps z (State.scrubRowAt s row a2) := by
  unfold State.scrubRowAt
  try dsimp only
  repeat' first
    | with_reducible assumption
    | with_reducible apply State.ssmCorrect_keeps
    | with_reducible apply State.ssmUe_keeps
    | split
    | (refine Keeps.foldl (fun _ _ _ => ?_) ?_)
    | (refine Keeps.of_mk ?_ rfl rfl rfl rfl rfl rfl rfl rfl rfl rfl rfl)

theorem State.scrubRegion_keeps {z s : State} {finds : List BankFind} {r : Nat} (hz : Keeps z s) : Keeps z (State.scrubRegion s finds r) := by
  unfold State.scrubRegion
  try dsimp only
  repeat' first
    | with_reducible assumption
    | with_reducible apply State.scrubRowAt_keeps
    | split
    | (refine Keeps.foldl (fun _ _ _ => ?_) ?_)
    | (refine Keeps.of_mk ?_ rfl rfl rfl rfl rfl rfl rfl rfl rfl rfl rfl)

theorem State.onSsmScrub_keeps {z s1 : State} {finds : List BankFind} (hz : Keeps z s1) : Keeps z (State.onSsmScrub s1 finds) := by
  unfold State.onSsmScrub
  try dsimp only
  repeat' first
    | with_reducible assumption
    | with_reducible apply State.scrubRegion_keeps
    | split
    | (refine Keeps.foldl (fun _ _ _ => ?_) ?_)
    | (refine Keeps.of_mk ?_ rfl rfl rfl rfl rfl rfl rfl rfl rfl rfl rfl)

theorem State.onSsmWriteBack_keeps {z s : State} {row : Nat} (hz : Keeps z s) : Keeps z (State.onSsmWriteBack s row) := by
  unfold State.onSsmWriteBack
  try dsimp only
  repeat' first
    | with_reducible assumption
    | with_reducible apply State.supersede_keeps
    | split
    | (refine Keeps.foldl (fun _ _ _ => ?_) ?_)
    | (refine Keeps.of_mk ?_ rfl rfl rfl rfl rfl rfl rfl rfl rfl rfl rfl)

theorem State.ledgerBad_keeps {z s : State} {t : Nat} (hz : Keeps z s) : Keeps z (State.ledgerBad s t) := by
  unfold State.ledgerBad
  try dsimp only
  repeat' first
    | with_reducible assumption
    | with_reducible apply State.trouble_keeps
    | with_reducible apply State.levelsGone_keeps
    | with_reducible apply State.setLedger_keeps
    | split
    | (refine Keeps.foldl (fun _ _ _ => ?_) ?_)
    | (refine Keeps.of_mk ?_ rfl rfl rfl rfl rfl rfl rfl rfl rfl rfl rfl)

theorem State.ledgerCheck_keeps {z s : State} {t : Nat} {a2 : Find} (hz : Keeps z s) : Keeps z (State.ledgerCheck s t a2) := by
  unfold State.ledgerCheck
  try dsimp only
  repeat' first
    | with_reducible assumption
    | with_reducible apply State.ceLedger_keeps
    | with_reducible apply State.ledgerBad_keeps
    | split
    | (refine Keeps.foldl (fun _ _ _ => ?_) ?_)
    | (refine Keeps.of_mk ?_ rfl rfl rfl rfl rfl rfl rfl rfl rfl rfl rfl)

theorem State.scrubTables_keeps {z s : State} {session : Find} {ledger : Find} (hz : Keeps z s) : Keeps z (State.scrubTables s session ledger) := by
  unfold State.scrubTables
  try dsimp only
  repeat' first
    | with_reducible assumption
    | with_reducible apply State.ledgerCheck_keeps
    | with_reducible apply State.entryCheck_keeps
    | split
    | (refine Keeps.foldl (fun _ _ _ => ?_) ?_)
    | (refine Keeps.of_mk ?_ rfl rfl rfl rfl rfl rfl rfl rfl rfl rfl rfl)

theorem State.scrubRetained_keeps {z s : State} {f : Find} (hz : Keeps z s) : Keeps z (State.scrubRetained s f) := by
  unfold State.scrubRetained
  try dsimp only
  repeat' first
    | with_reducible assumption
    | with_reducible apply State.retainedCheck_keeps
    | split
    | (refine Keeps.foldl (fun _ _ _ => ?_) ?_)
    | (refine Keeps.of_mk ?_ rfl rfl rfl rfl rfl rfl rfl rfl rfl rfl rfl)

theorem State.onTableScrub_keeps {z s : State} {session : Find} {ledger : Find} {retained : Find} (hz : Keeps z s) : Keeps z (State.onTableScrub s session ledger retained) := by
  unfold State.onTableScrub
  try dsimp only
  repeat' first
    | with_reducible assumption
    | with_reducible apply State.scrubRetained_keeps
    | with_reducible apply State.scrubTables_keeps
    | split
    | (refine Keeps.foldl (fun _ _ _ => ?_) ?_)
    | (refine Keeps.of_mk ?_ rfl rfl rfl rfl rfl rfl rfl rfl rfl rfl rfl)

end Sys2Proof.Machine
end

