-- ==== Sys2Proof/Laws/KeepsElapse.lean ====
section
/-! SUPPORT. The time before a command: what each operation keeps, one lemma for each. -/
namespace Sys2Proof.Machine
set_option Elab.async false

theorem State.between_keeps {z s : State}  (hz : Keeps z s) : Keeps z (State.between s) := by
  unfold State.between
  try dsimp only
  repeat' first
    | with_reducible assumption
    | with_reducible apply State.sendAborted_keeps
    | with_reducible apply State.clearParts_keeps
    | with_reducible apply State.sendGo_keeps
    | with_reducible apply State.runClusters_keeps
    | with_reducible apply State.consumeRings_keeps
    | split
    | (refine Keeps.foldl (fun _ _ _ => ?_) ?_)
    | (refine Keeps.of_mk ?_ rfl rfl rfl rfl rfl rfl rfl rfl rfl rfl rfl)

theorem State.runTicks_keeps {z : State} {edges : Option Nat} {pllLocks : Bool} :
    ∀ {f n q : Nat} {s : State}, Keeps z s → Keeps z (State.runTicks edges pllLocks f n q s)
  | 0, _, _, _, hz => State.between_keeps (State.pass_keeps _ _ hz)
  | f + 1, n, q, s, hz => by
    unfold State.runTicks
    dsimp only
    split
    · exact State.between_keeps (State.pass_keeps _ _ hz)
    · exact State.runTicks_keeps (State.tickWork_keeps (State.between_keeps (State.pass_keeps _ _ hz)))

theorem State.passTicks_keeps {z s : State} {edges : Option Nat} {pllLocks : Bool} {n : Nat} {q : Nat} (hz : Keeps z s) : Keeps z (State.passTicks s edges pllLocks n q) := by
  unfold State.passTicks
  try dsimp only
  repeat' first
    | with_reducible assumption
    | with_reducible apply State.runTicks_keeps
    | with_reducible apply State.pass_keeps
    | split
    | (refine Keeps.foldl (fun _ _ _ => ?_) ?_)
    | (refine Keeps.of_mk ?_ rfl rfl rfl rfl rfl rfl rfl rfl rfl rfl rfl)

theorem State.meet_keeps {z s : State} {f : StoreFind} (hz : Keeps z s) : Keeps z (State.meet s f) := by
  unfold State.meet
  try dsimp only
  repeat' first
    | with_reducible assumption
    | with_reducible apply State.retainedCheck_keeps
    | with_reducible apply State.scrubRowAt_keeps
    | with_reducible apply State.entryCheck_keeps
    | with_reducible apply State.ledgerCheck_keeps
    | with_reducible apply State.heldCheck_keeps
    | with_reducible apply State.ceUnit_keeps
    | with_reducible apply State.jobFault_keeps
    | with_reducible apply State.fifoCheck_keeps
    | with_reducible apply State.ceRelq_keeps
    | with_reducible apply State.scrubPage_keeps
    | with_reducible apply State.setDev_keeps
    | split
    | (refine Keeps.foldl (fun _ _ _ => ?_) ?_)
    | (refine Keeps.of_mk ?_ rfl rfl rfl rfl rfl rfl rfl rfl rfl rfl rfl)

theorem State.meetAll_keeps {z s : State} {fs : List StoreFind} (hz : Keeps z s) : Keeps z (State.meetAll s fs) := by
  unfold State.meetAll
  try dsimp only
  repeat' first
    | with_reducible assumption
    | with_reducible apply State.meet_keeps
    | split
    | (refine Keeps.foldl (fun _ _ _ => ?_) ?_)
    | (refine Keeps.of_mk ?_ rfl rfl rfl rfl rfl rfl rfl rfl rfl rfl rfl)

theorem State.elapseWith_keeps {z s0 : State} {edges : Option Nat} {pllLocks : Bool} {m : Moment} (hz : Keeps z s0) : Keeps z (State.elapseWith s0 edges pllLocks m) := by
  unfold State.elapseWith
  try dsimp only
  repeat' first
    | with_reducible assumption
    | with_reducible apply State.diffArea3_keeps
    | with_reducible apply State.passTicks_keeps
    | with_reducible apply State.measurePps_keeps
    | with_reducible apply State.meetAll_keeps
    | split
    | (refine Keeps.foldl (fun _ _ _ => ?_) ?_)
    | (refine Keeps.of_mk ?_ rfl rfl rfl rfl rfl rfl rfl rfl rfl rfl rfl)

theorem State.elapse_keeps {z s : State} {m : Moment} (hz : Keeps z s) : Keeps z (State.elapse s m) := by
  unfold State.elapse
  try dsimp only
  repeat' first
    | with_reducible assumption
    | with_reducible apply State.elapseWith_keeps
    | split
    | (refine Keeps.foldl (fun _ _ _ => ?_) ?_)
    | (refine Keeps.of_mk ?_ rfl rfl rfl rfl rfl rfl rfl rfl rfl rfl rfl)

theorem State.settled_keeps {z s : State} {act : State → State} (hz : Keeps z s) : Keeps z (s.settled act) := by
  unfold State.settled
  dsimp only
  split
  · exact hz
  · exact State.tickWork_keeps hz

theorem State.stepping_keeps {z s : State} {act : State → State} (hz : Keeps z s) (hact : ∀ x0, Keeps z x0 → Keeps z (act x0)) : Keeps z (State.stepping s act) := by
  unfold State.stepping
  try dsimp only
  repeat' first
    | with_reducible assumption
    | with_reducible apply State.settled_keeps
    | (refine hact _ ?_)
    | split
    | (refine Keeps.foldl (fun _ _ _ => ?_) ?_)
    | intro _
    | (refine Keeps.of_mk ?_ rfl rfl rfl rfl rfl rfl rfl rfl rfl rfl rfl)

end Sys2Proof.Machine
end

