-- ==== Sys2Proof/Laws/KeepsRegisters.lean ====
section
/-! SUPPORT. The registers: what each operation keeps, one lemma for each. -/
namespace Sys2Proof.Machine
set_option Elab.async false

theorem State.countDenied_keeps {z s : State}  (hz : Keeps z s) : Keeps z (State.countDenied s) := by
  unfold State.countDenied
  try dsimp only
  repeat' first
    | with_reducible assumption
    | split
    | (refine Keeps.foldl (fun _ _ _ => ?_) ?_)
    | (refine Keeps.of_mk ?_ rfl rfl rfl rfl rfl rfl rfl rfl rfl rfl rfl)

theorem State.countMisformed_keeps {z s : State}  (hz : Keeps z s) : Keeps z (State.countMisformed s) := by
  unfold State.countMisformed
  try dsimp only
  repeat' first
    | with_reducible assumption
    | split
    | (refine Keeps.foldl (fun _ _ _ => ?_) ?_)
    | (refine Keeps.of_mk ?_ rfl rfl rfl rfl rfl rfl rfl rfl rfl rfl rfl)

theorem State.countBlocked_keeps {z s : State}  (hz : Keeps z s) : Keeps z (State.countBlocked s) := by
  unfold State.countBlocked
  try dsimp only
  repeat' first
    | with_reducible assumption
    | split
    | (refine Keeps.foldl (fun _ _ _ => ?_) ?_)
    | (refine Keeps.of_mk ?_ rfl rfl rfl rfl rfl rfl rfl rfl rfl rfl rfl)

theorem State.regReply_keeps {z s : State} {b : RegBeat} {v : Word} (hz : Keeps z s) : Keeps z (State.regReply s b v) := by
  unfold State.regReply
  try dsimp only
  repeat' first
    | with_reducible assumption
    | with_reducible apply State.putOut_keeps
    | split
    | (refine Keeps.foldl (fun _ _ _ => ?_) ?_)
    | (refine Keeps.of_mk ?_ rfl rfl rfl rfl rfl rfl rfl rfl rfl rfl rfl)

theorem State.setFifo_keeps {z s : State} {k : Nat} {f : SlotFifo} (hz : Keeps z s) : Keeps z (State.setFifo s k f) := by
  unfold State.setFifo
  try dsimp only
  repeat' first
    | with_reducible assumption
    | with_reducible apply State.setLane_keeps
    | split
    | (refine Keeps.foldl (fun _ _ _ => ?_) ?_)
    | (refine Keeps.of_mk ?_ rfl rfl rfl rfl rfl rfl rfl rfl rfl rfl rfl)

theorem State.writeRing_keeps {z s : State} {v : Word} (hz : Keeps z s) : Keeps z (State.writeRing s v) := by
  unfold State.writeRing
  try dsimp only
  repeat' first
    | with_reducible assumption
    | with_reducible apply State.countBlocked_keeps
    | split
    | (refine Keeps.foldl (fun _ _ _ => ?_) ?_)
    | (refine Keeps.of_mk ?_ rfl rfl rfl rfl rfl rfl rfl rfl rfl rfl rfl)

theorem State.writeReg_keeps {z s : State} {r : Reg} {v : Word} (hz : Keeps z s) : Keeps z (State.writeReg s r v) := by
  unfold State.writeReg
  try dsimp only
  repeat' first
    | with_reducible assumption
    | with_reducible apply State.countBlocked_keeps
    | with_reducible apply State.clearSticky_keeps
    | with_reducible apply State.setFifo_keeps
    | with_reducible apply State.setLane_keeps
    | with_reducible apply State.writeRing_keeps
    | split
    | (refine Keeps.foldl (fun _ _ _ => ?_) ?_)
    | (refine Keeps.of_mk ?_ rfl rfl rfl rfl rfl rfl rfl rfl rfl rfl rfl)

theorem State.writeMgmt_keeps {z s : State} {a : Nat} {v : Word} (hz : Keeps z s) : Keeps z (State.writeMgmt s a v) := by
  unfold State.writeMgmt
  try dsimp only
  repeat' first
    | with_reducible assumption
    | with_reducible apply State.regReserved_keeps
    | with_reducible apply State.writeReg_keeps
    | split
    | (refine Keeps.foldl (fun _ _ _ => ?_) ?_)
    | (refine Keeps.of_mk ?_ rfl rfl rfl rfl rfl rfl rfl rfl rfl rfl rfl)

theorem State.writeInt_keeps {z s : State} {p : Nat} {v : Word} (hz : Keeps z s) : Keeps z (State.writeInt s p v) := by
  unfold State.writeInt
  try dsimp only
  repeat' first
    | with_reducible assumption
    | with_reducible apply State.setIntEn_keeps
    | with_reducible apply State.clearPend_keeps
    | split
    | (refine Keeps.foldl (fun _ _ _ => ?_) ?_)
    | (refine Keeps.of_mk ?_ rfl rfl rfl rfl rfl rfl rfl rfl rfl rfl rfl)

theorem State.writePReg_keeps {z s : State} {p : Nat} {r : PReg} {v : Word} (hz : Keeps z s) : Keeps z (State.writePReg s p r v) := by
  unfold State.writePReg
  try dsimp only
  repeat' first
    | with_reducible assumption
    | (refine State.setPart_keeps _ _ ?_ (fun i => Keeps.ring ?_ _ i))
    | with_reducible apply State.setPart_keeps
    | with_reducible apply State.writeInt_keeps
    | with_reducible apply State.countBlocked_keeps
    | with_reducible apply State.winStart_keeps
    | split
    | (refine Keeps.foldl (fun _ _ _ => ?_) ?_)
    | (refine Keeps.of_mk ?_ rfl rfl rfl rfl rfl rfl rfl rfl rfl rfl rfl)

theorem State.writePart_keeps {z s : State} {p : Nat} {a : Nat} {v : Word} (hz : Keeps z s) : Keeps z (State.writePart s p a v) := by
  unfold State.writePart
  try dsimp only
  repeat' first
    | with_reducible assumption
    | with_reducible apply State.regReserved_keeps
    | with_reducible apply State.writePReg_keeps
    | split
    | (refine Keeps.foldl (fun _ _ _ => ?_) ?_)
    | (refine Keeps.of_mk ?_ rfl rfl rfl rfl rfl rfl rfl rfl rfl rfl rfl)

theorem State.bkupCheck_keeps {z s : State} {a : Nat} {f : Find} (hz : Keeps z s) : Keeps z (State.bkupCheck s a f) := by
  unfold State.bkupCheck
  try dsimp only
  repeat' first
    | with_reducible assumption
    | with_reducible apply State.ceRetained_keeps
    | with_reducible apply State.writeReg_keeps
    | with_reducible apply State.trouble_keeps
    | split
    | (refine Keeps.foldl (fun _ _ _ => ?_) ?_)
    | (refine Keeps.of_mk ?_ rfl rfl rfl rfl rfl rfl rfl rfl rfl rfl rfl)

theorem State.accessReg_keeps {z s : State} {b : RegBeat} (hz : Keeps z s) : Keeps z (State.accessReg s b) := by
  unfold State.accessReg
  try dsimp only
  repeat' first
    | with_reducible assumption
    | with_reducible apply State.writeMgmt_keeps
    | with_reducible apply State.bkupCheck_keeps
    | with_reducible apply State.regReply_keeps
    | with_reducible apply State.writePart_keeps
    | split
    | (refine Keeps.foldl (fun _ _ _ => ?_) ?_)
    | (refine Keeps.of_mk ?_ rfl rfl rfl rfl rfl rfl rfl rfl rfl rfl rfl)

theorem State.regAccess_keeps {z s : State} {b : RegBeat} (hz : Keeps z s) : Keeps z (State.regAccess s b) := by
  unfold State.regAccess
  try dsimp only
  repeat' first
    | with_reducible assumption
    | with_reducible apply State.countMisformed_keeps
    | with_reducible apply State.regReply_keeps
    | with_reducible apply State.countDenied_keeps
    | with_reducible apply State.accessReg_keeps
    | split
    | (refine Keeps.foldl (fun _ _ _ => ?_) ?_)
    | (refine Keeps.of_mk ?_ rfl rfl rfl rfl rfl rfl rfl rfl rfl rfl rfl)

theorem State.rowAccess_keeps {z s : State} {r : RegRow} {b : RegBeat} (hz : Keeps z s) : Keeps z (State.rowAccess s r b) := by
  unfold State.rowAccess
  try dsimp only
  repeat' first
    | with_reducible assumption
    | with_reducible apply State.regAccess_keeps
    | split
    | (refine Keeps.foldl (fun _ _ _ => ?_) ?_)
    | (refine Keeps.of_mk ?_ rfl rfl rfl rfl rfl rfl rfl rfl rfl rfl rfl)

theorem State.onRegisterWrite_keeps {z s : State} {beat : RegBeat} (hz : Keeps z s) : Keeps z (State.onRegisterWrite s beat) := by
  unfold State.onRegisterWrite
  try dsimp only
  repeat' first
    | with_reducible assumption
    | with_reducible apply State.rowAccess_keeps
    | split
    | (refine Keeps.foldl (fun _ _ _ => ?_) ?_)
    | (refine Keeps.of_mk ?_ rfl rfl rfl rfl rfl rfl rfl rfl rfl rfl rfl)

theorem State.onTmNowRead_keeps {z s : State} {beat : RegBeat} (hz : Keeps z s) : Keeps z (State.onTmNowRead s beat) := by
  unfold State.onTmNowRead
  try dsimp only
  repeat' first
    | with_reducible assumption
    | with_reducible apply State.rowAccess_keeps
    | split
    | (refine Keeps.foldl (fun _ _ _ => ?_) ?_)
    | (refine Keeps.of_mk ?_ rfl rfl rfl rfl rfl rfl rfl rfl rfl rfl rfl)

theorem State.onPtSsmRead_keeps {z s : State} {beat : RegBeat} (hz : Keeps z s) : Keeps z (State.onPtSsmRead s beat) := by
  unfold State.onPtSsmRead
  try dsimp only
  repeat' first
    | with_reducible assumption
    | with_reducible apply State.rowAccess_keeps
    | split
    | (refine Keeps.foldl (fun _ _ _ => ?_) ?_)
    | (refine Keeps.of_mk ?_ rfl rfl rfl rfl rfl rfl rfl rfl rfl rfl rfl)

theorem State.onPtSsmWrite_keeps {z s : State} {beat : RegBeat} (hz : Keeps z s) : Keeps z (State.onPtSsmWrite s beat) := by
  unfold State.onPtSsmWrite
  try dsimp only
  repeat' first
    | with_reducible assumption
    | with_reducible apply State.rowAccess_keeps
    | split
    | (refine Keeps.foldl (fun _ _ _ => ?_) ?_)
    | (refine Keeps.of_mk ?_ rfl rfl rfl rfl rfl rfl rfl rfl rfl rfl rfl)

theorem State.onPtIntWrite_keeps {z s : State} {beat : RegBeat} (hz : Keeps z s) : Keeps z (State.onPtIntWrite s beat) := by
  unfold State.onPtIntWrite
  try dsimp only
  repeat' first
    | with_reducible assumption
    | with_reducible apply State.rowAccess_keeps
    | split
    | (refine Keeps.foldl (fun _ _ _ => ?_) ?_)
    | (refine Keeps.of_mk ?_ rfl rfl rfl rfl rfl rfl rfl rfl rfl rfl rfl)

theorem State.onTrbStickyWrite_keeps {z s : State} {beat : RegBeat} (hz : Keeps z s) : Keeps z (State.onTrbStickyWrite s beat) := by
  unfold State.onTrbStickyWrite
  try dsimp only
  repeat' first
    | with_reducible assumption
    | with_reducible apply State.rowAccess_keeps
    | split
    | (refine Keeps.foldl (fun _ _ _ => ?_) ?_)
    | (refine Keeps.of_mk ?_ rfl rfl rfl rfl rfl rfl rfl rfl rfl rfl rfl)

end Sys2Proof.Machine
end

