-- ==== Sys2Proof/Laws/KeepsPorts.lean ====
section
/-! SUPPORT. The service ports: what each operation keeps, one lemma for each. -/
namespace Sys2Proof.Machine
set_option Elab.async false

theorem State.stats_keeps {z s : State} {i : Issuer} {w : Word} (hz : Keeps z s) : Keeps z (State.stats s i w) := by
  unfold State.stats
  try dsimp only
  repeat' first
    | with_reducible assumption
    | with_reducible apply State.reply_keeps
    | split
    | (refine Keeps.foldl (fun _ _ _ => ?_) ?_)
    | (refine Keeps.of_mk ?_ rfl rfl rfl rfl rfl rfl rfl rfl rfl rfl rfl)

theorem State.onStatsRead_keeps {z s : State}  (hz : Keeps z s) : Keeps z (State.onStatsRead s) := by
  unfold State.onStatsRead
  try dsimp only
  repeat' first
    | with_reducible assumption
    | with_reducible apply State.runCmd_keeps
    | with_reducible apply State.stats_keeps
    | split
    | (refine Keeps.foldl (fun _ _ _ => ?_) ?_)
    | intro _
    | (refine Keeps.of_mk ?_ rfl rfl rfl rfl rfl rfl rfl rfl rfl rfl rfl)

theorem State.onTroubleRead_keeps {z s : State}  (hz : Keeps z s) : Keeps z (State.onTroubleRead s) := by
  unfold State.onTroubleRead
  try dsimp only
  repeat' first
    | with_reducible assumption
    | with_reducible apply State.runCmd_keeps
    | with_reducible apply State.reply_keeps
    | split
    | (refine Keeps.foldl (fun _ _ _ => ?_) ?_)
    | intro _
    | (refine Keeps.of_mk ?_ rfl rfl rfl rfl rfl rfl rfl rfl rfl rfl rfl)

theorem State.onTroubleClear_keeps {z s : State}  (hz : Keeps z s) : Keeps z (State.onTroubleClear s) := by
  unfold State.onTroubleClear
  try dsimp only
  repeat' first
    | with_reducible assumption
    | with_reducible apply State.runCmd_keeps
    | with_reducible apply State.answer_keeps
    | with_reducible apply State.clearSticky_keeps
    | split
    | (refine Keeps.foldl (fun _ _ _ => ?_) ?_)
    | intro _
    | (refine Keeps.of_mk ?_ rfl rfl rfl rfl rfl rfl rfl rfl rfl rfl rfl)

theorem State.onAgeReport_keeps {z s : State}  (hz : Keeps z s) : Keeps z (State.onAgeReport s) := by
  unfold State.onAgeReport
  try dsimp only
  repeat' first
    | with_reducible assumption
    | with_reducible apply State.runCmd_keeps
    | with_reducible apply State.reply_keeps
    | split
    | (refine Keeps.foldl (fun _ _ _ => ?_) ?_)
    | intro _
    | (refine Keeps.of_mk ?_ rfl rfl rfl rfl rfl rfl rfl rfl rfl rfl rfl)

theorem State.onInterruptMessageSend_keeps {z s1 : State}  (hz : Keeps z s1) : Keeps z (State.onInterruptMessageSend s1) := by
  unfold State.onInterruptMessageSend
  try dsimp only
  repeat' first
    | with_reducible assumption
    | with_reducible apply State.putOut_keeps
    | split
    | (refine Keeps.foldl (fun _ _ _ => ?_) ?_)
    | (refine Keeps.of_mk ?_ rfl rfl rfl rfl rfl rfl rfl rfl rfl rfl rfl)

theorem State.smpShift_keeps {z s : State} {ws : List Word} (hz : Keeps z s) : Keeps z (State.smpShift s ws) := by
  unfold State.smpShift
  try dsimp only
  repeat' first
    | with_reducible assumption
    | split
    | (refine Keeps.foldl (fun _ _ _ => ?_) ?_)
    | (refine Keeps.of_mk ?_ rfl rfl rfl rfl rfl rfl rfl rfl rfl rfl rfl)

theorem State.smpDiscard_keeps {z s : State}  (hz : Keeps z s) : Keeps z (State.smpDiscard s) := by
  unfold State.smpDiscard
  try dsimp only
  repeat' first
    | with_reducible assumption
    | with_reducible apply State.badPacket_keeps
    | split
    | (refine Keeps.foldl (fun _ _ _ => ?_) ?_)
    | (refine Keeps.of_mk ?_ rfl rfl rfl rfl rfl rfl rfl rfl rfl rfl rfl)

theorem State.smpTake_keeps {z s : State} {w : Word} {f : Find} (hz : Keeps z s) : Keeps z (State.smpTake s w f) := by
  unfold State.smpTake
  try dsimp only
  repeat' first
    | with_reducible assumption
    | with_reducible apply State.ceCommand_keeps
    | with_reducible apply State.badPacket_keeps
    | with_reducible apply State.arriveSmp_keeps
    | split
    | (refine Keeps.foldl (fun _ _ _ => ?_) ?_)
    | (refine Keeps.of_mk ?_ rfl rfl rfl rfl rfl rfl rfl rfl rfl rfl rfl)

theorem State.smpWrite_keeps {z s : State} {f : SmpFrame} (hz : Keeps z s) : Keeps z (State.smpWrite s f) := by
  unfold State.smpWrite
  try dsimp only
  repeat' first
    | with_reducible assumption
    | with_reducible apply State.smpTake_keeps
    | split
    | (refine Keeps.foldl (fun _ _ _ => ?_) ?_)
    | (refine Keeps.of_mk ?_ rfl rfl rfl rfl rfl rfl rfl rfl rfl rfl rfl)

theorem State.onSmpWrite_keeps {z s1 : State} {frame : SmpFrame} (hz : Keeps z s1) : Keeps z (State.onSmpWrite s1 frame) := by
  unfold State.onSmpWrite
  try dsimp only
  repeat' first
    | with_reducible assumption
    | with_reducible apply State.smpShift_keeps
    | with_reducible apply State.smpDiscard_keeps
    | with_reducible apply State.smpWrite_keeps
    | split
    | (refine Keeps.foldl (fun _ _ _ => ?_) ?_)
    | (refine Keeps.of_mk ?_ rfl rfl rfl rfl rfl rfl rfl rfl rfl rfl rfl)

theorem State.onSmpRead_keeps {z s1 : State} {frame : SmpFrame} (hz : Keeps z s1) : Keeps z (State.onSmpRead s1 frame) := by
  unfold State.onSmpRead
  try dsimp only
  repeat' first
    | with_reducible assumption
    | with_reducible apply State.smpShift_keeps
    | split
    | (refine Keeps.foldl (fun _ _ _ => ?_) ?_)
    | (refine Keeps.of_mk ?_ rfl rfl rfl rfl rfl rfl rfl rfl rfl rfl rfl)

theorem State.onSmpStatus_keeps {z s1 : State} {frame : SmpFrame} (hz : Keeps z s1) : Keeps z (State.onSmpStatus s1 frame) := by
  unfold State.onSmpStatus
  try dsimp only
  repeat' first
    | with_reducible assumption
    | with_reducible apply State.smpShift_keeps
    | split
    | (refine Keeps.foldl (fun _ _ _ => ?_) ?_)
    | (refine Keeps.of_mk ?_ rfl rfl rfl rfl rfl rfl rfl rfl rfl rfl rfl)

theorem State.updateIr_keeps {z s : State} {ir : BitVec 8} {lockable : Bool} (hz : Keeps z s) : Keeps z (State.updateIr s ir lockable) := by
  unfold State.updateIr
  try dsimp only
  repeat' first
    | with_reducible assumption
    | split
    | (refine Keeps.foldl (fun _ _ _ => ?_) ?_)
    | (refine Keeps.of_mk ?_ rfl rfl rfl rfl rfl rfl rfl rfl rfl rfl rfl)

theorem State.onExtest_keeps {z s : State}  (hz : Keeps z s) : Keeps z (State.onExtest s) := by
  unfold State.onExtest
  try dsimp only
  repeat' first
    | with_reducible assumption
    | with_reducible apply State.updateIr_keeps
    | split
    | (refine Keeps.foldl (fun _ _ _ => ?_) ?_)
    | (refine Keeps.of_mk ?_ rfl rfl rfl rfl rfl rfl rfl rfl rfl rfl rfl)

theorem State.onSamplePreload_keeps {z s : State} {bits : List Bool} (hz : Keeps z s) : Keeps z (State.onSamplePreload s bits) := by
  unfold State.onSamplePreload
  try dsimp only
  repeat' first
    | with_reducible assumption
    | with_reducible apply State.updateIr_keeps
    | split
    | (refine Keeps.foldl (fun _ _ _ => ?_) ?_)
    | (refine Keeps.of_mk ?_ rfl rfl rfl rfl rfl rfl rfl rfl rfl rfl rfl)

theorem State.onInstr_keeps {z s : State}  (hz : Keeps z s) : Keeps z (State.onInstr s) := by
  unfold State.onInstr
  try dsimp only
  repeat' first
    | with_reducible assumption
    | with_reducible apply State.updateIr_keeps
    | split
    | (refine Keeps.foldl (fun _ _ _ => ?_) ?_)
    | (refine Keeps.of_mk ?_ rfl rfl rfl rfl rfl rfl rfl rfl rfl rfl rfl)

theorem State.onBypass_keeps {z s1 : State} {encoding : BitVec 8} (hz : Keeps z s1) : Keeps z (State.onBypass s1 encoding) := by
  unfold State.onBypass
  try dsimp only
  repeat' first
    | with_reducible assumption
    | split
    | (refine Keeps.foldl (fun _ _ _ => ?_) ?_)
    | (refine Keeps.of_mk ?_ rfl rfl rfl rfl rfl rfl rfl rfl rfl rfl rfl)

theorem State.onTrstN_keeps {z s1 : State}  (hz : Keeps z s1) : Keeps z (State.onTrstN s1) := by
  unfold State.onTrstN
  try dsimp only
  repeat' first
    | with_reducible assumption
    | split
    | (refine Keeps.foldl (fun _ _ _ => ?_) ?_)
    | (refine Keeps.of_mk ?_ rfl rfl rfl rfl rfl rfl rfl rfl rfl rfl rfl)

end Sys2Proof.Machine
end

