-- ==== Sys2Proof/WellFormed.lean ====
section
/-! DEFINITION. What a command is well formed by: every operand within the range its signal or field has in the spec. -/
namespace Sys2Proof

/-- The places that the finds of a moment's reads name exist (R67, R92, R278, R298, R300, R323, R427). -/
def StoreFind.ok : StoreFind → Bool
  | .row a _ => decide (a < 2 ^ 21)
  | .entry slot f => decide (slot < 8192) && decide (f.index < 16)
  | .ledger t _ => decide (t < 16384)
  | .retained f => decide (f.index < 8192)
  | .unit slot _ => decide (slot < 8192)
  | .unitImage _ => true
  | .fifo _ lane _ => decide (lane < 4)
  | .release lane _ => decide (lane < 4)
  | .page f => decide (f.page < 16) && decide (f.extent < 2 ^ 26)
  | .onDie d => decide (d < 20)

/-- The interpolator's quarters of a nanosecond within a 40 ns REFCLK period (R371), and the finds. -/
def Moment.ok (m : Moment) : Bool := decide (m.quarters < 160) && m.finds.all StoreFind.ok

/-- A packet is its header and up to 2^17 payload words: a beat or more (R346, R349). -/
def packetOk (words : List Word) : Bool := decide (0 < words.length)

/-- HRP carries a 6-bit partition sideband (R349). -/
def Via.ok : Via → Bool
  | .hrp p => decide (p < 64)
  | .smp => true

/-- A beat's partition sideband has six bits (R489). -/
def RegBeat.ok (b : RegBeat) : Bool := decide (b.part < 64)

/-- A message arrives on one of four links (R388). -/
def RxMsg.ok (m : RxMsg) : Bool := decide (m.link < 4)

/-- The word an item's check names is one of its eight (R454). -/
def WordFind.ok (n : Nat) (f : WordFind) : Bool := decide (f.index < n)

/-- Ageing codes are eight bits each, one from each of 64 monitors (R447). -/
def codesOk (codes : List Nat) (spine : Nat) : Bool :=
  decide (codes.length ≤ 8) && codes.all (fun c => decide (c < 256)) && decide (spine < 256)

/-- A row address of the full grade (R278). -/
def rowOk (row : Nat) : Bool := decide (row < 2 ^ 21)

/-- The rows an item's checks name lie in the memory (R278). -/
def ItemFind.ok : ItemFind → Bool
  | .ssmCorrected row => rowOk row
  | .ssmBad row => rowOk row
  | _ => true

/-- A session slot (R92). -/
def slotOk (slot : Nat) : Bool := decide (slot < 8192)

/-- The command's operands lie within their ranges. -/
def Instr.wellFormed : Instr → Bool
  | .commandPacketArrival m via words _ _ => m.ok && via.ok && packetOk words
  | .sessionQuery m find => m.ok && find.ok 16
  | .tierScrubDone m finds => m.ok && finds.all (fun f => decide (f.page < 16) && decide (f.extent < 2 ^ 22))
  | .partitionResetDone m part => m.ok && decide (part < 64)
  | .registerWrite m beat => m.ok && beat.ok
  | .tmNowRead m beat => m.ok && beat.ok
  | .ptSsmRead m beat => m.ok && beat.ok
  | .ptSsmWrite m beat => m.ok && beat.ok
  | .ptSsmAccessDone m part find => m.ok && decide (part < 64) && find.ok 8
  | .ptIntWrite m beat => m.ok && beat.ok
  | .trbStickyWrite m beat => m.ok && beat.ok
  | .tokenIntake m part _ _ entry => m.ok && decide (part < 64) && entry.ok 16
  | .draftIntake m part _ _ => m.ok && decide (part < 64)
  | .fspIngressSlot m lane _ _ taken _ stalls => m.ok && decide (lane < 4) && decide (taken < 8) && decide (stalls < 8)
  | .winteringDone m lane _ => m.ok && decide (lane < 4)
  | .fspEgressSlot m lane _ _ stalls => m.ok && decide (lane < 4) && decide (stalls < 8)
  | .pkeTierRead m lane _ _ => m.ok && decide (lane < 4)
  | .screeningItemStart m region find => m.ok && decide (region < 4) && find.ok
  | .screeningItemDone m cluster find => m.ok && decide (cluster < 8) && find.ok
  | .queueOver m slot => m.ok && slotOk slot
  | .tokenRelease m slot _ => m.ok && slotOk slot
  | .tIn m slot => m.ok && slotOk slot
  | .slippedNotice m slot => m.ok && slotOk slot
  | .grpTxSlot m link => m.ok && decide (link < 4)
  | .ringForward m msg => m.ok && msg.ok
  | .item m msg => m.ok && msg.ok
  | .openMsg m msg => m.ok && msg.ok
  | .openReply m msg => m.ok && msg.ok
  | .stepMsg m msg => m.ok && msg.ok
  | .resolve m msg => m.ok && msg.ok
  | .streamEnd m msg => m.ok && msg.ok
  | .close m msg => m.ok && msg.ok
  | .cancel m msg => m.ok && msg.ok
  | .cmd m msg => m.ok && msg.ok
  | .cmdReply m msg => m.ok && msg.ok
  | .time m msg => m.ok && msg.ok
  | .balance m msg => m.ok && msg.ok
  | .prepare m msg => m.ok && msg.ok
  | .ack m msg => m.ok && msg.ok
  | .go m msg => m.ok && msg.ok
  | .abort m msg => m.ok && msg.ok
  | .mirror m msg => m.ok && msg.ok
  | .pair m msg => m.ok && msg.ok
  | .restart m msg => m.ok && msg.ok
  | .linkLockLoss m link => m.ok && decide (link < 4)
  | .deadlineReached m slot => m.ok && slotOk slot
  | .cancelledFree m slot => m.ok && slotOk slot
  | .openTimeout m slot => m.ok && slotOk slot
  | .ageingMeasurement m codes spine => m.ok && codesOk codes spine
  | .pwrSettleDone m codes spine => m.ok && codesOk codes spine
  | .clusterWakeDone m cluster => m.ok && decide (cluster < 8)
  | .clusterWakeTimeout m cluster _ => m.ok && decide (cluster < 8)
  | .clusterIdleStop m cluster => m.ok && decide (cluster < 8)
  | .tierDeviceSelfref m device => m.ok && decide (device < 20)
  | .ssmScrub m finds => m.ok && finds.all (fun f => decide (f.region < 4) && decide (f.bank < 16))
  | .ssmWriteBack m row => m.ok && rowOk row
  | .tierTrainingDone m results => m.ok && decide (results.length ≤ 20) && results.all (fun t => decide (t.values.length ≤ 96))
  | .slotStartMissed m _ lane => m.ok && decide (lane < 4)
  | .blockHashDone m slot => m.ok && slotOk slot
  | .nop m => m.ok
  | .identify m => m.ok
  | .capsRead m => m.ok
  | .sessionOpen m => m.ok
  | .sessionFeed m => m.ok
  | .sessionClose m => m.ok
  | .sessionCancel m => m.ok
  | .sessionPark m => m.ok
  | .sessionResume m => m.ok
  | .stopSet m => m.ok
  | .draftResolve m => m.ok
  | .tenantSet m => m.ok
  | .budgetGrant m => m.ok
  | .budgetRead m => m.ok
  | .prefixPublish m => m.ok
  | .prefixDrop m => m.ok
  | .adapterLoad m => m.ok
  | .tierScrub m => m.ok
  | .tierStatus m => m.ok
  | .imageLoadBegin m => m.ok
  | .imageLoadData m => m.ok
  | .imageLoadEnd m => m.ok
  | .imageCommit m => m.ok
  | .imageQuery m => m.ok
  | .modePrepare m => m.ok
  | .modeCommit m => m.ok
  | .modeAbort m => m.ok
  | .schedulePin m => m.ok
  | .timeSet m => m.ok
  | .timeAdjust m => m.ok
  | .timeQuery m => m.ok
  | .partitionConfig m => m.ok
  | .partitionReset m => m.ok
  | .regionReset m => m.ok
  | .gateReset m => m.ok
  | .jobRestart m => m.ok
  | .pairTwin m => m.ok
  | .unpairTwin m => m.ok
  | .statsRead m => m.ok
  | .troubleRead m => m.ok
  | .troubleClear m => m.ok
  | .ageReport m => m.ok
  | .smpWrite m _ => m.ok
  | .smpRead m _ => m.ok
  | .smpStatus m _ => m.ok
  | .hrpErr m => m.ok
  | .interruptMessageSend m => m.ok
  | .mirrorEnqueue m => m.ok
  | .twinCopyDone m => m.ok
  | .fspClockLoss m => m.ok
  | .solsticeTick m _ _ => m.ok
  | .ttlExpiry m => m.ok
  | .forwardTimeout m => m.ok
  | .commitGoDecision m => m.ok
  | .commitUndecided m => m.ok
  | .commitTakeEffect m => m.ok
  | .imageRetire m => m.ok
  | .twinTakeover m => m.ok
  | .measurementLoss m => m.ok
  | .ppsEdge m => m.ok
  | .trefMeasurement m _ => m.ok
  | .throttleAssert m => m.ok
  | .throttleDeassert m => m.ok
  | .gclkStep m => m.ok
  | .throttleFloorViolation m => m.ok
  | .sleepEntry m => m.ok
  | .sleepExit m _ => m.ok
  | .tableScrub m _ _ _ => m.ok
  | .powerOn m _ _ => m.ok
  | .porstN m _ _ => m.ok
  | .sysrstN m _ _ => m.ok
  | .cmiWatchdog m => m.ok
  | .resetRelease m _ find => m.ok && find.ok 8192
  | .rstOutRelease m => m.ok
  | .extest m => m.ok
  | .samplePreload m _ => m.ok
  | .instr m => m.ok
  | .bypass m _ => m.ok
  | .trstN m => m.ok

end Sys2Proof
end

