-- ==== Sys2Proof/Tests/Slice0.lean ====
section
/-! SUPPORT. Tests: a term that each check of WellFormed refuses, worked examples of the spec, single commands, and states that meet
the hypotheses of the statements. -/
namespace Sys2Proof.Tests
open Sys2Proof Sys2Proof.Machine
set_option Elab.async false

/-- No time passes. -/
def now : Moment := { edges := 0, quarters := 0 }
/-- A time no REFCLK period holds. -/
def far : Moment := { edges := 0, quarters := 160 }
/-- An item of zeros with a header. -/
def item (w : Word) : Item := { w0 := w, w1 := 0, w2 := 0, w3 := 0, w4 := 0, w5 := 0, w6 := 0, w7 := 0 }
/-- A message on a link the gate has not. -/
def badMsg : RxMsg := { link := 4, item := item 0, find := .clean }
/-- A beat with a sideband of seven bits. -/
def badBeat : RegBeat := { part := 64, w0 := 0, w1 := 0, find := .clean }

-- Each check of WellFormed refuses a term.
theorem test_wf_moment : (Instr.nop far).wellFormed = false := by decide
theorem test_wf_empty_packet : (Instr.commandPacketArrival now .smp [] .clean true).wellFormed = false := by decide
theorem test_wf_sideband : (Instr.commandPacketArrival now (.hrp 64) [0] .clean true).wellFormed = false := by decide
theorem test_wf_beat : (Instr.registerWrite now badBeat).wellFormed = false ∧ (Instr.tmNowRead now badBeat).wellFormed = false ∧
    (Instr.ptSsmRead now badBeat).wellFormed = false ∧ (Instr.ptSsmWrite now badBeat).wellFormed = false ∧
    (Instr.ptIntWrite now badBeat).wellFormed = false ∧ (Instr.trbStickyWrite now badBeat).wellFormed = false := by decide
theorem test_wf_entry_word : (Instr.sessionQuery now ⟨.clean, 16⟩).wellFormed = false := by decide
theorem test_wf_row_word : (Instr.ptSsmAccessDone now 0 ⟨.clean, 8⟩).wellFormed = false := by decide
theorem test_wf_window : (Instr.ptSsmAccessDone now 64 ⟨.clean, 0⟩).wellFormed = false ∧ (Instr.partitionResetDone now 64).wellFormed = false := by
  decide
theorem test_wf_page : (Instr.tierScrubDone now [⟨0, 16, .bad⟩]).wellFormed = false := by decide
theorem test_wf_extent : (Instr.tierScrubDone now [⟨2 ^ 22, 0, .bad⟩]).wellFormed = false := by decide
theorem test_wf_intake : (Instr.tokenIntake now 64 0 .clean ⟨.clean, 0⟩).wellFormed = false ∧ (Instr.draftIntake now 64 0 .clean).wellFormed = false ∧
    (Instr.tokenIntake now 0 0 .clean ⟨.clean, 16⟩).wellFormed = false := by decide
theorem test_wf_lane : (Instr.fspIngressSlot now 4 0 (item 0) 0 .clean 0).wellFormed = false ∧ (Instr.winteringDone now 4 .clean).wellFormed = false ∧
    (Instr.fspEgressSlot now 4 0 .clean 0).wellFormed = false ∧ (Instr.pkeTierRead now 4 0 .clean).wellFormed = false ∧
    (Instr.slotStartMissed now true 4).wellFormed = false := by decide
theorem test_wf_slots_taken : (Instr.fspIngressSlot now 0 0 (item 0) 8 .clean 0).wellFormed = false ∧
    (Instr.fspIngressSlot now 0 0 (item 0) 0 .clean 8).wellFormed = false ∧ (Instr.fspEgressSlot now 0 0 .clean 8).wellFormed = false := by decide
theorem test_wf_region : (Instr.screeningItemStart now 4 .clean).wellFormed = false ∧
    (Instr.screeningItemStart now 0 (.ssmBad (2 ^ 21))).wellFormed = false ∧ (Instr.screeningItemDone now 0 (.ssmCorrected (2 ^ 21))).wellFormed = false ∧
    (Instr.ssmWriteBack now (2 ^ 21)).wellFormed = false := by decide
theorem test_wf_cluster : (Instr.screeningItemDone now 8 .clean).wellFormed = false ∧ (Instr.clusterWakeDone now 8).wellFormed = false ∧
    (Instr.clusterWakeTimeout now 8 true).wellFormed = false ∧ (Instr.clusterIdleStop now 8).wellFormed = false := by decide
theorem test_wf_slot : (Instr.queueOver now 8192).wellFormed = false ∧ (Instr.tokenRelease now 8192 .clean).wellFormed = false ∧
    (Instr.tIn now 8192).wellFormed = false ∧ (Instr.slippedNotice now 8192).wellFormed = false ∧ (Instr.deadlineReached now 8192).wellFormed = false ∧
    (Instr.cancelledFree now 8192).wellFormed = false ∧ (Instr.openTimeout now 8192).wellFormed = false ∧
    (Instr.blockHashDone now 8192).wellFormed = false := by decide
theorem test_wf_link : (Instr.grpTxSlot now 4).wellFormed = false ∧ (Instr.linkLockLoss now 4).wellFormed = false ∧
    (Instr.ringForward now badMsg).wellFormed = false ∧ (Instr.go now badMsg).wellFormed = false := by decide
theorem test_wf_codes : (Instr.ageingMeasurement now [256] 0).wellFormed = false ∧ (Instr.pwrSettleDone now [] 256).wellFormed = false ∧
    (Instr.ageingMeasurement now (List.replicate 9 0) 0).wellFormed = false := by decide
theorem test_wf_device : (Instr.tierDeviceSelfref now 20).wellFormed = false ∧
    (Instr.tierTrainingDone now (List.replicate 21 ⟨0, [], []⟩)).wellFormed = false := by decide
theorem test_wf_bank : (Instr.ssmScrub now [⟨0, 16, .bad⟩]).wellFormed = false ∧ (Instr.ssmScrub now [⟨4, 0, .bad⟩]).wellFormed = false := by decide
theorem test_wf_retained : (Instr.resetRelease now true ⟨.bad, 8192⟩).wellFormed = false := by decide
theorem test_wf_accepts : (Instr.commandPacketArrival now (.hrp 63) [0] .clean true).wellFormed = true ∧
    (Instr.grpTxSlot { edges := 1, quarters := 159 } 3).wellFormed = true := by decide

-- Worked examples of the spec.
/-- R310: the hash of block 0 under salt 0x100 with adapter 5. -/
theorem test_block_hash : blockHash 0x100 (rootOf true 5) (List.replicate 62 0 ++ [0x3, 0x3A41]) = (0x0000_0615_2218_5688, 0x0A91_0000_8018_568B) := by
  decide +kernel
/-- R331: FACTOR 894 on BSG1-F. -/
theorem test_shares : shares 4 9154 [⟨0, 5000, 4⟩, ⟨1, 3000, 2⟩, ⟨2, 2500, 1⟩] = [(0, 5000), (1, 2769), (2, 1384)] := by decide +kernel
/-- R302: pages of 1,024 items, and the extents they take. -/
theorem test_pages : pagesOf 1024 = 15 ∧ extentsOf 15 = 1 := by decide
/-- R302: entry word 4 of the parked copy. -/
theorem test_entry_word : wat (({ Entry.zero with plHead := 0x612340, plPages := 15, parked := true } : Entry).words) 4 = 0x1848_D000_0003_E000 := by
  decide +kernel
/-- R309: a TTL of 30 s from 3,600 s. -/
theorem test_expiry : ({ State.reset with tm := { TimeU.cold with t48 := 3600000000000 * 2 ^ 48 } } : State).expiryTick 30 = 0x34_D2CE := by decide +kernel
/-- R386: a deadline of 90 s. -/
theorem test_deadline : ({ Entry.zero with openTime := 3630000742688, deadline := 90000000 } : Entry).deadlineTick = some 0x36_2216 := by decide +kernel
/-- R477: GT_ID of both grades. -/
theorem test_id : gtId .full = 0x1010_2000_1100_0000 ∧ gtId .half = 0x1010_2000_1110_0000 := by decide +kernel
/-- R444: at 1,400 MHz BAND is 4 and VOFS 14; the top band saturates at 31. -/
theorem test_supply : pwrWord 1400 0 = 14 * 8 + 4 ∧ pwrWord 1600 30 = 31 * 8 + 5 := by decide
/-- R370: c of one ppm more adds 40 fs to each edge, to the nearest 2^-48 ns. -/
theorem test_increment : increment 0 = 40 * 2 ^ 48 ∧ increment 1000000 = 40 * 2 ^ 48 + 11258999068 ∧ increment (-1000000) = 40 * 2 ^ 48 - 11258999068 := by
  decide +kernel

-- States that meet the hypotheses of the statements.
/-- The gate after its start: every role, SMP at version 1, 3,000 REFCLK edges counted. -/
def gateUp : State :=
  { State.reset with
    rs := { ResetU.cold with start := none }, cmi := { CmiU.zero with smpVersion := some 1 }, role := 7, roleShadow := 7,
    tm := { TimeU.cold with refclk := 3000, t48 := 3000 * 40 * 2 ^ 48 } }
/-- A packet's header for a partition. -/
def header (p op n : Nat) : Word := pack [(op, 63, 56), (1, 55, 52), (p, 51, 46), (0x1234, 43, 28), (n, 27, 12)]
/-- A packet with zeros besides its header and parameters waits in SMP's ring. -/
def sent (s : State) (p op : Nat) (ps : List Word) : State :=
  { s with cmi := { s.cmi with smpRing := [{ part := p, words := header p op ps.length :: ps, arrived := s.tm.refclk, fine := s.fine }] } }
/-- Its issuer. -/
def byP (p op : Nat) : Issuer := { op := op, part := p, tag := 0x1234, smp := true, src := none }
def byZ (op : Nat) : Issuer := byP 0 op
/-- `Starts`, decided. -/
def starts (s : State) (op : Nat) (i : Issuer) (ps : List Word) : Bool :=
  match s.nextPkt with
  | some (smp, k) => decide (pktIssuer smp k = i) && decide (k.words.drop 1 = ps) && (s.popPkt.check5 i (wat k.words 0)).isNone && (i.op == op) &&
      (op == 0x01 || op == 0x02 || s.popPkt.partOn i.part)
  | none => false

theorem starts_of {s : State} {op : Nat} {i : Issuer} {ps : List Word} (h : starts s op i ps = true) : Starts s op i ps := by
  unfold starts at h
  split at h
  · rename_i smp k hk
    simp only [Bool.and_eq_true, Bool.or_eq_true, decide_eq_true_eq, beq_iff_eq, Option.isNone_iff_eq_none] at h
    obtain ⟨⟨⟨⟨h1, h2⟩, h3⟩, h4⟩, h5⟩ := h
    exact ⟨⟨smp, k, hk, h1, h2, h3⟩, h4, or_assoc.mp h5⟩
  · cases h

/-- A live session of partition 0 and tenant 0 in slot 5, at its edge and its home. -/
def live : Entry := { Entry.zero with state := .live, home := true, edge := true, gen := 1, openTime := 1000 }
/-- Its handle as a parameter word. -/
def hw : Word := hdlWord (handleOf 0 5 1)
/-- The gate with an entry in slot 5; partition 0 owns tenants 0 to 15. -/
def owner : State := { gateUp with parts := [(0, { Partn.cold with count := 16 })] }
def withEntry (e : Entry) : State := owner.setEntry 5 e
/-- The same packet in a partition's ring of HRP. -/
def sentHrp (s : State) (p op : Nat) (ps : List Word) : State :=
  let q := s.part p
  s.setPart p { q with version := some 1, ring := [{ part := p, words := header p op ps.length :: ps, arrived := s.tm.refclk, fine := s.fine }] }
/-- Its issuer. -/
def byH (p op : Nat) : Issuer := { byP p op with smp := false }
/-- Eight words from the first ones. -/
def row8 (ws : List Word) : List Word := ws ++ List.replicate (8 - ws.length) 0
/-- A handle word: writable and gate-managed, or a read-only lease of all partitions. -/
def areaW (base bound : Nat) : Word := pack [(3, 63, 62), (1, 54, 54), (base, 53, 32), (bound, 31, 10)]
def leaseW (base bound : Nat) : Word := pack [(1, 63, 63), (1, 55, 55), (base, 53, 32), (bound, 31, 10)]
/-- The rows of a small image in handle 10, two variants, one policy with one FEAT stage, a vocabulary of eight tokens: contract,
metering, policy, stage table, pattern header, detokenisation table, stop sets, the FEAT object. -/
def imageRows : List (List Word) :=
  [ row8 [pack [(1000, 63, 52), (600, 51, 40), (100, 39, 24), (8, 23, 8), (1, 7, 4)],
      pack [(1, 63, 52), (1, 51, 40), (1, 39, 28), (1, 27, 16), (2, 15, 11)]],
    List.replicate 4 0x0FA0_0FA0_0FA0_0FA0 ++ List.replicate 4 0, List.replicate 8 0, List.replicate 8 0, List.replicate 8 0,
    row8 [pack [(1, 58, 55), (1, 54, 50), (3, 49, 46), (600, 41, 30)], 0x0010_0000_0010_0000], List.replicate 8 0,
    row8 [pack [(64000, 63, 47), (100000, 46, 30), (1, 29, 18), (1, 17, 15), (8, 14, 11)], 0, 0, pack [(1, 39, 36)],
      pack [(10, 63, 54), (8, 53, 30)]],
    row8 [pack [(1, 63, 61), (1, 44, 37), (10, 36, 27), (12, 26, 3)]],
    row8 [0, pack [(10, 63, 54)], pack [(10, 63, 54)], pack [(10, 63, 54)], pack [(10, 63, 54), (10, 53, 30), (8, 29, 11)],
      pack [(10, 63, 54), (11, 53, 30), (1, 29, 17)]],
    List.replicate 8 0, List.replicate 8 0, row8 [pack [(1, 63, 56)]], row8 [pack [(3, 63, 61)]] ]
/-- BEGIN's words after W0: the header, and the layout for eight clusters. -/
def beginWords : List Word :=
  row8 [pack [(1, 63, 56), (1, 55, 55), (77, 53, 22)], pack [(10, 63, 54)], pack [(10, 63, 54), (7, 53, 30), (1, 29, 17)],
    pack [(10, 63, 54), (9, 53, 30)], pack [(10, 63, 54), (5, 53, 30)], pack [(8, 45, 27)]] ++
  row8 [pack [(11, 63, 53), (0, 52, 43), (1, 42, 33)], pack [(2, 63, 54), (3, 53, 44), (4, 43, 34), (5, 33, 24)],
    pack [(6, 63, 54), (7, 53, 44), (8, 43, 34), (9, 33, 24)], pack [(1, 63, 50), (1, 49, 36), (1, 35, 22), (1, 21, 8)]] ++
  [areaW 0 262144, areaW 344096 24576, areaW 262144 81920, areaW 524288 81920, areaW 1048576 81920, areaW 1572864 81920,
   areaW 344064 32, areaW 606208 32, areaW 1130496 32, areaW 1654784 32, leaseW 400000 14] ++ List.replicate 5 0
/-- What BEGIN of it starts. -/
def blank : Img :=
  { hdr := beginWords.take 8, layout := (beginWords.drop 8).take 8, hdl := tableOf (beginWords.drop 8), begun := beginWords, crc8 := 0, crc4 := 0,
    contract := Contract.ofWords [], meter := Meter.ofWords [], descs := [], repl := [], gen := 1 }
def imageMem : Memory := Memory.putWords [] (8 * 400000) imageRows.flatten
/-- The image as END leaves it. -/
def img : Img :=
  { blank with crc8 := 1159045772,
               contract := Contract.ofWords (imageRows.take 5).flatten, meter := Meter.ofWords ((imageRows.drop 5).take 2).flatten }
/-- Every opcode starts from SMP. -/
theorem witness_starts :
    ([(0x01, 0), (0x02, 0), (0x03, 0), (0x10, 5), (0x11, 1), (0x12, 1), (0x13, 1), (0x14, 3), (0x15, 5), (0x16, 1), (0x17, 2), (0x18, 2),
      (0x20, 2), (0x21, 3), (0x22, 1), (0x28, 20), (0x29, 2), (0x2A, 3), (0x30, 1), (0x31, 1), (0x32, 0), (0x38, 1), (0x39, 1), (0x3A, 1),
      (0x3B, 1), (0x40, 2), (0x41, 2), (0x42, 0), (0x48, 1), (0x49, 1), (0x4A, 1), (0x4B, 1), (0x4C, 0), (0x50, 1), (0x51, 0), (0x58, 1),
      (0x59, 1), (0x5A, 2), (0x5B, 0), (0x60, 1), (0x61, 0)] : List (Nat × Nat)).all
        (fun x => starts ((sent gateUp 0 x.1 (List.replicate x.2 0)).elapse now) x.1 (byZ x.1) (List.replicate x.2 0)) = true := by decide +kernel
theorem witness_StepRunsExec : ({ gateUp with pending := [.nop now] } : State).pending = .nop now :: [] := rfl
theorem witness_EmptyQueueIdles : gateUp.pending = [] := rfl
theorem witness_StepKeepsInv : Inv gateUp ∧ ∃ t, step gateUp = .next t :=
  ⟨{ canonical := ⟨by decide, by decide, by decide, by decide, by decide, by decide, by decide⟩
     bounded := ⟨fun _ => by simp [State.part, gateUp, State.reset, sget, Partn.cold], by decide, by decide, by decide +kernel, by decide⟩
     shaped := ⟨by decide, by decide, by decide, by decide, by decide, by decide, by decide⟩ }, _, rfl⟩
theorem witness_ReplyForm :
    (byZ 0xFF).op < 2 ^ 8 ∧ (byP 63 1).part < 2 ^ 6 ∧ (byZ 1).tag < 2 ^ 16 ∧ (List.replicate 15 (0 : Word)).length < 2 ^ 16 ∧
    (byZ 1).src = none ∧ (byZ 1).smp = true ∧ (byH 0 1).smp = false ∧ ({ byZ 1 with src := some 3 }).src = some 3 := by
  decide
/-- A gate whose partition 63 has that many packets in its ring. -/
def ringed (n : Nat) (r : Bool) : State :=
  gateUp.setPart 63 { Partn.cold with ring := List.replicate n { part := 63, words := [0], arrived := 0, fine := 0 }, resetting := r }
theorem witness_PacketsArrive :
    (gateUp.elapse now).hrpOn = true ∧ (gateUp.elapse now).smpOn = true ∧
    ([1, 4096, 4097] : List Nat).all (fun n => (List.replicate n (0 : Word)).length == hLen (header 63 1 n)) = true ∧
    hPart (header 63 1 0) = 63 ∧ hPart (header 62 1 0) ≠ 63 ∧
    ((ringed 15 false).elapse now).hrpOn = true ∧ (((ringed 15 false).elapse now).part 63).ring.length = 15 ∧
    (((ringed 15 false).elapse now).part 63).resetting = false ∧
    ((ringed 16 false).elapse now).hrpOn = true ∧ (((ringed 16 false).elapse now).part 63).ring.length = 16 ∧
    ((ringed 0 true).elapse now).hrpOn = true ∧ (((ringed 0 true).elapse now).part 63).resetting = true ∧
    (sent gateUp 0 1 []).cmi.smpRing.length < 4 ∧
    ({ gateUp.cmi with smpRing := List.replicate 4 ⟨0, [0], 0, 0⟩ } : CmiU).smpRing.length = 4 := by decide +kernel
/-- The checks 3 to 6: a version, a reserved bit, a partition that is not enabled. -/
theorem witness_CommandChecks :
    let word (h : Word) : State := { gateUp with cmi := { gateUp.cmi with smpRing := [⟨0, [h], 3000, 0⟩] } }
    ((word (pack [(0x03, 63, 56), (2, 55, 52)])).taken now).check5 (pktIssuer true ⟨0, [pack [(0x03, 63, 56), (2, 55, 52)]], 3000, 0⟩)
      (pack [(0x03, 63, 56), (2, 55, 52)]) = some .badVersion ∧
    ((word (header 0 3 0 + 1)).taken now).check5 (pktIssuer true ⟨0, [header 0 3 0 + 1], 3000, 0⟩) (header 0 3 0 + 1) = some .reservedSet ∧
    ((sent gateUp 63 0x03 []).taken now).check5 (byP 63 3) (header 63 3 0) = none ∧ ((sent gateUp 63 0x03 []).taken now).partOn 63 = false ∧
    Instr.opcode (.capsRead now) = some (0x03, now) ∧ Instr.params (.gateReset now) = some (1, true) ∧
    starts ((sentHrp (gateUp.setPart 63 { Partn.cold with enabled := true }) 63 0x4B [0]).elapse now) 0x4B (byH 63 0x4B) [0] = true ∧
    (byH 63 0x4B).isP0 = false ∧ (byZ 0x4B).isP0 = true ∧
    starts ((sent gateUp 0 0x4B []).elapse now) 0x4B (byZ 0x4B) [] = true ∧ starts ((sent gateUp 0 0x4B [0, 0]).elapse now) 0x4B (byZ 0x4B) [0, 0] = true ∧
    (gateUp.elapse now).nextPkt = none ∧ ((sent gateUp 0 0x4B []).elapse now).nextPkt = some (true, ⟨0, [header 0 0x4B 0], 3000, gateUp.fine⟩) ∧
    opcodes.contains 0x4B = true := by decide +kernel
theorem witness_Reads :
    stray (pack [(1, 63, 56)]) [(63, 56)] = false ∧ bf (pack [(1, 63, 56)] : Word) 63 56 = 1 ∧ stray (pack [(2, 63, 56), (63, 55, 50)]) [(63, 50)] = false ∧
    (byP 63 0x58).part = bf (pack [(2, 63, 56), (63, 55, 50)] : Word) 55 50 ∧
    ([1, 256] : List Nat).all (fun n => stray (pack [(n, 55, 47)]) [(63, 47)] == false && bf (pack [(n, 55, 47)] : Word) 55 47 == n) = true ∧
    stray 0x8000_0001_8000_0000 [(30, 0)] = true ∧ stray 0x7FFF_FFFF [(30, 0)] = false := by decide +kernel
/-- A session command in each way it does not find its session. -/
theorem witness_SessionChecks :
    ((sent owner 0 0x13 [hw]).taken now).entry 5 = Entry.zero ∧ hdlSlot (hdlOf hw) = 5 ∧ stray hw [(63, 32)] = false ∧
    (let s := (sent (withEntry { live with gen := 2 }) 0 0x13 [hw]).taken now; (s.entry 5).state ≠ .free ∧ s.matches (hdlOf hw) = false) ∧
    (let s := (sent (withEntry { live with part := 1 }) 0 0x13 [hw]).taken now
     (s.entry 5).state ≠ .free ∧ s.matches (hdlOf hw) = true ∧ (s.entry 5).part ≠ 0 ∧ s.hasEdge = true) ∧
    (let s := (sent { owner with role := 1 } 0 0x12 [hw]).taken now; s.hasEdge = false ∧ s.hasHome = false) ∧
    starts ((sent (withEntry live) 0 0x12 [hw]).elapse now) 0x12 (byZ 0x12) [hw] = true := by decide +kernel
theorem test_image_begins : imgOfBegin .full beginWords 1 = some blank ∧ State.reset.beginGood beginWords blank = true := by decide +kernel
/-- A left fold whose accumulator the kernel evaluates at each step. -/
def foldNow (f : Nat → Word → Nat) : List Word → Nat → Nat
  | [], c => c
  | w :: l, c => if c = 0 then foldNow f l (f 0 w) else foldNow f l (f c w)
theorem foldl_eq_foldNow (f : Nat → Word → Nat) (l : List Word) (c : Nat) : l.foldl f c = foldNow f l c := by
  induction l generalizing c with
  | nil => rfl
  | cons w l ih => simp only [List.foldl_cons, foldNow, ih]; split <;> simp_all
theorem image_crc : crc32c (beginWords ++ imageRows.flatten) = 1159045772 := by
  rw [crc32c, foldl_eq_foldNow]; decide +kernel
/-- Whether a check answers a value. -/
def answers [DecidableEq α] (x : Eval α) (a : α) : Bool := match x with | .ok b => decide (b = a) | .error _ => false
theorem eq_of_answers [DecidableEq α] {x : Eval α} {a : α} (h : answers x a = true) : x = .ok a := by
  unfold answers at h
  split at h
  · rw [of_decide_eq_true h]
  · cases h
/-- The image is in load. -/
def loadingImg : State := { gateUp with
    mem := imageMem, clk := { gateUp.clk with plan := 1400 }, img := { gateUp.img with load := .loading, loading := some blank, gen := 1 } }
/-- The one policy of the image, as the load reads it. -/
def imgPol : Pol := { pol := Policy.ofRow (imageRows.getD 7 []), outS := [⟨1, 0, 0, 1, 10, 12⟩], inS := [] }
theorem image_programs : progStages (loadingImg.env blank) blank = .ok [] := eq_of_answers (by decide +kernel)
theorem image_input : crcInput (loadingImg.env blank) blank [] = .ok (beginWords ++ imageRows.flatten) := eq_of_answers (by decide +kernel)
theorem image_contract : (loadingImg.env blank).wordsAt 10 0 40 = .ok (imageRows.take 5).flatten := eq_of_answers (by decide +kernel)
theorem image_meter : (loadingImg.env blank).wordsAt 10 5 16 = .ok ((imageRows.drop 5).take 2).flatten := eq_of_answers (by decide +kernel)
theorem image_policy : (List.range blank.policies).mapM (loadPolicy (loadingImg.env blank) blank (Contract.ofWords (imageRows.take 5).flatten) 600) = .ok [imgPol] :=
  eq_of_answers (by decide +kernel)
theorem image_screening : loadScreening (loadingImg.env blank) blank [imgPol] = .ok () := eq_of_answers (by decide +kernel)
/-- An image without programs passes END when each check does. -/
theorem loadChecked_ok {s : State} {i : Img} {c8 c4 : Nat} {ws cw mw : List Word} {pols : List Pol} {n k : Nat} {v : Env} (he : s.env i = v) (h0 : min (Contract.ofWords cw).floor s.clk.plan = n)
    (h1 : progStages v i = .ok []) (h2 : crcInput v i [] = .ok ws) (hk : (if s.grade.clusters = 8 then c8 else c4) = k) (h3 : crc32c ws = k)
    (h4 : (imageHdrGood i.hdr && decide (24576 ≤ (i.handle i.stageHdlNo).bound)) = true)
    (h5 : v.wordsAt (bf (wat i.hdr 1) 63 54) (bf (wat i.hdr 1) 53 30) 40 = .ok cw) (h6 : contractGood cw (s.tier.devs.any (·.present)) = true)
    (h7 : v.wordsAt (bf (wat i.hdr 4) 63 54) (bf (wat i.hdr 4) 53 30) 16 = .ok mw)
    (h8 : meterGood mw (Contract.ofWords cw).variants s.bursts.1 s.bursts.2 = true)
    (h9 : (List.range i.policies).mapM (loadPolicy v i (Contract.ofWords cw) n) = .ok pols) (h10 : loadScreening v i pols = .ok ())
    (h11 : chkAll pols (loadPrograms v s.grade i.vocab) = .ok ()) (h12 : lookupDescs v pols = .ok []) :
    s.loadChecked i c8 c4 = .ok { i with crc8 := c8, crc4 := c4, contract := Contract.ofWords cw, meter := Meter.ofWords mw, descs := [], repl := [] } := by
  simp only [State.loadChecked, he, hk, h1, bind, Except.bind, List.mapM_nil, pure, Except.pure, List.flatten_nil, List.map_nil, List.eraseDups_nil,
    h2, h3, beq_self_eq_true, chk, if_true, h0, h4, h5, h6, h7, h8, h9, h10, h11, h12]
/-- END of it. -/
def endWords : List Word := [pack [(2, 63, 62)], pack [(1159045772, 63, 32)]]
/-- The image passes every check of END. -/
theorem test_image_ends : ((sent loadingImg 0 0x30 endWords).taken now).loadChecked blank 1159045772 0 = .ok img :=
  loadChecked_ok (v := loadingImg.env blank) (by decide +kernel) (by decide +kernel) image_programs image_input (by decide +kernel) image_crc (by decide +kernel) image_contract (by decide +kernel) image_meter (by decide +kernel)
    image_policy image_screening (eq_of_answers (by decide +kernel)) (eq_of_answers (by decide +kernel))
/-- The gate with the image in force, time set and locked, tenant 0 with budget. -/
def gateImg : State :=
  { owner with
    mem := imageMem, hdl := img.hdl, img := { ImageU.zero with force := some img, gen := 1 },
    tm := { owner.tm with set := true, locked := true, ctl := 0x8000_0000_0000_0000, ctlIn := 0x8000_0000_0000_0000 },
    bal := { BalanceU.zero with factor := 1024, capOut := 1000000, capIn := 1000000, sCap := 8192 },
    clk := { ClockU.cold with plan := 1400, mhz := 1400 },
    ledgers := [(0, { Ledger.zero with valid := true, weight := 1, inLevel := 100, outLevel := 100, pkLevel := 100, inBurst := 1000, outBurst := 1000,
                                       pkBurst := 1000 })] }
def imgWith (e : Entry) : State := gateImg.setEntry 5 e
/-- The edge of session 5 with a turn open and tokens held. -/
def turned (held : List HeldTok) (done : Bool) (t : Option Nat) (v : Option Word) : State :=
  (imgWith live).setEdge 5 { EdgeAux.zero with turnOpen := true, tInDone := done, tIn := t, ingress := v, held := held }
def tokAt (r : Nat) (v : Option Word) : HeldTok := { pos := 0, tok := 3, stamp := 0, release := r, image := 1, stop := .none, chain := none, verdict := v }
/-- A verdict of an action, with reason 1. -/
def verdictW (a : Nat) : Word := pack [(5, 60, 48), (1, 47, 39), (a, 13, 11), (1, 7, 0)]
/-- SESSION_OPEN of slot 5, the home at gate 0. -/
def openHere : List Word := [pack [(5, 49, 37)], 0, 0, 0, 0]
/-- The same with the home on gate 3, one hop away. -/
def openAway : List Word := [pack [(5, 49, 37), (3, 36, 27), (1, 26, 26), (1, 17, 8)], 0, 0, 0, 0]
/-- The gate on a ring with gate 3 behind link 0. -/
def ringImg : State := { gateImg with net := { NetU.zero with cfg := pack [(1, 63, 63), (1, 59, 59)], routes := [(3, pack [(1, 63, 63), (1, 60, 51)])] } }
/-- SESSION_FEED of two tokens, the last part of the turn. -/
def feed2 : List Word := [hw + pack [(1, 31, 31), (2, 30, 20)], pack [(3, 17, 0), (4, 35, 18)]]
theorem witness_SessionOpens :
    (let s := (sent gateImg 0 0x10 openHere).elapse now; starts s 0x10 (byZ 0x10) openHere = true ∧ openHere.length = 5 ∧ openStray openHere = false) ∧
    (let p := (sent gateImg 0 0x10 openHere).taken now; let q := OpenReq.ofWords openHere
     p.ageing = false ∧ p.openCheck (byZ 0x10) q = none ∧ q.homeEn = false ∧
     ({ p with role := 1 } : State).openCheck (byZ 0x10) q = some .noSession) ∧
    (let p := (sent { gateImg with clk := { gateImg.clk with plan := 599 } } 0 0x10 openHere).taken now; p.ageing = true ∧
     (p.recompute [(0, 0)]).openCheck (byZ 0x10) (OpenReq.ofWords openHere) = none) ∧
    (let s := (sent ringImg 0 0x10 openAway).elapse now; starts s 0x10 (byZ 0x10) openAway = true ∧ openStray openAway = false) ∧
    (let p := (sent ringImg 0 0x10 openAway).taken now; let q := OpenReq.ofWords openAway
     p.openCheck (byZ 0x10) q = none ∧ q.homeEn = true ∧ q.home ≠ p.gate) := by decide +kernel
theorem witness_SessionFeedsAndCharges :
    (let s := (sent (imgWith live) 0 0x11 feed2).elapse now
     starts s 0x11 (byZ 0x11) feed2 = true ∧ feedLen feed2 = some feed2.length ∧ feedStray feed2 = false) ∧
    (let p := (sent (imgWith live) 0 0x11 feed2).taken now; let q := p.streamDue 5; let toks := unpackToks (feed2.drop 1) (feedCount (wat feed2 0))
     p.hasEdge = true ∧ hdlSlot (hdlOf (wat feed2 0)) = 5 ∧ p.sessCheck (byZ 0x11) (hdlOf (wat feed2 0)) (·.edge) = none ∧ (q.entry 5).state = .live ∧
     (q.entry 5).pendOp = 0 ∧ toks = [3, 4] ∧ q.feedCheck 5 toks = none ∧
     (q.setLedger 0 { q.ledger 0 with inLevel := 1 }).feedCheck 5 toks = some .noBudget ∧
     (q.setEntry 5 { live with length := 1048575 }).feedCheck 5 toks = some .noSpace) ∧
    2 ≤ ((imgWith live).ledger ((imgWith live).entry 5).tenant).inLevel ∧
    ([0, 63] : List Nat).all (fun n =>
      let s0 := imgWith live
      let s := s0.setHashRec 5 { s0.hashRec 5 with buf := List.replicate n 3 }
      let v := s.homeFeed 5 true true [3] n 0 s.imgGen s.cmi.arrival
      (s.entry 5).home && (((v.homeAt 5).hashQ.length == (s.homeAt 5).hashQ.length) == (n == 0))) = true ∧
    ((imgWith { live with home := false }).entry 5).home = false := by decide +kernel
/-- A session in each state that SESSION_CLOSE tells apart, at its home and at an edge. -/
theorem witness_SessionEnds :
    (let at12 (s : State) (st : Sess) (h e : Bool) : Bool :=
       let u := sent s 0 0x12 [hw]
       let p := u.taken now
       starts (u.elapse now) 0x12 (byZ 0x12) [hw] && (p.hasEdge || p.hasHome) && !stray hw [(63, 32)] && hdlSlot (hdlOf hw) == 5 &&
         (p.sessCheck (byZ 0x12) (hdlOf hw) (fun e => e.edge || e.home)).isNone && (p.entry 5).home == h && (p.entry 5).edge == e &&
         (p.entry 5).state == st && (p.entry 5).pendOp == 0 && (p.homeAt 5).feeds.isEmpty && (p.homeAt 5).closeFor.isNone
     let edge := ((turned [tokAt 7 none] false (some 0) none).taken now).edgeAt 5
     ([.wintered, .closing] : List Sess).all (fun st => at12 (withEntry { live with state := st }) st true true) &&
     !(((withEntry live).taken now).edgeAt 5).turnOpen &&
     at12 (turned [tokAt 7 none] false (some 0) none) .live true true && edge.turnOpen && edge.held.getLast? == some (tokAt 7 none) && edge.tIn == some 0 &&
     at12 ((withEntry { live with edge := false, edgeGate := 3 }).setHome 5 { HomeAux.zero with streamEnded := false }) .live true false &&
     ([.springing, .cancelled] : List Sess).all (fun st => at12 (withEntry { live with state := st, home := false }) st false true)) = true ∧
    ([.live, .cancelled] : List Sess).all (fun st =>
      let s := sent (withEntry { live with state := st }) 0 0x13 [hw]
      starts (s.elapse now) 0x13 (byZ 0x13) [hw] && ((s.taken now).sessCheck (byZ 0x13) (hdlOf hw) (fun _ => true)).isNone) = true ∧
    ((sent (withEntry { live with home := false }) 0 0x13 [hw]).taken now).sessCheck (byZ 0x13) (hdlOf hw) (fun _ => true) = none := by decide +kernel
theorem witness_SessionQueryAndStopSet :
    (let s := sent (withEntry live) 0 0x16 [hw]; starts (s.elapse now) 0x16 (byZ 0x16) [hw] = true ∧ strayH [hw] = false ∧
      (s.taken now).sessCheck (byZ 0x16) (hdlOf hw) (fun _ => true) = none) ∧
    (let s := sent (imgWith live) 0 0x17 [hw, 0]; let p := s.taken now
     starts (s.elapse now) 0x17 (byZ 0x17) [hw, 0] = true ∧ (strayH [hw, 0] || stray (0 : Word) [(63, 33)]) = false ∧ p.hasEdge = true ∧
     p.sessCheck (byZ 0x17) (hdlOf hw) (·.edge) = none ∧ p.img.force = some img ∧ (stopsOf 0).1 < (p.patHdr img).stopsets ∧ (p.entry 5).home = true ∧
     (p.entry 5).pendOp = 0) ∧
    (let p := (sent (imgWith { live with home := false }) 0 0x17 [hw, 0]).taken now
     p.sessCheck (byZ 0x17) (hdlOf hw) (·.edge) = none ∧ (p.entry 5).home = false) := by decide +kernel
/-- A marked step with a checkpoint and one draft of chain 0 held. -/
def stepped (v : Option Word) (st : Sess) : State :=
  (imgWith { live with state := st, outTotal := 0 }).setEdge 5
    { EdgeAux.zero with turnOpen := true, mark := true, step := some true,
                        drafts := [{ chain := 0, depth := 1, tok := 3, stamp := 0, verdict := v }] }
def resolve1 : List Word := [hw, pack [(0, 63, 62), (1, 61, 58)]]
theorem witness_DraftResolves :
    ([(none, .speculating, false), (none, .live, false), (some (pack [(4, 13, 11)]), .speculating, true)] : List (Option Word × Sess × Bool)).all (fun x =>
      let s := sent (stepped x.1 x.2.1) 0 0x18 resolve1
      let p := s.taken now
      let z := p.finishPacket 5
      let keep := truncatePrefix (z.entry 5) ((z.edgeAt 5).accepted 0 1) 0
      starts (s.elapse now) 0x18 (byZ 0x18) resolve1 && !(strayH resolve1 || stray (wat resolve1 1) [(63, 58)] || decide (8 < bf (wat resolve1 1) 61 58)) &&
        p.hasEdge && hdlSlot (hdlOf (wat resolve1 0)) == 5 && (p.sessCheck (byZ 0x18) (hdlOf hw) (·.edge)).isNone && (p.edgeAt 5).mark &&
        (p.edgeAt 5).stopPending.isNone && (p.entry 5).state == x.2.1 && (p.edgeAt 5).step.isSome && !(p.edgeAt 5).drafts.isEmpty &&
        decide (1 ≤ (p.edgeAt 5).stored 0) && keep.length == 1 && keep.any (fun d => d.acts 4) == x.2.2 &&
        decide (1 ≤ (z.ledger (z.entry 5).tenant).outLevel) && (z.entry 5).state == x.2.1) = true := by decide +kernel
/-- The gate with its lanes at the image's periods, FCLK measured, and tier device 0 trained. -/
def tierImg : State :=
  let lane : Lane := { Lane.zero with period := 4000, nextSlot := 30 }
  { gateImg with
    fsp := { FspU.zero with ingress := List.replicate 4 lane, egress := List.replicate 4 lane, fclkKept := some 1048576 },
    tier := { TierU.cold with training := false, devs := { Dev.zero with present := true, trained := true, gib := 8 } :: List.replicate 19 Dev.zero } }
def tierWith (e : Entry) : State := tierImg.setEntry 5 e
/-- A parked copy of three items in one page. -/
def parked : Entry := { live with state := .wintered, plHead := 8192, plPages := 1, parked := true, expiry := 3000 }
def parkedImg : State :=
  let s := tierWith parked
  { s with tier := { s.tier with alloc := [8192], pages := [(131072, { items := [[1], [2], [3]], kind := 0, owner := 5 * 2 ^ 9 + 1, link := 0, seq := 0 })] } }
/-- The lane 0 and its slot 100, after the packet's arrival. -/
def slot100 : Word := pack [(100, 61, 14)]
/-- The session's record after its block 0 of zeros. -/
def published : State :=
  let s := tierWith live
  let r := s.hashRec 5
  s.setHashRec 5 { r with chain := blockHash 0 r.prev (List.replicate 64 0), next := 1, run := true }
def publish0 : List Word := [hw, pack [(1, 63, 63), (1, 47, 23)]] ++ List.replicate 18 0
/-- An operation in lane 0 from slot 30 on. -/
def opOf (k : OpKind) (n done : Nat) : TierOp :=
  { kind := k, lane := 0, first := 30, total := n, done := done, staged := done, extents := [8192], slices := [{ kind := 0, owner := 5 * 2 ^ 9 + 1, head := 8192, pages := 1, items := 3 }],
    buf := [], bookings := [], tenant := 0, ttl := 1, issuer := byZ 0x14 }
def withOp (s : State) (o : TierOp) : State := { s with tier := { s.tier with ops := [o] } }
/-- Gate time at a tick, its work done. -/
def atTick (s : State) (k : Nat) : State := { s with tm := { s.tm with t48 := k * 2 ^ 68, lastTick := k } }
theorem witness_TenantCommands :
    (let s := sent gateImg 0 0x20 [0, 0]; let p := s.taken now; starts (s.elapse now) 0x20 (byZ 0x20) [0, 0] = true ∧ p.ownerOf 0 = some 0 ∧
      p.ownerOf 15 = some 0 ∧ p.ownerOf 16 = none ∧ (p.ledger 0).sessions = 0 ∧ stray (pack [(16383, 63, 50), (1, 49, 49), (1, 48, 41)]) [(63, 41)] = false ∧
      ((p.setLedger 0 { p.ledger 0 with sessions := 1 }).ledger 0).sessions ≠ 0) ∧
    (let ps : List Word := [pack [(2, 49, 48), (1, 47, 46), (5, 45, 22)], pack [(1000, 63, 32)], 0x8000_0000_0000]
     grantStray ps = true ∧ grantStray [pack [(2, 49, 48), (1, 47, 46)], 0, 0x7FFF_FFFF_FFFF] = false ∧
     grantStray [pack [(2, 49, 48), (1, 47, 46)], 0, 0xFFFF_8000_0000_0000] = false) ∧
    (let ps : List Word := [pack [(1, 47, 46)], pack [(1048576, 63, 32)], 7]
     let s := sent gateImg 0 0x21 ps
     let p := s.taken now
     starts (s.elapse now) 0x21 (byZ 0x21) ps = true ∧ grantStray ps = false ∧ p.ownerOf 0 = some 0 ∧ (p.ledger 0).valid = true ∧
     p.burstOk 0 0 1048576 = true ∧ p.burstOk 0 0 1048577 = false) ∧
    starts ((sent gateImg 0 0x22 [0]).elapse now) 0x22 (byZ 0x22) [0] = true := by decide +kernel
theorem witness_PartitionCommands :
    ([(1, 16, 16368, 0), (1, 15, 16368, 1), (1, 16, 16369, 1), (0, 16, 16, 2), (2, 0, 0, 3), (2, 0, 0, 4)] : List (Nat × Nat × Nat × Nat)).all (fun x =>
      let w : Word := pack [(x.1, 63, 58), (b2n (x.2.2.2 != 3), 57, 57), (x.2.1, 48, 35), (x.2.2.1, 34, 20)]
      let s := sent (gateImg.setPart 2 { Partn.cold with enabled := true, ring := [{ part := 2, words := [0], arrived := 0, fine := 0 }] }) 0 0x48 [w]
      let p := s.taken now
      let on := bf w 63 58 == 0 || bit w 57
      let clash := (List.range 64).any (fun o => o != x.1 && p.partOn o && overlap x.2.1 x.2.2.1 (p.part o).base (p.part o).count)
        || decide (16384 < x.2.1 + x.2.2.1)
      starts (s.elapse now) 0x48 (byZ 0x48) [w] && !(stray w [(63, 20)] || decide (16384 < bf w 34 20)) && clash == (x.2.2.2 == 1) &&
        p.takesTenant x.1 x.2.1 x.2.2.1 on == (x.2.2.2 == 2) && on == (x.2.2.2 != 3) && p.partOn 2 && p.busyPart 2) = true ∧
    (let s := sent owner 0 0x49 [0]
     starts (s.elapse now) 0x49 (byZ 0x49) [0] = true ∧ stray (0 : Word) [(63, 58)] = false ∧ (byZ 0x49).isP0 = true ∧
     (s.taken now).partIdle 0 = true ∧ ((sent (withEntry live) 0 0x49 [0]).taken now).partIdle 0 = false) ∧
    (gateUp.cycleOf 0 < gateUp.cycleOf gateUp.fine) ∧
    (let r : PartRst := { part := 63, start := 0, since := 0, cleared := true, issuer := byZ 0x49 }
     let s : State := { gateUp with rs := { gateUp.rs with parts := [r] }, tm := { gateUp.tm with refclk := 4096 } }
     let e := s.elapse now
     e.rs.parts.find? (fun x => x.part == 63 && x.cleared && decide (x.start + 4096 ≤ e.tm.refclk)) = some r ∧ (e.part 63).win.busy = false) := by decide +kernel
/-- SESSION_PARK with no items and with one, ADAPTER_LOAD, SESSION_RESUME. -/
theorem witness_TierMoves :
    ([0, 1] : List Nat).all (fun n =>
      let ps := [hw, slot100, pack [(n, 63, 32), (1, 31, 7)]]
      let s := sent (tierWith live) 0 0x14 ps
      let p := s.taken now
      starts (s.elapse now) 0x14 (byZ 0x14) ps &&
        !(strayH ps || lReserved (wat ps 1) != 0 || stray (wat ps 2) [(63, 7)] || bf (wat ps 2) 31 7 == 0 || decide (2 ^ 24 < bf (wat ps 2) 31 7)) &&
        (p.sessCheck (byZ 0x14) (hdlOf hw) (fun _ => true)).isNone && p.hasRelay && (p.entry 5).state == .live && p.tierOn && !p.tierStarting &&
        !(p.edgeAt 5).mark && p.contract.isSome && p.lanePeriod 0 0 != 0 && !p.laneHeld 0 && (p.writeCheck (some 0) 0 100 n).isNone) = true ∧
    ([0, 1] : List Nat).all (fun n =>
      let ps := [(0 : Word), slot100, pack [(n, 63, 32)]]
      let s := sent tierImg 0 0x2A ps
      let p := s.taken now
      starts (s.elapse now) 0x2A (byZ 0x2A) ps && !(stray (wat ps 0) [(63, 52)] || lReserved (wat ps 1) != 0 || stray (wat ps 2) [(63, 32)]) &&
        p.tierOn && !p.tierStarting && (p.writeCheck none 0 100 n).isNone) = true ∧
    (let ps : List Word := [hw, slot100, 0, 0, 0]
     let s := sent parkedImg 0 0x15 ps
     let p := s.taken now
     starts (s.elapse now) 0x15 (byZ 0x15) ps = true ∧ p.sessCheck (byZ 0x15) (hdlOf hw) (fun _ => true) = none ∧ (p.entry 5).state = .wintered ∧
     p.tick < (p.entry 5).expiry ∧ p.tierStarting = false ∧ p.contract = some img.contract ∧ p.lanePeriod 1 0 ≠ 0 ∧ p.laneHeld 0 = false ∧
     p.slotAfter true 0 100 (fineOf (img.contract.resumeLead * 1000)) false = true ∧ p.admits 0 = true ∧
     p.springParts 5 none 0 (0, 0) = some [{ kind := 0, owner := 5 * 2 ^ 9 + 1, head := 8192, pages := 1, items := 3 }] ∧
     p.bookOk (some 0) (p.bookingOf true 0 100 (pageStarts 0 [{ kind := 0, owner := 5 * 2 ^ 9 + 1, head := 8192, pages := 1, items := 3 }])) = true) := by decide +kernel
theorem witness_TierStores :
    (let s := sent published 0 0x28 publish0
     let p := s.taken now
     let h := blockHash 0 (0, 0) (List.replicate 64 0)
     starts (s.elapse now) 0x28 (byZ 0x28) publish0 = true ∧ publishStray publish0 = false ∧ p.sessCheck (byZ 0x28) (hdlOf hw) (fun _ => true) = none ∧
     p.homePublish 5 0 (List.replicate 64 0) = some h ∧
     (p.publishDone { tokens := true, pages := false, tenant := 0, block := 0, adapterEn := false, adapter := 0, hash := h, parent := (0, 0), plHead := extEnd,
                      plPages := 0, expiry := 0, tok := List.replicate 64 0 } 1).isSome = true) ∧
    (let s : State := { (sent published 0 0x28 publish0) with tier := TierU.cold }
     let p := s.taken now
     let h := blockHash 0 (0, 0) (List.replicate 64 0)
     p.homePublish 5 0 (List.replicate 64 0) = some h ∧
     (p.publishDone { tokens := true, pages := false, tenant := 0, block := 0, adapterEn := false, adapter := 0, hash := h, parent := (0, 0), plHead := extEnd,
                      plPages := 0, expiry := 0, tok := List.replicate 64 0 } 1).isNone = true) ∧
    (let d : DirEnt := { tokens := true, pages := false, tenant := 0, block := 0, adapterEn := false, adapter := 0, hash := (7, 8), parent := (0, 0),
                         plHead := extEnd, plPages := 0, expiry := 3000, tok := [] }
     let s : State := sent { tierImg with tier := { tierImg.tier with dir := [((dirPlaces (2 ^ 20) 8).getD 0 0, d)] } } 0 0x29 [7, 8]
     let p := s.taken now
     starts (s.elapse now) 0x29 (byZ 0x29) [7, 8] = true ∧
     p.dirFind (fun d => p.ownerOf d.tenant == some 0) (7, 8) = some ((dirPlaces (2 ^ 20) 8).getD 0 0, d) ∧
     p.dirFind (fun _ => true) (7, 9) = none ∧ p.dirFind (fun d => p.ownerOf d.tenant == some 1) (7, 8) = none ∧ p.dirPinned d = false ∧
     (withOp tierImg (opOf (.spring 5) 3 0)).dirPinned { d with pages := true, plHead := 8192, plPages := 1 } = true) ∧
    (let w : Word := pack [(31, 63, 59), (1, 58, 38)]
     let s := sent parkedImg 0 0x60 [w]
     let p := s.taken now
     starts (s.elapse now) 0x60 (byZ 0x60) [w] = true ∧
     (stray w [(63, 38)] || (decide (19 < bf w 63 59) && bf w 63 59 != 31) || bf w 58 38 == 0) = false ∧ p.tierStarting = false ∧ p.tier.scrub = none ∧
     p.scrubDevs 31 = [0] ∧ p.scrubDevs 1 = [] ∧ ((sent gateUp 0 0x60 [w]).taken now).tierStarting = true) ∧
    (let r : TierScrub := { device := 31, pace := 1, issuer := byZ 0x60, startTick := 0 }
     let e := (atTick { parkedImg with tier := { parkedImg.tier with scrub := some r } } 1).elapse now
     e.inReset = false ∧ e.tier.scrub = some r ∧ r.startTick + cdiv (e.pagesOn (e.scrubDevs r.device)) r.pace = 1 ∧ e.tick = 1) := by decide +kernel
theorem witness_ImageLoads :
    (let ps := (0 : Word) :: beginWords
     let s := sent { gateUp with tm := { gateUp.tm with refclk := 5000 } } 0 0x30 ps
     let p := s.taken now
     starts (s.elapse now) 0x30 (byZ 0x30) ps = true ∧ loadBad ps = false ∧ loadLen ps = some ps.length ∧ phaseOf ps = 0 ∧ p.loadOpen = true ∧
     p.img.load = .idle ∧ imgOfBegin p.grade (ps.drop 1) (p.img.gen + 1) = some blank ∧ p.beginGood (ps.drop 1) blank = true) ∧
    ((State.reset.taken now).loadOpen = false) ∧
    (let ps := pack [(1, 63, 62), (10, 61, 52), (13, 51, 28), (1, 27, 19)] :: List.replicate 8 (0 : Word)
     let s := sent loadingImg 0 0x30 ps
     let p := s.taken now
     starts (s.elapse now) 0x30 (byZ 0x30) ps = true ∧ loadBad ps = false ∧ loadLen ps = some ps.length ∧ phaseOf ps = 1 ∧ p.img.load = .loading ∧
     p.img.loading = some blank ∧ (blank.handle 10).valid = true ∧ (blank.handle 10).gate = false ∧ 13 + 1 ≤ (blank.handle 10).bound ∧
     p.leaseHolds ((blank.handle 10).base + 13 + 0) = false ∧ (blank.handle 10).bound < 14 + 1 ∧ (blank.handle 0).gate = true ∧
     (blank.handle 11).valid = false) ∧
    (let ps := endWords
     let s := sent loadingImg 0 0x30 ps
     starts (s.elapse now) 0x30 (byZ 0x30) ps = true ∧ loadBad ps = false ∧ loadLen ps = some ps.length ∧ phaseOf ps = 2 ∧
     imgC8 (wat blank.hdr 0) = true ∧ bf (wat ps 1) 31 0 = 0 ∧ bf (wat ps 1) 63 32 = 1159045772 ∧ gateUp.img.load ≠ .loading) ∧
    (let ps := (0 : Word) :: beginWords.set 16 0
     let s := sent { gateUp with tm := { gateUp.tm with refclk := 5000 } } 0 0x30 ps
     starts (s.elapse now) 0x30 (byZ 0x30) ps = true ∧ loadBad ps = false ∧ loadLen ps = some ps.length ∧ phaseOf ps = 0 ∧ (s.taken now).img.retiring = none ∧
     (match imgOfBegin .full (ps.drop 1) 1 with | some g => !(s.taken now).beginGood (ps.drop 1) g | none => true) = true) ∧
    ({ gateImg with img := { gateImg.img with load := .loading, loading := some blank } } : State).leaseHolds ((blank.handle 10).base + 13 + 0) = true ∧
    (let ps := [endWords.headD 0, pack [(1159045772, 63, 32), (1, 31, 0)]]
     starts ((sent loadingImg 0 0x30 ps).elapse now) 0x30 (byZ 0x30) ps = true ∧ loadBad ps = false ∧ loadLen ps = some ps.length ∧ phaseOf ps = 2 ∧
     imgC4 (wat blank.hdr 0) = false) := by decide +kernel
theorem image_replicas : ((sent loadingImg 0 0x30 endWords).taken now).replicas blank = .ok [] := eq_of_answers (by decide +kernel)
/-- Beats of register accesses by a partition: a read, a write. -/
def readBeat (p a : Nat) : RegBeat := { part := p, w0 := pack [(3, 62, 61), (a, 18, 0)], w1 := 0, find := .clean }
def writeBeat (p a : Nat) (v : Word) : RegBeat := { part := p, w0 := pack [(7, 63, 61), (a, 18, 0)], w1 := v, find := .clean }
/-- A commit staged on this gate, and the coordinator's side of one. -/
def change (k : Kind) (n : Nat) : Staged :=
  { kind := k, target := n, imageId := 77, crc8 := 1159045772, crc4 := 0, variant := 1, roles := 3, go := false, acked := true }
def coord (k : Kind) (n : Nat) : Coord :=
  { kind := k, target := n, acks := [], modeCommit := false, decided := false, going := false, replies := [], prepare := none, pin := none }
def withCommit (g : Option Staged) (c : Option Coord) : State := { gateImg with com := { gateImg.com with staged := g, coord := c } }
/-- A partition's row window. -/
def windowed (op h off : Nat) (busy : Bool) : State :=
  let q := gateImg.part 0
  gateImg.setPart 0 { q with win := { q.win with op := op, busy := busy, addr := pack [(h, 63, 54), (off, 53, 32)] } }
theorem witness_CommitOrders :
    ([0x31, 0x38, 0x39, 0x3A, 0x3B] : List Nat).all (fun op => ([true, false] : List Bool).all (fun held =>
      let w : Word := if op = 0x3B then pack [(1, 63, 63)] else 0
      let f : Fwd := { issuer := byZ op, dst := 3, slot := none, since := 0 }
      let s := sent { ringImg with tm := { ringImg.tm with ctlIn := 0 }, cmi := { ringImg.cmi with fwds := if held then [f] else [] } } 0 op [w]
      let p := s.taken now
      starts (s.elapse now) op (byZ op) [w] && !p.isCoord && p.heldHere op == held && (byZ op).isP0)) = true ∧
    ([true, false] : List Bool).all (fun locked =>
      let g : State := { gateImg with img := { gateImg.img with load := .loaded, loading := some img }, tm := { gateImg.tm with locked := locked },
                                         fsp := { gateImg.fsp with fclkKept := some 1048576 } }
      let w : Word := pack [(3, 63, 20)]
      let p := (sent g 0 0x31 [w]).taken now
      let c := { change .image 3 with imageId := img.id, crc8 := img.crc8, crc4 := img.crc4, variant := 0, roles := 0, acked := false }
      starts ((sent g 0 0x31 [w]).elapse now) 0x31 (byZ 0x31) [w] && starts ((sent g 0 0x38 [w]).elapse now) 0x38 (byZ 0x38) [w] &&
        !stray w [(63, 20)] && p.isCoord && p.commitFree && decide (p.tickAt p.cmi.arrival + 3 ≤ bf w 63 20) && p.img.load == .loaded &&
        p.img.loading == some img && (p.stageCheck c).isNone == locked && (p.stageCheck (p.modeChange 3)).isNone == locked &&
        (p.stageCheck (variantChange 1 (p.tickAt p.cmi.arrival + img.meter.lead))).isNone == locked) = true ∧
    (let c := coord .mode 3
     let p := (sent (withCommit none (some c)) 0 0x39 [pack [(3, 63, 20)]]).taken now
     starts ((sent (withCommit none (some c)) 0 0x39 [pack [(3, 63, 20)]]).elapse now) 0x39 (byZ 0x39) [pack [(3, 63, 20)]] = true ∧ p.com.coord = some c ∧
     c.modeCommit = false ∧ c.decided = false ∧ p.tickAt p.cmi.arrival + 2 < 3) ∧
    ([coord .mode 3, { coord .image 3 with decided := true, going := true }] : List Coord).all (fun c =>
      let s := sent (atTick (withCommit none (some c)) 1) 0 0x3A [pack [(3, 63, 20)]]
      let p := s.taken now
      starts (s.elapse now) 0x3A (byZ 0x3A) [pack [(3, 63, 20)]] && p.com.coord == some c && decide (p.tickAt p.cmi.arrival + 2 ≤ 3)) = true ∧
    ([(0, true), (1, true), (0, false)] : List (Nat × Bool)).all (fun x =>
      let w : Word := pack [(b2n x.2, 63, 63), (x.1, 62, 59)]
      let s := sent gateImg 0 0x3B [w]
      let p := s.taken now
      starts (s.elapse now) 0x3B (byZ 0x3B) [w] && !stray w [(63, 59)] && p.img.force == some img && (bit w 63 == x.2) && p.commitFree &&
        decide (bf w 62 59 < img.contract.variants) && p.bal.active == 0) = true := by decide +kernel
theorem witness_TimeCommands :
    (let s := sent gateImg 0 0x40 [5, pack [(1, 63, 48)]]
     starts (s.moved (.timeSet now)) 0x40 (byZ 0x40) [5, pack [(1, 63, 48)]] = true ∧ (s.moved (.timeSet now)).popPkt.tmMode = 2 ∧
     stray (pack [(1, 63, 48)]) [(63, 48)] = false) ∧
    starts ((sent gateUp 0 0x40 [5, 0]).moved (.timeSet now)) 0x40 (byZ 0x40) [5, 0] = true ∧
    ((sent gateUp 0 0x40 [5, 0]).moved (.timeSet now)).popPkt.tmMode = 0 ∧ starts ((sent gateUp 0 0x42 []).elapse now) 0x42 (byZ 0x42) [] = true ∧
    ([(1000, 200000000), (1001, 200000000), (1000, 0)] : List (Nat × Nat)).all (fun x =>
      let ps : List Word := [word x.1, pack [(x.2, 63, 32)]]
      let s := sent gateImg 0 0x41 ps
      starts (s.moved (.timeAdjust now)) 0x41 (byZ 0x41) ps && !(stray (wat ps 1) [(63, 32)] || decide (200000000 < (adjustFreq ps).natAbs)) && (s.moved (.timeAdjust now)).popPkt.tmSource == 0 &&
        (adjustFreq ps == x.2) && ((wat ps 0).toInt.natAbs == x.1)) = true ∧
    (let s : State := sent { gateImg with tm := { gateImg.tm with ctlIn := 0x9000_0000_0000_0000 } } 0 0x41 [1000, 0]
     starts (s.moved (.timeAdjust now)) 0x41 (byZ 0x41) [1000, 0] = true ∧ (s.moved (.timeAdjust now)).popPkt.tmMode ≠ 0 ∧ (s.moved (.timeAdjust now)).popPkt.tmSource = 1 ∧ adjustFreq [1000, 0] = 0) := by
  decide +kernel
theorem witness_TwinCommands :
    ([none, some (byZ 0x50)] : List (Option Issuer)).all (fun i =>
      let w : Word := pack [(3, 63, 54)]
      let s := sent { ringImg with net := { ringImg.net with pairFor := i } } 0 0x50 [w]
      let p := s.taken now
      starts (s.elapse now) 0x50 (byZ 0x50) [w] && !stray w [(63, 54)] && p.mayPair 3 && p.net.pairFor == i && !p.mayPair 4) = true ∧
    ([(false, false, none), (true, true, none), (true, false, none), (true, false, some (byZ 0x51))] : List (Bool × Bool × Option Issuer)).all (fun x =>
      let s := sent { ringImg with net := { ringImg.net with paired := x.1, twin := 3, unpairFor := x.2.2 }, com := { ringImg.com with window := x.2.1 } } 0 0x51 []
      let p := s.taken now
      starts (s.elapse now) 0x51 (byZ 0x51) [] && p.net.paired == x.1 && p.com.window == x.2.1 && p.net.unpairFor == x.2.2) = true := by decide +kernel
theorem witness_ResetCommands :
    ([0, 0x8000_0000_0000_0000] : List Word).all (fun w => let s := sent gateUp 0 0x4B [w]
      starts (s.elapse now) 0x4B (byZ 0x4B) [w] && !stray w [(63, 63)] && !(s.taken now).inReset) = true ∧
    starts ((sent gateUp 0 0x4C []).elapse now) 0x4C (byZ 0x4C) [] = true ∧
    (let w : Word := pack [(3, 63, 62)]
     let s := sent gateUp 0 0x4A [w]
     starts (s.elapse now) 0x4A (byZ 0x4A) [w] = true ∧ (stray w [(63, 62)] || decide (s.grade.regions ≤ bf w 63 62)) = false ∧
     (s.taken now).regionIdle 3 = true ∧ ((sent (withEntry live) 0 0x4A [w]).taken now).regionIdle 1 = false) := by decide +kernel
theorem witness_RegisterWindow :
    (gateUp.elapse now).hrpOn = true ∧
    ([(readBeat 0 0x0000), (readBeat 0 0x7FF8), (readBeat 0 0x0410), (writeBeat 0 0x0090 5), (writeBeat 0 0x0080 5), (writeBeat 0 0x0090 (1 <<< 31))]).all (fun b =>
      !beatMisformed b && !beatDenied b && decide (beatAddr b < 0x10000) && (match regAt (beatAddr b) with | some r => !r.absent .full | none => false)) = true ∧
    Reg.reserved .alertEn 5 = false ∧ Reg.reserved .alertEn (1 <<< 31) = true ∧
    (readBeat 0 0x05F8).find = .clean ∧ beatWrites { readBeat 0 0x05F8 with find := .bad } = false ∧ regAt (beatAddr (readBeat 0 0x0580)) = some (.bkup 0) ∧ regAt (beatAddr (readBeat 0 0x05F8)) = some (.bkup 15) ∧
    ([(readBeat 0 0x0004), (writeBeat 0 0x0004 0)]).all (fun b => beatMisformed b && beatRow b == .other) = true ∧
    ([(readBeat 63 0x0000), (writeBeat 63 0x0000 0)]).all (fun b => !beatMisformed b && beatDenied b && beatRow b == .other) = true ∧
    gateUp.ringOn = false ∧ ringImg.ringOn = true ∧ gateUp.modeStaged = false ∧ (withCommit (some (change .mode 3)) none).modeStaged = true := by
  decide +kernel
theorem witness_RowWindow :
    ([(1, false), (2, false), (1, true)] : List (Nat × Bool)).all (fun x =>
      let b := writeBeat 0 0x10018 (pack [(x.1, 63, 62)])
      let e := (windowed 0 10 0 x.2).elapse now
      e.hrpOn && !beatMisformed b && !beatDenied b && beatWrites b && windowOf (beatAddr b) == some 0 && offsetOf (beatAddr b) == 0x018 &&
        !stray b.w1 [(63, 58)] && (e.part 0).win.busy == x.2 && bf b.w1 63 62 == x.1) = true ∧
    ([(1, 0), (2, 0), (1, 1), (1, 2), (2, 3), (2, 4)] : List (Nat × Nat)).all (fun x =>
      let s := windowed x.1 10 13 true
      let q := s.part 0
      let e := (s.setPart 0 { q with win := { q.win with row := 400013, found := x.2 } }).elapse now
      (e.part 0).win.busy && (e.part 0).win.op == x.1 && (e.part 0).win.found == x.2) = true := by decide +kernel
theorem witness_MemoryReadAfterWrite : Memory.wf imageMem = true ∧ (List.replicate 8 (7 : Word)).length = 8 ∧ imageMem ≠ [] := by decide +kernel
theorem witness_Interrupts :
    (let b := writeBeat 63 0x4F008 (pack [(255, 63, 56), (255, 55, 48)])
     let e := (gateUp.setPart 63 { Partn.cold with enabled := true, intPend := 3, intAgain := 1, intEn := 255 }).elapse now
     e.hrpOn = true ∧ beatMisformed b = false ∧ beatDenied b = false ∧ beatWrites b = true ∧ windowOf (beatAddr b) = some 63 ∧ offsetOf (beatAddr b) = 0x008 ∧
     stray b.w1 [(63, 40)] = false ∧ (e.part 63).intEn < 2 ^ 8) ∧
    (({ gateUp with ints := [⟨63, 7, 0⟩] } : State).elapse now).ints = [⟨63, 7, 0⟩] ∧ (gateUp.elapse now).hrpUp = true ∧
    ((gateUp.part 0).intPend.testBit 0 = false) := by decide +kernel
theorem witness_SerialPorts :
    (gateUp.elapse now).smpOn = true ∧ ((0x7F : BitVec 8).toNat / 64 = 1) ∧ ((0x80 : BitVec 8).toNat / 64 = 2) ∧ ((0 : BitVec 8).toNat / 64 = 0) ∧
    (({ gateUp with cmi := { gateUp.cmi with smpWords := [header 0 0x13 2] } } : State).elapse now).cmi.smpWords.length < hLen (header 0 0x13 2) ∧
    (79 : Nat) ≠ 8 + 72 * 1 ∧ (0x21 : BitVec 8) ≠ 0x00 ∧ (0x21 : BitVec 8) ≠ 0x01 ∧ (0x21 : BitVec 8) ≠ 0x20 := by decide +kernel
theorem witness_StreamIntake :
    (({ gateImg with role := 1 } : State).elapse now).hasEdge = false ∧
    ([(0, 0, true), (1, 1, true), (1, 0, false)] : List (Nat × Nat × Bool)).all (fun x =>
      let e := (if x.2.2 then turned [] true (some 0) none else imgWith live).elapse now
      e.hrpOn && e.hasEdge && (e.entry 5).state == .live && ((e.entry 5).gen == x.1) == (x.1 == 1) && ((e.entry 5).part == x.2.1) == (x.2.1 == 0) &&
        ((e.entry 5).edge && (e.edgeAt 5).turnOpen && (e.edgeAt 5).stopPending.isNone) == x.2.2) = true ∧
    ([true, false] : List Bool).all (fun h =>
      let e := ((turned [] true (some 0) none).setEntry 5 { live with home := h }).elapse now
      let w := tokenWord 5 1 0 3
      wKind w == 1 && (e.hrpCheck 0 w).isNone && wPos w == (e.entry 5).length && decide ((e.entry 5).length < maxLength) && !(e.edgeAt 5).mark &&
        decide (wTok w < e.vocab) && decide (e.vocab ≤ wTok (tokenWord 5 1 0 8)) && wPos (tokenWord 5 1 1 3) != (e.entry 5).length &&
        (e.ledger 0).outLevel != 0 && (e.entry 5).home == h && (e.homeAt 5).work.isEmpty) = true ∧
    ([(false, false), (true, false), (false, true)] : List (Bool × Bool)).all (fun x =>
      let s := (turned [] true (some 0) none).setEntry 5 { live with length := 1 }
      let e := (s.setEdge 5 { s.edgeAt 5 with mark := x.1, dropping := x.2 }).elapse now
      let w : Word := pack [(2, 62, 60), (5, 59, 47), (1, 46, 38), (3, 17, 0)]
      wKind w == 2 && bf w 32 18 == 0 && bf (w + pack [(1, 18, 18)]) 32 18 != 0 && (e.hrpCheck 0 w).isNone && !(e.edgeAt 5).discardOut &&
        (e.edgeAt 5).dropping == x.2 && (e.edgeAt 5).mark == x.1 && e.sessionPolicy 5 e.imgGen == some (img, e.policyOf img 0) &&
        (x.1 || e.draftOk w (e.policyOf img 0)) && !e.draftOk (w + pack [(1, 35, 33)]) (e.policyOf img 0) && (e.entry 5).outRing.pkts == 0 &&
        decide ((e.entry 5).outRing.held < 128) && (e.edgeAt 5).nextDraft.isNone) = true := by decide +kernel
theorem witness_ReleaseInstants :
    ([some (verdictW 0), some (verdictW 2), some (verdictW 3), some (verdictW 4), none] : List (Option Word)).all (fun v =>
      let e := ((turned [tokAt 0 v] true (some 0) none).setEntry 5 { live with length := 1, outCount := 1 }).elapse now
      !e.inReset && (e.edgeAt 5).turnOpen && (e.edgeAt 5).tInDone && (e.edgeAt 5).held == [tokAt 0 v] && (e.edgeAt 5).stopPending.isNone &&
        decide ((tokAt 0 v).release ≤ e.fine) && (tokAt 0 v).stop == .none && (tokAt 0 v).pos + 1 == (e.entry 5).length &&
        (e.entry 5).state == .live && (e.slotAt 5).slipped.isEmpty && decide ((e.relqAt (e.entry 5).outLane).words.length < 512) &&
        decide ((e.entry 5).outLane < 4) && e.fsp.relq.length == 4) = true ∧
    ([0, 2, 3, 4] : List Nat).all (fun a => (verdictOf (verdictW a)).action == a && Stop.ofCode ((verdictOf (verdictW a)).reason % 16) != .none) = true ∧
    ((turned [tokAt (2 ^ 60) none] true (some 0) none).elapse now).fine < 2 ^ 60 ∧
    ([some (verdictW 2), some (verdictW 3), some (verdictW 4), none] : List (Option Word)).all (fun v =>
      let e := (turned [] false (some gateImg.fine) v).elapse now
      !e.inReset && (e.edgeAt 5).tIn == some gateImg.fine && (e.edgeAt 5).turnOpen && !(e.edgeAt 5).tInDone && (e.edgeAt 5).stopPending.isNone &&
        decide (gateImg.fine ≤ e.fine) && (e.edgeAt 5).ingress == v && (e.entry 5).state == .live) = true ∧
    ((turned [] false (some (gateImg.fine + 1)) none).elapse now).fine < gateImg.fine + 1 := by decide +kernel
/-- A work item of session 5. -/
def workOf (k : WorkKind) (c : Option Nat) (r : Bool) : Work :=
  { kind := k, tok := 3, pos := 0, index := 0, stamp := 0, image := 1, poolFull := false, queued := 0, overDue := false, first := false, turn := 0,
    stops := 0, cluster := c, split := [], running := r }
def worked (w : Work) (p : Power) : State :=
  let s := (imgWith live).setHome 5 { HomeAux.zero with work := [w], imageSeen := 1 }
  { s with clk := { s.clk with clusters := List.replicate 8 { Cluster.zero with power := p } } }
theorem witness_LaneSlots :
    (let e := tierImg.elapse now
     let v := e.inLaneAt 3
     e.inReset = false ∧ e.contract = some img.contract ∧ e.fsp.ingress.length = 4 ∧ v.period = 4000 ∧ v.awaiting = none ∧ v.fifo.items.length < 512 ∧
     e.opAt false 3 v.nextSlot = none ∧ v.dead = [] ∧ (4001 : Nat) ≠ v.period) ∧
    (let o := opOf (.winter 5 false false) 3 0
     let e := (withOp (tierWith { live with state := .wintering }) o).elapse now
     let w : Word := pack [(5, 62, 60), (5, 59, 47), (1, 46, 38)]
     e.opAt false 0 (e.inLaneAt 0).nextSlot = some o ∧ e.goodItem o ((e.inLaneAt 0).nextSlot - o.first) (item w) = true) ∧
    (let e := tierImg.elapse now
     let v := e.outLaneAt 0
     e.fsp.egress.length = 4 ∧ e.fsp.relq.length = 4 ∧ e.fspOut.length = 4 ∧ v.period ≠ 0 ∧ v.awaiting = none ∧ v.fifo.items = [] ∧ v.dead = [] ∧
     e.tier.ops = [] ∧ e.opAt true 0 v.nextSlot = none ∧ (e.relqAt 0).waiting = []) ∧
    ([(3, []), (3, [(30, item 0)]), (1, [(30, item 0)])] : List (Nat × List (Nat × Item))).all (fun x =>
      let o := opOf (.spring 5) x.1 0
      let v := (tierImg.fsp.egress.headD Lane.zero)
      let s := withOp tierImg o
      let e := ({ s with fsp := { s.fsp with egress := { v with fifo := { v.fifo with items := x.2 } } :: s.fsp.egress.drop 1 } } : State).elapse now
      o.total != 0 && e.tier.ops == [o] && e.opAt true 0 (e.outLaneAt 0).nextSlot == some o && (e.outLaneAt 0).nextSlot == 30 &&
        (e.outLaneAt 0).fifo.items == x.2 && (e.outLaneAt 0).dead.isEmpty) = true := by decide +kernel
theorem witness_ParkingEngine :
    ([(8192, 0), (2 ^ 21 + 8192, 1)] : List (Nat × Nat)).all (fun y =>
      let o := { opOf (.spring 5) 3 0 with slices := [{ kind := 0, owner := 5 * 2 ^ 9 + 1, head := y.1, pages := 1, items := 3 }] }
      let d := { Dev.zero with present := true, trained := true, gib := 8 }
      let t := { parkedImg.tier with
        alloc := [y.1], devs := [d, d] ++ List.replicate 18 Dev.zero,
        pages := [(16 * y.1, { items := [[1], [2], [3]], kind := 0, owner := 5 * 2 ^ 9 + 1, link := 0, seq := 0 })] }
      let e := (withOp { parkedImg with tier := t } o).elapse now
      !e.inReset && (e.entry 5).state == .wintered && e.stager 0 == some o && e.pageOf o.slices o.staged == some (y.1, true) &&
        (List.range (e.stageCount o 2)).all (fun j => match e.pageOf o.slices (o.staged + j) with | some (_, b) => b | none => false) &&
        o.lane == 0 && e.fsp.egress.length == 4 && extDev y.1 == y.2 && decide (y.2 < e.tier.devs.length)) = true ∧
    (let o := opOf (.winter 5 false false) 3 3
     let e := (withOp (tierWith { live with state := .wintering }) o).elapse now
     e.inReset = false ∧ (e.entry 5).state = .wintering ∧ e.tier.ops = [o] ∧ o.done = o.total ∧ (e.inLaneAt 0).fifo.items = []) := by decide +kernel
theorem witness_NoticesAndFaults :
    (let e := (atTick (worked (workOf .commit none false) .started) 100).elapse now
     e.inReset = false ∧ (e.homeAt 5).work.any (e.overdue 5) = true ∧ ((gateUp.elapse now).homeAt 5).work.any ((gateUp.elapse now).overdue 5) = false) ∧
    (let e := (gateUp.setSlot 5 { SlotAux.zero with slipped := [0] }).elapse now
     e.hrpOn = true ∧ (e.slotAt 5).slipped.filter (fun l => !(e.inLaneAt l).fifo.full) = [0] ∧ ((gateUp.elapse now).slotAt 5).slipped = []) ∧
    (tierImg.elapse now).inReset = false ∧ (tierImg.elapse now).lanesInUse = true ∧ (gateUp.elapse now).lanesInUse = false ∧
    ([0, 1] : List Nat).all (fun k =>
      let e := (atTick tierImg k).elapse now
      e.contract == some img.contract && e.startDue false 0 == some (120000 * 2 ^ 16) && decide (120000 * 2 ^ 16 < e.fine) == (k == 1)) = true ∧
    ([2, 3] : List Nat).all (fun k =>
      let e := (atTick (withCommit (some (change .mode 4)) none) k).elapse now
      e.com.staged == some (change .mode 4) && (change .mode 4).acked && !(change .mode 4).go && decide (4 ≤ e.tick + 1) == (k == 3)) = true ∧
    ([4095, 4096] : List Nat).all (fun n =>
      let e := ({ gateUp with clk := { gateUp.clk with floorAt := some 0 }, tm := { gateUp.tm with refclk := n } } : State).elapse now
      e.clk.floorAt == some 0 && decide (0 + 4096 ≤ e.tm.refclk) == (n == 4096)) = true ∧
    ([265143, 265144] : List Nat).all (fun n =>
      let e := ({ sent gateUp 0 1 [] with tm := { gateUp.tm with refclk := n } } : State).elapse now
      e.nextPkt == some (true, ⟨0, [header 0 1 0], 3000, gateUp.fine⟩) && bit e.rs.ctl 61 && e.tier.ops.isEmpty &&
        decide (3000 + 2 ^ 18 ≤ e.tm.refclk) == (n == 265144)) = true ∧
    (let e := ringImg.elapse now
     e.links.contains 0 = true ∧ e.net.routes.any (fun r => bit r.2 63 && bf r.2 62 61 == 0) = true ∧ (gateUp.elapse now).links.contains 0 = false) := by
  decide +kernel
/-- A gate whose image has some rows other words. -/
def patched (s : State) (ps : List (Nat × List Word)) : State :=
  { s with mem := ps.foldl (fun m p => m.putWords (8 * (400000 + p.1)) p.2) s.mem }
theorem witness_Screening :
    ((gateImg.elapse now).inReset = false ∧ (gateImg.elapse now).firstOf ((gateImg.elapse now).candidates 0) = none) ∧
    ([.started, .stopped] : List Power).all (fun p =>
      let w := workOf .commit none false
      let e := (worked w p).elapse now
      e.firstOf (e.candidates 1) == some (5, w) && (e.splitPlaces 5 w).isEmpty && (e.clustersOf 1).filter (fun k => !(e.cluster k).removed) == [2, 3] &&
        [2, 3].all (fun k => (e.cluster k).power == p) && !e.regionHeld 1 && e.clk.clusters.length == 8) = true ∧
    (let w := workOf .commit (some 2) true
     let k := tokAt 0 none
     let e := ((worked w .started).setEdge 5 { EdgeAux.zero with turnOpen := true, held := [k] }).elapse now
     e.completing 2 = some 5 ∧ e.completing 3 = none ∧ (e.homeAt 5).work = [w] ∧ e.sessionPolicy 5 w.image = some (img, e.policyOf img 0) ∧
     (match e.screen 5 w img (e.policyOf img 0) with | .ok o => (decideVerdict o.hits o.stop).1 != 4 | .error _ => false) = true ∧
     (e.entry 5).edge = true ∧ (e.edgeAt 5).held = [k] ∧ k.pos = w.pos ∧ k.verdict = none ∧ (e.edgeAt 5).tIn = none) ∧
    ([(0, []), (1, [(7, [pack [(64000, 63, 47), (100000, 46, 30), (1, 29, 18), (1, 17, 15), (8, 14, 11)], 0, 0, pack [(1, 39, 36), (1, 31, 23)]]),
                     (8, [pack [(1, 63, 61), (1, 44, 37), (10, 36, 27), (12, 26, 3)], pack [(255, 63, 56), (1, 55, 54), (4, 53, 51)]])]),
       (2, [(11, [pack [(1, 63, 60), (13, 59, 36)]]), (13, [pack [(1, 63, 42)], 0])])] : List (Nat × List (Nat × List Word))).all (fun x =>
      let w := workOf .commit (some 2) true
      let s := patched (worked w .started) x.2
      let e := (if x.1 = 0 then { s with img := { s.img with force := some { img with hdl := [(10, leaseW 400000 13)] } } } else s).elapse now
      e.completing 2 == some 5 && (e.homeAt 5).work == [w] && (e.entry 5).state == .live && (match e.sessionPolicy 5 w.image with
       | some (i, p) => (match e.screen 5 w i p with
         | .ok o => x.1 == 1 && (decideVerdict o.hits o.stop).1 == 4
         | .error (.bound h o) => x.1 == 0 && h == 10 && o == 13
         | .error (.patRange _ _) => x.1 == 2)
       | none => false)) = true ∧
    (decideVerdict [(0, 4, false)] false).1 = 4 ∧ (decideVerdict [] false).1 ≠ 4 ∧ (withEntry live).entry 5 = live ∧
    ([[], [List.replicate 64 0]] : List (List (List Nat))).all (fun q =>
      let f : FeedWait := { issuer := byZ 0x11, length := 0, blocks := 1 }
      let e := ((imgWith live).setHome 5 { HomeAux.zero with hashQ := q, feeds := [f] }).elapse now
      !e.inReset && (e.homeAt 5).hashQ == q && (e.homeAt 5).feeds == [f] && f.issuer.src.isNone) = true := by decide +kernel
theorem witness_ClusterPower :
    (let e := (worked (workOf .commit none false) .waking).elapse now
     e.inReset = false ∧ 7 < e.clk.clusters.length ∧ (e.cluster 7).power = .waking ∧ e.fine ≤ (e.cluster 7).wakeAt + fineOf 2000 + gateUp.fine) ∧
    (let e := ({ worked (workOf .commit none false) .waking with tm := { gateImg.tm with t48 := 2000 * 2 ^ 48 } } : State).elapse now
     e.fine ≤ (e.cluster 7).wakeAt + fineOf 2000 ∧ (e.cluster 7).wakeAt + fineOf 2000 ≤ e.fine) ∧
    (let e := ({ worked (workOf .commit none false) .waking with tm := { gateImg.tm with t48 := 1999 * 2 ^ 48 } } : State).elapse now
     e.fine < (e.cluster 7).wakeAt + fineOf 2000) ∧
    (let e := (worked (workOf .commit (some 2) false) .started).elapse now
     (e.cluster 7).power = .started ∧ e.holdsWork 7 = false ∧ e.holdsWork 2 = true ∧
     (e.cluster 7).idleSince + fineOf (1000 * bf e.clk.ctlIn 52 47) ≤ e.fine) ∧ (gateUp.cluster 0).power ≠ .waking := by decide +kernel
theorem witness_ClocksAndAgeing :
    ([(1400, true), (1000, false), (1350, false)] : List (Nat × Bool)).all (fun x =>
      let e := ({ gateImg with clk := { gateImg.clk with mhz := x.1, throttle := x.2 } } : State).elapse now
      e.clk.mhz == x.1 && !e.clk.sleeping && e.clk.raise.isNone && e.clk.stepAt == 0 && e.clk.throttle == x.2 && decide (e.clk.throttleAt + 64 ≤ e.tm.refclk) &&
        (if x.2 then decide (e.fFloor < x.1) else decide (x.1 < e.fRun) && decide (bandOf (min e.fRun (x.1 + 100)) ≤ bandOf x.1) == (x.1 == 1350))) = true ∧
    (let e := ({ gateImg with clk := { gateImg.clk with stepAt := 2937 } } : State).elapse now; e.clk.stepAt ≠ 0 ∧ e.tm.refclk < e.clk.stepAt + 64) ∧
    (let e := ({ gateImg with clk := { gateImg.clk with raise := some (gateImg.fine, 1400) } } : State).elapse now
     e.inReset = false ∧ e.clk.raise = some (gateImg.fine, 1400) ∧ e.clk.remeasure = none ∧ gateImg.fine ≤ e.fine ∧ e.fine < gateImg.fine + 1) ∧
    ([0, 1] : List Nat).all (fun n =>
      let q := 2 ^ 37 - fineOf 1000000 + n
      let e := ({ atTick gateUp 2 with clk := { gateUp.clk with ctlIn := 1 <<< 42, quietSince := some q } } : State).elapse now
      e.clk.quietSince == some q && !e.clk.sleeping && decide (q + fineOf 1000000 ≤ e.fine) == (n == 0)) = true ∧
    (({ gateUp with clk := { gateUp.clk with sleeping := true } } : State).elapse now).clk.sleeping = true ∧
    (let s : State := { gateUp with rs := { gateUp.rs with start := some { reach := .cold, at' := 0, held := false, training := true, measured := false } } }
     let e := s.elapse now
     let f (c : Nat) := planOf (planFmin (e.grade.clusters + 1) (e.agHistory ++ [List.replicate 9 c]))
     e.measureDue = some 1 ∧ e.clk.remeasure = none ∧ e.clk.sleeping = false ∧ (f 50 < min e.runMhz 1600 ∧ e.clk.ageOfs < 30) ∧
     ¬ (f 255 < min e.runMhz 1600 ∧ e.clk.ageOfs < 30) ∧ (gateUp.elapse now).measureDue = none) := by decide +kernel
theorem witness_TimeEvents :
    (let u : State := { gateImg with tm := { gateImg.tm with ctlIn := pack [(2, 63, 62), (1, 61, 60)] } }
     u.tmMode ≠ 0 ∧ u.deposed = false ∧ u.tmSource = 1 ∧
     ([1000 * 2 ^ 16, 1000 * 2 ^ 16 + 1] : List Nat).all (fun x =>
       let f := fineOf 1000000000 + x
       ((f : Int) - (nearestMultiple f (fineOf 1000000000) : Int)).natAbs == x) = true) ∧
    ([0, 2] : List Nat).all (fun c =>
      let e := ({ gateImg with tm := { gateImg.tm with ctlIn := pack [(2, 63, 62), (c, 61, 60)] } } : State).elapse now
      e.tmMode != 0 && !e.deposed && e.tmSource == c) = true ∧
    ([0, 1] : List Nat).all (fun n =>
      let s : State := { gateImg with tm := { gateImg.tm with ctlIn := 0xA000_0000_0000_0000 } }
      let e := ({ s with tm := { s.tm with refclk := s.tm.lastMeas + 8 * s.interval - n } } : State).elapse now
      e.disciplined && e.tm.locked && decide (e.tm.lastMeas + 8 * e.interval ≤ e.tm.refclk) == (n == 0)) = true ∧
    ([3, 4] : List Nat).all (fun n =>
      let s : State := { ringImg with
        net := { ringImg.net with paired := true, twin := 3 }
        tm := { gateImg.tm with ctlIn := 0, master := 3, masterTwin := some 0, silent := n } }
      let e := s.elapse now
      !e.inReset && e.net.paired && e.tmMode == 0 && !e.tm.serving && e.tm.masterTwin == some e.gate && e.net.twin == e.tm.master && e.tm.silent == n) = true := by
  decide +kernel
/-- A message's header and itself: type, destination, source, broadcast, hops; payload words after it. -/
def msgH (t d s : Nat) (b : Bool) (n : Nat) : Word := pack [(1, 63, 63), (6, 62, 60), (t, 59, 54), (d, 53, 44), (s, 43, 34), (b2n b, 33, 33), (n, 24, 15)]
def msg (h a b c : Word) : Item := { w0 := h, w1 := a, w2 := b, w3 := c, w4 := 0, w5 := 0, w6 := 0, w7 := 0 }
def rx (it : Item) (f : Find) : RxMsg := { link := 0, item := it, find := f }
/-- A whole message of this gate's epoch, on a link in use, to this gate alone. -/
def delivers (s : State) (t : Nat) (x : RxMsg) : Bool :=
  s.ringOn && s.links.contains x.link && x.find == .clean && wKind x.item.w0 == 6 && rType x.item.w0 == t && (!rBcast x.item.w0) &&
    rDst x.item.w0 == s.gate && !s.inReset && (rEpoch x.item.w0 + 256 - s.com.epoch) % 256 == 0
theorem delivered_of (s : State) (t : Nat) (x : RxMsg) (h : delivers s t x = true) : Delivered s t x := by
  simp only [delivers, Bool.and_eq_true, beq_iff_eq, Bool.not_eq_true'] at h
  obtain ⟨⟨⟨⟨⟨⟨⟨⟨h1, h2⟩, h3⟩, h4⟩, h5⟩, h6⟩, h7⟩, h8⟩, h9⟩ := h
  exact ⟨h1, h2, h3, h4, h5, .inr ⟨h6, h7⟩, h8, .inr (.inl h9)⟩
/-- A message of gate 3 is delivered, and the state in which it was heard passes a test. -/
def hearing (s : State) (t : Nat) (ws : List Word) (p : State → Item → Bool) : Bool :=
  let it := itemOf idleWord (msgH t s.gate 3 false 0 :: ws)
  let e := if t = 0x10 then s.moved (.time now (rx it .clean)) else s.elapse now
  delivers e t (rx it .clean) && p (e.heard (rx it .clean)) it
/-- The gate paired with gate 3. -/
def twinImg : State := { ringImg with net := { ringImg.net with paired := true, twin := 3 } }
theorem witness_StoreWalks :
    (let s : State := { atTick gateUp 2 with tier := { tierImg.tier with devs := tierImg.tier.devs.set 1 { Dev.zero with trained := true } } }
     let e := s.elapse now
     e.inReset = false ∧ (e.dev 1).trained = true ∧ (e.dev 1).selfref = false ∧ e.tier.alloc = [] ∧ (e.dev 1).lastUse + 1000000 ≤ e.now) ∧
    (let r : StartRun := { reach := .cold, at' := 0, held := false, training := true, measured := false }
     let e := State.reset.elapse now
     e.rs.start = some r ∧ e.tier.training = true ∧ e.inReset = false ∧ r.held = false ∧ e.tier.devs.length = 20 ∧
     (List.replicate e.grade.tierDevices (⟨16, [0], []⟩ : DevTrain)).length = e.grade.tierDevices ∧ e.grade.tierDevices ≤ 20 ∧
     (trainCold ⟨16, [0], []⟩).trained = true) ∧
    (gateUp.elapse now).scrubRuns = true ∧ (gateUp.elapse now).img.scrubFrom.getD 3 0 ≤ (gateUp.elapse now).tm.refclk ∧
    (gateUp.elapse now).trb.tabDue ≤ (gateUp.elapse now).tm.refclk ∧ (gateUp.elapse now).trb.retDue ≤ (gateUp.elapse now).tm.refclk := by decide +kernel
theorem witness_SolsticeTicks :
    gateUp.tm.ppsEdge = none ∧ now.finds = [] ∧ (gateUp.diffArea3.pass 0 0).tick ≤ gateUp.tm.lastTick ∧
    ([none, some .warm] : List (Option Reach)).all (fun r =>
      let s : State := { atTick gateUp 1 with rs := { gateUp.rs with reach := r }, tm := { (atTick gateUp 1).tm with lastTick := 0 } }
      s.inReset == r.isSome && s.tm.ppsEdge.isNone && (s.diffArea3.pass 0 0).tick == s.tm.lastTick + 1) = true := by decide +kernel
theorem witness_LedgerTicks : swf Ledger.zero gateImg.ledgers = true ∧ (gateImg.ledger 0).valid = true ∧ (gateImg.ledger 0).held = 0 := by decide +kernel
theorem witness_GrantsShareCapacity :
    (([⟨0, 5, 1⟩, ⟨1, 6, 2⟩] : List Claim).map (·.rate)).sum ≤ 11 ∧ ∀ c ∈ ([⟨0, 5, 1⟩, ⟨1, 6, 2⟩] : List Claim), 1 ≤ c.weight := by decide
theorem witness_TimedEvents :
    ([(0, 1), (0, 0), (1, 1), (2, 1)] : List (Nat × Nat)).all (fun x =>
      let n := { live with openTime := 2 ^ 20 - 1000, deadline := 1, edge := x.1 != 2 }
      let s := (if x.1 = 1 then turned [tokAt 7 none] false (some 0) none else imgWith live).setEntry 5 n
      let e := (atTick (if x.1 = 2 then s.setHome 5 { HomeAux.zero with streamEnded := false } else s) x.2).elapse now
      !e.inReset && (e.entry 5).home && (e.entry 5).deadlinePast e.tick == (x.2 == 1) && (e.entry 5).edge == (x.1 != 2) && (e.entry 5).state == .live &&
        (e.entry 5).pendOp == 0 && (e.edgeAt 5).turnOpen == (x.1 == 1) && (e.homeAt 5).feeds.isEmpty && (e.homeAt 5).closeFor.isNone &&
        (x.1 != 1 || ((e.edgeAt 5).held.getLast? == some (tokAt 7 none) && (e.edgeAt 5).tIn == some 0)) &&
        (x.1 != 2 || !(e.homeAt 5).streamEnded)) = true ∧
    ([2999, 3000] : List Nat).all (fun k =>
      let e := (atTick (withEntry parked) k).elapse now
      e.entries == [(5, parked)] && e.tier.dir.isEmpty && decide (parked.expiry ≤ e.tick) == (k == 3000) && swf Entry.zero e.entries) = true ∧
    ([1, 2] : List Nat).all (fun k =>
      let e := (atTick (withEntry { live with state := .cancelled }) k).elapse now
      (e.entry 5).state == .cancelled && decide ((e.slotAt 5).cancelTick + 2 ≤ e.tick) == (k == 2)) = true ∧
    ([0, 1] : List Nat).all (fun k =>
      let e := (atTick (withEntry { live with state := .opening, pendOp := 0x10, pendSmp := true }) k).elapse now
      (e.entry 5).state == .opening && decide ((e.slotAt 5).openedAt + 2 ^ 20 ≤ e.tick * 2 ^ 20) == (k == 1) && (e.entry 5).pendOp != 0 &&
        (e.entry 5).pendIssuer.src.isNone && (e.entry 5).pendIssuer.smp) = true ∧
    ([(0, none), (1, none), (1, some 5)] : List (Nat × Option Nat)).all (fun x =>
      let f : Fwd := { issuer := byZ 0x12, dst := 3, slot := x.2, since := 0 }
      let s := withEntry { live with pendOp := 0x12, pendTag := 0x1234, pendSmp := true }
      let e := (atTick { s with cmi := { s.cmi with fwds := [f] } } x.1).elapse now
      e.cmi.fwds == [f] && decide (f.since + 2 ^ 20 ≤ e.tick * 2 ^ 20) == (x.1 == 1) && (e.entry 5).pendIssuer == f.issuer && (e.entry 5).pendOp != 0) = true := by
  decide +kernel
theorem witness_CommitProgress :
    ([(coord .variant 2, ringImg), (coord .variant 2, gateImg), ({ coord .mode 2 with modeCommit := true }, gateImg), (coord .mode 2, gateImg),
      (coord .mode 3, gateImg)] : List (Coord × State)).all (fun x =>
      let e := ({ x.2 with com := { x.2.com with coord := some x.1 } } : State).elapse now
      !e.inReset && e.com.coord == some x.1 && !x.1.decided && !x.1.going && decide (x.1.target ≤ e.tick + 2) == (x.1.target == 2) &&
        e.allAcked x.1 == x.2.net.routes.isEmpty) = true ∧
    ([(.image, 1), (.variant, 1), (.mode, 1), (.mode, 0)] : List (Kind × Nat)).all (fun x =>
      let g := { change x.1 1 with go := true }
      let e := (atTick { tierImg with com := { tierImg.com with staged := some g }, img := { gateImg.img with load := .committing, loading := some img } } x.2).elapse now
      let kept (v : Nat) : Bool := [true, false].all (fun eg => [0, 1, 2, 3].all (fun l => (e.laneAt eg l).period == img.contract.periodOf v (b2n eg) l))
      e.com.staged == some g && e.com.coord.isNone && g.go && decide (g.target ≤ e.tick) == (x.2 == 1) && e.contract == some img.contract &&
        e.img.loading == some img && e.net.heldMsgs.isEmpty && kept e.bal.active && kept g.variant && kept img.meter.initial) = true ∧
    ([0, 1] : List Nat).all (fun n =>
      let e := ({ gateImg with img := { gateImg.img with retiring := some { img with gen := n }, retireFrom := n } } : State).elapse now
      e.img.retiring == some { img with gen := n } && !e.imageUsed n && decide (e.img.retireFrom ≤ e.tick) == (n == 0)) = true ∧
    ((worked (workOf .commit none false) .started).elapse now).imageUsed 1 = true := by decide +kernel
theorem witness_MessagesAct :
    ([0x01, 0x02, 0x03, 0x04, 0x05, 0x06, 0x07, 0x08, 0x09, 0x0A, 0x10, 0x11, 0x18, 0x19, 0x1A, 0x1B, 0x20, 0x21, 0x28] : List Nat).all
      (fun t => hearing twinImg t [0, 0, 0] (fun _ _ => true)) = true := by decide +kernel
/-- The gate on the ring with an entry in slot 5. -/
def ringWith (e : Entry) : State := ringImg.setEntry 5 e
theorem witness_SessionMessages :
    hearing (ringWith { live with edge := false, edgeGate := 3 }) 0x01 [tokenWord 5 1 0 3] (fun h it =>
      let n := h.entry (wSlot it.w1)
      wKind it.w1 == 1 && n.gen == wGen it.w1 && n.home && n.state == .live && wPos it.w1 == n.length && (h.homeAt 5).work.isEmpty) = true ∧
    hearing ((ringWith { live with home := false }).setEdge 5 { EdgeAux.zero with turnOpen := true, held := [tokAt 0 none] }) 0x01
      [pack [(4, 62, 60), (5, 59, 47), (1, 46, 38)]] (fun h it =>
      let n := h.entry (wSlot it.w1)
      let v := verdictOf it.w1
      wKind it.w1 == 4 && v.form == 0 && v.action == 0 && n.gen == wGen it.w1 && n.edge && n.state == .live && v.pos == 0 &&
        (h.edgeAt (wSlot it.w1)).held == [tokAt 0 none] && (h.edgeAt (wSlot it.w1)).tIn.isNone) = true ∧
    ([7, 1] : List Nat).all (fun r => hearing { ringImg with role := r } 0x02 [pack [(5, 49, 37), (1, 17, 8)], 0, 0, 0, 0] (fun h it =>
      !h.ageing && (h.homeOpenCheck (OpenReq.ofWords (msgWords it)) 3).isNone == (r == 7))) = true ∧
    hearing (ringWith { Entry.zero with state := .opening, homeGate := 3, edge := true, pendOp := 0x10 }) 0x03 [hdlWord (handleOf 3 5 1), 0] (fun h it =>
      let n := h.entry (hdlSlot (hdlOf it.w1))
      n.state == .opening && n.homeGate == rSrc it.w0 && n.homeGate == hdlGate (hdlOf it.w1) && Status.ofCode (bf it.w2 7 0) == .ok && n.pendOp != 0 &&
        !n.pendSmp) = true ∧
    hearing ((ringWith live).setEdge 5 { EdgeAux.zero with mark := true }) 0x04 [hw + 1] (fun h it =>
      h.matches (hdlOf it.w1) && (h.entry 5).edge && hdlSlot (hdlOf it.w1) == 5 && (h.edgeAt 5).mark && bit it.w1 0 && (h.entry 5).state == .live) = true ∧
    hearing ((ringWith { live with state := .speculating }).setHome 5 { HomeAux.zero with step := some true }) 0x05 [hw] (fun h it =>
      h.matches (hdlOf it.w1) && (h.entry 5).home && (h.entry 5).state == .speculating && (h.homeAt 5).work.isEmpty && (h.homeAt 5).step == some true) = true ∧
    hearing (ringWith live) 0x06 [hw] (fun h it => h.matches (hdlOf it.w1) && (h.entry 5).home && (h.entry 5).state == .live) = true ∧
    ([false, true] : List Bool).all (fun o =>
      hearing ((ringWith { live with home := false }).setEdge 5 { EdgeAux.zero with turnOpen := o, held := [tokAt 7 none], tIn := some 0 }) 0x07 [hw] (fun h it =>
        h.matches (hdlOf it.w1) && !(h.entry 5).home && (h.entry 5).state == .live && (h.entry 5).edge && (h.edgeAt 5).turnOpen == o &&
          (h.edgeAt 5).held.getLast? == some (tokAt 7 none) && (h.edgeAt 5).tIn == some 0)) = true ∧
    hearing (ringWith live) 0x08 [hw] (fun h it => h.matches (hdlOf it.w1) && (h.entry 5).state != .cancelled) = true ∧
    ([ringWith live, ringImg] : List State).all (fun s => hearing s 0x09 [header 0 0x17 2, hw, 0] (fun h it =>
      rSeq it.w0 == 0 && rEnd it.w0 && hOp it.w1 == 0x17 && hLen it.w1 == 2 && hdlSlot (hdlOf it.w2) == 5 &&
        (match h.img.force with | some im => decide ((stopsOf it.w3).1 < (h.patHdr im).stopsets) | none => false) &&
        ((h.entry 5).state == .free || (h.matches (hdlOf it.w2) && (h.entry 5).home && (h.entry 5).state == .live)))) = true ∧
    ([true, false] : List Bool).all (fun w =>
      let f : Fwd := { issuer := byZ 0x12, dst := 3, slot := some 5, since := 0 }
      let s := ringWith { live with home := false, pendOp := 0x12, pendTag := 0x1234, pendSmp := true }
      hearing { s with cmi := { s.cmi with fwds := if w then [f] else [] } } 0x0A [header 0 0x12 0] (fun h it =>
        rSeq it.w0 == 0 && rEnd it.w0 && h.cmi.fwds == (if w then [f] else []) && f.dst == rSrc it.w0 && f.issuer.op == hOp it.w1 &&
          f.issuer.part == hPart it.w1 && f.issuer.tag == hTag it.w1 && (h.entry 5).pendIssuer == f.issuer && (h.entry 5).pendOp != 0)) = true := by decide +kernel
theorem witness_MessagesPassOn :
    ([(gateUp, 0), (ringImg, 1)] : List (State × Nat)).all (fun x =>
      let e := x.1.moved (.ringForward now { link := x.2, item := item (msgH 1 3 2 false 0), find := .clean })
      !e.ringOn || !e.links.contains x.2) = true ∧
    ([(1, 1021), (1, 1022), (0x3F, 0)] : List (Nat × Nat)).all (fun y =>
      let h := msgH y.1 3 2 false y.2
      let e := ringImg.moved (.ringForward now (rx (item h) .clean))
      e.ringOn && e.links.contains 0 && wKind h == 6 && !rBcast h && (ringClass (rType h) false).isSome == (y.1 == 1) && rDst h != e.gate &&
        e.route (rDst h) == some (0, 1) && rType h != typTime && rHops h == y.2) = true ∧
    ([(1, 3), (0x28, 0), (0x18, 1), (0x10, 2)] : List (Nat × Nat)).all (fun y =>
      let x := rx (item (msgH y.1 0 2 false 0)) .bad
      let e := ringImg.moved (.ringForward now x)
      e.ringOn && e.links.contains 0 && x.headerReadable && wKind x.item.w0 == 6 && ringClass (rType x.item.w0) false == some y.2 && !e.inReset) = true := by
  decide +kernel
theorem witness_MessageEffects :
    hearing ringImg 0x10 [0, 0, pack [(3, 63, 54)]] (fun u _ => u.tmMode == 2) = true ∧
    ([0, 1] : List Nat).all (fun g => hearing
      { ringImg with tm := { ringImg.tm with ctlIn := 0 }, net := { ringImg.net with cfg := ringImg.net.cfg + pack [(g, 46, 37)] } } 0x10
      [0, word (ringImg.tm.t48 >>> 32), pack [(3, 63, 54)]] (fun u it =>
        u.tmMode == 0 && !u.tm.serving && u.knownSender (bf it.w3 63 54) && u.isLead == (g == 0) && !bit it.w3 32 &&
          decide (((u.fine : Int) - ((bf it.w1 63 20 * 2 ^ 36 + it.w2.toNat + fineOf (bf it.w3 42 33 * u.hopNs) : Nat) : Int)).natAbs ≤ 1000 * 2 ^ 16))) = true ∧
    ([ringImg, { ringImg with tm := { ringImg.tm with ctlIn := 0 } }] : List State).all (fun s => hearing s 0x11 [0, 0] (fun h _ => h.isCoord == s.isCoord)) = true ∧
    ([true, false] : List Bool).all (fun locked => hearing { ringImg with tm := { ringImg.tm with locked := locked } } 0x18 (preparePayload (change .mode 3))
      (fun h it => (h.stageCheck (h.stagedOf (msgWords it))).isNone == locked)) = true ∧
    ([(2, 0, true), (3, 0, true), (2, 1, true), (2, 0, false)] : List (Nat × Nat × Bool)).all (fun x =>
      let c := coord .variant 2
      let s := { ringImg with com := { ringImg.com with coord := some c },
                              net := { ringImg.net with routes := ringImg.net.routes ++ (if x.2.2 then [] else [(4, pack [(1, 63, 63), (2, 60, 51)])]) } }
      hearing s 0x19 [pack [(x.1, 63, 20), (x.2.1, 7, 0)]] (fun h it =>
        h.com.coord == some c && (c.target == targetOf it.w1) == (x.1 == 2) && !c.decided && bf it.w1 7 0 == x.2.1 &&
          h.allAcked { c with acks := c.acks ++ [rSrc it.w0] } == x.2.2)) = true ∧
    ([0x1A, 0x1B] : List Nat).all (fun t => ([8, 9] : List Nat).all (fun n =>
      let s := { ringImg with com := { ringImg.com with staged := some (change .image 9) }, img := { ringImg.img with load := .committing } }
      hearing s t [pack [(n, 63, 20)]] (fun h it => h.com.staged == some (change .image 9) && ((change .image 9).target == targetOf it.w1) == (n == 9) &&
        h.com.refused.isNone && h.img.load == .committing))) = true ∧
    hearing { ringImg with com := { ringImg.com with refused := some (9, .variant) } } 0x1B [pack [(9, 63, 20)]] (fun h it =>
      h.com.refused == some (9, .variant) && targetOf it.w1 == 9) = true ∧
    hearing twinImg 0x20 [pack [(1, 63, 63), (3, 62, 61), (62, 60, 39)], 7, 0, 0, 0, 0] (fun h it =>
      h.net.paired && rSrc it.w0 == h.net.twin && bit it.w1 63 && !bit it.w3 63 && !bit it.w5 63 &&
        decide (mirrorPlace (bf it.w1 62 61) (bf it.w1 60 39) + 1 < mirrorSize)) = true ∧
    ([true, false] : List Bool).all (fun w => hearing { ringImg with tier := tierImg.tier, com := { ringImg.com with window := w } } 0x21 [0] (fun h it =>
      !bit it.w1 63 && !bit it.w1 62 && h.mayPair 3 == !w && (h.dev 0).trained)) = true ∧
    ([true, false] : List Bool).all (fun k =>
      hearing { ringImg with com := { ringImg.com with restarts := if k then [(3, 7)] else [] } } 0x28 [pack [(3, 63, 54), (7, 53, 10)]] (fun h it =>
        h.com.restarts.contains (bf it.w1 63 54, bf it.w1 53 10) == k)) = true := by decide +kernel
theorem witness_RingSends :
    (let q (c : Nat) : QMsg := { cls := c, since := 0, item := msg (msgH 1 3 0 false 0) 0 0 0 }
     ([([q 5, q 3, q 4], [], false), ([], [], false), ([], [q 5, q 5], true)] : List (List QMsg × List QMsg × Bool)).all (fun x =>
       let d := ({ ringImg with img := ImageU.zero, net := { ringImg.net with paired := x.2.2, twin := 3 } } : State).diffArea3
       let e := ({ d with net := { d.net with queues := [x.1, [], [], []], mirrorQ := x.2.1 } } : State).elapse now
       e.links.contains 0 && e.ringOn && e.contract.isNone && e.net.queues.length == 4 && e.net.sent.length == 4 && e.net.queues.getD 0 [] == x.1 &&
         e.net.mirrorQ == x.2.1 && (e.twinLink == some 0) == x.2.2) &&
       (q 3).cls < 5 && [q 5].all (fun x => decide ((q 3).cls < x.cls)) && [q 4].all (fun x => decide ((q 3).cls ≤ x.cls))) = true ∧
    (gateUp.elapse now).links.contains 3 = false ∧ (gateUp.elapse now).inReset = false ∧ (gateUp.elapse now).net.paired = false ∧
    ([none, some 0, some (mirrorSize - 1)] : List (Option Nat)).all (fun c =>
      let d := twinImg.diffArea3
      let e := ({ d with net := { d.net with copyNext := c, mirrorWait := [] } } : State).elapse now
      e.net.paired && !e.inReset && e.net.copyNext == c && e.net.mirrorWait.isEmpty && decide (e.net.mirrorQ.length < 4096)) = true ∧
    ([none, some (byZ 0x50)] : List (Option Issuer)).all (fun i =>
      let e := ({ twinImg with net := { twinImg.net with copyNext := some mirrorSize, pairFor := i, peerDone := true } } : State).elapse now
      e.net.paired && e.net.copyNext == some mirrorSize && e.net.pairFor == i && e.net.peerDone) = true := by decide +kernel
theorem witness_ResetSourcesAndReleases :
    (let r (n : Nat) : State := { gateUp with rs := { gateUp.rs with reach := some .job, until' := 3000, clearAt := n }, tm := { gateUp.tm with refclk := 5096 } }
     ((r 1000).elapse now).rs.reach = some .job ∧ ((r 1000).elapse now).rs.until' ≤ ((r 1000).elapse now).tm.refclk ∧
     ((r 1000).elapse now).rs.clearAt + 4096 ≤ ((r 1000).elapse now).tm.refclk ∧ ((r 1001).elapse now).tm.refclk < ((r 1001).elapse now).rs.clearAt + 4096) ∧
    (let g (n : Nat) : State := { gateUp with rs := { gateUp.rs with regions := [⟨1, n, byZ 0x4A⟩] }, tm := { gateUp.tm with refclk := 5096 } }
     ((g 1000).elapse now).rs.reach = none ∧ ((g 1000).elapse now).rs.regions = [⟨1, 1000, byZ 0x4A⟩] ∧ 1000 + 4096 ≤ ((g 1000).elapse now).tm.refclk ∧
     ((g 1001).elapse now).tm.refclk < 1001 + 4096) ∧
    (gateUp.elapse now).rs.outRise = some 1024 ∧ 1024 ≤ (gateUp.elapse now).tm.refclk ∧ (gateUp.elapse now).inReset = false ∧
    (State.reset.elapse now).tm.refclk < 1024 ∧ (({ gateUp with rs := { gateUp.rs with outRise := none } } : State).elapse now).rs.outRise = none ∧
    gateUp.hrpUp = true ∧ State.reset.hrpUp = false ∧
    (let u : State := { gateUp with rs := { gateUp.rs with abortedCmds := [byZ 0x12] } }
     u.hrpUp = true ∧ u.rs.aborted = [] ∧ u.rs.abortedCmds = [byZ 0x12]) := by
  decide +kernel
theorem witness_ResetClears :
    (imgWith parked).inReset = false ∧ (imgWith parked).tier.ops = [] ∧ swf Partn.cold (imgWith parked).parts = true ∧ swf Entry.zero (imgWith parked).entries = true ∧
    ((imgWith parked).entry 5).parked = true ∧ ((imgWith live).entry 5).parked = false ∧ ((imgWith live).entry 5).state ≠ .free := by decide +kernel
theorem witness_IdentityConstant : State.reset.grade = .full ∧ ({ State.reset with grade := .half } : State).grade = .half ∧
    ∃ t, exec (.nop now) gateUp = .next t := ⟨rfl, rfl, _, rfl⟩
theorem witness_DeadlineTicks :
    let e : Entry := { Entry.zero with openTime := 2 ^ 64 - 2 ^ 20 - 1000, deadline := 1 }
    e.deadline ≠ 0 ∧ e.openTime + e.deadline * 1000 + 2 ^ 20 ≤ 2 ^ 64 := by decide
theorem witness_SupplyWord : (600 ≤ 600) ∧ (600 + 200 * 0 < 601 ∧ 800 ≤ 800 + 200 * 0) ∧ (4 ≤ 4 ∧ 600 + 200 * 4 < 1401 ∧ 1600 ≤ 800 + 200 * 4) ∧
    gateUp.rs.reach ≠ some .cold := by decide
theorem witness_TimeAdvances : gateUp.tm.slewLeft = 0 ∧ gateUp.tm.c = 0 ∧ ({ gateUp.tm with c := 1000000 } : TimeU).c = 1000000 := by decide
theorem witness_TroubleEntries :
    (gateUp.setSticky .port).logSame (logWord1 .port 1 Obj.none none 0) (Obj.val Obj.none) = false ∧
    ((gateUp.trouble .port 1 Obj.none none 0).setSticky .port).logSame (logWord1 .port 1 Obj.none none 0) (Obj.val Obj.none) = true := by decide +kernel
/-- One command of each kind, with a part of the state it leaves. -/
theorem witness_frames :
    (Instr.opcode (.nop now)).isSome = true ∧ Field.mem ∉ touches (.nop now) ∧ (∃ t, exec (.nop now) (sent gateUp 0 1 []) = .next t ∧ t.inReset = false) ∧
    (Instr.message (.go now (rx (msg 0 0 0 0) .clean))).isSome = true ∧ Field.mem ∉ touches (.go now (rx (msg 0 0 0 0) .clean)) ∧
    (∃ t, exec (.go now (rx (msg 0 0 0 0) .clean)) twinImg = .next t ∧ t.inReset = false) ∧
    Instr.opcode (.extest now) = none ∧ Instr.message (.extest now) = none ∧ Field.mem ∉ touches (.extest now) ∧ (gateUp.moved (.extest now)).inReset = false ∧
    (∃ t, exec (.extest now) gateUp = .next t ∧ t.inReset = false) := by
  refine ⟨rfl, by decide, ⟨_, rfl, ?_⟩, rfl, by decide, ⟨_, rfl, ?_⟩, rfl, rfl, by decide, ?_, ⟨_, rfl, ?_⟩⟩ <;> decide +kernel

-- Single commands.
/-- The state a command answers. -/
def after (o : Host.Outcome State Fault Refusal) : State := match o with | .next t => t | _ => State.reset
/-- R348: NOP's reply repeats the opcode and the tag, version 1, status OK. -/
theorem test_nop : (after (exec (.nop now) (sent gateUp 0 0x01 []))).cmi.smpReply = [0x0110_0123_4000_0000] := by decide +kernel
/-- R355: the identity of gate 0 of the full grade, every role active. -/
theorem test_identify : (after (exec (.identify now) (sent gateUp 0 0x02 []))).cmi.smpReply.drop 1 = [0x1010_2000_1100_0000, 0xE000_0000_0000_0000] := by
  decide +kernel
/-- R112: the first handle of slot 5 at home gate 0 has generation 1; R328, R324: the session is counted. -/
theorem test_open : (let t := after (exec (.sessionOpen now) (sent gateImg 0 0x10 openHere))
    (t.entry 5).gen = 1 ∧ (t.entry 5).state = .live ∧ (t.ledger 0).sessions = 1 ∧ t.cmi.smpReply.drop 1 = [hw]) := by decide +kernel
/-- R101, R328: a FEED of two tokens takes two from the input bucket and adds two to LENGTH. -/
theorem test_feed : (let t := after (exec (.sessionFeed now) (sent (imgWith live) 0 0x11 feed2))
    (t.ledger 0).inLevel = 98 ∧ (t.entry 5).length = 2 ∧ (t.edgeAt 5).promptEnd = 2) := by decide +kernel
/-- R106: a host's cancel leaves END_REASON 1. -/
theorem test_cancel : ((after (exec (.sessionCancel now) (sent (withEntry live) 0 0x13 [hw]))).entry 5).endReason = 1 := by decide +kernel
/-- R422, R434: GATE_RESET with COLD asserts cold reach with its source bit. -/
theorem test_gate_reset : (let t := after (exec (.gateReset now) (sent gateUp 0 0x4B [0x8000_0000_0000_0000]))
    t.rs.reach = some .cold ∧ t.rs.sources.testBit srcGateReset = true ∧ t.rs.ctl = rsCtlCold) := by decide +kernel
/-- R506: TRST_N selects BYPASS. -/
theorem test_trst : (after (exec (.trstN now) gateUp)).tap.ir = 0xFF := by decide

end Sys2Proof.Tests
end

section
/-! SUPPORT. The slots of the fabric lanes: a lane read back after a write, what a good slot start does, what an egress slot carries,
and how a spring ends. -/
namespace Sys2Proof.Machine

/-! A lane and a release queue read back after a write; a write to one leaves the others. -/
theorem State.setInLane_inLaneAt_same {s : State} {l : Nat} (h : l < s.fsp.ingress.length) (v : Lane) : (s.setInLane l v).inLaneAt l = v := by
  simp [State.setInLane, State.inLaneAt, h]
theorem State.setInLane_inLaneAt_ne (s : State) {l k : Nat} (h : k ≠ l) (v : Lane) : (s.setInLane l v).inLaneAt k = s.inLaneAt k := by
  simp [State.setInLane, State.inLaneAt, List.getElem?_set_ne h.symm]
theorem State.setOutLane_outLaneAt_same {s : State} {l : Nat} (h : l < s.fsp.egress.length) (v : Lane) : (s.setOutLane l v).outLaneAt l = v := by
  simp [State.setOutLane, State.outLaneAt, h]
theorem State.setRelq_relqAt_same {s : State} {l : Nat} (h : l < s.fsp.relq.length) (q : RelQ) : (s.setRelq l q).relqAt l = q := by
  simp [State.setRelq, State.relqAt, h]
@[simp] theorem State.setInLane_setInLane (s : State) (l : Nat) (v w : Lane) : (s.setInLane l v).setInLane l w = s.setInLane l w := by
  simp [State.setInLane]
@[simp] theorem State.setOutLane_setOutLane (s : State) (l : Nat) (v w : Lane) : (s.setOutLane l v).setOutLane l w = s.setOutLane l w := by
  simp [State.setOutLane]
@[simp] theorem State.setOutLane_egress_length (s : State) (l : Nat) (v : Lane) : (s.setOutLane l v).fsp.egress.length = s.fsp.egress.length :=
  List.length_set

/-! What goes out on a lane and what an operation counts leave the table and the lanes. -/
@[simp] theorem State.drive_outLaneAt (s : State) (l : Nat) (it : Item) (k : Nat) : (s.drive l it).outLaneAt k = s.outLaneAt k := rfl
@[simp] theorem State.drive_relqAt (s : State) (l : Nat) (it : Item) (k : Nat) : (s.drive l it).relqAt k = s.relqAt k := rfl
@[simp] theorem State.setOp_inLaneAt (s : State) (o n : TierOp) (k : Nat) : (s.setOp o n).inLaneAt k = s.inLaneAt k := rfl
@[simp] theorem State.setRelq_outLaneAt (s : State) (l : Nat) (q : RelQ) (k : Nat) : (s.setRelq l q).outLaneAt k = s.outLaneAt k := rfl

/-- The operation that owes a slot of a lane is one of that lane. -/
theorem State.opAt_lane {s : State} {eg : Bool} {l n : Nat} {o : TierOp} (h : s.opAt eg l n = some o) : o.lane = l := by
  have hfound := List.find?_some h
  simp only [Bool.and_eq_true, beq_iff_eq] at hfound
  obtain ⟨⟨⟨_, hlane⟩, _⟩, _⟩ := hfound
  exact hlane

/-! A slot start against the lane's period (R57). -/
theorem Lane.advance_onPeriod {v : Lane} (hp : v.period ≠ 0) (ha : v.awaiting = none) : v.advance v.period = some v.nextSlot := by
  simp [Lane.advance, hp, ha]
theorem Lane.advance_offPeriod {v : Lane} {gap : Nat} (ha : v.awaiting = none) (hg : gap ≠ v.period) : v.advance gap = none := by
  simp [Lane.advance, ha, hg]

/-- A violation of the period outside a reset ends the job. -/
theorem State.overrun_ends {s : State} (eg : Bool) (l : Nat) (h : s.inReset = false) : JobEnds s (s.overrun eg l) .contract := State.jobFault_ends _ _ _ _ h

/-- A lane once one more slot of it has started (R42). -/
def Lane.counted (v : Lane) : Lane := { v with nextSlot := (v.nextSlot + 1) % 2 ^ 48 }
@[simp] theorem Lane.counted_nextSlot (v : Lane) : v.counted.nextSlot = (v.nextSlot + 1) % 2 ^ 48 := rfl
@[simp] theorem Lane.counted_fifo (v : Lane) : v.counted.fifo = v.fifo := rfl

/-- A good start of a lane that awaits none and has no dead slots only counts its slot. -/
theorem State.started_eq {s : State} {eg : Bool} {l : Nat} (ha : (s.laneAt eg l).awaiting = none) (hd : (s.laneAt eg l).dead = []) :
    s.started eg l (s.laneAt eg l).nextSlot = s.setLane eg l (s.laneAt eg l).counted := by
  unfold State.started Lane.counted
  generalize s.laneAt eg l = v at *
  cases v
  simp_all

/-! The item of an ingress slot. -/
theorem State.arrive_unowed {s : State} {l n : Nat} (stalls : Nat) (it : Item) (ho : s.opAt false l n = none) (hf : (s.inLaneAt l).fifo.items.length < 512)
    (hd : (s.inLaneAt l).dead = []) : s.arrive l n stalls it = s.setInLane l { s.inLaneAt l with fifo := (s.inLaneAt l).fifo.push n it } := by
  have hfull : (s.inLaneAt l).fifo.full = false := by simpa [SlotFifo.full] using Nat.ne_of_lt hf
  simp [State.arrive, ho, hfull, Lane.deadAt, hd]

theorem State.arrive_owed {s : State} {l n : Nat} {o : TierOp} {it : Item} (stalls : Nat) (ho : s.opAt false l n = some o)
    (hf : (s.inLaneAt l).fifo.items.length < 512) (hg : s.goodItem o (n - o.first) it = true) :
    s.arrive l n stalls it = (s.setInLane l { s.inLaneAt l with fifo := (s.inLaneAt l).fifo.push n it }).setOp o { o with done := n + 1 - o.first } := by
  have hfull : (s.inLaneAt l).fifo.full = false := by simpa [SlotFifo.full] using Nat.ne_of_lt hf
  simp [State.arrive, ho, hfull, hg]

/-- What a row of the lanes does to the state once its moment has come. -/
theorem exec_fspIngressSlot_eq (m : Moment) (l gap : Nat) (it : Item) (taken : Nat) (f : Find) (stalls : Nat) (s : State) :
    exec (.fspIngressSlot m l gap it taken f stalls) s = .next ((s.elapse m).onFspIngressSlot l gap it taken f stalls) := rfl
theorem exec_fspEgressSlot_eq (m : Moment) (l gap : Nat) (f : Find) (stalls : Nat) (s : State) :
    exec (.fspEgressSlot m l gap f stalls) s = .next ((s.elapse m).onFspEgressSlot l gap f stalls) := rfl

section Starts
variable {s : State} {l : Nat} (hr : s.inReset = false) (hc : s.contract ≠ none) (hl : l < 4)
include hr hc hl

theorem State.onFspIngressSlot_offPeriod {gap : Nat} (it : Item) (stalls : Nat) (ha : (s.inLaneAt l).awaiting = none) (hg : gap ≠ (s.inLaneAt l).period) :
    s.onFspIngressSlot l gap it 0 .clean stalls = s.overrun false l := by
  simp [State.onFspIngressSlot, hr, hc, Nat.not_le.2 hl, State.drain, Lane.advance_offPeriod ha hg]

theorem State.onFspEgressSlot_offPeriod {gap : Nat} (stalls : Nat) (ha : (s.outLaneAt l).awaiting = none) (hg : gap ≠ (s.outLaneAt l).period) :
    s.onFspEgressSlot l gap .clean stalls = s.overrun true l := by
  simp [State.onFspEgressSlot, hr, hc, Nat.not_le.2 hl, Lane.advance_offPeriod ha hg]

theorem State.onFspIngressSlot_onPeriod (it : Item) (stalls : Nat) (hp : (s.inLaneAt l).period ≠ 0) (ha : (s.inLaneAt l).awaiting = none)
    (hd : (s.inLaneAt l).dead = []) :
    s.onFspIngressSlot l (s.inLaneAt l).period it 0 .clean stalls =
      (s.setInLane l (s.inLaneAt l).counted).arrive l (s.inLaneAt l).nextSlot stalls it := by
  have hstart : s.started false l (s.inLaneAt l).nextSlot = s.setInLane l (s.inLaneAt l).counted := State.started_eq (eg := false) ha hd
  simp [State.onFspIngressSlot, hr, hc, Nat.not_le.2 hl, State.drain, Lane.advance_onPeriod hp ha, hstart]

theorem State.onFspEgressSlot_onPeriod (stalls : Nat) (hp : (s.outLaneAt l).period ≠ 0) (ha : (s.outLaneAt l).awaiting = none)
    (hd : (s.outLaneAt l).dead = []) :
    s.onFspEgressSlot l (s.outLaneAt l).period .clean stalls =
      (s.setOutLane l (s.outLaneAt l).counted).egressSlot l (s.outLaneAt l).nextSlot stalls .clean := by
  have hstart : s.started true l (s.outLaneAt l).nextSlot = s.setOutLane l (s.outLaneAt l).counted := State.started_eq (eg := true) ha hd
  simp [State.onFspEgressSlot, hr, hc, Nat.not_le.2 hl, Lane.advance_onPeriod hp ha, hstart]

end Starts

/-! What an egress slot carries where nothing past its tag is staged. -/
theorem State.emptySprings_eq_self {s : State} (l n : Nat) (h : ∀ o ∈ s.tier.ops, o.total ≠ 0) : s.emptySprings l n = s := by
  have : s.tier.ops.filter (fun o => o.lane == l && o.total == 0 && decide (o.first ≤ n)) = [] :=
    List.filter_eq_nil_iff.2 fun o ho => by simp [h o ho]
  simp [State.emptySprings, this]

theorem set_getD_self {α : Type} (xs : List α) (l : Nat) (d : α) : xs.set l (xs.getD l d) = xs := by
  rcases Nat.lt_or_ge l xs.length with h | h
  · simp [h]
  · exact List.set_eq_of_length_le h

/-- A lane written back with its own FIFO is as it was. -/
theorem State.setOutLane_self (s : State) (l : Nat) : s.setOutLane l { s.outLaneAt l with fifo := (s.outLaneAt l).fifo } = s :=
  congrArg (fun x => ({ s with fsp := { s.fsp with egress := x } } : State)) (set_getD_self s.fsp.egress l Lane.zero)

section Slots
variable {s : State} {l n : Nat} (ht : ∀ o ∈ s.tier.ops, o.total ≠ 0)
include ht

theorem State.egressSlot_unstaged_unowed (stalls : Nat) (f : Find) (hi : (s.outLaneAt l).fifo.items = []) (ho : s.opAt true l n = none)
    (hd : (s.outLaneAt l).dead = []) : s.egressSlot l n stalls f = s.fillSlot l f := by
  have hdead : (s.outLaneAt l).deadAt n = none := by simp [Lane.deadAt, hd]
  simp [State.egressSlot, State.emptySprings_eq_self l n ht, hi, SlotFifo.dropPast, State.setOutLane_self, ho, hdead]

theorem State.egressSlot_unstaged_owed {o : TierOp} (stalls : Nat) (f : Find) (hi : (s.outLaneAt l).fifo.items = []) (ho : s.opAt true l n = some o) :
    s.egressSlot l n stalls f = (s.abandonAt true o n stalls true).drive l idleItem := by
  simp [State.egressSlot, State.emptySprings_eq_self l n ht, hi, SlotFifo.dropPast, State.setOutLane_self, ho]

theorem State.egressSlot_staged {o : TierOp} {it : Item} (stalls : Nat) (f : Find) (hi : (s.outLaneAt l).fifo.items = [(n, it)])
    (ho : s.opAt true l n = some o) : s.egressSlot l n stalls f = s.deliver l n o it f := by
  simp [State.egressSlot, State.emptySprings_eq_self l n ht, hi, SlotFifo.dropPast, State.setOutLane_self, ho]

end Slots

/-! The release queue. -/
theorem RelQ.take_words (q : RelQ) : q.take.2 = q.words.take 8 := by
  show q.words.take (min 8 q.words.length) = _
  rw [← List.take_take, List.take_length]

theorem RelQ.take_rest {q : RelQ} (h : q.waiting = []) : q.take.1.words = q.words.drop 8 := by
  simp only [RelQ.take, RelQ.refill, RelQ.push, h, List.take_nil, List.append_nil]
  rcases Nat.le_total 8 q.words.length with hq | hq
  · rw [Nat.min_eq_left hq]
  · rw [Nat.min_eq_right hq, List.drop_length, List.drop_eq_nil_of_le hq]

theorem State.setRelq_self (s : State) (l : Nat) : s.setRelq l (s.relqAt l) = s :=
  congrArg (fun x => ({ s with fsp := { s.fsp with relq := x } } : State)) (set_getD_self s.fsp.relq l RelQ.zero)

/-- What fills a slot with nothing staged, where no CONTROL word waits (R41, R125, R27). -/
theorem State.fillSlot_clean {s : State} {l : Nat} (hw : (s.relqAt l).waiting = []) :
    ∃ q, q.words = (if s.role = 0 then (s.relqAt l).words else (s.relqAt l).words.drop 8) ∧
      s.fillSlot l .clean = (s.setRelq l q).drive l (if s.role = 0 then idleItem else itemOf idleWord ((s.relqAt l).words.take 8)) := by
  by_cases h0 : s.role = 0
  · exact ⟨s.relqAt l, by simp [h0], by simp [State.fillSlot, h0, State.setRelq_self]⟩
  · by_cases he : (s.relqAt l).words = []
    · exact ⟨s.relqAt l, by simp [he], by simp [State.fillSlot, RelQ.take_words, h0, he, State.setRelq_self, idleItem]⟩
    · exact ⟨(s.relqAt l).take.1, by simp [RelQ.take_rest hw, h0], by simp [State.fillSlot, RelQ.take_words, h0, he, fillItem]⟩

/-! The end of a spring, at the delivery of its last item or at a slip. -/
theorem State.foldl_ops {α : Type} {g : State → α → State} (hg : ∀ s x, (g s x).tier.ops = s.tier.ops) (xs : List α) :
    ∀ s : State, (xs.foldl g s).tier.ops = s.tier.ops := by
  induction xs with
  | nil => exact fun _ => rfl
  | cons x xs ih => exact fun s => (ih _).trans (hg s x)

theorem State.subHeld_ops (s : State) (t n : Nat) : (s.subHeld t n).tier.ops = s.tier.ops :=
  congrArg TierU.ops ((State.subHeld_framed (F := [.ledgers, .net]) (rst := false) rfl (Framed.refl s)).kept (f := .tier) (by decide)).symm

theorem State.freeSlice_ops (s : State) (t : Option Nat) (h p : Nat) : (s.freeSlice t h p).tier.ops = s.tier.ops := by
  unfold State.freeSlice State.freeList
  split
  · rfl
  · cases t with
    | none => rfl
    | some t => exact State.subHeld_ops _ t p

theorem State.dirPut_ops (s : State) (i : Nat) (d : Option DirEnt) : (s.dirPut i d).tier.ops = s.tier.ops := by
  unfold State.dirPut
  split
  · rfl
  · exact congrArg TierU.ops ((State.putMem_framed (F := [.mem, .img]) (rst := false) rfl (Framed.refl s)).kept (f := .tier) (by decide)).symm

theorem State.dirDrop_ops (s : State) (i : Nat) (d : DirEnt) : (s.dirDrop i d).tier.ops = s.tier.ops := by
  unfold State.dirDrop
  dsimp only
  split
  · rw [State.freeSlice_ops, State.dirPut_ops]
  · exact s.dirPut_ops i none

theorem State.endOp_ops (s : State) (o : TierOp) : (s.endOp o).tier.ops = s.tier.ops.filter (· != o) := by
  unfold State.endOp
  dsimp only
  rw [State.foldl_ops (fun s (c : Nat × DirEnt) => s.dirDrop_ops c.1 c.2), State.foldl_ops (fun s (d : Option Nat × Nat × Nat) => s.freeSlice_ops d.1 d.2.1 d.2.2)]

/-- The end of a held reply leaves the session's state, and no reply held. -/
theorem State.endPendWith_entry (s : State) (slot : Nat) (st : Status) (ws : List Word) :
    ((s.endPendWith slot st ws).entry slot).state = (s.entry slot).state ∧ ((s.endPendWith slot st ws).entry slot).pendOp = 0 := by
  unfold State.endPendWith
  dsimp only
  split
  · exact ⟨rfl, ‹_›⟩
  · rw [State.reply_entry]
    show ((s.setEntry slot _).entry slot).state = _ ∧ ((s.setEntry slot _).entry slot).pendOp = 0
    rw [State.setEntry_entry_same]
    exact ⟨rfl, rfl⟩

/-- A spring `o` of session `slot` has ended between `s` and `t`: its session is in state `st` with no reply held, the other sessions
stay, the operation is gone from the tier's list, and nothing has gone out on the lanes. -/
structure SpringEnds (s t : State) (slot : Nat) (o : TierOp) (st : Sess) : Prop where
  state : (t.entry slot).state = st
  pendOp : (t.entry slot).pendOp = 0
  others : ∀ k, k ≠ slot → t.entry k = s.entry k
  ops : t.tier.ops = s.tier.ops.filter (· != o)
  out : t.fspOut = s.fspOut

theorem SpringEnds.gone {s t : State} {slot : Nat} {o : TierOp} {st : Sess} (h : SpringEnds s t slot o st) : o ∉ t.tier.ops := by
  rw [h.ops]; simp

theorem State.springDone_ends (s : State) (o : TierOp) (slot : Nat) : SpringEnds s (s.springDone o slot) slot o .live := by
  unfold State.springDone State.endPend
  extract_lets _ s1
  have f1 : Framed false [.entries, .net] s s1 := State.setEntry_framed rfl (Framed.refl s)
  have f2 : Framed false [.entries, .cmi, .net, .hrpOut] s (s1.endPendWith slot .ok []) := State.endPendWith_framed rfl (f1.mono rfl)
  have f3 : Framed false [.ledgers, .mem, .img, .net, .tier] (s1.endPendWith slot .ok []) ((s1.endPendWith slot .ok []).endOp o) :=
    State.endOp_framed rfl (Framed.refl _)
  have he : ∀ k, ((s1.endPendWith slot .ok []).endOp o).entry k = (s1.endPendWith slot .ok []).entry k :=
    fun k => congrArg (sget Entry.zero · k) (f3.kept (f := .entries) (by decide)).symm
  obtain ⟨hstate, hpend⟩ := s1.endPendWith_entry slot .ok []
  refine ⟨?_, ?_, fun k hk => ?_, ?_, ?_⟩
  · rw [he, hstate, State.setEntry_entry_same]
  · rw [he, hpend]
  · rw [he, (OnlySlot.refl.endPendWith .ok []).others k hk, State.setEntry_entry_ne s _ hk]
  · rw [State.endOp_ops, ← show s.tier = _ from f2.kept (f := .tier) (by decide)]
  · exact ((f2.kept (f := .fspOut) (by decide)).trans (f3.kept (f := .fspOut) (by decide))).symm

/-- What abandoning a spring comes to: it holds no tenant's pages, and its session is WINTERED again (R47, R95). -/
theorem State.abandon_spring {s : State} {o : TierOp} {slot : Nat} (slips counted : Bool) (hk : o.kind = .spring slot) :
    s.abandon o slips counted =
      let u := (((s.deadOp o slips counted).endPendWith slot .slipped []).freeExtents o.extents).endOp o
      u.setEntry slot { u.entry slot with state := .wintered } := by
  simp only [State.abandon, State.opReply, State.freeOpPages, State.abandonEntry, OpKind.slot?, hk]

theorem State.abandon_ends {s : State} {o : TierOp} {slot : Nat} (slips counted : Bool) (hk : o.kind = .spring slot) :
    SpringEnds s (s.abandon o slips counted) slot o .wintered := by
  rw [State.abandon_spring slips counted hk]
  have f1 : Framed false [.fsp] s (s.deadOp o slips counted) := State.deadOp_framed rfl (Framed.refl s)
  generalize s.deadOp o slips counted = a at *
  have f2 : Framed false [.entries, .cmi, .net, .fsp, .hrpOut] s (a.endPendWith slot .slipped []) := State.endPendWith_framed rfl (f1.mono rfl)
  have hpend := (a.endPendWith_entry slot .slipped []).2
  have hothers : ∀ k, k ≠ slot → (a.endPendWith slot .slipped []).entry k = s.entry k := fun k hk =>
    ((OnlySlot.refl.endPendWith .slipped []).others k hk).trans (congrArg (sget Entry.zero · k) (f1.kept (f := .entries) (by decide)).symm)
  generalize a.endPendWith slot .slipped [] = b at *
  have f3 : Framed false [.ledgers, .mem, .img, .net, .tier] b ((b.freeExtents o.extents).endOp o) :=
    State.endOp_framed rfl (State.freeExtents_framed rfl (Framed.refl b))
  have hops : ((b.freeExtents o.extents).endOp o).tier.ops = s.tier.ops.filter (· != o) := by
    rw [State.endOp_ops, show s.tier = b.tier from f2.kept (f := .tier) (by decide)]
    rfl
  generalize (b.freeExtents o.extents).endOp o = c at *
  have he : ∀ k, c.entry k = b.entry k := fun k => congrArg (sget Entry.zero · k) (f3.kept (f := .entries) (by decide)).symm
  have f4 : Framed false [.entries, .net] c (c.setEntry slot { c.entry slot with state := .wintered }) := State.setEntry_framed rfl (Framed.refl c)
  refine ⟨?_, ?_, fun k hk => ?_, ?_, ?_⟩
  · rw [State.setEntry_entry_same]
  · rw [State.setEntry_entry_same, he, hpend]
  · rw [State.setEntry_entry_ne c _ hk, he, hothers k hk]
  · rw [← show c.tier = _ from f4.kept (f := .tier) (by decide), hops]
  · exact (((f2.kept (f := .fspOut) (by decide)).trans (f3.kept (f := .fspOut) (by decide))).trans (f4.kept (f := .fspOut) (by decide))).symm

/-- The lane of an abandoned spring counts its remaining slots as dead, and is otherwise as it was. -/
theorem State.abandon_outLaneAt {s : State} {o : TierOp} {slot : Nat} (slips counted : Bool) (hk : o.kind = .spring slot)
    (hl : o.lane < s.fsp.egress.length) : ∃ dead, (s.abandon o slips counted).outLaneAt o.lane = { s.outLaneAt o.lane with dead := dead } := by
  rw [State.abandon_spring slips counted hk]
  have hd : ∃ dead, (s.deadOp o slips counted).outLaneAt o.lane = { s.outLaneAt o.lane with dead := dead } := by
    simp only [State.deadOp, hk]
    exact ⟨_, State.setOutLane_outLaneAt_same hl _⟩
  generalize s.deadOp o slips counted = a at *
  have f : Framed false [.entries, .ledgers, .cmi, .mem, .img, .net, .tier, .hrpOut] a
      (((a.endPendWith slot .slipped []).freeExtents o.extents).endOp o) :=
    State.endOp_framed rfl (State.freeExtents_framed rfl (State.endPendWith_framed rfl (Framed.refl a)))
  generalize ((a.endPendWith slot .slipped []).freeExtents o.extents).endOp o = c at *
  have f4 : Framed false [.entries, .ledgers, .cmi, .mem, .img, .net, .tier, .hrpOut] a (c.setEntry slot { c.entry slot with state := .wintered }) :=
    State.setEntry_framed rfl f
  have hfsp : a.fsp = _ := f4.kept (f := .fsp) (by decide)
  simpa only [State.outLaneAt, ← hfsp] using hd

/-- A slip of an egress lane counts on that lane alone; the slot that comes next stays. -/
theorem State.slip_egress (s : State) (l n h sources : Nat) : (s.slip true l n h sources true).fsp.egress =
    s.fsp.egress.set l { s.outLaneAt l with slip := satAdd 32 (s.outLaneAt l).slip 1, run := some (h, n + 1) } := by
  have hlog : ∀ (u : State) (ev : SlipEv), (u.logSlip ev).fsp.egress = u.fsp.egress := fun u ev => by
    unfold State.logSlip; split <;> rfl
  unfold State.slip
  dsimp only
  split
  · rfl
  · rw [State.raise_fsp, hlog]; rfl

/-- A spring whose item is missing at a slot of its lane: the slot slips and the spring is abandoned (R47). -/
theorem State.abandonAt_ends {s : State} {o : TierOp} {slot : Nat} (n stalls : Nat) (hk : o.kind = .spring slot) (hl : o.lane < s.fsp.egress.length) :
    SpringEnds s (s.abandonAt true o n stalls true) slot o .wintered ∧
    ((s.abandonAt true o n stalls true).outLaneAt o.lane).slip = satAdd 32 (s.outLaneAt o.lane).slip 1 ∧
    ((s.abandonAt true o n stalls true).outLaneAt o.lane).nextSlot = (s.outLaneAt o.lane).nextSlot := by
  unfold State.abandonAt
  extract_lets h src
  have f : Framed false [.parts, .ints, .fsp] s (s.slip true o.lane n h src true) := State.slip_framed rfl (Framed.refl s)
  have hslip := s.slip_egress o.lane n h src
  have hl' : o.lane < (s.slip true o.lane n h src true).fsp.egress.length := by rwa [hslip, List.length_set]
  have hlane : (s.slip true o.lane n h src true).outLaneAt o.lane =
      { s.outLaneAt o.lane with slip := satAdd 32 (s.outLaneAt o.lane).slip 1, run := some (h, n + 1) } := by
    rw [State.outLaneAt, hslip]; exact State.setOutLane_outLaneAt_same hl _
  generalize s.slip true o.lane n h src true = u at *
  obtain ⟨dead, hdead⟩ := State.abandon_outLaneAt true true hk hl'
  have e := State.abandon_ends (s := u) true true hk
  refine ⟨⟨e.state, e.pendOp, fun k hne => ?_, ?_, ?_⟩, ?_, ?_⟩
  · rw [e.others k hne]; exact congrArg (sget Entry.zero · k) (f.kept (f := .entries) (by decide)).symm
  · rw [e.ops, ← show s.tier = _ from f.kept (f := .tier) (by decide)]
  · rw [e.out]; exact (f.kept (f := .fspOut) (by decide)).symm
  · rw [hdead, hlane]
  · rw [hdead, hlane]

/-! A staged item delivered. -/
@[simp] theorem SlotFifo.pop_items (f : SlotFifo) : f.pop.items = f.items.tail := by
  unfold SlotFifo.pop
  split <;> simp_all

theorem State.deliver_spring {s : State} {l n slot : Nat} {o : TierOp} (it : Item) (hr : s.inReset = false) (hk : o.kind = .spring slot) :
    s.deliver l n o it .clean =
      if n + 1 - o.first = o.total then
        (((s.setOutLane l { s.outLaneAt l with fifo := (s.outLaneAt l).fifo.pop }).setOp o { o with done := n + 1 - o.first }).drive l it).springDone
          { o with done := n + 1 - o.first } slot
      else ((s.setOutLane l { s.outLaneAt l with fifo := (s.outLaneAt l).fifo.pop }).setOp o { o with done := n + 1 - o.first }).drive l it := by
  have hr' : (s.setOutLane l { s.outLaneAt l with fifo := (s.outLaneAt l).fifo.pop }).inReset = false := hr
  simp only [State.deliver, State.fifoCheck, hr', hk, Bool.false_eq_true, if_false]

/-! The slots that start on their period, whole. -/
section Ingress
variable {s : State} {l : Nat} (hr : s.inReset = false) (hc : s.contract ≠ none) (hl : l < 4) (hlen : l < s.fsp.ingress.length)
  (hp : (s.inLaneAt l).period ≠ 0) (ha : (s.inLaneAt l).awaiting = none) (hd : (s.inLaneAt l).dead = [])
  (hf : (s.inLaneAt l).fifo.items.length < 512)
include hr hc hl hlen hp ha hd hf

theorem State.onFspIngressSlot_unowed (it : Item) (stalls : Nat) (ho : s.opAt false l (s.inLaneAt l).nextSlot = none) :
    s.onFspIngressSlot l (s.inLaneAt l).period it 0 .clean stalls =
      s.setInLane l { (s.inLaneAt l).counted with fifo := (s.inLaneAt l).fifo.push (s.inLaneAt l).nextSlot it } := by
  rw [State.onFspIngressSlot_onPeriod hr hc hl it stalls hp ha hd, State.arrive_unowed (s := s.setInLane l _) stalls it ho] <;>
    rw [State.setInLane_inLaneAt_same hlen]
  · rw [State.setInLane_setInLane, Lane.counted_fifo]
  · exact hf
  · exact hd

theorem State.onFspIngressSlot_owed {o : TierOp} {it : Item} (stalls : Nat) (ho : s.opAt false l (s.inLaneAt l).nextSlot = some o)
    (hg : s.goodItem o ((s.inLaneAt l).nextSlot - o.first) it = true) :
    s.onFspIngressSlot l (s.inLaneAt l).period it 0 .clean stalls =
      (s.setInLane l { (s.inLaneAt l).counted with fifo := (s.inLaneAt l).fifo.push (s.inLaneAt l).nextSlot it }).setOp o
        { o with done := (s.inLaneAt l).nextSlot + 1 - o.first } := by
  rw [State.onFspIngressSlot_onPeriod hr hc hl it stalls hp ha hd, State.arrive_owed (s := s.setInLane l _) stalls ho ?_ hg] <;>
    rw [State.setInLane_inLaneAt_same hlen]
  · rw [State.setInLane_setInLane, Lane.counted_fifo]
  · exact hf

end Ingress

section Egress
variable {s : State} {l : Nat} (hr : s.inReset = false) (hc : s.contract ≠ none) (hl : l < 4) (hlen : l < s.fsp.egress.length)
  (hp : (s.outLaneAt l).period ≠ 0) (ha : (s.outLaneAt l).awaiting = none) (hd : (s.outLaneAt l).dead = [])
  (ht : ∀ o ∈ s.tier.ops, o.total ≠ 0)
include hr hc hl hlen hp ha hd ht

/-- Nothing staged and nothing owed: the release queue fills the slot (R41, R125). -/
theorem State.onFspEgressSlot_fills (stalls : Nat) (hi : (s.outLaneAt l).fifo.items = []) (ho : s.opAt true l (s.outLaneAt l).nextSlot = none)
    (hw : (s.relqAt l).waiting = []) :
    ∃ q, q.words = (if s.role = 0 then (s.relqAt l).words else (s.relqAt l).words.drop 8) ∧
      s.onFspEgressSlot l (s.outLaneAt l).period .clean stalls = ((s.setOutLane l (s.outLaneAt l).counted).setRelq l q).drive l
        (if s.role = 0 then idleItem else itemOf idleWord ((s.relqAt l).words.take 8)) := by
  have hlane := State.setOutLane_outLaneAt_same hlen (s.outLaneAt l).counted
  rw [State.onFspEgressSlot_onPeriod hr hc hl stalls hp ha hd, State.egressSlot_unstaged_unowed (s := s.setOutLane l _) ht stalls .clean (by rwa [hlane]) ho (by rwa [hlane])]
  exact State.fillSlot_clean (s := s.setOutLane l _) hw

/-- Nothing staged where an operation owes an item: the slot slips and the operation is abandoned (R47). -/
theorem State.onFspEgressSlot_slips {o : TierOp} (stalls : Nat) (hi : (s.outLaneAt l).fifo.items = [])
    (ho : s.opAt true l (s.outLaneAt l).nextSlot = some o) :
    s.onFspEgressSlot l (s.outLaneAt l).period .clean stalls =
      ((s.setOutLane l (s.outLaneAt l).counted).abandonAt true o (s.outLaneAt l).nextSlot stalls true).drive l idleItem := by
  have hlane := State.setOutLane_outLaneAt_same hlen (s.outLaneAt l).counted
  rw [State.onFspEgressSlot_onPeriod hr hc hl stalls hp ha hd, State.egressSlot_unstaged_owed (s := s.setOutLane l _) ht stalls .clean (by rwa [hlane]) ho]

/-- The staged item of a spring leaves, and with the last one the spring is done (R72, R73, R308). -/
theorem State.onFspEgressSlot_delivers {o : TierOp} {it : Item} {slot : Nat} (stalls : Nat)
    (hi : (s.outLaneAt l).fifo.items = [((s.outLaneAt l).nextSlot, it)]) (ho : s.opAt true l (s.outLaneAt l).nextSlot = some o)
    (hk : o.kind = .spring slot) :
    ∃ u : State, u.fspOut = s.fspOut.set l (some it) ∧
      u.outLaneAt l = { (s.outLaneAt l).counted with fifo := (s.outLaneAt l).fifo.pop } ∧
      u.tier = { s.tier with ops := setFirst (· == o) (fun _ => { o with done := (s.outLaneAt l).nextSlot + 1 - o.first }) s.tier.ops } ∧
      u.entries = s.entries ∧
      s.onFspEgressSlot l (s.outLaneAt l).period .clean stalls =
        if (s.outLaneAt l).nextSlot + 1 - o.first = o.total then u.springDone { o with done := (s.outLaneAt l).nextSlot + 1 - o.first } slot
        else u := by
  have hlane := State.setOutLane_outLaneAt_same hlen (s.outLaneAt l).counted
  refine ⟨((s.setOutLane l { (s.outLaneAt l).counted with fifo := (s.outLaneAt l).fifo.pop }).setOp o
    { o with done := (s.outLaneAt l).nextSlot + 1 - o.first }).drive l it, rfl, State.setOutLane_outLaneAt_same hlen _, rfl, rfl, ?_⟩
  rw [State.onFspEgressSlot_onPeriod hr hc hl stalls hp ha hd, State.egressSlot_staged (s := s.setOutLane l _) ht stalls .clean (by rwa [hlane]) ho,
    State.deliver_spring (s := s.setOutLane l _) it hr hk, hlane, State.setOutLane_setOutLane, Lane.counted_fifo]

end Egress

/-- Settles O33: once the moment has come, the slot that starts on its period is one of the equations above, read off part by part,
and a start off the period is a violation. -/
theorem laneSlots : Obligations.LaneSlots := by
  unfold Obligations.LaneSlots
  simp only [exec_fspIngressSlot_eq, exec_fspEgressSlot_eq]
  refine ⟨fun m s l gap stalls it => ?_, fun m s l stalls slot it => ?_⟩
  · generalize s.elapse m = e
    intro hr hc hl hlen hp ha
    have hlen' : l < e.fsp.ingress.length := hlen ▸ hl
    refine ⟨?_, fun hg => ⟨_, rfl, ?_⟩⟩
    · rintro rfl hf hd
      refine ⟨fun ho => ⟨_, rfl, ?_⟩, fun o ho hg => ⟨_, rfl, ?_⟩⟩
      · rw [State.onFspIngressSlot_unowed hr hc hl hlen' hp ha hd hf it stalls ho]
        exact ⟨State.setInLane_inLaneAt_same hlen' _, fun k hk => State.setInLane_inLaneAt_ne _ hk _, rfl, rfl, rfl, rfl, rfl⟩
      · rw [State.onFspIngressSlot_owed hr hc hl hlen' hp ha hd hf stalls ho hg]
        exact ⟨by rw [State.setOp_inLaneAt, State.setInLane_inLaneAt_same hlen']; rfl, rfl, rfl, rfl⟩
    · rw [State.onFspIngressSlot_offPeriod hr hc hl it stalls ha hg]
      exact State.overrun_ends false l hr
  · generalize s.elapse m = e
    intro hr hc hl hlen hrlen _ hp ha hd ht
    have hlen' : l < e.fsp.egress.length := hlen ▸ hl
    have hlane : ∀ w : Lane, (e.setOutLane l w).outLaneAt l = w := State.setOutLane_outLaneAt_same hlen'
    refine ⟨fun hi ho hw => ⟨_, rfl, ?_⟩, fun o hi ho hk => ⟨_, rfl, ?_⟩, fun o hi ho hk => ?_, fun gap hg => ⟨_, rfl, ?_⟩⟩
    · obtain ⟨q, hq, hslot⟩ := State.onFspEgressSlot_fills hr hc hl hlen' hp ha hd ht stalls hi ho hw
      rw [hslot]
      have hrelq := State.setRelq_relqAt_same (s := e.setOutLane l (e.outLaneAt l).counted) (hrlen ▸ hl) q
      exact ⟨rfl, by simpa [hrelq] using hq, by simp [hlane], rfl, rfl, rfl⟩
    · rw [State.onFspEgressSlot_slips hr hc hl hlen' hp ha hd ht stalls hi ho]
      obtain rfl : o.lane = l := State.opAt_lane ho
      obtain ⟨ends, hslip, hnext⟩ := State.abandonAt_ends (s := e.setOutLane o.lane (e.outLaneAt o.lane).counted) (e.outLaneAt o.lane).nextSlot
        stalls hk (by rwa [State.setOutLane_egress_length])
      rw [hlane] at hslip hnext
      exact ⟨congrArg (·.set o.lane (some idleItem)) ends.out, ends.state, ends.pendOp, ends.others, ends.gone, hslip, hnext⟩
    · obtain ⟨u, hout, hafter, htier, hentries, hslot⟩ := State.onFspEgressSlot_delivers hr hc hl hlen' hp ha hd ht stalls hi ho hk
      refine ⟨fun hn => ⟨_, rfl, ?_⟩, fun hn hops => ⟨_, rfl, ?_⟩⟩
      · rw [hslot, if_neg hn]
        exact ⟨hout, by simp [hafter, hi], by simp [hafter], htier, hentries⟩
      · rw [hslot, if_pos hn]
        have ends := State.springDone_ends u { o with done := (e.outLaneAt l).nextSlot + 1 - o.first } slot
        have hops' : u.tier.ops = [{ o with done := (e.outLaneAt l).nextSlot + 1 - o.first }] := by simp [htier, hops, setFirst]
        refine ⟨ends.out.trans hout, ends.state, ends.pendOp, fun k hk => (ends.others k hk).trans ?_, ?_⟩
        · exact congrArg (sget Entry.zero · k) hentries
        · rw [ends.ops, hops']; simp
    · rw [State.onFspEgressSlot_offPeriod hr hc hl stalls ha hg]
      exact State.overrun_ends true l hr

end Sys2Proof.Machine
end

section
/-! SUPPORT. Releases and T_in: what comes before an end of the stream or a cancel is taken in, a late verdict, the turn's verdict at
its instant, the first held token at its own. -/
namespace Sys2Proof.Machine

/-! What the two rows do to the state once their moment has come. -/
theorem exec_tokenRelease_eq (m : Moment) (slot : Nat) (f : Find) (s : State) :
    exec (.tokenRelease m slot f) s = .next ((s.elapse m).onTokenRelease slot f) := rfl
theorem exec_tIn_eq (m : Moment) (slot : Nat) (s : State) : exec (.tIn m slot) s = .next ((s.elapse m).onTIn slot) := rfl

/-! A change of the slot's entry alone, before its stream ends or it is cancelled, leaves what the end says. -/
theorem StreamEnds.after {q s t : State} {slot length out : Nat} {r : Stop} (h : StreamEnds s t slot r length out) (k : OnlySlot slot q s)
    (ho : s.hrpOut = q.hrpOut) : StreamEnds q t slot r length out :=
  ⟨h.turn, h.stop, h.lengthIs, h.outIs, by rw [← ho, ← k.kept.gen, ← k.kept.part]; exact h.word, fun n hn => (h.others n hn).trans (k.others n hn)⟩

theorem Cancels.after {q s t : State} {slot : Nat} {c : Cancel} (h : Cancels s t slot c) (k : OnlySlot slot q s) (hc : s.clk = q.clk) :
    Cancels q t slot c := by
  have htick : s.tick = q.tick := by simp only [State.tick, State.tickAt, State.fine, k.tm, hc]
  exact ⟨h.state, h.reason, h.gen.trans k.kept.gen, h.working, h.tick.trans htick, fun n hn => (h.others n hn).trans (k.others n hn)⟩

/-- A session that is LIVE is neither FREE nor cancelled nor closing. -/
theorem State.cancelAll_cancels_live {s : State} (slot : Nat) (c : Cancel) (h : (s.entry slot).state = .live) : Cancels s (s.cancelAll slot c) slot c :=
  State.cancelAll_cancels slot c (by simp [h]) (by simp [h])

theorem State.endStreamTo_ends_live {s : State} (slot : Nat) (r : Stop) (length out : Nat) (h : (s.entry slot).state = .live) :
    StreamEnds s (s.endStreamTo slot r length out) slot r length out :=
  State.endStreamTo_ends slot r length out (by simp [h])

/-! The late-verdict counters: only a late verdict changes them. -/
@[simp] theorem State.raise_lateVerdicts (s : State) (p v k : Nat) : ((s.raise p v).part k).lateVerdicts = (s.part k).lateVerdicts := by
  have hput : ∀ q : Partn, q.lateVerdicts = (s.part p).lateVerdicts → ((s.setPart p q).part k).lateVerdicts = (s.part k).lateVerdicts := by
    intro q hq
    rw [State.setPart_part]
    split
    · next hk => rw [hk, hq]
    · rfl
  unfold State.raise
  dsimp only
  split
  · exact hput _ rfl
  · split
    · exact hput _ rfl
    · exact hput _ rfl

theorem State.lateVerdicts_of_parts {s t : State} (h : s.parts = t.parts) (k : Nat) : (s.part k).lateVerdicts = (t.part k).lateVerdicts := by
  unfold State.part; rw [h]

/-- An event of the trouble record sets its own bit in the record, and then raises vector 6 of the partition it names (R460, R465). -/
theorem State.trouble_records (s : State) (b : Sticky) (a : Nat) (o : Obj) (p : Option Nat) (d : Word) :
    ∃ u : State, u.parts = s.parts ∧ u.trb.sticky = s.trb.sticky ||| word (2 ^ b.idx) ∧ s.trouble b a o p d = p.elim u (u.raise · 6) := by
  have hlog : ∀ c : Bool, ∃ u : State, u.parts = s.parts ∧ u.trb.sticky = s.trb.sticky ||| word (2 ^ b.idx) ∧
      (if c then (s.setSticky b).logRepeat (((s.setSticky b).logNext + 255) % 256)
        else (s.setSticky b).logNew (logWord1 b a o p 0) o.val d) = u := by
    rintro (_ | _)
    · exact ⟨(s.setSticky b).logNew (logWord1 b a o p 0) o.val d, rfl, rfl, rfl⟩
    · exact ⟨(s.setSticky b).logRepeat (((s.setSticky b).logNext + 255) % 256), rfl, rfl, rfl⟩
  obtain ⟨u, hparts, hbit, hu⟩ := hlog ((s.setSticky b).logSame (logWord1 b a o p 0) o.val)
  refine ⟨u, hparts, hbit, ?_⟩
  unfold State.trouble
  dsimp only
  rw [hu]
  cases p <;> rfl

@[simp] theorem State.trouble_lateVerdicts (s : State) (b : Sticky) (a : Nat) (o : Obj) (p : Option Nat) (d : Word) (k : Nat) :
    ((s.trouble b a o p d).part k).lateVerdicts = (s.part k).lateVerdicts := by
  obtain ⟨u, hparts, _, hu⟩ := s.trouble_records b a o p d
  rw [hu, ← State.lateVerdicts_of_parts hparts k]
  cases p with
  | none => rfl
  | some p => exact u.raise_lateVerdicts p 6 k

theorem State.trouble_sticky (s : State) (b : Sticky) (a : Nat) (o : Obj) (p : Option Nat) (d : Word) :
    (s.trouble b a o p d).trb.sticky = s.trb.sticky ||| word (2 ^ b.idx) := by
  obtain ⟨u, _, hbit, hu⟩ := s.trouble_records b a o p d
  rw [hu, ← hbit]
  cases p with
  | none => rfl
  | some p => exact congrArg TroubleU.sticky (u.raise_trb p 6)

theorem State.endStreamTo_lateVerdicts (s : State) (slot : Nat) (r : Stop) (length out k : Nat) :
    ((s.endStreamTo slot r length out).part k).lateVerdicts = (s.part k).lateVerdicts := by
  unfold State.endStreamTo
  extract_lets s1 e s2 x s3 s4 s5 s6
  have f4 : Framed false [.entries, .edge, .slots, .mem, .img, .net, .fsp, .hrpOut] s s4 :=
    State.control_framed rfl (State.setEdge_framed rfl (State.setEntry_framed rfl (State.rejectDrafts_framed rfl (Framed.refl s))))
  have h5 : (s5.part k).lateVerdicts = (s.part k).lateVerdicts := by
    rw [State.lateVerdicts_of_parts (f4.kept (f := .parts) (by decide))]
    show ((if _ then _ else _ : State).part k).lateVerdicts = _
    split
    · rw [State.raise_lateVerdicts]
    · rfl
  clear_value s5
  have hend : ∀ t, Framed false [.entries, .edge, .home, .slots, .ledgers, .cmi, .mem, .img, .net, .fsp, .tier, .hrpOut] s5 t →
      (t.part k).lateVerdicts = (s.part k).lateVerdicts := fun t ht =>
    (State.lateVerdicts_of_parts (ht.kept (f := .parts) (by decide)).symm k).trans h5
  have f6 : Framed false [.entries, .edge, .home, .slots, .ledgers, .cmi, .mem, .img, .net, .fsp, .tier, .hrpOut] s5 s6 :=
    State.sendTo_framed rfl (Framed.refl s5)
  split
  · exact hend _ (State.homeStreamEnd_framed rfl (Framed.refl s5))
  · split
    · exact hend _ (State.freeEntry_framed rfl f6)
    · exact hend _ f6

/-- A late verdict is counted in the session's partition. -/
theorem State.lateVerdict_counted (s : State) (slot pos : Nat) :
    ((s.lateVerdict slot pos).part (s.entry slot).part).lateVerdicts = satAdd 32 (s.part (s.entry slot).part).lateVerdicts 1 := by
  unfold State.lateVerdict
  dsimp only
  rw [State.raise_lateVerdicts, State.trouble_lateVerdicts, State.setPart_part_same]

theorem State.lateVerdict_sticky (s : State) (slot pos : Nat) : bit (s.lateVerdict slot pos).trb.sticky 14 = true := by
  unfold State.lateVerdict
  dsimp only
  rw [State.raise_trb, State.trouble_sticky]
  exact bit_word_pow (n := 14) (by decide) _

/-- A stream that ends WITHHELD for want of a verdict (R61, R161): the late verdict is counted and reported. -/
theorem State.lateEnd_ends {s : State} (slot pos length out : Nat) (h : (s.entry slot).state = .live) :
    StreamEnds s ((s.lateVerdict slot pos).endStreamTo slot .withheld length out) slot .withheld length out ∧
    (((s.lateVerdict slot pos).endStreamTo slot .withheld length out).part (s.entry slot).part).lateVerdicts =
      satAdd 32 (s.part (s.entry slot).part).lateVerdicts 1 ∧
    bit ((s.lateVerdict slot pos).endStreamTo slot .withheld length out).trb.sticky 14 = true := by
  have f : Framed false [.trb, .parts, .ints] s (s.lateVerdict slot pos) := State.lateVerdict_framed rfl (Framed.refl s)
  have hcount := s.lateVerdict_counted slot pos
  have hbit := s.lateVerdict_sticky slot pos
  generalize s.lateVerdict slot pos = u at *
  have honly : OnlySlot slot s u := OnlySlot.refl.framed f rfl
  have hentries : s.entries = u.entries := f.kept (f := .entries) (by decide)
  have hlive : (u.entry slot).state = .live := by rw [State.entry, ← hentries]; exact h
  refine ⟨(State.endStreamTo_ends_live slot _ length out hlive).after honly (f.kept (f := .hrpOut) (by decide)).symm, ?_, ?_⟩
  · rw [State.endStreamTo_lateVerdicts, hcount]
  · have g : Framed false [.entries, .edge, .home, .slots, .ledgers, .parts, .ints, .cmi, .mem, .img, .net, .fsp, .tier, .hrpOut] u
        (u.endStreamTo slot .withheld length out) := State.endStreamTo_framed rfl (Framed.refl u)
    rw [← show u.trb = _ from g.kept (f := .trb) (by decide)]
    exact hbit

/-- What a verdict that lets the stream go on leaves in the entry: its anomaly bits, and FLAG and MASK counted (R127, R164). -/
def Entry.judged (n : Entry) (v : Verdict) : Entry :=
  { n with nanSeen := n.nanSeen || v.nan, degraded := n.degraded || v.degraded, poolFull := n.poolFull || v.poolFull,
           flagCount := if v.action = 1 then satAdd 16 n.flagCount 1 else n.flagCount,
           maskCount := if v.action = 2 then satAdd 16 n.maskCount 1 else n.maskCount }

theorem State.judged_entry (s : State) (slot : Nat) (v : Verdict) :
    ((s.stickVerdict slot v).countVerdict slot v).entry slot = (s.entry slot).judged v := by
  simp [State.stickVerdict, State.countVerdict, Entry.judged]

theorem State.stickVerdict_state (s : State) (slot : Nat) (v : Verdict) : ((s.stickVerdict slot v).entry slot).state = (s.entry slot).state := by
  simp [State.stickVerdict]

theorem OnlySlot.setEdge {slot : Nat} {r s : State} (h : OnlySlot slot r s) (n : Nat) (x : EdgeAux) : OnlySlot slot r (s.setEdge n x) :=
  h.trans (.of_entries rfl rfl)

theorem OnlySlot.stickVerdict {slot : Nat} {r s : State} (h : OnlySlot slot r s) (v : Verdict) : OnlySlot slot r (s.stickVerdict slot v) :=
  h.setEntry ⟨rfl, rfl, rfl, ⟨rfl, rfl, rfl⟩, rfl, id⟩

theorem OnlySlot.countVerdict {slot : Nat} {r s : State} (h : OnlySlot slot r s) (v : Verdict) : OnlySlot slot r (s.countVerdict slot v) :=
  h.setEntry ⟨rfl, rfl, rfl, ⟨rfl, rfl, rfl⟩, rfl, id⟩

/-- Words to a client whose session owes it no SLIPPED word go out by themselves. -/
theorem State.tell_unslipped {s : State} {slot : Nat} (ws : List Word) (h : (s.slotAt slot).slipped = []) :
    (s.tell slot ws).hrpOut = s.hrpOut ++ [{ vc := 0, reg := false, part := (s.entry slot).part, words := ws }] := by
  simp [State.tell, h, State.client]

/-! The turn's verdict at T_in (R164, R166). -/
theorem State.actTIn_done {s : State} {slot : Nat} (h : (s.edgeAt slot).tInDone = true) : s.actTIn slot = s := by
  unfold State.actTIn
  cases hx : (s.edgeAt slot).tIn <;> simp [hx, h]

theorem State.actTIn_early {s : State} {slot t : Nat} (htin : (s.edgeAt slot).tIn = some t) (h : s.fine < t) : s.actTIn slot = s := by
  simp [State.actTIn, htin, h]

/-- The turn at T_in once its verdict has been taken in, with its anomaly bits in the entry. -/
def State.turnJudged (s : State) (slot : Nat) (v : Verdict) : State := (s.setEdge slot { s.edgeAt slot with tInDone := true }).stickVerdict slot v

theorem State.turnJudged_only (s : State) (slot : Nat) (v : Verdict) : OnlySlot slot s (s.turnJudged slot v) :=
  (OnlySlot.refl.setEdge slot _).stickVerdict v

theorem State.turnJudged_state (s : State) (slot : Nat) (v : Verdict) : ((s.turnJudged slot v).entry slot).state = (s.entry slot).state :=
  State.stickVerdict_state _ slot v

section TurnVerdict
variable {s : State} {slot t : Nat} (htin : (s.edgeAt slot).tIn = some t) (hopen : (s.edgeAt slot).turnOpen = true)
  (hdone : (s.edgeAt slot).tInDone = false) (hstop : (s.edgeAt slot).stopPending = none) (hdue : t ≤ s.fine)
include htin hopen hdone hstop hdue

theorem State.actTIn_unjudged (hv : (s.edgeAt slot).ingress = none) :
    s.actTIn slot = (s.lateVerdict slot (s.edgeAt slot).turnPos).endStreamTo slot .withheld (s.edgeAt slot).promptEnd 0 := by
  simp [State.actTIn, htin, hopen, hdone, hstop, hv, Nat.not_lt.2 hdue]

theorem State.actTIn_judged {w : Word} (hv : (s.edgeAt slot).ingress = some w) :
    s.actTIn slot =
      if (verdictOf w).action = 4 then (s.turnJudged slot (verdictOf w)).cancelAll slot .policy
      else if (verdictOf w).action = 3 then
        (s.turnJudged slot (verdictOf w)).endStreamTo slot (Stop.ofCode ((verdictOf w).reason % 16)) (s.edgeAt slot).promptEnd 0
      else if (verdictOf w).copied then ((s.turnJudged slot (verdictOf w)).countVerdict slot (verdictOf w)).tell slot [w]
      else (s.turnJudged slot (verdictOf w)).countVerdict slot (verdictOf w) := by
  simp [State.actTIn, State.turnJudged, htin, hopen, hdone, hstop, hv, Nat.not_lt.2 hdue]

/-- A verdict that blocks cancels, one that stops ends the stream at the prompt's end (R164). -/
theorem State.actTIn_blocks {w : Word} (hv : (s.edgeAt slot).ingress = some w) (ha : (verdictOf w).action = 4) (hlive : (s.entry slot).state = .live) :
    Cancels s (s.actTIn slot) slot .policy := by
  rw [State.actTIn_judged htin hopen hdone hstop hdue hv, if_pos ha]
  exact (State.cancelAll_cancels_live slot _ (by rwa [State.turnJudged_state])).after (State.turnJudged_only s slot _) (by simp [State.turnJudged, State.stickVerdict])

theorem State.actTIn_stops {w : Word} (hv : (s.edgeAt slot).ingress = some w) (ha : (verdictOf w).action = 3) (hlive : (s.entry slot).state = .live) :
    StreamEnds s (s.actTIn slot) slot (Stop.ofCode ((verdictOf w).reason % 16)) (s.edgeAt slot).promptEnd 0 := by
  rw [State.actTIn_judged htin hopen hdone hstop hdue hv, if_neg (by omega), if_pos ha]
  exact (State.endStreamTo_ends_live slot _ _ _ (by rwa [State.turnJudged_state])).after (State.turnJudged_only s slot _) (by simp [State.turnJudged, State.stickVerdict])

/-- Any other verdict marks T_in as past and joins the entry; the turn goes on (R164). -/
theorem State.actTIn_goesOn {w : Word} (hv : (s.edgeAt slot).ingress = some w) (ha : (verdictOf w).action ≤ 2) :
    (s.actTIn slot).edgeAt slot = { s.edgeAt slot with tInDone := true } ∧ (s.actTIn slot).entry slot = (s.entry slot).judged (verdictOf w) ∧
    (∀ k, k ≠ slot → (s.actTIn slot).entry k = s.entry k) ∧ (s.actTIn slot).ledgers = s.ledgers ∧ (s.actTIn slot).fsp = s.fsp := by
  rw [State.actTIn_judged htin hopen hdone hstop hdue hv, if_neg (by omega), if_neg (by omega)]
  have hedge : ((s.turnJudged slot (verdictOf w)).countVerdict slot (verdictOf w)).edgeAt slot = { s.edgeAt slot with tInDone := true } := by
    simp [State.turnJudged, State.stickVerdict, State.countVerdict]
  have hentry : ((s.turnJudged slot (verdictOf w)).countVerdict slot (verdictOf w)).entry slot = (s.entry slot).judged (verdictOf w) :=
    State.judged_entry _ slot (verdictOf w)
  have honly := (State.turnJudged_only s slot (verdictOf w)).countVerdict (verdictOf w)
  have f : Framed false [.entries, .edge, .net] s ((s.turnJudged slot (verdictOf w)).countVerdict slot (verdictOf w)) :=
    State.countVerdict_framed rfl (State.stickVerdict_framed rfl (State.setEdge_framed rfl (Framed.refl s)))
  split <;> exact ⟨hedge, hentry, honly.others, (f.kept (f := .ledgers) (by decide)).symm, (f.kept (f := .fsp) (by decide)).symm⟩

end TurnVerdict

/-! The first held token at its release instant (R124 to R127). -/
theorem State.endPending_none {s : State} {slot : Nat} (h : (s.edgeAt slot).stopPending = none) : s.endPending slot = s := by
  simp [State.endPending, h]

theorem State.endPending_closed {s : State} {slot : Nat} (h : (s.edgeAt slot).turnOpen = false) : s.endPending slot = s := by
  unfold State.endPending
  cases hx : (s.edgeAt slot).stopPending <;> simp [hx, h]

/-- With T_in past, one token held and no end pending before it, the row releases that token at its instant and does nothing sooner. -/
theorem State.onTokenRelease_held {s : State} {slot : Nat} {k : HeldTok} (hr : s.inReset = false) (hopen : (s.edgeAt slot).turnOpen = true)
    (hdone : (s.edgeAt slot).tInDone = true) (hheld : (s.edgeAt slot).held = [k]) :
    s.onTokenRelease slot .clean = (if k.release ≤ s.fine then s.releaseTok slot k else s).endPending slot := by
  have hdue : s.releaseDue slot = decide (k.release ≤ s.fine) := by simp [State.releaseDue, hopen, hdone, hheld]
  simp [State.onTokenRelease, hr, State.actTIn_done hdone, State.heldCheck, State.streamDue, hheld, State.releaseAll, hdue]

/-- A held token sent out: its TOKEN word to the release queue of the session's lane and to the client stream, its verdict behind it where the
client gets one (R124 to R127). -/
def State.tokenOut (s : State) (slot : Nat) (k : HeldTok) (w : Word) : State :=
  let tw := tokenWord slot (s.entry slot).gen k.pos (s.maskOf k (verdictOf w))
  (s.setRelq (s.entry slot).outLane ((s.relqAt (s.entry slot).outLane).push [tw])).tell slot (tw :: if (verdictOf w).copied then [w] else [])

/-- The first held token released: it is sent out and held no longer, and its verdict joins the entry. -/
def State.released (s : State) (slot : Nat) (k : HeldTok) (w : Word) : State :=
  let u := s.tokenOut slot k w
  ((u.setEdge slot { u.edgeAt slot with held := (u.edgeAt slot).held.drop 1 }).stickVerdict slot (verdictOf w)).countVerdict slot (verdictOf w)

theorem State.tokenOut_framed (s : State) (slot : Nat) (k : HeldTok) (w : Word) : Framed false [.slots, .fsp, .hrpOut] s (s.tokenOut slot k w) :=
  State.tell_framed rfl (State.setRelq_framed rfl (Framed.refl s))

theorem State.released_framed (s : State) (slot : Nat) (k : HeldTok) (w : Word) :
    Framed false [.entries, .edge, .net] (s.tokenOut slot k w) (s.released slot k w) :=
  State.countVerdict_framed rfl (State.stickVerdict_framed rfl (State.setEdge_framed rfl (Framed.refl _)))

theorem State.released_only (s : State) (slot : Nat) (k : HeldTok) (w : Word) : OnlySlot slot s (s.released slot k w) :=
  (((OnlySlot.refl.framed (s.tokenOut_framed slot k w) rfl).setEdge slot _).stickVerdict _).countVerdict _

theorem State.released_entry (s : State) (slot : Nat) (k : HeldTok) (w : Word) :
    (s.released slot k w).entry slot = (s.entry slot).judged (verdictOf w) := State.judged_entry _ slot _

theorem State.released_edgeAt (s : State) (slot : Nat) (k : HeldTok) (w : Word) :
    (s.released slot k w).edgeAt slot = { s.edgeAt slot with held := (s.edgeAt slot).held.drop 1 } := by
  simp only [State.released, State.stickVerdict, State.countVerdict, State.setEntry_edgeAt, State.setEdge_edgeAt_same]
  rfl

theorem State.released_ledgers (s : State) (slot : Nat) (k : HeldTok) (w : Word) : (s.released slot k w).ledgers = s.ledgers :=
  (((s.tokenOut_framed slot k w).kept (f := .ledgers) (by decide)).trans ((s.released_framed slot k w).kept (f := .ledgers) (by decide))).symm

theorem State.released_words {s : State} {slot : Nat} (k : HeldTok) (w : Word) (h : (s.entry slot).outLane < s.fsp.relq.length) :
    ((s.released slot k w).relqAt (s.entry slot).outLane).words =
      (s.relqAt (s.entry slot).outLane).words ++ [tokenWord slot (s.entry slot).gen k.pos (s.maskOf k (verdictOf w))] := by
  have hfsp : (s.released slot k w).fsp = (s.tokenOut slot k w).fsp := ((s.released_framed slot k w).kept (f := .fsp) (by decide)).symm
  rw [State.relqAt, hfsp]
  exact congrArg RelQ.words (State.setRelq_relqAt_same h _)

theorem State.released_hrpOut {s : State} {slot : Nat} (k : HeldTok) (w : Word) (h : (s.slotAt slot).slipped = []) :
    (s.released slot k w).hrpOut = s.hrpOut ++ [HrpOut.mk 0 false (s.entry slot).part
      (tokenWord slot (s.entry slot).gen k.pos (s.maskOf k (verdictOf w)) :: if (verdictOf w).copied then [w] else [])] := by
  rw [← show (s.tokenOut slot k w).hrpOut = _ from (s.released_framed slot k w).kept (f := .hrpOut) (by decide)]
  exact State.tell_unslipped (s := s.setRelq _ _) _ h

/-- The stream that ends behind a released token which was the last: every token is out, none withheld (R124, R142). -/
theorem State.released_endStream_ends {s : State} {slot : Nat} (k : HeldTok) (w : Word) (r : Stop) (hlast : k.pos + 1 = (s.entry slot).length)
    (hlive : (s.entry slot).state = .live) :
    StreamEnds (s.released slot k w) ((s.released slot k w).endStream slot r (k.pos + 1)) slot r (s.entry slot).length (s.entry slot).outCount := by
  have hentry := s.released_entry slot k w
  have hout : ((s.released slot k w).entry slot).outCount - (((s.released slot k w).entry slot).length - (k.pos + 1)) = (s.entry slot).outCount := by
    simp [hentry, Entry.judged, hlast]
  rw [State.endStream, hout, hlast]
  exact State.endStreamTo_ends_live slot _ _ _ (by rw [hentry]; exact hlive)

section Release
variable {s : State} {slot : Nat} {k : HeldTok}

theorem State.releaseTok_unjudged (hv : k.verdict = none) :
    s.releaseTok slot k = (s.lateVerdict slot k.pos).endStreamTo slot .withheld k.pos ((s.entry slot).outCount - ((s.entry slot).length - k.pos)) := by
  have f : Framed false [.trb, .parts, .ints] s (s.lateVerdict slot k.pos) := State.lateVerdict_framed rfl (Framed.refl s)
  have he : (s.lateVerdict slot k.pos).entry slot = s.entry slot := congrArg (sget Entry.zero · slot) (f.kept (f := .entries) (by decide)).symm
  simp [State.releaseTok, hv, State.endStream, he]

theorem State.releaseTok_blocks {w : Word} (hv : k.verdict = some w) (ha : (verdictOf w).action = 4) : s.releaseTok slot k = s.cancelAll slot .policy := by
  simp [State.releaseTok, hv, ha]

/-- A token whose verdict does not block leaves, where the release queue has room; the stream ends behind it where the token or its verdict
stops it (R124 to R127, R141). -/
theorem State.releaseTok_leaves {w : Word} (hv : k.verdict = some w) (ha : (verdictOf w).action ≠ 4)
    (hroom : (s.relqAt (s.entry slot).outLane).words.length < 512) :
    s.releaseTok slot k =
      let r := Stop.first k.stop (if (verdictOf w).action = 3 then Stop.ofCode ((verdictOf w).reason % 16) else .none)
      if r = .none then s.released slot k w else (s.released slot k w).endStream slot r (k.pos + 1) := by
  have hfull : ¬ (s.relqAt (s.entry slot).outLane).room = 0 := by unfold RelQ.room; omega
  have hwords : ∀ x : Word, (if (verdictOf w).copied then [x, w] else [x]) = x :: (if (verdictOf w).copied then [w] else []) := fun x => by split <;> rfl
  simp only [State.releaseTok, State.released, State.tokenOut, hv, ha, hfull, if_false, hwords]

end Release


/-! What the row does at the instant of the one held token, for each verdict on it. -/
section ReleaseRow
variable {s : State} {slot : Nat} {k : HeldTok} {w : Word} (hr : s.inReset = false) (hopen : (s.edgeAt slot).turnOpen = true)
  (hdone : (s.edgeAt slot).tInDone = true) (hheld : (s.edgeAt slot).held = [k]) (hdue : k.release ≤ s.fine)
include hr hopen hdone hheld hdue

theorem State.onTokenRelease_unjudged (hv : k.verdict = none) (hlive : (s.entry slot).state = .live) :
    s.onTokenRelease slot .clean =
      (s.lateVerdict slot k.pos).endStreamTo slot .withheld k.pos ((s.entry slot).outCount - ((s.entry slot).length - k.pos)) := by
  have hends := (State.lateEnd_ends slot k.pos k.pos ((s.entry slot).outCount - ((s.entry slot).length - k.pos)) hlive).1
  rw [State.onTokenRelease_held hr hopen hdone hheld, if_pos hdue, State.releaseTok_unjudged hv, State.endPending_closed hends.turn.1]

theorem State.onTokenRelease_blocks (hv : k.verdict = some w) (ha : (verdictOf w).action = 4) (hlive : (s.entry slot).state = .live) :
    Cancels s (s.onTokenRelease slot .clean) slot .policy := by
  have hcancel := State.cancelAll_cancels_live slot .policy hlive
  rw [State.onTokenRelease_held hr hopen hdone hheld, if_pos hdue, State.releaseTok_blocks hv ha,
    State.endPending_none (by rw [hcancel.working.1]; rfl)]
  exact hcancel

variable (hv : k.verdict = some w) (hk : k.stop = .none) (hroom : (s.relqAt (s.entry slot).outLane).words.length < 512)
include hv hk hroom

theorem State.onTokenRelease_passes (ha : (verdictOf w).action ≤ 2) (hstop : (s.edgeAt slot).stopPending = none) :
    s.onTokenRelease slot .clean = s.released slot k w := by
  have hr0 : Stop.first k.stop (if (verdictOf w).action = 3 then Stop.ofCode ((verdictOf w).reason % 16) else .none) = .none := by
    simp [Stop.first, hk, show (verdictOf w).action ≠ 3 by omega]
  rw [State.onTokenRelease_held hr hopen hdone hheld, if_pos hdue, State.releaseTok_leaves hv (by omega) hroom, hr0]
  simp only [if_true]
  exact State.endPending_none (by rw [State.released_edgeAt]; exact hstop)

theorem State.onTokenRelease_stops (ha : (verdictOf w).action = 3) (hreason : Stop.ofCode ((verdictOf w).reason % 16) ≠ .none)
    (hlast : k.pos + 1 = (s.entry slot).length) (hlive : (s.entry slot).state = .live) :
    StreamEnds (s.released slot k w) (s.onTokenRelease slot .clean) slot (Stop.ofCode ((verdictOf w).reason % 16)) (s.entry slot).length
      (s.entry slot).outCount := by
  have hr3 : Stop.first k.stop (if (verdictOf w).action = 3 then Stop.ofCode ((verdictOf w).reason % 16) else .none) =
      Stop.ofCode ((verdictOf w).reason % 16) := by simp [Stop.first, hk, ha]
  have hends := State.released_endStream_ends k w (Stop.ofCode ((verdictOf w).reason % 16)) hlast hlive
  rw [State.onTokenRelease_held hr hopen hdone hheld, if_pos hdue, State.releaseTok_leaves hv (by omega) hroom, hr3]
  simp only [hreason, if_false]
  rw [State.endPending_closed hends.turn.1]
  exact hends

end ReleaseRow

/-- Settles O32: each branch of a release and of T_in, taken at its instant, is one of the equations above. -/
theorem releaseInstants : Obligations.ReleaseInstants := by
  unfold Obligations.ReleaseInstants
  simp only [exec_tokenRelease_eq, exec_tIn_eq, Host.Outcome.next.injEq]
  refine ⟨fun m s slot k w => ?_, fun m s slot t w => ?_⟩
  · generalize s.elapse m = e
    intro hr hopen hdone hheld hstop
    refine ⟨fun hdue hv ha hk hslip hroom hlane hlen => ⟨_, State.onTokenRelease_passes hr hopen hdone hheld hdue hv hk hroom ha hstop, ?_⟩,
      fun hsoon => ?_, fun hdue hv ha hk hreason hlive hslip hroom hlane hlen hlast => ⟨e.released slot k w, _, rfl, ?_⟩,
      fun hdue hv ha hlive => ⟨_, rfl, State.onTokenRelease_blocks hr hopen hdone hheld hdue hv ha hlive⟩,
      fun hdue hv hlive => ⟨_, State.onTokenRelease_unjudged hr hopen hdone hheld hdue hv hlive, State.lateEnd_ends slot k.pos k.pos _ hlive⟩⟩
    · have hedge := e.released_edgeAt slot k w
      rw [hheld] at hedge
      exact ⟨State.released_words k w (hlen ▸ hlane), ⟨_, State.released_hrpOut k w hslip, rfl, rfl, rfl, rfl⟩, hedge,
        by rw [State.released_entry]; rfl, by rw [State.released_entry]; rfl, e.released_ledgers slot k w⟩
    · rw [State.onTokenRelease_held hr hopen hdone hheld, if_neg (Nat.not_le.2 hsoon), State.endPending_none hstop]
    · have hcopied : (verdictOf w).copied = true := by simp [Verdict.copied, ha]
      exact ⟨State.released_words k w (hlen ▸ hlane), ⟨_, State.released_hrpOut k w hslip, rfl, rfl, by rw [hcopied]; rfl⟩,
        (e.released_only slot k w).others,
        State.onTokenRelease_stops hr hopen hdone hheld hdue hv hk hroom ha hreason hlast hlive⟩
  · generalize s.elapse m = e
    intro hr htin hopen hdone hstop
    have hrow : e.onTIn slot = e.actTIn slot := by simp [State.onTIn, hr]
    rw [hrow]
    refine ⟨fun hsoon => State.actTIn_early htin hsoon, fun hdue hv ha => ⟨_, rfl, State.actTIn_goesOn htin hopen hdone hstop hdue hv ha⟩,
      fun hdue hv ha hlive => ⟨_, rfl, State.actTIn_stops htin hopen hdone hstop hdue hv ha hlive⟩,
      fun hdue hv ha hlive => ⟨_, rfl, State.actTIn_blocks htin hopen hdone hstop hdue hv ha hlive⟩,
      fun hdue hv hlive => ⟨_, State.actTIn_unjudged htin hopen hdone hstop hdue hv, ?_⟩⟩
    obtain ⟨hends, hlate, _⟩ := State.lateEnd_ends slot (e.edgeAt slot).turnPos (e.edgeAt slot).promptEnd 0 hlive
    exact ⟨hends, hlate⟩

end Sys2Proof.Machine
end

section
/-! SUPPORT. TOKEN and DRAFT words taken from HRP: the session check, a token's commit and its way to the home, a draft stored in its
order. -/
namespace Sys2Proof.Machine

/-! What the two rows do to the state once their moment has come. -/
theorem exec_tokenIntake_eq (m : Moment) (p : Nat) (w : Word) (f : Find) (x : WordFind) (s : State) :
    exec (.tokenIntake m p w f x) s = .next ((s.elapse m).onTokenIntake p w f x) := rfl
theorem exec_draftIntake_eq (m : Moment) (p : Nat) (w : Word) (f : Find) (s : State) :
    exec (.draftIntake m p w f) s = .next ((s.elapse m).onDraftIntake p w f) := rfl

/-- HRP takes words outside a reset only (R350). -/
theorem State.inReset_of_hrpOn {s : State} (h : s.hrpOn = true) : s.inReset = false := by
  simp only [State.hrpOn, State.hrpUp, Bool.and_eq_true, Bool.not_eq_true'] at h
  exact h.1.1

section Words
variable {s : State} (hon : s.hrpOn = true) (p : Nat) (w : Word)
include hon

/-- A word of an unreadable code (R491). -/
theorem State.hrpWord_bad (take : State → State) : s.hrpWord p .bad take = s.trouble .cmdUe 1 Obj.none (some p) 0 := by
  simp [State.hrpWord, hon, State.hrpBad]

/-- A clean TOKEN word is dropped as the session check says, or accepted. -/
theorem State.onTokenIntake_clean (hk : wKind w = 1) :
    s.onTokenIntake p w .clean ⟨.clean, 0⟩ = (s.hrpCheck p w).getD (s.acceptToken w) := by
  simp [State.onTokenIntake, State.hrpWord, hon, State.takeToken, hk, State.entryCheck, State.inReset_of_hrpOn hon]

theorem State.onDraftIntake_clean (hk : wKind w = 2) (hz : bf w 32 18 = 0) :
    s.onDraftIntake p w .clean = (s.hrpCheck p w).getD (s.acceptDraft w) := by
  simp [State.onDraftIntake, State.hrpWord, hon, State.takeDraft, hk, hz]

theorem State.onDraftIntake_reserved (hk : wKind w = 2) (hz : bf w 32 18 ≠ 0) : s.onDraftIntake p w .clean = s.stateDrop p := by
  simp [State.onDraftIntake, State.hrpWord, hon, State.takeDraft, hk, hz]

end Words

/-! The session check, one equation for each way a word fails it, and when it passes (R88, R89, R122). -/
section Check
variable {s : State} {p : Nat} {w : Word}

theorem State.hrpCheck_noEdge (h : s.hasEdge = false) : s.hrpCheck p w = some (s.stateDrop p) := by
  simp [State.hrpCheck, h]

variable (hedge : s.hasEdge = true)
include hedge

theorem State.hrpCheck_stale (h : (s.entry (wSlot w)).state = .free ∨ (s.entry (wSlot w)).gen ≠ wGen w) : s.hrpCheck p w = some (s.staleDrop p) := by
  simp [State.hrpCheck, hedge, h]

variable (hfree : (s.entry (wSlot w)).state ≠ .free) (hgen : (s.entry (wSlot w)).gen = wGen w)
include hfree hgen

theorem State.hrpCheck_otherPart (h : (s.entry (wSlot w)).part ≠ p) : s.hrpCheck p w = some (s.stateDrop p) := by
  simp [State.hrpCheck, hedge, hfree, hgen, h]

theorem State.hrpCheck_own (h : (s.entry (wSlot w)).part = p) :
    s.hrpCheck p w = if ((s.entry (wSlot w)).edge && (s.edgeAt (wSlot w)).turnOpen && (s.edgeAt (wSlot w)).stopPending.isNone &&
      ((s.entry (wSlot w)).state == .live || (s.entry (wSlot w)).state == .speculating)) = true then none else some (s.stateDrop p) := by
  simp [State.hrpCheck, hedge, hfree, hgen, h]

end Check

theorem State.hrpCheck_eq_none {s : State} {p : Nat} {w : Word} :
    s.hrpCheck p w = none ↔ s.hasEdge = true ∧ (s.entry (wSlot w)).gen = wGen w ∧ (s.entry (wSlot w)).part = p ∧ (s.entry (wSlot w)).edge = true ∧
      (s.edgeAt (wSlot w)).turnOpen = true ∧ (s.edgeAt (wSlot w)).stopPending = none ∧
      ((s.entry (wSlot w)).state = .live ∨ (s.entry (wSlot w)).state = .speculating) := by
  constructor
  · intro h
    by_cases hedge : s.hasEdge = true
    · by_cases hstale : (s.entry (wSlot w)).state = .free ∨ (s.entry (wSlot w)).gen ≠ wGen w
      · rw [State.hrpCheck_stale hedge hstale] at h; cases h
      · obtain ⟨hfree, hgen⟩ := not_or.1 hstale
        rw [ne_eq, Decidable.not_not] at hgen
        by_cases hpart : (s.entry (wSlot w)).part = p
        · rw [State.hrpCheck_own hedge hfree hgen hpart] at h
          split at h
          · next hown =>
            simp only [Bool.and_eq_true, Option.isNone_iff_eq_none, Bool.or_eq_true, beq_iff_eq] at hown
            obtain ⟨⟨⟨hentry, hopen⟩, hstop⟩, hstate⟩ := hown
            exact ⟨hedge, hgen, hpart, hentry, hopen, hstop, hstate⟩
          · cases h
        · rw [State.hrpCheck_otherPart hedge hfree hgen hpart] at h; cases h
    · rw [State.hrpCheck_noEdge (Bool.eq_false_iff.2 hedge)] at h; cases h
  · rintro ⟨hedge, hgen, hpart, hentry, hopen, hstop, hstate⟩
    have hfree : (s.entry (wSlot w)).state ≠ .free := by rcases hstate with h | h <;> simp [h]
    rw [State.hrpCheck_own hedge hfree hgen hpart]
    simp [hentry, hopen, hstop, hstate]

/-! A word written to the egress ring changes only the ring in the entry, and at the edge only whether the rest of its packet is discarded
(R65, R71, R74). -/
theorem State.consumeOut_unread {s : State} {slot : Nat} (h : (s.entry slot).outRing.pkts = 0) : s.consumeOut slot = s := by
  simp [State.consumeOut, h]

theorem State.readOut_entry (s : State) (slot : Nat) : ∃ r, (s.readOut slot).entry slot = { s.entry slot with outRing := r } :=
  ⟨_, State.setEntry_entry_same s slot _⟩

theorem State.consumeOut_entry (s : State) (slot : Nat) : ∃ r, (s.consumeOut slot).entry slot = { s.entry slot with outRing := r } := by
  obtain ⟨r, hr⟩ := s.readOut_entry slot
  unfold State.consumeOut
  dsimp only
  split
  · exact ⟨_, rfl⟩
  · rw [State.setSlot_entry]
    split
    · exact ⟨r, hr⟩
    · exact ⟨_, (State.setEntry_entry_same _ slot _).trans (by rw [hr])⟩

theorem State.schedule_entry (s : State) (slot : Nat) (out : Bool) (r t : RingD) (k : Nat) : (s.schedule slot out r t).entry k = s.entry k := by
  unfold State.schedule; split <;> rfl

theorem State.pushOut_entry (s : State) (slot : Nat) (w : Word) : ∃ r, (s.pushOut slot w).1.entry slot = { s.entry slot with outRing := r } := by
  unfold State.pushOut
  extract_lets e x s1 lost s2
  split
  · exact ⟨_, rfl⟩
  · split
    · exact ⟨_, by rw [State.schedule_entry, State.setEntry_entry_same]⟩
    · exact ⟨_, State.setEntry_entry_same s slot _⟩

theorem State.pushOut_edgeAt (s : State) (slot : Nat) (w : Word) : ∃ d, (s.pushOut slot w).1.edgeAt slot = { s.edgeAt slot with discardOut := d } := by
  unfold State.pushOut
  extract_lets e x s1 lost s2
  split
  · exact ⟨_, State.setEdge_edgeAt_same _ slot _⟩
  · split
    · refine ⟨x.discardOut, ?_⟩
      have f : Framed false [.entries, .slots, .mem, .img, .net] s ((s1.setEntry slot { e with outRing := e.outRing.push w }).schedule slot true e.outRing (e.outRing.push w)) :=
        State.schedule_framed rfl (State.setEntry_framed rfl (State.putMem_framed rfl (Framed.refl s)))
      exact congrArg (sget EdgeAux.zero · slot) (f.kept (f := .edge) (by decide)).symm
    · exact ⟨_, State.setEdge_edgeAt_same _ slot _⟩

theorem State.writeOut_entry (s : State) (slot : Nat) (w : Word) : ∃ r, (s.writeOut slot w).1.entry slot = { s.entry slot with outRing := r } := by
  obtain ⟨r, hr⟩ := s.consumeOut_entry slot
  obtain ⟨r', hr'⟩ := (s.consumeOut slot).pushOut_entry slot w
  exact ⟨r', hr'.trans (by rw [hr])⟩

theorem State.writeOut_edgeAt (s : State) (slot : Nat) (w : Word) : ∃ d, (s.writeOut slot w).1.edgeAt slot = { s.edgeAt slot with discardOut := d } := by
  have f : Framed false [.entries, .slots, .net] s (s.consumeOut slot) := State.consumeOut_framed rfl (Framed.refl s)
  have hedge : s.edgeAt slot = (s.consumeOut slot).edgeAt slot := congrArg (sget EdgeAux.zero · slot) (f.kept (f := .edge) (by decide))
  rw [hedge]
  exact State.pushOut_edgeAt _ slot w

theorem State.pushOut_stores {s : State} {slot : Nat} (w : Word) (hd : (s.edgeAt slot).discardOut = false) (hh : (s.entry slot).outRing.held < 128) :
    s.pushOut slot w = (((s.putMem (s.outRingAt slot + (s.entry slot).outRing.wp % 128) [w]).setEntry slot
      { s.entry slot with outRing := (s.entry slot).outRing.push w }).schedule slot true (s.entry slot).outRing ((s.entry slot).outRing.push w), true) := by
  simp [State.pushOut, hd, hh]

/-! A commit (R122, R134, R326, R340). -/
@[simp] theorem State.chargeOut_entry (s : State) (slot k : Nat) : (s.chargeOut slot).entry k = s.entry k :=
  congrArg (sget Entry.zero · k) ((State.chargeOut_framed (F := [.ledgers, .parts, .ints, .net]) rfl (Framed.refl s)).kept (f := .entries) (by decide)).symm
@[simp] theorem State.chargeOut_edgeAt (s : State) (slot k : Nat) : (s.chargeOut slot).edgeAt k = s.edgeAt k :=
  congrArg (sget EdgeAux.zero · k) ((State.chargeOut_framed (F := [.ledgers, .parts, .ints, .net]) rfl (Framed.refl s)).kept (f := .edge) (by decide)).symm
@[simp] theorem State.chargeOut_bal (s : State) (slot : Nat) : (s.chargeOut slot).bal = s.bal :=
  ((State.chargeOut_framed (F := [.ledgers, .parts, .ints, .net]) rfl (Framed.refl s)).kept (f := .bal) (by decide)).symm

theorem State.chargeOut_ledger (s : State) (slot : Nat) :
    (s.chargeOut slot).ledger (s.entry slot).tenant =
      { s.ledger (s.entry slot).tenant with outLevel := (s.ledger (s.entry slot).tenant).outLevel - 1 } := by
  unfold State.chargeOut
  dsimp only
  split
  · rw [State.levelSpent_ledger, State.setLedger_ledger_same]
  · rw [State.setLedger_ledger_same]

/-- The token that a commit holds for its release (R122, R140, R141, R162). -/
def State.tokHeld (s : State) (slot tok stamp : Nat) (c : Option Nat) (v : Option Word) : HeldTok :=
  { pos := (s.entry slot).length, tok := tok, stamp := stamp, release := s.releaseOf slot stamp, image := s.imgGen,
    stop := (s.entry slot).commitStop tok, chain := c, verdict := v }

section Commit
variable (s : State) (slot tok stamp : Nat) (c : Option Nat) (v : Option Word)

/-- A commit before it is charged: counted in the entry, the token held behind those before it. -/
def State.committed : State :=
  let n := s.entry slot
  let x := s.edgeAt slot
  (s.setEntry slot { n with length := n.length + 1, outCount := n.outCount + 1, outTotal := satAdd 32 n.outTotal 1 }).setEdge slot
    { x with held := x.held ++ [s.tokHeld slot tok stamp c v], lastRelease := s.releaseOf slot stamp }

theorem State.commitTok_eq : s.commitTok slot tok stamp c v =
    let u := (s.committed slot tok stamp c v).chargeOut slot
    { u with bal := { u.bal with d := u.bal.d + 1 } } := rfl

theorem State.committed_entry : (s.committed slot tok stamp c v).entry slot =
    { s.entry slot with length := (s.entry slot).length + 1, outCount := (s.entry slot).outCount + 1, outTotal := satAdd 32 (s.entry slot).outTotal 1 } :=
  State.setEntry_entry_same s slot _

theorem State.commitTok_entry : (s.commitTok slot tok stamp c v).entry slot =
    { s.entry slot with length := (s.entry slot).length + 1, outCount := (s.entry slot).outCount + 1, outTotal := satAdd 32 (s.entry slot).outTotal 1 } := by
  rw [State.commitTok_eq]
  exact (State.chargeOut_entry _ slot slot).trans (s.committed_entry slot tok stamp c v)

theorem State.commitTok_edgeAt : (s.commitTok slot tok stamp c v).edgeAt slot =
    { s.edgeAt slot with held := (s.edgeAt slot).held ++ [s.tokHeld slot tok stamp c v], lastRelease := s.releaseOf slot stamp } := by
  rw [State.commitTok_eq]
  exact (State.chargeOut_edgeAt _ slot slot).trans (State.setEdge_edgeAt_same _ slot _)

theorem State.commitTok_ledger : (s.commitTok slot tok stamp c v).ledger (s.entry slot).tenant =
    { s.ledger (s.entry slot).tenant with outLevel := (s.ledger (s.entry slot).tenant).outLevel - 1 } := by
  have hcharge := (s.committed slot tok stamp c v).chargeOut_ledger slot
  have hledger : ∀ t, (s.committed slot tok stamp c v).ledger t = s.ledger t := fun t => by simp [State.committed]
  rw [State.committed_entry] at hcharge
  simp only [hledger] at hcharge
  rw [State.commitTok_eq]
  exact hcharge

theorem State.commitTok_bal : (s.commitTok slot tok stamp c v).bal = { s.bal with d := s.bal.d + 1 } := by
  rw [State.commitTok_eq]
  simp [State.committed]

end Commit

/-! A token on its way to the home. -/
theorem State.hashToken_work (s : State) (slot tok : Nat) : ((s.hashToken slot tok).homeAt slot).work = (s.homeAt slot).work := by
  unfold State.hashToken
  dsimp only
  split
  · rfl
  · split
    · rw [State.setHome_homeAt_same]
    · rw [State.setHashRec_homeAt]

/-- A commit alone in a session's work is settled as it stands: an engine screens it (R123). -/
theorem State.settle_commit {s : State} {slot : Nat} {k : Work} (h : (s.homeAt slot).work = [k]) (hk : k.kind = .commit) : s.settle slot = s := by
  simp [State.settle, h, State.settleHome, hk, Work.notDraft]

theorem State.homeToken_work {s : State} {slot : Nat} (pos tok ob gen stamp : Nat) (h : (s.homeAt slot).work = []) :
    ∃ k : Work, ((s.homeToken slot pos tok ob gen stamp).homeAt slot).work = [k] ∧
      k.kind = .commit ∧ k.tok = tok ∧ k.pos = pos ∧ k.stamp = stamp ∧ k.image = gen ∧ k.stops = (s.entry slot).stopSet := by
  have hw := s.hashToken_work slot tok
  unfold State.homeToken
  dsimp only
  generalize s.hashToken slot tok = u at *
  generalize hk : Work.mk' .commit tok pos ob stamp gen false s.gclks (s.homeAt slot).turnNo (s.entry slot).stopSet = k
  have hpush : ((u.pushWork slot k).homeAt slot).work = [{ k with first := (u.homeAt slot).fresh }] := by
    simp [State.pushWork, hw, h]
  rw [State.settle_commit hpush (by rw [← hk]; rfl)]
  exact ⟨_, hpush, by rw [← hk]; exact ⟨rfl, rfl, rfl, rfl, rfl, rfl⟩⟩

/-! A TOKEN that the session check let through (R122, R138). -/
section Token
variable {s : State} {w : Word}

theorem State.acceptToken_misplaced (h : wPos w ≠ (s.entry (wSlot w)).length ∨ maxLength ≤ (s.entry (wSlot w)).length) :
    s.acceptToken w = s.stateDrop (s.entry (wSlot w)).part := by
  simp [State.acceptToken, h]

variable (hpos : wPos w = (s.entry (wSlot w)).length) (hmax : (s.entry (wSlot w)).length < maxLength) (hmark : (s.edgeAt (wSlot w)).mark = false)
include hpos hmax hmark

theorem State.acceptToken_unknown (h : s.vocab ≤ wTok w) : s.acceptToken w = s.stateDrop (s.entry (wSlot w)).part := by
  simp [State.acceptToken, hpos, Nat.not_le.2 hmax, hmark, h]

/-- The token written to the egress ring and committed, on its way to the home. -/
theorem State.acceptToken_commits (h : wTok w < s.vocab) (hl : (s.ledger (s.entry (wSlot w)).tenant).outLevel ≠ 0) :
    s.acceptToken w =
      let n := s.entry (wSlot w)
      let t := (s.writeOut (wSlot w) (w ||| 0x8000_0000_0000_0000)).1.commitTok (wSlot w) (wTok w) s.fine none none
      if n.home then t.homeToken (wSlot w) n.length (wTok w) n.outCount s.imgGen s.fine
      else t.sendTo typItem n.homeGate 3 (w :: List.replicate 6 idleWord) := by
  simp [State.acceptToken, hpos, Nat.not_le.2 hmax, hmark, Nat.not_le.2 h, hl]

end Token

/-- What a TOKEN word written and committed leaves: the entry, the token held, the bucket and the balance; nothing at the home. -/
theorem State.writeOut_commitTok (s : State) (slot : Nat) (w : Word) (tok stamp : Nat) :
    let n := s.entry slot
    let t := (s.writeOut slot w).1.commitTok slot tok stamp none none
    t.entry slot = { n with length := n.length + 1, outCount := n.outCount + 1, outTotal := satAdd 32 n.outTotal 1, outRing := (t.entry slot).outRing } ∧
    (∃ k : HeldTok, (t.edgeAt slot).held = (s.edgeAt slot).held ++ [k] ∧ k.pos = n.length ∧ k.tok = tok ∧ k.stamp = stamp) ∧
    t.ledger n.tenant = { s.ledger n.tenant with outLevel := (s.ledger n.tenant).outLevel - 1 } ∧ t.bal = { s.bal with d := s.bal.d + 1 } ∧ t.home = s.home := by
  dsimp only
  obtain ⟨r, hr⟩ := s.writeOut_entry slot w
  obtain ⟨d, hd⟩ := s.writeOut_edgeAt slot w
  have f : Framed false [.entries, .edge, .slots, .parts, .mem, .img, .net] s (s.writeOut slot w).1 := State.writeOut_framed rfl (Framed.refl s)
  have hledger : (s.writeOut slot w).1.ledger (s.entry slot).tenant = s.ledger (s.entry slot).tenant :=
    congrArg (sget Ledger.zero · (s.entry slot).tenant) (f.kept (f := .ledgers) (by decide)).symm
  have hbal : s.bal = (s.writeOut slot w).1.bal := f.kept (f := .bal) (by decide)
  have hhome : s.home = (s.writeOut slot w).1.home := f.kept (f := .home) (by decide)
  generalize (s.writeOut slot w).1 = u at *
  have g : Framed false [.entries, .edge, .ledgers, .parts, .ints, .bal, .net] u (u.commitTok slot tok stamp none none) :=
    State.commitTok_framed rfl (Framed.refl u)
  have hcharge := u.commitTok_ledger slot tok stamp none none
  rw [hr, hledger] at hcharge
  refine ⟨?_, ⟨u.tokHeld slot tok stamp none none, ?_, ?_, rfl, rfl⟩, hcharge, ?_, ?_⟩
  · rw [State.commitTok_entry, hr]
  · rw [State.commitTok_edgeAt, hd]
  · rw [State.tokHeld, hr]
  · rw [State.commitTok_bal, hbal]
  · rw [hhome]; exact (g.kept (f := .home) (by decide)).symm

/-! A DRAFT that the session check let through (R129, R132, R152). -/
theorem State.finishPacket_none {s : State} {slot : Nat} (h : (s.edgeAt slot).nextDraft = none) : s.finishPacket slot = s := by
  simp [State.finishPacket, h]

section Draft
variable {s : State} {w : Word} (hd : (s.edgeAt (wSlot w)).discardOut = false)
include hd

theorem State.acceptDraft_dropping (h : (s.edgeAt (wSlot w)).dropping = true) :
    s.acceptDraft w = (s.stateDrop (s.entry (wSlot w)).part).setEdge (wSlot w) { s.edgeAt (wSlot w) with dropping := !wEnd w } := by
  simp [State.acceptDraft, hd, h]

variable {i : Img} {pol : Policy} (h : (s.edgeAt (wSlot w)).dropping = false) (hpol : s.sessionPolicy (wSlot w) s.imgGen = some (i, pol))
include h hpol

theorem State.acceptDraft_inOrder (hok : s.draftOk w pol = true) : s.acceptDraft w = s.storeDraft w := by
  simp [State.acceptDraft, hd, h, hpol, hok]

theorem State.acceptDraft_outOfOrder (hok : s.draftOk w pol = false) : s.acceptDraft w = s.dropDraft w := by
  simp [State.acceptDraft, hd, h, hpol, hok]

end Draft

/-- A step of drafts begun where there is none yet: MARK on the egress ring, no draft stored yet (R129). -/
def State.stepBegun (s : State) (slot : Nat) : State :=
  if (s.edgeAt slot).mark then s
  else (s.markOut slot).setEdge slot { (s.markOut slot).edgeAt slot with mark := true, step := none, drafts := [] }

section Stored
variable {s : State} {slot : Nat}

theorem State.stepBegun_framed (s : State) (slot : Nat) : Framed false [.entries, .edge, .slots, .net] s (s.stepBegun slot) := by
  unfold State.stepBegun
  split
  · exact Framed.refl s
  · exact State.setEdge_framed rfl (State.markOut_framed rfl (Framed.refl s))

/-- Where every whole packet has been read, only the ring's MARK changes in the entry. -/
theorem State.stepBegun_entry (h : (s.entry slot).outRing.pkts = 0) : ∃ r : RingD, r.pkts = 0 ∧ r.held = (s.entry slot).outRing.held ∧
    (s.stepBegun slot).entry slot = { s.entry slot with outRing := r } := by
  unfold State.stepBegun
  split
  · exact ⟨_, h, rfl, rfl⟩
  · refine ⟨(s.entry slot).outRing.mark, h, rfl, ?_⟩
    simp [State.markOut, State.consumeOut_unread h]

theorem State.stepBegun_edgeAt (s : State) (slot : Nat) : ∃ st, (s.stepBegun slot).edgeAt slot =
    { s.edgeAt slot with mark := true, step := st, drafts := if (s.edgeAt slot).mark then (s.edgeAt slot).drafts else [] } := by
  unfold State.stepBegun
  split
  · next hm => exact ⟨(s.edgeAt slot).step, by rw [← hm]⟩
  · have f : Framed false [.entries, .slots, .net] s (s.markOut slot) := State.markOut_framed rfl (Framed.refl s)
    have hx : (s.markOut slot).edgeAt slot = s.edgeAt slot := congrArg (sget EdgeAux.zero · slot) (f.kept (f := .edge) (by decide)).symm
    exact ⟨none, by rw [State.setEdge_edgeAt_same, hx]⟩

/-- A draft whose word the ring has taken: its chain marked, the draft behind those before it, and what may come next in its packet (R129). -/
def State.draftStored (s : State) (w : Word) (stamp : Nat) : State :=
  let n := s.entry (wSlot w)
  let x := s.edgeAt (wSlot w)
  let d : HeldDraft := { chain := wChain w, depth := wDepth w, tok := wTok w, stamp := stamp, verdict := none }
  (s.setEntry (wSlot w) { n with chains := n.chains ||| 2 ^ wChain w }).setEdge (wSlot w)
    { x with drafts := x.drafts ++ [d], nextDraft := if wEnd w then none else some (wChain w, wDepth w + 1) }

theorem State.storeDraft_taken {w : Word} (h : ((s.stepBegun (wSlot w)).writeOut (wSlot w) w).2 = true) :
    s.storeDraft w =
      let t := ((s.stepBegun (wSlot w)).writeOut (wSlot w) w).1.draftStored w s.fine
      if wEnd w then t.forwardChain (wSlot w) (wChain w) else t :=
  if_pos h

/-- The ring takes the word where it is neither full nor discarding the packet (R74). -/
theorem State.stepBegun_writeOut (w : Word) (hd : (s.edgeAt slot).discardOut = false) (hpkts : (s.entry slot).outRing.pkts = 0)
    (hheld : (s.entry slot).outRing.held < 128) : ((s.stepBegun slot).writeOut slot w).2 = true := by
  obtain ⟨r, hr, hrheld, hentry⟩ := State.stepBegun_entry hpkts
  obtain ⟨st, hx⟩ := s.stepBegun_edgeAt slot
  generalize s.stepBegun slot = u at *
  rw [State.writeOut, State.consumeOut_unread (by rw [hentry]; exact hr), State.pushOut_stores w (by rw [hx]; exact hd) (by rw [hentry]; simpa [hrheld] using hheld)]

/-- What a draft stored leaves (R129, R130): the step's drafts with it as the last, its chain marked, LENGTH, the ledgers and the home as they were. -/
theorem State.storeDraft_stores {w : Word} (hd : (s.edgeAt (wSlot w)).discardOut = false) (hpkts : (s.entry (wSlot w)).outRing.pkts = 0)
    (hheld : (s.entry (wSlot w)).outRing.held < 128) :
    ∃ t : State, s.storeDraft w = (if wEnd w then t.forwardChain (wSlot w) (wChain w) else t) ∧
      (t.edgeAt (wSlot w)).drafts = (if (s.edgeAt (wSlot w)).mark then (s.edgeAt (wSlot w)).drafts else []) ++
        [{ chain := wChain w, depth := wDepth w, tok := wTok w, stamp := s.fine, verdict := none }] ∧
      (t.edgeAt (wSlot w)).mark = true ∧ (t.edgeAt (wSlot w)).nextDraft = (if wEnd w then none else some (wChain w, wDepth w + 1)) ∧
      (t.entry (wSlot w)).chains = (s.entry (wSlot w)).chains ||| 2 ^ wChain w ∧ (t.entry (wSlot w)).length = (s.entry (wSlot w)).length ∧
      t.ledgers = s.ledgers ∧ t.home = s.home := by
  refine ⟨_, State.storeDraft_taken (State.stepBegun_writeOut w hd hpkts hheld), ?_⟩
  obtain ⟨r, _, _, hentry⟩ := State.stepBegun_entry hpkts
  obtain ⟨st, hx⟩ := s.stepBegun_edgeAt (wSlot w)
  obtain ⟨r', hentry'⟩ := (s.stepBegun (wSlot w)).writeOut_entry (wSlot w) w
  obtain ⟨d', hx'⟩ := (s.stepBegun (wSlot w)).writeOut_edgeAt (wSlot w) w
  have f : Framed false [.entries, .edge, .slots, .parts, .mem, .img, .net] s ((s.stepBegun (wSlot w)).writeOut (wSlot w) w).1 :=
    State.writeOut_framed rfl ((State.stepBegun_framed s _).mono rfl)
  rw [hentry] at hentry'
  rw [hx] at hx'
  generalize ((s.stepBegun (wSlot w)).writeOut (wSlot w) w).1 = u at *
  have g : Framed false [.entries, .edge, .slots, .parts, .mem, .img, .net] s (u.draftStored w s.fine) :=
    State.setEdge_framed rfl (State.setEntry_framed rfl f)
  refine ⟨?_, ?_, ?_, ?_, ?_, (g.kept (f := .ledgers) (by decide)).symm, (g.kept (f := .home) (by decide)).symm⟩ <;>
    simp [State.draftStored, hx', hentry']

end Stored

/-- Settles O30: a word is dropped as the session check says; one that passes it is committed or stored, or dropped out of its order. -/
theorem streamIntake : Obligations.StreamIntake := by
  unfold Obligations.StreamIntake
  intro m s p w i pol
  simp only [exec_tokenIntake_eq, exec_draftIntake_eq, Host.Outcome.next.injEq]
  generalize s.elapse m = e
  intro hon
  have htoken := fun hk => State.onTokenIntake_clean hon p w hk
  have hdraft := fun hk hz => State.onDraftIntake_clean hon p w hk hz
  have hdrop : ∀ o, e.hrpCheck p w = some o → (wKind w = 1 → e.onTokenIntake p w .clean ⟨.clean, 0⟩ = o) ∧
      (wKind w = 2 → bf w 32 18 = 0 → e.onDraftIntake p w .clean = o) := fun o ho =>
    ⟨fun hk => by rw [htoken hk, ho]; rfl, fun hk hz => by rw [hdraft hk hz, ho]; rfl⟩
  refine ⟨fun hedge => hdrop _ (State.hrpCheck_noEdge hedge), fun hedge hstale => hdrop _ (State.hrpCheck_stale hedge hstale),
    fun hedge hfree hgen hpart => hdrop _ (State.hrpCheck_otherPart hedge hfree hgen hpart),
    fun hedge hfree hgen hpart hshut => hdrop _ (by rw [State.hrpCheck_own hedge hfree hgen hpart, hshut]; rfl),
    State.hrpCheck_eq_none, fun hk hpass => ?_, fun pos tok ob gen stamp hwork => State.homeToken_work pos tok ob gen stamp hwork,
    fun hk hz => State.onDraftIntake_reserved hon p w hk hz, fun hk hz hpass hd => ?_, fun hnext => State.finishPacket_none hnext,
    State.hrpWord_bad hon p _, State.hrpWord_bad hon p _⟩
  · have htake : e.onTokenIntake p w .clean ⟨.clean, 0⟩ = e.acceptToken w := by rw [htoken hk, hpass]; rfl
    rw [htake]
    refine ⟨State.acceptToken_misplaced, fun hpos hmax hmark => ⟨State.acceptToken_unknown hpos hmax hmark, fun hvocab hl =>
      ⟨(e.writeOut (wSlot w) (w ||| 0x8000_0000_0000_0000)).1.commitTok (wSlot w) (wTok w) e.fine none none,
        State.acceptToken_commits hpos hmax hmark hvocab hl, e.writeOut_commitTok (wSlot w) _ (wTok w) e.fine⟩⟩⟩
  · have htake : e.onDraftIntake p w .clean = e.acceptDraft w := by rw [hdraft hk hz, hpass]; rfl
    rw [htake]
    refine ⟨State.acceptDraft_dropping hd, fun hdropping hpol => ⟨fun hok hpkts hheld => ?_, State.acceptDraft_outOfOrder hd hdropping hpol⟩⟩
    rw [State.acceptDraft_inOrder hd hdropping hpol hok]
    exact State.storeDraft_stores hd hpkts hheld

end Sys2Proof.Machine
end

section
/-! SUPPORT. The stores read after an operation that leaves them, and the effects that stand when more follows. -/
namespace Sys2Proof.Machine

theorem Framed.entry_eq {F : List Field} {s t : State} (h : Framed false F s t) (hF : Field.entries ∉ F) (n : Nat) : t.entry n = s.entry n :=
  congrArg (sget Entry.zero · n) (h.kept hF).symm
theorem Framed.edgeAt_eq {F : List Field} {s t : State} (h : Framed false F s t) (hF : Field.edge ∉ F) (n : Nat) : t.edgeAt n = s.edgeAt n :=
  congrArg (sget EdgeAux.zero · n) (h.kept hF).symm
theorem Framed.homeAt_eq {F : List Field} {s t : State} (h : Framed false F s t) (hF : Field.home ∉ F) (n : Nat) : t.homeAt n = s.homeAt n :=
  congrArg (sget HomeAux.zero · n) (h.kept hF).symm
theorem Framed.slotAt_eq {F : List Field} {s t : State} (h : Framed false F s t) (hF : Field.slots ∉ F) (n : Nat) : t.slotAt n = s.slotAt n :=
  congrArg (sget SlotAux.zero · n) (h.kept hF).symm
theorem Framed.inReset_eq {F : List Field} {s t : State} (h : Framed false F s t) (hF : Field.rs ∉ F) : t.inReset = s.inReset :=
  congrArg (fun r : ResetU => r.reach.isSome) (h.kept hF).symm

/-- A cancelled session stays so over what follows, where that leaves the table, the edge and nothing at the session's home. -/
theorem Cancels.followed {F : List Field} {s t u : State} {slot : Nat} {c : Cancel} (h : Cancels s t slot c) (k : Framed false F t u)
    (hF : Field.entries ∉ F ∧ Field.edge ∉ F ∧ Field.slots ∉ F) (hh : u.homeAt slot = HomeAux.zero) : Cancels s u slot c := by
  obtain ⟨hentries, hedge, hslots⟩ := hF
  have he := k.entry_eq hentries
  exact ⟨by rw [he]; exact h.state, by rw [he]; exact h.reason, by rw [he]; exact h.gen, ⟨(k.edgeAt_eq hedge slot).trans h.working.1, hh⟩,
    by rw [k.slotAt_eq hslots]; exact h.tick, fun n hn => (he n).trans (h.others n hn)⟩

end Sys2Proof.Machine
end

section
/-! SUPPORT. A session's notices, the events that end the job, and the watchdog's warm reset (R49, R57, R159, R410, R418, R508). -/
namespace Sys2Proof.Machine

/-! What the rows do to the state once their moment has come. -/
theorem exec_queueOver_eq (m : Moment) (slot : Nat) (s : State) : exec (.queueOver m slot) s = .next ((s.elapse m).onQueueOver slot) := rfl
theorem exec_slippedNotice_eq (m : Moment) (slot : Nat) (s : State) : exec (.slippedNotice m slot) s = .next ((s.elapse m).onSlippedNotice slot) := rfl
theorem exec_hrpErr_eq (m : Moment) (s : State) : exec (.hrpErr m) s = .next (s.elapse m).onHrpErr := rfl
theorem exec_fspClockLoss_eq (m : Moment) (s : State) : exec (.fspClockLoss m) s = .next (s.elapse m).onFspClockLoss := rfl
theorem exec_slotStartMissed_eq (m : Moment) (eg : Bool) (l : Nat) (s : State) :
    exec (.slotStartMissed m eg l) s = .next ((s.elapse m).onSlotStartMissed eg l) := rfl
theorem exec_commitUndecided_eq (m : Moment) (s : State) : exec (.commitUndecided m) s = .next (s.elapse m).onCommitUndecided := rfl
theorem exec_throttleFloorViolation_eq (m : Moment) (s : State) :
    exec (.throttleFloorViolation m) s = .next (s.elapse m).onThrottleFloorViolation := rfl
theorem exec_cmiWatchdog_eq (m : Moment) (s : State) : exec (.cmiWatchdog m) s = .next (s.elapse m).onCmiWatchdog := rfl
theorem exec_linkLockLoss_eq (m : Moment) (l : Nat) (s : State) : exec (.linkLockLoss m l) s = .next ((s.elapse m).onLinkLockLoss l) := rfl

/-! A session's notices. -/
section Notices
variable {s : State} {slot : Nat}

theorem State.onQueueOver_none (h : (s.homeAt slot).work.any (s.overdue slot) = false) : s.onQueueOver slot = s := by
  simp [State.onQueueOver, h]

theorem State.onQueueOver_reports (hr : s.inReset = false) (h : (s.homeAt slot).work.any (s.overdue slot) = true) :
    s.onQueueOver slot = (s.setHome slot { s.homeAt slot with work := setFirst (s.overdue slot) (fun w => { w with overDue := true }) (s.homeAt slot).work }).trouble
      .queueOver 0 (Obj.handle (s.handle slot)) (some (s.entry slot).part) 0 := by
  simp [State.onQueueOver, hr, h]

theorem State.onSlippedNotice_tells (hon : s.hrpOn = true) (h : (s.slotAt slot).slipped.filter (fun l => !(s.inLaneAt l).fifo.full) ≠ []) :
    s.onSlippedNotice slot = s.tell slot [] := by
  have hany : (s.slotAt slot).slipped.any (fun l => !(s.inLaneAt l).fifo.full) = true := by
    simpa [List.any_eq_true] using h
  simp only [State.onSlippedNotice, hon, hany, Bool.and_self, if_true]

theorem State.onSlippedNotice_none (h : (s.slotAt slot).slipped.filter (fun l => !(s.inLaneAt l).fifo.full) = [] ∨ s.hrpOn = false) :
    s.onSlippedNotice slot = s := by
  have hany : (s.hrpOn && (s.slotAt slot).slipped.any (fun l => !(s.inLaneAt l).fifo.full)) = false := by
    rcases h with h | h
    · rw [Bool.and_eq_false_iff]; right
      simpa [List.any_eq_false] using h
    · simp [h]
  simp only [State.onSlippedNotice, hany, Bool.false_eq_true, if_false]

/-- The lanes told of lose their mark; those that keep it have no room (R49). -/
theorem State.tell_slipped (s : State) (slot : Nat) (ws : List Word) : ∀ l ∈ ((s.tell slot ws).slotAt slot).slipped,
    l ∈ (s.slotAt slot).slipped ∧ (s.inLaneAt l).fifo.full = true := by
  intro l hl
  have hslot : ((s.tell slot ws).slotAt slot).slipped = (s.slotAt slot).slipped.filter
      (fun l => !((s.slotAt slot).slipped.filter (fun l => !(s.inLaneAt l).fifo.full)).contains l) :=
    congrArg SlotAux.slipped (State.setSlot_slotAt_same (s := s) slot _)
  rw [hslot] at hl
  have hl' : l ∈ (s.slotAt slot).slipped ∧ (l ∉ (s.slotAt slot).slipped ∨ (s.inLaneAt l).fifo.full = true) := by simpa using hl
  exact ⟨hl'.1, hl'.2.resolve_left (not_not_intro hl'.1)⟩

end Notices

/-! The events that end the job, each when it is due. -/
section Ends
variable {s : State} (hr : s.inReset = false)

theorem State.onFspClockLoss_unused (h : s.lanesInUse = false) : s.onFspClockLoss = s := by simp [State.onFspClockLoss, h]

theorem State.onThrottleFloorViolation_eq {t : Nat} (h : s.clk.floorAt = some t) :
    s.onThrottleFloorViolation = if t + 4096 ≤ s.tm.refclk then s.jobFault .contract Obj.none none 0 else s := by
  simp [State.onThrottleFloorViolation, h]

include hr

theorem State.onHrpErr_ends : JobEnds s s.onHrpErr .port := by
  simpa [State.onHrpErr, hr] using State.jobFault_ends .port Obj.none none 0 hr

theorem State.onFspClockLoss_ends (h : s.lanesInUse = true) : JobEnds s s.onFspClockLoss .port := by
  simpa [State.onFspClockLoss, hr, h] using State.jobFault_ends .port Obj.none none 0 hr

theorem State.onSlotStartMissed_eq {eg : Bool} {l t : Nat} (hc : s.contract ≠ none) (h : s.startDue eg l = some t) :
    s.onSlotStartMissed eg l = if t < s.fine then s.overrun eg l else s := by
  simp [State.onSlotStartMissed, hr, hc, h]

theorem State.onCommitUndecided_eq {g : Staged} (h : s.com.staged = some g) (ha : g.acked = true) (hg : g.go = false) :
    s.onCommitUndecided = if g.target ≤ s.tick + 1 then s.jobFault .commitUndecided Obj.none none 0 else s := by
  simp [State.onCommitUndecided, State.undecided, hr, h, ha, hg]

end Ends

/-! The watchdog (R418, R419). -/

/-- The RESTART of a job fault leaves every sticky bit set (R410, R459). -/
theorem State.announceFault_bit {s : State} {n : Nat} (c : Cause) (o : Obj) (p : Option Nat) (d : Word) (h : bit s.trb.sticky n = true) :
    bit (s.announceFault c o p d).trb.sticky n = true := by
  have f : Framed false [.net] (s.faultEntry c o p (if c = .host ∨ c = .localReset then restartDetail s.gate s.tick else d)) _ :=
    State.bcast_framed (typ := typRestart) (cls := 0) (payload := restartPayload s.gate s.tick c.code) rfl (Framed.refl _)
  have htrb := f.kept (f := .trb) (by decide)
  show bit (State.bcast _ _ _ _).trb.sticky n = true
  rw [← show _ = _ from htrb, State.faultEntry_sticky]
  exact bit_or_left (bit_or_left h)

/-- Between `s` and `t` a source has asserted warm reach for some REFCLK cycles (R414, R420, R426): the sticky bits that were set stay set, and
so do the roles and gate time, and memory where no operation of the tier ended. -/
structure WarmAsserted (src cycles : Nat) (s t : State) : Prop where
  reach : t.rs.reach = some .warm
  length : t.rs.until' = s.tm.refclk + cycles
  source : t.rs.sources.testBit src = true
  sticky : ∀ n, bit s.trb.sticky n = true → bit t.trb.sticky n = true
  mem : s.tier.ops = [] → t.mem = s.mem
  role : t.role = s.role
  t48 : t.tm.t48 = s.tm.t48

/-- What sets sticky bits first, and leaves the time unit, the tier, the roles and memory, may stand before the assertion. -/
theorem WarmAsserted.after {F : List Field} {src cycles : Nat} {s a t : State} (h : WarmAsserted src cycles a t) (f : Framed false F s a)
    (hF : Field.tm ∉ F ∧ Field.mem ∉ F ∧ Field.role ∉ F ∧ Field.tier ∉ F) (hbit : ∀ n, bit s.trb.sticky n = true → bit a.trb.sticky n = true) :
    WarmAsserted src cycles s t := by
  obtain ⟨htm, hmem, hrole, htier⟩ := hF
  have etm : s.tm = a.tm := f.kept htm
  have emem : s.mem = a.mem := f.kept hmem
  have erole : s.role = a.role := f.kept hrole
  have etier : s.tier = a.tier := f.kept htier
  exact ⟨h.reach, by rw [etm]; exact h.length, h.source, fun n hn => h.sticky n (hbit n hn), by rw [etier, emem]; exact h.mem,
    by rw [erole]; exact h.role, by rw [etm]; exact h.t48⟩

theorem State.assertReset_warm {s : State} (src cycles : Nat) (h : s.inReset = false) : WarmAsserted src cycles s (s.assertReset .warm src cycles) := by
  have hreach : s.rs.reach = none := by simpa [State.inReset] using h
  unfold State.assertReset
  rw [hreach]
  dsimp only [State.clearFor]
  have f : Framed false [.rs] { s with rs := { s.rs with ctlIn := s.rs.ctl } } (({ s with rs := { s.rs with ctlIn := s.rs.ctl } } : State).dropOut .warm) :=
    State.dropOut_framed rfl (Framed.refl _)
  generalize State.dropOut _ _ = b at *
  have htrb : s.trb = b.trb := f.kept (f := .trb) (by decide)
  have hmem : s.mem = b.mem := f.kept (f := .mem) (by decide)
  have hrole : s.role = b.role := f.kept (f := .role) (by decide)
  have htm : s.tm = b.tm := f.kept (f := .tm) (by decide)
  have htier : s.tier = b.tier := f.kept (f := .tier) (by decide)
  obtain ⟨jtrb, jrole, _, jt48, _, _, _, jmem⟩ := b.clearJob_leaves
  refine ⟨rfl, rfl, ?_, fun n hn => ?_, by rw [htier, hmem]; exact jmem, by rw [hrole]; exact jrole, by rw [htm]; exact jt48⟩
  · show (2 ^ src ||| _).testBit src = true
    rw [Nat.testBit_or, Nat.testBit_two_pow_self, Bool.true_or]
  · show bit b.clearJob.trb.sticky n = true
    rwa [jtrb, ← htrb]

/-- The reset is announced to the ring first where that runs (R419). -/
theorem State.wideReset_warm {s : State} (src cycles : Nat) (h : s.inReset = false) : WarmAsserted src cycles s (s.wideReset .warm src cycles) := by
  unfold State.wideReset
  dsimp only
  split
  · have f : Framed false [.trb, .parts, .ints, .com, .net] s (s.announceFault .localReset Obj.none none 0) := State.announceFault_framed rfl (Framed.refl s)
    exact (State.assertReset_warm src cycles ((f.inReset_eq (by decide)).trans h)).after f (by decide) fun n => State.announceFault_bit _ _ _ _
  · exact State.assertReset_warm src cycles h

/-- An event on record before the reset keeps its bit through it (R460). -/
theorem State.trouble_wideReset_warm {s : State} (b : Sticky) (a : Nat) (o : Obj) (p : Option Nat) (d : Word) (src cycles : Nat) (h : s.inReset = false) :
    WarmAsserted src cycles s ((s.trouble b a o p d).wideReset .warm src cycles) ∧
      bit ((s.trouble b a o p d).wideReset .warm src cycles).trb.sticky b.idx = true := by
  have f : Framed false [.trb, .parts, .ints] s (s.trouble b a o p d) := State.trouble_framed rfl (Framed.refl s)
  have hwarm := State.wideReset_warm src cycles ((f.inReset_eq (by decide)).trans h)
  refine ⟨hwarm.after f (by decide) fun n hn => ?_, hwarm.sticky _ ?_⟩
  · rw [State.trouble_sticky]; exact bit_or_left hn
  · rw [State.trouble_sticky]; exact bit_word_pow (by cases b <;> decide) _

/-- The row's effect on the packet whose turn it is (R418). -/
theorem State.onCmiWatchdog_eq {s : State} {smp : Bool} {k : Pkt} (hr : s.inReset = false) (hn : s.nextPkt = some (smp, k)) (hen : bit s.rs.ctl 61 = true) :
    s.onCmiWatchdog = if k.arrived + 2 ^ 18 ≤ s.tm.refclk then
      (s.trouble .watchdog 5 (Obj.command (pktIssuer smp k).op (pktIssuer smp k).tag smp) (some (pktIssuer smp k).part) (targetWord s.tick)).wideReset .warm srcWatchdog 1
      else s := by
  simp [State.onCmiWatchdog, hr, hn, hen]

/-! A link that loses its lock (R413, R508). -/

/-- The gate with a link down. -/
def State.linkDown (s : State) (l : Nat) : State :=
  { s with net := { s.net with linkUp := if s.net.linkUp.testBit l then s.net.linkUp - 2 ^ l else s.net.linkUp } }

/-- Whether a valid route uses a link that is in use (R391, R413). -/
def State.routedOver (s : State) (l : Nat) : Bool := s.links.contains l && s.net.routes.any (fun r => bit r.2 63 && bf r.2 62 61 == l)

theorem State.onLinkLockLoss_eq (s : State) (l : Nat) :
    s.onLinkLockLoss l = if s.routedOver l then (s.linkDown l).jobFault .port Obj.none none 0 else s.linkDown l := by
  have hdown : (if s.net.linkUp.testBit l then { s with net := { s.net with linkUp := s.net.linkUp - 2 ^ l } } else s) = s.linkDown l := by
    unfold State.linkDown
    split <;> rfl
  unfold State.onLinkLockLoss
  dsimp only
  rw [hdown]
  rfl

/-- A job ended from the state with a link down is ended from the state before. -/
theorem JobEnds.of_linkDown {s t : State} {l : Nat} {c : Cause} (h : JobEnds (s.linkDown l) t c) : JobEnds s t c :=
  ⟨h.reach, h.length, h.source, h.jobBit, h.causeBit, h.told, h.image, h.staged, h.kept⟩

/-- Settles O35: each notice and each event is one of the equations above, read off where it is due and where it is not. -/
theorem noticesAndFaults : Obligations.NoticesAndFaults := by
  unfold Obligations.NoticesAndFaults
  simp only [exec_queueOver_eq, exec_slippedNotice_eq, exec_hrpErr_eq, exec_fspClockLoss_eq, exec_slotStartMissed_eq, exec_commitUndecided_eq,
    exec_throttleFloorViolation_eq, exec_cmiWatchdog_eq, exec_linkLockLoss_eq, Host.Outcome.next.injEq]
  refine ⟨fun m s slot => ?_, fun m s l t eg k smp g => ?_⟩
  · generalize s.elapse m = e
    refine ⟨fun hr h => ⟨_, State.onQueueOver_reports hr h, ?_⟩, State.onQueueOver_none,
      fun hon h => ⟨_, State.onSlippedNotice_tells hon h, State.tell_slipped e slot [], ?_⟩, State.onSlippedNotice_none⟩
    · refine ⟨?_, fun k hk => ?_, ?_, ?_, ?_⟩
      · rw [State.trouble_homeAt, State.setHome_homeAt_same]
      · rw [State.trouble_homeAt, State.setHome_homeAt_ne e _ hk]
      · rw [State.trouble_sticky]; exact bit_word_pow (by decide) _
      · rw [State.trouble_entries, State.setHome_entries]
      · rw [State.trouble_mem, State.setHome_mem]
    · have f : Framed false [.slots, .hrpOut] e (e.tell slot []) := State.tell_framed rfl (Framed.refl e)
      refine ⟨?_, (f.kept (f := .entries) (by decide)).symm, (f.kept (f := .fsp) (by decide)).symm⟩
      simp [State.tell, State.client]
  · generalize s.elapse m = e
    intro hr
    refine ⟨⟨_, rfl, State.onHrpErr_ends hr⟩, fun h => ⟨_, rfl, State.onFspClockLoss_ends hr h⟩, State.onFspClockLoss_unused, fun hc h => ?_, fun h ha hg => ?_,
      fun h => ?_, fun hn hen => ?_, fun h => ⟨_, rfl, ?_⟩, fun h => ?_⟩
    · rw [State.onSlotStartMissed_eq hr hc h]
      exact ⟨fun hlt => ⟨_, rfl, if_pos hlt ▸ State.overrun_ends eg l hr⟩, fun hle => if_neg (Nat.not_lt.2 hle)⟩
    · rw [State.onCommitUndecided_eq hr h ha hg]
      exact ⟨fun hle => ⟨_, if_pos hle, State.jobFault_ends _ _ _ _ hr⟩, fun hlt => if_neg (Nat.not_le.2 hlt)⟩
    · rw [State.onThrottleFloorViolation_eq h]
      exact ⟨fun hle => ⟨_, if_pos hle, State.jobFault_ends _ _ _ _ hr⟩, fun hlt => if_neg (Nat.not_le.2 hlt)⟩
    · rw [State.onCmiWatchdog_eq hr hn hen]
      refine ⟨fun hle => ⟨_, if_pos hle, ?_⟩, fun hlt => if_neg (Nat.not_le.2 hlt)⟩
      obtain ⟨hwarm, hbit⟩ := State.trouble_wideReset_warm (s := e) .watchdog 5 (Obj.command (pktIssuer smp k).op (pktIssuer smp k).tag smp)
        (some (pktIssuer smp k).part) (targetWord e.tick) srcWatchdog 1 hr
      exact ⟨hwarm.reach, hwarm.length, hwarm.source, hbit, hwarm.mem, hwarm.role, hwarm.t48⟩
    · rw [State.onLinkLockLoss_eq, State.routedOver, if_pos h]
      exact (State.jobFault_ends (s := e.linkDown l) .port Obj.none none 0 hr).of_linkDown
    · rw [State.onLinkLockLoss_eq, State.routedOver, h]
      rfl

end Sys2Proof.Machine
end

section
/-! SUPPORT. Work on clusters: the shortest queue, the WAKE_REQs of an assignment, and the runs that clusters take up. -/
namespace Sys2Proof.Machine

/-! Which items run is all that a cluster changes when it takes up runs (R273). -/

/-- A work item with its run set aside. -/
def Work.still (w : Work) : Work := { w with running := false }

/-- A session's home is as it was, but for which of its items run. -/
def HomeAux.RunsOn (h k : HomeAux) : Prop := ∃ ws, k = { h with work := ws } ∧ ws.map Work.still = h.work.map Work.still

theorem HomeAux.RunsOn.refl (h : HomeAux) : h.RunsOn h := ⟨h.work, rfl, rfl⟩

theorem HomeAux.RunsOn.trans {g h k : HomeAux} : g.RunsOn h → h.RunsOn k → g.RunsOn k := by
  rintro ⟨_, rfl, hws⟩ ⟨vs, rfl, hvs⟩
  exact ⟨vs, rfl, hvs.trans hws⟩

theorem HomeAux.RunsOn.work_still {h k : HomeAux} : h.RunsOn k → k.work.map Work.still = h.work.map Work.still := by
  rintro ⟨_, rfl, hws⟩; exact hws

/-- Where no work waits, nothing changes. -/
theorem HomeAux.RunsOn.eq_of_idle {h k : HomeAux} (hr : h.RunsOn k) (hw : h.work = []) : k = h := by
  obtain ⟨ws, rfl, hws⟩ := hr
  rw [hw, List.map_nil, List.map_eq_nil_iff] at hws
  rw [hws, ← hw]

theorem setFirst_map {α β : Type} {p : α → Bool} {f : α → α} {g : α → β} (h : ∀ a, g (f a) = g a) (l : List α) : (setFirst p f l).map g = l.map g := by
  induction l with
  | nil => rfl
  | cons a l ih =>
    rw [setFirst]
    split
    · rw [List.map_cons, List.map_cons, h]
    · rw [List.map_cons, List.map_cons, ih]

theorem State.setHome_runsOn (s : State) (n slot : Nat) (h : HomeAux) (hr : (s.homeAt n).RunsOn h) : (s.homeAt slot).RunsOn ((s.setHome n h).homeAt slot) := by
  by_cases hn : slot = n
  · subst hn; rwa [State.setHome_homeAt_same]
  · rw [State.setHome_homeAt_ne s _ hn]; exact .refl _

theorem State.runOne_runsOn (s : State) (c slot : Nat) : (s.homeAt slot).RunsOn ((s.runOne c).homeAt slot) := by
  unfold State.runOne
  split
  · split
    · exact s.setHome_runsOn _ slot _ ⟨_, rfl, setFirst_map (by exact fun _ => rfl) _⟩
    · exact .refl _
  · exact .refl _

/-- What each step of a loop over clusters leaves at a home, the loop leaves. -/
theorem foldl_runsOn {α : Type} {g : State → α → State} {slot : Nat} (hg : ∀ (s : State) (x : α), (s.homeAt slot).RunsOn ((g s x).homeAt slot)) (xs : List α) (s : State) :
    (s.homeAt slot).RunsOn ((xs.foldl g s).homeAt slot) := by
  induction xs generalizing s with
  | nil => exact .refl _
  | cons x xs ih => exact (hg s x).trans (ih (g s x))

theorem State.runNext_runsOn (s : State) (c slot : Nat) : (s.homeAt slot).RunsOn ((s.runNext c).homeAt slot) :=
  foldl_runsOn (fun s _ => s.runOne_runsOn c slot) _ s

theorem State.runClusters_runsOn (s : State) (slot : Nat) : (s.homeAt slot).RunsOn (s.runClusters.homeAt slot) := by
  refine foldl_runsOn (fun s c => ?_) _ s
  split
  · exact (s.setCluster c _).runNext_runsOn c slot
  · exact s.runNext_runsOn c slot

/-- A cluster that is not started takes up nothing (R273). -/
theorem State.runOne_of_not_started {s : State} {c : Nat} (h : (s.cluster c).power ≠ .started) : s.runOne c = s :=
  if_neg fun hrun => h hrun.1

theorem State.runNext_of_not_started {s : State} {c : Nat} (h : (s.cluster c).power ≠ .started) : s.runNext c = s := by
  unfold State.runNext
  generalize List.range clusterRuns = ns
  induction ns with
  | nil => rfl
  | cons n ns ih => rw [List.foldl_cons, State.runOne_of_not_started h, ih]

theorem State.setCluster_cluster_same {s : State} {c : Nat} (v : Cluster) (h : c < s.clk.clusters.length) : (s.setCluster c v).cluster c = v := by
  simp [State.cluster, State.setCluster, h]
theorem State.setCluster_cluster_ne (s : State) {c k : Nat} (v : Cluster) (h : c ≠ k) : (s.setCluster c v).cluster k = s.cluster k := by
  simp [State.cluster, State.setCluster, h]

@[simp] theorem State.runNext_clk (s : State) (c : Nat) : (s.runNext c).clk = s.clk :=
  ((State.runNext_framed (rst := false) (F := [.home]) rfl (Framed.refl s)).kept (f := .clk) (by decide)).symm
theorem State.runNext_cluster (s : State) (c k : Nat) : (s.runNext c).cluster k = s.cluster k := by
  rw [State.cluster, State.runNext_clk, State.cluster]

/-- That a cluster holds work is noted in when it was last idle, and nowhere else (R440). -/
theorem State.setCluster_idleSince_runs (s : State) (c k t : Nat) : ((s.setCluster c { s.cluster c with idleSince := t }).cluster k).runs = (s.cluster k).runs := by
  by_cases h : c = k
  · subst h
    by_cases hl : c < s.clk.clusters.length
    · rw [State.setCluster_cluster_same _ hl]
    · simp [State.cluster, State.setCluster, List.set_eq_of_length_le (Nat.not_lt.1 hl)]
  · rw [State.setCluster_cluster_ne s _ h]

theorem State.runClusters_runs (s : State) (k : Nat) : (s.runClusters.cluster k).runs = (s.cluster k).runs := by
  unfold State.runClusters
  generalize List.range 8 = cs
  induction cs generalizing s with
  | nil => rfl
  | cons c cs ih =>
    rw [List.foldl_cons, ih, State.runNext_cluster]
    split
    · exact s.setCluster_idleSince_runs c k s.fine
    · rfl

/-! The cluster with the shortest queue (R439). -/
theorem State.foldl_shorter_mem (s : State) (cs : List Nat) (c : Nat) :
    cs.foldl (fun b d => if s.waitingOn d < s.waitingOn b then d else b) c ∈ c :: cs := by
  induction cs generalizing c with
  | nil => exact List.mem_cons_self
  | cons d cs ih =>
    rw [List.foldl_cons]
    rcases List.mem_cons.1 (ih (if s.waitingOn d < s.waitingOn c then d else c)) with h | h
    · rw [h]; split <;> simp
    · exact List.mem_cons_of_mem _ (List.mem_cons_of_mem _ h)

theorem State.foldl_shorter_le (s : State) (cs : List Nat) (c : Nat) :
    ∀ k ∈ c :: cs, s.waitingOn (cs.foldl (fun b d => if s.waitingOn d < s.waitingOn b then d else b) c) ≤ s.waitingOn k := by
  induction cs generalizing c with
  | nil => simp
  | cons d cs ih =>
    intro k hk
    rw [List.foldl_cons]
    have hle := ih (if s.waitingOn d < s.waitingOn c then d else c)
    have hpick := hle _ List.mem_cons_self
    rcases List.mem_cons.1 hk with rfl | hk
    · exact Nat.le_trans hpick (by split <;> omega)
    · rcases List.mem_cons.1 hk with rfl | hk
      · exact Nat.le_trans hpick (by split <;> omega)
      · exact hle k (List.mem_cons_of_mem _ hk)

theorem State.shorter_spec {s : State} {cs : List Nat} (h : cs ≠ []) : ∃ d, s.shorter cs = some d ∧ d ∈ cs ∧ ∀ k ∈ cs, s.waitingOn d ≤ s.waitingOn k := by
  cases cs with
  | nil => exact absurd rfl h
  | cons c cs => exact ⟨_, rfl, s.foldl_shorter_mem cs c, s.foldl_shorter_le cs c⟩

/-! An assignment changes nothing but the clocks: WAKE_REQs (R439). -/
theorem State.wakeReq_shape (s : State) (c : Nat) : ∃ k, s.wakeReq c = { s with clk := k } := by
  unfold State.wakeReq
  dsimp only
  split
  · exact ⟨_, rfl⟩
  · split
    · exact ⟨_, rfl⟩
    · exact ⟨s.clk, rfl⟩

theorem State.wakeReqs_shape (s : State) (cs : List Nat) : ∃ k, cs.foldl (fun s d => s.wakeReq d) s = { s with clk := k } := by
  induction cs generalizing s with
  | nil => exact ⟨s.clk, rfl⟩
  | cons c cs ih =>
    obtain ⟨k, hk⟩ := s.wakeReq_shape c
    obtain ⟨k', hk'⟩ := ih (s.wakeReq c)
    exact ⟨k', by rw [List.foldl_cons, hk', hk]⟩

/-- The clusters of a region that are not removed (R275). -/
def State.usable (s : State) (r : Nat) : List Nat := (s.clustersOf r).filter (fun c => !(s.cluster c).removed)

theorem State.usable_lt {s : State} {r c : Nat} (h : c ∈ s.usable r) : c < s.grade.clusters := by
  have := (List.mem_filter.1 (List.mem_filter.1 h).1).2
  simpa using this

section Assign
variable {s : State} {r : Nat}

theorem State.assignTo_unusable (h : s.usable r = []) : s.assignTo r = (s, none) := by
  have h' : (s.clustersOf r).filter (fun c => !(s.cluster c).removed) = [] := h
  simp [State.assignTo, h', State.shorter]

theorem State.assignTo_started (h : ∃ d ∈ s.usable r, (s.cluster d).power = .started) :
    ∃ d t, s.assignTo r = (t, some d) ∧ (∃ k, t = { s with clk := k }) ∧ d ∈ s.usable r ∧ (s.cluster d).power = .started ∧
      ∀ j ∈ s.usable r, (s.cluster j).power = .started → s.waitingOn d ≤ s.waitingOn j := by
  have hne : (s.usable r).filter (fun c => (s.cluster c).power == .started) ≠ [] := by
    obtain ⟨d, hd, hp⟩ := h
    exact List.ne_nil_of_mem (List.mem_filter.2 ⟨hd, by simp [hp]⟩)
  obtain ⟨d, hs, hmem, hle⟩ := State.shorter_spec (s := s) hne
  obtain ⟨hd, hp⟩ := List.mem_filter.1 hmem
  refine ⟨d, if ((s.usable r).filter (fun c => (s.cluster c).power == .started)).all (fun d => decide (bf s.clk.ctlIn 46 43 ≤ s.waitingOn d))
    then (s.usable r).foldl (fun s d => s.wakeReq d) s else s, ?_, ?_, hd, by simpa using hp,
    fun j hj hpj => hle j (List.mem_filter.2 ⟨hj, by simp [hpj]⟩)⟩
  · rw [State.usable] at hs ⊢
    simp only [State.assignTo, hs]
  · split
    · exact s.wakeReqs_shape _
    · exact ⟨s.clk, rfl⟩

theorem State.assignTo_stopped {d : Nat} {ds : List Nat} (h : s.usable r = d :: ds) (hp : ∀ k ∈ s.usable r, (s.cluster k).power = .stopped) :
    s.assignTo r = (s.wakeReq d, some d) := by
  have hnone : ∀ p, p ≠ Power.stopped → (s.usable r).filter (fun c => (s.cluster c).power == p) = [] := fun p hne =>
    List.filter_eq_nil_iff.2 fun c hc => by simp [hp c hc, hne.symm]
  have h1 := hnone .started (by decide)
  have h2 := hnone .waking (by decide)
  rw [h] at h1 h2
  have h' : (s.clustersOf r).filter (fun c => !(s.cluster c).removed) = d :: ds := h
  simp [State.assignTo, h', h1, h2, State.shorter]

end Assign

end Sys2Proof.Machine
end

section
/-! SUPPORT. The next item of a region assigned to a cluster (R159, R275, R439). -/
namespace Sys2Proof.Machine

theorem exec_screeningItemStart_eq (m : Moment) (r : Nat) (f : ItemFind) (s : State) :
    exec (.screeningItemStart m r f) s = .next ((s.elapse m).onScreeningItemStart r f) := rfl

/-- The work of a home with an item given to a cluster, none of its instructions SPLIT (R439). -/
def HomeAux.given (h : HomeAux) (w : Work) (d : Nat) : HomeAux :=
  { h with work := setFirst (· == w) (fun w => { w with cluster := some d, split := [] }) h.work }

section Dispatch
variable {s : State} {r : Nat}

theorem State.dispatchNext_idle (h : s.firstOf (s.candidates r) = none ∨ s.usable r = []) : s.dispatchNext r = (s, none) := by
  unfold State.dispatchNext
  rcases h with h | h
  · rw [h]
  · rw [State.assignTo_unusable h]
    split <;> rfl

variable {t : State} {slot d : Nat} {w : Work}

/-- Where no instruction of the item is SPLIT, no other cluster is asked for (R272). -/
theorem State.dispatchNext_unsplit (hf : s.firstOf (s.candidates r) = some (slot, w)) (hs : s.splitPlaces slot w = [])
    (ha : s.assignTo r = (t, some d)) (ht : ∃ k, t = { s with clk := k }) :
    s.dispatchNext r = ((t.setHome slot ((s.homeAt slot).given w d)).runNext d, some slot) := by
  obtain ⟨k, rfl⟩ := ht
  have hs' : ({ s with clk := k } : State).splitPlaces slot w = [] := hs
  unfold State.dispatchNext
  rw [hf]
  dsimp only
  rw [ha]
  dsimp only
  rw [hs']
  rfl

variable (hr : s.inReset = false)
include hr

theorem State.onScreeningItemStart_idle (h : s.firstOf (s.candidates r) = none ∨ s.usable r = []) : s.onScreeningItemStart r .clean = s := by
  simp [State.onScreeningItemStart, hr, State.dispatchNext_idle h]

theorem State.onScreeningItemStart_assigns (hf : s.firstOf (s.candidates r) = some (slot, w)) (hs : s.splitPlaces slot w = [])
    (ha : s.assignTo r = (t, some d)) (ht : ∃ k, t = { s with clk := k }) :
    s.onScreeningItemStart r .clean = (t.setHome slot ((s.homeAt slot).given w d)).runNext d := by
  simp [State.onScreeningItemStart, hr, State.dispatchNext_unsplit hf hs ha ht, State.itemCheck]

end Dispatch

/-- A stopped cluster of a region that is not in reset starts to wake (R274, R425). -/
theorem State.wakeReq_cluster {s : State} {d : Nat} (hp : (s.cluster d).power = .stopped) (hd : d < s.grade.clusters) (hh : s.regionHeld (d / 2) = false)
    (hl : d < s.clk.clusters.length) : (s.wakeReq d).cluster d = { s.cluster d with power := .waking, wakeAt := s.fine } := by
  have hdue : s.stopDue d = false := by simp [State.stopDue, hp]
  have hwake : s.wakeReq d = ({ s with clk := { s.clk with quietSince := none } }).setCluster d { s.cluster d with power := .waking, wakeAt := s.fine } := by
    simp [State.wakeReq, hdue, hp, hd, hh]
  rw [hwake]
  exact State.setCluster_cluster_same (s := { s with clk := { s.clk with quietSince := none } }) _ hl

section Start
variable {s : State} {r slot : Nat} {w : Work} (hr : s.inReset = false) (hf : s.firstOf (s.candidates r) = some (slot, w))
  (hs : s.splitPlaces slot w = [])
include hr hf hs

/-- The item goes to the started cluster with the fewest items waiting (R439). -/
theorem State.onScreeningItemStart_started (h : ∃ d ∈ s.usable r, (s.cluster d).power = .started) :
    ∃ (d : Nat) (t : State), s.onScreeningItemStart r .clean = t ∧ d ∈ s.usable r ∧ (s.cluster d).power = .started ∧
      (∀ k ∈ s.usable r, (s.cluster k).power = .started → s.waitingOn d ≤ s.waitingOn k) ∧
      (t.homeAt slot).work.map Work.still = ((s.homeAt slot).given w d).work.map Work.still ∧ t.entries = s.entries ∧ t.edge = s.edge ∧ t.mem = s.mem := by
  obtain ⟨d, t, ha, ⟨k, rfl⟩, hd, hp, hle⟩ := State.assignTo_started h
  refine ⟨d, _, State.onScreeningItemStart_assigns hr hf hs ha ⟨k, rfl⟩, hd, hp, hle, ?_⟩
  have f : Framed false [.home, .clk] { s with clk := k } (((({ s with clk := k } : State).setHome slot ((s.homeAt slot).given w d))).runNext d) :=
    State.runNext_framed rfl (State.setHome_framed rfl (Framed.refl _))
  refine ⟨?_, (f.kept (f := .entries) (by decide)).symm, (f.kept (f := .edge) (by decide)).symm, (f.kept (f := .mem) (by decide)).symm⟩
  rw [(State.runNext_runsOn _ d slot).work_still, State.setHome_homeAt_same]

/-- With every usable cluster stopped, the first is woken and takes the item, which waits (R439). -/
theorem State.onScreeningItemStart_wakes {d : Nat} {ds : List Nat} (hu : s.usable r = d :: ds) (hp : ∀ k ∈ s.usable r, (s.cluster k).power = .stopped)
    (hh : s.regionHeld (d / 2) = false) (hl : d < s.clk.clusters.length) :
    ∃ t : State, s.onScreeningItemStart r .clean = t ∧ t.cluster d = { s.cluster d with power := .waking, wakeAt := s.fine } ∧
      t.homeAt slot = (s.homeAt slot).given w d ∧ t.entries = s.entries ∧ t.mem = s.mem := by
  have hd : d ∈ s.usable r := by rw [hu]; exact List.mem_cons_self
  have hshape := s.wakeReq_shape d
  have hcluster := State.wakeReq_cluster (hp d hd) (State.usable_lt hd) hh hl
  have hstart := State.onScreeningItemStart_assigns hr hf hs (State.assignTo_stopped hu hp) hshape
  generalize s.wakeReq d = t at *
  have hwaking : (t.setHome slot ((s.homeAt slot).given w d)).cluster d = { s.cluster d with power := .waking, wakeAt := s.fine } := hcluster
  rw [State.runNext_of_not_started (by rw [hwaking]; exact fun h => by cases h)] at hstart
  obtain ⟨k, rfl⟩ := hshape
  exact ⟨_, hstart, hwaking, State.setHome_homeAt_same .., rfl, rfl⟩

end Start

end Sys2Proof.Machine
end

section
/-! SUPPORT. The end of an item on a cluster: its decision, and what the session is left with (R136, R153, R155, R189, R280). -/
namespace Sys2Proof.Machine

theorem exec_screeningItemDone_eq (m : Moment) (c : Nat) (f : ItemFind) (s : State) :
    exec (.screeningItemDone m c f) s = .next ((s.elapse m).onScreeningItemDone c f) := rfl

/-- The verdict of an item's decision (R119, R155). -/
def State.itemVerdict (s : State) (slot : Nat) (w : Work) (o : Screened) (form chain : Nat) : Verdict :=
  { slot := slot, gen := (s.entry slot).gen, pos := w.pos, form := form, chain := chain, action := (decideVerdict o.hits o.stop).1, nan := o.nan,
    degraded := o.res.refused, poolFull := w.poolFull, reason := (decideVerdict o.hits o.stop).2 }

section Conclude
variable {s : State} {slot : Nat} {w : Work} {o : Screened}

theorem State.concludeItem_commit (hk : w.kind = .commit) (ha : (decideVerdict o.hits o.stop).1 ≠ 4) :
    s.concludeItem slot w o = s.sendVerdict slot (s.itemVerdict slot w o 0 0) := by
  simp [State.concludeItem, State.itemVerdict, hk, ha]

theorem State.concludeItem_draft {c k : Nat} (hk : w.kind = .draft c k) :
    s.concludeItem slot w o = s.sendVerdict slot (s.itemVerdict slot w o 1 c) := by
  simp [State.concludeItem, State.itemVerdict, hk]

theorem State.concludeItem_prompt (hk : w.kind = .prompt) (ha : (decideVerdict o.hits o.stop).1 ≠ 4) :
    s.concludeItem slot w o = s.setHome slot ((s.homeAt slot).setTurn w.turn (fun t => t.join o)) := by
  simp [State.concludeItem, hk, ha]

/-- A verdict of BLOCK formed at the home, with the anomaly bits of the item or of its turn noted (R156, R165). -/
theorem State.concludeItem_blocked (hk : w.kind = .commit ∨ w.kind = .prompt ∨ w.kind = .turn) (ha : (decideVerdict o.hits o.stop).1 = 4) :
    ∃ nan degraded, s.concludeItem slot w o = (s.noteAnomalies slot nan degraded).cancelAll slot .policy := by
  unfold State.concludeItem
  dsimp only
  rcases hk with hk | hk | hk
  · exact ⟨o.nan, o.res.refused, by rw [hk]; exact if_pos ha⟩
  all_goals
    rw [hk]
    dsimp only
    rw [if_pos ha]
    split
    · exact ⟨_, _, rfl⟩
    · exact ⟨_, _, rfl⟩

theorem State.concludeItem_cancels (hk : w.kind = .commit ∨ w.kind = .prompt ∨ w.kind = .turn) (ha : (decideVerdict o.hits o.stop).1 = 4)
    (hfree : (s.entry slot).state ≠ .free) (hcan : (s.entry slot).state ≠ .cancelled) : Cancels s (s.concludeItem slot w o) slot .policy := by
  obtain ⟨nan, degraded, hc⟩ := State.concludeItem_blocked (s := s) (slot := slot) hk ha
  have f : Framed false [.trb, .parts] s (s.noteAnomalies slot nan degraded) := State.noteAnomalies_framed rfl (Framed.refl s)
  have he := f.entry_eq (by decide) slot
  rw [hc]
  exact (State.cancelAll_cancels slot .policy (by rwa [he]) (by rwa [he])).after (OnlySlot.refl.framed f rfl) (f.kept (f := .clk) (by decide)).symm

end Conclude

/-- The evaluation of a prompt token joins its own turn (R155, R156). -/
theorem HomeAux.setTurn_turnOf (h : HomeAux) (no : Nat) (o : Screened) : (h.setTurn no (fun t => t.join o)).turnOf no = (h.turnOf no).map (·.join o) := by
  unfold HomeAux.turnOf HomeAux.setTurn
  dsimp only
  rw [List.find?_map]
  have hp : ((fun t : TurnAcc => t.no == no) ∘ fun t => if t.no = no then t.join o else t) = fun t => t.no == no := by
    funext t
    dsimp only [Function.comp]
    split <;> rfl
  rw [hp]
  cases hx : h.turns.find? (fun t => t.no == no) with
  | none => rfl
  | some t =>
    have : t.no = no := by simpa using List.find?_some hx
    simp [this]

/-- A session without work settles as it stands. -/
theorem State.settle_idle {s : State} {slot : Nat} (h : (s.homeAt slot).work = []) : s.settle slot = s := by
  simp [State.settle, h, State.settleHome]

/-! The verdict of a committed token on its way to an edge on this gate (R123, R160). -/
theorem Verdict.word_form (v : Verdict) : (verdictOf v.word).form = v.form % 2 ^ 2 :=
  bf_pack (v := v.form) (hi := 17) (lo := 16) (by simp) (by decide) (by simp)
theorem Verdict.word_pos (v : Verdict) : (verdictOf v.word).pos = v.pos % 2 ^ 20 :=
  bf_pack (v := v.pos) (hi := 37) (lo := 18) (by simp) (by decide) (by simp)

theorem State.edgeVerdict_token {s : State} {slot : Nat} {v : Verdict} {k : HeldTok} (hheld : (s.edgeAt slot).held = [k]) (hform : v.form = 0)
    (hpos : k.pos = v.pos) (hlt : v.pos < 2 ^ 20) (hv : k.verdict = none) (ht : (s.edgeAt slot).tIn = none) :
    s.edgeVerdict slot v.word = s.setEdge slot { s.edgeAt slot with held := [{ k with verdict := some v.word }] } := by
  have h0 : (verdictOf v.word).form = 0 := by rw [Verdict.word_form, hform, Nat.zero_mod]
  have hp : (verdictOf v.word).pos = k.pos := by rw [Verdict.word_pos, hpos, Nat.mod_eq_of_lt hlt]
  simp [State.edgeVerdict, h0, hp, hheld, hv, ht, setFirst]

/-- The state with the screening of an item written: memory, the item out of the session's work, the reruns counted (R151, R249). -/
def State.itemScreened (s : State) (slot : Nat) (w : Work) (rest : List Work) (i : Img) (o : Screened) : State :=
  ((s.putScreened slot i o.mem).setHome slot { s.homeAt slot with work := rest, imageSeen := i.gen, stopIn := s.stopsFor slot w }).countReruns slot o.res.runs

theorem State.itemScreened_framed (s : State) (slot : Nat) (w : Work) (rest : List Work) (i : Img) (o : Screened) :
    Framed false [.mem, .img, .home, .parts] s (s.itemScreened slot w rest i o) :=
  State.countReruns_framed rfl (State.setHome_framed rfl (State.putScreened_framed rfl (Framed.refl s)))

theorem State.itemScreened_work (s : State) (slot : Nat) (w : Work) (rest : List Work) (i : Img) (o : Screened) :
    ((s.itemScreened slot w rest i o).homeAt slot).work = rest := by
  have f : Framed false [.parts] ((s.putScreened slot i o.mem).setHome slot { s.homeAt slot with work := rest, imageSeen := i.gen, stopIn := s.stopsFor slot w })
      (s.itemScreened slot w rest i o) := State.countReruns_framed rfl (Framed.refl _)
  rw [f.homeAt_eq (by decide), State.setHome_homeAt_same]

theorem State.itemScreened_mem (s : State) (slot : Nat) (w : Work) (rest : List Work) (i : Img) (o : Screened) : (s.itemScreened slot w rest i o).mem = o.mem :=
  ((State.countReruns_framed (rst := false) (F := [.img, .home, .parts]) rfl (State.setHome_framed rfl (State.dropBacks_framed rfl (State.dropBacks_framed rfl
    (Framed.refl { s with mem := o.mem }))))).kept (f := .mem) (by decide)).symm

section Finish
variable {s : State} {slot : Nat} {w : Work} {rest : List Work} {i : Img} {p : Policy} (hw : (s.homeAt slot).work = w :: rest)
  (hp : s.sessionPolicy slot w.image = some (i, p))
include hw hp

theorem State.finishItem_ok {o : Screened} (h : s.screen slot w i p = .ok o) :
    s.finishItem slot = let t := (s.itemScreened slot w rest i o).concludeItem slot w o; (t.setHome slot (t.homeAt slot).tidy).settle slot := by
  simp only [State.finishItem, hw, hp, h]; rfl

theorem State.finishItem_bound {hd off : Nat} (h : s.screen slot w i p = .error (.bound hd off)) :
    s.finishItem slot = s.jobFault .handleBound (Obj.ssm hd off) none 0 := by
  simp only [State.finishItem, hw, hp, h]

theorem State.finishItem_patRange {sl st : Nat} (h : s.screen slot w i p = .error (.patRange sl st)) :
    s.finishItem slot = (s.trouble .patRange 2 (Obj.handle (s.handle slot)) (some (s.entry slot).part) (pack [(sl, 63, 59), (st, 58, 37)])).cancelAll slot .ecc := by
  simp only [State.finishItem, hw, hp, h]

/-- A BLOCK cancels the session where it is formed; nothing of the session is left to settle (R165). -/
theorem State.finishItem_blocked {o : Screened} (h : s.screen slot w i p = .ok o) (hk : w.kind = .commit ∨ w.kind = .prompt ∨ w.kind = .turn)
    (ha : (decideVerdict o.hits o.stop).1 = 4) (hfree : (s.entry slot).state ≠ .free) (hcan : (s.entry slot).state ≠ .cancelled) :
    Cancels s (s.finishItem slot) slot .policy ∧ (s.finishItem slot).inReset = s.inReset := by
  rw [State.finishItem_ok hw hp h]
  dsimp only
  have f := s.itemScreened_framed slot w rest i o
  generalize s.itemScreened slot w rest i o = u at *
  have he := f.entry_eq (by decide) slot
  have hu := State.concludeItem_cancels (s := u) (slot := slot) hk ha (by rwa [he]) (by rwa [he])
  have g : Framed false [.trb, .entries, .edge, .home, .slots, .ledgers, .parts, .ints, .cmi, .mem, .img, .net, .fsp, .tier, .hrpOut] s (u.concludeItem slot w o) :=
    State.concludeItem_framed rfl (f.mono rfl)
  generalize u.concludeItem slot w o = t at *
  have ht : Cancels s t slot .policy := hu.after (OnlySlot.refl.framed f rfl) (f.kept (f := .clk) (by decide)).symm
  have hhome : t.homeAt slot = HomeAux.zero := ht.working.2
  rw [hhome, State.settle_idle (by rw [State.setHome_homeAt_same]; rfl)]
  refine ⟨ht.followed (F := [.home]) (State.setHome_framed rfl (Framed.refl t)) (by decide) (State.setHome_homeAt_same ..), ?_⟩
  exact (State.setHome_framed (F := [.trb, .entries, .edge, .home, .slots, .ledgers, .parts, .ints, .cmi, .mem, .img, .net, .fsp, .tier, .hrpOut]) rfl g).inReset_eq (by decide)

/-- A pattern state out of range cancels the session (R189). -/
theorem State.finishItem_outOfRange {sl st : Nat} (h : s.screen slot w i p = .error (.patRange sl st)) (hfree : (s.entry slot).state ≠ .free)
    (hcan : (s.entry slot).state ≠ .cancelled) : Cancels s (s.finishItem slot) slot .ecc ∧ (s.finishItem slot).inReset = s.inReset := by
  rw [State.finishItem_patRange hw hp h]
  have f : Framed false [.trb, .parts, .ints] s (s.trouble .patRange 2 (Obj.handle (s.handle slot)) (some (s.entry slot).part) (pack [(sl, 63, 59), (st, 58, 37)])) :=
    State.trouble_framed rfl (Framed.refl s)
  generalize s.trouble _ _ _ _ _ = u at *
  have he := f.entry_eq (by decide) slot
  refine ⟨(State.cancelAll_cancels slot .ecc (by rwa [he]) (by rwa [he])).after (OnlySlot.refl.framed f rfl) (f.kept (f := .clk) (by decide)).symm, ?_⟩
  exact (State.cancelAll_framed (F := [.trb, .entries, .edge, .home, .slots, .ledgers, .parts, .ints, .cmi, .mem, .img, .net, .fsp, .tier, .hrpOut]) rfl
    (f.mono rfl)).inReset_eq (by decide)

/-- A committed token's verdict stands with the token at an edge on this gate (R123, R160). -/
theorem State.finishItem_passes {o : Screened} {k : HeldTok} (h : s.screen slot w i p = .ok o) (hk : w.kind = .commit) (hrest : rest = [])
    (ha : (decideVerdict o.hits o.stop).1 ≠ 4) (hedge : (s.entry slot).edge = true) (hheld : (s.edgeAt slot).held = [k]) (hpos : k.pos = w.pos)
    (hlt : w.pos < 2 ^ 20) (hv : k.verdict = none) (ht : (s.edgeAt slot).tIn = none) :
    Framed false [.trb, .edge, .home, .parts, .mem, .img] s (s.finishItem slot) ∧ (s.finishItem slot).mem = o.mem ∧ ((s.finishItem slot).homeAt slot).work = [] ∧
      ((s.finishItem slot).edgeAt slot).held = [{ k with verdict := some (s.itemVerdict slot w o 0 0).word }] := by
  rw [State.finishItem_ok hw hp h]
  dsimp only
  have f := s.itemScreened_framed slot w rest i o
  have hwork := (s.itemScreened_work slot w rest i o).trans hrest
  have hmem := s.itemScreened_mem slot w rest i o
  generalize s.itemScreened slot w rest i o = u at *
  have he := f.entry_eq (by decide) slot
  have hx := f.edgeAt_eq (by decide) slot
  have hverdict : u.itemVerdict slot w o 0 0 = s.itemVerdict slot w o 0 0 := by simp only [State.itemVerdict, he]
  rw [State.concludeItem_commit hk ha, hverdict]
  have g : Framed false [.trb, .parts] u (u.noteAnomalies slot (s.itemVerdict slot w o 0 0).nan (s.itemVerdict slot w o 0 0).degraded) :=
    State.noteAnomalies_framed rfl (Framed.refl u)
  rw [State.sendVerdict, he, if_pos hedge]
  generalize u.noteAnomalies _ _ _ = n at *
  have hxn : n.edgeAt slot = s.edgeAt slot := (g.edgeAt_eq (by decide) slot).trans hx
  rw [State.edgeVerdict_token (k := k) (by rw [hxn, hheld]) rfl hpos hlt hv (by rw [hxn, ht])]
  have hidle : (n.homeAt slot).work = [] := by rw [g.homeAt_eq (by decide), hwork]
  rw [State.settle_idle (by rw [State.setHome_homeAt_same]; exact hidle)]
  refine ⟨State.setHome_framed rfl (State.setEdge_framed rfl ((f.mono rfl).after g rfl)), ?_, ?_, ?_⟩
  · exact (show u.mem = n.mem from g.kept (f := .mem) (by decide)).symm.trans hmem
  · rw [State.setHome_homeAt_same]; exact hidle
  · rw [State.setHome_edgeAt, State.setEdge_edgeAt_same]

end Finish

/-- A run that a cluster has ended is counted (R439). -/
def State.countRun (s : State) (c : Nat) : State := s.setCluster c { s.cluster c with runs := satAdd 32 (s.cluster c).runs 1 }

section Done
variable {s : State} {c slot : Nat}

theorem State.onScreeningItemDone_idle (h : s.completing c = none) (f : ItemFind) : s.onScreeningItemDone c f = s := by
  simp [State.onScreeningItemDone, h]

variable (hr : s.inReset = false) (hc : s.completing c = some slot)
include hr hc

theorem State.onScreeningItemDone_ends (h : (s.finishItem slot).inReset = true) : s.onScreeningItemDone c .clean = s.finishItem slot := by
  simp [State.onScreeningItemDone, hr, hc, State.itemCheck, h]

theorem State.onScreeningItemDone_counts (h : (s.finishItem slot).inReset = false) :
    s.onScreeningItemDone c .clean = ((s.finishItem slot).countRun c).runClusters := by
  simp [State.onScreeningItemDone, hr, hc, State.itemCheck, h, State.countRun]

end Done

theorem State.countRun_runClusters_framed (s : State) (c : Nat) : Framed false [.home, .clk] s (s.countRun c).runClusters :=
  State.runClusters_framed rfl (State.setCluster_framed rfl (Framed.refl s))

theorem State.countRun_runClusters_runsOn (s : State) (c slot : Nat) : (s.homeAt slot).RunsOn ((s.countRun c).runClusters.homeAt slot) :=
  (s.countRun c).runClusters_runsOn slot

theorem State.countRun_runClusters_runs {s : State} {c : Nat} (h : c < s.clk.clusters.length) :
    ((s.countRun c).runClusters.cluster c).runs = satAdd 32 (s.cluster c).runs 1 := by
  rw [State.runClusters_runs, State.countRun, State.setCluster_cluster_same _ h]

/-- A session that the item's end has cancelled stays so while the clusters go on. -/
theorem Cancels.countRun {s t : State} {slot : Nat} {x : Cancel} (h : Cancels s t slot x) (c : Nat) : Cancels s (t.countRun c).runClusters slot x := by
  have hrun := t.countRun_runClusters_runsOn c slot
  have hhome := h.working.2
  exact h.followed (t.countRun_runClusters_framed c) (by decide) ((hrun.eq_of_idle (by rw [hhome]; rfl)).trans hhome)

end Sys2Proof.Machine
end

section
/-! SUPPORT. A block hashed and looked up, and the FEED replies that waited for it (R313, R314). -/
namespace Sys2Proof.Machine

theorem exec_blockHashDone_eq (m : Moment) (slot : Nat) (s : State) : exec (.blockHashDone m slot) s = .next ((s.elapse m).onBlockHashDone slot) := rfl

/-- The home with its oldest filled block taken: each FEED reply waits for one block less (R314). -/
def HomeAux.blockTaken (h : HomeAux) (rest : List (List Nat)) : HomeAux :=
  { h with hashQ := rest, feeds := h.feeds.map (fun f => { f with blocks := f.blocks - 1 }) }

/-- What the FEED replies that are due leave at the home: the replies still waited for (R314). -/
theorem State.feedsDone_homeAt (s : State) (slot : Nat) :
    (s.feedsDone slot).homeAt slot = { s.homeAt slot with feeds := (s.homeAt slot).feeds.filter (fun f => f.blocks != 0) } := by
  unfold State.feedsDone
  dsimp only
  generalize (s.homeAt slot).feeds.filter (fun f => f.blocks == 0) = ready
  refine (Framed.homeAt_eq (F := [.entries, .cmi, .net, .hrpOut]) (Framed.foldl (fun t x h => ?_) (Framed.refl _)) (by decide) slot).trans
    (State.setHome_homeAt_same ..)
  split
  · exact State.reply_framed rfl h
  · exact State.endPendWith_framed rfl h

/-- The one FEED reply that waited, of an issuer on this gate, goes out: the entry holds no reply any more (R314, R359). -/
theorem State.feedsDone_last {s : State} {slot : Nat} {f : FeedWait} (hf : (s.homeAt slot).feeds = [f]) (hb : f.blocks = 0) (hi : f.issuer.src = none) :
    ((s.feedsDone slot).entry slot).pendOp = 0 := by
  simp only [State.feedsDone, hf, hb, hi, List.filter, beq_self_eq_true, List.foldl_cons, List.foldl_nil]
  exact (State.endPendWith_entry _ slot _ _).2

/-- The home's part of a hash record's step: the chain at the last match is kept (R314). -/
def State.blockHashed (s : State) (slot : Nat) (b : List Nat) (before : Nat) : State :=
  if ((s.hashBlock slot b).hashRec slot).matched = before then s.hashBlock slot b
  else (s.hashBlock slot b).setHome slot { (s.hashBlock slot b).homeAt slot with matchChain := ((s.hashBlock slot b).hashRec slot).chain }

theorem State.blockHashed_homeAt (s : State) (slot : Nat) (b : List Nat) (before : Nat) :
    ∃ c, (s.blockHashed slot b before).homeAt slot = { s.homeAt slot with matchChain := c } := by
  have h : (s.hashBlock slot b).homeAt slot = s.homeAt slot := State.setHashRec_homeAt ..
  unfold State.blockHashed
  split
  · exact ⟨_, h⟩
  · exact ⟨_, by rw [State.setHome_homeAt_same, h]⟩

theorem State.blockHashed_mem (s : State) (slot : Nat) (b : List Nat) (before : Nat) : (s.blockHashed slot b before).mem = (s.hashBlock slot b).mem := by
  unfold State.blockHashed
  split <;> rfl

section Block
variable {s : State} {slot : Nat}

theorem State.onBlockHashDone_idle (h : (s.homeAt slot).hashQ = []) : s.onBlockHashDone slot = s := by
  simp [State.onBlockHashDone, h]

theorem State.onBlockHashDone_eq {b : List Nat} {bs : List (List Nat)} (hr : s.inReset = false) (h : (s.homeAt slot).hashQ = b :: bs) :
    s.onBlockHashDone slot =
      (((s.setHome slot ((s.homeAt slot).blockTaken bs)).blockHashed slot b (s.hashRec slot).matched).feedsDone slot) := by
  simp only [State.onBlockHashDone, h, hr, Bool.false_eq_true, if_false]
  rfl

/-- The block's hash enters the record of the session, whatever the home holds (R313). -/
theorem State.setHome_hashBlock_mem (s : State) (slot : Nat) (h : HomeAux) (b : List Nat) : ((s.setHome slot h).hashBlock slot b).mem = (s.hashBlock slot b).mem := rfl

theorem State.onBlockHashDone_hashes {b : List Nat} {bs : List (List Nat)} (hr : s.inReset = false) (h : (s.homeAt slot).hashQ = b :: bs) :
    ((s.onBlockHashDone slot).homeAt slot).hashQ = bs ∧ ((s.onBlockHashDone slot).homeAt slot).work = (s.homeAt slot).work ∧
      (s.onBlockHashDone slot).mem = (s.hashBlock slot b).mem ∧
      (∀ f, (s.homeAt slot).feeds = [f] → f.blocks = 1 → f.issuer.src = none →
        ((s.onBlockHashDone slot).homeAt slot).feeds = [] ∧ ((s.onBlockHashDone slot).entry slot).pendOp = 0) := by
  rw [State.onBlockHashDone_eq hr h]
  have hmem := (s.setHome slot ((s.homeAt slot).blockTaken bs)).blockHashed_mem slot b (s.hashRec slot).matched
  obtain ⟨c, hhome⟩ := (s.setHome slot ((s.homeAt slot).blockTaken bs)).blockHashed_homeAt slot b (s.hashRec slot).matched
  rw [State.setHome_hashBlock_mem] at hmem
  rw [State.setHome_homeAt_same] at hhome
  generalize (s.setHome slot ((s.homeAt slot).blockTaken bs)).blockHashed slot b (s.hashRec slot).matched = u at *
  have hfeeds := u.feedsDone_homeAt slot
  have f : Framed false [.entries, .home, .cmi, .net, .hrpOut] u (u.feedsDone slot) := State.feedsDone_framed rfl (Framed.refl u)
  refine ⟨by rw [hfeeds, hhome]; rfl, by rw [hfeeds, hhome]; rfl, (show u.mem = _ from f.kept (f := .mem) (by decide)).symm.trans hmem, fun g hg hb hi => ?_⟩
  have hg' : (u.homeAt slot).feeds = [{ g with blocks := 0 }] := by rw [hhome]; simp [HomeAux.blockTaken, hg, hb]
  exact ⟨by rw [hfeeds, hg']; rfl, State.feedsDone_last hg' rfl hi⟩

end Block

/-- Settles O36: each branch of an item's dispatch, of its end on a cluster, of its decision and of a block's hash is one of the equations
above. -/
theorem screening : Obligations.Screening := by
  unfold Obligations.Screening
  simp only [exec_screeningItemStart_eq, exec_screeningItemDone_eq, exec_blockHashDone_eq, Host.Outcome.next.injEq]
  refine ⟨fun m s r c slot w rest i p => ?_, fun m s slot w o b bs => ?_⟩
  · generalize s.elapse m = e
    intro hr
    refine ⟨State.onScreeningItemStart_idle hr, fun hf hs => ⟨State.onScreeningItemStart_started hr hf hs, fun d ds hu hp hh hl => ?_⟩,
      fun hc hw hp => ⟨fun o k ho hk hrest hedge hheld hpos hlt hv ht hl ha => ?_, fun o ho hk ha hfree hcan => ?_, fun hd off ho => ?_,
        fun sl st ho hfree hcan => ?_⟩, fun hc => State.onScreeningItemDone_idle hc .clean⟩
    · obtain ⟨t, ht, hcluster, hhome, hentries, hmem⟩ := State.onScreeningItemStart_wakes hr hf hs hu hp hh hl
      exact ⟨t, ht, hcluster, congrArg HomeAux.work hhome, hentries, hmem⟩
    · obtain ⟨f, hmem, hwork, hx⟩ := State.finishItem_passes hw hp ho hk hrest ha hedge hheld hpos hlt hv ht
      have hin : (e.finishItem slot).inReset = false := (f.inReset_eq (by decide)).trans hr
      have hclk : e.clk = (e.finishItem slot).clk := f.kept (f := .clk) (by decide)
      refine ⟨_, State.onScreeningItemDone_counts hr hc hin, ?_⟩
      have g := (e.finishItem slot).countRun_runClusters_framed c
      have hrun := (e.finishItem slot).countRun_runClusters_runsOn c slot
      refine ⟨(show (e.finishItem slot).mem = _ from g.kept (f := .mem) (by decide)).symm.trans hmem, ?_, ?_, ?_, ?_⟩
      · rw [g.edgeAt_eq (by decide)]; exact hx
      · rw [hrun.eq_of_idle hwork, hwork]
      · exact ((f.kept (f := .entries) (by decide)).trans (g.kept (f := .entries) (by decide))).symm
      · rw [State.countRun_runClusters_runs (by rwa [← hclk]), State.cluster, ← hclk, State.cluster]
    · obtain ⟨hcancels, hin⟩ := State.finishItem_blocked hw hp ho hk ha hfree hcan
      exact ⟨_, State.onScreeningItemDone_counts hr hc (hin.trans hr), hcancels.countRun c⟩
    · have hends : JobEnds e (e.finishItem slot) .handleBound := State.finishItem_bound hw hp ho ▸ State.jobFault_ends _ _ _ _ hr
      have hin : (e.finishItem slot).inReset = true := by rw [State.inReset, hends.reach]; rfl
      exact ⟨_, State.onScreeningItemDone_ends hr hc hin, hends⟩
    · obtain ⟨hcancels, hin⟩ := State.finishItem_outOfRange hw hp ho hfree hcan
      exact ⟨_, State.onScreeningItemDone_counts hr hc (hin.trans hr), hcancels.countRun c⟩
  · refine ⟨State.concludeItem_commit, fun c k => State.concludeItem_draft, State.concludeItem_cancels, fun hk ha => ⟨_, State.concludeItem_prompt hk ha, ?_⟩, ?_⟩
    · refine ⟨rfl, rfl, rfl, rfl, ?_, ?_⟩
      · rw [State.setHome_homeAt_same]; rfl
      · rw [State.setHome_homeAt_same, HomeAux.setTurn_turnOf]
    · generalize s.elapse m = e
      exact fun hr => ⟨State.onBlockHashDone_idle, fun hq => ⟨_, rfl, State.onBlockHashDone_hashes hr hq⟩⟩

end Sys2Proof.Machine
end

section
/-! SUPPORT. Cluster power: what the clusters keep while runs are taken up, a removed cluster while items are assigned anew, and the end
of a wake, in time or not (R274, R275, R440). -/
namespace Sys2Proof.Machine

theorem exec_clusterWakeDone_eq (m : Moment) (c : Nat) (s : State) : exec (.clusterWakeDone m c) s = .next ((s.elapse m).onClusterWakeDone c) := rfl
theorem exec_clusterWakeTimeout_eq (m : Moment) (c : Nat) (rail : Bool) (s : State) :
    exec (.clusterWakeTimeout m c rail) s = .next ((s.elapse m).onClusterWakeTimeout c rail) := rfl
theorem exec_clusterIdleStop_eq (m : Moment) (c : Nat) (s : State) : exec (.clusterIdleStop m c) s = .next ((s.elapse m).onClusterIdleStop c) := rfl

/-! The clusters take up runs: of a cluster only the time since which it is idle can change (R440). -/
section Reading
variable {α : Type} {g : Cluster → α} (hg : ∀ (k : Cluster) (t : Nat), g { k with idleSince := t } = g k)
include hg

theorem State.setCluster_idleSince_cluster (s : State) (c k t : Nat) :
    g ((s.setCluster c { s.cluster c with idleSince := t }).cluster k) = g (s.cluster k) := by
  by_cases h : c = k
  · subst h
    by_cases hl : c < s.clk.clusters.length
    · rw [State.setCluster_cluster_same _ hl, hg]
    · simp [State.cluster, State.setCluster, List.set_eq_of_length_le (Nat.not_lt.1 hl)]
  · rw [State.setCluster_cluster_ne s _ h]

theorem State.runClusters_cluster (s : State) (k : Nat) : g (s.runClusters.cluster k) = g (s.cluster k) := by
  unfold State.runClusters
  refine List.foldlRecOn (motive := fun t : State => g (t.cluster k) = g (s.cluster k)) _ _ rfl fun (t : State) ht c _ => ?_
  dsimp only
  rw [State.runNext_cluster]
  split
  · rw [State.setCluster_idleSince_cluster hg, ht]
  · exact ht

end Reading

/-! No item is assigned to a removed cluster, and no WAKE_REQ goes to it (R275). -/
theorem State.wakeReq_cluster_ne (s : State) {c d : Nat} (h : d ≠ c) : (s.wakeReq d).cluster c = s.cluster c := by
  unfold State.wakeReq
  dsimp only
  split
  · exact s.setCluster_cluster_ne _ h
  · split
    · exact State.setCluster_cluster_ne { s with clk := { s.clk with quietSince := none } } _ h
    · rfl

theorem State.wakeReqs_cluster (s : State) {c : Nat} {ds : List Nat} (h : c ∉ ds) :
    (ds.foldl (fun s d => s.wakeReq d) s).cluster c = s.cluster c := by
  refine List.foldlRecOn (motive := fun t : State => t.cluster c = s.cluster c) ds _ rfl fun (t : State) ht d hd => ?_
  rw [t.wakeReq_cluster_ne (ne_of_mem_of_not_mem hd h), ht]

/-- The clusters that run an item's SPLIT instructions in a region are usable ones of it (R272, R275). -/
theorem State.spanOf_subset (s : State) (own : Nat) (l : List (Nat × Nat)) (r : Nat) : s.spanOf own l r ⊆ s.usable r := by
  intro d hd
  have hcs : (s.clustersOf r).filter (fun c => !(s.cluster c).removed) = s.usable r := rfl
  unfold State.spanOf at hd
  rw [hcs] at hd
  dsimp only at hd
  split at hd
  · exact hd
  · split at hd
    next hfind => exact List.mem_singleton.1 hd ▸ List.mem_of_find?_eq_some hfind
    next hfind => exact List.mem_singleton.1 hd ▸ List.mem_of_find?_eq_some hfind
    next hcons => rw [hcons, List.mem_singleton.1 hd]; exact List.mem_cons_self
    next => exact absurd hd List.not_mem_nil

section Removed
variable {s : State} {c : Nat} (h : (s.cluster c).removed = true)
include h

theorem State.not_mem_usable_of_removed (r : Nat) : c ∉ s.usable r := fun hc => by
  simpa [h] using (List.mem_filter.1 hc).2

theorem State.assignTo_cluster_of_removed (r : Nat) : (s.assignTo r).1.cluster c = s.cluster c := by
  have hc : c ∉ (s.clustersOf r).filter (fun c => !(s.cluster c).removed) := State.not_mem_usable_of_removed h r
  unfold State.assignTo
  dsimp only
  split
  · split
    · exact s.wakeReqs_cluster hc
    · rfl
  · split
    · rfl
    · split
      next d ds hds =>
        rw [hds] at hc
        exact s.wakeReq_cluster_ne (fun hd => hc (hd ▸ List.mem_cons_self))
      · rfl

theorem State.dispatchNext_cluster_of_removed (r : Nat) : (s.dispatchNext r).1.cluster c = s.cluster c := by
  have ha := State.assignTo_cluster_of_removed h r
  unfold State.dispatchNext
  split
  · rfl
  · generalize s.assignTo r = p at ha
    obtain ⟨t, _ | d⟩ := p
    · exact ha
    · dsimp only at ha ⊢
      split
      · rfl
      · rw [State.runNext_cluster, State.wakeReqs_cluster]
        · exact ha
        · intro hc
          obtain ⟨q, hq, hcq⟩ := List.mem_flatten.1 hc
          obtain ⟨i, -, rfl⟩ := List.mem_map.1 hq
          exact State.not_mem_usable_of_removed (by rwa [ha]) i (t.spanOf_subset _ _ _ hcq)

/-- The items that waited for a removed cluster go elsewhere, and it stays as it is (R275). -/
theorem State.reassign_cluster_of_removed : (s.reassign c).cluster c = s.cluster c := by
  unfold State.reassign
  extract_lets uses count s1
  have hclk : s1.clk = s.clk := by
    refine ((Framed.foldl (F := [.home]) (fun t x ht => ?_) (Framed.refl s) : Framed false [.home] s s1).kept (f := .clk) (by decide)).symm
    split
    · exact State.setHome_framed rfl ht
    · exact ht
  have h1 : s1.cluster c = s.cluster c := by rw [State.cluster, hclk, State.cluster]
  refine List.foldlRecOn (motive := fun t : State => t.cluster c = s.cluster c) _ _ h1 fun (t : State) ht r _ => ?_
  refine List.foldlRecOn (motive := fun t : State => t.cluster c = s.cluster c) _ _ ht fun (t : State) ht _ _ => ?_
  rw [State.dispatchNext_cluster_of_removed (by rwa [ht]), ht]

end Removed

/-- The cluster has woken in time: it is usable from now on and counts in the capacities again (R274, R275). -/
def State.woken (s : State) (c : Nat) : State :=
  ({ s with bal := { s.bal with due := s.bal.due || (s.cluster c).removed } }).setCluster c
    { s.cluster c with power := .started, removed := false, wakes := satAdd 16 (s.cluster c).wakes 1, idleSince := s.fine }

/-- The wake has failed and is recorded, and the cluster is removed: its items are not yet assigned anew (R275). -/
def State.wakeFailed (s : State) (c : Nat) : State :=
  let t := (s.setCluster c { s.cluster c with power := .stopped, removed := true }).trouble .wakeFail 0 (Obj.cluster c) none 0
  { t with bal := { t.bal with due := true } }

section Wake
variable {s : State} {c : Nat}

theorem State.woken_cluster_same (hl : c < s.clk.clusters.length) : (s.woken c).cluster c =
    { s.cluster c with power := .started, removed := false, wakes := satAdd 16 (s.cluster c).wakes 1, idleSince := s.fine } :=
  State.setCluster_cluster_same (s := { s with bal := { s.bal with due := s.bal.due || (s.cluster c).removed } }) _ hl

theorem State.woken_cluster_ne {d : Nat} (h : d ≠ c) : (s.woken c).cluster d = s.cluster d :=
  State.setCluster_cluster_ne { s with bal := { s.bal with due := s.bal.due || (s.cluster c).removed } } _ h.symm

theorem State.wakeFailed_cluster (hl : c < s.clk.clusters.length) :
    (s.wakeFailed c).cluster c = { s.cluster c with power := .stopped, removed := true } := by
  rw [State.cluster, State.wakeFailed, State.trouble_clk]
  exact State.setCluster_cluster_same _ hl

theorem State.wakeFailed_sticky (s : State) (c : Nat) : bit (s.wakeFailed c).trb.sticky 16 = true := by
  unfold State.wakeFailed
  dsimp only
  rw [State.trouble_sticky]
  exact bit_word_pow (by decide) _

theorem State.wakeFailed_bal (s : State) (c : Nat) : (s.wakeFailed c).bal = { s.bal with due := true } :=
  congrArg (fun b : BalanceU => { b with due := true }) (State.trouble_bal ..)

theorem State.wakeFailed_entries (s : State) (c : Nat) : (s.wakeFailed c).entries = s.entries := State.trouble_entries ..
theorem State.wakeFailed_mem (s : State) (c : Nat) : (s.wakeFailed c).mem = s.mem := State.trouble_mem ..

theorem State.onClusterWakeDone_starts (hr : s.inReset = false) (hp : (s.cluster c).power = .waking)
    (ht : s.fine ≤ (s.cluster c).wakeAt + fineOf 2000) : s.onClusterWakeDone c = (s.woken c).runClusters := by
  simp [State.onClusterWakeDone, hr, hp, ht, State.woken]

theorem State.onClusterWakeTimeout_fails {rail : Bool} (hr : s.inReset = false) (hp : (s.cluster c).power = .waking)
    (ht : rail = true ∨ (s.cluster c).wakeAt + fineOf 2000 ≤ s.fine) : s.onClusterWakeTimeout c rail = (s.wakeFailed c).reassign c := by
  simp [State.onClusterWakeTimeout, hr, hp, ht, State.wakeFailed]

end Wake

/-- What a wake in time leaves (R274): the started cluster, its count, the capacities where it had been removed, and every other cluster's
power as it was. -/
theorem State.woken_runClusters {s : State} {c : Nat} (hl : c < s.clk.clusters.length) :
    ((s.woken c).runClusters.cluster c).power = .started ∧ ((s.woken c).runClusters.cluster c).removed = false ∧
      ((s.woken c).runClusters.cluster c).wakes = satAdd 16 (s.cluster c).wakes 1 ∧
      (s.woken c).runClusters.bal = { s.bal with due := s.bal.due || (s.cluster c).removed } ∧
      (∀ d, d ≠ c → ((s.woken c).runClusters.cluster d).power = (s.cluster d).power ∧
        ((s.woken c).runClusters.cluster d).removed = (s.cluster d).removed ∧
        ((s.woken c).runClusters.cluster d).wakes = (s.cluster d).wakes) ∧
      (s.woken c).runClusters.entries = s.entries ∧ (s.woken c).runClusters.mem = s.mem := by
  have f : Framed false [.home, .clk] (s.woken c) (s.woken c).runClusters := State.runClusters_framed rfl (Framed.refl _)
  have hpower := State.runClusters_cluster (g := Cluster.power) (fun _ _ => rfl) (s.woken c)
  have hremoved := State.runClusters_cluster (g := Cluster.removed) (fun _ _ => rfl) (s.woken c)
  have hwakes := State.runClusters_cluster (g := Cluster.wakes) (fun _ _ => rfl) (s.woken c)
  refine ⟨?_, ?_, ?_, (f.kept (f := .bal) (by decide)).symm, fun d hd => ?_, (f.kept (f := .entries) (by decide)).symm,
    (f.kept (f := .mem) (by decide)).symm⟩
  · rw [hpower, State.woken_cluster_same hl]
  · rw [hremoved, State.woken_cluster_same hl]
  · rw [hwakes, State.woken_cluster_same hl]
  · rw [hpower, hremoved, hwakes, State.woken_cluster_ne hd]
    exact ⟨rfl, rfl, rfl⟩

/-- What a failed wake leaves (R275): the cluster stopped and removed, WAKE_FAIL, and the capacities to be computed anew. -/
theorem State.wakeFailed_reassign {s : State} {c : Nat} (hl : c < s.clk.clusters.length) :
    ((s.wakeFailed c).reassign c).cluster c = { s.cluster c with power := .stopped, removed := true } ∧
      bit ((s.wakeFailed c).reassign c).trb.sticky 16 = true ∧ ((s.wakeFailed c).reassign c).bal = { s.bal with due := true } ∧
      ((s.wakeFailed c).reassign c).entries = s.entries ∧ ((s.wakeFailed c).reassign c).mem = s.mem := by
  have f : Framed false [.home, .clk] (s.wakeFailed c) ((s.wakeFailed c).reassign c) := State.reassign_framed rfl (Framed.refl _)
  have htrb : (s.wakeFailed c).trb = ((s.wakeFailed c).reassign c).trb := f.kept (f := .trb) (by decide)
  have hcluster := State.wakeFailed_cluster hl
  refine ⟨?_, ?_, (f.kept (f := .bal) (by decide)).symm.trans (s.wakeFailed_bal c),
    (f.kept (f := .entries) (by decide)).symm.trans (s.wakeFailed_entries c), (f.kept (f := .mem) (by decide)).symm.trans (s.wakeFailed_mem c)⟩
  · rw [State.reassign_cluster_of_removed (by rw [hcluster]), hcluster]
  · rw [← htrb]; exact s.wakeFailed_sticky c

section Idle
variable {s : State} {c : Nat}

theorem State.onClusterWakeDone_idle (hp : (s.cluster c).power ≠ .waking) : s.onClusterWakeDone c = s := by
  simp [State.onClusterWakeDone, hp]

theorem State.onClusterWakeTimeout_idle {rail : Bool}
    (h : (s.cluster c).power ≠ .waking ∨ (rail = false ∧ s.fine < (s.cluster c).wakeAt + fineOf 2000)) : s.onClusterWakeTimeout c rail = s := by
  rcases h with hp | ⟨hrail, ht⟩
  · simp [State.onClusterWakeTimeout, hp]
  · simp [State.onClusterWakeTimeout, hrail, Nat.not_le.2 ht]

theorem State.stopDue_iff : s.stopDue c = true ↔
    (s.cluster c).power = .started ∧ (s.cluster c).idleSince + fineOf (1000 * bf s.clk.ctlIn 52 47) ≤ s.fine := by
  simp [State.stopDue]

theorem State.onClusterIdleStop_stops (hr : s.inReset = false) (hd : s.stopDue c = true) (hw : s.holdsWork c = false) :
    s.onClusterIdleStop c = s.setCluster c { s.cluster c with power := .stopped } := by
  simp [State.onClusterIdleStop, hr, hd, hw]

theorem State.onClusterIdleStop_idle (h : s.holdsWork c = true ∨ ¬ s.stopDue c = true) : s.onClusterIdleStop c = s := by
  rcases h with h | h <;> simp [State.onClusterIdleStop, h]

end Idle

/-- Settles O37: a wake in time, a wake that fails, a stop, and each of the three rows before its time. -/
theorem clusterPower : Obligations.ClusterPower := by
  unfold Obligations.ClusterPower
  simp only [exec_clusterWakeDone_eq, exec_clusterWakeTimeout_eq, exec_clusterIdleStop_eq, Host.Outcome.next.injEq]
  intro m s c rail
  generalize s.elapse m = e
  intro hr hl
  refine ⟨fun hp ht => ⟨_, State.onClusterWakeDone_starts hr hp ht, State.woken_runClusters hl⟩,
    fun hp => ⟨State.onClusterWakeDone_idle hp, State.onClusterWakeTimeout_idle (.inl hp)⟩,
    fun hp ht => ⟨_, State.onClusterWakeTimeout_fails hr hp ht, State.wakeFailed_reassign hl⟩,
    fun _ hrail ht => State.onClusterWakeTimeout_idle (.inr ⟨hrail, ht⟩), fun hp hw ht => ?_, fun h => State.onClusterIdleStop_idle ?_⟩
  · refine ⟨_, State.onClusterIdleStop_stops hr (State.stopDue_iff.2 ⟨hp, ht⟩) hw, rfl, ?_⟩
    rw [State.setCluster_cluster_same _ hl]
  · rwa [State.stopDue_iff, Classical.not_and_iff_not_or_not, Nat.not_le]

end Sys2Proof.Machine
end

section
/-! SUPPORT. The row window: the write that starts an access, what its check finds, and its end (R281, R286, R295). -/
namespace Sys2Proof.Machine

theorem exec_ptSsmRead_eq (m : Moment) (b : RegBeat) (s : State) : exec (.ptSsmRead m b) s = .next ((s.elapse m).onPtSsmRead b) := rfl
theorem exec_ptSsmWrite_eq (m : Moment) (b : RegBeat) (s : State) : exec (.ptSsmWrite m b) s = .next ((s.elapse m).onPtSsmWrite b) := rfl
theorem exec_ptSsmAccessDone_eq (m : Moment) (p : Nat) (f : WordFind) (s : State) :
    exec (.ptSsmAccessDone m p f) s = .next ((s.elapse m).onPtSsmAccessDone p f) := rfl

/-- The checks of R286 in their order, the first that fails giving the status. -/
theorem winStatus_eq (d : Handle) (leased : Bool) (part op off : Nat) : winStatus d leased part op off =
    if d.valid = false then 1
    else if d.gate = true ∨ (d.scope ≠ part ∧ ¬ (op = 1 ∧ d.allp = true)) then 2
    else if d.bound ≤ off then 3
    else if op = 2 ∧ leased = true then 4 else 0 := by
  simp only [winStatus, Bool.not_eq_true', Bool.or_eq_true, Bool.and_eq_true, bne_iff_ne, beq_iff_eq, Bool.and_eq_false_iff,
    beq_eq_false_iff_ne, ne_eq, Decidable.not_and_iff_not_or_not, Bool.not_eq_true]

/-! PT_SSM_CTL written. -/
section Control
variable {s : State} {b : RegBeat} {p : Nat}

/-- A write that is whole and allowed, in a partition's window, reaches the register at its offset (R471 to R473). -/
theorem State.regAccess_writePart (hon : s.hrpOn = true) (hm : beatMisformed b = false) (hd : beatDenied b = false) (hw : beatWrites b = true)
    (hp : windowOf (beatAddr b) = some p) : s.regAccess b = s.writePart p (offsetOf (beatAddr b)) b.w1 := by
  simp [State.regAccess, State.accessReg, hon, hm, hd, hw, hp]

theorem State.writePart_ssmCtl {v : Word} (hs : stray v [(63, 58)] = false) (hop : bf v 63 62 ≠ 3) :
    s.writePart p 0x018 v = s.writePReg p .ssmCtl v := by
  simp [State.writePart, pregAt, PReg.fields, hs, hop]

theorem State.writePReg_ssmCtl_busy (hbusy : (s.part p).win.busy = true) (v : Word) : s.writePReg p .ssmCtl v = s.countBlocked := by
  simp [State.writePReg, hbusy]

theorem State.writePReg_ssmCtl_starts {v : Word} (hidle : (s.part p).win.busy = false) (hop : bf v 63 62 ≠ 0) :
    s.writePReg p .ssmCtl v = s.winStart p (bf v 63 62) := by
  simp [State.writePReg, hidle, hop]

/-! A write of OP 1 or 2, taken by the row that is for it. -/
variable (hon : s.hrpOn = true) (hm : beatMisformed b = false) (hd : beatDenied b = false) (hw : beatWrites b = true)
  (hp : windowOf (beatAddr b) = some p) (ho : offsetOf (beatAddr b) = 0x018) (hs : stray b.w1 [(63, 58)] = false)

section Row
include hw hp ho

theorem beatRow_ssmRead (hop : bf b.w1 63 62 = 1) : beatRow b = .ssmRead := by simp [beatRow, hw, hp, ho, hop]
theorem beatRow_ssmWrite (hop : bf b.w1 63 62 = 2) : beatRow b = .ssmWrite := by simp [beatRow, hw, hp, ho, hop]

end Row

include hon hm hd hw hp ho hs

theorem State.regAccess_ssmCtl (hop : bf b.w1 63 62 ≠ 3) : s.regAccess b = s.writePReg p .ssmCtl b.w1 := by
  rw [State.regAccess_writePart hon hm hd hw hp, ho, State.writePart_ssmCtl hs hop]

theorem State.onPtSsmRead_eq (hop : bf b.w1 63 62 = 1) : s.onPtSsmRead b = s.writePReg p .ssmCtl b.w1 := by
  rw [State.onPtSsmRead, State.rowAccess, if_pos (beatRow_ssmRead hw hp ho hop), State.regAccess_ssmCtl hon hm hd hw hp ho hs (by omega)]

theorem State.onPtSsmWrite_eq (hop : bf b.w1 63 62 = 2) : s.onPtSsmWrite b = s.writePReg p .ssmCtl b.w1 := by
  rw [State.onPtSsmWrite, State.rowAccess, if_pos (beatRow_ssmWrite hw hp ho hop), State.regAccess_ssmCtl hon hm hd hw hp ho hs (by omega)]

end Control

/-- An event of a partition changes that partition's interrupt record alone (R336). -/
theorem State.raise_part_same (s : State) (p v : Nat) : ∃ pend again ev rep, (s.raise p v).part p =
    { s.part p with intPend := pend, intAgain := again, evTime := ev, repTime := rep } := by
  unfold State.raise
  dsimp only
  split
  · exact ⟨_, _, _, _, State.setPart_part_same ..⟩
  · split
    · exact ⟨_, _, _, _, State.setPart_part_same ..⟩
    · exact ⟨_, _, _, _, State.setPart_part_same ..⟩

/-- An entry of the trouble log that names a partition leaves that partition's row window as it was. -/
theorem State.trouble_win (s : State) (b : Sticky) (a : Nat) (o : Obj) (p : Nat) (d : Word) :
    ((s.trouble b a o (some p) d).part p).win = (s.part p).win := by
  obtain ⟨u, hparts, -, hu⟩ := s.trouble_records b a o (some p) d
  obtain ⟨pend, again, ev, rep, hpart⟩ := u.raise_part_same p 6
  rw [hu, Option.elim_some, hpart, State.part, hparts, State.part]

/-- A row written leaves every byte outside it as it was. -/
theorem Memory.byte_putRow_out {m : Memory} {r a : Nat} {ws : List Word} (h : a < 64 * r ∨ 64 * r + 64 ≤ a) :
    (m.putRow r ws).byte a = m.byte a := by
  apply Memory.byte_putWords_out
  simp only [List.length_take, List.length_append, List.length_replicate]
  omega

/-! The end of an access, by what its check found. -/
section Done
variable {s : State} {p : Nat} (hb : (s.part p).win.busy = true)
include hb

theorem State.onPtSsmAccessDone_busy (f : WordFind) : s.onPtSsmAccessDone p f = s.winDone p f := by
  simp [State.onPtSsmAccessDone, hb]

theorem State.onPtSsmAccessDone_reads (hf : (s.part p).win.found = 0) (hop : (s.part p).win.op = 1) :
    s.onPtSsmAccessDone p ⟨.clean, 0⟩ = s.winEnd p 0 (s.mem.row (s.part p).win.row) := by
  simp [State.onPtSsmAccessDone_busy hb, State.winDone, hf, hop]

theorem State.onPtSsmAccessDone_writes (hf : (s.part p).win.found = 0) (hop : (s.part p).win.op = 2) (f : WordFind) :
    s.onPtSsmAccessDone p f =
      { (s.winEnd p 0 (s.part p).win.data).supersede (s.part p).win.row with mem := s.mem.putRow (s.part p).win.row (s.part p).win.data } := by
  simp only [State.onPtSsmAccessDone_busy hb, State.winDone, hf, hop, if_true]
  rfl

theorem State.onPtSsmAccessDone_conflicts (hf : (s.part p).win.found = 4) (f : WordFind) :
    s.onPtSsmAccessDone p f = (s.winEnd p 4 (s.part p).win.data).trouble .handleConflict 6
      (Obj.ssm (bf (s.part p).win.addr 63 54) (bf (s.part p).win.addr 53 32)) (some p) 0 := by
  simp only [State.onPtSsmAccessDone_busy hb, State.winDone, hf]

theorem State.onPtSsmAccessDone_refused (h0 : (s.part p).win.found ≠ 0) (h4 : (s.part p).win.found ≠ 4) (f : WordFind) :
    s.onPtSsmAccessDone p f = s.winEnd p (s.part p).win.found (s.part p).win.data := by
  rw [State.onPtSsmAccessDone_busy hb]
  unfold State.winDone
  dsimp only
  split
  · exact absurd ‹_› h0
  · exact absurd ‹_› h4
  · rfl

end Done

/-- Settles O26: PT_SSM_CTL written to an idle and to a busy window, and the four ways in which an access ends. -/
theorem rowWindow : Obligations.RowWindow := by
  unfold Obligations.RowWindow
  simp only [exec_ptSsmRead_eq, exec_ptSsmWrite_eq, exec_ptSsmAccessDone_eq, Host.Outcome.next.injEq]
  intro m s b p
  generalize s.elapse m = e
  refine ⟨fun hon hm hd hw hp ho hs => ?_, fun hb => ⟨State.onPtSsmAccessDone_reads hb, fun hf hop => ?_, fun hf => ?_, fun st hf h0 h4 => ?_⟩⟩
  · have hread := State.onPtSsmRead_eq hon hm hd hw hp ho hs
    have hwrite := State.onPtSsmWrite_eq hon hm hd hw hp ho hs
    refine ⟨fun hidle hop => ?_, fun hidle hop => ?_, fun hbusy hop => (hread hop).trans (State.writePReg_ssmCtl_busy hbusy _),
      fun hbusy hop => (hwrite hop).trans (State.writePReg_ssmCtl_busy hbusy _)⟩
    · rw [hread hop, State.writePReg_ssmCtl_starts hidle (by omega), hop]
      simp only [State.winStart, winStatus_eq, Bool.or_eq_true, Bool.not_eq_true']
    · rw [hwrite hop, State.writePReg_ssmCtl_starts hidle (by omega), hop]
      simp only [State.winStart, winStatus_eq, Bool.or_eq_true, Bool.not_eq_true']
  · exact ⟨_, State.onPtSsmAccessDone_writes hb hf hop _, State.setPart_part_same .., rfl, fun a => Memory.byte_putRow_out, rfl, rfl⟩
  · refine ⟨_, State.onPtSsmAccessDone_conflicts hb hf _, ?_, State.trouble_mem .., ?_⟩
    · rw [State.trouble_win, State.winEnd, State.setPart_part_same]
    · rw [State.trouble_sticky]
      exact bit_word_pow (by decide) _
  · subst hf
    exact State.onPtSsmAccessDone_refused hb h0 h4 _

end Sys2Proof.Machine
end

section
/-! SUPPORT. Pages read and written: the items a read stages, what a page that cannot be read ends, the devices that freeing and cancelling
leave present and trained, and how a write ends (R299, R303, R304, R320, R508). -/
namespace Sys2Proof.Machine

/-! Whether each device is present and trained, which only training and a failed port change (R297, R508). -/

/-- Whether each device is present and trained. -/
def State.fit (s : State) : List (Bool × Bool) := s.tier.devs.map (fun v => (v.present, v.trained))

theorem State.fit_getD (s : State) (d : Nat) : s.fit.getD d (false, false) = ((s.dev d).present, (s.dev d).trained) := by
  simp only [State.fit, State.dev, List.getD_eq_getElem?_getD, List.getElem?_map]
  cases s.tier.devs[d]? <;> rfl

theorem Framed.fit {F : List Field} {s t : State} (h : Framed false F s t) (hF : F.contains .tier = false) : t.fit = s.fit := by
  have htier : s.tier = t.tier := h.kept (f := .tier) (by simpa using hF)
  rw [State.fit, State.fit, htier]

theorem State.setDev_fit {s : State} {d : Nat} {v : Dev} (hp : v.present = (s.dev d).present) (ht : v.trained = (s.dev d).trained) :
    (s.setDev d v).fit = s.fit := by
  show (s.tier.devs.set d v).map _ = _
  rw [List.map_set, hp, ht, ← s.fit_getD]
  exact set_getD_self s.fit d _

theorem State.foldl_fit {α : Type} {g : State → α → State} (hg : ∀ s x, (g s x).fit = s.fit) (xs : List α) : ∀ s : State, (xs.foldl g s).fit = s.fit := by
  induction xs with
  | nil => exact fun _ => rfl
  | cons x xs ih => exact fun s => (ih _).trans (hg s x)

@[simp] theorem State.touch_fit (s : State) (es : List Nat) : (s.touch es).fit = s.fit := by
  show (s.tier.devs.zipIdx.map _).map _ = s.tier.devs.map _
  rw [List.map_map]
  calc s.tier.devs.zipIdx.map _ = s.tier.devs.zipIdx.map ((fun v : Dev => (v.present, v.trained)) ∘ Prod.fst) :=
        List.map_congr_left fun p _ => by dsimp only [Function.comp]; split <;> rfl
    _ = _ := by rw [← List.map_map, List.zipIdx_map_fst]

@[simp] theorem State.freeExtents_fit (s : State) (es : List Nat) : (s.freeExtents es).fit = s.fit := s.touch_fit es

@[simp] theorem State.subHeld_fit (s : State) (t n : Nat) : (s.subHeld t n).fit = s.fit :=
  (State.subHeld_framed (F := [.ledgers, .net]) rfl (Framed.refl s)).fit rfl

@[simp] theorem State.freeSlice_fit (s : State) (t : Option Nat) (h p : Nat) : (s.freeSlice t h p).fit = s.fit := by
  unfold State.freeSlice State.freeList
  split
  · rfl
  · cases t <;> simp

@[simp] theorem State.dirPut_fit (s : State) (i : Nat) (d : Option DirEnt) : (s.dirPut i d).fit = s.fit := by
  unfold State.dirPut
  split
  · rfl
  · exact (State.putMem_framed (F := [.mem, .img]) rfl (Framed.refl s)).fit rfl

@[simp] theorem State.dirDrop_fit (s : State) (i : Nat) (d : DirEnt) : (s.dirDrop i d).fit = s.fit := by
  unfold State.dirDrop
  dsimp only
  split <;> simp

@[simp] theorem State.setAdapter_fit (s : State) (v : Nat) (c : Option Slice) : (s.setAdapter v c).fit = s.fit := by
  unfold State.setAdapter
  dsimp only
  split
  · split
    · rfl
    · rw [State.freeSlice_fit]; rfl
  · rfl

@[simp] theorem State.endOp_fit (s : State) (o : TierOp) : (s.endOp o).fit = s.fit := by
  unfold State.endOp
  extract_lets spent _ s1 s2 mine gone s3
  have h2 : s2.fit = s.fit := State.foldl_fit (fun s (d : Option Nat × Nat × Nat) => s.freeSlice_fit d.1 d.2.1 d.2.2) _ s1
  have h3 : s3.fit = s2.fit := State.foldl_fit (fun s (c : Nat × DirEnt) => s.dirDrop_fit c.1 c.2) gone s2
  exact h3.trans h2

@[simp] theorem State.freeOpPages_fit (s : State) (o : TierOp) : (s.freeOpPages o).fit = s.fit := by
  unfold State.freeOpPages
  dsimp only
  split <;> simp

@[simp] theorem State.deadOp_fit (s : State) (o : TierOp) (slips counted : Bool) : (s.deadOp o slips counted).fit = s.fit :=
  (State.deadOp_framed (F := [.fsp]) rfl (Framed.refl s)).fit rfl

@[simp] theorem State.dropOps_fit (s : State) (slot : Nat) : (s.dropOps slot).fit = s.fit :=
  State.foldl_fit (fun s (o : TierOp) => by simp) _ s

@[simp] theorem State.freeCopy_fit (s : State) (slot : Nat) : (s.freeCopy slot).fit = s.fit := by
  unfold State.freeCopy
  dsimp only
  rw [(State.setEntry_framed (F := [.entries, .net]) rfl (Framed.refl _)).fit rfl]
  split <;> simp

/-- A cancel frees what the session held in the tier, and changes no device but to wake it. -/
@[simp] theorem State.cancelLocal_fit (s : State) (slot : Nat) (c : Cancel) : (s.cancelLocal slot c).fit = s.fit := by
  unfold State.cancelLocal
  extract_lets e h s1 s2 s3 s4 s5 e5 s6 _ s7
  split
  · rfl
  have h1 : s1.fit = s.fit := by
    rw [State.dropOps_fit]
    exact (State.endPend_framed (F := [.entries, .cmi, .net, .hrpOut]) rfl (Framed.refl s)).fit rfl
  have f3 : Framed false [.cmi, .net, .hrpOut] s1 s3 := by
    have f2 : Framed false [.cmi, .net, .hrpOut] s1 s2 := Framed.foldl (fun t f h => State.answer_framed rfl h) (Framed.refl s1)
    show Framed false _ s1 (match h.closeFor with | some i => s2.answer i .noSession | none => s2)
    split
    · exact State.answer_framed rfl f2
    · exact f2
  have h4 : s4.fit = s.fit := (s3.freeCopy_fit slot).trans ((f3.fit rfl).trans h1)
  have f7 : Framed false [.entries, .edge, .home, .slots, .net, .fsp, .hrpOut] s4 s7 := by
    refine State.setSlot_framed rfl (State.setHome_framed rfl (State.setEdge_framed rfl (State.setEntry_framed rfl ?_)))
    show Framed false _ s4 (if _ then _ else _)
    split
    · exact State.control_framed rfl (Framed.refl s4)
    · exact Framed.refl s4
  split
  · exact ((State.raise_framed (F := [.parts, .ints]) rfl (Framed.refl s7)).fit rfl).trans ((f7.fit rfl).trans h4)
  · exact (f7.fit rfl).trans h4

@[simp] theorem State.cancelAll_fit (s : State) (slot : Nat) (c : Cancel) : (s.cancelAll slot c).fit = s.fit := by
  unfold State.cancelAll
  dsimp only
  split
  · rfl
  · split
    · rw [(State.bcast_framed (F := [.net]) rfl (Framed.refl _)).fit rfl, State.cancelLocal_fit]
    · rw [(State.sendTo_framed (F := [.net]) rfl (Framed.refl _)).fit rfl, State.cancelLocal_fit]

@[simp] theorem State.dropOwners_fit (s : State) (e : Nat) : (s.dropOwners e).fit = s.fit :=
  (State.foldl_fit (fun s (c : Nat × Slice) => s.setAdapter_fit c.1 none) _ _).trans
    (State.foldl_fit (fun s (c : Nat × DirEnt) => s.dirDrop_fit c.1 c.2) _ s)

/-! A page that cannot be read (R320). -/

/-- An uncorrectable page counted on its device and on record. -/
def State.pageLost (s : State) (e : Nat) (who : List Nat) : State :=
  (s.devUe (extDev e)).trouble .tierUe (if who.isEmpty then 0 else 2) (Obj.extent (extDev e) e) (who.head?.map (fun n => (s.entry n).part)) 0

theorem State.pageLost_fit (s : State) (e : Nat) (who : List Nat) : (s.pageLost e who).fit = s.fit :=
  ((State.trouble_framed (F := [.trb, .parts, .ints]) rfl (Framed.refl _)).fit rfl).trans (State.setDev_fit rfl rfl)

@[simp] theorem State.pageLost_entry (s : State) (e : Nat) (who : List Nat) (n : Nat) : (s.pageLost e who).entry n = s.entry n :=
  congrArg (sget Entry.zero · n) (State.trouble_entries ..)

/-- The sessions that a bad page cancels: the reader first, then another that holds the page. -/
theorem State.pageBad_read (s : State) (e slot : Nat) : ∃ owners : List Nat, s.pageBad e (some slot) =
    (owners.foldl (fun s n => s.cancelAll n .ecc) ((s.pageLost e (slot :: owners)).cancelAll slot .ecc)).dropOwners e := by
  refine ⟨((s.copyOwner e).toList.filter (fun b => !b == slot)).eraseDups, ?_⟩
  have hwho : ((some slot).toList ++ (s.copyOwner e).toList).eraseDups =
      slot :: ((s.copyOwner e).toList.filter (fun b => !b == slot)).eraseDups := List.eraseDups_cons
  unfold State.pageBad
  rw [hwho]
  rfl

theorem State.pageBad_fit (s : State) (e slot : Nat) : (s.pageBad e (some slot)).fit = s.fit := by
  obtain ⟨owners, h⟩ := s.pageBad_read e slot
  rw [h, State.dropOwners_fit, State.foldl_fit (fun s n => s.cancelAll_fit n .ecc), State.cancelAll_fit, State.pageLost_fit]

/-- Once cancelled, an entry stays as it is when another session is cancelled, or it again. -/
theorem State.cancelAll_entry_of_cancelled {s : State} {n : Nat} (h : (s.entry n).state = .cancelled) (k : Nat) (c : Cancel) :
    (s.cancelAll k c).entry n = s.entry n := by
  by_cases hk : (s.entry k).state = .free ∨ (s.entry k).state = .cancelled
  · simp [State.cancelAll, hk]
  · obtain ⟨hfree, hcan⟩ := not_or.1 hk
    exact (State.cancelAll_cancels k c hfree hcan).others n (by rintro rfl; exact hcan h)

theorem State.foldl_cancelAll_entry {n : Nat} (c : Cancel) (ks : List Nat) :
    ∀ {s : State}, (s.entry n).state = .cancelled → (ks.foldl (fun s k => s.cancelAll k c) s).entry n = s.entry n := by
  induction ks with
  | nil => exact fun _ => rfl
  | cons k ks ih =>
    intro s h
    have hk := State.cancelAll_entry_of_cancelled h k c
    exact (ih (by rw [hk, h])).trans hk

/-- A page that the reader's spring cannot read cancels its session with ECC (R320). -/
theorem State.pageBad_cancels {s : State} (e : Nat) {slot : Nat} (h1 : (s.entry slot).state ≠ .free) (h2 : (s.entry slot).state ≠ .cancelled) :
    ((s.pageBad e (some slot)).entry slot).state = .cancelled ∧ ((s.pageBad e (some slot)).entry slot).endReason = Cancel.ecc.code := by
  obtain ⟨owners, h⟩ := s.pageBad_read e slot
  have hc : Cancels (s.pageLost e (slot :: owners)) ((s.pageLost e (slot :: owners)).cancelAll slot .ecc) slot .ecc :=
    State.cancelAll_cancels slot .ecc (by simpa using h1) (by simpa using h2)
  have hdrop : ∀ u : State, (u.dropOwners e).entry slot = u.entry slot := fun u =>
    congrArg (sget Entry.zero · slot) ((State.dropOwners_framed (F := [.ledgers, .mem, .img, .net, .tier]) rfl (Framed.refl u)).kept (f := .entries) (by decide)).symm
  rw [h, hdrop, State.foldl_cancelAll_entry .ecc owners hc.state]
  exact ⟨hc.state, hc.reason⟩

/-! A device that fails a command twice (R508). -/
theorem State.portFail_other {d : Nat} (h : d ≠ 0) (s : State) : s.portFail d = s.setDev d { s.dev d with present := false, trained := false } := if_neg h

theorem State.portFail_zero_ends {s : State} (h : s.inReset = false) : JobEnds s (s.portFail 0) .port := State.jobFault_ends _ _ _ _ h

theorem State.setDev_dev_same {s : State} {d : Nat} (h : d < s.tier.devs.length) (v : Dev) : (s.setDev d v).dev d = v := by
  simp [State.setDev, State.dev, h]

/-- A device lost under a spring's page is absent and untrained, and the spring's session is cancelled. -/
theorem State.portFail_pageBad {s : State} {d slot : Nat} (e : Nat) (hd : d ≠ 0) (hl : d < s.tier.devs.length)
    (h1 : (s.entry slot).state ≠ .free) (h2 : (s.entry slot).state ≠ .cancelled) :
    (((s.portFail d).pageBad e (some slot)).dev d).trained = false ∧ (((s.portFail d).pageBad e (some slot)).dev d).present = false ∧
    (((s.portFail d).pageBad e (some slot)).entry slot).state = .cancelled := by
  rw [State.portFail_other hd]
  have hfit := State.fit_getD ((s.setDev d { s.dev d with present := false, trained := false }).pageBad e (some slot)) d
  rw [State.pageBad_fit, State.fit_getD, State.setDev_dev_same hl, Prod.mk.injEq] at hfit
  exact ⟨hfit.2.symm, hfit.1.symm, (State.pageBad_cancels (s := s.setDev d _) e h1 h2).1⟩

/-! Items staged for a spring (R46, R73). -/
theorem SlotFifo.foldl_push_tags (tag : Nat → Nat) (it : Nat → Item) (js : List Nat) :
    ∀ f : SlotFifo, (js.foldl (fun f j => f.push (tag j) (it j)) f).items.map (·.1) = f.items.map (·.1) ++ js.map tag := by
  induction js with
  | nil => simp
  | cons j js ih => exact fun f => (ih _).trans (by simp [SlotFifo.push])

theorem State.stage_tags {s : State} {o : TierOp} (slot count : Nat) (hl : o.lane < s.fsp.egress.length) :
    ((s.stage o slot count).outLaneAt o.lane).fifo.items.map (·.1) =
      (s.outLaneAt o.lane).fifo.items.map (·.1) ++ (List.range (s.stageCount o count)).map (fun j => o.first + (o.staged + j)) := by
  unfold State.stage
  extract_lets v k all f
  have hlane : (((s.setOutLane o.lane { v with fifo := f }).setOp o { o with staged := o.staged + k }).touch
      ((List.range k).filterMap (fun j => (s.pageOf o.slices (o.staged + j)).map (·.1)))).outLaneAt o.lane = { v with fifo := f } :=
    State.setOutLane_outLaneAt_same hl _
  rw [hlane]
  exact SlotFifo.foldl_push_tags (fun j => o.first + (o.staged + j)) _ _ _

/-! The row of a read, once its moment has come. -/
theorem exec_pkeTierRead_eq (m : Moment) (l count : Nat) (f : TierFind) (s : State) :
    exec (.pkeTierRead m l count f) s = .next ((s.elapse m).onPkeTierRead l count f) := rfl

/-- What a read of the page in extent `x` comes to for the spring `o` of a session, by what the device answers (R320, R508). -/
def State.pageRead (s : State) (o : TierOp) (slot x count : Nat) : TierFind → State
  | .clean => s.stage o slot count
  | .corrected => (s.devCe (extDev x)).stage o slot count
  | .bad => s.pageBad x (some slot)
  | .portFail => if extDev x = 0 then s.portFail 0 else (s.portFail (extDev x)).pageBad x (some slot)

theorem State.onPkeTierRead_eq {s : State} {l count slot x : Nat} {o : TierOp} (hr : s.inReset = false) (hs : s.stager l = some o)
    (hk : o.kind = .spring slot) (hp : s.pageOf o.slices o.staged = some (x, true))
    (hg : ∀ j y, j < s.stageCount o count → s.pageOf o.slices (o.staged + j) ≠ some (y, false)) (f : TierFind) :
    s.onPkeTierRead l count f = s.pageRead o slot x count f := by
  simp only [State.onPkeTierRead, hr, hs, hk, hp, Bool.false_eq_true, if_false]
  split
  · next b hb =>
    obtain ⟨j, hj, hbad⟩ := List.exists_of_findSome?_eq_some hb
    split at hbad
    · next y hy => exact absurd hy (hg j y (List.mem_range.1 hj))
    · cases hbad
  · cases f <;> rfl

/-! The row of a write's end, once its moment has come. -/
theorem exec_winteringDone_eq (m : Moment) (l : Nat) (f : TierFind) (s : State) :
    exec (.winteringDone m l f) s = .next ((s.elapse m).onWinteringDone l f) := rfl

section Write
variable {s : State} {slot : Nat} {a c : Bool} {o : TierOp} (hk : o.kind = .winter slot a c)
include hk

section Ready
variable {l : Nat} (hr : s.inReset = false) (hops : s.tier.ops = [o]) (hl : o.lane = l) (hd : o.done = o.total)
  (hf : (s.inLaneAt l).fifo.items = [])
include hr hops hl hd hf

theorem State.onWinteringDone_clean : s.onWinteringDone l .clean = s.writeDone o := by
  simp [State.onWinteringDone, hr, hops, hk, hl, hd, hf, OpKind.writes, State.drain]

theorem State.onWinteringDone_bad : s.onWinteringDone l .bad = s.writeBad o := by
  simp [State.onWinteringDone, hr, hops, hk, hl, hd, hf, OpKind.writes, State.drain]

end Ready

theorem State.writeDone_winter : s.writeDone o =
    (((s.writePages o.extents 0 (s.sessionOwner slot) o.buf).install slot o.head (pagesOf o.total) o.ttl).endPend slot .ok).endOp o := by
  simp only [State.writeDone, hk]

theorem State.writeBad_cancels (h1 : (s.entry slot).state ≠ .free) (h2 : (s.entry slot).state ≠ .cancelled) :
    Cancels s (s.writeBad o) slot .ecc := by
  have hslot : o.kind.slot? = some slot := by rw [hk]; rfl
  simp only [State.writeBad, hslot]
  generalize hu : State.trouble _ _ _ _ _ _ = u
  have f : Framed false [.trb, .parts, .ints, .tier] s u := by
    rw [← hu]; exact State.trouble_framed rfl (State.devUe_framed rfl (Framed.refl s))
  have hentry : u.entry slot = s.entry slot := congrArg (sget Entry.zero · slot) (f.kept (f := .entries) (by decide)).symm
  exact (State.cancelAll_cancels slot .ecc (by rwa [hentry]) (by rwa [hentry])).after (OnlySlot.refl.framed f rfl)
    (f.kept (f := .clk) (by decide)).symm

end Write

/-- The end of a held reply changes what the entry holds of it alone. -/
theorem State.endPendWith_entry_eq (s : State) (slot : Nat) (st : Status) (ws : List Word) : ∃ tag smp,
    (s.endPendWith slot st ws).entry slot = { s.entry slot with pendOp := 0, pendTag := tag, pendSmp := smp } := by
  unfold State.endPendWith
  dsimp only
  split
  · next h => exact ⟨(s.entry slot).pendTag, (s.entry slot).pendSmp, by rw [← h]⟩
  · refine ⟨0, false, ?_⟩
    rw [State.reply_entry]
    exact State.setEntry_entry_same ..

/-- A slice installed between `s` and `t`: the session is WINTERED with its pages, the other entries and the tier's operations stay (R96, R304). -/
structure Installs (s t : State) (slot head pages ttl : Nat) : Prop where
  state : (t.entry slot).state = .wintered
  parked : (t.entry slot).parked = true
  plHead : (t.entry slot).plHead = head
  plPages : (t.entry slot).plPages = pages
  expiry : (t.entry slot).expiry = s.expiryTick ttl
  only : OnlySlot slot s t
  ops : t.tier.ops = s.tier.ops

theorem State.freeCopy_ops (s : State) (slot : Nat) : (s.freeCopy slot).tier.ops = s.tier.ops := by
  unfold State.freeCopy
  dsimp only
  rw [State.setEntry_tier]
  split
  · exact State.freeSlice_ops ..
  · rfl

theorem State.install_installs (s : State) (slot head pages ttl : Nat) : Installs s (s.install slot head pages ttl) slot head pages ttl := by
  unfold State.install
  extract_lets s1 e
  have h1 : OnlySlot slot s s1 := OnlySlot.refl.freeCopy
  have hexp : s1.expiryTick ttl = s.expiryTick ttl := by simp only [State.expiryTick, State.now, State.fine, h1.tm]
  rw [hexp]
  refine ⟨?_, ?_, ?_, ?_, ?_, h1.setEntry ⟨rfl, rfl, rfl, ⟨rfl, rfl, rfl⟩, rfl, fun _ => by simp⟩, ?_⟩
  any_goals rw [State.setEntry_entry_same]
  rw [State.setEntry_tier]
  exact s.freeCopy_ops slot

/-- The wintering `o` of session `slot` has ended between `s` and `t`: the session is WINTERED with its pages and holds no reply, the other
sessions stay, and the operation is gone from the tier's list (R304). -/
structure WinterEnds (s t : State) (slot : Nat) (o : TierOp) : Prop where
  state : (t.entry slot).state = .wintered
  parked : (t.entry slot).parked = true
  plHead : (t.entry slot).plHead = o.head
  plPages : (t.entry slot).plPages = pagesOf o.total
  expiry : (t.entry slot).expiry = s.expiryTick o.ttl
  pendOp : (t.entry slot).pendOp = 0
  others : ∀ j, j ≠ slot → t.entry j = s.entry j
  ops : t.tier.ops = s.tier.ops.filter (· != o)

theorem State.writeDone_winters {s : State} {slot : Nat} {a c : Bool} {o : TierOp} (hk : o.kind = .winter slot a c) :
    WinterEnds s (s.writeDone o) slot o := by
  rw [State.writeDone_winter hk]
  have hi := (s.writePages o.extents 0 (s.sessionOwner slot) o.buf).install_installs slot o.head (pagesOf o.total) o.ttl
  generalize State.install _ _ _ _ _ = u at *
  obtain ⟨tag, smp, hpend⟩ := u.endPendWith_entry_eq slot .ok []
  have fp : Framed false [.entries, .cmi, .net, .hrpOut] u (u.endPend slot .ok) := State.endPend_framed rfl (Framed.refl u)
  have hothers : ∀ j, j ≠ slot → (u.endPend slot .ok).entry j = s.entry j := fun j hj =>
    ((OnlySlot.refl.endPendWith .ok []).others j hj).trans (hi.only.others j hj)
  have he : ∀ j, ((u.endPend slot .ok).endOp o).entry j = (u.endPend slot .ok).entry j := fun j =>
    congrArg (sget Entry.zero · j) ((State.endOp_framed (F := [.ledgers, .mem, .img, .net, .tier]) rfl (Framed.refl _)).kept (f := .entries) (by decide)).symm
  have hslot := (he slot).trans hpend
  exact ⟨by rw [hslot]; exact hi.state, by rw [hslot]; exact hi.parked, by rw [hslot]; exact hi.plHead, by rw [hslot]; exact hi.plPages,
    by rw [hslot]; exact hi.expiry, by rw [hslot], fun j hj => (he j).trans (hothers j hj),
    by rw [State.endOp_ops, ← show u.tier = _ from fp.kept (f := .tier) (by decide), hi.ops]; rfl⟩

/-- Settles O34: each answer of the device to a read and to a write's last page is one of the equations above. -/
theorem parkingEngine : Obligations.ParkingEngine := by
  unfold Obligations.ParkingEngine
  simp only [exec_pkeTierRead_eq, exec_winteringDone_eq]
  intro m s l count slot x o
  generalize s.elapse m = e
  intro hr h1 h2
  refine ⟨fun hs hk hp hg => ?_, fun a c hops hk hl hd hf => ⟨⟨_, rfl, ?_⟩, _, rfl, ?_⟩⟩
  · simp only [State.onPkeTierRead_eq hr hs hk hp hg]
    refine ⟨?_, ⟨_, rfl, State.pageBad_cancels x h1 h2⟩, fun hx => ⟨_, rfl, ?_⟩, fun hx hlen => ⟨_, rfl, ?_⟩⟩
    · rintro rfl hl hlen
      exact ⟨_, rfl, State.stage_tags slot count (hlen ▸ hl), rfl, rfl, rfl, rfl, rfl⟩
    · rw [State.pageRead, if_pos hx]
      exact State.portFail_zero_ends hr
    · rw [State.pageRead, if_neg hx]
      exact State.portFail_pageBad x hx hlen h1 h2
  · rw [State.onWinteringDone_clean hk hr hops hl hd hf]
    have h := State.writeDone_winters (s := e) hk
    exact ⟨h.state, h.parked, h.plHead, h.plPages, h.expiry, h.pendOp, h.others, by rw [h.ops, hops]; simp⟩
  · rw [State.onWinteringDone_bad hk hr hops hl hd hf]
    exact State.writeBad_cancels hk h1 h2

end Sys2Proof.Machine
end

section
/-! SUPPORT. The tier's devices and the walks over the stores: self-refresh, the end of the tier step of a start, what the training values
leave in the retained store, and the places of the walks (R291, R292, R298, R428, R430, R431, R456). -/
namespace Sys2Proof.Machine

/-! What the rows do to the state once their moment has come. -/
theorem exec_tierDeviceSelfref_eq (m : Moment) (d : Nat) (s : State) :
    exec (.tierDeviceSelfref m d) s = .next ((s.elapse m).onTierDeviceSelfref d) := rfl
theorem exec_tierTrainingDone_eq (m : Moment) (res : List DevTrain) (s : State) :
    exec (.tierTrainingDone m res) s = .next ((s.elapse m).onTierTrainingDone res) := rfl
theorem exec_ssmWriteBack_eq (m : Moment) (row : Nat) (s : State) : exec (.ssmWriteBack m row) s = .next ((s.elapse m).onSsmWriteBack row) := rfl
theorem exec_ssmScrub_eq (m : Moment) (fs : List BankFind) (s : State) : exec (.ssmScrub m fs) s = .next ((s.elapse m).onSsmScrub fs) := rfl
theorem exec_tableScrub_eq (m : Moment) (a b c : Find) (s : State) :
    exec (.tableScrub m a b c) s = .next ((s.elapse m).onTableScrub a b c) := rfl

/-! Self-refresh (R298). -/
theorem State.setDev_dev_ne (s : State) {d k : Nat} (h : k ≠ d) (v : Dev) : (s.setDev d v).dev k = s.dev k := by
  simp [State.setDev, State.dev, List.getElem?_set_ne h.symm]

/-- A device that reads as trained is one of the list. -/
theorem State.lt_of_trained {s : State} {d : Nat} (h : (s.dev d).trained = true) : d < s.tier.devs.length := by
  rcases Nat.lt_or_ge d s.tier.devs.length with hd | hd
  · exact hd
  · have hzero : s.dev d = Dev.zero := by simp [State.dev, hd]
    rw [hzero] at h
    cases h

/-- While the awake devices hold 2,048 free extents, allocation wakes none. -/
theorem State.keepAwake_eq_self {s : State} (h : 2048 ≤ s.awakeFree) : s.keepAwake = s :=
  List.foldlRecOn (motive := fun t : State => t = s) _ _ rfl fun t ht d _ => by
    subst ht
    exact if_neg (by simp [h])

theorem State.keepAwake_pages (s : State) : s.keepAwake.tier.pages = s.tier.pages :=
  List.foldlRecOn (motive := fun t : State => t.tier.pages = s.tier.pages) _ _ rfl fun t ht d _ => by
    dsimp only
    split <;> exact ht

theorem State.onTierDeviceSelfref_rests {s : State} {d : Nat} (hr : s.inReset = false) (h0 : d ≠ 0) (ht : (s.dev d).trained = true)
    (hs : (s.dev d).selfref = false) (ha : ∀ x ∈ s.tier.alloc, extDev x ≠ d) (hu : (s.dev d).lastUse + 1000000 ≤ s.now) :
    s.onTierDeviceSelfref d = (s.setDev d { s.dev d with selfref := true }).keepAwake := by
  have hfree : s.tier.alloc.any (fun x => extDev x == d) = false := by simpa using ha
  simp [State.onTierDeviceSelfref, hr, h0, ht, hs, hfree, hu]

theorem State.onTierDeviceSelfref_idle {s : State} {d : Nat} (h : (s.dev d).selfref = true ∨ d = 0) : s.onTierDeviceSelfref d = s := by
  rcases h with h | h <;> simp [State.onTierDeviceSelfref, h]

/-! Words put into the retained store in a row, and the training values among them (R296, R428). -/
theorem State.retained_putRetained (s : State) (i j : Nat) (w : Word) : (s.putRetained i w).retained j = if j = i then w else s.retained j := by
  split
  · next h => rw [h, State.retained_putRetained_same]
  · next h => exact s.retained_putRetained_ne w h

theorem State.retained_foldl_putRetained (a j : Nat) (ws : List Word) : ∀ (n : Nat) (s : State),
    ((ws.zipIdx n).foldl (fun s w => s.putRetained (a + w.2) w.1) s).retained j =
      if a + n ≤ j ∧ j < a + n + ws.length then ws.getD (j - (a + n)) 0#64 else s.retained j := by
  induction ws with
  | nil => exact fun n s => (if_neg (by simp)).symm
  | cons w ws ih =>
    intro n s
    rw [List.zipIdx_cons, List.foldl_cons, ih, State.retained_putRetained, List.length_cons]
    rcases Nat.lt_trichotomy j (a + n) with h | h | h
    · rw [if_neg (by omega), if_neg (by omega), if_neg (by omega)]
    · rw [if_neg (by omega), if_pos h, if_pos (by omega), h, Nat.sub_self, List.getD_cons_zero]
    · by_cases hend : j < a + n + (ws.length + 1)
      · have hsub : j - (a + n) = (j - (a + (n + 1))) + 1 := by omega
        rw [if_pos (by omega), if_pos (by omega), hsub, List.getD_cons_succ]
      · rw [if_neg (by omega), if_neg (by omega), if_neg (by omega)]

theorem State.retained_putRetainedAll (s : State) (a j : Nat) (ws : List Word) :
    (s.putRetainedAll a ws).retained j = if a ≤ j ∧ j < a + ws.length then ws.getD (j - a) 0#64 else s.retained j :=
  State.retained_foldl_putRetained a j ws 0 s

theorem State.putRetainedAll_sticky (s : State) (a : Nat) (ws : List Word) : (s.putRetainedAll a ws).trb.sticky = s.trb.sticky :=
  List.foldlRecOn (motive := fun t : State => t.trb.sticky = s.trb.sticky) _ _ rfl fun _ ht _ _ => ht

/-- The training values of a device stand in its own 96 words alone. -/
theorem State.retained_putTraining (s : State) (d k i : Nat) (t : DevTrain) (hi : i < 96) :
    (s.putTraining d t).retained (trainingAt k + i) = if k = d then t.values.getD i 0#64 else s.retained (trainingAt k + i) := by
  rw [State.putTraining, State.retained_putRetainedAll, List.length_map, List.length_range]
  unfold trainingAt
  split
  · next h =>
    have hk : k = d := by omega
    have hsub : 0x1000 + 96 * k + i - (0x1000 + 96 * d) = i := by omega
    rw [if_pos hk, hsub]
    simp [hi]
  · next h => rw [if_neg (by omega)]

theorem State.retained_putTraining_below (s : State) (d : Nat) (t : DevTrain) {a : Nat} (ha : a < 0x1000) :
    (s.putTraining d t).retained a = s.retained a := by
  rw [State.putTraining, State.retained_putRetainedAll, if_neg (by unfold trainingAt; omega)]

/-- The training values of some devices written, one device after another. -/
def State.putTrainings (s : State) (res : Nat → DevTrain) (ds : List (Dev × Nat)) : State := ds.foldl (fun s p => s.putTraining p.2 (res p.2)) s

theorem State.putTrainings_cons (s : State) (res : Nat → DevTrain) (p : Dev × Nat) (ds : List (Dev × Nat)) :
    s.putTrainings res (p :: ds) = (s.putTraining p.2 (res p.2)).putTrainings res ds := by
  simp only [State.putTrainings, List.foldl_cons]

theorem State.putTrainings_framed (s : State) (res : Nat → DevTrain) (ds : List (Dev × Nat)) : Framed false [.trb] s (s.putTrainings res ds) :=
  Framed.foldl (fun _ _ h => State.putRetainedAll_framed rfl h) (Framed.refl s)

theorem State.putTrainings_sticky (s : State) (res : Nat → DevTrain) (ds : List (Dev × Nat)) : (s.putTrainings res ds).trb.sticky = s.trb.sticky :=
  List.foldlRecOn (motive := fun t : State => t.trb.sticky = s.trb.sticky) _ _ rfl fun t ht _ _ => (t.putRetainedAll_sticky _ _).trans ht

theorem State.retained_putTrainings_below (s : State) (res : Nat → DevTrain) (ds : List (Dev × Nat)) {a : Nat} (ha : a < 0x1000) :
    (s.putTrainings res ds).retained a = s.retained a :=
  List.foldlRecOn (motive := fun t : State => t.retained a = s.retained a) _ _ rfl fun t ht p _ => (t.retained_putTraining_below p.2 _ ha).trans ht

theorem State.retained_putTrainings (res : Nat → DevTrain) {k i : Nat} (hi : i < 96) (ds : List (Dev × Nat)) : ∀ s : State,
    (s.putTrainings res ds).retained (trainingAt k + i) =
      if ∃ p ∈ ds, p.2 = k then (res k).values.getD i 0#64 else s.retained (trainingAt k + i) := by
  induction ds with
  | nil => exact fun s => (if_neg (by simp)).symm
  | cons p ds ih =>
    intro s
    rw [State.putTrainings_cons, ih, State.retained_putTraining s p.2 k i _ hi]
    have hcons : (∃ q ∈ p :: ds, q.2 = k) ↔ k = p.2 ∨ ∃ q ∈ ds, q.2 = k := by
      rw [eq_comm (a := k)]; simp only [List.mem_cons, exists_eq_or_imp]
    by_cases hds : ∃ q ∈ ds, q.2 = k
    · rw [if_pos hds, if_pos (hcons.2 (.inr hds))]
    · by_cases hp : k = p.2
      · rw [if_neg hds, if_pos hp, if_pos (hcons.2 (.inl hp)), hp]
      · rw [if_neg hds, if_neg hp, if_neg (not_or.2 ⟨hp, hds⟩ ∘ hcons.1)]

/-! The end of the tier step of a start (R430, R431). -/

/-- What training found of a device: nothing, past the devices of the grade. -/
def State.trainResult (s : State) (res : List DevTrain) (k : Nat) : DevTrain :=
  if k < s.grade.tierDevices then res.getD k { gib := 0, rates := [], values := [] } else { gib := 0, rates := [], values := [] }

/-- The devices as their training leaves them. -/
def State.trainedAs (s : State) (reach : Reach) (res : List DevTrain) : List Dev :=
  s.tier.devs.zipIdx.map (fun p =>
    { (if reach = .cold then trainCold (s.trainResult res p.2) else trainWarm p.1 (s.trainResult res p.2)) with lastUse := s.now })

/-- The tier step of the start `r` ended. -/
def State.trainingEnds (s : State) (r : StartRun) (res : List DevTrain) : State :=
  { s with tier := { s.tier with devs := s.trainedAs r.reach res, training := false }, rs := { s.rs with start := some { r with training := false } } }

/-- The devices whose training passed. -/
def State.trainPassed (s : State) (r : StartRun) (res : List DevTrain) : List (Dev × Nat) :=
  (s.trainedAs r.reach res).zipIdx.filter (fun p => p.1.trained && decide ((s.trainResult res p.2).gib ≠ 0))

section Training
variable {s : State} {r : StartRun} {res : List DevTrain}

/-- The state that the end of the tier step leaves. -/
def State.trainingDone (s : State) (r : StartRun) (res : List DevTrain) : State :=
  (s.trainingEnds r res).putTrainings (s.trainResult res) (s.trainPassed r res)

theorem State.trainingDone_tier : (s.trainingDone r res).tier = (s.trainingEnds r res).tier :=
  ((State.putTrainings_framed ..).kept (f := .tier) (by decide)).symm
theorem State.trainingDone_rs : (s.trainingDone r res).rs = (s.trainingEnds r res).rs :=
  ((State.putTrainings_framed ..).kept (f := .rs) (by decide)).symm
theorem State.trainingDone_entries : (s.trainingDone r res).entries = s.entries :=
  ((State.putTrainings_framed ..).kept (f := .entries) (by decide)).symm

variable {k : Nat} {x : DevTrain} (hx : res[k]? = some x) (hlen : res.length = s.grade.tierDevices)
include hx hlen

theorem State.trainResult_eq : s.trainResult res k = x := by
  have hk : k < s.grade.tierDevices := hlen ▸ (List.getElem?_eq_some_iff.1 hx).1
  rw [State.trainResult, if_pos hk, List.getD_eq_getElem?_getD, hx]
  rfl

variable (hle : s.grade.tierDevices ≤ s.tier.devs.length)
include hle

theorem State.trainedAs_getElem? (reach : Reach) : (s.trainedAs reach res)[k]? =
    some { (if reach = .cold then trainCold x else trainWarm (s.dev k) x) with lastUse := s.now } := by
  have hk : k < s.tier.devs.length := Nat.lt_of_lt_of_le (hlen ▸ (List.getElem?_eq_some_iff.1 hx).1) hle
  simp [State.trainedAs, State.trainResult_eq hx hlen, State.dev, hk]

theorem State.trainingDone_dev : (s.trainingDone r res).dev k =
    { (if r.reach = .cold then trainCold x else trainWarm (s.dev k) x) with lastUse := s.now } := by
  rw [State.dev, State.trainingDone_tier]
  show (s.trainedAs r.reach res).getD k Dev.zero = _
  rw [List.getD_eq_getElem?_getD, State.trainedAs_getElem? hx hlen hle]
  rfl

/-- A training that passed has its values in the retained store (R428). -/
theorem State.trainingDone_values {i : Nat} (hgib : x.gib ≠ 0) (hpass : ((s.trainingDone r res).dev k).trained = true) (hi : i < 96) :
    (s.trainingDone r res).retained (trainingAt k + i) = x.values.getD i 0#64 := by
  rw [State.trainingDone_dev hx hlen hle] at hpass
  have hres := State.trainResult_eq hx hlen
  have hmem : ∃ p ∈ s.trainPassed r res, p.2 = k :=
    ⟨(_, k), List.mem_filter.2 ⟨List.mem_zipIdx_iff_getElem?.2 (State.trainedAs_getElem? hx hlen hle r.reach), by
      rw [hres, Bool.and_eq_true, decide_eq_true_eq]; exact ⟨hpass, hgib⟩⟩, rfl⟩
  rw [State.trainingDone, State.retained_putTrainings _ hi, if_pos hmem, hres]

end Training

theorem State.onTierTrainingDone_eq {s : State} {r : StartRun} (res : List DevTrain) (hs : s.rs.start = some r) (ht : s.tier.training = true)
    (hr : s.inReset = false) (hh : r.held = false) :
    s.onTierTrainingDone res = s.trainingDone r res := by
  unfold State.onTierTrainingDone
  rw [hs]
  exact if_pos (by simp [ht, hr, hh])

/-! A write-back (R291). -/
theorem State.mem_supersede_writeBacks (s : State) (row k : Nat) :
    k ∈ (s.supersede row).img.writeBacks ↔ k ∈ s.img.writeBacks ∧ k ≠ row := by
  simp only [State.supersede, State.dropBacks, List.mem_filter, Bool.or_eq_true, decide_eq_true_eq]
  exact and_congr_right fun _ => by omega

/-! The scrub of SSM where no check finds anything (R292). -/

/-- The scrub of the first `n` regions has left `t` of `s`: in each of them that was due the walk has gone on by one row. -/
structure Scrubbed (n : Nat) (s t : State) : Prop where
  shape : t = { s with img := { s.img with scrubRow := t.img.scrubRow, scrubFrom := t.img.scrubFrom } }
  lengths : t.img.scrubFrom.length = s.img.scrubFrom.length ∧ t.img.scrubRow.length = s.img.scrubRow.length
  walked : ∀ q, q < n → q < s.img.scrubFrom.length → q < s.img.scrubRow.length → s.img.scrubFrom.getD q 0 ≤ s.tm.refclk →
    t.img.scrubFrom.getD q 0 = s.img.scrubFrom.getD q 0 + 256 ∧ t.img.scrubRow.getD q 0 = (s.img.scrubRow.getD q 0 + 1) % 32768
  ahead : ∀ q, n ≤ q → t.img.scrubFrom.getD q 0 = s.img.scrubFrom.getD q 0 ∧ t.img.scrubRow.getD q 0 = s.img.scrubRow.getD q 0

theorem State.scrubRegion_early {s : State} {r : Nat} (h : s.tm.refclk < s.img.scrubFrom.getD r 0) (fs : List BankFind) : s.scrubRegion fs r = s :=
  if_pos h

theorem State.scrubRegion_clean {s : State} {r : Nat} (h : s.img.scrubFrom.getD r 0 ≤ s.tm.refclk) : s.scrubRegion [] r =
    { s with img := { s.img with scrubRow := s.img.scrubRow.set r ((s.img.scrubRow.getD r 0 + 1) % 32768),
                                 scrubFrom := s.img.scrubFrom.set r (s.img.scrubFrom.getD r 0 + 256) } } :=
  if_neg (Nat.not_lt.2 h)

theorem getD_set_same {α : Type} {xs : List α} {l : Nat} (h : l < xs.length) (v d : α) : (xs.set l v).getD l d = v := by simp [h]
theorem getD_set_ne {α : Type} (xs : List α) {l k : Nat} (h : k ≠ l) (v d : α) : (xs.set l v).getD k d = xs.getD k d := by
  simp [List.getElem?_set_ne h.symm]

theorem Scrubbed.step {n : Nat} {s t : State} (h : Scrubbed n s t) : Scrubbed (n + 1) s (t.scrubRegion [] n) := by
  obtain ⟨hfrom, hrow⟩ := h.ahead n (Nat.le_refl n)
  have hclk : t.tm = s.tm := by rw [h.shape]
  by_cases hdue : t.img.scrubFrom.getD n 0 ≤ t.tm.refclk
  · rw [State.scrubRegion_clean hdue]
    refine ⟨?_, ⟨by simpa using h.lengths.1, by simpa using h.lengths.2⟩, fun q hq hlf hlr hd => ?_, fun q hq => ?_⟩
    · dsimp only
      rw [h.shape]
    · rcases Nat.lt_succ_iff_lt_or_eq.1 hq with hq | rfl
      · dsimp only
        rw [getD_set_ne _ (Nat.ne_of_lt hq), getD_set_ne _ (Nat.ne_of_lt hq)]
        exact h.walked q hq hlf hlr hd
      · dsimp only
        rw [getD_set_same (h.lengths.1 ▸ hlf), getD_set_same (h.lengths.2 ▸ hlr), hfrom, hrow]
        exact ⟨rfl, rfl⟩
    · dsimp only
      rw [getD_set_ne _ (by omega), getD_set_ne _ (by omega)]
      exact h.ahead q (by omega)
  · rw [State.scrubRegion_early (Nat.not_le.1 hdue)]
    refine ⟨h.shape, h.lengths, fun q hq hlf hlr hd => ?_, fun q hq => h.ahead q (by omega)⟩
    rcases Nat.lt_succ_iff_lt_or_eq.1 hq with hq | rfl
    · exact h.walked q hq hlf hlr hd
    · rw [hfrom, hclk] at hdue
      exact absurd hd hdue

theorem State.scrubRegions_scrubbed (s : State) (n : Nat) : Scrubbed n s ((List.range n).foldl (fun s r => s.scrubRegion [] r) s) := by
  induction n with
  | zero => exact ⟨rfl, ⟨rfl, rfl⟩, fun q hq => absurd hq q.not_lt_zero, fun _ _ => ⟨rfl, rfl⟩⟩
  | succ n ih => rw [List.range_succ, List.foldl_append]; exact ih.step

/-! The scrubs of the tables and of the retained store where no check finds anything (R456). -/
theorem State.scrubTables_clean (s : State) : ∃ next due, s.scrubTables .clean .clean = { s with trb := { s.trb with tabNext := next, tabDue := due } } ∧
    (s.inReset = false → s.trb.tabDue ≤ s.tm.refclk → next = (s.trb.tabNext + 1) % 131072 ∧ due = s.trb.tabDue + 64) := by
  by_cases h : s.inReset = false ∧ s.trb.tabDue ≤ s.tm.refclk
  · obtain ⟨hr, hd⟩ := h
    exact ⟨(s.trb.tabNext + 1) % 131072, s.trb.tabDue + 64, if_neg (by simp [hr, hd]), fun _ _ => ⟨rfl, rfl⟩⟩
  · refine ⟨s.trb.tabNext, s.trb.tabDue, if_pos ?_, fun hr hd => absurd ⟨hr, hd⟩ h⟩
    rw [Classical.not_and_iff_not_or_not] at h
    simpa using h

theorem State.scrubRetained_clean (s : State) : ∃ next due, s.scrubRetained .clean = { s with trb := { s.trb with retNext := next, retDue := due } } ∧
    (s.trb.retDue ≤ s.tm.refclk → next = (s.trb.retNext + 1) % 8192 ∧ due = s.trb.retDue + 64) := by
  by_cases h : s.trb.retDue ≤ s.tm.refclk
  · exact ⟨(s.trb.retNext + 1) % 8192, s.trb.retDue + 64, if_neg (Nat.not_lt.2 h), fun _ => ⟨rfl, rfl⟩⟩
  · exact ⟨s.trb.retNext, s.trb.retDue, if_pos (Nat.not_le.1 h), fun hd => absurd hd h⟩

/-- Settles O40: a device that rests and one that cannot, the end of the tier step, a write-back, and the walks over SSM, the tables and the
retained store where they find nothing. -/
theorem storeWalks : Obligations.StoreWalks := by
  unfold Obligations.StoreWalks
  simp only [exec_tierDeviceSelfref_eq, exec_tierTrainingDone_eq, exec_ssmWriteBack_eq, exec_ssmScrub_eq, exec_tableScrub_eq, Host.Outcome.next.injEq]
  intro m s d row r res
  generalize s.elapse m = e
  refine ⟨fun hr h0 ht hs ha hu => ⟨_, State.onTierDeviceSelfref_rests hr h0 ht hs ha hu, State.keepAwake_pages _, ?_, fun hfree => ?_⟩,
    State.onTierDeviceSelfref_idle, fun hs ht hr hh hdevs hlen hgrade => ⟨_, State.onTierTrainingDone_eq res hs ht hr hh, ?_⟩,
    ⟨_, rfl, e.mem_supersede_writeBacks row, rfl, rfl, rfl⟩, fun hruns => ⟨_, if_pos hruns, ?_⟩, ⟨_, rfl, ?_⟩⟩
  · exact ((State.keepAwake_framed (F := [.tier]) (rst := false) rfl (Framed.refl _)).kept (f := .entries) (by decide)).symm
  · rw [State.keepAwake_eq_self hfree, State.setDev_dev_same (State.lt_of_trained ht)]
    exact ⟨rfl, fun k hk => e.setDev_dev_ne hk _⟩
  · have hle : e.grade.tierDevices ≤ e.tier.devs.length := hdevs ▸ hgrade
    exact ⟨by rw [State.trainingDone_tier]; rfl, by rw [State.trainingDone_rs]; rfl, fun k x hx => State.trainingDone_dev hx hlen hle,
      fun k x i hx hgib hpass hi => State.trainingDone_values hx hlen hle hgib hpass hi, fun a ha => State.retained_putTrainings_below _ _ _ ha,
      State.putTrainings_sticky _ _ _, by rw [State.trainingDone_tier]; rfl, State.trainingDone_entries⟩
  · have h := e.scrubRegions_scrubbed e.grade.regions
    generalize List.foldl _ _ _ = t at *
    refine ⟨?_, ?_, ?_, h.walked⟩ <;> rw [h.shape]
  · obtain ⟨tn, td, htab, htabs⟩ := e.scrubTables_clean
    rw [State.onTableScrub, htab]
    obtain ⟨rn, rd, hret, hrets⟩ := State.scrubRetained_clean { e with trb := { e.trb with tabNext := tn, tabDue := td } }
    rw [hret]
    exact ⟨rfl, rfl, rfl, htabs, hrets⟩

end Sys2Proof.Machine
end

section
/-! SUPPORT. The invariant: the machine right after reset has it, each row's act keeps it, and so every step does. -/
namespace Sys2Proof.Machine

/-- Settles O4: every store is empty, every queue and count is zero, and each unit is there once. -/
theorem resetInv : Obligations.ResetInv := by
  unfold Obligations.ResetInv
  have hring (p : Nat) : (State.reset.part p).ring.length ≤ 16 := by
    have hcold : State.reset.part p = Partn.cold := rfl
    rw [hcold]
    decide
  exact ⟨⟨rfl, rfl, rfl, rfl, rfl, rfl, rfl⟩, ⟨hring, by decide, by decide, by decide, by decide⟩, ⟨rfl, rfl, rfl, rfl, rfl, rfl, rfl⟩⟩

theorem State.elapse_kept (s : State) (m : Moment) : Keeps s (s.elapse m) := State.elapse_keeps (.refl s)

/-- Every command answers a next state that keeps the grade, the queue and the invariant: its moment does, and what its row does after. -/
theorem exec_keeps (c : Instr) (s : State) : ∃ t, exec c s = .next t ∧ Keeps s t :=
  match c with
  | .commandPacketArrival m _ _ _ _ => ⟨_, rfl, State.onCommandPacketArrival_keeps (s.elapse_kept m)⟩
  | .nop m => ⟨_, rfl, State.onNop_keeps (s.elapse_kept m)⟩
  | .identify m => ⟨_, rfl, State.onIdentify_keeps (s.elapse_kept m)⟩
  | .capsRead m => ⟨_, rfl, State.onCapsRead_keeps (s.elapse_kept m)⟩
  | .sessionOpen m => ⟨_, rfl, State.onSessionOpen_keeps (s.elapse_kept m)⟩
  | .sessionFeed m => ⟨_, rfl, State.onSessionFeed_keeps (s.elapse_kept m)⟩
  | .sessionClose m => ⟨_, rfl, State.onSessionClose_keeps (s.elapse_kept m)⟩
  | .sessionCancel m => ⟨_, rfl, State.onSessionCancel_keeps (s.elapse_kept m)⟩
  | .sessionPark m => ⟨_, rfl, State.onSessionPark_keeps (s.elapse_kept m)⟩
  | .sessionResume m => ⟨_, rfl, State.onSessionResume_keeps (s.elapse_kept m)⟩
  | .sessionQuery m _ => ⟨_, rfl, State.onSessionQuery_keeps (s.elapse_kept m)⟩
  | .stopSet m => ⟨_, rfl, State.onStopSet_keeps (s.elapse_kept m)⟩
  | .draftResolve m => ⟨_, rfl, State.onDraftResolve_keeps (s.elapse_kept m)⟩
  | .tenantSet m => ⟨_, rfl, State.onTenantSet_keeps (s.elapse_kept m)⟩
  | .budgetGrant m => ⟨_, rfl, State.onBudgetGrant_keeps (s.elapse_kept m)⟩
  | .budgetRead m => ⟨_, rfl, State.onBudgetRead_keeps (s.elapse_kept m)⟩
  | .prefixPublish m => ⟨_, rfl, State.onPrefixPublish_keeps (s.elapse_kept m)⟩
  | .prefixDrop m => ⟨_, rfl, State.onPrefixDrop_keeps (s.elapse_kept m)⟩
  | .adapterLoad m => ⟨_, rfl, State.onAdapterLoad_keeps (s.elapse_kept m)⟩
  | .tierScrub m => ⟨_, rfl, State.onTierScrub_keeps (s.elapse_kept m)⟩
  | .tierScrubDone m _ => ⟨_, rfl, State.onTierScrubDone_keeps (s.elapse_kept m)⟩
  | .tierStatus m => ⟨_, rfl, State.onTierStatus_keeps (s.elapse_kept m)⟩
  | .imageLoadBegin m => ⟨_, rfl, State.onImageLoadBegin_keeps (s.elapse_kept m)⟩
  | .imageLoadData m => ⟨_, rfl, State.onImageLoadData_keeps (s.elapse_kept m)⟩
  | .imageLoadEnd m => ⟨_, rfl, State.onImageLoadEnd_keeps (s.elapse_kept m)⟩
  | .imageCommit m => ⟨_, rfl, State.onImageCommit_keeps (s.elapse_kept m)⟩
  | .imageQuery m => ⟨_, rfl, State.onImageQuery_keeps (s.elapse_kept m)⟩
  | .modePrepare m => ⟨_, rfl, State.onModePrepare_keeps (s.elapse_kept m)⟩
  | .modeCommit m => ⟨_, rfl, State.onModeCommit_keeps (s.elapse_kept m)⟩
  | .modeAbort m => ⟨_, rfl, State.onModeAbort_keeps (s.elapse_kept m)⟩
  | .schedulePin m => ⟨_, rfl, State.onSchedulePin_keeps (s.elapse_kept m)⟩
  | .timeSet m => ⟨_, rfl, State.stepping_keeps (s.elapse_kept m) fun _ => State.onTimeSet_keeps⟩
  | .timeAdjust m => ⟨_, rfl, State.stepping_keeps (s.elapse_kept m) fun _ => State.onTimeAdjust_keeps⟩
  | .timeQuery m => ⟨_, rfl, State.onTimeQuery_keeps (s.elapse_kept m)⟩
  | .partitionConfig m => ⟨_, rfl, State.onPartitionConfig_keeps (s.elapse_kept m)⟩
  | .partitionReset m => ⟨_, rfl, State.onPartitionReset_keeps (s.elapse_kept m)⟩
  | .partitionResetDone m _ => ⟨_, rfl, State.onPartitionResetDone_keeps (s.elapse_kept m)⟩
  | .regionReset m => ⟨_, rfl, State.onRegionReset_keeps (s.elapse_kept m)⟩
  | .gateReset m => ⟨_, rfl, State.onGateReset_keeps (s.elapse_kept m)⟩
  | .jobRestart m => ⟨_, rfl, State.onJobRestart_keeps (s.elapse_kept m)⟩
  | .pairTwin m => ⟨_, rfl, State.onPairTwin_keeps (s.elapse_kept m)⟩
  | .unpairTwin m => ⟨_, rfl, State.onUnpairTwin_keeps (s.elapse_kept m)⟩
  | .statsRead m => ⟨_, rfl, State.onStatsRead_keeps (s.elapse_kept m)⟩
  | .troubleRead m => ⟨_, rfl, State.onTroubleRead_keeps (s.elapse_kept m)⟩
  | .troubleClear m => ⟨_, rfl, State.onTroubleClear_keeps (s.elapse_kept m)⟩
  | .ageReport m => ⟨_, rfl, State.onAgeReport_keeps (s.elapse_kept m)⟩
  | .registerWrite m _ => ⟨_, rfl, State.onRegisterWrite_keeps (s.elapse_kept m)⟩
  | .tmNowRead m _ => ⟨_, rfl, State.onTmNowRead_keeps (s.elapse_kept m)⟩
  | .ptSsmRead m _ => ⟨_, rfl, State.onPtSsmRead_keeps (s.elapse_kept m)⟩
  | .ptSsmWrite m _ => ⟨_, rfl, State.onPtSsmWrite_keeps (s.elapse_kept m)⟩
  | .ptSsmAccessDone m _ _ => ⟨_, rfl, State.onPtSsmAccessDone_keeps (s.elapse_kept m)⟩
  | .ptIntWrite m _ => ⟨_, rfl, State.onPtIntWrite_keeps (s.elapse_kept m)⟩
  | .trbStickyWrite m _ => ⟨_, rfl, State.onTrbStickyWrite_keeps (s.elapse_kept m)⟩
  | .tokenIntake m _ _ _ _ => ⟨_, rfl, State.onTokenIntake_keeps (s.elapse_kept m)⟩
  | .draftIntake m _ _ _ => ⟨_, rfl, State.onDraftIntake_keeps (s.elapse_kept m)⟩
  | .fspIngressSlot m _ _ _ _ _ _ => ⟨_, rfl, State.onFspIngressSlot_keeps (s.elapse_kept m)⟩
  | .winteringDone m _ _ => ⟨_, rfl, State.onWinteringDone_keeps (s.elapse_kept m)⟩
  | .fspEgressSlot m _ _ _ _ => ⟨_, rfl, State.onFspEgressSlot_keeps (s.elapse_kept m)⟩
  | .pkeTierRead m _ _ _ => ⟨_, rfl, State.onPkeTierRead_keeps (s.elapse_kept m)⟩
  | .screeningItemStart m _ _ => ⟨_, rfl, State.onScreeningItemStart_keeps (s.elapse_kept m)⟩
  | .screeningItemDone m _ _ => ⟨_, rfl, State.onScreeningItemDone_keeps (s.elapse_kept m)⟩
  | .queueOver m _ => ⟨_, rfl, State.onQueueOver_keeps (s.elapse_kept m)⟩
  | .tokenRelease m _ _ => ⟨_, rfl, State.onTokenRelease_keeps (s.elapse_kept m)⟩
  | .tIn m _ => ⟨_, rfl, State.onTIn_keeps (s.elapse_kept m)⟩
  | .smpWrite m _ => ⟨_, rfl, State.onSmpWrite_keeps (s.elapse_kept m)⟩
  | .smpRead m _ => ⟨_, rfl, State.onSmpRead_keeps (s.elapse_kept m)⟩
  | .smpStatus m _ => ⟨_, rfl, State.onSmpStatus_keeps (s.elapse_kept m)⟩
  | .hrpErr m => ⟨_, rfl, State.onHrpErr_keeps (s.elapse_kept m)⟩
  | .slippedNotice m _ => ⟨_, rfl, State.onSlippedNotice_keeps (s.elapse_kept m)⟩
  | .interruptMessageSend m => ⟨_, rfl, State.onInterruptMessageSend_keeps (s.elapse_kept m)⟩
  | .grpTxSlot m _ => ⟨_, rfl, State.onGrpTxSlot_keeps (s.elapse_kept m)⟩
  | .mirrorEnqueue m => ⟨_, rfl, State.onMirrorEnqueue_keeps (s.elapse_kept m)⟩
  | .ringForward m _ => ⟨_, rfl, State.stepping_keeps (s.elapse_kept m) fun _ => State.onRingForward_keeps⟩
  | .item m _ => ⟨_, rfl, State.onItem_keeps (s.elapse_kept m)⟩
  | .openMsg m _ => ⟨_, rfl, State.onOpenMsg_keeps (s.elapse_kept m)⟩
  | .openReply m _ => ⟨_, rfl, State.onOpenReply_keeps (s.elapse_kept m)⟩
  | .stepMsg m _ => ⟨_, rfl, State.onStepMsg_keeps (s.elapse_kept m)⟩
  | .resolve m _ => ⟨_, rfl, State.onResolve_keeps (s.elapse_kept m)⟩
  | .streamEnd m _ => ⟨_, rfl, State.onStreamEnd_keeps (s.elapse_kept m)⟩
  | .close m _ => ⟨_, rfl, State.onClose_keeps (s.elapse_kept m)⟩
  | .cancel m _ => ⟨_, rfl, State.onCancel_keeps (s.elapse_kept m)⟩
  | .cmd m _ => ⟨_, rfl, State.onCmd_keeps (s.elapse_kept m)⟩
  | .cmdReply m _ => ⟨_, rfl, State.onCmdReply_keeps (s.elapse_kept m)⟩
  | .time m _ => ⟨_, rfl, State.stepping_keeps (s.elapse_kept m) fun _ => State.onTime_keeps⟩
  | .balance m _ => ⟨_, rfl, State.onBalance_keeps (s.elapse_kept m)⟩
  | .prepare m _ => ⟨_, rfl, State.onPrepare_keeps (s.elapse_kept m)⟩
  | .ack m _ => ⟨_, rfl, State.onAck_keeps (s.elapse_kept m)⟩
  | .go m _ => ⟨_, rfl, State.onGo_keeps (s.elapse_kept m)⟩
  | .abort m _ => ⟨_, rfl, State.onAbort_keeps (s.elapse_kept m)⟩
  | .mirror m _ => ⟨_, rfl, State.onMirror_keeps (s.elapse_kept m)⟩
  | .pair m _ => ⟨_, rfl, State.onPair_keeps (s.elapse_kept m)⟩
  | .twinCopyDone m => ⟨_, rfl, State.onTwinCopyDone_keeps (s.elapse_kept m)⟩
  | .restart m _ => ⟨_, rfl, State.onRestart_keeps (s.elapse_kept m)⟩
  | .linkLockLoss m _ => ⟨_, rfl, State.onLinkLockLoss_keeps (s.elapse_kept m)⟩
  | .fspClockLoss m => ⟨_, rfl, State.onFspClockLoss_keeps (s.elapse_kept m)⟩
  | .solsticeTick _ _ _ => ⟨_, rfl, State.elapseWith_keeps (.refl s)⟩
  | .deadlineReached m _ => ⟨_, rfl, State.onDeadlineReached_keeps (s.elapse_kept m)⟩
  | .ttlExpiry m => ⟨_, rfl, State.onTtlExpiry_keeps (s.elapse_kept m)⟩
  | .cancelledFree m _ => ⟨_, rfl, State.onCancelledFree_keeps (s.elapse_kept m)⟩
  | .openTimeout m _ => ⟨_, rfl, State.onOpenTimeout_keeps (s.elapse_kept m)⟩
  | .forwardTimeout m => ⟨_, rfl, State.onForwardTimeout_keeps (s.elapse_kept m)⟩
  | .commitGoDecision m => ⟨_, rfl, State.onCommitGoDecision_keeps (s.elapse_kept m)⟩
  | .commitUndecided m => ⟨_, rfl, State.onCommitUndecided_keeps (s.elapse_kept m)⟩
  | .commitTakeEffect m => ⟨_, rfl, State.onCommitTakeEffect_keeps (s.elapse_kept m)⟩
  | .imageRetire m => ⟨_, rfl, State.onImageRetire_keeps (s.elapse_kept m)⟩
  | .twinTakeover m => ⟨_, rfl, State.onTwinTakeover_keeps (s.elapse_kept m)⟩
  | .measurementLoss m => ⟨_, rfl, State.onMeasurementLoss_keeps (s.elapse_kept m)⟩
  | .ppsEdge m => ⟨_, rfl, State.onPpsEdge_keeps (s.elapse_kept m)⟩
  | .trefMeasurement m _ => ⟨_, rfl, State.onTrefMeasurement_keeps (s.elapse_kept m)⟩
  | .ageingMeasurement m _ _ => ⟨_, rfl, State.onAgeingMeasurement_keeps (s.elapse_kept m)⟩
  | .throttleAssert m => ⟨_, rfl, State.onThrottleAssert_keeps (s.elapse_kept m)⟩
  | .throttleDeassert m => ⟨_, rfl, State.onThrottleDeassert_keeps (s.elapse_kept m)⟩
  | .gclkStep m => ⟨_, rfl, State.onGclkStep_keeps (s.elapse_kept m)⟩
  | .pwrSettleDone m _ _ => ⟨_, rfl, State.onPwrSettleDone_keeps (s.elapse_kept m)⟩
  | .throttleFloorViolation m => ⟨_, rfl, State.onThrottleFloorViolation_keeps (s.elapse_kept m)⟩
  | .clusterWakeDone m _ => ⟨_, rfl, State.onClusterWakeDone_keeps (s.elapse_kept m)⟩
  | .clusterWakeTimeout m _ _ => ⟨_, rfl, State.onClusterWakeTimeout_keeps (s.elapse_kept m)⟩
  | .clusterIdleStop m _ => ⟨_, rfl, State.onClusterIdleStop_keeps (s.elapse_kept m)⟩
  | .sleepEntry m => ⟨_, rfl, State.onSleepEntry_keeps (s.elapse_kept m)⟩
  | .sleepExit m _ => ⟨_, rfl, State.onSleepExit_keeps (s.elapse_kept m)⟩
  | .tierDeviceSelfref m _ => ⟨_, rfl, State.onTierDeviceSelfref_keeps (s.elapse_kept m)⟩
  | .ssmScrub m _ => ⟨_, rfl, State.onSsmScrub_keeps (s.elapse_kept m)⟩
  | .ssmWriteBack m _ => ⟨_, rfl, State.onSsmWriteBack_keeps (s.elapse_kept m)⟩
  | .tableScrub m _ _ _ => ⟨_, rfl, State.onTableScrub_keeps (s.elapse_kept m)⟩
  | .powerOn m _ _ => ⟨_, rfl, State.onPowerOn_keeps (s.elapse_kept m)⟩
  | .porstN m _ _ => ⟨_, rfl, State.onPorstN_keeps (s.elapse_kept m)⟩
  | .sysrstN m _ _ => ⟨_, rfl, State.onSysrstN_keeps (s.elapse_kept m)⟩
  | .cmiWatchdog m => ⟨_, rfl, State.onCmiWatchdog_keeps (s.elapse_kept m)⟩
  | .resetRelease m _ _ => ⟨_, rfl, State.onResetRelease_keeps (s.elapse_kept m)⟩
  | .tierTrainingDone m _ => ⟨_, rfl, State.onTierTrainingDone_keeps (s.elapse_kept m)⟩
  | .rstOutRelease m => ⟨_, rfl, State.onRstOutRelease_keeps (s.elapse_kept m)⟩
  | .extest m => ⟨_, rfl, State.onExtest_keeps (s.elapse_kept m)⟩
  | .samplePreload m _ => ⟨_, rfl, State.onSamplePreload_keeps (s.elapse_kept m)⟩
  | .instr m => ⟨_, rfl, State.onInstr_keeps (s.elapse_kept m)⟩
  | .bypass m _ => ⟨_, rfl, State.onBypass_keeps (s.elapse_kept m)⟩
  | .trstN m => ⟨_, rfl, State.onTrstN_keeps (s.elapse_kept m)⟩
  | .slotStartMissed m _ _ => ⟨_, rfl, State.onSlotStartMissed_keeps (s.elapse_kept m)⟩
  | .blockHashDone m _ => ⟨_, rfl, State.onBlockHashDone_keeps (s.elapse_kept m)⟩

/-- The invariant reads nothing of the queue of commands. -/
theorem Inv.of_pending {s : State} (h : Inv s) (q : List Instr) : Inv { s with pending := q } := by
  obtain ⟨hcanonical, hbounded, hshaped⟩ := h
  exact ⟨{ hcanonical with }, { hbounded with }, { hshaped with }⟩

/-- Every step answers a next state, which has the invariant if the state before it has. -/
theorem step_keeps_inv (s : State) : ∃ t, step s = .next t ∧ (Inv s → Inv t) := by
  unfold step
  cases s.pending with
  | nil => exact ⟨_, rfl, (s.elapse_kept idleMoment).inv⟩
  | cons c rest =>
    obtain ⟨t, ht, hkeeps⟩ := exec_keeps c { s with pending := rest }
    exact ⟨t, ht, fun h => hkeeps.inv (h.of_pending rest)⟩

/-- Settles O5: a step is the passing of an edge or one row of the table, and each keeps the invariant. -/
theorem stepKeepsInv : Obligations.StepKeepsInv := by
  unfold Obligations.StepKeepsInv
  intro s t h ht
  obtain ⟨u, hu, hinv⟩ := step_keeps_inv s
  cases hu.symm.trans ht
  exact hinv h

end Sys2Proof.Machine
end

section
/-! SUPPORT. An event of a partition, whose interrupt record alone it changes, and the arrival of command packets (R335, R336, R349 to
R351). -/
namespace Sys2Proof.Machine

/-! An event's interrupt (R336). -/
section Raise
variable {s : State} {p v : Nat}

/-- An event on a vector that pends marks it as raised again, with its instant. -/
theorem State.raise_pending_eq (h : (s.part p).intPend.testBit v = true) :
    s.raise p v = s.setPart p { s.part p with intAgain := (s.part p).intAgain ||| 2 ^ v, repTime := (s.part p).repTime.set v s.now } :=
  if_pos h

/-- An event on a vector that does not pend makes it pend, with its instant, and an enabled one sends its message. -/
theorem State.raise_idle_eq (h : (s.part p).intPend.testBit v = false) :
    s.raise p v =
      { s.setPart p { s.part p with intPend := (s.part p).intPend ||| 2 ^ v, evTime := (s.part p).evTime.set v s.now } with
        ints := if (s.part p).intEn.testBit v then queueInt s.ints p v s.now else s.ints } := by
  rw [State.raise, if_neg (by simp [h])]
  cases (s.part p).intEn.testBit v <;> rfl

theorem State.raise_part_ne {k : Nat} (h : k ≠ p) : (s.raise p v).part k = s.part k := by
  cases hpend : (s.part p).intPend.testBit v with
  | true => rw [State.raise_pending_eq hpend, State.setPart_part_ne s _ h]
  | false => rw [State.raise_idle_eq hpend]; exact State.setPart_part_ne s _ h

end Raise

/-- An entry of the trouble log that names a partition leaves every partition's ring as it was. -/
theorem State.trouble_ring (s : State) (b : Sticky) (a : Nat) (o : Obj) (p : Nat) (d : Word) (q : Nat) :
    ((s.trouble b a o (some p) d).part q).ring = (s.part q).ring := by
  obtain ⟨u, hparts, -, hu⟩ := s.trouble_records b a o (some p) d
  have hpart (k : Nat) : u.part k = s.part k := congrArg (sget Partn.cold · k) hparts
  rw [hu, Option.elim_some]
  by_cases hq : q = p
  · obtain ⟨pend, again, ev, rep, hraised⟩ := u.raise_part_same p 6
    rw [hq, hraised, hpart]
  · rw [State.raise_part_ne hq, hpart]

/-! A packet that has come whole (R349). -/
section Whole
variable {s : State} {h : Word} {ps : List Word} (hlen : ps.length = hLen h)
include hlen

theorem framed_whole (more : List Word) : framed (h :: ps ++ more) = some (h :: ps) := by
  have hall : (h :: ps ++ more).take (1 + hLen h) = h :: ps := List.take_left' (by rw [List.length_cons, hlen, Nat.add_comm])
  rw [framed]
  simp only [List.cons_append, wat, List.getD_cons_zero, List.length_cons, List.length_append] at hall ⊢
  rw [if_neg (by omega), hall]

theorem State.onCommandPacketArrival_hrp {p : Nat} (hon : s.hrpOn = true) (more : List Word) (r : Bool) :
    s.onCommandPacketArrival (.hrp p) (h :: ps ++ more) .clean r = s.arriveHrp p (h :: ps) := by
  simp only [State.onCommandPacketArrival, hon, if_true, framed_whole hlen]

theorem State.onCommandPacketArrival_smp (hon : s.smpOn = true) (more : List Word) (r : Bool) :
    s.onCommandPacketArrival .smp (h :: ps ++ more) .clean r = s.arriveSmp (h :: ps) := by
  simp only [State.onCommandPacketArrival, hon, if_true, framed_whole hlen]

/-- A packet with an uncorrectable word is discarded under its issuer's opcode and tag where the header can be read (R351). -/
theorem State.onCommandPacketArrival_hrp_bad {p : Nat} (hon : s.hrpOn = true) (more : List Word) (r : Bool) :
    s.onCommandPacketArrival (.hrp p) (h :: ps ++ more) .bad r =
      s.trouble .cmdUe 1 (if r then Obj.command (hOp h) (hTag h) false else Obj.none) (some p) 0 := by
  simp only [State.onCommandPacketArrival, hon, if_true, framed_whole hlen]
  cases r <;> rfl

end Whole

/-! Where a whole packet goes on HRP, the checks in their order (R349, R351, R352). -/
section Hrp
variable {s : State} {p : Nat} {h : Word} {ps : List Word}

theorem State.arriveHrp_stranger (hp : hPart h ≠ p) : s.arriveHrp p (h :: ps) = s.refuseHrp p h .deniedPartition := if_pos hp

variable (hp : hPart h = p)
include hp

theorem State.arriveHrp_long (hl : 4096 < hLen h) : s.arriveHrp p (h :: ps) = s.refuseHrp p h .reservedSet := by
  simp [State.arriveHrp, wat, hp, hl]

variable (hl : hLen h ≤ 4096)
include hl

theorem State.arriveHrp_resetting (hr : (s.part p).resetting = true) : s.arriveHrp p (h :: ps) = s.refuseHrp p h .busy := by
  simp [State.arriveHrp, wat, hp, Nat.not_lt.2 hl, hr]

variable (hr : (s.part p).resetting = false)
include hr

theorem State.arriveHrp_full (hfull : 16 ≤ (s.part p).ring.length) :
    s.arriveHrp p (h :: ps) = (s.setPart p { s.part p with refusedBusy := true }).refuseHrp p h .busy := by
  simp [State.arriveHrp, wat, hp, Nat.not_lt.2 hl, hr, hfull]

theorem State.arriveHrp_joins (hroom : (s.part p).ring.length < 16) :
    s.arriveHrp p (h :: ps) = s.setPart p { s.part p with
      ring := (s.part p).ring ++ [{ part := p, words := h :: ps, arrived := s.tm.refclk, fine := s.fine }] } := by
  simp [State.arriveHrp, wat, hp, Nat.not_lt.2 hl, hr, Nat.not_le.2 hroom]

end Hrp

/-! Where a whole packet goes on SMP (R350). -/
section Smp
variable {s : State} {h : Word} {ps : List Word} (hl : hLen h ≤ 4096) (hr : (s.part (hPart h)).resetting = false)
include hl hr

theorem State.arriveSmp_joins (hroom : s.cmi.smpRing.length < 4) :
    s.arriveSmp (h :: ps) = { s with cmi := { s.cmi with smpRing := s.cmi.smpRing ++
      [{ part := hPart h, words := h :: ps, arrived := s.tm.refclk, fine := s.fine }] } } := by
  simp [State.arriveSmp, wat, Nat.not_lt.2 hl, hr, Nat.not_le.2 hroom]

theorem State.arriveSmp_full (hfull : 4 ≤ s.cmi.smpRing.length) :
    s.arriveSmp (h :: ps) = s.answer (pktIssuer true { part := hPart h, words := h :: ps, arrived := 0, fine := 0 }) .busy := by
  simp [State.arriveSmp, wat, Nat.not_lt.2 hl, hr, hfull]

end Smp

theorem exec_commandPacketArrival_eq (m : Moment) (via : Via) (words : List Word) (find : Find) (r : Bool) (s : State) :
    exec (.commandPacketArrival m via words find r) s = .next ((s.elapse m).onCommandPacketArrival via words find r) := rfl

/-- Settles O7: a whole packet on each port, check by check, and one with an uncorrectable word. -/
theorem packetsArrive : Obligations.PacketsArrive := by
  unfold Obligations.PacketsArrive
  simp only [exec_commandPacketArrival_eq, Host.Outcome.next.injEq]
  refine ⟨fun m s p h ps more r hon hlen => ?_, fun m s h ps more r hon hlen hl hr => ?_, fun m s p h ps more r hon hlen => ?_⟩
  · rw [State.onCommandPacketArrival_hrp hlen hon]
    exact ⟨State.arriveHrp_joins, State.arriveHrp_stranger, State.arriveHrp_long, State.arriveHrp_resetting, State.arriveHrp_full⟩
  · rw [State.onCommandPacketArrival_smp hlen hon]
    exact ⟨State.arriveSmp_joins hl hr, fun hfull => ⟨_, rfl, rfl, rfl, rfl, State.arriveSmp_full hl hr hfull⟩⟩
  · refine ⟨_, State.onCommandPacketArrival_hrp_bad hlen hon more r, ?_, State.trouble_cmi .., fun q => State.trouble_ring .., State.trouble_hrpOut .., rfl⟩
    rw [State.trouble_sticky]
    exact bit_word_pow (by decide) _

end Sys2Proof.Machine
end

section
/-! SUPPORT. PT_INT written: the enables and the pending bits, vector by vector (R336, R475, R485), and the messages of interrupts. -/
namespace Sys2Proof.Machine

theorem exec_ptIntWrite_eq (m : Moment) (b : RegBeat) (s : State) : exec (.ptIntWrite m b) s = .next ((s.elapse m).onPtIntWrite b) := rfl
theorem exec_interruptMessageSend_eq (m : Moment) (s : State) :
    exec (.interruptMessageSend m) s = .next (s.elapse m).onInterruptMessageSend := rfl

/-- A set bit taken off a number: that bit is clear, the others stay. -/
theorem testBit_sub_two_pow {n v : Nat} (h : n.testBit v = true) (j : Nat) :
    (n - 2 ^ v).testBit j = if j = v then false else n.testBit j := by
  induction v generalizing n j with
  | zero =>
    rw [Nat.testBit_zero, decide_eq_true_iff] at h
    cases j with
    | zero => simp only [Nat.testBit_zero, Nat.pow_zero, if_true, decide_eq_false_iff_not]; omega
    | succ j => rw [if_neg (by omega), Nat.testBit_add_one, Nat.testBit_add_one, show (n - 2 ^ 0) / 2 = n / 2 by omega]
  | succ v ih =>
    rw [Nat.testBit_add_one] at h
    have hge : 2 ^ v ≤ n / 2 := Nat.ge_two_pow_of_testBit h
    cases j with
    | zero => simp only [Nat.testBit_zero, Nat.pow_succ]; rw [if_neg (by omega), show (n - 2 ^ v * 2) % 2 = n % 2 by omega]
    | succ j =>
      rw [Nat.testBit_add_one, Nat.testBit_add_one, show (n - 2 ^ (v + 1)) / 2 = n / 2 - 2 ^ v by rw [Nat.pow_succ]; omega, ih h]
      simp only [Nat.add_right_cancel_iff]

theorem testBit_or_two_pow (n v j : Nat) : (n ||| 2 ^ v).testBit j = if j = v then true else n.testBit j := by
  rw [Nat.testBit_or, Nat.testBit_two_pow]
  by_cases h : j = v
  · simp [h]
  · simp [h, Ne.symm h]

/-! The enables (R336). -/
section Enables
variable (s : State) (p en v : Nat)

/-- The enable of one vector written: the body of `State.setIntEn`'s loop. -/
def State.enableVector : State :=
  let q := s.part p
  if en.testBit v && !q.intEn.testBit v then
    let s1 := s.setPart p { q with intEn := q.intEn ||| 2 ^ v }
    if q.intPend.testBit v then { s1 with ints := queueInt s1.ints p v (q.evTime.getD v 0) } else s1
  else if !en.testBit v && q.intEn.testBit v then s.setPart p { q with intEn := q.intEn - 2 ^ v }
  else s

variable {s p en v}

theorem State.enableVector_same (h : en.testBit v = (s.part p).intEn.testBit v) : s.enableVector p en v = s := by
  simp [State.enableVector, h]

/-- An enable that comes sends one message of a vector that pends. -/
theorem State.enableVector_on (hnew : en.testBit v = true) (hold : (s.part p).intEn.testBit v = false) :
    s.enableVector p en v = { s.setPart p { s.part p with intEn := (s.part p).intEn ||| 2 ^ v } with
      ints := if (s.part p).intPend.testBit v then queueInt s.ints p v ((s.part p).evTime.getD v 0) else s.ints } := by
  rw [State.enableVector, if_pos (by simp [hnew, hold])]
  cases (s.part p).intPend.testBit v <;> rfl

theorem State.enableVector_off (hnew : en.testBit v = false) (hold : (s.part p).intEn.testBit v = true) :
    s.enableVector p en v = s.setPart p { s.part p with intEn := (s.part p).intEn - 2 ^ v } := by
  simp [State.enableVector, hnew, hold]

theorem State.enableVector_part (s : State) (p en v : Nat) : ∃ e, (s.enableVector p en v).part p = { s.part p with intEn := e } ∧
    ∀ j, e.testBit j = if j = v then en.testBit v else (s.part p).intEn.testBit j := by
  cases hnew : en.testBit v <;> cases hold : (s.part p).intEn.testBit v
  case false.true => rw [State.enableVector_off hnew hold]; exact ⟨_, State.setPart_part_same .., testBit_sub_two_pow hold⟩
  case true.false => rw [State.enableVector_on hnew hold]; exact ⟨_, State.setPart_part_same .., testBit_or_two_pow _ _⟩
  all_goals
    rw [State.enableVector_same (hnew.trans hold.symm)]
    refine ⟨(s.part p).intEn, rfl, fun j => ?_⟩
    split
    · next hj => rw [hj, hold]
    · rfl

theorem State.enableVector_part_ne {k : Nat} (hk : k ≠ p) : (s.enableVector p en v).part k = s.part k := by
  cases hnew : en.testBit v <;> cases hold : (s.part p).intEn.testBit v
  case false.true => rw [State.enableVector_off hnew hold, State.setPart_part_ne s _ hk]
  case true.false => rw [State.enableVector_on hnew hold]; exact State.setPart_part_ne s _ hk
  all_goals rw [State.enableVector_same (hnew.trans hold.symm)]

/-- The enables of the first `n` vectors written: they are as asked, the others as they were, and nothing else of a partition changes. -/
structure EnablesWritten (p en n : Nat) (s t : State) : Prop where
  written : ∃ e, t.part p = { s.part p with intEn := e } ∧ ∀ j, e.testBit j = if j < n then en.testBit j else (s.part p).intEn.testBit j
  others : ∀ k, k ≠ p → t.part k = s.part k

theorem EnablesWritten.step {n : Nat} {t : State} (h : EnablesWritten p en n s t) : EnablesWritten p en (n + 1) s (t.enableVector p en n) := by
  obtain ⟨⟨e, ht, he⟩, hothers⟩ := h
  obtain ⟨e', ht', he'⟩ := t.enableVector_part p en n
  refine ⟨⟨e', by rw [ht', ht], fun j => ?_⟩, fun k hk => (State.enableVector_part_ne hk).trans (hothers k hk)⟩
  rw [he', ht, he]
  by_cases hj : j = n
  · simp [hj]
  · simp only [if_neg hj, show j < n + 1 ↔ j < n by omega]

theorem EnablesWritten.range (s : State) (p en n : Nat) :
    EnablesWritten p en n s ((List.range n).foldl (fun t v => t.enableVector p en v) s) := by
  induction n with
  | zero => exact ⟨⟨_, rfl, fun j => (if_neg j.not_lt_zero).symm⟩, fun _ _ => rfl⟩
  | succ n ih => rw [List.range_succ, List.foldl_append]; exact ih.step

theorem State.setIntEn_written (s : State) (p en : Nat) : EnablesWritten p en 8 s (s.setIntEn p en) := .range s p en 8

end Enables

/-! The pending bits (R336). -/
section Pending
variable (s : State) (p mask v : Nat)

/-- The pending bit of one vector cleared: the body of `State.clearPend`'s loop. -/
def State.clearVector : State :=
  let q := s.part p
  if mask.testBit v && q.intPend.testBit v then
    if q.intAgain.testBit v then
      let s1 := s.setPart p { q with intAgain := q.intAgain - 2 ^ v, evTime := q.evTime.set v (q.repTime.getD v 0) }
      if q.intEn.testBit v then { s1 with ints := queueInt s1.ints p v (q.repTime.getD v 0) } else s1
    else s.setPart p { q with intPend := q.intPend - 2 ^ v }
  else s

variable {s p mask v}

theorem State.clearVector_same (h : (mask.testBit v && (s.part p).intPend.testBit v) = false) : s.clearVector p mask v = s := by
  simp only [State.clearVector, h, Bool.false_eq_true, if_false]

/-- A vector that was raised again pends still, with the instant of the repeat, and an enabled one sends its message. -/
theorem State.clearVector_again (h : (mask.testBit v && (s.part p).intPend.testBit v) = true) (ha : (s.part p).intAgain.testBit v = true) :
    s.clearVector p mask v =
      { s.setPart p { s.part p with
          intAgain := (s.part p).intAgain - 2 ^ v, evTime := (s.part p).evTime.set v ((s.part p).repTime.getD v 0) } with
        ints := if (s.part p).intEn.testBit v then queueInt s.ints p v ((s.part p).repTime.getD v 0) else s.ints } := by
  rw [State.clearVector, if_pos h, if_pos ha]
  cases (s.part p).intEn.testBit v <;> rfl

theorem State.clearVector_clears (h : (mask.testBit v && (s.part p).intPend.testBit v) = true) (ha : (s.part p).intAgain.testBit v = false) :
    s.clearVector p mask v = s.setPart p { s.part p with intPend := (s.part p).intPend - 2 ^ v } := by
  simp only [State.clearVector, h, ha, Bool.false_eq_true, if_true, if_false]

theorem State.clearVector_part (s : State) (p mask v : Nat) : ∃ pend again ev,
    (s.clearVector p mask v).part p = { s.part p with intPend := pend, intAgain := again, evTime := ev } ∧
    (∀ j, pend.testBit j = if j = v then (s.part p).intPend.testBit v && (!mask.testBit v || (s.part p).intAgain.testBit v)
      else (s.part p).intPend.testBit j) ∧
    (∀ j, j ≠ v → again.testBit j = (s.part p).intAgain.testBit j) := by
  cases h : mask.testBit v && (s.part p).intPend.testBit v with
  | false =>
    rw [State.clearVector_same h]
    refine ⟨(s.part p).intPend, _, _, rfl, fun j => ?_, fun _ _ => rfl⟩
    split
    · next hj =>
      rw [hj]
      rcases Bool.and_eq_false_iff.1 h with hm | hp
      · simp [hm]
      · rw [hp]; rfl
    · rfl
  | true =>
    obtain ⟨hm, hp⟩ := Bool.and_eq_true_iff.1 h
    cases ha : (s.part p).intAgain.testBit v with
    | false =>
      rw [State.clearVector_clears h ha]
      refine ⟨_, _, _, State.setPart_part_same .., fun j => ?_, fun _ _ => rfl⟩
      rw [testBit_sub_two_pow hp, hm, hp]
      rfl
    | true =>
      rw [State.clearVector_again h ha]
      refine ⟨_, _, _, State.setPart_part_same .., fun j => ?_, fun j hj => ?_⟩
      · split
        · next hj => rw [hj, hp, hm]; rfl
        · rfl
      · rw [testBit_sub_two_pow ha, if_neg hj]

theorem State.clearVector_part_ne {k : Nat} (hk : k ≠ p) : (s.clearVector p mask v).part k = s.part k := by
  cases h : mask.testBit v && (s.part p).intPend.testBit v with
  | false => rw [State.clearVector_same h]
  | true =>
    cases ha : (s.part p).intAgain.testBit v with
    | false => rw [State.clearVector_clears h ha, State.setPart_part_ne s _ hk]
    | true => rw [State.clearVector_again h ha]; exact State.setPart_part_ne s _ hk

/-- The pending bits of the first `n` vectors cleared as the mask asks: one that was raised again pends still, and of a partition nothing
changes but its record of interrupts. -/
structure PendingCleared (p mask n : Nat) (s t : State) : Prop where
  cleared : ∃ pend again ev, t.part p = { s.part p with intPend := pend, intAgain := again, evTime := ev } ∧
    (∀ j, pend.testBit j = if j < n then (s.part p).intPend.testBit j && (!mask.testBit j || (s.part p).intAgain.testBit j)
      else (s.part p).intPend.testBit j) ∧
    (∀ j, n ≤ j → again.testBit j = (s.part p).intAgain.testBit j)
  others : ∀ k, k ≠ p → t.part k = s.part k

theorem PendingCleared.step {n : Nat} {t : State} (h : PendingCleared p mask n s t) :
    PendingCleared p mask (n + 1) s (t.clearVector p mask n) := by
  obtain ⟨⟨pend, again, ev, ht, hpend, hagain⟩, hothers⟩ := h
  obtain ⟨pend', again', ev', ht', hpend', hagain'⟩ := t.clearVector_part p mask n
  refine ⟨⟨pend', again', ev', by rw [ht', ht], fun j => ?_, fun j hj => ?_⟩,
    fun k hk => (State.clearVector_part_ne hk).trans (hothers k hk)⟩
  · rw [hpend', ht]
    dsimp only
    rw [hpend, hpend, hagain n (Nat.le_refl n), if_neg n.lt_irrefl]
    by_cases hj : j = n
    · rw [if_pos hj, if_pos (by omega), hj]
    · simp only [if_neg hj, show j < n + 1 ↔ j < n by omega]
  · rw [hagain' j (by omega), ht]
    exact hagain j (by omega)

theorem PendingCleared.range (s : State) (p mask n : Nat) :
    PendingCleared p mask n s ((List.range n).foldl (fun t v => t.clearVector p mask v) s) := by
  induction n with
  | zero => exact ⟨⟨_, _, _, rfl, fun j => (if_neg j.not_lt_zero).symm, fun _ _ => rfl⟩, fun _ _ => rfl⟩
  | succ n ih => rw [List.range_succ, List.foldl_append]; exact ih.step

theorem State.clearPend_cleared (s : State) (p mask : Nat) : PendingCleared p mask 8 s (s.clearPend p mask) := .range s p mask 8

end Pending

/-- PT_INT written: the enables are the new ones, what was asked to clear is clear unless it was raised again, and nothing else of the
partitions changes but the instants of the events. -/
theorem State.writeInt_part (s : State) (p : Nat) (w : Word) (hen : (s.part p).intEn < 2 ^ 8) :
    (∃ pend again ev, (s.writeInt p w).part p =
      { s.part p with intEn := bf w 63 56, intPend := pend, intAgain := again, evTime := ev } ∧
      ∀ v, v < 8 → pend.testBit v = ((s.part p).intPend.testBit v && (!(bf w 55 48).testBit v || (s.part p).intAgain.testBit v))) ∧
    ∀ k, k ≠ p → (s.writeInt p w).part k = s.part k := by
  have hnew : bf w 63 56 < 2 ^ 8 := Nat.mod_lt _ (by decide)
  rw [show s.writeInt p w = ((s.setIntEn p ((s.part p).intEn &&& bf w 63 56)).clearPend p (bf w 55 48)).setIntEn p (bf w 63 56) from rfl]
  obtain ⟨⟨e1, h1, hbits1⟩, ho1⟩ := s.setIntEn_written p ((s.part p).intEn &&& bf w 63 56)
  generalize s.setIntEn p ((s.part p).intEn &&& bf w 63 56) = s1 at *
  obtain ⟨⟨pend, again, ev, h2, hpend, -⟩, ho2⟩ := s1.clearPend_cleared p (bf w 55 48)
  generalize s1.clearPend p (bf w 55 48) = s2 at *
  obtain ⟨⟨e3, h3, hbits3⟩, ho3⟩ := s2.setIntEn_written p (bf w 63 56)
  have he : e3 = bf w 63 56 := by
    refine Nat.eq_of_testBit_eq fun j => ?_
    rw [hbits3, h2, h1]
    split
    · rfl
    · next hj =>
      have hlarge {n : Nat} (hn : n < 2 ^ 8) : n.testBit j = false :=
        Nat.testBit_lt_two_pow (Nat.lt_of_lt_of_le hn (Nat.pow_le_pow_right (by decide) (by omega)))
      rw [hlarge hnew, show e1.testBit j = _ from hbits1 j, if_neg hj, hlarge hen]
  refine ⟨⟨pend, again, ev, by rw [h3, h2, h1, he], fun v hv => ?_⟩, fun k hk => by rw [ho3 k hk, ho2 k hk, ho1 k hk]⟩
  rw [hpend, if_pos hv, h1]

section Write
variable {s : State} {b : RegBeat} {p : Nat}

theorem State.writePart_int {w : Word} (hs : stray w [(63, 40)] = false) : s.writePart p 0x008 w = s.writeInt p w := by
  simp [State.writePart, pregAt, PReg.fields, hs, State.writePReg]

theorem beatRow_ptInt (hw : beatWrites b = true) (hp : windowOf (beatAddr b) = some p) (ho : offsetOf (beatAddr b) = 0x008) :
    beatRow b = .ptInt := by
  simp [beatRow, hw, hp, ho]

/-- A write of PT_INT that is whole and allowed is taken by its row. -/
theorem State.onPtIntWrite_eq (hon : s.hrpOn = true) (hm : beatMisformed b = false) (hd : beatDenied b = false) (hw : beatWrites b = true)
    (hp : windowOf (beatAddr b) = some p) (ho : offsetOf (beatAddr b) = 0x008) (hs : stray b.w1 [(63, 40)] = false) :
    s.onPtIntWrite b = s.writeInt p b.w1 := by
  rw [State.onPtIntWrite, State.rowAccess, if_pos (beatRow_ptInt hw hp ho), State.regAccess_writePart hon hm hd hw hp, ho,
    State.writePart_int hs]

end Write

theorem State.onInterruptMessageSend_eq {s : State} {x : IntMsg} {rest : List IntMsg} (hints : s.ints = x :: rest) (hup : s.hrpUp = true) :
    s.onInterruptMessageSend = ({ s with ints := rest } : State).putOut 2 x.part false [x.word] := by
  simp [State.onInterruptMessageSend, hints, hup]

/-- Settles O28: PT_INT written, and an event on a vector that pends and on one that does not. -/
theorem interrupts : Obligations.Interrupts := by
  unfold Obligations.Interrupts
  simp only [exec_ptIntWrite_eq, exec_interruptMessageSend_eq, Host.Outcome.next.injEq]
  refine ⟨fun m s b p hon hm hd hw hp ho hs hen => ?_, fun m s p v x rest => ?_⟩
  · generalize s.elapse m = e at *
    obtain ⟨⟨pend, again, ev, hpart, hpend⟩, hothers⟩ := e.writeInt_part p b.w1 hen
    have hframe : Framed false [.parts, .ints] e (e.writeInt p b.w1) := State.writeInt_framed rfl (Framed.refl e)
    refine ⟨_, State.onPtIntWrite_eq hon hm hd hw hp ho hs, ?_, ?_, hothers, ?_, ?_, (hframe.kept (f := .trb) (by decide)).symm,
      (hframe.kept (f := .mem) (by decide)).symm⟩
    · rw [hpart]
    · rw [hpart]; exact hpend
    · rw [hpart]
    · rw [hpart]
  · refine ⟨?_, fun hpend hen => ?_, fun hpend hen => ?_, fun hpend => ?_, fun k => State.raise_part_ne, State.onInterruptMessageSend_eq⟩
    · cases hpend : (s.part p).intPend.testBit v with
      | true => rw [State.raise_pending_eq hpend, State.setPart_part_same]; exact hpend
      | false =>
        rw [State.raise_idle_eq hpend, State.part, State.setPart, sget_sset_same, testBit_or_two_pow, if_pos rfl]
    · rw [State.raise_idle_eq hpend, if_pos hen]
    · rw [State.raise_idle_eq hpend, hen]; rfl
    · rw [State.raise_pending_eq hpend, State.setPart_part_same]
      refine ⟨rfl, ?_⟩
      rw [testBit_or_two_pow, if_pos rfl]

end Sys2Proof.Machine
end

section
/-! SUPPORT. The shares of a capacity among its claims (R331): one round grants their rates to the claims that fit under their fair share, and
the rest share what remains. -/
namespace Sys2Proof.Machine

/-- The fair share of a claim in a set: what remains, by weight. -/
def fairShare (cap : Nat) (set : List Claim) (c : Claim) : Nat := cap * c.weight / (set.map (·.weight)).sum

/-- The claims of a set whose rate does not pass their fair share. -/
def fitting (cap : Nat) (set : List Claim) : List Claim := set.filter (fun c => decide (c.rate ≤ fairShare cap set c))

/-- The claims of a set whose rate passes their fair share. -/
def exceeding (cap : Nat) (set : List Claim) : List Claim := set.filter (fun c => !decide (c.rate ≤ fairShare cap set c))

theorem foldl_add_weight (set : List Claim) (a : Nat) : set.foldl (fun a c => a + c.weight) a = a + (set.map (·.weight)).sum := by
  induction set generalizing a with
  | nil => rfl
  | cons c set ih => rw [List.foldl_cons, ih, List.map_cons, List.sum_cons, Nat.add_assoc]

theorem foldl_sub_rate (set : List Claim) (cap : Nat) : set.foldl (fun r c => r - c.rate) cap = cap - (set.map (·.rate)).sum := by
  induction set generalizing cap with
  | nil => rfl
  | cons c set ih => rw [List.foldl_cons, ih, List.map_cons, List.sum_cons, Nat.sub_sub]

/-- A round of the sharing. -/
theorem shares_succ (n cap : Nat) (set : List Claim) : shares (n + 1) cap set =
    if set.isEmpty then []
    else if (fitting cap set).isEmpty then set.map (fun c => (c.tenant, fairShare cap set c))
    else (fitting cap set).map (fun c => (c.tenant, c.rate)) ++
      shares n (cap - ((fitting cap set).map (·.rate)).sum) (exceeding cap set) := by
  simp only [shares, foldl_add_weight, foldl_sub_rate, Nat.zero_add]
  rfl

theorem mem_fitting {cap : Nat} {set : List Claim} {c : Claim} : c ∈ fitting cap set ↔ c ∈ set ∧ c.rate ≤ fairShare cap set c := by
  simp [fitting]

theorem mem_exceeding {cap : Nat} {set : List Claim} {c : Claim} : c ∈ exceeding cap set ↔ c ∈ set ∧ fairShare cap set c < c.rate := by
  simp [exceeding]

theorem fitting_perm (cap : Nat) (set : List Claim) : (fitting cap set ++ exceeding cap set).Perm set := List.filter_append_perm _ set

/-- A sum over the claims that fit and one over those that do not make the sum over all. -/
theorem sum_fitting_exceeding (f : Claim → Nat) (cap : Nat) (set : List Claim) :
    ((fitting cap set).map f).sum + ((exceeding cap set).map f).sum = (set.map f).sum := by
  rw [← List.sum_append, ← List.map_append]
  exact ((fitting_perm cap set).map f).sum_nat

theorem length_exceeding_lt {cap : Nat} {set : List Claim} (h : (fitting cap set).isEmpty = false) :
    (exceeding cap set).length < set.length := by
  have hlen := (fitting_perm cap set).length_eq
  rw [List.length_append] at hlen
  have hpos : 0 < (fitting cap set).length := List.length_pos_iff.2 (by simpa using h)
  omega

/-- The fair shares of some claims of a set together do not pass the capacity. -/
theorem sum_fairShare_le (cap w : Nat) (l : List Claim) (h : (l.map (·.weight)).sum ≤ w) :
    (l.map (fun c => cap * c.weight / w)).sum ≤ cap := by
  have hfloor : ∀ l : List Claim, (l.map (fun c => cap * c.weight / w)).sum ≤ cap * (l.map (·.weight)).sum / w := by
    intro l
    induction l with
    | nil => simp
    | cons c l ih =>
      simp only [List.map_cons, List.sum_cons, Nat.mul_add]
      exact Nat.le_trans (Nat.add_le_add_left ih _) Nat.div_add_div_le_add_div
  calc _ ≤ cap * (l.map (·.weight)).sum / w := hfloor l
    _ ≤ cap * w / w := Nat.div_le_div_right (Nat.mul_le_mul_left cap h)
    _ ≤ cap := Nat.div_le_of_le_mul (Nat.le_of_eq (Nat.mul_comm cap w))

theorem sum_map_le {f g : Claim → Nat} {l : List Claim} (h : ∀ c ∈ l, f c ≤ g c) : (l.map f).sum ≤ (l.map g).sum := by
  induction l with
  | nil => exact Nat.le_refl _
  | cons c l ih =>
    rw [List.map_cons, List.map_cons, List.sum_cons, List.sum_cons]
    exact Nat.add_le_add (h c List.mem_cons_self) (ih fun x hx => h x (List.mem_cons_of_mem c hx))

/-- The rates granted in a round are within the capacity. -/
theorem sum_fitting_le (cap : Nat) (set : List Claim) : ((fitting cap set).map (·.rate)).sum ≤ cap := by
  have hweights : ((fitting cap set).map (·.weight)).sum ≤ (set.map (·.weight)).sum :=
    (sum_fitting_exceeding (·.weight) cap set) ▸ Nat.le_add_right _ _
  exact Nat.le_trans (sum_map_le fun c hc => (mem_fitting.1 hc).2) (sum_fairShare_le cap _ _ hweights)

/-- Where every rate passes its share by weight of a capacity, the rates together pass the capacity by weight. -/
theorem sum_weight_add_length_le {cap w : Nat} {l : List Claim} (h : ∀ c ∈ l, cap * c.weight < c.rate * w) :
    cap * (l.map (·.weight)).sum + l.length ≤ (l.map (·.rate)).sum * w := by
  induction l with
  | nil => exact Nat.zero_le _
  | cons c l ih =>
    have hc := h c List.mem_cons_self
    have hl := ih fun x hx => h x (List.mem_cons_of_mem c hx)
    simp only [List.map_cons, List.sum_cons, List.length_cons, Nat.mul_add, Nat.add_mul]
    omega

/-- Where the rates fit into the capacity, some claim fits under its fair share: else all together would pass the capacity. -/
theorem fitting_nonempty {cap : Nat} {set : List Claim} (hne : set.isEmpty = false) (hfit : (set.map (·.rate)).sum ≤ cap)
    (hw : ∀ c ∈ set, 1 ≤ c.weight) : (fitting cap set).isEmpty = false := by
  refine Bool.eq_false_iff.2 fun hempty => ?_
  have hlen : 0 < set.length := List.length_pos_iff.2 (by simpa using hne)
  have hpos : 0 < (set.map (·.weight)).sum := by
    obtain ⟨c, l, rfl⟩ := List.exists_cons_of_length_pos hlen
    rw [List.map_cons, List.sum_cons]
    exact Nat.lt_of_lt_of_le (hw c List.mem_cons_self) (Nat.le_add_right _ _)
  have hpass := sum_weight_add_length_le (cap := cap) (w := (set.map (·.weight)).sum) (l := set) fun c hc => by
    refine (Nat.div_lt_iff_lt_mul hpos).1 (Nat.lt_of_not_le fun hfits => ?_)
    exact List.not_mem_nil (List.isEmpty_iff.1 hempty ▸ mem_fitting.2 ⟨hc, hfits⟩)
  have hle := Nat.mul_le_mul_right (set.map (·.weight)).sum hfit
  omega

/-- The grants `gs` share the capacity among the claims of a set. -/
structure Shared (cap : Nat) (set : List Claim) (gs : List (Nat × Nat)) : Prop where
  within : (gs.map (·.2)).sum ≤ cap
  capped : ∀ g ∈ gs, ∃ c ∈ set, c.tenant = g.1 ∧ g.2 ≤ c.rate
  once : (gs.map (·.1)).Perm (set.map (·.tenant))
  whole : (set.map (·.rate)).sum ≤ cap → (∀ c ∈ set, 1 ≤ c.weight) → ∀ g ∈ gs, ∃ c ∈ set, c.tenant = g.1 ∧ g.2 = c.rate

theorem Shared.nil (cap : Nat) : Shared cap [] [] := ⟨cap.zero_le, by simp, .refl _, by simp⟩

/-- Where no claim fits under its fair share, each is granted that share. -/
theorem Shared.of_fair {cap : Nat} {set : List Claim} (hne : set.isEmpty = false) (h : (fitting cap set).isEmpty = true) :
    Shared cap set (set.map (fun c => (c.tenant, fairShare cap set c))) := by
  refine ⟨?_, fun g hg => ?_, ?_, fun hfit hw => ?_⟩
  · rw [List.map_map]
    exact sum_fairShare_le cap _ set (Nat.le_refl _)
  · obtain ⟨c, hc, rfl⟩ := List.mem_map.1 hg
    refine ⟨c, hc, rfl, Nat.le_of_not_le fun hfits => ?_⟩
    exact List.not_mem_nil (List.isEmpty_iff.1 h ▸ mem_fitting.2 ⟨hc, hfits⟩)
  · rw [List.map_map]
    exact .refl _
  · rw [fitting_nonempty hne hfit hw] at h
    exact absurd h (by decide)

/-- A round that grants some claims their rates, what remains being shared among the others. -/
theorem Shared.round {cap : Nat} {set : List Claim} {gs : List (Nat × Nat)}
    (h : Shared (cap - ((fitting cap set).map (·.rate)).sum) (exceeding cap set) gs) :
    Shared cap set ((fitting cap set).map (fun c => (c.tenant, c.rate)) ++ gs) := by
  have hgranted := sum_fitting_le cap set
  have hone {P : Nat × Nat → Claim → Prop} (hfitting : ∀ c ∈ fitting cap set, P (c.tenant, c.rate) c)
      (hrest : ∀ g ∈ gs, ∃ c ∈ exceeding cap set, P g c) :
      ∀ g ∈ (fitting cap set).map (fun c => (c.tenant, c.rate)) ++ gs, ∃ c ∈ set, P g c := by
    intro g hg
    rcases List.mem_append.1 hg with hg | hg
    · obtain ⟨c, hc, rfl⟩ := List.mem_map.1 hg
      exact ⟨c, (mem_fitting.1 hc).1, hfitting c hc⟩
    · obtain ⟨c, hc, hP⟩ := hrest g hg
      exact ⟨c, (mem_exceeding.1 hc).1, hP⟩
  refine ⟨?_, hone (fun c _ => ⟨rfl, Nat.le_refl _⟩) h.capped, ?_, fun hfit hw => ?_⟩
  · have hwithin := h.within
    rw [List.map_append, List.sum_append, List.map_map]
    change ((fitting cap set).map (·.rate)).sum + _ ≤ cap
    omega
  · rw [List.map_append, List.map_map]
    refine (List.Perm.append_left _ h.once).trans ?_
    change ((fitting cap set).map (·.tenant) ++ _).Perm _
    rw [← List.map_append]
    exact (fitting_perm cap set).map _
  · have hsum := sum_fitting_exceeding (·.rate) cap set
    exact hone (fun c _ => ⟨rfl, rfl⟩) (h.whole (by omega) fun c hc => hw c (mem_exceeding.1 hc).1)

/-- With more rounds than claims, the sharing comes to its end: every round but the last grants some claim its rate. -/
theorem shares_shared (n cap : Nat) (set : List Claim) (h : set.length < n) : Shared cap set (shares n cap set) := by
  induction n generalizing cap set with
  | zero => exact absurd h set.length.not_lt_zero
  | succ n ih =>
    rw [shares_succ]
    cases hset : set.isEmpty with
    | true => rw [List.isEmpty_iff.1 hset]; exact .nil cap
    | false =>
      cases hfitting : (fitting cap set).isEmpty with
      | true => exact .of_fair hset hfitting
      | false => exact .round (ih _ _ (Nat.lt_of_lt_of_le (length_exceeding_lt hfitting) (Nat.le_of_lt_succ h)))

/-- Settles O43: the rounds granted, one after another, share the capacity. -/
theorem grantsShareCapacity : Obligations.GrantsShareCapacity := by
  unfold Obligations.GrantsShareCapacity
  intro cap set
  obtain ⟨hwithin, hcapped, honce, hwhole⟩ := shares_shared (set.length + 1) cap set set.length.lt_succ_self
  exact ⟨hwithin, hcapped, honce, hwhole⟩

end Sys2Proof.Machine
end

section
/-! SUPPORT. The ledgers at a tick: the charge and the refill, ledger by ledger, and the claims on a capacity, which no charge changes
(R326, R327, R331). -/
namespace Sys2Proof.Machine

/-! The canonical form of the ledgers, and the claims read from it. -/
section Claims
variable {m : List (Nat × Ledger)} {t : Nat} {v : Ledger}

theorem mem_keys_of_sget {α : Type} {d : α} {m : List (Nat × α)} {i : Nat} (h : sget d m i ≠ d) : i ∈ m.map (·.1) := by
  cases hany : m.any (fun c => c.1 == i) with
  | false => exact absurd (sget_not_mem hany) h
  | true =>
    obtain ⟨c, hc, hci⟩ := List.any_eq_true.1 hany
    exact List.mem_map.2 ⟨c, hc, beq_iff_eq.1 hci⟩

theorem swf_keys_nodup {α : Type} [DecidableEq α] {d : α} {m : List (Nat × α)} (h : swf d m = true) : (m.map (·.1)).Nodup := by
  induction m with
  | nil => exact List.nodup_nil
  | cons c m ih =>
    obtain ⟨-, hlt, hm⟩ := swf_cons_iff.1 h
    refine List.nodup_cons.2 ⟨fun hmem => ?_, ih hm⟩
    obtain ⟨x, hx, hxc⟩ := List.mem_map.1 hmem
    exact absurd (hlt x hx) (by rw [hxc]; exact Nat.lt_irrefl _)

/-- A store written with what it holds is as it was. -/
theorem sset_sget {α : Type} [DecidableEq α] {d : α} {m : List (Nat × α)} (h : swf d m = true) (i : Nat) : sset d m i (sget d m i) = m := by
  refine swf_ext (swf_sset h) h fun j => ?_
  rw [sget_sset]
  split
  · next hj => rw [hj]
  · rfl

/-- The claims on a capacity: of every valid tenant with sessions (R331). -/
def claims (rate : Ledger → Nat) (m : List (Nat × Ledger)) : List Claim :=
  (m.filter (fun c => c.2.valid && c.2.sessions != 0)).map (fun c => { tenant := c.1, rate := rate c.2, weight := c.2.weight })

theorem State.grants_eq (s : State) (cap : Nat) (rate : Ledger → Nat) :
    s.grants cap rate = shares ((claims rate s.ledgers).length + 1) cap (claims rate s.ledgers) := rfl

theorem claims_append (rate : Ledger → Nat) (a b : List (Nat × Ledger)) : claims rate (a ++ b) = claims rate a ++ claims rate b := by
  simp only [claims, List.filter_append, List.map_append]

/-- Two ledgers that make the same claim. -/
structure SameClaim (rate : Ledger → Nat) (a b : Ledger) : Prop where
  valid : b.valid = a.valid
  sessions : b.sessions = a.sessions
  weight : b.weight = a.weight
  rate : rate b = rate a

/-- The claim of one ledger, of which the store lists nothing when it is zero. -/
theorem claims_single (rate : Ledger → Nat) (t : Nat) (v : Ledger) : claims rate (if v = Ledger.zero then [] else [(t, v)]) =
    if v.valid && v.sessions != 0 then [{ tenant := t, rate := rate v, weight := v.weight }] else [] := by
  by_cases hv : v = Ledger.zero
  · subst hv; rfl
  · rw [if_neg hv, claims, List.filter_cons, List.filter_nil]
    cases v.valid && v.sessions != 0 <;> rfl

theorem claims_sset {rate : Ledger → Nat} (hm : swf Ledger.zero m = true) (h : SameClaim rate (sget Ledger.zero m t) v) :
    claims rate (sset Ledger.zero m t v) = claims rate m := by
  obtain ⟨hvalid, hsessions, hweight, hrate⟩ := h
  refine Eq.trans ?_ (congrArg (claims rate) (sset_sget hm t))
  simp only [sset, claims_append, claims_single, hvalid, hsessions, hweight, hrate]

end Claims

/-! A loop over ledgers whose body changes the ledger it visits alone. -/
theorem State.ledger_foldl {g : State → Nat → State} {F : Nat → Ledger → Ledger} (hsame : ∀ s t, (g s t).ledger t = F t (s.ledger t))
    (hne : ∀ s t k, k ≠ t → (g s t).ledger k = s.ledger k) {ts : List Nat} (hts : ts.Nodup) {t : Nat} (ht : t ∈ ts) (s : State) :
    (ts.foldl g s).ledger t = F t (s.ledger t) := by
  have hout : ∀ (ts : List Nat) (s : State), t ∉ ts → (ts.foldl g s).ledger t = s.ledger t := by
    intro ts
    induction ts with
    | nil => exact fun _ _ => rfl
    | cons k ts ih =>
      intro s h
      obtain ⟨hk, hts⟩ := List.ne_and_not_mem_of_not_mem_cons h
      rw [List.foldl_cons, ih _ hts, hne _ _ _ hk]
  induction ts generalizing s with
  | nil => exact absurd ht List.not_mem_nil
  | cons k ts ih =>
    obtain ⟨hk, hnodup⟩ := List.nodup_cons.1 hts
    rw [List.foldl_cons]
    rcases List.mem_cons.1 ht with rfl | ht
    · rw [hout ts _ hk, hsame]
    · rw [ih hnodup ht, hne _ _ _ (ne_of_mem_of_not_mem ht hk)]

/-! The parked charge (R326). -/

/-- The parked level after a tick's charge of the pages held. -/
def Ledger.charged (l : Ledger) : Ledger := { l with pkLevel := if l.held = 0 then l.pkLevel else max pkMin (l.pkLevel - l.held) }

section Charge
variable (s : State) (t : Nat)

theorem State.chargeParked_ledger_same : (s.chargeParked t).ledger t = (s.ledger t).charged := by
  unfold State.chargeParked Ledger.charged
  dsimp only
  split
  · rfl
  · split <;> simp

theorem State.chargeParked_ledger_ne {k : Nat} (h : k ≠ t) : (s.chargeParked t).ledger k = s.ledger k := by
  unfold State.chargeParked
  dsimp only
  split
  · rfl
  · split <;> simp [State.setLedger_ledger_ne s _ h]

theorem State.setLedger_ledgers (v : Ledger) : (s.setLedger t v).ledgers = sset Ledger.zero s.ledgers t v := by
  simp [State.setLedger]

theorem State.chargeParked_ledgers (h : swf Ledger.zero s.ledgers = true) :
    (s.chargeParked t).ledgers = sset Ledger.zero s.ledgers t (s.ledger t).charged := by
  unfold State.chargeParked Ledger.charged
  dsimp only
  split
  · exact (sset_sget h t).symm
  · split
    · rw [State.levelSpent_ledgers, State.setLedger_ledgers]
    · exact State.setLedger_ledgers ..

end Charge

/-- The charges of a tick change neither the claims on a capacity nor the capacities. -/
theorem State.foldl_chargeParked {rate : Ledger → Nat} (hrate : ∀ l, rate l.charged = rate l) (ts : List Nat) (s : State)
    (h : swf Ledger.zero s.ledgers = true) : claims rate (ts.foldl State.chargeParked s).ledgers = claims rate s.ledgers := by
  induction ts generalizing s with
  | nil => rfl
  | cons t ts ih =>
    have hledgers := s.chargeParked_ledgers t h
    rw [List.foldl_cons, ih _ (hledgers ▸ swf_sset h), hledgers]
    exact claims_sset h ⟨rfl, rfl, rfl, hrate _⟩

theorem State.foldl_chargeParked_grants {rate : Ledger → Nat} (hrate : ∀ l, rate l.charged = rate l) (ts : List Nat) {s : State}
    (h : swf Ledger.zero s.ledgers = true) (cap : Nat) : (ts.foldl State.chargeParked s).grants cap rate = s.grants cap rate := by
  rw [State.grants_eq, State.grants_eq, State.foldl_chargeParked hrate ts s h]

theorem State.foldl_chargeParked_bal (ts : List Nat) (s : State) : (ts.foldl State.chargeParked s).bal = s.bal := by
  have hframe : Framed false [.ledgers, .parts, .ints, .net] s (ts.foldl State.chargeParked s) :=
    Framed.foldl (fun _ _ h => State.chargeParked_framed rfl h) (Framed.refl s)
  exact (hframe.kept (f := .bal) (by decide)).symm

/-! The refill (R327, R331). -/

/-- A ledger after a tick's refill: a valid one takes its grants. -/
def Ledger.refilled (gi go : List (Nat × Nat)) (t : Nat) (l : Ledger) : Ledger :=
  if l.valid then l.refill (grantOf gi t l.inRate) (grantOf go t l.outRate) else l

/-- A tick's refill of one ledger of the gate. -/
def State.refillOf (gi go : List (Nat × Nat)) (s : State) (t : Nat) : State :=
  let l := s.ledger t
  if l.valid then s.setLedger t (l.refill (grantOf gi t l.inRate) (grantOf go t l.outRate)) else s

theorem State.refillOf_ledger_same (gi go : List (Nat × Nat)) (s : State) (t : Nat) : (s.refillOf gi go t).ledger t = (s.ledger t).refilled gi go t := by
  unfold State.refillOf Ledger.refilled
  dsimp only
  split
  · exact State.setLedger_ledger_same ..
  · rfl

theorem State.refillOf_ledger_ne {gi go : List (Nat × Nat)} {s : State} {t k : Nat} (h : k ≠ t) :
    (s.refillOf gi go t).ledger k = s.ledger k := by
  unfold State.refillOf
  dsimp only
  split
  · exact State.setLedger_ledger_ne s _ h
  · rfl

/-- A tick charges every ledger, then refills every one by the grants before the charge. -/
theorem State.ledgerTick_eq {s : State} (h : swf Ledger.zero s.ledgers = true) : s.ledgerTick =
    (s.ledgers.map (·.1)).foldl (State.refillOf (s.grants s.bal.capIn (·.inRate)) (s.grants s.bal.capOut (·.outRate)))
      ((s.ledgers.map (·.1)).foldl State.chargeParked s) := by
  unfold State.ledgerTick
  dsimp only
  rw [State.foldl_chargeParked_bal, State.foldl_chargeParked_grants (fun _ => rfl) _ h, State.foldl_chargeParked_grants (fun _ => rfl) _ h]
  rfl

/-- Settles O42: a valid ledger is one of the store's, which the two loops of a tick visit once each. -/
theorem ledgerTicks : Obligations.LedgerTicks := by
  unfold Obligations.LedgerTicks
  intro s t l level gi go h hvalid
  have hkeys := swf_keys_nodup h
  have hmem : t ∈ s.ledgers.map (·.1) := mem_keys_of_sget fun hzero => by
    have hl : l = Ledger.zero := hzero
    rw [hl] at hvalid
    exact absurd hvalid (by decide)
  have hcharged : ((s.ledgers.map (·.1)).foldl State.chargeParked s).ledger t = l.charged :=
    State.ledger_foldl (F := fun _ => Ledger.charged) State.chargeParked_ledger_same (fun s t _ => s.chargeParked_ledger_ne t) hkeys hmem s
  rw [State.ledgerTick_eq h, State.ledger_foldl (F := Ledger.refilled gi go) (State.refillOf_ledger_same gi go)
    (fun _ _ _ => State.refillOf_ledger_ne) hkeys hmem, hcharged, Ledger.refilled, if_pos (show l.charged.valid = true from hvalid)]
  rfl

end Sys2Proof.Machine
end

section
/-! SUPPORT. TENANT_SET that clears VALID: the levels it takes to zero raise vector 1 of the tenant's partition (R324, R329, R336). -/
namespace Sys2Proof.Machine

theorem exec_tenantSet_eq (m : Moment) (s : State) : exec (.tenantSet m) s = .next (s.elapse m).onTenantSet := rfl

/-- A tenant command by the owner of its tenant does its act. -/
theorem State.tenantCmd_owner {s : State} {i : Issuer} {ps : List Word} {act : Nat → State} (h : s.ownerOf (bf (wat ps 0) 63 50) = some i.part) :
    s.tenantCmd i ps act = act (bf (wat ps 0) 63 50) := if_pos h

/-- TENANT_SET without VALID, by the tenant's owner and without sessions: the ledger is emptied, and each level that this takes to zero is
an event. -/
theorem State.onTenantSet_clears {s : State} {i : Issuer} {ps : List Word} (h : Starts s 0x20 i ps) (hlen : ps.length = 2)
    (hbits : (stray (wat ps 0) [(63, 41)] || (bit (wat ps 0) 49 && bf (wat ps 0) 48 41 == 0)) = false)
    (howner : s.popPkt.ownerOf (bf (wat ps 0) 63 50) = some i.part) (hidle : (s.popPkt.ledger (bf (wat ps 0) 63 50)).sessions = 0)
    (hclear : bit (wat ps 0) 49 = false) :
    s.onTenantSet = (s.popPkt.setTenant (bf (wat ps 0) 63 50) false (bf (wat ps 0) 48 41) (wat ps 1)).answer i .ok := by
  rw [State.onTenantSet, runCmd_acts h (by decide) rfl (by rw [hlen]; rfl) hbits, State.tenantCmd_owner howner,
    if_neg (fun hne => hne hidle), hclear]

/-- A packet of TENANT_SET that clears VALID of tenant 0. -/
def leavingPacket : Pkt := { part := 0, words := [pack [(0x20, 63, 56), (1, 55, 52), (2, 27, 12)], 0, 0], arrived := 0, fine := 0 }

/-- A gate that has started, partition 0 with the one tenant 0, whose input bucket holds one token; the packet waits over SMP. -/
def leavingTenant : State :=
  { State.reset with
    rs := { ResetU.cold with start := none }
    parts := [(0, { Partn.cold with count := 1 })]
    ledgers := [(0, { Ledger.zero with valid := true, weight := 1, inBurst := 1, inLevel := 1 })]
    cmi := { CmiU.zero with smpVersion := some 1, smpRing := [leavingPacket] } }

/-- The issuer of its packet. -/
def leavingIssuer : Issuer := { op := 0x20, part := 0, tag := 0, smp := true, src := none }

/-- The moment at which no time passes. -/
def atOnce : Moment := { edges := 0, quarters := 0 }

theorem leavingTenant_starts : Starts (leavingTenant.elapse atOnce) 0x20 leavingIssuer [0, 0] := by
  refine ⟨⟨true, leavingPacket, ?_, ?_, rfl, ?_⟩, rfl, .inr (.inr ?_)⟩
  · decide +kernel
  · decide +kernel
  · decide +kernel
  · decide +kernel

/-- Refutes O16: TENANT_SET that clears VALID takes the input level from one to zero, which is an event of vector 1 of the owner (R336), so
partition 0 has an interrupt pending where the statement has none. -/
theorem not_tenantCommands : ¬ Obligations.TenantCommands := by
  unfold Obligations.TenantCommands
  rintro ⟨hset, -⟩
  have howner : (leavingTenant.taken atOnce).ownerOf (bf (wat [0, 0] 0) 63 50) = some leavingIssuer.part := by decide +kernel
  have hidle : ((leavingTenant.taken atOnce).ledger (bf (wat [0, 0] 0) 63 50)).sessions = 0 := by decide +kernel
  have hbits : (stray (wat [0, 0] 0) [(63, 41)] || (bit (wat [0, 0] 0) 49 && bf (wat [0, 0] 0) 48 41 == 0)) = false := by decide +kernel
  have hclear : bit (wat [0, 0] 0) 49 = false := by decide +kernel
  obtain ⟨-, -, -, hsays⟩ := hset atOnce leavingTenant leavingIssuer [0, 0] leavingTenant_starts rfl hbits
  have hstates := hsays howner hidle hclear
  rw [exec_tenantSet_eq, State.onTenantSet_clears leavingTenant_starts rfl hbits howner hidle hclear, Host.Outcome.next.injEq] at hstates
  have hpend := congrArg (fun t : State => (t.part 0).intPend) hstates
  revert hpend
  decide +kernel

end Sys2Proof.Machine
end

section
/-! SUPPORT. The reply: its header field by field, and its words (R348). -/
namespace Sys2Proof.Machine

theorem Status.code_lt (st : Status) : st.code < 2 ^ 8 := by cases st <;> decide

section Header
variable {i : Issuer} {n : Nat} {st : Status}

theorem replyHeader_op (h : i.op < 2 ^ 8) : bf (replyHeader i n st) 63 56 = i.op :=
  (bf_pack (v := i.op) (by simp) (by decide) (by simp)).trans (Nat.mod_eq_of_lt h)

theorem replyHeader_version : bf (replyHeader i n st) 55 52 = 1 := bf_pack (v := 1) (by simp) (by decide) (by simp)

theorem replyHeader_part (h : i.part < 2 ^ 6) : bf (replyHeader i n st) 51 46 = i.part :=
  (bf_pack (v := i.part) (by simp) (by decide) (by simp)).trans (Nat.mod_eq_of_lt h)

theorem replyHeader_tag (h : i.tag < 2 ^ 16) : bf (replyHeader i n st) 43 28 = i.tag :=
  (bf_pack (v := i.tag) (by simp) (by decide) (by simp)).trans (Nat.mod_eq_of_lt h)

theorem replyHeader_length (h : n < 2 ^ 16) : bf (replyHeader i n st) 27 12 = n :=
  (bf_pack (v := n) (by simp) (by decide) (by simp)).trans (Nat.mod_eq_of_lt h)

theorem replyHeader_status : bf (replyHeader i n st) 7 0 = st.code :=
  (bf_pack (v := st.code) (by simp) (by decide) (by simp)).trans (Nat.mod_eq_of_lt st.code_lt)

theorem replyHeader_reserved : bf (replyHeader i n st) 45 44 = 0 ∧ bf (replyHeader i n st) 11 8 = 0 :=
  ⟨bf_pack_gap (by simp), bf_pack_gap (by simp)⟩

end Header

/-- A reply is its header and as many of the result's words as the header says: all where the status is OK, else none. -/
theorem replyWords_eq (i : Issuer) (st : Status) (result : List Word) : replyWords i st result =
    replyHeader i (if st = .ok then result.length else 0) st :: result.take (if st = .ok then result.length else 0) := by
  unfold replyWords
  split <;> simp

/-! Where a reply leaves (R348, R350, R358). -/
section Port
variable {s : State} {i : Issuer} {st : Status} {result : List Word}

theorem State.reply_hrp (hsrc : i.src = none) (hport : i.smp = false) : s.reply i st result = s.putOut 1 i.part false (replyWords i st result) := by
  simp [State.reply, hsrc, hport]

theorem State.reply_smp (hsrc : i.src = none) (hport : i.smp = true) :
    s.reply i st result = { s with cmi := { s.cmi with smpReply := s.cmi.smpReply ++ replyWords i st result } } := by
  simp [State.reply, hsrc, hport]

theorem State.reply_ring {g : Nat} (hsrc : i.src = some g) :
    s.reply i st result = s.sendWords typCmdReply g (if sessionOp i.op then 3 else 4) (replyWords i st result) := by
  simp [State.reply, hsrc]

end Port

/-- Settles O6: the header's fields lie apart, and a reply is put on the port that its issuer names. -/
theorem replyForm : Obligations.ReplyForm := by
  unfold Obligations.ReplyForm
  intro s i st result hop hpart htag hlen
  have hn : (if st = .ok then result.length else 0) < 2 ^ 16 := by split <;> omega
  refine ⟨_, _, rfl, replyWords_eq i st result, replyHeader_op hop, replyHeader_version, replyHeader_part hpart, replyHeader_reserved.1,
    replyHeader_tag htag, replyHeader_length hn, replyHeader_reserved.2, replyHeader_status, ?_, ?_, ?_⟩
  · intro hsrc hport
    rw [State.reply_hrp hsrc hport, replyWords_eq]
    rfl
  · intro hsrc hport
    rw [State.reply_smp hsrc hport, replyWords_eq]
  · intro g hsrc
    rw [State.reply_ring hsrc, replyWords_eq]

end Sys2Proof.Machine
end

section
/-! SUPPORT. The bits of a word outside some fields, and the commands that read (R355, R359, R361, R367, R448, R466, R467, R478). -/
namespace Sys2Proof.Machine

/-- The bits that some fields cover. -/
def coveredBits (fs : List (Nat × Nat)) : Nat := fs.foldl (fun a f => a ||| ((2 ^ (f.1 + 1 - f.2) - 1) <<< f.2)) 0

theorem stray_eq_false {w : Word} {fs : List (Nat × Nat)} : stray w fs = false ↔ w &&& ~~~ word (coveredBits fs) = 0 :=
  decide_eq_false_iff_not.trans Decidable.not_not

/-- A bit that no field covers is clear in a word without stray bits. -/
theorem getLsbD_of_stray {w : Word} {fs : List (Nat × Nat)} {j : Nat} (h : stray w fs = false) (hj : j < 64)
    (hc : (coveredBits fs).testBit j = false) : w.getLsbD j = false := by
  have hbit : (w &&& ~~~ word (coveredBits fs)).getLsbD j = false := by rw [stray_eq_false.1 h]; exact BitVec.getLsbD_zero
  rwa [BitVec.getLsbD_and, BitVec.getLsbD_not, word, BitVec.getLsbD_ofNat, hc, Bool.and_false, Bool.not_false, decide_eq_true hj,
    Bool.and_true, Bool.and_true] at hbit

/-- A field that no field covers reads zero in a word without stray bits. -/
theorem bf_of_stray {w : Word} {fs : List (Nat × Nat)} {hi lo : Nat} (h : stray w fs = false) (hhi : hi < 64)
    (hc : ∀ j, j < hi + 1 - lo → (coveredBits fs).testBit (lo + j) = false) : bf w hi lo = 0 := by
  apply Nat.eq_of_testBit_eq
  intro j
  rw [bf_testBit, Nat.zero_testBit]
  by_cases hj : j < hi + 1 - lo
  · rw [getLsbD_of_stray h (by omega) (hc j hj), Bool.and_false]
  · simp [hj]

/-- More fields leave no more bits astray. -/
theorem stray_mono {w : Word} {fs gs : List (Nat × Nat)} (h : stray w fs = false)
    (hm : ~~~ word (coveredBits fs) &&& ~~~ word (coveredBits gs) = ~~~ word (coveredBits gs)) : stray w gs = false := by
  rw [stray_eq_false] at h ⊢
  rw [← hm, ← BitVec.and_assoc, h]
  exact BitVec.zero_and

section Acts
variable {s : State} {i : Issuer} {w v : Word}

theorem State.onNop_acts (h : Starts s 0x01 i []) : s.onNop = s.popPkt.answer i .ok := runCmd_acts h (by decide) rfl rfl rfl

theorem State.onIdentify_acts (h : Starts s 0x02 i []) : s.onIdentify = (s.popPkt.negotiate i).reply i .ok s.popPkt.identity :=
  runCmd_acts h (by decide) rfl rfl rfl

/-- The version recorded is the transport's (R355). -/
theorem State.negotiate_version (s : State) (i : Issuer) : (s.negotiate i).version i = some 1 := by
  unfold State.negotiate State.version
  split
  · rfl
  · simp

theorem State.onCapsRead_acts (h : Starts s 0x03 i []) : s.onCapsRead = s.popPkt.reply i .ok (gcap s.popPkt.grade) :=
  runCmd_acts h (by decide) rfl rfl rfl

/-! The groups of counters (R361). -/

theorem State.stats_slips (h : bf w 63 56 = 0) : s.stats i w = s.reply i .ok ((s.fsp.ingress ++ s.fsp.egress).map (fun l => word l.slip)) := by
  rw [State.stats, h]
  rfl

theorem State.stats_slipLog (h : bf w 63 56 = 1) : s.stats i w = ({ s with fsp := { s.fsp with slipLog := [], slipOvf := false } } : State).reply i .ok
    (pack [(s.fsp.slipLog.length, 63, 57), (b2n s.fsp.slipOvf, 56, 56)] :: s.fsp.slipLog.flatMap SlipEv.words) := by
  rw [State.stats, h]
  rfl

theorem State.stats_partition (h : bf w 63 56 = 2) : s.stats i w = s.reply i .ok (s.part (bf w 55 50)).counters := by
  rw [State.stats, h]
  rfl

theorem State.stats_corrected (h : bf w 63 56 = 3) : s.stats i w = s.reply i .ok s.trb.ce := by
  rw [State.stats, h]
  rfl

theorem State.stats_refusals (h : bf w 63 56 = 4) : s.stats i w = s.reply i .ok ((s.fsp.fref.take s.grade.regions).map word) := by
  rw [State.stats, h]
  rfl

/-- STATS_READ of a group that its issuer may read, with no bit set that the group does not use (R361). -/
theorem State.onStatsRead_acts (h : Starts s 0x58 i [w]) (hwho : statsWho i [w] = true) (hstray : stray w [(63, 50)] = false)
    (hgroup : bf w 63 56 < 5) (hpart : bf w 63 56 = 2 ∨ bf w 55 50 = 0) : s.onStatsRead = s.popPkt.stats i w := by
  unfold State.onStatsRead
  refine (runCmd_acts h (by decide) hwho rfl ?_).trans rfl
  have hlow : ¬ 5 ≤ bf w 63 56 := by omega
  simpa [wat, hstray, hlow] using hpart.resolve_left

/-- STATS_READ of a group of the gate's own, by partition 0. -/
theorem State.onStatsRead_gate (h : Starts s 0x58 i [w]) (hp0 : i.isP0 = true) (hstray : stray w [(63, 56)] = false) (hgroup : bf w 63 56 < 5) :
    s.onStatsRead = s.popPkt.stats i w := by
  refine State.onStatsRead_acts h ?_ (stray_mono hstray (by decide)) hgroup (.inr (bf_of_stray hstray (by decide) (by decide)))
  simp only [statsWho, hp0, Bool.true_or]
  split
  · rfl
  · split <;> rfl

/-- STATS_READ of a partition's counters, by that partition or by partition 0. -/
theorem State.onStatsRead_partition (h : Starts s 0x58 i [w]) (hwho : i.isP0 = true ∨ i.part = bf w 55 50) (hstray : stray w [(63, 50)] = false)
    (hgroup : bf w 63 56 = 2) : s.onStatsRead = s.popPkt.reply i .ok (s.popPkt.part (bf w 55 50)).counters := by
  rw [State.onStatsRead_acts h (by simpa [statsWho, wat, hgroup] using hwho) hstray (by omega) (.inl hgroup), State.stats_partition hgroup]

theorem State.onTroubleRead_acts (h : Starts s 0x59 i [w]) (hstray : stray w [(63, 47)] = false) (hmin : 1 ≤ bf w 55 47) (hmax : bf w 55 47 ≤ 256) :
    s.onTroubleRead = s.popPkt.reply i .ok
      ([s.popPkt.trb.sticky, 0, s.popPkt.retained logHeaderAt] ++ s.popPkt.logWords (bf w 63 56) (bf w 55 47)) := by
  unfold State.onTroubleRead
  refine (runCmd_acts h (by decide) rfl rfl ?_).trans rfl
  simp [wat, hstray]
  omega

theorem State.onTroubleClear_acts (h : Starts s 0x5A i [w, v]) (hp0 : i.isP0 = true) (hstray : stray w [(30, 0)] = false) (hv : v = 0) :
    s.onTroubleClear = (s.popPkt.clearSticky w).answer i .ok := by
  unfold State.onTroubleClear
  refine (runCmd_acts h (by decide) hp0 rfl ?_).trans rfl
  simp [wat, hstray, hv]

theorem State.clearSticky_sticky (s : State) (w : Word) : (s.clearSticky w).trb.sticky = s.trb.sticky &&& ~~~ w := rfl

theorem State.clearSticky_retained (s : State) (w : Word) {k : Nat} (hmirror : k ≠ 0x10) (htime : k ≠ 0x13) :
    (s.clearSticky w).retained k = s.retained k := by
  unfold State.clearSticky
  rw [State.retained_putRetained, if_neg htime, State.retained_putRetained, if_neg hmirror]
  rfl

theorem State.onAgeReport_acts (h : Starts s 0x5B i []) : s.onAgeReport = s.popPkt.reply i .ok s.popPkt.ageWords := runCmd_acts h (by decide) rfl rfl rfl

theorem State.onImageQuery_acts (h : Starts s 0x32 i []) : s.onImageQuery = s.popPkt.reply i .ok s.popPkt.imageWords :=
  runCmd_acts h (by decide) rfl rfl rfl

end Acts

theorem State.taken_grade (s : State) (m : Moment) : (s.taken m).grade = s.grade := (State.popPkt_keeps (s.elapse_kept m)).grade

/-- Settles O9: each row does its act on the state that its packet has left. -/
theorem reads : Obligations.Reads := by
  unfold Obligations.Reads
  refine ⟨fun m s i => ⟨?_, ?_, ?_⟩, fun m s i w v => ⟨?_, ?_, ?_, ?_, ?_, ?_⟩⟩
  · exact fun h => congrArg _ (State.onNop_acts h)
  · exact fun h => ⟨_, congrArg _ (State.onIdentify_acts h), State.negotiate_version _ i, rfl⟩
  · intro h
    rw [← s.taken_grade m]
    exact congrArg _ (State.onCapsRead_acts h)
  · intro h hp0 hstray
    have hstats (n : Nat) (hn : n < 5) (hgroup : bf w 63 56 = n) :
        exec (.statsRead m) s = .next ((s.taken m).stats i w) :=
      congrArg _ (State.onStatsRead_gate h hp0 hstray (hgroup ▸ hn))
    refine ⟨fun hg => ?_, fun hg => ⟨_, ?_, rfl⟩, fun hg => ?_, fun hg => ?_⟩
    · rw [hstats 0 (by decide) hg, State.stats_slips hg]
    · rw [hstats 1 (by decide) hg, State.stats_slipLog hg]
    · rw [hstats 3 (by decide) hg, State.stats_corrected hg]
    · rw [hstats 4 (by decide) hg, State.stats_refusals hg]
  · exact fun h hwho hstray hg => congrArg _ (State.onStatsRead_partition h hwho hstray hg)
  · exact fun h hstray hmin hmax => congrArg _ (State.onTroubleRead_acts h hstray hmin hmax)
  · exact fun h hp0 hstray hv => ⟨_, congrArg _ (State.onTroubleClear_acts h hp0 hstray hv), State.clearSticky_sticky _ w,
      fun k => State.clearSticky_retained _ w, rfl, rfl⟩
  · exact fun h => congrArg _ (State.onAgeReport_acts h)
  · exact fun h => congrArg _ (State.onImageQuery_acts h)

end Sys2Proof.Machine
end

section
/-! SUPPORT. The frame of the commands of HRP and SMP (R359, R426). -/
namespace Sys2Proof.Machine

/-- A row of the interpreter answers a next state, in which only the parts that it names differ from those of its moment, unless a reset is
asserted. -/
theorem exec_command_framed (s : State) : ∀ c : Instr, c.opcode.isSome = true → ∃ t, exec c s = .next t ∧ Framed true (touches c) (s.moved c) t
  | .nop _, _ => ⟨_, rfl, State.onNop_framed rfl (.refl _)⟩
  | .identify _, _ => ⟨_, rfl, State.onIdentify_framed rfl (.refl _)⟩
  | .capsRead _, _ => ⟨_, rfl, State.onCapsRead_framed rfl (.refl _)⟩
  | .sessionOpen _, _ => ⟨_, rfl, State.onSessionOpen_framed rfl (.refl _)⟩
  | .sessionFeed _, _ => ⟨_, rfl, State.onSessionFeed_framed rfl (.refl _)⟩
  | .sessionClose _, _ => ⟨_, rfl, State.onSessionClose_framed rfl (.refl _)⟩
  | .sessionCancel _, _ => ⟨_, rfl, State.onSessionCancel_framed rfl (.refl _)⟩
  | .sessionPark _, _ => ⟨_, rfl, State.onSessionPark_framed rfl (.refl _)⟩
  | .sessionResume _, _ => ⟨_, rfl, State.onSessionResume_framed rfl (.refl _)⟩
  | .sessionQuery _ _, _ => ⟨_, rfl, State.onSessionQuery_framed rfl (.refl _)⟩
  | .stopSet _, _ => ⟨_, rfl, State.onStopSet_framed rfl (.refl _)⟩
  | .draftResolve _, _ => ⟨_, rfl, State.onDraftResolve_framed rfl (.refl _)⟩
  | .tenantSet _, _ => ⟨_, rfl, State.onTenantSet_framed rfl (.refl _)⟩
  | .budgetGrant _, _ => ⟨_, rfl, State.onBudgetGrant_framed rfl (.refl _)⟩
  | .budgetRead _, _ => ⟨_, rfl, State.onBudgetRead_framed rfl (.refl _)⟩
  | .prefixPublish _, _ => ⟨_, rfl, State.onPrefixPublish_framed rfl (.refl _)⟩
  | .prefixDrop _, _ => ⟨_, rfl, State.onPrefixDrop_framed rfl (.refl _)⟩
  | .adapterLoad _, _ => ⟨_, rfl, State.onAdapterLoad_framed rfl (.refl _)⟩
  | .tierScrub _, _ => ⟨_, rfl, State.onTierScrub_framed rfl (.refl _)⟩
  | .tierStatus _, _ => ⟨_, rfl, State.onTierStatus_framed rfl (.refl _)⟩
  | .imageCommit _, _ => ⟨_, rfl, State.onImageCommit_framed rfl (.refl _)⟩
  | .imageQuery _, _ => ⟨_, rfl, State.onImageQuery_framed rfl (.refl _)⟩
  | .modePrepare _, _ => ⟨_, rfl, State.onModePrepare_framed rfl (.refl _)⟩
  | .modeCommit _, _ => ⟨_, rfl, State.onModeCommit_framed rfl (.refl _)⟩
  | .modeAbort _, _ => ⟨_, rfl, State.onModeAbort_framed rfl (.refl _)⟩
  | .schedulePin _, _ => ⟨_, rfl, State.onSchedulePin_framed rfl (.refl _)⟩
  | .timeSet _, _ => ⟨_, rfl, State.onTimeSet_framed rfl (.refl _)⟩
  | .timeAdjust _, _ => ⟨_, rfl, State.onTimeAdjust_framed rfl (.refl _)⟩
  | .timeQuery _, _ => ⟨_, rfl, State.onTimeQuery_framed rfl (.refl _)⟩
  | .partitionConfig _, _ => ⟨_, rfl, State.onPartitionConfig_framed rfl (.refl _)⟩
  | .partitionReset _, _ => ⟨_, rfl, State.onPartitionReset_framed rfl (.refl _)⟩
  | .regionReset _, _ => ⟨_, rfl, State.onRegionReset_framed rfl (.refl _)⟩
  | .gateReset _, _ => ⟨_, rfl, State.onGateReset_framed rfl (.refl _)⟩
  | .jobRestart _, _ => ⟨_, rfl, State.onJobRestart_framed rfl (.refl _)⟩
  | .pairTwin _, _ => ⟨_, rfl, State.onPairTwin_framed rfl (.refl _)⟩
  | .unpairTwin _, _ => ⟨_, rfl, State.onUnpairTwin_framed rfl (.refl _)⟩
  | .statsRead _, _ => ⟨_, rfl, State.onStatsRead_framed rfl (.refl _)⟩
  | .troubleRead _, _ => ⟨_, rfl, State.onTroubleRead_framed rfl (.refl _)⟩
  | .troubleClear _, _ => ⟨_, rfl, State.onTroubleClear_framed rfl (.refl _)⟩
  | .ageReport _, _ => ⟨_, rfl, State.onAgeReport_framed rfl (.refl _)⟩

/-- Settles O58: each row changes only the parts it names, or asserts a reset. -/
theorem commandFrames : Obligations.CommandFrames := by
  unfold Obligations.CommandFrames
  intro c s t f hop hexec hreset hf
  obtain ⟨u, hu, hframed⟩ := exec_command_framed s c hop
  cases hu.symm.trans hexec
  exact hframed.out hreset hf

end Sys2Proof.Machine
end

section
/-! SUPPORT. IMAGE_LOAD in its three phases: the packet that a row takes, and what each phase does to the load (R281, R282, R363 to R366). -/
namespace Sys2Proof.Machine

/-- A packet of a phase that the row is for, which passes every check, does its act. -/
theorem runLoad_acts {s : State} {i : Issuer} {ps : List Word} {phases : List Nat} {act : Issuer → List Word → State → State}
    (h : Starts s 0x30 i ps) (hphase : phases.contains (phaseOf ps) = true) (hp0 : i.isP0 = true) (hlen : loadLen ps = some ps.length)
    (hbad : loadBad ps = false) : s.runLoad phases act = act i ps s.popPkt := by
  have hacts := runCmd_acts (act := act) (who := onlyP0) h (by decide) hp0 hlen hbad
  obtain ⟨⟨smp, k, hnext, rfl, rfl, -⟩, hop, -⟩ := h
  have hlisted := refuseUnknown_listed hnext (by rw [hop]; decide) s.pktCount
  simp only [State.runLoad, hlisted, hnext]
  rw [if_pos hphase, hacts]

/-! The three rows. -/
section Rows
variable {s : State} {i : Issuer} {ps : List Word} (hp0 : i.isP0 = true) (hbad : loadBad ps = false) (hlen : loadLen ps = some ps.length)
  (h : Starts s 0x30 i ps)
include hp0 hbad hlen h

theorem State.onImageLoadBegin_acts (hphase : phaseOf ps = 0) : s.onImageLoadBegin = s.popPkt.loadBegin i ps :=
  runLoad_acts h (by rw [hphase]; decide) hp0 hlen hbad

theorem State.onImageLoadData_acts (hphase : phaseOf ps = 1) : s.onImageLoadData = s.popPkt.loadData i ps :=
  runLoad_acts h (by rw [hphase]; decide) hp0 hlen hbad

theorem State.onImageLoadEnd_acts (hphase : phaseOf ps = 2) : s.onImageLoadEnd = s.popPkt.loadEnd i ps :=
  runLoad_acts h (by rw [hphase]; decide) hp0 hlen hbad

end Rows

/-! BEGIN (R364, R365). -/
section Begin
variable {p : State} {i : Issuer} {ps : List Word} {g : Img}

theorem State.loadBegin_busy (h : p.loadOpen = false ∨ p.img.load = .committing ∨ p.img.retiring ≠ none) : p.loadBegin i ps = p.answer i .busy := by
  unfold State.loadBegin
  rw [if_pos]
  rcases h with h | h | h
  · simp [h]
  · simp [h]
  · simp [Option.isSome_iff_ne_none.2 h]

/-- The load idle, with what it held and its count of rows dropped (R364). -/
def State.loadEmptied (s : State) : State := { s with img := { s.img with load := .idle, loading := none, rowsIn := 0 } }

variable (hopen : p.loadOpen = true) (hload : p.img.load ≠ .committing) (hretiring : p.img.retiring = none)
include hopen hload hretiring

theorem State.loadBegin_begins (hg : imgOfBegin p.grade (ps.drop 1) (p.img.gen + 1) = some g) (hgood : p.beginGood (ps.drop 1) g = true) :
    p.loadBegin i ps =
      ({ p with img := { p.img with load := .loading, loading := some g, rowsIn := 0, gen := p.img.gen + 1 } } : State).answer i .ok := by
  unfold State.loadBegin
  rw [if_neg (by simp [hopen, hload, hretiring])]
  dsimp only
  split
  case h_1 hnone => cases hg.symm.trans hnone
  case h_2 g' hsome =>
    cases hg.symm.trans hsome
    exact if_pos hgood

theorem State.loadBegin_unformed (hg : imgOfBegin p.grade (ps.drop 1) (p.img.gen + 1) = none) :
    p.loadBegin i ps = p.loadEmptied.answer i .badImage := by
  unfold State.loadBegin
  rw [if_neg (by simp [hopen, hload, hretiring])]
  dsimp only
  split
  case h_1 => rfl
  case h_2 g' hsome => cases hg.symm.trans hsome

theorem State.loadBegin_bad (hg : imgOfBegin p.grade (ps.drop 1) (p.img.gen + 1) = some g) (hgood : p.beginGood (ps.drop 1) g = false) :
    p.loadBegin i ps = p.loadEmptied.answer i .badImage := by
  unfold State.loadBegin
  rw [if_neg (by simp [hopen, hload, hretiring])]
  dsimp only
  split
  case h_1 hnone => cases hg.symm.trans hnone
  case h_2 g' hsome =>
    cases hg.symm.trans hsome
    exact if_neg (by rw [Bool.not_eq_true]; exact hgood)

end Begin

/-! DATA (R363 to R365). -/

/-- Rows of a packet stored and counted. -/
def State.rowsStored (s : State) (row n : Nat) (ws : List Word) : State :=
  { s.putRows row n ws with img := { (s.putRows row n ws).img with rowsIn := s.img.rowsIn + n } }

theorem State.rowsStored_mem (s : State) (row n : Nat) (ws : List Word) : (s.rowsStored row n ws).mem = s.mem.putWords (8 * row) ws := rfl

theorem State.rowsStored_img (s : State) (row n : Nat) (ws : List Word) : (s.rowsStored row n ws).img.rowsIn = s.img.rowsIn + n ∧
    (s.rowsStored row n ws).img.load = s.img.load ∧ (s.rowsStored row n ws).img.loading = s.img.loading ∧
    (s.rowsStored row n ws).img.force = s.img.force := ⟨rfl, rfl, rfl, rfl⟩

theorem State.rowsStored_leaves (s : State) (row n : Nat) (ws : List Word) :
    (s.rowsStored row n ws).hdl = s.hdl ∧ (s.rowsStored row n ws).entries = s.entries := ⟨rfl, rfl⟩

section Data
variable {p : State} {i : Issuer} {ps : List Word} {g : Img}

theorem State.loadData_busy (h : p.img.load ≠ .loading) : p.loadData i ps = p.answer i .busy := by
  unfold State.loadData
  split
  · exact absurd ‹_› h
  · rfl

variable (hload : p.img.load = .loading) (hloading : p.img.loading = some g)
include hload hloading

theorem State.loadData_unusable (h : (g.handle (bf (wat ps 0) 61 52)).valid = false ∨ (g.handle (bf (wat ps 0) 61 52)).gate = true ∨
    (g.handle (bf (wat ps 0) 61 52)).bound < bf (wat ps 0) 51 28 + bf (wat ps 0) 27 19) : p.loadData i ps = p.dropLoad.answer i .badImage := by
  simp only [State.loadData, hload, hloading]
  exact if_pos (by rcases h with h | h | h <;> simp [h])

variable (hvalid : (g.handle (bf (wat ps 0) 61 52)).valid = true) (hown : (g.handle (bf (wat ps 0) 61 52)).gate = false)
  (hroom : bf (wat ps 0) 51 28 + bf (wat ps 0) 27 19 ≤ (g.handle (bf (wat ps 0) 61 52)).bound)
include hvalid hown hroom

/-- DATA of rows none of which lies in a lease. -/
theorem State.loadData_stores (hfree : ∀ k, k < bf (wat ps 0) 27 19 →
      p.leaseHolds ((g.handle (bf (wat ps 0) 61 52)).base + bf (wat ps 0) 51 28 + k) = false) :
    p.loadData i ps =
      (p.rowsStored ((g.handle (bf (wat ps 0) 61 52)).base + bf (wat ps 0) 51 28) (bf (wat ps 0) 27 19) (ps.drop 1)).answer i .ok := by
  have hnone : (List.range (bf (wat ps 0) 27 19)).find? (fun k =>
      p.leaseHolds ((g.handle (bf (wat ps 0) 61 52)).base + bf (wat ps 0) 51 28 + k)) = none := by
    rw [List.find?_eq_none]
    intro k hk
    rw [hfree k (List.mem_range.1 hk)]
    decide
  simp only [State.loadData, hload, hloading]
  rw [if_neg (by simp [hvalid, hown, hroom])]
  split
  case h_1 k hsome => cases hnone.symm.trans hsome
  case h_2 => rfl

/-- DATA with a row in a lease: a conflict, and the load dropped. -/
theorem State.loadData_conflicts {k : Nat} (hk : k < bf (wat ps 0) 27 19)
    (hheld : p.leaseHolds ((g.handle (bf (wat ps 0) 61 52)).base + bf (wat ps 0) 51 28 + k) = true) : ∃ o,
    p.loadData i ps = (p.loadConflict (g.handle (bf (wat ps 0) 61 52)) (bf (wat ps 0) 61 52) o).dropLoad.answer i .badImage := by
  simp only [State.loadData, hload, hloading]
  rw [if_neg (by simp [hvalid, hown, hroom])]
  split
  case h_1 j _ => exact ⟨_, rfl⟩
  case h_2 hnone => exact absurd hheld (List.find?_eq_none.1 hnone k (List.mem_range.2 hk))

end Data

/-- A conflict of the load path sets its sticky bit, and changes neither the load nor memory nor the table (R281). -/
theorem State.loadConflict_leaves (s : State) (d : Handle) (h o : Nat) : (s.loadConflict d h o).img = s.img ∧ (s.loadConflict d h o).mem = s.mem ∧
    (s.loadConflict d h o).entries = s.entries ∧ bit (s.loadConflict d h o).trb.sticky 12 = true := by
  have hbit : bit (s.trouble .handleConflict 6 (Obj.ssm h o) none 0).trb.sticky 12 = true := by
    rw [State.trouble_sticky, bit, BitVec.getLsbD_or]
    simp [word, Sticky.idx]
  unfold State.loadConflict
  dsimp only
  split
  · exact ⟨by simp, by simp, by simp, hbit⟩
  · exact ⟨by simp, by simp, by simp, by rw [State.raise_trb]; exact hbit⟩

/-! END (R271, R282, R364, R366). -/

/-- The replicas written: memory replica by replica, and of the image unit only the write-backs that wait. -/
theorem State.foldl_putRows (g : Img) (reps : List (Nat × Nat × List Word)) (s : State) : ∃ backs,
    reps.foldl (fun s x => s.putRows (g.handle x.1).base x.2.1 x.2.2) s =
      { s with mem := reps.foldl (fun a x => a.putWords (8 * (g.handle x.1).base) x.2.2) s.mem, img := { s.img with writeBacks := backs } } := by
  induction reps generalizing s with
  | nil => exact ⟨_, rfl⟩
  | cons x reps ih =>
    obtain ⟨backs, h⟩ := ih (s.putRows (g.handle x.1).base x.2.1 x.2.2)
    exact ⟨backs, h⟩

section End
variable {p : State} {i : Issuer} {ps : List Word} {g : Img}

theorem State.loadEnd_busy (h : p.img.load ≠ .loading) : p.loadEnd i ps = p.answer i .busy := by
  unfold State.loadEnd
  split
  · exact absurd ‹_› h
  · rfl

/-- The image that END finds when a CRC is given only for a count of clusters that the image has (R366). -/
def State.endChecked (s : State) (g : Img) (ps : List Word) : Eval Img :=
  if (imgC8 (wat g.hdr 0) || bf (wat ps 1) 63 32 == 0) && (imgC4 (wat g.hdr 0) || bf (wat ps 1) 31 0 == 0) then
    s.loadChecked g (bf (wat ps 1) 63 32) (bf (wat ps 1) 31 0)
  else .error (.bound 0 0)

variable (hload : p.img.load = .loading) (hloading : p.img.loading = some g)
include hload hloading

/-- An image that passes every check, with no replica in the way of a lease. -/
theorem State.loadEnd_loads {g1 : Img} {reps : List (Nat × Nat × List Word)} (hchecked : p.endChecked g ps = .ok g1)
    (hreps : p.replicas g = .ok reps) (hfree : reps.all (fun x => (p.replConflict g x).isNone) = true) : ∃ t : State,
    p.loadEnd i ps = t.answer i .ok ∧ t.mem = reps.foldl (fun a x => a.putWords (8 * (g.handle x.1).base) x.2.2) p.mem ∧
      t.img.load = .loaded ∧ t.img.loading = some g1 ∧ t.img.force = p.img.force ∧ t.hdl = p.hdl ∧ t.entries = p.entries := by
  have hnone : reps.findSome? (fun x => (p.replConflict g x).map (fun k => (x.1, k))) = none := by
    rw [List.findSome?_eq_none_iff]
    intro x hx
    rw [Option.map_eq_none_iff]
    simpa using List.all_eq_true.1 hfree x hx
  obtain ⟨backs, hput⟩ := State.foldl_putRows g reps p
  unfold State.endChecked at hchecked
  refine ⟨{ p with mem := reps.foldl (fun a x => a.putWords (8 * (g.handle x.1).base) x.2.2) p.mem,
                   img := { p.img with writeBacks := backs, load := .loaded, loading := some g1 } }, ?_, rfl, rfl, rfl, rfl, rfl, rfl⟩
  simp only [State.loadEnd, hload, hloading, hchecked, hreps, hnone, hput]

/-- Every other image drops the load. -/
theorem State.loadEnd_drops (h : (∃ x, p.endChecked g ps = .error x) ∨ (∃ x, p.replicas g = .error x) ∨
      ∃ reps, p.replicas g = .ok reps ∧ reps.any (fun x => (p.replConflict g x).isSome) = true) :
    ∃ t : State, p.loadEnd i ps = t.dropLoad.answer i .badImage ∧ t.img = p.img ∧ t.mem = p.mem ∧ t.entries = p.entries := by
  have hdropped : ∃ t : State, p.dropLoad.answer i .badImage = t.dropLoad.answer i .badImage ∧ t.img = p.img ∧ t.mem = p.mem ∧ t.entries = p.entries :=
    ⟨p, rfl, rfl, rfl, rfl⟩
  simp only [State.loadEnd, hload, hloading]
  split
  case h_1 g1 reps hchecked hreps =>
    split
    case h_1 x _ =>
      obtain ⟨himg, hmem, hentries, -⟩ := p.loadConflict_leaves (g.handle x.1) x.1 x.2
      exact ⟨_, rfl, himg, hmem, hentries⟩
    case h_2 hnone =>
      rcases h with ⟨x, h⟩ | ⟨x, h⟩ | ⟨reps', h, hany⟩
      · cases h.symm.trans hchecked
      · cases h.symm.trans hreps
      · cases h.symm.trans hreps
        obtain ⟨x, hx, hsome⟩ := List.any_eq_true.1 hany
        have hfree := List.findSome?_eq_none_iff.1 hnone x hx
        rw [Option.map_eq_none_iff] at hfree
        rw [hfree] at hsome
        cases hsome
  case h_2 => exact hdropped

end End

/-- Settles O20: each phase, in each case of its checks, is one of the equations above. -/
theorem imageLoads : Obligations.ImageLoads := by
  unfold Obligations.ImageLoads
  intro m s i ps g p idle h o n d c8 c4 named hp0 hbad hlen hstarts
  have hbegin (hphase : phaseOf ps = 0) := State.onImageLoadBegin_acts hp0 hbad hlen hstarts hphase
  have hdata (hphase : phaseOf ps = 1) := State.onImageLoadData_acts hp0 hbad hlen hstarts hphase
  have hend (hphase : phaseOf ps = 2) := State.onImageLoadEnd_acts hp0 hbad hlen hstarts hphase
  refine ⟨?_, ?_, ?_, ?_, ?_, ?_, ?_⟩
  · intro hphase hopen hload hretiring
    refine ⟨fun hg hgood => congrArg _ ((hbegin hphase).trans (State.loadBegin_begins hopen hload hretiring hg hgood)), ?_⟩
    rintro (hg | ⟨hg, hgood⟩)
    · exact congrArg _ ((hbegin hphase).trans (State.loadBegin_unformed hopen hload hretiring hg))
    · exact congrArg _ ((hbegin hphase).trans (State.loadBegin_bad hopen hload hretiring hg hgood))
  · exact fun hphase hshut => congrArg _ ((hbegin hphase).trans (State.loadBegin_busy hshut))
  · intro hphase hload hloading hvalid hown hroom
    refine ⟨fun hfree => ?_, fun ⟨k, hk, hheld⟩ => ?_⟩
    · obtain ⟨hrows, hload', hloading', hforce⟩ := p.rowsStored_img (d.base + o) n (ps.drop 1)
      exact ⟨_, congrArg Host.Outcome.next ((hdata hphase).trans (State.loadData_stores hload hloading hvalid hown hroom hfree)),
        State.rowsStored_mem .., hrows, hload'.trans hload, hloading'.trans hloading, hforce, State.rowsStored_leaves ..⟩
    · obtain ⟨at', hconflict⟩ := State.loadData_conflicts (i := i) hload hloading hvalid hown hroom hk hheld
      obtain ⟨himg, hmem, -, hbit⟩ := p.loadConflict_leaves d h at'
      refine ⟨_, congrArg Host.Outcome.next ((hdata hphase).trans hconflict), ?_, hmem, hbit⟩
      exact congrArg (fun u : ImageU => { u with load := .idle, loading := none }) himg
  · exact fun hphase hload hloading hunusable => congrArg _ ((hdata hphase).trans (State.loadData_unusable hload hloading hunusable))
  · intro g1 reps hphase hload hloading hnamed hchecked hreps hfree
    obtain ⟨t, hloads, hleaves⟩ := State.loadEnd_loads (i := i) hload hloading ((if_pos hnamed).trans hchecked) hreps hfree
    exact ⟨t, congrArg Host.Outcome.next ((hend hphase).trans hloads), hleaves⟩
  · intro hphase hload hloading hfails
    have hchecks : (∃ x, p.endChecked g ps = .error x) ∨ (∃ x, p.replicas g = .error x) ∨
        ∃ reps, p.replicas g = .ok reps ∧ reps.any (fun x => (p.replConflict g x).isSome) = true := by
      rcases hfails with hnamed | ⟨x, hx⟩ | hfails
      · exact .inl ⟨_, if_neg (Bool.eq_false_iff.1 hnamed)⟩
      · refine .inl ?_
        unfold State.endChecked
        split
        · exact ⟨x, hx⟩
        · exact ⟨_, rfl⟩
      · exact .inr hfails
    obtain ⟨t, hdrops, himg, hmem, hentries⟩ := State.loadEnd_drops (i := i) hload hloading hchecks
    refine ⟨_, congrArg Host.Outcome.next ((hend hphase).trans hdrops), ?_, hmem, hentries⟩
    exact congrArg (fun u : ImageU => { u with load := .idle, loading := none }) himg
  · exact fun hload => ⟨fun hphase => congrArg _ ((hdata hphase).trans (State.loadData_busy hload)),
      fun hphase => congrArg _ ((hend hphase).trans (State.loadEnd_busy hload))⟩

end Sys2Proof.Machine
end

section
/-! SUPPORT. A commit begun and a commit ended by the coordinator: what each leaves (R336, R360, R364, R403). -/
namespace Sys2Proof.Machine

/-! `State.raiseAll` changes the partitions and the interrupt messages alone. -/
section RaiseAll
variable (s : State) (v : Nat)

theorem State.raiseAll_only : Framed false [.parts, .ints] s (s.raiseAll v) := State.raiseAll_framed rfl (.refl s)

@[simp] theorem State.raiseAll_entries : (s.raiseAll v).entries = s.entries := ((s.raiseAll_only v).kept (f := .entries) (by decide)).symm
@[simp] theorem State.raiseAll_img : (s.raiseAll v).img = s.img := ((s.raiseAll_only v).kept (f := .img) (by decide)).symm
@[simp] theorem State.raiseAll_com : (s.raiseAll v).com = s.com := ((s.raiseAll_only v).kept (f := .com) (by decide)).symm
@[simp] theorem State.raiseAll_bal : (s.raiseAll v).bal = s.bal := ((s.raiseAll_only v).kept (f := .bal) (by decide)).symm
@[simp] theorem State.raiseAll_net : (s.raiseAll v).net = s.net := ((s.raiseAll_only v).kept (f := .net) (by decide)).symm
@[simp] theorem State.raiseAll_role : (s.raiseAll v).role = s.role := ((s.raiseAll_only v).kept (f := .role) (by decide)).symm
@[simp] theorem State.raiseAll_hrpOut : (s.raiseAll v).hrpOut = s.hrpOut := ((s.raiseAll_only v).kept (f := .hrpOut) (by decide)).symm

end RaiseAll

/-! A message sent fills queues: the wiring stays. -/

/-- What the registers say of the ring: this gate's configuration and its routes (R389, R391). -/
def NetU.wiring (n : NetU) : Word × List (Nat × Word) := (n.cfg, n.routes)

theorem State.queueOn_wiring (s : State) (l c : Nat) (it : Item) : (s.queueOn l c it).net.wiring = s.net.wiring := by
  unfold State.queueOn
  split <;> rfl

theorem State.bcast_wiring (s : State) (t c : Nat) (ws : List Word) : (s.bcast t c ws).net.wiring = s.net.wiring := by
  unfold State.bcast
  split
  · rename_i hon
    clear hon
    generalize s.links = ls
    induction ls generalizing s with
    | nil => rfl
    | cons l ls ih => rw [List.foldl_cons, ih, State.queueOn_wiring]
  · rfl

/-- Whether every member has acknowledged is read from the routes and the gate's number. -/
theorem State.allAcked_of_wiring {s t : State} (h : t.net.wiring = s.net.wiring) (c : Coord) : t.allAcked c = s.allAcked c := by
  obtain ⟨hcfg, hroutes⟩ := Prod.ext_iff.1 h
  change t.net.cfg = s.net.cfg at hcfg
  change t.net.routes = s.net.routes at hroutes
  simp only [State.allAcked, State.members, State.gate, hcfg, hroutes]

/-! The change of a commit staged. -/
section Stage
variable (s : State) (t : Staged)

theorem State.stageChange_com : (s.stageChange t).com = { s.com with staged := some { t with acked := true } } := by
  unfold State.stageChange
  cases t.kind <;> simp

theorem State.stageChange_img : (s.stageChange t).img = if t.kind = .image then { s.img with load := .committing } else s.img := by
  unfold State.stageChange
  cases t.kind <;> simp

theorem State.stageChange_leaves : (s.stageChange t).net = s.net ∧ (s.stageChange t).bal = s.bal ∧ (s.stageChange t).hrpOut = s.hrpOut ∧
    (s.stageChange t).entries = s.entries := by
  unfold State.stageChange
  cases t.kind <;> simp

end Stage

/-! The change of a commit given up. -/
section Unstage
variable (s : State) (k : Kind)

theorem State.unstage_com : (s.unstage k).com = { s.com with staged := none } := by
  unfold State.unstage State.countAbort
  cases k <;> simp
  split <;> rfl

theorem State.unstage_img : (s.unstage k).img = if k = .image ∧ s.img.load = .committing then { s.img with load := .loaded } else s.img := by
  unfold State.unstage State.countAbort
  cases k <;> simp
  split <;> rfl

theorem State.unstage_leaves : (s.unstage k).net = s.net ∧ (s.unstage k).bal.active = s.bal.active ∧ (s.unstage k).bal.pinned = s.bal.pinned ∧
    (s.unstage k).hrpOut = s.hrpOut ∧ (s.unstage k).entries = s.entries ∧ (s.unstage k).role = s.role := by
  unfold State.unstage State.countAbort
  cases k <;> simp
  split <;> simp

end Unstage

/-! The commit in progress ended by the coordinator: ABORT on every link, and the change given up. -/

/-- The commit given up, its replies still to end. -/
def State.commitEnded (s : State) (c : Coord) : State :=
  let s1 := (s.bcast typAbort 1 [targetWord c.target]).unstage c.kind
  { s1 with com := { s1.com with coord := none } }

section Ended
variable (s : State) (c : Coord)

theorem State.abortCommit_eq {s : State} {c : Coord} (h : s.com.coord = some c) (st : Status) :
    s.abortCommit st = (s.commitEnded c).answerAll (c.replies ++ c.prepare.toList) st := by
  unfold State.abortCommit
  rw [h]
  rfl

theorem State.commitEnded_com : (s.commitEnded c).com = { s.com with staged := none, coord := none } := by
  simp [State.commitEnded, State.unstage_com]

theorem State.commitEnded_img : (s.commitEnded c).img = if c.kind = .image ∧ s.img.load = .committing then { s.img with load := .loaded } else s.img := by
  simp [State.commitEnded, State.unstage_img]

theorem State.commitEnded_leaves : (s.commitEnded c).net = (s.bcast typAbort 1 [targetWord c.target]).net ∧
    (s.commitEnded c).bal.active = s.bal.active ∧ (s.commitEnded c).bal.pinned = s.bal.pinned ∧ (s.commitEnded c).entries = s.entries ∧
    (s.commitEnded c).role = s.role := by
  obtain ⟨hnet, hactive, hpinned, -, hentries, hrole⟩ := State.unstage_leaves (s.bcast typAbort 1 [targetWord c.target]) c.kind
  exact ⟨hnet, hactive.trans (by simp), hpinned.trans (by simp), hentries.trans (by simp), hrole.trans (by simp)⟩

end Ended

/-! A commit begun by the coordinator: PREPARE on every link, and its own check (R403). -/

/-- The coordinator's side of a commit of a change that has just begun. -/
def Staged.coord (t : Staged) (replies : List Issuer) (prepare : Option Issuer) (pin : Option Nat) : Coord :=
  { kind := t.kind, target := t.target, acks := [], modeCommit := false, decided := false, going := false, replies := replies,
    prepare := prepare, pin := pin }

/-- PREPARE sent and the coordinator's side on record. -/
def State.prepareSent (s : State) (t : Staged) (c : Coord) : State :=
  let s1 := s.bcast typPrepare 1 (preparePayload t)
  { s1 with com := { s1.com with coord := some c } }

/-- PREPARE sent, the change staged here and the coordinator's side on record. -/
def State.commitBegun (s : State) (t : Staged) (c : Coord) : State :=
  let s1 := (s.bcast typPrepare 1 (preparePayload t)).stageChange t
  { s1 with com := { s1.com with coord := some c } }

section Begun
variable (s : State) (t : Staged) (c : Coord)

theorem State.commitBegun_com : (s.commitBegun t c).com = { s.com with staged := some { t with acked := true }, coord := some c } := by
  simp [State.commitBegun, State.stageChange_com]

theorem State.commitBegun_img : (s.commitBegun t c).img = if t.kind = .image then { s.img with load := .committing } else s.img := by
  simp [State.commitBegun, State.stageChange_img]

theorem State.commitBegun_leaves : (s.commitBegun t c).net = (s.bcast typPrepare 1 (preparePayload t)).net ∧ (s.commitBegun t c).bal = s.bal ∧
    (s.commitBegun t c).hrpOut = s.hrpOut ∧ (s.commitBegun t c).entries = s.entries := by
  obtain ⟨hnet, hbal, hout, hentries⟩ := State.stageChange_leaves (s.bcast typPrepare 1 (preparePayload t)) t
  exact ⟨hnet, hbal.trans (by simp), hout.trans (by simp), hentries.trans (by simp)⟩

theorem State.commitBegun_allAcked : (s.commitBegun t c).allAcked c = s.allAcked c :=
  State.allAcked_of_wiring (by rw [(s.commitBegun_leaves t c).1, State.bcast_wiring]) c

variable {s t c}

theorem State.prepareDone_unprepared (hc : s.com.coord = some c) (hp : c.prepare = none) : s.prepareDone = s := by
  have hsame : ({ c with prepare := none } : Coord) = c := by cases c; simp_all
  have hcom : ({ s.com with coord := some c } : CommitU) = s.com := by rw [← hc]
  unfold State.prepareDone
  rw [hc]
  dsimp only
  rw [hsame, hcom, hp]
  split <;> rfl

theorem State.prepareDone_waits (hc : s.com.coord = some c) (h : s.allAcked c = false) : s.prepareDone = s := by
  unfold State.prepareDone
  rw [hc]
  exact if_neg (by rw [h]; decide)

theorem State.prepareDone_acked {i : Issuer} (hc : s.com.coord = some c) (hp : c.prepare = some i) (h : s.allAcked c = true) :
    s.prepareDone = ({ s with com := { s.com with coord := some { c with prepare := none } } } : State).answer i .ok := by
  unfold State.prepareDone
  rw [hc]
  dsimp only
  rw [if_pos h, hp]
  rfl

variable {replies : List Issuer} {prepare : Option Issuer} {pin : Option Nat}

/-- A commit whose change passes the coordinator's own check. -/
theorem State.startCommit_staged (h : s.stageCheck t = none) :
    s.startCommit t replies prepare pin = (s.commitBegun t (t.coord replies prepare pin)).prepareDone := by
  unfold State.startCommit
  rw [h]
  rfl

/-- A commit whose change fails the coordinator's own check is aborted, its status answered. -/
theorem State.startCommit_refused {st : Status} (h : s.stageCheck t = some st) :
    s.startCommit t replies prepare pin =
      ((s.prepareSent t (t.coord replies prepare pin)).commitEnded (t.coord replies prepare pin)).answerAll (replies ++ prepare.toList) st := by
  unfold State.startCommit
  rw [h]
  exact State.abortCommit_eq rfl st

end Begun

/-- What a commit that is refused at its start leaves: nothing staged, none in progress, and but for the count of aborts what there was. -/
theorem State.refused_leaves (s : State) (t : Staged) (c : Coord) (hload : c.kind = .image → s.img.load ≠ .committing) :
    ((s.prepareSent t c).commitEnded c).com.staged = none ∧ ((s.prepareSent t c).commitEnded c).com.coord = none ∧
    ((s.prepareSent t c).commitEnded c).img = s.img ∧ ((s.prepareSent t c).commitEnded c).bal.active = s.bal.active ∧
    ((s.prepareSent t c).commitEnded c).bal.pinned = s.bal.pinned ∧ ((s.prepareSent t c).commitEnded c).entries = s.entries := by
  obtain ⟨-, hactive, hpinned, hentries, -⟩ := (s.prepareSent t c).commitEnded_leaves c
  have himg : (s.prepareSent t c).img = s.img := State.bcast_img ..
  refine ⟨by rw [State.commitEnded_com], by rw [State.commitEnded_com], ?_, hactive.trans ?_, hpinned.trans ?_, hentries.trans ?_⟩
  · rw [State.commitEnded_img, himg, if_neg fun hk => hload hk.1 hk.2]
  all_goals simp [State.prepareSent]

end Sys2Proof.Machine
end

section
/-! SUPPORT. The commands that order a commit: who acts on them, and what each does at the coordinator (R344, R357, R360, R367, R402). -/
namespace Sys2Proof.Machine

/-- A packet that starts came over HRP or SMP. -/
theorem Starts.src {s : State} {op : Nat} {i : Issuer} {ps : List Word} (h : Starts s op i ps) : i.src = none := by
  obtain ⟨smp, k, -, rfl, -⟩ := h.packet
  rfl

/-! Where a command for the coordinator goes. -/
section ToCoord
variable {s : State} {i : Issuer} {ps : List Word} {act : State → Nat → State}

theorem State.toCoord_acts (hc : s.isCoord = true) : s.toCoord i ps act = act s (s.tickAt s.cmi.arrival) := by
  simp [State.toCoord, hc]

/-- A command that may hold a second reply of its kind: MODE_ABORT, and SCHEDULE_PIN without PIN. -/
def clearsOrder (i : Issuer) (ps : List Word) : Bool := i.op == 0x3A || (i.op == 0x3B && !bit (wat ps 0) 63)

theorem State.toCoord_forwards (hc : s.isCoord = false) (h : s.heldHere i.op = false ∨ clearsOrder i ps = true) :
    s.toCoord i ps act = s.forward s.coordGate (cmdHeader i ps.length :: ps) i none := by
  change (if !s.isCoord && s.heldHere i.op && !clearsOrder i ps then _ else _) = _
  rcases h with h | h <;> simp [h, hc]

theorem State.toCoord_held (hc : s.isCoord = false) (h : s.heldHere i.op = true) (hclears : clearsOrder i ps = false) :
    s.toCoord i ps act = s.answer i .busy := by
  change (if !s.isCoord && s.heldHere i.op && !clearsOrder i ps then _ else _) = _
  simp [h, hc, hclears]

/-- A command forwarded is kept, unanswered. -/
theorem State.forward_fwds (s : State) (dst : Nat) (ws : List Word) (i : Issuer) (slot : Option Nat) :
    (s.forward dst ws i slot).cmi.fwds = s.cmi.fwds ++ [{ issuer := i, dst := dst, slot := slot, since := s.now }] := by
  simp [State.forward]

end ToCoord

/-! The rows, once the packet has passed its checks. -/
section Rows
variable {s : State} {i : Issuer} {w : Word} (hp0 : i.isP0 = true)
include hp0

theorem State.onImageCommit_acts (h : Starts s 0x31 i [w]) (hs : stray w [(63, 20)] = false) :
    s.onImageCommit = s.popPkt.toCoord i [w] (fun s n => s.imageCommit i [w] n) := runCmd_acts h (by decide) hp0 rfl hs

theorem State.onModePrepare_acts (h : Starts s 0x38 i [w]) (hs : stray w [(63, 20)] = false) :
    s.onModePrepare = s.popPkt.toCoord i [w] (fun s n => s.modePrepare i [w] n) := runCmd_acts h (by decide) hp0 rfl hs

theorem State.onModeCommit_acts (h : Starts s 0x39 i [w]) (hs : stray w [(63, 20)] = false) :
    s.onModeCommit = s.popPkt.toCoord i [w] (fun s n => s.modeCommit i [w] n) := runCmd_acts h (by decide) hp0 rfl hs

theorem State.onModeAbort_acts (h : Starts s 0x3A i [w]) (hs : stray w [(63, 20)] = false) :
    s.onModeAbort = s.popPkt.toCoord i [w] (fun s n => s.modeAbort i [w] n) := runCmd_acts h (by decide) hp0 rfl hs

theorem State.onSchedulePin_acts (h : Starts s 0x3B i [w]) (hs : stray w [(63, 59)] = false) :
    s.onSchedulePin = s.popPkt.toCoord i [w] (fun s n => s.schedulePin i [w] n) := runCmd_acts h (by decide) hp0 rfl hs

end Rows

/-! Each command at the coordinator. -/
section Coordinator
variable {p : State} {i : Issuer} {w : Word} {now : Nat}

theorem State.imageCommit_starts {g : Img} (hfree : p.commitFree = true) (hlead : now + 3 ≤ bf w 63 20) (hload : p.img.load = .loaded)
    (himg : p.img.loading = some g) : p.imageCommit i [w] now = p.startCommit
      { kind := .image, target := bf w 63 20, imageId := g.id, crc8 := g.crc8, crc4 := g.crc4, variant := 0, roles := 0, go := false,
        acked := false } [i] none none := by
  have hlate : ¬ (bf w 63 20 < now + 3 ∨ p.commitFree = false) := by simp [hfree]; omega
  simp only [State.imageCommit, State.imageChange, hload, himg]
  exact if_neg hlate

theorem State.modePrepare_starts (hfree : p.commitFree = true) (hlead : now + 3 ≤ bf w 63 20) :
    p.modePrepare i [w] now = p.startCommit (p.modeChange (bf w 63 20)) [] (some i) none := by
  have hlate : ¬ (bf w 63 20 < now + 3 ∨ p.commitFree = false) := by simp [hfree]; omega
  exact if_neg hlate

theorem State.modeCommit_joins {c : Coord} (hc : p.com.coord = some c) (hk : c.kind = .mode) (ht : c.target = bf w 63 20)
    (hlead : now + 2 < bf w 63 20) (hnew : c.modeCommit = false) (hopen : c.decided = false) : p.modeCommit i [w] now =
      { p with com := { p.com with coord := some { c with modeCommit := true, replies := c.replies ++ [i] } } } := by
  simp only [State.modeCommit, hc]
  exact if_pos ⟨hk, ht, ht ▸ hlead, hnew, hopen⟩

theorem State.modeAbort_ends {c : Coord} (hc : p.com.coord = some c) (ht : c.target = bf w 63 20) (hlead : now + 2 ≤ bf w 63 20)
    (hopen : c.decided = false ∨ c.going = true) : p.modeAbort i [w] now =
      ((p.commitEnded c).answerAll (c.replies ++ c.prepare.toList) .busy).answer i .ok := by
  simp only [State.modeAbort, hc]
  rw [if_pos ⟨ht, ht ▸ hlead, hopen⟩, State.abortCommit_eq hc]

/-- SCHEDULE_PIN of a variant of the contract in force while no commit is in progress. -/
theorem State.schedulePin_pins {f : Img} (hf : p.img.force = some f) (hpin : bit w 63 = true) (hv : bf w 62 59 < f.contract.variants)
    (hfree : p.commitFree = true) : p.schedulePin i [w] now =
      if bf w 62 59 = p.bal.active then ({ p with bal := { p.bal with pinned := true } } : State).pinDone i
      else p.startCommit (variantChange (bf w 62 59) (now + f.meter.lead)) [i] none (some (bf w 62 59)) := by
  have hin : ¬ f.contract.variants ≤ bf w 62 59 := by omega
  simp [State.schedulePin, wat, hpin, hf, hin, hfree]

theorem State.schedulePin_clears (hpin : bit w 63 = false) : p.schedulePin i [w] now =
    ({ p with bal := { p.bal with pinned := false, out := 0, since := 0 },
              com := { p.com with coord := p.com.coord.map (fun c : Coord => { c with pin := none }) } } : State).pinDone i := by
  simp [State.schedulePin, wat, hpin]

theorem State.pinDone_here (hsrc : i.src = none) : p.pinDone i = (p.raiseAll 5).answer i .ok := by
  simp [State.pinDone, hsrc]

end Coordinator

/-! What the commits that the commands start leave. -/
section Started
variable {p : State} {t : Staged} {i : Issuer} {st : Status} {pin : Option Nat}

/-- A commit whose reply is held until it ends, of a change that passes the coordinator's check. -/
theorem State.startCommit_holds (h : p.stageCheck t = none) :
    p.startCommit t [i] none pin = p.commitBegun t (t.coord [i] none pin) := by
  rw [State.startCommit_staged h]
  exact State.prepareDone_unprepared (by rw [State.commitBegun_com]) rfl

/-- A commit of a change that the coordinator refuses, its one reply held or to be given at the acknowledgements, ends with its status. -/
theorem State.startCommit_answers (rs : List Issuer) (pre : Option Issuer) (pin : Option Nat) (h : p.stageCheck t = some st) (hone : rs ++ pre.toList = [i])
    (hload : t.kind = .image → p.img.load ≠ .committing) : ∃ u : State, p.startCommit t rs pre pin = u.answer i st ∧ u.com.staged = none ∧
      u.com.coord = none ∧ u.img = p.img ∧ u.bal.active = p.bal.active ∧ u.bal.pinned = p.bal.pinned ∧ u.entries = p.entries := by
  refine ⟨_, ?_, p.refused_leaves t (t.coord rs pre pin) hload⟩
  rw [State.startCommit_refused h, hone]
  rfl

/-- MODE_PREPARE of a change that passes the coordinator's check: answered at once where this gate is the only one, else held. -/
theorem State.startCommit_prepares (h : p.stageCheck t = none) : p.startCommit t [] (some i) none =
    if p.members.all (fun g => g == p.gate) then (p.commitBegun t (t.coord [] none none)).answer i .ok
    else p.commitBegun t (t.coord [] (some i) none) := by
  have hacked : (p.commitBegun t (t.coord [] (some i) none)).allAcked (t.coord [] (some i) none) = p.members.all (fun g => g == p.gate) := by
    rw [State.commitBegun_allAcked]
    simp [State.allAcked, Staged.coord]
  have hcoord : (p.commitBegun t (t.coord [] (some i) none)).com.coord = some (t.coord [] (some i) none) := by rw [State.commitBegun_com]
  rw [State.startCommit_staged h]
  split
  case isTrue halone =>
    rw [State.prepareDone_acked hcoord rfl (hacked.trans halone)]
    rfl
  case isFalse halone => exact State.prepareDone_waits hcoord (hacked.trans (Bool.eq_false_iff.2 halone))

end Started

/-- A row that gives its command to the coordinator, on another gate: forwarded, or refused while one of its kind is held. -/
theorem exec_toCoord_other {c : Instr} {m : Moment} {s : State} {i : Issuer} {w : Word} {act : State → Nat → State} {op : Nat}
    (hrow : exec c s = .next ((s.taken m).toCoord i [w] act)) (hc : (s.taken m).isCoord = false) (hop : i.op = op) (hkind : op ≠ 0x3A ∧ op ≠ 0x3B) :
    ((s.taken m).heldHere op = false → exec c s = .next ((s.taken m).forward (s.taken m).coordGate [cmdHeader i 1, w] i none)) ∧
    ((s.taken m).heldHere op = true → exec c s = .next ((s.taken m).answer i .busy)) := by
  subst hop
  rw [hrow]
  exact ⟨fun h => congrArg _ (State.toCoord_forwards hc (.inl h)),
    fun h => congrArg _ (State.toCoord_held hc h (by simp [clearsOrder, hkind]))⟩

/-- Settles O21: on another gate each row forwards its command or finds one held; at the coordinator each is one of the equations above. -/
theorem commitOrders : Obligations.CommitOrders := by
  unfold Obligations.CommitOrders
  refine ⟨fun m s i w => ?_, fun m s i w => ?_⟩
  · intro p fwd hp0 hc
    refine ⟨⟨State.forward_fwds .., by simp [fwd], by simp [fwd], by simp [fwd], by simp [fwd]⟩, fun h hs => ?_, fun h hs => ?_, fun h hs => ?_,
      fun h hs => ?_, fun h hs => ?_⟩
    · exact exec_toCoord_other (congrArg _ (State.onImageCommit_acts hp0 h hs)) hc h.opcode (by decide)
    · exact exec_toCoord_other (congrArg _ (State.onModePrepare_acts hp0 h hs)) hc h.opcode (by decide)
    · exact exec_toCoord_other (congrArg _ (State.onModeCommit_acts hp0 h hs)) hc h.opcode (by decide)
    · exact congrArg _ ((State.onModeAbort_acts hp0 h hs).trans (State.toCoord_forwards hc (.inr (by simp [clearsOrder, h.opcode]))))
    · have hrow := State.onSchedulePin_acts hp0 h hs
      refine ⟨fun hfree => congrArg _ (hrow.trans (State.toCoord_forwards hc ?_)),
        fun hheld hpin => congrArg _ (hrow.trans (State.toCoord_held hc (h.opcode.symm ▸ hheld) ?_))⟩
      · exact hfree.imp (h.opcode.symm ▸ ·) fun hpin => by simp [clearsOrder, wat, h.opcode, hpin]
      · simp [clearsOrder, wat, h.opcode, hpin]
  · intro p now target v begun alone hp0 hc
    refine ⟨fun g h hs hfree hlead hload himg => ?_, fun h hs hfree hlead => ?_, fun c h hs hcoord hk ht hlead hnew hopen => ?_,
      fun c h hs hcoord ht hlead hopen => ?_, fun f h hs hf hpin hv hfree => ?_, fun h hs hpin => ?_⟩
    · intro c
      have hrow := (State.onImageCommit_acts hp0 h hs).trans
        ((State.toCoord_acts hc).trans (State.imageCommit_starts hfree hlead hload himg))
      refine ⟨fun hcheck => ⟨_, congrArg Host.Outcome.next (hrow.trans (State.startCommit_holds hcheck)), ?_⟩,
        fun st hcheck => ?_⟩
      · obtain ⟨hnet, -, hout, hentries⟩ := p.commitBegun_leaves c (c.coord [i] none none)
        exact ⟨by rw [State.commitBegun_com], by rw [State.commitBegun_com]; rfl, by rw [State.commitBegun_img]; rfl, hout, hnet, hentries⟩
      · obtain ⟨u, hu, hstaged, hcoord, himg', -, -, hentries⟩ :=
          State.startCommit_answers [i] none none hcheck rfl (fun _ => by rw [hload]; decide)
        exact ⟨u, congrArg _ (hrow.trans hu), hstaged, hcoord, himg', hentries⟩
    · have hrow := (State.onModePrepare_acts hp0 h hs).trans ((State.toCoord_acts hc).trans (State.modePrepare_starts hfree hlead))
      refine ⟨fun hcheck => ?_, fun st hcheck => ?_⟩
      · refine ⟨p.commitBegun (p.modeChange target) ((p.modeChange target).coord [] (if alone then none else some i) none), ?_, ?_⟩
        · refine congrArg _ (hrow.trans ((State.startCommit_prepares hcheck).trans ?_))
          change (if alone = true then _ else _) = _
          split <;> rfl
        · obtain ⟨-, -, hout, hentries⟩ :=
            p.commitBegun_leaves (p.modeChange target) ((p.modeChange target).coord [] (if alone then none else some i) none)
          exact ⟨by rw [State.commitBegun_com], by rw [State.commitBegun_com]; rfl, by rw [State.commitBegun_img]; rfl, hout, hentries⟩
      · obtain ⟨u, hu, hstaged, hcoord, himg', -, -, hentries⟩ := State.startCommit_answers [] (some i) none hcheck rfl (fun hk => by cases hk)
        exact ⟨u, congrArg _ (hrow.trans hu), hstaged, hcoord, himg', hentries⟩
    · exact congrArg _ ((State.onModeCommit_acts hp0 h hs).trans ((State.toCoord_acts hc).trans
        (State.modeCommit_joins hcoord hk ht hlead hnew hopen)))
    · refine ⟨p.commitEnded c, congrArg _ ((State.onModeAbort_acts hp0 h hs).trans ((State.toCoord_acts hc).trans
        (State.modeAbort_ends hcoord ht hlead hopen))), ?_⟩
      obtain ⟨hnet, -, -, hentries, -⟩ := p.commitEnded_leaves c
      exact ⟨by rw [State.commitEnded_com], by rw [State.commitEnded_com], hnet, State.commitEnded_img .., hentries⟩
    · have hrow := (State.onSchedulePin_acts hp0 h hs).trans ((State.toCoord_acts hc).trans (State.schedulePin_pins hf hpin hv hfree))
      refine ⟨fun hactive => ?_, fun hother hcheck => ?_, fun st hother hcheck => ?_⟩
      · rw [if_pos hactive, State.pinDone_here h.src] at hrow
        exact congrArg _ hrow
      · rw [if_neg hother] at hrow
        refine ⟨_, congrArg Host.Outcome.next (hrow.trans (State.startCommit_holds hcheck)), ?_⟩
        obtain ⟨-, hbal, hout, hentries⟩ := p.commitBegun_leaves (variantChange v (now + f.meter.lead))
          ((variantChange v (now + f.meter.lead)).coord [i] none (some v))
        exact ⟨by rw [State.commitBegun_com], by rw [State.commitBegun_com]; rfl, hbal, hout, hentries⟩
      · rw [if_neg hother] at hrow
        obtain ⟨u, hu, hstaged, hcoord, -, hactive, hpinned, hentries⟩ :=
          State.startCommit_answers [i] none (some v) hcheck rfl (fun hk => by cases hk)
        exact ⟨u, congrArg _ (hrow.trans hu), hstaged, hcoord, hactive, hpinned, hentries⟩
    · have hrow := (State.onSchedulePin_acts hp0 h hs).trans ((State.toCoord_acts hc).trans (State.schedulePin_clears hpin))
      rw [State.pinDone_here h.src] at hrow
      exact ⟨_, congrArg _ hrow, rfl, rfl, rfl, rfl⟩

end Sys2Proof.Machine
end

section
/-! SUPPORT. What the operations on a session leave of a commit's surroundings: the messages held for the commit, the images and the load, and
the periods of the lanes (R44, R367, R399). -/
namespace Sys2Proof.Machine

/-- The parts of the state that have no share in what `Steady` speaks of. -/
def steadyParts : List Field :=
  [.tm, .rs, .trb, .entries, .edge, .home, .slots, .ledgers, .parts, .ints, .cmi, .mem, .hdl, .com, .bal, .tier, .clk, .role, .roleShadow, .denied,
   .misformed, .blocked, .hrpOut, .fspOut, .tap]

/-- From `z` to `s` no message was held or released, the images stayed, and every lane kept its period. -/
structure Steady (z s : State) : Prop where
  held : s.net.heldMsgs = z.net.heldMsgs
  images : { s.img with writeBacks := [] } = { z.img with writeBacks := [] }
  periods : ∀ eg l, (s.laneAt eg l).period = (z.laneAt eg l).period

namespace Steady
variable {z s t : State}

theorem refl (s : State) : Steady s s := ⟨rfl, rfl, fun _ _ => rfl⟩

theorem trans (h : Steady z s) (k : Steady s t) : Steady z t :=
  ⟨k.held.trans h.held, k.images.trans h.images, fun eg l => (k.periods eg l).trans (h.periods eg l)⟩

/-- Operations on other parts of the state. -/
theorem framed (k : Framed false steadyParts s t) (h : Steady z s) : Steady z t := by
  have hnet := k.kept (f := .net) (by decide)
  have himg := k.kept (f := .img) (by decide)
  have hfsp : t.fsp = s.fsp := (k.kept (f := .fsp) (by decide)).symm
  refine h.trans ⟨congrArg NetU.heldMsgs hnet.symm, congrArg (fun u : ImageU => { u with writeBacks := [] }) himg.symm, fun eg l => ?_⟩
  cases eg <;> simp [State.laneAt, State.outLaneAt, State.inLaneAt, hfsp]

theorem force (h : Steady z s) : s.img.force = z.img.force := by simpa using congrArg ImageU.force h.images

theorem ite {p : Prop} [Decidable p] {a b : State} (ha : Steady z a) (hb : Steady z b) : Steady z (if p then a else b) := by
  split
  · exact ha
  · exact hb

theorem foldl {α : Type} {g : State → α → State} (hg : ∀ {z s : State} {x}, Steady z s → Steady z (g s x)) {l : List α} :
    ∀ {s : State}, Steady z s → Steady z (l.foldl g s) := by
  induction l with
  | nil => exact id
  | cons x l ih => exact fun h => ih (hg h)

end Steady

/-! Each operation below keeps what a state before it had kept; its proof follows the operation's own steps. -/
section
variable {z s : State} {slot l n : Nat}

theorem Steady.setEdge {x : EdgeAux} (h : Steady z s) : Steady z (s.setEdge slot x) := h.framed (State.setEdge_framed rfl (.refl _))
theorem Steady.setHome {x : HomeAux} (h : Steady z s) : Steady z (s.setHome slot x) := h.framed (State.setHome_framed rfl (.refl _))
theorem Steady.setSlot {x : SlotAux} (h : Steady z s) : Steady z (s.setSlot slot x) := h.framed (State.setSlot_framed rfl (.refl _))
theorem Steady.raise {p v : Nat} (h : Steady z s) : Steady z (s.raise p v) := h.framed (State.raise_framed rfl (.refl _))
theorem Steady.freeExtents {es : List Nat} (h : Steady z s) : Steady z (s.freeExtents es) := h.framed (State.freeExtents_framed rfl (.refl _))

/-! What is sent, and what is mirrored. -/
theorem Steady.queueOn {link cls : Nat} {it : Item} (h : Steady z s) : Steady z (s.queueOn link cls it) :=
  .ite h (h.trans ⟨rfl, rfl, fun _ _ => rfl⟩)

theorem Steady.sendTo {typ dst cls : Nat} {ws : List Word} (h : Steady z s) : Steady z (s.sendTo typ dst cls ws) := by
  unfold State.sendTo
  split
  · split
    · exact h.queueOn
    · exact h
  · exact h

theorem Steady.sendWords {typ dst cls : Nat} {ws : List Word} (h : Steady z s) : Steady z (s.sendWords typ dst cls ws) := by
  unfold State.sendWords
  split
  · split
    · exact .foldl .queueOn h
    · exact h
  · exact h

theorem Steady.answer {i : Issuer} {st : Status} (h : Steady z s) : Steady z (s.answer i st) := by
  unfold State.answer State.reply
  split
  · exact h.sendWords
  · split
    · exact h.trans ⟨rfl, rfl, fun _ _ => rfl⟩
    · exact h.framed (State.putOut_framed rfl (.refl _))

theorem Steady.mirrorPut {ws : List (Nat × Nat × Word)} (h : Steady z s) : Steady z (s.mirrorPut ws) :=
  .ite (h.trans ⟨rfl, rfl, fun _ _ => rfl⟩) h

theorem Steady.setEntry {e : Entry} (h : Steady z s) : Steady z (s.setEntry slot e) :=
  (h.mirrorPut (ws := changedWords 0 (16 * slot) (s.entry slot).words e.words)).trans ⟨rfl, rfl, fun _ _ => rfl⟩

theorem Steady.setLedger {t : Nat} {v : Ledger} (h : Steady z s) : Steady z (s.setLedger t v) :=
  (h.mirrorPut (ws := changedWords 1 (8 * t) (s.ledger t).words v.words)).trans ⟨rfl, rfl, fun _ _ => rfl⟩

theorem Steady.countRejected (h : Steady z s) : Steady z (s.countRejected slot n) := h.setEntry

theorem Steady.freeEntry (h : Steady z s) : Steady z (s.freeEntry slot) :=
  (Steady.ite h h.setLedger).setEntry.setEdge.setHome.setSlot

/-! Memory and the history records. -/
theorem Steady.putMem {a : Nat} {ws : List Word} (h : Steady z s) : Steady z (s.putMem a ws) := h.trans ⟨rfl, rfl, fun _ _ => rfl⟩

theorem Steady.setHashRec {r : HashRec} (h : Steady z s) : Steady z (s.setHashRec slot r) := h.putMem

theorem Steady.hashToken {tok : Nat} (h : Steady z s) : Steady z (s.hashToken slot tok) :=
  .ite h (.ite h.setHashRec.setHome h.setHashRec)

/-! The step rings. -/
theorem Steady.closeOut (h : Steady z s) : Steady z (s.closeOut slot) :=
  .ite h h.putMem.setEntry

theorem Steady.resolveOut (h : Steady z s) : Steady z (s.resolveOut slot) :=
  .ite (h.setEntry.trans ⟨rfl, rfl, fun _ _ => rfl⟩) h.setEntry

theorem Steady.endStepRing (h : Steady z s) : Steady z (s.endStepRing slot) :=
  Steady.resolveOut (s := (s.closeOut slot).readOut slot) h.closeOut.setEntry

theorem Steady.closeStep (h : Steady z s) : Steady z (s.closeStep slot) := h.endStepRing.setEntry.setEdge

theorem Steady.rejectDrafts (h : Steady z s) : Steady z (s.rejectDrafts slot) :=
  .ite h.closeStep.countRejected h

theorem Steady.homeDropDrafts (h : Steady z s) : Steady z (s.homeDropDrafts slot) := by
  have hring : Steady z (if (s.homeAt slot).mark then s.endStepRing slot else s) := .ite h.endStepRing h
  exact .ite hring.setHome hring.setEntry.setHome

/-! The lanes: a control word queued, and the slots of an operation that is given up. -/
theorem Steady.control {w : Word} (h : Steady z s) : Steady z (s.control slot w) := by
  have htold : Steady z (s.tell slot [w]) := h.framed (State.tell_framed rfl (.refl _))
  unfold State.control State.queueControl
  dsimp only
  split
  · exact htold.trans ⟨rfl, rfl, fun _ _ => rfl⟩
  · exact htold.trans ⟨rfl, rfl, fun _ _ => rfl⟩

/-- A lane with other dead slots. -/
theorem period_set_dead {lanes : List Lane} {l k : Nat} {dead : List Dead} :
    ((lanes.set l { lanes.getD l Lane.zero with dead := dead }).getD k Lane.zero).period = (lanes.getD k Lane.zero).period := by
  simp only [List.getD_eq_getElem?_getD, List.getElem?_set]
  split
  case isTrue heq =>
    subst heq
    split
    · rfl
    · rw [List.getElem?_eq_none (by omega)]
  case isFalse => rfl

theorem Steady.deadOp {o : TierOp} {slips counted : Bool} (h : Steady z s) : Steady z (s.deadOp o slips counted) := by
  unfold State.deadOp
  dsimp only
  split
  · refine h.trans ⟨rfl, rfl, fun eg _ => ?_⟩
    cases eg with
    | false => rfl
    | true => exact period_set_dead
  · refine h.trans ⟨rfl, rfl, fun eg _ => ?_⟩
    cases eg with
    | false => exact period_set_dead
    | true => rfl

/-! The tier's operations. -/
theorem Steady.freeSlice {tenant : Option Nat} {head pages : Nat} (h : Steady z s) : Steady z (s.freeSlice tenant head pages) := by
  unfold State.freeSlice State.freeList
  split
  · exact h.trans ⟨rfl, rfl, fun _ _ => rfl⟩
  · dsimp only
    split
    · exact h.freeExtents.setLedger
    · exact h.freeExtents

theorem Steady.freeOpPages {o : TierOp} (h : Steady z s) : Steady z (s.freeOpPages o) := by
  unfold State.freeOpPages
  dsimp only
  split
  · exact h.freeExtents.setLedger
  · exact h.freeExtents.setLedger
  · exact h.freeExtents

theorem Steady.dirPut {i : Nat} {d : Option DirEnt} (h : Steady z s) : Steady z (s.dirPut i d) :=
  .ite (h.trans ⟨rfl, rfl, fun _ _ => rfl⟩) h.putMem

theorem Steady.dirDrop {i : Nat} {d : DirEnt} (h : Steady z s) : Steady z (s.dirDrop i d) :=
  .ite h.dirPut.freeSlice h.dirPut

theorem Steady.endOp {o : TierOp} (h : Steady z s) : Steady z (s.endOp o) := by
  unfold State.endOp
  have hbooked {tier : TierU} : Steady z { s with tier := tier } := h.trans ⟨rfl, rfl, fun _ _ => rfl⟩
  exact (Steady.foldl .dirDrop (Steady.foldl .freeSlice hbooked)).trans ⟨rfl, rfl, fun _ _ => rfl⟩

theorem Steady.dropOps (h : Steady z s) : Steady z (s.dropOps slot) := .foldl (fun h => h.freeOpPages.deadOp.endOp) h

/-! The end of a stream. -/
theorem Steady.closeDone (h : Steady z s) : Steady z (s.closeDone slot) := by
  have hfreed : Steady z ((s.dropOps slot).freeEntry slot) := h.dropOps.freeEntry
  unfold State.closeDone
  dsimp only
  split
  · exact (Steady.foldl .answer (.ite hfreed hfreed.answer)).answer
  · exact .foldl .answer (.ite hfreed hfreed.answer)

theorem Steady.homeStreamEnd {length old : Nat} {r : Stop} (h : Steady z s) : Steady z (s.homeStreamEnd slot length r old) :=
  have hended := (Steady.ite h.setHashRec h).homeDropDrafts.setEntry.setHome
  .ite hended.closeDone hended

theorem Steady.endStreamTo {r : Stop} {length out : Nat} (h : Steady z s) : Steady z (s.endStreamTo slot r length out) :=
  have htold := (Steady.setEntry h.rejectDrafts).setEdge.control
  have hraised := Steady.ite htold.raise htold
  .ite hraised.homeStreamEnd (.ite hraised.sendTo.freeEntry hraised.sendTo)

/-! What the home does with a resolution. -/
theorem Steady.edgeStep {ckpt : Bool} (h : Steady z s) : Steady z (s.edgeStep slot ckpt) :=
  .ite (.ite h.setEdge.setEntry h.setEdge) h

theorem Steady.decideStep (h : Steady z s) : Steady z (s.decideStep slot) := by
  unfold State.decideStep
  dsimp only
  split
  · split
    · exact h.setEntry.setHome.edgeStep
    · exact h.setHome.edgeStep
  · split
    · exact h.setEntry.setHome.sendTo
    · exact h.setHome.sendTo

theorem Steady.sendVerdict {v : Verdict} (h : Steady z s) : Steady z (s.sendVerdict slot v) := by
  have hnoted : Steady z (s.noteAnomalies slot v.nan v.degraded) := h.framed (State.noteAnomalies_framed rfl (.refl _))
  exact .ite (hnoted.framed (State.edgeVerdict_framed rfl (.refl _))) hnoted.sendTo

theorem Steady.sendTurn {no pos : Nat} (h : Steady z s) : Steady z (s.sendTurn slot no pos) := by
  unfold State.sendTurn
  dsimp only
  split
  · exact h
  · exact h.setHome.sendVerdict

theorem Steady.settleHome (h : Steady z s) : Steady z (State.settleHome n s slot) := by
  induction n generalizing s with
  | zero => exact h
  | succ n ih =>
    unfold State.settleHome
    dsimp only
    split
    · exact h
    · split
      · refine ih (Steady.setHome ?_)
        split
        · exact h.setEntry
        · exact h
      · split
        · split
          · exact h
          · exact ih h.setHome.sendTurn
        · exact h
      · split
        · exact h.decideStep
        · exact h

theorem Steady.homeResolve {chain pos outBefore image stamp : Nat} (h : Steady z s) :
    Steady z (s.homeResolve slot chain n pos outBefore image stamp) :=
  Steady.settleHome ((Steady.foldl .hashToken h.setHome).framed (State.pushWork_framed rfl (.refl _)))

theorem Steady.tellResolve {chain pos outBefore stamp : Nat} (h : Steady z s) : Steady z (s.tellResolve slot chain n pos outBefore stamp) :=
  .ite h.homeResolve h.sendTo

/-- A step that resolves with nothing accepted. -/
theorem Steady.resolveStep_none {c stamp : Nat} (h : Steady z s) : Steady z (s.resolveStep slot c 0 stamp).1 := by
  have hnone : truncatePrefix (s.entry slot) ((s.edgeAt slot).accepted c 0) 0 = [] := by
    simp [EdgeAux.accepted, truncatePrefix]
  unfold State.resolveStep
  simp only [if_true, hnone, List.any_nil, Bool.false_eq_true, if_false, State.commitDrafts]
  exact h.closeStep.countRejected.setEdge.tellResolve

/-! What an image commit does to the sessions. -/
theorem Steady.sessionAtCommit (h : Steady z s) : Steady z (s.sessionAtCommit slot) := by
  have hresolved : Steady z (if (s.edgeAt slot).mark then (s.resolveStep slot 0 0 s.fine).1 else s) := .ite h.resolveStep_none h
  exact .ite hresolved.endStreamTo hresolved

theorem Steady.firstCommit (h : Steady z s) : Steady z (s.firstCommit slot) :=
  .ite h (.ite h.setEntry.setHashRec.setHome h.setEntry)

theorem Steady.newDelay {i : Img} (h : Steady z s) : Steady z (s.newDelay i slot) :=
  .ite h.setEntry h

end

end Sys2Proof.Machine
end

section
/-! SUPPORT. The decision on a commit, its taking effect, and the image before it (R341, R360, R367, R399, R403). -/
namespace Sys2Proof.Machine

theorem exec_commitGoDecision_eq (m : Moment) (s : State) : exec (.commitGoDecision m) s = .next (s.elapse m).onCommitGoDecision := rfl
theorem exec_commitTakeEffect_eq (m : Moment) (s : State) : exec (.commitTakeEffect m) s = .next (s.elapse m).onCommitTakeEffect := rfl
theorem exec_imageRetire_eq (m : Moment) (s : State) : exec (.imageRetire m) s = .next (s.elapse m).onImageRetire := rfl

/-- The coordinator's decision to go, on record; GO has yet to leave. -/
def State.decidedToGo (s : State) (c : Coord) : State := { s with com := { s.com with coord := some { c with decided := true, going := true } } }

/-! The decision (R360, R403), and GO at the end of its cycle (R369). -/

theorem State.sendGo_none {s : State} (h : s.com.coord = none) : s.sendGo = s := by
  simp only [State.sendGo, h]

section Decision
variable {s : State} {c : Coord} {k : Nat}

theorem State.onCommitGoDecision_awake (h : s.inReset = false) : s.onCommitGoDecision = (s.goDecision s.tick).sendGo :=
  if_neg (by rw [h]; decide)

theorem State.onCommitGoDecision_none (h : s.inReset = false) (hc : s.com.coord = none) : s.onCommitGoDecision = s := by
  have hstays : s.goDecision s.tick = s := by simp only [State.goDecision, hc]
  rw [State.onCommitGoDecision_awake h, hstays, State.sendGo_none hc]

variable (hc : s.com.coord = some c)
include hc

theorem State.sendGo_stays (h : c.going = false ∨ s.cycleOver (c.target - 2) = false) : s.sendGo = s := by
  simp only [State.sendGo, hc]
  exact if_neg (by rcases h with h | h <;> simp [h])

theorem State.sendGo_sends (hreset : s.inReset = false) (hgoing : c.going = true) (hover : s.cycleOver (c.target - 2) = true) :
    s.sendGo.com = { s.com with coord := some { c with going := false }, staged := s.com.staged.map (fun x => { x with go := true }) } ∧
      s.sendGo.img = s.img ∧ s.sendGo.bal = s.bal ∧ s.sendGo.entries = s.entries := by
  simp only [State.sendGo, hc]
  rw [if_pos (by simp [hreset, hgoing, hover])]
  simp

theorem State.onCommitGoDecision_early (h : s.inReset = false) (hgoing : c.going = false) (ht : s.tick + 2 < c.target) : s.onCommitGoDecision = s := by
  have hstays : s.goDecision s.tick = s := by
    simp only [State.goDecision, hc]
    exact if_pos (by simp [ht])
  rw [State.onCommitGoDecision_awake h, hstays, State.sendGo_stays hc (.inl hgoing)]

/-- A commit ended in the decision sends no GO. -/
theorem State.sendGo_abortCommit (st : Status) : (s.abortCommit st).sendGo = (s.commitEnded c).answerAll (c.replies ++ c.prepare.toList) st := by
  have hcom : ((s.commitEnded c).answerAll (c.replies ++ c.prepare.toList) st).com = (s.commitEnded c).com :=
    ((State.answerAll_framed rfl (.refl _)).kept (F := [.cmi, .net, .hrpOut]) (f := .com) (by decide)).symm
  rw [State.abortCommit_eq hc, State.sendGo_none]
  rw [hcom, State.commitEnded_com]

variable (hd : c.decided = false) (ht : c.target ≤ k + 2)
include hd ht

theorem State.goDecision_goes (hacked : s.allAcked c = true) (hmode : c.kind ≠ .mode ∨ c.modeCommit = true) :
    s.goDecision k = s.decidedToGo c := by
  simp only [State.goDecision, hc]
  rw [if_neg (by simp [hd, ht]), if_neg (by simp [hacked]), if_neg (by rcases hmode with h | h <;> simp [h])]
  rfl

theorem State.goDecision_timesOut (hacked : s.allAcked c = false) : s.goDecision k = s.abortCommit .timeout := by
  simp only [State.goDecision, hc]
  rw [if_neg (by simp [hd, ht]), if_pos (by simp [hacked])]

theorem State.goDecision_uncommitted (hacked : s.allAcked c = true) (hmode : c.kind = .mode) (hnone : c.modeCommit = false) :
    s.goDecision k = s.abortCommit .busy := by
  simp only [State.goDecision, hc]
  rw [if_neg (by simp [hd, ht]), if_neg (by simp [hacked]), if_pos (by simp [hmode, hnone])]

end Decision

/-- The decision to go, and GO where the cycle of tick TARGET - 2 is over. -/
theorem State.onCommitGoDecision_goes {s : State} {c : Coord} (hreset : s.inReset = false) (hc : s.com.coord = some c) (hd : c.decided = false)
    (ht : c.target ≤ s.tick + 2) (hacked : s.allAcked c = true) (hmode : c.kind ≠ .mode ∨ c.modeCommit = true) :
    s.onCommitGoDecision.com.coord = some { c with decided := true, going := !s.cycleOver (c.target - 2) } ∧
      s.onCommitGoDecision.com.staged =
        (if s.cycleOver (c.target - 2) then s.com.staged.map (fun x => { x with go := true }) else s.com.staged) ∧
      s.onCommitGoDecision.img = s.img ∧ s.onCommitGoDecision.bal = s.bal ∧ s.onCommitGoDecision.entries = s.entries := by
  rw [State.onCommitGoDecision_awake hreset, State.goDecision_goes hc hd ht hacked hmode]
  cases hover : s.cycleOver (c.target - 2) with
  | false =>
    rw [State.sendGo_stays (s := s.decidedToGo c) rfl (.inr hover)]
    exact ⟨rfl, rfl, rfl, rfl, rfl⟩
  | true =>
    obtain ⟨hcom, hothers⟩ := State.sendGo_sends (s := s.decidedToGo c) rfl hreset rfl hover
    rw [hcom]
    exact ⟨rfl, rfl, hothers⟩

/-- What a commit ended by the coordinator leaves. -/
theorem State.commitEnded_aborted (s : State) (c : Coord) : (s.commitEnded c).com.coord = none ∧ (s.commitEnded c).com.staged = none ∧
    (s.commitEnded c).com.epoch = s.com.epoch ∧ (s.commitEnded c).entries = s.entries ∧ (s.commitEnded c).role = s.role ∧
    (s.commitEnded c).bal.active = s.bal.active ∧
    (c.kind = .image → s.img.load = .committing → (s.commitEnded c).img.load = .loaded) := by
  obtain ⟨-, hactive, -, hentries, hrole⟩ := s.commitEnded_leaves c
  rw [State.commitEnded_com, State.commitEnded_img]
  exact ⟨rfl, rfl, rfl, hentries, hrole, hactive, fun hkind hload => by rw [if_pos ⟨hkind, hload⟩]⟩

/-! A commit that takes effect (R403): the change is made, the commit closed, and what is left changes no part that the change made. -/

/-- The change of a commit made at tick `k`. -/
def State.changeMade (s : State) (t : Staged) (k : Nat) : State :=
  match t.kind with
  | .image => s.effectImage k
  | .variant => s.effectVariant t.variant
  | .mode => { s with role := t.roles }

/-- Nothing staged, no commit in progress, the next epoch, the window closed. -/
def State.commitClosed (s : State) : State :=
  { s with com := { s.com with staged := none, coord := none, epoch := (s.com.epoch + 1) % 256, window := false } }

/-- The commands whose replies the commit in progress holds. -/
def State.repliesHeld (s : State) : List Issuer := match s.com.coord with | some c => c.replies ++ c.prepare.toList | none => []

/-- The rest of a commit whose change is made: it is closed, the lanes' periods are set, and its replies and its report go out. -/
def State.commitFinished (made : State) (k : Nat) : State :=
  let replied := ((made.commitClosed.applyPeriods k).floorWatch).answerAll made.repliesHeld .ok
  if made.repliesHeld.any (fun i => i.op == 0x3B && i.src.isNone) then replied.raiseAll 5 else replied

section Effect
variable {s : State} {g : Staged} {k : Nat} (hg : s.com.staged = some g)
include hg

theorem State.takeEffect_waits (h : g.go = false ∨ k < g.target) : s.takeEffect k = s := by
  simp only [State.takeEffect, hg]
  exact if_neg (by rcases h with h | h <;> simp [h])

theorem State.takeEffect_acts (hgo : g.go = true) (ht : g.target ≤ k) : s.takeEffect k = (s.changeMade g k).commitFinished k := by
  have hacts : (g.go && decide (g.target ≤ k)) = true := by simp [hgo, ht]
  unfold State.takeEffect
  rw [hg]
  refine (if_pos hacts).trans ?_
  extract_lets made co s2 s3
  rw [show s.changeMade g k = made from rfl]
  clear_value made
  rfl

end Effect

/-- Every lane has the period that the contract in force gives it. -/
def State.periodsSet (s : State) : Prop := ∀ (eg : Bool) (l : Nat), l < 4 → (s.laneAt eg l).period = s.lanePeriod (b2n eg) l

theorem State.applyPeriods_set {s : State} (h : s.periodsSet) (k : Nat) : s.applyPeriods k = s := by
  have hlane (eg : Bool) (l : Nat) (hl : l < 4) :
      (if (s.laneAt eg l).period = s.lanePeriod (b2n eg) l then s else s.changeLane eg l (s.lanePeriod (b2n eg) l) k) = s := if_pos (h eg l hl)
  simp [State.applyPeriods, List.range_succ, hlane]

theorem State.lanePeriod_of_contract {s : State} {ct : Contract} (h : s.contract = some ct) (dir l : Nat) :
    s.lanePeriod dir l = ct.periodOf s.bal.active dir l := by
  simp only [State.lanePeriod, h]

/-- The parts in which a commit's replies, its report and the watch of the floor show. -/
def closingParts : List Field := [.parts, .ints, .clk, .cmi, .net, .hrpOut]

theorem Steady.answerAll {z s : State} {is : List Issuer} {st : Status} (h : Steady z s) : Steady z (s.answerAll is st) := .foldl .answer h

/-- Where no lane needs another period, a commit is finished outside the parts that the change made. -/
theorem State.commitFinished_keeps {made : State} (hset : made.periodsSet) (k : Nat) :
    Framed false closingParts made.commitClosed (made.commitFinished k) ∧ Steady made (made.commitFinished k) := by
  have hclosedSet : made.commitClosed.periodsSet := hset
  have hclosed : Steady made made.commitClosed := ⟨rfl, rfl, fun _ _ => rfl⟩
  have hreplied := (hclosed.framed (State.floorWatch_framed rfl (.refl _))).answerAll (is := made.repliesHeld) (st := .ok)
  unfold State.commitFinished
  rw [State.applyPeriods_set hclosedSet]
  dsimp only
  split
  · exact ⟨State.raiseAll_framed rfl (State.answerAll_framed rfl (State.floorWatch_framed rfl (.refl _))),
      hreplied.framed (State.raiseAll_framed rfl (.refl _))⟩
  · exact ⟨State.answerAll_framed rfl (State.floorWatch_framed rfl (.refl _)), hreplied⟩

theorem State.releaseHeld_none {s : State} (h : s.net.heldMsgs = []) : s.releaseHeld = s := by
  have hnet : ({ s.net with heldMsgs := [] } : NetU) = s.net := by rw [← h]
  unfold State.releaseHeld
  rw [h, hnet]
  rfl

theorem State.onCommitTakeEffect_unheld {s : State} (h : s.inReset = false) (hheld : (s.takeEffect s.tick).net.heldMsgs = []) :
    s.onCommitTakeEffect = s.takeEffect s.tick :=
  (if_neg (by rw [h]; decide)).trans (State.releaseHeld_none hheld)

/-- No commit is staged, or it has yet to take effect. -/
theorem State.onCommitTakeEffect_waits {s : State} (h : s.inReset = false) (hheld : s.net.heldMsgs = []) (hwaits : s.takeEffect s.tick = s) :
    s.onCommitTakeEffect = s := by
  rw [State.onCommitTakeEffect_unheld h (by rw [hwaits]; exact hheld), hwaits]

theorem State.takeEffect_none {s : State} (h : s.com.staged = none) (k : Nat) : s.takeEffect k = s := by
  simp only [State.takeEffect, h]

/-- What a commit that takes effect leaves of the change that it made, and of the commit unit. -/
structure Taken (made t : State) : Prop where
  img : t.img = made.img
  hdl : t.hdl = made.hdl
  bal : t.bal = made.bal
  rs : t.rs = made.rs
  entries : t.entries = made.entries
  role : t.role = made.role
  com : t.com = made.commitClosed.com

theorem State.commitFinished_taken {made : State} (hset : made.periodsSet) (k : Nat) : Taken made (made.commitFinished k) := by
  have hkeeps := (State.commitFinished_keeps hset k).1
  exact ⟨(hkeeps.kept (f := .img) (by decide)).symm, (hkeeps.kept (f := .hdl) (by decide)).symm, (hkeeps.kept (f := .bal) (by decide)).symm,
    (hkeeps.kept (f := .rs) (by decide)).symm, (hkeeps.kept (f := .entries) (by decide)).symm, (hkeeps.kept (f := .role) (by decide)).symm,
    (hkeeps.kept (f := .com) (by decide)).symm⟩

/-- A staged change that holds GO, at its target, where no message is held and no lane needs another period. -/
theorem State.onCommitTakeEffect_taken {s : State} {g : Staged} (h : s.inReset = false) (hg : s.com.staged = some g) (hgo : g.go = true)
    (ht : g.target ≤ s.tick) (hheld : (s.changeMade g s.tick).net.heldMsgs = []) (hset : (s.changeMade g s.tick).periodsSet) :
    Taken (s.changeMade g s.tick) s.onCommitTakeEffect := by
  have hacts := State.takeEffect_acts hg hgo ht
  have hfree : (s.takeEffect s.tick).net.heldMsgs = [] := by
    rw [hacts, (State.commitFinished_keeps hset s.tick).2.held]
    exact hheld
  rw [State.onCommitTakeEffect_unheld h hfree, hacts]
  exact State.commitFinished_taken hset s.tick

/-! The change of a variant, and of an image. -/

/-- The balance unit under a variant that a commit puts in force (R341). -/
def State.variantBal (s : State) (v : Nat) : BalanceU :=
  { s.bal with active := v, switches := satAdd 32 s.bal.switches 1, out := 0, since := 0,
               pinned := s.bal.pinned || (match s.com.coord with | some c => c.pin.isSome | none => false) }

theorem State.effectVariant_framedBal (s : State) (v : Nat) :
    Framed false [.parts, .ints, .clk] { s with bal := s.variantBal v } (s.effectVariant v) := by
  unfold State.effectVariant
  dsimp only
  split
  · exact State.raiseAll_framed rfl (Framed.foldl (fun _ _ h => State.wakeReq_framed rfl h) (.refl _))
  · exact State.raiseAll_framed rfl (.refl _)

/-- The new image put in the place of the old one (R330, R340, R367). -/
def State.imageSwitched (s : State) (g : Img) (k : Nat) : State :=
  { s with hdl := g.hdl,
           img := { s.img with load := .idle, loading := none, force := some g, retiring := s.img.force, retireFrom := k + 1,
                               forceEpoch := (s.com.epoch + 1) % 256 },
           bal := { s.bal with active := g.meter.initial, pinned := false, m := (g.meter.variants.getD g.meter.initial (0, 0, 0)).1, out := 0,
                               since := 0, due := true },
           rs := { s.rs with attempts := 0 } }

/-- The sessions of the table at the commit of an image. -/
def State.sessionsAtCommit (s : State) : State := (s.entries.map (·.1)).foldl State.sessionAtCommit s

theorem Steady.sessionsAtCommit {z s : State} (h : Steady z s) : Steady z s.sessionsAtCommit := .foldl .sessionAtCommit h

/-- After the image is switched only the entries, the rings and the records change. -/
theorem State.effectImage_switched {s : State} {g : Img} (h : s.img.loading = some g) (k : Nat) :
    Framed false [.entries, .home, .mem, .img, .net] (s.sessionsAtCommit.imageSwitched g k) (s.effectImage k) ∧
      Steady (s.sessionsAtCommit.imageSwitched g k) (s.effectImage k) := by
  simp only [State.effectImage, h]
  split
  · exact ⟨.foldl (fun _ _ h => State.newDelay_framed rfl h) (.foldl (fun _ _ h => State.firstCommit_framed rfl h) (.refl _)),
      .foldl .newDelay (.foldl .firstCommit (.refl _))⟩
  · exact ⟨.foldl (fun _ _ h => State.newDelay_framed rfl h) (.refl _), .foldl .newDelay (.refl _)⟩

/-- What the sessions do at the commit of an image leaves the commit unit and the roles. -/
theorem State.sessionsAtCommit_leaves (s : State) : s.sessionsAtCommit.com = s.com ∧ s.sessionsAtCommit.role = s.role := by
  have hkeeps : Framed false [.trb, .entries, .edge, .home, .slots, .ledgers, .parts, .ints, .cmi, .mem, .img, .bal, .net, .fsp, .tier, .hrpOut]
      s s.sessionsAtCommit := .foldl (fun _ _ h => State.sessionAtCommit_framed rfl h) (.refl s)
  exact ⟨(hkeeps.kept (f := .com) (by decide)).symm, (hkeeps.kept (f := .role) (by decide)).symm⟩

/-- What the commit of an image puts in force. -/
theorem State.effectImage_inForce {s : State} {g : Img} (h : s.img.loading = some g) (k : Nat) :
    (s.effectImage k).img.force = some g ∧ (s.effectImage k).img.retiring = s.img.force ∧ (s.effectImage k).img.load = .idle ∧
      (s.effectImage k).img.loading = none ∧ (s.effectImage k).hdl = g.hdl ∧ (s.effectImage k).bal.active = g.meter.initial ∧
      (s.effectImage k).bal.pinned = false ∧ (s.effectImage k).rs.attempts = 0 := by
  obtain ⟨hkeeps, hsteady⟩ := State.effectImage_switched h k
  have hbefore : s.sessionsAtCommit.img.force = s.img.force := (Steady.refl s).sessionsAtCommit.force
  have hhdl : (s.effectImage k).hdl = g.hdl := (hkeeps.kept (f := .hdl) (by decide)).symm
  have hbal : (s.effectImage k).bal = (s.sessionsAtCommit.imageSwitched g k).bal := (hkeeps.kept (f := .bal) (by decide)).symm
  have hrs : (s.effectImage k).rs = (s.sessionsAtCommit.imageSwitched g k).rs := (hkeeps.kept (f := .rs) (by decide)).symm
  refine ⟨hsteady.force, (congrArg ImageU.retiring hsteady.images).trans hbefore, congrArg ImageU.load hsteady.images,
    congrArg ImageU.loading hsteady.images, hhdl, ?_, ?_, ?_⟩
  · rw [hbal]; rfl
  · rw [hbal]; rfl
  · rw [hrs]; rfl

theorem State.effectImage_leaves {s : State} {g : Img} (h : s.img.loading = some g) (k : Nat) :
    (s.effectImage k).com = s.com ∧ (s.effectImage k).role = s.role ∧ (s.effectImage k).net.heldMsgs = s.net.heldMsgs ∧
      ∀ eg l, ((s.effectImage k).laneAt eg l).period = (s.laneAt eg l).period := by
  obtain ⟨hkeeps, hsteady⟩ := State.effectImage_switched h k
  obtain ⟨hcom, hrole⟩ := s.sessionsAtCommit_leaves
  have hbefore := (Steady.refl s).sessionsAtCommit
  exact ⟨(hkeeps.kept (f := .com) (by decide)).symm.trans hcom, (hkeeps.kept (f := .role) (by decide)).symm.trans hrole,
    hsteady.held.trans hbefore.held, fun eg l => (hsteady.periods eg l).trans (hbefore.periods eg l)⟩

/-! The three changes made. -/
section Changes
variable {s : State} {g : Staged} {ct : Contract} (hreset : s.inReset = false) (hg : s.com.staged = some g) (hgo : g.go = true)
  (ht : g.target ≤ s.tick) (hheld : s.net.heldMsgs = [])
include hreset hg hgo ht hheld

theorem State.onCommitTakeEffect_mode (hkind : g.kind = .mode) (hct : s.contract = some ct)
    (hlanes : ∀ (eg : Bool) (l : Nat), l < 4 → (s.laneAt eg l).period = ct.periodOf s.bal.active (b2n eg) l) :
    Taken { s with role := g.roles } s.onCommitTakeEffect := by
  have hmade (k : Nat) : s.changeMade g k = { s with role := g.roles } := by simp only [State.changeMade, hkind]
  rw [← hmade s.tick]
  refine State.onCommitTakeEffect_taken hreset hg hgo ht (by rw [hmade]; exact hheld) ?_
  rw [hmade]
  exact fun eg l hl => (hlanes eg l hl).trans (State.lanePeriod_of_contract hct ..).symm

theorem State.onCommitTakeEffect_variant (hkind : g.kind = .variant) (hct : s.contract = some ct)
    (hlanes : ∀ (eg : Bool) (l : Nat), l < 4 → (s.laneAt eg l).period = ct.periodOf g.variant (b2n eg) l) :
    Taken (s.effectVariant g.variant) s.onCommitTakeEffect := by
  have hmade (k : Nat) : s.changeMade g k = s.effectVariant g.variant := by simp only [State.changeMade, hkind]
  have hkeeps := s.effectVariant_framedBal g.variant
  have hnet : s.net = (s.effectVariant g.variant).net := hkeeps.kept (f := .net) (by decide)
  have himg : s.img = (s.effectVariant g.variant).img := hkeeps.kept (f := .img) (by decide)
  have hfsp : s.fsp = (s.effectVariant g.variant).fsp := hkeeps.kept (f := .fsp) (by decide)
  have hbal : s.variantBal g.variant = (s.effectVariant g.variant).bal := hkeeps.kept (f := .bal) (by decide)
  rw [← hmade s.tick]
  refine State.onCommitTakeEffect_taken hreset hg hgo ht (by rw [hmade, ← hnet]; exact hheld) ?_
  rw [hmade]
  have hct' : (s.effectVariant g.variant).contract = some ct := by rw [State.contract, ← himg]; exact hct
  intro eg l hl
  rw [State.lanePeriod_of_contract hct', ← hbal]
  refine Eq.trans ?_ (hlanes eg l hl)
  cases eg <;> simp only [State.laneAt, State.inLaneAt, State.outLaneAt, ← hfsp]

theorem State.onCommitTakeEffect_image {i : Img} (hkind : g.kind = .image) (hi : s.img.loading = some i)
    (hlanes : ∀ (eg : Bool) (l : Nat), l < 4 → (s.laneAt eg l).period = i.contract.periodOf i.meter.initial (b2n eg) l) :
    Taken (s.effectImage s.tick) s.onCommitTakeEffect := by
  have hmade (k : Nat) : s.changeMade g k = s.effectImage k := by simp only [State.changeMade, hkind]
  obtain ⟨-, -, hnet, hperiods⟩ := State.effectImage_leaves hi s.tick
  obtain ⟨hforce, -, -, -, -, hactive, -, -⟩ := State.effectImage_inForce hi s.tick
  have hct : (s.effectImage s.tick).contract = some i.contract := by rw [State.contract, hforce]; rfl
  rw [← hmade s.tick]
  refine State.onCommitTakeEffect_taken hreset hg hgo ht (by rw [hmade, hnet]; exact hheld) ?_
  rw [hmade]
  intro eg l hl
  rw [State.lanePeriod_of_contract hct, hperiods, hactive]
  exact hlanes eg l hl

end Changes

/-- A commit that has taken effect is over, and the epoch is the next. -/
theorem Taken.ended {s made t : State} (h : Taken made t) (hcom : made.com = s.com) :
    t.com.staged = none ∧ t.com.coord = none ∧ t.com.epoch = (s.com.epoch + 1) % 256 ∧ t.com.window = false := by
  rw [h.com, ← hcom]
  exact ⟨rfl, rfl, rfl, rfl⟩

/-! The image before the commit (R367). -/
section Retire
variable {s : State}

theorem State.onImageRetire_none (hreset : s.inReset = false) (h : s.img.retiring = none) : s.onImageRetire = s := by
  refine (if_neg (by rw [hreset]; decide)).trans ?_
  simp only [State.retire, h]

variable {i : Img} (hreset : s.inReset = false) (hi : s.img.retiring = some i)
include hreset hi

theorem State.onImageRetire_retires (hunused : s.imageUsed i.gen = false) (hfrom : s.img.retireFrom ≤ s.tick) :
    s.onImageRetire = { s with img := { s.img with retiring := none } } := by
  refine (if_neg (by rw [hreset]; decide)).trans ?_
  simp only [State.retire, hi]
  exact if_neg (by simp [hunused, hfrom])

theorem State.onImageRetire_waits (h : s.imageUsed i.gen = true ∨ s.tick < s.img.retireFrom) : s.onImageRetire = s := by
  refine (if_neg (by rw [hreset]; decide)).trans ?_
  simp only [State.retire, hi]
  exact if_pos (by rcases h with h | h <;> simp [h])

end Retire

/-- Settles O45: each row outside a reset is one of the cases above, on the state at its moment. -/
theorem commitProgress : Obligations.CommitProgress := by
  unfold Obligations.CommitProgress
  intro m s c g i ct
  rw [exec_commitGoDecision_eq, exec_commitTakeEffect_eq, exec_imageRetire_eq]
  generalize s.elapse m = e
  intro e sent lanesKept aborted ended hreset
  refine ⟨?_, ?_, ?_, ?_, ?_, ?_, ?_, ?_⟩
  · intro hc hd ht
    have hended (st : Status) (h : e.goDecision e.tick = e.abortCommit st) :
        e.onCommitGoDecision = (e.commitEnded c).answerAll (c.replies ++ c.prepare.toList) st := by
      rw [State.onCommitGoDecision_awake hreset, h, State.sendGo_abortCommit hc]
    exact ⟨fun hacked hmode => ⟨_, rfl, State.onCommitGoDecision_goes hreset hc hd ht hacked hmode⟩,
      fun hacked => ⟨_, congrArg Host.Outcome.next (hended _ (State.goDecision_timesOut hc hd ht hacked)), e.commitEnded_aborted c⟩,
      fun hacked hmode hnone =>
        ⟨_, congrArg Host.Outcome.next (hended _ (State.goDecision_uncommitted hc hd ht hacked hmode hnone)), e.commitEnded_aborted c⟩⟩
  · exact fun hc hgoing ht => congrArg Host.Outcome.next (State.onCommitGoDecision_early hc hreset hgoing ht)
  · exact fun hc => congrArg Host.Outcome.next (State.onCommitGoDecision_none hreset hc)
  · intro hg hgo ht hheld
    refine ⟨fun hkind hct hlanes _ => ?_, fun hkind hct hlanes => ?_, fun hkind hi hlanes => ?_⟩
    · have htaken := State.onCommitTakeEffect_mode hreset hg hgo ht hheld hkind hct hlanes
      exact ⟨_, rfl, htaken.role, htaken.ended rfl, htaken.img, htaken.bal, htaken.entries⟩
    · have htaken := State.onCommitTakeEffect_variant hreset hg hgo ht hheld hkind hct hlanes
      have hkeeps := e.effectVariant_framedBal g.variant
      have hbal : e.onCommitTakeEffect.bal = e.variantBal g.variant := htaken.bal.trans (hkeeps.kept (f := .bal) (by decide)).symm
      have hcom : (e.effectVariant g.variant).com = e.com := (hkeeps.kept (f := .com) (by decide)).symm
      refine ⟨_, rfl, ?_, ?_, ?_, ?_, ?_, htaken.ended hcom, htaken.img.trans (hkeeps.kept (f := .img) (by decide)).symm,
        htaken.entries.trans (hkeeps.kept (f := .entries) (by decide)).symm, htaken.role.trans (hkeeps.kept (f := .role) (by decide)).symm⟩
      all_goals rw [hbal]; rfl
    · have htaken := State.onCommitTakeEffect_image hreset hg hgo ht hheld hkind hi hlanes
      obtain ⟨hforce, hretiring, hload, hloading, hhdl, hactive, hpinned, hattempts⟩ := State.effectImage_inForce hi e.tick
      obtain ⟨hcom, hrole, -, -⟩ := State.effectImage_leaves hi e.tick
      refine ⟨_, rfl, ?_, ?_, ?_, ?_, htaken.hdl.trans hhdl, ?_, ?_, ?_, htaken.ended hcom, htaken.role.trans hrole⟩
      · rw [htaken.img, hforce]
      · rw [htaken.img, hretiring]
      · rw [htaken.img, hload]
      · rw [htaken.img, hloading]
      · rw [htaken.bal, hactive]
      · rw [htaken.bal, hpinned]
      · rw [htaken.rs, hattempts]
  · exact fun hg hwaits hheld =>
      congrArg Host.Outcome.next (State.onCommitTakeEffect_waits hreset hheld (State.takeEffect_waits hg hwaits))
  · exact fun hnone hheld => congrArg Host.Outcome.next (State.onCommitTakeEffect_waits hreset hheld (State.takeEffect_none hnone e.tick))
  · exact fun hi => ⟨fun hunused hfrom => congrArg Host.Outcome.next (State.onImageRetire_retires hreset hi hunused hfrom),
      fun hwaits => congrArg Host.Outcome.next (State.onImageRetire_waits hreset hi hwaits)⟩
  · exact fun hnone => congrArg Host.Outcome.next (State.onImageRetire_none hreset hnone)

end Sys2Proof.Machine
end

section
/-! SUPPORT. The frame of the rows that are neither commands of HRP and SMP nor messages of the ring (R373, R426). -/
namespace Sys2Proof.Machine

/-- The watchdog acts by a reset, so where none is asserted it changes nothing (R418). -/
theorem State.onCmiWatchdog_resets (s : State) : Framed true [] s s.onCmiWatchdog := by
  unfold State.onCmiWatchdog
  split
  · exact .refl s
  · split
    · exact .of_reset State.assertReset_resets
    · exact .refl s

/-- Outside a reset the row releases regions alone (R425). -/
theorem State.onResetRelease_framed {s : State} {pllLocks : Bool} {find : WordFind} (h : s.inReset = false) :
    Framed true [.rs, .cmi, .img, .net, .hrpOut] s (s.onResetRelease pllLocks find) := by
  have hreach : s.rs.reach = none := by simpa [State.inReset] using h
  simp only [State.onResetRelease, hreach]
  exact State.releaseRegions_framed rfl (.refl s)

/-- A row that is neither a command nor a message answers a next state, in which only the parts that it names differ from those of its
moment, unless a reset is asserted. -/
theorem exec_event_framed (s : State) : ∀ c : Instr, c.opcode = none → c.message = none → (s.moved c).inReset = false →
    ∃ t, exec c s = .next t ∧ Framed true (touches c) (s.moved c) t
  | .commandPacketArrival _ _ _ _ _, _, _, _ => ⟨_, rfl, State.onCommandPacketArrival_framed rfl (.refl _)⟩
  | .tierScrubDone _ _, _, _, _ => ⟨_, rfl, State.onTierScrubDone_framed rfl (.refl _)⟩
  | .imageLoadBegin _, _, _, _ => ⟨_, rfl, State.onImageLoadBegin_framed rfl (.refl _)⟩
  | .imageLoadData _, _, _, _ => ⟨_, rfl, State.onImageLoadData_framed rfl (.refl _)⟩
  | .imageLoadEnd _, _, _, _ => ⟨_, rfl, State.onImageLoadEnd_framed rfl (.refl _)⟩
  | .partitionResetDone _ _, _, _, _ => ⟨_, rfl, State.onPartitionResetDone_framed rfl (.refl _)⟩
  | .registerWrite _ _, _, _, _ => ⟨_, rfl, State.onRegisterWrite_framed rfl (.refl _)⟩
  | .tmNowRead _ _, _, _, _ => ⟨_, rfl, State.onTmNowRead_framed rfl (.refl _)⟩
  | .ptSsmRead _ _, _, _, _ => ⟨_, rfl, State.onPtSsmRead_framed rfl (.refl _)⟩
  | .ptSsmWrite _ _, _, _, _ => ⟨_, rfl, State.onPtSsmWrite_framed rfl (.refl _)⟩
  | .ptSsmAccessDone _ _ _, _, _, _ => ⟨_, rfl, State.onPtSsmAccessDone_framed rfl (.refl _)⟩
  | .ptIntWrite _ _, _, _, _ => ⟨_, rfl, State.onPtIntWrite_framed rfl (.refl _)⟩
  | .trbStickyWrite _ _, _, _, _ => ⟨_, rfl, State.onTrbStickyWrite_framed rfl (.refl _)⟩
  | .tokenIntake _ _ _ _ _, _, _, _ => ⟨_, rfl, State.onTokenIntake_framed rfl (.refl _)⟩
  | .draftIntake _ _ _ _, _, _, _ => ⟨_, rfl, State.onDraftIntake_framed rfl (.refl _)⟩
  | .fspIngressSlot _ _ _ _ _ _ _, _, _, _ => ⟨_, rfl, State.onFspIngressSlot_framed rfl (.refl _)⟩
  | .winteringDone _ _ _, _, _, _ => ⟨_, rfl, State.onWinteringDone_framed rfl (.refl _)⟩
  | .fspEgressSlot _ _ _ _ _, _, _, _ => ⟨_, rfl, State.onFspEgressSlot_framed rfl (.refl _)⟩
  | .pkeTierRead _ _ _ _, _, _, _ => ⟨_, rfl, State.onPkeTierRead_framed rfl (.refl _)⟩
  | .screeningItemStart _ _ _, _, _, _ => ⟨_, rfl, State.onScreeningItemStart_framed rfl (.refl _)⟩
  | .screeningItemDone _ _ _, _, _, _ => ⟨_, rfl, State.onScreeningItemDone_framed rfl (.refl _)⟩
  | .queueOver _ _, _, _, _ => ⟨_, rfl, State.onQueueOver_framed rfl (.refl _)⟩
  | .tokenRelease _ _ _, _, _, _ => ⟨_, rfl, State.onTokenRelease_framed rfl (.refl _)⟩
  | .tIn _ _, _, _, _ => ⟨_, rfl, State.onTIn_framed rfl (.refl _)⟩
  | .smpWrite _ _, _, _, _ => ⟨_, rfl, State.onSmpWrite_framed rfl (.refl _)⟩
  | .smpRead _ _, _, _, _ => ⟨_, rfl, State.onSmpRead_framed rfl (.refl _)⟩
  | .smpStatus _ _, _, _, _ => ⟨_, rfl, State.onSmpStatus_framed rfl (.refl _)⟩
  | .hrpErr _, _, _, _ => ⟨_, rfl, State.onHrpErr_framed rfl (.refl _)⟩
  | .slippedNotice _ _, _, _, _ => ⟨_, rfl, State.onSlippedNotice_framed rfl (.refl _)⟩
  | .interruptMessageSend _, _, _, _ => ⟨_, rfl, State.onInterruptMessageSend_framed rfl (.refl _)⟩
  | .grpTxSlot _ _, _, _, _ => ⟨_, rfl, State.onGrpTxSlot_framed rfl (.refl _)⟩
  | .mirrorEnqueue _, _, _, _ => ⟨_, rfl, State.onMirrorEnqueue_framed rfl (.refl _)⟩
  | .ringForward _ _, _, _, _ => ⟨_, rfl, State.onRingForward_framed rfl (.refl _)⟩
  | .twinCopyDone _, _, _, _ => ⟨_, rfl, State.onTwinCopyDone_framed rfl (.refl _)⟩
  | .linkLockLoss _ _, _, _, _ => ⟨_, rfl, State.onLinkLockLoss_framed rfl (.refl _)⟩
  | .fspClockLoss _, _, _, _ => ⟨_, rfl, State.onFspClockLoss_framed rfl (.refl _)⟩
  | .solsticeTick _ _ _, _, _, _ => ⟨_, rfl, .refl _⟩
  | .deadlineReached _ _, _, _, _ => ⟨_, rfl, State.onDeadlineReached_framed rfl (.refl _)⟩
  | .ttlExpiry _, _, _, _ => ⟨_, rfl, State.onTtlExpiry_framed rfl (.refl _)⟩
  | .cancelledFree _ _, _, _, _ => ⟨_, rfl, State.onCancelledFree_framed rfl (.refl _)⟩
  | .openTimeout _ _, _, _, _ => ⟨_, rfl, State.onOpenTimeout_framed rfl (.refl _)⟩
  | .forwardTimeout _, _, _, _ => ⟨_, rfl, State.onForwardTimeout_framed rfl (.refl _)⟩
  | .commitGoDecision _, _, _, _ => ⟨_, rfl, State.onCommitGoDecision_framed rfl (.refl _)⟩
  | .commitUndecided _, _, _, _ => ⟨_, rfl, State.onCommitUndecided_framed rfl (.refl _)⟩
  | .commitTakeEffect _, _, _, _ => ⟨_, rfl, State.onCommitTakeEffect_framed rfl (.refl _)⟩
  | .imageRetire _, _, _, _ => ⟨_, rfl, State.onImageRetire_framed rfl (.refl _)⟩
  | .twinTakeover _, _, _, _ => ⟨_, rfl, State.onTwinTakeover_framed rfl (.refl _)⟩
  | .measurementLoss _, _, _, _ => ⟨_, rfl, State.onMeasurementLoss_framed rfl (.refl _)⟩
  | .ppsEdge _, _, _, _ => ⟨_, rfl, State.onPpsEdge_framed rfl (.refl _)⟩
  | .trefMeasurement _ _, _, _, _ => ⟨_, rfl, State.onTrefMeasurement_framed rfl (.refl _)⟩
  | .ageingMeasurement _ _ _, _, _, _ => ⟨_, rfl, State.onAgeingMeasurement_framed rfl (.refl _)⟩
  | .throttleAssert _, _, _, _ => ⟨_, rfl, State.onThrottleAssert_framed rfl (.refl _)⟩
  | .throttleDeassert _, _, _, _ => ⟨_, rfl, State.onThrottleDeassert_framed rfl (.refl _)⟩
  | .gclkStep _, _, _, _ => ⟨_, rfl, State.onGclkStep_framed rfl (.refl _)⟩
  | .pwrSettleDone _ _ _, _, _, _ => ⟨_, rfl, State.onPwrSettleDone_framed rfl (.refl _)⟩
  | .throttleFloorViolation _, _, _, _ => ⟨_, rfl, State.onThrottleFloorViolation_framed rfl (.refl _)⟩
  | .clusterWakeDone _ _, _, _, _ => ⟨_, rfl, State.onClusterWakeDone_framed rfl (.refl _)⟩
  | .clusterWakeTimeout _ _ _, _, _, _ => ⟨_, rfl, State.onClusterWakeTimeout_framed rfl (.refl _)⟩
  | .clusterIdleStop _ _, _, _, _ => ⟨_, rfl, State.onClusterIdleStop_framed rfl (.refl _)⟩
  | .sleepEntry _, _, _, _ => ⟨_, rfl, State.onSleepEntry_framed rfl (.refl _)⟩
  | .sleepExit _ _, _, _, _ => ⟨_, rfl, State.onSleepExit_framed rfl (.refl _)⟩
  | .tierDeviceSelfref _ _, _, _, _ => ⟨_, rfl, State.onTierDeviceSelfref_framed rfl (.refl _)⟩
  | .ssmScrub _ _, _, _, _ => ⟨_, rfl, State.onSsmScrub_framed rfl (.refl _)⟩
  | .ssmWriteBack _ _, _, _, _ => ⟨_, rfl, State.onSsmWriteBack_framed rfl (.refl _)⟩
  | .tableScrub _ _ _ _, _, _, _ => ⟨_, rfl, State.onTableScrub_framed rfl (.refl _)⟩
  | .powerOn _ _ _, _, _, _ => ⟨_, rfl, State.onPowerOn_framed rfl (.refl _)⟩
  | .porstN _ _ _, _, _, _ => ⟨_, rfl, State.onPorstN_framed rfl (.refl _)⟩
  | .sysrstN _ _ _, _, _, _ => ⟨_, rfl, State.onSysrstN_framed rfl (.refl _)⟩
  | .cmiWatchdog _, _, _, _ => ⟨_, rfl, State.onCmiWatchdog_resets _⟩
  | .resetRelease _ _ _, _, _, hreset => ⟨_, rfl, State.onResetRelease_framed hreset⟩
  | .tierTrainingDone _ _, _, _, _ => ⟨_, rfl, State.onTierTrainingDone_framed rfl (.refl _)⟩
  | .rstOutRelease _, _, _, _ => ⟨_, rfl, State.onRstOutRelease_framed rfl (.refl _)⟩
  | .extest _, _, _, _ => ⟨_, rfl, State.onExtest_framed rfl (.refl _)⟩
  | .samplePreload _ _, _, _, _ => ⟨_, rfl, State.onSamplePreload_framed rfl (.refl _)⟩
  | .instr _, _, _, _ => ⟨_, rfl, State.onInstr_framed rfl (.refl _)⟩
  | .bypass _ _, _, _, _ => ⟨_, rfl, State.onBypass_framed rfl (.refl _)⟩
  | .trstN _, _, _, _ => ⟨_, rfl, State.onTrstN_framed rfl (.refl _)⟩
  | .slotStartMissed _ _ _, _, _, _ => ⟨_, rfl, State.onSlotStartMissed_framed rfl (.refl _)⟩
  | .blockHashDone _ _, _, _, _ => ⟨_, rfl, State.onBlockHashDone_framed rfl (.refl _)⟩

/-- Settles O60: each row changes only the parts it names, or asserts a reset. -/
theorem eventFrames : Obligations.EventFrames := by
  unfold Obligations.EventFrames
  intro c s t f hop hmsg hexec hmoment hreset hf
  obtain ⟨u, hu, hframed⟩ := exec_event_framed s c hop hmsg hmoment
  cases hu.symm.trans hexec
  exact hframed.out hreset hf

end Sys2Proof.Machine
end

section
/-! SUPPORT. The arithmetic of gate time: the tick of a deadline (R386), the nearest whole number, and the increment of REFCLK edges (R370). -/
namespace Sys2Proof.Machine

/-- Below the end of the 64-bit count no deadline's tick is cut to 44 bits. -/
theorem Entry.deadlineTick_eq {e : Entry} (hd : e.deadline ≠ 0) (hmax : e.openTime + e.deadline * 1000 + 2 ^ 20 ≤ 2 ^ 64) :
    e.deadlineTick = some ((e.openTime + e.deadline * 1000 + 2 ^ 20 - 1) / 2 ^ 20) := by
  rw [Entry.deadlineTick, if_neg hd, ← Nat.add_sub_assoc (by decide), Nat.mod_eq_of_lt (by omega)]

theorem Entry.deadlinePast_iff {e : Entry} {d : Nat} (h : e.deadlineTick = some d) (k : Nat) : e.deadlinePast k = true ↔ d ≤ k := by
  simp [Entry.deadlinePast, h]

/-- Settles O53: the tick is the instant rounded up, a quotient whose remainder is below a tick. -/
theorem deadlineTicks : Obligations.DeadlineTicks := by
  unfold Obligations.DeadlineTicks
  intro e hd hmax
  have htick := Entry.deadlineTick_eq hd hmax
  refine ⟨_, htick, (Nat.shiftRight_eq_div_pow _ _).symm, ?_, ?_, Entry.deadlinePast_iff htick⟩ <;> omega

/-- `nearest x y` is within half of `x / y`, and of two whole numbers as near it is the one further from zero. -/
theorem nearest_close (x : Int) {y : Nat} (hy : 0 < y) :
    2 * (nearest x y * y - x).natAbs ≤ y ∧ (2 * (nearest x y * y - x).natAbs = y → x.natAbs ≤ (nearest x y * y).natAbs) := by
  have hdiv := Nat.div_add_mod (2 * x.natAbs + y) (2 * y)
  have hmod := Nat.mod_lt (2 * x.natAbs + y) (show 0 < 2 * y by omega)
  unfold nearest
  generalize (2 * x.natAbs + y) / (2 * y) = n at *
  have hprod : 2 * y * n = 2 * (n * y) := by ring
  have hcast : (n : Int) * (y : Int) = ((n * y : Nat) : Int) := (Nat.cast_mul n y).symm
  split
  · rw [hcast]; omega
  · rw [neg_mul, hcast]; omega

/-- With nothing to slew, `n` edges add `n` increments, modulo the width of the count (R370). -/
theorem TimeU.advance_steady {t : TimeU} (n q : Nat) (h : t.slewLeft = 0) :
    ((t.advance n q).t48 : Int) = ((t.t48 : Int) + n * increment t.c) % 2 ^ 112 := by
  have hpart : slewPart t.slewLeft t.slewStep n = 0 := by simp [slewPart, h]
  simp only [TimeU.advance, hpart, add_zero]
  exact Int.toNat_of_nonneg (Int.emod_nonneg _ (by decide))

/-- Settles O55: the correction of an increment is the nearest whole number, and the reads are fields of the count. -/
theorem timeAdvances : Obligations.TimeAdvances := by
  unfold Obligations.TimeAdvances
  intro t s n q c i
  have hi : i = nearest (40 * c * 2 ^ 48) (10 ^ 12) := by simp [i, increment]
  obtain ⟨hnear, haway⟩ := nearest_close (40 * c * 2 ^ 48) (y := 10 ^ 12) (by decide)
  rw [← hi] at hnear haway
  exact ⟨fun hslew hc => ⟨hc ▸ TimeU.advance_steady n q hslew, hc, rfl⟩, by exact_mod_cast hnear, by exact_mod_cast haway, rfl, rfl⟩

end Sys2Proof.Machine
end

section
/-! SUPPORT. The time unit: what a step of gate time and a pass of the servo leave in it, and that they touch little beside it (R378, R379, R384). -/
namespace Sys2Proof.Machine

/-- An event that names no partition changes the trouble record alone (R460, R465). -/
theorem State.trouble_gate_framed (s : State) (b : Sticky) (a : Nat) (o : Obj) (d : Word) : Framed false [.trb] s (s.trouble b a o none d) := by
  have hset : Framed false [.trb] s (s.setSticky b) := State.setSticky_framed rfl (.refl s)
  unfold State.trouble
  dsimp only
  split
  · exact State.logRepeat_framed rfl hset
  · exact State.logNew_framed rfl hset

/-- Only the time unit changes. -/
theorem State.withTm_framed (s : State) (t : TimeU) : Framed false [.tm] s { s with tm := t } :=
  ⟨id, .inr fun f hf => by cases f with | tm => simp at hf | _ => rfl⟩

/-! LOCKED (R379). -/

theorem State.unlock_framedGate (s : State) : Framed false [.tm, .trb] s s.unlock := by
  have htm : Framed false [.tm, .trb] s { s with tm := { s.tm with locked := false } } := (s.withTm_framed _).mono rfl
  unfold State.unlock
  dsimp only
  split
  · exact .refl s
  · split
    · exact htm.after (State.trouble_gate_framed _ _ _ _ _) rfl
    · exact htm

theorem State.unlock_tm (s : State) : s.unlock.tm = { s.tm with locked := s.byCommand && s.tm.locked } := by
  unfold State.unlock
  by_cases h : s.byCommand = true
  · simp [h]
  · by_cases hl : s.tm.locked = true <;> simp [h, hl]

theorem State.unlock_byCommand (s : State) : s.unlock.byCommand = s.byCommand := by
  simp only [State.byCommand, State.deposed, State.tmMode, State.tmSource, s.unlock_tm]

theorem State.lockCommand_tm (s : State) : s.lockCommand.tm = { s.tm with locked := if s.byCommand then s.tm.set else s.tm.locked } := by
  unfold State.lockCommand
  split <;> simp_all

/-! A step of gate time (R384). -/

/-- The time unit after a step, LOCKED apart. -/
def TimeU.step (t : TimeU) (d : Int) : TimeU :=
  let t' := (((t.t48 : Int) + d) % (2 ^ 112 : Int)).toNat
  { t with t48 := t', slewLeft := 0, lockRun := 0, stepPending := t.stepPending || t.serving,
           stepped := t.stepped + ((t' >>> 32 : Nat) : Int) - ((t.t48 >>> 32 : Nat) : Int),
           ppsMute := passedOver 1000000000 (t.t48 >>> 48) (t' >>> 48) t.ppsMute,
           solMute := passedOver (2 ^ 20) (t.t48 >>> 48) (t' >>> 48) t.solMute }

theorem State.stepTime_eq (s : State) (d : Int) : s.stepTime d = ({ s with tm := s.tm.step d } : State).unlock.lockCommand := rfl

theorem State.stepTime_tm (s : State) (d : Int) : (s.stepTime d).tm = { s.tm.step d with locked := s.byCommand && s.tm.set } := by
  have hby : ({ s with tm := s.tm.step d } : State).byCommand = s.byCommand := rfl
  rw [State.stepTime_eq, State.lockCommand_tm, State.unlock_byCommand, State.unlock_tm, hby]
  cases s.byCommand <;> rfl

theorem State.stepTime_framedGate (s : State) (d : Int) : Framed false [.tm, .trb] s (s.stepTime d) := by
  have htm : Framed false [.tm, .trb] s { s with tm := s.tm.step d } := (s.withTm_framed _).mono rfl
  exact State.lockCommand_framed rfl (htm.after (State.unlock_framedGate _) rfl)

/-- What a step of gate time leaves in the time unit `u` of a gate whose unit was `t`. -/
structure TimeU.Stepped (t : TimeU) (d : Int) (u : TimeU) : Prop where
  t48 : u.t48 = (((t.t48 : Int) + d) % (2 ^ 112 : Int)).toNat
  slewLeft : u.slewLeft = 0
  c : u.c = t.c
  lastMeas : u.lastMeas = t.lastMeas
  ppsEdge : u.ppsEdge = t.ppsEdge

theorem State.stepTime_stepped (s : State) (d : Int) : s.tm.Stepped d (s.stepTime d).tm := by
  rw [State.stepTime_tm]
  constructor <;> simp only [TimeU.step]

/-- A gate that takes its measurements from outside is not LOCKED after a step. -/
theorem State.stepTime_locked {s : State} (h : s.byCommand = false) (d : Int) : (s.stepTime d).tm.locked = false := by
  rw [State.stepTime_tm, h, Bool.false_and]

/-! A pass of the servo (R378). -/

/-- LOCKED is all that the judgement of a measurement changes in the time unit. -/
theorem State.judgeLock_tm (s : State) (err : Int) : ∃ l, (s.judgeLock err).tm = { s.tm with locked := l } := by
  unfold State.judgeLock
  split
  · exact ⟨_, s.unlock_tm⟩
  · split
    · exact ⟨_, rfl⟩
    · exact ⟨_, rfl⟩

/-- What a correction of the frequency, and of it alone, leaves in the time unit `u` of a gate whose unit was `t`. -/
structure TimeU.Tuned (t : TimeU) (err : Int) (g : Nat) (u : TimeU) : Prop where
  lastMeas : u.lastMeas = t.refclk
  c : u.c = clampC (t.c - nearest (err * (g : Int)) (2 ^ 16))
  lockRun : u.lockRun = if err.natAbs ≤ 4 * 2 ^ 16 then min (t.lockRun + 1) 255 else 0
  t48 : u.t48 = t.t48
  ppsEdge : u.ppsEdge = t.ppsEdge

/-- The judgement of the measurement leaves what the correction made. -/
theorem State.judgeLock_tuned {s : State} {t : TimeU} {err : Int} {g : Nat} (h : t.Tuned err g s.tm) :
    t.Tuned err g (s.judgeLock err).tm ∧ (s.judgeLock err).tm.slewLeft = s.tm.slewLeft := by
  obtain ⟨l, htm⟩ := s.judgeLock_tm err
  rw [htm]
  exact ⟨⟨h.lastMeas, h.c, h.lockRun, h.t48, h.ppsEdge⟩, rfl⟩

theorem State.tune_tuned (s : State) (err : Int) (g : Nat) : s.tm.Tuned err g (s.measured.tune err g).tm := ⟨rfl, rfl, rfl, rfl, rfl⟩

theorem State.servo_steps {s : State} {err : Int} (g edges : Nat) (h : 1000 * 2 ^ 16 < err.natAbs) :
    s.servo err g edges = s.measured.stepTime (-err * 2 ^ 32) := if_pos h

theorem State.servo_slews {s : State} {err : Int} (g edges : Nat) (h : err.natAbs ≤ 1000 * 2 ^ 16) :
    s.tm.Tuned err g (s.servo err g edges).tm ∧ (s.servo err g edges).tm.slewLeft = -err * 2 ^ 31 := by
  unfold State.servo
  dsimp only
  rw [if_neg (Nat.not_lt.2 h)]
  obtain ⟨hlast, hc, hrun, ht48, hedge⟩ := s.tune_tuned err g
  exact State.judgeLock_tuned ⟨hlast, hc, hrun, ht48, hedge⟩

/-- With SOURCE TREF gate time neither steps nor slews. -/
theorem State.servoTref_tuned (s : State) (err : Int) :
    s.tm.Tuned err 500 (s.servoTref err).tm ∧ (s.servoTref err).tm.slewLeft = s.tm.slewLeft :=
  State.judgeLock_tuned (s.tune_tuned err 500)

end Sys2Proof.Machine
end

section
/-! SUPPORT. TIME_SET, TIME_ADJUST and TIME_QUERY: the packet's act, and the time unit that it leaves (R359, R370, R377, R384). -/
namespace Sys2Proof.Machine

theorem exec_timeSet_eq (m : Moment) (s : State) : exec (.timeSet m) s = .next (s.moved (.timeSet m)).onTimeSet := rfl
theorem exec_timeAdjust_eq (m : Moment) (s : State) : exec (.timeAdjust m) s = .next (s.moved (.timeAdjust m)).onTimeAdjust := rfl
theorem exec_timeQuery_eq (m : Moment) (s : State) : exec (.timeQuery m) s = .next (s.elapse m).onTimeQuery := rfl

section Acts
variable {s : State} {i : Issuer} {a b : Word}

theorem State.onTimeSet_acts (h : Starts s 0x40 i [a, b]) (hp0 : i.isP0 = true) (hs : stray b [(63, 48)] = false) :
    s.onTimeSet = if s.popPkt.tmMode = 0 then s.popPkt.answer i .busy else (s.popPkt.setTime (wat [a, b] 0) (bf (wat [a, b] 1) 63 48)).answer i .ok :=
  runCmd_acts h (by decide) hp0 rfl hs

theorem State.onTimeAdjust_acts (h : Starts s 0x41 i [a, b]) (hp0 : i.isP0 = true)
    (hs : (stray b [(63, 32)] || decide (200000000 < (adjustFreq [a, b]).natAbs)) = false) : s.onTimeAdjust = s.popPkt.adjustTime i [a, b] :=
  runCmd_acts h (by decide) hp0 rfl hs

theorem State.onTimeQuery_acts (h : Starts s 0x42 i []) : s.onTimeQuery = s.popPkt.reply i .ok s.popPkt.timeWords :=
  runCmd_acts h (by decide) rfl rfl rfl

end Acts

/-! TIME_SET. -/

/-- A step to a value of the count reaches it. -/
theorem TimeU.step_to (t : TimeU) {v : Nat} (h : v < 2 ^ 112) : (t.step ((v : Int) - (t.t48 : Int))).t48 = v := by
  show (((t.t48 : Int) + ((v : Int) - (t.t48 : Int))) % (2 ^ 112 : Int)).toNat = v
  omega

/-- 64 bits of whole ns and 16 of fraction stay below the end of the count. -/
theorem timeSet_value_lt (a b : Word) : a.toNat * 2 ^ 48 + bf b 63 48 * 2 ^ 32 < 2 ^ 112 := by
  have ha := a.isLt
  have hb : bf b 63 48 < 2 ^ 16 := Nat.mod_lt _ (by decide)
  omega

theorem State.setTime_tm (s : State) (ns : Word) (frac : Nat) : ∃ l e, (s.setTime ns frac).tm =
    { s.tm.step (((ns.toNat * 2 ^ 48 + frac * 2 ^ 32 : Nat) : Int) - (s.tm.t48 : Int)) with set := true, quarters := 0, ppsEdge := e, locked := l } := by
  unfold State.setTime
  dsimp only
  rw [State.lockCommand_tm, State.stepTime_tm]
  push_cast
  exact ⟨_, _, rfl⟩

/-! TIME_ADJUST, in the cases of its mode, its source and its offset. -/
section Adjust
variable {s : State} {i : Issuer} {ps : List Word}

theorem State.adjustTime_busy (h : s.tmMode = 0 ∨ (adjustFreq ps ≠ 0 ∧ s.tmSource ≠ 0)) : s.adjustTime i ps = s.answer i .busy := if_pos h

/-- A gate that keeps time by command takes the frequency as well. -/
theorem State.adjustTime_command (hmode : s.tmMode ≠ 0) (hsource : s.tmSource = 0) :
    s.adjustTime i ps = (({ s with tm := { s.tm with c := adjustFreq ps } } : State).adjustOffset (wat ps 0).toInt).answer i .ok := by
  simp [State.adjustTime, hmode, hsource]

/-- One that is disciplined takes the offset alone. -/
theorem State.adjustTime_disciplined (hmode : s.tmMode ≠ 0) (hsource : s.tmSource ≠ 0) (hfreq : adjustFreq ps = 0) :
    s.adjustTime i ps = (s.adjustOffset (wat ps 0).toInt).answer i .ok := by
  simp [State.adjustTime, hmode, hsource, hfreq]

theorem State.adjustOffset_slews {off : Int} (h : off.natAbs ≤ 1000) :
    s.adjustOffset off = { s with tm := { s.tm with slewLeft := off * 2 ^ 48, slewStep := adjustStep } } := if_pos h

theorem State.adjustOffset_steps {off : Int} (h : 1000 < off.natAbs) : s.adjustOffset off = s.stepTime (off * 2 ^ 48) := if_neg (Nat.not_le.2 h)

end Adjust

/-- Settles O22: each command, in each case of its mode, its source and its offset, is one of the equations above. -/
theorem timeCommands : Obligations.TimeCommands := by
  unfold Obligations.TimeCommands
  refine ⟨fun m s i a b => ⟨fun h hp0 hs => ?_, fun h => ?_⟩, fun m s i a b => ?_⟩
  · rw [exec_timeSet_eq, State.onTimeSet_acts h hp0 hs]
    generalize (s.moved (.timeSet m)).popPkt = p
    have ha : wat [a, b] 0 = a := rfl
    have hb : wat [a, b] 1 = b := rfl
    rw [ha, hb]
    refine ⟨fun hmode => by rw [if_pos hmode], fun hmode => ⟨p.setTime a (bf b 63 48), by rw [if_neg hmode], ?_⟩⟩
    obtain ⟨l, e, htm⟩ := p.setTime_tm a (bf b 63 48)
    have hkept : Framed false [.tm, .trb, .parts, .ints] p (p.setTime a (bf b 63 48)) := State.setTime_framed rfl (.refl p)
    rw [htm]
    exact ⟨p.tm.step_to (timeSet_value_lt a b), rfl, rfl, rfl, rfl, rfl, (hkept.kept (f := .entries) (by decide)).symm,
      (hkept.kept (f := .mem) (by decide)).symm⟩
  · rw [exec_timeQuery_eq, State.onTimeQuery_acts h]
    rfl
  · intro z p f h hp0 hs
    have hacts : exec (.timeAdjust m) s = .next (p.adjustTime i [a, b]) := congrArg _ (State.onTimeAdjust_acts h hp0 hs)
    rw [hacts]
    refine ⟨fun hbusy => ?_, fun hmode hsource hoff => ?_, fun hmode hsource hfreq hoff => ?_, fun hmode hsource hoff => ?_⟩
    · rw [State.adjustTime_busy hbusy]
    · rw [State.adjustTime_command hmode hsource, State.adjustOffset_slews (off := (wat [a, b] 0).toInt) hoff]
      rfl
    · rw [State.adjustTime_disciplined hmode hsource hfreq, State.adjustOffset_slews (off := (wat [a, b] 0).toInt) hoff]
      rfl
    · rw [State.adjustTime_command hmode hsource, State.adjustOffset_steps (off := (wat [a, b] 0).toInt) hoff]
      have hstep := State.stepTime_stepped { p with tm := { p.tm with c := adjustFreq [a, b] } } ((wat [a, b] 0).toInt * 2 ^ 48)
      exact ⟨_, rfl, hstep.c, hstep.t48, hstep.slewLeft⟩

end Sys2Proof.Machine
end

section
/-! SUPPORT. The time unit's events: an edge of PPS_IN and its measurement, a TREF measurement, the loss of measurements and the twin's
takeover (R375, R378, R379, R383). -/
namespace Sys2Proof.Machine

theorem exec_ppsEdge_eq (m : Moment) (s : State) : exec (.ppsEdge m) s = .next (s.elapse m).onPpsEdge := rfl
theorem exec_trefMeasurement_eq (m : Moment) (drift : Int) (s : State) :
    exec (.trefMeasurement m drift) s = .next ((s.elapse m).onTrefMeasurement drift) := rfl
theorem exec_measurementLoss_eq (m : Moment) (s : State) : exec (.measurementLoss m) s = .next (s.elapse m).onMeasurementLoss := rfl
theorem exec_twinTakeover_eq (m : Moment) (s : State) : exec (.twinTakeover m) s = .next (s.elapse m).onTwinTakeover := rfl

section Events
variable {s : State}

/-! A measurement (R375, R378). -/

/-- A gate disciplined by PPS_IN runs the servo on the distance of the edge from the nearest second. -/
theorem State.measurePps_servo (f : Nat) (hmode : s.tmMode ≠ 0) (hdeposed : s.deposed = false) (hsource : s.tmSource = 1) :
    s.measurePps f = ({ s with tm := { s.tm with ppsEdge := none } } : State).servo ((f : Int) - (nearestMultiple f (fineOf 1000000000) : Int)) 500 perSecond := by
  have hruns : ({ s with tm := { s.tm with ppsEdge := none } } : State).tmMode ≠ 0 ∧
      ({ s with tm := { s.tm with ppsEdge := none } } : State).deposed = false ∧
      ({ s with tm := { s.tm with ppsEdge := none } } : State).tmSource = 1 := ⟨hmode, hdeposed, hsource⟩
  unfold State.measurePps
  dsimp only
  rw [if_pos hruns]

/-- What that leaves: a slew of half the error with the frequency corrected, or a step of the whole error. -/
theorem State.measurePps_disciplines (f : Nat) (hmode : s.tmMode ≠ 0) (hdeposed : s.deposed = false) (hsource : s.tmSource = 1) :
    let err : Int := (f : Int) - (nearestMultiple f (fineOf 1000000000) : Int)
    let t := s.measurePps f
    t.tm.lastMeas = s.tm.refclk ∧ t.tm.ppsEdge = none ∧ t.entries = s.entries ∧
      (err.natAbs ≤ 1000 * 2 ^ 16 → t.tm.c = clampC (s.tm.c - nearest (err * 500) (2 ^ 16)) ∧
        t.tm.slewLeft = -err * 2 ^ 31 ∧ t.tm.t48 = s.tm.t48 ∧ t.tm.lockRun = (if err.natAbs ≤ 4 * 2 ^ 16 then min (s.tm.lockRun + 1) 255 else 0)) ∧
      (1000 * 2 ^ 16 < err.natAbs → t.tm.c = s.tm.c ∧ t.tm.slewLeft = 0 ∧ t.tm.locked = false ∧
        t.tm.t48 = (((s.tm.t48 : Int) + -err * 2 ^ 32) % (2 ^ 112 : Int)).toNat) := by
  intro err t
  have hkept : Framed false [.tm, .trb, .parts, .ints] s t := State.measurePps_framed rfl (.refl s)
  have ht : t = State.servo { s with tm := { s.tm with ppsEdge := none } } err 500 perSecond := State.measurePps_servo f hmode hdeposed hsource
  have hentries : t.entries = s.entries := (hkept.kept (f := .entries) (by decide)).symm
  clear_value err t
  rcases Nat.lt_or_ge (1000 * 2 ^ 16) err.natAbs with hfar | hnear
  · have hby : s.byCommand = false := by simp [State.byCommand, hsource]
    rw [State.servo_steps 500 perSecond hfar] at ht
    obtain ⟨ht48, hslew, hc, hlast, hedge⟩ := State.stepTime_stepped (State.measured { s with tm := { s.tm with ppsEdge := none } }) (-err * 2 ^ 32)
    have hlocked := State.stepTime_locked (s := State.measured { s with tm := { s.tm with ppsEdge := none } }) hby (-err * 2 ^ 32)
    rw [← ht] at ht48 hslew hc hlast hedge hlocked
    exact ⟨hlast, hedge, hentries, fun hnear => absurd hfar (by omega), fun _ => ⟨hc, hslew, hlocked, ht48⟩⟩
  · obtain ⟨⟨hlast, hc, hrun, ht48, hedge⟩, hslew⟩ := State.servo_slews (s := { s with tm := { s.tm with ppsEdge := none } }) 500 perSecond hnear
    rw [← ht] at hlast hc hrun ht48 hedge hslew
    exact ⟨hlast, hedge, hentries, fun _ => ⟨hc, hslew, ht48, hrun⟩, fun hfar => absurd hnear (by omega)⟩

theorem State.onTrefMeasurement_servo (drift : Int) (hmode : s.tmMode ≠ 0) (hdeposed : s.deposed = false) (hsource : s.tmSource = 2) :
    s.onTrefMeasurement drift = s.servoTref drift := if_pos ⟨hmode, hdeposed, hsource⟩

theorem State.onTrefMeasurement_unused (drift : Int) (hsource : s.tmSource ≠ 2) : s.onTrefMeasurement drift = s :=
  if_neg fun h => hsource h.2.2

/-! Eight intervals (R379). -/

theorem State.onMeasurementLoss_unlocks (hdisc : s.disciplined = true) (hlocked : s.tm.locked = true)
    (hlong : s.tm.lastMeas + 8 * s.interval ≤ s.tm.refclk) : s.onMeasurementLoss = ({ s with tm := { s.tm with lockRun := 0 } } : State).unlock := by
  simp [State.onMeasurementLoss, hdisc, hlocked, hlong]

theorem State.onMeasurementLoss_early (hshort : s.tm.refclk < s.tm.lastMeas + 8 * s.interval) : s.onMeasurementLoss = s := by
  simp [State.onMeasurementLoss, Nat.not_le.2 hshort]

/-- A gate that loses LOCKED records it, and nothing else of its time unit changes. -/
theorem State.unlock_loses (hby : s.byCommand = false) (hlocked : s.tm.locked = true) : s.unlock.tm.locked = false ∧ s.unlock.tm.lockRun = s.tm.lockRun ∧
    s.unlock.tm.t48 = s.tm.t48 ∧ s.unlock.tm.c = s.tm.c ∧ bit s.unlock.trb.sticky 20 = true := by
  rw [State.unlock_tm, hby]
  refine ⟨rfl, rfl, rfl, rfl, ?_⟩
  simp only [State.unlock, hby, hlocked, Bool.false_eq_true, if_false, if_true]
  rw [State.trouble_sticky]
  exact bit_word_pow (by decide) _

/-! The takeover (R383). -/

/-- The time unit of a twin that takes over. -/
def State.takenOver (s : State) : TimeU := { s.tm with serving := true, holdover := true, master := s.gate, silent := 0, stepPending := false }

theorem State.takeBalance_framedGate (s : State) : Framed false [.bal] s s.takeBalance := State.takeBalance_framed rfl (.refl s)

theorem State.onTwinTakeover_takes (hreset : s.inReset = false) (hpaired : s.net.paired = true) (hmode : s.tmMode = 0) (hserving : s.tm.serving = false)
    (hmine : s.tm.masterTwin = some s.gate) (hmaster : s.net.twin = s.tm.master) (hsilent : 3 < s.tm.silent) :
    s.onTwinTakeover.tm = s.takenOver ∧ Framed false [.tm, .bal] s s.onTwinTakeover := by
  have htakes : s.onTwinTakeover = s.takeover := if_neg (by simp [hreset, hsilent])
  have hcond : (s.net.paired && s.tmMode == 0 && !s.tm.serving && s.tm.masterTwin == some s.gate && s.net.twin == s.tm.master &&
      decide (3 ≤ s.tm.silent)) = true := by simp [hpaired, hmode, hserving, hmine, hmaster, Nat.le_of_lt hsilent]
  have htm : s.tm = s.takeBalance.tm := s.takeBalance_framedGate.kept (f := .tm) (by decide)
  have hnet : s.net = s.takeBalance.net := s.takeBalance_framedGate.kept (f := .net) (by decide)
  refine ⟨?_, htakes ▸ State.takeover_framed rfl (.refl s)⟩
  rw [htakes, State.takeover, if_pos hcond, State.takenOver, State.gate, hnet, htm]
  rfl

theorem State.onTwinTakeover_early (hsilent : s.tm.silent ≤ 3) : s.onTwinTakeover = s := if_pos (.inr hsilent)

end Events

/-- Settles O39: each event is one of the equations above, read off where its condition holds and where it does not. -/
theorem timeEvents : Obligations.TimeEvents := by
  unfold Obligations.TimeEvents
  intro m s u drift f
  rw [exec_ppsEdge_eq, exec_trefMeasurement_eq, exec_measurementLoss_eq, exec_twinTakeover_eq]
  generalize s.elapse m = e
  intro e err
  refine ⟨⟨_, rfl, rfl, rfl, rfl⟩, fun hmode hdeposed hsource => ?_, fun _ hsource => ?_, fun hmode hdeposed hsource => ?_, fun hdisc hlocked => ?_,
    fun hreset hpaired hmode hserving hmine hmaster => ?_⟩
  · exact State.measurePps_disciplines f hmode hdeposed hsource
  · rw [State.onTrefMeasurement_unused drift fun htref => absurd (hsource.symm.trans htref) (by decide)]
  · obtain ⟨htuned, hslew⟩ := e.servoTref_tuned drift
    have hkept : Framed false [.tm, .trb, .parts, .ints] e (e.servoTref drift) := State.servoTref_framed rfl (.refl e)
    rw [State.onTrefMeasurement_servo drift hmode hdeposed hsource]
    exact ⟨_, rfl, htuned.c, hslew, htuned.t48, (hkept.kept (f := .entries) (by decide)).symm⟩
  · refine ⟨fun hlong => ⟨_, congrArg _ (State.onMeasurementLoss_unlocks hdisc hlocked hlong), ?_⟩,
      fun hshort => congrArg _ (State.onMeasurementLoss_early hshort)⟩
    have hby : e.byCommand = false := by simpa [State.disciplined] using hdisc
    exact State.unlock_loses (s := { e with tm := { e.tm with lockRun := 0 } }) hby hlocked
  · refine ⟨fun hsilent => ?_, fun hsilent => congrArg _ (State.onTwinTakeover_early hsilent)⟩
    obtain ⟨htm, hkept⟩ := State.onTwinTakeover_takes hreset hpaired hmode hserving hmine hmaster hsilent
    refine ⟨_, rfl, by rw [htm]; rfl, by rw [htm]; rfl, by rw [htm]; rfl, by rw [htm]; rfl, ?_, (hkept.kept (f := .entries) (by decide)).symm,
      (hkept.kept (f := .net) (by decide)).symm⟩
    show (e.onTwinTakeover.alone || e.onTwinTakeover.tm.serving) = true
    rw [htm, State.takenOver, Bool.or_true]

end Sys2Proof.Machine
end

section
/-! SUPPORT. A solstice tick: the number of the last tick through the work of a tick, the registers that it samples, and the ticks that fall due
on the way to a command (R332, R372, R373, R374, R384, R423, R446). -/
namespace Sys2Proof.Machine

/-- Every part of the state but the time unit. -/
def offTime : List Field :=
  [.rs, .trb, .entries, .edge, .home, .slots, .ledgers, .parts, .ints, .cmi, .mem, .hdl, .img, .com, .bal, .net, .fsp, .tier, .clk, .role,
    .roleShadow, .denied, .misformed, .blocked, .hrpOut, .fspOut, .tap]

/-- The number of the last tick and the control register in force stay. -/
structure KeepsTick (s t : State) : Prop where
  lastTick : t.tm.lastTick = s.tm.lastTick
  ctlIn : t.tm.ctlIn = s.tm.ctlIn

namespace KeepsTick
variable {r s t : State}

theorem refl (s : State) : KeepsTick s s := ⟨rfl, rfl⟩

theorem trans (h : KeepsTick r s) (k : KeepsTick s t) : KeepsTick r t := ⟨k.lastTick.trans h.lastTick, k.ctlIn.trans h.ctlIn⟩

theorem of_tm (h : t.tm = s.tm) : KeepsTick s t := ⟨congrArg TimeU.lastTick h, congrArg TimeU.ctlIn h⟩

/-- So it is with an operation that leaves the time unit. -/
theorem of (h : Framed false offTime s t) : KeepsTick s t := of_tm (h.kept (f := .tm) (by decide)).symm

/-- And with one that changes LOCKED alone. -/
theorem of_locked {l : Bool} (h : t.tm = { s.tm with locked := l }) : KeepsTick s t := ⟨by simp only [h], by simp only [h]⟩

theorem foldl {α : Type} {g : State → α → State} (hg : ∀ s x, KeepsTick s (g s x)) (l : List α) : ∀ s, KeepsTick s (l.foldl g s) := by
  induction l with
  | nil => exact refl
  | cons x xs ih => exact fun s => (hg s x).trans (ih (g s x))

end KeepsTick

/-! The operations of the time unit. -/

theorem State.unlock_keepsTick (s : State) : KeepsTick s s.unlock := .of_locked s.unlock_tm
theorem State.lockCommand_keepsTick (s : State) : KeepsTick s s.lockCommand := .of_locked s.lockCommand_tm

theorem State.stepTime_keepsTick (s : State) (d : Int) : KeepsTick s (s.stepTime d) := by
  have hstep : KeepsTick s { s with tm := s.tm.step d } := ⟨by simp only [TimeU.step], by simp only [TimeU.step]⟩
  exact (hstep.trans (State.unlock_keepsTick _)).trans (State.lockCommand_keepsTick _)

theorem State.judgeLock_keepsTick (s : State) (err : Int) : KeepsTick s (s.judgeLock err) := by
  obtain ⟨l, htm⟩ := s.judgeLock_tm err
  exact .of_locked htm

theorem State.servo_keepsTick (s : State) (err : Int) (g edges : Nat) : KeepsTick s (s.servo err g edges) := by
  have hmeasured : KeepsTick s s.measured := ⟨rfl, rfl⟩
  have htuned (u : State) : KeepsTick u (u.tune err g) := ⟨by simp only [State.tune], by simp only [State.tune]⟩
  have hslew (u : State) (d : Int) (r : Nat) : KeepsTick u { u with tm := { u.tm with slewLeft := d, slewStep := r } } := ⟨by dsimp only, by dsimp only⟩
  unfold State.servo
  dsimp only
  split
  · exact hmeasured.trans (State.stepTime_keepsTick _ _)
  · exact ((hmeasured.trans (htuned _)).trans (hslew _ _ _)).trans (State.judgeLock_keepsTick _ err)

theorem State.twoMasters_keepsTick (s : State) (a g : Nat) : KeepsTick s (s.twoMasters a g) := .of (State.twoMasters_framed rfl (.refl s))

theorem State.followTime_keepsTick (s : State) (w1 w2 w3 : Word) : KeepsTick s (s.followTime w1 w2 w3) := by
  have hset : KeepsTick s s.setBy := ⟨rfl, rfl⟩
  have hmeasured (u : State) : KeepsTick u u.measured := ⟨rfl, rfl⟩
  unfold State.followTime
  dsimp only
  split
  · exact (hset.trans (hmeasured _)).trans (State.stepTime_keepsTick _ _)
  · exact hset.trans (State.servo_keepsTick _ _ _ _)

theorem State.noteTime_keepsTick (s : State) (k g g' : Nat) (b : Bool) : KeepsTick s (s.noteTime k g g' b) :=
  ⟨by simp only [State.noteTime], by simp only [State.noteTime]⟩

/-- A TIME message that its gate follows is noted first (R381). -/
theorem State.noteTime_followTime_keepsTick (s : State) (k g g' : Nat) (b : Bool) (w1 w2 w3 : Word) :
    KeepsTick s ((s.noteTime k g g' b).followTime w1 w2 w3) :=
  (s.noteTime_keepsTick k g g' b).trans (State.followTime_keepsTick _ w1 w2 w3)

theorem State.takeTime_keepsTick (s : State) (ws : List Word) : KeepsTick s (s.takeTime ws) := by
  have hyield : KeepsTick s { s with tm := { s.tm with serving := false } } := ⟨by dsimp only, by dsimp only⟩
  unfold State.takeTime
  dsimp only
  repeat' split
  · exact State.twoMasters_keepsTick _ _ _
  · exact (hyield.trans (State.twoMasters_keepsTick _ _ _)).trans (State.noteTime_followTime_keepsTick _ _ _ _ _ _ _ _)
  · exact State.noteTime_followTime_keepsTick _ _ _ _ _ _ _ _
  · exact State.twoMasters_keepsTick _ _ _
  · exact State.twoMasters_keepsTick _ _ _
  · exact State.noteTime_followTime_keepsTick _ _ _ _ _ _ _ _
  · exact State.noteTime_keepsTick _ _ _ _ _

/-! A job fault: the reset that it asserts clears FRAC alone of the time unit (R426). -/

theorem State.clearJob_keepsTick (s : State) : KeepsTick s s.clearJob := by
  have hcleared : Framed false resetParts s s.resetOps.resetEntries := State.resetEntries_framed rfl s.resetOps_framed
  have htm : s.resetOps.resetEntries.tm = s.tm := (hcleared.kept (f := .tm) (by decide)).symm
  exact ⟨by simp only [State.clearJob, htm], by simp only [State.clearJob, htm]⟩

theorem State.assertReset_job_keepsTick (s : State) (src cycles : Nat) : KeepsTick s (s.assertReset .job src cycles) := by
  have hcleared (u : State) : KeepsTick u ((u.dropOut .job).clearFor .job) :=
    (KeepsTick.of (State.dropOut_framed rfl (.refl u))).trans (State.clearJob_keepsTick _)
  unfold State.assertReset
  dsimp only
  split
  · exact ⟨(hcleared _).lastTick, (hcleared _).ctlIn⟩
  · split
    · exact ⟨(hcleared _).lastTick, (hcleared _).ctlIn⟩
    · exact .of_tm rfl

theorem State.jobFault_keepsTick (s : State) (c : Cause) (o : Obj) (p : Option Nat) (d : Word) : KeepsTick s (s.jobFault c o p d) :=
  (KeepsTick.of (State.announceFault_framed rfl (.refl s))).trans (State.assertReset_job_keepsTick _ _ _)

theorem State.undecided_keepsTick (s : State) (k : Nat) : KeepsTick s (s.undecided k) := by
  unfold State.undecided
  split
  · split
    · exact State.jobFault_keepsTick _ _ _ _ _
    · exact .refl s
  · exact .refl s

/-! The messages held for a commit (R399). -/

theorem State.actRestart_keepsTick (s : State) (it : Item) : KeepsTick s (s.actRestart it) := by
  unfold State.actRestart
  extract_lets origin tick _ s0 k s2 _ s1
  have hs1 : KeepsTick s s1 := by
    unfold s1
    split
    · exact .of_tm rfl
    · exact .of_tm rfl
  clear_value s1
  split
  · exact .refl s
  · split
    · exact hs1
    · exact hs1.trans (State.assertReset_job_keepsTick _ _ _)

theorem State.handleMsg_keepsTick (s : State) (it : Item) : KeepsTick s (s.handleMsg it) := by
  unfold State.handleMsg
  split
  · exact .of (State.actItem_framed rfl (.refl s))
  · exact .of (State.actOpen_framed rfl (.refl s))
  · exact .of (State.actOpenReply_framed rfl (.refl s))
  · exact .of (State.actStep_framed rfl (.refl s))
  · exact .of (State.actResolve_framed rfl (.refl s))
  · exact .of (State.actStreamEnd_framed rfl (.refl s))
  · exact .of (State.actClose_framed rfl (.refl s))
  · exact .of (State.actCancel_framed rfl (.refl s))
  · exact .of (State.actCmd_framed rfl (.refl s))
  · exact .of (State.actCmdReply_framed rfl (.refl s))
  · exact State.takeTime_keepsTick s _
  · exact .of (State.actBalance_framed rfl (.refl s))
  · exact .of (State.actPrepare_framed rfl (.refl s))
  · exact .of (State.actAck_framed rfl (.refl s))
  · exact .of (State.actGo_framed rfl (.refl s))
  · exact .of (State.actAbort_framed rfl (.refl s))
  · exact .of (State.actMirror_framed rfl (.refl s))
  · exact .of (State.actPair_framed rfl (.refl s))
  · exact State.actRestart_keepsTick s it
  · exact .refl s

theorem State.acceptMsg_keepsTick (s : State) (link : Nat) (it : Item) : KeepsTick s (s.acceptMsg link it) := by
  unfold State.acceptMsg
  dsimp only
  split
  · exact .refl s
  · split
    · exact State.handleMsg_keepsTick s it
    · split
      · exact .of_tm rfl
      · exact .of (State.ringDrop_framed rfl (.refl s))

theorem State.releaseHeld_keepsTick (s : State) : KeepsTick s s.releaseHeld := by
  have htaken : KeepsTick s { s with net := { s.net with heldMsgs := [] } } := .of_tm rfl
  exact htaken.trans (.foldl (g := fun u it => u.acceptMsg 0 it) (fun u it => u.acceptMsg_keepsTick 0 it) s.net.heldMsgs _)

/-! The parts of a tick's work. -/

theorem State.takeover_keepsTick (s : State) : KeepsTick s s.takeover := by
  have hbal : KeepsTick s s.takeBalance := .of (State.takeBalance_framed rfl (.refl s))
  unfold State.takeover
  split
  · exact ⟨hbal.lastTick, hbal.ctlIn⟩
  · exact .refl s

theorem State.silentTick_keepsTick (s : State) : KeepsTick s s.silentTick := by
  unfold State.silentTick
  extract_lets s1
  have hs1 : KeepsTick s s1 := by
    unfold s1
    split
    · exact .refl s
    · exact s.takeover_keepsTick
  clear_value s1
  split
  · exact hs1
  · exact ⟨hs1.lastTick, hs1.ctlIn⟩

theorem State.sendTime_keepsTick (s : State) (k : Nat) : KeepsTick s (s.sendTime k) := by
  unfold State.sendTime
  split
  · extract_lets hdr s1
    have hs1 : KeepsTick s s1 := .foldl (fun u l => .of (State.queueOn_framed rfl (.refl u))) s.links s
    exact ⟨hs1.lastTick, hs1.ctlIn⟩
  · exact .refl s

theorem State.pass_keepsTick (s : State) (n q : Nat) : KeepsTick s (s.pass n q) :=
  ⟨by simp only [State.pass, TimeU.advance], by simp only [State.pass, TimeU.advance]⟩

theorem State.between_keepsTick (s : State) : KeepsTick s s.between := .of (State.between_framed rfl (.refl s))

/-! The registers sampled (R332, R374, R446). -/

/-- TM_CTL comes into force, and gate time and the number of the tick stay. -/
theorem State.sampleTime_samples (s : State) :
    s.sampleTime.tm.ctlIn = s.tm.ctl ∧ s.sampleTime.tm.t48 = s.tm.t48 ∧ s.sampleTime.tm.lastTick = s.tm.lastTick := by
  unfold State.sampleTime
  extract_lets old new mode _ s1 _ s2 _ s3
  have hs2 : s2.tm.ctlIn = s.tm.ctl ∧ s2.tm.t48 = s.tm.t48 ∧ s2.tm.lastTick = s.tm.lastTick := by
    unfold s2
    split <;> exact ⟨rfl, rfl, rfl⟩
  clear_value s2
  have hs3 : s3.tm.ctlIn = s.tm.ctl ∧ s3.tm.t48 = s.tm.t48 ∧ s3.tm.lastTick = s.tm.lastTick := by
    unfold s3
    split
    · exact hs2
    · rw [State.unlock_tm]; exact hs2
  rw [State.lockCommand_tm]
  exact hs3

theorem State.sampleTime_framedGate (s : State) : Framed false [.tm, .trb] s s.sampleTime := by
  unfold State.sampleTime
  extract_lets old new mode _ s1 _ s2 _ s3
  have hs2 : Framed false [.tm, .trb] s s2 := by
    unfold s2
    split
    · exact (s.withTm_framed _).mono rfl
    · exact (s.withTm_framed _).mono rfl
  clear_value s2
  have hs3 : Framed false [.tm, .trb] s s3 := by
    unfold s3
    split
    · exact hs2
    · exact (hs2.after (s2.withTm_framed _) rfl).after (State.unlock_framedGate _) rfl
  exact State.lockCommand_framed rfl hs3

theorem State.sampleTick_framedGate (s : State) : Framed false [.tm, .trb, .bal, .clk] s s.sampleTick := by
  have htime : Framed false [.tm, .trb, .bal, .clk] s s.sampleTime := s.sampleTime_framedGate.mono rfl
  unfold State.sampleTick
  exact State.floorWatch_framed rfl (htime.after (G := [.bal, .clk]) ⟨id, .inr fun f hf => by cases f with | bal | clk => simp at hf | _ => rfl⟩ rfl)

theorem State.sampleTick_samples (s : State) :
    s.sampleTick.tm = s.sampleTime.tm ∧ s.sampleTick.clk.ctlIn = s.clk.ctl ∧ s.sampleTick.bal.ctlIn = s.bal.ctl := by
  have hclk : s.clk = s.sampleTime.clk := s.sampleTime_framedGate.kept (f := .clk) (by decide)
  have hbal : s.bal = s.sampleTime.bal := s.sampleTime_framedGate.kept (f := .bal) (by decide)
  rw [hclk, hbal]
  exact ⟨rfl, rfl, rfl⟩

/-! The work of a tick. -/

/-- The tick is recorded, and TM_CTL is in force (R373, R374). -/
theorem State.tickWork_records (s : State) (k : Nat) (edges : Option Nat) (pll : Bool) :
    (s.tickWork k edges pll).tm.lastTick = k ∧ (s.tickWork k edges pll).tm.ctlIn = s.tm.ctl := by
  unfold State.tickWork
  extract_lets _ _ s0 s1 s2 s3 held s4 s5
  obtain ⟨hctl, -, hlast⟩ := s0.sampleTime_samples
  have hs1 : s1.tm = s0.sampleTime.tm := s0.sampleTick_samples.1
  have hs2 : KeepsTick s1 s2 := by
    unfold s2
    split
    · exact .refl s1
    · exact (KeepsTick.of (State.fclkTick_framed rfl (.refl s1))).trans (.of (State.tickOrders_framed rfl (.refl _)))
  have hs3 : KeepsTick s2 s3 := s2.silentTick_keepsTick.trans (State.sendTime_keepsTick _ k)
  have hs4 : KeepsTick s3 s4 := by
    unfold s4
    split
    · exact .of (State.startClock_framed rfl (.refl s3))
    · exact .refl s3
  have hs5 : KeepsTick s4 s5 := .of (State.lasting_framed rfl (.refl s4))
  have hall : KeepsTick s1 s5 := ((hs2.trans hs3).trans hs4).trans hs5
  have hend : KeepsTick s5 (if s5.inReset then s5 else (((s5.goDecision k).releaseHeld).undecided k).diffArea3) := by
    split
    · exact .refl s5
    · exact (((KeepsTick.of (State.goDecision_framed rfl (.refl s5))).trans (State.releaseHeld_keepsTick _)).trans
        (State.undecided_keepsTick _ k)).trans (.of (State.diffArea3_framed rfl (.refl _)))
  have hwork := hall.trans hend
  exact ⟨hwork.lastTick.trans (by rw [hs1, hlast]), hwork.ctlIn.trans (by rw [hs1, hctl])⟩

/-- In a reset the orders of the tick do not run (R423). -/
theorem State.tickWork_framed_inReset {s : State} (h : s.inReset = true) (k : Nat) (edges : Option Nat) (pll : Bool) :
    Framed false [.tm, .trb, .bal, .net, .clk] s (s.tickWork k edges pll) := by
  unfold State.tickWork
  extract_lets _ _ s0 s1 s2 s3 held s4 s5
  have hs1 : Framed false [.tm, .trb, .bal, .net, .clk] s s1 :=
    Framed.after (s := s0) (G := [.tm, .trb, .bal, .clk]) ⟨id, .inr fun f hf => by cases f with | tm | net => simp at hf | _ => rfl⟩ s0.sampleTick_framedGate rfl
  have hs2 : s2 = s1 := if_pos ((hs1.inReset_eq (by decide)).trans h)
  have hs3 : Framed false [.tm, .trb, .bal, .net, .clk] s s3 := State.sendTime_framed rfl (State.silentTick_framed rfl (hs2 ▸ hs1))
  have hreset3 : s3.inReset = true := (hs3.inReset_eq (by decide)).trans h
  have hs4 : s4 = s3 := if_neg (by simp [hreset3])
  have hs5 : Framed false [.tm, .trb, .bal, .net, .clk] s s5 := State.lasting_framed rfl (hs4 ▸ hs3)
  rw [if_pos ((hs5.inReset_eq (by decide)).trans h)]
  exact hs5

/-! The ticks on the way to a command (R372, R384). -/

theorem State.between_inReset {s : State} (h : s.inReset = true) : s.between = s := if_pos h

theorem State.passTicks_none {s : State} {edges : Option Nat} {pll : Bool} {n q : Nat} (h : (s.pass n q).tick ≤ s.tm.lastTick) :
    s.passTicks edges pll n q = (s.pass n q).between := by
  simp only [State.passTicks, Nat.sub_eq_zero_of_le h, State.runTicks]

/-- With one tick number due, its work is done at its instant, once. -/
theorem State.passTicks_one {s : State} {edges : Option Nat} {pll : Bool} {n q : Nat} (h : (s.pass n q).tick = s.tm.lastTick + 1) :
    s.passTicks edges pll n q =
      let x := s.tickMoment (s.tm.lastTick + 1) n q
      (((s.pass x.1 x.2).between.tickWork (s.tm.lastTick + 1) edges pll).pass (n - x.1) q).between := by
  have hfuel : (s.pass n q).tick - s.tm.lastTick = 0 + 1 := by omega
  unfold State.passTicks
  rw [hfuel, State.runTicks]
  exact if_neg (by omega)

/-- With no edge of PPS_IN waiting and nothing found, the row passes the time to its moment. -/
theorem exec_solsticeTick_eq {m : Moment} {s : State} (edges : Option Nat) (pll : Bool) (hpps : s.tm.ppsEdge = none) (hfinds : m.finds = []) :
    exec (.solsticeTick m edges pll) s = .next (s.diffArea3.passTicks edges pll m.edges m.quarters) := by
  have htm : s.tm = s.diffArea3.tm := (State.diffArea3_framed (rst := false) (F := [.net]) rfl (.refl s)).kept (f := .tm) (by decide)
  show Host.Outcome.next (s.elapseWith edges pll m) = _
  unfold State.elapseWith
  simp only [← htm, hpps, hfinds]
  rfl

/-- The work of a tick that falls due, with the time before it and after it. -/
def State.tickAround (s : State) (k : Nat) (edges : Option Nat) (pll : Bool) (n q n' q' : Nat) : State :=
  (((s.pass n q).between.tickWork k edges pll).pass n' q').between

theorem State.tickAround_lastTick (s : State) (k : Nat) (edges : Option Nat) (pll : Bool) (n q n' q' : Nat) :
    (s.tickAround k edges pll n q n' q').tm.lastTick = k :=
  ((State.pass_keepsTick _ n' q').trans (State.between_keepsTick _)).lastTick.trans (State.tickWork_records _ k edges pll).1

/-- In a reset time, the trouble record, the balance unit's sample, the messages and the clocks are all that it changes. -/
theorem State.tickAround_inReset {s : State} (h : s.inReset = true) (k : Nat) (edges : Option Nat) (pll : Bool) (n q n' q' : Nat) :
    (s.tickAround k edges pll n q n' q').tm.ctlIn = s.tm.ctl ∧
      Framed false [.tm, .trb, .bal, .net, .clk] s (s.tickAround k edges pll n q n' q') := by
  have hpass : Framed false [.tm, .trb, .bal, .net, .clk] s (s.pass n q) := State.pass_framed rfl (.refl s)
  have hreset : (s.pass n q).inReset = true := h
  have hwork := hpass.after (State.tickWork_framed_inReset hreset k edges pll) rfl
  have hend : Framed false [.tm, .trb, .bal, .net, .clk] s (((s.pass n q).tickWork k edges pll).pass n' q') := State.pass_framed rfl hwork
  have hid := State.between_inReset ((hend.inReset_eq (by decide)).trans h)
  have hctl : (s.pass n q).tm.ctl = s.tm.ctl := by simp only [State.pass, TimeU.advance]
  rw [State.tickAround, State.between_inReset hreset, hid]
  exact ⟨(State.pass_keepsTick _ n' q').ctlIn.trans ((State.tickWork_records _ k edges pll).2.trans hctl), hend⟩

/-- Settles O41: no tick due and one due, each on the state that the mirrored words have left. -/
theorem solsticeTicks : Obligations.SolsticeTicks := by
  unfold Obligations.SolsticeTicks
  intro m s u edges pll d k x q
  refine ⟨?_, fun hpps hfinds => ?_⟩
  · obtain ⟨htm, hclk, hbal⟩ := State.sampleTick_samples { u with tm := { u.tm with lastTick := u.tm.lastTick + 1 }, net := { u.net with area3Sent := [] } }
    obtain ⟨hctl, ht48, -⟩ := State.sampleTime_samples { u with tm := { u.tm with lastTick := u.tm.lastTick + 1 }, net := { u.net with area3Sent := [] } }
    have hkept := State.sampleTick_framedGate { u with tm := { u.tm with lastTick := u.tm.lastTick + 1 }, net := { u.net with area3Sent := [] } }
    exact ⟨(congrArg TimeU.ctlIn htm).trans hctl, hclk, hbal, (congrArg TimeU.t48 htm).trans ht48, (hkept.kept (f := .entries) (by decide)).symm,
      (hkept.kept (f := .ledgers) (by decide)).symm, (hkept.kept (f := .mem) (by decide)).symm, (hkept.kept (f := .parts) (by decide)).symm⟩
  · have hd : Framed false [.net] s d := State.diffArea3_framed rfl (.refl s)
    have htm : s.tm = d.tm := hd.kept (f := .tm) (by decide)
    rw [exec_solsticeTick_eq edges pll hpps hfinds]
    refine ⟨fun hnone => ?_, fun hone => ?_⟩
    · rw [State.passTicks_none (htm ▸ hnone)]
      have htick : KeepsTick s (d.pass m.edges m.quarters).between :=
        ((KeepsTick.of_tm htm.symm).trans (d.pass_keepsTick _ _)).trans (State.between_keepsTick _)
      have hkept : Framed false [.tm, .clk, .rs, .entries, .home, .slots, .parts, .ints, .cmi, .com, .net, .hrpOut] s (d.pass m.edges m.quarters).between :=
        State.between_framed rfl (State.pass_framed rfl (hd.mono rfl))
      exact ⟨_, rfl, rfl, htick.lastTick, htick.ctlIn, (hkept.kept (f := .ledgers) (by decide)).symm⟩
    · rw [State.passTicks_one (htm ▸ hone), ← htm]
      refine ⟨_, rfl, State.tickAround_lastTick d k edges pll x.1 x.2 (m.edges - x.1) m.quarters, rfl, fun hreset => ?_⟩
      have hdreset : d.inReset = true := (hd.inReset_eq (by decide)).trans hreset
      obtain ⟨hctl, hwork⟩ := State.tickAround_inReset hdreset k edges pll x.1 x.2 (m.edges - x.1) m.quarters
      have hkept : Framed false [.tm, .trb, .bal, .net, .clk] s (d.tickAround k edges pll x.1 x.2 (m.edges - x.1) m.quarters) := (hd.mono rfl).after hwork rfl
      exact ⟨hctl.trans (congrArg TimeU.ctl htm.symm), (hkept.kept (f := .entries) (by decide)).symm, (hkept.kept (f := .ledgers) (by decide)).symm,
        (hkept.kept (f := .parts) (by decide)).symm, (hkept.kept (f := .mem) (by decide)).symm, (hkept.kept (f := .img) (by decide)).symm,
        (hkept.kept (f := .role) (by decide)).symm⟩

end Sys2Proof.Machine
end

section
/-! SUPPORT. The type of a delivered ring message picks its act (R395), and the frame of the messages follows from those of the acts. -/
namespace Sys2Proof.Machine

/-- The act of a message type (R395). -/
def State.actAs (s : State) (typ : Nat) (it : Item) : State :=
  match typ with
  | 0x01 => s.actItem it
  | 0x02 => s.actOpen it
  | 0x03 => s.actOpenReply it
  | 0x04 => s.actStep it
  | 0x05 => s.actResolve it
  | 0x06 => s.actStreamEnd it
  | 0x07 => s.actClose it
  | 0x08 => s.actCancel it
  | 0x09 => s.actCmd it
  | 0x0A => s.actCmdReply it
  | 0x10 => s.takeTime (msgWords it)
  | 0x11 => s.actBalance it
  | 0x18 => s.actPrepare it
  | 0x19 => s.actAck it
  | 0x1A => s.actGo it
  | 0x1B => s.actAbort it
  | 0x20 => s.actMirror it
  | 0x21 => s.actPair it
  | 0x28 => s.actRestart it
  | _ => s

theorem State.handleMsg_as {it : Item} {typ : Nat} (s : State) (h : rType it.w0 = typ) : s.handleMsg it = s.actAs typ it := by
  subst h; rfl

/-- A row of a message changes what the act of its type changes, and beside that the ring, the trouble record and what it raises. -/
theorem State.receiveType_framed_as {F : List Field} {s : State} {typ : Nat} {x : RxMsg} (hF : ([.trb, .parts, .ints, .net] : List Field).all (F.contains ·) = true)
    (hact : ∀ (u : State) (it : Item), Framed true F s u → Framed true F s (u.actAs typ it)) : Framed true F s (s.receiveType typ x) :=
  State.receiveType_framed_of hF (.refl s) fun u it htype hu => u.handleMsg_as htype ▸ hact u it hu

/-- A row of a ring message answers a next state, in which only the parts that it names differ from those of its moment, unless a reset is
asserted. -/
theorem exec_message_framed (s : State) : ∀ c : Instr, c.message.isSome = true → ∃ t, exec c s = .next t ∧ Framed true (touches c) (s.moved c) t
  | .item _ _, _ => ⟨_, rfl, State.receiveType_framed_as rfl fun _ _ => State.actItem_framed rfl⟩
  | .openMsg _ _, _ => ⟨_, rfl, State.receiveType_framed_as rfl fun _ _ => State.actOpen_framed rfl⟩
  | .openReply _ _, _ => ⟨_, rfl, State.receiveType_framed_as rfl fun _ _ => State.actOpenReply_framed rfl⟩
  | .stepMsg _ _, _ => ⟨_, rfl, State.receiveType_framed_as rfl fun _ _ => State.actStep_framed rfl⟩
  | .resolve _ _, _ => ⟨_, rfl, State.receiveType_framed_as rfl fun _ _ => State.actResolve_framed rfl⟩
  | .streamEnd _ _, _ => ⟨_, rfl, State.receiveType_framed_as rfl fun _ _ => State.actStreamEnd_framed rfl⟩
  | .close _ _, _ => ⟨_, rfl, State.receiveType_framed_as rfl fun _ _ => State.actClose_framed rfl⟩
  | .cancel _ _, _ => ⟨_, rfl, State.receiveType_framed_as rfl fun _ _ => State.actCancel_framed rfl⟩
  | .cmd _ _, _ => ⟨_, rfl, State.receiveType_framed_as rfl fun _ _ => State.actCmd_framed rfl⟩
  | .cmdReply _ _, _ => ⟨_, rfl, State.receiveType_framed_as rfl fun _ _ => State.actCmdReply_framed rfl⟩
  | .time _ _, _ => ⟨_, rfl, State.receiveType_framed_as rfl fun _ _ => State.takeTime_framed rfl⟩
  | .balance _ _, _ => ⟨_, rfl, State.receiveType_framed_as rfl fun _ _ => State.actBalance_framed rfl⟩
  | .prepare _ _, _ => ⟨_, rfl, State.receiveType_framed_as rfl fun _ _ => State.actPrepare_framed rfl⟩
  | .ack _ _, _ => ⟨_, rfl, State.receiveType_framed_as rfl fun _ _ => State.actAck_framed rfl⟩
  | .go _ _, _ => ⟨_, rfl, State.receiveType_framed_as rfl fun _ _ => State.actGo_framed rfl⟩
  | .abort _ _, _ => ⟨_, rfl, State.receiveType_framed_as rfl fun _ _ => State.actAbort_framed rfl⟩
  | .mirror _ _, _ => ⟨_, rfl, State.receiveType_framed_as rfl fun _ _ => State.actMirror_framed rfl⟩
  | .pair _ _, _ => ⟨_, rfl, State.receiveType_framed_as rfl fun _ _ => State.actPair_framed rfl⟩
  | .restart _ _, _ => ⟨_, rfl, State.receiveType_framed_as rfl fun _ _ => State.actRestart_framed rfl⟩

/-- Settles O59: the row of each type changes only the parts it names, or asserts a reset. -/
theorem messageFrames : Obligations.MessageFrames := by
  unfold Obligations.MessageFrames
  intro c s t f hmsg hexec hreset hf
  obtain ⟨u, hu, hframed⟩ := exec_message_framed s c hmsg
  cases hu.symm.trans hexec
  exact hframed.out hreset hf

end Sys2Proof.Machine
end

section
/-! SUPPORT. The twin commands (R406, R409, R413): what each does on a gate that may pair, that is paired, and in the window after a reset. -/
namespace Sys2Proof.Machine

section Twin
variable {s : State} {i : Issuer}

theorem State.onPairTwin_acts {w : Word} (hp0 : i.isP0 = true) (h : Starts s 0x50 i [w]) (hs : stray w [(63, 54)] = false) :
    s.onPairTwin = s.popPkt.pairTwin i (bf w 63 54) := by
  unfold State.onPairTwin
  refine (runCmd_acts h (by decide) hp0 rfl ?_).trans rfl
  simpa [wat] using hs

theorem State.onUnpairTwin_acts (hp0 : i.isP0 = true) (h : Starts s 0x51 i []) : s.onUnpairTwin = s.popPkt.unpairTwin i :=
  runCmd_acts h (by decide) hp0 rfl rfl

theorem State.pairTwin_asks {g : Nat} (hmay : s.mayPair g = true) (hfree : s.net.pairFor = none) :
    s.pairTwin i g = ({ s with net := { s.net with pairFor := some i } } : State).sendTo typPair g 4 (pairPayload false false .ok) := by
  simp [State.pairTwin, hmay, hfree]

theorem State.pairTwin_busy {g : Nat} (h : s.mayPair g = false ∨ s.net.pairFor ≠ none) : s.pairTwin i g = s.answer i .busy := by
  rcases h with h | h
  · simp [State.pairTwin, h]
  · simp [State.pairTwin, Option.isSome_iff_ne_none.2 h]

theorem State.unpairTwin_unpaired (h : s.net.paired = false) : s.unpairTwin i = s.answer i .notPaired := by
  simp [State.unpairTwin, h]

theorem State.unpairTwin_busy (h : s.net.paired = true) (hheld : s.net.unpairFor ≠ none) : s.unpairTwin i = s.answer i .busy := by
  simp [State.unpairTwin, h, Option.isSome_iff_ne_none.2 hheld]

theorem State.unpairTwin_atOnce (h : s.net.paired = true) (hfree : s.net.unpairFor = none) (hwindow : s.com.window = true) :
    s.unpairTwin i = (s.clearPair.sendTo typPair s.net.twin 4 (pairPayload true true .ok)).answer i .ok := by
  simp [State.unpairTwin, h, hfree, hwindow]

theorem State.unpairTwin_asks (h : s.net.paired = true) (hfree : s.net.unpairFor = none) (hwindow : s.com.window = false) :
    s.unpairTwin i = ({ s with net := { s.net with unpairFor := some i } } : State).sendTo typPair s.net.twin 4
      (pairPayload false true (if s.quiesced then .ok else .notIdle)) := by
  simp [State.unpairTwin, h, hfree, hwindow]

end Twin

/-- Settles O23: each command, in each state of the pairing, is one of the equations above. -/
theorem twinCommands : Obligations.TwinCommands := by
  unfold Obligations.TwinCommands
  intro m s i w p g hp0
  refine ⟨fun h hs => ?_, fun h => ?_⟩
  · have hexec : exec (.pairTwin m) s = .next (p.pairTwin i g) := congrArg Host.Outcome.next (State.onPairTwin_acts hp0 h hs)
    exact ⟨fun hmay hfree => by rw [hexec, State.pairTwin_asks hmay hfree], fun hbusy => by rw [hexec, State.pairTwin_busy hbusy]⟩
  · have hexec : exec (.unpairTwin m) s = .next (p.unpairTwin i) := congrArg Host.Outcome.next (State.onUnpairTwin_acts hp0 h)
    refine ⟨fun hun => ?_, fun hpair hheld => ?_, fun hpair hfree hwin => ⟨p.clearPair, ?_, rfl, rfl, rfl, rfl, rfl⟩, fun hpair hfree hwin => ?_⟩
    · rw [hexec, State.unpairTwin_unpaired hun]
    · rw [hexec, State.unpairTwin_busy hpair hheld]
    · rw [hexec, State.unpairTwin_atOnce hpair hfree hwin]
    · rw [hexec, State.unpairTwin_asks hpair hfree hwin]

end Sys2Proof.Machine
end

section
/-! SUPPORT. The ring's transmit side (R388, R394, R397) and the mirror's queue and copy (R406, R407): which message a slot carries, what
enters the mirror queue, and the end of the copy. -/
namespace Sys2Proof.Machine

/-- The oldest message of the lowest class is the one that none before it undercuts or equals and none behind it undercuts (R397). -/
theorem takeLowest_of_least {before after : List QMsg} {q : QMsg} (hq : q.cls < 6) (hb : ∀ x ∈ before, q.cls < x.cls) (ha : ∀ x ∈ after, q.cls ≤ x.cls) :
    takeLowest (before ++ q :: after) = some (q, before ++ after) := by
  have hlower (c : Nat) (hc : c < q.cls) : (before ++ q :: after).findIdx? (fun x => x.cls == c) = none := by
    rw [List.findIdx?_eq_none_iff]
    intro x hx
    rw [beq_eq_false_iff_ne]
    rcases List.mem_append.1 hx with h | h
    · have := hb x h; omega
    · rcases List.mem_cons.1 h with rfl | h
      · omega
      · have := ha x h; omega
  have hown : (before ++ q :: after).findIdx? (fun x => x.cls == q.cls) = some before.length := by
    have hnone : before.findIdx? (fun x => x.cls == q.cls) = none := by
      rw [List.findIdx?_eq_none_iff]
      intro x hx
      rw [beq_eq_false_iff_ne]
      have := hb x hx; omega
    simp [List.findIdx?_append, hnone, List.findIdx?_cons]
  have hfind : (List.range 6).findSome? (fun c => (before ++ q :: after).findIdx? (fun x => x.cls == c)) = some before.length := by
    rw [List.findSome?_eq_some_iff]
    refine ⟨List.range q.cls, q.cls, (List.range (6 - (q.cls + 1))).map (· + (q.cls + 1)), ?_, hown, fun c hc => hlower c (List.mem_range.1 hc)⟩
    have hsix : 6 = q.cls + 1 + (6 - (q.cls + 1)) := by omega
    conv_lhs => rw [hsix, List.range_add, List.range_succ]
    simp [Nat.add_comm]
  unfold takeLowest
  rw [hfind]
  simp [List.eraseIdx_append_of_length_le]

theorem takeLowest_nil : takeLowest [] = none := by decide

theorem State.onGrpTxSlot_used {s : State} {l : Nat} (h : s.links.contains l = true) : s.onGrpTxSlot l = s.txSlot l := by
  rw [State.onGrpTxSlot, h]; rfl

theorem State.onGrpTxSlot_unused {s : State} {l : Nat} (h : s.links.contains l = false) (hreset : s.inReset = false) : s.onGrpTxSlot l = s := by
  rw [State.onGrpTxSlot, h, hreset]; rfl

/-- Without a contract no message is late (R397). -/
theorem State.txLate_free {s : State} (h : s.contract = none) (m : QMsg) : s.txLate m = s := by simp [State.txLate, h]

/-- A slot of a link carries an item, or none. -/
def State.carry (s : State) (l : Nat) (o : Option Item) : State := { s with net := { s.net with sent := s.net.sent.set l o } }

theorem State.txSlot_some {s t : State} {l : Nat} {q : QMsg} (hfree : t.contract = none) (h : s.txTake l = some (q, t)) :
    s.txSlot l = t.carry l (some (s.txItem q.item)) := by
  unfold State.txSlot
  rw [h]
  exact congrArg (State.carry · l (some (s.txItem q.item))) (State.txLate_free hfree q)

theorem State.txSlot_none {s : State} {l : Nat} (h : s.txTake l = none) : s.txSlot l = s.carry l none := by
  unfold State.txSlot
  rw [h]
  rfl

section Slot
variable {s : State} {l : Nat} {q : QMsg} {after : List QMsg} (hon : s.ringOn = true)
include hon

theorem State.txQueue_on : s.txQueue l = s.net.queues.getD l [] := by simp [State.txQueue, hon]

theorem State.txMirror_twin (h : s.twinLink = some l) (hq : s.net.mirrorQ = q :: after) : s.txMirror l = some q := by
  simp [State.txMirror, hon, h, hq]

omit hon in
theorem State.txMirror_other (h : s.twinLink ≠ some l) : s.txMirror l = none := by simp [State.txMirror, h]

omit hon in
/-- What a link carries when its own queue gives the message. -/
theorem State.txSlot_queued {rest : List QMsg} (hfree : s.contract = none) (h : takeLowest (s.txQueue l) = some (q, rest)) (hq : q.cls < 5 ∨ s.twinLink ≠ some l) :
    s.txSlot l = ({ s with net := { s.net with queues := s.net.queues.set l rest } } : State).carry l (some (s.txItem q.item)) := by
  refine State.txSlot_some (t := { s with net := { s.net with queues := s.net.queues.set l rest } }) hfree ?_
  unfold State.txTake
  rw [h]
  cases hm : s.txMirror l with
  | none => rfl
  | some o =>
    have hcls : ¬ (q.cls = 5 ∧ o.since < q.since) := by
      rcases hq with hq | hq
      · omega
      · rw [State.txMirror_other hq] at hm; cases hm
    simp only [if_neg hcls]

/-- What the link to the twin carries when only the mirror queue waits. -/
theorem State.txSlot_mirrors (hfree : s.contract = none) (h : s.net.queues.getD l [] = []) (htwin : s.twinLink = some l) (hq : s.net.mirrorQ = q :: after) :
    s.txSlot l = ({ s with net := { s.net with mirrorQ := after, mirrorRp := (s.net.mirrorRp + 8) % 2 ^ 16 } } : State).carry l (some (s.txItem q.item)) := by
  refine State.txSlot_some (t := { s with net := { s.net with mirrorQ := after, mirrorRp := (s.net.mirrorRp + 8) % 2 ^ 16 } }) hfree ?_
  simp only [State.txTake, State.txQueue_on hon, h, takeLowest_nil, State.txMirror_twin hon htwin hq, hq, List.drop_one, List.tail_cons]

theorem State.txSlot_idle (h : s.net.queues.getD l [] = []) (htwin : s.twinLink ≠ some l) : s.txSlot l = s.carry l none := by
  refine State.txSlot_none ?_
  simp only [State.txTake, State.txQueue_on hon, h, takeLowest_nil, State.txMirror_other htwin]

end Slot

theorem State.onMirrorEnqueue_unpaired {s : State} (h : s.net.paired = false) : s.onMirrorEnqueue = s := by simp [State.onMirrorEnqueue, h]
theorem State.onTwinCopyDone_unpaired {s : State} (h : s.net.paired = false) : s.onTwinCopyDone = s := by simp [State.onTwinCopyDone, h]

section Mirror
variable {s : State}

theorem State.onMirrorEnqueue_paired (h : s.net.paired = true) (hreset : s.inReset = false) : s.onMirrorEnqueue = s.enqueueMirror := by
  simp [State.onMirrorEnqueue, h, hreset]

/-- The next words of the copy, three at most (R406). -/
def State.copyPart (s : State) (n : Nat) : List MirrorWrite := (List.range (min 3 (mirrorSize - n))).map (fun k => s.copyWord (n + k))

@[simp] theorem State.copyPart_length (s : State) (n : Nat) : (s.copyPart n).length = min 3 (mirrorSize - n) := by simp [State.copyPart]

/-- One message of the copy handed to the queue (R406, R407). -/
def State.copied (s : State) (n : Nat) : State :=
  { s with net := { s.net with copyNext := some (n + (s.copyPart n).length), mirrorQ := s.net.mirrorQ ++ [s.mirrorMsg (s.copyPart n)],
                               mirrorWp := (s.net.mirrorWp + 8) % 2 ^ 16 } }

theorem State.enqueueMirror_eq : s.enqueueMirror = if 4096 ≤ s.handMirror.net.mirrorQ.length then s.handMirror
    else if (s.handMirror.copyPart (s.handMirror.net.copyNext.getD mirrorSize)).isEmpty then s.handMirror
    else s.handMirror.copied (s.handMirror.net.copyNext.getD mirrorSize) := rfl

/-- With no copy under way only the waiting writes enter the queue. -/
theorem State.enqueueMirror_writes (h : s.net.copyNext = none) : s.enqueueMirror = s.handMirror := by
  have hcopy : s.handMirror.net.copyNext = none := h
  rw [State.enqueueMirror_eq, hcopy]
  simp [State.copyPart]

theorem State.handMirror_mirrorQ (h : s.net.mirrorWait = []) : s.handMirror.net.mirrorQ = s.net.mirrorQ := by
  simp [State.handMirror, h, threes]

/-- With no write waiting and room in the queue the copy goes on by one message. -/
theorem State.enqueueMirror_copies {n : Nat} (h : s.net.copyNext = some n) (hn : n < mirrorSize) (hwait : s.net.mirrorWait = [])
    (hroom : s.net.mirrorQ.length < 4096) : s.enqueueMirror = s.handMirror.copied n := by
  have hcopy : s.handMirror.net.copyNext = some n := h
  have hroom' : ¬ 4096 ≤ s.handMirror.net.mirrorQ.length := by rw [State.handMirror_mirrorQ hwait]; omega
  have hsome : (s.handMirror.copyPart n).isEmpty = false := by
    rw [List.isEmpty_eq_false_iff, ← List.length_pos_iff, State.copyPart_length]; omega
  rw [State.enqueueMirror_eq, if_neg hroom', hcopy, Option.getD_some, hsome]
  rfl

/-- A message of mirrored words is of class 5, type MIRROR, and goes to the twin (R395, R407). -/
theorem State.mirrorMsg_header (s : State) (ws : List MirrorWrite) : (s.mirrorMsg ws).cls = 5 ∧ rType (s.mirrorMsg ws).item.w0 = typMirror ∧
    rDst (s.mirrorMsg ws).item.w0 = s.net.twin % 2 ^ 10 := by
  refine ⟨rfl, ?_, ?_⟩
  · exact (bf_pack (v := typMirror) (hi := 59) (lo := 54) (by simp) (by decide) (by simp)).trans (by decide)
  · exact bf_pack (v := s.net.twin) (hi := 53) (lo := 44) (by simp) (by decide) (by simp)

section Done
variable (h : s.net.paired = true) (hcopied : s.net.copyNext = some mirrorSize)
include h hcopied

theorem State.onTwinCopyDone_paired : s.onTwinCopyDone = ({ s with net := { s.net with synced := true, copyNext := none } } : State).copiesDone := by
  unfold State.onTwinCopyDone
  rw [h, hcopied]
  simp

theorem State.onTwinCopyDone_waits (hwait : s.net.pairFor = none ∨ s.net.peerDone = false) :
    s.onTwinCopyDone = { s with net := { s.net with synced := true, copyNext := none } } := by
  rw [State.onTwinCopyDone_paired h hcopied]
  rcases hwait with hw | hw
  · simp only [State.copiesDone, hw]
  · unfold State.copiesDone
    dsimp only
    rw [hw]
    split <;> rfl

theorem State.onTwinCopyDone_answers {i : Issuer} (hi : s.net.pairFor = some i) (hpeer : s.net.peerDone = true) :
    s.onTwinCopyDone = ({ s with net := { s.net with synced := true, copyNext := none, pairFor := none } } : State).answer i .ok := by
  rw [State.onTwinCopyDone_paired h hcopied]
  unfold State.copiesDone
  dsimp only
  rw [hi, hpeer]
  rfl

end Done

end Mirror

/-- Settles O49: a slot with a message of the link's own, of the mirror or with none; the mirror's queue with the copy under way or over; and the
end of the copy. -/
theorem ringSends : Obligations.RingSends := by
  unfold Obligations.RingSends
  intro m s l n q before after i e waiting
  refine ⟨fun hlink hon hfree _ _ _ => ?_, fun hlink hreset => ?_, fun hpair => ⟨?_, ?_⟩, fun hpair hreset => ?_, fun hpair hcopied => ⟨fun hwait => ?_, fun hi hpeer => ?_⟩⟩
  · have hexec : exec (.grpTxSlot m l) s = .next (e.txSlot l) := congrArg Host.Outcome.next (State.onGrpTxSlot_used hlink)
    rw [hexec]
    refine ⟨fun hq hcls hbefore hafter hown => ?_, fun hq htwin => ?_, fun hq htwin hmirror => ?_⟩
    · have htake : takeLowest (e.txQueue l) = some (q, before ++ after) := by
        rw [State.txQueue_on hon, hq]; exact takeLowest_of_least hcls hbefore hafter
      exact ⟨_, congrArg Host.Outcome.next (State.txSlot_queued hfree htake hown), rfl, rfl, rfl, rfl⟩
    · exact ⟨_, congrArg Host.Outcome.next (State.txSlot_idle hon hq htwin), rfl, rfl⟩
    · exact ⟨_, congrArg Host.Outcome.next (State.txSlot_mirrors hon hfree hq htwin hmirror), rfl, rfl, rfl⟩
  · exact congrArg Host.Outcome.next (State.onGrpTxSlot_unused hlink hreset)
  · exact congrArg Host.Outcome.next (State.onMirrorEnqueue_unpaired hpair)
  · exact congrArg Host.Outcome.next (State.onTwinCopyDone_unpaired hpair)
  · have hexec : exec (.mirrorEnqueue m) s = .next e.enqueueMirror := congrArg Host.Outcome.next (State.onMirrorEnqueue_paired hpair hreset)
    rw [hexec]
    refine ⟨fun hnone => ⟨_, congrArg Host.Outcome.next (State.enqueueMirror_writes hnone), rfl, rfl, hnone, rfl, rfl⟩, fun hcopy hn hwait hroom => ?_⟩
    refine ⟨_, e.handMirror.mirrorMsg (e.handMirror.copyPart n), congrArg Host.Outcome.next (State.enqueueMirror_copies hcopy hn hwait hroom), ?_, ?_,
      rfl, (State.mirrorMsg_header _ _).2.1, (State.mirrorMsg_header _ _).2.2, rfl, rfl⟩
    · exact congrArg (fun k => some (n + k)) (State.copyPart_length _ _)
    · exact congrArg (· ++ _) (State.handMirror_mirrorQ hwait)
  · exact congrArg Host.Outcome.next (State.onTwinCopyDone_waits hpair hcopied hwait)
  · exact congrArg Host.Outcome.next (State.onTwinCopyDone_answers hpair hcopied hi hpeer)

end Sys2Proof.Machine
end

section
/-! SUPPORT. What a gate does with a ring message that is not its own (R389, R392, R393, R395, R400): passed on, dropped, or lost to an
uncorrectable word. -/
namespace Sys2Proof.Machine

/-- The port of a message's link reports lock (log 118). -/
def State.locked (s : State) (x : RxMsg) : State :=
  if x.link < 4 then { s with net := { s.net with linkUp := s.net.linkUp ||| 2 ^ x.link } } else s

/-- A lock leaves everything but the bit of its link. -/
theorem State.locked_shape (s : State) (x : RxMsg) : ∃ up, s.locked x = { s with net := { s.net with linkUp := up } } := by
  unfold State.locked
  split <;> exact ⟨_, rfl⟩

theorem State.locked_route (s : State) (x : RxMsg) (g : Nat) : (s.locked x).route g = s.route g := by
  obtain ⟨up, h⟩ := s.locked_shape x
  rw [h]; rfl

theorem State.locked_gate (s : State) (x : RxMsg) : (s.locked x).gate = s.gate := by
  obtain ⟨up, h⟩ := s.locked_shape x
  rw [h]; rfl

theorem State.receive_unused {s : State} {x : RxMsg} (h : s.ringOn = false ∨ s.links.contains x.link = false) : s.receive x = s.locked x := by
  unfold State.receive
  rcases h with h | h <;> rw [h] <;> simp <;> rfl

section Used
variable {s : State} {x : RxMsg} (hon : s.ringOn = true) (hlink : s.links.contains x.link = true)
include hon hlink

theorem State.receive_clean (h : x.find = .clean) : s.receive x = (s.locked x).routeMsg x.link x.item := by
  unfold State.receive
  rw [hon, hlink, h]
  rfl

theorem State.receive_bad (h : x.find = .bad) : s.receive x = (s.locked x).badMsg x.link x := by
  unfold State.receive
  rw [hon, hlink, h]
  rfl

end Used

section Passing
variable {s : State} {it : Item} {rx : Nat} (hk : wKind it.w0 = 6)
include hk

theorem State.routeMsg_unknown (h : ringClass (rType it.w0) false = none) : s.routeMsg rx it = s.ringDrop .ringUnknown rx it.w0 := by
  simp [State.routeMsg, hk, h]

theorem State.routeMsg_other {l hops : Nat} (hb : rBcast it.w0 = false) (hc : (ringClass (rType it.w0) false).isSome = true) (hd : rDst it.w0 ≠ s.gate)
    (hr : s.route (rDst it.w0) = some (l, hops)) : s.routeMsg rx it = s.passMsg rx l it := by
  have hc' : (ringClass (rType it.w0) false).isNone = false := by rw [← Option.not_isSome, hc]; rfl
  simp [State.routeMsg, hk, hb, hc', hd, hr]

omit hk

theorem hopLimit_other (h : rType it.w0 ≠ typTime) : hopLimit (rType it.w0) = 1022 := if_neg h

theorem State.passMsg_leaves {l : Nat} (ht : rType it.w0 ≠ typTime) (h : rHops it.w0 < 1022) : s.passMsg rx l it =
    (s.notePassing it (s.classOf it)).queueOn l (s.classOf it) { it with w0 := withHops it.w0 (rHops it.w0 + 1) } := by
  have hhop : s.hopItem it = { it with w0 := withHops it.w0 (rHops it.w0 + 1) } := if_neg ht
  rw [State.passMsg, hopLimit_other ht, if_neg (Nat.not_le.2 h), hhop]

theorem State.passMsg_loops {l : Nat} (ht : rType it.w0 ≠ typTime) (h : 1022 ≤ rHops it.w0) : s.passMsg rx l it = s.ringDrop .ringLoop rx it.w0 := by
  rw [State.passMsg, hopLimit_other ht, if_pos h]

end Passing

section Bad
variable {s : State} {x : RxMsg} (hh : x.headerReadable = true) (hk : wKind x.item.w0 = 6)
include hh hk

theorem State.badMsg_session (h : ringClass (rType x.item.w0) false = some 3) :
    s.badMsg x.link x = (s.ceLink x.link).trouble .ringUe 1 (Obj.ring x.link (rSrc x.item.w0) (rType x.item.w0)) none 0 := by
  simp [State.badMsg, hh, hk, h]

theorem State.badMsg_control {c : Nat} (h : ringClass (rType x.item.w0) false = some c) (hc : c < 3) :
    s.badMsg x.link x = (s.ceLink x.link).jobFault .ringUe (Obj.ring x.link (rSrc x.item.w0) (rType x.item.w0)) none 0 := by
  have hcls : c ≠ 3 ∧ c ≠ 4 := by omega
  simp [State.badMsg, hh, hk, h, hcls]

end Bad

/-- A fault that ends the job counts from the state before its message, for a lock and a corrected word touch nothing that it reads. -/
theorem JobEnds.of_locked {s t : State} {x : RxMsg} {l : Nat} {c : Cause} (h : JobEnds ((s.locked x).ceLink l) t c) : JobEnds s t c := by
  obtain ⟨up, hu⟩ := s.locked_shape x
  rw [hu] at h
  exact ⟨h.reach, h.length, h.source, h.jobBit, h.causeBit, h.told, h.image, h.staged, h.kept⟩

/-- Settles O47: a message off the links in use, one passed on, one that has gone too far, one of no type, and one with a bad word, class by
class. -/
theorem messagesPassOn : Obligations.MessagesPassOn := by
  unfold Obligations.MessagesPassOn
  intro m s x l hops e h u lost
  have hexec : exec (.ringForward m x) s = .next (e.receive x) := rfl
  rw [hexec]
  refine ⟨fun hoff => ?_, fun hon hlink hclean hk => ⟨fun hb hc hd hr ht => ?_, fun hc => ?_⟩, fun hon hlink hbad hh hk => ⟨fun hc => ?_, fun hc hreset => ?_⟩⟩
  · exact congrArg Host.Outcome.next (State.receive_unused hoff)
  · rw [State.receive_clean hon hlink hclean,
      State.routeMsg_other hk hb hc ((e.locked_gate x).symm ▸ hd) ((e.locked_route x _).trans hr)]
    exact ⟨fun hfew => congrArg Host.Outcome.next (State.passMsg_leaves ht hfew), fun hmany => congrArg Host.Outcome.next (State.passMsg_loops ht hmany)⟩
  · rw [State.receive_clean hon hlink hclean, State.routeMsg_unknown hk hc]
    rfl
  · rw [State.receive_bad hon hlink hbad, State.badMsg_session hh hk hc]
    rfl
  · obtain ⟨c, hclass, hlow⟩ : ∃ c, ringClass (rType h) false = some c ∧ c < 3 := by
      rcases hc with hc | hc | hc <;> exact ⟨_, hc, by decide⟩
    rw [State.receive_bad hon hlink hbad, State.badMsg_control hh hk hclass hlow]
    have hreset' : ((e.locked x).ceLink x.link).inReset = false := by
      obtain ⟨up, hu⟩ := e.locked_shape x
      rw [hu]; exact hreset
    exact ⟨_, rfl, (State.jobFault_ends _ _ _ _ hreset').of_locked⟩

end Sys2Proof.Machine
end

section
/-! SUPPORT. A message delivered to this gate acts in the state in which it was heard (R389, R395, R396, R399). -/
namespace Sys2Proof.Machine

/-- A link in use is one of the four. -/
theorem State.links_lt {s : State} {l : Nat} (h : s.links.contains l = true) : l < 4 := by
  rw [List.contains_iff_mem] at h
  exact List.mem_range.1 (List.mem_filter.1 h).1

/-- Only the ring, the trouble record and what it raises differ where a message is heard. -/
theorem State.heard_framed (s : State) (x : RxMsg) : Framed false [.trb, .parts, .ints, .net] s (s.heard x) := by
  have hup : Framed false [.trb, .parts, .ints, .net] s { s with net := { s.net with linkUp := s.net.linkUp ||| 2 ^ x.link } } :=
    ⟨id, .inr fun f hf => by cases f <;> first | rfl | exact absurd (by decide) hf⟩
  unfold State.heard
  split
  · exact State.passAll_framed rfl hup
  · exact hup

theorem State.acceptMsg_current {s : State} {link : Nat} {it : Item} (hrun : s.inReset = false)
    (hep : (ringClass (rType it.w0) false).getD 5 ≤ 2 ∨ (rEpoch it.w0 + 256 - s.com.epoch) % 256 = 0 ∨
      (rEpoch it.w0 + 256 - s.com.epoch) % 256 = 255) : s.acceptMsg link it = s.handleMsg it := by
  simp only [State.acceptMsg, hrun, Bool.false_and, Bool.false_eq_true, if_false, if_pos hep]

/-- A message that is for this gate is accepted where it was heard. -/
theorem Delivered.routed {e : State} {typ : Nat} {x : RxMsg} (h : Delivered e typ x) (hc : (ringClass typ false).isSome = true) :
    (e.locked x).routeMsg x.link x.item = (e.heard x).acceptMsg x.link x.item := by
  have hlock : e.locked x = { e with net := { e.net with linkUp := e.net.linkUp ||| 2 ^ x.link } } := if_pos (State.links_lt h.link)
  have hlisted : (ringClass (rType x.item.w0) false).isNone = false := by rw [h.type, ← Option.not_isSome, hc]; rfl
  unfold State.routeMsg
  rw [if_neg (not_not_intro h.kind), hlisted]
  rcases h.destination with ⟨hb, n, hr⟩ | ⟨hb, hd⟩
  · have hheard : e.heard x = (e.locked x).passAll x.link x.item := by rw [State.heard, if_pos hb, hlock]
    rw [hheard, State.locked_route, hb, hr]
    simp
  · have hheard : e.heard x = e.locked x := by rw [State.heard, if_neg (by rw [hb]; exact Bool.false_ne_true), hlock]
    rw [hheard, State.locked_gate, hb, if_pos hd]
    rfl

theorem Delivered.heard_running {e : State} {typ : Nat} {x : RxMsg} (h : Delivered e typ x) : (e.heard x).inReset = false :=
  ((e.heard_framed x).inReset_eq (by decide)).trans h.running

/-- A delivered message does what its type says where it was heard. -/
theorem Delivered.acts {e : State} {typ : Nat} {x : RxMsg} (h : Delivered e typ x) (hc : (ringClass typ false).isSome = true) :
    e.receiveType typ x = (e.heard x).actAs typ x.item := by
  have hcom : (e.heard x).com = e.com := ((e.heard_framed x).kept (f := .com) (by decide)).symm
  rw [State.receiveType, if_pos h.type, State.receive_clean h.enabled h.link h.clean, h.routed hc,
    State.acceptMsg_current h.heard_running (by rw [h.type, hcom]; exact h.epoch), State.handleMsg_as _ h.type]

theorem Delivered.next {s e : State} {i : Instr} {typ : Nat} {x : RxMsg} (h : Delivered e typ x) (hc : (ringClass typ false).isSome = true)
    (he : exec i s = .next (e.receiveType typ x)) : exec i s = .next ((e.heard x).actAs typ x.item) :=
  he.trans (congrArg Host.Outcome.next (h.acts hc))

end Sys2Proof.Machine
end

section
/-! SUPPORT. What the messages between gates do (R340, R360, R381, R403, R406, R407, R411): an equation or a list of what changes for each
message, and their assembly. -/
namespace Sys2Proof.Machine

/-! TIME (R381). -/
section Time
variable {s : State} {ws : List Word}

theorem State.takeTime_alone (h : s.tmMode = 2) : s.takeTime ws = s.twoMasters 1 (bf (wat ws 2) 63 54) := if_pos (.inl h)

/-- A gate that takes its time from no other hears a second master. -/
theorem State.twoMasters_notes (s : State) (action sender : Nat) : let t := s.twoMasters action sender
    bit t.trb.sticky Sticky.timeTwoMasters.idx = true ∧ t.tm = s.tm ∧ t.entries = s.entries := by
  intro t
  have hkept : Framed false [.trb, .parts, .ints] s t := State.trouble_framed rfl (.refl s)
  refine ⟨?_, (hkept.kept (f := .tm) (by decide)).symm, (hkept.kept (f := .entries) (by decide)).symm⟩
  show bit (State.trouble _ _ _ _ _ _).trb.sticky _ = true
  rw [State.trouble_sticky]
  exact bit_word_pow (by decide) _

/-- What a follower notes of a TIME message. -/
def State.noted (s : State) (ws : List Word) : State :=
  s.noteTime (bf (wat ws 0) 63 20) (bf (wat ws 2) 63 54) (bf (wat ws 2) 53 44) (bit (wat ws 2) 43)

theorem State.takeTime_follows (hmode : s.tmMode = 0) (hserving : s.tm.serving = false) (hknown : s.knownSender (bf (wat ws 2) 63 54) = true) :
    s.takeTime ws = if s.isLead then (s.noted ws).followTime (wat ws 0) (wat ws 1) (wat ws 2) else s.noted ws := by
  simp only [State.takeTime, hmode, hserving, hknown, Bool.not_true, Bool.false_eq_true, and_false, or_false, if_false,
    OfNat.zero_ne_ofNat, zero_ne_one, State.noted]

/-- The time unit after a measurement that does not step: the frequency line, the slew, and LOCKED as it is judged. -/
theorem State.servo_near {err : Int} (g edges : Nat) (h : err.natAbs ≤ 1000 * 2 ^ 16) : ∃ locked, (s.servo err g edges).tm =
    { (s.measured.tune err g).tm with slewLeft := -err * 2 ^ 31, slewStep := slewRate (-err * 2 ^ 31) edges, locked := locked } := by
  have hservo : s.servo err g edges = State.judgeLock { s.measured.tune err g with
      tm := { (s.measured.tune err g).tm with slewLeft := -err * 2 ^ 31, slewStep := slewRate (-err * 2 ^ 31) edges } } err :=
    if_neg (Nat.not_lt.2 h)
  rw [hservo]
  exact State.judgeLock_tm _ err

end Time

/-! ACK (R403). -/
section Ack
variable {s : State} {it : Item} {c : Coord} (hc : s.com.coord = some c)
include hc

theorem State.actAck_other (h : c.target ≠ targetOf it.w1 ∨ c.decided = true) : s.actAck it = s := by
  have hno : ¬ (c.target = targetOf it.w1 ∧ c.decided = false) := by
    rintro ⟨ht, hd⟩
    rcases h with h | h
    · exact h ht
    · rw [h] at hd; exact Bool.noConfusion hd
  rw [State.actAck, hc]
  exact if_neg hno

section Ours
variable (ht : c.target = targetOf it.w1) (hd : c.decided = false)
include ht hd

theorem State.actAck_counts (h : bf it.w1 7 0 = 0) :
    s.actAck it = ({ s with com := { s.com with coord := some { c with acks := c.acks ++ [rSrc it.w0] } } } : State).prepareDone := by
  rw [State.actAck, hc]
  exact (if_pos ⟨ht, hd⟩).trans (if_pos h)

theorem State.actAck_refuses (h : bf it.w1 7 0 ≠ 0) :
    s.actAck it = (s.commitEnded c).answerAll (c.replies ++ c.prepare.toList) (Status.ofCode (bf it.w1 7 0)) := by
  rw [← State.abortCommit_eq hc, State.actAck, hc]
  exact (if_pos ⟨ht, hd⟩).trans (if_neg h)

end Ours

/-- Every gate has acknowledged: MODE_PREPARE, where one waits, has its reply. -/
theorem State.prepareDone_all (h : s.allAcked c = true) :
    s.prepareDone = ({ s with com := { s.com with coord := some { c with prepare := none } } } : State).answerAll c.prepare.toList .ok := by
  rw [State.prepareDone, hc]
  exact if_pos h

end Ack

/-! PREPARE, GO and ABORT (R403). -/
section Change
variable {s : State} {it : Item}

/-- The ACK of a PREPARE. -/
def State.ackOf (s : State) (it : Item) (g : Staged) (st : Status) : State :=
  s.sendTo typAck (rSrc it.w0) 1 [pack [(g.target, 63, 20), (st.code, 7, 0)]]

theorem State.actPrepare_stages (h : s.stageCheck (s.stagedOf (msgWords it)) = none) :
    s.actPrepare it = (s.stageChange (s.stagedOf (msgWords it))).ackOf it (s.stagedOf (msgWords it)) .ok := by
  rw [State.actPrepare, h]
  rfl

theorem State.actPrepare_refuses {st : Status} (h : s.stageCheck (s.stagedOf (msgWords it)) = some st) :
    s.actPrepare it = ({ s with com := { s.com with refused := some ((s.stagedOf (msgWords it)).target, (s.stagedOf (msgWords it)).kind) } } : State).ackOf
      it (s.stagedOf (msgWords it)) st := by
  rw [State.actPrepare, h]
  rfl

variable {g : Staged}

theorem State.actGo_staged (hg : s.com.staged = some g) : s.actGo it =
    if g.target = targetOf it.w1 then { s with com := { s.com with staged := some { g with go := true } } } else s := by
  rw [State.actGo, hg]

theorem State.actAbort_staged (hr : s.com.refused = none) (hg : s.com.staged = some g) : s.actAbort it =
    if g.target = targetOf it.w1 ∧ g.go = false then s.unstage g.kind else s := by
  rw [State.actAbort, hr, hg]

/-- An abort that finds the refusal that this gate gave. -/
theorem State.actAbort_refused {k : Kind} (hr : s.com.refused = some (targetOf it.w1, k)) : let t := s.actAbort it
    t.com = { s.com with refused := none } ∧ (k = .variant → t.bal = { s.bal with aborts := satAdd 16 s.bal.aborts 1 }) ∧ t.entries = s.entries := by
  intro t
  have ht : t = if k = .variant then State.countAbort { s with com := { s.com with refused := none } } else { s with com := { s.com with refused := none } } := by
    show s.actAbort it = _
    rw [State.actAbort, hr]
    exact if_pos rfl
  rw [ht]
  split
  · have hkept := State.raiseAll_only { s with com := { s.com with refused := none }, bal := { s.bal with aborts := satAdd 16 s.bal.aborts 1 } } 5
    exact ⟨(hkept.kept (f := .com) (by decide)).symm, fun _ => (hkept.kept (f := .bal) (by decide)).symm,
      (hkept.kept (f := .entries) (by decide)).symm⟩
  · exact ⟨rfl, fun hv => absurd hv ‹_›, rfl⟩

end Change

/-! MIRROR (R407). -/

theorem State.takeMirror_none {s : State} {a d : Word} (h : bit a 63 = false) : s.takeMirror a d = s := by
  rw [State.takeMirror, h]
  exact if_neg Bool.false_ne_true

/-- One word of the mirror, and no other, is what the twin says. -/
theorem State.takeMirror_stores {s : State} {a d : Word} (h : bit a 63 = true) (hlast : mirrorPlace (bf a 62 61) (bf a 60 39) + 1 < mirrorSize) :
    let place := mirrorPlace (bf a 62 61) (bf a 60 39)
    sget 0#64 (s.takeMirror a d).tier.mirror place = d ∧
      (∀ k, k ≠ place → sget 0#64 (s.takeMirror a d).tier.mirror k = sget 0#64 s.tier.mirror k) ∧
      (s.takeMirror a d).entries = s.entries ∧ (s.takeMirror a d).net = s.net := by
  intro place
  have ht : s.takeMirror a d = { s with tier :=
      { s.tier with mirror := sset 0#64 s.tier.mirror place d, mirrorLost := s.tier.mirrorLost.filter (· != place) } } := by
    rw [State.takeMirror, h]
    exact (if_pos rfl).trans (if_neg (Nat.ne_of_lt hlast))
  rw [ht]
  exact ⟨sget_sset_same, fun k hk => sget_sset_ne hk, rfl, rfl⟩

/-! PAIR (R406). -/
section Pair
variable {s : State} {it : Item} (hreply : bit it.w1 63 = false) (hunpair : bit it.w1 62 = false)
include hreply hunpair

theorem State.actPair_asked : s.actPair it =
    (if (if !s.mayPair (rSrc it.w0) then .busy else if !(s.dev 0).trained then .noSpace else Status.ok) = Status.ok
      then s.setPair (rSrc it.w0) else s).sendTo typPair (rSrc it.w0) 4
      (pairPayload true false (if !s.mayPair (rSrc it.w0) then .busy else if !(s.dev 0).trained then .noSpace else .ok)) := by
  rw [State.actPair, hreply, hunpair]

theorem State.actPair_busy (h : s.mayPair (rSrc it.w0) = false) : s.actPair it = s.sendTo typPair (rSrc it.w0) 4 (pairPayload true false .busy) := by
  rw [State.actPair_asked hreply hunpair, h]
  rfl

theorem State.actPair_pairs (h : s.mayPair (rSrc it.w0) = true) (htrained : (s.dev 0).trained = true) :
    s.actPair it = (s.setPair (rSrc it.w0)).sendTo typPair (rSrc it.w0) 4 (pairPayload true false .ok) := by
  rw [State.actPair_asked hreply hunpair, h, htrained]
  rfl

end Pair

/-! RESTART (R411, R459). -/

/-- A restart on record as handled, with its entry in the log where the job has none. -/
def State.restartNoted (s : State) (it : Item) : State :=
  let origin := bf it.w1 63 54
  let tick := bf it.w1 53 10
  let s0 : State := { s with com := { s.com with restarts := s.com.restarts ++ [(origin, tick)] } }
  if s0.trb.jobEntry.isSome then s0
  else
    let s2 := (s0.setSticky .jobFault).logNew (logWord1 .jobFault 4 Obj.none none (bf it.w1 7 0)) 0 (restartDetail origin tick)
    { s2 with trb := { s2.trb with jobEntry := some s0.logNext } }

theorem State.restartNoted_restarts (s : State) (it : Item) : (s.restartNoted it).com.restarts = s.com.restarts ++ [(bf it.w1 63 54, bf it.w1 53 10)] := by
  unfold State.restartNoted
  dsimp only
  split
  · rfl
  · have hlog := (State.logNew_framed (rst := false) (F := [.trb]) (w1 := logWord1 .jobFault 4 Obj.none none (bf it.w1 7 0)) (obj := 0)
      (detail := restartDetail (bf it.w1 63 54) (bf it.w1 53 10)) rfl (State.setSticky_framed (b := .jobFault) rfl
      (.refl { s with com := { s.com with restarts := s.com.restarts ++ [(bf it.w1 63 54, bf it.w1 53 10)] } }))).kept (f := .com) (by decide)
    exact congrArg CommitU.restarts hlog.symm

theorem State.restartNoted_framed (s : State) (it : Item) : Framed false [.com, .trb] s (s.restartNoted it) := by
  have hcom : Framed false [.com, .trb] s { s with com := { s.com with restarts := s.com.restarts ++ [(bf it.w1 63 54, bf it.w1 53 10)] } } :=
    ⟨id, .inr fun f hf => by cases f <;> first | rfl | exact absurd (by decide) hf⟩
  unfold State.restartNoted
  dsimp only
  split
  · exact hcom
  · have hlog := State.logNew_framed (w1 := logWord1 .jobFault 4 Obj.none none (bf it.w1 7 0)) (obj := 0)
      (detail := restartDetail (bf it.w1 63 54) (bf it.w1 53 10)) rfl (State.setSticky_framed (b := .jobFault) rfl hcom)
    generalize State.logNew _ _ _ _ = u at hlog ⊢
    exact hlog.after (G := [.trb]) ⟨id, .inr fun f hf => by cases f <;> first | rfl | exact absurd (by decide) hf⟩ rfl

/-- The job-reach reset asserted outside a reset. -/
structure JobAsserted (src cycles : Nat) (s t : State) : Prop where
  reach : t.rs.reach = some .job
  source : t.rs.sources.testBit src = true
  length : t.rs.until' = s.tm.refclk + cycles
  restarts : t.com.restarts = s.com.restarts
  image : t.img.force = none
  mem : s.tier.ops = [] → t.mem = s.mem

theorem State.assertReset_job {s : State} (src cycles : Nat) (h : s.inReset = false) : JobAsserted src cycles s (s.assertReset .job src cycles) := by
  have hreach : s.rs.reach = none := by simpa [State.inReset] using h
  unfold State.assertReset
  rw [hreach]
  dsimp only [State.clearFor]
  have f : Framed false [.rs] { s with rs := { s.rs with ctlIn := s.rs.ctl } } (({ s with rs := { s.rs with ctlIn := s.rs.ctl } } : State).dropOut .job) :=
    State.dropOut_framed rfl (Framed.refl _)
  generalize State.dropOut _ _ = b at *
  have hmem : s.mem = b.mem := f.kept (f := .mem) (by decide)
  have hcom : s.com = b.com := f.kept (f := .com) (by decide)
  have htier : s.tier = b.tier := f.kept (f := .tier) (by decide)
  obtain ⟨-, -, jrestarts, -, -, -, jimage, jmem⟩ := b.clearJob_leaves
  refine ⟨rfl, ?_, rfl, by rw [hcom]; exact jrestarts, jimage, by rw [htier, hmem]; exact jmem⟩
  show (2 ^ src ||| _).testBit src = true
  rw [Nat.testBit_or, Nat.testBit_two_pow_self, Bool.true_or]

section Restart
variable {s : State} {it : Item}

theorem State.actRestart_known (h : s.com.restarts.contains (bf it.w1 63 54, bf it.w1 53 10) = true) : s.actRestart it = s := if_pos h

theorem State.actRestart_new (hrun : s.inReset = false) (h : s.com.restarts.contains (bf it.w1 63 54, bf it.w1 53 10) = false) :
    s.actRestart it = (s.restartNoted it).assertReset .job srcRingRestart 1 := by
  have hact : s.actRestart it = if s.inReset then s.restartNoted it else (s.restartNoted it).assertReset .job srcRingRestart 1 :=
    if_neg (by rw [h]; exact Bool.false_ne_true)
  rw [hact, hrun]
  exact if_neg Bool.false_ne_true

end Restart

/-- How far a lead's time is from that of a TIME message, in units of 2^-16 ns (R378). -/
def State.timeError (s : State) (w1 w2 w3 : Word) : Int :=
  (s.fine : Int) - ((bf w1 63 20 * 2 ^ 36 + w2.toNat + fineOf (bf w3 42 33 * s.hopNs) : Nat) : Int)

theorem State.followTime_slews {s : State} (w1 w2 : Word) {w3 : Word} (h : bit w3 32 = false) :
    s.followTime w1 w2 w3 = s.setBy.servo (s.timeError w1 w2 w3) 477 perTick := if_neg (by rw [h]; exact Bool.false_ne_true)

/-- The clauses of TIME. -/
theorem State.takeTime_effects {s : State} {ws : List Word} {w1 w2 w3 : Word} (h1 : wat ws 0 = w1) (h2 : wat ws 1 = w2) (h3 : wat ws 2 = w3) :
    let sender := bf w3 63 54
    let noted : TimeU := { s.tm with master := sender, masterTwin := some (bf w3 53 44), holdover := bit w3 43, silent := 0,
                                     named := some (bf w1 63 20 + 1) }
    let err : Int := (s.fine : Int) - ((bf w1 63 20 * 2 ^ 36 + w2.toNat + fineOf (bf w3 42 33 * s.hopNs) : Nat) : Int)
    let t := s.takeTime ws
    (s.tmMode = 2 → bit t.trb.sticky Sticky.timeTwoMasters.idx = true ∧ t.tm = s.tm ∧ t.entries = s.entries) ∧
    (s.tmMode = 0 → s.tm.serving = false → s.knownSender sender = true →
      (s.isLead = false → t = { s with tm := noted }) ∧
      (s.isLead = true → bit w3 32 = false → err.natAbs ≤ 1000 * 2 ^ 16 → t.tm.master = sender ∧
        t.tm.silent = 0 ∧ t.tm.set = true ∧ t.tm.lastMeas = s.tm.refclk ∧ t.tm.c = clampC (s.tm.c - nearest (err * 477) (2 ^ 16)) ∧
        t.tm.slewLeft = -err * 2 ^ 31 ∧ t.tm.t48 = s.tm.t48 ∧ t.entries = s.entries)) := by
  subst h1 h2 h3
  intro sender noted err t
  refine ⟨fun hmode => ?_, fun hmode hserving hknown => ⟨fun hlead => ?_, fun hlead hstep hnear => ?_⟩⟩
  · have ht : t = s.twoMasters 1 (bf (wat ws 2) 63 54) := State.takeTime_alone hmode
    rw [ht]
    exact s.twoMasters_notes 1 _
  · exact (State.takeTime_follows hmode hserving hknown).trans (if_neg (by rw [hlead]; exact Bool.false_ne_true))
  · have ht : t = ((s.noted ws).setBy).servo err 477 perTick :=
      ((State.takeTime_follows hmode hserving hknown).trans (if_pos hlead)).trans (State.followTime_slews _ _ hstep)
    have hkept : Framed false [.tm, .trb, .parts, .ints] s t := State.takeTime_framed rfl (.refl s)
    obtain ⟨locked, htm⟩ := State.servo_near (s := (s.noted ws).setBy) 477 perTick hnear
    have hentries : t.entries = s.entries := (hkept.kept (f := .entries) (by decide)).symm
    clear_value t err
    rw [ht] at hentries ⊢
    rw [htm]
    exact ⟨rfl, rfl, rfl, rfl, rfl, rfl, rfl, hentries⟩

/-- Settles O48: each message acts where it was heard, and the equation of its act says what that leaves. -/
theorem messageEffects : Obligations.MessageEffects := by
  unfold Obligations.MessageEffects
  intro m s x g c st o kd e h it e2 u sender noted err asked ack place r
  refine ⟨fun hd => ?_, fun hd => ?_, fun hd => ?_, fun hd hc => ?_, fun hd hg => ?_, fun hd => ?_, fun hd hpaired htwin h1 h3 h5 hlast => ?_,
    fun hd hreply hunpair => ?_, fun hd => ?_⟩
  · have hx : exec (.time m x) s = .next (u.takeTime (msgWords it)) := hd.next rfl rfl
    rw [hx]
    obtain ⟨halone, hfollows⟩ := State.takeTime_effects (s := u) (ws := msgWords it) (w1 := it.w1) (w2 := it.w2) (w3 := it.w3) rfl rfl rfl
    exact ⟨fun hmode => ⟨_, rfl, halone hmode⟩, fun hmode hserving hknown =>
      ⟨fun hlead => congrArg Host.Outcome.next ((hfollows hmode hserving hknown).1 hlead),
        fun hlead hstep hnear => ⟨_, rfl, (hfollows hmode hserving hknown).2 hlead hstep hnear⟩⟩⟩
  · have hx : exec (.balance m x) s = .next (h.actBalance it) := hd.next rfl rfl
    exact ⟨fun hcoord => hx.trans (congrArg Host.Outcome.next (if_pos hcoord)),
      fun hcoord => hx.trans (congrArg Host.Outcome.next (if_neg (by rw [hcoord]; exact Bool.false_ne_true)))⟩
  · have hx : exec (.prepare m x) s = .next (h.actPrepare it) := hd.next rfl rfl
    refine ⟨fun hcheck => ⟨h.stageChange asked, hx.trans (congrArg Host.Outcome.next (State.actPrepare_stages hcheck)), ?_⟩,
      fun hcheck => hx.trans (congrArg Host.Outcome.next (State.actPrepare_refuses hcheck))⟩
    have hkept : Framed false [.parts, .ints, .img, .com] h (h.stageChange asked) := State.stageChange_framed rfl (.refl h)
    exact ⟨congrArg CommitU.staged (h.stageChange_com asked), fun hk => (h.stageChange_img asked).trans (if_pos hk), (hkept.kept (f := .entries) (by decide)).symm,
      (hkept.kept (f := .role) (by decide)).symm, (hkept.kept (f := .mem) (by decide)).symm⟩
  · have hx : exec (.ack m x) s = .next (h.actAck it) := hd.next rfl rfl
    refine ⟨fun ht hdec => ⟨fun hok hall => ?_, fun hok hall => ?_, fun hno => ?_⟩, fun hother =>
      hx.trans (congrArg Host.Outcome.next (State.actAck_other hc hother))⟩
    · exact hx.trans (congrArg Host.Outcome.next ((State.actAck_counts hc ht hdec hok).trans (State.prepareDone_waits rfl hall)))
    · exact hx.trans (congrArg Host.Outcome.next ((State.actAck_counts hc ht hdec hok).trans (State.prepareDone_all rfl hall)))
    · refine ⟨h.commitEnded c, hx.trans (congrArg Host.Outcome.next (State.actAck_refuses hc ht hdec hno)), ?_⟩
      obtain ⟨-, -, -, hentries, -⟩ := State.commitEnded_leaves h c
      have hcom : (h.commitEnded c).com = { h.com with staged := none, coord := none } := State.commitEnded_com h c
      exact ⟨congrArg CommitU.coord hcom, congrArg CommitU.staged hcom, hentries⟩
  · have hx : exec (.go m x) s = .next (h.actGo it) := hd.next rfl rfl
    rw [hx, State.actGo_staged hg]
    exact ⟨fun ht => congrArg Host.Outcome.next (if_pos ht), fun ht => congrArg Host.Outcome.next (if_neg ht)⟩
  · have hx : exec (.abort m x) s = .next (h.actAbort it) := hd.next rfl rfl
    rw [hx]
    refine ⟨fun hr hg => ?_, fun hr ho => ?_⟩
    · rw [State.actAbort_staged hr hg]
      refine ⟨fun ht hgo hk hload => ?_, fun ht => congrArg Host.Outcome.next (if_neg fun hboth => ht hboth.1)⟩
      rw [if_pos ⟨ht, hgo⟩, hk]
      exact congrArg Host.Outcome.next (if_pos hload)
    · subst ho
      exact ⟨_, rfl, State.actAbort_refused hr⟩
  · have hx : exec (.mirror m x) s = .next (h.actMirror it) := hd.next rfl rfl
    have hours : (h.net.paired && rSrc it.w0 == h.net.twin) = true := by rw [hpaired, htwin]; exact beq_self_eq_true _
    have hact : h.actMirror it = h.takeMirror it.w1 it.w2 :=
      (if_pos hours).trans (by rw [State.takeMirror_none h3, State.takeMirror_none h5])
    exact ⟨_, hx.trans (congrArg Host.Outcome.next hact), State.takeMirror_stores h1 hlast⟩
  · have hx : exec (.pair m x) s = .next (h.actPair it) := hd.next rfl rfl
    exact ⟨fun hmay => hx.trans (congrArg Host.Outcome.next (State.actPair_busy hreply hunpair hmay)), fun hmay htrained =>
      ⟨h.setPair (rSrc it.w0), hx.trans (congrArg Host.Outcome.next (State.actPair_pairs hreply hunpair hmay htrained)), rfl, rfl, rfl, rfl, rfl⟩⟩
  · have hx : exec (.restart m x) s = .next (h.actRestart it) := hd.next rfl rfl
    refine ⟨fun hknown => hx.trans (congrArg Host.Outcome.next (State.actRestart_known hknown)), fun hnew => ?_⟩
    have hkept := h.restartNoted_framed it
    have htm : h.tm = (h.restartNoted it).tm := hkept.kept (f := .tm) (by decide)
    have hmem : h.mem = (h.restartNoted it).mem := hkept.kept (f := .mem) (by decide)
    have htier : h.tier = (h.restartNoted it).tier := hkept.kept (f := .tier) (by decide)
    obtain ⟨hreach, hsource, hlength, hrestarts, himage, hbytes⟩ :=
      State.assertReset_job (s := h.restartNoted it) srcRingRestart 1 ((hkept.inReset_eq (by decide)).trans hd.heard_running)
    rw [h.restartNoted_restarts it] at hrestarts
    rw [← htm] at hlength
    rw [← htier, ← hmem] at hbytes
    exact ⟨_, hx.trans (congrArg Host.Outcome.next (State.actRestart_new hd.heard_running hnew)), hreach, hsource, hlength, hrestarts, himage, hbytes⟩

end Sys2Proof.Machine
end

section
/-! SUPPORT. The session messages ITEM, OPEN_REPLY, STEP, STREAM_END and CANCEL (R100, R107, R123, R130, R142, R160). -/
namespace Sys2Proof.Machine

/-! A word written to an egress ring changes its slot's entry alone (R65, R71, R74). -/
section WriteOut
variable {slot : Nat} {r s : State}

theorem OnlySlot.consumeOut (h : OnlySlot slot r s) : OnlySlot slot r (s.consumeOut slot) := by
  unfold State.consumeOut
  split
  · exact h
  · dsimp only
    split
    · exact h.readOut.trans (.of_entries rfl rfl)
    · exact (h.readOut.setOut _).trans (.of_entries rfl rfl)

theorem OnlySlot.pushOut (h : OnlySlot slot r s) (w : Word) : OnlySlot slot r (s.pushOut slot w).1 := by
  unfold State.pushOut
  extract_lets e x s1 lost s2
  split
  · exact h.framed (State.setEdge_framed (F := [.edge, .parts]) rfl (State.countOverflow_framed rfl (.refl s))) rfl
  · split
    · have hput : OnlySlot slot r s1 := h.framed (State.putMem_framed (F := [.mem, .img]) rfl (.refl s)) rfl
      have hset : OnlySlot slot r (s1.setEntry slot { e with outRing := e.outRing.push w }) :=
        hput.setEntry ⟨rfl, rfl, rfl, ⟨rfl, rfl, rfl⟩, rfl, id⟩
      exact hset.framed (State.schedule_framed (F := [.slots]) rfl (.refl _)) rfl
    · have hset : OnlySlot slot r (s.setEntry slot { e with outRing := e.outRing.rollback }) := h.setOut _
      exact hset.framed (State.setEdge_framed (F := [.edge, .parts]) rfl (State.countOverflow_framed rfl (.refl _))) rfl

theorem OnlySlot.writeOut (h : OnlySlot slot r s) (w : Word) : OnlySlot slot r (s.writeOut slot w).1 := h.consumeOut.pushOut w

end WriteOut

/-! ITEM with one word (R123). -/
section Item
variable {s : State} {it : Item} {w : Word} {image : Nat}

theorem State.takeItem_idle (s : State) (image : Nat) : s.takeItem image idleWord = s := by rw [State.takeItem, if_pos rfl]

theorem wKind_idleWord : wKind idleWord = 0 := by decide

/-- A stream word that the intake lets through to its session. -/
theorem State.takeItem_listed (hk : wKind w ≠ 0) (hbad : badRingWord w = false) (hstate : (s.entry (wSlot w)).state ≠ .free)
    (hgen : (s.entry (wSlot w)).gen = wGen w) : s.takeItem image w =
      if wKind w = 1 then s.ringToken' w image else if wKind w = 2 then s.ringDraft w image else s.ringVerdict w := by
  have hidle : w ≠ idleWord := by
    rintro rfl
    exact hk wKind_idleWord
  have hours : ¬ ((s.entry (wSlot w)).state = .free ∨ (s.entry (wSlot w)).gen ≠ wGen w) := by
    rintro (h | h)
    · exact hstate h
    · exact h hgen
  rw [State.takeItem, if_neg hidle, hbad, if_neg Bool.false_ne_true, if_neg hours]

theorem badRingWord_token (hk : wKind w = 1) : badRingWord w = false := by simp [badRingWord, hk]

theorem badRingWord_verdict (hk : wKind w = 4) (hform : (verdictOf w).form = 0) (haction : (verdictOf w).action ≤ 4) : badRingWord w = false := by
  simp [badRingWord, hk, hform, haction]

/-- A token's word in the home's egress ring, LENGTH and OUT_COUNT one more. -/
def State.tokenWritten (s : State) (slot : Nat) (w : Word) : State :=
  ((s.setEntry slot { s.entry slot with length := (s.entry slot).length + 1, outCount := (s.entry slot).outCount + 1 }).writeOut slot w).1

theorem State.tokenWritten_homeAt (s : State) (slot k : Nat) (w : Word) : (s.tokenWritten slot w).homeAt k = s.homeAt k := by
  have hkept : Framed false [.entries, .edge, .slots, .parts, .mem, .img, .net] s (s.tokenWritten slot w) :=
    State.writeOut_framed rfl (State.setEntry_framed rfl (.refl s))
  exact hkept.homeAt_eq (by decide) k

theorem State.tokenWritten_entry (s : State) (slot : Nat) (w : Word) : ((s.tokenWritten slot w).entry slot).length = (s.entry slot).length + 1 ∧
    ((s.tokenWritten slot w).entry slot).outCount = (s.entry slot).outCount + 1 ∧ ∀ i, i ≠ slot → (s.tokenWritten slot w).entry i = s.entry i := by
  obtain ⟨r, hr⟩ := (s.setEntry slot { s.entry slot with length := (s.entry slot).length + 1, outCount := (s.entry slot).outCount + 1 }).writeOut_entry slot w
  rw [State.setEntry_entry_same] at hr
  refine ⟨congrArg Entry.length hr, congrArg Entry.outCount hr, fun i hi => ?_⟩
  exact ((OnlySlot.refl.writeOut w).others i hi).trans (State.setEntry_entry_ne s _ hi)

theorem State.ringToken'_takes (hhome : (s.entry (wSlot w)).home = true) (hlive : (s.entry (wSlot w)).state = .live)
    (hpos : wPos w = (s.entry (wSlot w)).length) : s.ringToken' w image =
      (s.tokenWritten (wSlot w) (w ||| 0x8000_0000_0000_0000)).homeToken (wSlot w) (s.entry (wSlot w)).length (wTok w) (s.entry (wSlot w)).outCount
        image s.fine := by
  refine if_pos ?_
  simp only [hhome, hlive, hpos, beq_self_eq_true, Bool.true_or, Bool.and_self]

/-- A committed token that begins a session's work leaves the table. -/
theorem State.homeToken_entries (s : State) (slot pos tok ob gen stamp : Nat) (h : (s.homeAt slot).work = []) :
    (s.homeToken slot pos tok ob gen stamp).entries = s.entries := by
  have hw := s.hashToken_work slot tok
  have hkept : Framed false [.home, .mem, .img] s (s.hashToken slot tok) := State.hashToken_framed rfl (.refl s)
  unfold State.homeToken
  dsimp only
  generalize s.hashToken slot tok = u at *
  generalize hk : Work.mk' .commit tok pos ob stamp gen false s.gclks (s.homeAt slot).turnNo (s.entry slot).stopSet = k
  have hpush : ((u.pushWork slot k).homeAt slot).work = [{ k with first := (u.homeAt slot).fresh }] := by
    simp [State.pushWork, hw, h]
  rw [State.settle_commit hpush (by rw [← hk]; rfl)]
  exact (hkept.kept (f := .entries) (by decide)).symm

/-- The verdict of the one token held. -/
theorem State.edgeVerdict_held {slot : Nat} {k : HeldTok} (hheld : (s.edgeAt slot).held = [k]) (hform : (verdictOf w).form = 0)
    (hpos : k.pos = (verdictOf w).pos) (hv : k.verdict = none) (ht : (s.edgeAt slot).tIn = none) :
    s.edgeVerdict slot w = s.setEdge slot { s.edgeAt slot with held := [{ k with verdict := some w }] } := by
  simp [State.edgeVerdict, hform, hpos, hheld, hv, ht, setFirst]

theorem State.ringVerdict_takes (hedge : (s.entry (wSlot w)).edge = true) (hlive : (s.entry (wSlot w)).state = .live) :
    s.ringVerdict w = s.edgeVerdict (wSlot w) w := by
  simp [State.ringVerdict, hedge, hlive]

/-- An ITEM whose other words are idle. -/
structure OneWord (it : Item) : Prop where
  w2 : it.w2 = idleWord
  w3 : it.w3 = idleWord
  w4 : it.w4 = idleWord
  w5 : it.w5 = idleWord
  w6 : it.w6 = idleWord
  w7 : it.w7 = idleWord

theorem State.actItem_one (h : OneWord it) : s.actItem it = s.takeItem (s.msgImage (rEpoch it.w0)) it.w1 := by
  have hwords : msgWords it = [it.w1, idleWord, idleWord, idleWord, idleWord, idleWord, idleWord] := by
    show [it.w1, it.w2, it.w3, it.w4, it.w5, it.w6, it.w7] = _
    rw [h.w2, h.w3, h.w4, h.w5, h.w6, h.w7]
  rw [State.actItem, hwords]
  simp only [List.foldl_cons, List.foldl_nil, State.takeItem_idle]

section One
variable (hone : OneWord it) (hgen : (s.entry (wSlot it.w1)).gen = wGen it.w1) (hlive : (s.entry (wSlot it.w1)).state = .live)
include hone hgen hlive

/-- ITEM with a token brings a home without work its next committed token. -/
theorem State.actItem_commits (hk : wKind it.w1 = 1) (hhome : (s.entry (wSlot it.w1)).home = true)
    (hpos : wPos it.w1 = (s.entry (wSlot it.w1)).length) (hwork : (s.homeAt (wSlot it.w1)).work = []) :
    let j := wSlot it.w1
    let n := s.entry j
    let t := s.actItem it
    ∃ w : Work, (t.entry j).length = n.length + 1 ∧ (t.entry j).outCount = n.outCount + 1 ∧ (t.homeAt j).work = [w] ∧ w.kind = .commit ∧
      w.tok = wTok it.w1 ∧ w.pos = n.length ∧ w.stamp = s.fine ∧ w.image = s.msgImage (rEpoch it.w0) ∧ ∀ i, i ≠ j → t.entry i = s.entry i := by
  intro j n t
  have ht : t = (s.tokenWritten j (it.w1 ||| 0x8000_0000_0000_0000)).homeToken j n.length (wTok it.w1) n.outCount (s.msgImage (rEpoch it.w0)) s.fine := by
    show s.actItem it = _
    rw [State.actItem_one hone, State.takeItem_listed (by rw [hk]; decide) (badRingWord_token hk) (by rw [hlive]; decide) hgen, if_pos hk]
    exact State.ringToken'_takes hhome hlive hpos
  obtain ⟨hlength, hcount, hothers⟩ := s.tokenWritten_entry j (it.w1 ||| 0x8000_0000_0000_0000)
  have hhomeAt := s.tokenWritten_homeAt j j (it.w1 ||| 0x8000_0000_0000_0000)
  generalize s.tokenWritten j (it.w1 ||| 0x8000_0000_0000_0000) = u at ht hlength hcount hothers hhomeAt
  have hnone : (u.homeAt j).work = [] := by rw [hhomeAt]; exact hwork
  obtain ⟨w, hw, hkind, htok, hwpos, hstamp, himage, -⟩ :=
    State.homeToken_work (s := u) n.length (wTok it.w1) n.outCount (s.msgImage (rEpoch it.w0)) s.fine hnone
  have hentries := u.homeToken_entries j n.length (wTok it.w1) n.outCount (s.msgImage (rEpoch it.w0)) s.fine hnone
  rw [← ht] at hw hentries
  have hentry (i : Nat) : t.entry i = u.entry i := congrArg (sget Entry.zero · i) hentries
  exact ⟨w, (congrArg Entry.length (hentry j)).trans hlength, (congrArg Entry.outCount (hentry j)).trans hcount, hw, hkind, htok, hwpos, hstamp, himage,
    fun i hi => (hentry i).trans (hothers i hi)⟩

/-- ITEM with a verdict: at the edge it stands with the one token held. -/
theorem State.actItem_verdict {k : HeldTok} (hk : wKind it.w1 = 4) (hform : (verdictOf it.w1).form = 0) (haction : (verdictOf it.w1).action ≤ 4)
    (hedge : (s.entry (wSlot it.w1)).edge = true) (hheld : (s.edgeAt (wSlot it.w1)).held = [k]) (hpos : k.pos = (verdictOf it.w1).pos)
    (hverdict : k.verdict = none) (hin : (s.edgeAt (wSlot it.w1)).tIn = none) :
    s.actItem it = s.setEdge (wSlot it.w1) { s.edgeAt (wSlot it.w1) with held := [{ k with verdict := some it.w1 }] } := by
  rw [State.actItem_one hone, State.takeItem_listed (by rw [hk]; decide) (badRingWord_verdict hk hform haction) (by rw [hlive]; decide) hgen,
    if_neg (by rw [hk]; decide), if_neg (by rw [hk]; decide), State.ringVerdict_takes hedge hlive]
  exact State.edgeVerdict_held hheld hform hpos hverdict hin

end One

end Item

/-! OPEN_REPLY, STEP, STREAM_END and CANCEL. -/
section Others
variable {s : State} {it : Item}

/-- An entry of the session is not FREE. -/
theorem State.matches_open {hd : Nat} (h : s.matches hd = true) : (s.entry (hdlSlot hd)).state ≠ .free := by
  simp only [State.matches, Bool.and_eq_true, bne_iff_ne] at h
  exact h.1.1

/-- The entry without the reply that it held, and that reply no longer awaited. -/
def State.replyTaken (s : State) (slot : Nat) : State :=
  let s1 := s.setEntry slot { s.entry slot with pendOp := 0, pendTag := 0, pendSmp := false }
  { s1 with cmi := { s1.cmi with fwds := s1.cmi.fwds.filter (fun f => !(f.slot == some slot && f.issuer == (s.entry slot).pendIssuer)) } }

theorem State.endPendWith_replies {slot : Nat} (st : Status) (result : List Word) (h : (s.entry slot).pendOp ≠ 0) :
    s.endPendWith slot st result = (s.replyTaken slot).reply (s.entry slot).pendIssuer st result := if_neg h

/-- The reply that an entry holds, sent. -/
theorem State.endPendWith_sends {slot : Nat} (st : Status) (result : List Word) (h : (s.entry slot).pendOp ≠ 0) :
    (s.endPendWith slot st result).entry slot = { s.entry slot with pendOp := 0, pendTag := 0, pendSmp := false } ∧
    ((s.entry slot).pendSmp = false → (s.endPendWith slot st result).hrpOut = s.hrpOut ++
      [{ vc := 1, reg := false, part := (s.entry slot).part, words := replyWords (s.entry slot).pendIssuer st result }]) := by
  rw [State.endPendWith_replies st result h]
  refine ⟨?_, fun hsmp => ?_⟩
  · rw [State.reply_entry]
    exact State.setEntry_entry_same s slot _
  · rw [State.reply_hrp (i := (s.entry slot).pendIssuer) rfl hsmp]
    have hkept : Framed false [.entries, .net] s (s.setEntry slot { s.entry slot with pendOp := 0, pendTag := 0, pendSmp := false }) :=
      State.setEntry_framed rfl (.refl s)
    have hout := (hkept.kept (f := .hrpOut) (by decide)).symm
    exact congrArg (· ++ _) hout

/-- A reply to an open that this gate waits for, and that is OK. -/
theorem State.actOpenReply_ok (hopening : (s.entry (hdlSlot (hdlOf it.w1))).state = .opening)
    (hsrc : (s.entry (hdlSlot (hdlOf it.w1))).homeGate = rSrc it.w0) (hgate : (s.entry (hdlSlot (hdlOf it.w1))).homeGate = hdlGate (hdlOf it.w1))
    (hok : Status.ofCode (bf it.w2 7 0) = .ok) : s.actOpenReply it =
      (s.setEntry (hdlSlot (hdlOf it.w1)) { s.entry (hdlSlot (hdlOf it.w1)) with gen := hdlGen (hdlOf it.w1), state := .live }).endPendWith
        (hdlSlot (hdlOf it.w1)) .ok [hdlWord (hdlOf it.w1)] :=
  (if_pos ⟨hopening, hsrc, hgate⟩).trans ((congrArg (fun c => if c = Status.ok then _ else _) hok).trans (if_pos rfl))

/-- The entry of an open that is answered OK is LIVE under the home's generation, its reply gone. -/
theorem State.actOpenReply_opens (hopening : (s.entry (hdlSlot (hdlOf it.w1))).state = .opening)
    (hsrc : (s.entry (hdlSlot (hdlOf it.w1))).homeGate = rSrc it.w0) (hgate : (s.entry (hdlSlot (hdlOf it.w1))).homeGate = hdlGate (hdlOf it.w1))
    (hok : Status.ofCode (bf it.w2 7 0) = .ok) (hpend : (s.entry (hdlSlot (hdlOf it.w1))).pendOp ≠ 0) :
    let slot := hdlSlot (hdlOf it.w1)
    let n := s.entry slot
    let t := s.actOpenReply it
    t.entry slot = { n with gen := hdlGen (hdlOf it.w1), state := .live, pendOp := 0, pendTag := 0, pendSmp := false } ∧
      (n.pendSmp = false → t.hrpOut = s.hrpOut ++
        [{ vc := 1, reg := false, part := n.part, words := replyWords n.pendIssuer .ok [hdlWord (hdlOf it.w1)] }]) ∧
      ∀ i, i ≠ slot → t.entry i = s.entry i := by
  intro slot n t
  have ht : t = (s.setEntry slot { n with gen := hdlGen (hdlOf it.w1), state := .live }).endPendWith slot .ok [hdlWord (hdlOf it.w1)] :=
    State.actOpenReply_ok hopening hsrc hgate hok
  have hset : (s.setEntry slot { n with gen := hdlGen (hdlOf it.w1), state := .live }).entry slot = { n with gen := hdlGen (hdlOf it.w1), state := .live } :=
    State.setEntry_entry_same ..
  have hkept : Framed false [.entries, .net] s (s.setEntry slot { n with gen := hdlGen (hdlOf it.w1), state := .live }) := State.setEntry_framed rfl (.refl s)
  have hout : s.hrpOut = (s.setEntry slot { n with gen := hdlGen (hdlOf it.w1), state := .live }).hrpOut := hkept.kept (f := .hrpOut) (by decide)
  have hothers : ∀ i, i ≠ slot → (s.setEntry slot { n with gen := hdlGen (hdlOf it.w1), state := .live }).entry i = s.entry i :=
    fun i hi => State.setEntry_entry_ne s _ hi
  generalize s.setEntry slot { n with gen := hdlGen (hdlOf it.w1), state := .live } = u at ht hset hout hothers
  obtain ⟨hentry, hsent⟩ := State.endPendWith_sends (s := u) (slot := slot) .ok [hdlWord (hdlOf it.w1)] (by rw [hset]; exact hpend)
  rw [hset] at hentry hsent
  rw [ht, hout]
  exact ⟨hentry, hsent, fun i hi => ((OnlySlot.refl.endPendWith .ok _).others i hi).trans (hothers i hi)⟩

theorem State.actStep_ours (hm : s.matches (hdlOf it.w1) = true) (hedge : (s.entry (hdlSlot (hdlOf it.w1))).edge = true) :
    s.actStep it = s.edgeStep (hdlSlot (hdlOf it.w1)) (bit it.w1 0) := by
  refine if_pos ?_
  rw [hm, hedge]
  rfl

theorem State.edgeStep_checkpoint {slot : Nat} (hmark : (s.edgeAt slot).mark = true) (hlive : (s.entry slot).state = .live) :
    s.edgeStep slot true = (s.setEdge slot { s.edgeAt slot with step := some true }).setEntry slot { s.entry slot with state := .speculating } := by
  simp [State.edgeStep, hmark, hlive]

/-- STEP with a checkpoint at a LIVE edge whose step has begun. -/
theorem State.actStep_speculates (hm : s.matches (hdlOf it.w1) = true) (hedge : (s.entry (hdlSlot (hdlOf it.w1))).edge = true)
    (hmark : (s.edgeAt (hdlSlot (hdlOf it.w1))).mark = true) (hckpt : bit it.w1 0 = true) (hlive : (s.entry (hdlSlot (hdlOf it.w1))).state = .live) :
    let slot := hdlSlot (hdlOf it.w1)
    let t := s.actStep it
    t.entry slot = { s.entry slot with state := .speculating } ∧ (t.edgeAt slot).step = some true ∧ (∀ i, i ≠ slot → t.entry i = s.entry i) ∧
      t.mem = s.mem := by
  intro slot t
  have ht : t = (s.setEdge slot { s.edgeAt slot with step := some true }).setEntry slot { s.entry slot with state := .speculating } := by
    show s.actStep it = _
    rw [State.actStep_ours hm hedge, hckpt]
    exact State.edgeStep_checkpoint hmark hlive
  have hkept : Framed false [.entries, .net] (s.setEdge slot { s.edgeAt slot with step := some true })
      ((s.setEdge slot { s.edgeAt slot with step := some true }).setEntry slot { s.entry slot with state := .speculating }) := State.setEntry_framed rfl (.refl _)
  rw [ht]
  refine ⟨State.setEntry_entry_same .., ?_, fun i hi => State.setEntry_entry_ne _ _ hi, (hkept.kept (f := .mem) (by decide)).symm⟩
  rw [State.setEntry_edgeAt, State.setEdge_edgeAt_same]

theorem State.actStreamEnd_ours (hm : s.matches (hdlOf it.w1) = true) (hhome : (s.entry (hdlSlot (hdlOf it.w1))).home = true)
    (hc : (s.entry (hdlSlot (hdlOf it.w1))).state ≠ .cancelled) : s.actStreamEnd it =
      s.homeStreamEnd (hdlSlot (hdlOf it.w1)) (bf it.w1 31 12) (Stop.ofCode (bf it.w1 3 0)) (s.entry (hdlSlot (hdlOf it.w1))).length := by
  refine if_pos ?_
  rw [hm, hhome]
  simpa using hc

theorem State.actCancel_cancels (hm : s.matches (hdlOf it.w1) = true) (hc : (s.entry (hdlSlot (hdlOf it.w1))).state ≠ .cancelled) :
    Cancels s (s.actCancel it) (hdlSlot (hdlOf it.w1)) (Cancel.ofCode (bf it.w1 7 0)) := by
  unfold State.actCancel
  dsimp only
  rw [hm, if_pos rfl]
  split
  · exact State.cancelAll_cancels _ _ (State.matches_open hm) hc
  · exact State.cancelLocal_cancels _ _ (State.matches_open hm) hc

end Others

end Sys2Proof.Machine
end

section
/-! SUPPORT. A step resolved at the home by a RESOLVE message (R134, R136, R137). -/
namespace Sys2Proof.Machine

/-! The ring of a step that ends (R134): only the ring of the entry changes. -/
theorem State.closeOut_entry (s : State) (slot : Nat) : ∃ r, (s.closeOut slot).entry slot = { s.entry slot with outRing := r } := by
  unfold State.closeOut
  dsimp only
  split
  · exact ⟨_, rfl⟩
  · exact ⟨_, State.setEntry_entry_same _ slot _⟩

theorem State.resolveOut_entry (s : State) (slot : Nat) : ∃ r, (s.resolveOut slot).entry slot = { s.entry slot with outRing := r } := by
  unfold State.resolveOut
  extract_lets e base r1 r2
  split
  · have hkept : Framed false [.fsp] (s.setEntry slot { e with outRing := r1 }) ((s.setEntry slot { e with outRing := r1 }).fifoRefusal slot) :=
      State.fifoRefusal_framed rfl (.refl _)
    exact ⟨_, (hkept.entry_eq (by decide) slot).trans (State.setEntry_entry_same s slot _)⟩
  · exact ⟨_, State.setEntry_entry_same s slot _⟩

theorem State.endStepRing_entry (s : State) (slot : Nat) : ∃ r, (s.endStepRing slot).entry slot = { s.entry slot with outRing := r } := by
  obtain ⟨r1, h1⟩ := s.closeOut_entry slot
  obtain ⟨r2, h2⟩ := (s.closeOut slot).readOut_entry slot
  obtain ⟨r3, h3⟩ := ((s.closeOut slot).readOut slot).resolveOut_entry slot
  exact ⟨r3, h3.trans (by rw [h2, h1])⟩

theorem State.endHomeStep_entry (s : State) (slot : Nat) : (∃ r, (s.endHomeStep slot).entry slot = { s.entry slot with outRing := r }) ∧
    ∀ i, i ≠ slot → (s.endHomeStep slot).entry i = s.entry i := by
  unfold State.endHomeStep
  split
  · exact ⟨s.endStepRing_entry slot, OnlySlot.refl.endStepRing.others⟩
  · exact ⟨⟨_, rfl⟩, fun _ _ => rfl⟩

theorem State.endHomeStep_homeAt (s : State) (slot : Nat) : ∃ m, (s.endHomeStep slot).homeAt slot = { s.homeAt slot with mark := m } := by
  unfold State.endHomeStep
  split
  · have hkept : Framed false [.entries, .mem, .img, .net, .fsp] s (s.endStepRing slot) := State.endStepRing_framed rfl (.refl s)
    refine ⟨false, ?_⟩
    rw [← hkept.homeAt_eq (by decide) slot]
    exact State.setHome_homeAt_same ..
  · exact ⟨_, rfl⟩

/-! Accepted tokens enter the hash record (R313). -/
theorem State.hashToken_homeAt (s : State) (slot tok : Nat) : ∃ q, (s.hashToken slot tok).homeAt slot = { s.homeAt slot with hashQ := q } := by
  unfold State.hashToken
  dsimp only
  split
  · exact ⟨_, rfl⟩
  · split
    · exact ⟨_, State.setHome_homeAt_same ..⟩
    · exact ⟨_, State.setHashRec_homeAt ..⟩

/-- The tokens of accepted drafts enter the hash record. -/
def State.hashTokens (s : State) (slot : Nat) (toks : List Nat) : State := toks.foldl (fun s t => s.hashToken slot t) s

theorem State.hashTokens_homeAt (toks : List Nat) (s : State) (slot : Nat) :
    ∃ q, (s.hashTokens slot toks).homeAt slot = { s.homeAt slot with hashQ := q } := by
  induction toks generalizing s with
  | nil => exact ⟨_, rfl⟩
  | cons t ts ih =>
    obtain ⟨q1, h1⟩ := s.hashToken_homeAt slot t
    obtain ⟨q2, h2⟩ := ih (s.hashToken slot t)
    exact ⟨q2, h2.trans (by rw [h1])⟩

theorem State.hashTokens_framed (toks : List Nat) (s : State) (slot : Nat) : Framed false [.home, .mem, .img] s (s.hashTokens slot toks) :=
  .foldl (fun _ _ h => State.hashToken_framed rfl h) (.refl s)

/-! The work of a home settles (R136). -/

/-- The replay of accepted drafts waits for an engine as it stands. -/
theorem State.settleHome_replays {s : State} {slot : Nat} (n : Nat) (h : ∀ w ∈ (s.homeAt slot).work, w.kind = .replay) : State.settleHome n s slot = s := by
  cases n with
  | zero => rfl
  | succ n =>
    unfold State.settleHome
    dsimp only
    split
    · rfl
    · next w rest hw =>
      have hkind : w.kind = .replay := h w (by rw [hw]; exact List.mem_cons_self)
      have hnone (p : Work → Bool) : ((w :: rest).takeWhile p).any (fun w => !w.notDraft) = false := by
        rw [List.any_eq_false]
        intro v hv
        have hreplay := h v (hw ▸ (List.takeWhile_subset _) hv)
        simp [Work.notDraft, hreplay]
      rw [hkind]
      dsimp only
      rw [hw, hnone, Bool.and_false]
      exact if_neg Bool.false_ne_true

theorem resolveItems_replay {w : Work} {toks : List Nat} {d : Nat} : ∀ x ∈ resolveItems w toks true d, x.kind = .replay := by
  intro x hx
  obtain ⟨t, -, rfl⟩ := List.mem_map.1 hx
  rfl

/-- The entry of a session whose step with a checkpoint has ended at the home. -/
def Entry.stepEnded (e : Entry) : Entry := { e with ckpt := 0, ckptValid := false, state := if e.state = .speculating then .live else e.state }

/-- A DRAFT_RESOLVE that is all of a session's work takes effect at once. -/
theorem State.settle_resolve {s : State} {slot : Nat} {w : Work} {toks : List Nat} (h : (s.homeAt slot).work = [w]) (hk : w.kind = .resolve toks true) :
    let t := s.settle slot
    t.entry slot = (s.entry slot).stepEnded ∧ (∀ i, i ≠ slot → t.entry i = s.entry i) ∧
      (t.homeAt slot).drafts = (s.homeAt slot).drafts ∧ (t.homeAt slot).step = none := by
  intro t
  have ht : t = (s.setEntry slot (s.entry slot).stepEnded).setHome slot { s.homeAt slot with
      work := resolveItems w toks true (match s.sessionPolicy slot w.image with | some (_, p) => p.dOut | none => 0) ++ [], step := none } := by
    have hsettle : t = State.settleHome 26 s slot := by
      show State.settleHome (2 * (s.homeAt slot).work.length + 24) s slot = _
      rw [h]
      rfl
    rw [hsettle]
    unfold State.settleHome
    dsimp only
    rw [h]
    dsimp only
    rw [hk]
    dsimp only
    rw [if_pos rfl]
    refine State.settleHome_replays 25 ?_
    rw [State.setHome_homeAt_same, List.append_nil]
    exact resolveItems_replay
  rw [ht]
  refine ⟨?_, fun i hi => ?_, ?_, ?_⟩
  · rw [State.setHome_entry, State.setEntry_entry_same]
  · rw [State.setHome_entry, State.setEntry_entry_ne s _ hi]
  · rw [State.setHome_homeAt_same]
  · rw [State.setHome_homeAt_same]

/-- The tokens of the first drafts of a chain (R136). -/
def HomeAux.accepted (h : HomeAux) (chain n : Nat) : List Nat :=
  (List.range n).filterMap (fun i => (h.drafts.find? (fun d => d.chain == chain && d.depth == i + 1)).map (·.tok))

/-- A step with a checkpoint resolved at a home with no work before it: the drafts and the step are gone, and the session's checkpoint with them. -/
theorem State.homeResolve_ends {s : State} {slot : Nat} (chain n pos ob image stamp : Nat) (hwork : (s.homeAt slot).work = [])
    (hstep : (s.homeAt slot).step = some true) :
    let t := s.homeResolve slot chain n pos ob image stamp
    t.entry slot = (s.entry slot).stepEnded ∧ (∀ i, i ≠ slot → t.entry i = s.entry i) ∧ (t.homeAt slot).drafts = [] ∧ (t.homeAt slot).step = none := by
  intro t
  have hsplit : (s.homeAt slot).splitWork = ([], []) := by simp [HomeAux.splitWork, hwork]
  have ht : t = (((s.setHome slot { s.homeAt slot with drafts := [], work := [] }).hashTokens slot ((s.homeAt slot).accepted chain n)).pushWork slot
      (Work.mk' (.resolve ((s.homeAt slot).accepted chain n) true) 0 pos ob stamp image false s.gclks (s.homeAt slot).turnNo
        (s.entry slot).stopSet)).settle slot := by
    show s.homeResolve slot chain n pos ob image stamp = _
    unfold State.homeResolve
    dsimp only
    rw [hsplit, hstep]
    rfl
  generalize (s.homeAt slot).accepted chain n = toks at ht
  obtain ⟨q, hq⟩ := State.hashTokens_homeAt toks (s.setHome slot { s.homeAt slot with drafts := [], work := [] }) slot
  rw [State.setHome_homeAt_same] at hq
  have hkept := State.hashTokens_framed toks (s.setHome slot { s.homeAt slot with drafts := [], work := [] }) slot
  have hentry : ∀ i, ((s.setHome slot { s.homeAt slot with drafts := [], work := [] }).hashTokens slot toks).entry i = s.entry i :=
    fun i => hkept.entry_eq (by decide) i
  generalize (s.setHome slot _).hashTokens slot toks = u at ht hq hentry
  generalize hw : Work.mk' (.resolve toks true) 0 pos ob stamp image false s.gclks (s.homeAt slot).turnNo (s.entry slot).stopSet = w at ht
  have hhome : (u.pushWork slot w).homeAt slot = { s.homeAt slot with
      drafts := [], hashQ := q, work := [{ w with first := (s.homeAt slot).fresh }], fresh := false } := by
    unfold State.pushWork
    dsimp only
    rw [State.setHome_homeAt_same, hq]
    rfl
  obtain ⟨hslot, hothers, hdrafts, hnone⟩ := State.settle_resolve (s := u.pushWork slot w) (w := { w with first := (s.homeAt slot).fresh }) (toks := toks)
    (congrArg HomeAux.work hhome) (by rw [← hw]; rfl)
  rw [← ht] at hslot hothers hdrafts hnone
  exact ⟨hslot.trans (congrArg Entry.stepEnded (hentry slot)), fun i hi => (hothers i hi).trans (hentry i),
    hdrafts.trans (congrArg HomeAux.drafts hhome), hnone⟩

/-- RESOLVE at a home with a checkpoint and no work before it. -/
theorem State.actResolve_ends {s : State} {it : Item} (hm : s.matches (hdlOf it.w1) = true) (hhome : (s.entry (hdlSlot (hdlOf it.w1))).home = true)
    (hspec : (s.entry (hdlSlot (hdlOf it.w1))).state = .speculating) (hwork : (s.homeAt (hdlSlot (hdlOf it.w1))).work = [])
    (hstep : (s.homeAt (hdlSlot (hdlOf it.w1))).step = some true) :
    let slot := hdlSlot (hdlOf it.w1)
    let n := s.entry slot
    let t := s.actResolve it
    (t.entry slot).length = n.length + bf it.w1 29 26 ∧ (t.entry slot).outCount = n.outCount + bf it.w1 29 26 ∧ (t.entry slot).state = .live ∧
      (t.entry slot).ckptValid = false ∧ (t.homeAt slot).drafts = [] ∧ (t.homeAt slot).step = none ∧ ∀ i, i ≠ slot → t.entry i = s.entry i := by
  intro slot n t
  have ht : t = ((s.endHomeStep slot).setEntry slot { (s.endHomeStep slot).entry slot with
      length := n.length + bf it.w1 29 26, outCount := n.outCount + bf it.w1 29 26 }).homeResolve slot (bf it.w1 31 30) (bf it.w1 29 26) n.length n.outCount
        (s.msgImage (rEpoch it.w0)) s.fine := by
    refine if_pos ?_
    simp only [hm, hhome, hspec, beq_self_eq_true, Bool.or_true, Bool.and_self]
  obtain ⟨⟨r, hr⟩, hothers⟩ := s.endHomeStep_entry slot
  obtain ⟨mk, hmark⟩ := s.endHomeStep_homeAt slot
  generalize s.endHomeStep slot = u at ht hr hothers hmark
  obtain ⟨hslot, hrest, hdrafts, hnone⟩ := State.homeResolve_ends (s := u.setEntry slot { u.entry slot with
      length := n.length + bf it.w1 29 26, outCount := n.outCount + bf it.w1 29 26 }) (slot := slot) (bf it.w1 31 30) (bf it.w1 29 26) n.length n.outCount
        (s.msgImage (rEpoch it.w0)) s.fine (by rw [State.setEntry_homeAt, hmark]; exact hwork) (by rw [State.setEntry_homeAt, hmark]; exact hstep)
  rw [← ht] at hslot hrest hdrafts hnone
  rw [State.setEntry_entry_same, hr] at hslot
  rw [hslot]
  exact ⟨rfl, rfl, if_pos hspec, rfl, hdrafts, hnone, fun i hi => (hrest i hi).trans ((State.setEntry_entry_ne u _ hi).trans (hothers i hi))⟩

end Sys2Proof.Machine
end

section
/-! SUPPORT. A session closed at a gate that is not its home (R105, R323, R402). -/
namespace Sys2Proof.Machine

theorem Framed.ledger_eq {F : List Field} {s t : State} (h : Framed false F s t) (hF : Field.ledgers ∉ F) (k : Nat) : t.ledger k = s.ledger k :=
  congrArg (sget Ledger.zero · k) (h.kept hF).symm

/-- Between `z` and `s` the session of a slot stays its tenant's and open, and no tenant's SESSIONS changes. -/
structure Counted (slot : Nat) (z s : State) : Prop where
  tenant : (s.entry slot).tenant = (z.entry slot).tenant
  isOpen : (z.entry slot).state ≠ .free → (s.entry slot).state ≠ .free
  sessions : ∀ k, (s.ledger k).sessions = (z.ledger k).sessions

namespace Counted
variable {slot : Nat} {z s t : State}

theorem refl (s : State) : Counted slot s s := ⟨rfl, id, fun _ => rfl⟩

theorem trans (h : Counted slot z s) (k : Counted slot s t) : Counted slot z t :=
  ⟨k.tenant.trans h.tenant, fun hz => k.isOpen (h.isOpen hz), fun n => (k.sessions n).trans (h.sessions n)⟩

theorem foldl {α : Type} {f : State → α → State} (hf : ∀ {s : State} {a : α}, Counted slot z s → Counted slot z (f s a)) :
    ∀ {l : List α} {s : State}, Counted slot z s → Counted slot z (l.foldl f s)
  | [], _, h => h
  | a :: l, s, h => foldl (l := l) (s := f s a) hf (hf h)

theorem ite {p : Prop} [Decidable p] {s t : State} (h : Counted slot z s) (k : Counted slot z t) : Counted slot z (if p then s else t) := by
  split
  · exact h
  · exact k

/-- One more operation, which leaves the table and the ledgers. -/
theorem framed {F : List Field} (h : Counted slot z s) (k : Framed false F s t) (hF : (F.contains .entries || F.contains .ledgers) = false) :
    Counted slot z t := by
  simp only [Bool.or_eq_false_iff, List.contains_eq_mem, decide_eq_false_iff_not] at hF
  have he := k.entry_eq hF.1 slot
  exact h.trans ⟨by rw [he], by rw [he]; exact id, fun n => by rw [k.ledger_eq hF.2]⟩

/-- The slot's entry changed, its tenant the same and its state not FREE. -/
theorem setEntry {e : Entry} (h : Counted slot z s) (ht : e.tenant = (s.entry slot).tenant) (hs : (s.entry slot).state ≠ .free → e.state ≠ .free) :
    Counted slot z (s.setEntry slot e) :=
  h.trans ⟨by rw [State.setEntry_entry_same]; exact ht, by rw [State.setEntry_entry_same]; exact hs, fun n => by rw [State.setEntry_ledger]⟩

/-- HELD of a tenant changed. -/
theorem subHeld {t n : Nat} (h : Counted slot z s) : Counted slot z (s.subHeld t n) := by
  refine h.trans ⟨congrArg Entry.tenant (State.setLedger_entry ..), fun hs => ?_, fun k => ?_⟩
  · exact fun hfree => hs ((congrArg Entry.state (State.setLedger_entry ..)).symm.trans hfree)
  · show ((s.setLedger t _).ledger k).sessions = _
    rw [State.setLedger_ledger]
    split
    · next hk => rw [hk]
    · rfl

/-! Pages freed (R302, R308). -/
theorem freeExtents {es : List Nat} (h : Counted slot z s) : Counted slot z (s.freeExtents es) :=
  h.framed (State.freeExtents_framed (F := [.tier]) rfl (.refl s)) rfl

theorem freeList {tenant : Option Nat} {head pages : Nat} (h : Counted slot z s) : Counted slot z (s.freeList tenant head pages) := by
  cases tenant with
  | none => exact h.freeExtents
  | some t => exact h.freeExtents.subHeld

theorem withTier {tier : TierU} (h : Counted slot z s) : Counted slot z { s with tier := tier } := h.trans ⟨rfl, id, fun _ => rfl⟩

theorem freeSlice {tenant : Option Nat} {head pages : Nat} (h : Counted slot z s) : Counted slot z (s.freeSlice tenant head pages) := .ite h.withTier h.freeList

theorem dirDrop {i : Nat} {d : DirEnt} (h : Counted slot z s) : Counted slot z (s.dirDrop i d) := by
  have hput : Counted slot z (s.dirPut i none) := h.framed (State.dirPut_framed (F := [.mem, .img, .tier]) rfl (.refl s)) rfl
  exact .ite hput.freeSlice hput

/-! Operations of the tier ended (R48, R107). -/
theorem freeOpPages {o : TierOp} (h : Counted slot z s) : Counted slot z (s.freeOpPages o) := by
  unfold State.freeOpPages
  dsimp only
  split
  · exact h.freeExtents.subHeld
  · exact h.freeExtents.subHeld
  · exact h.freeExtents

theorem endOp {o : TierOp} (h : Counted slot z s) : Counted slot z (s.endOp o) := by
  unfold State.endOp
  exact (Counted.foldl .dirDrop (Counted.foldl .freeSlice h.withTier)).withTier

theorem deadOp {o : TierOp} {slips counted : Bool} (h : Counted slot z s) : Counted slot z (s.deadOp o slips counted) :=
  h.framed (State.deadOp_framed (F := [.fsp]) rfl (.refl s)) rfl

theorem dropOps (h : Counted slot z s) : Counted slot z (s.dropOps slot) := .foldl (fun h => h.freeOpPages.deadOp.endOp) h

theorem freeCopy (h : Counted slot z s) : Counted slot z (s.freeCopy slot) :=
  (Counted.ite h.freeSlice h).setEntry rfl id

/-! A held reply, and the drafts of a step (R105, R137, R357). -/
theorem endPend {st : Status} (h : Counted slot z s) : Counted slot z (s.endPend slot st) := by
  obtain ⟨tag, smp, he⟩ := s.endPendWith_entry_eq slot st []
  have hkept : Framed false [.entries, .cmi, .net, .hrpOut] s (s.endPend slot st) := State.endPend_framed rfl (.refl s)
  exact h.trans ⟨(congrArg Entry.tenant he).trans rfl, fun hs hfree => hs ((congrArg Entry.state he).symm.trans hfree), fun k => by rw [hkept.ledger_eq (by decide)]⟩

theorem endStepRing (h : Counted slot z s) : Counted slot z (s.endStepRing slot) := by
  obtain ⟨r, he⟩ := s.endStepRing_entry slot
  have hkept : Framed false [.entries, .mem, .img, .net, .fsp] s (s.endStepRing slot) := State.endStepRing_framed rfl (.refl s)
  exact h.trans ⟨(congrArg Entry.tenant he).trans rfl, fun hs hfree => hs ((congrArg Entry.state he).symm.trans hfree), fun k => by rw [hkept.ledger_eq (by decide)]⟩

theorem closeStep (h : Counted slot z s) : Counted slot z (s.closeStep slot) := by
  have hset : Counted slot z ((s.endStepRing slot).setEntry slot { (s.endStepRing slot).entry slot with
      chains := 0, state := if ((s.endStepRing slot).entry slot).state = .speculating then .live else ((s.endStepRing slot).entry slot).state }) := by
    refine h.endStepRing.setEntry rfl fun hs => ?_
    dsimp only
    split
    · decide
    · exact hs
  exact hset.framed (State.setEdge_framed (F := [.edge]) rfl (.refl _)) rfl

theorem rejectDrafts (h : Counted slot z s) : Counted slot z (s.rejectDrafts slot) :=
  .ite (h.closeStep.setEntry rfl id) h

end Counted

/-- The entry of an open session freed: its generation stays, and its tenant has one session less. -/
theorem State.freeEntry_frees {s : State} {slot : Nat} (h : (s.entry slot).state ≠ .free) : let t := s.freeEntry slot
    t.entry slot = { Entry.zero with gen := (s.entry slot).gen } ∧
      (t.ledger (s.entry slot).tenant).sessions = (s.ledger (s.entry slot).tenant).sessions - 1 ∧ ∀ i, i ≠ slot → t.entry i = s.entry i := by
  intro t
  have hledger : (s.setLedger (s.entry slot).tenant
      { s.ledger (s.entry slot).tenant with sessions := (s.ledger (s.entry slot).tenant).sessions - 1 }).ledger (s.entry slot).tenant =
      { s.ledger (s.entry slot).tenant with sessions := (s.ledger (s.entry slot).tenant).sessions - 1 } := State.setLedger_ledger_same ..
  have hentry : ∀ i, (s.setLedger (s.entry slot).tenant
      { s.ledger (s.entry slot).tenant with sessions := (s.ledger (s.entry slot).tenant).sessions - 1 }).entry i = s.entry i := fun i => State.setLedger_entry _ _ _ i
  have ht : t = ((((s.setLedger (s.entry slot).tenant
      { s.ledger (s.entry slot).tenant with sessions := (s.ledger (s.entry slot).tenant).sessions - 1 }).setEntry slot
        { Entry.zero with gen := (s.entry slot).gen }).setEdge slot EdgeAux.zero).setHome slot HomeAux.zero).setSlot slot SlotAux.zero := by
    show s.freeEntry slot = _
    unfold State.freeEntry
    dsimp only
    rw [if_neg h]
  generalize s.setLedger _ _ = u at hledger hentry ht
  rw [ht]
  refine ⟨State.setEntry_entry_same u slot _, ?_, fun i hi => (State.setEntry_entry_ne u _ hi).trans (hentry i)⟩
  exact congrArg Ledger.sessions ((State.setEntry_ledger ..).trans hledger)

/-- So it is where the session has been left as it was counted. -/
theorem Counted.freeEntry {slot : Nat} {z s : State} (h : Counted slot z s) (hgen : (s.entry slot).gen = (z.entry slot).gen)
    (hothers : ∀ i, i ≠ slot → s.entry i = z.entry i) (hopen : (z.entry slot).state ≠ .free) : let t := s.freeEntry slot
    t.entry slot = { Entry.zero with gen := (z.entry slot).gen } ∧
      (t.ledger (z.entry slot).tenant).sessions = (z.ledger (z.entry slot).tenant).sessions - 1 ∧ ∀ i, i ≠ slot → t.entry i = z.entry i := by
  obtain ⟨hentry, hsessions, hrest⟩ := State.freeEntry_frees (h.isOpen hopen)
  rw [h.tenant, h.sessions] at hsessions
  rw [hgen] at hentry
  exact ⟨hentry, hsessions, fun i hi => (hrest i hi).trans (hothers i hi)⟩

/-- A turn that is open stays so, with what it holds, when the drafts of its step are rejected. -/
theorem State.rejectDrafts_turn (s : State) (slot : Nat) : ((s.rejectDrafts slot).edgeAt slot).turnOpen = (s.edgeAt slot).turnOpen ∧
    ((s.rejectDrafts slot).edgeAt slot).held = (s.edgeAt slot).held ∧ ((s.rejectDrafts slot).edgeAt slot).tIn = (s.edgeAt slot).tIn := by
  unfold State.rejectDrafts
  dsimp only
  split
  · have hedge : ∃ x : EdgeAux, (((s.closeStep slot).countRejected slot (s.edgeAt slot).drafts.length).edgeAt slot) = x ∧
        x.turnOpen = (s.edgeAt slot).turnOpen ∧ x.held = (s.edgeAt slot).held ∧ x.tIn = (s.edgeAt slot).tIn := by
      refine ⟨_, (State.setEntry_edgeAt ..).trans (State.setEdge_edgeAt_same ..), rfl, rfl, rfl⟩
    obtain ⟨x, hx, hturn⟩ := hedge
    rw [hx]
    exact hturn
  · exact ⟨rfl, rfl, rfl⟩

/-- A closing entry stays so when the drafts of its step are rejected. -/
theorem State.rejectDrafts_closing {s : State} {slot : Nat} (h : (s.entry slot).state = .closing) : ((s.rejectDrafts slot).entry slot).state = .closing := by
  unfold State.rejectDrafts
  dsimp only
  split
  · obtain ⟨r, hr⟩ := s.endStepRing_entry slot
    have hstate : ((s.endStepRing slot).entry slot).state = .closing := (congrArg Entry.state hr).trans h
    have hclose : ((s.closeStep slot).entry slot).state = .closing := by
      refine (congrArg Entry.state (State.setEntry_entry_same ..)).trans ?_
      dsimp only
      rw [hstate]
      rfl
    exact (congrArg Entry.state (State.setEntry_entry_same ..)).trans hclose
  · exact h

/-- An edge that is not the home and has no open turn frees the entry. -/
theorem State.edgeClose_idle {s : State} {slot : Nat} (r : Stop) (hturn : (s.edgeAt slot).turnOpen = false) (hhome : (s.entry slot).home = false) :
    s.edgeClose slot r = (s.rejectDrafts slot).freeEntry slot := by
  have hclosed : ((s.rejectDrafts slot).edgeAt slot).turnOpen = false := (s.rejectDrafts_turn slot).1.trans hturn
  have haway : ((s.rejectDrafts slot).entry slot).home = false := OnlySlot.refl.rejectDrafts.kept.home.trans hhome
  unfold State.edgeClose
  dsimp only
  rw [hclosed, haway]
  rfl

/-- An edge with tokens held whose instants stand stops behind the last of them. -/
theorem State.edgeClose_waits {s : State} {slot : Nat} {k : HeldTok} {at' : Nat} (r : Stop) (hturn : (s.edgeAt slot).turnOpen = true)
    (hlast : (s.edgeAt slot).held.getLast? = some k) (hin : (s.edgeAt slot).tIn = some at') : s.edgeClose slot r =
      (s.rejectDrafts slot).setEdge slot { (s.rejectDrafts slot).edgeAt slot with stopPending := some (r, k.release) } := by
  obtain ⟨hturn', hheld', hin'⟩ := s.rejectDrafts_turn slot
  unfold State.edgeClose
  dsimp only
  rw [hturn', hturn, if_pos rfl, hheld', hlast, hin', hin]

/-! CLOSE at such a gate (R402). -/
section Close
variable {s : State} {it : Item}

/-- The reason of a close that a gate's own deadline has overtaken. -/
def State.closeStop (s : State) (slot : Nat) : Stop := if (s.entry slot).deadlinePast s.tick then .deadline else .closed

/-- The entry closing, its parked copy freed. -/
def State.closingAt (s : State) (slot : Nat) : State := (s.freeCopy slot).setEntry slot { (s.freeCopy slot).entry slot with state := .closing }

theorem State.closingAt_only (s : State) (slot : Nat) : (∀ i, i ≠ slot → (s.closingAt slot).entry i = s.entry i) ∧
    ((s.closingAt slot).entry slot).state = .closing ∧ ((s.closingAt slot).entry slot).gen = (s.entry slot).gen ∧
    ((s.closingAt slot).entry slot).home = (s.entry slot).home ∧ (∀ k, (s.closingAt slot).edgeAt k = s.edgeAt k) := by
  have hcopy : OnlySlot slot s (s.freeCopy slot) := OnlySlot.refl.freeCopy
  have hkept : Framed false [.entries, .ledgers, .net, .tier] s (s.freeCopy slot) := State.freeCopy_framed rfl (.refl s)
  unfold State.closingAt
  refine ⟨fun i hi => (State.setEntry_entry_ne _ _ hi).trans (hcopy.others i hi), ?_, ?_, ?_, fun k => ?_⟩
  · rw [State.setEntry_entry_same]
  · rw [State.setEntry_entry_same]
    exact hcopy.kept.gen
  · rw [State.setEntry_entry_same]
    exact hcopy.kept.home
  · rw [State.setEntry_edgeAt]
    exact hkept.edgeAt_eq (by decide) k

theorem Counted.closingAt (s : State) (slot : Nat) : Counted slot s (s.closingAt slot) :=
  (Counted.refl s).freeCopy.setEntry rfl fun _ => (by decide : Sess.closing ≠ .free)

variable (hm : s.matches (hdlOf it.w1) = true) (hhome : (s.entry (hdlSlot (hdlOf it.w1))).home = false)
  (hstate : (s.entry (hdlSlot (hdlOf it.w1))).state = .live ∨ (s.entry (hdlSlot (hdlOf it.w1))).state = .speculating)
include hm hhome hstate

/-- A gate that is neither home nor edge frees its entry; an edge closes it. -/
theorem State.actClose_ours : s.actClose it = if (s.entry (hdlSlot (hdlOf it.w1))).edge then
      (s.closingAt (hdlSlot (hdlOf it.w1))).edgeClose (hdlSlot (hdlOf it.w1)) (s.closeStop (hdlSlot (hdlOf it.w1)))
    else (((s.endPend (hdlSlot (hdlOf it.w1)) .noSession).dropOps (hdlSlot (hdlOf it.w1))).freeCopy (hdlSlot (hdlOf it.w1))).freeEntry (hdlSlot (hdlOf it.w1)) := by
  unfold State.actClose
  dsimp only
  rcases hstate with h | h <;>
  · rw [hm, hhome, h]
    cases (s.entry (hdlSlot (hdlOf it.w1))).edge <;> rfl

/-- A gate without an open turn frees its entry. -/
theorem State.actClose_frees (hturn : (s.entry (hdlSlot (hdlOf it.w1))).edge = false ∨ (s.edgeAt (hdlSlot (hdlOf it.w1))).turnOpen = false) :
    let slot := hdlSlot (hdlOf it.w1)
    let n := s.entry slot
    let t := s.actClose it
    t.entry slot = { Entry.zero with gen := n.gen } ∧ (t.ledger n.tenant).sessions = (s.ledger n.tenant).sessions - 1 ∧
      ∀ i, i ≠ slot → t.entry i = s.entry i := by
  intro slot n t
  have ht := State.actClose_ours hm hhome hstate
  cases hedge : (s.entry slot).edge with
  | false =>
    rw [if_neg (by rw [hedge]; exact Bool.false_ne_true)] at ht
    have honly : OnlySlot slot s (((s.endPend slot .noSession).dropOps slot).freeCopy slot) :=
      ((OnlySlot.refl.endPendWith .noSession []).framed (State.dropOps_framed (F := [.ledgers, .mem, .img, .net, .fsp, .tier]) rfl (.refl _)) rfl).freeCopy
    have hfrees := (Counted.refl s).endPend.dropOps.freeCopy.freeEntry honly.kept.gen honly.others (State.matches_open hm)
    rwa [← ht] at hfrees
  | true =>
    have hopen : (s.edgeAt slot).turnOpen = false := hturn.resolve_left (by rw [hedge]; decide)
    obtain ⟨hothers, -, hgen, haway, hturns⟩ := s.closingAt_only slot
    rw [if_pos hedge, State.edgeClose_idle _ (by rw [hturns]; exact hopen) (haway.trans hhome)] at ht
    have honly : OnlySlot slot (s.closingAt slot) ((s.closingAt slot).rejectDrafts slot) := OnlySlot.refl.rejectDrafts
    have hfrees := (Counted.closingAt s slot).rejectDrafts.freeEntry (honly.kept.gen.trans hgen)
      (fun i hi => (honly.others i hi).trans (hothers i hi)) (State.matches_open hm)
    rwa [← ht] at hfrees

/-- An edge whose turn holds tokens stops behind the last of them. -/
theorem State.actClose_waits {k : HeldTok} {at' : Nat} (hedge : (s.entry (hdlSlot (hdlOf it.w1))).edge = true)
    (hturn : (s.edgeAt (hdlSlot (hdlOf it.w1))).turnOpen = true) (hlast : (s.edgeAt (hdlSlot (hdlOf it.w1))).held.getLast? = some k)
    (hin : (s.edgeAt (hdlSlot (hdlOf it.w1))).tIn = some at') :
    let slot := hdlSlot (hdlOf it.w1)
    let t := s.actClose it
    (t.entry slot).state = .closing ∧ (t.edgeAt slot).held = (s.edgeAt slot).held ∧ (t.edgeAt slot).stopPending = some (s.closeStop slot, k.release) ∧
      ∀ i, i ≠ slot → t.entry i = s.entry i := by
  intro slot t
  have ht := State.actClose_ours hm hhome hstate
  obtain ⟨hothers, hclosing, -, -, hturns⟩ := s.closingAt_only slot
  have hrejects := State.rejectDrafts_closing hclosing
  have hheld := ((s.closingAt slot).rejectDrafts_turn slot).2.1
  have honly : OnlySlot slot (s.closingAt slot) ((s.closingAt slot).rejectDrafts slot) := OnlySlot.refl.rejectDrafts
  rw [if_pos hedge, State.edgeClose_waits (k := k) (at' := at') (s.closeStop slot) (by rw [hturns]; exact hturn) (by rw [hturns]; exact hlast)
    (by rw [hturns]; exact hin)] at ht
  show ((s.actClose it).entry slot).state = _ ∧ ((s.actClose it).edgeAt slot).held = _ ∧ ((s.actClose it).edgeAt slot).stopPending = _ ∧
    ∀ i, i ≠ slot → (s.actClose it).entry i = s.entry i
  rw [ht, State.setEdge_edgeAt_same]
  exact ⟨hrejects, hheld.trans (congrArg EdgeAux.held (hturns slot)), rfl, fun i hi => (honly.others i hi).trans (hothers i hi)⟩

end Close

end Sys2Proof.Machine
end

section
/-! SUPPORT. A session opened at its home, a command forwarded to it, and the answer to one (R87, R100, R358, R394, R402). -/
namespace Sys2Proof.Machine

/-! OPEN (R100 step 2). -/
section Open
variable {s : State} {it : Item}

/-- A new session in the table: its entry as it is given, one session more of its tenant, the other entries as they were. -/
theorem State.openHome_allocates (s : State) (slot : Nat) (e : Entry) (q : OpenReq) : let t := (s.allocate slot e).openHome slot q
    t.entry slot = e ∧ (t.ledger e.tenant).sessions = (s.ledger e.tenant).sessions + 1 ∧ ∀ i, i ≠ slot → t.entry i = s.entry i := by
  intro t
  have hkept : Framed false [.home, .mem, .img, .net] (s.allocate slot e) t := State.openHome_framed rfl (.refl _)
  refine ⟨?_, ?_, fun i hi => ?_⟩
  · exact (hkept.entry_eq (by decide) slot).trans (State.setEntry_entry_same _ slot e)
  · rw [hkept.ledger_eq (by decide)]
    exact (congrArg Ledger.sessions (State.setEntry_ledger ..)).trans (congrArg Ledger.sessions (State.setLedger_ledger_same ..))
  · exact (hkept.entry_eq (by decide) i).trans ((State.setEntry_entry_ne _ _ hi).trans (State.setLedger_entry ..))

/-- The state in which the home judges an open: while the clock plan ages, the capacities are computed with the new session first. -/
def State.opening (s : State) (q : OpenReq) : State := if s.ageing then s.recompute [(q.policy, q.hops)] else s

theorem State.opening_framed (s : State) (q : OpenReq) : Framed false [.trb, .parts, .ints, .bal, .clk] s (s.opening q) := by
  unfold State.opening
  split
  · exact State.recompute_framed rfl (.refl s)
  · exact .refl s

theorem State.opening_gate (s : State) (q : OpenReq) : (s.opening q).gate = s.gate :=
  congrArg (fun u : NetU => bf u.cfg 46 37) ((s.opening_framed q).kept (f := .net) (by decide)).symm

section Judged
variable {q : OpenReq} (hq : OpenReq.ofWords (msgWords it) = q)
include hq

theorem State.actOpen_refuses {st : Status} (h : (s.opening q).homeOpenCheck q (rSrc it.w0) = some st) : s.actOpen it =
    (s.opening q).sendTo typOpenReply (rSrc it.w0) 3 (openReplyPayload (handleOf s.gate q.slot (s.entry q.slot).gen) st) := by
  subst hq
  rw [← s.opening_gate (OpenReq.ofWords (msgWords it)), ← (s.opening_framed (OpenReq.ofWords (msgWords it))).entry_eq (by decide)]
  unfold State.actOpen
  dsimp only
  rw [show (if s.ageing then _ else s) = s.opening (OpenReq.ofWords (msgWords it)) from rfl, h]

omit hq in
/-- The entry that an open gives the home. -/
def State.openedEntry (s : State) (q : OpenReq) (it : Item) : Entry :=
  s.newEntry q .live true false ((s.ownerOf q.tenant).getD 0) (((s.entry q.slot).gen + 1) % 512) s.gate (rSrc it.w0) (wat (msgWords it) 5).toNat

/-- An open that the home admits: the entry is LIVE there under the next generation. -/
theorem State.actOpen_admits (h : (s.opening q).homeOpenCheck q (rSrc it.w0) = none) : ∃ (t : State) (d : Entry),
    s.actOpen it = t.sendTo typOpenReply (rSrc it.w0) 3 (openReplyPayload (t.handle q.slot) .ok) ∧ t.entry q.slot = d ∧
      d.state = .live ∧ d.home = true ∧ d.edge = false ∧ d.gen = ((s.entry q.slot).gen + 1) % 512 ∧ d.homeGate = s.gate ∧ d.edgeGate = rSrc it.w0 ∧
      d.tenant = q.tenant ∧ d.length = 0 ∧ (t.ledger q.tenant).sessions = (s.ledger q.tenant).sessions + 1 ∧ ∀ i, i ≠ q.slot → t.entry i = s.entry i := by
  have hkept := s.opening_framed q
  have hgen : ((s.opening q).entry q.slot).gen = (s.entry q.slot).gen := congrArg Entry.gen (hkept.entry_eq (by decide) q.slot)
  have hledger : (s.opening q).ledger q.tenant = (s.ledger q.tenant) := hkept.ledger_eq (by decide) q.tenant
  obtain ⟨hentry, hsessions, hothers⟩ := (s.opening q).openHome_allocates q.slot ((s.opening q).openedEntry q it) q
  refine ⟨((s.opening q).allocate q.slot ((s.opening q).openedEntry q it)).openHome q.slot q, (s.opening q).openedEntry q it, ?_, hentry, rfl, rfl, rfl,
    congrArg (fun g => (g + 1) % 512) hgen, s.opening_gate q, rfl, rfl, rfl, hsessions.trans (congrArg (fun v : Ledger => v.sessions + 1) hledger),
    fun i hi => (hothers i hi).trans (hkept.entry_eq (by decide) i)⟩
  subst hq
  unfold State.actOpen
  dsimp only
  rw [show (if s.ageing then _ else s) = s.opening (OpenReq.ofWords (msgWords it)) from rfl, h]
  rfl

end Judged

end Open

/-! A sequence of one message (R394). -/
section Whole
variable {s : State} {it : Item} (hseq : rSeq it.w0 = 0) (hend : rEnd it.w0 = true)

/-- The state with the sequences in progress replaced. -/
def State.withAsm (s : State) (l : List Assembly) : State := { s with cmi := { s.cmi with asm := l } }

include hseq hend in
theorem State.assemble_whole : ∃ l, s.assemble it = (s.withAsm l, some ((msgWords it).take (1 + hLen it.w1))) := by
  refine ⟨s.cmi.asm.filter (fun a => !(a.src == rSrc it.w0 && a.type == rType it.w0)), ?_⟩
  unfold State.assemble
  dsimp only
  rw [hseq, hend, if_pos (rfl : 0 = 0), if_neg (by decide), if_pos rfl]
  rfl

/-! A forwarded STOP_SET (R145, R402). -/

/-- Who issued a command that a message brings. -/
def ringIssuer (it : Item) (op : Nat) : Issuer := { op := op, part := hPart it.w1, tag := hTag it.w1, smp := false, src := some (rSrc it.w0) }

include hseq hend in
theorem State.actCmd_stopSet (hop : hOp it.w1 = 0x17) (hlen : hLen it.w1 = 2) : ∃ l, s.actCmd it =
    (s.withAsm l).atHome (ringIssuer it 0x17) it.w2 (fun slot => (s.withAsm l).stopSetAt (ringIssuer it 0x17) it.w3 [] slot) := by
  obtain ⟨l, hl⟩ := State.assemble_whole (s := s) hseq hend
  refine ⟨l, ?_⟩
  have hwords : (msgWords it).take (1 + hLen it.w1) = [it.w1, it.w2, it.w3] := by rw [hlen]; rfl
  rw [hwords] at hl
  unfold State.actCmd
  rw [hl]
  dsimp only
  unfold State.runForwarded
  dsimp only
  rw [show wat [it.w1, it.w2, it.w3] 0 = it.w1 from rfl, hop]
  rfl

theorem State.stopSetAt_home {i : Issuer} {w : Word} {fwd : List Word} {slot : Nat} (hlive : (s.entry slot).state = .live)
    (hhome : (s.entry slot).home = true) (hset : ∃ im, s.img.force = some im ∧ (stopsOf w).1 < (s.patHdr im).stopsets) :
    s.stopSetAt i w fwd slot = (s.setStops slot (stopsOf w).1 (stopsOf w).2.1 (stopsOf w).2.2).answer i .ok := by
  obtain ⟨im, him, hlt⟩ := hset
  simp only [State.stopSetAt, hlive, him, hhome, Nat.not_le.2 hlt, if_false, if_true, reduceCtorEq, or_self]

theorem State.atHome_acts {i : Issuer} {w : Word} {act : Nat → State} (hm : s.matches (hdlOf w) = true) (hhome : (s.entry (hdlSlot (hdlOf w))).home = true) :
    s.atHome i w act = act (hdlSlot (hdlOf w)) := by
  simp [State.atHome, State.matches_open hm, hm, hhome]

theorem State.atHome_free {i : Issuer} {w : Word} {act : Nat → State} (h : (s.entry (hdlSlot (hdlOf w))).state = .free) :
    s.atHome i w act = s.answer i .noSession := by
  simp [State.atHome, h]

/-! CMD_REPLY (R358). -/

include hseq hend in
theorem State.actCmdReply_whole : ∃ l, s.actCmdReply it =
    match s.cmi.fwds.find? (fun f => f.dst == rSrc it.w0 && f.issuer.op == hOp it.w1 && f.issuer.part == hPart it.w1 && f.issuer.tag == hTag it.w1) with
    | some f => (s.withAsm l).endForward f (Status.ofCode (bf it.w1 7 0)) (((msgWords it).take (1 + hLen it.w1)).drop 1)
    | none => s.withAsm l := by
  obtain ⟨l, hl⟩ := State.assemble_whole (s := s) hseq hend
  refine ⟨l, ?_⟩
  have hfirst : wat ((msgWords it).take (1 + hLen it.w1)) 0 = it.w1 := by rw [Nat.add_comm]; rfl
  unfold State.actCmdReply
  rw [hl]
  dsimp only
  rw [hfirst]
  rfl

/-- The state in which a forwarded command no longer waits for its answer. -/
def State.fwdEnded (s : State) (f : Fwd) : State := { s with cmi := { s.cmi with fwds := s.cmi.fwds.filter (· != f) } }

/-- The one forwarded command in progress, whose reply an entry holds, is answered. -/
theorem State.endForward_held {f : Fwd} {j : Nat} (st : Status) (result : List Word) (hfwds : s.cmi.fwds = [f]) (hslot : f.slot = some j)
    (hissuer : (s.entry j).pendIssuer = f.issuer) (hpend : (s.entry j).pendOp ≠ 0) (hfeed : f.issuer.op ≠ 0x11) (hpin : f.issuer.op ≠ 0x3B) :
    ∃ t : State, s.endForward f st result = t.reply f.issuer st result ∧ t.cmi.fwds = [] ∧ (t.entry j).pendOp = 0 ∧ ∀ i, i ≠ j → t.entry i = s.entry i := by
  have hnone : (s.fwdEnded f).cmi.fwds = [] := by
    show s.cmi.fwds.filter (· != f) = []
    rw [hfwds]
    simp
  have hends : s.endForward f st result = (s.fwdEnded f).endPendWith j st result := by
    unfold State.endForward
    dsimp only
    rw [hslot]
    dsimp only
    rw [if_neg (fun h => hpin h.1), if_neg hfeed]
    exact if_pos hissuer
  have hentry : (s.fwdEnded f).entry = s.entry := rfl
  generalize s.fwdEnded f = u at hnone hends hentry
  have hkept : Framed false [.entries, .net] u (u.setEntry j { u.entry j with pendOp := 0, pendTag := 0, pendSmp := false }) :=
    State.setEntry_framed rfl (.refl u)
  refine ⟨u.replyTaken j, ?_, ?_, ?_, fun i hi => ?_⟩
  · rw [hends, State.endPendWith_replies st result (by rw [hentry]; exact hpend), hentry, hissuer]
  · have hcmi := hkept.kept (f := .cmi) (by decide)
    show (State.cmi _).fwds.filter _ = []
    rw [← show _ = _ from hcmi, hnone]
    rfl
  · exact congrArg Entry.pendOp (State.setEntry_entry_same u j _)
  · exact (State.setEntry_entry_ne u _ hi).trans (congrFun hentry i)

include hseq hend in
/-- A STOP_SET that finds its session at its home is done there. -/
theorem State.actCmd_stopSet_done (hop : hOp it.w1 = 0x17) (hlen : hLen it.w1 = 2) (hm : s.matches (hdlOf it.w2) = true)
    (hhome : (s.entry (hdlSlot (hdlOf it.w2))).home = true) (hlive : (s.entry (hdlSlot (hdlOf it.w2))).state = .live)
    (hset : ∃ im, s.img.force = some im ∧ (stopsOf it.w3).1 < (s.patHdr im).stopsets) :
    let j := hdlSlot (hdlOf it.w2)
    let q := stopsOf it.w3
    ∃ t : State, s.actCmd it = t.answer (ringIssuer it 0x17) .ok ∧
      t.entry j = { s.entry j with stopSet := q.1, endToken := q.2.1, endEn := q.2.2 } ∧ ∀ c, c ≠ j → t.entry c = s.entry c := by
  intro j q
  obtain ⟨l, hl⟩ := State.actCmd_stopSet (s := s) hseq hend hop hlen
  refine ⟨(s.withAsm l).setStops j q.1 q.2.1 q.2.2, ?_, State.setEntry_entry_same .., fun c hc => State.setEntry_entry_ne _ _ hc⟩
  rw [hl, State.atHome_acts (s := s.withAsm l) hm hhome]
  exact State.stopSetAt_home (s := s.withAsm l) hlive hhome hset

include hseq hend in
/-- A STOP_SET for a FREE entry is refused. -/
theorem State.actCmd_stopSet_free (hop : hOp it.w1 = 0x17) (hlen : hLen it.w1 = 2) (hfree : (s.entry (hdlSlot (hdlOf it.w2))).state = .free) :
    ∃ t : State, s.actCmd it = t.answer (ringIssuer it 0x17) .noSession ∧ t.entries = s.entries ∧ t.mem = s.mem := by
  obtain ⟨l, hl⟩ := State.actCmd_stopSet (s := s) hseq hend hop hlen
  exact ⟨s.withAsm l, hl.trans (State.atHome_free (s := s.withAsm l) hfree), rfl, rfl⟩

include hseq hend in
/-- An answer for which no command waits changes nothing that a session or a client sees. -/
theorem State.actCmdReply_unasked (hfwds : s.cmi.fwds = []) :
    let t := s.actCmdReply it
    t.entries = s.entries ∧ t.hrpOut = s.hrpOut ∧ t.cmi.fwds = [] := by
  intro t
  obtain ⟨l, hl⟩ := State.actCmdReply_whole (s := s) hseq hend
  have ht : t = s.withAsm l := by
    rw [hfwds] at hl
    exact hl
  rw [ht]
  exact ⟨rfl, rfl, hfwds⟩

include hseq hend in
/-- The answer to the one forwarded command in progress, whose reply an entry holds, ends it. -/
theorem State.actCmdReply_ends {f : Fwd} {j : Nat} (hfwds : s.cmi.fwds = [f]) (hdst : f.dst = rSrc it.w0) (hop : f.issuer.op = hOp it.w1)
    (hpart : f.issuer.part = hPart it.w1) (htag : f.issuer.tag = hTag it.w1) (hfeed : f.issuer.op ≠ 0x11) (hpin : f.issuer.op ≠ 0x3B)
    (hslot : f.slot = some j) (hissuer : (s.entry j).pendIssuer = f.issuer) (hpend : (s.entry j).pendOp ≠ 0) :
    ∃ t : State, s.actCmdReply it = t.reply f.issuer (Status.ofCode (bf it.w1 7 0)) (((msgWords it).take (1 + hLen it.w1)).drop 1) ∧
      t.cmi.fwds = [] ∧ (t.entry j).pendOp = 0 ∧ ∀ i, i ≠ j → t.entry i = s.entry i := by
  obtain ⟨l, hl⟩ := State.actCmdReply_whole (s := s) hseq hend
  have hfound : s.cmi.fwds.find? (fun f => f.dst == rSrc it.w0 && f.issuer.op == hOp it.w1 && f.issuer.part == hPart it.w1 &&
      f.issuer.tag == hTag it.w1) = some f := by
    rw [hfwds]
    simp [hdst, hop, hpart, htag]
  rw [hfound] at hl
  rw [hl]
  exact State.endForward_held (s := s.withAsm l) _ _ hfwds hslot hissuer hpend hfeed hpin

end Whole

end Sys2Proof.Machine
end

section
/-! SUPPORT. The session messages delivered to a gate, assembled (R395). -/
namespace Sys2Proof.Machine

/-- Settles O46: each message acts where it was heard, and the lemma of its act says what that leaves. -/
theorem messagesAct : Obligations.MessagesAct := by
  unfold Obligations.MessagesAct
  refine ⟨fun m s x => ?_, fun m s x k f at' => ?_⟩
  · exact ⟨fun h => h.next rfl rfl, fun h => h.next rfl rfl, fun h => h.next rfl rfl, fun h => h.next rfl rfl, fun h => h.next rfl rfl,
      fun h => h.next rfl rfl, fun h => h.next rfl rfl, fun h => h.next rfl rfl, fun h => h.next rfl rfl, fun h => h.next rfl rfl,
      fun h => h.next rfl rfl, fun h => h.next rfl rfl, fun h => h.next rfl rfl, fun h => h.next rfl rfl, fun h => h.next rfl rfl,
      fun h => h.next rfl rfl, fun h => h.next rfl rfl, fun h => h.next rfl rfl, fun h => h.next rfl rfl⟩
  intro e h it hd slot n freed idle6 whole
  refine ⟨fun hdel hidle => ?item, fun hdel => ?openMsg, fun hdel hopening hsrc hgate hok hpend => ?openReply, fun hdel hm hedge hmark hckpt hlive => ?step,
    fun hdel hm hhome hspec hwork hstep => ?resolve, fun hdel hm hhome hcancelled hclosing => ?streamEnd, fun hdel hm hhome hstate => ?close,
    fun hdel hm hcancelled => ?cancel, fun hdel hwhole hop hlen => ?cmd, fun hdel hwhole => ?cmdReply⟩
  case item =>
    have hx : exec (.item m x) s = .next (h.actItem it) := hdel.next rfl rfl
    obtain ⟨h2, h3, h4, h5, h6, h7⟩ := hidle
    have hone : OneWord it := ⟨h2, h3, h4, h5, h6, h7⟩
    refine ⟨fun hk => ?_, fun hk => ?_⟩
    · intro j n hgen hhome hlive hpos hwork
      obtain ⟨w, hw⟩ := State.actItem_commits hone hgen hlive hk hhome hpos hwork
      exact ⟨_, w, hx, hw⟩
    · intro j n v hform haction hgen hedge hlive hheld hpos hverdict hin
      exact ⟨_, hx.trans (congrArg Host.Outcome.next (State.actItem_verdict hone hgen hlive hk hform haction hedge hheld hpos hverdict hin)),
        congrArg EdgeAux.held (State.setEdge_edgeAt_same ..), rfl, rfl⟩
  case openMsg =>
    have hx : exec (.openMsg m x) s = .next (h.actOpen it) := hdel.next rfl rfl
    intro q src p
    rw [hx]
    refine ⟨fun st hcheck => congrArg Host.Outcome.next (State.actOpen_refuses rfl hcheck), fun hcheck => ?_⟩
    obtain ⟨t, d, ht, hd⟩ := State.actOpen_admits (s := h) (it := it) (q := q) rfl hcheck
    exact ⟨t, d, congrArg Host.Outcome.next ht, hd⟩
  case openReply =>
    have hx : exec (.openReply m x) s = .next (h.actOpenReply it) := hdel.next rfl rfl
    obtain ⟨hentry, hout, hothers⟩ := State.actOpenReply_opens hopening hsrc hgate hok hpend
    exact ⟨_, hx, hentry, fun hsmp => ⟨_, hout hsmp, rfl, rfl, rfl⟩, hothers⟩
  case step =>
    have hx : exec (.stepMsg m x) s = .next (h.actStep it) := hdel.next rfl rfl
    exact ⟨_, hx, State.actStep_speculates hm hedge hmark hckpt hlive⟩
  case resolve =>
    have hx : exec (.resolve m x) s = .next (h.actResolve it) := hdel.next rfl rfl
    exact ⟨_, hx, State.actResolve_ends hm hhome hspec hwork hstep⟩
  case streamEnd =>
    have hx : exec (.streamEnd m x) s = .next (h.actStreamEnd it) := hdel.next rfl rfl
    obtain ⟨hstop, hlength, hcount, hothers, -, -⟩ := h.homeStreamEnd_ends slot (bf it.w1 31 12) n.length (Stop.ofCode (bf it.w1 3 0)) hclosing
    exact ⟨_, hx.trans (congrArg Host.Outcome.next (State.actStreamEnd_ours hm hhome hcancelled)), hstop, hlength, hcount, hothers⟩
  case close =>
    have hx : exec (.close m x) s = .next (h.actClose it) := hdel.next rfl rfl
    exact ⟨fun hturn => ⟨_, hx, State.actClose_frees hm hhome hstate hturn⟩,
      fun hedge hturn hlast hin => ⟨_, hx, State.actClose_waits hm hhome hstate hedge hturn hlast hin⟩⟩
  case cancel =>
    have hx : exec (.cancel m x) s = .next (h.actCancel it) := hdel.next rfl rfl
    exact ⟨_, hx, State.actCancel_cancels hm hcancelled⟩
  case cmd =>
    have hx : exec (.cmd m x) s = .next (h.actCmd it) := hdel.next rfl rfl
    intro i j q
    rw [hx]
    obtain ⟨hseq, hend⟩ := hwhole
    refine ⟨fun hm hhome hlive hset => ?_, fun hfree => ?_⟩
    · obtain ⟨t, ht, hentry⟩ := State.actCmd_stopSet_done hseq hend hop hlen hm hhome hlive hset
      exact ⟨t, congrArg Host.Outcome.next ht, hentry⟩
    · obtain ⟨t, ht, hkept⟩ := State.actCmd_stopSet_free hseq hend hop hlen hfree
      exact ⟨t, congrArg Host.Outcome.next ht, hkept⟩
  case cmdReply =>
    have hx : exec (.cmdReply m x) s = .next (h.actCmdReply it) := hdel.next rfl rfl
    obtain ⟨hseq, hend⟩ := hwhole
    refine ⟨fun hfwds => ⟨_, hx, State.actCmdReply_unasked hseq hend hfwds⟩, fun hfwds hdst hop hpart htag hfeed hpin j hslot hissuer hpend => ?_⟩
    obtain ⟨t, ht, hkept⟩ := State.actCmdReply_ends hseq hend hfwds hdst hop hpart htag hfeed hpin hslot hissuer hpend
    exact ⟨t, hx.trans (congrArg Host.Outcome.next ht), hkept⟩

end Sys2Proof.Machine
end

section
/-! SUPPORT. One step: the command at the front of the queue, or one REFCLK edge (R370, R371); what every command leaves (R477). -/
namespace Sys2Proof.Machine

/-- Settles O1: on a queue that is not empty a step is by definition the run of its front. -/
theorem stepRunsExec : Obligations.StepRunsExec := by
  unfold Obligations.StepRunsExec
  intro c rest s hqueue
  simp only [step, hqueue]

/-- Settles O3: what every command keeps holds the queue and the grade. -/
theorem commandsLeaveQueue : Obligations.CommandsLeaveQueue := by
  unfold Obligations.CommandsLeaveQueue
  intro c s
  obtain ⟨t, hexec, hkeeps⟩ := exec_keeps c s
  exact ⟨t, hexec, hkeeps.pending, hkeeps.grade⟩

theorem gtId_full : gtId .full = 0x1010_2000_1100_0000#64 := by decide
theorem gtId_half : gtId .half = 0x1010_2000_1110_0000#64 := by decide

/-- Settles O52: GT_ID is read from the grade, which every command keeps. -/
theorem identityConstant : Obligations.IdentityConstant := by
  unfold Obligations.IdentityConstant
  refine ⟨fun s => ⟨fun hfull => (congrArg gtId hfull).trans gtId_full, fun hhalf => (congrArg gtId hhalf).trans gtId_half⟩, fun c s t hexec => ?_⟩
  obtain ⟨u, hu, hkeeps⟩ := exec_keeps c s
  cases hu.symm.trans hexec
  exact congrArg gtId hkeeps.grade

theorem State.diffArea3_unpaired {s : State} (hpaired : s.net.paired = false) : s.diffArea3 = s := if_neg (by simp [hpaired])

/-- The edge of an empty queue, in a reset, where no pulse is to be measured and no tick falls due. -/
theorem State.elapse_idleMoment {s : State} (hreset : s.inReset = true) (hpaired : s.net.paired = false) (hpps : s.tm.ppsEdge = none)
    (hnone : (s.pass 1 0).tick ≤ s.tm.lastTick) : s.elapse idleMoment = s.pass 1 0 := by
  have hpass : s.passTicks none false 1 0 = s.pass 1 0 := by
    rw [State.passTicks_none hnone]
    exact State.between_inReset hreset
  unfold State.elapse State.elapseWith
  simp only [State.diffArea3_unpaired hpaired, hpps]
  exact congrArg (State.meetAll · []) hpass

/-- Settles O2: the moment of an empty queue is one edge, which the time unit and the clocks record. -/
theorem emptyQueueIdles : Obligations.EmptyQueueIdles := by
  unfold Obligations.EmptyQueueIdles
  intro s hqueue
  have hstep : step s = .next (s.elapse idleMoment) := by simp only [step, hqueue]
  exact ⟨hstep, fun hreset hpaired hpps hnone =>
    ⟨_, _, hstep.trans (congrArg Host.Outcome.next (State.elapse_idleMoment hreset hpaired hpps hnone))⟩⟩

end Sys2Proof.Machine
end

section
/-! SUPPORT. The trouble log (R460 to R465): the words that an event writes, and what they leave of the entries before it. -/
namespace Sys2Proof.Machine

/-! The retained store after each part of an event. -/
section Retained
variable (s : State)

theorem State.retained_setSticky (b : Sticky) {k : Nat} (hmirror : k ≠ 0x10) (htime : k ≠ 0x12) : (s.setSticky b).retained k = s.retained k := by
  unfold State.setSticky
  dsimp only
  rw [State.retained_putRetained_ne _ _ htime, State.retained_putRetained_ne _ _ hmirror]
  rfl

theorem State.retained_logRepeat (n k : Nat) : (s.logRepeat n).retained k =
    if k = 0x401 + 4 * n then
      pack [(bf (s.retained (0x401 + 4 * n)) 63 35, 63, 35), (satAdd 16 (bf (s.retained (0x401 + 4 * n)) 34 19) 1, 34, 19)]
    else s.retained k := State.retained_putRetained ..

/-- The header of the log after a new entry (R463, R465). -/
def State.nextLogHeader (s : State) : Word :=
  pack [((s.logNext + 1) % 256, 63, 56), (min (s.logHeld + 1) 256, 55, 47),
    (if s.logHeld < 256 then s.logOver else satAdd 32 s.logOver 1, 46, 15)]

theorem State.retained_logNew_header (w1 obj detail : Word) : (s.logNew w1 obj detail).retained logHeaderAt = s.nextLogHeader :=
  State.retained_putRetained_same ..

theorem State.retained_logNew (w1 obj detail : Word) {k : Nat} (h : k ≠ logHeaderAt) : (s.logNew w1 obj detail).retained k =
    if k = 0x403 + 4 * s.logNext then detail
    else if k = 0x402 + 4 * s.logNext then obj
    else if k = 0x401 + 4 * s.logNext then w1
    else if k = 0x400 + 4 * s.logNext then word s.now else s.retained k := by
  unfold State.logNew
  dsimp only
  rw [State.retained_putRetained_ne _ _ h]
  simp only [State.retained_putRetained]

end Retained

theorem bf_lt (w : Word) (hi lo : Nat) : bf w hi lo < 2 ^ (hi + 1 - lo) := Nat.mod_lt _ (Nat.two_pow_pos _)
theorem satAdd_lt (w a b : Nat) : satAdd w a b < 2 ^ w := by
  have := Nat.two_pow_pos w
  unfold satAdd
  omega

theorem State.logNext_lt (s : State) : s.logNext < 256 := bf_lt _ 63 56

section Header
variable (s : State)

theorem State.nextLogHeader_next : bf s.nextLogHeader 63 56 = (s.logNext + 1) % 256 :=
  (bf_pack (v := (s.logNext + 1) % 256) (by simp) (by decide) (by simp)).trans (Nat.mod_eq_of_lt (Nat.mod_lt _ (by decide)))

theorem State.nextLogHeader_held : bf s.nextLogHeader 55 47 = min (s.logHeld + 1) 256 :=
  (bf_pack (v := min (s.logHeld + 1) 256) (by simp) (by decide) (by simp)).trans (Nat.mod_eq_of_lt (by omega))

theorem State.nextLogHeader_over : bf s.nextLogHeader 46 15 = if s.logHeld < 256 then s.logOver else satAdd 32 s.logOver 1 := by
  refine (bf_pack (v := if s.logHeld < 256 then s.logOver else satAdd 32 s.logOver 1) (by simp) (by decide) (by simp)).trans (Nat.mod_eq_of_lt ?_)
  split
  · exact bf_lt _ 46 15
  · exact satAdd_lt 32 _ 1

end Header

theorem State.logEntry_of_retained {s t : State} {k n : Nat} (h : ∀ i, i < 4 → t.retained (0x400 + 4 * k + i) = s.retained (0x400 + 4 * n + i)) :
    t.logEntry k = s.logEntry n := List.map_congr_left fun i hi => h i (List.mem_range.1 hi)

/-- The newest entry repeated: its REPEAT alone changes (R465). -/
theorem State.logRepeat_repeats (s : State) (n : Nat) :
    (s.logRepeat n).retained logHeaderAt = s.retained logHeaderAt ∧
      bf ((s.logRepeat n).retained (0x401 + 4 * n)) 34 19 = satAdd 16 (bf (s.retained (0x401 + 4 * n)) 34 19) 1 ∧
      ∀ k, k ≠ n → (s.logRepeat n).logEntry k = s.logEntry k := by
  refine ⟨?_, ?_, fun k hk => State.logEntry_of_retained fun i hi => ?_⟩
  · rw [State.retained_logRepeat, if_neg (by unfold logHeaderAt; omega)]
  · rw [State.retained_logRepeat, if_pos rfl]
    exact (bf_pack (v := satAdd 16 (bf (s.retained (0x401 + 4 * n)) 34 19) 1) (by simp) (by decide) (by simp)).trans
      (Nat.mod_eq_of_lt (satAdd_lt 16 _ 1))
  · rw [State.retained_logRepeat, if_neg (by omega)]

/-- A new entry stands at NEXT, and every other stays (R465). -/
theorem State.logNew_writes (s : State) (w1 obj detail : Word) :
    (s.logNew w1 obj detail).logEntry s.logNext = [word s.now, w1, obj, detail] ∧
      ∀ k, k ≠ s.logNext → (s.logNew w1 obj detail).logEntry k = s.logEntry k := by
  refine ⟨?_, fun k hk => State.logEntry_of_retained fun i hi => ?_⟩
  · have hword (i : Nat) := s.retained_logNew w1 obj detail (k := 0x400 + 4 * s.logNext + i) (by unfold logHeaderAt; omega)
    have hrange : List.range 4 = [0, 1, 2, 3] := rfl
    simp only [State.logEntry, hrange, List.map_cons, List.map_nil, hword]
    rw [if_neg (by omega), if_neg (by omega), if_neg (by omega), if_pos (by omega), if_neg (by omega), if_neg (by omega), if_pos (by omega),
      if_neg (by omega), if_pos (by omega), if_pos (by omega)]
  · rw [State.retained_logNew _ _ _ _ (by unfold logHeaderAt; omega), if_neg (by omega), if_neg (by omega), if_neg (by omega), if_neg (by omega)]

/-! An event. -/
section Event
variable (s : State) (b : Sticky) (a : Nat) (o : Obj) (p : Option Nat) (d : Word)

/-- The record of an event, before its interrupt: an entry repeated or a new one. -/
theorem State.trouble_trb : (s.trouble b a o p d).trb =
    (if (s.setSticky b).logSame (logWord1 b a o p 0) o.val then (s.setSticky b).logRepeat (((s.setSticky b).logNext + 255) % 256)
      else (s.setSticky b).logNew (logWord1 b a o p 0) o.val d).trb := by
  unfold State.trouble
  cases p with
  | none => rfl
  | some k => exact State.raise_trb ..

theorem State.trouble_raises (k : Nat) : ((s.trouble b a o (some k) d).part k).intPend.testBit 6 = true := by
  obtain ⟨u, -, -, hu⟩ := s.trouble_records b a o (some k) d
  rw [hu, Option.elim_some]
  cases hpend : (u.part k).intPend.testBit 6 with
  | true => rw [State.raise_pending_eq hpend, State.setPart_part_same]; exact hpend
  | false =>
    rw [State.raise_idle_eq hpend]
    refine (congrArg (fun q : Partn => q.intPend.testBit 6) (State.setPart_part_same ..)).trans ?_
    simp only [Nat.testBit_or, Nat.testBit_two_pow_self, Bool.or_true]

end Event

theorem State.setSticky_logEntry (s : State) (b : Sticky) (k : Nat) : (s.setSticky b).logEntry k = s.logEntry k :=
  State.logEntry_of_retained fun i _ => s.retained_setSticky b (by omega) (by omega)

theorem State.retained_of_trb {s t : State} (h : t.trb = s.trb) (k : Nat) : t.retained k = s.retained k := by unfold State.retained; rw [h]

theorem State.logEntry_of_trb {s t : State} (h : t.trb = s.trb) (k : Nat) : t.logEntry k = s.logEntry k :=
  State.logEntry_of_retained fun _ _ => State.retained_of_trb h _

theorem or_and_left (v w : Word) : (v ||| w) &&& v = v := by
  ext j
  simp only [BitVec.getElem_and, BitVec.getElem_or]
  cases v[j] <;> simp

/-- Settles O56: the bit, the log in each of its two cases, and the interrupt. -/
theorem troubleEntries : Obligations.TroubleEntries := by
  unfold Obligations.TroubleEntries
  intro s b a o p d z w1 t newest
  have hheader : z.retained logHeaderAt = s.retained logHeaderAt := s.retained_setSticky b (by decide) (by decide)
  have hnext : z.logNext = s.logNext := congrArg (bf · 63 56) hheader
  have hheld : z.logHeld = s.logHeld := congrArg (bf · 55 47) hheader
  have hover : z.logOver = s.logOver := congrArg (bf · 46 15) hheader
  have hnewest : (z.logNext + 255) % 256 = newest := by rw [hnext]
  have hsticky : t.trb.sticky = s.trb.sticky ||| word (2 ^ b.idx) := s.trouble_sticky b a o p d
  have htrb := s.trouble_trb b a o p d
  refine ⟨?_, by rw [hsticky, or_and_left], fun hsame => ?_, fun hother => ?_, ?_, State.trouble_entries .., State.trouble_mem .., State.trouble_tm ..⟩
  · rw [hsticky]
    exact bit_word_pow (by cases b <;> decide) _
  · rw [if_pos hsame, hnewest] at htrb
    obtain ⟨hhead, hrepeat, hrest⟩ := z.logRepeat_repeats newest
    have hkept : t.retained logHeaderAt = s.retained logHeaderAt := (State.retained_of_trb htrb _).trans (hhead.trans hheader)
    refine ⟨congrArg (bf · 63 56) hkept, congrArg (bf · 55 47) hkept, congrArg (bf · 46 15) hkept, ?_, fun k hk _ => ?_⟩
    · rw [State.retained_of_trb htrb, hrepeat, s.retained_setSticky b (by omega) (by omega)]
    · rw [State.logEntry_of_trb htrb, hrest k hk, State.setSticky_logEntry]
  · rw [if_neg (by rw [hother]; decide)] at htrb
    obtain ⟨hentry, hrest⟩ := z.logNew_writes w1 o.val d
    have hhead : t.retained logHeaderAt = z.nextLogHeader := (State.retained_of_trb htrb _).trans (State.retained_logNew_header ..)
    refine ⟨?_, ?_, ?_, ?_, fun k hk _ => ?_⟩
    · rw [State.logNext, hhead, State.nextLogHeader_next, hnext]
    · rw [State.logHeld, hhead, State.nextLogHeader_held, hheld]
    · rw [State.logOver, hhead, State.nextLogHeader_over, hheld, hover]
    · rw [State.logEntry_of_trb htrb, ← hnext]
      exact hentry
    · rw [State.logEntry_of_trb htrb, hrest k (by rw [hnext]; exact hk), State.setSticky_logEntry]
  · rintro k rfl
    exact s.trouble_raises b a o d k

end Sys2Proof.Machine
end

section
/-! SUPPORT. An assertion of the internal reset (R414, R420, R426): what it leaves of the reset controller, and what the clearing of each
reach leaves of the table, the partitions, the ring's wiring and the log. -/
namespace Sys2Proof.Machine

/-! The ring's configuration, its routes and the pairing stay through what a reset does to the table and the tier. -/

/-- The configuration of the ring, its routes and the pairing stay. -/
structure Wired (z s : State) : Prop where
  wiring : s.net.wiring = z.net.wiring
  paired : s.net.paired = z.net.paired

namespace Wired
variable {z s t : State}

theorem refl (s : State) : Wired s s := ⟨rfl, rfl⟩

theorem trans (h : Wired z s) (k : Wired s t) : Wired z t := ⟨k.wiring.trans h.wiring, k.paired.trans h.paired⟩

/-- Operations that leave the ring. -/
theorem framed {F : List Field} (k : Framed false F s t) (hF : Field.net ∉ F) (h : Wired z s) : Wired z t := by
  have hnet : s.net = t.net := k.kept hF
  exact h.trans ⟨by rw [hnet], by rw [hnet]⟩

theorem ite {p : Prop} [Decidable p] {a b : State} (ha : Wired z a) (hb : Wired z b) : Wired z (if p then a else b) := by
  split
  · exact ha
  · exact hb

theorem foldl {α : Type} {g : State → α → State} (hg : ∀ {s : State} {x}, Wired z s → Wired z (g s x)) {l : List α} :
    ∀ {s : State}, Wired z s → Wired z (l.foldl g s) := by
  induction l with
  | nil => exact id
  | cons x l ih => exact fun h => ih (hg h)

theorem cfg (h : Wired z s) : s.net.cfg = z.net.cfg := congrArg Prod.fst h.wiring
theorem routes (h : Wired z s) : s.net.routes = z.net.routes := congrArg Prod.snd h.wiring

theorem mirrorPut {ws : List (Nat × Nat × Word)} (h : Wired z s) : Wired z (s.mirrorPut ws) := .ite (h.trans ⟨rfl, rfl⟩) h

theorem setEntry {slot : Nat} {e : Entry} (h : Wired z s) : Wired z (s.setEntry slot e) :=
  (h.mirrorPut (ws := changedWords 0 (16 * slot) (s.entry slot).words e.words)).trans ⟨rfl, rfl⟩

theorem setLedger {n : Nat} {l : Ledger} (h : Wired z s) : Wired z (s.setLedger n l) :=
  (h.mirrorPut (ws := changedWords 1 (8 * n) (s.ledger n).words l.words)).trans ⟨rfl, rfl⟩

theorem subHeld {n k : Nat} (h : Wired z s) : Wired z (s.subHeld n k) := h.setLedger

theorem freeEntry {slot : Nat} (h : Wired z s) : Wired z (s.freeEntry slot) :=
  (Wired.ite (p := (s.entry slot).state = .free) h h.setLedger).setEntry.trans ⟨rfl, rfl⟩

theorem freeExtents {es : List Nat} (h : Wired z s) : Wired z (s.freeExtents es) :=
  h.framed (F := [.tier]) (State.freeExtents_framed rfl (.refl s)) (by decide)

theorem freeList {tenant : Option Nat} {head pages : Nat} (h : Wired z s) : Wired z (s.freeList tenant head pages) := by
  unfold State.freeList
  cases tenant with
  | none => exact h.freeExtents
  | some t => exact h.freeExtents.subHeld

theorem freeSlice {tenant : Option Nat} {head pages : Nat} (h : Wired z s) : Wired z (s.freeSlice tenant head pages) :=
  .ite (h.trans ⟨rfl, rfl⟩) h.freeList

theorem dirDrop {i : Nat} {d : DirEnt} (h : Wired z s) : Wired z (s.dirDrop i d) := by
  have hput : Wired z (s.dirPut i none) := h.framed (F := [.mem, .img, .tier]) (State.dirPut_framed rfl (.refl s)) (by decide)
  exact .ite hput.freeSlice hput

theorem endOp {o : TierOp} (h : Wired z s) : Wired z (s.endOp o) := by
  unfold State.endOp
  extract_lets spent b s1 s2 mine gone s3
  have h1 : Wired z s1 := h.trans ⟨rfl, rfl⟩
  have h2 : Wired z s2 := .foldl .freeSlice h1
  have h3 : Wired z s3 := .foldl .dirDrop h2
  exact h3.trans ⟨rfl, rfl⟩

theorem freeOpPages {o : TierOp} (h : Wired z s) : Wired z (s.freeOpPages o) := by
  unfold State.freeOpPages
  extract_lets n s1
  have h1 : Wired z s1 := h.freeExtents
  clear_value s1
  split
  · exact h1.subHeld
  · exact h1.subHeld
  · exact h1

theorem resetOps (h : Wired z s) : Wired z s.resetOps := by
  have hops : Wired z (s.tier.ops.foldl (fun s o => (s.freeOpPages o).endOp o) s) := .foldl (fun h => h.freeOpPages.endOp) h
  exact hops.trans ⟨rfl, rfl⟩

theorem resetEntries (h : Wired z s) : Wired z s.resetEntries := .foldl (fun h => .ite h.setEntry (.ite h h.freeEntry)) h

end Wired

/-! The session table through a reset of job or warm reach (R112). -/

/-- An entry through such a reset: a parked copy stays as WINTERED, and any other session leaves its generation alone. -/
def Entry.restarted (e : Entry) : Entry :=
  if e.parked then { e with state := .wintered, ckpt := 0, ckptValid := false, chains := 0, pendOp := 0, pendTag := 0, pendSmp := false }
  else if e.state = .free then e
  else { Entry.zero with gen := e.gen }

/-- The pass over the table at one of its entries. -/
def State.resetEntry (s : State) (c : Nat × Entry) : State :=
  if c.2.parked then
    s.setEntry c.1 { c.2 with state := .wintered, ckpt := 0, ckptValid := false, chains := 0, pendOp := 0, pendTag := 0, pendSmp := false }
  else if c.2.state = .free then s
  else s.freeEntry c.1

theorem State.resetEntries_eq (s : State) : s.resetEntries = s.entries.foldl State.resetEntry s := rfl

theorem State.resetEntry_entry {s : State} {k : Nat} {e : Entry} (h : s.entry k = e) (n : Nat) :
    (s.resetEntry (k, e)).entry n = if n = k then e.restarted else s.entry n := by
  unfold State.resetEntry Entry.restarted
  by_cases hparked : e.parked = true
  · rw [if_pos hparked, if_pos hparked, State.setEntry_entry]
  · rw [if_neg hparked, if_neg hparked]
    by_cases hfree : e.state = .free
    · rw [if_pos hfree, if_pos hfree]
      split
      · next hn => rw [hn, h]
      · rfl
    · rw [if_neg hfree, if_neg hfree]
      obtain ⟨hentry, -, hrest⟩ := State.freeEntry_frees (s := s) (slot := k) (by rw [h]; exact hfree)
      split
      · next hn => rw [hn, hentry, h]
      · next hn => exact hrest n hn

/-- The pass visits each slot of a canonical table once. -/
theorem State.foldl_resetEntry_entry {l : List (Nat × Entry)} (hl : swf Entry.zero l = true) (n : Nat) :
    ∀ s : State, (∀ c ∈ l, s.entry c.1 = c.2) →
      (l.foldl State.resetEntry s).entry n = if n ∈ l.map (·.1) then (s.entry n).restarted else s.entry n := by
  induction l with
  | nil => exact fun s _ => (if_neg List.not_mem_nil).symm
  | cons c l ih =>
    obtain ⟨k, e⟩ := c
    obtain ⟨-, hkeys, hwf⟩ := swf_cons_iff.1 hl
    intro s hs
    have hk : s.entry k = e := hs (k, e) List.mem_cons_self
    have hstep (i : Nat) := State.resetEntry_entry hk i
    have htail : ∀ c ∈ l, (s.resetEntry (k, e)).entry c.1 = c.2 := fun c hc => by
      have hlt : k < c.1 := hkeys c hc
      rw [hstep, if_neg (by omega), hs c (List.mem_cons_of_mem _ hc)]
    have hnotin : k ∉ l.map (·.1) := fun hin => by
      obtain ⟨c, hc, hck⟩ := List.mem_map.1 hin
      have hlt : k < c.1 := hkeys c hc
      omega
    rw [List.foldl_cons, ih hwf _ htail, hstep, List.map_cons]
    by_cases hn : n = k
    · rw [if_pos hn, if_neg (hn ▸ hnotin), if_pos (hn ▸ List.mem_cons_self), hn, hk]
    · simp only [List.mem_cons, hn, false_or, if_false]

theorem Entry.zero_restarted : Entry.zero.restarted = Entry.zero := rfl

theorem State.resetEntries_entry {s : State} (h : swf Entry.zero s.entries = true) (n : Nat) : s.resetEntries.entry n = (s.entry n).restarted := by
  rw [State.resetEntries_eq, State.foldl_resetEntry_entry h n s fun c hc => sget_of_mem h hc]
  split
  · rfl
  · next hn =>
    have hzero : s.entry n = Entry.zero := Classical.not_not.1 fun hne => hn (mem_keys_of_sget hne)
    rw [hzero, Entry.zero_restarted]

theorem State.resetOps_entries {s : State} (h : s.tier.ops = []) : s.resetOps.entries = s.entries := by
  unfold State.resetOps
  rw [h]
  rfl

/-! The partitions through a reset (R345, R355). -/

theorem sget_mapParts_eq {f : Partn → Partn} (hf : f Partn.cold = Partn.cold) {l : List (Nat × Partn)} (h : swf Partn.cold l = true) (p : Nat) :
    sget Partn.cold (mapParts f l) p = f (sget Partn.cold l p) := by
  induction l with
  | nil => exact hf.symm
  | cons c l ih =>
    obtain ⟨k, q⟩ := c
    obtain ⟨-, hkeys, hwf⟩ := swf_cons_iff.1 h
    have hcons : mapParts f ((k, q) :: l) = if f q = Partn.cold then mapParts f l else (k, f q) :: mapParts f l := rfl
    rw [hcons, sget]
    by_cases hk : k = p
    · rw [if_pos hk]
      split
      · next hcold =>
        have hnone : sget Partn.cold l p = Partn.cold := sget_not_mem (any_key_false (P := fun i => k < i) hkeys (by omega))
        rw [ih hwf, hnone, hf, hcold]
      · rw [sget, if_pos hk]
    · rw [if_neg hk]
      split
      · exact ih hwf
      · rw [sget, if_neg hk, ih hwf]

/-! A clearing for job reach (R426). -/

/-- What job and warm reach leave: memory and the table where no operation of the tier ends, gate time, the roles, the ring's wiring and the log. -/
structure Restarted (s t : State) : Prop where
  time : t.tm.t48 = s.tm.t48 ∧ t.tm.ctl = s.tm.ctl ∧ t.tm.set = s.tm.set
  trouble : t.trb = s.trb
  role : t.role = s.role
  balance : t.bal.ctl = s.bal.ctl
  wired : Wired s t
  mem : s.tier.ops = [] → t.mem = s.mem
  entry : swf Entry.zero s.entries = true → s.tier.ops = [] → ∀ n, t.entry n = (s.entry n).restarted

/-- What a clearing for job reach ends, and what else it leaves. -/
structure JobCleared (s j : State) : Prop extends Restarted s j where
  stores : j.edge = [] ∧ j.home = [] ∧ j.slots = [] ∧ j.hdl = [] ∧ j.ints = []
  image : j.img.force = none ∧ j.img.load = .idle
  commit : j.com.staged = none ∧ j.com.coord = none ∧ j.com.restarts = s.com.restarts
  scrub : j.tier.scrub = none
  clock : j.clk.sleeping = false ∧ j.clk.mhz = s.clk.mhz
  commands : j.cmi.smpRing = [] ∧ j.cmi.fwds = []
  parts : j.parts = mapParts Partn.reset s.parts
  tm : j.tm = { s.tm with frac := 0 }
  controller : ∃ a c g q, j.rs = { s.rs with aborted := a, abortedCmds := c, regions := g, parts := q }
  denied : j.denied = s.denied

theorem State.clearJob_cleared (s : State) : JobCleared s s.clearJob := by
  have hframed : Framed false resetParts s s.resetOps.resetEntries := State.resetEntries_framed rfl s.resetOps_framed
  have hwired : Wired s s.resetOps.resetEntries := (Wired.refl s).resetOps.resetEntries
  have hrs : s.rs = s.resetOps.resetEntries.rs := hframed.kept (f := .rs) (by decide)
  have htm : s.tm = s.resetOps.resetEntries.tm := hframed.kept (f := .tm) (by decide)
  have hclk : s.clk = s.resetOps.resetEntries.clk := hframed.kept (f := .clk) (by decide)
  have hparts : s.parts = s.resetOps.resetEntries.parts := hframed.kept (f := .parts) (by decide)
  have hbal : s.bal = s.resetOps.resetEntries.bal := hframed.kept (f := .bal) (by decide)
  have hdenied : s.denied = s.resetOps.resetEntries.denied := hframed.kept (f := .denied) (by decide)
  have htable : Framed false [.entries, .edge, .home, .slots, .ledgers, .net] s.resetOps s.resetOps.resetEntries := State.resetEntries_framed rfl (.refl _)
  have htier : s.resetOps.tier = s.resetOps.resetEntries.tier := htable.kept (f := .tier) (by decide)
  have hscrub : s.resetOps.tier.scrub = none := rfl
  obtain ⟨htrb, hrole, hrestarts, -, -, -, -, hmem⟩ := s.clearJob_leaves
  exact {
    stores := ⟨rfl, rfl, rfl, rfl, rfl⟩
    image := ⟨rfl, rfl⟩
    commit := ⟨rfl, rfl, hrestarts⟩
    scrub := (congrArg TierU.scrub htier.symm).trans hscrub
    clock := ⟨rfl, show s.resetOps.resetEntries.clk.mhz = s.clk.mhz by rw [← hclk]⟩
    commands := ⟨rfl, rfl⟩
    parts := congrArg (mapParts Partn.reset) hparts.symm
    time := by
      show s.resetOps.resetEntries.tm.t48 = _ ∧ s.resetOps.resetEntries.tm.ctl = _ ∧ s.resetOps.resetEntries.tm.set = _
      rw [← htm]
      exact ⟨rfl, rfl, rfl⟩
    tm := congrArg (fun t : TimeU => { t with frac := 0 }) htm.symm
    controller := ⟨_, _, _, _, congrArg (fun r : ResetU => { r with
      aborted := r.aborted ++ s.openStreams, abortedCmds := r.abortedCmds ++ s.waitingIssuers, regions := [], parts := [] }) hrs.symm⟩
    trouble := htrb
    role := hrole
    denied := hdenied.symm
    balance := show s.resetOps.resetEntries.bal.ctl = s.bal.ctl by rw [← hbal]
    wired := ⟨hwired.wiring, hwired.paired⟩
    mem := hmem
    entry := fun hwf hops n => by
      have hentries : s.resetOps.entries = s.entries := State.resetOps_entries hops
      have hread (k : Nat) : s.resetOps.entry k = s.entry k := congrArg (sget Entry.zero · k) hentries
      have hpass := State.resetEntries_entry (s := s.resetOps) (by rw [hentries]; exact hwf) n
      exact hpass.trans (congrArg Entry.restarted (hread n)) }

/-- The clearing for any reach leaves the time that sources end, the sources, the count of REFCLK edges and the log. -/
structure Cleared (s t : State) : Prop where
  until' : t.rs.until' = s.rs.until'
  sources : t.rs.sources = s.rs.sources
  refclk : t.tm.refclk = s.tm.refclk
  bkup : t.trb.bkup = s.trb.bkup
  retained : t.trb.retained = s.trb.retained
  sticky : t.trb.sticky = s.trb.sticky

theorem State.clearFor_cleared (s : State) (r : Reach) : Cleared s (s.clearFor r) := by
  have h := s.clearJob_cleared
  obtain ⟨a, c, g, q, hrs⟩ := h.controller
  have huntil : s.clearJob.rs.until' = s.rs.until' := by rw [hrs]
  have hsources : s.clearJob.rs.sources = s.rs.sources := by rw [hrs]
  have hrefclk : s.clearJob.tm.refclk = s.tm.refclk := by rw [h.tm]
  have hbkup : s.clearJob.trb.bkup = s.trb.bkup := by rw [h.trouble]
  have hretained : s.clearJob.trb.retained = s.trb.retained := by rw [h.trouble]
  have hsticky : s.clearJob.trb.sticky = s.trb.sticky := by rw [h.trouble]
  cases r with
  | job => exact ⟨huntil, hsources, hrefclk, hbkup, hretained, hsticky⟩
  | warm => exact ⟨huntil, hsources, hrefclk, hbkup, hretained, hsticky⟩
  | cold => exact ⟨huntil, hsources, hrefclk, hbkup, hretained, hsticky⟩

/-- Gate time goes back at cold reach alone (R426). -/
theorem State.clearFor_t48 {s : State} {r : Reach} (hr : r ≠ .cold) : (s.clearFor r).tm.t48 = s.tm.t48 := by
  have ht : s.clearJob.tm.t48 = s.tm.t48 := by rw [s.clearJob_cleared.tm]
  cases r with
  | job => exact ht
  | warm => exact ht
  | cold => exact absurd rfl hr

/-! An assertion (R414, R420). -/

theorem testBit_two_pow_or (n k : Nat) : (2 ^ n ||| k).testBit n = true := by rw [Nat.or_comm, testBit_or_two_pow, if_pos rfl]

theorem State.dropOut_eq (s : State) (r : Reach) : ∃ high rise, s.dropOut r = { s with rs := { s.rs with outHigh := high, outRise := rise } } := by
  unfold State.dropOut
  split
  · exact ⟨_, _, rfl⟩
  · exact ⟨_, _, rfl⟩

/-- Outside a reset: the contents are cleared for the reach, on a gate with RS_CTL in force and RST_OUT_n driven where the reach drives it. -/
theorem State.assertReset_running {s : State} (h : s.inReset = false) (r : Reach) (src cycles : Nat) :
    ∃ rs sources, s.assertReset r src cycles =
      let u := ({ s with rs := rs } : State).clearFor r
      { u with rs := { u.rs with reach := some r, until' := s.tm.refclk + cycles, clearAt := u.tm.refclk, sources := 2 ^ src ||| sources, start := none } } := by
  have hreach : s.rs.reach = none := by simpa [State.inReset] using h
  obtain ⟨high, rise, hdrop⟩ := State.dropOut_eq { s with rs := { s.rs with ctlIn := s.rs.ctl } } r
  refine ⟨{ s.rs with ctlIn := s.rs.ctl, outHigh := high, outRise := rise }, if s.rs.regions.isEmpty then 0 else 2 ^ srcRegion, ?_⟩
  unfold State.assertReset
  rw [hreach]
  dsimp only
  rw [hdrop]

/-- In a reset: the source is added, and a wider reach clears for itself. -/
theorem State.assertReset_resetting {s : State} {old : Reach} (h : s.rs.reach = some old) (r : Reach) (src cycles : Nat) :
    ∃ high rise, s.assertReset r src cycles =
      let s1 : State := { s with rs := { s.rs with until' := max s.rs.until' (s.tm.refclk + cycles), sources := s.rs.sources ||| 2 ^ src } }
      if old.code < r.code then
        let u := ({ s1 with rs := { s1.rs with outHigh := high, outRise := rise } } : State).clearFor r
        { u with rs := { u.rs with reach := some r, clearAt := u.tm.refclk } }
      else s1 := by
  obtain ⟨high, rise, hdrop⟩ := State.dropOut_eq
    { s with rs := { s.rs with until' := max s.rs.until' (s.tm.refclk + cycles), sources := s.rs.sources ||| 2 ^ src } } r
  refine ⟨high, rise, ?_⟩
  unfold State.assertReset
  rw [h]
  dsimp only
  rw [hdrop]

end Sys2Proof.Machine
end

section
/-! SUPPORT. The word on PWR_REQ (R444). -/
namespace Sys2Proof.Machine

section Word
variable {mhz ofs b : Nat}

theorem bandOf_le (mhz : Nat) : bandOf mhz ≤ 5 := Nat.min_le_left ..

theorem bandOf_low (h : mhz ≤ 600) : bandOf mhz = 0 := by
  unfold bandOf cdiv
  rw [if_neg (by decide)]
  omega

theorem bandOf_above (hb : b ≤ 4) (hlow : 600 + 200 * b < mhz) (hhigh : mhz ≤ 800 + 200 * b) : bandOf mhz = b + 1 := by
  unfold bandOf cdiv
  rw [if_neg (by decide)]
  omega

theorem vfOf_eq (h : b ≤ 5) : vfOf b = ([0, 2, 5, 9, 14, 20] : List Nat).getD b 0 := by
  interval_cases b <;> rfl

theorem pwrWord_band (mhz ofs : Nat) : pwrWord mhz ofs % 8 = bandOf mhz := by
  have hband := bandOf_le mhz
  unfold pwrWord
  omega

theorem pwrWord_vofs (mhz ofs : Nat) : pwrWord mhz ofs / 8 = min 31 (vfOf (bandOf mhz) + ofs) := by
  have hband := bandOf_le mhz
  unfold pwrWord
  omega

theorem pwrWord_lt (mhz ofs : Nat) : pwrWord mhz ofs < 2 ^ 8 := by
  have hband := bandOf_le mhz
  unfold pwrWord
  omega

end Word

/-- Cold reach drives the safe word, asserted first or as a wider reach (R426, R444). -/
theorem State.assertReset_cold_pwrReq {s : State} (h : s.rs.reach ≠ some .cold) (src cycles : Nat) :
    (s.assertReset .cold src cycles).clk.pwrReq = 0xF8 := by
  cases hreach : s.rs.reach with
  | none =>
    obtain ⟨_, _, hassert⟩ := State.assertReset_running (s := s) (by simp [State.inReset, hreach]) .cold src cycles
    rw [hassert]
    rfl
  | some old =>
    obtain ⟨_, _, hassert⟩ := State.assertReset_resetting hreach .cold src cycles
    have hwider : old.code < Reach.cold.code := by
      cases old with
      | job => decide
      | warm => decide
      | cold => exact absurd hreach h
    rw [hassert]
    dsimp only
    rw [if_pos hwider]
    rfl

/-- Settles O54: the two fields of the word, and the clocks at their cold values. -/
theorem supplyWord : Obligations.SupplyWord := by
  unfold Obligations.SupplyWord
  refine ⟨fun mhz ofs b _ => ⟨fun hlow => ?_, fun hb hlow hhigh => ?_, ?_, pwrWord_lt mhz ofs⟩, fun s src n h => State.assertReset_cold_pwrReq h src n⟩
  · rw [pwrWord_band, bandOf_low hlow]
  · rw [pwrWord_band, bandOf_above hb hlow hhigh]
  · rw [pwrWord_vofs, pwrWord_band, vfOf_eq (bandOf_le mhz)]

end Sys2Proof.Machine
end

section
/-! SUPPORT. What a reset clears by its reach (R426), field by field of the state that the assertion leaves. -/
namespace Sys2Proof.Machine

/-- A partition through a reset (R345, R355). -/
def Partn.through (r : Reach) (q : Partn) : Partn :=
  match r with
  | .job => q.reset
  | .warm => { q.reset with version := none }
  | .cold => Partn.cold

/-- Every reach ends a partition's commands, its interrupts and the access of its row window (R345, R485). -/
theorem Partn.through_ends (r : Reach) (q : Partn) : (q.through r).ring = [] ∧ (q.through r).intPend = 0 ∧ (q.through r).win.busy = false := by
  cases r with
  | job => exact ⟨rfl, rfl, rfl⟩
  | warm => exact ⟨rfl, rfl, rfl⟩
  | cold => exact ⟨rfl, rfl, rfl⟩

/-- Job and warm reach leave its configuration (R345). -/
theorem Partn.through_config {r : Reach} (hr : r ≠ .cold) (q : Partn) :
    (q.through r).enabled = q.enabled ∧ (q.through r).base = q.base ∧ (q.through r).count = q.count ∧ (q.through r).share = q.share := by
  cases r with
  | job => exact ⟨rfl, rfl, rfl, rfl⟩
  | warm => exact ⟨rfl, rfl, rfl, rfl⟩
  | cold => exact absurd rfl hr

section Clear
variable (s : State) (r : Reach)

theorem State.clearFor_part (h : swf Partn.cold s.parts = true) (p : Nat) : (s.clearFor r).part p = (s.part p).through r := by
  have hreset : s.clearJob.parts = mapParts Partn.reset s.parts := s.clearJob_cleared.parts
  have hjob : s.clearJob.part p = (s.part p).reset := by
    unfold State.part
    rw [hreset, sget_mapParts_eq rfl h]
  cases r with
  | job => exact hjob
  | warm =>
    have hwf : swf Partn.cold s.clearJob.parts = true := hreset ▸ mapParts_wf _ h
    have hwarm : s.clearJob.clearWarm.part p = { s.clearJob.part p with version := none } :=
      sget_mapParts_eq (f := fun q => { q with version := none }) rfl hwf p
    exact hwarm.trans (congrArg (fun q : Partn => { q with version := none }) hjob)
  | cold => rfl

/-- What a reset of every reach ends outside the partitions. -/
theorem State.clearFor_ends : let u := s.clearFor r
    (u.edge = [] ∧ u.home = [] ∧ u.slots = [] ∧ u.hdl = [] ∧ u.ints = []) ∧ (u.img.force = none ∧ u.img.load = .idle) ∧
      (u.com.staged = none ∧ u.com.coord = none) ∧ u.tier.scrub = none ∧ u.clk.sleeping = false ∧ u.cmi.smpRing = [] ∧ u.cmi.fwds = [] := by
  obtain ⟨-, hstores, himage, ⟨hstaged, hcoord, -⟩, hscrub, ⟨hsleep, -⟩, ⟨hring, hfwds⟩, -, -, -⟩ := s.clearJob_cleared
  cases r with
  | job => exact ⟨hstores, himage, ⟨hstaged, hcoord⟩, hscrub, hsleep, hring, hfwds⟩
  | warm => exact ⟨hstores, himage, ⟨hstaged, hcoord⟩, hscrub, hsleep, hring, hfwds⟩
  | cold => exact ⟨hstores, himage, ⟨rfl, rfl⟩, rfl, rfl, hring, hfwds⟩

theorem State.clearFor_restarted (hr : r ≠ .cold) : Restarted s (s.clearFor r) := by
  have h := s.clearJob_cleared.toRestarted
  cases r with
  | job => exact h
  | warm => exact ⟨h.time, h.trouble, h.role, h.balance, ⟨h.wired.wiring, h.wired.paired⟩, h.mem, h.entry⟩
  | cold => exact absurd rfl hr

end Clear

/-- What warm reach clears beyond job reach, and cold reach too (R355, R443, R482). -/
theorem State.clearFor_warm {s : State} {r : Reach} (hr : r ≠ .job) : let u := s.clearFor r
    u.cmi.smpVersion = none ∧ u.clk.mhz = 0 ∧ u.denied = 0 ∧ u.misformed = 0 ∧ u.blocked = 0 := by
  cases r with
  | job => exact absurd rfl hr
  | warm => exact ⟨rfl, rfl, rfl, rfl, rfl⟩
  | cold => exact ⟨rfl, rfl, rfl, rfl, rfl⟩

theorem Partn.through_version {r : Reach} (hr : r ≠ .job) (q : Partn) : (q.through r).version = none := by
  cases r with
  | job => exact absurd rfl hr
  | warm => rfl
  | cold => rfl

theorem clearRoutes_valid {l : List (Nat × Word)} : ∀ x ∈ clearRoutes l, bit x.2 63 = false := by
  intro x hx
  obtain ⟨y, -, rfl⟩ := List.mem_map.1 (List.mem_filter.1 hx).1
  simp [bit]

theorem State.clearFor_cold_wired (s : State) : (s.clearFor .cold).net.routes = clearRoutes s.net.routes :=
  congrArg clearRoutes s.clearJob_cleared.wired.routes

/-- The fields of TM_STAT that cold reach leaves (R10, R374). -/
theorem State.clearFor_cold_time (s : State) : let u := s.clearFor .cold
    u.tm.holdover = s.tm.holdover ∧ u.tm.serving = s.tm.serving ∧ u.tm.master = s.tm.master ∧ u.tm.lockRun = s.tm.lockRun := by
  intro u
  have hu : u.tm = s.clearJob.tm.clearCold := rfl
  rw [hu, s.clearJob_cleared.tm]
  exact ⟨rfl, rfl, rfl, rfl⟩

theorem Entry.restarted_parked {e : Entry} (h : e.parked = true) : e.restarted =
    { e with state := .wintered, ckpt := 0, ckptValid := false, chains := 0, pendOp := 0, pendTag := 0, pendSmp := false } := if_pos h

theorem Entry.restarted_ended {e : Entry} (hparked : e.parked = false) (hfree : e.state ≠ .free) : e.restarted = { Entry.zero with gen := e.gen } := by
  rw [Entry.restarted, if_neg (by simp [hparked]), if_neg hfree]

/-- Settles O51: the fields of the state cleared for each reach, and the job fault's own clause. -/
theorem resetClears : Obligations.ResetClears := by
  unfold Obligations.ResetClears
  intro s r src k n p c o q d t e f hrun hparts
  obtain ⟨rs, sources, ht⟩ := State.assertReset_running hrun r src k
  change t = _ at ht
  clear_value t
  subst ht
  have hpart : (({ s with rs := rs } : State).clearFor r).part p = (s.part p).through r := State.clearFor_part { s with rs := rs } r hparts p
  obtain ⟨⟨hedge, hhome, hslots, hhdl, hints⟩, ⟨hforce, hload⟩, ⟨hstaged, hcoord⟩, hscrub, hsleep, hring, hfwds⟩ := State.clearFor_ends { s with rs := rs } r
  obtain ⟨hpackets, hpend, hbusy⟩ := (s.part p).through_ends r
  refine ⟨rfl, rfl, testBit_two_pow_or src sources, rfl, ⟨hedge, hhome, hslots, hhdl, hints, hforce, hload, hstaged, hcoord, hscrub, hsleep, hring, hfwds,
    (congrArg Partn.ring hpart).trans hpackets, (congrArg Partn.intPend hpart).trans hpend, (congrArg (fun q : Partn => q.win.busy) hpart).trans hbusy⟩,
    fun hr => ?narrow, fun hr => ?job, fun hr => ?wide, fun hr => ?cold, State.jobFault_ends c o q d hrun⟩
  case narrow =>
    obtain ⟨⟨ht48, hctl, hset⟩, htrouble, hrole, hbalance, hwired, hmem, hentry⟩ := State.clearFor_restarted { s with rs := rs } r hr
    obtain ⟨henabled, hbase, hcount, hshare⟩ := Partn.through_config hr (s.part p)
    exact ⟨hmem, ht48, hctl, hset, hrole, hwired.cfg, hwired.routes, hwired.paired,
      (congrArg Partn.enabled hpart).trans henabled, (congrArg Partn.base hpart).trans hbase, (congrArg Partn.count hpart).trans hcount,
      (congrArg Partn.share hpart).trans hshare, htrouble, hbalance,
      fun hwf hops hparked => (hentry hwf hops n).trans (Entry.restarted_parked hparked),
      fun hwf hops hparked hfree => (hentry hwf hops n).trans (Entry.restarted_ended hparked hfree)⟩
  case job =>
    subst hr
    have hjob := State.clearJob_cleared { s with rs := rs }
    exact ⟨(congrArg Partn.version hpart).trans rfl, hjob.clock.2, hjob.denied⟩
  case wide =>
    obtain ⟨hsmp, hmhz, hdenied, hmisformed, hblocked⟩ := State.clearFor_warm (s := { s with rs := rs }) hr
    exact ⟨(congrArg Partn.version hpart).trans (Partn.through_version hr _), hsmp, hmhz, hdenied, hmisformed, hblocked⟩
  case cold =>
    subst hr
    have hroutes := State.clearFor_cold_wired { s with rs := rs }
    obtain ⟨hholdover, hserving, hmaster, hlockRun⟩ := State.clearFor_cold_time { s with rs := rs }
    have hcleared := State.clearFor_cleared { s with rs := rs } .cold
    exact ⟨rfl, rfl, rfl, rfl, rfl, rfl, rfl, hroutes, fun x hx => clearRoutes_valid x (hroutes ▸ hx), hholdover, hserving, hmaster, hlockRun,
      rfl, rfl, rfl, rfl, rfl, rfl, rfl, hcleared.retained, hcleared.sticky⟩

end Sys2Proof.Machine
end

section
/-! SUPPORT. Reset sources and releases (R411, R416, R417, R420, R422, R425): what an assertion leaves of the reset controller, in a reset and
outside one, and what a release begins. -/
namespace Sys2Proof.Machine

/-! What the rows do to the state once their moment has come. -/
theorem exec_powerOn_eq (m : Moment) (cause : PowerCause) (n : Nat) (s : State) : exec (.powerOn m cause n) s = .next ((s.elapse m).onPowerOn cause n) := rfl
theorem exec_porstN_eq (m : Moment) (n : Nat) (taken : Bool) (s : State) : exec (.porstN m n taken) s = .next ((s.elapse m).onPorstN n taken) := rfl
theorem exec_sysrstN_eq (m : Moment) (n : Nat) (taken : Bool) (s : State) : exec (.sysrstN m n taken) s = .next ((s.elapse m).onSysrstN n taken) := rfl
theorem exec_resetRelease_eq (m : Moment) (pll : Bool) (find : WordFind) (s : State) :
    exec (.resetRelease m pll find) s = .next ((s.elapse m).onResetRelease pll find) := rfl
theorem exec_rstOutRelease_eq (m : Moment) (s : State) : exec (.rstOutRelease m) s = .next (s.elapse m).onRstOutRelease := rfl

/-! An assertion, in a reset or outside one (R414, R420). -/

/-- The reach of the reset once a source of its own reach is asserted. -/
def ResetU.widened (u : ResetU) (own : Reach) : Reach :=
  match u.reach with
  | none => own
  | some r => if r.code < own.code then own else r

/-- The REFCLK count up to which some source is asserted, with one more for `cycles` cycles. -/
def ResetU.lengthened (u : ResetU) (refclk cycles : Nat) : Nat :=
  if u.reach.isSome then max u.until' (refclk + cycles) else refclk + cycles

theorem ResetU.widened_cold (u : ResetU) : u.widened .cold = .cold := by
  unfold ResetU.widened
  split
  · rfl
  · next r _ => cases r <;> rfl

/-- Between `s` and `t` a source has asserted a reach for some REFCLK cycles. -/
structure Asserted (own : Reach) (src cycles : Nat) (s t : State) : Prop where
  reach : t.rs.reach = some (s.rs.widened own)
  length : t.rs.until' = s.rs.lengthened s.tm.refclk cycles
  source : t.rs.sources.testBit src = true
  bkup : t.trb.bkup = s.trb.bkup
  t48 : own ≠ .cold → t.tm.t48 = s.tm.t48

/-- An assertion leaves the retained store, too. -/
theorem State.assertReset_asserted (s : State) (own : Reach) (src cycles : Nat) :
    Asserted own src cycles s (s.assertReset own src cycles) ∧ (s.assertReset own src cycles).trb.retained = s.trb.retained := by
  cases hreach : s.rs.reach with
  | none =>
    obtain ⟨rs, sources, hassert⟩ := State.assertReset_running (s := s) (by simp [State.inReset, hreach]) own src cycles
    have hwide : s.rs.widened own = own := by simp only [ResetU.widened, hreach]
    have hlong : s.rs.lengthened s.tm.refclk cycles = s.tm.refclk + cycles := by simp [ResetU.lengthened, hreach]
    have hcleared := State.clearFor_cleared { s with rs := rs } own
    rw [hassert]
    exact ⟨⟨congrArg some hwide.symm, hlong.symm, testBit_two_pow_or src sources, hcleared.bkup,
      fun hown => State.clearFor_t48 (s := { s with rs := rs }) hown⟩, hcleared.retained⟩
  | some old =>
    obtain ⟨high, rise, hassert⟩ := State.assertReset_resetting hreach own src cycles
    have hlong : s.rs.lengthened s.tm.refclk cycles = max s.rs.until' (s.tm.refclk + cycles) := by simp [ResetU.lengthened, hreach]
    have hsource : (s.rs.sources ||| 2 ^ src).testBit src = true := by rw [testBit_or_two_pow, if_pos rfl]
    rw [hassert]
    dsimp only
    split
    · next hwider =>
      have hwide : s.rs.widened own = own := by simp only [ResetU.widened, hreach, if_pos hwider]
      have hcleared := State.clearFor_cleared
        { s with rs := { s.rs with until' := max s.rs.until' (s.tm.refclk + cycles), sources := s.rs.sources ||| 2 ^ src, outHigh := high, outRise := rise } } own
      exact ⟨⟨congrArg some hwide.symm, hcleared.until'.trans hlong.symm, (congrArg (Nat.testBit · src) hcleared.sources).trans hsource, hcleared.bkup,
        fun hown => State.clearFor_t48 hown⟩, hcleared.retained⟩
    · next hwider =>
      have hwide : s.rs.widened own = old := by simp only [ResetU.widened, hreach, if_neg hwider]
      exact ⟨⟨hreach.trans (congrArg some hwide.symm), hlong.symm, hsource, rfl, fun _ => rfl⟩, rfl⟩

theorem State.faultEntry_bkup (s : State) (c : Cause) (o : Obj) (p : Option Nat) (d : Word) : (s.faultEntry c o p d).trb.bkup = s.trb.bkup := by
  have hentry : (match ((s.setSticky .jobFault).setSticky c.sticky).trb.jobEntry with
      | some k => ((s.setSticky .jobFault).setSticky c.sticky).logRepeat k
      | none =>
        let u := ((s.setSticky .jobFault).setSticky c.sticky).logNew (logWord1 c.sticky 4 o p c.code) o.val d
        { u with trb := { u.trb with jobEntry := some ((s.setSticky .jobFault).setSticky c.sticky).logNext } } : State).trb.bkup = s.trb.bkup := by
    split <;> rfl
  unfold State.faultEntry
  cases p with
  | none => exact hentry
  | some k => exact (congrArg TroubleU.bkup (State.raise_trb ..)).trans hentry

/-- The RESTART that a wide reset sends first leaves the backup registers (R419, R427). -/
theorem State.announceFault_bkup (s : State) (c : Cause) (o : Obj) (p : Option Nat) (d : Word) : (s.announceFault c o p d).trb.bkup = s.trb.bkup := by
  have hsent : Framed false [.net] (s.faultEntry c o p (if c = .host ∨ c = .localReset then restartDetail s.gate s.tick else d)) _ :=
    State.bcast_framed (typ := typRestart) (cls := 0) (payload := restartPayload s.gate s.tick c.code) rfl (.refl _)
  have htrb := hsent.kept (f := .trb) (by decide)
  show (State.bcast _ _ _ _).trb.bkup = _
  rw [← show _ = _ from htrb, State.faultEntry_bkup]

theorem State.wideReset_asserted (s : State) (own : Reach) (src cycles : Nat) : Asserted own src cycles s (s.wideReset own src cycles) := by
  unfold State.wideReset
  dsimp only
  split
  · have hsent : Framed false [.trb, .parts, .ints, .com, .net] s (s.announceFault .localReset Obj.none none 0) := State.announceFault_framed rfl (.refl s)
    have hrs : s.rs = (s.announceFault .localReset Obj.none none 0).rs := hsent.kept (f := .rs) (by decide)
    have htm : s.tm = (s.announceFault .localReset Obj.none none 0).tm := hsent.kept (f := .tm) (by decide)
    have hbkup := s.announceFault_bkup .localReset Obj.none none 0
    obtain ⟨⟨hreach, hlength, hsource, hkept, ht48⟩, -⟩ := (s.announceFault .localReset Obj.none none 0).assertReset_asserted own src cycles
    exact ⟨by rw [hrs]; exact hreach, by rw [hrs, htm]; exact hlength, hsource, hkept.trans hbkup, by rw [htm]; exact ht48⟩
  · exact (s.assertReset_asserted own src cycles).1

/-! The sources (R416, R417). -/

theorem pulseTaken_eq_true {n : Nat} {taken : Bool} (h : 4 ≤ n ∨ (2 ≤ n ∧ taken = true)) : pulseTaken n taken = true := by simpa [pulseTaken] using h
theorem pulseTaken_eq_false {n : Nat} {taken : Bool} (h : n < 2 ∨ (n < 4 ∧ taken = false)) : pulseTaken n taken = false := by
  rcases h with h | ⟨h, htaken⟩
  · simp [pulseTaken, Nat.not_le.2 h, show ¬ 4 ≤ n by omega]
  · simp [pulseTaken, htaken, h]

/-- Power-on asserts cold reach, zeroes the backup registers and resets the test port (R417, R423, R427). -/
theorem State.onPowerOn_asserts (s : State) (cause : PowerCause) (n : Nat) : let t := s.onPowerOn cause n
    t.rs.reach = some .cold ∧ t.rs.until' = s.rs.lengthened s.tm.refclk (max n 256) ∧ t.rs.sources.testBit srcPowerOn = true ∧
      t.trb.bkup = [] ∧ t.tap = TapU.zero ∧ t.trb.retained = s.trb.retained := by
  obtain ⟨⟨hreach, hlength, hsource, -, -⟩, hretained⟩ := s.assertReset_asserted .cold srcPowerOn (max n 256)
  rw [ResetU.widened_cold] at hreach
  cases cause with
  | pwrOk => exact ⟨hreach, hlength, hsource, rfl, rfl, hretained⟩
  | refclkGap => exact ⟨hreach, hlength, hsource, rfl, rfl, hretained⟩

theorem State.onPorstN_taken {n : Nat} {taken : Bool} (h : pulseTaken n taken = true) (s : State) :
    s.onPorstN n taken = (s.wideReset .cold srcPorst n).pinHeld n := if_pos h
theorem State.onPorstN_passed {n : Nat} {taken : Bool} (h : pulseTaken n taken = false) (s : State) : s.onPorstN n taken = s := if_neg (by simp [h])
theorem State.onSysrstN_taken {n : Nat} {taken : Bool} (h : pulseTaken n taken = true) (s : State) :
    s.onSysrstN n taken = s.wideReset .warm srcSysrst n := if_pos h
theorem State.onSysrstN_passed {n : Nat} {taken : Bool} (h : pulseTaken n taken = false) (s : State) : s.onSysrstN n taken = s := if_neg (by simp [h])

/-! A start (R430 to R432). -/

/-- The lock of the PLL changes of the reset controller only whether the start is held. -/
theorem State.startClock_rs {s : State} {r : StartRun} (h : s.rs.start = some r) (pll : Bool) :
    ∃ held, (s.startClock pll).rs = { s.rs with start := some { r with held := held } } := by
  have hsame : s.rs = { s.rs with start := some { r with held := r.held } } := by rw [← h]
  unfold State.startClock
  rw [h]
  dsimp only
  split
  · exact ⟨_, hsame⟩
  · split
    · exact ⟨false, rfl⟩
    · split
      · exact ⟨_, hsame⟩
      · exact ⟨true, State.trouble_rs ..⟩

/-- A start has begun on a gate whose reset is over: its tier step is to come. -/
structure StartBegun (s t : State) : Prop where
  reach : t.rs.reach = s.rs.reach
  lastReach : t.rs.lastReach = s.rs.lastReach
  start : t.rs.start.isSome = true
  training : t.tier.training = true
  epoch : s.com.epoch = 0 → t.com.epoch = 0
  tap : t.tap = s.tap

/-- What precedes a start may change other parts. -/
theorem StartBegun.of_same {r s t : State} (h : StartBegun s t) (hreach : s.rs.reach = r.rs.reach) (hlast : s.rs.lastReach = r.rs.lastReach)
    (hepoch : r.com.epoch = 0 → s.com.epoch = 0) (htap : s.tap = r.tap) : StartBegun r t :=
  ⟨h.reach.trans hreach, h.lastReach.trans hlast, h.start, h.training, fun h0 => h.epoch (hepoch h0), h.tap.trans htap⟩

theorem State.beginStart_begun (s : State) (r : Reach) (pll : Bool) :
    StartBegun s (s.beginStart r pll) ∧ (s.beginStart r pll).rs.attempts = s.rs.attempts ∧ (s.beginStart r pll).com = s.com ∧
      (s.beginStart r pll).role = s.role := by
  unfold State.beginStart
  extract_lets st d _ _ s1
  have hlock : Framed false [.rs, .trb, .parts, .ints, .clk] s1 (s1.putRsStat.startClock pll) := State.startClock_framed rfl (State.putRsStat_framed rfl (.refl s1))
  have htier : s1.tier = (s1.putRsStat.startClock pll).tier := hlock.kept (f := .tier) (by decide)
  have hcom : s1.com = (s1.putRsStat.startClock pll).com := hlock.kept (f := .com) (by decide)
  have hrole : s1.role = (s1.putRsStat.startClock pll).role := hlock.kept (f := .role) (by decide)
  have htap : s1.tap = (s1.putRsStat.startClock pll).tap := hlock.kept (f := .tap) (by decide)
  obtain ⟨held, hrs⟩ := State.startClock_rs (s := s1.putRsStat) (r := st) rfl pll
  rw [hrs, ← hcom, ← hrole]
  exact ⟨⟨by rw [hrs]; rfl, by rw [hrs]; rfl, by rw [hrs]; rfl, by rw [← htier], fun h0 => by rw [← hcom]; exact h0, htap.symm⟩, rfl, rfl, rfl⟩

theorem State.coldStart_begun (s : State) (forced pll : Bool) : StartBegun s (s.coldStart forced pll) :=
  (State.beginStart_begun _ .cold pll).1.of_same rfl rfl id rfl

/-- A warm start, or the cold start that it is forced to be (R431). -/
theorem State.warmStart_begun (s : State) (pll : Bool) (find : WordFind) : StartBegun s (s.warmStart pll find) := by
  unfold State.warmStart
  dsimp only
  split
  · exact (s.clearCold.coldStart_begun true pll).of_same rfl rfl (fun _ => rfl) rfl
  · exact (State.beginStart_begun _ .warm pll).1.of_same rfl rfl id rfl

/-! The release (R411, R420). -/

theorem State.timeFrom_storeRead_framed (s : State) (r : Reach) (find : WordFind) :
    Framed false [.tm, .rs, .trb, .parts, .ints, .clk] s ((s.timeFrom r).storeRead r find) := by
  have htime : Framed false [.tm, .rs, .trb, .parts, .ints, .clk] s (s.timeFrom r) := by
    unfold State.timeFrom
    split
    · exact (s.withTm_framed _).mono rfl
    · exact .refl s
  unfold State.storeRead
  split
  · exact State.checkStore_framed rfl htime
  · split
    · exact State.retainedCheck_framed rfl htime
    · exact htime

/-- A release ends the reset and begins the start of its reach. -/
theorem State.release_begins (s : State) (r : Reach) (pll : Bool) (find : WordFind) : let t := s.release r pll find
    t.inReset = false ∧ t.rs.lastReach = r.code ∧ t.com.epoch = 0 ∧ (r = .job → t.com.window = true ∧ t.rs.attempts = 0 ∧ t.role = s.role) ∧
      t.tier.training = true ∧ t.rs.start.isSome = true ∧ t.tap = s.tap := by
  have hread := s.timeFrom_storeRead_framed r find
  unfold State.release
  extract_lets s0 n rise _ _ _ s1 s2 _ s3
  have hrole0 : s.role = s0.role := hread.kept (f := .role) (by decide)
  have htap0 : s.tap = s0.tap := hread.kept (f := .tap) (by decide)
  have h2 : s2.rs = s1.rs ∧ s2.com = s1.com ∧ s2.role = s0.role ∧ s2.tap = s0.tap := by
    unfold s2
    split
    · exact ⟨State.trouble_rs .., State.trouble_com .., State.trouble_role .., State.trouble_tap ..⟩
    · exact ⟨rfl, rfl, rfl, rfl⟩
  clear_value s2
  obtain ⟨hrs, hcom, hrole, htap⟩ := h2
  have hreach2 : s2.rs.reach = none := by rw [hrs]
  have hlast2 : s2.rs.lastReach = r.code := by rw [hrs]
  have hepoch2 : s2.com.epoch = 0 := by rw [hcom]
  have h3 : StartBegun s2 s3 := by
    unfold s3
    cases r with
    | job => exact (State.beginStart_begun _ .job pll).1.of_same rfl rfl id rfl
    | warm => exact s2.warmStart_begun pll find
    | cold => exact s2.coldStart_begun false pll
  have hjob3 : r = .job → s3.com.window = true ∧ s3.rs.attempts = 0 ∧ s3.role = s.role := by
    rintro rfl
    obtain ⟨-, hattempts, hcom3, hrole3⟩ := State.beginStart_begun { s2 with rs := { s2.rs with attempts := 0 } } .job pll
    refine ⟨(congrArg CommitU.window (hcom3.trans hcom)).trans rfl, hattempts, hrole3.trans (hrole.trans hrole0.symm)⟩
  clear_value s3
  have hcopy : Framed false [.net] s3 s3.copyAgain := State.copyAgain_framed rfl (.refl s3)
  have hrsc : s3.rs = s3.copyAgain.rs := hcopy.kept (f := .rs) (by decide)
  have hcomc : s3.com = s3.copyAgain.com := hcopy.kept (f := .com) (by decide)
  have hrolec : s3.role = s3.copyAgain.role := hcopy.kept (f := .role) (by decide)
  have htierc : s3.tier = s3.copyAgain.tier := hcopy.kept (f := .tier) (by decide)
  have htapc : s3.tap = s3.copyAgain.tap := hcopy.kept (f := .tap) (by decide)
  rw [State.inReset, ← hrsc, ← hcomc, ← hrolec, ← htierc, ← htapc, h3.reach, hreach2]
  exact ⟨rfl, h3.lastReach.trans hlast2, h3.epoch hepoch2, hjob3, h3.training, h3.start, h3.tap.trans (htap.trans htap0.symm)⟩

section Release
variable {s : State} {r : Reach} {x : RegionRst} {pll : Bool} {find : WordFind}

theorem State.onResetRelease_due (h : s.rs.reach = some r) (hend : s.rs.until' ≤ s.tm.refclk) (hstretch : s.rs.clearAt + 4096 ≤ s.tm.refclk) :
    s.onResetRelease pll find = s.release r pll find := by
  simp only [State.onResetRelease, h, hend, hstretch, and_self, if_true]

theorem State.onResetRelease_early (h : s.rs.reach = some r) (hearly : s.tm.refclk < s.rs.until' ∨ s.tm.refclk < s.rs.clearAt + 4096) :
    s.onResetRelease pll find = s := by
  have hnot : ¬ (s.rs.until' ≤ s.tm.refclk ∧ s.rs.clearAt + 4096 ≤ s.tm.refclk) := by omega
  simp only [State.onResetRelease, h, if_neg hnot]

/-- The one region reset ends, and the scrub walk of its region starts again (R292, R425). -/
def State.regionReleased (s : State) (x : RegionRst) : State :=
  { s with rs := { s.rs with regions := s.rs.regions.filter (· != x) },
           img := { s.img with scrubRow := s.img.scrubRow.set x.region 0, scrubFrom := s.img.scrubFrom.set x.region s.tm.refclk } }

theorem State.onResetRelease_region (h : s.rs.reach = none) (hregions : s.rs.regions = [x]) :
    s.onResetRelease pll find = if x.start + 4096 ≤ s.tm.refclk then (s.regionReleased x).answer x.issuer .ok else s := by
  simp only [State.onResetRelease, h, State.releaseRegions, hregions]
  split
  · next hdue => simp only [List.filter_cons, List.filter_nil, hdue, decide_true, if_true, List.foldl_cons, List.foldl_nil, State.regionReleased, hregions]
  · next hdue => simp only [List.filter_cons, List.filter_nil, hdue, decide_false, Bool.false_eq_true, if_false, List.foldl_nil]

theorem State.onRstOutRelease_eq {n : Nat} (h : s.rs.outRise = some n) :
    s.onRstOutRelease = if n ≤ s.tm.refclk then { s with rs := { s.rs with outHigh := true, outRise := none } } else s := by
  simp only [State.onRstOutRelease, h]

theorem State.onRstOutRelease_none (h : s.rs.outRise = none) : s.onRstOutRelease = s := by simp only [State.onRstOutRelease, h]

end Release

/-- The replies that a reset held go out once HRP runs (R369, R411). -/
theorem State.sendAborted_sends {s : State} (h : s.hrpUp = true) : s.sendAborted.rs.aborted = [] ∧ s.sendAborted.rs.abortedCmds = [] ∧
    ∀ i, s.rs.aborted = [] → s.rs.abortedCmds = [i] → s.sendAborted.hrpOut = (s.answer i .abortedRestart).hrpOut := by
  unfold State.sendAborted
  rw [if_pos h]
  refine ⟨rfl, rfl, fun i haborted hcmds => ?_⟩
  dsimp only
  rw [haborted, hcmds]
  rfl

/-- Settles O50: the sources, each taken or not, and each release, due or early. -/
theorem resetSourcesAndReleases : Obligations.ResetSourcesAndReleases := by
  unfold Obligations.ResetSourcesAndReleases
  simp only [exec_powerOn_eq, exec_porstN_eq, exec_sysrstN_eq, exec_resetRelease_eq, exec_rstOutRelease_eq, Host.Outcome.next.injEq]
  refine ⟨fun m s n taken cause => ?sources, fun m s u i pll find r x n => ?releases⟩
  case sources =>
    generalize s.elapse m = e
    refine ⟨⟨_, rfl, e.onPowerOn_asserts cause n⟩, fun htaken => ⟨?_, ?_⟩, fun hpassed => ?_⟩
    · obtain ⟨hreach, hlength, hsource, hbkup, -⟩ := e.wideReset_asserted .cold srcPorst n
      rw [ResetU.widened_cold] at hreach
      exact ⟨_, State.onPorstN_taken (pulseTaken_eq_true htaken) e, hreach, hlength, hsource, hbkup⟩
    · obtain ⟨hreach, hlength, hsource, hbkup, ht48⟩ := e.wideReset_asserted .warm srcSysrst n
      exact ⟨_, State.onSysrstN_taken (pulseTaken_eq_true htaken) e, hreach, hlength, hsource, ht48 (by decide), hbkup⟩
    · exact ⟨State.onPorstN_passed (pulseTaken_eq_false hpassed) e, State.onSysrstN_passed (pulseTaken_eq_false hpassed) e⟩
  case releases =>
    generalize s.elapse m = e
    refine ⟨fun hreach hend hstretch => ⟨_, State.onResetRelease_due hreach hend hstretch, e.release_begins r pll find⟩,
      State.onResetRelease_early, fun hreach hregions => ?_, fun hrise => ?_, State.onRstOutRelease_none, fun hup => ?_, fun hdown => if_neg (by simp [hdown])⟩
    · rw [State.onResetRelease_region hreach hregions]
      refine ⟨fun hdue => ⟨e.regionReleased x, if_pos hdue, ?_, rfl, rfl, rfl⟩, fun hearly => if_neg (by omega)⟩
      simp [State.regionReleased, hregions]
    · rw [State.onRstOutRelease_eq hrise]
      exact ⟨fun hdue => if_pos hdue, fun hearly => if_neg (by omega)⟩
    · obtain ⟨hwords, hcmds, hreply⟩ := State.sendAborted_sends hup
      exact ⟨hwords, hcmds, hreply i⟩

end Sys2Proof.Machine
end

section
/-! SUPPORT. gclk, THROTTLE, SLEEP and the ageing monitor (R438, R443, R445, R447 to R450, R453): an equation for each case of each row. -/
namespace Sys2Proof.Machine

/-! What the rows do to the state once their moment has come. -/
theorem exec_throttleAssert_eq (m : Moment) (s : State) : exec (.throttleAssert m) s = .next (s.elapse m).onThrottleAssert := rfl
theorem exec_throttleDeassert_eq (m : Moment) (s : State) : exec (.throttleDeassert m) s = .next (s.elapse m).onThrottleDeassert := rfl
theorem exec_gclkStep_eq (m : Moment) (s : State) : exec (.gclkStep m) s = .next (s.elapse m).onGclkStep := rfl
theorem exec_pwrSettleDone_eq (m : Moment) (codes : List Nat) (spine : Nat) (s : State) :
    exec (.pwrSettleDone m codes spine) s = .next ((s.elapse m).onPwrSettleDone codes spine) := rfl
theorem exec_sleepEntry_eq (m : Moment) (s : State) : exec (.sleepEntry m) s = .next (s.elapse m).onSleepEntry := rfl
theorem exec_sleepExit_eq (m : Moment) (cause : WakeCause) (s : State) : exec (.sleepExit m cause) s = .next ((s.elapse m).onSleepExit cause) := rfl
theorem exec_ageingMeasurement_eq (m : Moment) (codes : List Nat) (spine : Nat) (s : State) :
    exec (.ageingMeasurement m codes spine) s = .next ((s.elapse m).onAgeingMeasurement codes spine) := rfl

section Clock
variable {s : State}

/-! THROTTLE (R443, R453). -/

theorem State.onThrottleAssert_rises (h : s.clk.throttle = false) : s.onThrottleAssert =
    ({ s with clk := { s.clk with throttle := true, throttleAt := s.tm.refclk, raise := none } } : State).floorWatch := if_neg (by simp [h])
theorem State.onThrottleAssert_held (h : s.clk.throttle = true) : s.onThrottleAssert = s := if_pos h
theorem State.onThrottleDeassert_falls (h : s.clk.throttle = true) : s.onThrottleDeassert =
    ({ s with clk := { s.clk with throttle := false, throttleAt := s.tm.refclk } } : State).floorWatch := if_pos h
theorem State.onThrottleDeassert_released (h : s.clk.throttle = false) : s.onThrottleDeassert = s := if_neg (by simp [h])

/-! A step of gclk (R443, R445). -/

/-- gclk moved to a frequency, with its word on PWR_REQ after it. -/
def State.movedTo (s : State) (n : Nat) : State := { s.stepTo n with clk := { (s.stepTo n).clk with pwrReq := pwrWord n s.clk.ageOfs } }

/-- A raise into a higher BAND: its word on PWR_REQ goes first. -/
def State.raisedTo (s : State) (n : Nat) : State :=
  { s with clk := { s.clk with pwrReq := pwrWord n s.clk.ageOfs, raise := some (s.fine + s.settleTime, n), stepAt := s.tm.refclk } }

theorem State.onGclkStep_due (hruns : s.clk.mhz ≠ 0) (hawake : s.clk.sleeping = false) (hraise : s.clk.raise = none)
    (hdue : s.clk.stepAt = 0 ∨ s.clk.stepAt + 64 ≤ s.tm.refclk) : s.onGclkStep = s.clockStep := if_pos ⟨hruns, hawake, hraise, hdue⟩

theorem State.onGclkStep_early (hstep : s.clk.stepAt ≠ 0) (hearly : s.tm.refclk < s.clk.stepAt + 64) : s.onGclkStep = s :=
  if_neg fun ⟨_, _, _, hdue⟩ => hdue.elim hstep (by omega)

theorem State.clockTarget_throttled (h : s.clk.throttle = true) : s.clockTarget = some s.fFloor := if_pos h

theorem State.clockTarget_running (h : s.clk.throttle = false) (haway : s.clk.throttleAt + 64 ≤ s.tm.refclk) : s.clockTarget = some s.fRun := by
  rw [State.clockTarget, if_neg (by simp [h]), if_pos (.inl haway)]

theorem State.clockStep_down {t : Nat} (h : s.clockTarget = some t) (hdown : t < s.clk.mhz) : s.clockStep = s.movedTo (max t (s.clk.mhz - 100)) := by
  have hnext : stepToward s.clk.mhz t = max t (s.clk.mhz - 100) := if_neg (by omega)
  simp only [State.clockStep, h, hnext]
  rw [if_neg (by omega), if_neg (by omega)]
  rfl

theorem State.clockStep_up {t : Nat} (h : s.clockTarget = some t) (hup : s.clk.mhz < t) :
    s.clockStep = if bandOf s.clk.mhz < bandOf (min t (s.clk.mhz + 100)) then s.raisedTo (min t (s.clk.mhz + 100))
      else s.movedTo (min t (s.clk.mhz + 100)) := by
  have hnext : stepToward s.clk.mhz t = min t (s.clk.mhz + 100) := if_pos hup
  have hrises : s.clk.mhz < min t (s.clk.mhz + 100) := by omega
  simp only [State.clockStep, h, hnext]
  rw [if_neg (by omega)]
  simp only [hrises, true_and]
  rfl

/-! PWR_SETTLE (R445). -/

theorem State.onPwrSettleDone_raise {at' n : Nat} (hreset : s.inReset = false) (hraise : s.clk.raise = some (at', n)) (hmeasured : s.clk.remeasure = none)
    (codes : List Nat) (spine : Nat) : s.onPwrSettleDone codes spine =
      if at' ≤ s.fine then ({ s with clk := { s.clk with raise := none } } : State).stepTo n else s := by
  have hstepped (u : State) : (u.stepTo n).clk.remeasure = u.clk.remeasure := rfl
  rw [State.onPwrSettleDone, if_neg (by simp [hreset])]
  by_cases hsettled : at' ≤ s.fine
  · simp only [hraise, if_pos hsettled, hstepped, hmeasured]
  · simp only [hraise, if_neg hsettled, hmeasured]

/-! SLEEP (R438). -/

theorem State.onSleepEntry_eq {t : Nat} (hquiet : s.clk.quietSince = some t) (hawake : s.clk.sleeping = false) : s.onSleepEntry =
    if t + fineOf 1000000 ≤ s.fine then { s with clk := { s.clk with sleeping := true, mhz := 0, raise := none, floorAt := none } } else s := by
  simp only [State.onSleepEntry, hquiet, hawake, and_true]

theorem State.onSleepExit_eq (s : State) (cause : WakeCause) : s.onSleepExit cause = s.leaveSleep := by cases cause <;> rfl

theorem State.leaveSleep_asleep (h : s.clk.sleeping = true) : s.leaveSleep =
    ({ s with clk := { s.clk with sleeping := false, quietSince := none, mhz := s.fRun } } : State).floorWatch := if_pos h
theorem State.leaveSleep_awake (h : s.clk.sleeping = false) : s.leaveSleep = s := if_neg (by simp [h])

end Clock

/-! The ageing monitor (R447 to R450). -/

/-- fmin of a measurement with these codes, the records before it taken in (R449). -/
def State.measuredFmin (s : State) (codes : List Nat) (spine : Nat) : Nat :=
  planFmin (s.grade.clusters + 1) (s.agHistory ++ [(List.range s.grade.clusters).map (fun c => codes.getD c 0 % 256) ++ [spine % 256]])

/-- A measurement that may raise AGE_OFS: its plan would lie below the clock asked for (R450). -/
def State.plansLow (s : State) (codes : List Nat) (spine : Nat) : Prop :=
  planOf (s.measuredFmin codes spine) < min s.runMhz 1600 ∧ s.clk.ageOfs < 30

/-- The start in progress has had its measurement (R447). -/
def State.startMeasured (s : State) : State :=
  { s with rs := { s.rs with start := s.rs.start.map (fun r : StartRun => { r with measured := true }) } }

/-- The clock's registers after a measurement that takes effect (R448, R449). -/
def State.plannedClk (s : State) (codes : List Nat) (spine : Nat) (c : ClockU) : ClockU :=
  { c with plan := planOf (s.measuredFmin codes spine), agCode := codeWord s.grade.clusters codes, agSpine := spine % 256, agTick := s.tick, remeasure := none }

/-- A measurement on record, with its plan (R448, R449). -/
def State.recorded (s : State) (cause : Nat) (codes : List Nat) (spine : Nat) : State :=
  let s1 := s.putRecord (agRecord s.tick cause s.clk.ageOfs (planOf (s.measuredFmin codes spine)) spine (codeWord s.grade.clusters codes))
  { s1 with clk := s.plannedClk codes spine s1.clk, bal := { s1.bal with due := true } }

section Ageing
variable {s : State} {cause : Nat} {codes : List Nat} {spine : Nat}

theorem State.onAgeingMeasurement_idle (h : s.measureDue = none) : s.onAgeingMeasurement codes spine = s := by
  unfold State.onAgeingMeasurement
  split
  · rfl
  · rw [h]

theorem State.onAgeingMeasurement_due (hreset : s.inReset = false) (hmeasured : s.clk.remeasure = none) (hdue : s.measureDue = some cause)
    (hawake : s.clk.sleeping = false) : s.onAgeingMeasurement codes spine = s.startMeasured.measure cause codes spine false := by
  have hid : s.startMeasured.leaveSleep = s.startMeasured := State.leaveSleep_awake hawake
  rw [State.onAgeingMeasurement, if_neg (by simp [hreset, hmeasured]), hdue]
  exact congrArg (State.measure · cause codes spine false) hid

/-- A plan below what is asked for raises AGE_OFS instead of being taken (R450). -/
theorem State.measure_raises (h : s.plansLow codes spine) : s.measure cause codes spine false =
    { s with clk := { s.clk with ageOfs := s.clk.ageOfs + 2, pwrReq := pwrWord s.clk.mhz (s.clk.ageOfs + 2),
                                 remeasure := some (s.fine + s.settleTime, cause) } } := by
  obtain ⟨hlow, hofs⟩ := h
  have hraises : (!false && decide (planOf (s.measuredFmin codes spine) < min s.runMhz 1600) && decide (s.clk.ageOfs < 30)) = true := by simp [hlow, hofs]
  exact if_pos hraises

theorem State.measure_records (h : ¬ s.plansLow codes spine) : s.measure cause codes spine false =
    (if s.measuredFmin codes spine < 700 then (s.recorded cause codes spine).ageMargin 0 else s.recorded cause codes spine).floorWatch := by
  have hkeeps : ¬ (!false && decide (planOf (s.measuredFmin codes spine) < min s.runMhz 1600) && decide (s.clk.ageOfs < 30)) = true := by
    intro hraises
    simp only [Bool.not_false, Bool.true_and, Bool.and_eq_true, decide_eq_true_eq] at hraises
    exact h hraises
  exact if_neg hkeeps

/-- What a measurement that takes effect leaves: the plan, the record's own registers, and the capacities to be computed anew. -/
theorem State.measure_plans (h : ¬ s.plansLow codes spine) : let t := s.measure cause codes spine false
    t.clk.plan = planOf (s.measuredFmin codes spine) ∧ t.clk.agTick = s.tick ∧ t.clk.agSpine = spine % 256 ∧ t.clk.ageOfs = s.clk.ageOfs ∧
      t.bal = { s.bal with due := true } ∧ t.clk.mhz = s.clk.mhz ∧ t.entries = s.entries := by
  have hput : Framed false [.trb] s (s.putRecord (agRecord s.tick cause s.clk.ageOfs (planOf (s.measuredFmin codes spine)) spine
      (codeWord s.grade.clusters codes))) := State.putRecord_framed rfl (.refl s)
  have hrecorded : (s.recorded cause codes spine).clk = s.plannedClk codes spine s.clk ∧ (s.recorded cause codes spine).bal = { s.bal with due := true } ∧
      (s.recorded cause codes spine).entries = s.entries := by
    have hclk := hput.kept (f := .clk) (by decide)
    have hbal := hput.kept (f := .bal) (by decide)
    have hentries := hput.kept (f := .entries) (by decide)
    change s.clk = _ at hclk
    change s.bal = _ at hbal
    change s.entries = _ at hentries
    unfold State.recorded
    dsimp only
    rw [← hclk, ← hbal, ← hentries]
    exact ⟨rfl, rfl, rfl⟩
  obtain ⟨hclk, hbal, hentries⟩ := hrecorded
  have hmargin : Framed false [.trb, .parts, .ints] (s.recorded cause codes spine)
      (if s.measuredFmin codes spine < 700 then (s.recorded cause codes spine).ageMargin 0 else s.recorded cause codes spine) := by
    split
    · exact State.ageMargin_framed rfl (.refl _)
    · exact .refl _
  have hclk' := (hmargin.kept (f := .clk) (by decide)).symm.trans hclk
  have hbal' := (hmargin.kept (f := .bal) (by decide)).symm.trans hbal
  have hentries' := (hmargin.kept (f := .entries) (by decide)).symm.trans hentries
  intro t
  have ht : t = State.floorWatch _ := State.measure_records h
  generalize (if s.measuredFmin codes spine < 700 then (s.recorded cause codes spine).ageMargin 0 else s.recorded cause codes spine) = u at *
  have hfields : t.clk = { u.clk with floorAt := t.clk.floorAt } ∧ t.bal = u.bal ∧ t.entries = u.entries := by
    rw [ht]
    exact ⟨rfl, rfl, rfl⟩
  obtain ⟨hu, hub, hue⟩ := hfields
  rw [hu, hub, hue, hclk', hbal', hentries']
  exact ⟨rfl, rfl, rfl, rfl, rfl, rfl, rfl⟩

end Ageing

/-- Settles O38: each row in each of its cases is one of the equations above. -/
theorem clocksAndAgeing : Obligations.ClocksAndAgeing := by
  unfold Obligations.ClocksAndAgeing
  simp only [exec_throttleAssert_eq, exec_throttleDeassert_eq, exec_gclkStep_eq, exec_pwrSettleDone_eq, exec_sleepEntry_eq, exec_sleepExit_eq,
    exec_ageingMeasurement_eq, Host.Outcome.next.injEq]
  refine ⟨fun m s at' n cause codes spine => ?clock, fun m s codes spine cause => ?ageing⟩
  case clock =>
    generalize s.elapse m = e
    refine ⟨fun h => ⟨_, State.onThrottleAssert_rises h, rfl, rfl, rfl, rfl, rfl, rfl, rfl⟩, State.onThrottleAssert_held,
      fun h => ⟨_, State.onThrottleDeassert_falls h, rfl, rfl, rfl, rfl, rfl⟩, State.onThrottleDeassert_released,
      fun hruns hawake hraise hdue => ?step, State.onGclkStep_early, fun hreset hraise hmeasured => ?settle, fun hquiet hawake => ?sleep,
      fun h => ⟨_, (e.onSleepExit_eq cause).trans (State.leaveSleep_asleep h), rfl, rfl, rfl⟩,
      fun h => (e.onSleepExit_eq cause).trans (State.leaveSleep_awake h)⟩
    case step =>
      rw [State.onGclkStep_due hruns hawake hraise hdue]
      refine ⟨fun hthrottle hdown => ⟨_, State.clockStep_down (State.clockTarget_throttled hthrottle) hdown, rfl, rfl, rfl, hraise, rfl⟩,
        fun hthrottle haway hup => ?_⟩
      rw [State.clockStep_up (State.clockTarget_running hthrottle haway) hup]
      exact ⟨fun hband => ⟨_, if_neg (Nat.not_lt.2 hband), rfl, rfl, hraise⟩, fun hband => ⟨_, if_pos hband, rfl, rfl, rfl⟩⟩
    case settle =>
      rw [State.onPwrSettleDone_raise hreset hraise hmeasured]
      exact ⟨fun hsettled => ⟨_, if_pos hsettled, rfl, rfl, rfl, rfl⟩, fun hearly => if_neg (Nat.not_le.2 hearly)⟩
    case sleep =>
      rw [State.onSleepEntry_eq hquiet hawake]
      exact ⟨fun hheld => ⟨_, if_pos hheld, rfl, rfl, rfl, rfl, rfl⟩, fun hearly => if_neg (Nat.not_le.2 hearly)⟩
  case ageing =>
    generalize s.elapse m = e
    intro hreset hmeasured
    refine ⟨State.onAgeingMeasurement_idle, fun hdue hawake => ?_⟩
    rw [State.onAgeingMeasurement_due hreset hmeasured hdue hawake]
    exact ⟨fun hlow => ⟨_, State.measure_raises (s := e.startMeasured) hlow, rfl, rfl, rfl, rfl, rfl⟩,
      fun hplan => ⟨_, rfl, State.measure_plans (s := e.startMeasured) hplan⟩⟩

end Sys2Proof.Machine
end

section
/-! SUPPORT. What a cold start leaves in the registers (R426). -/
namespace Sys2Proof.Machine

/-- A slip counter of a lane at cold. -/
theorem State.reset_slip (k : Nat) (hk : k < 8) : State.reset.readReg (.slip k) = 0 := by
  interval_cases k <;> rfl

theorem State.reset_ce (k : Nat) (hk : k < 8) : State.reset.readReg (.ce k) = 0 := by
  interval_cases k <;> rfl

/-- Settles O57: the cold value of each register, those of a numbered group one by one. -/
theorem coldRegisters : Obligations.ColdRegisters := by
  unfold Obligations.ColdRegisters
  exact ⟨by decide, by decide, rfl, rfl, by decide, rfl, by decide, rfl, by decide, by decide, by decide, rfl, rfl,
    fun n hn => ⟨State.reset_ce n hn, State.reset_slip n hn⟩, fun _ => rfl, fun _ => ⟨rfl, rfl, rfl⟩, rfl, rfl, rfl⟩

end Sys2Proof.Machine
end

section
/-! SUPPORT. The management window (R471 to R476, R479, R483): where an access goes, and what a write leaves. -/
namespace Sys2Proof.Machine

theorem exec_registerWrite_eq (m : Moment) (b : RegBeat) (s : State) : exec (.registerWrite m b) s = .next ((s.elapse m).onRegisterWrite b) := rfl
theorem exec_tmNowRead_eq (m : Moment) (b : RegBeat) (s : State) : exec (.tmNowRead m b) s = .next ((s.elapse m).onTmNowRead b) := rfl
theorem exec_trbStickyWrite_eq (m : Moment) (b : RegBeat) (s : State) : exec (.trbStickyWrite m b) s = .next ((s.elapse m).onTrbStickyWrite b) := rfl

/-! The window and its registers. -/

theorem windowOf_management {a : Nat} (ha : a < 0x10000) : windowOf a = none := if_neg (by omega)
theorem offsetOf_management {a : Nat} (ha : a < 0x10000) : offsetOf a = a := if_neg (by omega)

/-- TM_NOW is no backup register. -/
theorem ne_tmNow_of_bkup {a n : Nat} (h : regAt a = some (.bkup n)) : a ≠ 0x0410 := by
  rintro rfl
  have hnow : some Reg.tmNow = some (.bkup n) := h
  nomatch hnow

section Value
variable {s : State} {a n : Nat} {r : Reg} {v : Word}

theorem State.readMgmt_reads (ha : a < 0x10000) (hr : regAt a = some r) (hg : r.absent s.grade = false) : s.readMgmt a = s.readReg r := by
  simp [State.readMgmt, ha, hr, hg]

theorem State.writeMgmt_writes (ha : a < 0x10000) (hr : regAt a = some r) (hg : r.absent s.grade = false) (hv : r.reserved v = false) :
    s.writeMgmt a v = s.writeReg r v := by
  simp [State.writeMgmt, ha, hr, hg, hv]

theorem State.writeMgmt_reserved (ha : a < 0x10000) (hr : regAt a = some r) (hg : r.absent s.grade = false) (hv : r.reserved v = true) :
    s.writeMgmt a v = s.regReserved a none := by
  simp [State.writeMgmt, ha, hr, hg, hv]

theorem State.bkupCheck_clean (s : State) (a : Nat) : s.bkupCheck a .clean = s := by
  unfold State.bkupCheck
  split
  · contradiction
  · contradiction
  · rfl

theorem State.bkupCheck_tmNow (s : State) (f : Find) : s.bkupCheck 0x0410 f = s := rfl

/-- What an uncorrectable backup register leaves: RETAINED_UE, and the register at zero (R455). -/
def State.bkupLost (s : State) (n : Nat) : State := (s.trouble .retainedUe 0 Obj.none none 0).writeReg (.bkup n) 0

theorem State.bkupCheck_bad (hr : regAt a = some (.bkup n)) : s.bkupCheck a .bad = s.bkupLost n := by
  simp only [State.bkupCheck, hr]
  rfl

end Value

/-! An access that is whole and allowed (R472, R473). -/
section Access
variable {s : State} {b : RegBeat} (hon : s.hrpOn = true)

section Counted
include hon

theorem State.regAccess_misformed (hm : beatMisformed b = true) :
    s.regAccess b = if beatWrites b then s.countMisformed else s.countMisformed.regReply b 0 := by
  simp [State.regAccess, hon, hm]

theorem State.regAccess_denied (hm : beatMisformed b = false) (hd : beatDenied b = true) :
    s.regAccess b = if beatWrites b then s.countDenied else s.countDenied.regReply b 0 := by
  simp [State.regAccess, hon, hm, hd]

end Counted

section Rows
variable (ha : beatAddr b < 0x10000)
include ha

theorem beatRow_write (hw : beatWrites b = true) : beatRow b = if beatAddr b = 0x0080 then .sticky else .other := by
  simp only [beatRow, windowOf_management ha, offsetOf_management ha, hw]

theorem beatRow_read (hw : beatWrites b = false) : beatRow b = if beatAddr b = 0x0410 then .tmNow else .other := by
  simp only [beatRow, windowOf_management ha, offsetOf_management ha, hw]

variable (hm : beatMisformed b = false) (hd : beatDenied b = false)
include hon hm hd

theorem State.regAccess_write (hw : beatWrites b = true) : s.regAccess b = s.writeMgmt (beatAddr b) b.w1 := by
  simp [State.regAccess, State.accessReg, hon, hm, hd, hw, windowOf_management ha, offsetOf_management ha]

theorem State.regAccess_read (hw : beatWrites b = false) (hnow : beatAddr b ≠ 0x0410) : s.regAccess b =
    (s.bkupCheck (beatAddr b) b.find).regReply b ((s.bkupCheck (beatAddr b) b.find).readMgmt (beatAddr b)) := by
  simp [State.regAccess, State.accessReg, hon, hm, hd, hw, windowOf_management ha, offsetOf_management ha, hnow]

theorem State.onRegisterWrite_write (hw : beatWrites b = true) (hsticky : beatAddr b ≠ 0x0080) :
    s.onRegisterWrite b = s.writeMgmt (beatAddr b) b.w1 := by
  rw [State.onRegisterWrite, State.rowAccess, if_pos ((beatRow_write ha hw).trans (if_neg hsticky)), State.regAccess_write hon ha hm hd hw]

theorem State.onTrbStickyWrite_write (hw : beatWrites b = true) (hsticky : beatAddr b = 0x0080) :
    s.onTrbStickyWrite b = s.writeMgmt (beatAddr b) b.w1 := by
  rw [State.onTrbStickyWrite, State.rowAccess, if_pos ((beatRow_write ha hw).trans (if_pos hsticky)), State.regAccess_write hon ha hm hd hw]

theorem State.onRegisterWrite_read (hw : beatWrites b = false) (hnow : beatAddr b ≠ 0x0410) : s.onRegisterWrite b =
    (s.bkupCheck (beatAddr b) b.find).regReply b ((s.bkupCheck (beatAddr b) b.find).readMgmt (beatAddr b)) := by
  rw [State.onRegisterWrite, State.rowAccess, if_pos ((beatRow_read ha hw).trans (if_neg hnow)), State.regAccess_read hon ha hm hd hw hnow]

/-- A read of TM_NOW holds the fraction for TM_FRAC (R474). -/
theorem State.onTmNowRead_read (hw : beatWrites b = false) (hnow : beatAddr b = 0x0410) :
    s.onTmNowRead b = { s.regReply b (word (s.tm.t48 >>> 48)) with tm := { s.tm with frac := (s.tm.t48 >>> 32) % 2 ^ 16 } } := by
  have hoffset : offsetOf (beatAddr b) = 0x0410 := (offsetOf_management ha).trans hnow
  rw [State.onTmNowRead, State.rowAccess, if_pos ((beatRow_read ha hw).trans (if_pos hnow))]
  simp only [State.regAccess, State.accessReg, hon, hm, hd, hw, windowOf_management ha, hoffset, State.bkupCheck_tmNow]
  rfl

end Rows

/-- A misformed or a denied access, in a row with no register of its own. -/
theorem State.onRegisterWrite_other (hrow : beatRow b = .other) : s.onRegisterWrite b = s.regAccess b := if_pos hrow

end Access

/-! A backup register lost (R455). -/
section Lost
variable (s : State) (n : Nat)

theorem State.trouble_bkup (b : Sticky) (a : Nat) (o : Obj) (p : Option Nat) (d : Word) : (s.trouble b a o p d).trb.bkup = s.trb.bkup := by
  rw [State.trouble_trb]
  split <;> rfl

theorem State.writeReg_bkup_readReg (v : Word) (k : Nat) :
    (s.writeReg (.bkup n) v).readReg (.bkup k) = if k = n then v else s.readReg (.bkup k) := sget_sset ..

theorem State.bkupLost_zero : (s.bkupLost n).readReg (.bkup n) = 0 := (State.writeReg_bkup_readReg ..).trans (if_pos rfl)

theorem State.bkupLost_keeps {k : Nat} (hk : k ≠ n) : (s.bkupLost n).readReg (.bkup k) = s.readReg (.bkup k) := by
  refine (State.writeReg_bkup_readReg ..).trans ((if_neg hk).trans ?_)
  exact congrArg (sget 0#64 · k) (s.trouble_bkup ..)

theorem State.bkupLost_sticky : bit (s.bkupLost n).trb.sticky 9 = true := by
  refine (congrArg (bit · 9) (s.trouble_sticky .retainedUe 0 Obj.none none 0)).trans ?_
  exact bit_word_pow (by decide) _

end Lost

/-! GT_RING_CFG and the routes (R389, R391). -/
section Ring
variable {s : State}

theorem State.writeReg_route_readReg (hoff : s.ringOn = false) (n : Nat) (v : Word) (k : Nat) :
    (s.writeReg (.route n) v).readReg (.route k) = if k = n then v else s.readReg (.route k) := by
  simp only [State.writeReg, hoff]
  exact sget_sset ..

/-- GT_RING_CFG while ENABLE is 1: the value written in bit 63, the rest as it was. -/
def ringEnable (old v : Word) : Word := pack [(bf v 63 63, 63, 63), (bf old 62 0, 62, 0)]

theorem ringEnable_enable (old v : Word) : bit (ringEnable old v) 63 = bit v 63 := by
  have hfield : bf (ringEnable old v) 63 63 = bf v 63 63 :=
    (bf_pack (v := bf v 63 63) (by simp) (by decide) (by simp)).trans (Nat.mod_eq_of_lt (bf_lt v 63 63))
  have htest := congrArg (Nat.testBit · 0) hfield
  simpa only [bf_testBit, bit, Nat.add_zero, Nat.reduceAdd, Nat.reduceSub, Nat.lt_one_iff, decide_true, Bool.true_and] using htest

theorem ringEnable_rest (old v : Word) : bf (ringEnable old v) 62 0 = bf old 62 0 :=
  (bf_pack (v := bf old 62 0) (by simp) (by decide) (by simp)).trans (Nat.mod_eq_of_lt (bf_lt old 62 0))

theorem State.writeRing_enabled (hon : s.ringOn = true) (v : Word) : (s.writeRing v).net.cfg = ringEnable s.net.cfg v ∧
    (s.writeRing v).blocked = if bf v 62 0 = bf s.net.cfg 62 0 then s.blocked else min (s.blocked + 1) (2 ^ 16 - 1) := by
  by_cases hsame : bf v 62 0 = bf s.net.cfg 62 0
  · simp only [State.writeRing, hon, hsame, bne_self_eq_false, Bool.and_false, if_true]
    exact ⟨rfl, rfl⟩
  · simp only [State.writeRing, hon, bne_iff_ne.2 hsame, Bool.and_self, if_true, if_neg hsame]
    exact ⟨rfl, rfl⟩

end Ring

/-- Settles O25: an access by where it goes, then the writes register by register. -/
theorem registerWindow : Obligations.RegisterWindow := by
  unfold Obligations.RegisterWindow
  simp only [exec_registerWrite_eq, exec_tmNowRead_eq, exec_trbStickyWrite_eq, Host.Outcome.next.injEq]
  refine ⟨fun m s b r => ?access, fun m s b => ?counted, fun s v n => ?written⟩
  case access =>
    have hgrade : (s.elapse m).grade = s.grade := (s.elapse_kept m).grade
    generalize s.elapse m = e at *
    intro hon hm hd ha hr hg
    rw [← hgrade] at hg
    refine ⟨fun hw hnow hclean => ?_, ?_, State.onTmNowRead_read hon ha hm hd, fun hw hsticky hv => ?_, fun hw hsticky hv hnz => ?_,
      fun hw hsticky hv => ?_⟩
    · rw [State.onRegisterWrite_read hon ha hm hd hw hnow, hclean, State.bkupCheck_clean, State.readMgmt_reads ha hr hg]
    · rintro n rfl hw hbad
      refine ⟨e.bkupLost n, ?_, e.bkupLost_zero n, e.bkupLost_sticky n, fun k => e.bkupLost_keeps n, State.trouble_hrpOut .., State.trouble_entries ..⟩
      rw [State.onRegisterWrite_read hon ha hm hd hw (ne_tmNow_of_bkup hr), hbad, State.bkupCheck_bad hr, State.readMgmt_reads ha hr rfl,
        State.bkupLost_zero]
    · rw [State.onRegisterWrite_write hon ha hm hd hw hsticky, State.writeMgmt_writes ha hr hg hv]
    · obtain rfl : r = .sticky0 := Option.some.inj (hr.symm.trans (hsticky ▸ rfl))
      refine ⟨e.clearSticky b.w1, ?_, rfl, rfl, fun k => State.clearSticky_retained _ b.w1, rfl, rfl⟩
      rw [State.onTrbStickyWrite_write hon ha hm hd hw hsticky, State.writeMgmt_writes ha hr hg hv]
      exact if_neg hnz
    · rw [State.onRegisterWrite_write hon ha hm hd hw hsticky, State.writeMgmt_reserved ha hr hg hv]
      rfl
  case counted =>
    generalize s.elapse m = e
    intro hon hrow
    rw [State.onRegisterWrite_other hrow]
    refine ⟨fun hm => ?_, fun hm hd => ?_⟩
    · rw [State.regAccess_misformed hon hm]
      exact ⟨fun hw => if_pos hw, fun hw => if_neg (by simp [hw])⟩
    · rw [State.regAccess_denied hon hm hd]
      exact ⟨fun hw => if_pos hw, fun hw => if_neg (by simp [hw])⟩
  case written =>
    refine ⟨rfl, rfl, rfl, rfl, rfl, ⟨_, rfl, ?_, fun k hk => ?_, rfl, rfl⟩, fun hoff => ⟨_, rfl, ?_, fun k hk => ?_, ?_⟩, fun hon => if_pos hon,
      fun hnone => if_neg (by simp [hnone]), fun hmode => if_pos hmode, fun hon => ⟨_, rfl, ?_⟩⟩
    · exact (State.writeReg_bkup_readReg ..).trans (if_pos rfl)
    · exact (State.writeReg_bkup_readReg ..).trans (if_neg hk)
    · exact (State.writeReg_route_readReg hoff ..).trans (if_pos rfl)
    · exact (State.writeReg_route_readReg hoff ..).trans (if_neg hk)
    · simp only [State.writeReg, hoff]
      exact ⟨rfl, rfl⟩
    · obtain ⟨hcfg, hblocked⟩ := State.writeRing_enabled hon v
      exact ⟨(congrArg (bit · 63) hcfg).trans (ringEnable_enable ..), (congrArg (bf · 62 0) hcfg).trans (ringEnable_rest ..), hblocked⟩

end Sys2Proof.Machine
end

section
/-! SUPPORT. SESSION_QUERY and STOP_SET of a session that is found (R92, R145, R359, R402). -/
namespace Sys2Proof.Machine

theorem exec_sessionQuery_eq (m : Moment) (f : WordFind) (s : State) : exec (.sessionQuery m f) s = .next ((s.elapse m).onSessionQuery f) := rfl
theorem exec_stopSet_eq (m : Moment) (s : State) : exec (.stopSet m) s = .next (s.elapse m).onStopSet := rfl

/-- No packet is refused in passing while one with a listed opcode starts. -/
theorem Starts.refuses_none {s : State} {op : Nat} {i : Issuer} {ps : List Word} (h : Starts s op i ps) (hop : opcodes.contains op = true) (n : Nat) :
    State.refuseUnknown n s = s := by
  obtain ⟨smp, k, hnext, rfl, -⟩ := h.packet
  exact refuseUnknown_listed hnext (h.opcode ▸ hop) n

/-! A session command whose session is found. -/
section Found
variable {s : State} {i : Issuer} {ps : List Word} {role : Entry → Bool} {slot : Nat}

theorem FindsSession.acts {gate : Bool} {act : Nat → State} (h : FindsSession s i ps role slot) (hgate : gate = true) :
    s.session i (wat ps 0) gate role act = act slot := by
  obtain ⟨hslot, hcheck⟩ := h
  rw [session_acts hgate hcheck, hslot]

/-- The entry that the checks have found: in use, of the role asked for, its partition the issuer's (R89, R354). -/
theorem FindsSession.entry (h : FindsSession s i ps role slot) :
    (s.entry slot).state ≠ .free ∧ role (s.entry slot) = true ∧ (s.entry slot).part = i.part := by
  obtain ⟨rfl, hcheck⟩ := h
  unfold State.sessCheck at hcheck
  dsimp only at hcheck
  split_ifs at hcheck with hfree hmatches hrole hpart
  exact ⟨hfree, by simpa using hrole, by simpa using hpart⟩

end Found

/-- A SESSION_QUERY whose read finds no error answers the words of the entry. -/
theorem State.onSessionQuery_answers {s : State} {i : Issuer} {ps : List Word} {slot : Nat} (n : Nat) (h : Starts s 0x16 i ps) (hlen : ps.length = 1)
    (hstray : strayH ps = false) (hfound : FindsSession s.popPkt i ps (fun _ => true) slot) :
    s.onSessionQuery ⟨.clean, n⟩ = s.popPkt.reply i .ok (s.popPkt.entry slot).words := by
  have hacts : s.runCmd 0x16 anyone (fixed 1) strayH (fun i ps s =>
      s.session i (wat ps 0) true (fun _ => true) (fun slot => s.reply i .ok (s.entry slot).words)) = s.popPkt.reply i .ok (s.popPkt.entry slot).words := by
    rw [runCmd_acts h (by decide) rfl (by rw [hlen]; rfl) hstray]
    exact hfound.acts rfl
  unfold State.onSessionQuery
  rw [h.refuses_none (by decide)]
  dsimp only
  split <;> exact hacts

/-! STOP_SET. -/
section Stops
variable {s : State} {i : Issuer} {ps : List Word} {slot : Nat}

theorem State.onStopSet_acts (h : Starts s 0x17 i ps) (hlen : ps.length = 2) (hstray : (strayH ps || stray (wat ps 1) [(63, 33)]) = false)
    (hedge : s.popPkt.hasEdge = true) (hfound : FindsSession s.popPkt i ps (·.edge) slot) :
    s.onStopSet = s.popPkt.stopSetAt i (wat ps 1) (cmdHeader i 2 :: ps) slot := by
  rw [State.onStopSet, runCmd_acts h (by decide) rfl (by rw [hlen]; rfl) hstray]
  exact hfound.acts hedge

/-- A stop set of the image in force, for a session that is neither opening nor ending. -/
theorem State.stopSetAt_open {w : Word} (fwd : List Word)
    (hstate : ¬ ((s.entry slot).state = .opening ∨ (s.entry slot).state = .closing ∨ (s.entry slot).state = .cancelled))
    (hset : ∃ im, s.img.force = some im ∧ (stopsOf w).1 < (s.patHdr im).stopsets) :
    s.stopSetAt i w fwd slot =
      if (s.entry slot).home then (s.setStops slot (stopsOf w).1 (stopsOf w).2.1 (stopsOf w).2.2).answer i .ok
      else if (s.entry slot).pendOp ≠ 0 then s.answer i .busy
      else ((s.setStops slot (stopsOf w).1 (stopsOf w).2.1 (stopsOf w).2.2).holdReply slot i).forward (s.entry slot).homeGate fwd i (some slot) := by
  obtain ⟨im, him, hlt⟩ := hset
  unfold State.stopSetAt
  dsimp only
  rw [if_neg hstate, him]
  exact if_neg (Nat.not_le.2 hlt)

end Stops

/-- Settles O14: the packet that has passed its checks acts on the slot found, and each act is one of the equations above. -/
theorem sessionQueryAndStopSet : Obligations.SessionQueryAndStopSet := by
  unfold Obligations.SessionQueryAndStopSet
  intro m s i ps slot p e k
  rw [exec_sessionQuery_eq, exec_stopSet_eq]
  refine ⟨fun h hlen hstray hfound => congrArg _ (State.onSessionQuery_answers 0 h hlen hstray hfound),
    fun h hlen hstray hedge hfound hopening hclosing hcancelled hset => ?_⟩
  have hstate : ¬ (e.state = .opening ∨ e.state = .closing ∨ e.state = .cancelled) :=
    fun hx => hx.elim hopening (fun hx => hx.elim hclosing hcancelled)
  have hacts := (State.onStopSet_acts h hlen hstray hedge hfound).trans (State.stopSetAt_open (cmdHeader i 2 :: ps) hstate hset)
  exact ⟨fun hhome => ⟨_, congrArg _ (hacts.trans (if_pos hhome)), p.setEntry_entry_same slot _, fun n hn => p.setEntry_entry_ne _ hn⟩,
    fun hhome hpend => congrArg _ (hacts.trans ((if_neg (ne_true_of_eq_false hhome)).trans (if_neg (not_not_intro hpend))))⟩

end Sys2Proof.Machine
end

section
/-! SUPPORT. SESSION_OPEN: the preconditions, and the entry of a session whose home is here or elsewhere (R87, R99, R100, R323). -/
namespace Sys2Proof.Machine

theorem exec_sessionOpen_eq (m : Moment) (s : State) : exec (.sessionOpen m) s = .next (s.elapse m).onSessionOpen := rfl

/-! A slot allocated: its entry and its tenant's ledger alone change in the tables. -/
section Allocate
variable (s : State) (slot : Nat) (e : Entry)

theorem State.allocate_entry_same : (s.allocate slot e).entry slot = e := State.setEntry_entry_same ..
theorem State.allocate_entry_ne {n : Nat} (h : n ≠ slot) : (s.allocate slot e).entry n = s.entry n :=
  (State.setEntry_entry_ne _ e h).trans (State.setLedger_entry ..)
theorem State.allocate_ledger_same :
    (s.allocate slot e).ledger e.tenant = { s.ledger e.tenant with sessions := (s.ledger e.tenant).sessions + 1 } :=
  (State.setEntry_ledger ..).trans (State.setLedger_ledger_same ..)
theorem State.allocate_ledger_ne {k : Nat} (h : k ≠ e.tenant) : (s.allocate slot e).ledger k = s.ledger k :=
  (State.setEntry_ledger ..).trans (State.setLedger_ledger_ne _ _ h)

end Allocate

variable {s : State} {i : Issuer} {ps : List Word}

theorem State.onSessionOpen_acts (h : Starts s 0x10 i ps) (hlen : ps.length = 5) (hstray : openStray ps = false) :
    s.onSessionOpen = s.popPkt.openSession i ps := by
  rw [State.onSessionOpen, runCmd_acts h (by decide) rfl (by rw [hlen]; rfl) hstray]

/-! The preconditions, judged with the new pair in force (R451). -/
theorem State.openSession_refuses {st : Status} (h : (s.opening (OpenReq.ofWords ps)).openCheck i (OpenReq.ofWords ps) = some st) :
    s.openSession i ps = s.answer i st := by
  unfold State.openSession
  dsimp only
  rw [show (if s.ageing then _ else s) = s.opening (OpenReq.ofWords ps) from rfl, h]

theorem State.openSession_accepts (h : (s.opening (OpenReq.ofWords ps)).openCheck i (OpenReq.ofWords ps) = none) :
    s.openSession i ps = (s.opening (OpenReq.ofWords ps)).openAccepted i (OpenReq.ofWords ps) ps := by
  unfold State.openSession
  dsimp only
  rw [show (if s.ageing then _ else s) = s.opening (OpenReq.ofWords ps) from rfl, h]

/-! The two ways to accept. -/
section Accepted
variable (p : State) (i : Issuer) (q : OpenReq)

/-- The entry of a session whose home is this gate. -/
def State.hereEntry : Entry := p.newEntry q .live true true i.part (((p.entry q.slot).gen + 1) % 512) p.gate p.gate p.now

/-- The entry of a session that waits for its home. -/
def State.awayEntry : Entry :=
  { p.newEntry q .opening false true i.part (p.entry q.slot).gen q.home p.gate p.now with pendOp := i.op, pendTag := i.tag, pendSmp := i.smp }

/-- The state of a gate at which a session has opened, its home here. -/
def State.openedHere : State := (p.allocate q.slot (p.hereEntry i q)).openHome q.slot q

variable {p i q}

theorem State.openAccepted_here (h : q.homeEn = false ∨ q.home = p.gate) (ws : List Word) :
    p.openAccepted i q ws = (p.openedHere i q).reply i .ok [hdlWord ((p.openedHere i q).handle q.slot)] := by
  refine if_pos ?_
  rcases h with h | h <;> simp [h]

theorem State.openAccepted_away (hen : q.homeEn = true) (hhome : q.home ≠ p.gate) (ws : List Word) :
    p.openAccepted i q ws = (p.allocate q.slot (p.awayEntry i q)).sendTo typOpen q.home 3 (openPayload ws p.now) :=
  if_neg (by simp [hen, hhome])

/-- The tables once the home is here. -/
theorem State.openedHere_tables : (p.openedHere i q).entry q.slot = p.hereEntry i q ∧
    (p.openedHere i q).ledger q.tenant = { p.ledger q.tenant with sessions := (p.ledger q.tenant).sessions + 1 } ∧
    (∀ n, n ≠ q.slot → (p.openedHere i q).entry n = p.entry n) ∧ (∀ k, k ≠ q.tenant → (p.openedHere i q).ledger k = p.ledger k) := by
  have hkept : Framed false [.home, .mem, .img, .net] (p.allocate q.slot (p.hereEntry i q)) (p.openedHere i q) := State.openHome_framed rfl (.refl _)
  have hentry := hkept.entry_eq (by decide)
  have hledger := hkept.ledger_eq (by decide)
  exact ⟨(hentry _).trans (p.allocate_entry_same ..), (hledger _).trans (p.allocate_ledger_same q.slot (p.hereEntry i q)),
    fun n hn => (hentry n).trans (p.allocate_entry_ne _ _ hn), fun k hk => (hledger k).trans (p.allocate_ledger_ne q.slot (p.hereEntry i q) hk)⟩

/-- The tables while a home elsewhere is asked; nothing goes out to the host, and memory stays. -/
theorem State.openedAway_tables (ws : List Word) : let t := (p.allocate q.slot (p.awayEntry i q)).sendTo typOpen q.home 3 (openPayload ws p.now)
    t.entry q.slot = p.awayEntry i q ∧
    t.ledger q.tenant = { p.ledger q.tenant with sessions := (p.ledger q.tenant).sessions + 1 } ∧
    (∀ n, n ≠ q.slot → t.entry n = p.entry n) ∧ (∀ k, k ≠ q.tenant → t.ledger k = p.ledger k) ∧ t.hrpOut = p.hrpOut ∧ t.mem = p.mem := by
  intro t
  have hsent : Framed false [.net] (p.allocate q.slot (p.awayEntry i q)) t := State.sendTo_framed rfl (.refl _)
  have hkept : Framed false [.entries, .edge, .home, .slots, .ledgers, .net] p t := State.sendTo_framed rfl (State.allocate_framed rfl (.refl p))
  have hentry := hsent.entry_eq (by decide)
  have hledger := hsent.ledger_eq (by decide)
  exact ⟨(hentry _).trans (p.allocate_entry_same ..), (hledger _).trans (p.allocate_ledger_same q.slot (p.awayEntry i q)),
    fun n hn => (hentry n).trans (p.allocate_entry_ne _ _ hn), fun k hk => (hledger k).trans (p.allocate_ledger_ne q.slot (p.awayEntry i q) hk),
    (hkept.kept (f := .hrpOut) (by decide)).symm, (hkept.kept (f := .mem) (by decide)).symm⟩

end Accepted

/-- Settles O10: a precondition that fails, a home here and a home elsewhere, each one of the equations above. -/
theorem sessionOpens : Obligations.SessionOpens := by
  unfold Obligations.SessionOpens
  intro m s i ps q p0 p h hlen hstray
  rw [exec_sessionOpen_eq, State.onSessionOpen_acts h hlen hstray]
  refine ⟨fun st hst => congrArg _ (State.openSession_refuses hst), fun hnone hhere => ?_, fun hnone hen hhome => ?_⟩
  · obtain ⟨hentry, htables⟩ := State.openedHere_tables (p := p) (i := i) (q := q)
    refine ⟨p.openedHere i q, congrArg _ ((State.openSession_accepts hnone).trans (State.openAccepted_here hhere ps)), ⟨_, hentry, ?_⟩, htables⟩
    exact ⟨rfl, rfl, rfl, rfl, rfl, rfl, rfl, rfl, rfl, rfl, rfl, rfl⟩
  · obtain ⟨hentry, htables⟩ := State.openedAway_tables (p := p) (i := i) (q := q) ps
    refine ⟨_, congrArg _ ((State.openSession_accepts hnone).trans (State.openAccepted_away hen hhome ps)), ⟨_, hentry, ?_⟩, htables⟩
    exact ⟨rfl, rfl, rfl, rfl, rfl, rfl, rfl, rfl, rfl, rfl, rfl⟩

end Sys2Proof.Machine
end

section
/-! SUPPORT. A close at the home: what its steps leave of the entry and of what is kept beside it, and its three ends (R104, R105, R323, R402). -/
namespace Sys2Proof.Machine

/-! The shape of an entry after each step of a close. -/

/-- Between `a` and `b` an entry keeps its roles, the session that it is, the reply held for it and the partition that gets it. -/
structure Entry.Stays (a b : Entry) : Prop where
  home : b.home = a.home
  edge : b.edge = a.edge
  gen : b.gen = a.gen
  part : b.part = a.part
  pendOp : b.pendOp = a.pendOp
  pendTag : b.pendTag = a.pendTag
  pendSmp : b.pendSmp = a.pendSmp

theorem Entry.Stays.refl (a : Entry) : Entry.Stays a a := ⟨rfl, rfl, rfl, rfl, rfl, rfl, rfl⟩

theorem Entry.Stays.trans {a b c : Entry} (h : Entry.Stays a b) (k : Entry.Stays b c) : Entry.Stays a c :=
  ⟨k.home.trans h.home, k.edge.trans h.edge, k.gen.trans h.gen, k.part.trans h.part, k.pendOp.trans h.pendOp, k.pendTag.trans h.pendTag,
    k.pendSmp.trans h.pendSmp⟩

theorem Entry.Stays.pendIssuer {a b : Entry} (h : Entry.Stays a b) : b.pendIssuer = a.pendIssuer := by
  unfold Entry.pendIssuer
  rw [h.pendOp, h.part, h.pendTag, h.pendSmp]

theorem Entry.Stays.of_outRing {a b : Entry} (h : ∃ r, b = { a with outRing := r }) : Entry.Stays a b := by
  obtain ⟨r, rfl⟩ := h
  exact ⟨rfl, rfl, rfl, rfl, rfl, rfl, rfl⟩

section Steps
variable {z s : State} {slot : Nat}

theorem State.homeDropDrafts_stays (s : State) (slot : Nat) : Entry.Stays (s.entry slot) ((s.homeDropDrafts slot).entry slot) := by
  unfold State.homeDropDrafts
  extract_lets u e h w h1
  have hring : Entry.Stays (s.entry slot) (u.entry slot) := by
    show Entry.Stays _ ((if _ then _ else _ : State).entry slot)
    split
    · exact .of_outRing (s.endStepRing_entry slot)
    · exact .refl _
  split
  · exact hring
  · refine hring.trans ?_
    rw [State.setHome_entry, State.setEntry_entry_same]
    exact ⟨rfl, rfl, rfl, rfl, rfl, rfl, rfl⟩

/-- The replies that a home holds and its view of the stream outlast the drafts of a step. -/
theorem State.homeDropDrafts_homeAt (s : State) (slot : Nat) : ((s.homeDropDrafts slot).homeAt slot).feeds = (s.homeAt slot).feeds ∧
    ((s.homeDropDrafts slot).homeAt slot).closeFor = (s.homeAt slot).closeFor ∧
    ((s.homeDropDrafts slot).homeAt slot).streamEnded = (s.homeAt slot).streamEnded := by
  unfold State.homeDropDrafts
  extract_lets u e h w h1
  have hkept : Framed false [.entries, .mem, .img, .net, .fsp] s u := by
    show Framed _ _ s (if _ then _ else _)
    split
    · exact State.endStepRing_framed rfl (.refl s)
    · exact .refl s
  have hhome : h = s.homeAt slot := hkept.homeAt_eq (by decide) slot
  split <;>
  · rw [State.setHome_homeAt_same, ← hhome]
    exact ⟨rfl, rfl, rfl⟩

theorem Counted.homeDropDrafts (h : Counted slot z s) : Counted slot z (s.homeDropDrafts slot) := by
  unfold State.homeDropDrafts
  extract_lets u e k w h1
  have hring : Counted slot z u := .ite h.endStepRing h
  split
  · exact hring.framed (State.setHome_framed (F := [.home]) rfl (.refl u)) rfl
  · have hset : Counted slot z (u.setEntry slot { e with
        ckpt := 0, ckptValid := false, state := if e.state = .speculating then .live else e.state }) := by
      refine hring.setEntry rfl fun hs => ?_
      dsimp only
      split
      · decide
      · exact hs
    exact hset.framed (State.setHome_framed (F := [.home]) rfl (.refl _)) rfl

theorem State.freeCopy_stays (s : State) (slot : Nat) : Entry.Stays (s.entry slot) ((s.freeCopy slot).entry slot) := by
  unfold State.freeCopy
  extract_lets e s1 e1
  have hkept : Framed false [.ledgers, .net, .tier] s s1 := by
    show Framed _ _ s (if _ then _ else _)
    split
    · exact State.freeSlice_framed rfl (.refl s)
    · exact .refl s
  have hentry : e1 = e := hkept.entry_eq (by decide) slot
  rw [State.setEntry_entry_same, hentry]
  exact ⟨rfl, rfl, rfl, rfl, rfl, rfl, rfl⟩

theorem Entry.Stays.stepClosed {a b : Entry} (h : Entry.Stays a b) (st : Sess) (chains : Nat) : Entry.Stays a { b with chains := chains, state := st } :=
  ⟨h.home, h.edge, h.gen, h.part, h.pendOp, h.pendTag, h.pendSmp⟩

theorem Entry.Stays.inState {a b : Entry} (h : Entry.Stays a b) (st : Sess) : Entry.Stays a { b with state := st } :=
  ⟨h.home, h.edge, h.gen, h.part, h.pendOp, h.pendTag, h.pendSmp⟩

theorem Entry.Stays.draftRejected {a b : Entry} (h : Entry.Stays a b) (n : Nat) : Entry.Stays a { b with draftRejected := n } :=
  ⟨h.home, h.edge, h.gen, h.part, h.pendOp, h.pendTag, h.pendSmp⟩

theorem State.closeStep_stays (s : State) (slot : Nat) : Entry.Stays (s.entry slot) ((s.closeStep slot).entry slot) := by
  unfold State.closeStep
  dsimp only
  rw [State.setEdge_entry, State.setEntry_entry_same]
  exact (Entry.Stays.of_outRing (s.endStepRing_entry slot)).stepClosed ..

theorem State.rejectDrafts_stays (s : State) (slot : Nat) : Entry.Stays (s.entry slot) ((s.rejectDrafts slot).entry slot) := by
  unfold State.rejectDrafts
  dsimp only
  split
  · unfold State.countRejected
    rw [State.setEntry_entry_same]
    exact (s.closeStep_stays slot).draftRejected _
  · exact .refl _

end Steps

/-! The close begun: the entry CLOSING, its drafts and its parked copy gone, the other gates told. -/

/-- The entry CLOSING, the other gates told. -/
def State.closeTold (s : State) (slot : Nat) : State :=
  let t := ((s.homeDropDrafts slot).freeCopy slot).bcast typClose 3 [hdlWord (s.handle slot)]
  t.setEntry slot { t.entry slot with state := .closing }

/-- In `t` the session of a slot closes as `s` had it: the entry CLOSING but otherwise the same session, with its turn and the replies held for it;
the other entries, the count of sessions and the words sent stay. -/
structure Closes (slot : Nat) (s t : State) : Prop where
  stays : Entry.Stays (s.entry slot) (t.entry slot)
  closing : (t.entry slot).state = .closing
  others : ∀ n, n ≠ slot → t.entry n = s.entry n
  counted : Counted slot s t
  replies : (t.homeAt slot).feeds = (s.homeAt slot).feeds ∧ (t.homeAt slot).closeFor = (s.homeAt slot).closeFor
  turn : (t.edgeAt slot).turnOpen = (s.edgeAt slot).turnOpen ∧ (t.edgeAt slot).held = (s.edgeAt slot).held ∧ (t.edgeAt slot).tIn = (s.edgeAt slot).tIn
  hrpOut : t.hrpOut = s.hrpOut

section Told
variable (s : State) (slot : Nat)

/-- The entry before it turns CLOSING: only its own entry, its step and its copy have changed. -/
theorem State.dropCopy_framed : Framed false [.entries, .home, .ledgers, .mem, .img, .net, .fsp, .tier] s ((s.homeDropDrafts slot).freeCopy slot) :=
  State.freeCopy_framed rfl (State.homeDropDrafts_framed rfl (.refl s))

theorem State.dropCopy_stays : Entry.Stays (s.entry slot) (((s.homeDropDrafts slot).freeCopy slot).entry slot) :=
  (s.homeDropDrafts_stays slot).trans ((s.homeDropDrafts slot).freeCopy_stays slot)

theorem State.closeTold_framed : Framed false [.entries, .home, .ledgers, .mem, .img, .net, .fsp, .tier] s (s.closeTold slot) :=
  State.setEntry_framed rfl (State.bcast_framed rfl (s.dropCopy_framed slot))

theorem State.closeTold_homeAt : (s.closeTold slot).homeAt slot = (s.homeDropDrafts slot).homeAt slot := by
  have hkept : Framed false [.entries, .ledgers, .net, .tier] (s.homeDropDrafts slot) (s.closeTold slot) :=
    State.setEntry_framed rfl (State.bcast_framed rfl (State.freeCopy_framed rfl (.refl _)))
  exact hkept.homeAt_eq (by decide) slot

theorem State.closeTold_entry (n : Nat) : (s.closeTold slot).entry n =
    if n = slot then { ((s.homeDropDrafts slot).freeCopy slot).entry slot with state := .closing } else ((s.homeDropDrafts slot).freeCopy slot).entry n := by
  unfold State.closeTold
  dsimp only
  have htold : Framed false [.net] ((s.homeDropDrafts slot).freeCopy slot) (((s.homeDropDrafts slot).freeCopy slot).bcast typClose 3
      [hdlWord (s.handle slot)]) := State.bcast_framed rfl (.refl _)
  rw [State.setEntry_entry, htold.entry_eq (by decide), htold.entry_eq (by decide)]

theorem State.closeTold_closes : Closes slot s (s.closeTold slot) := by
  have hkept := s.closeTold_framed slot
  have honly : OnlySlot slot s ((s.homeDropDrafts slot).freeCopy slot) := OnlySlot.refl.homeDropDrafts.freeCopy
  have hentry : (s.closeTold slot).entry slot = _ := (s.closeTold_entry slot slot).trans (if_pos rfl)
  obtain ⟨hfeeds, hfor, -⟩ := s.homeDropDrafts_homeAt slot
  rw [← s.closeTold_homeAt slot] at hfeeds hfor
  refine ⟨?_, ?_, fun n hn => ?_, ?_, ⟨hfeeds, hfor⟩, ?_, (hkept.kept (f := .hrpOut) (by decide)).symm⟩
  · rw [hentry]
    exact (s.dropCopy_stays slot).inState _
  · rw [hentry]
  · exact ((s.closeTold_entry slot n).trans (if_neg hn)).trans (honly.others n hn)
  · have hcopy : Counted slot s ((s.homeDropDrafts slot).freeCopy slot) := (Counted.refl s).homeDropDrafts.freeCopy
    exact (hcopy.framed (State.bcast_framed (F := [.net]) rfl (.refl _)) rfl).setEntry rfl fun _ => (by decide : Sess.closing ≠ .free)
  · rw [hkept.edgeAt_eq (by decide)]
    exact ⟨rfl, rfl, rfl⟩

/-- A session begins to close: at its edge the stream ends, elsewhere the home waits for the end of the stream. -/
theorem State.startClose_eq (r : Stop) : s.startClose slot r =
    if (s.entry slot).edge then (s.closeTold slot).edgeClose slot r
    else if (s.homeAt slot).streamEnded then (s.closeTold slot).closeDone slot else s.closeTold slot := by
  have htold : Framed false [.net] ((s.homeDropDrafts slot).freeCopy slot) (((s.homeDropDrafts slot).freeCopy slot).bcast typClose 3
      [hdlWord (s.handle slot)]) := State.bcast_framed rfl (.refl _)
  have hedge := (congrArg Entry.edge (htold.entry_eq (by decide) slot)).trans (s.dropCopy_stays slot).edge
  have hended := (congrArg HomeAux.streamEnded (s.closeTold_homeAt slot)).trans (s.homeDropDrafts_homeAt slot).2.2
  rw [← hedge, ← hended]
  unfold State.startClose State.closeTold
  dsimp only

end Told

namespace Closes
variable {slot : Nat} {s t : State}

theorem rejectDrafts (h : Closes slot s t) : Closes slot s (t.rejectDrafts slot) := by
  have hkept : Framed false [.entries, .edge, .mem, .img, .net, .fsp] t (t.rejectDrafts slot) := State.rejectDrafts_framed rfl (.refl t)
  have honly : OnlySlot slot t (t.rejectDrafts slot) := OnlySlot.refl.rejectDrafts
  obtain ⟨hturn, hheld, hin⟩ := t.rejectDrafts_turn slot
  obtain ⟨hturn', hheld', hin'⟩ := h.turn
  exact ⟨h.stays.trans (t.rejectDrafts_stays slot), State.rejectDrafts_closing h.closing, fun n hn => (honly.others n hn).trans (h.others n hn),
    h.counted.rejectDrafts, by rw [hkept.homeAt_eq (by decide)]; exact h.replies, ⟨hturn.trans hturn', hheld.trans hheld', hin.trans hin'⟩,
    (hkept.kept (f := .hrpOut) (by decide)).symm.trans h.hrpOut⟩

theorem dropOps (h : Closes slot s t) : Closes slot s (t.dropOps slot) := by
  have hkept : Framed false [.ledgers, .mem, .img, .net, .fsp, .tier] t (t.dropOps slot) := State.dropOps_framed rfl (.refl t)
  have hentry := hkept.entry_eq (by decide)
  exact ⟨by rw [hentry]; exact h.stays, by rw [hentry]; exact h.closing, fun n hn => (hentry n).trans (h.others n hn), h.counted.dropOps,
    by rw [hkept.homeAt_eq (by decide)]; exact h.replies, by rw [hkept.edgeAt_eq (by decide)]; exact h.turn,
    (hkept.kept (f := .hrpOut) (by decide)).symm.trans h.hrpOut⟩

end Closes

/-! The close ended: the entry FREE (R87, R105, R323). -/

/-- The session of a slot freed between `s` and `t`: GEN stays, its tenant counts one session less, nothing is kept beside the entry; the other
entries and the words sent stay. -/
structure Freed (slot : Nat) (s t : State) : Prop where
  entry : t.entry slot = { Entry.zero with gen := (s.entry slot).gen }
  sessions : (t.ledger (s.entry slot).tenant).sessions = (s.ledger (s.entry slot).tenant).sessions - 1
  edgeAt : t.edgeAt slot = EdgeAux.zero
  homeAt : t.homeAt slot = HomeAux.zero
  others : ∀ n, n ≠ slot → t.entry n = s.entry n
  hrpOut : t.hrpOut = s.hrpOut

/-- What goes out for a session closed whose entry held the reply of a command, if it held one. -/
def Entry.closeReply (e : Entry) (s : State) : State :=
  if e.pendOp = 0 then s else s.answer e.pendIssuer (if e.pendOp = 0x12 then .ok else .noSession)

theorem State.freeEntry_aux (s : State) (slot : Nat) : (s.freeEntry slot).edgeAt slot = EdgeAux.zero ∧ (s.freeEntry slot).homeAt slot = HomeAux.zero := by
  unfold State.freeEntry
  dsimp only
  rw [State.setSlot_edgeAt, State.setSlot_homeAt, State.setHome_homeAt_same, State.setHome_edgeAt, State.setEdge_edgeAt_same]
  exact ⟨rfl, rfl⟩

section Ends
variable {slot : Nat} {s t : State} (hopen : (s.entry slot).state ≠ .free)
include hopen

theorem Closes.freeEntry (h : Closes slot s t) : Freed slot s (t.freeEntry slot) := by
  have hkept : Framed false [.entries, .edge, .home, .slots, .ledgers, .net] t (t.freeEntry slot) := State.freeEntry_framed rfl (.refl t)
  obtain ⟨hentry, hsessions, hothers⟩ := h.counted.freeEntry h.stays.gen h.others hopen
  obtain ⟨hedge, hhome⟩ := t.freeEntry_aux slot
  exact ⟨hentry, hsessions, hedge, hhome, hothers, (hkept.kept (f := .hrpOut) (by decide)).symm.trans h.hrpOut⟩

/-- A close that no other command waits for. -/
theorem Closes.closeDone (h : Closes slot s t) (hfeeds : (s.homeAt slot).feeds = []) (hfor : (s.homeAt slot).closeFor = none) :
    ∃ u, Freed slot s u ∧ t.closeDone slot = (s.entry slot).closeReply u := by
  have hdrop := h.dropOps
  refine ⟨_, hdrop.freeEntry hopen, ?_⟩
  unfold State.closeDone Entry.closeReply
  dsimp only
  rw [hdrop.replies.1, hfeeds, hdrop.replies.2, hfor, hdrop.stays.pendIssuer, hdrop.stays.pendOp]
  rfl

variable (r : Stop) (hedge : (s.entry slot).edge = true)

include hedge in
/-- At a home that is the edge too, with no turn open, the entry becomes FREE at once. -/
theorem State.startClose_frees (hhome : (s.entry slot).home = true) (hturn : (s.edgeAt slot).turnOpen = false)
    (hfeeds : (s.homeAt slot).feeds = []) (hfor : (s.homeAt slot).closeFor = none) :
    ∃ u, Freed slot s u ∧ s.startClose slot r = (s.entry slot).closeReply u := by
  have hrej := (s.closeTold_closes slot).rejectDrafts
  obtain ⟨u, hfreed, hdone⟩ := hrej.closeDone hopen hfeeds hfor
  refine ⟨u, hfreed, ?_⟩
  rw [s.startClose_eq, if_pos hedge, ← hdone]
  unfold State.edgeClose
  dsimp only
  rw [hrej.turn.1, hturn, hrej.stays.home, hhome]
  rfl

end Ends

section Waits
variable {slot : Nat} {s : State} (r : Stop)

/-- With tokens held whose instants stand, the stream ends behind the last of them. -/
theorem State.startClose_waits {k : HeldTok} {at' : Nat} (hedge : (s.entry slot).edge = true) (hturn : (s.edgeAt slot).turnOpen = true)
    (hlast : (s.edgeAt slot).held.getLast? = some k) (hin : (s.edgeAt slot).tIn = some at') :
    Closes slot s (s.startClose slot r) ∧ ((s.startClose slot r).edgeAt slot).stopPending = some (r, k.release) := by
  have htold := s.closeTold_closes slot
  obtain ⟨hturn', hheld', hin'⟩ := htold.turn
  have hrej := htold.rejectDrafts
  rw [s.startClose_eq, if_pos hedge, State.edgeClose_waits (k := k) (at' := at') r (hturn'.trans hturn) (hheld' ▸ hlast) (hin'.trans hin)]
  generalize (s.closeTold slot).rejectDrafts slot = u at hrej
  refine ⟨⟨hrej.stays, hrej.closing, hrej.others, hrej.counted.framed (State.setEdge_framed (F := [.edge]) rfl (.refl u)) rfl, hrej.replies, ?_,
    hrej.hrpOut⟩, congrArg EdgeAux.stopPending (State.setEdge_edgeAt_same ..)⟩
  rw [State.setEdge_edgeAt_same]
  exact hrej.turn

/-- At a home whose edge is another gate, the entry waits for the end of the stream. -/
theorem State.startClose_away (hedge : (s.entry slot).edge = false) (hended : (s.homeAt slot).streamEnded = false) :
    Closes slot s (s.startClose slot r) := by
  rw [s.startClose_eq, if_neg (ne_true_of_eq_false hedge), if_neg (ne_true_of_eq_false hended)]
  exact s.closeTold_closes slot

end Waits

end Sys2Proof.Machine
end

section
/-! SUPPORT. SESSION_CLOSE and SESSION_CANCEL of a session that is found (R97, R105, R107, R402). -/
namespace Sys2Proof.Machine

theorem exec_sessionClose_eq (m : Moment) (s : State) : exec (.sessionClose m) s = .next (s.elapse m).onSessionClose := rfl
theorem exec_sessionCancel_eq (m : Moment) (s : State) : exec (.sessionCancel m) s = .next (s.elapse m).onSessionCancel := rfl

/-! A reply held with an entry (R357). -/
section Held
variable {s : State} {i : Issuer} {slot : Nat}

/-- The entry once it holds the reply to a command. -/
def Entry.holding (e : Entry) (i : Issuer) : Entry := { e with pendOp := i.op, pendTag := i.tag, pendSmp := i.smp }

theorem State.holdReply_eq (h : i.src = none) : s.holdReply slot i = s.setEntry slot ((s.entry slot).holding i) := by
  unfold State.holdReply
  rw [h]
  rfl

/-- The reply that it holds goes to who issued the command, in the session's own partition. -/
theorem Entry.holding_pendIssuer {e : Entry} (hpart : e.part = i.part) (hsrc : i.src = none) : (e.holding i).pendIssuer = i := by
  unfold Entry.pendIssuer Entry.holding
  rw [hpart, ← hsrc]

end Held

/-! SESSION_CLOSE. -/
section Close
variable {s : State} {i : Issuer} {w : Word} {slot : Nat}

theorem State.onSessionClose_acts (h : Starts s 0x12 i [w]) (hstray : stray w [(63, 32)] = false) (hgate : (s.popPkt.hasEdge || s.popPkt.hasHome) = true)
    (hfound : FindsSession s.popPkt i [w] (fun e => e.edge || e.home) slot) :
    s.onSessionClose = if (s.popPkt.entry slot).home then s.popPkt.closeHome i slot else s.popPkt.closeEdge i [cmdHeader i 1, w] slot := by
  rw [State.onSessionClose, runCmd_acts h (by decide) rfl rfl hstray]
  exact hfound.acts hgate

/-- The home begins the close of a LIVE or WINTERED session that holds no reply, and holds this command's. -/
theorem State.closeHome_begins (hstate : (s.entry slot).state = .live ∨ (s.entry slot).state = .wintered) (hpend : (s.entry slot).pendOp = 0)
    (hsrc : i.src = none) : s.closeHome i slot = (s.setEntry slot ((s.entry slot).holding i)).startClose slot .closed := by
  rw [← State.holdReply_eq hsrc]
  unfold State.closeHome
  dsimp only
  rcases hstate with h | h <;>
  · rw [h, hsrc, hpend]
    rfl

theorem State.closeHome_ending (hstate : (s.entry slot).state = .closing ∨ (s.entry slot).state = .cancelled) :
    s.closeHome i slot = s.answer i .noSession := by
  unfold State.closeHome
  dsimp only
  rcases hstate with h | h <;> rw [h]

theorem State.closeEdge_forwards (ws : List Word) (hstate : (s.entry slot).state = .live ∨ (s.entry slot).state = .wintering ∨
      (s.entry slot).state = .wintered ∨ (s.entry slot).state = .springing) (hpend : (s.entry slot).pendOp = 0) :
    s.closeEdge i ws slot = (s.holdReply slot i).forward (s.entry slot).homeGate ws i (some slot) := by
  unfold State.closeEdge
  dsimp only
  rcases hstate with h | h | h | h <;>
  · rw [h, hpend]
    rfl

theorem State.closeEdge_ending (ws : List Word) (hstate : (s.entry slot).state = .closing ∨ (s.entry slot).state = .cancelled) :
    s.closeEdge i ws slot = s.answer i .noSession := if_pos hstate

variable (hsrc : i.src = none) (hop : i.op = 0x12) (hpart : (s.entry slot).part = i.part)
include hsrc hop hpart

/-- A home that is the edge too, with no turn open, frees the entry and answers OK. -/
theorem State.closeHome_frees (hhome : (s.entry slot).home = true) (hedge : (s.entry slot).edge = true)
    (hstate : (s.entry slot).state = .live ∨ (s.entry slot).state = .wintered) (hpend : (s.entry slot).pendOp = 0)
    (hturn : (s.edgeAt slot).turnOpen = false) (hfeeds : (s.homeAt slot).feeds = []) (hfor : (s.homeAt slot).closeFor = none) :
    ∃ t, Freed slot s t ∧ s.closeHome i slot = t.answer i .ok := by
  have hheld : (s.setEntry slot ((s.entry slot).holding i)).entry slot = (s.entry slot).holding i := State.setEntry_entry_same ..
  have hopen : ((s.entry slot).holding i).state ≠ .free := by
    rcases hstate with h | h <;> exact fun hx => nomatch h.symm.trans hx
  obtain ⟨t, hfreed, hreply⟩ := State.startClose_frees (s := s.setEntry slot ((s.entry slot).holding i)) (slot := slot) (by rw [hheld]; exact hopen) .closed
    (by rw [hheld]; exact hedge) (by rw [hheld]; exact hhome) (by rw [State.setEntry_edgeAt]; exact hturn) (by rw [State.setEntry_homeAt]; exact hfeeds)
    (by rw [State.setEntry_homeAt]; exact hfor)
  refine ⟨t, ⟨?_, ?_, hfreed.edgeAt, hfreed.homeAt, fun n hn => ?_, ?_⟩, ?_⟩
  · exact hfreed.entry.trans (by rw [hheld]; rfl)
  · have hsessions := hfreed.sessions
    rwa [hheld, State.setEntry_ledger] at hsessions
  · exact (hfreed.others n hn).trans (State.setEntry_entry_ne s _ hn)
  · exact hfreed.hrpOut.trans (State.setEntry_hrpOut ..)
  · rw [State.closeHome_begins hstate hpend hsrc, hreply, hheld]
    unfold Entry.closeReply
    rw [Entry.holding_pendIssuer hpart hsrc, show ((s.entry slot).holding i).pendOp = 0x12 from hop]
    rfl

omit hsrc hpart in
/-- A close that waits for the end of its stream holds the command's reply. -/
theorem Closes.holds {t : State} (h : Closes slot (s.setEntry slot ((s.entry slot).holding i)) t) : (t.entry slot).state = .closing ∧
    (t.entry slot).pendOp = 0x12 ∧ (t.entry slot).pendTag = i.tag ∧ (t.edgeAt slot).held = (s.edgeAt slot).held ∧
    (∀ n, n ≠ slot → t.entry n = s.entry n) ∧ t.hrpOut = s.hrpOut := by
  have hheld : (s.setEntry slot ((s.entry slot).holding i)).entry slot = (s.entry slot).holding i := State.setEntry_entry_same ..
  have hstays := h.stays
  rw [hheld] at hstays
  exact ⟨h.closing, hstays.pendOp.trans hop, hstays.pendTag, h.turn.2.1.trans (congrArg EdgeAux.held (State.setEntry_edgeAt ..)),
    fun n hn => (h.others n hn).trans (State.setEntry_entry_ne s _ hn), h.hrpOut.trans (State.setEntry_hrpOut ..)⟩

end Close

/-! SESSION_CANCEL. -/
section Cancel
variable {s : State} {i : Issuer} {w : Word} {slot : Nat}

theorem State.onSessionCancel_acts (h : Starts s 0x13 i [w]) (hstray : stray w [(63, 32)] = false)
    (hfound : FindsSession s.popPkt i [w] (fun _ => true) slot) : s.onSessionCancel =
      if (s.popPkt.entry slot).state = .cancelled then s.popPkt.answer i .noSession else (s.popPkt.cancelAll slot .host).answer i .ok := by
  rw [State.onSessionCancel, runCmd_acts h (by decide) rfl rfl hstray]
  exact hfound.acts rfl

/-- A cancel takes effect here, and the other gates are told from the home, or the home is. -/
theorem State.cancelAll_tells (c : Cancel) (hopen : (s.entry slot).state ≠ .free) (hcancelled : (s.entry slot).state ≠ .cancelled) :
    s.cancelAll slot c = if (s.entry slot).home then (s.cancelLocal slot c).bcast typCancel 3 (cancelPayload (s.handle slot) c)
      else (s.cancelLocal slot c).sendTo typCancel (s.entry slot).homeGate 3 (cancelPayload (s.handle slot) c) :=
  if_neg (fun h => h.elim hopen hcancelled)

end Cancel

/-- Settles O13: who closes and in what state the session is tells the equation; a cancel is the shared operation. -/
theorem sessionEnds : Obligations.SessionEnds := by
  unfold Obligations.SessionEnds
  refine ⟨?close, ?cancel⟩
  case close =>
    intro m s i w slot p e x h hstray hgate hfound
    rw [exec_sessionClose_eq, State.onSessionClose_acts h hstray hgate hfound]
    have hsrc := h.src
    have hop := h.opcode
    obtain ⟨hopen, hrole, hpart⟩ := hfound.entry
    refine ⟨fun hhome hedge hstate hpend hturn hfeeds hfor => ?_, fun k at' hhome hedge hlive hpend hturn hlast hin => ?_,
      fun hhome hedge hstate hpend hended => ?_, fun hhome hstate hpend => ?_, fun hstate => ?_⟩
    · obtain ⟨t, hfreed, ht⟩ := State.closeHome_frees hsrc hop hpart hhome hedge hstate hpend hturn hfeeds hfor
      exact ⟨t, congrArg _ ((if_pos hhome).trans ht), hfreed.entry, hfreed.sessions, hfreed.edgeAt, hfreed.homeAt, hfreed.others, hfreed.hrpOut⟩
    · obtain ⟨hcloses, hstop⟩ := State.startClose_waits (s := p.setEntry slot (e.holding i)) (slot := slot) (k := k) (at' := at') .closed
        (by rw [State.setEntry_entry_same]; exact hedge) (by rw [State.setEntry_edgeAt]; exact hturn) (by rw [State.setEntry_edgeAt]; exact hlast)
        (by rw [State.setEntry_edgeAt]; exact hin)
      obtain ⟨hclosing, hpendOp, hpendTag, hheld, hothers, hout⟩ := hcloses.holds hop
      exact ⟨_, congrArg _ ((if_pos hhome).trans (State.closeHome_begins (.inl hlive) hpend hsrc)), hclosing, hpendOp, hpendTag, hstop, hheld, hothers, hout⟩
    · have hcloses := State.startClose_away (s := p.setEntry slot (e.holding i)) (slot := slot) .closed
        (by rw [State.setEntry_entry_same]; exact hedge) (by rw [State.setEntry_homeAt]; exact hended)
      obtain ⟨hclosing, hpendOp, hpendTag, -, hothers, hout⟩ := hcloses.holds hop
      exact ⟨_, congrArg _ ((if_pos hhome).trans (State.closeHome_begins hstate hpend hsrc)), hclosing, hpendOp, hpendTag, hothers, hout⟩
    · exact congrArg _ ((if_neg (ne_true_of_eq_false hhome)).trans (State.closeEdge_forwards _ hstate hpend))
    · refine congrArg _ ?_
      split
      · exact State.closeHome_ending hstate
      · exact State.closeEdge_ending _ hstate
  case cancel =>
    intro m s i w slot p e h hstray hfound
    rw [exec_sessionCancel_eq, State.onSessionCancel_acts h hstray hfound]
    obtain ⟨hopen, -, -⟩ := hfound.entry
    refine ⟨fun hcancelled => ?_, fun hcancelled => congrArg _ (if_pos hcancelled)⟩
    have hcancels := State.cancelLocal_cancels (s := p) slot .host hopen hcancelled
    have hkept : Framed false [.entries, .edge, .home, .slots, .ledgers, .parts, .ints, .cmi, .mem, .img, .net, .fsp, .tier, .hrpOut] p
        (p.cancelLocal slot .host) := State.cancelLocal_framed rfl (.refl p)
    refine ⟨p.cancelLocal slot .host, congrArg _ ((if_neg hcancelled).trans (congrArg (·.answer i .ok) (State.cancelAll_tells .host hopen hcancelled))),
      hcancels.state, hcancels.reason, hcancels.gen, hcancels.working.1, hcancels.working.2, hcancels.tick, hcancels.others,
      (hkept.kept (f := .rs) (by decide)).symm, (hkept.kept (f := .tm) (by decide)).symm⟩

end Sys2Proof.Machine
end

section
/-! SUPPORT. What falls due by time in the session table: deadlines, parked copies, CANCELLED entries, opens and forwarded commands (R96, R100, R104,
R109, R309, R358). -/
namespace Sys2Proof.Machine

theorem exec_deadlineReached_eq (m : Moment) (slot : Nat) (s : State) : exec (.deadlineReached m slot) s = .next ((s.elapse m).onDeadlineReached slot) := rfl
theorem exec_ttlExpiry_eq (m : Moment) (s : State) : exec (.ttlExpiry m) s = .next (s.elapse m).onTtlExpiry := rfl
theorem exec_cancelledFree_eq (m : Moment) (slot : Nat) (s : State) : exec (.cancelledFree m slot) s = .next ((s.elapse m).onCancelledFree slot) := rfl
theorem exec_openTimeout_eq (m : Moment) (slot : Nat) (s : State) : exec (.openTimeout m slot) s = .next ((s.elapse m).onOpenTimeout slot) := rfl
theorem exec_forwardTimeout_eq (m : Moment) (s : State) : exec (.forwardTimeout m) s = .next (s.elapse m).onForwardTimeout := rfl

/-! Outside a reset each row is the event of the present tick. -/
section Rows
variable {s : State} (h : s.inReset = false)
include h

theorem State.onDeadlineReached_acts (slot : Nat) : s.onDeadlineReached slot = s.deadlineAct s.tick slot := if_neg (ne_true_of_eq_false h)
theorem State.onTtlExpiry_acts : s.onTtlExpiry = s.sweep s.tick := if_neg (ne_true_of_eq_false h)
theorem State.onCancelledFree_acts (slot : Nat) : s.onCancelledFree slot = s.cancelledFree s.tick slot := if_neg (ne_true_of_eq_false h)
theorem State.onOpenTimeout_acts (slot : Nat) : s.onOpenTimeout slot = s.openTimeout s.tick slot := if_neg (ne_true_of_eq_false h)
theorem State.onForwardTimeout_acts : s.onForwardTimeout = s.forwardTimeouts s.tick := if_neg (ne_true_of_eq_false h)

end Rows

section Events
variable {s : State} {slot k : Nat}

/-! A deadline (R104). -/
theorem State.deadlineAct_closes (hhome : (s.entry slot).home = true) (hstate : (s.entry slot).state = .live ∨ (s.entry slot).state = .wintered)
    (hpast : (s.entry slot).deadlinePast k = true) : s.deadlineAct k slot = s.startClose slot .deadline := by
  refine if_pos ?_
  rcases hstate with h | h <;> simp [h, hhome, hpast]

theorem State.deadlineAct_early (hpast : (s.entry slot).deadlinePast k = false) : s.deadlineAct k slot = s := if_neg (by simp [hpast])

/-! The sweep of parked copies and of the directory (R96, R309). -/
theorem State.sweepSlot_early (h : (s.entry slot).parked = true → k < (s.entry slot).expiry) : s.sweepSlot k slot = s := by
  refine if_neg fun hdue => ?_
  obtain ⟨hparked, hexpired⟩ := Bool.and_eq_true_iff.1 hdue
  exact Nat.not_le.2 (h hparked) (of_decide_eq_true hexpired)

/-- While nothing has expired the sweep changes nothing. -/
theorem State.sweep_early (hcopies : ∀ n, (s.entry n).parked = true → k < (s.entry n).expiry) (hdir : ∀ d ∈ s.tier.dir, k < d.2.expiry) :
    s.sweep k = s := by
  have hslots : ∀ l : List Nat, l.foldl (fun s n => s.sweepSlot k n) s = s := fun l => by
    induction l with
    | nil => rfl
    | cons n l ih => rw [List.foldl_cons, State.sweepSlot_early (hcopies n), ih]
  have hnone : s.tier.dir.filter (fun c => decide (c.2.expiry ≤ k)) = [] :=
    List.filter_eq_nil_iff.2 fun d hd => by simpa using hdir d hd
  unfold State.sweep
  dsimp only
  rw [hslots, hnone]
  exact ite_self s

theorem State.sweepSlot_wintered (hparked : (s.entry slot).parked = true) (hexpired : (s.entry slot).expiry ≤ k)
    (hstate : (s.entry slot).state = .wintered) : s.sweepSlot k slot = s.cancelAll slot .ttl := by
  unfold State.sweepSlot
  dsimp only
  rw [hparked, decide_eq_true hexpired]
  exact if_pos hstate

/-- An expired copy of the table's one session cancels it, whatever of the directory expires with it. -/
theorem State.sweep_cancels {e : Entry} (hentries : s.entries = [(slot, e)]) (hparked : (s.entry slot).parked = true)
    (hexpired : (s.entry slot).expiry ≤ s.tick) (hstate : (s.entry slot).state = .wintered) : Cancels s (s.sweep s.tick) slot .ttl := by
  have hcancels := State.cancelAll_cancels (s := s) slot .ttl (by rw [hstate]; decide) (by rw [hstate]; decide)
  have hsweep : s.sweep s.tick = (if (s.cancelAll slot .ttl).tierOn then
      ((s.cancelAll slot .ttl).tier.dir.filter (fun c => decide (c.2.expiry ≤ s.tick))).foldl (fun s c => s.dirExpire c.1 c.2) (s.cancelAll slot .ttl)
      else s.cancelAll slot .ttl) := by
    rw [← State.sweepSlot_wintered hparked hexpired hstate]
    unfold State.sweep
    rw [hentries]
    rfl
  rw [hsweep]
  split
  · have hkept : Framed false [.ledgers, .mem, .img, .net, .tier] (s.cancelAll slot .ttl)
        (((s.cancelAll slot .ttl).tier.dir.filter (fun c => decide (c.2.expiry ≤ s.tick))).foldl (fun s c => s.dirExpire c.1 c.2) (s.cancelAll slot .ttl)) :=
      Framed.foldl (fun _ _ h => State.dirExpire_framed rfl h) (.refl _)
    exact hcancels.followed hkept (by decide) ((hkept.homeAt_eq (by decide) slot).trans hcancels.working.2)
  · exact hcancels

/-! CANCELLED and OPENING entries (R100, R109). -/
theorem State.freeEntry_ledger (h : (s.entry slot).state ≠ .free) : (s.freeEntry slot).ledger (s.entry slot).tenant =
    { s.ledger (s.entry slot).tenant with sessions := (s.ledger (s.entry slot).tenant).sessions - 1 } := by
  unfold State.freeEntry
  dsimp only
  rw [if_neg h, State.setSlot_ledger, State.setHome_ledger, State.setEdge_ledger, State.setEntry_ledger, State.setLedger_ledger_same]

theorem State.openTimeout_due (hstate : (s.entry slot).state = .opening) (hdue : (s.slotAt slot).openedAt + 2 ^ 20 ≤ k * 2 ^ 20) :
    s.openTimeout k slot = (s.endPend slot .timeout).freeEntry slot := if_pos ⟨hstate, hdue⟩

/-- An open over SMP without an answer: the entry is freed and TIMEOUT goes out. -/
theorem State.openTimeout_frees (hstate : (s.entry slot).state = .opening) (hdue : (s.slotAt slot).openedAt + 2 ^ 20 ≤ k * 2 ^ 20)
    (hpend : (s.entry slot).pendOp ≠ 0) (hsmp : (s.entry slot).pendIssuer.smp = true) : let t := s.openTimeout k slot
    t.entry slot = { Entry.zero with gen := (s.entry slot).gen } ∧ (∀ n, n ≠ slot → t.entry n = s.entry n) ∧
      (t.ledger (s.entry slot).tenant).sessions = (s.ledger (s.entry slot).tenant).sessions - 1 ∧
      t.cmi.smpReply = s.cmi.smpReply ++ replyWords (s.entry slot).pendIssuer .timeout [] := by
  intro t
  have ht : t = (s.endPend slot .timeout).freeEntry slot := State.openTimeout_due hstate hdue
  have honly : OnlySlot slot s (s.endPend slot .timeout) := OnlySlot.refl.endPendWith .timeout []
  obtain ⟨hentry, hsessions, hothers⟩ := (Counted.refl s).endPend (st := .timeout) |>.freeEntry honly.kept.gen honly.others (by rw [hstate]; decide)
  have hfree : Framed false [.entries, .edge, .home, .slots, .ledgers, .net] (s.endPend slot .timeout) t := ht ▸ State.freeEntry_framed rfl (.refl _)
  rw [← ht] at hentry hsessions hothers
  refine ⟨hentry, hothers, hsessions, ?_⟩
  rw [show t.cmi = _ from (hfree.kept (f := .cmi) (by decide)).symm,
    show s.endPend slot .timeout = (s.replyTaken slot).reply (s.entry slot).pendIssuer .timeout [] from State.endPendWith_replies .timeout [] hpend,
    State.reply_smp rfl hsmp]
  show (s.setEntry slot _).cmi.smpReply ++ _ = _
  rw [State.setEntry_cmi]

/-! Forwarded commands (R358). -/
theorem State.forwardTimeouts_none (hfwds : s.cmi.fwds = []) : s.forwardTimeouts k = s := by
  unfold State.forwardTimeouts
  rw [hfwds]
  rfl

theorem State.forwardTimeouts_one {f : Fwd} (hfwds : s.cmi.fwds = [f]) :
    s.forwardTimeouts k = if f.since + 2 ^ 20 ≤ k * 2 ^ 20 then s.endForward f .timeout [] else s := by
  unfold State.forwardTimeouts
  simp only [hfwds, List.filter_cons, List.filter_nil, decide_eq_true_eq]
  split <;> rfl

theorem State.fwdEnded_one {f : Fwd} (hfwds : s.cmi.fwds = [f]) : s.fwdEnded f = { s with cmi := { s.cmi with fwds := [] } } := by
  unfold State.fwdEnded
  rw [hfwds, List.filter_cons_of_neg (by simp)]
  rfl

/-- The reply of a command that belongs to no session goes out itself. -/
theorem State.endForward_unheld {f : Fwd} (hslot : f.slot = none) :
    s.endForward f .timeout [] = (s.fwdEnded f).answer f.issuer .timeout := by
  unfold State.endForward
  dsimp only
  rw [hslot]
  exact if_neg fun h => nomatch h.2

/-- A command whose reply an entry holds ends that reply. -/
theorem State.endForward_timeout {f : Fwd} (hslot : f.slot = some slot) (hissuer : (s.entry slot).pendIssuer = f.issuer) (hfeed : f.issuer.op ≠ 0x11) :
    s.endForward f .timeout [] = (s.fwdEnded f).endPendWith slot .timeout [] := by
  unfold State.endForward
  dsimp only
  rw [hslot, if_neg fun h => nomatch h.2]
  exact (if_pos hissuer).trans (congrArg (fun t : State => t.endPendWith slot .timeout []) (if_neg hfeed))

theorem State.forwardTimeouts_held {f : Fwd} (hfwds : s.cmi.fwds = [f]) (hslot : f.slot = some slot) (hissuer : (s.entry slot).pendIssuer = f.issuer)
    (hpend : (s.entry slot).pendOp ≠ 0) (hfeed : f.issuer.op ≠ 0x11) (hdue : f.since + 2 ^ 20 ≤ k * 2 ^ 20) :
    ∃ t : State, s.forwardTimeouts k = t.answer f.issuer .timeout ∧ t.cmi.fwds = [] ∧ (t.entry slot).pendOp = 0 ∧
      ∀ n, n ≠ slot → t.entry n = s.entry n := by
  have hentry : (s.fwdEnded f).entry = s.entry := rfl
  refine ⟨(s.fwdEnded f).replyTaken slot, ?_, ?_, congrArg Entry.pendOp (State.setEntry_entry_same _ slot _), fun n hn => ?_⟩
  · rw [State.forwardTimeouts_one hfwds, if_pos hdue, State.endForward_timeout hslot hissuer hfeed,
      State.endPendWith_replies (s := s.fwdEnded f) .timeout [] hpend, hentry, hissuer]
    rfl
  · unfold State.replyTaken
    dsimp only
    rw [State.setEntry_cmi, State.fwdEnded_one hfwds]
    rfl
  · exact (State.setEntry_entry_ne _ _ hn).trans (congrFun hentry n)

end Events

/-- Settles O44: each row, due and before its time, is one of the equations above on the state at its moment. -/
theorem timedEvents : Obligations.TimedEvents := by
  unfold Obligations.TimedEvents
  intro m s slot f e n x freed hreset
  rw [exec_deadlineReached_eq, exec_ttlExpiry_eq, exec_cancelledFree_eq, exec_openTimeout_eq, exec_forwardTimeout_eq,
    State.onDeadlineReached_acts hreset, State.onTtlExpiry_acts hreset, State.onCancelledFree_acts hreset, State.onOpenTimeout_acts hreset,
    State.onForwardTimeout_acts hreset]
  refine ⟨fun hhome hpast => ?deadline, fun hpast => congrArg _ (State.deadlineAct_early hpast), fun hentries _ hparked hstate hexpired =>
      ⟨_, rfl, State.sweep_cancels hentries hparked hexpired hstate⟩,
    fun hcopies hdir _ => congrArg _ (State.sweep_early hcopies hdir), fun hstate hdue => ?cancelled, fun hearly => congrArg _ (if_neg ?_),
    fun hstate hdue hpend _ hsmp => ⟨_, rfl, State.openTimeout_frees hstate hdue hpend hsmp⟩, fun hearly => congrArg _ (if_neg ?_),
    fun hfwds => ?forwarded, fun hfwds => congrArg _ (State.forwardTimeouts_none hfwds)⟩
  case deadline =>
    refine ⟨fun hedge hstate hpend hturn hfeeds hfor => ?_, fun k at' hedge hlive hturn hlast hin => ?_, fun hedge hstate hended => ?_⟩
    · have hopen : n.state ≠ .free := fun hx => hstate.elim (fun h => nomatch h.symm.trans hx) (fun h => nomatch h.symm.trans hx)
      obtain ⟨t, hfreed, ht⟩ := State.startClose_frees (s := e) (slot := slot) hopen .deadline hedge hhome hturn hfeeds hfor
      have hquiet : n.closeReply t = t := if_pos hpend
      exact ⟨t, congrArg _ ((State.deadlineAct_closes hhome hstate hpast).trans (ht.trans hquiet)), hfreed.entry, hfreed.sessions, hfreed.others,
        hfreed.hrpOut⟩
    · obtain ⟨hcloses, hstop⟩ := State.startClose_waits (s := e) (slot := slot) .deadline hedge hturn hlast hin
      exact ⟨_, congrArg _ (State.deadlineAct_closes hhome (.inl hlive) hpast), hcloses.closing, hstop, hcloses.turn.2.1, hcloses.others⟩
    · have hcloses := State.startClose_away (s := e) (slot := slot) .deadline hedge hended
      exact ⟨_, congrArg _ (State.deadlineAct_closes hhome hstate hpast), hcloses.closing, hcloses.others⟩
  case cancelled =>
    have hopen : n.state ≠ .free := by rw [hstate]; decide
    have hkept : Framed false [.entries, .edge, .home, .slots, .ledgers, .net] e (e.freeEntry slot) := State.freeEntry_framed rfl (.refl e)
    obtain ⟨hentry, -, hothers⟩ := State.freeEntry_frees hopen
    exact ⟨_, congrArg _ (if_pos ⟨hstate, hdue⟩), hentry, hothers, State.freeEntry_ledger hopen, (hkept.kept (f := .mem) (by decide)).symm⟩
  case refine_1 => exact fun h => hearly.elim (fun hx => hx h.1) (fun hx => Nat.not_le.2 hx h.2)
  case refine_2 => exact fun h => hearly.elim (fun hx => hx h.1) (fun hx => Nat.not_le.2 hx h.2)
  case forwarded =>
    refine ⟨fun hslot hdue => ?_, fun hslot hissuer hpend hfeed hdue => ?_, fun hearly => ?_⟩
    · rw [State.forwardTimeouts_one hfwds, if_pos hdue, State.endForward_unheld hslot, State.fwdEnded_one hfwds]
    · obtain ⟨t, ht, hkept⟩ := State.forwardTimeouts_held hfwds hslot hissuer hpend hfeed hdue
      exact ⟨t, congrArg _ ht, hkept⟩
    · rw [State.forwardTimeouts_one hfwds, if_neg (Nat.not_le.2 hearly)]

end Sys2Proof.Machine
end

section
/-! SUPPORT. SESSION_FEED at the edge of a LIVE session: the tokens' words in the ingress ring, their charge, the turn, and the home's part (R90, R101,
R102, R314, R326, R340, R358). -/
namespace Sys2Proof.Machine

theorem exec_sessionFeed_eq (m : Moment) (s : State) : exec (.sessionFeed m) s = .next (s.elapse m).onSessionFeed := rfl

/-! Words written to an ingress ring change nothing of the entry but the ring (R65, R74, R90). -/
section WriteIn
variable (s : State) (slot : Nat)

theorem State.consumeIn_entry : ∃ r, (s.consumeIn slot).entry slot = { s.entry slot with inRing := r } := by
  unfold State.consumeIn
  dsimp only
  split
  · exact ⟨_, rfl⟩
  · exact ⟨_, (State.setSlot_entry ..).trans (State.setEntry_entry_same s slot _)⟩

theorem State.pushIn_entry (w : Word) : ∃ r, (s.pushIn slot w).entry slot = { s.entry slot with inRing := r } := by
  unfold State.pushIn
  extract_lets e s1
  split
  · have hkept : Framed false [.slots] (s1.setEntry slot { e with inRing := e.inRing.push w })
        ((s1.setEntry slot { e with inRing := e.inRing.push w }).schedule slot false e.inRing (e.inRing.push w)) := State.schedule_framed rfl (.refl _)
    exact ⟨_, (hkept.entry_eq (by decide) slot).trans (State.setEntry_entry_same s1 slot _)⟩
  · have hkept : Framed false [.parts] (s.setEntry slot { e with inRing := e.inRing.rollback })
        ((s.setEntry slot { e with inRing := e.inRing.rollback }).countOverflow slot 1) := State.countOverflow_framed rfl (.refl _)
    exact ⟨_, (hkept.entry_eq (by decide) slot).trans (State.setEntry_entry_same s slot _)⟩

theorem State.writeIn_entry (pos : Nat) (toks : List Nat) : ∃ r, (s.writeIn slot pos toks).entry slot = { s.entry slot with inRing := r } := by
  unfold State.writeIn
  generalize (s.entry slot).gen = gen
  generalize toks.zipIdx = l
  induction l generalizing s with
  | nil => exact ⟨_, rfl⟩
  | cons t l ih =>
    obtain ⟨r1, h1⟩ := s.consumeIn_entry slot
    obtain ⟨r2, h2⟩ := (s.consumeIn slot).pushIn_entry slot (tokenWord slot gen (pos + t.2) t.1)
    obtain ⟨r3, h3⟩ := ih ((s.consumeIn slot).pushIn slot (tokenWord slot gen (pos + t.2) t.1))
    exact ⟨r3, h3.trans (by rw [h2, h1])⟩

end WriteIn

/-! The charge of tokens fed (R326, R340). -/
section Charge
variable (s : State) (slot n : Nat)

/-- The tokens out of the tenant's input bucket, and metered. -/
def State.charged : State :=
  let t := (s.entry slot).tenant
  let s0 := s.setLedger t { s.ledger t with inLevel := (s.ledger t).inLevel - n }
  { s0 with bal := { s0.bal with p := s0.bal.p + n } }

theorem State.chargeIn_eq : s.chargeIn slot n =
    if n ≠ 0 ∧ (s.ledger (s.entry slot).tenant).inLevel = n then (s.charged slot n).levelSpent (s.entry slot).tenant else s.charged slot n := rfl

theorem State.charged_bal : (s.charged slot n).bal = { s.bal with p := s.bal.p + n } := by
  unfold State.charged
  dsimp only
  rw [State.setLedger_bal]

theorem State.charged_ledger_same : (s.charged slot n).ledger (s.entry slot).tenant =
    { s.ledger (s.entry slot).tenant with inLevel := (s.ledger (s.entry slot).tenant).inLevel - n } := State.setLedger_ledger_same ..

theorem State.charged_ledger_ne {k : Nat} (h : k ≠ (s.entry slot).tenant) : (s.charged slot n).ledger k = s.ledger k := State.setLedger_ledger_ne s _ h

theorem State.charged_rest : (s.charged slot n).entries = s.entries ∧ (s.charged slot n).mem = s.mem ∧ (s.charged slot n).parts = s.parts :=
  ⟨State.setLedger_entries .., State.setLedger_mem .., State.setLedger_parts ..⟩

theorem State.chargeIn_ledger : (s.chargeIn slot n).ledger (s.entry slot).tenant =
    { s.ledger (s.entry slot).tenant with inLevel := (s.ledger (s.entry slot).tenant).inLevel - n } := by
  rw [State.chargeIn_eq, ← s.charged_ledger_same slot n]
  split
  · exact State.levelSpent_ledger ..
  · rfl

theorem State.chargeIn_bal : (s.chargeIn slot n).bal = { s.bal with p := s.bal.p + n } := by
  rw [State.chargeIn_eq, ← s.charged_bal slot n]
  split
  · exact State.levelSpent_bal ..
  · rfl

end Charge

/-! The turn that the tokens belong to (R101, R102, R143). -/
section Turn
variable (s : State) (slot : Nat)

/-- A turn whose last part has come ends when more is fed. -/
def State.turnEnded : State :=
  if (s.edgeAt slot).turnOpen && (s.edgeAt slot).fedLast then s.endStream slot .nextTurn (s.withheldFrom slot) else s

/-- No turn is open: what is fed begins one. -/
def State.starts (s : State) (slot : Nat) : Bool := !(s.edgeAt slot).turnOpen

/-- The turn that what is fed belongs to is open. -/
def State.turnBegun : State := if s.starts slot then s.openTurn slot else s

theorem State.turnBegun_framed : Framed false [.entries, .edge, .net] s (s.turnBegun slot) := by
  unfold State.turnBegun
  split
  · exact State.openTurn_framed rfl (.refl s)
  · exact .refl s

theorem State.turnBegun_entry : (s.turnBegun slot).entry slot =
    { s.entry slot with outCount := if s.starts slot then 0 else (s.entry slot).outCount,
                        promptLen := if s.starts slot then 0 else (s.entry slot).promptLen,
                        stop := if s.starts slot then .none else (s.entry slot).stop } := by
  unfold State.turnBegun
  cases s.starts slot with
  | false => rfl
  | true => exact (State.setEdge_entry ..).trans (State.setEntry_entry_same ..)

theorem State.turnBegun_open : ((s.turnBegun slot).edgeAt slot).turnOpen = true := by
  unfold State.turnBegun
  split
  · exact congrArg EdgeAux.turnOpen (State.setEdge_edgeAt_same ..)
  · next h => simpa [State.starts] using h

end Turn

/-! The tokens taken at the edge (R90, R101, R103). -/
section Taken
variable (s : State) (slot : Nat) (w : Word) (toks : List Nat) (undo : Option FeedUndo)

/-- The turn open and the tokens paid for. -/
def State.feedPaid : State := (s.turnBegun slot).chargeIn slot toks.length

/-- The tokens in the ingress ring and counted in the entry. -/
def State.feedCounted : State :=
  let e := (s.feedPaid slot toks).entry slot
  let t := (s.feedPaid slot toks).writeIn slot e.length toks
  t.setEntry slot { t.entry slot with length := e.length + toks.length, promptLen := e.promptLen + toks.length,
                                      inTotal := satAdd 32 e.inTotal toks.length }

/-- The tokens taken: the edge knows the end of the prompt, and T_in once the turn's last part has come. -/
def State.feedTaken : State :=
  let e := (s.feedPaid slot toks).entry slot
  let x := (s.feedCounted slot toks).edgeAt slot
  let t := (s.feedCounted slot toks).setEdge slot
    { x with base := if toks.length = 0 ∧ s.starts slot = false then x.base else e.length + toks.length,
             promptEnd := if toks.length = 0 then x.promptEnd else e.length + toks.length, undo := undo }
  if feedLast w then t.fixTIn slot else t

theorem State.feedPaid_entry : (s.feedPaid slot toks).entry slot = (s.turnBegun slot).entry slot := by
  have hkept : Framed false [.ledgers, .parts, .ints, .bal, .net] (s.turnBegun slot) (s.feedPaid slot toks) := State.chargeIn_framed rfl (.refl _)
  exact hkept.entry_eq (by decide) slot

/-- What an accepted FEED leaves, and with what the home is asked. -/
theorem State.feedAccepted_eq (i : Issuer) (ws : List Word) : ∃ undo, s.feedAccepted slot i w ws toks =
    ((s.turnEnded slot).feedTaken slot w toks undo).feedHome slot i ws ((s.turnEnded slot).starts slot) (feedLast w) toks
      ((s.turnEnded slot).entry slot).length (if (s.turnEnded slot).starts slot then 0 else ((s.turnEnded slot).entry slot).promptLen) := by
  have hentry := ((s.turnEnded slot).feedPaid_entry slot toks).trans ((s.turnEnded slot).turnBegun_entry slot)
  have hlength : (((s.turnEnded slot).feedPaid slot toks).entry slot).length = ((s.turnEnded slot).entry slot).length := by rw [hentry]
  have hprompt : (((s.turnEnded slot).feedPaid slot toks).entry slot).promptLen =
      if (s.turnEnded slot).starts slot then 0 else ((s.turnEnded slot).entry slot).promptLen := by rw [hentry]
  rw [← hlength, ← hprompt]
  exact ⟨_, rfl⟩

theorem State.feedPaid_edgeAt : (s.feedPaid slot toks).edgeAt slot = (s.turnBegun slot).edgeAt slot := by
  have hkept : Framed false [.ledgers, .parts, .ints, .bal, .net] (s.turnBegun slot) (s.feedPaid slot toks) := State.chargeIn_framed rfl (.refl _)
  exact hkept.edgeAt_eq (by decide) slot

theorem State.feedCounted_framed : Framed false [.entries, .slots, .parts, .mem, .img, .net] (s.feedPaid slot toks) (s.feedCounted slot toks) :=
  State.setEntry_framed rfl (State.writeIn_framed rfl (.refl _))

theorem State.feedTaken_framed : Framed false [.edge] (s.feedCounted slot toks) (s.feedTaken slot w toks undo) := by
  unfold State.feedTaken
  dsimp only
  split
  · exact State.fixTIn_framed rfl (State.setEdge_framed rfl (.refl _))
  · exact State.setEdge_framed rfl (.refl _)

/-- The entry counts the tokens; beside its counts and the turn's reason only the ring has changed. -/
theorem State.feedTaken_entry : (s.feedTaken slot w toks undo).entry slot =
    { s.entry slot with length := (s.entry slot).length + toks.length,
                        promptLen := (if s.starts slot then 0 else (s.entry slot).promptLen) + toks.length,
                        inTotal := satAdd 32 (s.entry slot).inTotal toks.length,
                        outCount := if s.starts slot then 0 else (s.entry slot).outCount,
                        stop := if s.starts slot then .none else (s.entry slot).stop,
                        inRing := ((s.feedTaken slot w toks undo).entry slot).inRing } := by
  have hring : ∃ r, (s.feedTaken slot w toks undo).entry slot =
      { (s.turnBegun slot).entry slot with length := ((s.turnBegun slot).entry slot).length + toks.length,
                                           promptLen := ((s.turnBegun slot).entry slot).promptLen + toks.length,
                                           inTotal := satAdd 32 ((s.turnBegun slot).entry slot).inTotal toks.length, inRing := r } := by
    obtain ⟨r, hr⟩ := (s.feedPaid slot toks).writeIn_entry slot ((s.feedPaid slot toks).entry slot).length toks
    refine ⟨r, ((s.feedTaken_framed slot w toks undo).entry_eq (by decide) slot).trans ?_⟩
    unfold State.feedCounted
    dsimp only
    rw [State.setEntry_entry_same, hr, s.feedPaid_entry slot toks]
  obtain ⟨r, hr⟩ := hring
  rw [hr, s.turnBegun_entry slot]

/-- T_in fixed leaves the turn open. -/
theorem State.fixTIn_turnOpen (s : State) (slot : Nat) : ((s.fixTIn slot).edgeAt slot).turnOpen = (s.edgeAt slot).turnOpen := by
  unfold State.fixTIn
  dsimp only
  split
  · rfl
  · rw [State.setEdge_edgeAt_same]

theorem State.feedTaken_open : ((s.feedTaken slot w toks undo).edgeAt slot).turnOpen = true := by
  have hcounted : ((s.feedCounted slot toks).edgeAt slot).turnOpen = true := by
    rw [(s.feedCounted_framed slot toks).edgeAt_eq (by decide), s.feedPaid_edgeAt slot toks]
    exact s.turnBegun_open slot
  unfold State.feedTaken
  dsimp only
  split
  · rw [State.fixTIn_turnOpen]
    exact (congrArg EdgeAux.turnOpen (State.setEdge_edgeAt_same ..)).trans hcounted
  · exact (congrArg EdgeAux.turnOpen (State.setEdge_edgeAt_same ..)).trans hcounted

/-- What the tokens change beside the turn and the charge: the entry, the ring's memory and the edge's own record. -/
theorem State.feedTaken_framed_feedPaid :
    Framed false [.entries, .edge, .slots, .parts, .mem, .img, .net] (s.feedPaid slot toks) (s.feedTaken slot w toks undo) :=
  ((s.feedCounted_framed slot toks).mono (by decide)).after (s.feedTaken_framed slot w toks undo) (by decide)

theorem State.feedPaid_framed : Framed false [.entries, .edge, .ledgers, .parts, .ints, .bal, .net] s (s.feedPaid slot toks) :=
  State.chargeIn_framed rfl ((s.turnBegun_framed slot).mono (by decide))

theorem State.feedTaken_framed_all :
    Framed false [.entries, .edge, .slots, .ledgers, .parts, .ints, .bal, .mem, .img, .net] s (s.feedTaken slot w toks undo) :=
  ((s.feedPaid_framed slot toks).mono (by decide)).after (s.feedTaken_framed_feedPaid slot w toks undo) (by decide)

theorem State.feedTaken_ledger : (s.feedTaken slot w toks undo).ledger (s.entry slot).tenant =
    { s.ledger (s.entry slot).tenant with inLevel := (s.ledger (s.entry slot).tenant).inLevel - toks.length } := by
  have htenant : ((s.turnBegun slot).entry slot).tenant = (s.entry slot).tenant := by rw [s.turnBegun_entry slot]
  rw [(s.feedTaken_framed_feedPaid slot w toks undo).ledger_eq (by decide), ← htenant, ← (s.turnBegun_framed slot).ledger_eq (by decide)]
  exact State.chargeIn_ledger ..

theorem State.feedTaken_bal : (s.feedTaken slot w toks undo).bal = { s.bal with p := s.bal.p + toks.length } := by
  have hpaid : (s.feedPaid slot toks).bal = { (s.turnBegun slot).bal with p := (s.turnBegun slot).bal.p + toks.length } := State.chargeIn_bal ..
  have hbegun : s.bal = (s.turnBegun slot).bal := (s.turnBegun_framed slot).kept (f := .bal) (by decide)
  rw [hbegun, ← hpaid]
  exact ((s.feedTaken_framed_feedPaid slot w toks undo).kept (f := .bal) (by decide)).symm

end Taken

/-! The checks of a FEED on a LIVE session that holds no reply, and the home's answer (R101, R314, R326, R357, R358). -/
section Feed
variable {s : State} {i : Issuer} {ps ws : List Word} {slot : Nat}

theorem State.onSessionFeed_acts (h : Starts s 0x11 i ps) (hlen : feedLen ps = some ps.length) (hstray : feedStray ps = false)
    (hedge : s.popPkt.hasEdge = true) (hfound : FindsSession s.popPkt i ps (·.edge) slot) :
    s.onSessionFeed = s.popPkt.feedSession i ps (cmdHeader i ps.length :: ps) slot := by
  rw [State.onSessionFeed, runCmd_acts h (by decide) rfl hlen hstray]
  exact hfound.acts hedge

section Checks
variable (hlive : ((s.streamDue slot).entry slot).state = .live) (hpend : ((s.streamDue slot).entry slot).pendOp = 0)
include hlive hpend

theorem State.feedSession_accepts (hcheck : (s.streamDue slot).feedCheck slot (unpackToks (ps.drop 1) (feedCount (wat ps 0))) = none) :
    s.feedSession i ps ws slot = (s.streamDue slot).feedAccepted slot i (wat ps 0) ws (unpackToks (ps.drop 1) (feedCount (wat ps 0))) := by
  unfold State.feedSession
  dsimp only
  rw [if_neg (by rw [hlive, hpend]; decide), hcheck]

theorem State.feedSession_noBudget (hcheck : (s.streamDue slot).feedCheck slot (unpackToks (ps.drop 1) (feedCount (wat ps 0))) = some .noBudget) :
    s.feedSession i ps ws slot =
      ((s.streamDue slot).setLedger ((s.streamDue slot).entry slot).tenant
        { (s.streamDue slot).ledger ((s.streamDue slot).entry slot).tenant with
          inRefused := satAdd 32 ((s.streamDue slot).ledger ((s.streamDue slot).entry slot).tenant).inRefused
            (unpackToks (ps.drop 1) (feedCount (wat ps 0))).length }).answer i .noBudget := by
  unfold State.feedSession
  dsimp only
  rw [if_neg (by rw [hlive, hpend]; decide), hcheck]

theorem State.feedSession_refuses {st : Status} (hcheck : (s.streamDue slot).feedCheck slot (unpackToks (ps.drop 1) (feedCount (wat ps 0))) = some st)
    (hst : st ≠ .noBudget) : s.feedSession i ps ws slot = (s.streamDue slot).answer i st := by
  unfold State.feedSession
  dsimp only
  rw [if_neg (by rw [hlive, hpend]; decide), hcheck]
  split
  · next h => cases h
              exact absurd rfl hst
  · next h => cases h
              rfl
  · next h => cases h

end Checks

section Home
variable (first last : Bool) (toks : List Nat) (pos idx : Nat)

/-- The home is on this gate and no block of the FEED waits to be hashed. -/
theorem State.feedHome_replies (hhome : (s.entry slot).home = true)
    (hhashed : ((s.homeFeed slot first last toks pos idx s.imgGen s.cmi.arrival).homeAt slot).hashQ.length = (s.homeAt slot).hashQ.length) :
    s.feedHome slot i ws first last toks pos idx = (s.homeFeed slot first last toks pos idx s.imgGen s.cmi.arrival).reply i .ok
      ((s.homeFeed slot first last toks pos idx s.imgGen s.cmi.arrival).feedResult slot (s.entry slot).length) := by
  unfold State.feedHome
  dsimp only
  rw [if_pos hhome, if_pos hhashed]

/-- The home is on this gate and blocks of the FEED wait to be hashed. -/
theorem State.feedHome_waits (hhome : (s.entry slot).home = true)
    (hhash : ((s.homeFeed slot first last toks pos idx s.imgGen s.cmi.arrival).homeAt slot).hashQ.length ≠ (s.homeAt slot).hashQ.length) :
    ∃ u : State, s.feedHome slot i ws first last toks pos idx = u.holdReply slot i ∧
      u.hrpOut = (s.homeFeed slot first last toks pos idx s.imgGen s.cmi.arrival).hrpOut ∧
      (u.homeAt slot).feeds = ((s.homeFeed slot first last toks pos idx s.imgGen s.cmi.arrival).homeAt slot).feeds ++
        [{ issuer := i, length := (s.entry slot).length,
           blocks := ((s.homeFeed slot first last toks pos idx s.imgGen s.cmi.arrival).homeAt slot).hashQ.length }] := by
  unfold State.feedHome
  dsimp only
  rw [if_pos hhome, if_neg hhash]
  exact ⟨_, rfl, State.setHome_hrpOut .., congrArg HomeAux.feeds (State.setHome_homeAt_same ..)⟩

theorem State.feedHome_forwards (hhome : (s.entry slot).home = false) :
    s.feedHome slot i ws first last toks pos idx = (s.holdReply slot i).forward (s.entry slot).homeGate ws i (some slot) :=
  if_neg (ne_true_of_eq_false hhome)

end Home

end Feed

/-- Settles O12: a FEED that starts is one of three outcomes of its checks, the accepted one is the turn, the charge and the entry above, and the home
answers by where it is and by what waits to be hashed. -/
theorem sessionFeedsAndCharges : Obligations.SessionFeedsAndCharges := by
  unfold Obligations.SessionFeedsAndCharges
  refine ⟨?feed, ?charge⟩
  case feed =>
    intro m s i ps slot p q toks n e l x z first f pl h hlen hstray hedge hfound hlive hpend
    rw [exec_sessionFeed_eq, State.onSessionFeed_acts h hlen hstray hedge hfound]
    refine ⟨fun hcheck => ?_, fun hcheck => congrArg _ (State.feedSession_noBudget hlive hpend hcheck),
      fun st hcheck hst => congrArg _ (State.feedSession_refuses hlive hpend hcheck hst)⟩
    obtain ⟨undo, haccepted⟩ := q.feedAccepted_eq slot (wat ps 0) toks i (cmdHeader i ps.length :: ps)
    have hkept := z.feedTaken_framed_all slot (wat ps 0) toks undo
    refine ⟨z.feedTaken slot (wat ps 0) toks undo, congrArg _ ((State.feedSession_accepts hlive hpend hcheck).trans haccepted),
      z.feedTaken_entry .., z.feedTaken_open .., z.feedTaken_ledger .., z.feedTaken_bal .., (hkept.kept (f := .hrpOut) (by decide)).symm,
      (hkept.kept (f := .home) (by decide)).symm, (hkept.kept (f := .fsp) (by decide)).symm⟩
  case charge =>
    intro s slot n i ws first last toks pos idx t l v
    obtain ⟨hentries, hmem, hparts⟩ := s.charged_rest slot n
    exact ⟨fun _ => ⟨s.charged slot n, s.chargeIn_eq slot n, s.charged_bal slot n, s.charged_ledger_same slot n,
        fun _ hk => s.charged_ledger_ne slot n hk, hentries, hmem, hparts⟩,
      fun hhome hhashed => State.feedHome_replies first last toks pos idx hhome hhashed,
      fun hhome hhash => State.feedHome_waits first last toks pos idx hhome hhash,
      fun hhome => State.feedHome_forwards first last toks pos idx hhome⟩

end Sys2Proof.Machine
end

section
/-! SUPPORT. PARTITION_RESET of an idle partition in a table that is not canonical: a slot listed twice is cancelled through its second entry (R337). -/
namespace Sys2Proof.Machine

theorem exec_partitionReset_eq (m : Moment) (s : State) : exec (.partitionReset m) s = .next (s.elapse m).onPartitionReset := rfl

/-- PARTITION_RESET of the partition that its payload names, which is idle and the issuer's own, starts the reset. -/
theorem State.onPartitionReset_starts {s : State} {i : Issuer} {w : Word} (h : Starts s 0x49 i [w]) (hown : (i.part == bf w 63 58) = true)
    (hstray : stray w [(63, 58)] = false) (hidle : s.popPkt.partIdle (bf w 63 58) = true) :
    s.onPartitionReset = s.popPkt.startPartReset i (bf w 63 58) := by
  have hwho : (i.isP0 || ([w] : List Word).isEmpty || i.part == bf (wat [w] 0) 63 58) = true := by
    rw [Bool.or_eq_true]
    exact .inr hown
  rw [State.onPartitionReset, runCmd_acts h (by decide) hwho rfl hstray]
  exact if_pos hidle

/-- A packet of PARTITION_RESET that names partition 0. -/
def resetPacket : Pkt := { part := 0, words := [pack [(0x49, 63, 56), (1, 55, 52), (1, 27, 12)], 0], arrived := 0, fine := 0 }

/-- A gate that has started, its packet waiting over SMP. Slot 0 stands twice in the table: as a LIVE session of partition 1, which is what a read
finds, and behind it as a WINTERED session of partition 0. -/
def listedTwice : State :=
  { State.reset with
    rs := { ResetU.cold with start := none }
    entries := [(0, { Entry.zero with state := .live, home := true, part := 1 }), (0, { Entry.zero with state := .wintered, part := 0 })]
    cmi := { CmiU.zero with smpVersion := some 1, smpRing := [resetPacket] } }

/-- The issuer of its packet. -/
def resetIssuer : Issuer := { op := 0x49, part := 0, tag := 0, smp := true, src := none }

theorem listedTwice_starts : Starts (listedTwice.elapse atOnce) 0x49 resetIssuer [0] := by
  refine ⟨⟨true, resetPacket, ?_, ?_, rfl, ?_⟩, rfl, .inr (.inr ?_)⟩
  · decide +kernel
  · decide +kernel
  · decide +kernel
  · decide +kernel

/-- Refutes O17: the clause that leaves every session unchanged that is not a WINTERED one of the partition asks no canonical table. In
`listedTwice` a read of slot 0 finds a LIVE session of partition 1, and the reset of partition 0, which goes through the entries as they are
listed, cancels it. -/
theorem not_partitionCommands : ¬ Obligations.PartitionCommands := by
  unfold Obligations.PartitionCommands
  rintro ⟨-, hreset⟩
  have hstray : stray 0 [(63, 58)] = false := by decide
  have hidle : (listedTwice.taken atOnce).partIdle (bf 0 63 58) = true := by decide +kernel
  have hlive : ((listedTwice.taken atOnce).entry 0).state = .live := by decide +kernel
  have hcancelled : (((listedTwice.taken atOnce).startPartReset resetIssuer (bf 0 63 58)).entry 0).state = .cancelled := by decide +kernel
  obtain ⟨hcommand, -⟩ := hreset atOnce listedTwice resetIssuer 0 { part := 0, start := 0, since := 0, cleared := false, issuer := resetIssuer } 0
  obtain ⟨-, hstarts⟩ := hcommand listedTwice_starts (.inr (by decide)) hstray
  obtain ⟨t, ht, -, -, -, -, hothers⟩ := hstarts hidle
  rw [exec_partitionReset_eq, State.onPartitionReset_starts listedTwice_starts (by decide) hstray hidle, Host.Outcome.next.injEq] at ht
  have hsame := hothers 0 (.inr (by rw [hlive]; decide))
  rw [← ht] at hsame
  have hstate := congrArg Entry.state hsame
  rw [show (listedTwice.elapse atOnce).popPkt = listedTwice.taken atOnce from rfl, hcancelled, hlive] at hstate
  cases hstate

end Sys2Proof.Machine
end
